-- ==== Sys2Proof/Word.lean ====
section
/-! DEFINITION. The word types of the Glinal G7 (spec/00_scope.md R1, R4). Only the types and the plainest
conversions stand here; every helper a test could show wrong stands in Decode.lean or Machine/. -/

namespace Sys2Proof

/-- A byte, 8 bits (R1). -/
abbrev Byte := BitVec 8

/-- A half, 16 bits (R1). -/
abbrev Half := BitVec 16

/-- A word, 32 bits (R1). -/
abbrev Word := BitVec 32

/-- A double, 64 bits (R1). -/
abbrev Dword := BitVec 64

end Sys2Proof
end

