-- ==== Sys2Proof/Syntax.lean ====
section
/-! DEFINITION. The syntax of every row of spec/opcode_table.json: one constructor per row. Instructions carry their
operand selectors as data (spec/03_encoding.md R59-R61); events carry the agent that takes the step, named by
the numbers the spec gives it, and what the outside world supplies. Nothing here says what a step does. -/

namespace Sys2Proof

/-- A register or constant that a selector field names (R59, R60). `v`, `o`, `x`, `a`, `s` are the register
files, the others the inline constants in the order of R59. -/
inductive Sel where
  | v (n : Nat)
  | o (n : Nat)
  | x (n : Nat)
  | a (n : Nat)
  | s (n : Nat)
  | zero | one | negOne | half | two | laneIdx | sliceIdx | crewSize
  deriving DecidableEq, Repr, Inhabited

/-- TYPE of the integer group (R64). -/
inductive IType where
  | s32 | u32 | s16 | u16 | s8 | u8 | s4
  deriving DecidableEq, Repr, Inhabited

/-- TYPE of the float group (R64). -/
inductive FType where
  | f32 | f64 | f16 | bf16
  deriving DecidableEq, Repr, Inhabited

/-- Width of a memory element (R64, column M1, M2). -/
inductive Width where
  | b8 | b16 | b32 | b64 | b128
  deriving DecidableEq, Repr, Inhabited

/-- ORD (R65). -/
inductive Order where
  | relaxed | acquire | release | acqRel | seq
  deriving DecidableEq, Repr, Inhabited

/-- SCOPE (R65, R234), from the narrowest. -/
inductive Scope where
  | crew | core | cluster | die | device | system
  deriving DecidableEq, Repr, Inhabited

/-- Scratchpad space (R169). -/
inductive Space where
  | local | cluster
  deriving DecidableEq, Repr, Inhabited

/-- Rounding modes (R7, R103). -/
inductive Rounding where
  | rne | rtz | rup | rdn
  deriving DecidableEq, Repr, Inhabited

/-- Rounding control of the format-B float instructions (R121): a mode, or the lane's sr.fpmode. -/
inductive RoundCtl where
  | static (m : Rounding)
  | dyn
  deriving DecidableEq, Repr, Inhabited

/-- Second source of a format-B instruction: word 1 as an immediate (XW = 0) or a selector (XW = 1). -/
inductive Src where
  | imm (w : Word)
  | reg (r : Sel)
  deriving DecidableEq, Repr, Inhabited

/-- Conditions of ICMP (R90). -/
inductive ICond where
  | eq | ne | lt | le | gt | ge
  deriving DecidableEq, Repr, Inhabited

/-- Conditions of FCMP (R126). -/
inductive FCond where
  | eq | ne | lt | le | gt | ge | ord | unord
  deriving DecidableEq, Repr, Inhabited

/-- Operations of PLOP (R90). -/
inductive PredOp where
  | and | or | xor | andn
  deriving DecidableEq, Repr, Inhabited

/-- A predicate operand of PLOP: its number and its negation bit (R90). -/
structure PredRef where
  p : Nat
  neg : Bool
  deriving DecidableEq, Repr, Inhabited

/-- Modes of VOTE (R35). -/
inductive VoteMode where
  | all | any | ballot | eq | popc
  deriving DecidableEq, Repr, Inhabited

/-- Modes of SHFL (R35). -/
inductive ShflMode where
  | idx | up | down | xor
  deriving DecidableEq, Repr, Inhabited

/-- Targets of CVT (R130). -/
inductive CvtTarget where
  | f32 | f64 | f16 | bf16 | e4m3
  deriving DecidableEq, Repr, Inhabited

/-- Rounding operand of FRND (R125). -/
inductive RndMode where
  | static (m : Rounding)
  | fpmode
  deriving DecidableEq, Repr, Inhabited

/-- Special registers (R78 and the chapters that own the others). `q n` is sr.qn (R193). -/
inductive SReg where
  | lane | gangctl | flags | cycle | clock | core | alloc | wg | domain
  | fpmode | count | spad | racecov | wgtag | gate | appr
  | q (n : Nat)
  deriving DecidableEq, Repr, Inhabited

/-- A matrix operand (R57, R147, R148): a register base vN, or the uniform pair sN, sN+1. -/
inductive MOperand where
  | reg (n : Nat)
  | spad (n : Nat)
  deriving DecidableEq, Repr, Inhabited

/-- Format of an accumulator (R145, R155). -/
inductive AccFmt where
  | fp32 | fp64 | int32
  deriving DecidableEq, Repr, Inhabited

/-- The chain of a slot (R155): E or O. -/
inductive Chain where
  | e | o
  deriving DecidableEq, Repr, Inhabited

/-- Element width of MTRANS (R163). -/
inductive TransWidth where
  | b8 | b16 | b32 | b64
  deriving DecidableEq, Repr, Inhabited

/-- In-flight paths (R176, R179). -/
inductive Path where
  | sp | cl | dm | en | ic
  deriving DecidableEq, Repr, Inhabited

/-- Atomic operations of ATOMS, ATOM and RED (R186). -/
inductive AtomOp where
  | add | sub | mins | maxs | minu | maxu | and | or | xor | xchg | cas | fadd | incw
  deriving DecidableEq, Repr, Inhabited

/-- The record of a memory instruction (R55, R202): an immediate index, or a register holding it. -/
inductive RecRef where
  | imm (n : Nat)
  | reg (r : Sel)
  deriving DecidableEq, Repr, Inhabited

/-- The address of LD and ST (R202): offset mode or pointer mode. -/
inductive MemAddr where
  | off (r : RecRef) (o : Sel)
  | ptr (o : Sel)
  deriving DecidableEq, Repr, Inhabited

/-- A segment operand of ICFETCH (R397). -/
inductive SegRef where
  | imm (n : Nat)
  | reg (r : Sel)
  deriving DecidableEq, Repr, Inhabited

/-- Operands of the three-selector integer instructions of format A (R53, R82). -/
structure IntA where
  ty : IType
  nw : Bool
  d : Sel
  a : Sel
  b : Sel
  deriving DecidableEq, Repr, Inhabited

/-- Operands of the one-source integer instructions (R82, R86). -/
structure IntU where
  ty : IType
  nw : Bool
  d : Sel
  a : Sel
  deriving DecidableEq, Repr, Inhabited

/-- Operands of the logic instructions (R86). -/
structure LogicA where
  nw : Bool
  d : Sel
  a : Sel
  b : Sel
  deriving DecidableEq, Repr, Inhabited

/-- Operands of IMAD and IMADW (R82, R83). -/
structure IntMad where
  ty : IType
  nw : Bool
  d : Sel
  a : Sel
  b : Sel
  c : Sel
  deriving DecidableEq, Repr, Inhabited

/-- The two forms of BFI (R88). -/
inductive BfiForm where
  | imm (d : Sel) (a : Sel) (ctl : Word)
  | reg (d : Sel) (a : Sel) (b : Sel) (c : Sel)
  deriving DecidableEq, Repr, Inhabited

/-- The two forms of PERM (R89). -/
inductive PermForm where
  | imm (d : Sel) (a : Sel) (ctl : Word)
  | reg (d : Sel) (a : Sel) (b : Sel) (c : Sel)
  deriving DecidableEq, Repr, Inhabited

/-- Operands of the two-source float instructions of format A (R122). -/
structure FltA where
  ty : FType
  nw : Bool
  d : Sel
  a : Sel
  b : Sel
  deriving DecidableEq, Repr, Inhabited

/-- Operands of the one-source float instructions of format A. -/
structure FltU where
  ty : FType
  nw : Bool
  d : Sel
  a : Sel
  deriving DecidableEq, Repr, Inhabited

/-- Operands of the scratchpad accesses (R172). -/
structure SpadAcc where
  w : Width
  ord : Order
  scope : Scope
  d : Sel
  addr : Sel
  off : Src
  deriving DecidableEq, Repr, Inhabited

/-- Operands of an atomic through a record (R223); `sw` is the SW bit, to which the entry gives no meaning. -/
structure RecAtom where
  op : AtomOp
  w : Width
  ord : Order
  scope : Scope
  nw : Bool
  sw : Bool
  rcd : RecRef
  off : Sel
  data : Sel
  st : Option Sel
  deriving DecidableEq, Repr, Inhabited

/-- Operands of LDT and STT (R56, R222). -/
structure TensorAcc where
  w : Width
  nw : Bool
  swept : Bool
  data : Sel
  coords : List Sel
  rcd : Nat
  shape : Nat
  st : Option Sel
  deriving DecidableEq, Repr, Inhabited

/-- Operands of a pass given by a PASS command (R326). -/
structure PassArgs where
  slot : Nat
  wsize : Nat
  colFirst : Nat
  colLen : Nat
  deriving DecidableEq, Repr, Inhabited

/-- Operands of a KPASS command (R326). -/
structure KpassArgs where
  wsize : Nat
  colFirst : Nat
  colLen : Nat
  tcond : Nat
  top : Nat
  wr : Bool
  deriving DecidableEq, Repr, Inhabited

/-- Operands of a MACR command (R326). -/
structure MacrArgs where
  acc : Nat
  nacc : Nat
  len : Nat
  voff : Nat
  bf : Bool
  deriving DecidableEq, Repr, Inhabited

/-- An access by the host or by a peer module (R259, R442): what it does and to which physical bytes. -/
inductive ExtAccess where
  | read (pa : Nat) (n : Nat)
  | write (pa : Nat) (bytes : List Byte)
  | atomic (op : AtomOp) (wide : Bool) (pa : Nat) (b c : Dword)
  deriving DecidableEq, Repr, Inhabited

/-- Who stores to the module register page (R440). -/
inductive RegWriter where
  | pmc | host | lane
  deriving DecidableEq, Repr, Inhabited

/-- A firmware image offered to the boot ROM (R451): what of it the spec names. -/
structure Firmware where
  publicKey : List Byte
  body : List Byte
  signature : List Byte
  version : Nat
  deriving DecidableEq, Repr, Inhabited

/-- One constructor per row of spec/opcode_table.json, events first. Numbers name: a workgroup by its WGTAG, a gang
by its number in the workgroup, a home set by its index, a core, a pseudo-channel g, a queue by the physical
address of its header, a packet by its sequence number. -/
inductive Instr where
  -- events of lanes, gangs and crews (spec/02)
  | clauseIssue (wg gang : Nat)
  | gangUnpark (wg gang : Nat)
  | regangWindowClose (wg hset pc : Nat)
  | yieldHoldExpire (wg gang : Nat)
  | crossLaneGather (wg hset pc : Nat)
  | crewDissolve (wg crew : Nat)
  | workgroupComplete (wg : Nat)
  | inFlightComplete (wg crew item : Nat)
  | matrixOpStart (core quad q : Nat)
  | matrixOpComplete (wg hset q : Nat)
  | lockRetry (wg gang : Nat)
  | lockHold (wg gang : Nat)
  | raceStallRelease (wg gang : Nat)
  | raceStallTimeout (wg gang : Nat)
  | l2EvictSpill (line : Nat)
  | shootdownAck (core : Nat)
  | preempt (wg : Nat)
  | preemptSave (wg : Nat)
  | restore (wg core : Nat)
  | nodeReady (node : Nat)
  | workgroupPlace (node core : Nat)
  | bankJob (g : Nat)
  | packetNode (node : Nat)
  | segmentLanded (core slot : Nat)
  -- events of engines (spec/12)
  | queueEnable (hdr : Nat)
  | queueDisable (hdr : Nat)
  | packetStart (hdr : Nat)
  | packetComplete (hdr seq : Nat)
  | engineSlotClaim (hdr seq : Nat)
  | copyPacket (hdr seq : Nat)
  | gather (hdr seq : Nat)
  | quant2 (hdr seq : Nat)
  | coll (hdr seq : Nat) (contrib : List (Nat × List Byte))
  | ckpt (hdr seq : Nat)
  | assay (hdr seq : Nat)
  | link (hdr seq : Nat)
  -- events of the inference units (spec/17)
  | sorterEntry (core q : Nat)
  | apprenticeLoadComplete (core unit : Nat)
  -- events of the banks (spec/13)
  | sweepStep (g : Nat)
  | forcedRowApply (g : Nat)
  | catchupStep (g : Nat)
  | allbankEnter (g wg crew mask : Nat)
  | allbankExit (g : Nat)
  | allbankTimeout (g : Nat)
  | act (g row : Nat)
  | pre (g : Nat)
  | pass (g : Nat) (args : PassArgs)
  | kpass (g : Nat) (args : KpassArgs)
  | macr (g : Nat) (args : MacrArgs)
  | ctlWindowWrite (g off : Nat) (wide : Bool) (val : Dword)
  -- events of the host, the fabric and the PMC (spec/19)
  | doorbell (domain : Nat)
  | doorbellPageStore (wg crew : Nat)
  | lrtailWrite (val : Dword)
  | moduleRegisterWrite (who : RegWriter) (off : Nat) (val : Dword)
  | hostAccess (acc : ExtAccess)
  | remoteAccess (acc : ExtAccess)
  | backInvalidate (line : Nat) (bytes : List Byte)
  | linkCrcReplay (port : Nat)
  | dramCorrectableError (g bank row : Nat)
  | sramCorrectableError (core bank row : Nat)
  | clockChange (island mhz : Nat)
  | refreshRateChange (stack : Nat) (hot : Bool)
  | thermalShutdown
  | thermalRecovery
  | moduleReset (img : Firmware)
  | recoveryImage (img : Firmware)
  | lifecycleChange (st : Nat)
  | attestationRequest (nonce : List Byte)
  -- integer and special-register instructions (spec/04)
  | mov (o : IntU)
  | movi (ty : IType) (nw : Bool) (d : Sel) (src : Src)
  | movs (nw : Bool) (d : Sel) (r : SReg)
  | movsWide (nw : Bool) (d : Sel)
  | movsw (r : SReg) (a : Sel)
  | iadd (o : IntA)
  | iaddc (o : IntA)
  | isub (o : IntA)
  | isubb (o : IntA)
  | imul (o : IntA)
  | imulh (o : IntA)
  | imad (o : IntMad)
  | imadw (o : IntMad)
  | idiv (o : IntA)
  | irem (o : IntA)
  | imin (o : IntA)
  | imax (o : IntA)
  | iabs (o : IntU)
  | ineg (o : IntU)
  | popc (o : IntU)
  | clz (o : IntU)
  | ctz (o : IntU)
  | brev (o : IntU)
  | and (o : LogicA)
  | or (o : LogicA)
  | xor (o : LogicA)
  | andn (o : LogicA)
  | shl (o : IntA)
  | shr (o : IntA)
  | sar (o : IntA)
  | rot (o : IntA)
  | bfx (ty : IType) (nw : Bool) (d a : Sel) (ctl : Src)
  | bfi (ty : IType) (nw : Bool) (f : BfiForm)
  | perm (nw : Bool) (f : PermForm)
  | icmp (c : ICond) (ty : IType) (pd : Nat) (a : Sel) (b : Src)
  | sel (ty : IType) (nw : Bool) (p : PredRef) (d a : Sel) (b : Src)
  | plop (op : PredOp) (d a b : PredRef)
  | vote (m : VoteMode) (nw : Bool) (d a : Sel)
  | shfl (m : ShflMode) (nw : Bool) (d a b : Sel)
  -- vector float instructions (spec/06)
  | fadd (o : FltA)
  | fsub (o : FltA)
  | fmul (o : FltA)
  | ffma (ty : FType) (nw : Bool) (rc : RoundCtl) (d a b c : Sel)
  | fmin (o : FltA)
  | fmax (o : FltA)
  | fcopys (o : FltA)
  | fcmp (c : FCond) (ty : FType) (pd : Nat) (a : Sel) (b : Src)
  | fclass (o : FltU)
  | fdiv (o : FltA)
  | fsqrt (o : FltU)
  | frcp (o : FltU)
  | frsq (o : FltU)
  | fexp2 (o : FltU)
  | flog2 (o : FltU)
  | fsin (o : FltU)
  | fcos (o : FltU)
  | fscale (o : FltA)
  | frnd (o : FltU) (m : RndMode)
  | cvt (ty : FType) (nw : Bool) (rc : RoundCtl) (d a : Sel) (t : CvtTarget) (sat : Bool)
  | cvti (ty : FType) (nw : Bool) (rc : RoundCtl) (d a : Sel) (t : IType)
  | cvtf (ty : FType) (nw : Bool) (rc : RoundCtl) (d a : Sel) (t : IType)
  | split3 (nw : Bool) (d a : Sel)
  | qnt (nw : Bool) (d a b c : Sel)
  | dqnt (nw : Bool) (d a b c : Sel)
  | smxmerge (nw : Bool) (n : Nat) (d a b : Sel)
  | freda (o : FltU)
  | fredm (o : FltU)
  | unpkd (ty : FType) (nw : Bool) (d a b c : Sel)
  | unpkz (ty : FType) (nw : Bool) (d a : Sel)
  | unpkr (ty : FType) (nw : Bool) (rc : RoundCtl) (d a b c : Sel)
  -- matrix instructions (spec/07)
  | mma (acc : Nat) (a b : MOperand) (fmt : Sel)
  | mmas (acc : Nat) (a b : MOperand) (fmt : Sel)
  | mmam (acc : Nat) (a : MOperand) (fmt x1 : Sel) (rcd : Nat)
  | mmax (acc : Nat) (a b : MOperand) (fmt x1 x2 : Sel)
  | mmaz (acc : Nat) (a b : MOperand) (fmt : Sel)
  | mmafin (slot : Nat)
  | maccrd (f : AccFmt) (slot : Nat) (ch : Chain) (d : Nat)
  | maccwr (f : AccFmt) (slot : Nat) (ch : Chain) (a : Option Nat)
  | mxwait (slot : Option Nat)
  -- NW must be 0 (R163): well-formedness and the decoder ask it
  | mtrans (w : TransWidth) (nw : Bool) (d a : Nat)
  -- scratchpad instructions (spec/08)
  | lds (o : SpadAcc)
  | sts (o : SpadAcc)
  | ldsc (o : SpadAcc)
  | stsc (o : SpadAcc)
  | ldlk (w : Width) (sp : Space) (pt : Nat) (d addr : Sel) (off : Src)
  | stul (w : Width) (sp : Space) (d addr : Sel) (off : Src)
  | atoms (op : AtomOp) (w : Width) (sp : Space) (d : Option Sel) (a b : Sel) (c : Option Sel)
  | waitc (path : Path) (a : Sel)
  | qrd (n : Nat) (d : Sel)
  | qpushClaim (n : Nat) (d : Sel)
  | qpushCommit (n : Nat) (a : Sel)
  | qfree (n : Nat) (a : Sel)
  | qinit (n : Nat) (a b : Sel)
  -- device-memory instructions (spec/09)
  | ld (w : Width) (ord : Order) (scope : Scope) (nw swept : Bool) (addr : MemAddr) (data : Sel) (st : Option Sel)
  | st (w : Width) (ord : Order) (scope : Scope) (addr : MemAddr) (data : Sel) (st : Option Sel)
  | ldt (o : TensorAcc)
  | stt (o : TensorAcc)
  | atom (o : RecAtom)
  | red (o : RecAtom)
  | prefL1 (sw : Bool) (rcd : RecRef) (off : Sel)
  | prefL2 (sw : Bool) (rcd : RecRef) (off : Sel)
  | prefPagein (sw : Bool) (rcd : RecRef) (off : Sel)
  | monitor (w : Width) (acq : Bool) (scope : Scope) (nw sw : Bool) (rcd : RecRef) (off data : Sel) (st : Option Sel)
  | monwait
  | fence (ord : Order) (scope : Scope)
  | publish (a : Sel)
  | pin (sw : Bool) (rcd : RecRef) (off st : Sel)
  | unpin (sw : Bool) (rcd : RecRef) (off : Sel)
  -- NW must be 0 (R229): well-formedness and the decoder ask it
  | resq (nw sw : Bool) (rcd : RecRef) (off d : Sel) (st : Option Sel)
  | resqFetch (nw sw : Bool) (rcd : RecRef) (off d : Sel) (st : Option Sel)
  | recset (a : Sel) (g : Nat)
  | recsetReload (a : Sel)
  | recsetShape (a : Sel)
  -- barrier, engine and sweep instructions (spec/12, spec/13)
  | binit (k : Nat) (absorb crew : Bool) (a b : Sel)
  | bexpect (k : Nat) (imm : Word)
  | bexpectReg (k : Nat) (a : Sel)
  | barrive (k : Nat) (sib : Option Sel) (b : Sel)
  | bwait (k : Nat) (phase : Option Sel)
  | btest (k word : Nat) (d : Sel)
  | epost (d q i : Sel)
  | eseq (d q : Sel) (thr : Option Sel)
  | copy (tgt stream : Bool) (d q : Sel) (g : Nat)
  | swreg (d r : Sel) (i : Nat)
  | swdereg (r e : Sel)
  | swwait (r : Sel) (e : Option Sel)
  | swpos (d r : Sel)
  | swforce (r e : Sel)
  -- control, service, execution, domain and inference instructions
  | bra (p : Nat) (pn : Bool) (off : BitVec 18)
  | call (p : Nat) (pn : Bool) (off : BitVec 18)
  | jmpf (p : Nat) (pn : Bool) (seg word : Nat)
  | bri (a : Sel)
  | ret
  | nop
  | trap (n : Nat)
  | tret
  | tretAbort
  | excrd (d a : Sel)
  | mcall (m : Nat) (o1 o2 o3 o4 : Sel)
  | icfetch (s : SegRef)
  | icfetchSpad (s a : Sel)
  | icfetchDrop (s : SegRef)
  | icfetchGate (s x : Sel)
  | nodepost (d : Sel) (a : Nat)
  | join (nw : Bool) (d a b : Sel)
  | leave
  | regang
  | yield
  | exit
  | apprenticeExit
  | gcall (idx : Nat)
  | gcallReg (a : Sel)
  | gret
  | xlinvPage (a : Nat) (dom : Option Sel)
  | xlinvDomain (dom : Sel)
  | xlinvResidency (a : Nat) (dom : Option Sel)
  | xlinvAll
  | xlprobe (d a : Nat) (dom : Option Sel)
  | astart (d a b : Sel)
  | astartStop (d : Sel)
  | apush (n : Nat) (a : Sel)
  | apushVec (n : Nat) (a b : Sel)
  | apushBcld (n : Nat) (a b : Sel)
  | apprenticeLd (d : Sel) (rcd : RecRef) (off : Sel)
  | vgmv (n : Nat) (a b c : Sel)
  | vgrd (n : Nat) (d : Sel)
  | vgwait (n : Option Nat)
  -- the four rows at the table's end
  | hostSnoop (line : Nat)
  | apprenticeClauseFetch (core unit : Nat)
  | islandClockStop (island : Nat)
  | linkTraining (port : Nat) (features : List Nat)
  deriving DecidableEq, Repr, Inhabited

end Sys2Proof
end

