-- ==== Sys2Proof/Config.lean ====
section
/-! DEFINITION. The constants of an implementation and the free values. Every constant here is opaque and has no body:
nothing in Lean can evaluate it, so a theorem holds whatever it is. The counter `State.free` is what the free values
are applied to; each use takes the counter and advances it. -/

namespace Sys2Proof.Config

/-- A free bit (which of two admitted values is taken: spec/08 R174, spec/14 R339), by the model's counter. -/
opaque freeBool : Nat → Bool

/-- A free 64-bit value (spec/07 R154, spec/12 R277: unpredictable contents), by the model's counter. -/
opaque freeWord : Nat → BitVec 64

/-- A free choice among the enabled turns or candidates (spec/02 R26 and every unordered pair of events), by the
model's counter. -/
opaque choice : Nat → Nat

/-- What the outside world does at an idle point of the machine, by the model's counter; an event whose guard does
not hold is passed over. -/
opaque envEvent : Nat → Option Instr

/-- The six approximate functions of spec/06 R128. -/
inductive Trans where
  | rcp | rsq | exp2 | log2 | sin | cos
  deriving DecidableEq, Repr

/-- What an uncorrectable error stands in (spec/15 R357, R358; spec/19 R445): a 64-byte line of device DRAM, of a memory-side L2, of
host memory or the capacity tier, or of a peer's memory; a word of a scratchpad window; a register of a lane or of a crew; an
accumulator slot of a workgroup, by its key; a slot of a core's instruction store. -/
inductive Damage where
  | dram (line : Nat)
  | l2 (line : Nat)
  | cxl (line : Nat)
  | link (line : Nat)
  | pad (wg off : Nat)
  | reg (wg lane code : Nat)
  | uniform (wg crew n : Nat)
  | slot (wg key : Nat)
  | code (core slot : Nat)
  deriving DecidableEq, Repr, Inhabited

/-- The uncorrectable errors that stand after an island cycle, by the model's counter: the spec gives no rule for when one occurs
or goes. -/
opaque damage : Nat → List Damage

/-- The delivered encoding of a transcendental at an operand that R128 gives no special value: a fixed function of
the operand's encoding and TYPE, delivered wherever it lies within the bound of spec/06 R129. -/
opaque trans : Trans → FType → Nat → Nat

/-- The correctable errors of an island cycle other than those of DRAM rows and scratchpad rows (spec/19 R448), by the model's counter:
failing unit and physical address of each. -/
opaque corrected : Nat → List (Nat × Nat)

/-- The firmware stages that a verified image starts after itself (spec/19 R452), by the image's body: the bytes of each. -/
opaque laterStages : List Byte → List (List Byte)

/-- The device identity key (spec/19 R452), as SLH-DSA-SHAKE-256s has a private key: SK.seed, SK.prf, PK.seed and PK.root, of 32 bytes
each. -/
opaque identityKey : List Byte

/-- The manufacturing public key (spec/19 R449). -/
opaque manufacturingKey : List Byte

/-- The fuses: the SHAKE256 digest of the firmware key, and the rollback counter (spec/19 R450, R451). -/
opaque fusedDigest : List Byte
opaque rollback : Nat

/-- The module's identity number (spec/19 R443, R452). -/
opaque modid : BitVec 16

end Sys2Proof.Config
end

