-- ==== Sys2Proof/Machine/Bits.lean ====
section
/-! DEFINITION. Bit fields, little-endian bytes and packed elements: the helpers every meaning uses (spec/00 R1, R4,
spec/04 R81). -/

namespace Sys2Proof.Machine

/-- Bits [lo+n-1 : lo] of a number. -/
def bits (x lo n : Nat) : Nat := x / 2 ^ lo % 2 ^ n

/-- Bit k of a number. -/
def bitAt (x k : Nat) : Bool := decide (x / 2 ^ k % 2 = 1)

/-- The two's-complement value of an n-bit pattern. -/
def signedOf (n x : Nat) : Int :=
  if x % 2 ^ n < 2 ^ (n - 1) then ((x % 2 ^ n : Nat) : Int) else ((x % 2 ^ n : Nat) : Int) - (2 ^ n : Nat)

/-- The n-bit pattern of an integer. -/
def patOf (n : Nat) (x : Int) : Nat := (x % ((2 ^ n : Nat) : Int)).toNat

/-- Little-endian value of bytes (R1). -/
def natOfBytes : List Byte → Nat
  | [] => 0
  | b :: t => b.toNat + 256 * natOfBytes t

/-- The n bytes of a number, lowest first (R1). -/
def bytesOfNat : Nat → Nat → List Byte
  | 0, _ => []
  | n + 1, x => BitVec.ofNat 8 x :: bytesOfNat n (x / 256)

/-- Fuel-free split of a list into chunks of n: the first k chunks. -/
def chunks {α : Type} (n : Nat) : Nat → List α → List (List α)
  | 0, _ => []
  | k + 1, l => l.take n :: chunks n k (l.drop n)

/-- Words of bytes, little-endian. -/
def wordsLE (l : List Byte) : List Word := (chunks 4 (l.length / 4) l).map fun b => BitVec.ofNat 32 (natOfBytes b)

/-- Bytes of words, little-endian. -/
def bytesLE (l : List Word) : List Byte := l.flatMap fun w => bytesOfNat 4 w.toNat

/-- Element e of width w of a packed register (R81). -/
def elemAt (w : Nat) (x : Nat) (e : Nat) : Nat := bits x (w * e) w

/-- Pack elements of width w, element 0 lowest; each is reduced modulo 2^w (R81). -/
def packElems (w : Nat) : List Nat → Nat
  | [] => 0
  | a :: t => a % 2 ^ w + 2 ^ w * packElems w t

/-- Apply a function to each of the n elements of width w of up to three packed registers (R81). -/
def mapElems (w n : Nat) (f : Nat → Nat → Nat → Nat) (x y z : Nat) : Nat :=
  packElems w ((List.range n).map fun e => f (elemAt w x e) (elemAt w y e) (elemAt w z e))

/-- Number of one bits among the low n bits. -/
def popCount (n x : Nat) : Nat := ((List.range n).filter fun k => bitAt x k).length

/-- Leading zeros of an n-bit pattern. -/
def leadZeros : Nat → Nat → Nat
  | 0, _ => 0
  | n + 1, x => if bitAt x n then 0 else 1 + leadZeros n x

/-- Trailing zeros of an n-bit pattern; n when it is zero. -/
def trailZeros (n x : Nat) : Nat := ((List.range n).takeWhile fun k => !bitAt x k).length

/-- The low n bits in reverse order. -/
def revBits (n x : Nat) : Nat :=
  (List.range n).foldl (fun r k => r * 2 + x / 2 ^ k % 2) 0

/-- Bitwise operations on numbers of a register's width. -/
def xorNat (x y : Nat) : Nat := x ^^^ y
def andNat (x y : Nat) : Nat := x &&& y
def orNat (x y : Nat) : Nat := x ||| y

/-- Replace the n bits of x from lo by those of f. -/
def putBits (x lo n f : Nat) : Nat := x - bits x lo n * 2 ^ lo + f % 2 ^ n * 2 ^ lo

/-- The positions set in a mask, ascending. -/
def maskList (m : BitVec 32) : List Nat := (List.range 32).filter fun k => m.getLsbD k

/-- The mask of positions. -/
def maskOf (l : List Nat) : BitVec 32 := l.foldl (fun m k => m ||| BitVec.ofNat 32 (2 ^ k)) 0

/-- Write one bit of a bit vector. -/
def setBit {n : Nat} (x : BitVec n) (k : Nat) (b : Bool) : BitVec n :=
  if b then x ||| BitVec.ofNat n (2 ^ k) else x &&& ~~~ (BitVec.ofNat n (2 ^ k))

/-- Remove repeats, keeping the first of each. -/
def dedup {α : Type} [DecidableEq α] : List α → List α
  | [] => []
  | a :: t => a :: (dedup t).filter (fun b => !decide (b = a))

/-- Insert in ascending order. -/
def insertSorted (a : Nat) : List Nat → List Nat
  | [] => [a]
  | b :: t => if a ≤ b then a :: b :: t else b :: insertSorted a t

/-- Ascending order. -/
def sortNat : List Nat → List Nat
  | [] => []
  | a :: t => insertSorted a (sortNat t)

/-- The first of 0 … n-1 that satisfies a test. -/
def firstBelow (n : Nat) (p : Nat → Bool) : Option Nat := (List.range n).find? p

/-- Saturating truncation: the largest number whose square is at most x, searched bit by bit from bit k. -/
def isqrtFrom : Nat → Nat → Nat → Nat
  | 0, _, r => r
  | k + 1, x, r =>
    let c := r + 2 ^ k
    if c * c ≤ x then isqrtFrom k x c else isqrtFrom k x r

/-- Integer square root of a number below 2^(2k). -/
def isqrt (k x : Nat) : Nat := isqrtFrom k x 0

end Sys2Proof.Machine
end

