-- ==== Sys2Proof/Machine/Approx.lean ====
section
/-! DEFINITION. Bounds on the approximate functions (spec/06 R128, R129): for each function an interval that holds the
exact value at a finite operand, computed in integers, and narrow beside every bound of R129. -/

namespace Sys2Proof.Machine

open Sys2Proof

/-- The reals from lo × 2^e to hi × 2^e. -/
structure Interval where
  lo : Int
  hi : Int
  e : Int
  deriving DecidableEq, Repr

/-- Number of bits of a number. -/
def bitLen (n : Nat) : Nat := if n = 0 then 0 else Nat.log2 n + 1

/-- An integer with its sign. -/
def signed (neg : Bool) (m : Nat) : Int := if neg then -(m : Int) else m

/-- Fraction bits of the fixed-point numbers here. -/
def fixBits : Nat := 320

/-- How far a series below may be from its limit, in units of 2^-fixBits. -/
def fixSlack : Nat := 2 ^ 12

/-- The number pi, in fixed point, truncated. -/
def fixPi : Nat := 0x3243F6A8885A308D313198A2E03707344A4093822299F31D0082EFA98EC4E6C89452821E638D01377

/-- The natural logarithm of 2, in fixed point, truncated. -/
def fixLn2 : Nat := 0xB17217F7D1CF79ABC9E3B39803F2F6AF40F343267298B62D8A0D175B8BAAFA2BE7B876206DEBAC98

/-- The product of two fixed-point numbers, truncated. -/
def fixMul (a b : Nat) : Nat := a * b / 2 ^ fixBits

/-- Terms of the exponential series of z from its k-th term t on. -/
def expSeries (z : Nat) : Nat → Nat → Nat → Nat
  | 0, _, _ => 0
  | n + 1, k, t => t + expSeries z n (k + 1) (fixMul t z / (k + 1))

/-- Terms of the sine series from its k-th term t on; z2 is the square of the argument. -/
def sinSeries (z2 : Nat) : Nat → Nat → Nat → Int
  | 0, _, _ => 0
  | n + 1, k, t => (t : Int) - sinSeries z2 n (k + 1) (fixMul t z2 / ((2 * k + 2) * (2 * k + 3)))

/-- n binary digits of the logarithm of y, a number from 1 to 2 in units of 2^w, after the digits d. -/
def logDigits (w : Nat) : Nat → Nat → Nat → Nat
  | 0, _, d => d
  | n + 1, y, d =>
    let y2 := y * y / 2 ^ w
    if y2 < 2 ^ (w + 1) then logDigits w n y2 (2 * d) else logDigits w n (y2 / 2) (2 * d + 1)

/-- 1 / (m × 2^e), up to its sign. -/
def rcpInterval (n : Bool) (m : Nat) (e : Int) : Interval :=
  let k := bitLen m + 128
  let q := 2 ^ k / m
  if n then ⟨-((q + 1 : Nat) : Int), -(q : Int), -e - k⟩ else ⟨q, (q + 1 : Nat), -e - k⟩

/-- 1 / sqrt (m × 2^e). -/
def rsqInterval (m : Nat) (e : Int) : Interval :=
  let k0 := bitLen m + 256
  let k := if (e + k0) % 2 = 0 then k0 else k0 + 1
  let r := isqrt 130 (2 ^ k / m)
  ⟨r, (r + 1 : Nat), (-e - k) / 2⟩

/-- 2 ^ (m × 2^e), up to the sign of the exponent. Exponents beyond 2^14 are beyond every format. -/
def exp2Interval (n : Bool) (m : Nat) (e : Int) : Interval :=
  if (bitLen m : Int) + e > 14 then (if n then ⟨0, 1, -20000⟩ else ⟨1, 2, 20000⟩)
  else
    let w : Int := fixBits
    let x := if e + w ≥ 0 then signed n (m * 2 ^ (e + w).toNat) else signed n m / (2 ^ (-(e + w)).toNat : Nat)
    let f := (x % (2 ^ fixBits : Nat)).toNat
    let s := expSeries (fixMul f fixLn2) 80 0 (2 ^ fixBits)
    ⟨s, (s + fixSlack : Nat), x / (2 ^ fixBits : Nat) - w⟩

/-- log2 (m × 2^e). -/
def log2Interval (m : Nat) (e : Int) : Interval :=
  let l := bitLen m - 1
  let d := logDigits 512 128 (m * 2 ^ (512 - l)) 0
  let x := (e + l) * (2 ^ 128 : Nat) + d
  ⟨x, x + 2, -128⟩

/-- sin (pi × r / 2^d) for r / 2^d up to one half, with a sign. -/
def sinInterval (neg : Bool) (r d : Nat) : Interval :=
  let z := fixMul (r * 2 ^ fixBits / 2 ^ d) fixPi
  let s := sinSeries (fixMul z z) 45 0 z
  let v := if neg then -s else s
  ⟨v - fixSlack, v + fixSlack, -(fixBits : Int)⟩

/-- A magnitude as r / 2^d with d at least 2. -/
def dyadic (m : Nat) (e : Int) : Nat × Nat := if e > -2 then (m * 2 ^ (e + 2).toNat, 2) else (m, (-e).toNat)

/-- sin (pi × m × 2^e), up to the sign of the operand. -/
def sinPiInterval (n : Bool) (m : Nat) (e : Int) : Interval :=
  let p := dyadic m e
  let one := 2 ^ p.2
  let r := p.1 % (2 * one)
  let r1 := r % one
  sinInterval (n != decide (r ≥ one)) (if 2 * r1 > one then one - r1 else r1) p.2

/-- cos (pi × m × 2^e). -/
def cosPiInterval (m : Nat) (e : Int) : Interval :=
  let p := dyadic m e
  let one := 2 ^ p.2
  let r := p.1 % (2 * one)
  let r1 := if r > one then 2 * one - r else r
  if 2 * r1 > one then sinInterval true (r1 - one / 2) p.2 else sinInterval false (one / 2 - r1) p.2

/-- The exact value of a function at a finite operand (R128). -/
def transInterval (fn : Config.Trans) (n : Bool) (m : Nat) (e : Int) : Interval :=
  match fn with
  | .rcp => rcpInterval n m e
  | .rsq => rsqInterval m e
  | .exp2 => exp2Interval n m e
  | .log2 => log2Interval m e
  | .sin => sinPiInterval n m e
  | .cos => cosPiInterval m e

/-- Scale c × 2^e to units of 2^g, for g at most e. -/
def unitsOf (g : Int) (c e : Int) : Int := c * (2 ^ (e - g).toNat : Nat)

/-- Is c × 2^ce at most b × 2^be above the interval's upper end? -/
def Interval.notAbove (iv : Interval) (c ce b be : Int) : Bool :=
  let g := min iv.e (min ce be)
  decide (unitsOf g c ce ≤ unitsOf g iv.hi iv.e + unitsOf g b be)

/-- Is c × 2^ce at most b × 2^be below the interval's lower end? -/
def Interval.notBelow (iv : Interval) (c ce b be : Int) : Bool :=
  let g := min iv.e (min ce be)
  decide (unitsOf g iv.lo iv.e ≤ unitsOf g c ce + unitsOf g b be)

/-- The bound of R129 in units in the last place. -/
def transUlps (fn : Config.Trans) (ty : FType) : Nat :=
  match ty with
  | .f16 | .bf16 => 1
  | .f32 | .f64 => match fn with
    | .rcp | .rsq => 1
    | .exp2 | .log2 | .sin | .cos => 2

/-- The absolute bound of R129, as an exponent of two, where one holds at this operand. -/
def transAbs (fn : Config.Trans) (ty : FType) (m : Nat) (e : Int) (iv : Interval) : Option Int :=
  let nearOne := decide ((bitLen m : Int) + e ≥ 0) && decide ((bitLen m : Int) + e ≤ 1)
  let small := decide ((bitLen (min iv.lo.natAbs iv.hi.natAbs) : Int) + iv.e ≤ -20)
  match ty with
  | .f16 | .bf16 => none
  | .f32 => match fn with
    | .log2 => if nearOne then some (-22) else none
    | .sin | .cos => if small then some (-24) else none
    | .rcp | .rsq | .exp2 => none
  | .f64 => match fn with
    | .log2 => if nearOne then some (-51) else none
    | .sin | .cos => if small then some (-53) else none
    | .rcp | .rsq | .exp2 => none

end Sys2Proof.Machine
end

