-- ==== Sys2Proof/WellFormed.lean ====
section
/-! DEFINITION. Which instructions of the syntax an encoding can hold: the selector, range and combination rules of
each instruction's entry. A decoded instruction that breaks one raises ILLEGAL_FIELD (spec/03 R69); decoding
answers well-formed instructions only. Events hold no encoding, so none of them is well-formed here. -/

namespace Sys2Proof

namespace Sel

/-- Reachable by a 7-bit selector (R59). -/
def ok7 : Sel → Bool
  | v n => n ≤ 95
  | o n => n ≤ 7
  | x n => n ≤ 3
  | a n => n ≤ 3
  | s n => n ≤ 7
  | _ => true

/-- Reachable by an 8-bit selector (R60). -/
def ok8 : Sel → Bool
  | v n => n ≤ 191
  | o n => n ≤ 7
  | x n => n ≤ 3
  | a n => n ≤ 3
  | s n => n ≤ 31
  | _ => true

/-- Reachable by the selector width of a field: 8 bits where `w8`. -/
def ok (w8 : Bool) (r : Sel) : Bool := if w8 then r.ok8 else r.ok7

/-- A main register or o0-o7. -/
def isVO : Sel → Bool
  | v _ => true
  | o _ => true
  | _ => false

/-- A writable selector: v, o or s (R59, R60). -/
def isDst : Sel → Bool
  | v _ => true
  | o _ => true
  | s _ => true
  | _ => false

/-- A main register whose index is a multiple of `k`. -/
def isV (k : Nat) : Sel → Bool
  | v n => n % k == 0
  | _ => false

/-- Read as an integer: every source but 0.5 (R61). -/
def srcI (w8 : Bool) (r : Sel) : Bool := r.ok w8 && r != half

/-- Destination, with the uniform registers. -/
def dst (w8 : Bool) (r : Sel) : Bool := r.ok w8 && r.isDst

/-- Destination, v or o only. -/
def dstVO (w8 : Bool) (r : Sel) : Bool := r.ok w8 && r.isVO

/-- An even main register or an even register of o0-o7 (R119). -/
def isPair : Sel → Bool
  | v n => n % 2 == 0
  | o n => n % 2 == 0
  | _ => false

/-- One of the first five inline constants (R61). -/
def isConst5 : Sel → Bool
  | zero => true
  | one => true
  | negOne => true
  | half => true
  | two => true
  | _ => false

/-- Read in a floating-point type (R61, R119). -/
def srcF (w8 : Bool) (ty : FType) (r : Sel) : Bool :=
  r.ok w8 &&
    match r with
    | v n => ty != .f64 || n % 2 == 0
    | o n => ty != .f64 || n % 2 == 0
    | x _ => true
    | s _ => ty != .f64
    | a _ => ty != .f64
    | r => r.isConst5

/-- Destination in a floating-point type (R119). -/
def dstF (w8 : Bool) (ty : FType) (r : Sel) : Bool :=
  r.ok w8 && (if ty = .f64 then r.isPair else r.isDst)

/-- Data of a memory load (R172, R220). -/
def dataLd (w8 : Bool) (w : Width) (r : Sel) : Bool :=
  r.ok w8 &&
    match w with
    | .b64 => r.isV 2
    | .b128 => r.isV 4
    | _ => r.isVO

/-- Data of a memory store (R172). -/
def dataSt (w8 : Bool) (w : Width) (r : Sel) : Bool :=
  r.ok w8 &&
    match w with
    | .b64 => r.isV 2
    | .b128 => r.isV 4
    | _ => r != half

end Sel

/-- A second source: an immediate, or an 8-bit selector read as an integer. -/
def Src.okI : Src → Bool
  | .imm _ => true
  | .reg r => r.srcI true

/-- Whether a format-B form takes 8-bit selectors (XW = 1). -/
def Src.wide : Src → Bool
  | .imm _ => false
  | .reg _ => true

/-- The record reference of an M1 instruction. -/
def RecRef.ok : RecRef → Bool
  | .imm n => n < 256
  | .reg r => r.srcI true

/-- .s32 or .u32. -/
def IType.is32 : IType → Bool
  | .s32 => true
  | .u32 => true
  | _ => false

/-- Element width in bits (R81). -/
def IType.bits : IType → Nat
  | .s32 => 32 | .u32 => 32 | .s16 => 16 | .u16 => 16 | .s8 => 8 | .u8 => 8 | .s4 => 4

/-- Elements in a source register (R81, R130). -/
def IType.count : IType → Nat
  | .s32 => 1 | .u32 => 1 | .s16 => 2 | .u16 => 2 | .s8 => 4 | .u8 => 4 | .s4 => 8

/-- Element width in bits (R64). -/
def FType.bits : FType → Nat
  | .f32 => 32 | .f64 => 64 | .f16 => 16 | .bf16 => 16

/-- Elements in a source (R130). -/
def FType.count : FType → Nat
  | .f32 => 1 | .f64 => 1 | .f16 => 2 | .bf16 => 2

/-- Target width in bits (R130). -/
def CvtTarget.bits : CvtTarget → Nat
  | .f32 => 32 | .f64 => 64 | .f16 => 16 | .bf16 => 16 | .e4m3 => 8

/-- A conversion's result of `n` bits fits, and D can hold it (R130). -/
def cvtDst (n : Nat) (d : Sel) : Bool :=
  if n ≤ 32 then d.dst false else n ≤ 64 && d.ok7 && d.isPair

/-- An immediate control of BFX and BFI (R88). -/
def bfCtlOk (c : Word) : Bool :=
  let n := c.toNat
  let pos := n % 32
  let len := n / 256 % 64
  n / 32 % 8 == 0 && n / 2 ^ 14 == 0 && 1 ≤ len && len ≤ 32 && pos + len ≤ 32

/-- A three-selector integer instruction accepting the types of `p`. -/
def IntA.wf (p : IType → Bool) (o : IntA) : Bool :=
  p o.ty && o.d.dst false && o.a.srcI false && o.b.srcI false

/-- A one-source integer instruction. -/
def IntU.wf (p : IType → Bool) (o : IntU) : Bool := p o.ty && o.d.dst false && o.a.srcI false

/-- A logic instruction. -/
def LogicA.wf (o : LogicA) : Bool := o.d.dst false && o.a.srcI false && o.b.srcI false

/-- A two-source float instruction of format A. -/
def FltA.wf (o : FltA) : Bool := o.d.dstF false o.ty && o.a.srcF false o.ty && o.b.srcF false o.ty

/-- A one-source float instruction of format A. -/
def FltU.wf (o : FltU) : Bool := o.d.dstF false o.ty && o.a.srcF false o.ty

/-- A predicate destination p1-p7. -/
def predDst (n : Nat) : Bool := 1 ≤ n && n ≤ 7

/-- A predicate operand of PLOP. -/
def PredRef.ok (r : PredRef) : Bool := r.p ≤ 7

/-- A matrix operand (R57, R147). -/
def MOperand.ok : MOperand → Bool
  | .reg n => n ≤ 88 && n % 8 == 0
  | .spad n => n ≤ 6

/-- Orders that a load, a store accept (R172, R221). -/
def Order.loads : Order → Bool
  | .relaxed => true | .acquire => true | .seq => true | _ => false

/-- Orders that a store accepts (R172, R221). -/
def Order.stores : Order → Bool
  | .relaxed => true | .release => true | .seq => true | _ => false

/-- With ORD = relaxed, SCOPE is crew (R65). -/
def ordScope (o : Order) (s : Scope) : Bool := o != .relaxed || s == .crew

/-- Scopes of LDS and STS (R172). -/
def Scope.localOk : Scope → Bool
  | .crew => true | .core => true | _ => false

/-- Scopes of LDSC and STSC (R172). -/
def Scope.clusterOk : Scope → Bool
  | .crew => true | .core => true | .cluster => true | _ => false

/-- A scratchpad access (R172). -/
def SpadAcc.wf (load cl : Bool) (o : SpadAcc) : Bool :=
  (if load then o.ord.loads else o.ord.stores) && ordScope o.ord o.scope &&
  (if cl then o.scope.clusterOk else o.scope.localOk) &&
  (if load then o.d.dataLd o.off.wide o.w else o.d.dataSt o.off.wide o.w) &&
  o.addr.srcI o.off.wide && o.off.okI

/-- Width of LDLK and STUL (R185). -/
def Width.lockOk : Width → Bool
  | .b32 => true | .b64 => true | .b128 => true | _ => false

/-- Width of atomics and MONITOR. -/
def Width.atomOk : Width → Bool
  | .b32 => true | .b64 => true | _ => false

/-- An operand of ATOMS (R186). -/
def atomSel (w : Width) (r : Sel) : Bool := if w = .b64 then r.ok8 && r.isV 2 else r.srcI true

/-- A status destination (R55, R220). -/
def stOk : Option Sel → Bool
  | none => true
  | some r => r.dst true

/-- DATA of ATOM (R223). -/
def atomData (op : AtomOp) (w : Width) (r : Sel) : Bool :=
  r.ok7 &&
    match w, op with
    | .b32, .cas => r.isPair
    | .b32, _ => r.isVO
    | .b64, .cas => r.isV 4
    | .b64, _ => r.isV 2
    | _, _ => false

/-- Operations of RED (R223). -/
def AtomOp.redOk : AtomOp → Bool
  | .xchg => false
  | .cas => false
  | _ => true

/-- A tensor access (R56, R222). -/
def TensorAcc.wf (load : Bool) (o : TensorAcc) : Bool :=
  (if load then o.data.dataLd false o.w else o.data.dataSt false o.w && !o.nw && !o.swept) &&
  (!o.nw || o.st.isSome) &&
  1 ≤ o.coords.length && o.coords.length ≤ 7 && o.coords.all (Sel.srcI false) && o.rcd < 256 && o.shape < 64 &&
  (match o.st with | none => true | some r => r.dst false)

/-- The address of LD and ST (R202). -/
def MemAddr.ok : MemAddr → Bool
  | .off r o => r.ok && o.srcI false
  | .ptr o => o.ok7 && o.isV 2

/-- An optional domain operand (R340). -/
def domOk : Option Sel → Bool
  | none => true
  | some r => r.srcI true

/-- A segment operand (R397). -/
def SegRef.ok : SegRef → Bool
  | .imm n => n < 64
  | .reg r => r.srcI true

/-- MOVSW accepts the registers that have RW fields (R79). -/
def SReg.writable : SReg → Bool
  | .gangctl => true
  | .flags => true
  | .fpmode => true
  | _ => false

/-- A special register that exists. -/
def SReg.ok : SReg → Bool
  | .q n => n ≤ 7
  | _ => true

/-- Which instructions an encoding can hold. -/
def Instr.wf : Instr → Bool
  | .mov o => o.wf IType.is32
  | .movi ty _ d src =>
    ty.is32 && (match src with | .imm _ => d.dst false | .reg r => d.dst true && r.srcI true)
  | .movs _ d r => d.dst false && r.ok
  | .movsWide _ d => d.ok7 && d.isV 2
  | .movsw r a => r.writable && a.srcI false
  | .iadd o => o.wf fun _ => true
  | .iaddc o => o.wf IType.is32
  | .isub o => o.wf fun _ => true
  | .isubb o => o.wf IType.is32
  | .imul o => o.wf fun _ => true
  | .imulh o => o.wf fun _ => true
  | .imad o => o.d.dst true && o.a.srcI true && o.b.srcI true && o.c.srcI true
  | .imadw o =>
    o.ty.is32 && o.d.ok8 && o.d.isV 2 && o.a.srcI true && o.b.srcI true && o.c.ok8 && (o.c.isV 2 || o.c == .zero)
  | .idiv o => o.wf fun t => 16 ≤ t.bits
  | .irem o => o.wf fun t => 16 ≤ t.bits
  | .imin o => o.wf fun _ => true
  | .imax o => o.wf fun _ => true
  | .iabs o => o.wf fun t => t == .s32 || t == .s16 || t == .s8 || t == .s4
  | .ineg o => o.wf fun _ => true
  | .popc o => o.wf fun _ => true
  | .clz o => o.wf fun _ => true
  | .ctz o => o.wf fun _ => true
  | .brev o => o.wf fun _ => true
  | .and o => o.wf
  | .or o => o.wf
  | .xor o => o.wf
  | .andn o => o.wf
  | .shl o => o.wf fun _ => true
  | .shr o => o.wf fun _ => true
  | .sar o => o.wf fun _ => true
  | .rot o => o.wf fun _ => true
  | .bfx ty _ d a ctl =>
    ty.is32 && d.dst ctl.wide && a.srcI ctl.wide &&
      (match ctl with | .imm c => bfCtlOk c | .reg r => r.srcI true)
  | .bfi ty _ f =>
    ty.is32 &&
      (match f with
      | .imm d a c => d.dst false && a.srcI false && bfCtlOk c
      | .reg d a b c => d.dst true && a.srcI true && b.srcI true && c.srcI true)
  | .perm _ f =>
    (match f with
    | .imm d a c => d.dst false && a.srcI false && c.toNat < 65536
    | .reg d a b c => d.dst true && a.srcI true && b.srcI true && c.srcI true)
  | .icmp _ ty pd a b => ty.is32 && predDst pd && a.srcI b.wide && b.okI
  | .sel ty _ p d a b => ty.is32 && p.ok && d.dst b.wide && a.srcI b.wide && b.okI
  | .plop _ d a b => predDst d.p && a.ok && b.ok
  | .vote _ _ d a => d.dst false && a.srcI false
  | .shfl _ _ d a b => d.dstVO false && a.srcI false && b.srcI false
  | .fadd o => o.wf
  | .fsub o => o.wf
  | .fmul o => o.wf
  | .ffma ty _ _ d a b c => d.dstF true ty && a.srcF true ty && b.srcF true ty && c.srcF true ty
  | .fmin o => o.wf
  | .fmax o => o.wf
  | .fcopys o => o.wf
  | .fcmp _ ty pd a b =>
    (ty == .f32 || ty == .f64) && predDst pd && a.srcF b.wide ty &&
      (match b with | .imm _ => true | .reg r => r.srcF true ty)
  | .fclass o => o.d.dst false && o.a.srcF false o.ty
  | .fdiv o => o.wf
  | .fsqrt o => o.wf
  | .frcp o => o.wf
  | .frsq o => o.wf
  | .fexp2 o => o.wf
  | .flog2 o => o.wf
  | .fsin o => o.wf
  | .fcos o => o.wf
  | .fscale o => o.d.dstF false o.ty && o.a.srcF false o.ty && o.b.srcI false
  | .frnd o _ => o.wf
  | .cvt ty _ _ d a t sat => a.srcF false ty && cvtDst (ty.count * t.bits) d && (!sat || t == .e4m3)
  | .cvti ty _ _ d a t => a.srcF false ty && cvtDst (ty.count * t.bits) d
  | .cvtf ty _ _ d a t => a.srcI false && cvtDst (t.count * ty.bits) d
  | .split3 _ d a => d.ok7 && d.isV 2 && a.srcF false .f32
  | .qnt _ d a b c => d.dst true && a.ok8 && a.isV 4 && b.srcF true .f32 && c.srcI true
  | .dqnt _ d a b c => d.ok8 && d.isV 2 && a.srcI true && b.srcF true .f32 && c.srcI true
  | .smxmerge _ n d a b => 1 ≤ n && n ≤ 16 && d.ok8 && d.isV 1 && a.ok8 && a.isV 1 && b.ok8 && b.isV 1
  | .freda o => o.wf
  | .fredm o => o.wf
  | .unpkd ty _ d a b c => ty != .f64 && d.dst true && a.dst true && b.srcI true && c.srcI true
  | .unpkz ty _ d a => ty != .f64 && d.dst true && a.dst true
  | .unpkr ty _ _ d a b c => ty != .f64 && d.dst true && a.dst true && b.srcI true && c.ok8 && c.isV 2
  | .mma acc a b f => acc < 16 && a.ok && b.ok && f.srcI false
  | .mmas acc a b f => acc < 16 && a.ok && b.ok && f.srcI false
  | .mmam acc a f x1 r => acc < 16 && a.ok && f.srcI false && x1.srcI true && r < 256
  | .mmax acc a b f x1 x2 => acc < 16 && a.ok && b.ok && f.srcI false && x1.srcF true .f32 && x2.srcF true .f32
  | .mmaz acc a b f => acc < 16 && a.ok && b.ok && f.srcI false
  | .mmafin c => c < 16
  | .maccrd _ c _ d => c < 16 && d ≤ 88 && d % 8 == 0
  | .maccwr _ c _ a => c < 16 && (match a with | none => true | some n => n ≤ 88 && n % 8 == 0)
  | .mxwait c => (match c with | none => true | some n => n < 16)
  | .mtrans _ nw d a => !nw && d < 192 && a < 192
  | .lds o => o.wf true false
  | .sts o => o.wf false false
  | .ldsc o => o.wf true true
  | .stsc o => o.wf false true
  | .ldlk w _ pt d a off => w.lockOk && predDst pt && d.dataLd off.wide w && a.srcI off.wide && off.okI
  | .stul w _ d a off => w.lockOk && d.dataSt off.wide w && a.srcI off.wide && off.okI
  | .atoms op w _ d a b c =>
    w.atomOk && (match d with | none => true | some r => r.ok8 && (if w = .b64 then r.isV 2 else r.isVO)) &&
      a.srcI true && atomSel w b &&
      (match c with | none => op != .cas | some r => op == .cas && atomSel w r)
  | .waitc _ a => a.srcI false
  | .qrd n d => n < 8 && d.dst false
  | .qpushClaim n d => n < 8 && d.dst false
  | .qpushCommit n a => n < 8 && a.srcI false
  | .qfree n a => n < 8 && a.srcI false
  | .qinit n a b => n < 8 && a.srcI true && b.srcI true
  | .ld w ord sc nw _ addr data sr =>
    ord.loads && ordScope ord sc && (!nw || sr.isSome) && addr.ok && data.dataLd false w && stOk sr
  | .st w ord sc addr data sr => ord.stores && ordScope ord sc && addr.ok && data.dataSt false w && stOk sr
  | .ldt o => o.wf true
  | .stt o => o.wf false
  | .atom o => o.w.atomOk && ordScope o.ord o.scope && o.rcd.ok && o.off.srcI false && atomData o.op o.w o.data && stOk o.st
  | .red o =>
    o.w.atomOk && o.op.redOk && ordScope o.ord o.scope && !o.nw && o.rcd.ok && o.off.srcI false &&
      o.data.dataSt false o.w && stOk o.st
  | .prefL1 _ r o => r.ok && o.srcI false
  | .prefL2 _ r o => r.ok && o.srcI false
  | .prefPagein _ r o => r.ok && o.srcI false
  | .monitor w acq sc nw _ r o d sr =>
    w.atomOk && (acq || sc == .crew) && (!nw || sr.isSome) && r.ok && o.srcI false && d.dataLd false w && stOk sr
  | .monwait => true
  | .fence ord _ => ord != .relaxed
  | .publish a => a.srcI false
  | .pin _ r o sr => r.ok && o.srcI false && sr.dst true
  | .unpin _ r o => r.ok && o.srcI false
  | .resq nw _ r o d sr => !nw && r.ok && o.srcI false && d.dstVO false && stOk sr
  | .resqFetch nw _ r o d sr => !nw && r.ok && o.srcI false && d.dstVO false && stOk sr
  | .recset a g => a.srcI true && g < 192 && g % 2 == 0
  | .recsetReload a => a.srcI true
  | .recsetShape a => a.srcI true
  | .binit k _ _ a b => k < 16 && a.srcI true && b.srcI true
  | .bexpect k _ => k < 16
  | .bexpectReg k a => k < 16 && a.srcI true
  | .barrive k sib b => k < 16 && domOk sib && b.srcI true
  | .bwait k ph => k < 16 && domOk ph
  | .btest k w d => k < 16 && w < 4 && d.dst true
  | .epost d q i => d.dst true && q.srcI true && i.srcI true
  | .eseq d q t => d.dst true && q.srcI true && domOk t
  | .copy _ _ d q g => d.dst true && q.srcI true && g ≤ 184 && g % 8 == 0
  | .swreg d r i => d.dst true && r.srcI true && i ≤ 189
  | .swdereg r e => r.srcI true && e.srcI true
  | .swwait r e => r.srcI true && domOk e
  | .swpos d r => d.dst true && r.srcI true
  | .swforce r e => r.srcI true && e.srcI true
  | .bra p _ _ => p < 8
  | .call p _ _ => p < 8
  | .jmpf p _ sg w => p < 8 && sg < 64 && w < 1024
  | .bri a => a.srcI false
  | .ret => true
  | .nop => true
  | .trap n => n < 16
  | .tret => true
  | .tretAbort => true
  | .excrd d a => d.dst false && a.srcI false
  | .mcall m a b c d => m < 64 && a.ok8 && b.ok8 && c.ok8 && d.ok8
  | .icfetch s => s.ok
  | .icfetchSpad s a => s.srcI true && a.srcI true
  | .icfetchDrop s => s.ok
  | .icfetchGate s x => s.srcI true && x.srcI true
  | .nodepost d a => d.dst true && a < 192 && a % 2 == 0
  | .join _ d a b => d.dstVO false && a.srcI false && b.srcI false
  | .leave => true
  | .regang => true
  | .yield => true
  | .exit => true
  | .gcall i => i < 4096
  | .gcallReg a => a.srcI true
  | .gret => true
  | .xlinvPage a d => a < 192 && a % 2 == 0 && domOk d
  | .xlinvDomain d => d.srcI true
  | .xlinvResidency a d => a < 192 && a % 2 == 0 && domOk d
  | .xlinvAll => true
  | .xlprobe d a o => d < 192 && d % 2 == 0 && a < 192 && a % 2 == 0 && domOk o
  | .astart d a b => d.dst true && a.srcI true && b.srcI true
  | .astartStop d => d.dst true
  | .apush n a => n < 4 && a.srcI true
  | .apushVec n a b => n < 4 && a.srcI true && b.srcI true
  | .apushBcld n a b => n < 4 && a.srcI true && b.srcI true
  | .vgmv n a b c =>
    n < 8 && a.srcI true && b.srcI true && c.ok8 && (match c with | .v n => n % 2 == 0 | .s n => n % 2 == 0 | _ => false)
  | .vgrd n d => n < 8 && d.dst true
  | .vgwait n => (match n with | none => true | some k => k < 8)
  -- the Apprentice's own forms share the words of EXIT and LD (spec/17 R404)
  | .apprenticeExit | .apprenticeLd _ _ _ => false
  -- events
  | .clauseIssue _ _ | .gangUnpark _ _ | .regangWindowClose _ _ _ | .yieldHoldExpire _ _ | .crossLaneGather _ _ _
  | .crewDissolve _ _ | .workgroupComplete _ | .inFlightComplete _ _ _ | .matrixOpStart _ _ _
  | .matrixOpComplete _ _ _ | .lockRetry _ _ | .lockHold _ _ | .raceStallRelease _ _ | .raceStallTimeout _ _
  | .l2EvictSpill _ | .shootdownAck _ | .preempt _ | .preemptSave _ | .restore _ _ | .nodeReady _
  | .workgroupPlace _ _ | .bankJob _ | .packetNode _ | .segmentLanded _ _ | .queueEnable _ | .queueDisable _
  | .packetStart _ | .packetComplete _ _ | .engineSlotClaim _ _ | .copyPacket _ _ | .gather _ _ | .quant2 _ _
  | .coll _ _ _ | .ckpt _ _ | .assay _ _ | .link _ _ | .sorterEntry _ _ | .apprenticeLoadComplete _ _
  | .sweepStep _ | .forcedRowApply _ | .catchupStep _ | .allbankEnter _ _ _ _ | .allbankExit _
  | .allbankTimeout _ | .act _ _ | .pre _ | .pass _ _ | .kpass _ _ | .macr _ _ | .ctlWindowWrite _ _ _ _
  | .doorbell _ | .doorbellPageStore _ _ | .lrtailWrite _ | .moduleRegisterWrite _ _ _ | .hostAccess _
  | .remoteAccess _ | .backInvalidate _ _ | .linkCrcReplay _ | .dramCorrectableError _ _ _
  | .sramCorrectableError _ _ _ | .clockChange _ _ | .refreshRateChange _ _ | .thermalShutdown
  | .thermalRecovery | .moduleReset _ | .recoveryImage _ | .lifecycleChange _ | .attestationRequest _
  | .hostSnoop _ | .apprenticeClauseFetch _ _ | .islandClockStop _ | .linkTraining _ _ => false

end Sys2Proof
end

