-- ==== Sys2Proof/Machine/Float.lean ====
section
/-! DEFINITION. Number formats and the arithmetic contract (spec/05 R98-R105, R110, R114; spec/06 R122-R131). Every
operation computes its exact result as a signed integer times a power of two and rounds once. -/

namespace Sys2Proof.Machine

open Sys2Proof

/-- A floating-point format: exponent bits, fraction bits, bias, and whether it is E4M3 (R99, R101). -/
structure FFmt where
  eb : Nat
  mb : Nat
  bias : Nat
  isE4m3 : Bool
  deriving DecidableEq, Repr

/-- The five formats (R99). -/
def fp64 : FFmt := ⟨11, 52, 1023, false⟩
def fp32 : FFmt := ⟨8, 23, 127, false⟩
def fp16 : FFmt := ⟨5, 10, 15, false⟩
def bf16 : FFmt := ⟨8, 7, 127, false⟩
def e4m3 : FFmt := ⟨4, 3, 7, true⟩

/-- The format of a TYPE (R64). -/
def ftFmt : FType → FFmt
  | .f32 => fp32 | .f64 => fp64 | .f16 => fp16 | .bf16 => bf16

/-- The format of a conversion target (R130). -/
def cvtFmt : CvtTarget → FFmt
  | .f32 => fp32 | .f64 => fp64 | .f16 => fp16 | .bf16 => bf16 | .e4m3 => e4m3

/-- Width of a format. -/
def FFmt.width (f : FFmt) : Nat := 1 + f.eb + f.mb

/-- IEEE flags in the order of R114. -/
abbrev FFlags := BitVec 5

def flIV : FFlags := 1
def flDZ : FFlags := 2
def flOF : FFlags := 4
def flUF : FFlags := 8
def flIX : FFlags := 16

/-- A decoded operand: a NaN keeps its sign, its fraction in the top of 52 bits, and whether it is signalling (R100,
R101); a finite value is m × 2^e. -/
inductive FVal where
  | nan (neg : Bool) (frac : Nat) (sig : Bool)
  | inf (neg : Bool)
  | fin (neg : Bool) (m : Nat) (e : Int)
  deriving DecidableEq, Repr, Inhabited

/-- A delivered result: the pattern, the flags, and 1 when it saturated (R110, R131). -/
structure FRes where
  bits : Nat
  flags : FFlags
  sat : Nat := 0
  deriving DecidableEq, Repr, Inhabited

/-- Exponent of the least significant bit of the subnormals. -/
def FFmt.emin (f : FFmt) : Int := 1 - (f.bias : Int) - (f.mb : Int)

/-- Decode a pattern (R99-R101). -/
def FFmt.decode (f : FFmt) (x : Nat) : FVal :=
  let frac := x % 2 ^ f.mb
  let ex := bits x f.mb f.eb
  let neg := bitAt x (f.mb + f.eb)
  if f.isE4m3 then
    if ex = 15 ∧ frac = 7 then .nan neg (7 * 2 ^ 49) false
    else if ex = 0 then .fin neg frac f.emin
    else .fin neg (2 ^ f.mb + frac) (f.emin + (ex : Int) - 1)
  else if ex = 2 ^ f.eb - 1 then
    if frac = 0 then .inf neg
    else .nan neg (frac * 2 ^ (52 - f.mb)) (!bitAt frac (f.mb - 1))
  else if ex = 0 then .fin neg frac f.emin
  else .fin neg (2 ^ f.mb + frac) (f.emin + (ex : Int) - 1)

/-- The sign bit of a pattern. -/
def FFmt.signBit (f : FFmt) (neg : Bool) : Nat := if neg then 2 ^ (f.mb + f.eb) else 0

/-- The infinity of a sign. -/
def FFmt.infBits (f : FFmt) (neg : Bool) : Nat := f.signBit neg + (2 ^ f.eb - 1) * 2 ^ f.mb

/-- The largest finite value of a sign (R99). -/
def FFmt.maxBits (f : FFmt) (neg : Bool) : Nat :=
  f.signBit neg + (if f.isE4m3 then 0x7E else (2 ^ f.eb - 1) * 2 ^ f.mb - 1)

/-- A quiet NaN with a sign and fraction (R102). -/
def FFmt.nanBits (f : FFmt) (neg : Bool) (frac : Nat) : Nat :=
  if f.isE4m3 then f.signBit neg + 0x7F
  else f.signBit neg + (2 ^ f.eb - 1) * 2 ^ f.mb + orNat (2 ^ (f.mb - 1)) (frac / 2 ^ (52 - f.mb))

/-- The default NaN (R102). -/
def FFmt.defNan (f : FFmt) : Nat := f.nanBits false 0

/-- Round m / 2^k to an integer in a mode: the integer and whether it is exact (R103). -/
def roundShift (mode : Rounding) (neg : Bool) (m k : Nat) : Nat × Bool :=
  let q := m / 2 ^ k
  let r := m % 2 ^ k
  let up := match mode with
    | .rne => decide (2 * r > 2 ^ k) || (decide (2 * r = 2 ^ k) && decide (q % 2 = 1))
    | .rtz => false
    | .rup => decide (r ≠ 0) && !neg
    | .rdn => decide (r ≠ 0) && neg
  (if up then q + 1 else q, decide (r = 0))

/-- Round m × 2^e to a multiple of 2^q: the multiple and whether it is exact. -/
def roundAt (mode : Rounding) (neg : Bool) (m : Nat) (e q : Int) : Nat × Bool :=
  if q ≤ e then (m * 2 ^ (e - q).toNat, true) else roundShift mode neg m (q - e).toNat

/-- The result of an overflow (R103). -/
def FFmt.overflow (f : FFmt) (mode : Rounding) (neg : Bool) : Nat :=
  match mode with
  | .rne => f.infBits neg
  | .rtz => f.maxBits neg
  | .rup => if neg then f.maxBits neg else f.infBits neg
  | .rdn => if neg then f.infBits neg else f.maxBits neg

/-- True when r × 2^q exceeds the largest finite value (R103). -/
def FFmt.tooBig (f : FFmt) (r : Nat) (q : Int) : Bool :=
  if f.isE4m3 then decide ((bitLen r : Int) + q > 9) || (decide ((bitLen r : Int) + q = 9) &&
    decide (r * 2 ^ (q + 9).toNat > 448 * 2 ^ 9))
  else decide ((bitLen r : Int) - 1 + q > (f.bias : Int))

/-- Round the exact magnitude m × 2^e of a sign into a format (R103, R114). E4M3 overflow is settled by the caller
(R110): here it is marked by OF with the NaN of R110. A zero m keeps the sign. -/
def FFmt.round (f : FFmt) (mode : Rounding) (neg : Bool) (m : Nat) (e : Int) : FRes :=
  if m = 0 then ⟨f.signBit neg, 0, 0⟩ else
  let qf := e + (bitLen m : Int) - (f.mb + 1 : Nat)
  let q := max qf f.emin
  let r := roundAt mode neg m e q
  if f.tooBig r.1 q then
    ⟨if f.isE4m3 then f.signBit neg + 0x7F else f.overflow mode neg, flOF ||| flIX, 0⟩
  else
    let free := roundAt mode neg m e qf
    let tiny := decide ((bitLen free.1 : Int) - 1 + qf < 1 - (f.bias : Int))
    ⟨f.signBit neg + ((q - f.emin).toNat * 2 ^ f.mb + r.1),
     if r.2 then 0 else if tiny then flUF ||| flIX else flIX, 0⟩

/-- Round a signed exact value; a zero takes the sign `zneg`. -/
def FFmt.roundInt (f : FFmt) (mode : Rounding) (zneg : Bool) (n : Int) (e : Int) : FRes :=
  if n = 0 then ⟨f.signBit zneg, 0, 0⟩ else f.round mode (decide (n < 0)) n.natAbs e

/-- True for a signalling NaN. -/
def FVal.isSig : FVal → Bool
  | .nan _ _ s => s
  | _ => false

/-- True for a NaN. -/
def FVal.isNan : FVal → Bool
  | .nan .. => true
  | _ => false

/-- The NaN result of operands, if one is a NaN: the first, quieted; IV for a signalling one (R102). -/
def FFmt.nanOf (f : FFmt) (l : List FVal) : Option FRes :=
  match l.find? FVal.isNan with
  | some (.nan n fr _) => some ⟨f.nanBits n fr, if l.any FVal.isSig then flIV else 0, 0⟩
  | _ => none

/-- The invalid operation's default NaN (R102). -/
def FFmt.invalid (f : FFmt) : FRes := ⟨f.defNan, flIV, 0⟩

/-- Sign of a value. -/
def FVal.neg : FVal → Bool
  | .nan n _ _ => n
  | .inf n => n
  | .fin n _ _ => n

/-- The opposite value; NaNs keep their sign. -/
def FVal.negate : FVal → FVal
  | .inf n => .inf (!n)
  | .fin n m e => .fin (!n) m e
  | v => v

/-- Sum of two exact finite values, rounded once (R103's signed zeros). -/
def FFmt.sumFin (f : FFmt) (mode : Rounding) (n1 : Bool) (m1 : Nat) (e1 : Int) (n2 : Bool) (m2 : Nat) (e2 : Int) : FRes :=
  let e := min e1 e2
  let s := signed n1 m1 * 2 ^ (e1 - e).toNat + signed n2 m2 * 2 ^ (e2 - e).toNat
  let zneg := if m1 = 0 ∧ m2 = 0 ∧ n1 = n2 then n1 else mode == .rdn
  f.roundInt mode zneg s e

/-- Addition (R122). -/
def FFmt.add (f : FFmt) (mode : Rounding) (a b : FVal) : FRes :=
  match f.nanOf [a, b] with
  | some r => r
  | none => match a, b with
    | .inf n1, .inf n2 => if n1 = n2 then ⟨f.infBits n1, 0, 0⟩ else f.invalid
    | .inf n, _ => ⟨f.infBits n, 0, 0⟩
    | _, .inf n => ⟨f.infBits n, 0, 0⟩
    | .fin n1 m1 e1, .fin n2 m2 e2 => f.sumFin mode n1 m1 e1 n2 m2 e2
    | _, _ => f.invalid

/-- Subtraction (R122): a NaN b keeps its sign. -/
def FFmt.sub (f : FFmt) (mode : Rounding) (a b : FVal) : FRes := f.add mode a b.negate

/-- The exact product of two non-NaN values, or nothing for 0 × ∞. -/
def FVal.times (a b : FVal) : Option FVal :=
  match a, b with
  | .fin n1 m1 e1, .fin n2 m2 e2 => some (.fin (n1 != n2) (m1 * m2) (e1 + e2))
  | .inf n1, .inf n2 => some (.inf (n1 != n2))
  | .inf n1, .fin n2 m _ => if m = 0 then none else some (.inf (n1 != n2))
  | .fin n1 m _, .inf n2 => if m = 0 then none else some (.inf (n1 != n2))
  | _, _ => none

/-- A finite or infinite exact value, rounded once. -/
def FFmt.ofVal (f : FFmt) (mode : Rounding) (v : FVal) : FRes :=
  match v with
  | .nan n fr s => ⟨f.nanBits n fr, if s then flIV else 0, 0⟩
  | .inf n => ⟨f.infBits n, 0, 0⟩
  | .fin n m e => f.round mode n m e

/-- Multiplication (R122). -/
def FFmt.mul (f : FFmt) (mode : Rounding) (a b : FVal) : FRes :=
  match f.nanOf [a, b] with
  | some r => r
  | none => match a.times b with
    | some p => f.ofVal mode p
    | none => f.invalid

/-- a × b + c with one rounding (R123); a NaN c with 0 × ∞ gives c and sets IV. -/
def FFmt.fma (f : FFmt) (mode : Rounding) (a b c : FVal) : FRes :=
  let bad := !a.isNan && !b.isNan && (a.times b).isNone
  match f.nanOf [a, b, c] with
  | some r => if bad then { r with flags := r.flags ||| flIV } else r
  | none => match a.times b with
    | some p => f.add mode p c
    | none => f.invalid

/-- The quotient of two positive magnitudes with enough bits for one rounding; the lowest bit is sticky. -/
def quotient (p m1 : Nat) (e1 : Int) (m2 : Nat) (e2 : Int) : Nat × Int :=
  let k := p + 3 + bitLen m2
  let n := m1 * 2 ^ k
  (2 * (n / m2) + (if n % m2 = 0 then 0 else 1), e1 - e2 - (k : Int) - 1)

/-- Division (R122). -/
def FFmt.div (f : FFmt) (mode : Rounding) (a b : FVal) : FRes :=
  match f.nanOf [a, b] with
  | some r => r
  | none => match a, b with
    | .inf _, .inf _ => f.invalid
    | .inf n1, _ => ⟨f.infBits (n1 != b.neg), 0, 0⟩
    | _, .inf n2 => ⟨f.signBit (a.neg != n2), 0, 0⟩
    | .fin n1 m1 e1, .fin n2 m2 e2 =>
      if m2 = 0 then (if m1 = 0 then f.invalid else ⟨f.infBits (n1 != n2), flDZ, 0⟩)
      else if m1 = 0 then ⟨f.signBit (n1 != n2), 0, 0⟩
      else
        let q := quotient (f.mb + 1) m1 e1 m2 e2
        f.round mode (n1 != n2) q.1 q.2
    | _, _ => f.invalid

/-- Square root (R125). -/
def FFmt.sqrt (f : FFmt) (mode : Rounding) (a : FVal) : FRes :=
  match f.nanOf [a] with
  | some r => r
  | none => match a with
    | .inf n => if n then f.invalid else ⟨f.infBits false, 0, 0⟩
    | .fin n m e =>
      if m = 0 then ⟨f.signBit n, 0, 0⟩
      else if n then f.invalid
      else
        let k0 := 2 * f.mb + 8
        let k := if (e - (k0 : Int)) % 2 = 0 then k0 else k0 + 1
        let x := m * 2 ^ k
        let r := isqrt (bitLen x / 2 + 1) x
        f.round mode false (2 * r + (if r * r = x then 0 else 1)) ((e - (k : Int)) / 2 - 1)
    | _ => f.invalid

/-- Comparison of two exact values that are no NaNs: -1, 0 or 1; the zeros are equal. -/
def FVal.cmp (a b : FVal) : Int :=
  match a, b with
  | .inf n1, .inf n2 => if n1 = n2 then 0 else if n1 then -1 else 1
  | .inf n, _ => if n then -1 else 1
  | _, .inf n => if n then 1 else -1
  | .fin n1 m1 e1, .fin n2 m2 e2 =>
    let e := min e1 e2
    let x := signed n1 m1 * 2 ^ (e1 - e).toNat
    let y := signed n2 m2 * 2 ^ (e2 - e).toNat
    if x < y then -1 else if x = y then 0 else 1
  | _, _ => 0

/-- minimumNumber and maximumNumber (R124): the patterns x and y are the operands. -/
def FFmt.minmax (f : FFmt) (isMax : Bool) (x y : Nat) : FRes :=
  let a := f.decode x
  let b := f.decode y
  let fl : FFlags := if a.isSig || b.isSig then flIV else 0
  match a, b with
  | .nan n fr _, .nan _ _ _ => ⟨f.nanBits n fr, fl, 0⟩
  | .nan .., _ => ⟨y % 2 ^ f.width, fl, 0⟩
  | _, .nan .. => ⟨x % 2 ^ f.width, fl, 0⟩
  | _, _ =>
    let less := decide (a.cmp b < 0) || (decide (a.cmp b = 0) && a.neg && !b.neg)
    ⟨(if less != isMax then x else y) % 2 ^ f.width, 0, 0⟩

/-- The conditions of FCMP (R126): the answer and IV. -/
def fcmp (c : FCond) (a b : FVal) : Bool × FFlags :=
  let un := a.isNan || b.isNan
  let s : FFlags := if a.isSig || b.isSig then flIV else 0
  let q : FFlags := if un then flIV else 0
  let k := a.cmp b
  match c with
  | .eq => (!un && decide (k = 0), s)
  | .ne => (un || decide (k ≠ 0), s)
  | .lt => (!un && decide (k < 0), q)
  | .le => (!un && decide (k ≤ 0), q)
  | .gt => (!un && decide (k > 0), q)
  | .ge => (!un && decide (k ≥ 0), q)
  | .ord => (!un, s)
  | .unord => (un, s)

/-- The class mask of FCLASS (R127). -/
def FFmt.classMask (f : FFmt) (x : Nat) : Nat :=
  match f.decode x with
  | .nan _ _ s => if s then 1 else 2
  | .inf n => if n then 4 else 512
  | .fin n m _ =>
    if m = 0 then (if n then 32 else 64)
    else if m < 2 ^ f.mb then (if n then 16 else 128)
    else (if n then 8 else 256)

/-- An exact value rounded to an integer in a mode, and whether that is exact. -/
def roundToInt (mode : Rounding) (neg : Bool) (m : Nat) (e : Int) : Int × Bool :=
  let r := roundAt mode neg m e 0
  (signed neg r.1, r.2)

/-- FRND (R125). -/
def FFmt.rndInt (f : FFmt) (mode : Rounding) (x : Nat) : FRes :=
  match f.decode x with
  | .nan n fr s => ⟨f.nanBits n fr, if s then flIV else 0, 0⟩
  | .inf n => ⟨f.infBits n, 0, 0⟩
  | .fin n m e =>
    if e ≥ 0 then ⟨x % 2 ^ f.width, 0, 0⟩
    else { f.round mode n (roundAt mode n m e 0).1 0 with flags := 0 }

/-- Conversion into E4M3 (R110). -/
def toE4m3 (mode : Rounding) (sat : Bool) (v : FVal) : FRes :=
  match v with
  | .nan n _ s => ⟨e4m3.signBit n + 0x7F, if s then flIV else 0, 0⟩
  | .inf n => if sat then ⟨e4m3.signBit n + 0x7E, flIX, 1⟩ else ⟨e4m3.signBit n + 0x7F, flIV, 0⟩
  | .fin n m e =>
    let r := e4m3.round mode n m e
    if r.flags &&& flOF ≠ 0 ∧ sat then ⟨e4m3.signBit n + 0x7E, r.flags, 1⟩ else r

/-- Conversion of an exact value between formats (R131, R102). -/
def convert (t : FFmt) (mode : Rounding) (sat : Bool) (v : FVal) : FRes :=
  if t.isE4m3 then toE4m3 mode sat v else t.ofVal mode v

/-- Limits of an integer type. -/
def itSigned : IType → Bool
  | .s32 => true | .s16 => true | .s8 => true | .s4 => true | _ => false

def itLo (t : IType) : Int := if itSigned t then -((2 ^ (t.bits - 1) : Nat) : Int) else 0
def itHi (t : IType) : Int := if itSigned t then ((2 ^ (t.bits - 1) : Nat) : Int) - 1 else ((2 ^ t.bits : Nat) : Int) - 1

/-- Conversion into an integer (R131). -/
def toIntType (t : IType) (mode : Rounding) (v : FVal) : FRes :=
  match v with
  | .nan .. => ⟨0, flIV, 0⟩
  | .inf n => ⟨patOf t.bits (if n then (itLo t) else (itHi t)), flIV, 1⟩
  | .fin n m e =>
    let q := roundToInt mode n m e
    if q.1 < (itLo t) then ⟨patOf t.bits (itLo t), flIV, 1⟩
    else if q.1 > (itHi t) then ⟨patOf t.bits (itHi t), flIV, 1⟩
    else ⟨patOf t.bits q.1, if q.2 then 0 else flIX, 0⟩

/-- Value of an integer element. -/
def itVal (t : IType) (x : Nat) : Int := if itSigned t then signedOf t.bits x else ((x % 2 ^ t.bits : Nat) : Int)

/-- Conversion from an integer (R131). -/
def ofIntType (f : FFmt) (mode : Rounding) (n : Int) : FRes := f.roundInt mode false n 0

/-- Scaling by a power of two (R125). The exponent is cut at 8192 in magnitude, beyond which every format gives the same
result. -/
def FFmt.scaleBy (f : FFmt) (mode : Rounding) (v : FVal) (n : Int) : FRes :=
  match v with
  | .fin s m e => f.round mode s m (e + max (-8192) (min 8192 n))
  | v => f.ofVal mode v

/-! ### The approximate functions (spec/06 R128, R129) -/

/-- Is the finite value an integer? -/
def finInt (m : Nat) (e : Int) : Bool := decide (e ≥ 0) || decide (m % 2 ^ (-e).toNat = 0)

/-- The integer value of a finite value that is one. -/
def finIntVal (n : Bool) (m : Nat) (e : Int) : Int :=
  if e ≥ 0 then signed n (m * 2 ^ e.toNat) else signed n (m / 2 ^ (-e).toNat)

/-- log2 of a magnitude that is a power of two. -/
def log2Exact (m : Nat) (e : Int) : Option Int :=
  if m ≠ 0 ∧ m = 2 ^ Nat.log2 m then some ((Nat.log2 m : Int) + e) else none

/-- Exponent of the unit in the last place at the magnitude m × 2^e. -/
def FFmt.ulpExp (f : FFmt) (m : Nat) (e : Int) : Int :=
  max (min (e + (bitLen m : Int) - (f.mb + 1 : Nat)) ((f.bias : Int) - f.mb)) f.emin

/-- Does a delivered value lie within so many units in the last place, or within an absolute bound where one is given,
of an exact value in the interval (R129)? An infinity counts as the first power of two beyond the format. Where the two lie in
different binades, an ulp is the larger unit (DESIGN CHOICE, log 69). -/
def FFmt.admits (f : FFmt) (ulps : Nat) (absE : Option Int) (iv : Interval) (v : FVal) : Bool :=
  let top := f.ulpExp (max iv.lo.natAbs iv.hi.natAbs) iv.e
  match v with
  | .nan .. => false
  | .inf n =>
    if n then iv.notBelow (-1) ((f.bias : Int) + 1) ulps top else iv.notAbove 1 ((f.bias : Int) + 1) ulps top
  | .fin n m e =>
    let near (b be : Int) := iv.notAbove (signed n m) e b be && iv.notBelow (signed n m) e b be
    near ulps (max top (f.ulpExp m e)) || absE.any fun k => near 1 k

/-- The delivered value of a function at a finite operand n, m, e, which R128 gives no special value: the fixed function
of the operand's encoding that Config.trans is, wherever it lies within the bound of R129, and else the exact value
rounded; with IX where it differs from the exact value (R98) and OF, UF on the delivered result. `exactV` tells whether a
delivered value equals the exact one. -/
def transFree (fn : Config.Trans) (ty : FType) (x : Nat) (n : Bool) (m : Nat) (e : Int) (exactV : FVal → Bool) : FRes :=
  let f := (ftFmt ty)
  let iv := transInterval fn n m e
  let c := Config.trans fn ty x % 2 ^ f.width
  let r := if f.admits (transUlps fn ty) (transAbs fn ty m e iv) iv (f.decode c) then c
    else (f.roundInt .rne false iv.lo iv.e).bits
  let v := f.decode r
  if exactV v then ⟨r, 0, 0⟩
  else match v with
    | .inf _ => ⟨r, flOF ||| flIX, 0⟩
    | .fin _ m _ => ⟨r, if m < 2 ^ f.mb then flUF ||| flIX else flIX, 0⟩
    | .nan .. => ⟨r, flIX, 0⟩

/-- a × b = 1 for finite values. -/
def isOneProduct (m1 : Nat) (e1 : Int) (m2 : Nat) (e2 : Int) : Bool := log2Exact (m1 * m2) (e1 + e2) == some 0

/-- The six functions (R128). -/
def transOp (fn : Config.Trans) (ty : FType) (x : Nat) : FRes :=
  let f := (ftFmt ty)
  match f.decode x with
  | .nan n fr s => ⟨f.nanBits n fr, if s then flIV else 0, 0⟩
  | .inf n =>
    match fn with
    | .rcp => ⟨f.signBit n, 0, 0⟩
    | .rsq => if n then f.invalid else ⟨0, 0, 0⟩
    | .exp2 => if n then ⟨0, 0, 0⟩ else ⟨f.infBits false, 0, 0⟩
    | .log2 => if n then f.invalid else ⟨f.infBits false, 0, 0⟩
    | .sin => f.invalid
    | .cos => f.invalid
  | .fin n m e =>
    match fn with
    | .rcp =>
      if m = 0 then ⟨f.infBits n, flDZ, 0⟩
      else transFree fn ty x n m e fun v => match v with | .fin n2 m2 e2 => n2 == n && isOneProduct m e m2 e2 | _ => false
    | .rsq =>
      if m = 0 then ⟨f.infBits n, flDZ, 0⟩
      else if n then f.invalid
      else transFree fn ty x n m e fun v => match v with
        | .fin n2 m2 e2 => !n2 && isOneProduct m e (m2 * m2) (e2 + e2)
        | _ => false
    | .exp2 =>
      if finInt m e then
        if bitLen m + e > 14 then
          (if n then transFree fn ty x n m e fun _ => false else ⟨f.infBits false, flOF ||| flIX, 0⟩)
        else
          let r := f.round .rne false 1 (finIntVal n m e)
          if r.flags = flUF ||| flIX then transFree fn ty x n m e fun _ => false else r
      else transFree fn ty x n m e fun _ => false
    | .log2 =>
      if m = 0 then ⟨f.infBits true, flDZ, 0⟩
      else if n then f.invalid
      else match log2Exact m e with
        | some k => f.roundInt .rne false k 0
        | none => transFree fn ty x n m e fun _ => false
    | .sin =>
      if m = 0 then ⟨f.signBit n, 0, 0⟩
      else if finInt m e then ⟨f.signBit n, 0, 0⟩
      else transFree fn ty x n m e fun v => match v with
        | .fin n2 m2 e2 => finInt (2 * m) e && isOneProduct m2 e2 1 0 &&
            (n2 == decide (finIntVal n (2 * m) e % 4 = 3))
        | _ => false
    | .cos =>
      if m = 0 then f.ofVal .rne (.fin false 1 0)
      else if finInt (2 * m) e && !finInt m e then ⟨0, 0, 0⟩
      else transFree fn ty x n m e fun v => match v with
        | .fin n2 m2 e2 => finInt m e && isOneProduct m2 e2 1 0 && (n2 == decide (finIntVal n m e % 2 ≠ 0))
        | _ => false

/-! ### SPLIT3, SMXMERGE and QUANT2's pieces -/

/-- The difference of a finite FP32 value and the BF16 term taken of it, exact. -/
def subExact (a b : FVal) : FVal :=
  match a, b with
  | .fin n1 m1 e1, .fin n2 m2 e2 =>
    let e := min e1 e2
    let s := signed n1 m1 * 2 ^ (e1 - e).toNat - signed n2 m2 * 2 ^ (e2 - e).toNat
    .fin (decide (s < 0)) s.natAbs e
  | a, _ => a

/-- SPLIT3 (R132): hi, mid, lo and the flags. -/
def split3 (x : Nat) : Nat × Nat × Nat × FFlags :=
  let v := fp32.decode x
  match v with
  | .nan n fr s => (bf16.nanBits n fr, 0, 0, if s then flIV else 0)
  | .inf n => (bf16.infBits n, 0, 0, 0)
  | .fin n m e =>
    let h0 := bf16.round .rne n m e
    let hi := if h0.bits = bf16.infBits n then bf16.maxBits n else h0.bits
    let r1 := subExact v (bf16.decode hi)
    let mid := (bf16.ofVal .rne r1).bits
    let r2 := subExact r1 (bf16.decode mid)
    let lo := bf16.ofVal .rne r2
    (hi, mid, lo.bits, lo.flags)

/-- FMAX of two FP32 patterns that are no NaNs. -/
def fmax32 (x y : Nat) : Nat := (fp32.minmax true x y).bits

/-- One term of SMXMERGE's mix (R136): f1 and f2 are FP32 patterns, none for an empty state. Where the exact product is 0 × inf
and t is a NaN, t's NaN is delivered, as an FMA does (DESIGN CHOICE, log 69). -/
def smxMix (f1 f2 : Option Nat) (x1 x2 : Nat) : FRes :=
  let t : FRes := match f1 with
    | none => ⟨0, 0, 0⟩
    | some f => fp32.mul .rne (fp32.decode f) (fp32.decode x1)
  match f2 with
  | none =>
    let r := fp32.add .rne (.fin false 0 0) (fp32.decode t.bits)
    { r with flags := r.flags ||| t.flags }
  | some f =>
    let r := fp32.fma .rne (fp32.decode f) (fp32.decode x2) (fp32.decode t.bits)
    { r with flags := r.flags ||| t.flags }

/-- The factor of a state whose score is mi, when the merged score is m (R136). -/
def smxFactor (mi m : Nat) : Option Nat × FFlags :=
  if mi = fp32.infBits true then (none, 0)
  else if (fp32.decode mi).cmp (fp32.decode m) = 0 then (some 0x3F800000, 0)
  else
    let d := fp32.sub .rne (fp32.decode mi) (fp32.decode m)
    let e := transOp .exp2 .f32 d.bits
    (some e.bits, d.flags ||| e.flags)

/-- SMXMERGE (R136): states as m :: l :: acc; the result state, the flags and the NaN-score count. -/
def smxMerge (a b : List Nat) : List Nat × FFlags × Nat :=
  let m1 := a.getD 0 0
  let m2 := b.getD 0 0
  match fp32.nanOf [fp32.decode m1, fp32.decode m2] with
  | some r => (a.map fun _ => r.bits, flIV, 1)
  | none =>
    let m := fmax32 m1 m2
    let f1 := smxFactor m1 m
    let f2 := smxFactor m2 m
    let rest := (a.drop 1).zip (b.drop 1) |>.map fun p => smxMix f1.1 f2.1 p.1 p.2
    (m :: rest.map (·.bits), overList rest (f1.2 ||| f2.2) (fun fl r => fl ||| r.flags), 0)
where
  /-- Fold over a list. -/
  overList {α β : Type} (l : List α) (b : β) (f : β → α → β) : β := l.foldl f b

/-- An integer-valued number rounded and clamped into INT8 (R133). -/
def quantInt8 (mode : Rounding) (v : FVal) : FRes :=
  match v with
  | .nan .. => ⟨0, flIV, 0⟩
  | .inf n => ⟨patOf 8 (if n then -128 else 127), flIX, 1⟩
  | .fin n m e =>
    let q := roundToInt mode n m e
    if q.1 < -128 then ⟨patOf 8 (-128), flIX, 1⟩
    else if q.1 > 127 then ⟨patOf 8 127, flIX, 1⟩
    else ⟨patOf 8 q.1, if q.2 then 0 else flIX, 0⟩

/-- The exact product of a value and a scale as a value: an invalid product is the default NaN with IV (R102). -/
def scaledVal (v s : FVal) : FVal × FFlags :=
  if v.isNan then (v, if v.isSig || s.isSig then flIV else 0)
  else if s.isNan then (s, if s.isSig then flIV else 0)
  else match v.times s with
    | some p => (p, 0)
    | none => (.nan false (2 ^ 51) false, flIV)

end Sys2Proof.Machine
end

