-- ==== Sys2Proof/Decode.lean ====
section
/-! DEFINITION. The decoder and the encoder (spec/03_encoding.md R50-R69 and the encoding rule of each entry). Words are
natural numbers below 2^32 here. A word at a first-word position is read by its format into raw fields; the fields
of its opcode give the reserved-bit test (RESERVED_BIT) and an instruction or nothing (ILLEGAL_FIELD). The checks
that need the clause around the word (class, framing of terminal instructions, latches, VREGS) stand in
Machine/Clause.lean. -/

namespace Sys2Proof

/-- The decode causes in the order of R51. -/
inductive DecodeCause where
  | framing | opcode | clauseClass | reserved | field | latch | range
  deriving DecidableEq, Repr, Inhabited

/-- Bits hi..lo of a word. -/
def fld (w hi lo : Nat) : Nat := w / 2 ^ lo % 2 ^ (hi + 1 - lo)

/-- Format A (R53). -/
structure RawA where
  op : Nat
  ty : Nat
  nw : Nat
  d : Nat
  a : Nat
  b : Nat
  deriving DecidableEq, Repr

/-- Format B (R54): word 1 whole, with its selectors in `xd`, `xa`, `xb`, `xc`. -/
structure RawB where
  op : Nat
  ty : Nat
  nw : Nat
  xw : Nat
  sub : Nat
  d : Nat
  a : Nat
  imm : Nat
  deriving DecidableEq, Repr

/-- XD of word 1 (R54). -/
def RawB.xd (r : RawB) : Nat := fld r.imm 31 24
/-- XA of word 1 (R54). -/
def RawB.xa (r : RawB) : Nat := fld r.imm 23 16
/-- XB of word 1 (R54). -/
def RawB.xb (r : RawB) : Nat := fld r.imm 15 8
/-- XC of word 1 (R54). -/
def RawB.xc (r : RawB) : Nat := fld r.imm 7 0

/-- Format M1 (R55). -/
structure RawM1 where
  op : Nat
  ty : Nat
  nw : Nat
  ri : Nat
  data : Nat
  off : Nat
  rsv : Nat
  recd : Nat
  ord : Nat
  scope : Nat
  sw : Nat
  st : Nat
  stsel : Nat
  sub : Nat
  deriving DecidableEq, Repr

/-- Format M2 (R56). -/
structure RawM2 where
  op : Nat
  ty : Nat
  nw : Nat
  data : Nat
  c0 : Nat
  c1 : Nat
  c2 : Nat
  c3 : Nat
  c4 : Nat
  c5 : Nat
  n : Nat
  st : Nat
  c6 : Nat
  stsel : Nat
  recd : Nat
  shape : Nat
  sw : Nat
  rsv : Nat
  deriving DecidableEq, Repr

/-- Format X (R57). -/
structure RawX where
  op : Nat
  acc : Nat
  a : Nat
  b : Nat
  fmt : Nat
  as_ : Nat
  bs : Nat
  x1 : Nat
  x2 : Nat
  recd : Nat
  rsv : Nat
  deriving DecidableEq, Repr

/-- Format C (R58). -/
structure RawC where
  op : Nat
  fn : Nat
  pn : Nat
  p : Nat
  off : Nat
  deriving DecidableEq, Repr

/-- The raw fields of one instruction. -/
inductive Raw where
  | a (r : RawA)
  | b (r : RawB)
  | m1 (r : RawM1)
  | m2 (r : RawM2)
  | x (r : RawX)
  | c (r : RawC)
  deriving DecidableEq, Repr

/-- The formats (R66). -/
inductive Fmt where
  | a | b | m1 | m2 | x | c
  deriving DecidableEq, Repr

/-- Words of an instruction of a format (R50). -/
def Fmt.len : Fmt → Nat
  | .a => 1 | .c => 1 | .b => 2 | .m1 => 2 | .x => 2 | .m2 => 3

/-- Opcodes of format A (R66). -/
def opsA : List Nat :=
  [0x00, 0x04, 0x05, 0x06, 0x07, 0x08, 0x09, 0x0C, 0x0D, 0x0E, 0x0F, 0x10, 0x11, 0x12, 0x13, 0x14, 0x15, 0x1B,
   0x1C, 0x1D, 0x20, 0x21, 0x22, 0x24, 0x25, 0x26, 0x28, 0x29, 0x2A, 0x2B, 0x2C, 0x2D, 0x31, 0x35, 0x36,
   0x45, 0x46, 0x47, 0x48, 0x57, 0x58, 0x59, 0x5A, 0x68, 0x69, 0x6A, 0x79, 0x7B]

/-- Opcodes of format B (R66). -/
def opsB : List Nat :=
  [0x01, 0x02, 0x03, 0x0A, 0x0B, 0x16, 0x17, 0x18, 0x19, 0x1A, 0x23, 0x27, 0x2E, 0x2F, 0x30, 0x32, 0x33, 0x34,
   0x37, 0x38, 0x39, 0x49, 0x50, 0x51, 0x52, 0x53, 0x54, 0x55, 0x56, 0x5B, 0x6E, 0x70, 0x71, 0x72, 0x73, 0x74,
   0x7A, 0x7C, 0x7D]

/-- Opcodes of format M1 (R66). -/
def opsM1 : List Nat := [0x60, 0x61, 0x64, 0x65, 0x66, 0x67, 0x6B, 0x6C, 0x6D]

/-- The format of a major opcode; none where it is unassigned (R66, R68). -/
def opFmt (op : Nat) : Option Fmt :=
  if op ∈ opsA then some .a
  else if op ∈ opsB then some .b
  else if op ∈ opsM1 then some .m1
  else if op = 0x62 ∨ op = 0x63 then some .m2
  else if 0x40 ≤ op ∧ op ≤ 0x44 then some .x
  else if op = 0x78 then some .c
  else none

/-- A format-A word's fields. -/
def unpackA (w : Nat) : RawA :=
  { op := fld w 31 25, ty := fld w 24 22, nw := fld w 21 21, d := fld w 20 14, a := fld w 13 7, b := fld w 6 0 }

/-- A format-B instruction's fields. -/
def unpackB (w w1 : Nat) : RawB :=
  { op := fld w 31 25, ty := fld w 24 22, nw := fld w 21 21, xw := fld w 20 20, sub := fld w 19 14, d := fld w 13 7,
    a := fld w 6 0, imm := w1 }

/-- A format-M1 instruction's fields. -/
def unpackM1 (w w1 : Nat) : RawM1 :=
  { op := fld w 31 25, ty := fld w 24 22, nw := fld w 21 21, ri := fld w 20 20, data := fld w 19 13, off := fld w 12 6,
    rsv := fld w 5 0, recd := fld w1 31 24, ord := fld w1 23 21, scope := fld w1 20 18, sw := fld w1 17 17,
    st := fld w1 16 16, stsel := fld w1 15 8, sub := fld w1 7 0 }

/-- A format-M2 instruction's fields. -/
def unpackM2 (w w1 w2 : Nat) : RawM2 :=
  { op := fld w 31 25, ty := fld w 24 22, nw := fld w 21 21, data := fld w 20 14, c0 := fld w 13 7, c1 := fld w 6 0,
    c2 := fld w1 31 25, c3 := fld w1 24 18, c4 := fld w1 17 11, c5 := fld w1 10 4, n := fld w1 3 1, st := fld w1 0 0,
    c6 := fld w2 31 25, stsel := fld w2 24 18, recd := fld w2 17 10, shape := fld w2 9 4, sw := fld w2 3 3,
    rsv := fld w2 2 0 }

/-- A format-X instruction's fields. -/
def unpackX (w w1 : Nat) : RawX :=
  { op := fld w 31 25, acc := fld w 24 21, a := fld w 20 14, b := fld w 13 7, fmt := fld w 6 0, as_ := fld w1 31 31,
    bs := fld w1 30 30, x1 := fld w1 29 22, x2 := fld w1 21 14, recd := fld w1 13 6, rsv := fld w1 5 0 }

/-- A format-C word's fields. -/
def unpackC (w : Nat) : RawC :=
  { op := fld w 31 25, fn := fld w 24 22, pn := fld w 21 21, p := fld w 20 18, off := fld w 17 0 }

/-- A 7-bit selector (R59). -/
def Sel.of7 (n : Nat) : Sel :=
  if n < 96 then .v n
  else if n < 104 then .o (n - 96)
  else if n < 108 then .x (n - 104)
  else if n < 112 then .a (n - 108)
  else if n < 120 then .s (n - 112)
  else if n = 120 then .zero
  else if n = 121 then .one
  else if n = 122 then .negOne
  else if n = 123 then .half
  else if n = 124 then .two
  else if n = 125 then .laneIdx
  else if n = 126 then .sliceIdx
  else .crewSize

/-- An 8-bit selector (R60); 248-255 are reserved. -/
def Sel.of8 (n : Nat) : Option Sel :=
  if n < 192 then some (.v n)
  else if n < 224 then some (.s (n - 192))
  else if n < 232 then some (.o (n - 224))
  else if n < 236 then some (.x (n - 232))
  else if n < 240 then some (.a (n - 236))
  else if n = 240 then some .zero
  else if n = 241 then some .one
  else if n = 242 then some .negOne
  else if n = 243 then some .half
  else if n = 244 then some .two
  else if n = 245 then some .laneIdx
  else if n = 246 then some .sliceIdx
  else if n = 247 then some .crewSize
  else none

/-- The 7-bit code of a selector. -/
def Sel.code7 : Sel → Nat
  | .v n => n | .o n => 96 + n | .x n => 104 + n | .a n => 108 + n | .s n => 112 + n
  | .zero => 120 | .one => 121 | .negOne => 122 | .half => 123 | .two => 124
  | .laneIdx => 125 | .sliceIdx => 126 | .crewSize => 127

/-- The 8-bit code of a selector. -/
def Sel.code8 : Sel → Nat
  | .v n => n | .s n => 192 + n | .o n => 224 + n | .x n => 232 + n | .a n => 236 + n
  | .zero => 240 | .one => 241 | .negOne => 242 | .half => 243 | .two => 244
  | .laneIdx => 245 | .sliceIdx => 246 | .crewSize => 247

/-- TYPE of the integer group (R64). -/
def IType.of : Nat → Option IType
  | 0 => some .s32 | 1 => some .u32 | 2 => some .s16 | 3 => some .u16 | 4 => some .s8 | 5 => some .u8 | 6 => some .s4
  | _ => none
/-- Its code. -/
def IType.code : IType → Nat
  | .s32 => 0 | .u32 => 1 | .s16 => 2 | .u16 => 3 | .s8 => 4 | .u8 => 5 | .s4 => 6

/-- TYPE of the float group (R64). -/
def FType.of : Nat → Option FType
  | 0 => some .f32 | 1 => some .f64 | 2 => some .f16 | 3 => some .bf16 | _ => none
/-- Its code. -/
def FType.code : FType → Nat
  | .f32 => 0 | .f64 => 1 | .f16 => 2 | .bf16 => 3

/-- Width (R64). -/
def Width.of : Nat → Option Width
  | 0 => some .b8 | 1 => some .b16 | 2 => some .b32 | 3 => some .b64 | 4 => some .b128 | _ => none
/-- Its code. -/
def Width.code : Width → Nat
  | .b8 => 0 | .b16 => 1 | .b32 => 2 | .b64 => 3 | .b128 => 4

/-- ORD (R65). -/
def Order.of : Nat → Option Order
  | 0 => some .relaxed | 1 => some .acquire | 2 => some .release | 3 => some .acqRel | 4 => some .seq | _ => none
/-- Its code. -/
def Order.code : Order → Nat
  | .relaxed => 0 | .acquire => 1 | .release => 2 | .acqRel => 3 | .seq => 4

/-- SCOPE (R65). -/
def Scope.of : Nat → Option Scope
  | 0 => some .crew | 1 => some .core | 2 => some .cluster | 3 => some .die | 4 => some .device | 5 => some .system
  | _ => none
/-- Its code. -/
def Scope.code : Scope → Nat
  | .crew => 0 | .core => 1 | .cluster => 2 | .die => 3 | .device => 4 | .system => 5

/-- The SPACE bit. -/
def Space.of (n : Nat) : Space := if n = 0 then .local else .cluster
/-- Its code. -/
def Space.code : Space → Nat
  | .local => 0 | .cluster => 1

/-- A rounding mode (R103). -/
def Rounding.of : Nat → Option Rounding
  | 0 => some .rne | 1 => some .rtz | 2 => some .rup | 3 => some .rdn | _ => none
/-- Its code. -/
def Rounding.code : Rounding → Nat
  | .rne => 0 | .rtz => 1 | .rup => 2 | .rdn => 3

/-- The rounding control in SUB[2:0] (R121): DYN = 1 needs RM = 0. -/
def RoundCtl.of : Nat → Option RoundCtl
  | 0 => some (.static .rne) | 1 => some (.static .rtz) | 2 => some (.static .rup) | 3 => some (.static .rdn)
  | 4 => some .dyn | _ => none
/-- Its code. -/
def RoundCtl.code : RoundCtl → Nat
  | .static m => m.code | .dyn => 4

/-- The condition of ICMP (R90). -/
def ICond.of : Nat → Option ICond
  | 0 => some .eq | 1 => some .ne | 2 => some .lt | 3 => some .le | 4 => some .gt | 5 => some .ge | _ => none
/-- Its code. -/
def ICond.code : ICond → Nat
  | .eq => 0 | .ne => 1 | .lt => 2 | .le => 3 | .gt => 4 | .ge => 5

/-- The condition of FCMP (R126). -/
def FCond.of : Nat → Option FCond
  | 0 => some .eq | 1 => some .ne | 2 => some .lt | 3 => some .le | 4 => some .gt | 5 => some .ge
  | 6 => some .ord | 7 => some .unord | _ => none
/-- Its code. -/
def FCond.code : FCond → Nat
  | .eq => 0 | .ne => 1 | .lt => 2 | .le => 3 | .gt => 4 | .ge => 5 | .ord => 6 | .unord => 7

/-- The operation of PLOP (R90). -/
def PredOp.of : Nat → Option PredOp
  | 0 => some .and | 1 => some .or | 2 => some .xor | 3 => some .andn | _ => none
/-- Its code. -/
def PredOp.code : PredOp → Nat
  | .and => 0 | .or => 1 | .xor => 2 | .andn => 3

/-- A predicate operand in bits [3:0] (R90). -/
def PredRef.of (n : Nat) : PredRef := { p := n % 8, neg := decide (n / 8 % 2 = 1) }
/-- Its code. -/
def PredRef.code (r : PredRef) : Nat := r.p + (if r.neg then 8 else 0)

/-- The mode of VOTE (R35). -/
def VoteMode.of : Nat → Option VoteMode
  | 0 => some .all | 1 => some .any | 2 => some .ballot | 3 => some .eq | 4 => some .popc | _ => none
/-- Its code. -/
def VoteMode.code : VoteMode → Nat
  | .all => 0 | .any => 1 | .ballot => 2 | .eq => 3 | .popc => 4

/-- The mode of SHFL (R35). -/
def ShflMode.of : Nat → Option ShflMode
  | 0 => some .idx | 1 => some .up | 2 => some .down | 3 => some .xor | _ => none
/-- Its code. -/
def ShflMode.code : ShflMode → Nat
  | .idx => 0 | .up => 1 | .down => 2 | .xor => 3

/-- The target of CVT (R130). -/
def CvtTarget.of : Nat → Option CvtTarget
  | 0 => some .f32 | 1 => some .f64 | 2 => some .f16 | 3 => some .bf16 | 4 => some .e4m3 | _ => none
/-- Its code. -/
def CvtTarget.code : CvtTarget → Nat
  | .f32 => 0 | .f64 => 1 | .f16 => 2 | .bf16 => 3 | .e4m3 => 4

/-- The rounding operand of FRND (R125). -/
def RndMode.of : Nat → Option RndMode
  | 0 => some (.static .rne) | 1 => some (.static .rtz) | 2 => some (.static .rup) | 3 => some (.static .rdn)
  | 4 => some .fpmode | _ => none
/-- Its code. -/
def RndMode.code : RndMode → Nat
  | .static m => m.code | .fpmode => 4

/-- The number of a special register (R78, R120, R170, R178, R193, R255, R275, R347, R409). -/
def SReg.of (n : Nat) : Option SReg :=
  match n with
  | 0x000 => some .lane | 0x001 => some .gangctl | 0x002 => some .flags | 0x003 => some .cycle | 0x004 => some .clock
  | 0x005 => some .core | 0x006 => some .alloc | 0x007 => some .wg | 0x008 => some .domain | 0x010 => some .fpmode
  | 0x011 => some .count | 0x012 => some .spad | 0x013 => some .racecov | 0x014 => some .wgtag | 0x015 => some .gate
  | 0x016 => some .appr
  | n => if 0x018 ≤ n ∧ n ≤ 0x01F then some (.q (n - 0x018)) else none
/-- Its code. -/
def SReg.code : SReg → Nat
  | .lane => 0x000 | .gangctl => 0x001 | .flags => 0x002 | .cycle => 0x003 | .clock => 0x004
  | .core => 0x005 | .alloc => 0x006 | .wg => 0x007 | .domain => 0x008 | .fpmode => 0x010
  | .count => 0x011 | .spad => 0x012 | .racecov => 0x013 | .wgtag => 0x014 | .gate => 0x015
  | .appr => 0x016 | .q n => 0x018 + n

/-- A matrix operand under its AS or BS bit (R57). -/
def MOperand.of (s code : Nat) : Option MOperand :=
  if s = 0 then (if code < 96 then some (.reg code) else none)
  else if 112 ≤ code ∧ code ≤ 118 then some (.spad (code - 112)) else none
/-- Its code. -/
def MOperand.code : MOperand → Nat
  | .reg n => n | .spad n => 112 + n
/-- Its AS or BS bit. -/
def MOperand.bit : MOperand → Nat
  | .reg _ => 0 | .spad _ => 1

/-- The AF field (R155). -/
def AccFmt.of : Nat → Option AccFmt
  | 0 => some .fp32 | 1 => some .fp64 | 2 => some .int32 | _ => none
/-- Its code. -/
def AccFmt.code : AccFmt → Nat
  | .fp32 => 0 | .fp64 => 1 | .int32 => 2

/-- The CH bit (R155). -/
def Chain.of (n : Nat) : Chain := if n = 0 then .e else .o
/-- Its code. -/
def Chain.code : Chain → Nat
  | .e => 0 | .o => 1

/-- The element width of MTRANS (R163). -/
def TransWidth.of : Nat → Option TransWidth
  | 0 => some .b8 | 1 => some .b16 | 2 => some .b32 | 3 => some .b64 | _ => none
/-- Its code. -/
def TransWidth.code : TransWidth → Nat
  | .b8 => 0 | .b16 => 1 | .b32 => 2 | .b64 => 3

/-- The path of WAITC (R179). -/
def Path.of : Nat → Option Path
  | 0 => some .sp | 1 => some .cl | 2 => some .dm | 3 => some .en | 4 => some .ic | _ => none
/-- Its code. -/
def Path.code : Path → Nat
  | .sp => 0 | .cl => 1 | .dm => 2 | .en => 3 | .ic => 4

/-- An atomic operation (R186). -/
def AtomOp.of : Nat → Option AtomOp
  | 0 => some .add | 1 => some .sub | 2 => some .mins | 3 => some .maxs | 4 => some .minu | 5 => some .maxu
  | 6 => some .and | 7 => some .or | 8 => some .xor | 9 => some .xchg | 10 => some .cas | 11 => some .fadd
  | 12 => some .incw | _ => none
/-- Its code. -/
def AtomOp.code : AtomOp → Nat
  | .add => 0 | .sub => 1 | .mins => 2 | .maxs => 3 | .minu => 4 | .maxu => 5 | .and => 6 | .or => 7 | .xor => 8
  | .xchg => 9 | .cas => 10 | .fadd => 11 | .incw => 12

/-- The record reference under RI (R55). -/
def RecRef.of (ri code : Nat) : Option RecRef :=
  if ri = 0 then some (.imm code) else (Sel.of8 code).map .reg
/-- Its RI bit. -/
def RecRef.bit : RecRef → Nat
  | .imm _ => 0 | .reg _ => 1
/-- Its code. -/
def RecRef.code : RecRef → Nat
  | .imm n => n | .reg r => r.code8

/-- A bit as a Boolean. -/
def bit1 (n : Nat) : Bool := decide (n = 1)
/-- A Boolean as a bit. -/
def b2n (b : Bool) : Nat := if b then 1 else 0

/-- The status selector under ST, 8 bits (R55). -/
def stOf (st sel : Nat) : Option (Option Sel) :=
  if st = 0 then some none else (Sel.of8 sel).map some

/-- Build a three-selector integer instruction. -/
def mkIntA (r : RawA) (k : IntA → Instr) : Option Instr :=
  (IType.of r.ty).map fun ty =>
    k { ty := ty, nw := bit1 r.nw, d := .of7 r.d, a := .of7 r.a, b := .of7 r.b }

/-- Build a one-source integer instruction. -/
def mkIntU (r : RawA) (k : IntU → Instr) : Option Instr :=
  (IType.of r.ty).map fun ty => k { ty := ty, nw := bit1 r.nw, d := .of7 r.d, a := .of7 r.a }

/-- Build a two-source float instruction. -/
def mkFltA (r : RawA) (k : FltA → Instr) : Option Instr :=
  (FType.of r.ty).map fun ty =>
    k { ty := ty, nw := bit1 r.nw, d := .of7 r.d, a := .of7 r.a, b := .of7 r.b }

/-- Build a one-source float instruction. -/
def mkFltU (r : RawA) (k : FltU → Instr) : Option Instr :=
  (FType.of r.ty).map fun ty => k { ty := ty, nw := bit1 r.nw, d := .of7 r.d, a := .of7 r.a }

/-- The unary integer functions (R67, R86). -/
def ofUnary (r : RawA) : Option Instr :=
  match r.b with
  | 0 => mkIntU r .iabs | 1 => mkIntU r .ineg | 2 => mkIntU r .popc | 3 => mkIntU r .clz | 4 => mkIntU r .ctz
  | 5 => mkIntU r .brev | _ => none

/-- The logic functions (R67, R86). -/
def ofLogic (r : RawA) : Option Instr :=
  let o : LogicA := { nw := bit1 r.nw, d := .of7 r.d, a := .of7 r.a, b := .of7 r.b }
  match r.ty with
  | 0 => some (.and o) | 1 => some (.or o) | 2 => some (.xor o) | 3 => some (.andn o) | _ => none

/-- The transcendental functions (R67, R128). -/
def ofTrans (r : RawA) : Option Instr :=
  match r.b with
  | 0 => mkFltU r .frcp | 1 => mkFltU r .frsq | 2 => mkFltU r .fexp2 | 3 => mkFltU r .flog2 | 4 => mkFltU r .fsin
  | 5 => mkFltU r .fcos | _ => none

/-- The control functions of opcode 0x79 (R92, R370): the reserved-bit test and the instruction. -/
def ofControl (r : RawA) : Bool × Option Instr :=
  match r.ty with
  | 0 => (r.d != 0 || r.b != 0 || r.nw != 0, some (.bri (.of7 r.a)))
  | 1 => (r.d != 0 || r.a != 0 || r.b != 0 || r.nw != 0, some .ret)
  | 2 => (r.d != 0 || r.a != 0 || r.b != 0 || r.nw != 0, some .nop)
  | 3 => (r.d != 0 || r.a != 0 || r.nw != 0 || r.b / 16 != 0, some (.trap (r.b % 16)))
  | 4 => (r.d != 0 || r.a != 0 || r.nw != 0 || r.b / 2 != 0, some (if r.b % 2 = 0 then .tret else .tretAbort))
  | 5 => (r.b != 0 || r.nw != 0, some (.excrd (.of7 r.d) (.of7 r.a)))
  | _ => (r.nw != 0, none)

/-- The execution functions of opcode 0x7B (R33). -/
def ofExec (r : RawA) : Bool × Option Instr :=
  let z := r.d != 0 || r.a != 0 || r.b != 0 || r.nw != 0
  match r.ty with
  | 0 => (false, some (.join (bit1 r.nw) (.of7 r.d) (.of7 r.a) (.of7 r.b)))
  | 1 => (z, some .leave)
  | 2 => (z, some .regang)
  | 3 => (z, some .yield)
  | 4 => (z, some .exit)
  | _ => (false, none)

/-- MMAFIN, MACCRD, MACCWR, MXWAIT (R155). -/
def ofSlotOp (r : RawA) : Bool × Option Instr :=
  let slot := r.b % 16
  let ch := r.b / 16 % 2
  let af := r.b / 32
  if r.op = 0x45 then
    (r.nw != 0 || r.d != 0 || r.a != 0 || ch != 0 || af != 0, if r.ty = 0 then some (.mmafin slot) else none)
  else if r.op = 0x46 then
    (r.nw != 0 || r.a != 0,
     if r.ty = 0 ∧ r.d < 96 then (AccFmt.of af).map fun f => .maccrd f slot (.of ch) r.d else none)
  else if r.op = 0x47 then
    (r.nw != 0 || r.d != 0,
     if r.ty = 0 then
       (AccFmt.of af).bind fun f =>
         if r.a = 120 then some (.maccwr f slot (.of ch) none)
         else if r.a < 96 then some (.maccwr f slot (.of ch) (some r.a)) else none
     else none)
  else
    (r.nw != 0 || r.d != 0 || r.a != 0 || af != 0 || (ch != 0 && slot != 0),
     if r.ty = 0 then some (.mxwait (if ch = 0 then some slot else none)) else none)

/-- The stream instructions of format A and WAITC (R179, R190). -/
def ofStream (r : RawA) : Bool × Option Instr :=
  if r.op = 0x57 then
    (r.d != 0 || r.b != 0 || r.nw != 0, (Path.of r.ty).map fun p => .waitc p (.of7 r.a))
  else if r.op = 0x58 then
    (r.a != 0 || r.b != 0 || r.nw != 0, some (.qrd r.ty (.of7 r.d)))
  else if r.op = 0x59 then
    match r.b with
    | 0 => (r.a != 0 || r.nw != 0, some (.qpushClaim r.ty (.of7 r.d)))
    | 1 => (r.d != 0 || r.nw != 0, some (.qpushCommit r.ty (.of7 r.a)))
    | _ => (r.nw != 0, none)
  else
    (r.d != 0 || r.b != 0 || r.nw != 0, some (.qfree r.ty (.of7 r.a)))

/-- MONWAIT, FENCE, PUBLISH (R225, R227, R228). -/
def ofMemA (r : RawA) : Bool × Option Instr :=
  if r.op = 0x68 then
    (r.nw != 0 || r.d != 0 || r.a != 0 || r.b != 0, if r.ty = 0 then some .monwait else none)
  else if r.op = 0x69 then
    (r.d != 0 || r.a != 0 || r.nw != 0,
     (Order.of r.ty).bind fun o => (Scope.of r.b).map fun s => .fence o s)
  else
    (r.d != 0 || r.b != 0 || r.nw != 0, if r.ty = 0 then some (.publish (.of7 r.a)) else none)

/-- Format A: the reserved-bit test and the instruction. -/
def ofA (r : RawA) : Bool × Option Instr :=
  match r.op with
  | 0x00 => (r.b != 0, mkIntU r .mov)
  | 0x04 => (false, mkIntA r .iadd)
  | 0x05 => (false, mkIntA r .iaddc)
  | 0x06 => (false, mkIntA r .isub)
  | 0x07 => (false, mkIntA r .isubb)
  | 0x08 => (false, mkIntA r .imul)
  | 0x09 => (false, mkIntA r .imulh)
  | 0x0C => (false, mkIntA r .idiv)
  | 0x0D => (false, mkIntA r .irem)
  | 0x0E => (false, mkIntA r .imin)
  | 0x0F => (false, mkIntA r .imax)
  | 0x10 => (false, ofUnary r)
  | 0x11 => (false, ofLogic r)
  | 0x12 => (false, mkIntA r .shl)
  | 0x13 => (false, mkIntA r .shr)
  | 0x14 => (false, mkIntA r .sar)
  | 0x15 => (false, mkIntA r .rot)
  | 0x1B =>
    (r.nw != 0 || r.d / 16 != 0 || r.a / 16 != 0 || r.b / 16 != 0,
     (PredOp.of r.ty).map fun op => .plop op (.of r.d) (.of r.a) (.of r.b))
  | 0x1C => (r.b != 0, (VoteMode.of r.ty).map fun m => .vote m (bit1 r.nw) (.of7 r.d) (.of7 r.a))
  | 0x1D => (false, (ShflMode.of r.ty).map fun m => .shfl m (bit1 r.nw) (.of7 r.d) (.of7 r.a) (.of7 r.b))
  | 0x20 => (false, mkFltA r .fadd)
  | 0x21 => (false, mkFltA r .fsub)
  | 0x22 => (false, mkFltA r .fmul)
  | 0x24 => (false, mkFltA r .fmin)
  | 0x25 => (false, mkFltA r .fmax)
  | 0x26 => (false, mkFltA r .fcopys)
  | 0x28 => (r.b != 0, mkFltU r .fclass)
  | 0x29 => (false, mkFltA r .fdiv)
  | 0x2A => (r.b != 0, mkFltU r .fsqrt)
  | 0x2B => (false, ofTrans r)
  | 0x2C => (false, mkFltA r .fscale)
  | 0x2D => (false, (RndMode.of r.b).bind fun m => mkFltU r fun o => .frnd o m)
  | 0x31 => (r.b != 0, if r.ty = 0 then some (.split3 (bit1 r.nw) (.of7 r.d) (.of7 r.a)) else none)
  | 0x35 => (r.b != 0, mkFltU r .freda)
  | 0x36 => (r.b != 0, mkFltU r .fredm)
  | 0x45 => ofSlotOp r
  | 0x46 => ofSlotOp r
  | 0x47 => ofSlotOp r
  | 0x48 => ofSlotOp r
  | 0x57 => ofStream r
  | 0x58 => ofStream r
  | 0x59 => ofStream r
  | 0x5A => ofStream r
  | 0x68 => ofMemA r
  | 0x69 => ofMemA r
  | 0x6A => ofMemA r
  | 0x79 => ofControl r
  | 0x7B => ofExec r
  | _ => (false, none)

/-- A second source of a two-form instruction: IMM, or XB. -/
def srcOf (r : RawB) : Option Src :=
  if r.xw = 0 then some (.imm (BitVec.ofNat 32 r.imm)) else (Sel.of8 r.xb).map .reg

/-- The destination field D, or XD under XW = 1. -/
def dstOf (r : RawB) : Option Sel := if r.xw = 0 then some (.of7 r.d) else Sel.of8 r.xd

/-- The first source field A, or XA under XW = 1. -/
def srcAOf (r : RawB) : Option Sel := if r.xw = 0 then some (.of7 r.a) else Sel.of8 r.xa

/-- A field that must be zero when XW = 1. -/
def rx (r : RawB) (n : Nat) : Bool := r.xw == 1 && n != 0

/-- The four selectors of word 1. -/
def four (r : RawB) : Option (Sel × Sel × Sel × Sel) :=
  (Sel.of8 r.xd).bind fun d => (Sel.of8 r.xa).bind fun a => (Sel.of8 r.xb).bind fun b =>
    (Sel.of8 r.xc).map fun c => (d, a, b, c)

/-- Integer and special-register instructions of format B (R79, R82, R88-R90). -/
def ofIntB (r : RawB) : Bool × Option Instr :=
  match r.op with
  | 0x01 =>
    (r.sub != 0 || (r.xw == 0 && r.a != 0) || rx r r.xb || rx r r.xc,
     (IType.of r.ty).bind fun ty => (dstOf r).bind fun d =>
       if r.xw = 0 then some (.movi ty (bit1 r.nw) d (.imm (BitVec.ofNat 32 r.imm)))
       else (Sel.of8 r.xa).map fun a => .movi ty (bit1 r.nw) d (.reg a))
  | 0x02 =>
    (r.xw == 0 && (r.a != 0 || r.imm / 1024 != 0),
     if r.xw = 0 ∧ r.ty = 1 then
       (SReg.of (r.imm % 1024)).bind fun s =>
         if r.sub = 0 then some (.movs (bit1 r.nw) (.of7 r.d) s)
         else if r.sub = 1 ∧ s = .cycle then some (.movsWide (bit1 r.nw) (.of7 r.d)) else none
     else none)
  | 0x03 =>
    (r.nw != 0 || (r.xw == 0 && (r.d != 0 || r.imm / 1024 != 0)),
     if r.xw = 0 ∧ r.ty = 1 ∧ r.sub = 0 then (SReg.of (r.imm % 1024)).map fun s => .movsw s (.of7 r.a) else none)
  | 0x0A =>
    (r.sub != 0,
     if r.xw = 1 then
       (IType.of r.ty).bind fun ty => (four r).map fun (d, a, b, c) =>
         .imad { ty := ty, nw := bit1 r.nw, d := d, a := a, b := b, c := c }
     else none)
  | 0x0B =>
    (r.sub != 0,
     if r.xw = 1 then
       (IType.of r.ty).bind fun ty => (four r).map fun (d, a, b, c) =>
         .imadw { ty := ty, nw := bit1 r.nw, d := d, a := a, b := b, c := c }
     else none)
  | 0x16 =>
    (r.sub != 0 || rx r r.xc,
     (IType.of r.ty).bind fun ty => (dstOf r).bind fun d => (srcAOf r).bind fun a =>
       (srcOf r).map fun s => .bfx ty (bit1 r.nw) d a s)
  | 0x17 =>
    (r.sub != 0,
     (IType.of r.ty).bind fun ty =>
       if r.xw = 0 then some (.bfi ty (bit1 r.nw) (.imm (.of7 r.d) (.of7 r.a) (BitVec.ofNat 32 r.imm)))
       else (four r).map fun (d, a, b, c) => .bfi ty (bit1 r.nw) (.reg d a b c))
  | 0x18 =>
    (r.sub != 0,
     if r.ty = 1 then
       if r.xw = 0 then some (.perm (bit1 r.nw) (.imm (.of7 r.d) (.of7 r.a) (BitVec.ofNat 32 r.imm)))
       else (four r).map fun (d, a, b, c) => .perm (bit1 r.nw) (.reg d a b c)
     else none)
  | 0x19 =>
    (r.nw != 0 || rx r r.xc,
     (ICond.of r.sub).bind fun c => (IType.of r.ty).bind fun ty => (srcAOf r).bind fun a =>
       (srcOf r).map fun s => .icmp c ty (if r.xw = 0 then r.d else r.xd) a s)
  | 0x1A =>
    (rx r r.xc,
     if r.sub < 16 then
       (IType.of r.ty).bind fun ty => (dstOf r).bind fun d => (srcAOf r).bind fun a =>
         (srcOf r).map fun s => .sel ty (bit1 r.nw) (.of r.sub) d a s
     else none)
  | _ => (false, none)

/-- Float instructions of format B (R121-R141) and MTRANS (R163). -/
def ofFltB (r : RawB) : Bool × Option Instr :=
  match r.op with
  | 0x23 =>
    (r.sub / 8 != 0,
     if r.xw = 1 then
       (FType.of r.ty).bind fun ty => (RoundCtl.of (r.sub % 8)).bind fun rc => (four r).map fun (d, a, b, c) =>
         .ffma ty (bit1 r.nw) rc d a b c
     else none)
  | 0x27 =>
    (r.nw != 0 || r.sub / 8 != 0 || rx r r.xc,
     (FCond.of (r.sub % 8)).bind fun c => (FType.of r.ty).bind fun ty => (srcAOf r).bind fun a =>
       (srcOf r).map fun s => .fcmp c ty (if r.xw = 0 then r.d else r.xd) a s)
  | 0x2E =>
    (r.sub / 8 != 0 || (r.xw == 0 && (r.imm / 16 != 0 || (r.imm / 8 % 2 != 0 && r.imm % 8 != 4))),
     if r.xw = 0 then
       (FType.of r.ty).bind fun ty => (RoundCtl.of (r.sub % 8)).bind fun rc => (CvtTarget.of (r.imm % 8)).map fun t =>
         .cvt ty (bit1 r.nw) rc (.of7 r.d) (.of7 r.a) t (bit1 (r.imm / 8 % 2))
     else none)
  | 0x2F =>
    (r.sub / 8 != 0 || (r.xw == 0 && r.imm / 8 != 0),
     if r.xw = 0 then
       (FType.of r.ty).bind fun ty => (RoundCtl.of (r.sub % 8)).bind fun rc => (IType.of (r.imm % 8)).map fun t =>
         .cvti ty (bit1 r.nw) rc (.of7 r.d) (.of7 r.a) t
     else none)
  | 0x30 =>
    (r.sub / 8 != 0 || (r.xw == 0 && r.imm / 8 != 0),
     if r.xw = 0 then
       (FType.of r.ty).bind fun ty => (RoundCtl.of (r.sub % 8)).bind fun rc => (IType.of (r.imm % 8)).map fun t =>
         .cvtf ty (bit1 r.nw) rc (.of7 r.d) (.of7 r.a) t
     else none)
  | 0x32 =>
    (r.sub != 0,
     if r.xw = 1 ∧ r.ty = 0 then (four r).map fun (d, a, b, c) => .qnt (bit1 r.nw) d a b c else none)
  | 0x33 =>
    (r.sub != 0,
     if r.xw = 1 ∧ r.ty = 0 then (four r).map fun (d, a, b, c) => .dqnt (bit1 r.nw) d a b c else none)
  | 0x34 =>
    (rx r r.xc,
     if r.xw = 1 ∧ r.ty = 0 ∧ r.sub < 16 then
       (four r).map fun (d, a, b, _) => .smxmerge (bit1 r.nw) (r.sub + 1) d a b
     else none)
  | 0x37 =>
    (r.sub != 0,
     if r.xw = 1 then
       (FType.of r.ty).bind fun ty => (four r).map fun (d, a, b, c) => .unpkd ty (bit1 r.nw) d a b c
     else none)
  | 0x38 =>
    (r.sub != 0 || rx r r.xb || rx r r.xc,
     if r.xw = 1 then
       (FType.of r.ty).bind fun ty => (four r).map fun (d, a, _, _) => .unpkz ty (bit1 r.nw) d a
     else none)
  | 0x39 =>
    (r.sub / 8 != 0,
     if r.xw = 1 then
       (FType.of r.ty).bind fun ty => (RoundCtl.of (r.sub % 8)).bind fun rc => (four r).map fun (d, a, b, c) =>
         .unpkr ty (bit1 r.nw) rc d a b c
     else none)
  | 0x49 =>
    (r.nw != 0 || rx r r.xb || rx r r.xc,
     if r.xw = 1 ∧ r.ty = 0 ∧ r.xd < 192 ∧ r.xa < 192 then
       (TransWidth.of r.sub).map fun w => .mtrans w (bit1 r.nw) r.xd r.xa
     else none)
  | _ => (false, none)

/-- A scratchpad access (R172). -/
def ofSpadAcc (r : RawB) (k : SpadAcc → Instr) : Bool × Option Instr :=
  (r.nw != 0 || rx r r.xc || (r.sub % 8 == 0 && r.sub / 8 != 0),
   (Width.of r.ty).bind fun w => (Order.of (r.sub % 8)).bind fun o => (Scope.of (r.sub / 8)).bind fun s =>
     (dstOf r).bind fun d => (srcAOf r).bind fun a => (srcOf r).map fun off =>
       k { w := w, ord := o, scope := s, d := d, addr := a, off := off })

/-- Scratchpad instructions of format B (R172, R185, R186, R190) and RECSET (R230). -/
def ofMemB (r : RawB) : Bool × Option Instr :=
  match r.op with
  | 0x50 => ofSpadAcc r .lds
  | 0x51 => ofSpadAcc r .sts
  | 0x52 => ofSpadAcc r .ldsc
  | 0x53 => ofSpadAcc r .stsc
  | 0x54 =>
    (r.nw != 0 || rx r r.xc || r.sub / 16 != 0,
     (Width.of r.ty).bind fun w => (dstOf r).bind fun d => (srcAOf r).bind fun a => (srcOf r).map fun off =>
       .ldlk w (.of (r.sub % 2)) (r.sub / 2 % 8) d a off)
  | 0x55 =>
    (r.nw != 0 || rx r r.xc || r.sub / 2 != 0,
     (Width.of r.ty).bind fun w => (dstOf r).bind fun d => (srcAOf r).bind fun a => (srcOf r).map fun off =>
       .stul w (.of (r.sub % 2)) d a off)
  | 0x56 =>
    (r.sub / 32 != 0 || (r.xw == 1 && r.sub % 16 != 10 && r.xc != 0) || (r.xw == 1 && r.nw == 1 && r.xd != 0),
     if r.xw = 1 then
       (AtomOp.of (r.sub % 16)).bind fun op => (Width.of r.ty).bind fun w => (four r).map fun (d, a, b, c) =>
         .atoms op w (.of (r.sub / 16 % 2)) (if r.nw = 1 then none else some d) a b (if op = .cas then some c else none)
     else none)
  | 0x5B =>
    (r.nw != 0 || r.sub / 8 != 0 || rx r r.xd || rx r r.xc,
     if r.xw = 1 ∧ r.ty = 0 then (four r).map fun (_, a, b, _) => .qinit (r.sub % 8) a b else none)
  | 0x6E =>
    (r.nw != 0 || rx r r.xd || rx r r.xc || (r.xw == 1 && r.sub != 0 && r.xb != 0),
     if r.xw = 1 ∧ r.ty = 0 then
       (Sel.of8 r.xa).bind fun a =>
         match r.sub with
         | 0 => if r.xb < 192 then some (.recset a r.xb) else none
         | 1 => some (.recsetReload a)
         | 2 => some (.recsetShape a)
         | _ => none
     else none)
  | _ => (false, none)

/-- The barrier instructions (R287). -/
def ofBarrier (r : RawB) : Bool × Option Instr :=
  let k := r.sub % 16
  let u := r.sub / 16
  match r.ty with
  | 0 =>
    (r.nw != 0 || rx r r.xd || rx r r.xc,
     if r.xw = 1 then (four r).map fun (_, a, b, _) => .binit k (bit1 (u % 2)) (bit1 (u / 2)) a b else none)
  | 1 =>
    (r.nw != 0 || u != 0 || r.d != 0 || r.a != 0 || rx r r.xd || rx r r.xb || rx r r.xc,
     if r.xw = 0 then some (.bexpect k (BitVec.ofNat 32 r.imm))
     else (Sel.of8 r.xa).map fun a => .bexpectReg k a)
  | 2 =>
    (r.nw != 0 || u / 2 != 0 || rx r r.xd || rx r r.xc || (r.xw == 1 && u % 2 == 0 && r.xa != 0),
     if r.xw = 1 then
       (four r).map fun (_, a, b, _) => .barrive k (if u % 2 = 0 then none else some a) b
     else none)
  | 3 =>
    (r.nw != 0 || u / 2 != 0 || rx r r.xd || rx r r.xb || rx r r.xc || (r.xw == 1 && u % 2 == 0 && r.xa != 0),
     if r.xw = 1 then (Sel.of8 r.xa).map fun a => .bwait k (if u % 2 = 0 then none else some a) else none)
  | 4 =>
    (r.nw != 0 || rx r r.xa || rx r r.xb || rx r r.xc,
     if r.xw = 1 then (Sel.of8 r.xd).map fun d => .btest k u d else none)
  | _ => (r.nw != 0, none)

/-- The posting instructions (R287). -/
def ofPost (r : RawB) : Bool × Option Instr :=
  match r.op with
  | 0x71 =>
    (r.nw != 0 || r.sub != 0 || rx r r.xc,
     if r.xw = 1 ∧ r.ty = 0 then (four r).map fun (d, a, b, _) => .epost d a b else none)
  | 0x72 =>
    (r.nw != 0 || r.sub / 2 != 0 || rx r r.xc || (r.xw == 1 && r.sub % 2 == 0 && r.xb != 0),
     if r.xw = 1 ∧ r.ty = 0 then
       (four r).map fun (d, a, b, _) => .eseq d a (if r.sub % 2 = 0 then none else some b)
     else none)
  | _ =>
    (r.nw != 0 || r.sub / 4 != 0 || rx r r.xc,
     if r.xw = 1 ∧ r.ty = 0 ∧ r.xb < 192 then
       (four r).map fun (d, a, _, _) => .copy (bit1 (r.sub % 2)) (bit1 (r.sub / 2 % 2)) d a r.xb
     else none)

/-- The sweep instructions (R316). -/
def ofSweep (r : RawB) : Bool × Option Instr :=
  match r.ty with
  | 0 =>
    (r.nw != 0 || rx r r.xc || r.sub != 0,
     if r.xw = 1 ∧ r.xb < 192 then (four r).map fun (d, a, _, _) => .swreg d a r.xb else none)
  | 1 =>
    (r.nw != 0 || rx r r.xc || r.sub != 0 || rx r r.xd,
     if r.xw = 1 then (four r).map fun (_, a, b, _) => .swdereg a b else none)
  | 2 =>
    (r.nw != 0 || rx r r.xc || rx r r.xd || (r.xw == 1 && r.sub % 2 == 1 && r.xb != 0),
     if r.xw = 1 ∧ r.sub < 2 then
       (four r).map fun (_, a, b, _) => .swwait a (if r.sub = 0 then some b else none)
     else none)
  | 3 =>
    (r.nw != 0 || rx r r.xc || r.sub != 0 || rx r r.xb,
     if r.xw = 1 then (four r).map fun (d, a, _, _) => .swpos d a else none)
  | 4 =>
    (r.nw != 0 || rx r r.xc || r.sub != 0 || rx r r.xd,
     if r.xw = 1 then (four r).map fun (_, a, b, _) => .swforce a b else none)
  | _ => (r.nw != 0 || rx r r.xc, none)

/-- The service instructions (R95, R397, R400). -/
def ofService (r : RawB) : Bool × Option Instr :=
  match r.ty with
  | 0 =>
    (r.nw != 0, if r.xw = 1 then (four r).map fun (a, b, c, d) => .mcall r.sub a b c d else none)
  | 1 =>
    let src := r.sub % 4
    (r.nw != 0 || r.sub / 4 != 0 || (r.xw == 0 && (r.d != 0 || r.a != 0 || r.imm / 64 != 0)) || rx r r.xd ||
       rx r r.xc || (r.xw == 1 && src % 2 == 0 && r.xb != 0),
     if r.xw = 0 then
       match src with
       | 0 => some (.icfetch (.imm (r.imm % 64)))
       | 2 => some (.icfetchDrop (.imm (r.imm % 64)))
       | _ => none
     else
       (four r).map fun (_, a, b, _) =>
         match src with
         | 0 => .icfetch (.reg a)
         | 1 => .icfetchSpad a b
         | 2 => .icfetchDrop (.reg a)
         | _ => .icfetchGate a b)
  | 2 =>
    (r.nw != 0 || r.sub != 0 || rx r r.xb || rx r r.xc,
     if r.xw = 1 ∧ r.xa < 192 then (Sel.of8 r.xd).map fun d => .nodepost d r.xa else none)
  | _ => (false, none)

/-- The domain instructions (R340, R341, R349). -/
def ofDomain (r : RawB) : Bool × Option Instr :=
  match r.ty with
  | 0 =>
    (r.nw != 0 || r.sub != 0 || r.d != 0 || r.a != 0 || (r.xw == 0 && r.imm / 4096 != 0) || rx r r.xd || rx r r.xb ||
       rx r r.xc,
     if r.xw = 0 then some (.gcall (r.imm % 4096)) else (Sel.of8 r.xa).map fun a => .gcallReg a)
  | 1 =>
    (r.nw != 0 || r.sub != 0 || r.d != 0 || r.a != 0 || (r.xw == 0 && r.imm != 0),
     if r.xw = 0 then some .gret else none)
  | 2 =>
    let fn := r.sub % 4
    let other := r.sub / 4 % 2
    (r.nw != 0 || r.sub / 8 != 0 || rx r r.xd || rx r r.xc || (r.xw == 1 && fn % 2 == 1 && r.xa != 0) ||
       (r.xw == 1 && fn != 1 && other == 0 && r.xb != 0),
     if r.xw = 1 then
       (Sel.of8 r.xb).bind fun b =>
         let dom := if other = 1 then some b else none
         match fn with
         | 0 => if r.xa < 192 then some (.xlinvPage r.xa dom) else none
         | 1 => if other = 0 then some (.xlinvDomain b) else none
         | 2 => if r.xa < 192 then some (.xlinvResidency r.xa dom) else none
         | _ => if other = 0 then some .xlinvAll else none
     else none)
  | 3 =>
    (r.nw != 0 || r.sub / 2 != 0 || rx r r.xc || (r.xw == 1 && r.sub % 2 == 0 && r.xb != 0),
     if r.xw = 1 ∧ r.xd < 192 ∧ r.xa < 192 then
       (Sel.of8 r.xb).map fun b => .xlprobe r.xd r.xa (if r.sub % 2 = 1 then some b else none)
     else none)
  | _ => (false, none)

/-- The inference instructions (R411). -/
def ofInference (r : RawB) : Bool × Option Instr :=
  match r.ty with
  | 0 =>
    (r.nw != 0 || r.sub / 2 != 0 || rx r r.xc || (r.xw == 1 && r.sub % 2 == 1 && (r.xa != 0 || r.xb != 0)),
     if r.xw = 1 then
       (four r).map fun (d, a, b, _) => if r.sub % 2 = 1 then .astartStop d else .astart d a b
     else none)
  | 1 =>
    let kind := r.sub / 4 % 4
    (r.nw != 0 || r.sub / 16 != 0 || rx r r.xd || rx r r.xc || (r.xw == 1 && kind == 0 && r.xb != 0),
     if r.xw = 1 then
       (four r).bind fun (_, a, b, _) =>
         match kind with
         | 0 => some (.apush (r.sub % 4) a)
         | 1 => some (.apushVec (r.sub % 4) a b)
         | 2 => some (.apushBcld (r.sub % 4) a b)
         | _ => none
     else none)
  | 2 =>
    (r.nw != 0 || r.sub / 8 != 0 || rx r r.xd,
     if r.xw = 1 then (four r).map fun (_, a, b, c) => .vgmv (r.sub % 8) a b c else none)
  | 3 =>
    (r.nw != 0 || r.sub / 8 != 0 || rx r r.xa || rx r r.xb || rx r r.xc,
     if r.xw = 1 then (Sel.of8 r.xd).map fun d => .vgrd (r.sub % 8) d else none)
  | 4 =>
    (r.nw != 0 || r.sub / 16 != 0 || (r.sub / 8 % 2 == 1 && r.sub % 8 != 0) || rx r r.xd || rx r r.xa || rx r r.xb ||
       rx r r.xc,
     if r.xw = 1 then some (.vgwait (if r.sub / 8 % 2 = 1 then none else some (r.sub % 8))) else none)
  | _ => (r.nw != 0, none)

/-- Opcodes of format B with a form that takes its operands from D and A (XW = 0): R79, R82, R88-R90, R126, R130, R172, R185.
The other entries leave D and A unused, whatever XW holds (R69, R82, R230, R287, R316, R340, R400, R411). -/
def opsDA : List Nat :=
  [0x01, 0x02, 0x03, 0x16, 0x17, 0x18, 0x19, 0x1A, 0x27, 0x2E, 0x2F, 0x30, 0x50, 0x51, 0x52, 0x53, 0x54, 0x55]

/-- The reserved-bit test that every format-B instruction shares (R54, R69): D and A are zero when XW = 1, and where the entry
has no form that uses them. -/
def rsvB (r : RawB) : Bool := (r.xw == 1 || !opsDA.contains r.op) && (r.d != 0 || r.a != 0)

/-- The instructions of format B by opcode. -/
def ofBBody (r : RawB) : Bool × Option Instr :=
  if r.op < 0x20 then ofIntB r
  else if r.op < 0x50 then ofFltB r
  else if r.op < 0x70 then ofMemB r
  else if r.op = 0x70 then ofBarrier r
  else if r.op < 0x74 then ofPost r
  else if r.op = 0x74 then ofSweep r
  else if r.op = 0x7A then ofService r
  else if r.op = 0x7C then ofDomain r
  else if r.op = 0x7D then ofInference r
  else (false, none)

/-- Format B: the reserved-bit test and the instruction. -/
def ofB (r : RawB) : Bool × Option Instr :=
  (rsvB r || (ofBBody r).1, (ofBBody r).2)

/-- The reserved-bit test that every format-M1 instruction shares (R55, R65). -/
def rsvM1 (r : RawM1) : Bool :=
  r.rsv != 0 || (r.st == 0 && r.stsel != 0) || (r.ord == 0 && r.scope != 0)

/-- ATOM and RED (R223). -/
def ofRecAtom (r : RawM1) (k : RecAtom → Instr) : Option Instr :=
  (AtomOp.of (r.sub % 16)).bind fun op => (Width.of r.ty).bind fun w => (Order.of r.ord).bind fun o =>
    (Scope.of r.scope).bind fun s => (RecRef.of r.ri r.recd).bind fun rr => (stOf r.st r.stsel).map fun sr =>
      k { op := op, w := w, ord := o, scope := s, nw := bit1 r.nw, sw := bit1 r.sw, rcd := rr, off := .of7 r.off,
          data := .of7 r.data, st := sr }

/-- The instructions of format M1 by opcode. -/
def ofM1Body (r : RawM1) : Bool × Option Instr :=
  match r.op with
  | 0x60 =>
    (r.sub / 2 != 0 || (r.sub % 2 == 1 && (r.recd != 0 || r.ri != 0)),
     (Width.of r.ty).bind fun w => (Order.of r.ord).bind fun o => (Scope.of r.scope).bind fun s =>
       (RecRef.of r.ri r.recd).bind fun rr => (stOf r.st r.stsel).map fun sr =>
         .ld w o s (bit1 r.nw) (bit1 r.sw) (if r.sub % 2 = 1 then .ptr (.of7 r.off) else .off rr (.of7 r.off))
           (.of7 r.data) sr)
  | 0x61 =>
    (r.nw != 0 || r.sub / 2 != 0 || (r.sub % 2 == 1 && (r.recd != 0 || r.ri != 0)),
     if r.sw = 0 then
       (Width.of r.ty).bind fun w => (Order.of r.ord).bind fun o => (Scope.of r.scope).bind fun s =>
         (RecRef.of r.ri r.recd).bind fun rr => (stOf r.st r.stsel).map fun sr =>
           .st w o s (if r.sub % 2 = 1 then .ptr (.of7 r.off) else .off rr (.of7 r.off)) (.of7 r.data) sr
     else none)
  | 0x64 => (r.sub / 16 != 0, ofRecAtom r .atom)
  | 0x65 => (r.nw != 0 || r.sub / 16 != 0, ofRecAtom r .red)
  | 0x66 =>
    (r.nw != 0 || r.data != 0 || r.st != 0 || r.ord != 0 || r.scope != 0,
     if r.ty = 0 then
       (RecRef.of r.ri r.recd).bind fun rr =>
         match r.sub with
         | 0 => some (.prefL1 (bit1 r.sw) rr (.of7 r.off))
         | 1 => some (.prefL2 (bit1 r.sw) rr (.of7 r.off))
         | 2 => some (.prefPagein (bit1 r.sw) rr (.of7 r.off))
         | _ => none
     else none)
  | 0x67 =>
    (false,
     if r.sub = 0 ∧ r.ord < 2 then
       (Width.of r.ty).bind fun w => (Scope.of r.scope).bind fun s => (RecRef.of r.ri r.recd).bind fun rr =>
         (stOf r.st r.stsel).map fun sr =>
           .monitor w (bit1 r.ord) s (bit1 r.nw) (bit1 r.sw) rr (.of7 r.off) (.of7 r.data) sr
     else none)
  | 0x6B =>
    (r.nw != 0 || r.ord != 0 || r.scope != 0,
     if r.ty = 0 ∧ r.data = 0 ∧ r.st = 1 ∧ r.sub = 0 then
       (RecRef.of r.ri r.recd).bind fun rr => (Sel.of8 r.stsel).map fun sr => .pin (bit1 r.sw) rr (.of7 r.off) sr
     else none)
  | 0x6C =>
    (r.nw != 0 || r.ord != 0 || r.scope != 0,
     if r.ty = 0 ∧ r.data = 0 ∧ r.st = 0 ∧ r.sub = 0 then
       (RecRef.of r.ri r.recd).map fun rr => .unpin (bit1 r.sw) rr (.of7 r.off)
     else none)
  | 0x6D =>
    (r.nw != 0 || r.ord != 0 || r.scope != 0,
     if r.ty = 0 then
       (RecRef.of r.ri r.recd).bind fun rr => (stOf r.st r.stsel).bind fun sr =>
         match r.sub with
         | 0 => some (.resq (bit1 r.nw) (bit1 r.sw) rr (.of7 r.off) (.of7 r.data) sr)
         | 1 => some (.resqFetch (bit1 r.nw) (bit1 r.sw) rr (.of7 r.off) (.of7 r.data) sr)
         | _ => none
     else none)
  | _ => (false, none)

/-- Format M1: the reserved-bit test and the instruction. -/
def ofM1 (r : RawM1) : Bool × Option Instr := (rsvM1 r || (ofM1Body r).1, (ofM1Body r).2)

/-- The coordinate fields in order (R56). -/
def RawM2.coords (r : RawM2) : List Nat := [r.c0, r.c1, r.c2, r.c3, r.c4, r.c5, r.c6]

/-- Format M2: the reserved-bit test and the instruction (R56, R222). -/
def ofM2 (r : RawM2) : Bool × Option Instr :=
  (r.rsv != 0 || (r.st == 0 && r.stsel != 0) || (r.coords.drop r.n).any (· != 0),
   if r.n = 0 then none
   else
     (Width.of r.ty).map fun w =>
       let o : TensorAcc :=
         { w := w, nw := bit1 r.nw, swept := bit1 r.sw, data := .of7 r.data,
           coords := (r.coords.take r.n).map Sel.of7, rcd := r.recd, shape := r.shape,
           st := if r.st = 0 then none else some (.of7 r.stsel) }
       if r.op = 0x62 then .ldt o else .stt o)

/-- Format X: the reserved-bit test and the instruction (R57, R155). -/
def ofX (r : RawX) : Bool × Option Instr :=
  match r.op with
  | 0x40 =>
    (r.rsv != 0 || r.x1 != 0 || r.x2 != 0 || r.recd != 0,
     (MOperand.of r.as_ r.a).bind fun a => (MOperand.of r.bs r.b).map fun b => .mma r.acc a b (.of7 r.fmt))
  | 0x41 =>
    (r.rsv != 0 || r.x1 != 0 || r.x2 != 0 || r.recd != 0,
     (MOperand.of r.as_ r.a).bind fun a => (MOperand.of r.bs r.b).map fun b => .mmas r.acc a b (.of7 r.fmt))
  | 0x42 =>
    (r.rsv != 0 || r.x2 != 0 || r.b != 0,
     if r.bs = 0 then
       (MOperand.of r.as_ r.a).bind fun a => (Sel.of8 r.x1).map fun x => .mmam r.acc a (.of7 r.fmt) x r.recd
     else none)
  | 0x43 =>
    (r.rsv != 0 || r.recd != 0,
     (MOperand.of r.as_ r.a).bind fun a => (MOperand.of r.bs r.b).bind fun b => (Sel.of8 r.x1).bind fun x =>
       (Sel.of8 r.x2).map fun y => .mmax r.acc a b (.of7 r.fmt) x y)
  | 0x44 =>
    (r.rsv != 0 || r.x1 != 0 || r.x2 != 0 || r.recd != 0,
     (MOperand.of r.as_ r.a).bind fun a => (MOperand.of r.bs r.b).map fun b => .mmaz r.acc a b (.of7 r.fmt))
  | _ => (false, none)

/-- Format C: the reserved-bit test and the instruction (R58, R93). -/
def ofC (r : RawC) : Bool × Option Instr :=
  match r.fn with
  | 0 => (false, some (.bra r.p (bit1 r.pn) (BitVec.ofNat 18 r.off)))
  | 1 => (false, some (.call r.p (bit1 r.pn) (BitVec.ofNat 18 r.off)))
  | 2 => (r.off / 65536 != 0, some (.jmpf r.p (bit1 r.pn) (r.off / 1024 % 64) (r.off % 1024)))
  | _ => (false, none)

/-- The reserved-bit test and the instruction of raw fields. -/
def ofRaw : Raw → Bool × Option Instr
  | .a r => ofA r
  | .b r => ofB r
  | .m1 r => ofM1 r
  | .m2 r => ofM2 r
  | .x r => ofX r
  | .c r => ofC r

/-- The raw fields of the instruction that starts a list of words, with its length: CLAUSE_FRAMING for a header
signature or missing words, ILLEGAL_OPCODE for an unassigned opcode (R50, R68). -/
def readRaw (ws : List Nat) : Except DecodeCause (Raw × Nat) :=
  match ws with
  | [] => .error .framing
  | w :: t =>
    if 0x7E ≤ fld w 31 25 then .error .framing
    else
      match opFmt (fld w 31 25) with
      | none => .error .opcode
      | some .a => .ok (.a (unpackA w), 1)
      | some .c => .ok (.c (unpackC w), 1)
      | some .b => (match t with | w1 :: _ => .ok (.b (unpackB w w1), 2) | _ => .error .framing)
      | some .m1 => (match t with | w1 :: _ => .ok (.m1 (unpackM1 w w1), 2) | _ => .error .framing)
      | some .x => (match t with | w1 :: _ => .ok (.x (unpackX w w1), 2) | _ => .error .framing)
      | some .m2 => (match t with | w1 :: w2 :: _ => .ok (.m2 (unpackM2 w w1 w2), 3) | _ => .error .framing)

/-- The instruction of raw fields under R69: RESERVED_BIT before ILLEGAL_FIELD. -/
def decodeRaw (r : Raw) : Except DecodeCause Instr :=
  if (ofRaw r).1 then .error .reserved
  else
    match (ofRaw r).2 with
    | none => .error .field
    | some i => if i.wf then .ok i else .error .field

/-- Decode the instruction that starts a list of words: the instruction and its length in words, or the cause. -/
def decodeWords (ws : List Nat) : Except DecodeCause (Instr × Nat) :=
  match readRaw ws with
  | .error e => .error e
  | .ok (r, n) =>
    match decodeRaw r with
    | .error e => .error e
    | .ok i => .ok (i, n)

/-- Four bytes, little-endian, as a word (R1). -/
def wordOfBytes (b0 b1 b2 b3 : Byte) : Nat :=
  b0.toNat + 2 ^ 8 * b1.toNat + 2 ^ 16 * b2.toNat + 2 ^ 24 * b3.toNat

/-- Bytes as little-endian words (R1); a rest of fewer than four bytes is left out. -/
def wordsOfBytes : List Byte → List Nat
  | b0 :: b1 :: b2 :: b3 :: t => wordOfBytes b0 b1 b2 b3 :: wordsOfBytes t
  | _ => []

/-- Decode the instruction that starts a list of bytes. -/
def decodeBytes (bs : List Byte) : Except DecodeCause (Instr × Nat) := decodeWords (wordsOfBytes bs)

/-- The four bytes of a word, lowest address first (R1). -/
def bytesOfWord (w : Nat) : List Byte :=
  [BitVec.ofNat 8 w, BitVec.ofNat 8 (w / 2 ^ 8), BitVec.ofNat 8 (w / 2 ^ 16), BitVec.ofNat 8 (w / 2 ^ 24)]

/-- The words of an instruction whose first word is w, as the opcode table numbers its bits, padded with zero words
to the longest instruction. -/
def tableWords (w : Nat) : List Nat := [w % 2 ^ 32, w / 2 ^ 32 % 2 ^ 32, w / 2 ^ 64 % 2 ^ 32]

/-- The instruction the decoder reads from the bits of a row of spec/opcode_table.json. -/
def decodeTableWord (nbits w : Nat) : Option Instr :=
  if nbits = 0 then none
  else
    match decodeBytes ((tableWords w).flatMap bytesOfWord) with
    | .ok (i, _) => some i
    | .error _ => none

/-! ## The encoder -/

/-- A format-A instruction's fields. -/
def rawA (op ty : Nat) (nw : Bool) (d a b : Nat) : Raw := .a { op := op, ty := ty, nw := b2n nw, d := d, a := a, b := b }

/-- A format-B instruction's fields with an immediate (XW = 0). -/
def rawI (op ty : Nat) (nw : Bool) (sub d a imm : Nat) : Raw :=
  .b { op := op, ty := ty, nw := b2n nw, xw := 0, sub := sub, d := d, a := a, imm := imm }

/-- A format-B instruction's fields with selectors (XW = 1). -/
def rawS (op ty : Nat) (nw : Bool) (sub xd xa xb xc : Nat) : Raw :=
  .b { op := op, ty := ty, nw := b2n nw, xw := 1, sub := sub, d := 0, a := 0,
       imm := xd * 2 ^ 24 + xa * 2 ^ 16 + xb * 2 ^ 8 + xc }

/-- A two-form instruction: IMM with D and A, or XB with XD and XA. -/
def rawSrc (op ty : Nat) (nw : Bool) (sub : Nat) (d a : Sel) (s : Src) : Raw :=
  match s with
  | .imm w => rawI op ty nw sub d.code7 a.code7 w.toNat
  | .reg r => rawS op ty nw sub d.code8 a.code8 r.code8 0

/-- The status selector's field (R55). -/
def stCode : Option Sel → Nat
  | none => 0
  | some r => r.code8

/-- A format-M1 instruction's fields. -/
def rawM1 (op ty : Nat) (nw sw : Bool) (rr : RecRef) (data off : Nat) (ord scope : Nat) (sr : Option Sel) (sub : Nat) :
    Raw :=
  .m1 { op := op, ty := ty, nw := b2n nw, ri := rr.bit, data := data, off := off, rsv := 0, recd := rr.code, ord := ord,
        scope := scope, sw := b2n sw, st := b2n sr.isSome, stsel := stCode sr, sub := sub }

/-- LD and ST (R221). -/
def rawLdSt (op : Nat) (w : Width) (o : Order) (s : Scope) (nw sw : Bool) (addr : MemAddr) (data : Sel)
    (sr : Option Sel) : Raw :=
  match addr with
  | .off rr off => rawM1 op w.code nw sw rr data.code7 off.code7 o.code s.code sr 0
  | .ptr off => rawM1 op w.code nw sw (.imm 0) data.code7 off.code7 o.code s.code sr 1

/-- A coordinate field (R56). -/
def coordAt (l : List Sel) (n : Nat) : Nat :=
  match l[n]? with
  | some r => r.code7
  | none => 0

/-- LDT and STT (R56). -/
def rawTensor (op : Nat) (o : TensorAcc) : Raw :=
  .m2 { op := op, ty := o.w.code, nw := b2n o.nw, data := o.data.code7, c0 := coordAt o.coords 0, c1 := coordAt o.coords 1,
        c2 := coordAt o.coords 2, c3 := coordAt o.coords 3, c4 := coordAt o.coords 4, c5 := coordAt o.coords 5,
        n := o.coords.length, st := b2n o.st.isSome, c6 := coordAt o.coords 6,
        stsel := (match o.st with | none => 0 | some r => r.code7), recd := o.rcd, shape := o.shape,
        sw := b2n o.swept, rsv := 0 }

/-- A format-X instruction's fields. -/
def rawX (op acc : Nat) (a b : MOperand) (fmt x1 x2 recd : Nat) : Raw :=
  .x { op := op, acc := acc, a := a.code, b := b.code, fmt := fmt, as_ := a.bit, bs := b.bit, x1 := x1, x2 := x2,
       recd := recd, rsv := 0 }

/-- A format-C instruction's fields. -/
def rawC (fn p : Nat) (pn : Bool) (off : Nat) : Raw := .c { op := 0x78, fn := fn, pn := b2n pn, p := p, off := off }

/-- The three-selector integer instructions. -/
def rawIntA (op : Nat) (o : IntA) : Raw := rawA op o.ty.code o.nw o.d.code7 o.a.code7 o.b.code7
/-- The one-source integer instructions. -/
def rawIntU (op b : Nat) (o : IntU) : Raw := rawA op o.ty.code o.nw o.d.code7 o.a.code7 b
/-- The logic instructions. -/
def rawLogic (ty : Nat) (o : LogicA) : Raw := rawA 0x11 ty o.nw o.d.code7 o.a.code7 o.b.code7
/-- The two-source float instructions. -/
def rawFltA (op : Nat) (o : FltA) : Raw := rawA op o.ty.code o.nw o.d.code7 o.a.code7 o.b.code7
/-- The one-source float instructions. -/
def rawFltU (op b : Nat) (o : FltU) : Raw := rawA op o.ty.code o.nw o.d.code7 o.a.code7 b

/-- An optional selector of word 1, absent as 0. -/
def optCode : Option Sel → Nat
  | none => 0
  | some r => r.code8

/-- The raw fields of an instruction; none for an event and for the Apprentice's own rows, whose words are those of
EXIT and LD (spec/17 R404). -/
def toRaw : Instr → Option Raw
  | .mov o => some (rawIntU 0x00 0 o)
  | .movi ty nw d (.imm w) => some (rawI 0x01 ty.code nw 0 d.code7 0 w.toNat)
  | .movi ty nw d (.reg r) => some (rawS 0x01 ty.code nw 0 d.code8 r.code8 0 0)
  | .movs nw d r => some (rawI 0x02 1 nw 0 d.code7 0 r.code)
  | .movsWide nw d => some (rawI 0x02 1 nw 1 d.code7 0 0x003)
  | .movsw r a => some (rawI 0x03 1 false 0 0 a.code7 r.code)
  | .iadd o => some (rawIntA 0x04 o)
  | .iaddc o => some (rawIntA 0x05 o)
  | .isub o => some (rawIntA 0x06 o)
  | .isubb o => some (rawIntA 0x07 o)
  | .imul o => some (rawIntA 0x08 o)
  | .imulh o => some (rawIntA 0x09 o)
  | .imad o => some (rawS 0x0A o.ty.code o.nw 0 o.d.code8 o.a.code8 o.b.code8 o.c.code8)
  | .imadw o => some (rawS 0x0B o.ty.code o.nw 0 o.d.code8 o.a.code8 o.b.code8 o.c.code8)
  | .idiv o => some (rawIntA 0x0C o)
  | .irem o => some (rawIntA 0x0D o)
  | .imin o => some (rawIntA 0x0E o)
  | .imax o => some (rawIntA 0x0F o)
  | .iabs o => some (rawIntU 0x10 0 o)
  | .ineg o => some (rawIntU 0x10 1 o)
  | .popc o => some (rawIntU 0x10 2 o)
  | .clz o => some (rawIntU 0x10 3 o)
  | .ctz o => some (rawIntU 0x10 4 o)
  | .brev o => some (rawIntU 0x10 5 o)
  | .and o => some (rawLogic 0 o)
  | .or o => some (rawLogic 1 o)
  | .xor o => some (rawLogic 2 o)
  | .andn o => some (rawLogic 3 o)
  | .shl o => some (rawIntA 0x12 o)
  | .shr o => some (rawIntA 0x13 o)
  | .sar o => some (rawIntA 0x14 o)
  | .rot o => some (rawIntA 0x15 o)
  | .bfx ty nw d a ctl => some (rawSrc 0x16 ty.code nw 0 d a ctl)
  | .bfi ty nw (.imm d a c) => some (rawI 0x17 ty.code nw 0 d.code7 a.code7 c.toNat)
  | .bfi ty nw (.reg d a b c) => some (rawS 0x17 ty.code nw 0 d.code8 a.code8 b.code8 c.code8)
  | .perm nw (.imm d a c) => some (rawI 0x18 1 nw 0 d.code7 a.code7 c.toNat)
  | .perm nw (.reg d a b c) => some (rawS 0x18 1 nw 0 d.code8 a.code8 b.code8 c.code8)
  | .icmp c ty pd a (.imm w) => some (rawI 0x19 ty.code false c.code pd a.code7 w.toNat)
  | .icmp c ty pd a (.reg r) => some (rawS 0x19 ty.code false c.code pd a.code8 r.code8 0)
  | .sel ty nw p d a b => some (rawSrc 0x1A ty.code nw p.code d a b)
  | .plop op d a b => some (rawA 0x1B op.code false d.code a.code b.code)
  | .vote m nw d a => some (rawA 0x1C m.code nw d.code7 a.code7 0)
  | .shfl m nw d a b => some (rawA 0x1D m.code nw d.code7 a.code7 b.code7)
  | .fadd o => some (rawFltA 0x20 o)
  | .fsub o => some (rawFltA 0x21 o)
  | .fmul o => some (rawFltA 0x22 o)
  | .ffma ty nw rc d a b c => some (rawS 0x23 ty.code nw rc.code d.code8 a.code8 b.code8 c.code8)
  | .fmin o => some (rawFltA 0x24 o)
  | .fmax o => some (rawFltA 0x25 o)
  | .fcopys o => some (rawFltA 0x26 o)
  | .fcmp c ty pd a (.imm w) => some (rawI 0x27 ty.code false c.code pd a.code7 w.toNat)
  | .fcmp c ty pd a (.reg r) => some (rawS 0x27 ty.code false c.code pd a.code8 r.code8 0)
  | .fclass o => some (rawFltU 0x28 0 o)
  | .fdiv o => some (rawFltA 0x29 o)
  | .fsqrt o => some (rawFltU 0x2A 0 o)
  | .frcp o => some (rawFltU 0x2B 0 o)
  | .frsq o => some (rawFltU 0x2B 1 o)
  | .fexp2 o => some (rawFltU 0x2B 2 o)
  | .flog2 o => some (rawFltU 0x2B 3 o)
  | .fsin o => some (rawFltU 0x2B 4 o)
  | .fcos o => some (rawFltU 0x2B 5 o)
  | .fscale o => some (rawFltA 0x2C o)
  | .frnd o m => some (rawFltU 0x2D m.code o)
  | .cvt ty nw rc d a t sat => some (rawI 0x2E ty.code nw rc.code d.code7 a.code7 (t.code + 8 * b2n sat))
  | .cvti ty nw rc d a t => some (rawI 0x2F ty.code nw rc.code d.code7 a.code7 t.code)
  | .cvtf ty nw rc d a t => some (rawI 0x30 ty.code nw rc.code d.code7 a.code7 t.code)
  | .split3 nw d a => some (rawA 0x31 0 nw d.code7 a.code7 0)
  | .qnt nw d a b c => some (rawS 0x32 0 nw 0 d.code8 a.code8 b.code8 c.code8)
  | .dqnt nw d a b c => some (rawS 0x33 0 nw 0 d.code8 a.code8 b.code8 c.code8)
  | .smxmerge nw n d a b => some (rawS 0x34 0 nw (n - 1) d.code8 a.code8 b.code8 0)
  | .freda o => some (rawFltU 0x35 0 o)
  | .fredm o => some (rawFltU 0x36 0 o)
  | .unpkd ty nw d a b c => some (rawS 0x37 ty.code nw 0 d.code8 a.code8 b.code8 c.code8)
  | .unpkz ty nw d a => some (rawS 0x38 ty.code nw 0 d.code8 a.code8 0 0)
  | .unpkr ty nw rc d a b c => some (rawS 0x39 ty.code nw rc.code d.code8 a.code8 b.code8 c.code8)
  | .mma acc a b f => some (rawX 0x40 acc a b f.code7 0 0 0)
  | .mmas acc a b f => some (rawX 0x41 acc a b f.code7 0 0 0)
  | .mmam acc a f x1 r => some (rawX 0x42 acc a (.reg 0) f.code7 x1.code8 0 r)
  | .mmax acc a b f x1 x2 => some (rawX 0x43 acc a b f.code7 x1.code8 x2.code8 0)
  | .mmaz acc a b f => some (rawX 0x44 acc a b f.code7 0 0 0)
  | .mmafin c => some (rawA 0x45 0 false 0 0 c)
  | .maccrd f c ch d => some (rawA 0x46 0 false d 0 (c + 16 * ch.code + 32 * f.code))
  | .maccwr f c ch (some a) => some (rawA 0x47 0 false 0 a (c + 16 * ch.code + 32 * f.code))
  | .maccwr f c ch none => some (rawA 0x47 0 false 0 120 (c + 16 * ch.code + 32 * f.code))
  | .mxwait (some c) => some (rawA 0x48 0 false 0 0 c)
  | .mxwait none => some (rawA 0x48 0 false 0 0 16)
  | .mtrans w nw d a => some (rawS 0x49 0 nw w.code d a 0 0)
  | .lds o => some (rawSrc 0x50 o.w.code false (o.ord.code + 8 * o.scope.code) o.d o.addr o.off)
  | .sts o => some (rawSrc 0x51 o.w.code false (o.ord.code + 8 * o.scope.code) o.d o.addr o.off)
  | .ldsc o => some (rawSrc 0x52 o.w.code false (o.ord.code + 8 * o.scope.code) o.d o.addr o.off)
  | .stsc o => some (rawSrc 0x53 o.w.code false (o.ord.code + 8 * o.scope.code) o.d o.addr o.off)
  | .ldlk w sp pt d a off => some (rawSrc 0x54 w.code false (sp.code + 2 * pt) d a off)
  | .stul w sp d a off => some (rawSrc 0x55 w.code false sp.code d a off)
  | .atoms op w sp d a b c =>
    some (rawS 0x56 w.code d.isNone (op.code + 16 * sp.code) (optCode d) a.code8 b.code8 (optCode c))
  | .waitc p a => some (rawA 0x57 p.code false 0 a.code7 0)
  | .qrd n d => some (rawA 0x58 n false d.code7 0 0)
  | .qpushClaim n d => some (rawA 0x59 n false d.code7 0 0)
  | .qpushCommit n a => some (rawA 0x59 n false 0 a.code7 1)
  | .qfree n a => some (rawA 0x5A n false 0 a.code7 0)
  | .qinit n a b => some (rawS 0x5B 0 false n 0 a.code8 b.code8 0)
  | .ld w o s nw sw addr data sr => some (rawLdSt 0x60 w o s nw sw addr data sr)
  | .st w o s addr data sr => some (rawLdSt 0x61 w o s false false addr data sr)
  | .ldt o => some (rawTensor 0x62 o)
  | .stt o => some (rawTensor 0x63 o)
  | .atom o => some (rawM1 0x64 o.w.code o.nw o.sw o.rcd o.data.code7 o.off.code7 o.ord.code o.scope.code o.st o.op.code)
  | .red o => some (rawM1 0x65 o.w.code o.nw o.sw o.rcd o.data.code7 o.off.code7 o.ord.code o.scope.code o.st o.op.code)
  | .prefL1 sw r o => some (rawM1 0x66 0 false sw r 0 o.code7 0 0 none 0)
  | .prefL2 sw r o => some (rawM1 0x66 0 false sw r 0 o.code7 0 0 none 1)
  | .prefPagein sw r o => some (rawM1 0x66 0 false sw r 0 o.code7 0 0 none 2)
  | .monitor w acq s nw sw r o d sr => some (rawM1 0x67 w.code nw sw r d.code7 o.code7 (b2n acq) s.code sr 0)
  | .monwait => some (rawA 0x68 0 false 0 0 0)
  | .fence o s => some (rawA 0x69 o.code false 0 0 s.code)
  | .publish a => some (rawA 0x6A 0 false 0 a.code7 0)
  | .pin sw r o sr => some (rawM1 0x6B 0 false sw r 0 o.code7 0 0 (some sr) 0)
  | .unpin sw r o => some (rawM1 0x6C 0 false sw r 0 o.code7 0 0 none 0)
  | .resq nw sw r o d sr => some (rawM1 0x6D 0 nw sw r d.code7 o.code7 0 0 sr 0)
  | .resqFetch nw sw r o d sr => some (rawM1 0x6D 0 nw sw r d.code7 o.code7 0 0 sr 1)
  | .recset a g => some (rawS 0x6E 0 false 0 0 a.code8 g 0)
  | .recsetReload a => some (rawS 0x6E 0 false 1 0 a.code8 0 0)
  | .recsetShape a => some (rawS 0x6E 0 false 2 0 a.code8 0 0)
  | .binit k ab cr a b => some (rawS 0x70 0 false (k + 16 * b2n ab + 32 * b2n cr) 0 a.code8 b.code8 0)
  | .bexpect k w => some (rawI 0x70 1 false k 0 0 w.toNat)
  | .bexpectReg k a => some (rawS 0x70 1 false k 0 a.code8 0 0)
  | .barrive k sib b => some (rawS 0x70 2 false (k + 16 * b2n sib.isSome) 0 (optCode sib) b.code8 0)
  | .bwait k ph => some (rawS 0x70 3 false (k + 16 * b2n ph.isSome) 0 (optCode ph) 0 0)
  | .btest k w d => some (rawS 0x70 4 false (k + 16 * w) d.code8 0 0 0)
  | .epost d q i => some (rawS 0x71 0 false 0 d.code8 q.code8 i.code8 0)
  | .eseq d q t => some (rawS 0x72 0 false (b2n t.isSome) d.code8 q.code8 (optCode t) 0)
  | .copy tgt str d q g => some (rawS 0x73 0 false (b2n tgt + 2 * b2n str) d.code8 q.code8 g 0)
  | .swreg d r i => some (rawS 0x74 0 false 0 d.code8 r.code8 i 0)
  | .swdereg r e => some (rawS 0x74 1 false 0 0 r.code8 e.code8 0)
  | .swwait r e => some (rawS 0x74 2 false (b2n e.isNone) 0 r.code8 (optCode e) 0)
  | .swpos d r => some (rawS 0x74 3 false 0 d.code8 r.code8 0 0)
  | .swforce r e => some (rawS 0x74 4 false 0 0 r.code8 e.code8 0)
  | .bra p pn off => some (rawC 0 p pn off.toNat)
  | .call p pn off => some (rawC 1 p pn off.toNat)
  | .jmpf p pn sg w => some (rawC 2 p pn (sg * 1024 + w))
  | .bri a => some (rawA 0x79 0 false 0 a.code7 0)
  | .ret => some (rawA 0x79 1 false 0 0 0)
  | .nop => some (rawA 0x79 2 false 0 0 0)
  | .trap n => some (rawA 0x79 3 false 0 0 n)
  | .tret => some (rawA 0x79 4 false 0 0 0)
  | .tretAbort => some (rawA 0x79 4 false 0 0 1)
  | .excrd d a => some (rawA 0x79 5 false d.code7 a.code7 0)
  | .mcall m a b c d => some (rawS 0x7A 0 false m a.code8 b.code8 c.code8 d.code8)
  | .icfetch (.imm n) => some (rawI 0x7A 1 false 0 0 0 n)
  | .icfetch (.reg r) => some (rawS 0x7A 1 false 0 0 r.code8 0 0)
  | .icfetchSpad s a => some (rawS 0x7A 1 false 1 0 s.code8 a.code8 0)
  | .icfetchDrop (.imm n) => some (rawI 0x7A 1 false 2 0 0 n)
  | .icfetchDrop (.reg r) => some (rawS 0x7A 1 false 2 0 r.code8 0 0)
  | .icfetchGate s x => some (rawS 0x7A 1 false 3 0 s.code8 x.code8 0)
  | .nodepost d a => some (rawS 0x7A 2 false 0 d.code8 a 0 0)
  | .join nw d a b => some (rawA 0x7B 0 nw d.code7 a.code7 b.code7)
  | .leave => some (rawA 0x7B 1 false 0 0 0)
  | .regang => some (rawA 0x7B 2 false 0 0 0)
  | .yield => some (rawA 0x7B 3 false 0 0 0)
  | .exit => some (rawA 0x7B 4 false 0 0 0)
  | .gcall i => some (rawI 0x7C 0 false 0 0 0 i)
  | .gcallReg a => some (rawS 0x7C 0 false 0 0 a.code8 0 0)
  | .gret => some (rawI 0x7C 1 false 0 0 0 0)
  | .xlinvPage a d => some (rawS 0x7C 2 false (0 + 4 * b2n d.isSome) 0 a (optCode d) 0)
  | .xlinvDomain d => some (rawS 0x7C 2 false 1 0 0 d.code8 0)
  | .xlinvResidency a d => some (rawS 0x7C 2 false (2 + 4 * b2n d.isSome) 0 a (optCode d) 0)
  | .xlinvAll => some (rawS 0x7C 2 false 3 0 0 0 0)
  | .xlprobe d a o => some (rawS 0x7C 3 false (b2n o.isSome) d a (optCode o) 0)
  | .astart d a b => some (rawS 0x7D 0 false 0 d.code8 a.code8 b.code8 0)
  | .astartStop d => some (rawS 0x7D 0 false 1 d.code8 0 0 0)
  | .apush n a => some (rawS 0x7D 1 false n 0 a.code8 0 0)
  | .apushVec n a b => some (rawS 0x7D 1 false (n + 4) 0 a.code8 b.code8 0)
  | .apushBcld n a b => some (rawS 0x7D 1 false (n + 8) 0 a.code8 b.code8 0)
  | .vgmv n a b c => some (rawS 0x7D 2 false n 0 a.code8 b.code8 c.code8)
  | .vgrd n d => some (rawS 0x7D 3 false n d.code8 0 0 0)
  | .vgwait (some n) => some (rawS 0x7D 4 false n 0 0 0 0)
  | .vgwait none => some (rawS 0x7D 4 false 8 0 0 0 0)
  | _ => none

/-- The words of raw fields. -/
def packRaw : Raw → List Nat
  | .a r => [r.op * 2 ^ 25 + r.ty * 2 ^ 22 + r.nw * 2 ^ 21 + r.d * 2 ^ 14 + r.a * 2 ^ 7 + r.b]
  | .b r =>
    [r.op * 2 ^ 25 + r.ty * 2 ^ 22 + r.nw * 2 ^ 21 + r.xw * 2 ^ 20 + r.sub * 2 ^ 14 + r.d * 2 ^ 7 + r.a, r.imm]
  | .m1 r =>
    [r.op * 2 ^ 25 + r.ty * 2 ^ 22 + r.nw * 2 ^ 21 + r.ri * 2 ^ 20 + r.data * 2 ^ 13 + r.off * 2 ^ 6 + r.rsv,
     r.recd * 2 ^ 24 + r.ord * 2 ^ 21 + r.scope * 2 ^ 18 + r.sw * 2 ^ 17 + r.st * 2 ^ 16 + r.stsel * 2 ^ 8 + r.sub]
  | .m2 r =>
    [r.op * 2 ^ 25 + r.ty * 2 ^ 22 + r.nw * 2 ^ 21 + r.data * 2 ^ 14 + r.c0 * 2 ^ 7 + r.c1,
     r.c2 * 2 ^ 25 + r.c3 * 2 ^ 18 + r.c4 * 2 ^ 11 + r.c5 * 2 ^ 4 + r.n * 2 + r.st,
     r.c6 * 2 ^ 25 + r.stsel * 2 ^ 18 + r.recd * 2 ^ 10 + r.shape * 2 ^ 4 + r.sw * 2 ^ 3 + r.rsv]
  | .x r =>
    [r.op * 2 ^ 25 + r.acc * 2 ^ 21 + r.a * 2 ^ 14 + r.b * 2 ^ 7 + r.fmt,
     r.as_ * 2 ^ 31 + r.bs * 2 ^ 30 + r.x1 * 2 ^ 22 + r.x2 * 2 ^ 14 + r.recd * 2 ^ 6 + r.rsv]
  | .c r => [r.op * 2 ^ 25 + r.fn * 2 ^ 22 + r.pn * 2 ^ 21 + r.p * 2 ^ 18 + r.off]

/-- The words of a well-formed instruction, written from the same encodings. -/
def encode (i : Instr) : Option (List Nat) := (toRaw i).map packRaw

end Sys2Proof
end

