-- ==== Sys2Proof/Machine/Sparse.lean ====
section
/-! DEFINITION. Sparse maps: lists of (key, value) with strictly rising keys and no entry equal to the default
value, so that equal maps are equal lists. Memory, register files and tables of State are kept in this form. -/

namespace Sys2Proof.Machine

/-- A sparse map from Nat; a key that is not listed holds the default of `β`. -/
abbrev SMap (β : Type) := List (Nat × β)

/-- The value at a key. -/
def SMap.get {β : Type} [Inhabited β] : SMap β → Nat → β
  | [], _ => default
  | (a, b) :: t, k => if a = k then b else SMap.get t k

/-- Remove a key. -/
def SMap.drop {β : Type} : SMap β → Nat → SMap β
  | [], _ => []
  | (a, b) :: t, k => if a = k then SMap.drop t k else (a, b) :: SMap.drop t k

/-- Insert a key that is not there, in its place. -/
def SMap.insert {β : Type} : SMap β → Nat → β → SMap β
  | [], k, v => [(k, v)]
  | (a, b) :: t, k, v => if k < a then (k, v) :: (a, b) :: t else (a, b) :: SMap.insert t k v

/-- Write the value at a key; writing the default removes the entry. -/
def SMap.set {β : Type} [Inhabited β] [DecidableEq β] (m : SMap β) (k : Nat) (v : β) : SMap β :=
  if v = default then SMap.drop m k else SMap.insert (SMap.drop m k) k v

/-- Apply a function to the value at a key. -/
def SMap.upd {β : Type} [Inhabited β] [DecidableEq β] (m : SMap β) (k : Nat) (f : β → β) : SMap β :=
  SMap.set m k (f (SMap.get m k))

/-- The canonical form: keys strictly rising, no default listed. -/
def SMap.wf {β : Type} [Inhabited β] [DecidableEq β] : SMap β → Bool
  | [] => true
  | (a, b) :: t => decide (b ≠ default) && t.all (fun p => decide (a < p.1)) && SMap.wf t

/-- The listed keys. -/
def SMap.keys {β : Type} (m : SMap β) : List Nat := m.map (·.1)

/-- A sparse map with the listed values at 0, 1, 2, … -/
def SMap.ofList {β : Type} [Inhabited β] [DecidableEq β] (l : List β) : SMap β :=
  (l.zipIdx).foldl (fun m p => SMap.set m p.2 p.1) []

/-- Memory: bytes by address, in the same form as Host.Cell lists. An unlisted address reads as zero. -/
abbrev Memory := SMap Byte

/-- The canonical form of a memory. -/
abbrev Memory.wf (m : Memory) : Bool := SMap.wf m

end Sys2Proof.Machine
end

