-- ==== Sys2Proof/Machine/State.lean ====
section
/-! DEFINITION. The state of the machine as plain data: every piece of state that INVENTORY.md lists under
"## State", the two fields the model adds (`free`, `agenda`), the reasons a step can stop, and the state after
reset. Sparse files hold only what differs from their reset value. -/

namespace Sys2Proof.Machine

/-- A location (spec/10 R233): a physical byte, or byte `off` of the scratchpad window of a workgroup. -/
inductive Loc where
  | phys (a : Nat)
  | win (wg off : Nat)
  deriving DecidableEq, Repr, Inhabited

/-- A latch of a clause in issue: the word that produced it, the producer's mask, the values by position (R62). -/
structure Latch where
  word : Nat
  mask : BitVec 32
  vals : SMap Dword
  deriving DecidableEq, Repr, Inhabited

/-- What an instruction that has been accepted and is parked keeps until it issues again. -/
inductive Pend where
  | none
  /-- EPOST, COPY: the claimed sequence number, the header's physical address, the index of the record that named it, and the packet's
  words (spec/12 R295). -/
  | claim (n hdr idx : Nat) (ws : List Nat)
  /-- MXWAIT: for each quarter, the last operation to be waited for (spec/07 R161). -/
  | mx (ops : List (Nat × Nat))
  /-- SWWAIT: entry and the rows (bank × 65536 + row) still to be applied (spec/13 R319). -/
  | sweep (ents : List (Nat × List Nat))
  /-- MONITOR: the sweep entries it waits for (spec/13 R315). -/
  | swept (waits : List (Nat × Nat × Nat × Nat))
  /-- XLINV: the number of its shootdown (spec/14 R340). -/
  | xlinv (id : Nat)
  /-- VGWAIT: the flight items waited for (spec/17 R423). -/
  | sorter (items : List Nat)
  /-- An access that stalls for a race entry: island cycles stalled so far, and whether it may proceed
  unchecked (spec/10 R253). -/
  | stall (cycles : Nat) (pass : Bool)
  /-- A pop whose head entry is being reloaded: the flight item (spec/17 R408). -/
  | reload (item : Nat)
  deriving DecidableEq, Repr, Inhabited

/-- A macro in issue (spec/16 R399): its operations (instruction word, substitution word), the MCALL's selectors,
the next operation, its latches. -/
structure MacroRun where
  ops : List (Word × Word)
  sels : List Sel
  pos : Nat
  latches : List Latch
  deriving DecidableEq, Repr, Inhabited

/-- A clause in issue (spec/02 R25, R27; spec/03 R51): header address and word, the words after the header in their
decoded form, the index of the next instruction's first word, the masks, the latches. -/
structure ClauseRun where
  base : Nat
  hdr : Word
  words : List Word
  pos : Nat
  issue : BitVec 32
  exec : BitVec 32
  latches : List Latch
  mac : Option MacroRun
  pend : Pend
  deriving DecidableEq, Repr, Inhabited

/-- A lock held by a lane (spec/08 R181): the workgroup whose window holds the granule, the window offset of the
granule's first byte, the core and the lock bit, the granule's physical offset, the issues counted (R182), and
the LDLK's place, to which a trap returns (R183). -/
structure Lock where
  owner : Nat
  off : Nat
  core : Nat
  bit : Nat
  phys : Nat
  issues : Nat
  atRun : ClauseRun
  deriving DecidableEq, Repr, Inhabited

/-- A lane that waits in JOIN (spec/02 R36, R37): the forming crew, the crew it left, the former crew's uniform
registers as they stood, the D selector if written, the clause that stands at the JOIN, and what is left of a YIELD hold, counted as
in a gang (R41). -/
structure Joining where
  crew : Nat
  former : Option Nat
  regs : SMap Word
  d : Option Sel
  run : ClauseRun
  hold : Nat
  deriving DecidableEq, Repr, Inhabited

/-- What handler entry saves of a lane (spec/15 R362). -/
structure LaneSave where
  o : SMap Word
  p : BitVec 8
  cf : Bool
  fpmode : BitVec 2
  deriving DecidableEq, Repr, Inhabited

/-- One lane (spec/04 R71, spec/02 R20, R31). Bit 0 of `p` is kept clear; p0 reads as true (R77). -/
structure Lane where
  live : Bool
  v : SMap Word
  o : SMap Word
  p : BitVec 8
  cf : Bool
  fpmode : BitVec 2
  crew : Option Nat
  joining : Option Joining
  wpar : BitVec 16
  /-- Barrier to (phase in which the lane last arrived on it) + 1, for departures (spec/12 R286). -/
  arrived : SMap Nat
  opened : Bool
  repc : BitVec 18
  rcnt : Word
  interval : Word
  lock : Option Lock
  saved : Option LaneSave
  deriving DecidableEq, Repr, Inhabited

/-- Why a gang is parked (spec/02 R25); each reason names the data its wake-up condition needs. -/
inductive Park where
  /-- In-flight counters: a path, and the highest count admitted for each crew (spec/08 R177, R179). -/
  | counter (path : Path) (limits : List (Nat × Nat))
  /-- A full matrix queue of these quarters of the home set (spec/07 R146). -/
  | mqueue (quarters : List Nat)
  /-- MXWAIT: operations of quarters (spec/07 R161). -/
  | mxwait (ops : List (Nat × Nat))
  /-- A pop from an empty Apprentice queue (spec/17 R408). -/
  | pop (crew q : Nat)
  /-- QRD on an empty full list, or a claim on an empty free list (spec/08 R192). -/
  | stream (crew q : Nat) (claim : Bool)
  /-- BWAIT (spec/12 R293): the barrier, and each lane's phase in the explicit form. -/
  | barrier (k : Nat) (want : List (Nat × Option Nat))
  | monitor (crew : Nat)
  /-- EPOST, COPY: the slot's previous packet (spec/12 R295). ESEQ.WAIT: the threshold (R296). -/
  | queueAt (hdr : Nat) (seq : Nat)
  /-- A tile that is ARRIVING, or TIERMISS through a PAGEIN record (spec/09 R206). -/
  | residency
  /-- Members of the crew still to arrive at GCALL or GRET (spec/14 R349), or the drain before the transfer. -/
  | gather (crew : Nat)
  /-- Handler lanes of a trap still to arrive at TRET, or its drain (spec/15 R372). -/
  | tret (trap : Nat)
  | xlinv (id : Nat)
  | sweepWait (g : Nat)
  /-- The sweep entries that a MONITOR through a record with SWORD = 1 waits for (spec/13 R315). -/
  | swept (waits : List (Nat × Nat × Nat × Nat))
  /-- Entries of a Sorter queue (spec/17 R421), or posted entries (R423). -/
  | sorterSpace (q n : Nat)
  | sorterDone (items : List Nat)
  /-- A failed lock attempt (spec/08 R184). -/
  | lock
  /-- No free race entry (spec/10 R253). -/
  | race
  /-- A window access while postponed rows remain, or an exit (spec/13 R323). -/
  | bank (g : Nat)
  /-- A flight item of the crew (spec/17 R408). -/
  | item (crew id : Nat)
  /-- Nothing: the gang stands in the middle of a clause and waits for its quadrant to select it again, after a trap, a handler
  of its crew, or a restore (spec/02 R25). -/
  | resumed
  deriving DecidableEq, Repr, Inhabited

/-- A gang (spec/02 R24): paths of one home set with one PC. `pc` is the header address of the clause in issue or
of the next clause; `ages` holds the age of each of the eight slices' paths. -/
structure Gang where
  id : Nat
  hset : Nat
  pc : Nat
  mask : BitVec 32
  ages : List Nat
  clause : Option ClauseRun
  park : Option Park
  /-- While a YIELD holds the paths: the cycles left, the current one among them, and one (spec/02 R41). -/
  hold : Nat
  /-- The header whose BW, DRAIN and MXW waits the gang has still to meet is read at selection; `cross` and
  `regang` say that its lanes wait at a cross-lane clause (R42) or at a REGANG (R40). -/
  cross : Bool
  regang : Bool
  /-- The gang has issued, or has come into being, in the island's current cycle: its paths do not age in it (R26). -/
  moved : Bool
  deriving DecidableEq, Repr, Inhabited

/-- An open REGANG window (spec/02 R40): home set, address, cycles left. -/
structure Window where
  hset : Nat
  pc : Nat
  left : Nat
  deriving DecidableEq, Repr, Inhabited

/-- A run of consecutive bytes: its first location and its length. -/
structure Span where
  loc : Loc
  len : Nat
  deriving DecidableEq, Repr, Inhabited

/-- How the bytes of a converted load become elements (spec/09 R209, R210). -/
structure ConvSpec where
  senc : Nat
  rfmt : Nat
  scaled : Bool
  deriving DecidableEq, Repr, Inhabited

/-- A storage element of a converted load (spec/09 R210): the bytes that hold it, its first bit in them, its width, the
bytes of its FP32 scale, or of the dictionary for a code, and how it is converted. -/
structure ConvElem where
  how : ConvSpec
  spans : List Span
  bit : Nat
  width : Nat
  scale : List Span
  deriving DecidableEq, Repr, Inhabited

/-- A cached page-table entry: domain, level, the virtual address above the entry's span, the entry (spec/14 R339). -/
structure TlbEntry where
  domain : Nat
  level : Nat
  vpre : Nat
  pte : Dword
  deriving DecidableEq, Repr, Inhabited

/-- What an access has used of its core's caches: page-table entries, and residency-map entries by domain and virtual address
(spec/09 R218, spec/14 R340). -/
structure Used where
  tlb : List TlbEntry := []
  maps : List (Nat × Nat) := []
  deriving DecidableEq, Repr, Inhabited

/-- One lane's part of a load in flight: the bytes it reads, lowest first; none where it reads nothing and its
data is zero. `l1` says that the lines may be served by the carve-out; `conv` lists the elements of a converted load. A reload or an
Apprentice's load keeps the sweep entries it waits for (spec/13 R315), an Apprentice's load what it has used. -/
structure LoadLane where
  lane : Nat
  spans : List Span
  l1 : Bool
  conv : List ConvElem
  waits : List (Nat × Nat × Nat × Nat) := []
  used : Used := {}
  deriving DecidableEq, Repr, Inhabited

/-- One lane's part of a store in flight: runs of bytes, in address order. -/
structure StoreLane where
  lane : Nat
  runs : List (Loc × List Byte)
  deriving DecidableEq, Repr, Inhabited

/-- One lane's part of an atomic in flight. -/
structure AtomLane where
  lane : Nat
  loc : Loc
  b : Dword
  c : Dword
  deriving DecidableEq, Repr, Inhabited

/-- The read of one line of a matrix operand: home set and quarter (4 × hset + q), the operation, A or B, the line, the lane
that reads it, its bytes (spec/07 R149, R151). -/
structure MatRead where
  hq : Nat
  opid : Nat
  isB : Bool
  line : Nat
  lane : Nat
  spans : List Span
  l1 : Bool
  /-- The sweep entries that a read through a record with SWORD = 1 waits for (spec/13 R315). -/
  waits : List (Nat × Nat × Nat × Nat) := []
  deriving DecidableEq, Repr, Inhabited

/-- What an item in flight still has to do. -/
inductive FlightOp where
  /-- A load: width, destination, lanes, and the sweep entries a swept load waits for: pseudo-channel, entry,
  registration, row key (spec/13 R315). -/
  | load (w : Width) (d : Option Sel) (lanes : List LoadLane)
      (swept : List (Nat × Nat × Nat × Nat))
  /-- A store: bytes in lane order. -/
  | store (lanes : List StoreLane)
  /-- An atomic (spec/09 R223). -/
  | atomic (op : AtomOp) (w : Width) (d : Option Sel) (lanes : List AtomLane)
  /-- A BARRIVE on its way: target workgroup, register, arrivals, bytes, and the arriving lanes (spec/12 R292). -/
  | arrive (target k n bytes : Nat) (lanes : List Nat)
  /-- A code fetch into a slot (spec/16 R397): core and slot. -/
  | fetch (core slot : Nat)
  /-- The reads of a code fetch from scratchpad, which SP counts (R397): core, slot, the bytes. -/
  | fetchRead (core slot : Nat) (spans : List Span)
  /-- Operand reads of an instruction's queued matrix operations (spec/07 R151). -/
  | matread (reads : List MatRead)
  /-- A VGMV (spec/17 R421): entries still to complete. -/
  | sorter (left : Nat)
  /-- A reload of an Apprentice queue entry (queue, place) or of a stalled LD, by a gang (spec/17 R408). -/
  | reload (unit : Nat) (q : Option (Nat × Nat)) (gang : Nat) (lanes : List LoadLane)
  /-- An ordering point with no access: FENCE (spec/09 R227). -/
  | fence
  /-- A counted entry that waits for nothing but its place. -/
  | nop
  /-- An EPOST or COPY of a gang that has issued and waits for its slot (spec/12 R289). -/
  | post (gang : Nat)
  deriving DecidableEq, Repr, Inhabited

/-- What an instruction does through a record: bytes per lane; whether it is a store, atomic or reduction; whether it
must be aligned naturally whatever the type (spec/09 R204); whether SENC ≠ 0 is refused (R200); whether a bank-direct record is
accepted (spec/13 R303); whether it is a MONITOR (spec/09 R225); whether it accepts a paged record only (R229); whether it reads a
column of MMAM, whose bytes beyond the limit are zero (spec/07 R158). -/
structure AccSpec where
  z : Nat
  write : Bool := false
  strict : Bool := false
  noSenc : Bool := false
  bank : Bool := false
  mon : Bool := false
  paged : Bool := false
  column : Bool := false
  deriving DecidableEq, Repr, Inhabited

/-- A lane's request: record index and logical offset. -/
structure LaneReq where
  lane : Nat
  idx : Nat
  off : Nat
  clipped : Bool := false
  deriving DecidableEq, Repr, Inhabited

/-- What a load that a sweep entry holds is issued again from after a restore (spec/13 R315): how it goes through its lanes' records,
whether it writes statuses, whether it is a .swept load, the lanes' requests. -/
structure Reissue where
  spec : AccSpec
  stat : Bool
  swept : Bool
  reqs : List LaneReq
  deriving DecidableEq, Repr, Inhabited

/-- What a release has made of a store that it has passed: the scope at which the store counts as performed, the lanes that were
mates of the releasing lanes (for crew scope), and a number that rises from pass to pass (spec/11 R258, R261). -/
structure Past where
  scope : Scope
  mates : List Nat
  num : Nat
  deriving DecidableEq, Repr, Inhabited

/-- An instruction in flight (spec/08 R176): number in issue order over the workgroup, counted path if any, order
and scope, issuing lanes with their interval numbers, Device flag of its lines, whether its lines are checked, and
whether it is done but not yet counted complete. For a load: the registers (lane, register code) that a later write
keeps (`skip`), and once it is done the values its registers held before (`olds`) (R174). `stat` is the register that takes the lanes' statuses (spec/09 R206). -/
structure FlightItem where
  id : Nat
  path : Option Path
  ord : Order
  scope : Scope
  lanes : List (Nat × Word)
  dev : Bool
  checked : Bool
  op : FlightOp
  stat : Option (Sel × List (Nat × Nat))
  done : Bool
  /-- Registers (lane, code) that are pending until this crew counts the item complete (R174). -/
  dest : List (Nat × Nat)
  skip : List (Nat × Nat)
  olds : List (Nat × Nat × Word)
  /-- A store that a later release of this scope has passed: the agents of the scope see it as performed, its home has still to
  take it (spec/11 R258, R261). -/
  past : Option Past
  used : Used
  /-- Of a load that a sweep entry holds: what it is issued again from after a restore (spec/13 R315). -/
  again : Option Reissue
  deriving DecidableEq, Repr, Inhabited

/-- An edge between the accesses of several lanes (spec/10 R238): of each lane before it, the items with a lower number than the
bound; the items from `start` on of the lanes after it. -/
structure Edge where
  before : List (Nat × Nat)
  start : Nat
  after : List Nat
  deriving DecidableEq, Repr, Inhabited

/-- A ring that a QINIT binds (spec/08 R191), with a number that no other binding has. -/
structure Ring where
  base : Nat
  cluster : Bool
  nslot : Nat
  slotsz : Nat
  num : Nat
  deriving DecidableEq, Repr, Inhabited

/-- A stream register (spec/08 R188): unbound when the ring has no slot. The lists stand as the island's current cycle found them;
what the cycle does is kept beside them and is visible from the next one. -/
structure Stream where
  ring : Ring
  free : List Nat
  full : List Nat
  claimed : List Nat
  taken : List Nat
  /-- The slots freed, filled, claimed and taken in the current cycle, and the ring bound in it. -/
  newFree : List Nat
  newFull : List Nat
  newClaimed : List Nat
  newTaken : List Nat
  newRing : Option Ring
  deriving DecidableEq, Repr, Inhabited

/-- A crew's monitor (spec/09 R225): the line and whether it has fired. -/
structure Monitor where
  line : Nat
  fired : Bool
  deriving DecidableEq, Repr, Inhabited

/-- A crew's Apprentice binding (spec/17 R402, R410): the unit (none after a save), start address, initial w0, pops
taken from each queue. -/
structure ApprBinding where
  unit : Option Nat
  start : Nat
  w0 : Word
  pops : SMap Nat
  deriving DecidableEq, Repr, Inhabited

/-- A crew identifier's state (spec/02 R28-R30, spec/14 R347). -/
structure Crew where
  held : Bool
  /-- Dissolved in the island's current cycle: the identifier is free from the next one (R30). -/
  gone : Bool
  /-- Tag and expected count while forming (R36). -/
  forming : Option (Word × Nat)
  s : SMap Word
  /-- The uniform registers written in the island's current cycle, with their values before it (spec/04 R76). -/
  old : List (Nat × Word)
  flight : List FlightItem
  streams : SMap Stream
  monitor : Option Monitor
  domain : Nat
  depth : Nat
  handler : Bool
  gate : Nat
  caller : Nat
  sync : Word
  /-- The interval of a member has ended in the island's current cycle: `sync` rises at its end (spec/17 R407). -/
  syncDue : Bool
  appr : Option ApprBinding
  /-- A machine check to be delivered at the crew's next issue (spec/15 R358): cause, unit, address. -/
  mcheck : Option (Nat × Nat × Nat)
  /-- A forced GRET that waits for the crew's drain (spec/14 R353): cause, and whether POLICY forced it. -/
  forced : Option (Nat × Bool)
  deriving DecidableEq, Repr, Inhabited

/-- A barrier register (spec/12 R283). -/
structure Barrier where
  phase : BitVec 16
  exparr : BitVec 12
  pendarr : BitVec 12
  init : Bool
  early : Bool
  overflow : Bool
  bound : Bool
  bcrew : BitVec 6
  expbytes : Word
  pendbytes : Word
  /-- The contributions of the island's current cycle, merged at its end (R284): whether there are any, arrivals, how many of
  them departures are, bytes delivered, bytes expected. -/
  due : Bool
  cyArr : Nat
  cyDep : Nat
  cyBytes : Int
  cyExp : Nat
  deriving DecidableEq, Repr, Inhabited

/-- The rounding, saturation and formats of a format word (spec/05 R107). -/
structure MatFmt where
  afmt : Nat
  bfmt : Nat
  acc : AccFmt
  round : Rounding
  scale : Bool
  sat : Bool
  deriving DecidableEq, Repr, Inhabited

/-- TAG.MODE (spec/07 R145). -/
inductive SlotMode where
  | none | unscaled | scaled
  deriving DecidableEq, Repr, Inhabited

/-- An accumulator slot (spec/07 R145). Element (i, n) is key 8i + n. `accf`, `mode`, `bposIss` and `round` are
tracked at issue (R153), the rest at completion. BSUM is exact, in units of 2^-18, or a NaN. -/
structure Slot where
  e : SMap Dword
  o : SMap Dword
  accf : AccFmt
  mode : SlotMode
  k : Nat
  j : Nat
  bpos : Nat
  bposIss : Nat
  bsum : SMap Int
  bnan : List Nat
  sa : SMap Word
  sb : SMap Word
  owned : Bool
  round : Option Rounding
  /-- A MACCWR has met the slot OWNED: its contents and later results are unpredictable (R154). -/
  poison : Bool
  deriving DecidableEq, Repr, Inhabited

/-- The kinds of queued matrix operation (spec/07 R146). -/
inductive MatKind where
  | mma | mmas | mmam | mmax | mmaz | mmafin
  deriving DecidableEq, Repr, Inhabited

/-- A queued matrix operation: operand lines as bytes, and how many of each operand's lines are still to be read; the scales
of MMAX; whether its results are unpredictable (R154). -/
structure MatOp where
  id : Nat
  kind : MatKind
  slot : Nat
  fmt : MatFmt
  a : List (List Byte)
  b : List (List Byte)
  aLeft : Nat
  bLeft : Nat
  /-- COLMAJ of A and of B: how the lines read from scratchpad lie (R149). -/
  aCol : Bool
  bCol : Bool
  /-- Lane positions of the quarter mask: the columns of B of the others are zero (R156). -/
  live : List Nat
  sa : List Word
  sb : List Word
  started : Bool
  spoiled : Bool
  deriving DecidableEq, Repr, Inhabited

/-- A trap frame (spec/15 R364): sixteen header words and the fault records. -/
structure TrapFrame where
  hdr : SMap Word
  recs : List (BitVec 256)
  deriving DecidableEq, Repr, Inhabited

/-- The resume point of a lane (spec/15 R368): RKIND, address, and for an instruction the saved clause. -/
structure Resume where
  lane : Nat
  kind : Nat
  pc : Nat
  run : Option ClauseRun
  deriving DecidableEq, Repr, Inhabited

/-- The part of a trap that one crew takes (spec/15 R359): its faulters, the detail words, the records. -/
structure TrapCrew where
  crew : Option Nat
  faulters : BitVec 32
  detail : List Word
  recs : List (BitVec 256)
  deriving DecidableEq, Repr, Inhabited

/-- A trap in progress: home set, issue mask, FPC, cause, resume points, the crews still to run their handlers, the
crew that runs its handler now. -/
structure TrapIssue where
  id : Nat
  hset : Nat
  issue : BitVec 32
  fpc : Nat
  cause : Nat
  resume : List Resume
  todo : List TrapCrew
  cur : Option TrapCrew
  deriving DecidableEq, Repr, Inhabited

/-- A frame of the gate stack as one crew sees it (spec/14 R348, R350): the members' registers, the crew's s
registers, its five counters and its monitor as they stood at the call, the return address, the gate entry as read at the call, the slots saved. -/
structure GateFrame where
  lanes : SMap LaneSave
  vregs : SMap (SMap Word)
  s : SMap Word
  counts : List Nat
  monitor : Option Monitor
  ret : Nat
  gate : Nat
  entry : List Word
  caller : Nat
  slots : SMap Slot
  deriving DecidableEq, Repr, Inhabited

/-- A code segment that was mapped at a save: its logical number, its tag, its words, and whether they met an uncorrectable error as
they were read (spec/16 R395, R397). -/
structure SavedSeg where
  seg : Nat
  dom : Nat
  va : Nat
  words : SMap Word
  bad : Bool
  deriving DecidableEq, Repr, Inhabited

/-- The life of a workgroup (spec/15 R375-R377): not there, resident, stopping for pre-emption, saved. -/
inductive Life where
  | absent | resident | stopping | saved
  deriving DecidableEq, Repr, Inhabited

/-- A resident or saved workgroup. -/
structure Workgroup where
  life : Life
  node : Nat
  inst : Nat
  core : Nat
  /-- Physical home set (0-3 in its quadrant) of each home set of the workgroup. -/
  homes : List Nat
  nlanes : Nat
  vregs : Nat
  spad : Nat
  l1code : Nat
  cluster : Bool
  /-- WGTAG of the siblings by cluster position, none where one has completed (spec/08 R167). -/
  sibs : List (Option Nat)
  base : Nat
  gdepth : Nat
  domain : Nat
  nrec : Nat
  nshape : Nat
  codeVa : Nat
  nseg : Nat
  privBase : Nat
  privSize : Nat
  win : Memory
  rgwin : BitVec 10
  yhold : BitVec 6
  flags : BitVec 5
  satcnt : Word
  nanscore : Word
  unchk : BitVec 24
  spill : Bool
  lanes : SMap Lane
  crews : SMap Crew
  gangs : List Gang
  nextGang : Nat
  nextItem : Nat
  /-- Edges of JOIN, GCALL, GRET, trap entry and TRET with accesses in flight before them (spec/10 R238). -/
  edges : List Edge
  windows : List Window
  barriers : SMap Barrier
  /-- Logical segment to physical slot + 1; 0 is unmapped (spec/16 R395). -/
  segs : SMap Nat
  savedSegs : List SavedSeg
  /-- Macro m of the node to control-store entry + 1 (spec/16 R399). -/
  macros : SMap Nat
  /-- Accumulator slots: key 16 × (4 × hset + q) + slot. -/
  slots : SMap Slot
  /-- Operation queues: key 4 × hset + q. -/
  mqueues : SMap (List MatOp)
  nextOp : Nat
  /-- L1 carve-out lines by physical address of their first byte. -/
  l1 : SMap (List Byte)
  frames : SMap TrapFrame
  traps : List TrapIssue
  nextTrap : Nat
  gates : SMap GateFrame
  /-- While the workgroup is saved: where its save image lies in physical memory, from its first byte on (spec/15 R376, R377). -/
  image : List Span
  /-- The slot of the entry segment while the lanes wait to be started (spec/16 R389). -/
  starting : Option Nat
  /-- Terminated (spec/15 R363): cause, FPC, domain of the escalating crew, VA of the first fault record. -/
  term : Option (Nat × Nat × Nat × Nat)
  deriving DecidableEq, Repr, Inhabited

/-- State of an instruction-store slot (spec/16 R395). -/
inductive SlotState where
  | empty | fetching | landed
  deriving DecidableEq, Repr, Inhabited

/-- A slot of the instruction store. `tag` is (domain, virtual address); `fromSpad` marks a tag that matches no other
fetch; `source` holds the bytes that a fetch still has to read, `used` what it has used of the core's caches. -/
structure ISlot where
  st : SlotState
  tagDom : Nat
  tagVa : Nat
  fromSpad : Bool
  count : Nat
  words : SMap Word
  source : List Span
  used : Used
  /-- The bytes met an uncorrectable error as they were read (spec/16 R397). -/
  bad : Bool
  deriving DecidableEq, Repr, Inhabited

/-- A macro in the control store (spec/16 R398, R399): the node that loaded it, its number there, the workgroups that
use it, its operations. -/
structure MacroEntry where
  node : Nat
  index : Nat
  users : List Nat
  ops : List (Word × Word)
  deriving DecidableEq, Repr, Inhabited

/-- An Apprentice's STATE (spec/17 R403, R409). -/
inductive ApprState where
  | unbound | running | stalled | ended
  deriving DecidableEq, Repr, Inhabited

/-- The load behind a queue entry or a stalled LD: vector or not, record index, offset (spec/17 R405). -/
structure ApprLoad where
  vec : Bool
  recd : Nat
  off : Nat
  deriving DecidableEq, Repr, Inhabited

/-- A queue entry (spec/17 R405). `pending` until its load completes, which has `lanes` still to read; `fresh` names the gang
whose parked pop has had it reloaded, with the data of its lanes. -/
structure ApprEntry where
  vec : Bool
  data : SMap Word
  poison : Bool
  pending : Bool
  load : Option ApprLoad
  sync : Word
  fresh : Option Nat
  lanes : List LoadLane
  /-- Appended in the island's current cycle: it can be popped from the next one. -/
  new : Bool
  deriving DecidableEq, Repr, Inhabited

/-- An Apprentice (spec/17 R403). -/
structure Apprentice where
  wg : Nat
  crew : Nat
  st : ApprState
  w : SMap Word
  p : BitVec 8
  cf : Bool
  pc : Nat
  ecause : Nat
  clause : Option ClauseRun
  queues : SMap (List ApprEntry)
  /-- An LD in flight or stalled: destination w register, and what it has still to read. -/
  ld : Option (Nat × ApprLoad)
  ldLanes : List LoadLane
  /-- Entries still to be discarded after a restore, by queue (R410). -/
  discard : SMap Nat
  deriving DecidableEq, Repr, Inhabited

/-- A Sorter entry (spec/17 R421): the VGMV's flight item, poster, row offset, result location, pair, domain. -/
structure SorterEntry where
  item : Nat
  wg : Nat
  crew : Nat
  row : Nat
  result : Loc
  act : Loc
  recd : Nat
  wcol : Nat
  domain : Nat
  deriving DecidableEq, Repr, Inhabited

/-- A cached domain descriptor (spec/14 R333): sixteen doubles. -/
structure DescEntry where
  domain : Nat
  words : List Dword
  deriving DecidableEq, Repr, Inhabited

/-- The owner of a record or shape table in the record cache: a node, or a callee domain (spec/09 R197). -/
inductive RecKey where
  | node (n : Nat)
  | domain (d : Nat)
  deriving DecidableEq, Repr, Inhabited

/-- A cached record or shape record (spec/09 R197): sixteen words, and the physical address of its slot in table memory. -/
structure RecEntry where
  key : RecKey
  shape : Bool
  idx : Nat
  words : List Word
  pa : Nat
  deriving DecidableEq, Repr, Inhabited

/-- A cached residency-map entry (spec/09 R219): domain, virtual address, entry. -/
structure MapEntry where
  domain : Nat
  va : Nat
  val : Dword
  deriving DecidableEq, Repr, Inhabited

/-- A race-detection access entry (spec/10 R252). -/
structure RaceEntry where
  wg : Nat
  lane : Nat
  core : Nat
  interval : Word
  words : BitVec 16
  write : Bool
  deriving DecidableEq, Repr, Inhabited

/-- The race data of one home, a core's SRAM or a stack's L2 (spec/10 R252, R253): entries by line, the spill table,
the unchecked lines with the intervals live at the marking. -/
structure RaceHome where
  lines : SMap (List RaceEntry)
  spill : List (Nat × RaceEntry)
  unchecked : List (Nat × List (Nat × Nat × Word))
  deriving DecidableEq, Repr, Inhabited

/-- A core. -/
structure Core where
  istore : SMap ISlot
  macros : SMap MacroEntry
  apprs : SMap Apprentice
  sorter : SMap (List SorterEntry)
  sorterTurn : Nat
  /-- Home set last served by pipeline q of quadrant d: key 4d + q (spec/07 R146). -/
  pipes : SMap Nat
  tlb : List TlbEntry
  descs : List DescEntry
  recs : List RecEntry
  maps : List MapEntry
  race : RaceHome
  /-- SRAM correctable errors: (bank × 128 + row) to (window, count); spares used by bank (spec/19 R448). -/
  sramErr : SMap (Nat × Nat)
  sramSpares : SMap Nat
  /-- The island's current cycle: the quadrants that have issued in it, and whether its ordinary issues are over; in the
  first core of a cluster, the requesters of scratchpad banks and locks that have had their turn (log 1). -/
  issued : BitVec 4
  late : Bool
  lockNext : Nat
  /-- Lock bits of the core that attempts have won in the current cycle (spec/08 R184). -/
  lockWon : List Nat
  deriving DecidableEq, Repr, Inhabited

/-- A sweep-table entry (spec/13 R313): the three image words, state, domain, ACKN, rows already applied
(bank × 65536 + row). `state` is 0 FREE, 1 ACTIVE, 2 RETIRED. -/
structure SweepEntry where
  img0 : Word
  img1 : Word
  img2 : Word
  state : Nat
  domain : Nat
  ackn : Dword
  applied : List Nat
  /-- A number that no other registration of the pseudo-channel has. -/
  reg : Nat
  deriving DecidableEq, Repr, Inhabited

/-- A forcing in progress (spec/13 R320): a number that no other forcing in progress has, the entry and the rows still to take. -/
structure Forcing where
  num : Nat
  entry : Nat
  rows : List Nat
  deriving DecidableEq, Repr, Inhabited

/-- A bank job in progress (spec/16 R392): the node, the next entry, whether it has entered the mode. -/
structure BankJob where
  node : Nat
  next : Nat
  entered : Bool
  deriving DecidableEq, Repr, Inhabited

/-- A pseudo-channel. -/
structure Pch where
  n : Dword
  /-- All-bank mode held (MODE.ALLBANK, STATUS.ALLBANK). -/
  held : Bool
  bankmask : BitVec 16
  /-- Former owners whose BANK_TIMEOUT is still to be reported: workgroup, crew, REASON (LOST, spec/13 R306, R329). -/
  lost : List (Nat × Nat × Nat)
  /-- REASON of the last forced exit; none since reset reads as 3 (spec/13 R306). -/
  reason : Option Nat
  owner : BitVec 21
  ocrew : BitVec 6
  flags : BitVec 5
  /-- Bank to open row + 1. -/
  rows : SMap Nat
  /-- Bank to the first byte offsets of the tagged words of its open row. -/
  tags : SMap (List Nat)
  /-- Bank to the lines of its open row that a pass has written, to be restored (spec/13 R326, spec/09 R225). -/
  dirty : SMap (List Nat)
  /-- The rows opened since the mode was entered (bank × 65536 + row), whose lines its exit invalidates (spec/21 R455). -/
  opened : List Nat
  passRegs : SMap (BitVec 256)
  passStore : SMap (BitVec 512)
  table : SMap SweepEntry
  /-- The registrations so far. -/
  regs : Nat
  /-- Byte t of bank b's vector register at 512b + t. -/
  vec : Memory
  /-- Accumulator j of bank b at 64b + j. -/
  acc : SMap Word
  postponed : Nat
  forcings : List Forcing
  job : Option BankJob
  jobs : List Nat
  /-- Correctable errors: (bank × 65536 + row) to (window, count). -/
  errs : SMap (Nat × Nat)
  lasting : List Nat
  spares : SMap Nat
  /-- Rows without a spare left, served with ECC (spec/19 R447). -/
  logged : List Nat
  deriving DecidableEq, Repr, Inhabited

/-- A running packet (spec/12 R274): its sequence number, slot, words; the stream slot claimed; units of work done;
status so far; the packet's flags and counts; bytes delivered; data captured by a checkpoint pass. -/
structure Packet where
  seq : Nat
  slot : Nat
  /-- A COPY into a stream: its place in the order in which such packets have finished reading, 0 before that (spec/23 R458); the
  number of the ring in which it has claimed its slot. -/
  order : Nat
  bound : Nat
  /-- The compute die whose engine complex runs the packet, none for an engine of the I/O dies or a Scrivener (spec/11 R263). -/
  die : Option Nat
  words : List Word
  claimed : Option Nat
  units : Nat
  finished : Bool
  status : Nat
  flags : BitVec 5
  satcnt : Nat
  nanscore : Nat
  bytes : Nat
  /-- The packet has an address of kind 1, or a stream: it needs TGT's workgroup from its start (R274). -/
  needsWg : Bool
  /-- CKPT: the blocks (record, block, virtual address, length) and the captured bytes by physical address. -/
  blocks : List (Nat × Nat × Nat × Nat)
  captured : Memory
  seen : List Nat
  /-- COLL: the membership table as read at the start (spec/19 R444). -/
  ring : List (BitVec 128)
  deriving DecidableEq, Repr, Inhabited

/-- A queue bound to its engine (spec/12 R271, R272): header (physical address), class, instance, domain, the ring in use
(base, log of its slots, the sequence number of its slot 0), next packet to start, packets running, sequences complete above
the watermark, halted or not. -/
structure Queue where
  hdr : Nat
  cls : Nat
  inst : Nat
  domain : Nat
  ring : Nat × Nat × Nat
  next : Nat
  running : List Packet
  done : List Nat
  halted : Bool
  deriving DecidableEq, Repr, Inhabited

/-- A node descriptor as the pool keeps it (spec/16 R382): thirty-two words. -/
structure NodeDesc where
  words : List Word
  deriving DecidableEq, Repr, Inhabited

/-- A pending node. -/
structure Node where
  id : Nat
  desc : NodeDesc
  /-- Nodes it depends on, still pending (spec/16 R386, R387). -/
  deps : List Nat
  /-- A predecessor ended other than DONE. -/
  depBad : Bool
  ready : Bool
  ops : List (Nat × Nat)
  macros : List (List (Word × Word))
  nextInst : Nat
  progress : Nat
  term : Nat
  fcause : Nat
  finst : Nat
  fpc : Nat
  fdomain : Nat
  fva : Nat
  flags : BitVec 5
  satcnt : Word
  nanscore : Word
  /-- KIND 2: the sequence number claimed on the queue with this header, and the slot once it is published (spec/16 R393). -/
  posted : Option (Nat × Nat × Option Nat)
  deriving DecidableEq, Repr, Inhabited

/-- The ready pool. -/
structure Pool where
  opened : Bool
  nodes : List Node
  nextNode : Nat
  nextTag : Nat
  /-- Domain last served, by priority (spec/16 R390). -/
  served : SMap Nat
  deriving DecidableEq, Repr, Inhabited

/-- A voltage/frequency island (spec/04 R78, R80). -/
structure Island where
  cycle : Dword
  mhz : Nat
  stopped : Bool
  deriving DecidableEq, Repr, Inhabited

/-- A stack (spec/10 R253, spec/13 R300). -/
structure Stack where
  race : RaceHome
  hot : Bool
  deriving DecidableEq, Repr, Inhabited

/-- The module registers (spec/19 R440, R443). -/
structure ModRegs where
  lcstate : BitVec 2
  domtab : Nat
  ringpos : BitVec 6
  lrbase : Nat
  lrlog : BitVec 5
  lrtail : Dword
  lrhead : Dword
  mccount : Dword
  mclast : Dword
  ring : SMap (BitVec 128)
  deriving DecidableEq, Repr, Inhabited

/-- Firmware and management state (spec/19 R445, R449-R453). -/
structure Pmc where
  booted : Bool
  recovery : Bool
  heldReset : Bool
  version : Nat
  measure : List (List Byte)
  reports : List (List Byte)
  /-- Correctable errors of the Tiltain ports, by port (R443). -/
  linkErrs : SMap Nat
  /-- Correctable errors other than those of DRAM rows and scratchpad rows, counted by unit, and their log: unit and address (R448). -/
  corrected : SMap Nat
  errLog : List (Nat × Nat)
  linked : SMap (List Nat)
  deriving DecidableEq, Repr, Inhabited

/-- A turn of the agenda: which agent moves next. -/
inductive Turn where
  | gang (wg g : Nat)
  | appr (core unit : Nat)
  | event (i : Instr)
  | tick (island : Nat)
  deriving DecidableEq, Repr, Inhabited

/-- An XLINV in progress (spec/14 R340): its number, FN, domain, address, and the cores still to acknowledge. -/
structure Shootdown where
  id : Nat
  fn : Nat
  domain : Nat
  va : Nat
  waits : List Nat
  deriving DecidableEq, Repr, Inhabited

/-- The machine. -/
structure State where
  mem : Memory
  cores : SMap Core
  wgs : SMap Workgroup
  pchs : SMap Pch
  stks : SMap Stack
  islands : SMap Island
  queues : List Queue
  pool : Pool
  regs : ModRegs
  pmc : Pmc
  msix : List Nat
  hostLines : List Nat
  shootdowns : List Shootdown
  nextShoot : Nat
  nextRing : Nat
  /-- The next number of a pass (`Past.num`). -/
  nextPass : Nat
  /-- Residency requests written and not yet published (spec/14 R345): the core, the physical address of DONE, the request's number. -/
  publishing : List (Nat × Nat × Nat)
  /-- The uncorrectable errors that stand now (spec/15 R358). -/
  damage : List Config.Damage
  free : Nat
  agenda : List Turn
  deriving DecidableEq, Repr, Inhabited

/-- Why the model stops. Neither stop stands for a behaviour of the part. -/
inductive Fault where
  /-- Raised by a lane or Apprentice instruction when the agenda's head is no gang or Apprentice that stands at an
  instruction. Safe: no issue of the part is of this kind (log 1). -/
  | noIssuer
  /-- Raised by an event whose guard does not hold: the part does not take that step in that state. Safe (log 1). -/
  | notEnabled
  /-- Raised by a step when no agent of the machine can move and the environment offers nothing (a module held in
  reset or with every island stopped). Safe. -/
  | idle
  deriving DecidableEq, Repr

/-- Why the model has no meaning. -/
inductive Refusal where
  /-- No meaning is modelled for the instruction; raised by an arm of `exec` only. Safe. -/
  | notModelled (mnemonic : String)
  deriving DecidableEq, Repr

/-- The machine right after reset and wipe (spec/19 R450): memory with nothing listed, every file at its reset value,
no firmware image verified yet, so the pool is closed (R451). The values no rule states are those of log 3. -/
def State.reset : State where
  mem := []
  cores := []
  wgs := []
  pchs := []
  stks := []
  islands := (List.range 16).map fun i => (i, { cycle := 0, mhz := 2000, stopped := false })
  queues := []
  pool := { opened := false, nodes := [], nextNode := 0, nextTag := 0, served := [] }
  regs := { lcstate := 0, domtab := 0, ringpos := 0, lrbase := 0, lrlog := 0, lrtail := 0, lrhead := 0,
            mccount := 0, mclast := 0, ring := [] }
  pmc := { booted := false, recovery := false, heldReset := false, version := 0, measure := [], reports := [],
           linkErrs := [], corrected := [], errLog := [], linked := [] }
  msix := []
  hostLines := []
  shootdowns := []
  nextShoot := 0
  nextRing := 0
  nextPass := 0
  publishing := []
  damage := []
  free := 0
  agenda := []

end Sys2Proof.Machine
end

