-- ==== Sys2Proof/Machine/Ops.lean ====
section
/-! DEFINITION. The named operations over the parts of State: records of workgroups, lanes, crews and cores; physical
memory; intervals, regions and locks; translation (spec/14); and taking a trap with the return from one (spec/15). -/

namespace Sys2Proof.Machine

open Sys2Proof

/-! ### Parts of the state -/

/-- The workgroup with a WGTAG. -/
def State.wg (s : State) (t : Nat) : Workgroup := s.wgs.get t

/-- Change a workgroup. -/
def State.updWg (s : State) (t : Nat) (f : Workgroup → Workgroup) : State := { s with wgs := s.wgs.upd t f }

/-- Replace a workgroup. -/
def State.setWg (s : State) (t : Nat) (w : Workgroup) : State := { s with wgs := s.wgs.set t w }

/-- A core. -/
def State.core (s : State) (c : Nat) : Core := s.cores.get c

/-- Change a core. -/
def State.updCore (s : State) (c : Nat) (f : Core → Core) : State := { s with cores := s.cores.upd c f }

/-- A pseudo-channel. -/
def State.pch (s : State) (g : Nat) : Pch := s.pchs.get g

/-- Change a pseudo-channel. -/
def State.updPch (s : State) (g : Nat) (f : Pch → Pch) : State := { s with pchs := s.pchs.upd g f }

/-- A lane of a workgroup, by its number. -/
def Workgroup.lane (w : Workgroup) (l : Nat) : Lane := w.lanes.get l

/-- Change a lane. -/
def Workgroup.updLane (w : Workgroup) (l : Nat) (f : Lane → Lane) : Workgroup := { w with lanes := w.lanes.upd l f }

/-- A crew identifier's state. -/
def Workgroup.crew (w : Workgroup) (c : Nat) : Crew := w.crews.get c

/-- Change a crew. -/
def Workgroup.updCrew (w : Workgroup) (c : Nat) (f : Crew → Crew) : Workgroup := { w with crews := w.crews.upd c f }

/-- A gang by its number. -/
def Workgroup.gang? (w : Workgroup) (g : Nat) : Option Gang := w.gangs.find? fun x => x.id == g

/-- Change a gang. -/
def Workgroup.updGang (w : Workgroup) (g : Nat) (f : Gang → Gang) : Workgroup :=
  { w with gangs := w.gangs.map fun x => if x.id = g then f x else x }

/-- Remove a gang. -/
def Workgroup.dropGang (w : Workgroup) (g : Nat) : Workgroup := { w with gangs := w.gangs.filter fun x => x.id != g }

/-- Add a gang under the next number. -/
def Workgroup.addGang (w : Workgroup) (g : Gang) : Workgroup :=
  { w with gangs := w.gangs ++ [{ g with id := w.nextGang, moved := true }], nextGang := w.nextGang + 1 }

/-- Apply a function for every element of a list. -/
def overList {α β : Type} (l : List α) (b : β) (f : β → α → β) : β := l.foldl f b

/-- The live lanes, ascending. -/
def Workgroup.liveLanes (w : Workgroup) : List Nat := (w.lanes.filter fun p => p.2.live).map (·.1)

/-- The members of a crew, ascending (R29). -/
def Workgroup.members (w : Workgroup) (c : Nat) : List Nat :=
  (w.lanes.filter fun p => p.2.live && p.2.crew == some c).map (·.1)

/-- A predicate of a lane; p0 is true (R77). -/
def Lane.pred (l : Lane) (n : Nat) : Bool := n == 0 || l.p.getLsbD n

/-- Write a predicate; p0 takes no write (R77). -/
def Lane.setPred (l : Lane) (n : Nat) (b : Bool) : Lane := if n = 0 then l else { l with p := setBit l.p n b }

/-- Home set and position of a lane (R18). -/
def homeOf (l : Nat) : Nat := l / 32
def posOf (l : Nat) : Nat := l % 32

/-- The lanes of a mask of a home set, ascending. -/
def lanesOf (h : Nat) (m : BitVec 32) : List Nat := (maskList m).map fun k => 32 * h + k

/-- The mask of lanes of one home set. -/
def maskOfLanes (l : List Nat) : BitVec 32 := maskOf (l.map posOf)

/-- Numbering of R12. -/
def clusterOf (c : Nat) : Nat := c / 4
def dieOf (c : Nat) : Nat := c / 512
def islandOf (c : Nat) : Nat := c / 256

/-- The sibling at a cluster position: a workgroup of no cluster is its own sole sibling, at its own position (spec/08 R167,
R169). -/
def Workgroup.sibAt (w : Workgroup) (t c : Nat) : Option Nat :=
  if w.cluster then w.sibs.getD c none else if c = w.core % 4 then some t else none

/-- Quadrant of a workgroup's home set (R18). -/
def quadOf (h : Nat) : Nat := h % 4

/-- The island clock's cycle count of a core. -/
def State.cycleOf (s : State) (core : Nat) : Dword := (s.islands.get (islandOf core)).cycle

/-! ### Physical memory -/

/-- n bytes of physical memory. -/
def State.rdBytes (s : State) (a n : Nat) : List Byte := (List.range n).map fun k => s.mem.get (a + k)

/-- A little-endian number in physical memory. -/
def State.rdNat (s : State) (a n : Nat) : Nat := natOfBytes (s.rdBytes a n)

/-- Write bytes from an address. -/
def Memory.write (m : Memory) : Nat → List Byte → Memory
  | _, [] => m
  | a, b :: t => Memory.write (m.set a b) (a + 1) t

/-- The number of a line. -/
def lineOf (a : Nat) : Nat := a / 64

/-- Lines that n bytes at an address touch. -/
def linesOf (a n : Nat) : List Nat :=
  if n = 0 then [] else (List.range (lineOf (a + n - 1) - lineOf a + 1)).map (· + lineOf a)

/-- Fire every monitor armed on one of the lines (spec/09 R225). -/
def fireMonitors (lines : List Nat) (wgs : SMap Workgroup) : SMap Workgroup :=
  wgs.map fun p => (p.1, { p.2 with crews := p.2.crews.map fun c => (c.1,
    match c.2.monitor with
    | some m => if lines.contains m.line then { c.2 with monitor := some { m with fired := true } } else c.2
    | none => c.2) })

/-- Update the copies of written bytes in a carve-out (spec/09 R208). -/
def l1Update (l1 : SMap (List Byte)) (a : Nat) (bs : List Byte) : SMap (List Byte) :=
  l1.map fun p => (p.1, (p.2.zipIdx).map fun q =>
    let x := p.1 + q.2
    if a ≤ x ∧ x < a + bs.length then bs.getD (x - a) q.1 else q.1)

/-- A store at its home (spec/10 R246): the bytes, the monitors (R225), and, for a store of a core, the copies in the
carve-outs of that core (R245). -/
def State.physWrite (s : State) (core : Option Nat) (a : Nat) (bs : List Byte) : State :=
  if bs.isEmpty then s else
  { s with
    mem := Memory.write s.mem a bs
    wgs := (fireMonitors (linesOf a bs.length) s.wgs).map fun p =>
      if core == some p.2.core then (p.1, { p.2 with l1 := l1Update p.2.l1 a bs }) else p }

/-- The bytes of a span as they stand at their home. -/
def State.rdSpan (s : State) (x : Span) : List Byte :=
  match x.loc with
  | .phys a => s.rdBytes a x.len
  | .win t o => (List.range x.len).map fun k => (s.wg t).win.get (o + k)

/-- The bytes of several spans. -/
def State.rdSpans (s : State) (l : List Span) : List Byte := l.flatMap s.rdSpan

/-! ### The save image (spec/15 R376) -/

/-- Pieces of n bytes from byte o on of a run in pieces. -/
def spanCut : List Span → Nat → Nat → List Span
  | [], _, _ => []
  | x :: t, o, n =>
    if n = 0 then []
    else if x.len ≤ o then spanCut t (o - x.len) n
    else
      let k := min n (x.len - o)
      ⟨(match x.loc with | .phys a => .phys (a + o) | .win u b => .win u (b + o)), k⟩ :: spanCut t 0 (n - k)

/-- Write bytes to pieces of physical memory. -/
def State.putSpans (s : State) (l : List Span) (bs : List Byte) : State :=
  (overList l (s, bs) fun acc x => match x.loc with
    | .phys a => (acc.1.physWrite none a (acc.2.take x.len), acc.2.drop x.len)
    | .win .. => acc).1

/-- Sizes of the parts of an image, in order: header, lanes, home sets, crews, barriers, slots, scratchpad. -/
def imageParts (homes vregs spad : Nat) : List Nat :=
  [4096, 128 * homes * (vregs + 12), 2048 * homes, 16384, 2048, 65792 * homes, spad]

/-- Where part k of an image starts: every part starts on a 4 KiB boundary. Part 7 is the image's end. -/
def imagePart (homes vregs spad k : Nat) : Nat :=
  (((imageParts homes vregs spad).take k).map fun n => (n + 4095) / 4096 * 4096).sum

/-- Where part k of a workgroup's image starts. -/
def Workgroup.imagePart (w : Workgroup) (k : Nat) : Nat := Machine.imagePart w.homes.length w.vregs w.spad k

/-- Write bytes into the image of a saved workgroup. -/
def State.imagePut (s : State) (t o : Nat) (bs : List Byte) : State := s.putSpans (spanCut (s.wg t).image o bs.length) bs

/-- Store bytes at a location. The window of a saved workgroup is the one in its image (R377). -/
def State.wrLoc (s : State) (core : Option Nat) (x : Loc) (bs : List Byte) : State :=
  match x with
  | .phys a => s.physWrite core a bs
  | .win t o => (s.updWg t fun w => { w with win := Memory.write w.win o bs }).imagePut t ((s.wg t).imagePart 6 + o) bs

/-! ### Intervals, regions and locks -/

/-- The crews of lanes, ascending, without repeats. -/
def Workgroup.crewsOf (w : Workgroup) (ls : List Nat) : List Nat :=
  sortNat (dedup (ls.filterMap fun l => (w.lane l).crew))

/-- End the synchronisation-free interval of lanes (spec/10 R249); SYNC of their crews rises at the end of the cycle (spec/17 R407). -/
def Workgroup.endInterval (w : Workgroup) (ls : List Nat) : Workgroup :=
  let w1 := overList ls w fun w l => w.updLane l fun x => { x with interval := x.interval + 1 }
  overList (w.crewsOf ls) w1 fun w c => w.updCrew c fun x => { x with syncDue := true }

/-- Close the replay region of lanes (spec/15 R367). -/
def Workgroup.closeRegion (w : Workgroup) (ls : List Nat) : Workgroup :=
  overList ls w fun w l => w.updLane l fun x => { x with opened := false }

/-- Release the locks of lanes. -/
def Workgroup.releaseLocks (w : Workgroup) (ls : List Nat) : Workgroup :=
  overList ls w fun w l => w.updLane l fun x => { x with lock := none }

/-- Every lock bit held on a core. -/
def State.heldBits (s : State) (core : Nat) : List Nat :=
  s.wgs.flatMap fun p => p.2.lanes.filterMap fun l =>
    match l.2.lock with
    | some k => if k.core = core then some k.bit else none
    | none => none

/-! ### Domain descriptors and translation (spec/14) -/

/-- The sixteen doubles of domain d's descriptor in memory (R332). -/
def State.descMem (s : State) (d : Nat) : List Dword :=
  (List.range 16).map fun k => BitVec.ofNat 64 (s.rdNat (s.regs.domtab + 128 * d + 8 * k) 8)

/-- Bits [hi:lo] of a record held as elements of w bits. -/
def fieldOf {n : Nat} (d : List (BitVec n)) (hi lo : Nat) : Nat :=
  bits (packElems n (d.map BitVec.toNat)) lo (hi - lo + 1)

/-- A descriptor that keeps the table of R333 and has VALID = 1; any other counts as VALID = 0. What the table says must be
zero is tested; its RSV bits read as zero (R5), so that a set one breaks nothing (DEDUCED: log 17). -/
def descValid (d : List Dword) : Bool :=
  fieldOf d 0 0 == 1 && fieldOf d 74 64 == 0 && fieldOf d 197 192 == 0 && decide (fieldOf d 256 244 ≤ 4096) &&
  decide (fieldOf d 446 440 ≤ 64) && decide (fieldOf d 572 568 ≤ 16)

/-- SUPER of a descriptor. -/
def descSuper (d : List Dword) : Bool := fieldOf d 1 1 == 1

/-- The descriptor fields a core holds of a domain. -/
def State.descHeld (s : State) (core d : Nat) : Option (List Dword) :=
  ((s.core core).descs.find? fun e => e.domain == d).map (·.words)

/-- The descriptor as a core uses it: the fields it holds, else those in memory (R333); none when it counts as
VALID = 0. -/
def State.descUse (s : State) (core d : Nat) : Option (List Dword) :=
  match s.descHeld core d with
  | some w => some w
  | none => if descValid (s.descMem d) then some (s.descMem d) else none

/-- A core takes the descriptor of a domain from memory (R333). -/
def State.descLoad (s : State) (core d : Nat) : State :=
  if descValid (s.descMem d) then
    s.updCore core fun c => { c with
      descs := ⟨d, s.descMem d⟩ :: c.descs.filter fun e => e.domain != d }
  else s

/-- A core takes a descriptor that it does not hold (R333). -/
def State.descNeed (s : State) (core d : Nat) : State :=
  match s.descHeld core d with
  | some _ => s
  | none => s.descLoad core d

/-- The apertures of spec/19 R439: 0 device DRAM, 1 bank control windows, 2 module register page, 3 doorbell page,
4 a peer's memory, 5 host memory, 6 capacity tier. -/
def aperture (a : Nat) : Option Nat :=
  if a < 0x10000000000 then some 0
  else if a < 0x10004000000 then some 1
  else if a < 0x20000000000 then none
  else if a < 0x20000001000 then some 2
  else if a < 0x20000002000 then some 3
  else if a < 0x1000000000000 then none
  else if a < 0x1000000000000 + 64 * 0x10000000000 then some 4
  else if a < 0x2000000000000 then none
  else if a < 0x3000000000000 then some 5
  else if a < 0x4000000000000 then none
  else if a < 0x4100000000000 then some 6
  else none

/-- The memory types an aperture allows (R439); types are numbered as TYPE of R336. -/
def typeAllowed (ap ty : Nat) : Bool :=
  match ap with
  | 0 => true
  | 1 => ty == 2
  | 2 => ty == 2
  | 3 => ty == 2
  | 4 => true
  | 5 => ty == 0 || ty == 2
  | _ => ty == 0 || ty == 1

/-- Pseudo-channel of a byte of device DRAM (spec/13 R299). -/
def pchOf (pa : Nat) : Nat := pa / 2 ^ 30

/-- Bytes whose pseudo-channel is held in all-bank mode wait in the controller queue (spec/13 R324). -/
def State.held (s : State) (x : Span) : Bool :=
  match x.loc with
  | .phys a => aperture a == some 0 && (s.pch (pchOf a)).held
  | .win t o => (spanCut (s.wg t).image ((s.wg t).imagePart 6 + o) x.len).any fun y => match y.loc with
    | .phys a => aperture a == some 0 && (s.pch (pchOf a)).held
    | .win .. => false

/-- How a walk ended (R335, R338). -/
inductive Walk where
  /-- Physical address of the byte, TYPE, W, SUP, level of the leaf, log2 of the page size, the leaf. -/
  | ok (pa ty : Nat) (w sup : Bool) (level psize : Nat) (pte : Dword)
  /-- Cause, level, entry. -/
  | fail (cause level : Nat) (pte : Dword)
  deriving DecidableEq, Repr, Inhabited

/-- Lowest virtual-address bit that a level's index uses (R335). -/
def levelShift (lv : Nat) : Nat := 12 + 9 * (lv - 1)

/-- Index of a virtual address at a level (R335). -/
def levelIndex (lv va : Nat) : Nat := if lv = 5 then bits va 48 8 else bits va (levelShift lv) 9

/-- A valid entry that keeps R336 and R337 at a level. -/
def pteFormat (lv : Nat) (e : Nat) : Bool :=
  bits e 7 5 == 0 && bits e 52 4 == 0 &&
  (if bitAt e 2 then
    lv ≤ 3 && (if bitAt e 1 then
      match firstBelow 20 fun k => bitAt e (12 + k) with
      | none => false
      | some k => (if k ≤ 7 then lv == 1 else if k ≤ 16 then lv == 2 else lv == 3)
    else lv == 1)
  else
    lv != 1 && !bitAt e 1 && bits e 3 4 == 0)

/-- log2 of a leaf's page size, and its frame (R337). -/
def leafFrame (e : Nat) : Nat × Nat :=
  let addr := bits e 12 40 * 4096
  if bitAt e 1 then
    match firstBelow 20 fun k => bitAt e (12 + k) with
    | none => (12, addr)
    | some k => (13 + k, addr - 2 ^ (12 + k))
  else (12, addr)

/-- The frame of a leaf lies in an aperture that the domain may reach, the first row of R338. -/
def leafRange (super : Bool) (e va : Nat) : Bool :=
  match aperture ((leafFrame e).2 + va % 2 ^ (leafFrame e).1) with
  | none => false
  | some ap => ap != 2 || super

/-- What a walk checks of a leaf beyond its format (R338, R439). -/
def leafCheck (super wr handler : Bool) (lv e va : Nat) : Walk :=
  let (sz, frame) := leafFrame e
  let pa := frame + va % 2 ^ sz
  let ty := bits e 3 2
  let pte := BitVec.ofNat 64 e
  match aperture pa with
  | none => .fail 0x34 lv pte
  | some ap =>
    if ap = 2 ∧ super = false then .fail 0x34 lv pte
    else if typeAllowed ap ty = false then .fail 0x33 lv pte
    else if bitAt e 6 = true ∧ handler = false then .fail 0x32 lv pte
    else if bitAt e 5 = false ∧ wr = true then .fail 0x31 lv pte
    else .ok pa ty (bitAt e 5) (bitAt e 6) lv sz pte

/-- The entry that a core holds for a level of a virtual address (R339). -/
def State.tlbAt (s : State) (core d lv va : Nat) : Option TlbEntry :=
  (s.core core).tlb.find? fun e => e.domain == d && e.level == lv && e.vpre == va / 2 ^ levelShift lv

/-- One entry as a core uses it: memory's at its address, or, where the core holds a different older one, either (R339); the one it
holds while all-bank mode holds the memory (spec/13 R324). -/
def State.pteUse (s : State) (core d lv va : Nat) (at_ : Nat) (k : Nat) : Nat :=
  let mem := s.rdNat at_ 8
  match s.tlbAt core d lv va with
  | none => mem
  | some e => if e.pte.toNat = mem then mem
    else if s.held ⟨.phys at_, 8⟩ || Config.freeBool (s.free + k) then e.pte.toNat else mem

/-- The walk from a level down (R335): the result and the entries used, lowest level first. -/
def State.walkFrom (s : State) (core d : Nat) (super wr handler : Bool) (va k : Nat) :
    Nat → Nat → Walk × List TlbEntry
  | 0, _ => (.fail 0x33 0 0, [])
  | lv + 1, table =>
    let e := s.pteUse core d (lv + 1) va (table + 8 * levelIndex (lv + 1) va) (k + lv)
    let pte := BitVec.ofNat 64 e
    if bitAt e 0 = false then (.fail 0x30 (lv + 1) pte, [])
    else if bitAt e 2 ∧ leafRange super e va = false then (.fail 0x34 (lv + 1) pte, [])
    else if pteFormat (lv + 1) e = false then (.fail 0x33 (lv + 1) pte, [])
    else
      let me : TlbEntry := ⟨d, lv + 1, va / 2 ^ levelShift (lv + 1), pte⟩
      if bitAt e 2 then (leafCheck super wr handler (lv + 1) e va, [me])
      else
        let r := s.walkFrom core d super wr handler va k lv (bits e 12 40 * 4096)
        (r.1, r.2 ++ [me])

/-- Translation of a virtual address under a domain by a core (R335, R338). -/
def State.walk (s : State) (core d : Nat) (wr handler : Bool) (va k : Nat) : Walk × List TlbEntry :=
  if va ≥ 2 ^ 56 then (.fail 0x34 5 0, [])
  else match s.descUse core d with
    | none => (.fail 0x30 5 0, [])
    | some w => s.walkFrom core d (descSuper w) wr handler va k 5 (fieldOf w 115 64)

/-- A core keeps the entries of a walk that did not fail (R339). -/
def State.walkKeep (s : State) (core d : Nat) (r : Walk × List TlbEntry) : State :=
  match r.1 with
  | .fail .. => s
  | .ok .. =>
    (s.descNeed core d).updCore core fun c => { c with
      tlb := overList r.2 c.tlb fun t e => if t.contains e then t else
        e :: t.filter fun x => !(x.domain == e.domain && x.level == e.level && x.vpre == e.vpre) }

/-- Physical address of a virtual address for a plain load in handler mode, by a unit of the device that is no core: the
entries in memory. Used by the pool and the engines, which the spec gives no translation cache. -/
def State.walkMem (s : State) (d : Nat) (wr : Bool) (va : Nat) : Walk :=
  if va ≥ 2 ^ 56 then .fail 0x34 5 0
  else
    let w := s.descMem d
    if descValid w = false then .fail 0x30 5 0
    else ({ s with cores := [] }.walkFrom 0 d (descSuper w) wr false va 0 5 (fieldOf w 115 64)).1

/-- The pieces of a range cut at 4 KiB granules: first address and length of each. -/
def granules (va n : Nat) : List (Nat × Nat) :=
  if n = 0 then [] else
  (List.range ((va % 4096 + n - 1) / 4096 + 1)).map fun j =>
    let lo := max va ((va / 4096 + j) * 4096)
    let hi := min (va + n) ((va / 4096 + j + 1) * 4096)
    (lo, hi - lo)

/-- n bytes of virtual memory through the page tables in memory: the bytes, or the cause and the failing address. -/
def State.rdVirt (s : State) (d : Nat) (va n : Nat) : Except (Nat × Nat) (List Byte) :=
  (granules va n).foldr (fun p acc =>
    match s.walkMem d false p.1, acc with
    | .fail c _ _, _ => .error (c, p.1)
    | .ok .., .error e => .error e
    | .ok pa .., .ok l => .ok (s.rdBytes pa p.2 ++ l)) (.ok [])

/-! ### Code segments (spec/16 R395) -/

/-- The physical slot of a logical segment, if it is mapped. -/
def Workgroup.slotOf (w : Workgroup) (seg : Nat) : Option Nat :=
  if w.segs.get seg = 0 then none else some (w.segs.get seg - 1)

/-- A logical segment that a transfer finds landed, in the crew's current domain (R395). -/
def State.segLanded (s : State) (w : Workgroup) (dom seg : Nat) : Bool :=
  match w.slotOf seg with
  | none => false
  | some k =>
    let sl := (s.core w.core).istore.get k
    sl.st == .landed && sl.tagDom == dom

/-- The domain of a lane's crew; the node's domain for a crewless lane (R333, R359). -/
def Workgroup.domOf (w : Workgroup) (l : Nat) : Nat :=
  match (w.lane l).crew with
  | some c => (w.crew c).domain
  | none => w.domain

/-! ### Race entries of lines (spec/10 R246, R252, R253) -/

/-- Where race entries of a line are kept (R246): a core's SRAM or a stack's L2. -/
inductive RHome where
  | core (c : Nat)
  | stack (k : Nat)
  deriving DecidableEq, Repr, Inhabited

/-- The race data of a home. -/
def State.raceHome (s : State) : RHome → RaceHome
  | .core c => (s.core c).race
  | .stack k => (s.stks.get k).race

/-- Change the race data of a home. -/
def State.setRace (s : State) (h : RHome) (r : RaceHome) : State :=
  match h with
  | .core c => s.updCore c fun x => { x with race := r }
  | .stack k => { s with stks := s.stks.upd k fun x => { x with race := r } }

/-- An interval that has not ended (R249, R250): a live lane's current one, or an older one some of whose checked accesses are
still to be performed, loads among them, as R256 asks; also of a lane that has executed EXIT. -/
def State.intervalLive (s : State) (t l : Nat) (i : Word) : Bool :=
  let w := s.wg t
  w.life != .saved &&
  (((w.lane l).live && (w.lane l).interval == i) ||
    w.crews.any fun c => c.2.flight.any fun f => f.checked && !f.done && f.lanes.contains (l, i))

/-- A live entry (R252). -/
def State.entryLive (s : State) (e : RaceEntry) : Bool := s.intervalLive e.wg e.lane e.interval

/-- The entries of a line, spill entries among them. -/
def RaceHome.entries (r : RaceHome) (line : Nat) : List RaceEntry :=
  r.lines.get line ++ (r.spill.filter fun p => p.1 == line).map (·.2)

/-- The live intervals of entries of a line (R253). -/
def State.liveIntervals (s : State) (r : RaceHome) (line : Nat) : List (Nat × Nat × Word) :=
  dedup (((r.entries line).filter s.entryLive).map fun e => (e.wg, e.lane, e.interval))

/-- The L2 of a stack drops a device line: its live entries move to the spill table, or the line is marked unchecked when the table
has no room for them (R253). -/
def State.evictEntries (s : State) (k line : Nat) : State :=
  let r := (s.stks.get k).race
  let live := (r.lines.get line).filter s.entryLive
  let sp := r.spill.filter fun p => s.entryLive p.2
  let r1 : RaceHome := if sp.length + live.length ≤ 4096 then
      { r with lines := r.lines.set line [], spill := sp ++ live.map fun e => (line, e) }
    else { r with
      lines := r.lines.set line [], spill := r.spill.filter fun p => p.1 != line
      unchecked := (line, s.liveIntervals r line) :: r.unchecked.filter fun u => u.1 != line }
  s.setRace (.stack k) r1

/-- The L2 lines of a restored row are invalidated: their race entries are kept as at an eviction (R311, R312). -/
def State.dropRaces (s : State) (lines : List Nat) : State :=
  overList lines s fun s ln =>
    let k := 64 * ln / 2 ^ 36
    if (s.stks.get k).race.lines.get ln = [] then s else s.evictEntries k ln

/-- Physical address of a row's first byte (spec/13 R299). -/
def rowAddr (g b row : Nat) : Nat := g * 2 ^ 30 + b * 2 ^ 26 + row * 2 ^ 10

/-! ### Forced exits and termination -/

/-- At the exit from all-bank mode the lines of every row that was opened in it are invalidated (spec/21 R455): their race entries are
kept as at an eviction, and no carve-out holds a line cached before a pass wrote its row. -/
def State.invalidateRows (s : State) (g : Nat) : State :=
  let lines := (s.pch g).opened.flatMap fun k => linesOf (rowAddr g (k / 65536) (k % 65536)) 1024
  if lines.isEmpty then s else
  let s1 := (s.dropRaces lines).updPch g fun p => { p with opened := [] }
  { s1 with wgs := s1.wgs.map fun p => (p.1, { p.2 with l1 := p.2.l1.filter fun x => !lines.contains (x.1 / 64) }) }

/-- Fire the monitors of the lines that passes have written in the open rows of some banks: the rows are restored (spec/09
R225, spec/13 R326). -/
def State.restoreRows (s : State) (g : Nat) (banks : List Nat) : State :=
  let p := s.pch g
  { s with wgs := fireMonitors (banks.flatMap fun b => p.dirty.get b) s.wgs }.updPch g fun p => { p with
    rows := banks.foldl (fun m b => m.set b 0) p.rows
    tags := banks.foldl (fun m b => m.set b []) p.tags
    dirty := banks.foldl (fun m b => m.set b []) p.dirty }

/-- A forced exit from all-bank mode (spec/13 R328, R329): open rows are restored and closed, lines of the rows opened are
invalidated (spec/21 R455), the mode is free. -/
def State.forceExit (s : State) (g reason : Nat) (lost : Bool) : State :=
  ((s.restoreRows g (List.range 16)).invalidateRows g).updPch g fun p => { p with
    held := false, reason := some reason, job := none
    lost := if lost then p.lost ++ [(p.owner.toNat, p.ocrew.toNat, reason)] else p.lost }

/-- End the all-bank ownership of a workgroup, or of one crew of it (R329). -/
def State.endOwnership (s : State) (t : Nat) (crew : Option Nat) (reason : Nat) : State :=
  overList (s.pchs.filter fun p => p.2.held && p.2.owner.toNat == t && (crew == none || crew == some p.2.ocrew.toNat) &&
    p.2.job.isNone) s fun s p => s.forceExit p.1 reason true

/-- Free the Apprentice bound to a crew (spec/17 R402): its queues are discarded, and what was reloading for them reads nothing. -/
def State.freeAppr (s : State) (t c : Nat) : State :=
  match ((s.wg t).crew c).appr with
  | some b =>
    let s1 := match b.unit with
      | some u => s.updCore (s.wg t).core fun k => { k with apprs := k.apprs.set u default }
      | none => s
    s1.updWg t fun w => w.updCrew c fun x => { x with
      appr := none
      flight := x.flight.map fun (i : FlightItem) => match i.op with | .reload .. => { i with op := .nop } | _ => i }
  | none => s

/-- Items of a crew that are counted complete: on each path, in issue order (spec/08 R176); items counted on no path when done. -/
def countOff (l : List FlightItem) : List FlightItem :=
  l.filter fun i =>
    !(i.done && (i.path.isNone || l.all fun j => decide (j.id ≥ i.id) || j.path != i.path || j.done))

/-- A post that has issued and waits for its slot (spec/12 R289): of a gang, or of any. -/
def FlightItem.isPost (i : FlightItem) (gang : Nat) : Bool := match i.op with | .post g => g == gang | _ => false
def FlightItem.posts (i : FlightItem) : Bool := match i.op with | .post _ => true | _ => false

/-- Posts that will not go on count no more. -/
def Workgroup.dropPosts (w : Workgroup) (p : FlightItem → Bool) : Workgroup :=
  { w with crews := w.crews.map fun c => (c.1, { c.2 with flight := countOff (c.2.flight.filter fun i => !p i) }) }

/-- Terminate a workgroup (spec/15 R363): every lane stops, its locks are released, its all-bank ownership ends with
REASON 2, its Apprentices are freed; counted work goes on to drain, but for a post that waits for its slot, whose gang is gone. -/
def State.terminate (s : State) (t cause fpc dom fva : Nat) : State :=
  let s1 := ((s.endOwnership t none 2).updWg t fun w => w.dropPosts FlightItem.posts).updWg t fun w => { w with
    lanes := w.lanes.map fun p => (p.1, { p.2 with live := false, crew := none, joining := none, lock := none })
    gangs := [], traps := [], windows := []
    crews := w.crews.map fun p => (p.1, { p.2 with forming := none, forced := none, monitor := none })
    term := match w.term with | some x => some x | none => some (cause, fpc, dom, fva) }
  overList (List.range 64) s1 fun s c => s.freeAppr t c

/-! ### Gate frames (spec/14 R348, R352, R353) -/

/-- Key of a crew's gate frame at a level. -/
def frameKey (c depth : Nat) : Nat := 8 * c + depth

/-- A gate entry's field. -/
def gateFld (g : List Word) (hi lo : Nat) : Nat := fieldOf g hi lo

/-- The gate entry of the innermost call a lane's crew is inside (spec/14 R350, R351). -/
def Workgroup.gateOf (w : Workgroup) (l : Nat) : Option (List Word) :=
  match (w.lane l).crew with
  | some c => if (w.crew c).depth > 0 then some (w.gates.get (frameKey c ((w.crew c).depth - 1))).entry else none
  | none => none

/-- The keys of the accumulator slots of the quarters that hold a member (R350). -/
def Workgroup.memberSlots (w : Workgroup) (c : Nat) : List Nat :=
  (dedup ((w.members c).map fun l => 4 * homeOf l + posOf l / 8)).flatMap fun q => (List.range 16).map fun k => 16 * q + k

/-- True when a crew has nothing counted in flight. -/
def Crew.drained (c : Crew) : Bool := c.flight.all fun i => i.path.isNone

/-- True when the quarters of a crew's members hold no queued matrix operation. -/
def Workgroup.matrixIdle (w : Workgroup) (c : Nat) : Bool :=
  (w.members c).all fun l => (w.mqueues.get (4 * homeOf l + posOf l / 8)).isEmpty

/-- What GRET, or the forced GRET, restores in a member's registers (R352, R353). -/
def gateRestoreLane (vregs : Nat) (f : GateFrame) (forced : Bool) (l : Nat) (x : Lane) : Lane :=
  let arg := gateFld f.entry 95 64
  let res := gateFld f.entry 127 96
  let sv := f.vregs.get l
  let ln := f.lanes.get l
  { x with
    v := overList (List.range vregs) x.v fun v n =>
      if bitAt res n ∧ n < 32 then (if forced then v.set n 0 else v)
      else if bitAt arg n ∧ n < 32 then v.set n 0
      else v.set n (sv.get n)
    o := ln.o
    p := setBit ln.p 7 (!forced)
    cf := ln.cf
    fpmode := ln.fpmode
    saved := none }

/-- Lanes leave the gangs they stand in; a gang that holds no other lane ends. -/
def Workgroup.dropLanes (w : Workgroup) (ls : List Nat) : Workgroup :=
  { w with gangs := w.gangs.filterMap fun g =>
      let m := g.mask &&& ~~~ (maskOfLanes (ls.filter fun l => homeOf l = g.hset))
      if m = 0 then none else some { g with
        mask := m, clause := g.clause.map fun r => { r with issue := r.issue &&& m, exec := r.exec &&& m } } }

/-- The members of a crew that wait in traps, by trap: the paths of one gang (R24, spec/15 R359). A lane that has trapped again in a
handler stands in its latest trap. -/
def Workgroup.trapWaiters (w : Workgroup) (c : Nat) : List (List Nat) :=
  w.traps.map fun x => (x.resume.map (·.lane)).filter fun l => (w.lane l).live && (w.lane l).crew == some c &&
    !(w.traps.any fun y => decide (y.id > x.id) && y.resume.any fun r => r.lane == l)

/-- Cycles of a YIELD hold, as a gang counts them: the current cycle and one are counted beside the next `yhold` (R41). -/
def yieldHold (yhold : Nat) : Nat := if yhold = 0 then 0 else yhold + 2

/-- The hold of a gang's paths when its clause ends: YIELD of the header starts one anew (R41). -/
def Gang.holdAfter (g : Gang) (yhold : Nat) : Nat :=
  match g.clause with
  | some r => if bitAt r.hdr.toNat 17 then yieldHold yhold else g.hold
  | none => g.hold

/-- The members of a crew leave the gangs they stand in and form, by home set and former gang, gangs at an address
(R352, R353): a path keeps its own gang, and the YIELD hold that its gang gives it. Members that stand in no gang are given in groups,
one for each gang they stood in (`waiting`), and the rest by home set. -/
def Workgroup.moveCrew (w : Workgroup) (c pc : Nat) (waiting : List (List Nat)) (hold : Gang → Nat) : Workgroup :=
  let ms := w.members c
  let part (g : Gang) : BitVec 32 := maskOfLanes (ms.filter fun l => homeOf l = g.hset && g.mask.getLsbD (posOf l))
  let mk (h : Nat) (m : BitVec 32) : Gang := { (default : Gang) with hset := h, pc := pc, mask := m, ages := List.replicate 8 0 }
  let moved := (w.gangs.filter fun g => part g != 0).map fun g => { mk g.hset (part g) with hold := hold g }
  let inGang := w.gangs.flatMap fun g => lanesOf g.hset (part g)
  let rest := ms.filter fun l => !inGang.contains l
  let groups := waiting.map fun x => x.filter fun l => rest.contains l
  let left := rest.filter fun l => !groups.any fun x => x.contains l
  let extra := (groups ++ [left]).flatMap fun x =>
    (sortNat (dedup (x.map homeOf))).map fun h => mk h (maskOfLanes (x.filter fun l => homeOf l = h))
  overList (moved ++ extra) (w.dropLanes ms) fun w g => w.addGang g

/-- Items that take no part in the ordering of lanes' accesses. -/
def FlightOp.aside : FlightOp → Bool
  | .fetch .. => true
  | .sorter _ => true
  | .nop => true
  | .post _ => true
  | _ => false

/-- The claim already made by a post that is parked or has trapped (spec/12 R295). -/
def Pend.claimed : Pend → Option Nat
  | .claim n .. => some n
  | _ => Option.none

/-- Every item of a workgroup. -/
def Workgroup.items (w : Workgroup) : List FlightItem := w.crews.flatMap fun c => c.2.flight

/-- An access of a lane with a lower number than its bound is still to be performed. -/
def Workgroup.pendingBefore (w : Workgroup) (bs : List (Nat × Nat)) : Bool :=
  w.items.any fun i => !i.done && !i.op.aside && i.lanes.any fun l => bs.any fun b => b.1 == l.1 && decide (i.id < b.2)

/-- Order the accesses of lanes, and what an earlier edge orders before them, ahead of the lanes' later accesses (spec/10 R238).
An edge without an access in flight before it is dropped. -/
def Workgroup.layEdge (w : Workgroup) (ls : List Nat) : Workgroup :=
  let kept := w.edges.filter fun e => w.pendingBefore e.before
  let before := dedup (ls.map (fun l => (l, w.nextItem)) ++ (kept.filter fun e => e.after.any fun l => ls.contains l).flatMap (·.before))
  { w with edges := if w.pendingBefore before then kept ++ [⟨before, w.nextItem, ls⟩] else kept }

/-- Drop every line of a workgroup's carve-out. -/
def State.l1Drop (s : State) (t : Nat) : State := s.updWg t fun w => { w with l1 := [] }

/-- The members of a crew no longer wait in traps: a return from a gate carries them away (R353). -/
def Workgroup.leaveTraps (w : Workgroup) (c : Nat) : Workgroup :=
  { w with traps := w.traps.map fun x => { x with resume := x.resume.filter fun r => (w.lane r.lane).crew != some c } }

/-- What a release of a crew's members has to wait for is over: counted work, matrix operations, and every other access of
theirs (R353). -/
def Workgroup.quiet (w : Workgroup) (c : Nat) : Bool :=
  (w.crew c).drained && w.matrixIdle c &&
  w.crews.all fun p => p.2.flight.all fun i => i.done || (match i.op with | .nop => true | _ => false) ||
    !(i.lanes.any fun l => (w.lane l.1).crew == some c)

/-- Return from a gate call (R352), or the forced GRET (R353) with its s31 value, after the wait: an acquire at device scope,
the end of the members' intervals and regions, their registers, and their way on. -/
def State.gateReturn (s : State) (t c : Nat) (forced : Option Nat) : State :=
  (s.l1Drop t).updWg t fun w0 =>
    let w := ((w0.endInterval (w0.members c)).closeRegion (w0.members c)).layEdge (w0.members c)
    let cr := w.crew c
    let f := w.gates.get (frameKey c (cr.depth - 1))
    let w1 := overList (w.members c) w fun w l => w.updLane l (gateRestoreLane w.vregs f forced.isSome l)
    let w2 := if gateFld f.entry 14 14 = 1 then { w1 with
        slots := overList (w.memberSlots c) w1.slots fun m k => m.set k (f.slots.get k) } else w1
    let w3 := w2.updCrew c fun x => { x with
      s := f.s.set 31 (match forced with | some v => BitVec.ofNat 32 v | none => 0), old := []
      domain := cr.caller, depth := cr.depth - 1, gate := f.gate, caller := f.caller, handler := false, forced := none }
    ({ w3 with gates := w3.gates.set (frameKey c (cr.depth - 1)) default }.moveCrew c f.ret (w.trapWaiters c) fun g =>
      if forced.isSome then g.hold else g.holdAfter w.yhold.toNat).leaveTraps c

/-! ### Traps (spec/15) -/

/-- What an instruction or a decode check raises: the cause, the faulting lanes, the reported PC, whether it is a
decode trap, the DETAIL words and the fault records of a set of faulters, and the two special resume rows of R368. -/
structure TrapReq where
  cause : Nat
  faulters : List Nat
  fpc : Nat
  decode : Bool := false
  detail : Nat → List Word := fun _ => []
  recs : List Nat → List (BitVec 256) := fun _ => []
  afterClaim : Bool := false
  software : Bool := false

/-- Resume point of a lane of the issue mask (R368). The clause after a TRAP's is the one at the next address, also where that
lies in the next segment (DEDUCED, log 68). -/
def resumeOf (g : Gang) (q : TrapReq) (l : Nat) (x : Lane) : Resume :=
  let run := g.clause
  let next := match run with
    | some r => r.base + 4 + 4 * r.words.length
    | none => g.pc
  let here := match run with
    | some r => r.base + 4 + 4 * r.pos
    | none => q.fpc
  if q.software then ⟨l, 2, next, none⟩
  else match x.lock with
    | some k => ⟨l, 1, k.atRun.base + 4 + 4 * k.atRun.pos, some k.atRun⟩
    | none =>
      if q.afterClaim then ⟨l, 1, here, run⟩
      else if x.opened then ⟨l, 0, x.repc.toNat, none⟩
      else if q.decode then ⟨l, 1, g.pc, none⟩
      else ⟨l, 1, here, run⟩

/-- The trap frame's header (R364). -/
def frameHeader (q : TrapReq) (nrec : Nat) (r : Resume) (rcnt : Word) (faulters issue : BitVec 32)
    (crew depth hset : Nat) (detail : List Word) : List Word :=
  [BitVec.ofNat 32 (q.cause + nrec * 256 + r.kind * 65536), BitVec.ofNat 32 (q.fpc % 2 ^ 18),
   BitVec.ofNat 32 (r.pc % 2 ^ 18), rcnt, faulters, issue,
   BitVec.ofNat 32 (crew + depth * 64 + hset * 512), 0] ++ (detail ++ List.replicate 8 0).take 8

/-- The ring position of a peer's byte, and its entry in the membership table (spec/19 R439, R443). -/
def peerOf (a : Nat) : Nat := (a - 0x1000000000000) / 0x10000000000
def State.peerEntry (s : State) (a : Nat) : BitVec 128 := s.regs.ring.get (peerOf a)

/-- True for bytes of a peer whose ring entry has VALID = 0 (spec/19 R439). -/
def State.peerAbsent (s : State) (a : Nat) : Bool := aperture a == some 4 && !(s.peerEntry a).getLsbD 0

/-- The unit of a link to a ring member: an Ethernet port where LINK = 1, else a Tiltain port (spec/19 R443, R445). -/
def linkUnit (e : BitVec 128) : Nat := if e.getLsbD 3 then 8 else 5

/-- The uncorrectable error that n bytes at a physical address meet: cause, failing unit, physical address (R357, spec/19 R445). -/
def damageAt (link a n : Nat) (d : Config.Damage) : Option (Nat × Nat × Nat) :=
  let hit (ln : Nat) (aps : List Nat) (cause unit : Nat) : Option (Nat × Nat × Nat) :=
    if (linesOf a n).contains ln && aps.any (fun x => aperture a == some x)
    then some (cause, unit, max a (64 * ln)) else none
  match d with
  | .dram ln => hit ln [0] 0xB0 0
  | .l2 ln => hit ln [0] 0xB2 4
  | .cxl ln => hit ln [5, 6] 0xB4 6
  | .link ln => hit ln [4] 0xB3 link
  | _ => none

/-- The machine check that an access of some bytes meets (R358): an absent peer, or an uncorrectable error. -/
def State.mcOf (s : State) (x : Span) : Option (Nat × Nat × Nat) :=
  match x.loc with
  | .phys a =>
    let u := linkUnit (s.peerEntry a)
    if s.peerAbsent a then some (0xB3, u, a) else s.damage.findSome? (damageAt u a x.len)
  | .win t o => s.damage.findSome? fun d => match d with
    | .pad u n => if u = t ∧ n < o + x.len ∧ o < n + 4 then some (0xB1, 1, (s.wg t).base + n) else none
    | _ => none

/-- Log a machine check with the PMC: MCCOUNT and MCLAST (spec/19 R440). -/
def State.logMc (s : State) (cause unit pa : Nat) : State :=
  { s with regs := { s.regs with
      mccount := s.regs.mccount + 1
      mclast := BitVec.ofNat 64 (cause % 256 + unit % 256 * 256 + bits pa 4 48 * 65536) } }

/-- Count and log a correctable error of a unit (spec/19 R448). -/
def State.logCorrected (s : State) (unit pa : Nat) : State :=
  { s with pmc := { s.pmc with corrected := s.pmc.corrected.upd unit (· + 1), errLog := s.pmc.errLog ++ [(unit, pa)] } }

/-- The pseudo-channel whose all-bank mode the first held one of some bytes waits for. -/
def State.heldIn (s : State) (xs : List Span) : Option Nat :=
  (xs.find? s.held).map fun x => match x.loc with
    | .phys a => pchOf a
    | .win t o => ((spanCut (s.wg t).image ((s.wg t).imagePart 6 + o) x.len).findSome? fun y => match y.loc with
      | .phys a => if (s.pch (pchOf a)).held then some (pchOf a) else none
      | .win .. => none).getD 0

/-- The bytes of a descriptor, which a core reads when it needs a field that it does not hold (spec/14 R333). -/
def State.descReads (s : State) (core d : Nat) : List Span :=
  match s.descHeld core d with
  | some _ => []
  | none => [⟨.phys (s.regs.domtab + 128 * d), 128⟩]

/-- What a walk has to read: the descriptor, and eight bytes at each level it reaches, where the core does not hold them (spec/14
R333, R335, R339). -/
def State.walkReads (s : State) (core d va k : Nat) : List Span :=
  if va ≥ 2 ^ 56 then [] else s.descReads core d ++ match s.descUse core d with
  | none => []
  | some w =>
    let inner := ((s.walk core d false true va k).2.reverse.filter fun e => !bitAt e.pte.toNat 2).map fun e => bits e.pte.toNat 12 40 * 4096
    ((fieldOf w 115 64 :: inner).zipIdx.filter fun p => (s.tlbAt core d (5 - p.2) va).isNone).map fun p =>
      ⟨.phys (p.1 + 8 * levelIndex (5 - p.2) va), 8⟩

/-- The bytes of a plain .b32 load in handler mode at a virtual address, where it meets no fault: of translation, of alignment on
Device and SO lines, of a page that a plain .b32 load does not reach, or a machine check. -/
def State.handlerLoad (s : State) (core d va : Nat) : Option (List Byte) :=
  ((granules va 4).mapM fun (g : Nat × Nat) => match (s.walk core d false true g.1 0).1 with
    | .fail .. => none
    | .ok pa ty .. =>
      if (decide (ty ≥ 2) && va % 4 != 0) || (s.mcOf ⟨.phys pa, g.2⟩).isSome || aperture pa == some 1 || aperture pa == some 2 then none
      else some (s.rdBytes pa g.2)).map List.flatten

/-- The TVT word of a cause, read as a handler-mode load of the domain (R361). -/
def State.tvtWord (s : State) (core d cause : Nat) : Option Nat :=
  match s.descUse core d with
  | none => none
  | some w => (s.handlerLoad core d (fieldOf w 183 128 + 4 * cause)).map natOfBytes

/-- Where the TVT word of a cause lies, as far as it is mapped (R361). -/
def State.tvtSpans (s : State) (core d cause : Nat) : List Span :=
  match s.descUse core d with
  | none => []
  | some w => (granules (fieldOf w 183 128 + 4 * cause) 4).filterMap fun g => match (s.walk core d false true g.1 0).1 with
    | .ok pa .. => some ⟨.phys pa, g.2⟩
    | .fail .. => none

/-- What the read of a TVT word reads: the descriptor, the walks, the word. -/
def State.tvtReads (s : State) (core d cause : Nat) : List Span :=
  s.descReads core d ++ (match s.descUse core d with
  | none => []
  | some w => (granules (fieldOf w 183 128 + 4 * cause) 4).flatMap fun g => s.walkReads core d g.1 0) ++ s.tvtSpans core d cause

/-- The machine check that the read of a TVT word meets is logged (R358). -/
def State.tvtLog (s : State) (core d cause : Nat) : State :=
  match (s.tvtSpans core d cause).findSome? s.mcOf with
  | some m => s.logMc m.1 m.2.1 m.2.2
  | none => s

/-- The handler address of a trap, when the TVT word is usable and the handler's segment has landed (R361, R363). -/
def State.handlerOf (s : State) (w : Workgroup) (d cause : Nat) : Option Nat :=
  match s.tvtWord w.core d cause with
  | none => none
  | some x =>
    if bitAt x 18 ∧ bits x 19 13 = 0 ∧ s.segLanded w d (bits x 12 6) then some (bits x 0 18) else none

/-- Lanes of the trap that resume, grouped into gangs by resume point (R359, R368). -/
def Workgroup.resumeLanes (w : Workgroup) (hset : Nat) (rs : List Resume) : Workgroup :=
  let live := rs.filter fun r => (w.lane r.lane).live
  let keys := dedup (live.map fun r => (r.kind == 2, r.pc, r.run))
  overList keys w fun w k =>
    let m := maskOfLanes ((live.filter fun r => decide ((r.kind == 2, r.pc, r.run) = k)).map (·.lane))
    let w1 := if k.1 then w.closeRegion (lanesOf hset m) else w
    w1.addGang { (default : Gang) with
      hset := hset, mask := m, ages := List.replicate 8 0
      pc := (match k.2.2 with | some r => r.base | none => k.2.1)
      clause := k.2.2.map fun r => { r with issue := r.issue &&& m, exec := r.exec &&& m }
      park := k.2.2.map fun _ => .resumed }

/-- The registers a handler starts with, and the saved ones (R362). -/
def handlerLane (cause nrec : Nat) (x : Lane) : Lane :=
  { x with
    saved := some { o := x.o, p := x.p, cf := x.cf, fpmode := x.fpmode }
    o := SMap.set (SMap.set [] 0 (BitVec.ofNat 32 cause)) 1 (BitVec.ofNat 32 nrec)
    p := 0
    fpmode := 0 }

/-- Give the saved registers back (R372). -/
def unhandleLane (x : Lane) : Lane :=
  match x.saved with
  | some v => { x with o := v.o, p := v.p, cf := v.cf, fpmode := v.fpmode, saved := none }
  | none => x

/-- Enter the handler of a crew at an address (R359, R362). -/
def Workgroup.enterHandler (w : Workgroup) (ti : TrapIssue) (tc : TrapCrew) (pc : Nat) : Workgroup :=
  let ls := lanesOf ti.hset tc.faulters
  let w1 := overList ls w fun w l => w.updLane l (handlerLane ti.cause tc.recs.length)
  let w2 := match tc.crew with
    | some c => (w1.updCrew c fun x => { x with handler := true }).layEdge (w1.members c)
    | none => w1
  ({ w2 with traps := w2.traps.map fun (x : TrapIssue) => if x.id = ti.id then { ti with cur := some tc } else x }).addGang
    { (default : Gang) with
      hset := ti.hset, pc := pc, mask := tc.faulters, ages := List.replicate 8 0 }

/-- The frame that a crew's part of a trap writes (R364). -/
def Workgroup.writeFrame (w : Workgroup) (ti : TrapIssue) (tc : TrapCrew) : Workgroup :=
  let low := (lanesOf ti.hset tc.faulters).headD 0
  let r := (ti.resume.find? fun r => r.lane == low).getD default
  let q : TrapReq := { cause := ti.cause, faulters := [], fpc := ti.fpc }
  let depth := match tc.crew with | some c => (w.crew c).depth | none => 0
  let hd := frameHeader q tc.recs.length r (w.lane low).rcnt tc.faulters ti.issue (tc.crew.getD 0) depth ti.hset tc.detail
  let fr : TrapFrame := { hdr := SMap.ofList hd, recs := tc.recs }
  { w with frames := w.frames.set (tc.crew.getD 64) fr }

/-- The s31 value of a forced GRET (R353). -/
def forcedS31 (cause : Nat) (policy : Bool) (depth dom : Nat) : Nat :=
  cause + (if policy then 256 else 0) + depth * 512 + dom * 4096

/-- Virtual address of a first fault record, or 0 (R378). -/
def firstVa (recs : List (BitVec 256)) : Nat :=
  match recs with
  | r :: _ => r.toNat % 2 ^ 56
  | [] => 0

/-- The traps whose handler a crew runs, or is about to run. -/
def Workgroup.trapsOf (w : Workgroup) (c : Nat) : List Nat :=
  (w.traps.filter fun x => match x.cur with | some tc => tc.crew == some c | none => false).map (·.id)

/-- Lanes of a gang. -/
def Gang.lanes (g : Gang) : List Nat := lanesOf g.hset g.mask

/-- The crew of a lane waits for a forced GRET (spec/14 R353). -/
def Workgroup.laneForced (w : Workgroup) (l : Nat) : Bool := (w.lane l).crew.any fun c => (w.crew c).forced.isSome

/-- A gang stands at a post that has made its claim and is counted on EN: it completes, as other counted work does, also while a
drain waits for it (spec/12 R289, spec/14 R353). -/
def Workgroup.mustPost (w : Workgroup) (g : Gang) : Bool :=
  (g.clause.any fun r => r.pend.claimed.isSome) && w.crews.any fun c => c.2.flight.any fun i => i.isPost g.id

/-- A lane is held up: its crew runs, or is about to run, the handler of a trap that is not this lane's (spec/15 R359, R360), or
waits for a forced GRET (spec/14 R353). -/
def Workgroup.laneHeld (w : Workgroup) (l : Nat) : Bool :=
  match (w.lane l).crew with
  | none => false
  | some c =>
    w.laneForced l ||
    w.traps.any fun x =>
      (x.todo.any fun tc => tc.crew == some c) ||
      (match x.cur with
        | some tc => tc.crew == some c && !(x.hset == homeOf l && tc.faulters.getLsbD (posOf l))
        | none => false)

/-- A lane of the gang holds a lock. -/
def Workgroup.gangLocked (w : Workgroup) (g : Gang) : Bool := g.lanes.any fun l => (w.lane l).lock.isSome

/-- A gang that issues nothing now: its workgroup waits for its entry segment, is saved, or is being pre-empted while the gang
holds no lock (spec/15 R375, spec/08 R183); or a lane of it is held up. A post that a drain waits for goes on. -/
def Workgroup.gangHeld (w : Workgroup) (g : Gang) : Bool :=
  w.starting.isSome ||
  (match w.life with
    | .resident => false
    | .stopping => !w.gangLocked g && !(w.mustPost g && g.lanes.any w.laneForced)
    | _ => true) ||
  (g.lanes.any w.laneHeld && !w.mustPost g)

/-- Gangs that their crew's trap holds up in the middle of a clause wait for their quadrant to select them again (R359, R360,
spec/02 R25). -/
def Workgroup.parkHeld (w : Workgroup) : Workgroup :=
  { w with gangs := w.gangs.map fun g =>
      if g.clause.isSome ∧ g.park.isNone ∧ w.gangHeld g then { g with park := some .resumed } else g }

/-- A trap's current crew is done: the next crew of the trap takes it, or all lanes of the issue mask resume (R359).
Crews whose trap escalates inside a gate call take the forced GRET, at once when they are drained (R353, R363). While all-bank mode
holds what the read of the TVT word reads, the trap waits with no current crew (spec/13 R324). -/
def State.nextCrew (t id : Nat) : Nat → State → State
  | 0, s => s
  | n + 1, s =>
    let w := s.wg t
    match w.traps.find? fun x => x.id == id with
    | none => s
    | some ti =>
      match ti.todo with
      | [] =>
        s.updWg t fun w => ({ w with traps := w.traps.filter fun x => x.id != id }).resumeLanes ti.hset ti.resume
      | tc :: rest =>
        let ti1 := { ti with todo := rest, cur := some tc }
        let s1 := s.updWg t fun w =>
          ({ w with traps := w.traps.map fun (x : TrapIssue) => if x.id = id then ti1 else x } : Workgroup).writeFrame ti1 tc
        let w1 := s1.wg t
        let dom := match tc.crew with | some c => (w1.crew c).domain | none => w1.domain
        let cr := match tc.crew with | some c => w1.crew c | none => default
        let inHandler := match tc.crew with
          | some _ => cr.handler
          | none => (lanesOf ti.hset tc.faulters).any fun l => (w1.lane l).saved.isSome
        let entry := (w1.gates.get (frameKey (tc.crew.getD 0) (cr.depth - 1))).entry
        let force (s1 : State) (policy : Bool) : State :=
          let c := tc.crew.getD 0
          let s3 := s1.updWg t fun w => w.releaseLocks (w.members c)
          if w1.quiet c then
            overList (w1.trapsOf c) (s3.gateReturn t c (some (forcedS31 ti.cause policy cr.depth dom)))
              fun s k => State.nextCrew t k n s
          else s3.updWg t fun w => w.updCrew c fun x => { x with forced := some (ti.cause, policy) }
        let escalate (s1 : State) : State :=
          if cr.depth > 0 then force s1 false else s1.terminate t ti.cause ti.fpc dom (firstVa tc.recs)
        if inHandler then escalate s1
        else if cr.depth > 0 ∧ gateFld entry 13 13 = 1 then force s1 true
        else if (s.tvtReads w1.core dom ti.cause).any s.held then
          s.updWg t fun w => { w with traps := w.traps.map fun (x : TrapIssue) => if x.id = id then { x with cur := none } else x }
        else
          let s2 := s1.descNeed w1.core dom
          match s2.handlerOf w1 dom ti.cause with
          | some pc => s2.updWg t fun w => w.enterHandler ti1 tc pc
          | none => escalate (s2.tvtLog w1.core dom ti.cause)

/-- Traps that wait to read their TVT word try again (R361, spec/13 R324). -/
def State.resumeTraps (s : State) (t : Nat) : State :=
  match (s.wg t).traps.filter fun x => x.cur.isNone && !x.todo.isEmpty with
  | [] => s
  | xs => (overList xs s fun s x => State.nextCrew t x.id 66 s).updWg t Workgroup.parkHeld

/-- A trap of lanes of one home set, from their resume points: the faulters' intervals end; the crews that hold faulters
take the trap in ascending order, crewless lanes last (R359). -/
def State.startTrap (s : State) (t hset : Nat) (issue : BitVec 32) (resume : List Resume) (q : TrapReq) : State :=
  let w := s.wg t
  let part (c : Option Nat) : Option TrapCrew :=
    let fs := q.faulters.filter fun l => (w.lane l).crew == c
    match fs with
    | [] => none
    | low :: _ => some { crew := c, faulters := maskOfLanes fs, detail := q.detail low, recs := (q.recs fs).take 64 }
  let todo := ((w.crewsOf q.faulters).map some ++ [none]).filterMap part
  let ti : TrapIssue := {
    id := w.nextTrap, hset := hset, issue := issue, fpc := q.fpc, cause := q.cause, resume := resume
    todo := todo, cur := none }
  let w1 := w.endInterval q.faulters
  (State.nextCrew t ti.id 66 (s.setWg t { w1 with traps := w1.traps ++ [ti], nextTrap := w1.nextTrap + 1 })).updWg t Workgroup.parkHeld

/-- TAKE A TRAP (R359): the gang stops; every lane of its issue mask records its resume point; locks of its lanes are
released (R183); then the crews take the trap in turn. -/
def State.takeTrap (s : State) (t gid : Nat) (q : TrapReq) : State :=
  let w := s.wg t
  match w.gang? gid with
  | none => s
  | some g =>
    let issue := match g.clause with | some r => r.issue | none => g.mask
    let ls := lanesOf g.hset issue
    -- a post that has made its claim keeps it, and counts no more until it goes on (spec/12 R295; log 30)
    let q1 := { q with afterClaim := q.afterClaim || g.clause.any fun r => r.pend.claimed.isSome }
    let resume := ls.map fun l => resumeOf g q1 l (w.lane l)
    (s.setWg t (((w.dropGang gid).releaseLocks ls).dropPosts fun i => i.isPost gid)).startTrap t g.hset issue resume q

/-- A crew whose forced GRET waits takes it once it is drained (R353). -/
def State.settleForced (s : State) (t c : Nat) : State :=
  let w := s.wg t
  let cr := w.crew c
  match cr.forced with
  | none => s
  | some (cause, policy) =>
    if w.quiet c then
      overList (w.trapsOf c) (s.gateReturn t c (some (forcedS31 cause policy cr.depth cr.domain)))
        fun s k => State.nextCrew t k 66 s
    else s

/-- Crews of a workgroup whose forced GRET waits take it where they are drained. -/
def State.settleCrews (s : State) (t : Nat) : State := overList (List.range 64) s fun s c => s.settleForced t c

/-- Return from the handler of a trap's current crew (R372): the saved registers come back, HANDLER falls, an armed monitor
counts as fired (spec/25 R460), and the next crew takes the trap or every lane resumes. -/
def State.endHandler (s : State) (t : Nat) (ti : TrapIssue) : State :=
  match ti.cur with
  | none => s
  | some tc =>
    let s1 := s.updWg t fun w =>
      let w1 := overList (lanesOf ti.hset tc.faulters) w fun w l => w.updLane l unhandleLane
      let w2 := match tc.crew with
        | some c => (w1.updCrew c fun x => { x with
            handler := false, monitor := x.monitor.map fun (m : Monitor) => { m with fired := true } }).layEdge (w1.members c)
        | none => w1
      w2.dropLanes (lanesOf ti.hset tc.faulters)
    State.nextCrew t ti.id 66 s1

/-- Lanes that leave their crew leave the traps whose handler they run. -/
def Workgroup.departTraps (w : Workgroup) (ls : List Nat) : Workgroup :=
  let w1 := overList ls w fun w l => w.updLane l fun x => { x with saved := none }
  { w1 with traps := w1.traps.map fun x => { x with
      resume := x.resume.filter fun r => !ls.contains r.lane
      cur := x.cur.map fun tc => { tc with
        faulters := tc.faulters &&& ~~~ (maskOfLanes (ls.filter fun l => homeOf l = x.hset)) } } }

/-- A handler that no lane runs any more is over: the next crew takes the trap (log 8). -/
def State.endEmptyHandlers (s : State) (t : Nat) : State :=
  overList (s.wg t).traps s fun s ti =>
    match ti.cur with
    | some tc => if tc.faulters = 0 then s.endHandler t ti else s
    | none => s

/-- TRET.ABORT, and every other escalation from inside a handler (R363): the crew takes the forced GRET inside a gate
call, and otherwise the workgroup is terminated with the cause the handler runs for. -/
def State.abortHandler (s : State) (t : Nat) (ti : TrapIssue) : State :=
  let w := s.wg t
  match ti.cur with
  | none => s
  | some tc =>
    let dom := match tc.crew with | some c => (w.crew c).domain | none => w.domain
    match tc.crew with
    | some c =>
      if (w.crew c).depth > 0 then
        (s.updWg t fun w => ((w.releaseLocks (w.members c)).updCrew c fun x => { x with forced := some (ti.cause, false) }).parkHeld).settleForced t c
      else s.terminate t ti.cause ti.fpc dom (firstVa tc.recs)
    | none => s.terminate t ti.cause ti.fpc dom (firstVa tc.recs)

end Sys2Proof.Machine
end

