-- ==== Sys2Proof/Machine/Operands.lean ====
section
/-! DEFINITION. Operand forms (spec/03 R59-R63, spec/04 R75-R77): which registers an instruction reads and writes, how a
selector is read by a lane, by a gang's instruction or by an Apprentice's, and how results are written. -/

namespace Sys2Proof

/-! ### Registers an instruction names -/

/-- Registers of one float operand (R119). -/
def fspan (t : FType) : Nat := if t = .f64 then 2 else 1

/-- Registers of a memory element (R172). -/
def wspan : Width → Nat
  | .b64 => 2 | .b128 => 4 | _ => 1

/-- Registers of a result of n bits. -/
def bspan (n : Nat) : Nat := if n ≤ 32 then 1 else 2

/-- Operands in a second-source field. -/
def Src.sels : Src → List (Sel × Nat)
  | .imm _ => []
  | .reg r => [(r, 1)]

/-- An optional selector. -/
def optSel : Option Sel → List (Sel × Nat)
  | none => []
  | some r => [(r, 1)]

/-- The register of a record reference. -/
def RecRef.sels : RecRef → List (Sel × Nat)
  | .imm _ => []
  | .reg r => [(r, 1)]

/-- The registers of an address (R202): offset, then record. -/
def MemAddr.sels : MemAddr → List (Sel × Nat)
  | .off r o => (o, 1) :: r.sels
  | .ptr o => [(o, 2)]

/-- The registers of a segment operand. -/
def SegRef.sels : SegRef → List (Sel × Nat)
  | .imm _ => []
  | .reg r => [(r, 1)]

/-- The registers of a matrix operand (R147, R148). -/
def MOperand.sels : MOperand → List (Sel × Nat)
  | .reg n => [(.v n, 8)]
  | .spad n => [(.s n, 2)]

/-- Registers of an accumulator row (R162). -/
def accSpan (f : AccFmt) : Nat := if f = .fp64 then 16 else 8

/-- Registers of a row of MTRANS (R163). -/
def transSpan : TransWidth → Nat
  | .b8 => 2 | .b16 => 4 | .b32 => 8 | .b64 => 16

/-- Registers of DATA of ATOM (R223). -/
def atomSpan (w : Width) (op : AtomOp) : Nat := wspan w * (if op = .cas then 2 else 1)

/-- Registers read, as (first register, how many), in the order in which their pops are taken (R63): sources A, B, third;
for matrix operations FMT, X1, X2 (R152); for memory operations address before data (log 7). -/
def Instr.reads : Instr → List (Sel × Nat)
  | .mov o => [(o.a, 1)]
  | .movi _ _ _ x => x.sels
  | .movsw _ a => [(a, 1)]
  | .iadd o | .iaddc o | .isub o | .isubb o | .imul o | .imulh o | .idiv o | .irem o | .imin o | .imax o
  | .shl o | .shr o | .sar o | .rot o => [(o.a, 1), (o.b, 1)]
  | .imad o => [(o.a, 1), (o.b, 1), (o.c, 1)]
  | .imadw o => [(o.a, 1), (o.b, 1), (o.c, 2)]
  | .iabs o | .ineg o | .popc o | .clz o | .ctz o | .brev o => [(o.a, 1)]
  | .and o | .or o | .xor o | .andn o => [(o.a, 1), (o.b, 1)]
  | .bfx _ _ _ a c => (a, 1) :: c.sels
  | .bfi _ _ f => match f with
    | .imm d a _ => [(a, 1), (d, 1)]
    | .reg _ a b c => [(a, 1), (b, 1), (c, 1)]
  | .perm _ f => match f with
    | .imm _ a _ => [(a, 1)]
    | .reg _ a b c => [(a, 1), (b, 1), (c, 1)]
  | .icmp _ _ _ a b => (a, 1) :: b.sels
  | .sel _ _ _ _ a b => (a, 1) :: b.sels
  | .vote _ _ _ a => [(a, 1)]
  | .shfl _ _ _ a b => [(a, 1), (b, 1)]
  | .fadd o | .fsub o | .fmul o | .fmin o | .fmax o | .fcopys o | .fdiv o => [(o.a, fspan o.ty), (o.b, fspan o.ty)]
  | .ffma ty _ _ _ a b c => [(a, fspan ty), (b, fspan ty), (c, fspan ty)]
  | .fcmp _ ty _ a b => (a, fspan ty) :: (match b with | .imm _ => [] | .reg r => [(r, fspan ty)])
  | .fclass o | .fsqrt o | .frcp o | .frsq o | .fexp2 o | .flog2 o | .fsin o | .fcos o | .freda o | .fredm o =>
    [(o.a, fspan o.ty)]
  | .fscale o => [(o.a, fspan o.ty), (o.b, 1)]
  | .frnd o _ => [(o.a, fspan o.ty)]
  | .cvt ty _ _ _ a _ _ => [(a, fspan ty)]
  | .cvti ty _ _ _ a _ => [(a, fspan ty)]
  | .cvtf _ _ _ _ a _ => [(a, 1)]
  | .split3 _ _ a => [(a, 1)]
  | .qnt _ _ a b c => [(a, 4), (b, 1), (c, 1)]
  | .dqnt _ _ a b c => [(a, 1), (b, 1), (c, 1)]
  | .smxmerge _ n _ a b => [(a, n + 2), (b, n + 2)]
  | .unpkd _ _ _ a b c => [(a, 1), (b, 1), (c, 1)]
  | .unpkz _ _ _ a => [(a, 1)]
  | .unpkr _ _ _ _ a b c => [(a, 1), (b, 1), (c, 2)]
  | .mma _ a b f | .mmas _ a b f | .mmaz _ a b f => (f, 1) :: (a.sels ++ b.sels)
  | .mmam _ a f x1 _ => (f, 1) :: (x1, 1) :: a.sels
  | .mmax _ a b f x1 x2 => (f, 1) :: (x1, 1) :: (x2, 1) :: (a.sels ++ b.sels)
  | .maccwr f _ _ a => match a with | some n => [(.v n, accSpan f)] | none => []
  | .mtrans w _ _ a => [(.v a, transSpan w)]
  | .lds o | .ldsc o => (o.addr, 1) :: o.off.sels
  | .sts o | .stsc o => (o.addr, 1) :: o.off.sels ++ [(o.d, wspan o.w)]
  | .ldlk _ _ _ _ a off => (a, 1) :: off.sels
  | .stul w _ d a off => (a, 1) :: off.sels ++ [(d, wspan w)]
  | .atoms _ w _ _ a b c => (a, 1) :: (b, wspan w) :: (match c with | some r => [(r, wspan w)] | none => [])
  | .waitc _ a => [(a, 1)]
  | .qpushCommit _ a | .qfree _ a => [(a, 1)]
  | .qinit _ a b => [(a, 1), (b, 1)]
  | .ld _ _ _ _ _ addr _ _ => addr.sels
  | .st w _ _ addr data _ => addr.sels ++ [(data, wspan w)]
  | .ldt o => o.coords.map fun c => (c, 1)
  | .stt o => (o.coords.map fun c => (c, 1)) ++ [(o.data, wspan o.w)]
  | .atom o => (o.off, 1) :: o.rcd.sels ++ [(o.data, atomSpan o.w o.op)]
  | .red o => (o.off, 1) :: o.rcd.sels ++ [(o.data, wspan o.w)]
  | .prefL1 _ r o | .prefL2 _ r o | .prefPagein _ r o => (o, 1) :: r.sels
  | .monitor _ _ _ _ _ r o _ _ => (o, 1) :: r.sels
  | .publish a => [(a, 1)]
  | .pin _ r o _ => (o, 1) :: r.sels
  | .unpin _ r o => (o, 1) :: r.sels
  | .resq _ _ r o _ _ | .resqFetch _ _ r o _ _ => (o, 1) :: r.sels
  | .recset a g => [(a, 1), (.v g, 10)]
  | .recsetReload a | .recsetShape a => [(a, 1)]
  | .binit _ _ _ a b => [(a, 1), (b, 1)]
  | .bexpectReg _ a => [(a, 1)]
  | .barrive _ sib b => optSel sib ++ [(b, 1)]
  | .bwait _ ph => optSel ph
  | .epost _ q i => [(q, 1), (i, 1)]
  | .eseq _ q t => (q, 1) :: optSel t
  | .copy _ _ _ q g => [(q, 1), (.v g, 8)]
  | .swreg _ r i => [(r, 1), (.v i, 3)]
  | .swdereg r e | .swforce r e => [(r, 1), (e, 1)]
  | .swwait r e => (r, 1) :: optSel e
  | .swpos _ r => [(r, 1)]
  | .bri a => [(a, 1)]
  | .excrd _ a => [(a, 1)]
  | .icfetch s | .icfetchDrop s => s.sels
  | .icfetchSpad s a => [(s, 1), (a, 1)]
  | .icfetchGate s x => [(s, 1), (x, 1)]
  | .nodepost _ a => [(.v a, 2)]
  | .join _ _ a b => [(a, 1), (b, 1)]
  | .gcallReg a => [(a, 1)]
  | .xlinvPage a d | .xlinvResidency a d => (.v a, 2) :: optSel d
  | .xlinvDomain d => [(d, 1)]
  | .xlprobe _ a d => (.v a, 2) :: optSel d
  | .astart _ a b => [(a, 1), (b, 1)]
  | .apush _ a => [(a, 1)]
  | .apushVec _ a b | .apushBcld _ a b => [(a, 1), (b, 1)]
  | .vgmv _ a b c => [(a, 1), (b, 1), (c, 2)]
  | .apprenticeLd _ r o => (o, 1) :: r.sels
  | _ => []

/-- A destination under NW. -/
def nwDst (nw : Bool) (d : Sel) (n : Nat) : List (Sel × Nat) := if nw then [] else [(d, n)]

/-- Destination registers, as (first register, how many): those written, or, with `named`, those that a destination
selector names although NW = 1 writes nothing (R53, R74). -/
def Instr.dests (named : Bool) : Instr → List (Sel × Nat)
  | .mov o => nwDst (o.nw && !named) o.d 1
  | .movi _ nw d _ => nwDst (nw && !named) d 1
  | .movs nw d _ => nwDst (nw && !named) d 1
  | .movsWide nw d => nwDst (nw && !named) d 2
  | .iadd o | .iaddc o | .isub o | .isubb o | .imul o | .imulh o | .idiv o | .irem o | .imin o | .imax o
  | .shl o | .shr o | .sar o | .rot o => nwDst (o.nw && !named) o.d 1
  | .imad o => nwDst (o.nw && !named) o.d 1
  | .imadw o => nwDst (o.nw && !named) o.d 2
  | .iabs o | .ineg o | .popc o | .clz o | .ctz o | .brev o => nwDst (o.nw && !named) o.d 1
  | .and o | .or o | .xor o | .andn o => nwDst (o.nw && !named) o.d 1
  | .bfx _ nw d _ _ => nwDst (nw && !named) d 1
  | .bfi _ nw f => match f with
    | .imm d _ _ => nwDst (nw && !named) d 1
    | .reg d _ _ _ => nwDst (nw && !named) d 1
  | .perm nw f => match f with
    | .imm d _ _ => nwDst (nw && !named) d 1
    | .reg d _ _ _ => nwDst (nw && !named) d 1
  | .sel _ nw _ d _ _ => nwDst (nw && !named) d 1
  | .vote _ nw d _ => nwDst (nw && !named) d 1
  | .shfl _ nw d _ _ => nwDst (nw && !named) d 1
  | .fadd o | .fsub o | .fmul o | .fmin o | .fmax o | .fcopys o | .fdiv o | .fscale o => nwDst (o.nw && !named) o.d (fspan o.ty)
  | .ffma ty nw _ d _ _ _ => nwDst (nw && !named) d (fspan ty)
  | .fclass o => nwDst (o.nw && !named) o.d 1
  | .fsqrt o | .frcp o | .frsq o | .fexp2 o | .flog2 o | .fsin o | .fcos o | .freda o | .fredm o =>
    nwDst (o.nw && !named) o.d (fspan o.ty)
  | .frnd o _ => nwDst (o.nw && !named) o.d (fspan o.ty)
  | .cvt ty nw _ d _ t _ => nwDst (nw && !named) d (bspan (ty.count * t.bits))
  | .cvti ty nw _ d _ t => nwDst (nw && !named) d (bspan (ty.count * t.bits))
  | .cvtf ty nw _ d _ t => nwDst (nw && !named) d (bspan (t.count * ty.bits))
  | .split3 nw d _ => nwDst (nw && !named) d 2
  | .qnt nw d _ _ _ => nwDst (nw && !named) d 1
  | .dqnt nw d _ _ _ => nwDst (nw && !named) d 2
  | .smxmerge nw n d _ _ => nwDst (nw && !named) d (n + 2)
  | .unpkd _ nw d a _ _ => nwDst (nw && !named) d 1 ++ [(a, 1)]
  | .unpkz _ nw d a => nwDst (nw && !named) d 1 ++ [(a, 1)]
  | .unpkr _ nw _ d a _ _ => nwDst (nw && !named) d 1 ++ [(a, 1)]
  | .maccrd f _ _ d => [(.v d, accSpan f)]
  | .mtrans w _ d _ => [(.v d, transSpan w)]
  | .lds o | .ldsc o => [(o.d, wspan o.w)]
  | .ldlk w _ _ d _ _ => [(d, wspan w)]
  | .atoms _ w _ d _ _ _ => match d with | some r => [(r, wspan w)] | none => []
  | .qrd _ d | .qpushClaim _ d => [(d, 1)]
  | .ld w _ _ nw _ _ data sr => nwDst (nw && !named) data (wspan w) ++ optSel sr
  | .st _ _ _ _ _ sr => optSel sr
  | .ldt o => nwDst (o.nw && !named) o.data (wspan o.w) ++ optSel o.st
  | .stt o => optSel o.st
  | .atom o => nwDst (o.nw && !named) o.data (wspan o.w) ++ optSel o.st
  | .red o => optSel o.st
  | .monitor w _ _ nw _ _ _ d sr => nwDst (nw && !named) d (wspan w) ++ optSel sr
  | .pin _ _ _ sr => [(sr, 1)]
  | .resq _ _ _ _ d sr | .resqFetch _ _ _ _ d sr => (d, 1) :: optSel sr
  | .btest _ _ d => [(d, 1)]
  | .epost d _ _ | .eseq d _ _ | .copy _ _ d _ _ | .swreg d _ _ | .swpos d _ => [(d, 1)]
  | .excrd d _ => [(d, 1)]
  | .nodepost d _ => [(d, 1)]
  | .join nw d _ _ => nwDst (nw && !named) d 1
  | .xlprobe d _ _ => [(.v d, 2)]
  | .astart d _ _ | .astartStop d | .vgrd _ d => [(d, 1)]
  | .apprenticeLd d _ _ => [(d, 1)]
  | _ => []

/-- Registers written. -/
def Instr.writes (i : Instr) : List (Sel × Nat) := i.dests false

/-- Instructions that leave a latch (R62 and the entries): the integer group, the float group, EXCRD. -/
def Instr.leavesLatch : Instr → Bool
  | .mov _ | .movi .. | .movs .. | .movsWide .. | .movsw .. | .iadd _ | .iaddc _ | .isub _ | .isubb _ | .imul _
  | .imulh _ | .imad _ | .imadw _ | .idiv _ | .irem _ | .imin _ | .imax _ | .iabs _ | .ineg _ | .popc _ | .clz _
  | .ctz _ | .brev _ | .and _ | .or _ | .xor _ | .andn _ | .shl _ | .shr _ | .sar _ | .rot _ | .bfx .. | .bfi ..
  | .perm .. | .icmp .. | .sel .. | .plop .. | .vote .. | .shfl .. => true
  | .fadd _ | .fsub _ | .fmul _ | .ffma .. | .fmin _ | .fmax _ | .fcopys _ | .fcmp .. | .fclass _ | .fdiv _
  | .fsqrt _ | .frcp _ | .frsq _ | .fexp2 _ | .flog2 _ | .fsin _ | .fcos _ | .fscale _ | .frnd .. | .cvt ..
  | .cvti .. | .cvtf .. | .split3 .. | .qnt .. | .dqnt .. | .smxmerge .. | .freda _ | .fredm _ | .unpkd ..
  | .unpkz .. | .unpkr .. => true
  | .excrd .. => true
  | _ => false

/-- Cross-lane instructions (R42, R137, R138). -/
def Instr.crossLane : Instr → Bool
  | .vote .. | .shfl .. | .freda _ | .fredm _ | .unpkd .. | .unpkz .. | .unpkr .. => true
  | _ => false

/-- Terminal instructions (R49). -/
def Instr.terminal : Instr → Bool
  | .bra .. | .call .. | .jmpf .. | .bri _ | .ret | .trap _ | .tret | .tretAbort | .mcall .. | .gcall _ | .gcallReg _
  | .gret | .join .. | .leave | .regang | .yield | .exit => true
  | _ => false

/-- True for a uniform register. -/
def Sel.isS : Sel → Bool
  | .s _ => true
  | _ => false

end Sys2Proof

namespace Sys2Proof.Machine

open Sys2Proof

/-! ### Reading selectors -/

/-- How a source is read: as an integer of a TYPE, in a floating-point TYPE, as a run of registers, or as an immediate.
The Nat is the number of registers (R61, R64, R119). -/
inductive Opd where
  | int (t : IType) (r : Sel)
  | flt (t : FType) (r : Sel)
  | pair (r : Sel)
  | imm (w : Dword)
  deriving DecidableEq, Repr

/-- A second source: its immediate, or a selector read as an integer. -/
def srcOpd (t : IType) : Src → Opd
  | .imm w => .imm (w.setWidth 64)
  | .reg r => .int t r

/-- The integer of an inline constant that fills every element of a TYPE (R61); none for a register. -/
def constInt (t : IType) (lane cs : Nat) (r : Sel) : Option Nat :=
  let fill (x : Nat) : Nat := packElems t.bits (List.replicate (32 / t.bits) (x % 2 ^ t.bits))
  match r with
  | .zero => some 0
  | .one => some (fill 1)
  | .negOne => some (2 ^ 32 - 1)
  | .half => some 0
  | .two => some (fill 2)
  | .laneIdx => some (fill lane)
  | .sliceIdx => some (fill (lane / 4))
  | .crewSize => some (fill cs)
  | _ => none

/-- The encoding of an inline constant in a floating-point TYPE, in every element (R61); none for a register. -/
def constFlt (t : FType) (r : Sel) : Option Nat :=
  let f := ftFmt t
  let enc (neg : Bool) (m : Nat) (e : Int) : Nat := (f.round .rne neg m e).bits
  let fill (x : Nat) : Nat := if t.bits = 16 then x + 65536 * x else x
  match r with
  | .zero => some 0
  | .one => some (fill (enc false 1 0))
  | .negOne => some (fill (enc true 1 0))
  | .half => some (fill (enc false 1 (-1)))
  | .two => some (fill (enc false 1 1))
  | _ => none

/-- A register code: v n is n, o n is 256 + n (used by loads in flight, R174). -/
def regCode : Sel → Option Nat
  | .v n => some n
  | .o n => some (256 + n)
  | _ => none

/-- A main or small register of a lane. -/
def Lane.reg (x : Lane) (code : Nat) : Word := if code < 256 then x.v.get code else x.o.get (code - 256)

/-- Write a main or small register. -/
def Lane.setReg (x : Lane) (code : Nat) (w : Word) : Lane :=
  if code < 256 then { x with v := x.v.set code w } else { x with o := x.o.set (code - 256) w }

/-- The destination registers of a load in a lane. -/
def FlightOp.dests (op : FlightOp) (stat : Option (Sel × List (Nat × Nat))) (l : Nat) : List Nat :=
  let codes (d : Sel) (n : Nat) : List Nat := match regCode d with
    | some c => (List.range n).map (c + ·)
    | none => []
  (match stat with
    | some (d, vs) => if vs.any (fun x => x.1 == l) then codes d 1 else []
    | none => []) ++
  match op with
  | .load w (some d) lanes _ =>
    if lanes.any (fun x => x.lane == l) then codes d (wspan w) else []
  | .atomic _ w (some d) lanes =>
    if lanes.any (fun x => x.lane == l) then codes d (wspan w) else []
  | _ => []

/-- The registers of a lane that are pending for an item, of its own crew's count. -/
def FlightItem.destOf (i : FlightItem) (l : Nat) : List Nat := (i.dest.filter fun x => x.1 == l).map (·.2)

/-- The items in flight of a workgroup for which a register of a lane is pending (R174). -/
def Workgroup.pendingItems (w : Workgroup) (l code : Nat) : List FlightItem :=
  w.crews.flatMap fun c => c.2.flight.filter fun i => (i.destOf l).contains code

/-- The old value of a register that an item keeps. -/
def FlightItem.oldOf (i : FlightItem) (l code : Nat) : Option Word :=
  (i.olds.find? fun x => x.1 == l && x.2.1 == code).map (·.2.2)

/-- A register as a lane reads it (R174): while a load to it is in flight, its value before the load, or, once the load
has landed and is not yet counted complete, either value, by the free bit `k`. Until the load lands, a value that another
instruction has written meanwhile is read (DEDUCED, log 6). -/
def State.readReg (s : State) (w : Workgroup) (l code k : Nat) : Word :=
  let cur := (w.lane l).reg code
  match (w.pendingItems l code).find? fun i => i.done with
  | none => cur
  | some i => match i.oldOf l code with
    | none => cur
    | some old => if old = cur then cur else if Config.freeBool (s.free + k) then old else cur

/-- The latch a selector names: the value in a lane, zero outside the producer's execute mask (R62). -/
def latchRead (ls : List Latch) (word l : Nat) : Dword :=
  match ls.find? fun x => x.word == word with
  | some x => if x.mask.getLsbD (posOf l) then x.vals.get (posOf l) else 0
  | none => 0

/-- Everything an instruction of a gang reads its operands from: the state, the gang, the clause, the index of its first
word, the lanes of the execute mask, and the queue entries it pops, in order. -/
structure Env where
  s : State
  t : Nat
  w : Workgroup
  g : Gang
  run : ClauseRun
  word : Nat
  latches : List Latch
  ls : List Nat
  iss : List Nat
  pops : List ApprEntry
  deriving Repr, Inhabited

/-- The crew of a lane, for uniform registers. -/
def Env.crewOf (e : Env) (l : Nat) : Option Nat := (e.w.lane l).crew

/-- A uniform register as an issue reads it: a write of the current cycle is not seen in it (spec/04 R76). -/
def Crew.sRead (c : Crew) (n : Nat) : Word := ((c.old.find? fun x => x.1 == n).map (·.2)).getD (c.s.get n)

/-- The uniform registers as an issue reads them. -/
def Crew.sBefore (c : Crew) : SMap Word := overList c.old.reverse c.s fun m p => m.set p.1 p.2

/-- The register k of a selector as a lane reads it; `j` is the number of pops taken before it, `i` the operand's index
(used to number free bits). -/
def Env.word32 (e : Env) (l : Nat) (r : Sel) (k j i : Nat) : Word :=
  match r with
  | .v n => e.s.readReg e.w l (n + k) (4096 * (i + k) + l)
  | .o n => e.s.readReg e.w l (256 + n + k) (4096 * (i + k) + l)
  | .s n => match e.crewOf l with
    | some c => (e.w.crew c).sRead (n + k)
    | none => 0
  | .x n => ((latchRead e.latches (e.word - (n + 1)) l) >>> (32 * k)).setWidth 32
  | .a _ =>
    let q := e.pops.getD j default
    if q.vec then q.data.get (l % 32) else q.data.get 0
  | _ => 0

/-- Crew size of R19. -/
def Env.crewSize (e : Env) (l : Nat) : Nat :=
  match e.crewOf l with
  | some c => (e.w.members c).length
  | none => 0

/-- An operand's value, up to 64 bits. -/
def Env.opd (e : Env) (l : Nat) (o : Opd) (j i : Nat) : Dword :=
  match o with
  | .imm w => w
  | .int t r => match constInt t l (e.crewSize l) r with
    | some x => BitVec.ofNat 64 x
    | none => (e.word32 l r 0 j i).setWidth 64
  | .flt t r => match constFlt t r with
    | some x => BitVec.ofNat 64 x
    | none =>
      if t = .f64 then
        (match r with
          | .x n => latchRead e.latches (e.word - (n + 1)) l
          | _ => (e.word32 l r 1 j i) ++ (e.word32 l r 0 j i))
      else (e.word32 l r 0 j i).setWidth 64
  | .pair r => match r with
    | .zero => 0
    | _ => (e.word32 l r 1 j i) ++ (e.word32 l r 0 j i)

/-- True when an operand pops a queue. -/
def Opd.isPop : Opd → Bool
  | .int _ (.a _) => true
  | .flt _ (.a _) => true
  | _ => false

/-- The operands of a lane in order, with `j` pops taken and `i` operands before them. -/
def Env.opds (e : Env) (l : Nat) : List Opd → Nat → Nat → List Dword
  | [], _, _ => []
  | o :: t, j, i => e.opd l o j i :: e.opds l t (if o.isPop then j + 1 else j) (i + 4)

/-- A plain integer operand of the lowest lane or of a lane, when it is operand number j among the pops. -/
def Env.int32 (e : Env) (l : Nat) (r : Sel) (j i : Nat) : Word := (e.opd l (.int .u32 r) j i).setWidth 32

/-- A run of n registers of a lane, lowest first; constants are read as integers. -/
def Env.regs (e : Env) (l : Nat) (r : Sel) (n j i : Nat) : List Word :=
  if n = 1 then [e.int32 l r j i] else (List.range n).map fun k => e.word32 l r k j i

/-! ### Writing results -/

/-- A write to a register: where a load to it is in flight, a free bit decides whether the written value or the loaded one
stands when the load is counted complete (R174). -/
def Workgroup.writeReg (w : Workgroup) (free l code : Nat) (v : Word) : Workgroup :=
  let ps := w.pendingItems l code
  let late := ps.any (fun i => i.done) && Config.freeBool (free + 524288 + code * 512 + l)
  let w1 := if late then w else w.updLane l fun x => x.setReg code v
  match ps with
  | [] => w1
  | _ =>
    let ids := (ps.filter fun i => !i.done).map (·.id)
    let mark (i : FlightItem) : FlightItem :=
      if ids.contains i.id && Config.freeBool (free + 262144 + code * 512 + l) then
        { i with skip := (l, code) :: i.skip }
      else i
    { w1 with crews := w1.crews.map fun c => (c.1, { c.2 with flight := c.2.flight.map mark }) }

/-- Write a result of n registers to a selector in the lanes given with their values (R75, R76): a uniform register takes
the value of the highest lane. -/
def Workgroup.writeSel (w : Workgroup) (free : Nat) (d : Sel) (vals : List (Nat × List Word)) : Workgroup :=
  match d with
  | .s n =>
    match vals.getLast? with
    | none => w
    | some (l, ws) => match (w.lane l).crew with
      | some c => w.updCrew c fun x => { x with
          s := overList ws.zipIdx x.s fun m p => m.set (n + p.2) p.1
          old := overList ws.zipIdx x.old fun m p => if m.any (fun y => y.1 == n + p.2) then m else (n + p.2, x.s.get (n + p.2)) :: m }
      | none => w
  | _ => match regCode d with
    | none => w
    | some c => overList vals w fun w p =>
        overList p.2.zipIdx w fun w q => w.writeReg free p.1 (c + q.2) q.1

/-- Split a 64-bit result into n registers. -/
def splitWords (n : Nat) (x : Dword) : List Word :=
  if n = 1 then [x.setWidth 32] else [x.setWidth 32, (x >>> 32).setWidth 32]

/-- The lanes that fault a crew check of an instruction that reads a uniform register (R29, R76). -/
def Env.crewless (e : Env) : List Nat := e.ls.filter fun l => (e.crewOf l).isNone

/-- True when the lanes of the execute mask belong to more than one crew. -/
def Env.mixed (e : Env) : Bool := decide ((e.w.crewsOf e.ls).length > 1)

/-- The crew of the execute mask. -/
def Env.crew? (e : Env) : Option Nat := match e.ls with | [] => none | l :: _ => e.crewOf l

/-- The queues that an instruction pops, in order (R63). -/
def popQueues (rs : List (Sel × Nat)) : List Nat :=
  rs.filterMap fun p => match p.1 with | .a n => some n | _ => none

end Sys2Proof.Machine
end

