-- ==== Sys2Proof/Machine/Access.lean ====
section
/-! DEFINITION. The path of an access through a buffer record (spec/09 R196-R219, spec/14 R338-R342), the record a trap
reports of it, the residency request (R216), and race detection (spec/10 R249-R254). -/

namespace Sys2Proof.Machine

open Sys2Proof

/-! ### Buffer records (R198-R201) -/

/-- The 320 bits of a record, or the 512 of a shape record, as one number. -/
def recBits (ws : List Word) : Nat := packElems 32 (ws.map BitVec.toNat)

def rBase (r : Nat) : Nat := bits r 0 56
def rKind (r : Nat) : Nat := bits r 56 3
def rPagein (r : Nat) : Bool := bitAt r 61
def rShadow (r : Nat) : Nat := bits r 64 56
def rGen (r : Nat) : Bool := bitAt r 120
def rShen (r : Nat) : Bool := bitAt r 121
def rExtent (r : Nat) : Nat := bits r 128 40
def rEsize (r : Nat) : Nat := bits r 168 3
def rStride (r : Nat) : Nat := bits r 171 21
def rSwz (r : Nat) : Nat := bits r 192 4
def rBperm (r : Nat) : Nat := bits r 196 4
def rSenc (r : Nat) : Nat := bits r 200 3
def rIlv (r : Nat) : Bool := bitAt r 203
def rDcw (r : Nat) : Nat := bits r 204 3
def rRfmt (r : Nat) : Nat := bits r 208 3
def rSmode (r : Nat) : Nat := bits r 224 2
def rBlklog (r : Nat) : Nat := bits r 226 4
def rSptr (r : Nat) : Nat := bits r 230 26
def rAux (r : Nat) : Nat := bits r 256 32
def rDtag (r : Nat) : Nat := bits r 288 12
def rChecked (r : Nat) : Bool := bitAt r 300
def rSword (r : Nat) : Bool := bitAt r 301
def rRgen (r : Nat) : Nat := bits r 302 8

/-- Base of the live generation (R203). -/
def rLive (r : Nat) : Nat := if rShen r ∧ rGen r then rShadow r else rBase r

/-- log2 of the tile of a paged record (R198). -/
def rTile (r : Nat) : Nat := bits r 278 4 + 10

/-- The first row of R200 but for the index: a record whose fields keep R198, R199 and, for KIND 5, R301. Record 0 of a
node without a private window has WSIZE 0. -/
def recFormat (zeroOk : Bool) (r : Nat) : Bool :=
  let k := rKind r
  let noGen := rShadow r == 0 && !rGen r && !rShen r
  let noStr := rEsize r == 0 && rStride r == 0
  let noSwz := rSwz r == 0 && rBperm r == 0
  let wsize := (zeroOk || rAux r != 0) && rAux r % 16 == 0
  bitAt r 59 && k != 7 && decide (rEsize r ≤ 4) && decide (rSwz r ≤ 3) && decide (rSenc r ≤ 4) &&
  decide (rRfmt r ≤ 3) && decide (rSmode r ≤ 1) &&
  ((rSenc r == 0) == (rRfmt r == 0)) &&
  !(rSenc r == 4 && (rSmode r == 1 || rIlv r)) && !(rSmode r == 1 && rIlv r) &&
  (!(rSmode r == 1 || rIlv r) || (decide (4 ≤ rBlklog r) && decide (rBlklog r ≤ 10))) &&
  (match k with
    | 0 => noStr && rAux r == 0
    | 1 => noSwz && rAux r == 0
    | 2 => noGen && noStr && bits r 282 6 == 0 && decide (rTile r ≤ 22)
    | 3 => rExtent r == 0 && noGen && noStr && noSwz && wsize
    | 4 => noGen && noStr && noSwz && wsize
    | 5 => bits r 0 16 == 0 && rExtent r == 65536 && bits r 266 22 == 0 && noGen && noStr && noSwz && rSenc r == 0 &&
        !rIlv r && rDcw r == 0 && rRfmt r == 0 && rSmode r == 0 && rBlklog r == 0 && rSptr r == 0 && !rPagein r &&
        !rChecked r && !rSword r
    | 6 => rExtent r == 0 && noGen && noStr && noSwz && wsize
    | _ => false)

/-- The first row of R200 that a record breaks, as its place in the table and its cause. MMAM answers MATRIX_OPERAND to every record
that it does not accept, as R158 says of it, a bank-direct one among them, where R303 says RECORD_KIND (DEDUCED, log 16). -/
def recCheck (sp : AccSpec) (super : Bool) (dom i r : Nat) : Option (Nat × Nat) :=
  if recFormat (i == 0) r = false then some (1, 0x20)
  else if rDtag r ≠ dom ∨ (rKind r = 4 ∧ super = false) then some (2, 0x23)
  else if sp.column ∧ (rKind r > 1 ∨ rSenc r ≠ 0) then some (3, 0x53)
  else if rKind r = 5 ∧ sp.bank = false then some (3, 0x21)
  else if (sp.noSenc ∧ rSenc r ≠ 0) ∨ (sp.paged ∧ rKind r ≠ 2) then some (3, 0x21)
  else if sp.write ∧ bitAt r 60 = false then some (4, 0x2A)
  else none

/-- A shape record that keeps R201. Its reserved bits read as zero (spec/00 R5; DEDUCED: log 17). -/
def shapeFormat (ws : List Word) : Bool :=
  let x := recBits ws
  let rank := bits x 0 3
  rank != 0 && (List.range 7).all fun d => decide (d < rank) || bits x (32 + 32 * d) 32 == 0

/-! ### What an access finds of one lane -/

/-- A granule that a lane touched, as R342 reports it: first byte, cause of its own walk or 0, level, entry, domain,
whether W was needed. -/
structure Gran where
  va : Nat
  cause : Nat
  level : Nat
  pte : Dword
  dom : Nat
  wr : Bool
  deriving DecidableEq, Repr, Inhabited

/-- Bytes of one granule and where they lie. -/
structure Piece where
  va : Nat
  pa : Nat
  len : Nat
  ty : Nat
  deriving DecidableEq, Repr, Inhabited

/-- A lane that faults: place of its cause in the rank of R205 and R338, cause, record, offset, granules. -/
structure LaneFault where
  lane : Nat
  rank : Nat
  cause : Nat
  idx : Nat
  off : Nat
  grans : List Gran
  deriving DecidableEq, Repr, Inhabited

/-- A lane that does not fault: its record, offset, status (R206); the bytes of a plain element, the storage bytes and
elements of a converted one; the map entry read; what the core's caches take of the access. -/
structure LaneAcc where
  lane : Nat
  idx : Nat
  off : Nat
  dom : Nat
  rcd : Nat
  status : Nat
  pieces : List Piece
  conv : List ConvElem
  map : Option (Nat × Nat × Dword)
  tlb : List TlbEntry
  load : Option RecEntry
  deriving DecidableEq, Repr, Inhabited

/-- Places of the translation causes after those of R205 (R338). -/
def xlRank (cause : Nat) : Nat :=
  match cause with
  | 0x34 => 8 | 0x33 => 9 | 0x30 => 10 | 0x32 => 11 | _ => 12

/-- Translate ranges of bytes under a domain: a granule and, where mapped, a piece for each, with the entries used. -/
def State.xlate (s : State) (core d : Nat) (wr handler : Bool) (k : Nat) (ranges : List (Nat × Nat)) :
    List (Gran × Option Piece × List TlbEntry) :=
  (ranges.flatMap fun r => granules r.1 r.2).map fun g =>
    let r := s.walk core d wr handler g.1 k
    match r.1 with
    | .fail c lv e => (⟨g.1, c, lv, e, d, wr⟩, none, [])
    | .ok pa ty _ _ lv _ e => (⟨g.1, 0, lv, e, d, wr⟩, some ⟨g.1, pa, g.2, ty⟩, r.2)

/-- Physical address of the first byte of translated pieces. -/
def firstPa (ps : List Piece) : Nat := (ps.headD default).pa

/-- The cause that ranks first among granules (R338). -/
def worstGran (l : List Gran) : Option Nat :=
  [0x34, 0x33, 0x30, 0x32, 0x31].find? fun c => l.any fun g => g.cause == c

/-- The record of a lane's crew at an index (R197, R211, R351): its sixteen words and what the cache takes; or the cause
and the granules of a callee record that cannot be read, or whose domain's descriptor counts as VALID = 0 when a field of it is
needed (spec/14 R333). -/
def State.recGet (s : State) (w : Workgroup) (c i k : Nat) : Except (Nat × List Gran) (List Word × Option RecEntry) :=
  let cr := w.crew c
  let cached (key : RecKey) : Option RecEntry :=
    (s.core w.core).recs.find? fun e => e.key == key && !e.shape && e.idx == i
  if cr.depth = 0 then
    if i ≥ w.nrec then .error (0x20, []) else
    match cached (.node w.node) with
    | some e => .ok (e.words, none)
    | none => .error (0x20, [])
  else
    let dw := (s.descUse w.core cr.domain).getD (s.descMem cr.domain)
    let gone : Option (List Gran) := if (s.descUse w.core cr.domain).isNone then
        some ((s.xlate w.core cr.domain false true k [(fieldOf dw 375 320 + 64 * i, 64)]).map (·.1)) else none
    if gone.isSome ∧ (i = 0 ∨ (cached (.domain cr.domain)).isNone) then .error (0x30, gone.getD [])
    else if i = 0 then
      let stack := gateFld (w.gates.get (frameKey c (cr.depth - 1))).entry 223 192
      if stack = 0 then .error (0x20, []) else
      let r := fieldOf dw 639 576 % 2 ^ 56 + 3 * 2 ^ 56 + 2 ^ 59 + 2 ^ 60 + stack * 2 ^ 256 + cr.domain * 2 ^ 288
      .ok ((List.range 16).map fun n => BitVec.ofNat 32 (bits r (32 * n) 32), none)
    else if gone.isNone ∧ i ≥ fieldOf dw 383 376 + 1 then .error (0x20, []) else
    match cached (.domain cr.domain) with
    | some e => .ok (e.words, none)
    | none =>
      let x := s.xlate w.core cr.domain false true k [(fieldOf dw 375 320 + 64 * i, 64)]
      match worstGran (x.map (·.1)) with
      | some c => .error (c, x.map (·.1))
      | none =>
        let ws := wordsLE (x.flatMap fun p => match p.2.1 with | some q => s.rdBytes q.pa q.len | none => [])
        .ok (ws, some ⟨.domain cr.domain, false, i, ws, firstPa (x.filterMap (·.2.1))⟩)

/-- A shape record (R196, R351), in the same way. -/
def State.shapeGet (s : State) (w : Workgroup) (c h k : Nat) : Except (Nat × List Gran) (List Word × Option RecEntry) :=
  let cr := w.crew c
  let cached (key : RecKey) : Option RecEntry :=
    (s.core w.core).recs.find? fun e => e.key == key && e.shape && e.idx == h
  if cr.depth = 0 then
    if h ≥ w.nshape then .error (0x20, []) else
    match cached (.node w.node) with
    | some e => .ok (e.words, none)
    | none => .error (0x20, [])
  else
    let dw := (s.descUse w.core cr.domain).getD (s.descMem cr.domain)
    if (s.descUse w.core cr.domain).isSome ∧ h ≥ fieldOf dw 446 440 then .error (0x20, []) else
    match cached (.domain cr.domain) with
    | some e => .ok (e.words, none)
    | none =>
      let x := s.xlate w.core cr.domain false true k [(fieldOf dw 439 384 + 64 * h, 64)]
      match worstGran (x.map (·.1)) with
      | some c => .error (c, x.map (·.1))
      | none =>
        let ws := wordsLE (x.flatMap fun p => match p.2.1 with | some q => s.rdBytes q.pa q.len | none => [])
        .ok (ws, some ⟨.domain cr.domain, true, h, ws, firstPa (x.filterMap (·.2.1))⟩)

/-- The offset after swizzle and bank permutation (R203). -/
def swizzle (r o : Nat) : Nat :=
  let s := rSwz r
  let o1 := if s = 0 then o else putBits o 4 s (xorNat (bits o 4 s) (bits o 7 s))
  overList (List.range 4) o1 fun x i =>
    if bitAt (rBperm r) i then putBits x (10 + i) 1 (xorNat (bits o (10 + i) 1) (bits o (14 + i) 1)) else x

/-- The thread number of a private window (R211, R351). -/
def threadOf (t : Nat) (w : Workgroup) (depth i l : Nat) : Nat :=
  if i = 0 ∧ depth > 0 then (t * 512 + l) * 4 + depth - 1 else 512 * w.inst + l

/-- The virtual address of offset o for a lane, but for a paged record (R203). -/
def accAddr (t : Nat) (w : Workgroup) (depth i l r o : Nat) : Nat :=
  let o2 := swizzle r o
  match rKind r with
  | 1 => rLive r + o2 / 2 ^ rEsize r * rStride r + o2 % 2 ^ rEsize r
  | 3 => rBase r + threadOf t w depth i l * rAux r + o
  | 6 => rBase r + w.inst * rAux r + o
  | _ => rLive r + o2

/-- The limit of a record (R203). -/
def recLimit (r : Nat) : Nat := if rKind r = 3 ∨ rKind r = 6 then rAux r else rExtent r

/-- Virtual address of the map entry of a tile (R214). -/
def mapVa (r o : Nat) : Nat := rBase r + 4096 * bits r 256 22 + 8 * (o / 2 ^ rTile r)

/-- Status of a map entry (R215). -/
def mapStatus (e : Nat) : Nat :=
  match bits e 0 3 with
  | 0 => if bitAt e 3 then 1 else 2
  | 1 => 5
  | 2 => 0
  | 3 => 0
  | 4 => 3
  | 5 => 4
  | _ => 2

/-- A map entry as a core uses it (R219): the one it holds, or the home's; the one it holds while all-bank mode holds the home (spec/13
R324). -/
def State.mapUse (s : State) (core d va pa : Nat) : Nat :=
  let home := s.rdNat pa 8
  match (s.core core).maps.find? fun m => m.domain == d && m.va == va with
  | none => home
  | some m => if s.held ⟨.phys pa, 8⟩ || Config.freeBool (s.free + 1048576 + va / 8 % 65536) then m.val.toNat else home

/-- Bits per storage element (R210). -/
def storeBits (r : Nat) : Nat := match rSenc r with | 3 => 4 | 4 => rDcw r + 1 | _ => 8

/-- The virtual byte ranges of storage element e of an array at `base` (R210): the element's bytes, its first bit in them,
its scale's or its dictionary's bytes. `ge` numbers the element over the whole record: it differs from e in a paged
record, whose tiles each hold an array. With SHEN = 1 and GEN = 1 the array, its scales and its dictionary lie in the live
generation (DEDUCED, log 18). -/
def storageOf (r base e ge : Nat) : (Nat × Nat) × Nat × List (Nat × Nat) :=
  let s := storeBits r
  let b := 2 ^ rBlklog r
  let blk := e / b
  let start := if rIlv r then base + blk * (b * s / 8 + 4) else base
  let pos := if rIlv r then e % b * s else e * s
  let lo := pos / 8
  let hi := (pos + s + 7) / 8
  let scale :=
    if rIlv r then [(start + b * s / 8, 4)]
    else if rSmode r = 1 then [(rLive r + 64 * rSptr r + 4 * (ge / b), 4)]
    else if rSenc r = 4 then [(rLive r + 64 * rSptr r, 4 * 2 ^ (rDcw r + 1))]
    else []
  ((start + lo, hi - lo), pos % 8, scale)

/-- Bytes of a register element of RFMT (R209). -/
def rfmtBytes (r : Nat) : Nat := if rRfmt r = 1 then 4 else 2

/-- A range of translated bytes as spans. -/
def spansOf (ps : List Piece) : List Span := ps.map fun p => ⟨.phys p.pa, p.len⟩

/-- The aperture faults of one piece for a record and an access: DM_ALIGN of a device type (R204, R440), MEM_TYPE (R225,
R301). -/
def pieceFault (sp : AccSpec) (r off : Nat) (p : Piece) : Option (Nat × Nat) :=
  let ap := aperture p.pa
  if p.ty ≥ 2 ∧ off % sp.z ≠ 0 then some (5, 0x22)
  else if (ap = some 2 ∧ sp.z ≠ 8) ∨ (ap = some 3 ∧ sp.write ∧ sp.z ≠ 8) then some (5, 0x22)
  else if sp.mon ∧ p.ty ≥ 2 then some (7, 0x27)
  else if (rKind r = 5) ≠ (ap = some 1) then some (7, 0x27)
  else if rKind r = 5 ∧ (p.ty ≠ 2 ∨ bits p.pa 16 10 ≠ bits r 256 10) then some (7, 0x27)
  else none

/-- First fault by place in the rank. -/
def lowestFault (l : List (Nat × Nat)) : Option (Nat × Nat) :=
  l.foldl (fun m x => match m with | some y => if x.1 < y.1 then some x else some y | none => some x) none

/-- One lane's access (R203): the record and its checks, the limit, alignment, the address, translation. `stat` says
that statuses are written (ST = 1). A TYPE narrower than an element of a converted load (R209) ranks as DM_ALIGN does, before the
limit (DESIGN CHOICE, log 75). -/
def State.resolve (s : State) (t : Nat) (sp : AccSpec) (stat : Bool) (q : LaneReq) : LaneFault ⊕ LaneAcc :=
  let w := s.wg t
  let l := q.lane
  let fail (rank cause : Nat) (g : List Gran) : LaneFault ⊕ LaneAcc := .inl ⟨l, rank, cause, q.idx, q.off, g⟩
  match (w.lane l).crew with
  | none => fail 0 0x6D []
  | some c =>
    let cr := w.crew c
    let dom := cr.domain
    let super := match s.descUse w.core dom with | some d => descSuper d | none => false
    let k := 8 * l
    match s.recGet w c q.idx k with
    | .error (cause, g) => fail (if cause = 0x20 then 1 else xlRank cause) cause g
    | .ok (ws, ld) =>
      let r := recBits ws
      match recCheck sp super dom q.idx r with
      | some (rank, cause) => fail rank cause []
      | none =>
        let z := sp.z
        let o := q.off
        let acc (st : Nat) (ps : List Piece) (cv : List ConvElem) (m : Option (Nat × Nat × Dword)) (tl : List TlbEntry) :
            LaneFault ⊕ LaneAcc := .inr ⟨l, q.idx, o, dom, r, st, ps, cv, m, tl, ld⟩
        let conv := rSenc r != 0
        if conv && decide (z < rfmtBytes r) then fail 5 0x03 []
        else if q.clipped ∨ (o + z > recLimit r ∧ (sp.column = false ∨ o ≥ recLimit r)) then acc 6 [] [] none []
        else if (o % z ≠ 0 ∧ (sp.strict ∨ rSwz r ≠ 0 ∨ rBperm r ≠ 0 ∨ rKind r = 2 ∨ conv)) ∨
            (rKind r = 1 ∧ o % 2 ^ rEsize r + z > 2 ^ rEsize r) ∨ (rKind r = 4 ∧ o % rAux r + z > rAux r) then
          fail 5 0x22 []
        else
          let z := if sp.column then min z (recLimit r - o) else z
          -- the plain address, and what a paged record's map entry says
          let viaMap : (LaneFault ⊕ LaneAcc) ⊕ (Nat × Option (Nat × Nat × Dword) × List TlbEntry) :=
            if rKind r ≠ 2 then .inr (accAddr t w cr.depth q.idx l r o, none, [])
            else
              let mv := mapVa r o
              let x := s.xlate w.core dom false cr.handler (k + 5) [(mv, 8)]
              match worstGran (x.map (·.1)) with
              | some cause => .inl (fail (xlRank cause) cause (x.map (·.1)))
              | none =>
                let ps := x.filterMap (·.2.1)
                match ps with
                | [] => .inl (fail 7 0x27 [])
                | p :: _ =>
                  if p.ty ≠ 0 then .inl (fail 7 0x27 []) else
                  let e := s.mapUse w.core dom mv p.pa
                  let st := mapStatus e
                  let m := some (mv, p.pa, BitVec.ofNat 64 e)
                  let tl := x.flatMap (·.2.2)
                  if st = 0 then .inr (rBase r + bits e 16 32 * 2 ^ rTile r + swizzle r o % 2 ^ rTile r, m, tl)
                  else if stat = false ∧ (st = 2 ∨ st = 3 ∨ st = 4 ∨ (st = 1 ∧ rPagein r = false)) then
                    .inl (fail 6 0x24 [])
                  else .inl (acc st [] [] m tl)
          match viaMap with
          | .inl x => x
          | .inr (va, m, tl0) =>
            if conv then
              let es := (List.range (z / rfmtBytes r)).map fun j =>
                let ge := o / rfmtBytes r + j
                if rKind r = 2 then storageOf r (va - swizzle r o % 2 ^ rTile r) (o % 2 ^ rTile r / rfmtBytes r + j) ge
                else storageOf r (rLive r) ge ge
              let ranges := es.flatMap fun e => e.1 :: e.2.2
              let x := s.xlate w.core dom sp.write cr.handler (k + 5) ranges
              let gs := x.map (·.1)
              match lowestFault (x.filterMap fun p => p.2.1.bind (pieceFault { sp with z := 1 } r 0)), worstGran gs with
              | some (rank, cause), _ => fail rank cause []
              | none, some cause => fail (xlRank cause) cause gs
              | none, none =>
                let elem (e : (Nat × Nat) × Nat × List (Nat × Nat)) : ConvElem :=
                  let tr (l : List (Nat × Nat)) : List Span :=
                    spansOf ((s.xlate w.core dom sp.write cr.handler (k + 5) l).filterMap (·.2.1))
                  { how := { senc := rSenc r, rfmt := rRfmt r, scaled := rIlv r || rSmode r == 1 }, spans := tr [e.1], bit := e.2.1, width := storeBits r, scale := tr e.2.2 }
                acc 0 (x.filterMap (·.2.1)) (es.map elem) m (tl0 ++ x.flatMap (·.2.2))
            else
              let x := s.xlate w.core dom sp.write cr.handler (k + 5) [(va, z)]
              let gs := x.map (·.1)
              match lowestFault (x.filterMap fun p => p.2.1.bind (pieceFault sp r o)), worstGran gs with
              | some (rank, cause), _ => fail rank cause []
              | none, some cause => fail (xlRank cause) cause gs
              | none, none => acc 0 (x.filterMap (·.2.1)) [] m (tl0 ++ x.flatMap (·.2.2))

/-! ### The trap of faulting lanes (R205, R342, R364) -/

/-- A fault record of R342. -/
def granRecord (g : Gran) (lanes : BitVec 32) : BitVec 256 :=
  BitVec.ofNat 256 (g.va % 2 ^ 56 + g.cause * 2 ^ 56 + lanes.toNat * 2 ^ 64 + g.level * 2 ^ 96 +
    (if g.wr then 2 ^ 99 else 0) + g.dom * 2 ^ 100 + g.pte.toNat * 2 ^ 128)

/-- The records of a set of faulters: one for each pair of domain and granule, by the lowest lane that touched it. -/
def granRecords (fs : List LaneFault) : List (BitVec 256) :=
  let all := fs.flatMap fun f => f.grans.map fun g => (f.lane, g)
  let keys := dedup (all.map fun p => (p.2.dom, p.2.va / 4096))
  keys.map fun key =>
    let same := all.filter fun p => decide ((p.2.dom, p.2.va / 4096) = key)
    granRecord (same.headD default).2 (maskOfLanes (same.map (·.1)))

/-- The two words of a 64-bit number. -/
def twoWords (x : Nat) : List Word := [BitVec.ofNat 32 x, BitVec.ofNat 32 (x / 2 ^ 32)]

/-- The trap of the lowest-ranked cause among faulting lanes (R205). -/
def faultTrap (fpc : Nat) (fs : List LaneFault) : Option TrapReq :=
  match lowestFault (fs.map fun f => (f.rank, f.cause)) with
  | none => none
  | some (rank, cause) =>
    let same := fs.filter fun f => f.rank == rank && f.cause == cause
    some { cause := cause, faulters := same.map (·.lane), fpc := fpc
           detail := fun l => match same.find? fun f => f.lane == l with
             | some f => if 0x20 ≤ cause ∧ cause ≤ 0x2A then BitVec.ofNat 32 f.idx :: twoWords f.off else []
             | none => []
           recs := fun ls => if 0x30 ≤ cause ∧ cause ≤ 0x34 then granRecords (same.filter fun f => ls.contains f.lane) else [] }

/-- What the core's caches take of accesses that did not fault: page-table entries (R339), map entries in RESIDENT or
PINNED (R219), a callee's records at their first use (R197). -/
def State.keepCaches (s : State) (core : Nat) (as : List LaneAcc) : State :=
  overList as s fun s a =>
    let s1 := s.walkKeep core a.dom (.ok 0 0 false false 0 0 0, a.tlb)
    s1.updCore core fun c => { c with
      maps := (match a.map with
        | some (va, _, e) => if mapStatus e.toNat = 0 then
            ⟨a.dom, va, e⟩ :: c.maps.filter fun m => !(m.domain == a.dom && m.va == va) else c.maps
        | none => c.maps)
      recs := (match a.load with
        | some r => if c.recs.contains r then c.recs else r :: c.recs
        | none => c.recs) }

/-! ### Residency requests (R216, R345) -/

/-- Publish the written requests whose turn it is, in order: DONE := n + 1 once DONE = n (R345). -/
def State.publishDue (s : State) : State :=
  overList s.publishing { s with publishing := [] } fun s p =>
    if s.rdNat p.2.1 4 = p.2.2 ∧ (aperture p.2.1 == some 0 && (s.pch (p.2.1 / 2 ^ 30)).held) = false then
      s.physWrite (some p.1) p.2.1 (bytesOfNat 4 (p.2.2 + 1))
    else { s with publishing := s.publishing ++ [p] }

/-- The header and the next slot of a domain's residency request ring, reached through its page tables: physical addresses of both,
and the number to be claimed. None for a ring that cannot be reached, or that is full. -/
def State.ringAt (s : State) (core d : Nat) : Option (Nat × Nat × Nat) :=
  match s.descUse core d with
  | none => none
  | some w =>
    let ring := fieldOf w 567 512
    let lg := fieldOf w 572 568
    match (s.walk core d false true ring 0).1 with
    | .fail .. => none
    | .ok hp .. =>
      let n := s.rdNat hp 4
      let taken := s.rdNat (hp + 8) 4
      if (s.mcOf ⟨.phys hp, 64⟩).isSome ∨ (lg = 0 ∧ ring = 0) ∨ (n + 2 ^ 32 - taken) % 2 ^ 32 ≥ 2 ^ lg then none else
      match (s.walk core d false true (ring + 64 + 16 * (n % 2 ^ lg)) 0).1 with
      | .fail .. => none
      | .ok sp .. => some (hp, sp, n)

/-- One residency request of a domain for tile t of record i, whose map entry lies at va and pa and was read as e; a ring that cannot
be reached, or that is full, leaves everything unchanged. -/
def State.request (s : State) (core d i t va pa e : Nat) : State :=
  match s.ringAt core d with
  | none => s
  | some (hp, sp, n) =>
    let now := s.rdNat pa 8
    let void := now ≠ e
    let s1 := s.physWrite (some core) hp (bytesOfNat 4 ((n + 1) % 2 ^ 32))
    let s2 := s1.physWrite (some core) pa (bytesOfNat 8 (if void then now else e + 1))
    let s3 := s2.physWrite (some core) sp (bytesOfNat 4 (i % 256 + d * 256 + if void then 2 ^ 31 else 0) ++
      bytesOfNat 4 t ++ bytesOfNat 8 va)
    ({ s3 with publishing := s3.publishing ++ [(core, hp + 4, n)] } : State).publishDue

/-- Tiles met in TIERMISS through a PAGEIN record: domain, record, tile, the map entry's addresses and value. -/
def missesOf (as : List LaneAcc) : List (Nat × Nat × Nat × Nat × Nat × Nat) :=
  as.filterMap fun a => match a.map with
    | some (va, pa, e) => if a.status = 1 ∧ rPagein a.rcd then some (a.dom, a.idx, a.off / 2 ^ rTile a.rcd, va, pa, e.toNat) else none
    | none => none

/-- A pseudo-channel in all-bank mode that a request of an instruction would touch: the instruction waits for it (spec/13 R324). -/
def State.requestHeld (s : State) (core : Nat) (as : List LaneAcc) : Option Nat :=
  ((missesOf as).flatMap fun m => match s.ringAt core m.1 with
    | some (hp, sp, _) => [m.2.2.2.2.1, hp, sp]
    | none => []).findSome? fun a => if aperture a == some 0 && (s.pch (a / 2 ^ 30)).held then some (a / 2 ^ 30) else none

/-- The requests of an instruction: one for each distinct tile met in TIERMISS through a PAGEIN record, for the lowest
lane (R216). -/
def State.requests (s : State) (core : Nat) (as : List LaneAcc) : State :=
  let miss := missesOf as
  let keys := dedup (miss.map fun m => m.2.2.2.2.1)
  overList keys s fun s key =>
    match miss.find? fun m => m.2.2.2.2.1 == key with
    | some (d, i, t, va, pa, e) => s.request core d i t va pa e
    | none => s

/-! ### Race detection (spec/10 R249-R254) -/

/-- One lane's checked access to one line: the 16-bit word mask, and the LINE and SPACE fields of R365. -/
structure RaceAcc where
  lane : Nat
  home : RHome
  line : Nat
  words : Nat
  tag : Nat
  deriving DecidableEq, Repr, Inhabited

/-- A line that was marked unchecked and on which some interval live at the marking has not ended (R253). -/
def State.unchecked (s : State) (r : RaceHome) (line : Nat) : Bool :=
  r.unchecked.any fun u => u.1 == line && u.2.any fun x => s.intervalLive x.1 x.2.1 x.2.2

/-- The words of a line that n bytes from offset o in it cover. -/
def wordMask (o n : Nat) : Nat := (2 ^ ((o + n - 1) / 4 + 1) - 2 ^ (o / 4))

/-- The lines of a run of bytes at x, as (line, word mask, first byte). -/
def lineRuns (x n : Nat) : List (Nat × Nat × Nat) :=
  (linesOf x n).map fun ln =>
    let lo := max x (64 * ln)
    let hi := min (x + n) (64 * ln + 64)
    (ln, wordMask (lo % 64) (hi - lo), lo)

/-- The entry with which an access conflicts (R253). -/
def State.conflict (s : State) (t : Nat) (wr : Bool) (a : RaceAcc) : Option RaceEntry :=
  let r := s.raceHome a.home
  if s.unchecked r a.line then none else
  (r.entries a.line).find? fun e =>
    !(e.wg == t && e.lane == a.lane) && andNat e.words.toNat a.words != 0 && (wr || e.write) && s.entryLive e

/-- A fault record of R365. -/
def raceRecord (a : RaceAcc) (e : RaceEntry) (lanes : BitVec 32) : BitVec 256 :=
  let space := match a.home with | .core _ => 1 | .stack _ => 0
  BitVec.ofNat 256 (a.tag % 2 ^ 56 + 0x40 * 2 ^ 56 + lanes.toNat * 2 ^ 64 + andNat e.words.toNat a.words * 2 ^ 96 +
    (if e.write then 2 ^ 112 else 0) + e.lane * 2 ^ 113 + space * 2 ^ 122 + e.wg * 2 ^ 128 + e.core * 2 ^ 149 +
    e.interval.toNat * 2 ^ 192)

/-- The MEMORY_RACE of an instruction, if any access of it conflicts (R254, R365): a record for each line of a conflict, in ascending
order of the lowest faulter that touched it, with every faulter that touched it; its words are those of all accesses that the
conflicting lane makes to the line. -/
def State.raceTrap (s : State) (t fpc : Nat) (wr : Bool) (as : List RaceAcc) : Option TrapReq :=
  let hits := as.filterMap fun a => (s.conflict t wr a).map fun e => (a, e)
  if hits.isEmpty then none else
  some { cause := 0x40, faulters := sortNat (dedup (hits.map fun h => h.1.lane)), fpc := fpc
         recs := fun ls =>
           let mine := hits.filter fun h => ls.contains h.1.lane
           let touched := as.filter fun a => ls.contains a.lane && mine.any fun h => decide ((h.1.home, h.1.line) = (a.home, a.line))
           (dedup (touched.map fun a => (a.home, a.line))).map fun key =>
             let lanes := touched.filter fun a => decide ((a.home, a.line) = key)
             match mine.find? (fun h => decide ((h.1.home, h.1.line) = key)), lanes with
             | some h, a :: _ =>
               let own := (lanes.filter fun x => x.lane == h.1.lane).foldl (fun m x => orNat m x.words) 0
               raceRecord { h.1 with tag := a.tag, words := own } h.2 (maskOfLanes (lanes.map (·.lane)))
             | _, _ => 0 }

/-- Record one access (R253), with whether it has used a spill entry; none when no entry is free. `wr` says that it is a write. -/
def State.raceRecordOne (s : State) (t : Nat) (wr : Bool) (a : RaceAcc) : Option (State × Bool) :=
  let r := s.raceHome a.home
  let w := s.wg t
  if s.unchecked r a.line then some (s, false) else
  let me : RaceEntry := ⟨t, a.lane, w.core, (w.lane a.lane).interval, BitVec.ofNat 16 a.words, wr⟩
  let same (e : RaceEntry) : Bool := e.wg == t && e.lane == a.lane && e.interval == me.interval && e.write == wr
  let es := r.lines.get a.line
  let join (e : RaceEntry) : RaceEntry := if same e then { e with words := e.words ||| me.words } else e
  if es.any same then some (s.setRace a.home { r with lines := r.lines.set a.line (es.map join) }, false)
  else if (r.spill.any fun p => p.1 == a.line && same p.2) then
    some (s.setRace a.home { r with spill := r.spill.map fun p => if p.1 = a.line then (p.1, join p.2) else p }, true)
  else
    let live := es.filter s.entryLive
    if live.length < 2 then some (s.setRace a.home { r with lines := r.lines.set a.line (live ++ [me]) }, false)
    else
      let sp := r.spill.filter fun p => s.entryLive p.2
      if sp.length < 4096 then some (s.setRace a.home { r with spill := sp ++ [(a.line, me)] }, true)
      else none

/-- The line of an access that has stalled long enough is marked unchecked, for the intervals of its entries and for the access's own,
and UNCHK rises (R253). -/
def State.uncheck (s : State) (t : Nat) (a : RaceAcc) : State :=
  let r := s.raceHome a.home
  let s1 := s.setRace a.home { r with
    unchecked := (a.line, dedup ((t, a.lane, ((s.wg t).lane a.lane).interval) :: s.liveIntervals r a.line)) :: r.unchecked.filter fun u => u.1 != a.line
    lines := r.lines.set a.line [], spill := r.spill.filter fun p => p.1 != a.line }
  s1.updWg t fun w => { w with unchk := if w.unchk = 0xFFFFFF then w.unchk else w.unchk + 1 }

/-- Record the accesses of an instruction, in ascending lane order (R253), as far as they do not have to stall: the state, and whether
all are recorded. With `pass` the first that would stall proceeds unchecked; one after it stalls in its turn. -/
def State.raceKeep (s : State) (t : Nat) (wr pass : Bool) : List RaceAcc → State × Bool
  | [] => (s, true)
  | a :: rest =>
    match s.raceRecordOne t wr a with
    | some (s1, sp) => (if sp then s1.updWg t fun w => { w with spill := true } else s1).raceKeep t wr pass rest
    | none => if pass then (s.uncheck t a).raceKeep t wr false rest else (s, false)

/-- The checked lines of a lane's device access (R251). -/
def raceAccs (a : LaneAcc) : List RaceAcc :=
  if rChecked a.rcd = false then [] else
  a.pieces.flatMap fun p =>
    if p.ty = 0 ∧ aperture p.pa = some 0 then
      (lineRuns p.pa p.len).map fun x => ⟨a.lane, .stack (p.pa / 2 ^ 36), x.1, x.2.1, p.va + x.2.2 - p.pa - x.2.2 % 64⟩
    else []

/-- The checked lines of a scratchpad access: core, physical offset, bytes (R251). -/
def spadRaceAccs (l core x n : Nat) : List RaceAcc :=
  (lineRuns x n).map fun r => ⟨l, .core core, r.1, r.2.1, 64 * r.1 + core * 2 ^ 22⟩

end Sys2Proof.Machine
end

