-- ==== Sys2Proof/Machine/Flight.lean ====
section
/-! DEFINITION. Accesses at their homes: module registers and the doorbell page (spec/19 R439-R441), atomic operations
(spec/08 R186), the merge of a barrier register (spec/12 R284), the L1 carve-out (spec/09 R208); instructions in flight
(spec/08 R174-R178), what may be performed before what (spec/10, spec/11), and the performing of one of them. -/

namespace Sys2Proof.Machine

open Sys2Proof

/-! ### Exception summary (spec/05 R115, R116) -/

/-- A 32-bit count that stops at its largest value. -/
def satAdd (x : Word) (n : Nat) : Word := if x.toNat + n ≥ 2 ^ 32 then 0xFFFFFFFF else BitVec.ofNat 32 (x.toNat + n)

/-- Merge flags and counts into a workgroup's part of the summary. -/
def Workgroup.sumUp (w : Workgroup) (fl : FFlags) (sat nan : Nat) : Workgroup :=
  { w with flags := w.flags ||| fl, satcnt := satAdd w.satcnt sat, nanscore := satAdd w.nanscore nan }

/-! ### Module registers and machine checks (spec/19 R440, R445; spec/15 R358) -/

/-- A machine check of a store, an atomic or a slot write: logged, and delivered at the crew's next issue (R358). -/
def State.mcLater (s : State) (t c : Nat) (m : Nat × Nat × Nat) : State :=
  (s.logMc m.1 m.2.1 m.2.2).updWg t fun w => w.updCrew c fun x => { x with
    mcheck := match x.mcheck with | some m => some m | none => some m }

/-- A load of a module register (R440). -/
def ModRegs.load (r : ModRegs) (off : Nat) : Dword :=
  match off with
  | 0x008 => r.lcstate.setWidth 64
  | 0x010 => BitVec.ofNat 64 r.domtab
  | 0x018 => r.ringpos.setWidth 64
  | 0x020 => BitVec.ofNat 64 r.lrbase
  | 0x028 => r.lrlog.setWidth 64
  | 0x030 => r.lrtail
  | 0x038 => r.lrhead
  | 0x040 => r.mccount
  | 0x048 => r.mclast
  | _ =>
    if 0x400 ≤ off ∧ off < 0x800 then ((r.ring.get ((off - 0x400) / 16)) >>> (64 * (off / 8 % 2))).setWidth 64 else 0

/-- HOSTVEC of a domain (R333), as a unit of the module reads it that is no core. -/
def State.hostvec (s : State) (d : Nat) : Nat := fieldOf (s.descMem d) 642 632

/-- HOSTVEC of a domain as a core uses it: of the fields it holds, else from memory. -/
def State.coreHostvec (s : State) (core d : Nat) : Nat := fieldOf ((s.descHeld core d).getD (s.descMem d)) 642 632

/-- A store to a module register (R440): who stores decides which registers take it. A physical address keeps its
alignment, and the reserved bits of the membership table read zero (R443, spec/00 R5). The pool's answer to LRTAIL is a step of its own. -/
def State.regStore (s : State) (who : RegWriter) (off : Nat) (v : Dword) : State :=
  let r := s.regs
  let x := v.toNat
  let hp := who == .host || who == .pmc
  match off with
  | 0x000 => { s with msix := s.msix ++ [s.hostvec (x % 4096)] }
  | 0x010 => if who = .pmc then { s with regs := { r with domtab := x % 2 ^ 52 / 128 * 128 } } else s
  | 0x018 => if who = .pmc then { s with regs := { r with ringpos := BitVec.ofNat 6 x } } else s
  | 0x020 => if hp then { s with regs := { r with lrbase := x % 2 ^ 52 / 64 * 64 } } else s
  | 0x028 => if hp then { s with regs := { r with lrlog := BitVec.ofNat 5 x } } else s
  | 0x030 => if who = .host then { s with regs := { r with lrtail := v } } else s
  | _ =>
    if 0x400 ≤ off ∧ off < 0x800 ∧ hp then
      let i := (off - 0x400) / 16
      let old := (r.ring.get i).toNat
      let kept := if off / 8 % 2 = 0 then bits x 0 4 + bits x 16 22 * 2 ^ 16 else bits x 0 56
      { s with regs := { r with ring := r.ring.set i (BitVec.ofNat 128 (putBits old (64 * (off / 8 % 2)) 64 kept)) } }
    else s

/-- Lines of host memory that the module holds under CXL.cache after an access to them (spec/11 R259). -/
def State.hostHold (s : State) (a n : Nat) : State :=
  if aperture a = some 5 then { s with hostLines := sortNat (dedup (s.hostLines ++ linesOf a n)) } else s

/-- A load performed at its home. -/
def State.homeLoad (s : State) (a n : Nat) : List Byte :=
  match aperture a with
  | some 2 => bytesOfNat n ((s.regs.load (a % 4096 / 8 * 8)).toNat / 2 ^ (8 * (a % 8)))
  | some 3 => List.replicate n 0
  | _ => s.rdBytes a n

/-- A store of a lane performed at its home: memory; a module register; the doorbell of the crew's domain (R440); lost where
it meets a machine check, as at an absent peer, which is delivered at the crew's next issue (R358, R439). -/
def State.homeStore (s : State) (t c a : Nat) (bs : List Byte) : State :=
  let w := s.wg t
  match aperture a with
  | some 2 => s.regStore .lane (a % 4096) (BitVec.ofNat 64 (natOfBytes bs))
  | some 3 => if a % 4096 = 0 then { s.descNeed w.core (w.crew c).domain with msix := s.msix ++ [s.coreHostvec w.core (w.crew c).domain] } else s
  | _ =>
    match s.mcOf ⟨.phys a, bs.length⟩ with
    | some m => s.mcLater t c m
    | none => (s.physWrite (some w.core) a bs).hostHold a bs.length

/-- Bytes of a run, window bytes among them, at their home. -/
def State.locLoad (s : State) (x : Loc) (n : Nat) : List Byte :=
  match x with
  | .phys a => s.homeLoad a n
  | .win .. => s.rdSpan ⟨x, n⟩

def State.locStore (s : State) (t c : Nat) (x : Loc) (bs : List Byte) : State :=
  match x with
  | .phys a => s.homeStore t c a bs
  | .win .. => match s.mcOf ⟨x, bs.length⟩ with
    | some m => s.mcLater t c m
    | none => s.wrLoc none x bs

/-! ### Atomic operations (spec/08 R186) -/

/-- The new value of an atomic operation of a width of n bits, with the flags of FADD. -/
def atomNew (op : AtomOp) (n old b c : Nat) : Nat × FFlags :=
  let m := 2 ^ n
  let pick (x y : Nat) (f : Bool) : Nat × FFlags := (if f then x else y, 0)
  match op with
  | .add => ((old + b) % m, 0)
  | .sub => ((old + m - b % m) % m, 0)
  | .mins => pick old b (decide (signedOf n old ≤ signedOf n b))
  | .maxs => pick old b (decide (signedOf n old ≥ signedOf n b))
  | .minu => pick old b (decide (old ≤ b))
  | .maxu => pick old b (decide (old ≥ b))
  | .and => (andNat old b, 0)
  | .or => (orNat old b, 0)
  | .xor => (xorNat old b, 0)
  | .xchg => (b, 0)
  | .cas => (if old = c then b else old, 0)
  | .fadd =>
    let f := if n = 32 then fp32 else fp64
    let r := f.add .rne (f.decode old) (f.decode b)
    (r.bits, r.flags)
  | .incw => (if old ≥ b then 0 else old + 1, 0)

/-! ### Barrier registers (spec/12 R284, R286) -/

/-- The merge of one cycle's contributions: arrivals, bytes delivered (the early bytes of a BINIT may be negative), bytes
expected. -/
def Barrier.merge (k : Barrier) (a : Nat) (b : Int) (e : Nat) : Barrier :=
  let pb : Int := signedOf 32 k.pendbytes.toNat - b + (e : Int)
  if k.init = false then
    { k with early := true, pendarr := BitVec.ofNat 12 (min (k.pendarr.toNat + a) 4095), pendbytes := BitVec.ofInt 32 pb }
  else
    let ovf := decide (k.pendarr.toNat < a)
    let pa := k.pendarr.toNat - a
    if pa = 0 ∧ pb ≤ 0 then
      { k with overflow := k.overflow || ovf || decide (pb < 0), phase := k.phase + 1, pendarr := k.exparr, pendbytes := k.expbytes }
    else { k with overflow := k.overflow || ovf, pendarr := BitVec.ofNat 12 pa, pendbytes := BitVec.ofInt 32 pb }

/-- Contributions of the island's current cycle (R284). -/
def Barrier.add (k : Barrier) (a : Nat) (b : Int) (e : Nat) : Barrier :=
  { k with due := true, cyArr := k.cyArr + a, cyBytes := k.cyBytes + b, cyExp := k.cyExp + e }

/-- The 128 bits of a barrier register (R283). -/
def Barrier.bits (k : Barrier) : Nat :=
  let f (x : Bool) (n : Nat) : Nat := if x then 2 ^ n else 0
  k.phase.toNat + k.exparr.toNat * 2 ^ 16 + k.pendarr.toNat * 2 ^ 28 + f k.init 40 + f k.early 41 + f k.overflow 42 + f k.bound 43 +
  k.bcrew.toNat * 2 ^ 44 + k.expbytes.toNat * 2 ^ 64 + k.pendbytes.toNat * 2 ^ 96

/-- The end of a cycle: all its contributions are one merge. -/
def Barrier.cycleEnd (k : Barrier) : Barrier :=
  if k.due then { k.merge k.cyArr k.cyBytes k.cyExp with due := false, cyArr := 0, cyDep := 0, cyBytes := 0, cyExp := 0 } else k

/-- The stream register of a ring that has just been bound (spec/08 R188, R191). -/
def Ring.fresh (r : Ring) : Stream :=
  { ring := r, free := List.range r.nslot, full := [], claimed := [], taken := [], newFree := [], newFull := [], newClaimed := []
    newTaken := [], newRing := none }

/-- The end of a cycle for a stream register: what it has brought becomes visible (spec/08 R188). A ring bound in the cycle stands
afresh (DEDUCED, log 71). -/
def Stream.cycleEnd (q : Stream) : Stream :=
  match q.newRing with
  | some r => r.fresh
  | none => { q with
      free := (q.free.filter fun i => !q.newClaimed.contains i) ++ q.newFree
      full := (q.full.filter fun i => !q.newTaken.contains i) ++ q.newFull
      claimed := (q.claimed ++ q.newClaimed).filter fun i => !q.newFull.contains i
      taken := (q.taken ++ q.newTaken).filter fun i => !q.newFree.contains i
      newFree := [], newFull := [], newClaimed := [], newTaken := [] }

/-- The end of a cycle for a crew identifier: writes of uniform registers are seen (spec/04 R76); one whose crew has dissolved is
free (spec/02 R30), and only accesses that no counter counts stay in flight under it; SYNC has risen where an interval of a member has
ended (spec/17 R407). -/
def Crew.cycleEnd (c : Crew) : Crew :=
  if c.gone then { (default : Crew) with flight := c.flight }
  else { c with old := [], streams := c.streams.map fun p => (p.1, p.2.cycleEnd)
                sync := if c.syncDue then c.sync + 1 else c.sync, syncDue := false }

/-- A cycle of a YIELD hold passes; 1 stands for a hold that is over (spec/02 R41). -/
def holdLess (n : Nat) : Nat := if n > 1 then n - 1 else n

/-- The end of a cycle for a lane that waits in JOIN: a YIELD hold goes on (spec/02 R41). -/
def Lane.cycleEnd (x : Lane) : Lane := { x with joining := x.joining.map fun (j : Joining) => { j with hold := holdLess j.hold } }

/-- The end of an island cycle for a workgroup. -/
def Workgroup.cycleEnd (w : Workgroup) : Workgroup :=
  { w with
    lanes := w.lanes.map fun p => (p.1, p.2.cycleEnd)
    barriers := overList w.barriers [] fun m p => SMap.set m p.1 p.2.cycleEnd
    crews := overList w.crews [] fun m p => SMap.set m p.1 p.2.cycleEnd }

/-- The ordinary issues of a core's current cycle are over: what an agent other than its quadrants does to the core in the cycle
comes after them (log 1). -/
def State.endIssues (s : State) (core : Nat) : State := s.updCore core fun k => { k with late := true }

/-- Arrivals and bytes that land on a barrier register of a workgroup: contributions of its core's cycle, or, to a saved workgroup,
of the cycle of the barrier unit in IOD0 (spec/15 R377). -/
def State.arrive (s : State) (t k a b : Nat) : State :=
  let w := s.wg t
  if w.life = .absent then s
  else
    let s1 := s.updWg t fun w => { w with barriers := w.barriers.upd k fun x => x.add a b 0 }
    if w.life = .saved then s1 else s1.endIssues w.core

/-- Write barrier k of a saved workgroup into its image. -/
def State.imageBarrier (s : State) (t k : Nat) : State :=
  s.imagePut t ((s.wg t).imagePart 4 + 16 * k) (bytesOfNat 16 ((s.wg t).barriers.get k).bits)

/-- The end of an IOD0 cycle: contributions to saved barriers are merged, one merge for each, and stand in the images
(spec/15 R377). -/
def State.mergeSaved (s : State) : State :=
  overList (s.wgs.filter fun p => p.2.life == .saved) s fun s p =>
    let due := (p.2.barriers.filter fun x => x.2.due).map (·.1)
    if due.isEmpty then s
    else overList due (s.updWg p.1 fun w => { w with barriers := overList w.barriers [] fun m p => SMap.set m p.1 p.2.cycleEnd })
      fun s k => s.imageBarrier p.1 k

/-- True when a lane has arrived on barrier k in its current phase. -/
def Lane.hasArrived (x : Lane) (k : Nat) (b : Barrier) : Bool := x.arrived.get k == b.phase.toNat + 1

/-- Contributions of members that leave a crew (R286): EXPARR falls, and so does PENDARR for each lane that has not arrived
in the current phase. -/
def Workgroup.departures (w : Workgroup) (c : Nat) (ls : List Nat) : Workgroup :=
  overList (List.range 16) w fun w k =>
    let b := w.barriers.get k
    if b.bound ∧ b.bcrew.toNat = c then
      let a := (ls.filter fun l => !(w.lane l).hasArrived k b).length
      { w with barriers := w.barriers.set k ({ b with exparr := b.exparr - BitVec.ofNat 12 ls.length, cyDep := b.cyDep + a }.add a 0 0) }
    else w

/-! ### The L1 carve-out (spec/09 R208, spec/10 R245) -/

/-- Lines that a carve-out holds at most. -/
def l1Lines (code : Nat) : Nat := match code with | 1 => 4096 | 2 => 8192 | 3 => 16384 | _ => 0

/-- Bring a line into a carve-out, in place of a line of the implementation's choice when it is full. -/
def State.l1Fill (s : State) (t line : Nat) : State :=
  let w := s.wg t
  if w.l1code = 0 ∨ (w.l1.get (64 * line)) ≠ [] then s else
  let m := if w.l1.length ≥ l1Lines w.l1code then
      (match w.l1[Config.choice s.free % w.l1.length]? with | some p => w.l1.set p.1 [] | none => w.l1)
    else w.l1
  { s.setWg t { w with l1 := m.set (64 * line) (s.rdBytes (64 * line) 64) } with free := s.free + 1 }

/-- Read bytes of Normal lines through the carve-out. -/
def State.l1Read (s : State) (t a n : Nat) : State × List Byte :=
  let s1 := overList (linesOf a n) s fun s ln => s.l1Fill t ln
  let w := s1.wg t
  (s1, (List.range n).map fun j =>
    let x := a + j
    match w.l1.get (64 * lineOf x) with
    | [] => s1.mem.get x
    | bs => bs.getD (x % 64) 0)

/-! ### Instructions in flight (spec/08 R176) -/

end Sys2Proof.Machine

namespace Sys2Proof

/-- Orders with the acquire role, the release role, and seq (spec/10 R236). -/
def Order.isAcq : Order → Bool
  | .acquire => true | .acqRel => true | .seq => true | _ => false
def Order.isRel : Order → Bool
  | .release => true | .acqRel => true | .seq => true | _ => false
def Order.isSeq : Order → Bool
  | .seq => true | _ => false

end Sys2Proof

namespace Sys2Proof.Machine

open Sys2Proof

/-- Order of a scope from the narrowest. -/
def scopeNum : Scope → Nat
  | .crew => 0 | .core => 1 | .cluster => 2 | .die => 3 | .device => 4 | .system => 5

/-- The stronger of two orders (spec/10 R235). -/
def orderMax (a b : Order) : Order :=
  if a = .seq ∨ b = .seq then .seq
  else match a.isAcq || b.isAcq, a.isRel || b.isRel with
    | true, true => .acqRel
    | true, false => .acquire
    | false, true => .release
    | false, false => .relaxed

def scopeMax (a b : Scope) : Scope := if scopeNum a ≥ scopeNum b then a else b

/-- Effective order and scope of an access from the types of its lines (R243). -/
def effective (ord : Order) (sc : Scope) (tys : List Nat) : Order × Scope :=
  let o := if tys.contains 3 then Order.seq else ord
  let c := if tys.contains 3 then Scope.system else if tys.contains 2 then scopeMax sc .device else sc
  (o, c)

/-- An item's lanes and bytes. -/
def FlightOp.spans (o : FlightOp) (l : Nat) : List Span :=
  match o with
  | .load _ _ lanes _ => (lanes.filter fun x => x.lane == l).flatMap fun x => x.spans ++ x.conv.flatMap fun e => e.spans ++ e.scale
  | .store lanes => (lanes.filter fun x => x.lane == l).flatMap fun x => x.runs.map fun r => ⟨r.1, r.2.length⟩
  | .atomic _ w _ lanes => (lanes.filter fun x => x.lane == l).map fun x => ⟨x.loc, wspan w * 4⟩
  | .matread rs => (rs.filter fun r => r.lane == l).flatMap (·.spans)
  | .fetchRead _ _ spans => spans
  | .reload _ _ _ lanes => (lanes.filter fun x => x.lane == l).flatMap fun x => x.spans ++ x.conv.flatMap fun e => e.spans ++ e.scale
  | _ => []

/-- All bytes of an item. -/
def FlightItem.bytes (i : FlightItem) : List Span := i.lanes.flatMap fun l => i.op.spans l.1

/-- The whole lines of runs of bytes. -/
def lineSpans (xs : List Span) : List Span :=
  xs.flatMap fun x => match x.loc with
    | .phys a => (linesOf a x.len).map fun ln => ⟨.phys (64 * ln), 64⟩
    | .win .. => [x]

/-- The bytes that an item reads or writes, with the whole lines that a carve-out may take for it. -/
def FlightItem.touched (i : FlightItem) : List Span :=
  let lane (x : LoadLane) : List Span := if x.l1 then lineSpans (x.spans ++ x.conv.flatMap fun e => e.spans ++ e.scale) else []
  i.bytes ++ (match i.op with
    | .load _ _ lanes _ => lanes.flatMap lane
    | .reload _ _ _ lanes => lanes.flatMap lane
    | .matread rs => rs.flatMap fun r => if r.l1 then lineSpans r.spans else []
    | _ => [])

/-- Overlap of two runs of bytes. -/
def Span.meets (a b : Span) : Bool :=
  match a.loc, b.loc with
  | .phys x, .phys y => decide (x < y + b.len) && decide (y < x + a.len)
  | .win t x, .win u y => t == u && decide (x < y + b.len) && decide (y < x + a.len)
  | _, _ => false

/-- True for an item that writes. -/
def FlightOp.writes : FlightOp → Bool
  | .store _ => true
  | .atomic .. => true
  | .arrive .. => true
  | _ => false

/-- True for an item that reads. -/
def FlightOp.loads : FlightOp → Bool
  | .load .. => true
  | .atomic .. => true
  | .matread .. => true
  | .reload .. => true
  | .fetchRead .. => true
  | _ => false

def FlightOp.isFence : FlightOp → Bool
  | .fence => true
  | _ => false

/-- Some byte of one list of runs lies in the other. -/
def spansMeet (a b : List Span) : Bool := a.any fun x => b.any fun y => x.meets y

/-- Two items have a lane in common. -/
def sharesLane (j i : FlightItem) : Bool := j.lanes.any fun a => i.lanes.any fun b => a.1 == b.1

/-- An earlier item j orders the later item i behind it, whatever the scope of i (spec/10 R236, R240, R241, R243, R250; fences
R237). `linked` says that an edge of R238 leads from a lane of j to one of i. Accesses of one lane's old and new intervals to
checked memory keep their order, loads among them: so the intervals run as if one after another (R256). -/
def orderedBefore (linked : Bool) (j i : FlightItem) : Bool :=
  let slice := j.dev && i.dev && j.lanes.any fun a => i.lanes.any fun x => x.1 / 4 == a.1 / 4
  let order :=
    if j.op.isFence then j.ord.isAcq || (j.ord.isRel && (i.op.writes || i.op.isFence))
    else j.ord.isAcq
  let wait := i.op.isFence && i.ord.isAcq && j.op.loads
  let same := (j.lanes.any fun l => i.lanes.any (fun x => x.1 == l.1) && spansMeet (j.op.spans l.1) (i.op.spans l.1)) ||
    (linked && spansMeet j.bytes i.bytes)
  let interval := j.checked && ((i.checked && j.lanes.any fun a => i.lanes.any fun b => a.1 == b.1 && a.2 != b.2) ||
    (j.op.writes && i.ord != .relaxed && sharesLane j i))
  slice || ((linked || sharesLane j i) && (order || wait)) || same || interval

/-- A release i waits for the earlier item j (R236, R247). -/
def heldBack (linked : Bool) (j i : FlightItem) : Bool := (linked || sharesLane j i) && i.ord.isRel

/-- The earlier item j must be performed before the later item i, but for what `passable` lets pass. -/
def mustPrecede (linked : Bool) (j i : FlightItem) : Bool := orderedBefore linked j i || heldBack linked j i

/-- A byte whose home is outside the module (spec/11 R259). -/
def Span.outside (x : Span) : Bool :=
  match x.loc with
  | .phys a => (aperture a).any fun ap => decide (ap ≥ 4)
  | .win .. => false

/-- A store that a release i of a scope narrower than device may pass: what the scope names sees it as performed from then on
(R246, spec/11 R258). A release of device scope passes an item with bytes homed outside the module only, and so may it an atomic:
it waits for no acknowledgement from there (R261). -/
def passable (j i : FlightItem) : Bool :=
  let far := j.bytes.any Span.outside
  !j.checked &&
  (match j.op with
    | .store _ => decide (scopeNum i.scope < 4) || (i.scope == .device && far)
    | .atomic .. => decide (scopeNum i.scope ≤ 4) && far
    | _ => false)

/-- An edge of R238 leads from a lane of item j to one of item i. -/
def Workgroup.linked (w : Workgroup) (j i : FlightItem) : Bool :=
  w.edges.any fun e => decide (e.start ≤ i.id) && (i.lanes.any fun l => e.after.contains l.1) &&
    j.lanes.any fun l => e.before.any fun b => b.1 == l.1 && decide (j.id < b.2)

/-- The earlier item j of a workgroup must be performed before the later item i. -/
def Workgroup.precedes (w : Workgroup) (j i : FlightItem) : Bool := mustPrecede (w.linked j i) j i

/-- An agent as the scopes see it: a lane; the engine complex of a compute die; another unit of the module (spec/10 R234, spec/11
R263). -/
inductive Agent where
  | lane (t l : Nat)
  | die (d : Nat)
  | module
  deriving DecidableEq, Repr, Inhabited

/-- An agent lies within a scope of a lane. -/
def State.within (s : State) (sc : Scope) (t l : Nat) (b : Agent) : Bool :=
  let core := (s.wg t).core
  match b with
  | .lane u k =>
    let other := (s.wg u).core
    (match sc with
      | .crew => t == u && ((s.wg t).lane l).crew.isSome && ((s.wg t).lane l).crew == ((s.wg u).lane k).crew
      | .core => core == other
      | .cluster => clusterOf core == clusterOf other
      | .die => dieOf core == dieOf other
      | _ => true)
  | .die d => sc == .device || sc == .system || (sc == .die && dieOf core == d)
  | .module => sc == .device || sc == .system

/-- Key of a row: bank × 65536 + row (R299). -/
def rowKey (pa : Nat) : Nat := bits pa 10 20

/-- Key of a row of a pseudo-channel. -/
def rowId (b row : Nat) : Nat := b * 65536 + row

/-- Banks and rows of a sweep entry's region (spec/13 R313). -/
def SweepEntry.mask (e : SweepEntry) : Nat := bits e.img0.toNat 0 16
def SweepEntry.rowFirst (e : SweepEntry) : Nat := bits e.img1.toNat 0 16
def SweepEntry.rowLast (e : SweepEntry) : Nat := bits e.img1.toNat 16 16

/-- The region covers a row. -/
def SweepEntry.covers (e : SweepEntry) (b row : Nat) : Bool :=
  bitAt e.mask b && decide (e.rowFirst ≤ row) && decide (row ≤ e.rowLast)

/-- The entries a swept load waits for at a line's row (R315): pseudo-channel, entry, registration, row. -/
def State.sweptWaits (s : State) (pa : Nat) : List (Nat × Nat × Nat × Nat) :=
  if aperture pa ≠ some 0 then [] else
  let g := pchOf pa
  let b := bits pa 26 4
  let row := bits pa 10 16
  (List.range 32).filterMap fun i =>
    let e := (s.pch g).table.get i
    if e.state = 1 ∧ e.covers b row ∧ e.applied.contains (rowId b row) = false then some (g, i, e.reg, rowId b row) else none

/-- What a load through a record with SWORD = 1, or a swept one, waits for (R315). -/
def State.accWaits (s : State) (swept : Bool) (a : LaneAcc) : List (Nat × Nat × Nat × Nat) :=
  if swept || rSword a.rcd then (dedup (a.pieces.flatMap fun p => linesOf p.pa p.len)).flatMap fun ln => s.sweptWaits (64 * ln) else []

/-- What accesses have used of their core's caches. -/
def usedOf (as : List LaneAcc) : Used :=
  { tlb := dedup (as.flatMap (·.tlb)), maps := dedup (as.filterMap fun a => a.map.map fun m => (a.dom, m.1)) }

/-- A sweep entry no longer holds a swept load (R315): freed, or applied to its row since the acknowledgement. -/
def State.sweptDone (s : State) (e : Nat × Nat × Nat × Nat) : Bool :=
  let x := (s.pch e.1).table.get e.2.1
  x.state == 0 || x.reg != e.2.2.1 || x.applied.contains e.2.2.2

/-- Nothing of a workgroup that precedes an item is still to be performed, and its bytes are not held. -/
def State.unblocked (s : State) (t : Nat) (i : FlightItem) (passes : FlightItem → Bool) : Bool :=
  let w := s.wg t
  !i.done && !i.op.aside &&
  (w.items.all fun j => decide (j.id ≥ i.id) || j.done || j.op.aside || !w.precedes j i ||
    (!orderedBefore (w.linked j i) j i && passes j)) &&
  i.bytes.all fun x => !s.held x

/-- An agent sees an item of workgroup t as performed that a release has passed. -/
def State.seesPast (s : State) (t : Nat) (j : FlightItem) (b : Agent) : Bool :=
  j.past.any fun q => (match b with | .lane u k => u == t && q.mates.contains k | _ => false) ||
    j.lanes.any fun l => s.within q.scope t l.1 b

/-- The stores that a release has passed and that one of the agents sees as performed: workgroup, crew, item. -/
def State.passed (s : State) (bs : List Agent) : List (Nat × Nat × FlightItem) :=
  s.wgs.flatMap fun p => p.2.crews.flatMap fun c => (c.2.flight.filter fun j => !j.done && !j.op.aside &&
    bs.any fun b => s.seesPast p.1 j b).map fun j => (p.1, c.1, j)

/-- Those of them that touch some bytes. -/
def State.passedAt (s : State) (bs : List Agent) (xs : List Span) : List (Nat × Nat × FlightItem) :=
  (s.passed bs).filter fun p => spansMeet p.2.2.bytes xs

/-- Those of them that an item of a workgroup needs at their homes: what touches one of its bytes; for a release, what it could not
pass itself (R261). An item that has been passed itself needs only what had been passed before it (R239). -/
def State.needsHome (s : State) (t : Nat) (i : FlightItem) : List (Nat × Nat × FlightItem) :=
  (s.passed (i.lanes.map fun l => .lane t l.1)).filter fun p => !(p.1 == t && p.2.2.id == i.id) &&
    (spansMeet p.2.2.bytes i.touched || (i.ord.isRel && !passable p.2.2 i)) &&
    i.past.all fun q => p.2.2.past.any fun r => decide (r.num < q.num)

/-- A store whose home can take it now. -/
def State.sendable (s : State) (t : Nat) (j : FlightItem) : Bool :=
  s.unblocked t j (fun _ => false) && (s.needsHome t j).isEmpty

/-- The items that a release i passes if it is performed now: their bytes are not held, what comes before them is done or is
passed too, and one that is a release itself has nothing of other lanes to wait for. Earliest first. -/
def State.passing (s : State) (t : Nat) (i : FlightItem) : List Nat :=
  if i.ord.isRel = false then [] else
  let w := s.wg t
  let is := w.items
  let far (acc : List Nat) (k j : FlightItem) : Bool :=
    acc.contains k.id && (passable k j || !heldBack (w.linked k j) k j)
  (sortNat ((is.filter fun j => decide (j.id < i.id) && !j.done && !j.op.aside).map (·.id))).foldl (fun acc id =>
    match is.find? fun j => j.id == id && !j.done && !j.op.aside with
    | none => acc
    | some j =>
      if passable j i && (j.bytes.all fun x => !s.held x) &&
          (is.all fun k => decide (k.id ≥ id) || k.done || k.op.aside || !w.precedes k j || far acc k j) &&
          (!j.ord.isRel || (s.needsHome t j).isEmpty)
      then acc ++ [id] else acc) []

/-- An item that may be performed now. -/
def State.mayPerform (s : State) (t : Nat) (i : FlightItem) : Bool :=
  s.unblocked t i (fun j => (s.passing t i).contains j.id) &&
  ((s.needsHome t i).all fun p => s.sendable p.1 p.2.2) &&
  (match i.op with
    | .load _ _ _ sw => sw.all s.sweptDone
    | .reload _ _ _ lanes => lanes.all fun x => x.waits.all s.sweptDone
    | .matread rs => rs.all fun r => r.waits.all s.sweptDone
    | _ => true)

/-! ### Performing -/

/-- The exact value of a storage element, with its scale or from the dictionary (spec/09 R209). -/
def convElem (e : ConvElem) (raw scale : List Byte) : FRes :=
  let f := e.how
  let x := bits (natOfBytes raw) e.bit e.width
  let fmt := match f.rfmt with | 1 => fp32 | 2 => fp16 | _ => bf16
  let v : FVal := match f.senc with
    | 1 => e4m3.decode x
    | 2 => .fin (decide (signedOf 8 x < 0)) (signedOf 8 x).natAbs 0
    | 3 => .fin (decide (signedOf 4 x < 0)) (signedOf 4 x).natAbs 0
    | _ => fp32.decode (natOfBytes ((scale.drop (4 * x)).take 4))
  if f.scaled then
    let p := scaledVal v (fp32.decode (natOfBytes scale))
    let r := convert fmt .rne false p.1
    { r with flags := r.flags ||| p.2 }
  else convert fmt .rne false v

/-- A carve-out keeps no copy of lines that were read at their home: a later load of the lane reads nothing older (spec/10 R239). -/
def State.l1Forget (s : State) (t a n : Nat) : State :=
  if (s.wg t).l1.isEmpty then s
  else s.updWg t fun w => { w with l1 := overList (linesOf a n) w.l1 fun m ln => m.set (64 * ln) [] }

/-- The bytes of one lane of a load: from the carve-out where the lane's lines allow it, else from their homes. -/
def State.laneBytes (s : State) (t : Nat) (l1 : Bool) (spans : List Span) : State × List Byte :=
  overList spans (s, []) fun acc x =>
    match x.loc with
    | .phys a =>
      if l1 && (acc.1.wg t).l1code != 0 then
        let r := acc.1.l1Read t a x.len
        (r.1.hostHold a x.len, acc.2 ++ r.2)
      else ((acc.1.l1Forget t a x.len).hostHold a x.len, acc.2 ++ acc.1.homeLoad a x.len)
    | .win .. => (acc.1, acc.2 ++ acc.1.rdSpan x)

/-- The data of one lane of a load as bytes, with what a conversion adds to the summary. -/
def State.loadLane (s : State) (t : Nat) (x : LoadLane) : State × List Byte × FFlags :=
  match x.conv with
  | [] =>
    let r := s.laneBytes t x.l1 x.spans
    (r.1, r.2, 0)
  | es => overList es (s, [], 0) fun acc e =>
      let a := acc.1.laneBytes t x.l1 e.spans
      let b := a.1.laneBytes t x.l1 e.scale
      let r := convElem e a.2 b.2
      (b.1, acc.2.1 ++ bytesOfNat (if e.how.rfmt = 1 then 4 else 2) r.bits, acc.2.2 ||| r.flags)

/-- Words of n registers from bytes, zero-extended. -/
def regWords (n : Nat) (bs : List Byte) : List Word :=
  (List.range n).map fun k => BitVec.ofNat 32 (natOfBytes bs / 2 ^ (32 * k))

/-- Change an item of every crew that counts it. -/
def Workgroup.updItem (w : Workgroup) (id : Nat) (f : FlightItem → FlightItem) : Workgroup :=
  { w with crews := w.crews.map fun c => (c.1, { c.2 with flight := c.2.flight.map fun i => if i.id = id then f i else i }) }

/-- Data of a load reaches a register: the old value is kept until the load is counted complete (R174). -/
def Workgroup.landReg (w : Workgroup) (id l code : Nat) (v : Word) : Workgroup :=
  let old := (w.lane l).reg code
  (w.updLane l fun x => x.setReg code v).updItem id fun i => { i with olds := (l, code, old) :: i.olds }

/-- Data of a load reaches a lane's destination, but for registers a later write keeps. -/
def Workgroup.landLane (w : Workgroup) (i : FlightItem) (d : Sel) (l : Nat) (ws : List Word) : Workgroup :=
  match regCode d with
  | none => w
  | some c => overList ws.zipIdx w fun w p =>
      if i.skip.contains (l, c + p.2) then w else w.landReg i.id l (c + p.2) p.1

/-- The statuses of an instruction reach their registers; a uniform register takes the highest lane's (spec/04 R76). -/
def Workgroup.landStat (w : Workgroup) (i : FlightItem) : Workgroup :=
  match i.stat with
  | none => w
  | some (.s n, vs) =>
    match vs.getLast? with
    | some (l, v) => match (w.lane l).crew with
      | some c => w.updCrew c fun x => { x with
          s := x.s.set n (BitVec.ofNat 32 v)
          old := if x.old.any (fun y => y.1 == n) then x.old else (n, x.s.get n) :: x.old }
      | none => w
    | none => w
  | some (r, vs) => overList vs w fun w p => w.landLane i r p.1 [BitVec.ofNat 32 p.2]

/-- Perform a load: every lane's bytes, in ascending lane order. -/
def State.performLoad (s : State) (t : Nat) (i : FlightItem) (w : Width) (d : Option Sel) (lanes : List LoadLane) : State :=
  overList lanes s fun s x =>
    let r := s.loadLane t x
    let s1 := r.1.updWg t fun g => g.sumUp r.2.2 0 0
    match d with
    | some q => s1.updWg t fun g => g.landLane i q x.lane (regWords (wspan w) r.2.1)
    | none => s1

/-- The number that an atomic finds at a location: free where it meets an uncorrectable error, since the spec gives the
instruction a result and not its value (log 31). -/
def State.atomOld (s : State) (l n : Nat) (x : Loc) : Nat :=
  match s.mcOf ⟨x, n⟩ with
  | some _ => (Config.freeWord (s.free + l)).toNat % 2 ^ (8 * n)
  | none => natOfBytes (s.locLoad x n)

/-- Perform one lane of an atomic: the old value and the state. -/
def State.atomLane (s : State) (t c : Nat) (op : AtomOp) (w : Width) (x : AtomLane) : State × Nat :=
  let n := wspan w * 4
  let old := s.atomOld x.lane n x.loc
  let r := atomNew op (8 * n) old (x.b.toNat % 2 ^ (8 * n)) (x.c.toNat % 2 ^ (8 * n))
  ((s.locStore t c x.loc (bytesOfNat n r.1)).updWg t fun g => g.sumUp r.2 0 0, old)

/-- A reloaded word of a lane reaches an entry of a queue, or the register of a stalled LD, which then goes on (spec/17
R408). -/
def Apprentice.reloaded (a : Apprentice) (q : Option (Nat × Nat)) (gang l : Nat) (v : Word) : Apprentice :=
  match q with
  | some (n, k) => { a with queues := a.queues.set n ((a.queues.get n).modify k fun e =>
        { e with vec := true, data := e.data.set (l % 32) v, poison := false, fresh := some gang }) }
  | none => match a.ld with
    | some (d, _) => { a with w := a.w.set d v }
    | none => a

/-- An Apprentice whose stalled LD has been reloaded goes on. -/
def Apprentice.resumed (a : Apprentice) (q : Option (Nat × Nat)) : Apprentice :=
  if q.isNone ∧ a.st = .stalled then { a with st := .running, ld := none, ldLanes := [] } else a

/-- A line of an operand has been read (spec/07 R151): bytes beyond it are zero. -/
def MatOp.lineRead (o : MatOp) (isB : Bool) (k : Nat) (bs : List Byte) : MatOp :=
  let put (l : List (List Byte)) : List (List Byte) := l.modify k fun old => bs ++ old.drop bs.length
  if isB then { o with b := put o.b, bLeft := o.bLeft - 1 } else { o with a := put o.a, aLeft := o.aLeft - 1 }

/-- Perform what an item has still to do (R176). -/
def State.performOp (s : State) (t c : Nat) (i : FlightItem) : State :=
  match i.op with
  | .load w d lanes _ => s.performLoad t i w d lanes
  | .store lanes => overList lanes s fun s x => overList x.runs s fun s r =>
      s.locStore t (((s.wg t).lane x.lane).crew.getD c) r.1 r.2
  | .atomic op w d lanes => overList lanes s fun s x =>
      let r := s.atomLane t (((s.wg t).lane x.lane).crew.getD c) op w x
      match d with
      | some q => r.1.updWg t fun g => g.landLane i q x.lane (regWords (wspan w) (bytesOfNat 16 r.2))
      | none => r.1
  | .arrive target k n b lanes =>
    let ph := ((s.wg target).barriers.get k).phase.getLsbD 0
    let now := ((s.wg target).barriers.get k).phase.toNat + 1
    (s.updWg t fun w => overList lanes w fun w l => w.updLane l fun x => { x with
      wpar := setBit x.wpar k ph
      arrived := if target = t then x.arrived.set k now else x.arrived }).arrive target k n b
  | .matread rs => overList rs s fun s r =>
      let s0 := match r.spans.findSome? s.mcOf with
        | some m => s.mcLater t c m
        | none => s
      let b := s0.laneBytes t r.l1 r.spans
      b.1.updWg t fun w => { w with mqueues := w.mqueues.upd r.hq fun l => l.map fun o =>
        if o.id = r.opid then o.lineRead r.isB r.line b.2 else o }
  | .reload unit q gang lanes =>
    let core := (s.wg t).core
    overList lanes.reverse s fun s x =>
      let r := s.loadLane t x
      let v := BitVec.ofNat 32 (natOfBytes r.2.1)
      (r.1.updWg t fun g => g.sumUp r.2.2 0 0).updCore core fun k => { k with
        apprs := k.apprs.upd unit fun a => if x.lane = (lanes.headD default).lane then (a.reloaded q gang x.lane v).resumed q
          else a.reloaded q gang x.lane v }
  | .fetchRead core slot spans => s.updCore core fun k => { k with istore := k.istore.upd slot fun x =>
      if x.st = .fetching ∧ x.source = spans then { x with
        words := SMap.ofList (wordsLE (s.rdSpans spans)), source := [], bad := spans.any fun p => (s.mcOf p).isSome } else x }
  | .fetch .. => s
  | .sorter _ => s
  | .fence => s
  | .nop => s
  | .post _ => s

/-- Mark an item done in every crew and let the counters fall. -/
def Workgroup.finishItem (w : Workgroup) (id : Nat) : Workgroup :=
  let w1 := w.updItem id fun i => { i with done := true }
  { w1 with crews := w1.crews.map fun c => (c.1, { c.2 with flight := countOff c.2.flight }) }

/-- Perform an item at its home and mark it done. An acquire of cluster scope or wider drops the carve-out (R208). -/
def State.performHere (s : State) (t c : Nat) (i : FlightItem) : State :=
  let s0 := if i.ord.isAcq && decide (scopeNum i.scope ≥ 2) then s.l1Drop t else s
  let s1 := (s0.performOp t c i).updWg t fun w => w.landStat i
  let s2 := if i.ord.isAcq && decide (scopeNum i.scope ≥ 2) then s1.l1Drop t else s1
  s2.updWg t fun w => w.finishItem i.id

/-- The homes take stores that an access needs there, as far as they can. -/
def State.sendHome (s : State) (l : List (Nat × Nat × FlightItem)) : State :=
  overList l s fun s p => if s.sendable p.1 p.2.2 then s.performHere p.1 p.2.1 p.2.2 else s

/-- An item counts as performed at a scope from now on, seen by these lanes too: pass number n, unless it has an earlier one. -/
def FlightItem.passAt (j : FlightItem) (sc : Scope) (mates : List Nat) (n : Nat) : FlightItem :=
  { j with past := some (match j.past with
      | some q => { q with scope := scopeMax q.scope sc, mates := dedup (q.mates ++ mates) }
      | none => { scope := sc, mates := mates, num := n }) }

/-- Items count as performed at a scope, in the order of the list. -/
def State.passItems (s : State) (l : List (Nat × Nat)) (sc : Scope) (mates : Nat → List Nat) : State :=
  overList l s fun s p => { s.updWg p.1 fun w => w.updItem p.2 fun j => j.passAt sc (mates p.1) s.nextPass with
    nextPass := s.nextPass + 1 }

/-- The lanes of the crews that a release i of workgroup t was issued in. -/
def Workgroup.matesOf (w : Workgroup) (i : FlightItem) : List Nat :=
  let cs := (w.crews.filter fun c => c.2.flight.any fun j => j.id == i.id).map (·.1)
  dedup (i.lanes.map (·.1) ++ (cs ++ w.crewsOf (i.lanes.map (·.1))).flatMap w.members)

/-- Before agents touch bytes, the homes take the stores of those bytes that they see as performed; none where a home cannot yet. -/
def State.seenBy (s : State) (bs : List Agent) (xs : List Span) : Option State :=
  let need := s.passedAt bs xs
  if need.all fun q => s.sendable q.1 q.2.2 then some (s.sendHome need) else none

/-- A release i is performed: the stores it passes count as performed at its scope, those of its own lanes and those that
have been performed at a scope that holds one of them (R236, R247, spec/11 R261). -/
def State.passOver (s : State) (t : Nat) (i : FlightItem) : State :=
  if i.ord.isRel = false then s else
  let w := s.wg t
  let ps := s.passing t i
  let own := (w.items.filter fun j => ps.contains j.id && heldBack (w.linked j i) j i).map fun j => (t, j.id)
  let others := (s.passed (i.lanes.map fun l => .lane t l.1)).map fun p => (p.1, p.2.2.id)
  let mates := if i.scope = .crew then w.matesOf i else []
  s.passItems (sortNat (dedup (own.map (·.2))) |>.map fun id => (t, id)) i.scope (fun _ => mates)
    |>.passItems others i.scope fun u => if u = t then mates else []

/-- A workgroup's lanes are about to move to another core: what they see as performed counts as performed at device scope
(spec/10 R238, spec/15 R376). -/
def State.passWide (s : State) (t : Nat) : State :=
  let ls := (s.wg t).lanes.map fun p => Agent.lane t p.1
  s.passItems ((s.passed ls).map fun p => (p.1, p.2.2.id)) .device fun _ => []

/-- Perform an item, after the stores it needs at their homes. -/
def State.perform (s : State) (t c : Nat) (i : FlightItem) : State :=
  ((s.sendHome (s.needsHome t i)).passOver t i).performHere t c i

/-- An item of a crew by its number. -/
def Workgroup.item? (w : Workgroup) (c id : Nat) : Option FlightItem := (w.crew c).flight.find? fun i => i.id == id

/-- Counted instructions of a crew on a path (R176, R178). -/
def Crew.count (c : Crew) (p : Path) : Nat := (c.flight.filter fun i => i.path == some p).length

/-- Count an instruction on the paths of the crews that have lanes in E (R176): the first crew holds what is to be done, the
others count it. Answers the state and the item's number. -/
def State.launch (s : State) (t : Nat) (ls : List Nat) (path : Option Path) (ord : Order) (scope : Scope) (dev checked : Bool)
    (op : FlightOp) (stat : Option (Sel × List (Nat × Nat)) := none) (used : Used := {}) (again : Option Reissue := none) : State :=
  let w := s.wg t
  let iv (l : Nat) : Nat × Word := (l, (w.lane l).interval)
  let dest (ls : List Nat) : List (Nat × Nat) := ls.flatMap fun l => (op.dests stat l).map fun k => (l, k)
  let base : FlightItem := { (default : FlightItem) with
    id := w.nextItem, path := path, ord := ord, scope := scope, dev := dev, checked := checked, op := op, stat := stat, lanes := ls.map iv, used := used, again := again }
  let cs := w.crewsOf ls
  let add (w : Workgroup) (c : Nat) : Workgroup :=
    let mine := ls.filter fun l => (w.lane l).crew == some c
    let it := if cs.head? = some c then { base with dest := dest mine } else { base with
      op := .nop, stat := none, ord := .relaxed, dev := false, lanes := mine.map iv, dest := dest mine, used := {}, again := none }
    w.updCrew c fun x => { x with flight := x.flight ++ [it] }
  s.setWg t { overList cs w add with nextItem := w.nextItem + 1 }

/-- The number `launch` gives. -/
def State.nextItem (s : State) (t : Nat) : Nat := (s.wg t).nextItem

/-- Insert an item into a list by falling number. -/
def insertItem (c : Nat × FlightItem) : List (Nat × FlightItem) → List (Nat × FlightItem)
  | [] => [c]
  | d :: t => if d.2.id ≤ c.2.id then c :: d :: t else d :: insertItem c t

/-- The items still to be performed, latest first, each with its crew. -/
def Workgroup.latest (w : Workgroup) : List (Nat × FlightItem) :=
  (w.crews.flatMap fun c => (c.2.flight.filter fun i => !i.done && !i.op.aside).map fun i => (c.1, i)).foldr insertItem []

/-- The items that must be performed before an instruction that performs at its issue, given as an item: those that
precede it, and those that precede one of these (spec/10 R236, R241, R250). Earliest first. A release passes the stores that it
may and that no choice of the part's has performed (`stays`); so do the releases among them. -/
def Workgroup.needOf (w : Workgroup) (x : FlightItem) (stays : FlightItem → Bool) : List (Nat × FlightItem) :=
  w.latest.foldl (fun acc j =>
    let past (k : FlightItem) : Bool := !orderedBefore (w.linked j.2 k) j.2 k && stays j.2 && passable j.2 k
    if (w.precedes j.2 x && !past x) || acc.any (fun k => w.precedes j.2 k.2 && !past k.2)
    then j :: acc else acc) []

/-- What an instruction that performs at its issue is to the accesses before it: its order and scope, its lanes, the
bytes it reads or writes. -/
def State.asItem (s : State) (t : Nat) (ls : List Nat) (ord : Order) (scope : Scope) (dev : Bool) (op : FlightOp) : FlightItem :=
  let w := s.wg t
  { (default : FlightItem) with
    id := w.nextItem, ord := ord, scope := scope, dev := dev, op := op, lanes := ls.map fun l => (l, (w.lane l).interval) }

/-- Perform what must be performed before such an instruction, as far as it can be: the state, and the first item that
still has to be waited for. -/
def State.settleFor (s : State) (t : Nat) (x : FlightItem) : State × Option (Nat × Nat) :=
  let ps := s.passing t x
  let stays (j : FlightItem) : Bool := ps.contains j.id && Config.freeBool (s.free + 2097152 + j.id)
  let r := overList ((s.wg t).needOf x stays) (s, none) fun (acc : State × Option (Nat × Nat)) j =>
    match acc.2 with
    | some p => (acc.1, some p)
    | none => if acc.1.mayPerform t j.2 then (acc.1.perform t j.1 j.2, none) else (acc.1, some (j.1, j.2.id))
  match r.2 with
  | some p => (r.1, some p)
  | none => ((r.1.sendHome (r.1.needsHome t x)).passOver t x, none)

end Sys2Proof.Machine
end

