-- ==== Sys2Proof/Machine/Clause.lean ====
section
/-! DEFINITION. Clauses (spec/03 R46-R52): the header's fields, the decode checks of a clause of lane code and of Apprentice
code (spec/17 R404), the fetch of a clause from the instruction store (spec/16 R395, R396), macro operations (R398). -/

namespace Sys2Proof

/-- Words of an instruction (R50). -/
def Instr.len (i : Instr) : Nat :=
  match i with
  | .apprenticeLd .. => 2
  | _ => match encode i with | some l => l.length | none => 1

/-- Cause code of a decode check (R52, R74). -/
def DecodeCause.code : DecodeCause → Nat
  | .framing => 0x01 | .opcode => 0x02 | .field => 0x03 | .reserved => 0x04 | .clauseClass => 0x05 | .latch => 0x06
  | .range => 0xA5

/-- Replace a selector field of a format-A instruction: 0 D, 1 A, 2 B (spec/16 R398); none where that field selects no
register. -/
def Instr.withSel (k : Nat) (r : Sel) (i : Instr) : Option Instr :=
  let ia (o : IntA) (f : IntA → Instr) : Option Instr :=
    match k with | 0 => some (f { o with d := r }) | 1 => some (f { o with a := r }) | _ => some (f { o with b := r })
  let iu (o : IntU) (f : IntU → Instr) : Option Instr :=
    match k with | 0 => some (f { o with d := r }) | 1 => some (f { o with a := r }) | _ => none
  let la (o : LogicA) (f : LogicA → Instr) : Option Instr :=
    match k with | 0 => some (f { o with d := r }) | 1 => some (f { o with a := r }) | _ => some (f { o with b := r })
  let fa (o : FltA) (f : FltA → Instr) : Option Instr :=
    match k with | 0 => some (f { o with d := r }) | 1 => some (f { o with a := r }) | _ => some (f { o with b := r })
  let fu (o : FltU) (f : FltU → Instr) : Option Instr :=
    match k with | 0 => some (f { o with d := r }) | 1 => some (f { o with a := r }) | _ => none
  match i with
  | .mov o => iu o .mov
  | .iadd o => ia o .iadd | .iaddc o => ia o .iaddc | .isub o => ia o .isub | .isubb o => ia o .isubb
  | .imul o => ia o .imul | .imulh o => ia o .imulh | .idiv o => ia o .idiv | .irem o => ia o .irem
  | .imin o => ia o .imin | .imax o => ia o .imax
  | .shl o => ia o .shl | .shr o => ia o .shr | .sar o => ia o .sar | .rot o => ia o .rot
  | .iabs o => iu o .iabs | .ineg o => iu o .ineg | .popc o => iu o .popc | .clz o => iu o .clz | .ctz o => iu o .ctz
  | .brev o => iu o .brev
  | .and o => la o .and | .or o => la o .or | .xor o => la o .xor | .andn o => la o .andn
  | .fadd o => fa o .fadd | .fsub o => fa o .fsub | .fmul o => fa o .fmul | .fmin o => fa o .fmin | .fmax o => fa o .fmax
  | .fcopys o => fa o .fcopys | .fdiv o => fa o .fdiv | .fscale o => fa o .fscale
  | .fclass o => fu o .fclass | .fsqrt o => fu o .fsqrt | .frcp o => fu o .frcp | .frsq o => fu o .frsq
  | .fexp2 o => fu o .fexp2 | .flog2 o => fu o .flog2 | .fsin o => fu o .fsin | .fcos o => fu o .fcos
  | .frnd o m => fu o fun x => .frnd x m
  | .split3 nw d a => match k with | 0 => some (.split3 nw r a) | 1 => some (.split3 nw d r) | _ => none
  | .waitc p a => if k = 1 then some (.waitc p r) else some (.waitc p a)
  | .qrd n d => if k = 0 then some (.qrd n r) else some (.qrd n d)
  | .qpushClaim n d => if k = 0 then some (.qpushClaim n r) else some (.qpushClaim n d)
  | .qpushCommit n a => if k = 1 then some (.qpushCommit n r) else some (.qpushCommit n a)
  | .qfree n a => if k = 1 then some (.qfree n r) else some (.qfree n a)
  | .publish a => if k = 1 then some (.publish r) else some (.publish a)
  | .excrd d a => match k with | 0 => some (.excrd r a) | 1 => some (.excrd d r) | _ => none
  | _ => none

end Sys2Proof

namespace Sys2Proof.Machine

open Sys2Proof

/-! ### The header (R47) -/

def hCount (h : Nat) : Nat := bits h 22 4
def hClass (h : Nat) : Nat := bits h 19 3
def hRegion (h : Nat) : Bool := bitAt h 18
def hYield (h : Nat) : Bool := bitAt h 17
def hMxw (h : Nat) : Bool := bitAt h 11
def hBw (h : Nat) : Bool := bitAt h 10
def hK (h : Nat) : Nat := bits h 6 4
def hPred (h : Nat) : Nat := bits h 3 3
def hNeg (h : Nat) : Bool := bitAt h 2

/-- The paths whose DRAIN bits a header sets (R47). -/
def hDrains (h : Nat) : List Path :=
  ([(12, Path.sp), (13, .cl), (14, .dm), (15, .en), (16, .ic)].filter fun p => bitAt h p.1).map (·.2)

/-- The first check that a header at word offset `off` of its segment fails (R46, R47, R51). -/
def headerCheck (h off : Nat) : Option DecodeCause :=
  if bits h 26 6 ≠ 63 ∨ hCount h = 0 ∨ off + hCount h ≥ 1024 then some .framing
  else if (hK h ≠ 0 ∧ hBw h = false) ∨ bits h 0 2 ≠ 0 then some .reserved
  else none

/-- Opcodes that a CLASS admits (R48). -/
def classAdmits (cls op ty : Nat) : Bool :=
  op == 0x78 || (op == 0x79 && decide (ty ≤ 2)) ||
  (match cls with
    | 0 => decide (op ≤ 0x1F)
    | 1 => decide (0x20 ≤ op) && decide (op ≤ 0x3F)
    | 2 => decide (0x40 ≤ op) && decide (op ≤ 0x4F)
    | 3 => decide (0x50 ≤ op) && decide (op ≤ 0x5F)
    | 4 => decide (0x60 ≤ op) && decide (op ≤ 0x6F)
    | 5 => (decide (0x70 ≤ op) && decide (op ≤ 0x79)) || op == 0x7B
    | 6 => op == 0x7A || op == 0x7C || op == 0x7D
    | _ => decide (op ≤ 0x7D))

/-- First words of terminal instructions (R49), by opcode and TYPE. DEDUCED (log 67): NOP is not among them; R49's list decides,
though R92 calls all of its table terminal. -/
def rawTerminal (op ty : Nat) : Bool :=
  (op == 0x78 && decide (ty ≤ 2)) || (op == 0x79 && (ty == 0 || ty == 1 || ty == 3 || ty == 4)) ||
  (op == 0x7A && ty == 0) || (op == 0x7C && decide (ty ≤ 1)) || (op == 0x7B && decide (ty ≤ 4))

/-- A latch read at word `pos`, given the instructions before it by their first words (R62). -/
def latchOk (done : List (Nat × Instr)) (pos n : Nat) : Bool :=
  decide (n + 1 ≤ pos) && (match done.find? fun p => p.1 == pos - (n + 1) with
    | some p => p.2.leavesLatch
    | none => false)

/-- Selectors that the VREGS check covers, with their registers (R74): sources, destinations, and the four that an MCALL hands to
its macro (R95). -/
def Instr.ranged : Instr → List (Sel × Nat)
  | .mcall _ a b c d => [(a, 1), (b, 1), (c, 1), (d, 1)]
  | i => i.reads ++ i.dests true

/-- The check that an instruction that decodes fails in its clause: latches, then VREGS (R62, R74). -/
def instrCheck (vregs : Nat) (done : List (Nat × Instr)) (pos : Nat) (i : Instr) : Option DecodeCause :=
  let xs := i.reads.filterMap fun p => match p.1 with | .x n => some n | _ => none
  let vs := (Instr.ranged i).filterMap fun p => match p.1 with | .v n => some (n + p.2) | _ => none
  if xs.all (latchOk done pos) = false then some .latch
  else if vs.any (fun n => decide (n > vregs)) then some .range
  else none

/-- The first word at `pos` as a word of its clause: its format, or the cause that its opcode and place fail (R49-R51). -/
def firstCheck (cls count pos w : Nat) : Except DecodeCause Fmt :=
  let op := bits w 25 7
  let ty := bits w 22 3
  if 0x7E ≤ op then .error .framing else
  match opFmt op with
  | none => .error .opcode
  | some f =>
    if pos + f.len > count ∨ (rawTerminal op ty ∧ pos + f.len ≠ count) then .error .framing
    else if classAdmits cls op ty = false then .error .clauseClass
    else .ok f

/-- Words that may stand after the words of an instruction read so far: each beginning that some words complete is completed by
words of this list. -/
def fillWords : Fmt → List Nat
  | .b => [0x100, 0x01000000] ++ List.range 16
  | .m1 => (List.range 16).flatMap fun k => [k, 0x10000 + k]
  | .m2 => List.range 16
  | .x => [0, 0x40000000, 0x80000000, 0xC0000000]
  | .a => []
  | .c => []

/-- The ways to complete an instruction by `n` words. -/
def fillings (f : Fmt) : Nat → List (List Nat)
  | 0 => [[]]
  | n + 1 => (fillWords f).flatMap fun w => (fillings f n).map (w :: ·)

/-- The cause that words 0 to `k` of an instruction fail by themselves: none where some words after them make an instruction that
passes, else the last in rank that a completion leaves, since the others are owed to the words after (R51, DEDUCED, log 67). -/
def prefixFault {α : Type} (rank : α → Nat) (check : List Nat → Option α) (f : Fmt) (ws : List Nat) (k : Nat) : Option α :=
  let found := (ws.drop (k + 1) :: fillings f (f.len - (k + 1))).map fun t => check (ws.take (k + 1) ++ t)
  if found.any Option.isNone then none
  else (found.filterMap id).foldl (fun best c => match best with
    | some b => if rank b < rank c then some c else best
    | none => some c) none

/-- The lowest failing word of an instruction, with its cause (R51). -/
def failingWord {α : Type} (rank : α → Nat) (check : List Nat → Option α) (f : Fmt) (ws : List Nat) : Option (Nat × α) :=
  (List.range f.len).findSome? fun k => (prefixFault rank check f (ws.take f.len) k).map fun c => (k, c)

/-- Rank of a cause (R51). -/
def DecodeCause.rank : DecodeCause → Nat
  | .framing => 1 | .opcode => 2 | .clauseClass => 3 | .reserved => 4 | .field => 5 | .latch => 6 | .range => 7

/-- The checks of an instruction's words after those of its first word's opcode and place (R51). -/
def fieldCheck (vregs : Nat) (done : List (Nat × Instr)) (pos : Nat) (ws : List Nat) : Option DecodeCause :=
  match decodeWords ws with
  | .error c => some c
  | .ok (i, _) => instrCheck vregs done pos i

/-- Walk the words of a clause (R50, R51): the instructions by first word, or the lowest failing word and its cause. -/
def walkClause (vregs cls count : Nat) : Nat → List Nat → Nat → List (Nat × Instr) →
    Except (Nat × DecodeCause) (List (Nat × Instr))
  | 0, _, _, done => .ok done
  | fuel + 1, ws, pos, done =>
    if pos ≥ count then .ok done else
    match firstCheck cls count pos (ws.headD 0) with
    | .error c => .error (pos, c)
    | .ok f =>
      match fieldCheck vregs done pos ws, decodeWords ws with
      | none, .ok (i, n) => walkClause vregs cls count fuel (ws.drop n) (pos + n) (done ++ [(pos, i)])
      | none, .error c => .error (pos, c)
      | some c, _ =>
        let r := (failingWord DecodeCause.rank (fieldCheck vregs done pos) f ws).getD (0, c)
        .error (pos + r.1, r.2)

/-- Decode a clause: header, words after it, word offset of the header in its segment. An error names the failing word
(0 the header, k + 1 word k) and the cause. -/
def clauseDecode (vregs h off : Nat) (ws : List Nat) : Except (Nat × DecodeCause) (List (Nat × Instr)) :=
  match headerCheck h off with
  | some c => .error (0, c)
  | none =>
    match walkClause vregs (hClass h) (hCount h) 16 ws 0 [] with
    | .error (k, c) => .error (k + 1, c)
    | .ok l => .ok l

/-! ### Apprentice code (spec/17 R404, R406) -/

/-- A selector that Apprentice code may read; `wide` says that the field has 8 bits. -/
def apprSource (wide : Bool) : Sel → Bool
  | .v n => decide (n < 32)
  | .x _ => true
  | .s n => wide || decide (n < 8)
  | .zero => true | .one => true | .negOne => true | .two => true | .crewSize => true
  | .half => wide | .laneIdx => wide | .sliceIdx => wide
  | _ => false

/-- A destination that Apprentice code may write. -/
def apprDest : Sel → Bool
  | .v n => decide (n < 32)
  | _ => false

/-- Instructions that Apprentice code admits (R404). -/
def apprAdmits : Instr → Bool
  | .mov _ | .movi .. | .iadd _ | .iaddc _ | .isub _ | .isubb _ | .imul _ | .imulh _ | .imad _ | .imadw _ | .idiv _
  | .irem _ | .imin _ | .imax _ | .iabs _ | .ineg _ | .popc _ | .clz _ | .ctz _ | .brev _ | .and _ | .or _ | .xor _
  | .andn _ | .shl _ | .shr _ | .sar _ | .rot _ | .bfx .. | .bfi .. | .perm .. | .icmp .. | .sel .. | .plop .. => true
  | .ld .. | .apush .. | .apushVec .. | .apushBcld .. | .bra .. | .nop | .exit => true
  | _ => false

/-- The form of LD that Apprentice code may hold (R406). -/
def apprLdForm : Instr → Bool
  | .ld w ord scope nw sw addr _ st =>
    w == .b32 && ord == .relaxed && scope == .crew && !nw && !sw && st.isNone && (match addr with | .off .. => true | .ptr _ => false)
  | _ => true

/-- Formats whose selectors have 8 bits: word 1 of format B with XW = 1. -/
def wideSels (w : Nat) : Bool := opFmt (bits w 25 7) == some Fmt.b && bitAt w 20

/-- Source selectors, each with the width of its field: true for 8 bits, as LD's record selector (R55, R404). -/
def apprReads (w : Nat) : Instr → List (Bool × Sel)
  | .ld _ _ _ _ _ (.off rr off) _ _ => (false, off) :: rr.sels.map fun p => (true, p.1)
  | i => i.reads.map fun p => (wideSels w, p.1)

/-- The decode checks of an instruction of Apprentice code, as an ECAUSE, in the order of R404. -/
def apprFieldCheck (done : List (Nat × Instr)) (pos : Nat) (ws : List Nat) : Option Nat :=
  match decodeWords ws with
  | .error c => some c.code
  | .ok (i, _) =>
    let xs := i.reads.filterMap fun p => match p.1 with | .x k => some k | _ => none
    if ((apprReads (ws.headD 0) i).all fun p => apprSource p.1 p.2) = false ∨ ((i.dests true).all fun p => apprDest p.1) = false ∨
        apprLdForm i = false ∨ (i.reads ++ i.dests true).any (fun p => match p.1 with | .v k => decide (k + p.2 > 32) | _ => false) then
      some 0x03
    else if xs.all (latchOk done pos) = false then some 0x06
    else none

/-- Rank of an ECAUSE of a word (R51, R404). -/
def ecauseRank (c : Nat) : Nat :=
  if c = 0x04 then 4 else if c = 0x03 then 5 else if c = 0x06 then 6 else 1

/-- Walk the words of an Apprentice's clause: the first failing word decides ECAUSE. A word that is not admitted counts
after every word that fails a decode check (R404). -/
def apprWalk (cls count : Nat) : Nat → List Nat → Nat → List (Nat × Instr) → Option Nat → Option Nat
  | 0, _, _, _, late => late
  | fuel + 1, ws, pos, done, late =>
    if pos ≥ count then late else
    match firstCheck cls count pos (ws.headD 0) with
    | .error c => some c.code
    | .ok f =>
      match apprFieldCheck done pos ws, decodeWords ws with
      | none, .ok (i, n) =>
        apprWalk cls count fuel (ws.drop n) (pos + n) (done ++ [(pos, i)])
          (if apprAdmits i then late else some 0x65)
      | none, .error c => some c.code
      | some c, _ => some (((failingWord ecauseRank (apprFieldCheck done pos) f ws).map (·.2)).getD c)

/-- ECAUSE of an Apprentice's clause, if it fails (R404). -/
def apprClauseCheck (h off : Nat) (ws : List Nat) : Option Nat :=
  match headerCheck h off with
  | some .framing => some 0x01
  | some c => some c.code
  | none =>
    if bits h 6 13 ≠ 0 then some 0x04
    else apprWalk (hClass h) (hCount h) 16 ws 0 [] none

/-! ### Fetch (spec/16 R395, R396) -/

/-- The words of a landed segment as a crew's domain may run them. -/
def State.segWords (s : State) (w : Workgroup) (dom seg : Nat) : Option (SMap Word) :=
  if s.segLanded w dom seg then
    match w.slotOf seg with
    | some k => some ((s.core w.core).istore.get k).words
    | none => none
  else none

/-- An uncorrectable error stands in a slot of a core's instruction store, or was met as its segment was read (spec/15 R358, spec/16
R397). -/
def State.codeBroken (s : State) (core k : Nat) : Bool := s.damage.contains (.code core k) || ((s.core core).istore.get k).bad

/-- A code word, and the words after it to the end of its segment. -/
def wordsFrom (m : SMap Word) (pc n : Nat) : List Nat :=
  (List.range n).map fun k => (m.get ((pc % 4096) / 4 + k)).toNat

/-- True when a code address names a landed segment and a word with a header's signature. -/
def State.isHeader (s : State) (w : Workgroup) (dom pc : Nat) : Bool :=
  match s.segWords w dom (pc / 4096) with
  | some m => bits ((m.get (pc % 4096 / 4)).toNat) 26 6 == 63
  | none => false

/-! ### Macro operations (spec/16 R398) -/

/-- A 7-bit code with the alignment of a selector: its own where it has one. -/
def standIn : Sel → Nat
  | .v n => n % 96
  | .s n => 112 + n % 8
  | r => r.code7

/-- The instruction of a macro operation: the format-A word with its placeholders substituted (R398). The word is checked with
stand-ins that fit 7 bits; the selectors themselves may be any of the 8-bit space. -/
def macroOp (op sub : Word) (sels : List Sel) : Except DecodeCause Instr :=
  let code (k : Nat) : Option Sel :=
    let c := bits sub.toNat (3 * k) 3
    if c ≥ 4 then some (sels.getD (c % 4) .zero) else none
  let put (w k : Nat) : Nat := match code k with | some r => putBits w (14 - 7 * k) 7 (standIn r) | none => w
  match decodeWords [put (put (put op.toNat 0) 1) 2] with
  | .error e => .error e
  | .ok (i, _) =>
    let step (acc : Except DecodeCause Instr) (k : Nat) : Except DecodeCause Instr :=
      match acc, code k with
      | .ok i, some r => (match i.withSel k r with
        | some j => .ok j
        | none => if standIn r = r.code7 then .ok i else .error .field)
      | x, _ => x
    [0, 1, 2].foldl step (.ok i)

/-- The checks of a macro's operations as a clause of CLASS 7 (R399). -/
def macroCheck (vregs : Nat) (sels : List Sel) : List (Word × Word) → Nat → List (Nat × Instr) → Option DecodeCause
  | [], _, _ => none
  | (op, sub) :: rest, pos, done =>
    match macroOp op sub sels with
    | .error e => some e
    | .ok i => match instrCheck vregs done pos i with
      | some e => some e
      | none => macroCheck vregs sels rest (pos + 1) (done ++ [(pos, i)])

end Sys2Proof.Machine
end

