-- ==== Sys2Proof/Machine/Issue.lean ====
section
/-! DEFINITION. The issue of an instruction by the agent at the head of the agenda: a gang of lanes (spec/02 R25-R27) or an
Apprentice (spec/17 R402-R412). What is common to every lane instruction stands here: operands, pops (R63, R408),
uniform registers (R76), locks (spec/08 R181, R182), machine checks (spec/15 R358), latches, parking, traps and the
end of the clause. -/

namespace Sys2Proof.Machine

open Sys2Proof

/-! ### Results -/

/-- What an instruction's meaning answers for a gang. -/
inductive Res where
  /-- Performed; the values it leaves as a latch, by lane. -/
  | ok (s : State) (latch : List (Nat × Dword))
  /-- Performed, terminal: lanes that go to a code address; the others continue at the next clause. -/
  | jump (s : State) (goto : List (Nat × Nat))
  /-- Nothing performed. -/
  | trap (s : State) (q : TrapReq)
  | park (s : State) (p : Park) (pd : Pend)
  /-- Performed, and the instruction has itself seen to its gang. -/
  | gone (s : State)
  /-- Not yet issued: the gang stays where it stands, without being parked. -/
  | stay (s : State)

/-- The address of the instruction word, as a trap reports it. -/
def ClauseRun.at (r : ClauseRun) : Nat := r.base + 4 + 4 * r.pos

/-- The address of the next clause (R46). -/
def ClauseRun.next (r : ClauseRun) : Nat := r.base + 4 + 4 * r.words.length

def Env.fpc (e : Env) : Nat := e.run.at

/-- What a gang's instruction reads its operands from. -/
def State.env (s : State) (t : Nat) (g : Gang) (r : ClauseRun) : Env :=
  let w := s.wg t
  { s := s, t := t, w := w, g := g, run := r
    word := match r.mac with | some m => m.pos | none => r.pos
    latches := match r.mac with | some m => m.latches | none => r.latches
    ls := lanesOf g.hset r.exec, iss := lanesOf g.hset r.issue, pops := [] }

/-- A trap of lanes at the instruction. -/
def Env.trap (e : Env) (cause : Nat) (ls : List Nat) (detail : List Word := []) : Res :=
  .trap e.s { cause := cause, faulters := ls, fpc := e.fpc, detail := fun _ => detail }

/-! ### Gangs: the end of an instruction and of a clause -/

/-- Change a gang. -/
def State.updGang (s : State) (t g : Nat) (f : Gang → Gang) : State := s.updWg t fun w => w.updGang g f

/-- The trap of lanes that fall through past their segment's last word (R46). -/
def State.fallTrap (s : State) (t gid last : Nat) : State :=
  match (s.wg t).gang? gid with
  | none => s
  | some g => s.takeTrap t gid { cause := 0x01, faulters := lanesOf g.hset g.mask, fpc := last, decode := true }

/-- What the YIELD bit of a header does to its gang at the end of the clause, and YIELD itself (R41): the hold is the next `yhold`
cycles, after the current one. -/
def Gang.yielded (g : Gang) (yhold : Nat) : Gang :=
  { g with ages := g.ages.map fun _ => 0, hold := yieldHold yhold }

/-- The gang's clause ends: YIELD, then the next clause, or the trap of R46. -/
def State.endClause (s : State) (t gid : Nat) (r : ClauseRun) : State :=
  let y := (s.wg t).yhold.toNat
  let off := r.next % 4096 == 0
  let s1 := s.updGang t gid fun g =>
    let g1 := if hYield r.hdr.toNat then g.yielded y else g
    { g1 with clause := none, park := none, moved := true, pc := if off then r.next - 4 else r.next }
  if off then s1.fallTrap t gid (r.next - 4) else s1

/-- The latch an instruction leaves (R62). -/
def mkLatch (word : Nat) (mask : BitVec 32) (vals : List (Nat × Dword)) : Latch :=
  { word := word, mask := mask, vals := overList vals [] fun m p => SMap.set m (posOf p.1) p.2 }

/-- The clause after an instruction of n words has performed. -/
def ClauseRun.step (r : ClauseRun) (n : Nat) (l : Option (List (Nat × Dword))) : ClauseRun :=
  match r.mac with
  | none =>
    let ls := match l with | some v => r.latches ++ [mkLatch r.pos r.exec v] | none => r.latches
    { r with pos := r.pos + n, latches := ls, pend := .none }
  | some m =>
    if m.pos + 1 ≥ m.ops.length then { r with pos := r.pos + 2, mac := none, pend := .none }
    else
      let ls := match l with | some v => m.latches ++ [mkLatch m.pos r.exec v] | none => m.latches
      { r with mac := some { m with pos := m.pos + 1, latches := ls }, pend := .none }

/-- An instruction has performed: the gang goes on in its clause, or the clause ends. -/
def State.advance (s : State) (t gid : Nat) (i : Instr) (r : ClauseRun) (vals : List (Nat × Dword)) : State :=
  let r1 := r.step i.len (if i.leavesLatch then some vals else none)
  if r1.pos ≥ r1.words.length then s.endClause t gid r1
  else s.updGang t gid fun g => { g with clause := some r1, park := none }

/-- The lanes of an ended clause go on at the addresses given; a gang whose lanes differ splits, and every new path keeps its
age (R21, R24). -/
def State.transfer (s : State) (t gid : Nat) (r : ClauseRun) (goto : List (Nat × Nat)) : State :=
  let w := s.wg t
  match w.gang? gid with
  | none => s
  | some g0 =>
    let g := if hYield r.hdr.toNat then g0.yielded w.yhold.toNat else g0
    let pcOf (l : Nat) : Nat := match goto.find? fun p => p.1 == l with | some p => p.2 | none => r.next
    let jumps (l : Nat) : Bool := goto.any fun p => p.1 == l
    let ls := lanesOf g.hset g.mask
    match dedup (ls.map fun l => (jumps l, pcOf l)) with
    | [(true, pc)] => s.updGang t gid fun _ => { g with clause := none, park := none, moved := true, pc := pc }
    | [(false, _)] => (s.updGang t gid fun _ => g).endClause t gid r
    | ks =>
      let s1 := s.setWg t (w.dropGang gid)
      overList ks s1 fun s k =>
        let m := maskOfLanes (ls.filter fun l => jumps l == k.1 && pcOf l == k.2)
        let id := (s.wg t).nextGang
        let s2 := s.updWg t fun w => w.addGang { g with
          mask := m, clause := none, park := none
          pc := if k.1 = false ∧ k.2 % 4096 = 0 then k.2 - 4 else k.2 }
        if k.1 = false ∧ k.2 % 4096 = 0 then s2.fallTrap t id (k.2 - 4) else s2

/-! ### Record accesses of an instruction -/

/-- How a record access of an instruction ends before anything is performed. -/
inductive AccOut where
  | trap (s : State) (q : TrapReq)
  | park (s : State) (p : Park) (pd : Pend)
  | ok (s : State) (as : List LaneAcc)

/-- Stall cycles of an access that waits for a race entry, and whether it may go on unchecked (spec/10 R253). -/
def Pend.stallOf : Pend → Nat × Bool
  | .stall n p => (n, p)
  | _ => (0, false)

/-- What an access that stalls keeps: the cycles so far, or none where the access before it has just gone on unchecked. -/
def Pend.stalled (p : Pend) : Pend := .stall (if p.stallOf.2 then 0 else p.stallOf.1) false

/-- An instruction whose stalled access has gone on keeps nothing of the stall. -/
def Pend.unstalled : Pend → Pend
  | .stall .. => .none
  | p => p

/-- DETAIL of a machine check (spec/15 R364). -/
def mcDetail (unit pa : Nat) : List Word := BitVec.ofNat 32 unit :: twoWords pa

/-- The machine check of lanes that load bytes, precise at their instruction and logged (spec/15 R358). Where lanes meet different
ones, the cause is the lowest lane's, and its faulters are the lanes that met that cause (DEDUCED, log 31). -/
def State.mcTrap (s : State) (fpc : Nat) (xs : List (Nat × List Span)) : Option (State × TrapReq) :=
  let hits := xs.filterMap fun p => (p.2.findSome? s.mcOf).map fun m => (p.1, m)
  match (sortNat (hits.map (·.1))).findSome? fun l => hits.find? fun p => p.1 == l with
  | none => none
  | some h =>
    let fs := hits.filter fun p => p.2.1 == h.2.1
    some (s.logMc h.2.1 h.2.2.1 h.2.2.2, {
      cause := h.2.1, faulters := fs.map (·.1), fpc := fpc
      detail := fun k => match fs.find? fun p => p.1 == k with | some p => mcDetail p.2.2.1 p.2.2.2 | none => [] })

/-- The bytes that a lane's load reads. -/
def LaneAcc.reads (a : LaneAcc) : Nat × List Span :=
  (a.lane, spansOf a.pieces ++ a.conv.flatMap fun e => e.spans ++ e.scale)

/-- What a crew reads to find a record or a shape record at its first use in a callee domain (spec/14 R351, spec/09 R197): the walks,
and the record's bytes. -/
def State.recReads (s : State) (w : Workgroup) (c i k : Nat) (shape : Bool := false) : List Span :=
  let cr := w.crew c
  if cr.depth = 0 then [] else
  let dw := (s.descUse w.core cr.domain).getD (s.descMem cr.domain)
  s.descReads w.core cr.domain ++
  if (shape = false ∧ i = 0) ∨ ((s.core w.core).recs.any fun e => e.key == .domain cr.domain && e.shape == shape && e.idx == i) then []
  else
    let va := (if shape then fieldOf dw 439 384 else fieldOf dw 375 320) + 64 * i
    (granules va 64).flatMap (fun g => s.walkReads w.core cr.domain g.1 k) ++
      spansOf ((s.xlate w.core cr.domain false true k [(va, 64)]).filterMap (·.2.1))

/-- The residency-map entry that a lane's access through a paged record reads at its home, as far as it is mapped (spec/09 R215,
R219). -/
def State.mapReads (s : State) (t : Nat) (q : LaneReq) : List Span :=
  let w := s.wg t
  match (w.lane q.lane).crew with
  | none => []
  | some c =>
    let cr := w.crew c
    match s.recGet w c q.idx (8 * q.lane) with
    | .error _ => []
    | .ok (ws, _) =>
      let r := recBits ws
      let mv := mapVa r q.off
      if rKind r ≠ 2 ∨ q.clipped ∨ q.off ≥ rExtent r ∨ ((s.core w.core).maps.any fun m => m.domain == cr.domain && m.va == mv) then []
      else spansOf ((s.xlate w.core cr.domain false cr.handler (8 * q.lane + 5) [(mv, 8)]).filterMap (·.2.1))

/-- A lane's map entry meets no machine check. -/
def State.mapFine (s : State) (t : Nat) (q : LaneReq) : Bool := (s.mapReads t q).all fun x => (s.mcOf x).isNone

/-- What the translation of a lane's access reads: the record of a callee domain, page-table entries, the residency-map entry. -/
def State.tableReads (s : State) (t : Nat) (sp : AccSpec) (stat : Bool) (q : LaneReq) : List Span :=
  let w := s.wg t
  let dom := w.domOf q.lane
  let walks (vas : List Nat) : List Span := vas.flatMap fun va => s.walkReads w.core dom va (8 * q.lane + 5)
  (match (w.lane q.lane).crew with | some c => s.recReads w c q.idx (8 * q.lane) | none => []) ++
  (match s.resolve t sp stat q with
    | .inl f => walks (f.grans.map (·.va))
    | .inr a => walks (a.pieces.map (·.va) ++ (a.map.toList.map (·.1))) ++ if rKind a.rcd = 4 then s.descReads w.core dom else []) ++
  s.mapReads t q

/-- An access of lanes translates after the stores that happen before it have been performed (spec/14 R338): those that write what
its walks read are performed first, again as long as the tables they change lead to further ones. The state, and the item waited
for. -/
def State.walkSettle (s : State) (t : Nat) (ls : List Nat) (reads : State → Nat → List Span) : Nat → State × Option (Nat × Nat)
  | 0 => (s, none)
  | n + 1 =>
    if ((s.wg t).items.all fun i => i.done || i.op.aside) && (s.passed (ls.map fun l => .lane t l)).isEmpty then (s, none) else
    let op : FlightOp := .load .b64 none (ls.map fun l => { lane := l, spans := reads s l, l1 := false, conv := [] }) []
    let x := s.asItem t ls .relaxed .crew false op
    if ((s.wg t).needOf x fun _ => false).isEmpty && (s.needsHome t x).isEmpty then (s, none)
    else match s.settleFor t x with
      | (s1, some p) => (s1, some p)
      | (s1, none) => s1.walkSettle t ls reads n

/-- A core takes a domain's descriptor where it is among what it reads to translate accesses (R333). -/
def State.descTake (s : State) (core d : Nat) (xs : List Span) : State :=
  if (s.descReads core d).any xs.contains then s.descNeed core d else s

/-- What lanes' translations come to before they are made: what they wait for, the stores that happen before (R338), and an all-bank
mode that holds what they read (spec/13 R324); then the core has taken the descriptors that it did not hold (R333). -/
def State.translated (s : State) (t : Nat) (ls : List Nat) (reads : State → Nat → List Span) : State × Option Park :=
  match s.walkSettle t ls reads 8 with
  | (s1, some (c, id)) => (s1, some (.item c id))
  | (s1, none) =>
    let xs := ls.flatMap (reads s1)
    match s1.heldIn xs with
    | some g => (s1, some (.bank g))
    | none => (overList (dedup (ls.map (s1.wg t).domOf)) s1 fun s d => s.descTake (s1.wg t).core d xs, none)

/-- The record path of an instruction of lanes (R203-R206): faults; race detection of a plain access; a wait for tiles that
are arriving; and the state with the caches filled and page-ins requested. Nothing has been performed. -/
def State.access (s0 : State) (t fpc : Nat) (pend : Pend) (sp : AccSpec) (stat plain : Bool) (reqs : List LaneReq)
    (pre : List LaneFault := []) : AccOut :=
  match s0.translated t (dedup (reqs.map (·.lane))) (fun s l => (reqs.filter (·.lane == l)).flatMap (s.tableReads t sp stat)) with
  | (s, some p) => .park s p pend
  | (s, none) =>
  -- a lane whose map entry cannot be read goes no further (spec/15 R358)
  let rs := (reqs.filter (s.mapFine t)).map (s.resolve t sp stat)
  let fs := pre ++ rs.filterMap fun r => match r with | .inl f => some f | .inr _ => none
  let as := rs.filterMap fun r => match r with | .inl _ => none | .inr a => some a
  let core := (s.wg t).core
  match faultTrap fpc fs with
  | some q => .trap s q
  | none =>
    match s.mcTrap fpc (reqs.map (fun q => (q.lane, s.mapReads t q)) ++ if sp.write then [] else as.map LaneAcc.reads) with
    | some q => .trap q.1 q.2
    | none =>
      let ra := if plain then (as.filter fun a => a.status == 0).flatMap raceAccs else []
      match s.raceTrap t fpc sp.write ra, s.requestHeld core as with
      | some q, _ => .trap s q
      | none, some g => .park s (.bank g) pend
      | none, none =>
        let s1 := (s.keepCaches core as).requests core as
        if stat = false ∧ as.any (fun a => a.status == 5 || a.status == 1) then .park s1 .residency .none
        else
          match s1.raceKeep t sp.write pend.stallOf.2 ra with
          | (s2, false) => .park s2 .race pend.stalled
          | (s2, true) => .ok s2 as

/-- The lane's part of a load (R208, R209). No carve-out holds a line of a peer (spec/11 R259). -/
def loadLaneOf (l1ok : Bool) (a : LaneAcc) : LoadLane :=
  let normal := a.pieces.all fun p => p.ty == 0 && aperture p.pa != some 2 && aperture p.pa != some 4
  { lane := a.lane
    spans := if a.conv.isEmpty then spansOf a.pieces else []
    l1 := l1ok && normal && !bitAt a.rcd 62 && !rChecked a.rcd
    conv := a.conv }

/-- The lane's part of a load that waits for sweep entries by itself (spec/13 R315). -/
def State.sworded (s : State) (a : LaneAcc) : LoadLane :=
  { loadLaneOf (!rSword a.rcd) a with waits := s.accWaits false a }

/-- Memory types of accesses. -/
def typesOf (as : List LaneAcc) : List Nat := as.flatMap fun a => a.pieces.map (·.ty)

/-! ### Pops from Apprentice queues (spec/17 R408) -/

/-- What the pops of an instruction come to. -/
inductive PopOut where
  | ready (es : List ApprEntry)
  | trap (cause : Nat) (ls : List Nat)
  | req (q : TrapReq)
  | wait (s : State) (p : Park) (pd : Pend)

/-- The reload of an entry, or of a stalled LD, as one LD by E. -/
def Env.reload (e : Env) (unit : Nat) (q : Option (Nat × Nat)) (ld : ApprLoad) : PopOut :=
  let reqs := e.ls.map fun l => { lane := l, idx := ld.recd, off := ld.off + (if ld.vec then 4 * (l % 32) else 0) : LaneReq }
  match e.s.access e.t e.fpc e.run.pend { z := 4 } false true reqs with
  | .trap _ q => .req q
  | .park s p pd => .wait s p pd
  | .ok s as =>
    let c := (e.crew?).getD 0
    let pd := e.run.pend.unstalled
    if (e.w.crew c).count .dm ≥ 63 then .wait s (.counter .dm [(c, 62)]) pd else
    let (o, sc) := effective .relaxed .crew (typesOf as)
    let chk := as.any fun a => !(raceAccs a).isEmpty
    let id := s.nextItem e.t
    let s1 := s.launch e.t e.ls (some .dm) o sc ((typesOf as).contains 2) chk
      (.reload unit q e.g.id (as.map s.sworded)) none (usedOf as)
    .wait (if o = .relaxed then s1 else s1.updWg e.t fun w => w.endInterval e.ls) (.item c id) pd

/-- A reload of an entry of a queue, or of the stalled LD (none), that is in flight for another gang of the crew: a pop waits for it,
so that two gangs never reload one entry (DEDUCED, log 38). -/
def Env.otherReload (e : Env) (c : Nat) (q : Option Nat) : Option Nat :=
  ((e.w.crew c).flight.find? fun i => !i.done && (match i.op with
    | .reload _ x g _ => g != e.g.id && x.map (·.1) == q
    | _ => false)).map (·.id)

/-- The pops of an instruction, in order (R63, R408). -/
def Env.popAll (e : Env) (c unit : Nat) : List Nat → List Nat → List ApprEntry → PopOut
  | [], _, acc => .ready acc
  | q :: rest, seen, acc =>
    let a := (e.s.core e.w.core).apprs.get unit
    let k := (seen.filter (· == q)).length
    match e.otherReload c (some q) with
    | some id => .wait e.s (.item c id) e.run.pend.unstalled
    | none =>
    match (a.queues.get q)[k]? with
    | some x =>
      if x.pending || x.new then .wait e.s (.pop c q) e.run.pend.unstalled
      else if x.fresh = some e.g.id then e.popAll c unit rest (q :: seen) (acc ++ [x])
      else match x.load with
        | none => e.popAll c unit rest (q :: seen) (acc ++ [x])
        | some ld =>
          if x.poison ∨ x.sync ≠ (e.w.crew c).sync then e.reload unit (some (q, k)) ld
          else e.popAll c unit rest (q :: seen) (acc ++ [x])
    | none =>
      match a.st with
      | .stalled => match a.ld, e.otherReload c none with
        | some (_, ld), none => e.reload unit none ld
        | _, some id => .wait e.s (.item c id) e.run.pend.unstalled
        | none, none => .wait e.s (.pop c q) e.run.pend.unstalled
      | .ended => .trap 0x65 e.ls
      | _ => .wait e.s (.pop c q) e.run.pend.unstalled

/-- The pops of an instruction with their crew checks. -/
def Env.popsOf (e : Env) (i : Instr) : PopOut :=
  let qs := popQueues i.reads
  if qs.isEmpty ∨ e.ls.isEmpty then .ready []
  else if e.crewless ≠ [] then .trap 0x6D e.crewless
  else if e.mixed then .trap 0x6F e.ls
  else
    let c := (e.crew?).getD 0
    match (e.w.crew c).appr with
    | some { unit := some u, .. } => e.popAll c u qs [] []
    | _ => .trap 0x65 e.ls

/-- Take the popped entries off their queues, count them in the binding, and close the regions (R408, R367). -/
def State.takePops (s : State) (e : Env) (i : Instr) : State :=
  let qs := popQueues i.reads
  if qs.isEmpty ∨ e.ls.isEmpty then s
  else
    let c := (e.crew?).getD 0
    match ((s.wg e.t).crew c).appr with
    | some b =>
      let s1 := match b.unit with
        | some u => s.updCore e.w.core fun k => { k with apprs := k.apprs.upd u fun a =>
            { a with queues := overList qs a.queues fun m q => m.set q ((m.get q).drop 1) } }
        | none => s
      s1.updWg e.t fun w => (w.updCrew c fun x => { x with
        appr := some { b with pops := overList qs b.pops fun m q => m.set q (m.get q + 1) } }).closeRegion e.ls
    | none => s

/-- The collective matrix instructions, whose traps undo no pop (spec/07 R152). -/
def keepsPops (i : Instr) : Bool :=
  match i with
  | .mma .. | .mmas .. | .mmam .. | .mmax .. | .mmaz .. => true
  | _ => false

/-! ### What every issue checks -/

/-- Instructions that a gang may issue while a lane of it holds a lock (spec/08 R181), and GCALL, which makes that check after its
crew checks (spec/14 R350). -/
def lockFree (i : Instr) : Bool :=
  match i with
  | .stul .. | .bra .. | .bri _ | .nop => true
  | .gcall .. | .gcallReg .. => true
  | _ => i.leavesLatch && (match i with | .excrd .. => false | _ => true)

/-- The first crew of the issue mask with a machine check to be delivered (spec/15 R358). -/
def Env.mcheck (e : Env) : Option (Nat × Nat × Nat × Nat) :=
  (e.w.crewsOf e.iss).findSome? fun c => (e.w.crew c).mcheck.map fun m => (c, m)

/-- The machine check of lanes of E that read a register in which an uncorrectable error stands (spec/15 R358). A register has no
physical address; DETAIL and MCLAST hold 0 (DESIGN CHOICE, log 31). -/
def Env.regCheck (e : Env) (i : Instr) : Option Res :=
  let hit (l : Nat) (d : Config.Damage) : Bool := i.reads.any fun p => match d with
    | .reg t k n => t == e.t && k == l && (match regCode p.1 with | some c => decide (c ≤ n) && decide (n < c + p.2) | none => false)
    | .uniform t c n => t == e.t && (e.w.lane l).crew == some c && (match p.1 with | .s m => decide (m ≤ n) && decide (n < m + p.2) | _ => false)
    | _ => false
  match e.ls.filter fun l => e.s.damage.any (hit l) with
  | [] => none
  | ls => some (.trap (e.s.logMc 0xB1 2 0) { cause := 0xB1, faulters := ls, fpc := e.fpc, detail := fun _ => mcDetail 2 0 })

/-- Lanes of the issue mask that hold a lock. -/
def Env.holders (e : Env) : List Nat := e.iss.filter fun l => (e.w.lane l).lock.isSome

/-- Detail of a lock trap: the granule's physical offset (spec/15 R364). -/
def Env.lockDetail (e : Env) (l : Nat) : List Word :=
  match (e.w.lane l).lock with
  | some k => [BitVec.ofNat 32 k.phys]
  | none => []

/-- The crew checks of uniform registers (R29, R76): a crewless lane that reads or writes one, lanes of two crews that write
one. PREF drops such lanes instead (spec/09 R224). -/
def Env.crewTrap (e : Env) (i : Instr) : Option (Nat × List Nat) :=
  let pref := match i with | .prefL1 .. => true | .prefL2 .. => true | .prefPagein .. => true | _ => false
  let rd := !pref && i.reads.any fun p => p.1.isS
  let wr := i.writes.any fun p => p.1.isS
  if (rd ∨ wr) ∧ e.crewless ≠ [] then some (0x6D, e.crewless)
  else if wr ∧ e.mixed then some (0x6F, e.ls)
  else none

/-- Instructions that act on the crew's streams, on barriers or on Apprentices' bindings, which a callee may not use (spec/14
R351). -/
def calleeBars : Instr → Bool
  | .qrd .. | .qpushClaim .. | .qpushCommit .. | .qfree .. | .qinit .. => true
  | .binit .. | .bexpect .. | .bexpectReg .. | .barrive .. | .bwait .. | .btest .. => true
  | .astart .. | .astartStop _ => true
  | _ => false

/-- Matrix instructions. -/
def isMatrix : Instr → Bool
  | .mma .. | .mmas .. | .mmam .. | .mmax .. | .mmaz .. | .mmafin _ | .maccrd .. | .maccwr .. | .mxwait _ | .mtrans .. => true
  | _ => false

/-- GATE_STATE of what a callee may not use (spec/14 R351); it ranks after the crew checks. -/
def Env.gateTrap (e : Env) (i : Instr) : List Nat :=
  if calleeBars i then
    if e.crewless ≠ [] ∨ e.mixed then [] else e.ls.filter fun l => (e.w.gateOf l).isSome
  else if isMatrix i then
    e.ls.filter fun l => match e.w.gateOf l with | some g => gateFld g 14 14 == 0 | none => false
  else []

/-- Count the issue for every lock that was held in the issue mask and still is (R182). -/
def State.countLocks (s : State) (e : Env) : State :=
  s.updWg e.t fun w => overList e.holders w fun w l => match (w.lane l).lock with
    | some k => w.updLane l fun x => { x with lock := some { k with issues := k.issues + 1 } }
    | none => w

/-- Lanes whose lock has been held for 16 issues already (R182). -/
def Env.overHeld (e : Env) : List Nat := e.holders.filter fun l => match (e.w.lane l).lock with
  | some k => decide (k.issues ≥ 16)
  | none => false

/-! ### Issue by a gang -/

/-- Close an issue: advance, transfer, trap or park. A park while a lane holds a lock is LOCK_HOLD (R182). -/
def State.settleRes (e : Env) (i : Instr) (r : Res) : State :=
  let t := e.t
  let gid := e.g.id
  match r with
  | .ok s l => ((s.countLocks e).takePops e i).advance t gid i e.run l
  | .jump s goto => ((s.countLocks e).takePops e i).transfer t gid e.run goto
  | .trap s q => (if keepsPops i && !e.pops.isEmpty then s.takePops e i else s).takeTrap t gid q
  | .gone s => s.takePops e i
  | .stay s => s
  | .park s p pd =>
    match e.holders with
    | [] => s.updGang t gid fun g => { g with park := some p, moved := true, clause := some { e.run with pend := pd } }
    | h => s.takeTrap t gid { cause := 0x62, faulters := h, fpc := e.fpc, detail := e.lockDetail }

/-- The issue of an instruction by a gang that stands at it. -/
def State.issue (s0 : State) (t : Nat) (g : Gang) (r : ClauseRun) (i : Instr) (body : Env → Res) : State :=
  let e0 := s0.env t g r
  match e0.mcheck with
  | some (c, cause, unit, pa) =>
    (s0.updWg t fun w => w.updCrew c fun x => { x with mcheck := none }).takeTrap t g.id
      { cause := cause, faulters := e0.iss.filter fun l => (e0.w.lane l).crew == some c, fpc := e0.fpc
        detail := fun _ => mcDetail unit pa }
  | none =>
    match e0.overHeld with
    | l :: ls => s0.takeTrap t g.id { cause := 0x62, faulters := l :: ls, fpc := e0.fpc, detail := e0.lockDetail }
    | [] =>
      if e0.holders ≠ [] ∧ lockFree i = false then
        s0.takeTrap t g.id { cause := 0x63, faulters := e0.holders, fpc := e0.fpc, detail := e0.lockDetail }
      else
        match e0.crewTrap i with
        | some (cause, ls) => State.settleRes e0 i (e0.trap cause ls)
        | none =>
        match e0.gateTrap i with
        | l :: ls => State.settleRes e0 i (e0.trap 0x75 (l :: ls))
        | [] =>
        match e0.regCheck i with
        | some r => State.settleRes e0 i r
        | none =>
          match e0.popsOf i with
          | .trap cause ls => State.settleRes e0 i (e0.trap cause ls)
          | .req q => State.settleRes e0 i (.trap s0 q)
          | .wait s1 p pd => State.settleRes e0 i (.park s1 p pd)
          | .ready es => State.settleRes { e0 with pops := es } i (body { e0 with pops := es })

/-- Free values that one issue may draw. -/
def freeStride : Nat := 2097152

/-- The free values an issue has drawn are used up. -/
def State.spent (s : State) (n : Nat) : State := { s with free := n + freeStride }

/-- The instruction's issuer: the gang or Apprentice at the head of the agenda, which is popped. A gang must stand at an
instruction of a clause and not be parked. -/
def laneIssue (i : Instr) (body : Env → Res) (s : State) : Host.Outcome State Fault Refusal :=
  match s.agenda with
  | .gang t gid :: rest =>
    let s1 := { s with agenda := rest }
    match (s1.wg t).gang? gid with
    | some g =>
      match g.clause, g.park with
      | some r, none => .next ((s1.issue t g r i body).spent s.free)
      | _, _ => .fault .noIssuer
    | none => .fault .noIssuer
  | _ => .fault .noIssuer

/-! ### Apprentices (spec/17 R403, R404) -/

/-- A register or constant as an Apprentice reads it: register k of a selector. -/
def Apprentice.word32 (a : Apprentice) (s : SMap Word) (members : Nat) (r : Sel) (pos k : Nat) : Word :=
  match r with
  | .v n => a.w.get (n + k)
  | .s n => s.get (n + k)
  | .x n => match a.clause with
    | some c => ((latchRead c.latches (pos - (n + 1)) 0) >>> (32 * k)).setWidth 32
    | none => 0
  | .crewSize => BitVec.ofNat 32 members
  | _ => 0

/-- An operand as an Apprentice reads it. -/
def Apprentice.opd (a : Apprentice) (s : SMap Word) (members pos : Nat) : Opd → Dword
  | .imm w => w
  | .int t r => match constInt t 0 members r with
    | some x => BitVec.ofNat 64 x
    | none => (a.word32 s members r pos 0).setWidth 64
  | .flt _ r => (a.word32 s members r pos 0).setWidth 64
  | .pair r => match r with
    | .zero => 0
    | _ => (a.word32 s members r pos 1) ++ (a.word32 s members r pos 0)

/-- What an Apprentice's instruction comes to. -/
inductive ApprRes where
  | ok (s : State) (latch : Option Dword)
  | jump (s : State) (pc : Nat)
  /-- The Apprentice stays where it is. -/
  | wait (s : State)

/-- Change an Apprentice. -/
def State.updAppr (s : State) (core u : Nat) (f : Apprentice → Apprentice) : State :=
  s.updCore core fun k => { k with apprs := k.apprs.upd u f }

/-- The Apprentice after its instruction; falling through past the segment's last word ends it (spec/03 R46). -/
def Apprentice.step (a : Apprentice) (i : Instr) (r : ClauseRun) (l : Option Dword) : Apprentice :=
  let r1 := r.step i.len (if i.leavesLatch then (match l with | some v => some [(0, v)] | none => none) else none)
  if r1.pos ≥ r1.words.length then
    if r1.next % 4096 = 0 then { a with clause := none, st := .ended, ecause := 0x01 }
    else { a with clause := none, pc := r1.next }
  else { a with clause := some r1 }

/-- The issue of an instruction by an Apprentice. -/
def apprIssue (i : Instr) (body : State → Nat → Nat → Apprentice → ClauseRun → ApprRes) (s : State) (core u : Nat) :
    Host.Outcome State Fault Refusal :=
  let a := (s.core core).apprs.get u
  match a.st, a.ld, a.clause with
  | .running, none, some r =>
    match body s core u a r with
    | .ok s1 l => .next ((s1.updAppr core u fun x => x.step i r l).spent s.free)
    | .jump s1 pc => .next ((s1.updAppr core u fun x => { x with clause := none, pc := pc }).spent s.free)
    | .wait s1 => .next (s1.spent s.free)
  | _, _, _ => .fault .noIssuer

/-- An instruction that lanes and Apprentices issue. -/
def bothIssue (i : Instr) (body : Env → Res) (abody : State → Nat → Nat → Apprentice → ClauseRun → ApprRes) (s : State) :
    Host.Outcome State Fault Refusal :=
  match s.agenda with
  | .appr core u :: rest => apprIssue i abody { s with agenda := rest } core u
  | _ => laneIssue i body s

/-! ### Instructions that compute, lane by lane -/

/-- What a lane's computation reads beside its operands: CF, predicates, the lane's rounding mode (spec/06 R120). -/
structure LaneIn where
  vals : List Dword
  cf : Bool
  pred : Nat → Bool
  rnd : Rounding

/-- What a lane's computation gives: the result; CF and a predicate where written; flags and counts (spec/05 R116). -/
structure LaneOut where
  res : Dword
  cf : Option Bool := none
  pd : Option (Nat × Bool) := none
  flags : FFlags := 0
  sat : Nat := 0
  nan : Nat := 0

/-- Rounding mode of a sr.fpmode field. -/
def roundOf (b : BitVec 2) : Rounding := match b.toNat with | 0 => .rne | 1 => .rtz | 2 => .rup | _ => .rdn

/-- Destination of a computed result: first register and how many; none where nothing is written. -/
abbrev Dest := Option (Sel × Nat)

/-- Compute in every lane of E. -/
def Env.compute (e : Env) (ops : List Opd) (f : LaneIn → LaneOut) : List (Nat × LaneOut) :=
  e.ls.map fun l =>
    let x := e.w.lane l
    (l, f { vals := e.opds l ops 0 0, cf := x.cf, pred := x.pred, rnd := roundOf x.fpmode })

/-- Write predicates, CF and the summary of computed lanes. -/
def Workgroup.effects (w : Workgroup) (rs : List (Nat × LaneOut)) : Workgroup :=
  overList rs w fun w r =>
    (w.updLane r.1 fun x =>
      let x1 := match r.2.cf with | some b => { x with cf := b } | none => x
      match r.2.pd with | some (n, b) => x1.setPred n b | none => x1).sumUp r.2.flags r.2.sat r.2.nan

/-- A computing instruction of a gang: every source of every lane is read before any result is written (spec/00 R6). -/
def aluBody (ops : List Opd) (d : Dest) (f : LaneIn → LaneOut) (e : Env) : Res :=
  let rs := e.compute ops f
  let s1 := e.s.updWg e.t fun w =>
    let w1 := w.effects rs
    match d with
    | some (r, n) => w1.writeSel e.s.free r (rs.map fun p => (p.1, splitWords n p.2.res))
    | none => w1
  .ok s1 (rs.map fun p => (p.1, p.2.res))

/-- The same of an Apprentice (spec/17 R404). -/
def aluAppr (ops : List Opd) (d : Dest) (f : LaneIn → LaneOut) (s : State) (core u : Nat) (a : Apprentice) (r : ClauseRun) :
    ApprRes :=
  if r.exec = 0 then .ok s none else
  let w := s.wg a.wg
  let o := f { vals := ops.map (a.opd (w.crew a.crew).sBefore (w.members a.crew).length r.pos), cf := a.cf
               pred := fun n => n == 0 || a.p.getLsbD n, rnd := .rne }
  let put (x : Apprentice) : Apprentice :=
    let x1 := match d with
      | some (.v n, k) => { x with w := overList (splitWords k o.res).zipIdx x.w fun m p => m.set (n + p.2) p.1 }
      | _ => x
    let x2 := match o.cf with | some b => { x1 with cf := b } | none => x1
    match o.pd with
    | some (n, b) => if n = 0 then x2 else { x2 with p := setBit x2.p n b }
    | none => x2
  .ok (s.updAppr core u put) (some o.res)

/-- A computing instruction. -/
def alu (i : Instr) (ops : List Opd) (d : Dest) (f : LaneIn → LaneOut) (s : State) : Host.Outcome State Fault Refusal :=
  bothIssue i (aluBody ops d f) (aluAppr ops d f) s

/-- A destination under NW. -/
def dst (nw : Bool) (d : Sel) (n : Nat) : Dest := if nw then none else some (d, n)

/-- Operand k of a lane. -/
def LaneIn.val (x : LaneIn) (k : Nat) : Nat := (x.vals.getD k 0).toNat

end Sys2Proof.Machine
end

