-- ==== Sys2Proof/Machine/Spad.lean ====
section
/-! DEFINITION. Scratchpad addresses, lock bits and the shared parts of instructions that perform at their issue (spec/08
R169, R173, R180, R184), for the families that reach scratchpad. -/

namespace Sys2Proof.Machine

open Sys2Proof

/-- Bytes of a memory element (R172). -/
def wbytes : Width → Nat
  | .b8 => 1 | .b16 => 2 | .b32 => 4 | .b64 => 8 | .b128 => 16

/-- A byte of a window: the workgroup, the offset. -/
structure SpadLoc where
  lane : Nat
  owner : Nat
  off : Nat
  deriving DecidableEq, Repr, Inhabited

/-- n bytes at a scratchpad address of a lane (R169): whose window, and where in it. Inside a gate call a local address lies
in the callee's part of the window, and cluster space is closed (spec/14 R351). -/
def State.spadAt (s : State) (t l : Nat) (cluster : Bool) (ea n : Nat) : Option (Nat × Nat) :=
  let w := s.wg t
  match w.gateOf l with
  | some g => if cluster = false ∧ ea + n ≤ gateFld g 175 152 then some (t, gateFld g 151 128 + ea) else none
  | none =>
  if cluster then
    if ea ≥ 2 ^ 24 then none else
    let c := bits ea 22 2
    match w.sibAt t c with
    | some u =>
      let o := bits ea 0 22
      if (s.wg u).life != .absent && decide (o + n ≤ (s.wg u).spad) then some (u, o) else none
    | none => none
  else if ea + n ≤ w.spad then some (t, ea) else none

/-- DETAIL of a scratchpad cause (spec/15 R364). -/
def spadDetail (cluster : Bool) (ea : Nat) : List Word := [0, BitVec.ofNat 32 ea, if cluster then 1 else 0]

/-- The address checks of R173 for lanes with their addresses: SPAD_ALIGN before SPAD_RANGE. -/
def State.spadResolve (s : State) (t fpc : Nat) (cluster : Bool) (n : Nat) (reqs : List (Nat × Nat)) :
    Except TrapReq (List SpadLoc) :=
  let bad (cause : Nat) (l : List (Nat × Nat)) : TrapReq :=
    { cause := cause, faulters := l.map (·.1), fpc := fpc
      detail := fun k => match l.find? fun p => p.1 == k with | some p => spadDetail cluster p.2 | none => [] }
  match reqs.filter fun p => p.2 % n != 0 with
  | p :: ps => .error (bad 0x29 (p :: ps))
  | [] =>
    match reqs.filter fun p => (s.spadAt t p.1 cluster p.2 n).isNone with
    | p :: ps => .error (bad 0x28 (p :: ps))
    | [] => .ok (reqs.filterMap fun p => (s.spadAt t p.1 cluster p.2 n).map fun q => ⟨p.1, q.1, q.2⟩)

/-- Physical offset of a window byte (R169). -/
def State.spadPhys (s : State) (owner off : Nat) : Nat := (s.wg owner).base + off

/-- The checked lines of scratchpad accesses (spec/10 R251). -/
def State.spadRaces (s : State) (ls : List SpadLoc) (n : Nat) : List RaceAcc :=
  ls.flatMap fun x => spadRaceAccs x.lane (s.wg x.owner).core (s.spadPhys x.owner x.off) n

/-- A park for crews whose counter on a path is full (R177). -/
def Env.full (e : Env) (p : Path) : Option Park :=
  match (e.w.crewsOf e.ls).filter fun c => decide ((e.w.crew c).count p ≥ 63) with
  | [] => none
  | cs => some (.counter p (cs.map fun c => (c, 62)))

/-- Race detection of a checked access, with its stall (spec/10 R253, R254). A trapping instruction leaves no entries, of the lanes
that do not conflict neither (DEDUCED, log 21). -/
def Env.race (e : Env) (wr : Bool) (ra : List RaceAcc) : Except Res State :=
  match e.s.raceTrap e.t e.fpc wr ra with
  | some q => .error (.trap e.s q)
  | none =>
    match e.s.raceKeep e.t wr e.run.pend.stallOf.2 ra with
    | (s, false) => .error (.park s .race e.run.pend.stalled)
    | (s, true) => .ok s

/-- The machine check of loads from scratchpad, if they meet one (spec/15 R358). -/
def Env.padCheck (e : Env) (xs : List SpadLoc) (n : Nat) : Option Res :=
  (e.s.mcTrap e.fpc (xs.map fun x => (x.lane, [⟨.win x.owner x.off, n⟩]))).map fun q => .trap q.1 q.2

/-- End the interval of the lanes of E (spec/10 R249). -/
def State.endE (s : State) (e : Env) : State := s.updWg e.t fun w => w.endInterval e.ls

/-- Close the region of the lanes of E (spec/15 R367). -/
def State.closeE (s : State) (e : Env) : State := s.updWg e.t fun w => w.closeRegion e.ls

/-- What an instruction that performs at its issue waits for: it goes on in the state answered, or parks for an item. -/
def Env.settled (e : Env) (ord : Order) (scope : Scope) (dev : Bool) (op : FlightOp) : Except Res State :=
  let r := e.s.settleFor e.t (e.s.asItem e.t e.ls ord scope dev op)
  match r.2 with
  | some (c, id) => .error (.park r.1 (.item c id) e.run.pend)
  | none => .ok r.1

/-- An instruction whose walks come at its issue goes on once they can be made (`State.translated`). -/
def Env.walked (e : Env) (reads : State → Nat → List Span) (k : Env → Res) : Res :=
  match e.s.translated e.t e.ls reads with
  | (s, some p) => .park s p e.run.pend
  | (s, none) => k { e with s := s }

/-- The record cache of a core takes a callee's record or shape record at its first use (spec/09 R197). -/
def State.recKeep (s : State) (core : Nat) (r : Option RecEntry) : State :=
  match r with
  | some x => s.updCore core fun c => { c with recs := if c.recs.contains x then c.recs else x :: c.recs }
  | none => s

/-- What an instruction that uses record i of a crew at its issue reads by then, with what else it reads: the record of a callee
domain, and the descriptor that a record of kind 4 needs. -/
def Env.recWalk (e : Env) (c i : Nat) (more : State → Nat → List Span) (s : State) (l : Nat) : List Span :=
  s.recReads (s.wg e.t) c i 6 ++
  (match s.recGet (s.wg e.t) c i 6 with
    | .ok (ws, _) => if rKind (recBits ws) = 4 then s.descReads e.w.core (e.w.crew c).domain else []
    | .error _ => []) ++ more s l

/-- The record cache of a workgroup's core has taken record i of a crew. -/
def State.recUse (s : State) (w : Workgroup) (c i : Nat) : State :=
  match s.recGet w c i 6 with
  | .ok (_, ld) => s.recKeep w.core ld
  | .error _ => s

/-- An instruction that uses record i of a crew at its issue, and reads more by then: the walks can be made, and the record cache has
taken the record. -/
def Env.withRec (e : Env) (c i : Nat) (more : State → Nat → List Span) (k : Env → Res) : Res :=
  e.walked (e.recWalk c i more) fun e => k { e with s := e.s.recUse e.w c i }

/-- What the walks for addresses of a domain read, whichever the lane. -/
def Env.walkAt (e : Env) (dom : Nat) (vas : State → List Nat) (s : State) (_ : Nat) : List Span :=
  (vas s).flatMap fun a => s.walkReads e.w.core dom a 6

/-- Drop the carve-out for an acquire of cluster scope or wider (spec/09 R208). -/
def State.acquired (s : State) (t : Nat) (ord : Order) (scope : Scope) : State :=
  if ord.isAcq && decide (scopeNum scope ≥ 2) then s.l1Drop t else s

/-- How many pops a list of sources takes. -/
def popsIn (rs : List (Sel × Nat)) : Nat := (popQueues rs).length

/-! ### Lock bits (R180, R184) -/

/-- Lock bit of a core for the granule at a physical offset, as bank × 64 + bit. -/
def lockBit (x : Nat) : Nat :=
  let g := x / 64
  bits g 0 5 * 64 + xorNat (bits g 5 6) (bits g 11 5)

/-- The lock bit of a window byte: core and bit. -/
def State.lockOf (s : State) (x : SpadLoc) : Nat × Nat := ((s.wg x.owner).core, lockBit (s.spadPhys x.owner x.off))

/-- True when a lock bit of a core is held, or has been won by an attempt of the current cycle (R184). -/
def State.lockHeld (s : State) (b : Nat × Nat) : Bool := (s.heldBits b.1).contains b.2 || (s.core b.1).lockWon.contains b.2

/-- An attempt wins lock bits. -/
def State.winBits (s : State) (bs : List (Nat × Nat)) : State :=
  overList bs s fun s b => s.updCore b.1 fun k => { k with lockWon := k.lockWon ++ [b.2] }

/-- The lanes of an attempt that win their bits: of lanes that need one bit, the lowest (R184). -/
def lockWinners (bitOf : SpadLoc → Nat × Nat) : List SpadLoc → List (Nat × Nat) → List SpadLoc
  | [], _ => []
  | x :: rest, taken =>
    if taken.contains (bitOf x) then lockWinners bitOf rest taken
    else x :: lockWinners bitOf rest (bitOf x :: taken)

end Sys2Proof.Machine
end

