-- ==== Sys2Proof/Machine/Pool.lean ====
section
/-! DEFINITION. The ready pool (spec/16 R382-R388, spec/15 R378, R379): node descriptors, acceptance and rejection,
dependences, completion records, and the NODE_READY event. -/

namespace Sys2Proof.Machine

open Sys2Proof

/-! ### The node descriptor (R382) -/

def NodeDesc.fld (d : NodeDesc) (hi lo : Nat) : Nat := fieldOf d.words hi lo
def NodeDesc.seq (d : NodeDesc) : Nat := d.fld 31 0
def NodeDesc.kind (d : NodeDesc) : Nat := d.fld 33 32
def NodeDesc.prio (d : NodeDesc) : Nat := d.fld 35 34
def NodeDesc.domain (d : NodeDesc) : Nat := d.fld 47 36
def NodeDesc.cluster (d : NodeDesc) : Bool := d.fld 48 48 == 1
def NodeDesc.l1 (d : NodeDesc) : Nat := d.fld 50 49
def NodeDesc.gdepth (d : NodeDesc) : Nat := d.fld 53 51
def NodeDesc.cancelf (d : NodeDesc) : Bool := d.fld 54 54 == 1
def NodeDesc.ninst (d : NodeDesc) : Nat := d.fld 87 64
def NodeDesc.lanes (d : NodeDesc) : Nat := d.fld 97 88
def NodeDesc.vregs (d : NodeDesc) : Nat := d.fld 105 98
def NodeDesc.spad (d : NodeDesc) : Nat := d.fld 116 106
def NodeDesc.code (d : NodeDesc) : Nat := d.fld 183 128
def NodeDesc.nseg (d : NodeDesc) : Nat := d.fld 189 184 + 1
def NodeDesc.eseg (d : NodeDesc) : Nat := d.fld 197 192
def NodeDesc.eoff (d : NodeDesc) : Nat := d.fld 207 198
def NodeDesc.rectab (d : NodeDesc) : Nat := d.fld 279 224
def NodeDesc.nrec (d : NodeDesc) : Nat := d.fld 287 280 + 1
def NodeDesc.shapetab (d : NodeDesc) : Nat := d.fld 343 288
def NodeDesc.nshape (d : NodeDesc) : Nat := d.fld 350 344
def NodeDesc.privbase (d : NodeDesc) : Nat := d.fld 407 352
def NodeDesc.privwsize (d : NodeDesc) : Nat := d.fld 447 416
def NodeDesc.compl (d : NodeDesc) : Nat := d.fld 503 448
def NodeDesc.save (d : NodeDesc) : Nat := d.fld 567 512
def NodeDesc.opnd (d : NodeDesc) : Nat := d.fld 631 576
def NodeDesc.nopnd (d : NodeDesc) : Nat := d.fld 639 632
def NodeDesc.edge (d : NodeDesc) : Nat := d.fld 695 640
def NodeDesc.nedge (d : NodeDesc) : Nat := d.fld 703 696
def NodeDesc.mactab (d : NodeDesc) : Nat := d.fld 759 704
def NodeDesc.nmac (d : NodeDesc) : Nat := d.fld 766 760
def NodeDesc.param (d : NodeDesc) (k : Nat) : Nat := d.fld (768 + 32 * k + 31) (768 + 32 * k)

/-- The reserved bits of R382 are zero. -/
def NodeDesc.reservedOk (d : NodeDesc) : Bool :=
  [(63, 55), (127, 117), (191, 190), (223, 208), (351, 351), (415, 408), (511, 504), (575, 568), (767, 767)].all
    fun p => d.fld p.1 p.2 == 0

/-- Bytes of a carve-out code (spec/08 R170). -/
def l1Bytes (code : Nat) : Nat := if code = 0 then 0 else 131072 * 2 ^ code

/-- Lanes that a core holds at most of one workgroup (spec/04 R72). -/
def laneLimit (vregs : Nat) : Nat := if vregs ≤ 128 then 512 else if vregs ≤ 168 then 384 else 256

/-- The fields that hold for every KIND: reserved bits, alignment, ranges. -/
def NodeDesc.commonOk (d : NodeDesc) : Bool :=
  d.reservedOk && d.kind != 3 && decide (d.ninst ≥ 1) && decide (d.gdepth ≤ 4) && d.code % 4096 == 0 && d.compl % 64 == 0 &&
  d.save % 4096 == 0 && d.opnd % 16 == 0 && d.edge % 8 == 0 && d.mactab % 512 == 0 && decide (d.nshape ≤ 64) &&
  decide (d.nmac ≤ 64) && d.privwsize % 16 == 0 && decide (d.eseg < d.nseg)

/-- The fields of a node of workgroups (R382, R383, spec/04 R72, spec/08 R166, R167). -/
def NodeDesc.gridOk (d : NodeDesc) : Bool :=
  decide (1 ≤ d.lanes) && d.vregs % 8 == 0 && decide (8 ≤ d.vregs) && decide (d.vregs ≤ 192) &&
  decide (d.lanes ≤ laneLimit d.vregs) && decide (d.spad ≤ 1024) && decide (4096 * d.spad + l1Bytes d.l1 ≤ 4194304) &&
  (!d.cluster || d.ninst % 4 == 0)

/-- The fields of a bank job and of a packet node: those that must be zero, and R392. -/
def NodeDesc.otherOk (d : NodeDesc) : Bool :=
  d.ninst == 1 && d.fld 53 48 == 0 && d.fld 127 88 == 0 && d.fld 415 184 == 0 && d.privwsize == 0 && d.fld 767 512 == 0 &&
  (d.kind != 1 ||
    (d.param 0 / 1024 == 0 && decide (1 ≤ d.param 1) && decide (d.param 1 ≤ 4096) && d.param 2 / 65536 == 0 &&
     d.param 2 != 0 && [3, 4, 5, 6, 7].all fun k => d.param k == 0))

/-! ### Lists and macros (R386, R387, R398) -/

/-- The key of an operand (R386). -/
def operandKey (va dom : Nat) : Nat :=
  xorNat (xorNat (xorNat (xorNat (bits va 6 14) (bits va 20 14)) (bits va 34 14)) (bits va 48 8)) dom

/-- An operand-list entry: key and USE. -/
def operandOf (dom : Nat) (b : List Byte) : Option (Nat × Nat) :=
  let e := natOfBytes b
  if bits e 56 6 ≠ 0 ∨ e / 2 ^ 64 ≠ 0 ∨ bits e 62 2 = 3 then none else some (operandKey (bits e 0 56) dom, bits e 62 2)

/-- An edge-list entry. -/
def edgeOf (b : List Byte) : Option Nat :=
  let e := natOfBytes b
  if e / 2 ^ 32 ≠ 0 then none else some e

/-- An operation of a macro that R398 admits: format A, not terminal, cross-lane or matrix; a substitution word in form. -/
def macroOpOk (p : Word × Word) : Bool :=
  let op := bits p.1.toNat 25 7
  let ty := bits p.1.toNat 22 3
  opFmt op == some .a && !rawTerminal op ty && !(op == 0x1C || op == 0x1D || op == 0x35 || op == 0x36) &&
  !(decide (0x40 ≤ op) && decide (op ≤ 0x4F)) && bits p.2.toNat 9 23 == 0

/-- A macro-table entry: its operations, or none where it breaks R398. -/
def macroOf (b : List Byte) : Option (List (Word × Word)) :=
  let ws := wordsLE b
  let h := (ws.getD 0 0).toNat
  let n := bits h 0 6
  let ops := (List.range n).map fun k => (ws.getD (4 + 2 * k) 0, ws.getD (5 + 2 * k) 0)
  if h / 64 ≠ 0 ∨ [1, 2, 3].any (fun k => ws.getD k 0 != 0) ∨ n > 32 ∨ ops.all macroOpOk = false then none else some ops

/-- Every entry of a list, when all are in form. -/
def allSome {α : Type} (l : List (Option α)) : Option (List α) :=
  l.foldr (fun x acc => match x, acc with | some a, some t => some (a :: t) | _, _ => none) (some [])

/-- n entries of a size that a node names, each in form; none where reading faults or an entry breaks its rule. -/
def State.nodeList {α : Type} (s : State) (dom va n size : Nat) (f : List Byte → Option α) : Option (List α) :=
  if n = 0 then some [] else
  match s.rdVirt dom va (n * size) with
  | .error _ => none
  | .ok b => allSome ((chunks size n b).map f)

/-- What acceptance reads beside the descriptor. -/
structure NodeLists where
  ops : List (Nat × Nat)
  edges : List Nat
  macros : List (List (Word × Word))

/-! ### Completion records (spec/15 R378) -/

/-- The physical address of a completion record under a domain, when it lies on a writable Normal line. -/
def State.complAt (s : State) (dom va : Nat) : Option Nat :=
  if va % 64 ≠ 0 then none else
  match s.walkMem dom true va with
  | .ok pa 0 _ _ _ _ _ => some pa
  | _ => none

/-- A completion record as a number of 512 bits. -/
def complRecord (status : Nat) (n : Node) : Nat :=
  n.desc.seq + status * 2 ^ 32 + n.fcause * 2 ^ 40 + n.progress * 2 ^ 64 + n.flags.toNat * 2 ^ 128 + n.satcnt.toNat * 2 ^ 160 +
  n.nanscore.toNat * 2 ^ 192 + n.finst * 2 ^ 224 + n.fpc % 2 ^ 18 * 2 ^ 256 + n.fdomain * 2 ^ 288 + n.fva * 2 ^ 320 + n.term * 2 ^ 384

/-- Write a completion record, under a domain (R383). -/
def State.complWrite (s : State) (dom status : Nat) (n : Node) : State :=
  match s.complAt dom n.desc.compl with
  | some pa => s.physWrite none pa (bytesOfNat 64 (complRecord status n))
  | none => s

/-- True while a run of virtual memory lies in a pseudo-channel that is held in all-bank mode (spec/13 R324). -/
def State.virtHeld (s : State) (dom : Nat) (wr : Bool) (va n : Nat) : Bool :=
  (granules va n).any fun p => match s.walkMem dom wr p.1 with
    | .ok pa .. => s.held ⟨.phys pa, p.2⟩
    | .fail .. => false

/-- The uncorrectable error that a read of a run of virtual memory meets (spec/15 R358). -/
def State.virtMc (s : State) (dom va n : Nat) : Option (Nat × Nat × Nat) :=
  (granules va n).findSome? fun p => match s.walkMem dom false p.1 with
    | .ok pa .. => s.mcOf ⟨.phys pa, p.2⟩
    | .fail .. => none

/-! ### Acceptance (R383, R384, R386, R387) -/

/-- The lists of a node that keeps R383; none for a rejection. -/
def State.nodeCheck (s : State) (d : NodeDesc) : Option NodeLists :=
  let dom := d.domain
  if d.commonOk = false ∨ (if d.kind = 0 then d.gridOk else d.otherOk) = false ∨ descValid (s.descMem dom) = false ∨
      (s.complAt dom d.compl).isNone then none
  else
    match s.nodeList dom d.opnd d.nopnd 16 (operandOf dom), s.nodeList dom d.edge d.nedge 8 edgeOf,
        s.nodeList dom d.mactab d.nmac 512 macroOf with
    | some o, some e, some m => some ⟨o, e, m⟩
    | _, _, _ => none

/-- A node that writes a key. -/
def Node.writesKey (n : Node) (h : Nat) : Bool := n.ops.any fun p => p.1 == h && p.2 != 0
def Node.readsKey (n : Node) (h : Nat) : Bool := n.ops.any fun p => p.1 == h && p.2 != 1

/-- The pending nodes an operand depends on (R386). -/
def operandDeps (ns : List Node) (p : Nat × Nat) : List Nat :=
  let w := (ns.filter fun n => n.writesKey p.1).getLast?
  let last := match w with | some n => [n.id] | none => []
  let after := ns.filter fun n => n.readsKey p.1 && (match w with | some m => decide (n.id > m.id) | none => true)
  if p.2 = 0 then last else last ++ after.map (·.id)

/-- The pending nodes an edge names (R387). -/
def edgeDeps (ns : List Node) (dom seq : Nat) : List Nat :=
  (ns.filter fun n => n.desc.domain == dom && n.desc.seq == seq).map (·.id)

/-- A fresh node. -/
def Node.fresh (id : Nat) (d : NodeDesc) (l : NodeLists) (deps : List Nat) : Node :=
  { (default : Node) with id := id, desc := d, ops := l.ops, macros := l.macros, deps := deps }

/-- A descriptor reaches the pool, read under a domain (R383, R384). Answers 0 accepted, 1 pool full, 2 rejected, 3 rejected
with nothing written. -/
def State.accept (s : State) (rdDom : Nat) (ws : List Word) : State × Nat :=
  let d : NodeDesc := ⟨ws⟩
  let ns := s.pool.nodes
  if ns.length ≥ 65536 then (s, 1) else
  match s.nodeCheck d with
  | none =>
    match s.complAt rdDom d.compl with
    | none => (s, 3)
    | some pa => (s.physWrite none pa (bytesOfNat 64 (d.seq + 4 * 2 ^ 32)), 2)
  | some l =>
    let deps := dedup (l.ops.flatMap (operandDeps ns) ++ l.edges.flatMap (edgeDeps ns d.domain))
    ({ s with pool := { s.pool with
        nodes := ns ++ [Node.fresh s.pool.nextNode d l deps], nextNode := s.pool.nextNode + 1 } }, 0)

/-- Memory that acceptance touches and that is held in all-bank mode: it waits. -/
def State.acceptHeld (s : State) (rdDom : Nat) (ws : List Word) : Bool :=
  let d : NodeDesc := ⟨ws⟩
  let dom := d.domain
  s.virtHeld rdDom true d.compl 64 || s.virtHeld dom true d.compl 64 || s.virtHeld dom false d.opnd (16 * d.nopnd) ||
  s.virtHeld dom false d.edge (8 * d.nedge) || s.virtHeld dom false d.mactab (512 * d.nmac)

/-! ### The end of a node (R379, R384, R388) -/

def State.node? (s : State) (id : Nat) : Option Node := s.pool.nodes.find? fun n => n.id == id

def State.updNode (s : State) (id : Nat) (f : Node → Node) : State :=
  { s with pool := { s.pool with nodes := s.pool.nodes.map fun n => if n.id = id then f n else n } }

/-- A node cannot end yet: its record's line is held in all-bank mode, or a store that must be performed before the record is written, a
release at system scope, cannot be performed at its home. These are the stores that the pool sees as performed, and some agents (R379). -/
def State.endBlocked (s : State) (n : Node) (bs : List Agent) : Bool :=
  s.virtHeld n.desc.domain true n.desc.compl 64 || !((s.passed (.module :: bs)).all fun p => s.sendable p.1 p.2.2)

/-- A node ends with a STATUS: what the pool sees as performed is at its home, then the record is written under DOMAIN (R379), and its
successors are told. -/
def State.endNode (s0 : State) (id status : Nat) : State :=
  let s := s0.sendHome (s0.passed [.module])
  match s.node? id with
  | none => s
  | some n =>
    let rec_ : Node := if status = 3 then { (default : Node) with desc := n.desc } else n
    let s1 := s.complWrite n.desc.domain status rec_
    let told (m : Node) : Node := if m.deps.contains id then
        { m with deps := m.deps.filter (· != id), depBad := m.depBad || status != 1 } else m
    { s1 with pool := { s1.pool with nodes := (s1.pool.nodes.filter fun m => m.id != id).map told } }

/-- A workgroup's part is merged into its node's record; after the last one the node ends (R379). -/
def State.mergeInto (s : State) (id : Nat) (w : Workgroup) : State :=
  let s1 := s.updNode id fun n =>
    let n1 := { n with
      flags := n.flags ||| w.flags, satcnt := satAdd n.satcnt w.satcnt.toNat, nanscore := satAdd n.nanscore w.nanscore.toNat }
    match w.term with
    | none => { n1 with progress := n.progress + 1 }
    | some (cause, fpc, dom, va) =>
      if n.term = 0 then { n1 with term := 1, fcause := cause, finst := w.inst, fpc := fpc, fdomain := dom, fva := va }
      else { n1 with term := n.term + 1 }
  match s1.node? id with
  | none => s1
  | some n => if n.progress + n.term ≥ n.desc.ninst then s1.endNode id (if n.term > 0 then 2 else 1) else s1

/-- A KIND 1 or KIND 2 node ends in a fault (R392, R393). -/
def State.failNode (s : State) (id fcause finst fva : Nat) : State :=
  (s.updNode id fun n => { n with term := 1, fcause := fcause, finst := finst, fva := fva }).endNode id 2

/-- A KIND 1 or KIND 2 node ends well. -/
def State.doneNode (s : State) (id : Nat) : State := (s.updNode id fun n => { n with progress := 1 }).endNode id 1

/-! ### NODE_READY (R384) -/

/-- Write zeros over physical bytes. -/
def State.zeroPhys (s : State) (a n : Nat) : State :=
  { s with mem := s.mem.filter fun p => !(decide (a ≤ p.1) && decide (p.1 < a + n)), wgs := fireMonitors (linesOf a n) s.wgs }

/-- Write zeros over virtual bytes, where they are mapped (spec/09 R211). -/
def State.zeroVirt (s : State) (dom va n : Nat) : State :=
  overList (granules va n) s fun s p => match s.walkMem dom true p.1 with
    | .ok pa .. => s.zeroPhys pa p.2
    | .fail .. => s

/-- The record-0 windows of a node: one run for each instance. -/
def NodeDesc.windows (d : NodeDesc) : List (Nat × Nat) :=
  if d.kind ≠ 0 ∨ d.privwsize = 0 then [] else
  (List.range d.ninst).map fun i => (d.privbase + 512 * i * d.privwsize, d.lanes * d.privwsize)

/-- NODE_READY: the predecessors of a pending node have ended. The node is cancelled (R388), or its windows are zeroed and it
is ready; a bank job joins the queue of its pseudo-channel (R392). -/
def execNodeReady (node : Nat) (s : State) : Host.Outcome State Fault Refusal :=
  match s.node? node with
  | none => .fault .notEnabled
  | some n =>
    let d := n.desc
    if n.ready ∨ n.deps ≠ [] ∨ (d.windows.any fun w => s.virtHeld d.domain true w.1 w.2) then .fault .notEnabled
    else if d.cancelf ∧ n.depBad then
      (if s.endBlocked n [] then .fault .notEnabled else .next (s.endNode node 3))
    else
      let s1 := overList d.windows s fun s w => s.zeroVirt d.domain w.1 w.2
      let s2 := s1.updNode node fun n => { n with ready := true }
      .next (if d.kind = 1 then s2.updPch (d.param 0 % 1024) fun p => { p with jobs := p.jobs ++ [node] } else s2)

end Sys2Proof.Machine
end

