-- ==== Sys2Proof/Machine/Scratch.lean ====
section
/-! DEFINITION. Scratchpad instructions: LDS, STS, LDSC, STSC (spec/08 R172-R175), WAITC (R179), LDLK and STUL (R185), ATOMS
(R186, R187). -/

namespace Sys2Proof.Machine

open Sys2Proof

/-- The effective addresses of the lanes of E: address plus offset, exact (R173). -/
def Env.eas (e : Env) (a : Sel) (off : Src) : List (Nat × Nat) :=
  e.ls.map fun l =>
    let v := e.opds l [.int .u32 a, srcOpd .u32 off] 0 0
    (l, (v.getD 0 0).toNat + (v.getD 1 0).toNat)

/-- Data of a store by lane: n registers, read after the pops of the address. -/
def Env.storeWords (e : Env) (d : Sel) (n j i : Nat) : List (Nat × List Word) := e.ls.map fun l => (l, e.regs l d n j i)

/-- Path of a scratchpad space (R176). -/
def spadPath (cluster : Bool) : Path := if cluster then .cl else .sp

/-- An order other than relaxed ends the interval and closes the region of the lanes (spec/10 R249, spec/15 R367). -/
def State.ordered (s : State) (e : Env) (ord : Order) : State := if ord = .relaxed then s else (s.endE e).closeE e

/-- A counted scratchpad access (R173): the checks, then the item `op` of the resolved lanes goes into flight. -/
def spadAccess (cluster : Bool) (o : SpadAcc) (wr : Bool) (op : List SpadLoc → FlightOp) (e : Env) : Res :=
  match e.ls with
  | [] => .ok e.s []
  | _ =>
    match e.crewless with
    | l :: ls => e.trap 0x6D (l :: ls)
    | [] =>
      match e.s.spadResolve e.t e.fpc cluster (wbytes o.w) (e.eas o.addr o.off) with
      | .error q => .trap e.s q
      | .ok xs =>
        match (if wr then none else e.padCheck xs (wbytes o.w)) with
        | some r => r
        | none =>
        let ra := if o.ord = .relaxed then e.s.spadRaces xs (wbytes o.w) else []
        match e.s.raceTrap e.t e.fpc wr ra, e.full (spadPath cluster) with
        | some q, _ => .trap e.s q
        | none, some p => .park e.s p e.run.pend
        | none, none =>
          match e.race wr ra with
          | .error r => r
          | .ok s1 =>
            .ok ((s1.launch e.t e.ls (some (spadPath cluster)) o.ord o.scope false (o.ord == .relaxed) (op xs)).ordered e o.ord) []

/-- The item of a scratchpad load. -/
def spadLoad (o : SpadAcc) (xs : List SpadLoc) : FlightOp :=
  .load o.w (some o.d) (xs.map fun x => { lane := x.lane, spans := [⟨.win x.owner x.off, wbytes o.w⟩], l1 := false, conv := [] }) []

/-- The item of a scratchpad store. -/
def spadStore (o : SpadAcc) (data : List (Nat × List Word)) (xs : List SpadLoc) : FlightOp :=
  .store (xs.map fun x =>
    { lane := x.lane
      runs := [(.win x.owner x.off, (bytesLE (((data.find? fun p => p.1 == x.lane).map (·.2)).getD [])).take (wbytes o.w))] })

def spadLoadBody (cluster : Bool) (o : SpadAcc) (e : Env) : Res := spadAccess cluster o false (spadLoad o) e

def spadStoreBody (cluster : Bool) (o : SpadAcc) (e : Env) : Res :=
  spadAccess cluster o true (spadStore o (e.storeWords o.d (wspan o.w) (popsIn ((o.addr, 1) :: o.off.sels)) 8)) e

def execLds (o : SpadAcc) (s : State) : Host.Outcome State Fault Refusal := laneIssue (.lds o) (spadLoadBody false o) s
def execSts (o : SpadAcc) (s : State) : Host.Outcome State Fault Refusal := laneIssue (.sts o) (spadStoreBody false o) s
def execLdsc (o : SpadAcc) (s : State) : Host.Outcome State Fault Refusal := laneIssue (.ldsc o) (spadLoadBody true o) s
def execStsc (o : SpadAcc) (s : State) : Host.Outcome State Fault Refusal := laneIssue (.stsc o) (spadStoreBody true o) s

/-! ### WAITC (R179) -/

/-- The threshold of each crew of E: the lowest of its lanes. -/
def Env.thresholds (e : Env) (a : Sel) : List (Nat × Nat) :=
  (e.w.crewsOf e.ls).map fun c =>
    (c, (e.ls.filter fun l => e.crewOf l == some c).foldl (fun m l => min m (e.int32 l a 0 0).toNat) 63)

def waitcBody (p : Path) (a : Sel) (e : Env) : Res :=
  match e.crewless with
  | l :: ls => e.trap 0x6D (l :: ls)
  | [] =>
    let th := e.thresholds a
    match th.filter fun x => decide ((e.w.crew x.1).count p > x.2) with
    | [] => .ok (e.s.endE e) []
    | xs => .park e.s (.counter p xs) .none

def execWaitc (path : Path) (a : Sel) (s : State) : Host.Outcome State Fault Refusal :=
  laneIssue (.waitc path a) (waitcBody path a) s

/-! ### LDLK and STUL (R185) -/

/-- Scope of a space's lock instructions. -/
def spaceScope (sp : Space) : Scope := match sp with | .local => .core | .cluster => .cluster

def Space.isCluster (sp : Space) : Bool := match sp with | .local => false | .cluster => true

/-- The bytes that resolved lanes read, as an item's operation. -/
def spadTouch (w : Width) (xs : List SpadLoc) : FlightOp :=
  .load w none (xs.map fun x => { lane := x.lane, spans := [⟨.win x.owner x.off, wbytes w⟩], l1 := false, conv := [] }) []

/-- Give a winner its lock. -/
def Workgroup.takeLock (w : Workgroup) (s : State) (run : ClauseRun) (x : SpadLoc) : Workgroup :=
  let b := s.lockOf x
  w.updLane x.lane fun l => { l with lock := some {
    owner := x.owner, off := x.off / 64 * 64, core := b.1, bit := b.2
    phys := s.spadPhys x.owner x.off / 64 * 64, issues := 0, atRun := run } }

def ldlkBody (w : Width) (sp : Space) (pt : Nat) (d addr : Sel) (off : Src) (e : Env) : Res :=
  match e.ls with
  | [] => .ok e.s []
  | _ =>
    match e.crewless with
    | l :: ls => e.trap 0x6D (l :: ls)
    | [] =>
      match e.s.spadResolve e.t e.fpc (Space.isCluster sp) (wbytes w) (e.eas addr off) with
      | .error q => .trap e.s q
      | .ok xs =>
        match e.padCheck xs (wbytes w), e.settled .acquire (spaceScope sp) false (spadTouch w xs) with
        | some r, _ => r
        | none, .error r => r
        | none, .ok s1 =>
          let win := lockWinners s1.lockOf xs []
          if win.any (fun x => s1.lockHeld (s1.lockOf x)) then .park s1 .lock e.run.pend else
          let vals := win.map fun x => (x.lane, regWords (wspan w) (s1.rdSpan ⟨.win x.owner x.off, wbytes w⟩))
          let s2 := (s1.winBits (win.map s1.lockOf)).updWg e.t fun g =>
            let g1 := overList win g fun g x => g.takeLock s1 { e.run with pend := .none } x
            let g2 := g1.writeSel s1.free d vals
            overList e.ls g2 fun g l => g.updLane l fun x => x.setPred pt (win.any fun y => y.lane == l)
          .ok (((s2.acquired e.t .acquire (spaceScope sp)).endE e).closeE e) []

def execLdlk (w : Width) (sp : Space) (pt : Nat) (d addr : Sel) (off : Src) (s : State) : Host.Outcome State Fault Refusal :=
  laneIssue (.ldlk w sp pt d addr off) (ldlkBody w sp pt d addr off) s

/-- A lane whose STUL stays within the granule it holds. -/
def lockCovers (k : Option Lock) (x : SpadLoc) : Bool :=
  match k with
  | some l => l.owner == x.owner && l.off == x.off / 64 * 64
  | none => false

def stulBody (w : Width) (sp : Space) (d addr : Sel) (off : Src) (e : Env) : Res :=
  match e.ls with
  | [] => .ok e.s []
  | _ =>
    match e.crewless with
    | l :: ls => e.trap 0x6D (l :: ls)
    | [] =>
      match e.s.spadResolve e.t e.fpc (Space.isCluster sp) (wbytes w) (e.eas addr off) with
      | .error q => .trap e.s q
      | .ok xs =>
        match xs.filter fun x => !lockCovers (e.w.lane x.lane).lock x with
        | b :: bs =>
          let gran (l : Nat) : List Word := match (e.w.lane l).lock, (b :: bs).find? fun x => x.lane == l with
            | some k, _ => [BitVec.ofNat 32 k.phys]
            | none, some x => [BitVec.ofNat 32 (e.s.spadPhys x.owner x.off / 64 * 64)]
            | none, none => []
          .trap e.s { cause := 0x63, faulters := (b :: bs).map (·.lane), fpc := e.fpc, detail := gran }
        | [] =>
          let r := e.s.settleFor e.t (e.s.asItem e.t e.ls .release (spaceScope sp) false (spadTouch w xs))
          match r.2 with
          | some _ => .stay r.1
          | none =>
            let data := e.storeWords d (wspan w) (popsIn ((addr, 1) :: off.sels)) 8
            let s1 := overList xs r.1 fun s x =>
              s.locStore e.t ((e.crewOf x.lane).getD 0) (.win x.owner x.off) ((bytesLE (((data.find? fun p => p.1 == x.lane).map (·.2)).getD [])).take (wbytes w))
            .ok (((s1.updWg e.t fun g => g.releaseLocks e.ls).endE e).closeE e) []

def execStul (w : Width) (sp : Space) (d addr : Sel) (off : Src) (s : State) : Host.Outcome State Fault Refusal :=
  laneIssue (.stul w sp d addr off) (stulBody w sp d addr off) s

/-! ### ATOMS (R186, R187) -/

/-- Apply the lanes one after another: old values by lane, and the flags. -/
def atomsApply (t : Nat) (crew : Nat → Nat) (op : AtomOp) (w : Width) (bc : List (Nat × Dword × Dword)) (s : State) (xs : List SpadLoc) :
    State × List (Nat × Nat) × FFlags :=
  overList xs (s, [], 0) fun acc x =>
    let n := wbytes w
    let old := acc.1.atomOld x.lane n (.win x.owner x.off)
    let v := ((bc.find? fun p => p.1 == x.lane).map (·.2)).getD (0, 0)
    let r := atomNew op (8 * n) old (v.1.toNat % 2 ^ (8 * n)) (v.2.toNat % 2 ^ (8 * n))
    (acc.1.locStore t (crew x.lane) (.win x.owner x.off) (bytesOfNat n r.1), acc.2.1 ++ [(x.lane, old)], acc.2.2 ||| r.2)

/-- An atomic's operand of its width; an inline constant is an integer, in FADD too (DESIGN CHOICE, log 75). -/
def atomOpd (w : Width) (r : Sel) : Opd := if w = .b64 then .pair r else .int .u32 r

def atomsBody (op : AtomOp) (w : Width) (sp : Space) (d : Option Sel) (a b : Sel) (c : Option Sel) (e : Env) : Res :=
  match e.ls with
  | [] => .ok e.s []
  | _ =>
    match e.crewless with
    | l :: ls => e.trap 0x6D (l :: ls)
    | [] =>
      let cs := match c with | some r => [atomOpd w r] | none => []
      let vs := e.ls.map fun l => (l, e.opds l (.int .u32 a :: atomOpd w b :: cs) 0 0)
      match e.s.spadResolve e.t e.fpc (Space.isCluster sp) (wbytes w) (vs.map fun p => (p.1, (p.2.getD 0 0).toNat)) with
      | .error q => .trap e.s q
      | .ok xs =>
        match e.settled .acqRel (spaceScope sp) false (spadTouch w xs) with
        | .error r => r
        | .ok s1 =>
          if xs.any (fun x => s1.lockHeld (s1.lockOf x)) then .park s1 .lock e.run.pend else
          let r := atomsApply e.t (fun l => (e.crewOf l).getD 0) op w (vs.map fun p => (p.1, p.2.getD 1 0, p.2.getD 2 0)) s1 xs
          let s2 := (r.1.winBits (xs.map s1.lockOf)).updWg e.t fun g =>
            let g1 := g.sumUp r.2.2 0 0
            match d with
            | some q => g1.writeSel s1.free q (r.2.1.map fun p => (p.1, splitWords (wspan w) (BitVec.ofNat 64 p.2)))
            | none => g1
          .ok (((s2.acquired e.t .acqRel (spaceScope sp)).endE e).closeE e) []

def execAtoms (op : AtomOp) (w : Width) (sp : Space) (d : Option Sel) (a b : Sel) (c : Option Sel) (s : State) :
    Host.Outcome State Fault Refusal :=
  laneIssue (.atoms op w sp d a b c) (atomsBody op w sp d a b c) s

end Sys2Proof.Machine
end

