-- ==== Sys2Proof/Machine/Stream.lean ====
section
/-! DEFINITION. Stream instructions (spec/08 R188-R193). -/

namespace Sys2Proof.Machine

open Sys2Proof

/-- A stream register of a crew. -/
def State.stream (s : State) (t c n : Nat) : Stream := ((s.wg t).crew c).streams.get n

/-- Change a stream register. -/
def State.updStream (s : State) (t c n : Nat) (f : Stream → Stream) : State :=
  s.updWg t fun w => w.updCrew c fun x => { x with streams := x.streams.upd n f }

/-- The stream is bound to a ring. -/
def Stream.bound (q : Stream) : Bool := q.ring.nslot != 0

/-- The address word of a slot (R189). -/
def Stream.addr (q : Stream) (i : Nat) : Nat := q.ring.base + i * q.ring.slotsz * 64 + if q.ring.cluster then 2 ^ 24 else 0

/-- The slot of a list whose address an address word names, compared in bits [24:0]. -/
def Stream.find (q : Stream) (l : List Nat) (a : Nat) : Option Nat := l.find? fun i => q.addr i % 2 ^ 25 == a % 2 ^ 25

/-- Scope of a ring's synchronisation (R192). -/
def Stream.scope (q : Stream) : Scope := if q.ring.cluster then .cluster else .core

/-- The moves of a slot (R188), visible from the next cycle. -/
def Stream.claim (q : Stream) (i : Nat) : Stream := { q with newClaimed := q.newClaimed ++ [i] }
def Stream.commit (q : Stream) (i : Nat) : Stream := { q with newFull := q.newFull ++ [i] }
def Stream.take (q : Stream) (i : Nat) : Stream := { q with newTaken := q.newTaken ++ [i] }
def Stream.give (q : Stream) (i : Nat) : Stream := { q with newFree := q.newFree ++ [i] }

/-- The slots that a claim, a commit, QRD and QFREE still find in the current cycle: a slot moves once in a cycle, so that two
quadrants never have the same one (DEDUCED, log 71). -/
def Stream.canClaim (q : Stream) : List Nat := q.free.filter fun i => !q.newClaimed.contains i
def Stream.canCommit (q : Stream) : List Nat := q.claimed.filter fun i => !q.newFull.contains i
def Stream.canTake (q : Stream) : List Nat := q.full.filter fun i => !q.newTaken.contains i
def Stream.canGive (q : Stream) : List Nat := q.taken.filter fun i => !q.newFree.contains i

/-- The checks common to the instructions that act once for the issuing crew (R190, spec/12 R288), then the meaning for the crew and the lowest lane. -/
def crewBody (k : Nat → Nat → Res) (e : Env) : Res :=
  match e.ls with
  | [] => .ok e.s []
  | low :: _ =>
    match e.crewless with
    | l :: ls => e.trap 0x6D (l :: ls)
    | [] => if e.mixed then e.trap 0x6F e.ls else k ((e.crewOf low).getD 0) low

/-- A word to every lane of E, or once to a uniform register. -/
def State.putAll (s : State) (e : Env) (d : Sel) (v : Nat) : State :=
  s.updWg e.t fun w => w.writeSel s.free d (e.ls.map fun l => (l, [BitVec.ofNat 32 v]))

/-- QRD (R192). -/
def qrdBody (n : Nat) (d : Sel) (e : Env) : Res :=
  crewBody (fun c _ =>
    let q := e.s.stream e.t c n
    if q.bound = false then e.trap 0x64 e.ls else
    match q.canTake with
    | [] => .park e.s (.stream c n false) e.run.pend
    | i :: _ =>
      match e.settled .acquire q.scope false .nop with
      | .error r => r
      | .ok s1 =>
        let s2 := ((s1.updStream e.t c n fun x => x.take i).putAll e d (q.addr i)).acquired e.t .acquire q.scope
        .ok ((s2.endE e).closeE e) []) e

def execQrd (n : Nat) (d : Sel) (s : State) : Host.Outcome State Fault Refusal := laneIssue (.qrd n d) (qrdBody n d) s

/-- QPUSH claim (R192). -/
def claimBody (n : Nat) (d : Sel) (e : Env) : Res :=
  crewBody (fun c _ =>
    let q := e.s.stream e.t c n
    if q.bound = false then e.trap 0x64 e.ls else
    match q.canClaim with
    | [] => .park e.s (.stream c n true) e.run.pend
    | i :: _ => .ok (((e.s.updStream e.t c n fun x => x.claim i).putAll e d (q.addr i)).closeE e) []) e

def execQpushClaim (n : Nat) (d : Sel) (s : State) : Host.Outcome State Fault Refusal :=
  laneIssue (.qpushClaim n d) (claimBody n d) s

/-- QPUSH commit (R192). -/
def commitBody (n : Nat) (a : Sel) (e : Env) : Res :=
  crewBody (fun c low =>
    let q := e.s.stream e.t c n
    match q.find q.canCommit (e.int32 low a 0 0).toNat with
    | none => e.trap 0x64 e.ls
    | some i =>
      match e.settled .release q.scope false .nop with
      | .error r => r
      | .ok s1 => .ok (((s1.updStream e.t c n fun x => x.commit i).endE e).closeE e) []) e

def execQpushCommit (n : Nat) (a : Sel) (s : State) : Host.Outcome State Fault Refusal :=
  laneIssue (.qpushCommit n a) (commitBody n a) s

/-- QFREE (R192). -/
def qfreeBody (n : Nat) (a : Sel) (e : Env) : Res :=
  crewBody (fun c low =>
    let q := e.s.stream e.t c n
    match q.find q.canGive (e.int32 low a 0 0).toNat with
    | none => e.trap 0x64 e.ls
    | some i => .ok (((e.s.updStream e.t c n fun x => x.give i).endE e).closeE e) []) e

def execQfree (n : Nat) (a : Sel) (s : State) : Host.Outcome State Fault Refusal := laneIssue (.qfree n a) (qfreeBody n a) s

/-- QINIT (R191). -/
def qinitBody (n : Nat) (a b : Sel) (e : Env) : Res :=
  crewBody (fun c low =>
    let v := e.opds low [.int .u32 a, .int .u32 b] 0 0
    let base := (v.getD 0 0).toNat
    let geo := (v.getD 1 0).toNat
    let cl := bitAt base 24
    let nslot := bits geo 0 7
    let sz := bits geo 8 12
    let q := e.s.stream e.t c n
    if bits base 0 6 ≠ 0 ∨ nslot = 0 ∨ nslot > 64 ∨ sz = 0 ∨ (e.s.spadAt e.t low cl (bits base 0 24) (nslot * sz * 64)).isNone ∨
        q.claimed ≠ [] ∨ q.taken ≠ [] then e.trap 0x64 e.ls
    else
      .ok (({ e.s with nextRing := e.s.nextRing + 1 }.updStream e.t c n fun x => { x with
        newRing := some { base := bits base 0 24, cluster := cl, nslot := nslot, slotsz := sz, num := e.s.nextRing + 1 } }).closeE e) []) e

def execQinit (n : Nat) (a b : Sel) (s : State) : Host.Outcome State Fault Refusal := laneIssue (.qinit n a b) (qinitBody n a b) s

end Sys2Proof.Machine
end

