-- ==== Sys2Proof/Machine/Barrier.lean ====
section
/-! DEFINITION. Barrier instructions (spec/12 R283-R294): BINIT, BEXPECT, BARRIVE, BWAIT, BTEST. -/

namespace Sys2Proof.Machine

open Sys2Proof

/-- Early counts of a register (R285): arrivals, and bytes as the negated PENDBYTES. -/
def Barrier.earlyBytes (b : Barrier) : Int := -(signedOf 32 b.pendbytes.toNat)

/-- BINIT of a register (R290), before the merge of its cycle. Members that have left in the cycle are no members of the crew any
more: their departures are dropped (R284: BINIT comes first). -/
def Barrier.initAs (b : Barrier) (exp : Nat) (bytes : Word) (bound : Option Nat) : Barrier :=
  { b with exparr := BitVec.ofNat 12 exp, expbytes := bytes, bound := bound.isSome, bcrew := (match bound with | some c => BitVec.ofNat 6 c | none => b.bcrew)
           cyArr := b.cyArr - b.cyDep, cyDep := 0, init := true, early := false, overflow := false, pendarr := BitVec.ofNat 12 exp, pendbytes := bytes }

/-- BINIT: every lane's parity takes PHASE[0], arrivals counted in the phase are discarded, early counts join the contributions of
the cycle, which are merged at its end, after the initialisation. -/
def Workgroup.binit (w : Workgroup) (k exp : Nat) (bytes : Word) (bound : Option Nat) : Workgroup :=
  let b := w.barriers.get k
  let ea := if b.early then b.pendarr.toNat else 0
  let eb := if b.early then b.earlyBytes else 0
  let ph := b.phase.getLsbD 0
  let ls := w.lanes.map (·.1)
  let w1 := overList ls w fun w l => w.updLane l fun x => { x with wpar := setBit x.wpar k ph, arrived := x.arrived.set k 0 }
  { w1 with barriers := w1.barriers.set k ((b.initAs exp bytes bound).add ea eb 0) }

def binitBody (k : Nat) (absorb crew : Bool) (a b : Sel) (e : Env) : Res :=
  crewBody (fun c low =>
    let v := e.opds low [.int .u32 a, .int .u32 b] 0 0
    let xa := (v.getD 0 0).toNat
    let r := e.w.barriers.get k
    if crew = false ∧ xa > 4095 then e.trap 0x61 e.ls
    else if r.early ∧ absorb = false then
      e.trap 0x60 e.ls [r.pendarr.setWidth 32, BitVec.ofInt 32 r.earlyBytes, BitVec.ofNat 32 k]
    else
      let exp := if crew then (e.w.members c).length else xa
      .ok ((e.s.updWg e.t fun w => w.binit k exp ((v.getD 1 0).setWidth 32) (if crew then some c else none)).closeE e) []) e

def execBinit (k : Nat) (absorb crew : Bool) (a b : Sel) (s : State) : Host.Outcome State Fault Refusal :=
  laneIssue (.binit k absorb crew a b) (binitBody k absorb crew a b) s

/-- BEXPECT of a number of bytes (R291). -/
def bexpectBy (k : Nat) (bytes : Nat → Nat) (e : Env) : Res :=
  crewBody (fun _ low =>
    if (e.w.barriers.get k).init = false then e.trap 0x61 e.ls
    else .ok ((e.s.updWg e.t fun w => { w with barriers := w.barriers.upd k fun x => x.add 0 0 (bytes low) }).closeE e) []) e

def bexpectBody (k : Nat) (imm : Word) (e : Env) : Res := bexpectBy k (fun _ => imm.toNat) e
def bexpectRegBody (k : Nat) (a : Sel) (e : Env) : Res := bexpectBy k (fun low => (e.int32 low a 0 0).toNat) e

def execBexpect (k : Nat) (imm : Word) (s : State) : Host.Outcome State Fault Refusal :=
  laneIssue (.bexpect k imm) (bexpectBody k imm) s
def execBexpectReg (k : Nat) (a : Sel) (s : State) : Host.Outcome State Fault Refusal :=
  laneIssue (.bexpectReg k a) (bexpectRegBody k a) s

/-- The workgroup of a sibling by cluster position (R292, spec/08 R167). -/
def State.sibling (s : State) (t c : Nat) : Option Nat :=
  let w := s.wg t
  match w.sibAt t c with
  | some u => if (s.wg u).life = .absent then none else some u
  | none => none

/-- BARRIVE (R292): a release at cluster scope that counts on CL until its arrivals are merged. -/
def barriveBody (k : Nat) (sib : Option Sel) (b : Sel) (e : Env) : Res :=
  crewBody (fun _ low =>
    let ops := (match sib with | some r => [Opd.int .u32 r] | none => []) ++ [Opd.int .u32 b]
    let v := e.opds low ops 0 0
    let target := match sib with
      | some _ => e.s.sibling e.t ((v.getD 0 0).toNat % 4)
      | none => some e.t
    match target with
    | none => e.trap 0x61 e.ls
    | some u =>
      match e.full .cl with
      | some p => .park e.s p e.run.pend
      | none =>
        let bytes := (v.getD (ops.length - 1) 0).toNat
        .ok (((e.s.launch e.t e.ls (some .cl) .release .cluster false false
          (.arrive u k e.ls.length bytes e.ls)).endE e).closeE e) []) e

def execBarrive (k : Nat) (sib : Option Sel) (b : Sel) (s : State) : Host.Outcome State Fault Refusal :=
  laneIssue (.barrive k sib b) (barriveBody k sib b) s

/-- The condition of BWAIT for lanes, with their phases in the explicit form (R293). -/
def Workgroup.passed (w : Workgroup) (k : Nat) (want : List (Nat × Option Nat)) : Bool :=
  let b := w.barriers.get k
  want.all fun p => match p.2 with
    | some ph => b.phase.toNat != ph
    | none => b.phase.getLsbD 0 != (w.lane p.1).wpar.getLsbD k

/-- Lanes pass a barrier in the implicit form: their parity becomes PHASE[0]. -/
def Workgroup.setParity (w : Workgroup) (k : Nat) (ls : List Nat) : Workgroup :=
  let ph := (w.barriers.get k).phase.getLsbD 0
  overList ls w fun w l => w.updLane l fun x => { x with wpar := setBit x.wpar k ph }

/-- BWAIT: an acquire at cluster scope. -/
def bwaitBody (k : Nat) (phase : Option Sel) (e : Env) : Res :=
  crewBody (fun _ _ =>
    if (e.w.barriers.get k).init = false then e.trap 0x61 e.ls
    else
      let want := e.ls.map fun l => (l, phase.map fun r => (e.int32 l r 0 0).toNat % 65536)
      if e.w.passed k want then
        let s1 := match phase with
          | none => e.s.updWg e.t fun w => w.setParity k e.ls
          | some _ => e.s
        .ok ((s1.acquired e.t .acquire .cluster).endE e) []
      else .park e.s (.barrier k want) e.run.pend) e

def execBwait (k : Nat) (phase : Option Sel) (s : State) : Host.Outcome State Fault Refusal :=
  laneIssue (.bwait k phase) (bwaitBody k phase) s

/-- A word of a register as BTEST reads it (R294). -/
def Barrier.word (b : Barrier) (par : Bool) (i : Nat) : Nat :=
  let f (x : Bool) (k : Nat) : Nat := if x then 2 ^ k else 0
  match i with
  | 0 => b.phase.toNat + f b.init 16 + f b.early 17 + f b.overflow 18 + f (b.phase.getLsbD 0 != par) 19 + b.pendarr.toNat * 2 ^ 20
  | 1 => b.pendbytes.toNat
  | 2 => b.exparr.toNat + f b.bound 12 + b.bcrew.toNat * 2 ^ 13
  | _ => b.expbytes.toNat

def btestBody (k word : Nat) (d : Sel) (e : Env) : Res :=
  crewBody (fun _ low =>
    .ok (e.s.putAll e d ((e.w.barriers.get k).word ((e.w.lane low).wpar.getLsbD k) word)) []) e

def execBtest (k word : Nat) (d : Sel) (s : State) : Host.Outcome State Fault Refusal :=
  laneIssue (.btest k word d) (btestBody k word d) s

end Sys2Proof.Machine
end

