-- ==== Sys2Proof/Machine/Vector.lean ====
section
/-! DEFINITION. Vector floating-point arithmetic and the ordered reductions (spec/06 R119-R129, R137). Rounding follows
sr.fpmode of each lane unless the entry says otherwise (R120). -/

namespace Sys2Proof.Machine

open Sys2Proof

/-- Delivered elements packed into a result, their flags, and how many saturated (R119). -/
def packRes (w : Nat) (rs : List FRes) : LaneOut :=
  { res := BitVec.ofNat 64 (packElems w (rs.map (·.bits)))
    flags := overList rs 0 fun f r => f ||| r.flags
    sat := overList rs 0 fun n r => n + r.sat }

/-- Each element of up to three operands of a TYPE (R119). -/
def fltElems (t : FType) (g : Nat → Nat → Nat → FRes) (x : LaneIn) : LaneOut :=
  packRes t.bits ((List.range t.count).map fun k =>
    g (elemAt t.bits (x.val 0) k) (elemAt t.bits (x.val 1) k) (elemAt t.bits (x.val 2) k))

/-- A two-source float instruction. -/
def fltA (i : Instr) (o : FltA) (g : Rounding → Nat → Nat → FRes) (s : State) : Host.Outcome State Fault Refusal :=
  laneIssue i (aluBody [.flt o.ty o.a, .flt o.ty o.b] (dst o.nw o.d (fspan o.ty))
    fun x => fltElems o.ty (fun a b _ => g x.rnd a b) x) s

/-- A one-source float instruction with a float result. -/
def fltU (i : Instr) (o : FltU) (g : Rounding → Nat → FRes) (s : State) : Host.Outcome State Fault Refusal :=
  laneIssue i (aluBody [.flt o.ty o.a] (dst o.nw o.d (fspan o.ty)) fun x => fltElems o.ty (fun a _ _ => g x.rnd a) x) s

/-- A two-operand operation on patterns of a TYPE. -/
def op2 (t : FType) (g : FFmt → FVal → FVal → FRes) (a b : Nat) : FRes :=
  g (ftFmt t) ((ftFmt t).decode a) ((ftFmt t).decode b)

/-- FADD, FSUB, FMUL, FDIV (R122). -/
def execFadd (o : FltA) (s : State) : Host.Outcome State Fault Refusal :=
  fltA (.fadd o) o (fun m => op2 o.ty fun f => f.add m) s
def execFsub (o : FltA) (s : State) : Host.Outcome State Fault Refusal :=
  fltA (.fsub o) o (fun m => op2 o.ty fun f => f.sub m) s
def execFmul (o : FltA) (s : State) : Host.Outcome State Fault Refusal :=
  fltA (.fmul o) o (fun m => op2 o.ty fun f => f.mul m) s
def execFdiv (o : FltA) (s : State) : Host.Outcome State Fault Refusal :=
  fltA (.fdiv o) o (fun m => op2 o.ty fun f => f.div m) s

/-- The mode of a rounding control (R121). -/
def ctlMode (rc : RoundCtl) (dyn : Rounding) : Rounding := match rc with | .static m => m | .dyn => dyn

/-- FFMA (R123). -/
def execFfma (ty : FType) (nw : Bool) (rc : RoundCtl) (d a b c : Sel) (s : State) : Host.Outcome State Fault Refusal :=
  laneIssue (.ffma ty nw rc d a b c) (aluBody [.flt ty a, .flt ty b, .flt ty c] (dst nw d (fspan ty)) fun x =>
    fltElems ty (fun p q r => (ftFmt ty).fma (ctlMode rc x.rnd) ((ftFmt ty).decode p) ((ftFmt ty).decode q) ((ftFmt ty).decode r)) x) s

/-- FMIN and FMAX (R124). -/
def execFmin (o : FltA) (s : State) : Host.Outcome State Fault Refusal :=
  fltA (.fmin o) o (fun _ a b => (ftFmt o.ty).minmax false a b) s
def execFmax (o : FltA) (s : State) : Host.Outcome State Fault Refusal :=
  fltA (.fmax o) o (fun _ a b => (ftFmt o.ty).minmax true a b) s

/-- FCOPYS (R124): A with the sign bit of B. -/
def copySign (w a b : Nat) : FRes := ⟨a % 2 ^ (w - 1) + b / 2 ^ (w - 1) * 2 ^ (w - 1), 0, 0⟩

def execFcopys (o : FltA) (s : State) : Host.Outcome State Fault Refusal :=
  fltA (.fcopys o) o (fun _ a b => copySign o.ty.bits a b) s

/-- FSQRT (R125). -/
def execFsqrt (o : FltU) (s : State) : Host.Outcome State Fault Refusal :=
  fltU (.fsqrt o) o (fun m a => (ftFmt o.ty).sqrt m ((ftFmt o.ty).decode a)) s

/-- FSCALE (R125): B is an integer, .s32 beside .f32 and .f64, .s16 in each half otherwise. -/
def scaleType (t : FType) : IType := if t.bits = 16 then .s16 else .s32

def scaleOut (t : FType) (x : LaneIn) : LaneOut :=
  packRes t.bits ((List.range t.count).map fun k =>
    (ftFmt t).scaleBy x.rnd ((ftFmt t).decode (elemAt t.bits (x.val 0) k))
      (itVal (scaleType t) (elemAt (scaleType t).bits (x.val 1) k)))

def execFscale (o : FltA) (s : State) : Host.Outcome State Fault Refusal :=
  laneIssue (.fscale o) (aluBody [.flt o.ty o.a, .int (scaleType o.ty) o.b] (dst o.nw o.d (fspan o.ty)) (scaleOut o.ty)) s

/-- FRND (R125). -/
def rndMode (m : RndMode) (dyn : Rounding) : Rounding := match m with | .static r => r | .fpmode => dyn

def execFrnd (o : FltU) (m : RndMode) (s : State) : Host.Outcome State Fault Refusal :=
  fltU (.frnd o m) o (fun dyn a => (ftFmt o.ty).rndInt (rndMode m dyn) a) s

/-- The immediate of FCMP (R126): an FP32 encoding, at .f64 widened exactly. -/
def widen (x : Nat) : Nat :=
  if bits x 23 8 = 255 then x / 2 ^ 31 * 2 ^ 63 + 0x7FF * 2 ^ 52 + x % 2 ^ 23 * 2 ^ 29
  else (fp64.ofVal .rne (fp32.decode x)).bits

def cmpOpd (t : FType) : Src → Opd
  | .imm w => .imm (if t = .f64 then BitVec.ofNat 64 (widen w.toNat) else w.setWidth 64)
  | .reg r => .flt t r

/-- FCMP (R126): the predicate, and 1 or 0 as the latch. -/
def fcmpOut (c : FCond) (t : FType) (pd : Nat) (x : LaneIn) : LaneOut :=
  let r := fcmp c ((ftFmt t).decode (x.val 0)) ((ftFmt t).decode (x.val 1))
  { res := if r.1 then 1 else 0, pd := some (pd, r.1), flags := r.2 }

def execFcmp (c : FCond) (ty : FType) (pd : Nat) (a : Sel) (b : Src) (s : State) : Host.Outcome State Fault Refusal :=
  laneIssue (.fcmp c ty pd a b) (aluBody [.flt ty a, cmpOpd ty b] none (fcmpOut c ty pd)) s

/-- FCLASS (R127): one 32-bit register; at the packed types each half holds the mask of its half. -/
def classOut (t : FType) (x : LaneIn) : LaneOut :=
  { res := BitVec.ofNat 64 (packElems 16 ((List.range t.count).map fun k => (ftFmt t).classMask (elemAt t.bits (x.val 0) k))) }

def execFclass (o : FltU) (s : State) : Host.Outcome State Fault Refusal :=
  laneIssue (.fclass o) (aluBody [.flt o.ty o.a] (dst o.nw o.d 1) (classOut o.ty)) s

/-- The approximate functions (R128): sr.fpmode takes no part. -/
def execFrcp (o : FltU) (s : State) : Host.Outcome State Fault Refusal := fltU (.frcp o) o (fun _ => transOp .rcp o.ty) s
def execFrsq (o : FltU) (s : State) : Host.Outcome State Fault Refusal := fltU (.frsq o) o (fun _ => transOp .rsq o.ty) s
def execFexp2 (o : FltU) (s : State) : Host.Outcome State Fault Refusal := fltU (.fexp2 o) o (fun _ => transOp .exp2 o.ty) s
def execFlog2 (o : FltU) (s : State) : Host.Outcome State Fault Refusal := fltU (.flog2 o) o (fun _ => transOp .log2 o.ty) s
def execFsin (o : FltU) (s : State) : Host.Outcome State Fault Refusal := fltU (.fsin o) o (fun _ => transOp .sin o.ty) s
def execFcos (o : FltU) (s : State) : Host.Outcome State Fault Refusal := fltU (.fcos o) o (fun _ => transOp .cos o.ty) s

/-! ### Ordered reductions (R137) -/

/-- One element position over the participants in order: the first is quieted, the others are combined with it. -/
def reduceElem (f : FFmt) (comb : Nat → Nat → FRes) : List Nat → FRes
  | [] => ⟨0, 0, 0⟩
  | x :: rest =>
    let first : FRes := match f.decode x with
      | .nan n fr s => ⟨f.nanBits n fr, if s then flIV else 0, 0⟩
      | _ => ⟨x, 0, 0⟩
    rest.foldl (fun r y => let q := comb r.bits y; ⟨q.bits, r.flags ||| q.flags, 0⟩) first

/-- The reduction of a clause's participants: every one receives the result. -/
def reduceBody (t : FType) (a : Sel) (d : Dest) (comb : Rounding → Nat → Nat → FRes) (e : Env) : Res :=
  match e.ls with
  | [] => .ok e.s []
  | p0 :: _ =>
    let mode := roundOf (e.w.lane p0).fpmode
    let vs := e.ls.map fun l => (e.opd l (.flt t a) 0 0).toNat
    let r := packRes t.bits ((List.range t.count).map fun k =>
      reduceElem (ftFmt t) (comb mode) (vs.map fun v => elemAt t.bits v k))
    let s1 := e.s.updWg e.t fun w =>
      let w1 := w.sumUp r.flags 0 0
      match d with
      | some (q, n) => w1.writeSel e.s.free q (e.ls.map fun l => (l, splitWords n r.res))
      | none => w1
    .ok s1 (e.ls.map fun l => (l, r.res))

def execFreda (o : FltU) (s : State) : Host.Outcome State Fault Refusal :=
  laneIssue (.freda o) (reduceBody o.ty o.a (dst o.nw o.d (fspan o.ty)) fun m => op2 o.ty fun f => f.add m) s
def execFredm (o : FltU) (s : State) : Host.Outcome State Fault Refusal :=
  laneIssue (.fredm o) (reduceBody o.ty o.a (dst o.nw o.d (fspan o.ty)) fun _ a b => (ftFmt o.ty).minmax true a b) s

end Sys2Proof.Machine
end

