-- ==== Sys2Proof/Machine/Unpack.lean ====
section
/-! DEFINITION. Stream decode: UNPKD, UNPKZ, UNPKR (spec/06 R138-R141). -/

namespace Sys2Proof.Machine

open Sys2Proof

/-- A run of scratchpad bytes that an instruction reads: the space, the first byte, how many, and the address word that a
trap reports (spec/15 R364). -/
structure SpadRun where
  cluster : Bool
  lo : Nat
  n : Nat
  word : Nat
  deriving DecidableEq, Repr, Inhabited

/-- Where each byte of a run lies; none when one lies outside the addressed scratchpad. -/
def State.runLocs (s : State) (t lane : Nat) (r : SpadRun) : Option (List (Nat × Nat)) :=
  (List.range r.n).mapM fun k => s.spadAt t lane r.cluster (r.lo + k) 1

/-- The bytes of a run. -/
def State.runBytes (s : State) (t lane : Nat) (r : SpadRun) : List Byte :=
  ((s.runLocs t lane r).getD []).map fun p => (s.wg p.1).win.get p.2

/-- The bytes of runs as a lane's accesses. -/
def State.runAccs (s : State) (t lane : Nat) (rs : List SpadRun) : List SpadLoc :=
  rs.flatMap fun r => ((s.runLocs t lane r).getD []).map fun p => ⟨lane, p.1, p.2⟩

/-- The range check of runs, and the accesses that a lane's relaxed load of them follows (R138, spec/10 R241). -/
def Env.spadSettle (e : Env) (lane : Nat) (rs : List SpadRun) : Except Res State :=
  match rs.find? fun r => (e.s.runLocs e.t lane r).isNone with
  | some r => .error (.trap e.s { cause := 0x28, faulters := [lane], fpc := e.fpc, detail := fun _ => spadDetail r.cluster r.word })
  | none =>
    let op : FlightOp := .load .b8 none
      [{ lane := lane, spans := (e.s.runAccs e.t lane rs).map fun x => ⟨.win x.owner x.off, 1⟩, l1 := false, conv := [] }] []
    let r := e.s.settleFor e.t { e.s.asItem e.t [lane] .relaxed .crew false op with checked := true }
    match r.2 with
    | some (c, id) => .error (.park r.1 (.item c id) e.run.pend)
    | none => .ok r.1

/-- One relaxed scratchpad load of runs by a lane, race-checked (R138). -/
def Env.spadReads (e : Env) (lane : Nat) (rs : List SpadRun) : Except Res State :=
  match e.spadSettle lane rs with
  | .error r => .error r
  | .ok s1 =>
    let e1 := { e with s := s1 }
    match e1.padCheck (s1.runAccs e.t lane rs) 1 with
    | some r => .error r
    | none => e1.race false (s1.spadRaces (s1.runAccs e.t lane rs) 1)

/-- The run that holds nb stream bits from the cursor's bit address. -/
def cursorRun (cur nb : Nat) : SpadRun :=
  let b := bits cur 0 27
  { cluster := bitAt cur 27, lo := b / 8, n := (b % 8 + nb + 7) / 8, word := cur % 2 ^ 28 }

/-- Stream bits [k+w-1 : k] after the cursor (R138). -/
def streamBits (cur : Nat) (bs : List Byte) (k w : Nat) : Nat := bits (natOfBytes bs) (bits cur 0 27 % 8 + k) w

/-- The cursor advanced by nb bits, its bits [31:28] zero. A sum beyond 27 bits wraps and keeps the space bit (DESIGN CHOICE, log
69). -/
def advanceCursor (cur nb : Nat) : Nat := (bits cur 0 27 + nb) % 2 ^ 27 + bits cur 27 1 * 2 ^ 27

/-- Write the data and then the cursor of a decode instruction. -/
def unpkWrite (e : Env) (s : State) (nw : Bool) (d a : Sel) (cur : Nat) (rs : List (Nat × Nat)) (fl : FFlags) : Res :=
  .ok (s.updWg e.t fun w =>
    let w1 := w.sumUp fl 0 0
    let w2 := if nw then w1 else w1.writeSel s.free d (rs.map fun p => (p.1, [BitVec.ofNat 32 p.2]))
    w2.writeSel s.free a (e.ls.map fun l => (l, [BitVec.ofNat 32 cur]))) (rs.map fun p => (p.1, BitVec.ofNat 64 p.2))

/-! ### UNPKD (R139) -/

def unpkdBody (ty : FType) (nw : Bool) (d a b c : Sel) (e : Env) : Res :=
  match e.ls with
  | [] => .ok e.s []
  | p0 :: _ =>
    let v := e.opds p0 [.int .u32 a, .int .u32 b, .int .u32 c] 0 0
    let cur := (v.getD 0 0).toNat
    let n := bits (v.getD 1 0).toNat 0 3 + 1
    let size := ty.bits / 8
    let daddr := bits (v.getD 2 0).toNat 0 24 / size * size
    let dcl := bitAt (v.getD 2 0).toNat 24
    let total := e.ls.length * ty.count * n
    let run := cursorRun cur total
    match e.spadSettle p0 [run] with
    | .error r => r
    | .ok s0 =>
    let bs := s0.runBytes e.t p0 run
    let entryRun (k : Nat) : SpadRun :=
      { cluster := dcl, lo := daddr + streamBits cur bs (k * n) n * size, n := size
        word := daddr + if dcl then 2 ^ 24 else 0 }
    match { e with s := s0 }.spadReads p0 (run :: (List.range (e.ls.length * ty.count)).map entryRun) with
    | .error r => r
    | .ok s1 =>
      let entry (k : Nat) : Nat := natOfBytes (s1.runBytes e.t p0 (entryRun k))
      unpkWrite e s1 nw d a (advanceCursor cur total)
        (e.ls.zipIdx.map fun p => (p.1, packElems ty.bits ((List.range ty.count).map fun j => entry (ty.count * p.2 + j)))) 0

def execUnpkd (ty : FType) (nw : Bool) (d a b c : Sel) (s : State) : Host.Outcome State Fault Refusal :=
  laneIssue (.unpkd ty nw d a b c) (unpkdBody ty nw d a b c) s

/-! ### UNPKZ (R140) -/

def unpkzBody (ty : FType) (nw : Bool) (d a : Sel) (e : Env) : Res :=
  match e.ls with
  | [] => .ok e.s []
  | p0 :: _ =>
    let cur := (e.opd p0 (.int .u32 a) 0 0).toNat
    let mrun := cursorRun cur 32
    match e.spadSettle p0 [mrun] with
    | .error r => r
    | .ok s0 =>
    let m := streamBits cur (s0.runBytes e.t p0 mrun) 0 32
    let total := 32 + popCount 32 m * ty.bits
    let run := cursorRun cur total
    match { e with s := s0 }.spadReads p0 [run] with
    | .error r => r
    | .ok s1 =>
      let bs := s1.runBytes e.t p0 run
      unpkWrite e s1 nw d a (advanceCursor cur total)
        (e.ls.map fun l =>
          (l, if bitAt m (posOf l) then streamBits cur bs (32 + popCount (posOf l) m * ty.bits) ty.bits else 0)) 0

def execUnpkz (ty : FType) (nw : Bool) (d a : Sel) (s : State) : Host.Outcome State Fault Refusal :=
  laneIssue (.unpkz ty nw d a) (unpkzBody ty nw d a) s

/-! ### UNPKR (R141) -/

/-- One affine-coded value: code × step + offset, rounded once. -/
def affine (f : FFmt) (mode : Rounding) (sgn : Bool) (n code step off : Nat) : FRes :=
  let v : Int := if sgn then signedOf n code else (code : Int)
  f.fma mode (.fin (decide (v < 0)) v.natAbs 0) (fp32.decode step) (fp32.decode off)

def unpkrBody (ty : FType) (nw : Bool) (rc : RoundCtl) (d a b c : Sel) (e : Env) : Res :=
  match e.ls with
  | [] => .ok e.s []
  | p0 :: _ =>
    let v := e.opds p0 [.int .u32 a, .int .u32 b] 0 0
    let cur := (v.getD 0 0).toNat
    let n := bits (v.getD 1 0).toNat 0 4 + 1
    let sgn := bitAt (v.getD 1 0).toNat 4
    let total := e.ls.length * ty.count * n
    let run := cursorRun cur total
    match e.spadReads p0 [run] with
    | .error r => r
    | .ok s1 =>
      let bs := s1.runBytes e.t p0 run
      let rs := e.ls.zipIdx.map fun p =>
        let so := e.regs p.1 c 2 0 8
        let mode := ctlMode rc (roundOf (e.w.lane p.1).fpmode)
        (p.1, packRes ty.bits ((List.range ty.count).map fun j =>
          affine (ftFmt ty) mode sgn n (streamBits cur bs ((ty.count * p.2 + j) * n) n) (so.getD 0 0).toNat (so.getD 1 0).toNat))
      unpkWrite e s1 nw d a (advanceCursor cur total) (rs.map fun r => (r.1, r.2.res.toNat))
        (overList rs 0 fun f r => f ||| r.2.flags)

def execUnpkr (ty : FType) (nw : Bool) (rc : RoundCtl) (d a b c : Sel) (s : State) : Host.Outcome State Fault Refusal :=
  laneIssue (.unpkr ty nw rc d a b c) (unpkrBody ty nw rc d a b c) s

end Sys2Proof.Machine
end

