-- ==== Sys2Proof/Machine/Post.lean ====
section
/-! DEFINITION. Engine queues as producers see them (spec/12 R270-R275): the header, the checks of R295, and EPOST, COPY and
ESEQ (R295, R296). -/

namespace Sys2Proof.Machine

open Sys2Proof

/-! ### Queue headers (R270-R272) -/

/-- A queue header as one number of 512 bits. -/
def State.hdrBits (s : State) (pa : Nat) : Nat := s.rdNat pa 64

def qWridx (h : Nat) : Nat := bits h 0 32
def qWm (h : Nat) : Nat := bits h 32 32
def qRing (h : Nat) : Nat := bits h 64 56
def qLog (h : Nat) : Nat := bits h 128 5
def qClass (h : Nat) : Nat := bits h 136 4
def qInst (h : Nat) : Nat := bits h 140 8
def qEnable (h : Nat) : Bool := bitAt h 148
def qStatus (h : Nat) : Nat := bits h 149 2
def qRingseq (h : Nat) : Nat := bits h 160 32
def qDomain (h : Nat) : Nat := bits h 192 12

/-- Engines that exist (R271). -/
def engineExists (cls inst : Nat) : Bool :=
  match cls with | 0 => decide (inst ≤ 7) | 1 => decide (inst ≤ 7) | 2 => decide (inst ≤ 1) | 3 => decide (inst ≤ 15) | _ => false

/-- Opcodes that a class serves (R271, R275). -/
def classServes (cls op : Nat) : Bool :=
  match cls with
  | 0 => op == 1 || op == 2 || op == 3 || op == 7
  | 1 => op == 1 || op == 4 || op == 7
  | 2 => op == 6 || op == 7
  | 3 => op == 5 || op == 7
  | _ => false

/-- A header whose queue may be used by a domain (R295). -/
def queueOk (h dom : Nat) : Bool :=
  qEnable h && qStatus h != 2 && qStatus h != 3 && engineExists (qClass h) (qInst h) && qDomain h == dom &&
  decide (qLog h ≤ 16) && bits h 64 6 == 0

/-- m ≥ n of sequence numbers (R272). -/
def seqGe (m n : Nat) : Bool := decide ((m + 2 ^ 32 - n % 2 ^ 32) % 2 ^ 32 < 2 ^ 31)

/-- Virtual address of the slot of packet n (R272). -/
def slotVa (h n : Nat) : Nat := qRing h + 64 * ((n + 2 ^ 32 - qRingseq h) % 2 ^ 32 % 2 ^ qLog h)

/-- The watermark that packet n waits for (R273). -/
def slotFree (h n : Nat) : Nat := (n + 2 ^ 32 - 2 ^ qLog h) % 2 ^ 32

/-- Kind of a packet address (R276). -/
def addrKind (a : Nat) : Nat := bits a 62 2

/-- The address form alone: FORMAT for a bit that must be zero, RANGE for an invalid kind, 0 when it is in form. -/
def addrForm (a : Nat) : Nat :=
  match addrKind a with
  | 0 => if bits a 56 6 ≠ 0 then 5 else 0
  | 1 => if bits a 24 38 ≠ 0 then 5 else 0
  | _ => 2

/-- Bits of words 1 to 15 that must be zero, by opcode (R275-R282, spec/17 R413): true when one is set. A packet word is a
number of 32 bits. STREAM is among them for every opcode but COPY (DEDUCED, log 23). -/
def mustZeroSet (ws : List Nat) : Bool :=
  let w (k : Nat) : Nat := ws.getD k 0
  let z (l : List Nat) : Bool := l.any fun k => w k != 0
  let hi (k lo : Nat) : Bool := w k / 2 ^ lo != 0
  let ad (l : List Nat) : Bool := l.any fun k => addrForm (w k + w (k + 1) * 2 ^ 32) == 5
  let stream := bitAt (w 1) 9
  bits (w 1) 10 14 != 0 || (bitAt (w 1) 9 && bits (w 1) 0 8 != 1) ||
  (match bits (w 1) 0 8 with
    | 1 => z [3, 10, 11, 12, 13, 14, 15] || hi 9 4 || ad [4] || (if stream then z [6, 7, 9] else ad [6])
    | 2 => hi 3 24 || z [12, 13, 14, 15] || ad [4, 6, 10]
    | 3 => bits (w 3) 5 3 != 0 || z [14, 15] || ad [4, 6, 8, 10, 12]
    | 4 => hi 3 13 || z [9, 10, 11, 12, 13, 14, 15] || ad [4, 6]
    | 5 => hi 3 16 || z [15] || ad [4, 6, 8, 10, 12]
    | 6 => hi 3 21 || hi 4 16 || bits (w 7) 3 5 != 0 || z [12, 13, 14, 15] || ad [10]
    | 7 => z [3, 7, 8, 9, 10, 11, 12, 13, 14, 15] || hi 6 5
    | _ => false)

/-! ### Finding the queue (R295) -/

/-- A queue as a posting instruction finds it: the header's physical address, the record index. -/
structure QueueRef where
  pa : Nat
  idx : Nat
  deriving DecidableEq, Repr, Inhabited

/-- Translation of one line by a crew for E: the physical address, and the entries used, or the trap; MEM_TYPE off Normal lines. -/
def Env.normalLine (e : Env) (c : Nat) (wr : Bool) (va idx : Nat) : Except TrapReq (Nat × List TlbEntry) :=
  let cr := e.w.crew c
  let x := e.s.xlate e.w.core cr.domain wr cr.handler 6 [(va, 64)]
  let bad (cause : Nat) : TrapReq := { cause := cause, faulters := e.ls, fpc := e.fpc, detail := fun _ => [BitVec.ofNat 32 idx] }
  match worstGran (x.map (·.1)), x.filterMap (·.2.1) with
  | some cause, _ => .error ((faultTrap e.fpc (e.ls.map fun l => ⟨l, xlRank cause, cause, idx, 0, x.map (·.1)⟩)).getD (bad cause))
  | none, [] => .error (bad 0x27)
  | none, p :: _ => if p.ty ≠ 0 then .error (bad 0x27) else .ok (p.pa, x.flatMap (·.2.2))

/-- The queue that a record names: the checks of the record and of its header line. -/
def Env.queueRef (e : Env) (c idx : Nat) (wr : Bool) : Except TrapReq QueueRef :=
  let bad (cause : Nat) : TrapReq := { cause := cause, faulters := e.ls, fpc := e.fpc, detail := fun _ => [BitVec.ofNat 32 idx] }
  let cr := e.w.crew c
  match e.s.recGet e.w c idx 6 with
  | .error (cause, g) =>
    .error ((faultTrap e.fpc (e.ls.map fun l => ⟨l, if cause = 0x20 then 1 else xlRank cause, cause, idx, 0, g⟩)).getD (bad cause))
  | .ok (ws, _) =>
    let r := recBits ws
    let super := match e.s.descUse e.w.core cr.domain with | some d => descSuper d | none => false
    match recCheck { z := 64, bank := true, noSenc := true } super cr.domain idx r with
    | some (_, cause) => .error (bad cause)
    | none =>
      if rKind r ≠ 0 then .error (bad 0x21)
      else if bitAt r 60 = false then .error (bad 0x2A)
      else if rLive r % 64 ≠ 0 then .error (bad 0x22)
      else match e.normalLine c wr (rLive r) idx with
        | .error q => .error q
        | .ok (pa, _) => .ok { pa := pa, idx := idx }

/-- What the walk for a queue's header reads. -/
def Env.queueWalk (e : Env) (c idx : Nat) : State → Nat → List Span :=
  e.walkAt (e.w.crew c).domain fun s => match s.recGet (s.wg e.t) c idx 6 with
    | .ok (ws, _) => [rLive (recBits ws)]
    | .error _ => []

/-- The record index by which EPOST, COPY or ESEQ names its queue. -/
def Env.queueIdx (e : Env) (low : Nat) (q : Sel) : Nat := (e.int32 low q 0 0).toNat % 256

/-- The machine check of the read of a queue's header by E (spec/15 R358). -/
def Env.hdrTrap (e : Env) (s : State) (pa : Nat) : Option (State × TrapReq) := s.mcTrap e.fpc (e.ls.map fun l => (l, [⟨.phys pa, 64⟩]))

/-- The bytes of a line, as an item's operation that only orders. -/
def lineTouch (lane : Nat) (locs : List Loc) : FlightOp :=
  .load .b32 none [{ lane := lane, spans := locs.map fun x => ⟨x, 64⟩, l1 := false, conv := [] }] []

/-! ### EPOST and COPY -/

/-- A packet image: its words, and where it was read; or its trap. -/
abbrev PacketSource := Nat → Env → Except Res (List Nat × List Loc)

/-- The image of EPOST (R295). -/
def epostImage (i : Sel) (j : Nat) : PacketSource := fun low e =>
  let a := (e.int32 low i j 4).toNat % 2 ^ 25
  let cl := bitAt a 24
  if a % 64 ≠ 0 then .error (e.trap 0x29 e.ls (spadDetail cl a))
  else match e.s.spadAt e.t low cl (a % 2 ^ 24) 64 with
    | none => .error (e.trap 0x28 e.ls (spadDetail cl a))
    | some (u, o) =>
      match e.padCheck [⟨low, u, o⟩] 64 with
      | some r => .error r
      | none =>
      let ws := (wordsLE (e.s.rdSpan ⟨.win u o, 64⟩)).map BitVec.toNat
      .ok ((ws.set 0 0).set 1 (ws.getD 1 0 % 2 ^ 24), [.win u o])

/-- The packet of COPY. -/
def copyImage (tgt stream : Bool) (g j : Nat) : PacketSource := fun low e =>
  let f (b : Bool) (k : Nat) : Nat := if b then 2 ^ k else 0
  .ok ([0, 1 + f tgt 8 + f stream 9] ++ (e.regs low (.v g) 8 j 4).map BitVec.toNat ++ List.replicate 6 0, [])

/-- The item of the gang's post that waits with its claim. -/
def Env.postItem (e : Env) (s : State) : Option FlightItem :=
  if e.run.pend.claimed.isSome then (s.wg e.t).items.find? fun i => i.isPost e.g.id else none

/-- A post counts on EN from its issue (R289): its item, unless it is there. -/
def Env.countPost (e : Env) (s : State) : State :=
  if (e.postItem s).isSome then s
  else s.launch e.t e.ls (some .en) .relaxed .device false false (.post e.g.id)

/-- Write step: the slot's words 1 to 15, then word 0 as a release at device scope, counted on EN. -/
def Env.publishAt (e : Env) (s : State) (low pa n : Nat) (ws : List Nat) (used : List TlbEntry) : State :=
  let body := bytesLE (((ws.drop 1).map fun x => BitVec.ofNat 32 x))
  let op : FlightOp := .store [{ lane := low, runs := [(.phys (pa + 4), body), (.phys pa, bytesOfNat 4 n)] }]
  let lanes := e.ls.map fun l => (l, ((s.wg e.t).lane l).interval)
  match e.postItem s with
  | some p => s.updWg e.t fun w => w.updItem p.id fun i =>
      if i.isPost e.g.id then { i with op := op, ord := .release, lanes := lanes, used := { tlb := used } } else i
  | none => s.launch e.t e.ls (some .en) .release .device false false op none { tlb := used }

/-- A post after its claim: the wait for the slot, the slot's line, the write step. A trap keeps the claim (R295). -/
def Env.afterClaim (e : Env) (s : State) (c low : Nat) (q : QueueRef) (n : Nat) (d : Sel) (ws : List Nat) : Res :=
  let pend : Pend := .claim n q.pa q.idx ws
  let wait (s : State) (p : Park) : Res := .park (e.countPost s) p pend
  let stop (s : State) (r : TrapReq) : Res := .trap (s.updGang e.t e.g.id fun g => { g with clause := some { e.run with pend := pend } }) r
  if s.held ⟨.phys q.pa, 64⟩ then wait s (.bank (pchOf q.pa)) else
  match e.hdrTrap s q.pa with
  | some r => stop r.1 r.2
  | none =>
    let h := s.hdrBits q.pa
    if seqGe (qWm h) (slotFree h n) = false then wait s (.queueAt q.pa (slotFree h n))
    else match s.translated e.t e.ls (e.walkAt (e.w.crew c).domain fun _ => [slotVa h n]) with
      | (s, some p) => wait s p
      | (s, none) => match { e with s := s }.normalLine c true (slotVa h n) q.idx with
        | .error r => stop s r
        | .ok (pa, tlb) => .ok ((((e.publishAt s low pa n ws tlb).putAll e d n).endE e).closeE e) []

/-- EPOST and COPY up to their claim: the checks, in order, then the claim (R295). -/
def Env.claimPost (e : Env) (c low idx : Nat) (d : Sel) (src : PacketSource) : Res :=
  match e.queueRef c idx true with
  | .error r => .trap e.s r
  | .ok ref =>
    match src low e with
    | .error r => r
    | .ok (_, locs) =>
      match e.settled .relaxed .device false (lineTouch low (.phys ref.pa :: locs)) with
      | .error r => r
      | .ok s1 =>
        if s1.held ⟨.phys ref.pa, 64⟩ then .park s1 (.bank (pchOf ref.pa)) e.run.pend else
        let e1 := { e with s := s1 }
        match e.hdrTrap s1 ref.pa, src low e1 with
        | some r, _ => .trap r.1 r.2
        | none, .error r => r
        | none, .ok (ws, _) =>
          let h := s1.hdrBits ref.pa
          if queueOk h (e.w.crew c).domain = false then e1.trap 0x80 e.ls
          else if classServes (qClass h) (ws.getD 1 0 % 256) = false ∨ mustZeroSet ws then e1.trap 0x81 e.ls
          else match e1.full .en with
            | some p => .park s1 p e.run.pend
            | none =>
              let n := (qWridx h + 1) % 2 ^ 32
              e1.afterClaim (s1.physWrite (some e.w.core) ref.pa (bytesOfNat 4 n)) c low ref n d ws

/-- EPOST and COPY. One that has made its claim goes on at the write step, and checks nothing again (R295). -/
def postBody (d q : Sel) (src : PacketSource) (e : Env) : Res :=
  crewBody (fun c low =>
    match e.run.pend with
    | .claim n hdr idx ws =>
      (match e.full .en, e.postItem e.s with
        | some p, none => .park e.s p e.run.pend
        | _, _ => e.afterClaim e.s c low ⟨hdr, idx⟩ n d ws)
    | _ => e.withRec c (e.queueIdx low q) (e.queueWalk c (e.queueIdx low q)) fun e => e.claimPost c low (e.queueIdx low q) d src) e

def epostBody (d q i : Sel) (e : Env) : Res := postBody d q (epostImage i (popsIn [(q, 1)])) e
def copyBody (tgt stream : Bool) (d q : Sel) (g : Nat) (e : Env) : Res := postBody d q (copyImage tgt stream g (popsIn [(q, 1)])) e

def execEpost (d q i : Sel) (s : State) : Host.Outcome State Fault Refusal := laneIssue (.epost d q i) (epostBody d q i) s
def execCopy (tgt stream : Bool) (d q : Sel) (g : Nat) (s : State) : Host.Outcome State Fault Refusal :=
  laneIssue (.copy tgt stream d q g) (copyBody tgt stream d q g) s

/-! ### ESEQ (R296) -/

def eseqBody (d q : Sel) (thr : Option Sel) (e : Env) : Res :=
  crewBody (fun c low => e.withRec c (e.queueIdx low q) (e.queueWalk c (e.queueIdx low q)) fun e =>
    match e.queueRef c (e.queueIdx low q) false with
    | .error r => .trap e.s r
    | .ok ref =>
      match e.settled .acquire .device false (lineTouch low [.phys ref.pa]) with
      | .error r => r
      | .ok s1 =>
        if s1.held ⟨.phys ref.pa, 64⟩ then .park s1 (.bank (pchOf ref.pa)) e.run.pend else
        match e.hdrTrap s1 ref.pa with
        | some r => .trap r.1 r.2
        | none =>
        let h := s1.hdrBits ref.pa
        if queueOk h (e.w.crew c).domain = false then e.trap 0x80 e.ls
        else
          let done : Res := .ok ((((s1.putAll e d (qWm h)).acquired e.t .acquire .device).endE e).closeE e) []
          match thr with
          | none => done
          | some r =>
            let n := (e.int32 low r (popsIn [(q, 1)]) 4).toNat
            if seqGe (qWm h) n then done else .park s1 (.queueAt ref.pa n) e.run.pend) e

def execEseq (d q : Sel) (thr : Option Sel) (s : State) : Host.Outcome State Fault Refusal :=
  laneIssue (.eseq d q thr) (eseqBody d q thr) s

end Sys2Proof.Machine
end

