-- ==== Sys2Proof/Machine/Engine.lean ====
section
/-! DEFINITION. Engines (spec/12 R270-R282, spec/11 R263-R268): queues bound to their engines, packets, the start checks, an
engine's accesses, and QUEUE_ENABLE, QUEUE_DISABLE, PACKET_START, PACKET_COMPLETE, ENGINE_SLOT_CLAIM, LINK. -/

namespace Sys2Proof.Machine

open Sys2Proof

/-! ### Packets (R275) -/

def Packet.word (p : Packet) (k : Nat) : Nat := (p.words.getD k 0).toNat
def Packet.dbl (p : Packet) (k : Nat) : Nat := p.word k + p.word (k + 1) * 2 ^ 32
def Packet.op (p : Packet) : Nat := bits (p.word 1) 0 8
def Packet.tgten (p : Packet) : Bool := bitAt (p.word 1) 8
def Packet.stream (p : Packet) : Bool := bitAt (p.word 1) 9
def Packet.tgtReg (p : Packet) : Nat := bits (p.word 2) 0 4
def Packet.tgtKind (p : Packet) : Bool := bitAt (p.word 2) 4
def Packet.tgtCrew (p : Packet) : Nat := bits (p.word 2) 5 6
def Packet.tgtWg (p : Packet) : Nat := bits (p.word 2) 11 21
def Packet.mask (p : Packet) : Nat := bits (p.word 9) 0 4

/-- TGT keeps the form that its packet asks of it (R275). -/
def Packet.tgtOk (p : Packet) : Bool :=
  !p.tgten || (p.tgtKind == p.stream && (if p.stream then p.tgtReg / 8 == 0 else p.tgtCrew == 0))

/-! ### Queues -/

def State.queue? (s : State) (hdr : Nat) : Option Queue := s.queues.find? fun q => q.hdr == hdr

def State.updQueue (s : State) (hdr : Nat) (f : Queue → Queue) : State :=
  { s with queues := s.queues.map fun q => if q.hdr = hdr then f q else q }

def Queue.packet? (q : Queue) (seq : Nat) : Option Packet := q.running.find? fun p => p.seq == seq

def State.updPacket (s : State) (hdr seq : Nat) (f : Packet → Packet) : State :=
  s.updQueue hdr fun q => { q with running := q.running.map fun p => if p.seq = seq then f p else p }

/-- A packet has done its work, with a status. -/
def State.endPacket (s : State) (hdr seq status : Nat) : State :=
  s.updPacket hdr seq fun p => { p with finished := true, status := status }

/-- A running packet that still has work to do. -/
def State.workOf (s : State) (hdr seq op : Nat) : Option (Queue × Packet) :=
  match s.queue? hdr with
  | none => none
  | some q => match q.packet? seq with
    | none => none
    | some p => if p.finished ∨ p.op ≠ op then none else some (q, p)

/-- QSTATUS of a header, written by the engine. -/
def State.setStatus (s : State) (hdr v : Nat) : State :=
  s.physWrite none (hdr + 18) (bytesOfNat 1 (putBits (s.rdNat (hdr + 18) 1) 5 2 v))

/-- The first failure of a queue (R274). -/
def State.recordError (s : State) (hdr seq status : Nat) : State :=
  let h := s.hdrBits hdr
  if bits h 224 40 = 0 then s.physWrite none (hdr + 28) (bytesOfNat 5 (seq + status * 2 ^ 32)) else s

/-- Queues an engine serves. -/
def State.servedBy (s : State) (cls inst : Nat) : Nat := (s.queues.filter fun q => q.cls == cls && q.inst == inst).length

/-- QUEUE_ENABLE: an engine sees ENABLE = 1 in a header line and binds the queue, or refuses the 257th (R271). -/
def execQueueEnable (hdr : Nat) (s : State) : Host.Outcome State Fault Refusal :=
  let h := s.hdrBits hdr
  if hdr % 64 ≠ 0 ∨ aperture hdr = none ∨ (s.queue? hdr).isSome ∨ qEnable h = false ∨ qStatus h = 2 ∨
      engineExists (qClass h) (qInst h) = false ∨ s.held ⟨.phys hdr, 64⟩ then .fault .notEnabled
  else if s.servedBy (qClass h) (qInst h) ≥ 256 then .next (s.setStatus hdr 2)
  else
    let q : Queue := { (default : Queue) with
      hdr := hdr, cls := qClass h, inst := qInst h, domain := qDomain h, ring := (qRing h, qLog h, qRingseq h)
      next := (qWm h + 1) % 2 ^ 32 }
    let s1 := s.setStatus hdr 1
    .next { s1 with queues := s1.queues ++ [q] }

/-- QUEUE_DISABLE: an engine sees ENABLE = 0, writes QSTATUS 0 and stops watching the header (R271). -/
def execQueueDisable (hdr : Nat) (s : State) : Host.Outcome State Fault Refusal :=
  let h := s.hdrBits hdr
  if qEnable h ∨ s.held ⟨.phys hdr, 64⟩ then .fault .notEnabled
  else match s.queue? hdr with
    | some q =>
      if q.running ≠ [] then .fault .notEnabled
      else
        let s1 := s.setStatus hdr 0
        .next { s1 with queues := s1.queues.filter fun x => x.hdr != hdr }
    | none =>
      if hdr % 64 = 0 ∧ qStatus h = 2 ∧ engineExists (qClass h) (qInst h) then .next (s.setStatus hdr 0) else .fault .notEnabled

/-! ### An engine's accesses (R276, R439, R440) -/

/-- What an engine's access comes to: a value; a wait, while bytes lie in a pseudo-channel held in all-bank mode (spec/13
R324); or a status that ends the packet. -/
inductive EngRes (α : Type) where
  | ok (a : α) (s : State)
  | wait
  | stop (status : Nat) (s : State)

/-- Go on after an access. -/
def EngRes.andThen {α β : Type} (r : EngRes α) (k : α → State → EngRes β) : EngRes β :=
  match r with
  | .ok a s => k a s
  | .wait => .wait
  | .stop c s => .stop c s

/-- The physical place of bytes of one granule under a queue's domain. -/
def State.engAt (s : State) (dom : Nat) (wr : Bool) (va n : Nat) : EngRes Nat :=
  match s.walkMem dom wr va with
  | .fail .. => .stop 1 s
  | .ok pa .. =>
    if s.held ⟨.phys pa, n⟩ then .wait
    else match s.mcOf ⟨.phys pa, n⟩, aperture pa with
      | some m, _ => .stop 1 (s.logMc m.1 m.2.1 m.2.2)
      | none, some 1 => .stop 1 s
      | none, some 2 => if n % 8 ≠ 0 ∨ pa % 8 ≠ 0 then .stop 1 s else .ok pa s
      | none, some 3 => if wr then .stop 1 s else .ok pa s
      | none, _ => .ok pa s

/-- An engine's access of a location, a byte of a scratchpad window among them, meets no uncorrectable error (spec/15 R358). -/
def State.engPad (s : State) (l : Loc) (n : Nat) : EngRes Unit :=
  match s.mcOf ⟨l, n⟩ with
  | some m => .stop 1 (s.logMc m.1 m.2.1 m.2.2)
  | none => .ok () s

/-- An engine's store at its home. -/
def State.engPut (s : State) (pa : Nat) (bs : List Byte) : State :=
  match aperture pa with
  | some 2 => overList (List.range (bs.length / 8)) s fun s k =>
      s.regStore .lane (pa % 4096 + 8 * k) (BitVec.ofNat 64 (natOfBytes ((bs.drop (8 * k)).take 8)))
  | _ => (s.physWrite none pa bs).hostHold pa bs.length

/-- The engine of a packet as the scopes see it (spec/11 R263). -/
def Packet.agent (p : Packet) : Agent :=
  match p.die with
  | some d => .die d
  | none => .module

/-- Before a packet's engine touches bytes, their homes take the stores that a release has passed whose scope contains the engine; a
release of a narrower scope, or of another die, orders nothing for it (spec/11 R263, R264). -/
def State.engSee (s : State) (p : Packet) (xs : List Span) : EngRes Unit :=
  match s.seenBy [p.agent] xs with
  | some s1 => .ok () s1
  | none => .wait

/-- Read granules in order. -/
def State.engReadAll (dom : Nat) : List (Nat × Nat) → List Byte → State → EngRes (List Byte)
  | [], acc, s => .ok acc s
  | g :: rest, acc, s => (s.engAt dom false g.1 g.2).andThen fun pa s =>
      (s.hostHold pa g.2).engReadAll dom rest (acc ++ s.homeLoad pa g.2)

/-- Write granules in order; after a failure no later byte is written. -/
def State.engWriteAll (dom : Nat) : List (Nat × Nat) → List Byte → State → EngRes Unit
  | [], _, s => .ok () s
  | g :: rest, bs, s => (s.engAt dom true g.1 g.2).andThen fun pa s =>
      (s.engPut pa (bs.take g.2)).engWriteAll dom rest (bs.drop g.2)

/-- n bytes at a cluster-space address of a workgroup (spec/08 R169): the window and the offset. -/
def State.padAt (s : State) (t ea n : Nat) : Option (Nat × Nat) :=
  let w := s.wg t
  let c := bits ea 22 2
  match w.sibAt t c with
  | some u =>
    let o := bits ea 0 22
    if (s.wg u).life != .absent && decide (o + n ≤ (s.wg u).spad) then some (u, o) else none
  | none => none

/-- The workgroup that a packet names does not exist any more. -/
def State.targetGone (s : State) (p : Packet) : Bool := (s.wg p.tgtWg).life == .absent

/-- Where each of n bytes at a distance from a packet address lies, as far as they are mapped, to be written if so asked. -/
def State.engLocs (s : State) (p : Packet) (dom a d n : Nat) (wr : Bool := false) : List Span :=
  if addrKind a = 0 then (granules (a + d) n).filterMap fun g => match s.walkMem dom wr g.1 with
    | .ok pa .. => some ⟨.phys pa, g.2⟩
    | .fail .. => none
  else match s.padAt p.tgtWg a (d + n) with
    | some (u, o) => [⟨.win u (o + d), n⟩]
    | none => []

/-- n bytes at a distance d from a packet address. -/
def State.engRead (s : State) (p : Packet) (dom a d n : Nat) : EngRes (List Byte) :=
  (s.engSee p (s.engLocs p dom a d n)).andThen fun _ s =>
  match addrForm a, addrKind a with
  | 0, 0 => s.engReadAll dom (granules (a + d) n) []
  | 0, _ =>
    if s.targetGone p then .stop 3 s
    else match s.padAt p.tgtWg a (d + n) with
      | some (u, o) => (s.engPad (.win u (o + d)) n).andThen fun _ s => .ok (s.rdSpan ⟨.win u (o + d), n⟩) s
      | none => .stop 2 s
  | c, _ => .stop c s

/-- Bytes written at a distance d from a packet address. -/
def State.engWrite (s : State) (p : Packet) (dom a d : Nat) (bs : List Byte) : EngRes Unit :=
  (s.engSee p (s.engLocs p dom a d bs.length)).andThen fun _ s =>
  match addrForm a, addrKind a with
  | 0, 0 => s.engWriteAll dom (granules (a + d) bs.length) bs
  | 0, _ =>
    if s.targetGone p then .stop 3 s
    else match s.padAt p.tgtWg a (d + bs.length) with
      | some (u, o) => (s.engPad (.win u (o + d)) bs.length).andThen fun _ s => .ok () (s.wrLoc none (.win u (o + d)) bs)
      | none => .stop 2 s
  | c, _ => .stop c s

/-- Several writes in order. -/
def State.engWrites (p : Packet) (dom : Nat) : List (Nat × Nat × List Byte) → State → EngRes Unit
  | [], s => .ok () s
  | x :: rest, s => (s.engWrite p dom x.1 x.2.1 x.2.2).andThen fun _ s => s.engWrites p dom rest

/-- True when n bytes at a packet address lie outside the windows (R276); device addresses never do. -/
def State.padOutside (s : State) (p : Packet) (a n : Nat) : Bool :=
  addrKind a == 1 && (s.padAt p.tgtWg a n).isNone

/-! ### Start checks (R274-R282, spec/17 R413) -/

/-- Element size of QUANT2's SFMT. -/
def quant2Size (x : Nat) : Nat := if bits x 0 2 = 0 then 4 else 2

/-- Element size of COLL's DTYPE. -/
def collSize (x : Nat) : Nat := match bits x 4 3 with | 0 => 4 | 1 => 8 | 4 => 4 | _ => 2

/-- Address fields of a packet with the bytes from them that the packet names (a table's rows and an array's bytes that only
the data decides are checked where they are read). -/
def Packet.addrs (p : Packet) : List (Nat × Nat) :=
  let w3 := p.word 3
  match p.op with
  | 1 => (p.dbl 4, p.word 8) :: (if p.stream ∨ p.mask ≠ 0 then [] else [(p.dbl 6, p.word 8)])
  | 2 => [(p.dbl 4, 0), (p.dbl 6, 4 * p.word 8), (p.dbl 10, p.word 8 * bits w3 0 24)]
  | 3 => [(p.dbl 4, bits w3 8 24 * 127 + 128 * quant2Size w3), (p.dbl 6, 16384), (p.dbl 8, 512), (p.dbl 10, 16384), (p.dbl 12, 512)]
  | 4 => [(p.dbl 4, 0), (p.dbl 6, 0)]
  | 5 => [(p.dbl 4 , 0), (p.dbl 6, 0), (p.dbl 8, 0), (p.dbl 10, 0), (p.dbl 12, 0)]
  | 6 => [(p.dbl 10, 64)]
  | _ => []

/-- The fields of a body hold only values that are allowed, but for addresses and the bits that must be zero. -/
def Packet.bodyOk (p : Packet) : Bool :=
  let w3 := p.word 3
  match p.op with
  | 1 => !p.stream || (p.tgten && p.dbl 6 == 0 && p.mask == 0)
  | 2 => bits w3 0 24 != 0
  | 3 => bits w3 0 2 != 3 && bits w3 8 24 != 0 && bits w3 8 24 % quant2Size w3 == 0
  | 4 => decide (bits w3 0 4 ≤ 3) && decide (bits w3 4 3 ≤ 4)
  | 5 => bits w3 8 8 != 0 && decide (bits w3 0 8 + bits w3 8 8 ≤ 256)
  | 6 =>
    let w7 := p.word 7
    let w8 := p.word 8
    decide (1 ≤ bits w3 0 21) && decide (bits w3 0 21 ≤ 2 ^ 20) && bits w3 21 11 == 0 && bits (p.word 4) 16 16 == 0 &&
    decide (p.word 5 ≤ p.word 6) && bits w7 0 2 != 3 && bits w7 3 5 == 0 && bits w7 24 8 != 0 && bits w8 0 16 != 0 &&
    (if bits w7 0 2 = 2 then bits w8 16 16 != 0 else bits w8 16 16 == 0) && [12, 13, 14, 15].all fun k => p.word k == 0
  | 7 => !p.tgten && bits (p.dbl 4) 0 6 == 0 && bits (p.dbl 4) 56 8 == 0 && decide (p.word 6 ≤ 16)
  | _ => true

/-- COPY's multicast needs a destination of kind 1 and a group (R277). -/
def State.multicastBad (s : State) (p : Packet) : Bool :=
  p.op == 1 && p.mask != 0 && (addrKind (p.dbl 6) != 1 || (!s.targetGone p && !(s.wg p.tgtWg).cluster))

/-- The siblings that a multicast writes. -/
def Packet.siblings (p : Packet) : List Nat := (List.range 4).filter fun c => bitAt p.mask c

/-- The packet has an address of kind 1, or a stream (R274, R276). -/
def Packet.usesWg (p : Packet) : Bool :=
  p.addrs.any (fun x => addrKind x.1 == 1) || p.stream || (p.op == 1 && p.mask != 0)

/-- Status found at start, 0 for none (R274). -/
def State.startStatus (s : State) (cls : Nat) (p : Packet) : Nat :=
  let as := p.addrs
  let forms := (as.map (·.1) ++ (if p.op = 1 ∧ p.stream = false ∧ p.mask ≠ 0 then [p.dbl 6] else [])).map addrForm
  if classServes cls p.op = false then 4
  else if mustZeroSet (p.words.map BitVec.toNat) ∨ p.tgtOk = false ∨ p.bodyOk = false ∨ forms.contains 5 then 5
  else if forms.contains 2 ∨ (p.op = 4 ∧ as.any fun x => addrKind x.1 == 1) ∨ (s.multicastBad p ∧ addrKind (p.dbl 6) ≠ 1) then 2
  else if p.usesWg ∧ s.targetGone p then 3
  else if p.stream ∧ (((s.wg p.tgtWg).crew p.tgtCrew).held = false ∨ (s.stream p.tgtWg p.tgtCrew p.tgtReg).bound = false) then 3
  else if s.multicastBad p ∨ as.any (fun x => s.padOutside p x.1 x.2) ∨
      (p.op = 1 ∧ p.siblings.any fun c => s.padOutside p (2 ^ 62 + c * 2 ^ 22 + bits (p.dbl 6) 0 22) (p.word 8)) then 2
  else 0

def ringValid (e : BitVec 128) : Bool := e.getLsbD 0
def ringState (e : BitVec 128) : Nat := bits e.toNat 1 2

/-- Positions that contribute to a collective, ascending (spec/19 R443, R444). -/
def Packet.contributors (p : Packet) : List Nat :=
  (List.range 64).filter fun i => let e := p.ring.getD i 0; ringValid e && ringState e != 1

/-- Positions that are active, ascending. -/
def Packet.actives (p : Packet) : List Nat :=
  (List.range 64).filter fun i => let e := p.ring.getD i 0; ringValid e && ringState e == 0

/-- The slice of REDUCE_SCATTER that the k-th of n members receives, in elements: first and count. -/
def scatterSlice (count n k : Nat) : Nat × Nat := (k * count / n, (k + 1) * count / n - k * count / n)

/-- Bytes that a collective writes on this module. -/
def Packet.collBytes (p : Packet) (own : Nat) : Nat :=
  let es := collSize (p.word 3)
  let n := p.word 8
  match bits (p.word 3) 0 4 with
  | 1 => p.contributors.length * n * es
  | 2 => (scatterSlice n p.actives.length ((p.actives.takeWhile (· != own)).length)).2 * es
  | _ => n * es

/-- A COLL as it enters the engine: the membership table as it stands, and its full byte count (R274, R444). -/
def State.enterColl (s : State) (p : Packet) : Packet :=
  if p.op = 4 then
    let p1 := { p with ring := (List.range 64).map s.regs.ring.get }
    { p1 with bytes := p1.collBytes s.regs.ringpos.toNat }
  else p

/-- Nominal bytes of a packet's arrival (R274), which a packet that fails carries too. -/
def Packet.nominal (p : Packet) : Nat :=
  match p.op with
  | 1 => p.word 8
  | 2 => p.word 8 * bits (p.word 3) 0 24
  | 3 => 33792
  | 4 => p.bytes
  | _ => 0

/-! ### CKPT's records (R281) -/

/-- The blocks of a record: record, block, virtual address, bytes. None for a record that is not accepted,
a record that is not VALID among them (DESIGN CHOICE, log 54). -/
def ckptRecord (dom i : Nat) (b : List Byte) : Option (List (Nat × Nat × Nat × Nat)) :=
  let r := recBits (wordsLE b)
  if bitAt r 59 = false ∨ rKind r ≠ 0 ∨ rDtag r ≠ dom then none
  else
    let n := (rExtent r + 65535) / 65536
    some ((List.range n).map fun k => (i, k, rLive r + 65536 * k, min 65536 (rExtent r - 65536 * k)))

/-- The blocks of a CKPT packet, read at its start. -/
def State.ckptBlocks (p : Packet) (dom : Nat) : List Nat → List (Nat × Nat × Nat × Nat) → State → EngRes (List (Nat × Nat × Nat × Nat))
  | [], acc, s => .ok acc s
  | i :: rest, acc, s => (s.engRead p dom (p.dbl 4) (64 * i) 64).andThen fun b s =>
      match ckptRecord dom i b with
      | none => .stop 5 s
      | some l => State.ckptBlocks p dom rest (acc ++ l) s

/-! ### PACKET_START (R274) -/

/-- Virtual address of the slot of packet n in the ring in use (R272). -/
def Queue.slotVa (q : Queue) (n : Nat) : Nat := q.ring.1 + 64 * ((n + 2 ^ 32 - q.ring.2.2) % 2 ^ 32 % 2 ^ q.ring.2.1)

/-- The engine halts a queue whose next slot it cannot read. -/
def State.haltQueue (s : State) (q : Queue) : State :=
  ((s.recordError q.hdr q.next 1).setStatus q.hdr 3).updQueue q.hdr fun x => { x with halted := true }

/-- Units of work of an opcode done in events of their own; 0 for a packet that is finished at its start. -/
def Packet.work (p : Packet) : Nat :=
  match p.op with
  | 1 => if p.stream then 1 else (p.word 8 + 63) / 64
  | 2 => p.word 8
  | _ => 1

/-- A packet has finished reading its source: its place in the order of those that have (spec/23 R458). -/
def State.readDone (s : State) (p : Packet) : Packet :=
  { p with order := 1 + s.queues.foldl (fun n q => q.running.foldl (fun n x => max n x.order) n) 0 }

/-- A packet enters the engine. -/
def State.startPacket (s : State) (q : Queue) (p : Packet) : EngRes Packet :=
  match s.startStatus q.cls p with
  | 0 =>
    (match p.op with
      | 5 =>
        let w := p.word 3
        State.ckptBlocks p q.domain ((List.range (bits w 8 8)).map (bits w 0 8 + ·)) [] s |>.andThen fun l s => .ok { p with blocks := l } s
      | 4 => .ok p s
      | 1 => .ok { (if p.stream && p.word 8 == 0 then s.readDone p else p) with finished := p.work == 0 } s
      | _ => .ok { p with finished := p.work == 0 } s)
  | c => .stop c s

/-- PACKET_START: the engine starts the next packet of a queue, or halts the queue. -/
def execPacketStart (hdr : Nat) (s : State) : Host.Outcome State Fault Refusal :=
  match s.queue? hdr with
  | none => .fault .notEnabled
  | some q =>
    let h := s.hdrBits hdr
    let add (s : State) (p : Packet) : Host.Outcome State Fault Refusal :=
      .next (s.updQueue hdr fun x => { x with next := (x.next + 1) % 2 ^ 32, running := x.running ++ [p] })
    if q.halted ∨ s.held ⟨.phys hdr, 64⟩ ∨ qEnable h = false ∨ seqGe (qWridx h) q.next = false ∨
        (q.running.any fun p => p.op == 7 && !p.finished) then .fault .notEnabled
    else match s.walkMem q.domain true (q.slotVa q.next) with
      | .fail .. => .next (s.haltQueue q)
      | .ok pa ty .. =>
        if ty ≠ 0 then .next (s.haltQueue q)
        else if s.held ⟨.phys pa, 64⟩ then .fault .notEnabled
        else match s.mcOf ⟨.phys pa, 64⟩ with
        | some m => .next ((s.logMc m.1 m.2.1 m.2.2).haltQueue q)
        | none =>
        if s.rdNat pa 4 ≠ q.next then .fault .notEnabled
        else
          let e : Packet := { (default : Packet) with seq := q.next, slot := pa, die := if q.cls = 0 then some q.inst else none }
          match s.engSee e [⟨.phys pa, 64⟩] with
          | .ok _ s0 =>
            let p0 : Packet := { e with words := wordsLE (s0.rdBytes pa 64) }
            let p := s0.enterColl { p0 with needsWg := p0.usesWg }
            (match s0.startPacket q p with
              | .wait => .fault .notEnabled
              | .ok p1 s1 => add s1 p1
              | .stop c s1 => add s1 { p with finished := true, status := c })
          | _ => .fault .notEnabled

/-! ### PACKET_COMPLETE (R264, R265, R274) -/

/-- The target that the packet's completion needs is there: for a stream in which it has claimed a slot, the ring that it claimed
it in (spec/08 R193). -/
def State.targetThere (s : State) (p : Packet) : Bool :=
  let q := s.stream p.tgtWg p.tgtCrew p.tgtReg
  !s.targetGone p &&
  (!p.stream || (((s.wg p.tgtWg).crew p.tgtCrew).held && q.bound &&
    p.claimed.all fun i => q.ring.num == p.bound && q.canCommit.contains i))

/-- The status a packet completes with. -/
def State.finalStatus (s : State) (p : Packet) : Nat :=
  if (p.status = 0 ∨ p.status = 8) ∧ (p.tgten ∨ p.needsWg) ∧ s.targetThere p = false then 3 else p.status

/-- The arrival, or the commit, of a packet whose target is there; LINK makes none (R282). -/
def State.signal (s : State) (p : Packet) : State :=
  let t := p.tgtWg
  if p.tgten = false ∨ p.op = 7 ∨ p.tgtOk = false ∨ s.targetThere p = false ∨ p.status = 3 then s
  else if p.stream then
    match p.claimed with
    | some i => if p.status = 0 then (s.updStream t p.tgtCrew p.tgtReg fun q => q.commit i).endIssues (s.wg t).core else s
    | none => s
  else if p.op = 1 ∧ p.mask ≠ 0 then
    overList p.siblings s fun s c => match (s.wg t).sibAt t c with
      | some u => s.arrive u p.tgtReg 1 p.nominal
      | none => s
  else s.arrive t p.tgtReg 1 p.nominal

/-- A packet's flags and counts go into the summary of TGT's workgroup (R279, R280, spec/17 R418, spec/24 R459). -/
def State.mergeSummary (s : State) (p : Packet) : State :=
  if p.tgten ∧ p.tgtOk ∧ s.targetGone p = false then s.updWg p.tgtWg fun w => w.sumUp p.flags p.satcnt p.nanscore else s

/-- The highest number up to which every packet is complete, and the numbers complete above it (R264). -/
def raiseWm : Nat → Nat → List Nat → Nat × List Nat
  | 0, wm, done => (wm, done)
  | k + 1, wm, done =>
    let n := (wm + 1) % 2 ^ 32
    if done.contains n then raiseWm k n (done.filter (· != n)) else (wm, done)

/-- A COPY into the same stream has finished reading before a packet, and still has something to do first (spec/23 R458). -/
def State.behind (s : State) (p : Packet) (first : Packet → Bool) : Bool :=
  p.order != 0 && p.status == 0 && s.queues.any fun q => q.running.any fun x =>
    x.stream && x.op == 1 && x.status == 0 && decide (0 < x.order) && decide (x.order < p.order) &&
    x.tgtWg == p.tgtWg && x.tgtCrew == p.tgtCrew && x.tgtReg == p.tgtReg && first x

/-- PACKET_COMPLETE: STATUS is written, the first failure recorded, WM raised, the summary merged and the arrival made. -/
def execPacketComplete (hdr seq : Nat) (s : State) : Host.Outcome State Fault Refusal :=
  match s.queue? hdr with
  | none => .fault .notEnabled
  | some q =>
    match q.packet? seq with
    | none => .fault .notEnabled
    | some p =>
      if p.finished = false ∨ s.behind p (fun _ => true) ∨ s.held ⟨.phys hdr, 64⟩ ∨ s.held ⟨.phys p.slot, 64⟩ then .fault .notEnabled
      else
        let st := s.finalStatus p
        let p1 := { p with status := st }
        let s1 := s.physWrite none (p.slot + 7) (bytesOfNat 1 st)
        let s2 := if st = 0 ∨ st = 8 then s1 else s1.recordError hdr seq st
        let r := raiseWm (q.done.length + 1) (qWm (s2.hdrBits hdr)) (q.done ++ [seq])
        let s3 := if r.1 = qWm (s2.hdrBits hdr) then s2 else s2.physWrite none (hdr + 4) (bytesOfNat 4 r.1)
        let s4 := s3.updQueue hdr fun x => { x with running := x.running.filter fun y => y.seq != seq, done := r.2 }
        .next ((s4.mergeSummary p1).signal p1)

/-! ### LINK (R272, R282) -/

/-- LINK: packets after this one lie in the ring it names. -/
def execLink (hdr seq : Nat) (s : State) : Host.Outcome State Fault Refusal :=
  match s.workOf hdr seq 7 with
  | none => .fault .notEnabled
  | some (_, p) =>
    .next ((s.updQueue hdr fun x => { x with ring := (p.dbl 4, p.word 6, (seq + 1) % 2 ^ 32) }).endPacket hdr seq 0)

/-! ### ENGINE_SLOT_CLAIM (R277, spec/24 R458) -/

/-- ENGINE_SLOT_CLAIM: a stream COPY that has read its source claims a slot, once one is free. -/
def execEngineSlotClaim (hdr seq : Nat) (s : State) : Host.Outcome State Fault Refusal :=
  match s.workOf hdr seq 1 with
  | none => .fault .notEnabled
  | some (_, p) =>
    if p.stream = false ∨ p.claimed ≠ none ∨ 64 * p.units < p.word 8 then .fault .notEnabled
    else if s.targetThere p = false then .next (s.endPacket hdr seq 3)
    else
      let q := s.stream p.tgtWg p.tgtCrew p.tgtReg
      if 64 * q.ring.slotsz < p.word 8 then .next (s.endPacket hdr seq 7)
      else if s.behind p (fun x => x.claimed.isNone) then .fault .notEnabled
      else match q.canClaim with
        | [] => .fault .notEnabled
        | i :: _ =>
          .next ((s.updStream p.tgtWg p.tgtCrew p.tgtReg fun x => x.claim i).updPacket hdr seq fun x => { x with
            claimed := some i, bound := q.ring.num, finished := p.word 8 == 0 })

end Sys2Proof.Machine
end

