-- ==== Sys2Proof/Machine/Shake.lean ====
section
/-! DEFINITION. SHAKE256 (FIPS 202), which the spec names for digests and measurements (spec/12 R281, spec/19 R451, R452). The
round constants and rotation amounts come from their defining recurrences. -/

namespace Sys2Proof.Machine

open Sys2Proof

/-- The 25 lanes of the permutation's state; lane (x, y) is at 5y + x. -/
abbrev Lanes := List (BitVec 64)

def Lanes.at2 (a : Lanes) (x y : Nat) : BitVec 64 := a.getD (5 * (y % 5) + x % 5) 0

/-- The lanes of a function of (x, y). -/
def Lanes.of (f : Nat → Nat → BitVec 64) : Lanes := (List.range 25).map fun i => f (i % 5) (i / 5)

/-- theta: every bit is added to the parities of two columns. -/
def keccakTheta (a : Lanes) : Lanes :=
  let c : Lanes := (List.range 5).map fun x => (List.range 5).foldl (fun v y => v ^^^ a.at2 x y) 0
  let d : Lanes := (List.range 5).map fun x => c.getD ((x + 4) % 5) 0 ^^^ (c.getD ((x + 1) % 5) 0).rotateLeft 1
  Lanes.of fun x y => a.at2 x y ^^^ d.getD x 0

/-- rho's offsets: the triangular numbers along the path (x, y) to (y, 2x + 3y) from (1, 0). -/
def keccakOffsets : Nat → Nat → Nat → Nat → List (Nat × Nat)
  | 0, _, _, _ => []
  | k + 1, t, x, y => (5 * y + x, (t + 1) * (t + 2) / 2 % 64) :: keccakOffsets k (t + 1) y ((2 * x + 3 * y) % 5)

/-- rho and pi: every lane is rotated and moves from (x, y) to (y, 2x + 3y). -/
def keccakRhoPi (a : Lanes) : Lanes :=
  let offs := keccakOffsets 24 0 1 0
  let off (i : Nat) : Nat := ((offs.find? fun p => p.1 == i).map (·.2)).getD 0
  Lanes.of fun x y =>
    let sx := (x + 3 * y) % 5
    (a.at2 sx x).rotateLeft (off (5 * x + sx))

/-- chi. -/
def keccakChi (a : Lanes) : Lanes :=
  Lanes.of fun x y => a.at2 x y ^^^ (~~~ (a.at2 (x + 1) y) &&& a.at2 (x + 2) y)

/-- The bit at step t of the shift register x^8 + x^6 + x^5 + x^4 + 1, with the register after it. -/
def keccakBits : Nat → Nat → List Bool
  | 0, _ => []
  | k + 1, r => decide (r % 2 = 1) :: keccakBits k (let d := 2 * r; if d ≥ 256 then xorNat (d - 256) 0x71 else d)

/-- iota's round constants: bit 2^j - 1 of constant i is bit j + 7i of the register. -/
def keccakConst (bs : List Bool) (i : Nat) : BitVec 64 :=
  (List.range 7).foldl (fun v j => if bs.getD (j + 7 * i) false then v ||| BitVec.ofNat 64 (2 ^ (2 ^ j - 1)) else v) 0

/-- Keccak-f[1600]. -/
def keccakF (a : Lanes) : Lanes :=
  let bs := keccakBits 168 1
  (List.range 24).foldl (fun a i =>
    let b := keccakChi (keccakRhoPi (keccakTheta a))
    b.set 0 (b.getD 0 0 ^^^ keccakConst bs i)) a

/-- Absorb a block of 136 bytes. -/
def keccakAbsorb (a : Lanes) (blk : List Byte) : Lanes :=
  keccakF (a.zipIdx.map fun p => if p.2 < 17 then p.1 ^^^ BitVec.ofNat 64 (natOfBytes ((blk.drop (8 * p.2)).take 8)) else p.1)

/-- The padding of SHAKE256 for a message of n bytes. -/
def shakePad (n : Nat) : List Byte :=
  let z := 135 - n % 136
  if z = 0 then [0x9F] else 0x1F :: List.replicate (z - 1) 0 ++ [0x80]

/-- The first n bytes of SHAKE256 of a message; n is at most 136. -/
def shake256 (msg : List Byte) (n : Nat) : List Byte :=
  let m := msg ++ shakePad msg.length
  let a := (chunks 136 (m.length / 136) m).foldl keccakAbsorb (List.replicate 25 0)
  (a.flatMap fun l => bytesOfNat 8 l.toNat).take n

end Sys2Proof.Machine
end

