-- ==== Sys2Proof/Machine/EngineRun.lean ====
section
/-! DEFINITION. The work of packets: COPY, GATHER, QUANT2, COLL, CKPT (spec/12 R277-R281, spec/19 R443, R444) and ASSAY
(spec/17 R413-R418). Each event does one unit of a packet's work. -/

namespace Sys2Proof.Machine

open Sys2Proof

/-- A unit of a packet's work, as a step. -/
def unitStep (hdr seq : Nat) (r : EngRes Packet) : Host.Outcome State Fault Refusal :=
  match r with
  | .ok p s => .next (s.updPacket hdr seq fun _ => p)
  | .wait => .fault .notEnabled
  | .stop c s => .next (s.endPacket hdr seq c)

/-- Work of a running packet of an opcode. -/
def State.packetWork (s : State) (hdr seq op : Nat) (f : Queue → Packet → EngRes Packet) : Host.Outcome State Fault Refusal :=
  match s.workOf hdr seq op with
  | none => .fault .notEnabled
  | some (q, p) => unitStep hdr seq (f q p)

/-! ### COPY (R277) -/

/-- The bytes of a span, one by one. -/
def Span.each (x : Span) : List Span :=
  (List.range x.len).map fun k => match x.loc with
    | .phys a => ⟨.phys (a + k), 1⟩
    | .win t o => ⟨.win t (o + k), 1⟩

/-- The bytes to be written at a distance from a destination: those that are source bytes too are unpredictable. -/
def State.copyBlur (s : State) (p : Packet) (dom dst d : Nat) (bs : List Byte) : List Byte :=
  let src := s.engLocs p dom (p.dbl 4) 0 (p.word 8)
  let to' := (s.engLocs p dom dst d bs.length).flatMap Span.each
  bs.zipIdx.map fun x => match to'[x.2]? with
    | some y => if src.any fun z => z.meets y then (Config.freeWord (s.free + x.2)).setWidth 8 else x.1
    | none => x.1

/-- The packet addresses that a COPY writes. -/
def Packet.copyDests (p : Packet) : List Nat :=
  if p.mask = 0 then [p.dbl 6] else p.siblings.map fun c => 2 ^ 62 + c * 2 ^ 22 + bits (p.dbl 6) 0 22

/-- The location of byte d of a claimed slot. -/
def State.slotLoc (s : State) (p : Packet) (i d n : Nat) : Option Loc :=
  let a := (s.stream p.tgtWg p.tgtCrew p.tgtReg).addr i
  if bitAt a 24 then (s.padAt p.tgtWg (a % 2 ^ 24) (d + n)).map fun x => .win x.1 (x.2 + d)
  else if a % 2 ^ 24 + d + n ≤ (s.wg p.tgtWg).spad then some (.win p.tgtWg (a % 2 ^ 24 + d)) else none

/-- One chunk of 64 bytes: first all of the source is read, then all of it is written. -/
def State.copyUnit (s : State) (q : Queue) (p : Packet) : EngRes Packet :=
  let n := p.word 8
  let total := (n + 63) / 64
  if p.units < total then
    let d := 64 * p.units
    (s.engRead p q.domain (p.dbl 4) d (min 64 (n - d))).andThen fun b s =>
      .ok { (if p.units + 1 = total then s.readDone p else p) with
        captured := Memory.write p.captured d b, units := p.units + 1 } s
  else
    let d := 64 * (p.units - total)
    let len := min 64 (n - d)
    let bs := (List.range len).map fun k => p.captured.get (d + k)
    let p1 := { p with units := p.units + 1, finished := decide (p.units + 1 ≥ 2 * total) }
    if p.stream then
      match p.claimed with
      | none => .wait
      | some i =>
        if s.targetThere p = false then .stop 3 s
        else match s.slotLoc p i d len with
          | some l => (s.engSee p [⟨l, len⟩]).andThen fun _ s => (s.engPad l len).andThen fun _ s => .ok p1 (s.wrLoc none l bs)
          | none => .stop 2 s
    else
      let ws := p.copyDests.map fun a => (a, d, s.copyBlur p q.domain a d bs)
      (({ s with free := s.free + 64 } : State).engWrites p q.domain ws).andThen fun _ s => .ok p1 s

/-- COPY_PACKET. -/
def execCopyPacket (hdr seq : Nat) (s : State) : Host.Outcome State Fault Refusal := s.packetWork hdr seq 1 s.copyUnit

/-! ### GATHER (R278) -/

/-- Rows of a table in scratchpad lie in the window, before any byte is written. -/
def State.gatherCheck (q : Queue) (p : Packet) (rb : Nat) : List Nat → State → EngRes Unit
  | [], s => .ok () s
  | i :: rest, s => (s.engRead p q.domain (p.dbl 6) (4 * i) 4).andThen fun b s =>
      let x := natOfBytes b
      if x < p.word 9 ∧ s.padOutside p (p.dbl 4) (x * rb + rb) then .stop 2 s else s.gatherCheck q p rb rest

/-- One row. -/
def State.gatherUnit (s : State) (q : Queue) (p : Packet) : EngRes Packet :=
  let rb := bits (p.word 3) 0 24
  let i := p.units
  let check := if i = 0 ∧ addrKind (p.dbl 4) = 1 then s.gatherCheck q p rb (List.range (p.word 8)) else .ok () s
  check.andThen fun _ s =>
  (s.engRead p q.domain (p.dbl 6) (4 * i) 4).andThen fun b s =>
    let x := natOfBytes b
    let clip := decide (x ≥ p.word 9)
    let row : EngRes (List Byte) := if clip then .ok (List.replicate rb 0) s else s.engRead p q.domain (p.dbl 4) (x * rb) rb
    row.andThen fun r s => (s.engWrite p q.domain (p.dbl 10) (i * rb) r).andThen fun _ s =>
      .ok { p with units := i + 1, finished := decide (i + 1 ≥ p.word 8), status := if clip then 8 else p.status } s

/-- GATHER. -/
def execGather (hdr seq : Nat) (s : State) : Host.Outcome State Fault Refusal := s.packetWork hdr seq 2 s.gatherUnit

/-! ### QUANT2 (R279) -/

/-- A quantised line: the scale's bits, the bytes, the flags, the saturated conversions. -/
structure QuantLine where
  scale : Nat
  qs : List Nat
  flags : FFlags
  sat : Nat
  deriving DecidableEq, Repr, Inhabited

/-- The magnitude of a value. -/
def FVal.abs : FVal → FVal
  | .fin _ m e => .fin false m e
  | .inf _ => .inf false
  | v => v

/-- The largest magnitude that is not a NaN, or +0. -/
def amaxOf (vs : List FVal) : FVal :=
  vs.foldl (fun a v => if v.isNan then a else if v.abs.cmp a > 0 then v.abs else a) (.fin false 0 0)

/-- Quantise a line. -/
def quantLine (mode : Rounding) (sat : Bool) (vs : List FVal) : QuantLine :=
  let s : FRes := match amaxOf vs with
    | .fin _ m e =>
      if m = 0 then ⟨0x3F800000, 0, 0⟩
      else
        let t := quotient 24 m e 7 6
        fp32.round .rup false t.1 t.2
    | _ => ⟨0x3F800000, 0, 0⟩
  let one (v : FVal) : FRes := match v, fp32.decode s.bits with
    | .fin n m e, .fin _ ms es =>
      let t := quotient 8 m e ms es
      toE4m3 mode sat (.fin n t.1 t.2)
    | v, _ => toE4m3 mode sat v
  let rs := vs.map one
  ⟨s.bits, rs.map (·.bits), rs.foldl (fun f r => f ||| r.flags) s.flags, rs.foldl (fun n r => n + r.sat) 0⟩

/-- The rows of the source tile. -/
def State.quantRows (q : Queue) (p : Packet) (pitch es : Nat) : List Nat → List (List Byte) → State → EngRes (List (List Byte))
  | [], acc, s => .ok acc s
  | i :: rest, acc, s => (s.engRead p q.domain (p.dbl 4) (i * pitch) (128 * es)).andThen fun b s =>
      s.quantRows q p pitch es rest (acc ++ [b])

/-- Columns of a square of n rows. -/
def columnsOf {α : Type} [Inhabited α] (n : Nat) (rows : List (List α)) : List (List α) :=
  (List.range n).map fun j => rows.map fun r => r.getD j default

def State.quant2Unit (s : State) (q : Queue) (p : Packet) : EngRes Packet :=
  let w := p.word 3
  let es := quant2Size w
  let f := match bits w 0 2 with | 0 => fp32 | 1 => bf16 | _ => fp16
  (s.quantRows q p (bits w 8 24) es (List.range 128) []).andThen fun rows s =>
    let vals : List (List FVal) := rows.map fun r => (chunks es 128 r).map fun b => f.decode (natOfBytes b)
    let line := quantLine (roundOf (BitVec.ofNat 2 (bits w 2 2))) (bitAt w 4)
    let qr := vals.map line
    let qc := (columnsOf 128 vals).map line
    let tile (l : List (List Nat)) : List Byte := l.flatMap fun r => r.map (BitVec.ofNat 8)
    let scales (l : List QuantLine) : List Byte := l.flatMap fun x => bytesOfNat 4 x.scale
    let fl := (qr ++ qc).foldl (fun a x => a ||| x.flags) 0
    let n := (qr ++ qc).foldl (fun a x => a + x.sat) 0
    let p1 := { p with finished := true, flags := fl, satcnt := n }
    ((s.updPacket q.hdr p.seq fun x => { x with flags := fl, satcnt := n }).engWrites p q.domain [(p.dbl 6, 0, tile (qr.map (·.qs))), (p.dbl 8, 0, scales qr),
      (p.dbl 10, 0, tile (columnsOf 128 (qc.map (·.qs)))), (p.dbl 12, 0, scales qc)]).andThen fun _ s => .ok p1 s

/-- QUANT2. -/
def execQuant2 (hdr seq : Nat) (s : State) : Host.Outcome State Fault Refusal := s.packetWork hdr seq 3 s.quant2Unit

/-! ### COLL (R280, spec/19 R443, R444) -/

def ringSubst (e : BitVec 128) : Nat := bits e.toNat 32 6
def ringBackup (e : BitVec 128) : Nat := bits e.toNat 64 56

/-- The contribution of a position, or none where its module has stopped answering. `outer` holds what reaches this module from the others. -/
def State.contribution (s : State) (q : Queue) (p : Packet) (outer : List (Nat × List Byte)) (i n : Nat) : EngRes (Option (List Byte)) :=
  let e := p.ring.getD i 0
  let own := s.regs.ringpos.toNat
  let far : Option (List Byte) := (outer.find? fun x => x.1 == i && x.2.length == n).map (·.2)
  let near (d : Nat) : EngRes (Option (List Byte)) := (s.engRead p q.domain (p.dbl 4) d n).andThen fun b s => .ok (some b) s
  match ringState e with
  | 0 => if i = own then near 0 else .ok far s
  | 2 => if ringSubst e = own then near n else .ok far s
  | _ =>
    let l := Loc.phys (ringBackup e)
    (s.engSee p [⟨l, n⟩]).andThen fun _ s => (s.engPad l n).andThen fun _ s => .ok (some (s.homeLoad (ringBackup e) n)) s

def State.contributions (q : Queue) (p : Packet) (outer : List (Nat × List Byte)) (n : Nat) :
    List Nat → List (Option (List Byte)) → State → EngRes (List (Option (List Byte)))
  | [], acc, s => .ok acc s
  | i :: rest, acc, s => (s.contribution q p outer i n).andThen fun b s => s.contributions q p outer n rest (acc ++ [b])

/-- The sum of one element's contributions, in ascending position, with the flags of its roundings; a signalling NaN among the
contributions is quiet in the sum and sets IV (spec/05 R102). -/
def collSum (dt : Nat) (xs : List Nat) : Nat × FFlags :=
  let sum (f src : FFmt) : Nat × FFlags :=
    match xs with
    | [] => (0, 0)
    | a :: t =>
      let wide (x : Nat) : FRes := f.ofVal .rne (src.decode x)
      t.foldl (fun acc x =>
        let v := wide x
        let r := f.add .rne (f.decode acc.1) (f.decode v.bits)
        (r.bits, acc.2 ||| v.flags ||| r.flags)) ((wide a).bits, (wide a).flags)
  let half (f : FFmt) : Nat × FFlags :=
    let r := sum fp32 f
    let z := f.ofVal .rne (fp32.decode r.1)
    (z.bits, r.2 ||| z.flags)
  match dt with
  | 0 => sum fp32 fp32
  | 1 => sum fp64 fp64
  | 2 => half fp16
  | 3 => half bf16
  | _ => (xs.foldl (· + ·) 0 % 2 ^ 32, 0)

/-- Elementwise sums of contributions of n elements. -/
def collReduce (dt es n : Nat) (cs : List (List Byte)) : List Byte × FFlags :=
  let rows := cs.map fun c => (chunks es n c).map natOfBytes
  let r := (columnsOf n rows).map (collSum dt)
  (r.flatMap fun x => bytesOfNat es x.1, r.foldl (fun f x => f ||| x.2) 0)

/-- The link over which a contribution failed to come: that of the member, or of its SUBST (R444). -/
def collLost (p : Packet) (who : List Nat) (cs : List (Option (List Byte))) : Option (BitVec 128) :=
  (who.zip cs).findSome? fun x =>
    let e := p.ring.getD x.1 0
    if x.2.isNone then some (if ringState e = 2 then p.ring.getD (ringSubst e) 0 else e) else none

/-- COLL's work: a member that stops answering ends it with RING and is logged as the link's failure (R274, R280, spec/19 R444, R445). -/
def State.collUnit (s : State) (outer : List (Nat × List Byte)) (q : Queue) (p : Packet) : EngRes Packet :=
  let w := p.word 3
  let es := collSize w
  let n := p.word 8
  let own := s.regs.ringpos.toNat
  let nb := p.collBytes own
  let bad : Packet := { p with finished := true, status := 6, bytes := nb }
  let root := bits w 7 6
  let who := if bits w 0 4 = 3 then p.contributors.filter (· == root) else p.contributors
  if p.actives.contains own = false then .ok bad s
  else (s.contributions q p outer (n * es) who []).andThen fun cs s =>
    if cs.contains none ∨ cs.isEmpty then
      let junk := (List.range nb).map fun k => (Config.freeWord (s.free + k)).setWidth 8
      let s1 := match collLost p who cs with
        | some e => s.logMc 0xB3 (linkUnit e) 0
        | none => s
      (({ s1 with free := s1.free + nb } : State).engWrite p q.domain (p.dbl 6) 0 junk).andThen fun _ s => .ok bad s
    else
      let data := cs.filterMap id
      let r : List Byte × FFlags := match bits w 0 4 with
        | 0 => collReduce (bits w 4 3) es n data
        | 2 =>
          let sl := scatterSlice n p.actives.length ((p.actives.takeWhile (· != own)).length)
          collReduce (bits w 4 3) es sl.2 (data.map fun c => (c.drop (es * sl.1)).take (es * sl.2))
        | _ => (data.flatMap id, 0)
      ((s.updPacket q.hdr p.seq fun x => { x with flags := r.2 }).engWrite p q.domain (p.dbl 6) 0 r.1).andThen fun _ s =>
        .ok { p with finished := true, bytes := nb, flags := r.2 } s

/-- COLL. -/
def execColl (hdr seq : Nat) (contrib : List (Nat × List Byte)) (s : State) : Host.Outcome State Fault Refusal :=
  s.packetWork hdr seq 4 (s.collUnit contrib)

/-! ### CKPT (R281) -/

/-- The bytes of a packet's blocks that lie in device DRAM, cut at rows: the number of the row in the module, and the bytes. -/
def State.ckptParts (s : State) (dom : Nat) (p : Packet) : List (Nat × Span) :=
  p.blocks.flatMap fun b => (granules b.2.2.1 b.2.2.2).flatMap fun g => match s.walkMem dom false g.1 with
    | .ok pa .. => if aperture pa = some 0 then (List.range ((pa + g.2 - 1) / 1024 - pa / 1024 + 1)).map fun k =>
        let r := pa / 1024 + k
        let lo := max pa (1024 * r)
        (r, ⟨.phys lo, min (pa + g.2) (1024 * r + 1024) - lo⟩) else []
    | .fail .. => []

/-- Rows of device DRAM, by row number of the module, in which a packet's blocks lie. -/
def State.ckptRows (s : State) (dom : Nat) (p : Packet) : List Nat := dedup ((s.ckptParts dom p).map (·.1))

/-- A Scrivener's pass over a packet's records meets a row that the sweep has restored in every bank: it keeps what it needs of it, or
the packet ends where its bytes meet an uncorrectable error (R274). -/
def State.capturePacket (s : State) (g row : Nat) (q : Queue) (p : Packet) : State :=
  let ps := (s.ckptParts q.domain p).filter fun x => x.1 / 2 ^ 20 == g && x.1 % 65536 == row && !p.seen.contains x.1
  match ps.findSome? fun x => s.mcOf x.2 with
  | some m => (s.logMc m.1 m.2.1 m.2.2).endPacket q.hdr p.seq 1
  | none =>
    let rs := dedup (ps.map (·.1))
    s.updPacket q.hdr p.seq fun p => { p with
      seen := p.seen ++ rs
      captured := overList rs p.captured fun m r => Memory.write m (1024 * r) (s.rdBytes (1024 * r) 1024) }

/-- The sweep has restored a row of a pseudo-channel in every bank: the Scriveners' passes take it. The rows hold what a Scrivener
sees as performed (R263, R264). -/
def State.captureRow (s : State) (g row : Nat) : State :=
  overList (s.queues.flatMap fun q => (q.running.filter fun p => p.op == 5 && !p.finished).map fun p => (q, p)) s
    fun s x => s.capturePacket g row x.1 x.2

/-- The bytes of a block, zeros beyond the record. -/
def State.ckptBlock (p : Packet) (dom : Nat) : List (Nat × Nat) → List Byte → State → EngRes (List Byte)
  | [], acc, s => .ok (acc ++ List.replicate (65536 - acc.length) 0) s
  | g :: rest, acc, s =>
    match s.walkMem dom false g.1 with
    | .fail .. => .stop 1 s
    | .ok pa .. =>
      if aperture pa = some 0 then
        s.ckptBlock p dom rest (acc ++ (List.range g.2).map fun k => p.captured.get (pa + k))
      else (s.engAt dom false g.1 g.2).andThen fun pa s => (s.engSee p [⟨.phys pa, g.2⟩]).andThen fun _ s =>
        s.ckptBlock p dom rest (acc ++ s.homeLoad pa g.2)

/-- The blocks in order: record, block, bytes, digest, and whether it is changed. -/
def State.ckptHash (q : Queue) (p : Packet) : List ((Nat × Nat × Nat × Nat) × Nat) → List (Nat × Nat × List Byte × List Byte × Bool) → State →
    EngRes (List (Nat × Nat × List Byte × List Byte × Bool))
  | [], acc, s => .ok acc s
  | (b, j) :: rest, acc, s =>
    (s.ckptBlock p q.domain (granules b.2.2.1 b.2.2.2) []).andThen fun bytes s =>
      let dig := shake256 bytes 16
      let old : EngRes (List Byte) := if p.dbl 6 = 0 then .ok [] s else s.engRead p q.domain (p.dbl 6) (16 * j) 16
      old.andThen fun o s => s.ckptHash q p rest (acc ++ [(b.1, b.2.1, bytes, dig, o != dig)])

/-- The manifest (R281). -/
def manifest (snap total : Nat) (ch : List (Nat × Nat)) : List Byte :=
  bytesOfNat 4 snap ++ bytesOfNat 4 ch.length ++ bytesOfNat 8 total ++
  ch.zipIdx.flatMap fun x => bytesOfNat 4 x.1.1 ++ bytesOfNat 4 x.1.2 ++ bytesOfNat 8 (65536 * x.2)

def State.ckptUnit (s : State) (q : Queue) (p : Packet) : EngRes Packet :=
  if (s.ckptRows q.domain p).any fun r => !p.seen.contains r then .wait
  else (s.ckptHash q p p.blocks.zipIdx []).andThen fun bs s =>
    let ch := bs.filter fun b => b.2.2.2.2
    let m := manifest (p.word 14) bs.length (ch.map fun b => (b.1, b.2.1))
    if s.padOutside p (p.dbl 8) (16 * bs.length) ∨ s.padOutside p (p.dbl 12) (65536 * ch.length) ∨
        s.padOutside p (p.dbl 10) m.length then .stop 2 s
    else
      (s.engWrites p q.domain ([(p.dbl 8, 0, bs.flatMap fun b => b.2.2.2.1)] ++
        (ch.zipIdx.map fun x => (p.dbl 12, 65536 * x.2, x.1.2.2.1)) ++ [(p.dbl 10, 0, m)])).andThen fun _ s =>
          .ok { p with finished := true, captured := [] } s

/-- CKPT: every block has been restored by the sweep, and the digests, the changed blocks and the manifest are written. -/
def execCkpt (hdr seq : Nat) (s : State) : Host.Outcome State Fault Refusal := s.packetWork hdr seq 5 s.ckptUnit

/-! ### ASSAY (spec/17 R413-R418) -/

/-- What a round commits (R415). -/
structure Round where
  masked : List Nat
  nan : List Nat
  commit : List Nat
  deriving DecidableEq, Repr, Inhabited

/-- Position a comes before b: higher confidence first, then the lower position. -/
def assayBefore (conf : Nat → FVal) (a b : Nat) : Bool :=
  let k := (conf a).cmp (conf b)
  decide (k > 0) || (decide (k = 0) && decide (a < b))

def insertBy (before : Nat → Nat → Bool) (a : Nat) : List Nat → List Nat
  | [] => [a]
  | b :: t => if before a b then a :: b :: t else b :: insertBy before a t

def assayRound (npos share mn mx : Nat) (mask : Nat → Bool) (conf : Nat → FVal) : Round :=
  let m := (List.range npos).filter mask
  let nan := m.filter fun p => (conf p).isNan
  let order := (m.filter fun p => !(conf p).isNan).foldr (insertBy (assayBefore conf)) []
  let k := (share * m.length + 65535) / 65536
  let k1 := min (min (max k mn) mx) (m.length - nan.length)
  ⟨m, nan, order.take k1⟩

/-- Columns that a committed column marks in a layer (R416). -/
def assayCols (policy wreach lfrom npt : Nat) (every : Bool) (layer c : Nat) : List Nat :=
  match policy with
  | 1 => if layer < lfrom then [c] else (List.range npt).filter fun x => decide (c ≤ x + wreach) && decide (x ≤ c + wreach)
  | 2 => if every then List.range npt else [c]
  | _ => [c]

/-- The tiles marked in DIRTY. -/
def Packet.dirtyTiles (p : Packet) (r : Round) : List Nat :=
  let w7 := p.word 7
  let tpos := bits (p.word 8) 0 16
  let npt := (bits (p.word 3) 0 21 + tpos - 1) / tpos
  let every := bits w7 0 2 == 2 && p.word 9 % bits (p.word 8) 16 16 == 0
  let cols := dedup (r.commit.map (· / tpos))
  (List.range (bits w7 24 8)).flatMap fun l =>
    let cs : List Nat := if every then List.range npt else
      (List.range npt).filter fun x => cols.any fun c => (assayCols (bits w7 0 2) (bits w7 8 8) (bits w7 16 8) npt every l c).contains x
    cs.map fun x => l * npt + x

/-- Bytes of a bit array. -/
def bitBytes (n : Nat) (set : List Nat) : List Byte :=
  (List.range ((n + 7) / 8)).map fun k => (List.range 8).foldl (fun b j =>
    if decide (8 * k + j < n) && set.contains (8 * k + j) then b ||| BitVec.ofNat 8 (2 ^ j) else b) 0

/-- The compare-and-swap of one map entry (R417): it writes its location whether it succeeds or not (spec/09 R461). -/
def State.assaySwap (p : Packet) (dom map : Nat) : List Nat → Nat → State → EngRes Nat
  | [], n, s => .ok n s
  | t :: rest, n, s => (s.engRead p dom map (8 * t) 8).andThen fun b s =>
      let e := natOfBytes b
      let ok := bits e 0 3 == 2 && bits e 4 12 == 0
      (s.engWrite p dom map (8 * t) (bytesOfNat 8 (if ok then e + 3 else e))).andThen fun _ s =>
        s.assaySwap p dom map rest (if ok then n + 1 else n)

/-- An array of an ASSAY: its entry in the address table, the address, the bytes, and whether it is written. -/
structure AssayArray where
  k : Nat
  addr : Nat
  len : Nat
  out : Bool
  deriving DecidableEq, Repr, Inhabited

/-- The bytes of written arrays that lie in another array as well; NEWMASK may equal MASK (R414). -/
def State.assayOverlap (s : State) (p : Packet) (dom : Nat) (as : List AssayArray) : List Span :=
  as.flatMap fun x =>
    let xs := if x.out then s.engLocs p dom x.addr 0 x.len true else []
    let ys := (as.filter fun y => y.k != x.k && !(x.k == 4 && y.k == 3 && x.addr == y.addr)).flatMap fun y => s.engLocs p dom y.addr 0 y.len
    if spansMeet xs ys then (xs.flatMap Span.each).filter fun b => ys.any b.meets else []

/-- The overlapped bytes of an ASSAY hold unpredictable values (R414). -/
def State.assayBlur (s : State) (p : Packet) (dom : Nat) (as : List AssayArray) : State :=
  let xs := s.assayOverlap p dom as
  let s1 := overList xs.zipIdx s fun s1 x =>
    let b : List Byte := [(Config.freeWord (s.free + x.2)).setWidth 8]
    match x.1.loc with
    | .phys a => if aperture a = some 2 then s1 else s1.engPut a b
    | .win .. => s1.wrLoc none x.1.loc b
  { s1 with free := s1.free + xs.length }

def State.assayUnit (s : State) (q : Queue) (p : Packet) : EngRes Packet :=
  let dom := q.domain
  let npos := bits (p.word 3) 0 21
  let w7 := p.word 7
  let mark := bitAt w7 2
  let tpos := bits (p.word 8) 0 16
  let tiles := bits w7 24 8 * ((npos + tpos - 1) / tpos)
  (s.engRead p dom (p.dbl 10) 0 64).andThen fun tb s =>
    let a (k : Nat) : Nat := natOfBytes ((tb.drop (8 * k)).take 8)
    let nb := (npos + 7) / 8
    let uses : List AssayArray := [⟨0, a 0, 4 * npos, false⟩, ⟨1, a 1, 4 * npos, false⟩, ⟨2, a 2, 4 * npos, true⟩, ⟨3, a 3, nb, false⟩,
      ⟨4, a 4, nb, true⟩, ⟨5, a 5, (tiles + 7) / 8, true⟩, ⟨7, a 7, 16, true⟩] ++ (if mark then [⟨6, a 6, 8 * tiles, true⟩] else [])
    let forms := uses.map fun x => addrForm x.addr
    if forms.contains 5 then .stop 5 s
    else if forms.contains 2 then .stop 2 s
    else if (uses.any fun x => addrKind x.addr == 1) ∧ s.targetGone p then .stop 3 s
    else if uses.any fun x => s.padOutside p x.addr x.len then .stop 2 s
    else
    (s.engRead p dom (a 0) 0 (4 * npos)).andThen fun conf s =>
    (s.engRead p dom (a 1) 0 (4 * npos)).andThen fun cand s =>
    (s.engRead p dom (a 3) 0 nb).andThen fun mb s =>
      let mask (k : Nat) : Bool := (mb.getD (k / 8) 0).getLsbD (k % 8)
      let cv (k : Nat) : FVal := fp32.decode (natOfBytes ((conf.drop (4 * k)).take 4))
      let r := assayRound npos (bits (p.word 4) 0 16) (p.word 5) (p.word 6) mask cv
      let dirty := p.dirtyTiles r
      let newmask := bitBytes npos (r.masked.filter fun k => !r.commit.contains k)
      let toks := (sortNat r.commit).map fun k => (a 2, 4 * k, (cand.drop (4 * k)).take 4)
      let fl : FFlags := if r.nan = [] then 0 else flIV
      ((s.updPacket q.hdr p.seq fun x => { x with flags := fl, nanscore := r.nan.length }).engWrites p dom (toks ++ [(a 4, 0, newmask), (a 5, 0, bitBytes tiles dirty)])).andThen fun _ s =>
      ((s.assayBlur p dom uses).assaySwap p dom (a 6) (if mark then dirty else []) 0).andThen fun cas s =>
      let res := bytesOfNat 4 r.commit.length ++ bytesOfNat 4 r.masked.length ++ bytesOfNat 4 r.nan.length ++ bytesOfNat 4 cas
      (s.engWrite p dom (a 7) 0 res).andThen fun _ s =>
        .ok { p with finished := true, needsWg := p.needsWg || uses.any (fun x => addrKind x.addr == 1), flags := fl, nanscore := r.nan.length }
          (s.assayBlur p dom uses)

/-- ASSAY. -/
def execAssay (hdr seq : Nat) (s : State) : Host.Outcome State Fault Refusal := s.packetWork hdr seq 6 s.assayUnit

end Sys2Proof.Machine
end

