-- ==== Sys2Proof/Machine/Convert.lean ====
section
/-! DEFINITION. Conversions, SPLIT3, QNT, DQNT and SMXMERGE (spec/06 R130-R136), and the format word (spec/05 R106-R108). -/

namespace Sys2Proof.Machine

open Sys2Proof

/-! ### CVT, CVTI, CVTF (R130, R131) -/

/-- The elements of operand 0, converted and packed. -/
def convOut (n sw tw : Nat) (g : Nat → FRes) (x : LaneIn) : LaneOut :=
  packRes tw ((List.range n).map fun k => g (elemAt sw (x.val 0) k))

def execCvt (ty : FType) (nw : Bool) (rc : RoundCtl) (d a : Sel) (t : CvtTarget) (sat : Bool) (s : State) :
    Host.Outcome State Fault Refusal :=
  laneIssue (.cvt ty nw rc d a t sat) (aluBody [.flt ty a] (dst nw d (bspan (ty.count * t.bits))) fun x =>
    convOut ty.count ty.bits t.bits (fun v => convert (cvtFmt t) (ctlMode rc x.rnd) sat ((ftFmt ty).decode v)) x) s

def execCvti (ty : FType) (nw : Bool) (rc : RoundCtl) (d a : Sel) (t : IType) (s : State) :
    Host.Outcome State Fault Refusal :=
  laneIssue (.cvti ty nw rc d a t) (aluBody [.flt ty a] (dst nw d (bspan (ty.count * t.bits))) fun x =>
    convOut ty.count ty.bits t.bits (fun v => toIntType t (ctlMode rc x.rnd) ((ftFmt ty).decode v)) x) s

def execCvtf (ty : FType) (nw : Bool) (rc : RoundCtl) (d a : Sel) (t : IType) (s : State) :
    Host.Outcome State Fault Refusal :=
  laneIssue (.cvtf ty nw rc d a t) (aluBody [.int t a] (dst nw d (bspan (t.count * ty.bits))) fun x =>
    convOut t.count t.bits ty.bits (fun v => ofIntType (ftFmt ty) (ctlMode rc x.rnd) (itVal t v)) x) s

/-! ### SPLIT3 (R132) -/

def split3Out (x : LaneIn) : LaneOut :=
  let r := split3 (x.val 0 % 2 ^ 32)
  { res := BitVec.ofNat 64 (r.1 + r.2.1 * 2 ^ 16 + r.2.2.1 * 2 ^ 32), flags := r.2.2.2 }

def execSplit3 (nw : Bool) (d a : Sel) (s : State) : Host.Outcome State Fault Refusal :=
  laneIssue (.split3 nw d a) (aluBody [.flt .f32 a] (dst nw d 2) split3Out) s

/-! ### The format word (spec/05 R106-R108) -/

def fmtA (x : Nat) : Nat := bits x 0 4
def fmtB (x : Nat) : Nat := bits x 4 4
def fmtAcc (x : Nat) : Nat := bits x 8 4
def fmtRound (x : Nat) : Rounding := roundOf (BitVec.ofNat 2 (bits x 12 2))
def fmtScale (x : Nat) : Nat := bits x 14 2
def fmtSat (x : Nat) : Bool := bitAt x 16

/-- The checks of R108 that every format word must pass. -/
def fmtOk (x : Nat) : Bool :=
  decide (fmtA x ≤ 9) && decide (fmtB x ≤ 9) && (fmtAcc x == 0 || fmtAcc x == 1 || fmtAcc x == 5) &&
  decide (fmtScale x ≤ 1) && decide (bits x 17 15 = 0)

/-- The words QNT accepts (R133). -/
def qntFmt (x : Nat) : Bool :=
  fmtOk x && fmtA x == 0 && (fmtB x == 4 || (fmtB x == 7 && fmtSat x)) && fmtAcc x == 0 && fmtScale x == 0

/-- The words DQNT accepts (R134). -/
def dqntFmt (x : Nat) : Bool :=
  fmtOk x && (fmtA x == 4 || fmtA x == 7 || fmtA x == 8) && (fmtB x == 0 || fmtB x == 2 || fmtB x == 3) &&
  fmtAcc x == 0 && fmtScale x == 0

/-- Write n-word results and summary of the lanes; the low 64 bits are the latch (R119). -/
def wideResult (e : Env) (nw : Bool) (d : Sel) (rs : List (Nat × List Nat × FFlags × Nat × Nat)) : Res :=
  let words (r : List Nat) : List Word := r.map (BitVec.ofNat 32)
  let s1 := e.s.updWg e.t fun w =>
    let w1 := overList rs w fun w r => w.sumUp r.2.2.1 r.2.2.2.1 r.2.2.2.2
    if nw then w1 else w1.writeSel e.s.free d (rs.map fun r => (r.1, words r.2.1))
  .ok s1 (rs.map fun r => (r.1, BitVec.ofNat 64 (packElems 32 (r.2.1.take 2))))

/-! ### QNT (R133) -/

/-- One quantised byte. -/
def qntByte (fmt : Nat) (x sc : Nat) : FRes :=
  let p := scaledVal (fp32.decode x) (fp32.decode sc)
  let r := if fmtB fmt = 4 then toE4m3 (fmtRound fmt) (fmtSat fmt) p.1 else quantInt8 (fmtRound fmt) p.1
  { r with flags := r.flags ||| p.2 }

/-- The four sources of QNT. -/
def quadSrc (a : Sel) : List Opd :=
  match a with
  | .v n => (List.range 4).map fun k => .int .u32 (.v (n + k))
  | r => [.int .u32 r]

def qntBody (nw : Bool) (d a b c : Sel) (e : Env) : Res :=
  let vs := e.ls.map fun l => (l, e.opds l (quadSrc a ++ [.flt .f32 b, .int .u32 c]) 0 0)
  let val (v : List Dword) (k : Nat) : Nat := (v.getD k 0).toNat
  match vs.filter fun p => !qntFmt (val p.2 5) with
  | p :: ps => e.trap 0x50 ((p :: ps).map (·.1))
  | [] =>
    wideResult e nw d (vs.map fun p =>
      let r := packRes 8 ((List.range 4).map fun k => qntByte (val p.2 5) (val p.2 k) (val p.2 4))
      (p.1, [r.res.toNat], r.flags, r.sat, 0))

def execQnt (nw : Bool) (d a b c : Sel) (s : State) : Host.Outcome State Fault Refusal :=
  laneIssue (.qnt nw d a b c) (qntBody nw d a b c) s

/-! ### DQNT (R134) -/

/-- The exact value of a byte of a format. -/
def byteVal (fmt x : Nat) : FVal :=
  match fmt with
  | 4 => e4m3.decode x
  | 7 => .fin (decide (signedOf 8 x < 0)) (signedOf 8 x).natAbs 0
  | _ => .fin false (x % 256) 0

/-- The target of DQNT. -/
def dqntTarget (fmt : Nat) : FFmt := match fmtB fmt with | 0 => fp32 | 2 => fp16 | _ => bf16

def dqntElem (fmt x sc : Nat) : FRes :=
  let p := scaledVal (byteVal (fmtA fmt) x) (fp32.decode sc)
  let r := (dqntTarget fmt).ofVal (fmtRound fmt) p.1
  { r with flags := r.flags ||| p.2 }

/-- Register words of a DQNT result. -/
def dqntWords (fmt : Nat) (rs : List FRes) : List Nat :=
  if fmtB fmt = 0 then rs.map (·.bits)
  else (chunks 2 2 rs).map fun c => packElems 16 (c.map (·.bits))

/-- XD of an FP32 result: a main register v4k (R134), and its four registers below VREGS (R74). -/
def dqntDest (vregs : Nat) (d : Sel) : Option Nat :=
  match d with
  | .v n => if n % 4 ≠ 0 then some 0x03 else if n + 4 > vregs then some 0xA5 else none
  | _ => some 0x03

/-- DQNT. BFMT is per lane, so an XD that does not fit is found at issue, after FORMAT_INVALID, and the faulters are the lanes whose
BFMT it does not fit (DESIGN CHOICE, log 69). -/
def dqntBody (nw : Bool) (d a b c : Sel) (e : Env) : Res :=
  let vs := e.ls.map fun l => (l, e.opds l [.int .u32 a, .flt .f32 b, .int .u32 c] 0 0)
  let val (v : List Dword) (k : Nat) : Nat := (v.getD k 0).toNat
  match vs.filter fun p => !dqntFmt (val p.2 2) with
  | p :: ps => e.trap 0x50 ((p :: ps).map (·.1))
  | [] =>
    let wide := vs.filter fun p => fmtB (val p.2 2) == 0
    match dqntDest e.w.vregs d, wide with
    | some cause, p :: ps => e.trap cause ((p :: ps).map (·.1))
    | _, _ =>
      wideResult e nw d (vs.map fun p =>
        let rs := (List.range 4).map fun k => dqntElem (val p.2 2) (bits (val p.2 0) (8 * k) 8) (val p.2 1)
        (p.1, dqntWords (val p.2 2) rs, (packRes 32 rs).flags, 0, 0))

def execDqnt (nw : Bool) (d a b c : Sel) (s : State) : Host.Outcome State Fault Refusal :=
  laneIssue (.dqnt nw d a b c) (dqntBody nw d a b c) s

/-! ### SMXMERGE (R135, R136) -/

def smxBody (nw : Bool) (n : Nat) (d a b : Sel) (e : Env) : Res :=
  let st (l : Nat) (r : Sel) (i : Nat) : List Nat := (e.regs l r (n + 2) 0 i).map BitVec.toNat
  wideResult e nw d (e.ls.map fun l =>
    let r := smxMerge (st l a 0) (st l b 32)
    (l, r.1, r.2.1, 0, r.2.2))

def execSmxmerge (nw : Bool) (n : Nat) (d a b : Sel) (s : State) : Host.Outcome State Fault Refusal :=
  laneIssue (.smxmerge nw n d a b) (smxBody nw n d a b) s

end Sys2Proof.Machine
end

