-- ==== Sys2Proof/Machine/Bank.lean ====
section
/-! DEFINITION. A pseudo-channel's control window, the row ALU, all-bank mode and the sweep (spec/13): the operations that LD
and ST through a bank-direct record, the sweep instructions, bank jobs and the events of the banks share. -/

namespace Sys2Proof.Machine

open Sys2Proof

/-! ### Passes (R307-R309) -/

/-- The fields of a pass. -/
structure PassSpec where
  key : Nat
  cmask : Nat
  pat : Nat
  wmask : Nat
  tcond : Nat
  top : Nat
  wr : Bool
  deriving DecidableEq, Repr, Inhabited

/-- The pass in a slot of the pass store, or nothing where the slot is invalid (R308). -/
def passOfSlot (x : Nat) : Option PassSpec :=
  if bits x 256 2 = 3 ∨ bits x 261 251 ≠ 0 then none
  else some { key := bits x 0 64, cmask := bits x 64 64, pat := bits x 128 64, wmask := bits x 192 64
              tcond := bits x 256 2, top := bits x 258 2, wr := bitAt x 260 }

/-- The pass of a bank's registers under a KPASS command's controls (R307, R326). -/
def passOfRegs (x tcond top : Nat) (wr : Bool) : PassSpec :=
  { key := bits x 0 64, cmask := bits x 64 64, pat := bits x 128 64, wmask := bits x 192 64, tcond := tcond, top := top, wr := wr }

/-- A row window under work: its words, each with its tag. -/
abbrev TaggedWords := List (Nat × Bool)

/-- One pass over the words of w bits of a window (R309): the new words and tags, and which words it wrote. -/
def passWord (w : Nat) (p : PassSpec) (x : Nat × Bool) : (Nat × Bool) × Bool :=
  let m := decide (andNat (xorNat x.1 p.key) p.cmask % 2 ^ w = 0) && (p.tcond == 0 || x.2 == (p.tcond == 1))
  let v := if p.wr && m then orNat (andNat x.1 (xorNat (p.wmask % 2 ^ w) (2 ^ w - 1))) (andNat (p.pat % 2 ^ w) (p.wmask % 2 ^ w)) else x.1
  let t := match p.top with
    | 1 => m
    | 2 => x.2 || m
    | 3 => if m then false else x.2
    | _ => x.2
  ((v, t), p.wr && m)

/-- Words of w bits of bytes. -/
def wordsOf (w : Nat) (bs : List Byte) : List Nat := (chunks (w / 8) (bs.length / (w / 8)) bs).map natOfBytes

/-- A window that keeps the rules of R313. -/
def windowOk (w first len : Nat) : Bool :=
  first % (w / 8) == 0 && len % (w / 8) == 0 && len != 0 && decide (first + len ≤ 1024)

/-- Apply a pass to the open row of a bank (R309, R326). -/
def State.bankPass (s : State) (g w first len : Nat) (p : PassSpec) (b : Nat) : State :=
  let row := (s.pch g).rows.get b - 1
  let a := rowAddr g b row + first
  let old : List Nat := (s.pch g).tags.get b
  let ws : TaggedWords := (wordsOf w (s.rdBytes a len)).zipIdx.map fun (x : Nat × Nat) => (x.1, old.contains (first + x.2 * (w / 8)))
  let out : List ((Nat × Bool) × Bool) := ws.map (passWord w p)
  let offs : List Nat := (out.zipIdx.filter fun x => x.1.1.2).map fun x => first + x.2 * (w / 8)
  let wrote : List Nat := (out.zipIdx.filter fun x => x.1.2).map fun x => lineOf (a + x.2 * (w / 8))
  let s1 : State := { s with mem := Memory.write s.mem a (out.flatMap fun x => bytesOfNat (w / 8) x.1.1) }
  s1.updPch g fun q => { q with
    tags := q.tags.set b (sortNat ((old.filter fun o => o < first || o ≥ first + len) ++ offs))
    dirty := q.dirty.set b (dedup (q.dirty.get b ++ wrote)) }

/-! ### MACR (R327) -/

/-- One bank's products: the accumulators and the flags. -/
def macrBank (bf : Bool) (row vec : List Byte) (n len voff acc0 : Nat) (acc : SMap Word) : SMap Word × FFlags :=
  let f := if bf then bf16 else fp16
  let at2 (l : List Byte) (e : Nat) : FVal := f.decode (natOfBytes ((l.drop (2 * e)).take 2))
  overList (List.range n) (acc, 0) fun r j =>
    let start := (r.1.get (acc0 + j)).toNat
    let v := overList (List.range len) (start, r.2) fun x t =>
      let p := scaledVal (at2 row (j * len + t)) (at2 vec (voff + t))
      let q := fp32.add .rne (fp32.decode x.1) p.1
      (q.bits, x.2 ||| p.2 ||| q.flags)
    (r.1.set (acc0 + j) (BitVec.ofNat 32 v.1), v.2)

/-- MACR in the banks of the mask. -/
def State.macrRun (s : State) (g : Nat) (a : MacrArgs) (banks : List Nat) : State :=
  overList banks s fun s b =>
    let p := s.pch g
    let row := s.rdBytes (rowAddr g b (p.rows.get b - 1)) 1024
    let vec := (List.range 512).map fun t => p.vec.get (512 * b + t)
    let r := macrBank a.bf row vec a.nacc a.len a.voff (64 * b + a.acc) p.acc
    s.updPch g fun p => { p with acc := r.1, flags := p.flags ||| r.2 }

/-! ### Commands (R326) -/

/-- A COMMAND value, decoded; none for an invalid CMD or nonzero unlisted bits. -/
inductive BankCmd where
  | act (row : Nat)
  | pre
  | pass (a : PassArgs)
  | kpass (a : KpassArgs)
  | macr (a : MacrArgs)
  deriving DecidableEq, Repr

def bankCmd (v : Nat) : Option BankCmd :=
  match bits v 0 4 with
  | 0 => if bits v 20 44 = 0 then some (.act (bits v 4 16)) else none
  | 1 => if bits v 4 60 = 0 then some .pre else none
  | 2 => if bits v 33 31 = 0 then some (.pass ⟨bits v 4 6, bits v 10 2, bits v 12 10, bits v 22 11⟩) else none
  | 3 => if bits v 4 6 = 0 ∧ bits v 38 26 = 0 then
      some (.kpass ⟨bits v 10 2, bits v 12 10, bits v 22 11, bits v 33 2, bits v 35 2, bitAt v 37⟩) else none
  | 4 => if bits v 36 28 = 0 then some (.macr ⟨bits v 4 6, bits v 10 7, bits v 17 10, bits v 27 8, bitAt v 35⟩) else none
  | _ => none

/-- The banks of BANKMASK. -/
def Pch.banks (p : Pch) : List Nat := (List.range 16).filter fun b => p.bankmask.getLsbD b

/-- Window width of a WSIZE code. -/
def wsizeBits (x : Nat) : Nat := 8 * 2 ^ x

/-- ACT: restore any open row, open a row, clear the tags. -/
def State.actRun (s : State) (g row : Nat) : State :=
  let bs := (s.pch g).banks
  (s.restoreRows g bs).updPch g fun p => { p with
    rows := overList bs p.rows fun m b => m.set b (row + 1)
    opened := dedup (p.opened ++ bs.map fun b => b * 65536 + row) }

/-- PRE: restore and close the open row. -/
def State.preRun (s : State) (g : Nat) : State := s.restoreRows g (s.pch g).banks

/-- The checks of a command's arguments that give CTL_ACCESS (R326). -/
def Pch.cmdOk (p : Pch) : BankCmd → Bool
  | .act _ => true
  | .pre => true
  | .pass a => windowOk (wsizeBits a.wsize) a.colFirst a.colLen && (passOfSlot (p.passStore.get a.slot).toNat).isSome
  | .kpass a => windowOk (wsizeBits a.wsize) a.colFirst a.colLen && a.tcond != 3
  | .macr a => decide (1 ≤ a.nacc) && decide (a.nacc ≤ 64) && decide (1 ≤ a.len) && decide (a.len ≤ 512) &&
      decide (a.nacc * a.len ≤ 512) && decide (a.acc + a.nacc ≤ 64) && decide (a.voff + a.len ≤ 256)

/-- True for a command that needs an open row in every bank of the mask. -/
def BankCmd.needsRow : BankCmd → Bool
  | .act _ => false
  | .pre => false
  | _ => true

/-- Perform a command that has passed its checks. -/
def State.cmdRun (s : State) (g : Nat) (c : BankCmd) : State :=
  let p := s.pch g
  match c with
  | .act row => s.actRun g row
  | .pre => s.preRun g
  | .pass a =>
    match passOfSlot (p.passStore.get a.slot).toNat with
    | some ps => overList p.banks s fun s b => s.bankPass g (wsizeBits a.wsize) a.colFirst a.colLen ps b
    | none => s
  | .kpass a => overList p.banks s fun s b =>
      let s1 := s.updPch g fun q => { q with tags := q.tags.set b [] }
      s1.bankPass g (wsizeBits a.wsize) a.colFirst a.colLen (passOfRegs (p.passRegs.get b).toNat a.tcond a.top a.wr) b
  | .macr a => s.macrRun g a p.banks

/-- Steps 3 and 4 of a COMMAND store's checks (R326): the cause, if one applies. -/
def Pch.cmdCause (p : Pch) (v : Nat) : Option Nat :=
  match bankCmd v with
  | none => some 0x95
  | some c =>
    if p.cmdOk c = false then some 0x95
    else if c.needsRow ∧ (p.banks.any fun b => p.rows.get b == 0) then some 0x92
    else none

/-! ### The control window (R302-R306) -/

/-- An agent that stores to the window: a crew, or a bank job. -/
def jobOwner : Nat × Nat := (0x1FFFFF, 0)

/-- True when the mode is held by another crew. -/
def Pch.heldByOther (p : Pch) (who : Nat × Nat) : Bool := p.held && (p.owner.toNat, p.ocrew.toNat) != who

def Pch.ownedBy (p : Pch) (who : Nat × Nat) : Bool := p.held && (p.owner.toNat, p.ocrew.toNat) == who

/-- BANK_TIMEOUT and BANK_BUSY, which rank before every other cause of a window access (R303, R329). -/
def Pch.winGate (p : Pch) (who : Nat × Nat) : Option Nat :=
  if p.lost.any fun x => (x.1, x.2.1) == who then some 0x91
  else if p.heldByOther who then some 0x90
  else none

/-- MODE as it is read. -/
def Pch.modeWord (p : Pch) : Nat := (if p.held then 1 else 0) + p.bankmask.toNat * 65536

/-- Banks with an open row. -/
def Pch.openMask (p : Pch) : Nat := overList (List.range 16) 0 fun m b => if p.rows.get b = 0 then m else m + 2 ^ b

/-- STATUS (R306). -/
def Pch.statusWord (p : Pch) : Nat :=
  (if p.held then 1 else 0) + (if p.lost = [] then 0 else 4) + (p.reason.getD 3) * 8 + p.openMask * 32 +
  p.owner.toNat * 2 ^ 21 + p.ocrew.toNat * 2 ^ 42 + p.flags.toNat * 2 ^ 48

/-- A sweep-table entry as 32 bytes (R313). -/
def SweepEntry.word (e : SweepEntry) : Nat :=
  e.img0.toNat + e.img1.toNat * 2 ^ 32 + e.img2.toNat % 2 ^ 21 * 2 ^ 64 + e.state * 2 ^ 96 + e.domain * 2 ^ 98 + e.ackn.toNat * 2 ^ 128

/-- z bytes of the window at an offset; none where loads raise CTL_ACCESS (R302). The reserved bits of a pass slot, which R308 lets a
store set and which make the slot invalid, read as zero (spec/00 R5; DEDUCED, log 17). -/
def Pch.winLoad (p : Pch) (off z : Nat) : Option Nat :=
  let part (x lo : Nat) : Option Nat := some (bits x (8 * (off - lo)) (8 * z))
  if off < 0x8 then part p.modeWord 0
  else if off < 0x10 then part p.statusWord 0x8
  else if off < 0x18 then none
  else if off < 0x20 then part p.n.toNat 0x18
  else if 0x200 ≤ off ∧ off < 0x400 then
    let b := (off - 0x200) / 32
    part (p.passRegs.get b).toNat (0x200 + 32 * b)
  else if 0x400 ≤ off ∧ off < 0x800 then
    let i := (off - 0x400) / 32
    part (p.table.get i).word (0x400 + 32 * i)
  else if 0x1000 ≤ off ∧ off < 0x2000 then
    let i := (off - 0x1000) / 64
    part ((p.passStore.get i).toNat % 2 ^ 261) (0x1000 + 64 * i)
  else if 0x2000 ≤ off ∧ off < 0x4000 then
    some (natOfBytes ((List.range z).map fun k => p.vec.get (off - 0x2000 + k)))
  else if 0x4000 ≤ off ∧ off < 0x5000 then
    some (natOfBytes ((List.range z).map fun k =>
      let x := off - 0x4000 + k
      BitVec.ofNat 8 ((p.acc.get (x / 4)).toNat / 2 ^ (8 * (x % 4)))))
  else none

/-- Enter all-bank mode (R324): the banks are precharged, FLAGS, accumulators and vector registers cleared, the owner
recorded, and MODE stored. -/
def State.enterMode (s : State) (g : Nat) (who : Nat × Nat) (mask : Nat) (job : Option BankJob) : State :=
  (s.restoreRows g (List.range 16)).updPch g fun p => { p with
    held := true, bankmask := BitVec.ofNat 16 mask, owner := BitVec.ofNat 21 who.1, ocrew := BitVec.ofNat 6 who.2
    flags := 0, acc := [], vec := [], opened := [], job := job }

/-- What the row ALU sees as performed in a pseudo-channel is in its rows (R263, R324: the accesses queued before an entry are
completed first); none while a home cannot take it yet. -/
def State.rowsSeen (s : State) (g : Nat) : Option State := s.seenBy [.module] [⟨.phys (g * 2 ^ 30), 2 ^ 30⟩]

/-- Leave all-bank mode (R328, spec/21 R455). -/
def State.exitMode (s : State) (g : Nat) : State :=
  ((s.restoreRows g (List.range 16)).invalidateRows g).updPch g fun p => { p with held := false, job := none }

/-- What a window store comes to: a cause, a wait for the catch-up (R323), or the state. -/
inductive WinRes where
  | cause (c : Nat)
  | wait
  | ok (s : State)

/-- Store to a register without behaviour of its own: pass registers, pass store, vector registers (R302). -/
def Pch.winPut (p : Pch) (off z v : Nat) : Option Pch :=
  if 0x200 ≤ off ∧ off < 0x400 then
    let b := (off - 0x200) / 32
    some { p with passRegs := p.passRegs.set b (BitVec.ofNat 256 (putBits (p.passRegs.get b).toNat (8 * ((off - 0x200) % 32)) (8 * z) v)) }
  else if 0x1000 ≤ off ∧ off < 0x2000 then
    let i := (off - 0x1000) / 64
    some { p with passStore := p.passStore.set i (BitVec.ofNat 512 (putBits (p.passStore.get i).toNat (8 * ((off - 0x1000) % 64)) (8 * z) v)) }
  else if 0x2000 ≤ off ∧ off < 0x4000 then some { p with vec := Memory.write p.vec (off - 0x2000) (bytesOfNat z v) }
  else none

/-- A store of z bytes to the window by a crew or a bank job that has passed `winGate` (R302, R303, R305, R324, R326, R328). -/
def State.winStore (s : State) (g : Nat) (who : Nat × Nat) (off z v : Nat) : WinRes :=
  let p := s.pch g
  if off < 0x8 then
    if z ≠ 8 ∨ bits v 1 15 ≠ 0 ∨ bits v 32 32 ≠ 0 then .cause 0x95
    else if bitAt v 0 then
      if bits v 16 16 = 0 then .cause 0x95
      else if p.held then .cause 0x92
      else if p.postponed > 0 then .wait
      else match s.rowsSeen g with
        | some s1 => .ok (s1.enterMode g who (bits v 16 16) none)
        | none => .wait
    else if p.ownedBy who then
      .ok ((s.exitMode g).updPch g fun q => { q with bankmask := BitVec.ofNat 16 (bits v 16 16) })
    else .cause 0x92
  else if off < 0x10 then .cause 0x95
  else if off < 0x18 then
    if z ≠ 8 then .cause 0x95
    else if p.ownedBy who = false then .cause 0x92
    else match p.cmdCause v with
      | some c => .cause c
      | none => match bankCmd v with
        | some c => .ok (s.cmdRun g c)
        | none => .cause 0x95
  else if 0x2000 ≤ off ∧ off < 0x4000 ∧ p.ownedBy who = false then .cause 0x92
  else match p.winPut off z v with
    | some q => .ok (s.updPch g fun _ => q)
    | none => .cause 0x95

/-- The accesses of one instruction to windows in ascending lane order (R303): offset, bytes, value (a store) by lane, with
the pseudo-channel and the crew. The first rejection decides the cause; the lanes with it are the faulters. -/
structure WinAcc where
  lane : Nat
  g : Nat
  who : Nat × Nat
  off : Nat
  z : Nat
  val : Option Nat
  deriving DecidableEq, Repr, Inhabited

inductive WinOut where
  /-- The state in which LOST has been reported, the cause, the lanes, and REASON with the pseudo-channel. -/
  | trap (s : State) (cause : Nat) (lanes : List Nat) (reason g : Nat)
  | wait (g : Nat)
  | ok (s : State) (vals : List (Nat × Nat))

/-- REASON that a former owner is told. -/
def Pch.lostReason (p : Pch) (who : Nat × Nat) : Nat :=
  ((p.lost.find? fun x => (x.1, x.2.1) == who).map fun x => x.2.2).getD 3

def State.winAccess (s0 : State) : List WinAcc → State → List (Nat × Nat) → WinOut
  | [], s, vals => .ok s vals
  | a :: rest, s, vals =>
    let p := s.pch a.g
    match p.winGate a.who with
    | some 0x91 =>
      .trap (s0.updPch a.g fun q => { q with lost := q.lost.filter fun x => (x.1, x.2.1) != a.who }) 0x91 [a.lane]
        (p.lostReason a.who) a.g
    | some c => .trap s0 c (a.lane :: (rest.filter fun b => b.g == a.g && b.who == a.who).map (·.lane)) 0 a.g
    | none =>
      match a.val with
      | none => match p.winLoad a.off a.z with
        | some v => State.winAccess s0 rest s (vals ++ [(a.lane, v)])
        | none => .trap s0 0x95 [a.lane] 0 a.g
      | some v => match s.winStore a.g a.who a.off a.z v with
        | .cause c => .trap s0 c [a.lane] 0 a.g
        | .wait => .wait a.g
        | .ok s1 => State.winAccess s0 rest s1 vals

/-! ### The function library (R310) -/

/-- Effect of a library function on a word. -/
def libWord (id x : Nat) : Nat :=
  let halve (f : FFmt) : Nat :=
    match f.decode x with
    | .nan .. => orNat x (2 ^ (f.mb - 1))
    | .inf _ => x
    | .fin n m e => (f.round .rne n m (e - 1)).bits
  match id with
  | 0 => 0
  | 1 => 0
  | 2 => x % 2 ^ 15
  | 3 => xorNat x (2 ^ 15)
  | 4 => x % 2 ^ 15
  | 5 => xorNat x (2 ^ 15)
  | 6 => halve fp16
  | 7 => halve bf16
  | 8 => if bitAt x 15 ∧ (fp16.decode x).isNan = false then 0 else x
  | 9 => (x + 1) % 2 ^ 8
  | 10 => (x + 1) % 2 ^ 16
  | _ => x

/-- Word size of a library function. -/
def libWidth (id : Nat) : Nat := match id with | 0 => 8 | 1 => 64 | 9 => 8 | _ => 16

/-! ### Sweep entries (R311-R315) -/

def SweepEntry.repeats (e : SweepEntry) : Bool := bitAt e.img0.toNat 16
def SweepEntry.wsize (e : SweepEntry) : Nat := wsizeBits (bits e.img0.toNat 17 2)
def SweepEntry.lib (e : SweepEntry) : Bool := bitAt e.img0.toNat 19
def SweepEntry.start (e : SweepEntry) : Nat := bits e.img0.toNat 20 6
def SweepEntry.npass (e : SweepEntry) : Nat := bits e.img0.toNat 26 6
def SweepEntry.colFirst (e : SweepEntry) : Nat := bits e.img2.toNat 0 10
def SweepEntry.colLen (e : SweepEntry) : Nat := bits e.img2.toNat 10 11

/-- Rows of the region, as keys. -/
def SweepEntry.rows (e : SweepEntry) : List Nat :=
  ((List.range 16).filter fun b => bitAt e.mask b).flatMap fun b =>
    (List.range (e.rowLast + 1 - e.rowFirst)).map fun r => rowId b (e.rowFirst + r)

/-- An image that keeps R313 and R317, given the pass store. -/
def imageOk (p : Pch) (e : SweepEntry) : Bool :=
  e.mask != 0 && decide (e.rowFirst ≤ e.rowLast) && windowOk e.wsize e.colFirst e.colLen && bits e.img2.toNat 21 11 == 0 &&
  (if e.lib then e.npass == 0 && decide (e.start ≤ 10) && e.wsize == libWidth e.start
   else decide (1 ≤ e.npass) && decide (e.npass ≤ 48) && decide (e.start + e.npass ≤ 64) &&
    (List.range e.npass).all fun k => (passOfSlot (p.passStore.get (e.start + k)).toNat).isSome)

/-- An entry's function on the words of its window (R311, R313): a slot that is invalid now is skipped. -/
def applyFunction (p : Pch) (e : SweepEntry) (ws : List Nat) : List Nat :=
  if e.lib then ws.map (libWord e.start)
  else
    let ps := (List.range e.npass).filterMap fun k => passOfSlot (p.passStore.get (e.start + k)).toNat
    (overList ps (ws.map fun x => (x, false)) fun l q => l.map fun x => (passWord e.wsize q x).1).map (·.1)

/-- The entry is applicable to a row (R311, R314). -/
def SweepEntry.applicable (e : SweepEntry) (b row : Nat) : Bool :=
  e.state == 1 && e.covers b row && (e.repeats || !e.applied.contains (rowId b row))

/-- Every waiting SWWAIT of a pseudo-channel sees a row of an entry applied (R319). -/
def Gang.sweepSeen (x : Gang) (g i key : Nat) : Gang :=
  match x.park, x.clause with
  | some (.sweepWait h), some r =>
    if h ≠ g then x else
    match r.pend with
    | .sweep es => { x with clause := some { r with pend := .sweep (es.map fun e =>
        if e.1 = i then (e.1, e.2.filter (· != key)) else e) } }
    | _ => x
  | _, _ => x

/-- Change every gang of every workgroup. -/
def State.overGangs (s : State) (f : Gang → Gang) : State :=
  { s with wgs := s.wgs.map fun p => (p.1, { p.2 with gangs := p.2.gangs.map f }) }

/-- The entry after its application to a row (R314). -/
def SweepEntry.afterRow (e : SweepEntry) (key : Nat) : SweepEntry :=
  let e1 := { e with applied := if e.applied.contains key then e.applied else e.applied ++ [key] }
  if !e.repeats && decide (e1.applied.length = e.rows.length) then { e1 with state := 2 } else e1

/-- Apply one entry to one row: a write by the row ALU to every line of the window (R311, R312). -/
def State.applyEntry (s : State) (g b row i : Nat) : State :=
  let p := s.pch g
  let e := p.table.get i
  let a := rowAddr g b row + e.colFirst
  let ws := applyFunction p e (wordsOf e.wsize (s.rdBytes a e.colLen))
  let s1 := s.physWrite none a (ws.flatMap (bytesOfNat (e.wsize / 8)))
  (s1.updPch g fun q => { q with table := q.table.upd i fun x => x.afterRow (rowId b row) }).overGangs
    fun x => x.sweepSeen g i (rowId b row)

/-- Restore one row of one bank, with every applicable function in ascending entry index (R311). An entry acknowledged in
the step given, if one is, is passed over: it is applied from the next step on (R314). -/
def State.restoreRow (s : State) (g b row : Nat) (step : Option Dword) : State :=
  let due (s : State) (i : Nat) : Bool :=
    let e := (s.pch g).table.get i
    e.applicable b row && decide (step ≠ some e.ackn)
  let s1 := overList (List.range 32) s fun s i => if due s i then s.applyEntry g b row i else s
  if (List.range 32).any (due s) then s1.dropRaces (linesOf (rowAddr g b row) 1024) else s1

/-- A row with a lasting fault is remapped to a spare of its bank when the sweep restores it, or logged when none is left
(spec/19 R447). -/
def Pch.spareRow (p : Pch) (b row : Nat) : Pch :=
  let k := rowId b row
  if p.lasting.contains k then
    if p.spares.get b < 128 then
      { p with lasting := p.lasting.filter (· != k), errs := p.errs.drop k, spares := p.spares.set b (p.spares.get b + 1) }
    else { p with lasting := p.lasting.filter (· != k), errs := p.errs.drop k, logged := p.logged ++ [k] }
  else p

/-- One sweep step (R300). -/
def State.sweepStep (s : State) (g : Nat) : State :=
  let n := (s.pch g).n
  let row := n.toNat % 65536
  (overList (List.range 16) s fun s b => (s.restoreRow g b row (some n)).updPch g fun p => p.spareRow b row).updPch g
    fun p => { p with n := p.n + 1 }

/-- Free an entry (R318); a wait on it ends or stops counting it, unless what it waits for has already happened (R319, R322). -/
def State.freeEntry (s : State) (g i : Nat) : State :=
  (s.updPch g fun p => { p with
    table := p.table.set i default
    forcings := p.forcings.filter fun f => f.entry != i }).overGangs fun x =>
      match x.park, x.clause with
      | some (.sweepWait h), some r =>
        if h ≠ g then x else
        match r.pend with
        | .sweep es => { x with clause := some { r with pend := .sweep (es.filter fun e => e.1 != i || e.2.isEmpty) } }
        | _ => x
      | _, _ => x

end Sys2Proof.Machine
end

