-- ==== Sys2Proof/Machine/Buffer.lean ====
section
/-! DEFINITION. Device-memory instructions (spec/09 R220-R232): LD, ST, LDT, STT, ATOM, RED, PREF, MONITOR, MONWAIT, FENCE,
PUBLISH, PIN, UNPIN, RESQ and RECSET. -/

namespace Sys2Proof.Machine

open Sys2Proof

/-! ### Addresses (R202) -/

/-- The record index that a lane names. -/
def Env.recIdx (e : Env) (l : Nat) (r : RecRef) (j : Nat) : Nat :=
  match r with
  | .imm n => n
  | .reg q => (e.int32 l q j 4).toNat % 256

/-- The request of a lane in offset mode. -/
def Env.offReq (e : Env) (r : RecRef) (o : Sel) (l : Nat) : LaneReq :=
  { lane := l, idx := e.recIdx l r (popsIn [(o, 1)]), off := (e.int32 l o 0 0).toNat }

/-- The request of a lane of LD or ST. -/
def Env.memReq (e : Env) (a : MemAddr) (l : Nat) : LaneReq :=
  match a with
  | .off r o => e.offReq r o l
  | .ptr o =>
    let p := (e.opd l (.pair o) 0 0).toNat
    { lane := l, idx := p / 2 ^ 56, off := p % 2 ^ 56 }

/-! ### Counted accesses (R203-R206, R220) -/

/-- Accesses that performed nothing carry no bytes. -/
def LaneAcc.isOk (a : LaneAcc) : Bool := a.status == 0

/-- True when an instruction's effective order is not relaxed, or a line of it is Device or SO: it closes its lanes'
regions (spec/15 R367). -/
def closesAccess (o : Order) (tys : List Nat) : Bool := o != .relaxed || tys.any fun t => decide (t ≥ 2)

/-- The end of the interval, and the close of the region, of an access (spec/10 R249, spec/15 R367). -/
def State.afterAccess (s : State) (e : Env) (o : Order) (tys : List Nat) : State :=
  let s1 := if o = .relaxed then s else s.endE e
  if closesAccess o tys then s1.closeE e else s1

/-- The status register of an instruction with the lanes' codes (R206). -/
def statOf (st : Option Sel) (as : List LaneAcc) : Option (Sel × List (Nat × Nat)) :=
  st.map fun r => (r, as.map fun a => (a.lane, a.status))

/-- Statuses as register values by lane. -/
def statVals (as : List LaneAcc) : List (Nat × List Word) := as.map fun a => (a.lane, [BitVec.ofNat 32 a.status])

/-- The accesses of bank-direct records as window accesses of their crews (spec/13 R303). -/
def State.winAccs (s : State) (t z : Nat) (val : Nat → Option Nat) (as : List LaneAcc) : List WinAcc :=
  (as.filter fun a => rKind a.rcd == 5 && a.isOk).map fun a =>
    { lane := a.lane, g := rAux a.rcd % 1024, who := (t, (((s.wg t).lane a.lane).crew).getD 0)
      off := ((a.pieces.headD default).pa) % 65536, z := z, val := val a.lane }

/-- The bytes of accesses, as an item's operation that only orders. -/
def touchOp (as : List LaneAcc) : FlightOp :=
  .load .b32 none (as.map fun a => { lane := a.lane, spans := spansOf a.pieces, l1 := false, conv := [] }) []

/-- Window accesses, which the gang waits for (R303): a trap or a wait, or the state and the values loaded. -/
def Env.winRun (e : Env) (s : State) (ord : Order) (sc : Scope) (as : List LaneAcc) (ws : List WinAcc) :
    Except Res (State × List (Nat × Nat)) :=
  match ws with
  | [] => .ok (s, [])
  | _ =>
    let r := s.settleFor e.t (s.asItem e.t (ws.map (·.lane)) ord sc true (touchOp (as.filter fun a => rKind a.rcd == 5)))
    match r.2 with
    | some (c, id) => .error (.park r.1 (.item c id) e.run.pend)
    | none =>
      match r.1.winAccess ws r.1 [] with
      | .trap s1 cause ls reason g =>
        let dt : List Word := if cause = 0x91 then [BitVec.ofNat 32 reason, BitVec.ofNat 32 g] else []
        .error (.trap s1 { cause := cause, faulters := ls, fpc := e.fpc, detail := fun _ => dt })
      | .wait g => .error (.park r.1 (.bank g) e.run.pend)
      | .ok s1 vals => .ok (s1, vals)

/-- A load that waits for sweep entries (spec/13 R315). -/
def FlightOp.waiting : FlightOp → Bool
  | .load _ _ _ sw => !sw.isEmpty
  | _ => false

/-- An access counted on DM: its checks, its wait for a counter, its window accesses, and the item that carries the rest. -/
def Env.dmAccess (e : Env) (sp : AccSpec) (ord : Order) (sc : Scope) (st : Option Sel) (plain : Bool) (reqs : List LaneReq)
    (pre : List LaneFault) (val : Nat → Option Nat) (wd : Option (Sel × Nat)) (op : State → List LaneAcc → FlightOp)
    (swept : Bool := false) : Res :=
  match reqs, pre with
  | [], [] => .ok e.s []
  | _, _ =>
    match e.s.access e.t e.fpc e.run.pend sp st.isSome plain reqs pre with
    | .trap s q => .trap s q
    | .park s p pd => .park s p pd
    | .ok s as =>
      match e.full .dm with
      | some p => .park e.s p e.run.pend
      | none =>
        let tys := typesOf as
        let f := effective ord sc tys
        -- a trap of a window access leaves what the other lanes' accesses have started undone (R205)
        match e.winRun e.s f.1 f.2 as (s.winAccs e.t sp.z val as), e.winRun s f.1 f.2 as (s.winAccs e.t sp.z val as) with
        | .error (.trap s1 q), _ => .trap s1 q
        | _, .error r => r
        | _, .ok (s1, vals) =>
          let value (l : Nat) : Nat := ((vals.find? fun v => v.1 == l).map (·.2)).getD 0
          let s2 := match wd with
            | some (d, n) => s1.updWg e.t fun w => w.writeSel s1.free d
                ((as.filter fun (a : LaneAcc) => rKind a.rcd == 5).map fun (a : LaneAcc) => (a.lane, splitWords n (BitVec.ofNat 64 (value a.lane))))
            | none => s1
          let rest := as.filter fun a => !(rKind a.rcd == 5)
          let chk := plain && f.1 == .relaxed && as.any fun a => !(raceAccs a).isEmpty
          let again := if (op s2 rest).waiting then some (⟨sp, st.isSome, swept, reqs⟩ : Reissue) else none
          .ok ((s2.launch e.t e.ls (some .dm) f.1 f.2 (tys.contains 2) chk (op s2 rest) (statOf st as) (usedOf as) again).afterAccess e f.1
            tys) []

/-- The item of a load. -/
def loadOp (w : Width) (d : Option Sel) (swept : Bool) (s : State) (as : List LaneAcc) : FlightOp :=
  .load w d (as.map fun a => loadLaneOf (!(swept || rSword a.rcd)) a) (as.flatMap (s.accWaits swept))

/-- Runs of bytes of a store over the pieces of its element. -/
def runsOf : List Piece → List Byte → List (Loc × List Byte)
  | [], _ => []
  | p :: rest, bs => (.phys p.pa, bs.take p.len) :: runsOf rest (bs.drop p.len)

/-- The item of a store. -/
def storeOp (data : Nat → List Byte) (_ : State) (as : List LaneAcc) : FlightOp :=
  .store ((as.filter (·.isOk)).map fun a => { lane := a.lane, runs := runsOf a.pieces (data a.lane) })

/-- True for the widths a bank-direct record accepts (spec/13 R303). -/
def bankWidth (w : Width) : Bool := w == .b32 || w == .b64

/-! ### LD, ST, LDT, STT (R221, R222) -/

def ldBody (w : Width) (ord : Order) (sc : Scope) (nw swept : Bool) (addr : MemAddr) (data : Sel) (st : Option Sel) (e : Env) : Res :=
  e.dmAccess { z := wbytes w, bank := bankWidth w } ord sc st (ord == .relaxed) (e.ls.map (e.memReq addr)) [] (fun _ => none)
    (dst nw data (wspan w)) (loadOp w (if nw then none else some data) swept) swept

/-- A lane's store data as bytes. -/
def Env.storeBytes (e : Env) (d : Sel) (w : Width) (j i l : Nat) : List Byte :=
  (bytesLE (e.regs l d (wspan w) j i)).take (wbytes w)

def stBody (w : Width) (ord : Order) (sc : Scope) (addr : MemAddr) (data : Sel) (st : Option Sel) (e : Env) : Res :=
  let bs := e.storeBytes data w (popsIn addr.sels) 8
  e.dmAccess { z := wbytes w, write := true, noSenc := true, bank := bankWidth w } ord sc st (ord == .relaxed)
    (e.ls.map (e.memReq addr)) [] (fun l => some (natOfBytes (bs l))) none (storeOp bs)

def execLd (w : Width) (ord : Order) (scope : Scope) (nw swept : Bool) (addr : MemAddr) (data : Sel) (sr : Option Sel) (s : State) :
    Host.Outcome State Fault Refusal :=
  laneIssue (.ld w ord scope nw swept addr data sr) (ldBody w ord scope nw swept addr data sr) s

def execSt (w : Width) (ord : Order) (scope : Scope) (addr : MemAddr) (data : Sel) (sr : Option Sel) (s : State) :
    Host.Outcome State Fault Refusal :=
  laneIssue (.st w ord scope addr data sr) (stBody w ord scope addr data sr) s

/-- A lane's request through a shape (R222), or the lane's fault; with what the record cache takes of the shape. -/
def Env.tensorReq (e : Env) (o : TensorAcc) (l : Nat) : Except LaneFault (LaneReq × Option RecEntry) :=
  let fail (rank cause : Nat) (g : List Gran) : Except LaneFault (LaneReq × Option RecEntry) := .error ⟨l, rank, cause, o.rcd, 0, g⟩
  match e.crewOf l with
  | none => fail 0 0x6D []
  | some c =>
    match e.s.shapeGet e.w c o.shape (8 * l + 7) with
    | .error (cause, g) => fail (if cause = 0x20 then 1 else xlRank cause) cause g
    | .ok (ws, ld) =>
      let x := recBits ws
      if shapeFormat ws = false ∨ bits x 0 3 ≠ o.coords.length then fail 1 0x20 []
      else
        let cs := ((e.opds l (o.coords.map fun c => Opd.int .s32 c) 0 0).map fun v => signedOf 32 v.toNat).zipIdx
        let clip := cs.any fun c => decide (c.1 < 0) || decide (c.1 ≥ ((bits x (32 + 32 * c.2) 32 : Nat) : Int))
        let off : Int := cs.foldl (fun a c => a + c.1 * signedOf 32 (bits x (256 + 32 * c.2) 32)) 0 * ((wbytes o.w : Nat) : Int)
        .ok ({ lane := l, idx := o.rcd, off := off.toNat, clipped := clip || decide (off < 0) }, ld)

/-- A tensor access: the lanes' shapes, then the path of R203. -/
def Env.tensor (e : Env) (o : TensorAcc) (sp : AccSpec) (wd : Option (Sel × Nat)) (op : State → List LaneAcc → FlightOp)
    (swept : Bool := false) : Res :=
  e.walked (fun s l => match e.crewOf l with
    | some c => s.recReads (s.wg e.t) c o.shape (8 * l + 7) true
    | none => []) fun e =>
  let rs := e.ls.map (e.tensorReq o)
  let bad := rs.filterMap fun r => match r with | .error f => some f | .ok _ => none
  let reqs := rs.filterMap fun r => match r with | .error _ => none | .ok q => some q.1
  let keep := rs.filterMap fun r => match r with | .error _ => none | .ok q => q.2
  match e.dmAccess sp .relaxed .crew o.st true reqs bad (fun _ => none) wd op swept with
  | .ok s l => .ok (overList keep s fun s r => s.recKeep e.w.core (some r)) l
  | r => r

def ldtBody (o : TensorAcc) (e : Env) : Res :=
  e.tensor o { z := wbytes o.w } (dst o.nw o.data (wspan o.w)) (loadOp o.w (if o.nw then none else some o.data) o.swept) o.swept

def sttBody (o : TensorAcc) (e : Env) : Res :=
  e.tensor o { z := wbytes o.w, write := true, noSenc := true } none
    (storeOp (e.storeBytes o.data o.w (popsIn (o.coords.map fun c => (c, 1))) (4 * o.coords.length)))

def execLdt (o : TensorAcc) (s : State) : Host.Outcome State Fault Refusal := laneIssue (.ldt o) (ldtBody o) s
def execStt (o : TensorAcc) (s : State) : Host.Outcome State Fault Refusal := laneIssue (.stt o) (sttBody o) s

/-! ### ATOM, RED (R223) -/

/-- A 64-bit or 32-bit value of consecutive registers. -/
def joinWords (ws : List Word) : Dword := BitVec.ofNat 64 (packElems 32 (ws.map BitVec.toNat))

/-- The item of an atomic: b from DATA, c from the registers after it. -/
def atomItem (o : RecAtom) (d : Option Sel) (data : Nat → List Word) (_ : State) (as : List LaneAcc) : FlightOp :=
  .atomic o.op o.w d ((as.filter (·.isOk)).map fun a =>
    { lane := a.lane, loc := .phys ((a.pieces.headD default).pa)
      b := joinWords ((data a.lane).take (wspan o.w)), c := joinWords ((data a.lane).drop (wspan o.w)) })

/-- ATOM and RED: a lane whose status is not OK performs nothing and keeps its register (R206). They close the lanes' regions,
whatever their order (spec/15 R367). -/
def Env.atomic (o : RecAtom) (d : Option Sel) (n : Nat) (e : Env) : Res :=
  let j := popsIn ((o.off, 1) :: o.rcd.sels)
  match e.dmAccess { z := wbytes o.w, write := true, strict := true, noSenc := true } o.ord o.scope o.st false
      (e.ls.map (e.offReq o.rcd o.off)) [] (fun _ => none) none (atomItem o d fun l => e.regs l o.data n j 8) with
  | .ok s l => .ok (s.closeE e) l
  | r => r

def atomBody (o : RecAtom) (e : Env) : Res := Env.atomic o (if o.nw then none else some o.data) (atomSpan o.w o.op) e

def redBody (o : RecAtom) (e : Env) : Res := Env.atomic o none (wspan o.w) e

def execAtom (o : RecAtom) (s : State) : Host.Outcome State Fault Refusal := laneIssue (.atom o) (atomBody o) s
def execRed (o : RecAtom) (s : State) : Host.Outcome State Fault Refusal := laneIssue (.red o) (redBody o) s

/-! ### MONITOR, MONWAIT, FENCE (R225-R227) -/

/-- Bytes that an instruction reads or writes at its issue and that wait for all-bank mode to end (spec/13 R324). -/
def State.heldPch (s : State) (as : List LaneAcc) : Option Nat :=
  (as.flatMap fun a => spansOf a.pieces).findSome? fun x => match x.loc with
    | .phys a => if s.held x then some (pchOf a) else none
    | .win .. => none

/-- The monitors that lanes arm: for each crew of E, the line of its lowest lane that read one. -/
def Workgroup.armMonitors (w : Workgroup) (ls : List Nat) (as : List LaneAcc) : Workgroup :=
  overList (w.crewsOf ls) w fun w c =>
    let mine := as.filter fun a => a.isOk && (w.lane a.lane).crew == some c
    w.updCrew c fun x => { x with monitor := match mine with
      | [] => none
      | a :: _ => some { line := lineOf ((a.pieces.headD default).pa), fired := false } }

def monitorBody (w : Width) (acq : Bool) (sc : Scope) (nw : Bool) (rcd : RecRef) (off data : Sel) (st : Option Sel) (e : Env) : Res :=
  match e.ls with
  | [] => .ok e.s []
  | _ =>
    match e.s.access e.t e.fpc e.run.pend { z := wbytes w, strict := true, noSenc := true, mon := true } st.isSome false
        (e.ls.map (e.offReq rcd off)) with
    | .trap s q => .trap s q
    | .park s p pd => .park s p pd
    | .ok s as =>
      let ord := if acq then Order.acquire else .relaxed
      let waits := match e.run.pend with | .swept l => l | _ => as.flatMap (s.accWaits false)
      let pend := if waits = [] then e.run.pend else Pend.swept waits
      if waits.all s.sweptDone = false then .park s (.swept waits) pend else
      let r := s.settleFor e.t (s.asItem e.t e.ls ord sc false (touchOp as))
      match r.2, r.1.heldPch as with
      | some (c, id), _ => .park r.1 (.item c id) pend
      | none, some g => .park r.1 (.bank g) pend
      | none, none =>
        let n := wspan w
        let rd := overList as (r.1, []) fun acc a =>
          let b := acc.1.laneBytes e.t false (spansOf a.pieces)
          (b.1, acc.2 ++ [(a.lane, regWords n b.2)])
        let s1 := rd.1.updWg e.t fun g =>
          let g1 := if nw then g else g.writeSel r.1.free data rd.2
          let g2 := match st with
            | some q => g1.writeSel r.1.free q (statVals as)
            | none => g1
          g2.armMonitors e.ls as
        .ok (((s1.acquired e.t ord sc).endE e).closeE e) []

def execMonitor (w : Width) (acq : Bool) (scope : Scope) (nw sw : Bool) (rcd : RecRef) (off data : Sel) (sr : Option Sel) (s : State) :
    Host.Outcome State Fault Refusal :=
  laneIssue (.monitor w acq scope nw sw rcd off data sr) (monitorBody w acq scope nw rcd off data sr) s

def monwaitBody (e : Env) : Res :=
  match e.ls with
  | [] => .ok e.s []
  | _ =>
    if e.crewless ≠ [] then e.trap 0x6D e.crewless
    else if e.mixed then e.trap 0x6F e.ls
    else
      let c := (e.crew?).getD 0
      match (e.w.crew c).monitor with
      | none => e.trap 0x26 e.ls
      | some m =>
        if m.fired then
          .ok (((e.s.updWg e.t fun w => w.updCrew c fun x => { x with monitor := none }).endE e).closeE e) []
        else .park e.s (.monitor c) e.run.pend

def execMonwait (s : State) : Host.Outcome State Fault Refusal := laneIssue .monwait monwaitBody s

def fenceBody (ord : Order) (sc : Scope) (e : Env) : Res :=
  match e.ls with
  | [] => .ok e.s []
  | _ =>
    match e.crewless with
    | l :: ls => e.trap 0x6D (l :: ls)
    | [] => .ok (((e.s.launch e.t e.ls none ord sc false false .fence).endE e).closeE e) []

def execFence (ord : Order) (scope : Scope) (s : State) : Host.Outcome State Fault Refusal :=
  laneIssue (.fence ord scope) (fenceBody ord scope) s

/-! ### Tables and record caches (R196, R197, R228, R230) -/

/-- A node's descriptor as the pool keeps it. -/
def State.nodeBits (s : State) (id : Nat) : Nat :=
  match s.pool.nodes.find? fun n => n.id == id with
  | some n => packElems 32 (n.desc.words.map BitVec.toNat)
  | none => 0

/-- A crew's table: its key, base address and number of records (R196, R351). -/
def State.tableOf (s : State) (w : Workgroup) (c : Nat) (shape : Bool) : RecKey × Nat × Nat :=
  let cr := w.crew c
  if cr.depth = 0 then
    let d := s.nodeBits w.node
    (.node w.node, if shape then bits d 288 56 else bits d 224 56, if shape then w.nshape else w.nrec)
  else
    let d := (s.descUse w.core cr.domain).getD []
    (.domain cr.domain, if shape then fieldOf d 439 384 else fieldOf d 375 320,
      if shape then fieldOf d 446 440 else fieldOf d 383 376 + 1)

/-- Copies of one record of table memory, under whatever node or domain they were cached. -/
def RecEntry.same (x r : RecEntry) : Bool :=
  (x.key == r.key && x.shape == r.shape && x.idx == r.idx) || (x.shape == r.shape && x.pa == r.pa)

/-- A record in every record cache that holds a copy of it, as far as the copies change, and in one core's. -/
def State.cacheRec (s : State) (core : Nat) (r : RecEntry) (change : List Word → List Word) : State :=
  let put (c : Core) : Core := { c with recs := c.recs.map fun x => if x.same r then { x with words := change x.words } else x }
  let s1 : State := { s with cores := s.cores.map fun p => (p.1, put p.2) }
  let held (c : Core) : Bool := c.recs.any fun x => x.key == r.key && x.shape == r.shape && x.idx == r.idx
  s1.updCore core fun c => { c with recs := if held c then c.recs else r :: c.recs }

/-- Translated bytes of a table slot: the pieces, or the trap of lanes. -/
def Env.tablePieces (e : Env) (c : Nat) (wr : Bool) (va n : Nat) (ls : List Nat) : Except TrapReq (List Piece) :=
  let x := e.s.xlate e.w.core (e.w.crew c).domain wr true 6 [(va, n)]
  match worstGran (x.map (·.1)) with
  | some cause =>
    let fs : List LaneFault := ls.map fun l => ⟨l, xlRank cause, cause, 0, 0, x.map (·.1)⟩
    .error ((faultTrap e.fpc fs).getD { cause := cause, faulters := ls, fpc := e.fpc })
  | none => .ok (x.filterMap (·.2.1))

/-- What the walk for a slot of a crew's table reads. -/
def Env.slotWalk (e : Env) (c i : Nat) (shape : Bool) : State → Nat → List Span :=
  e.walkAt (e.w.crew c).domain fun s => [(s.tableOf (s.wg e.t) c shape).2.1 + 64 * i]

/-- Write bytes to a slot of table memory. -/
def Env.putSlot (e : Env) (s : State) (ps : List Piece) (bs : List Byte) : State :=
  overList (runsOf ps bs) s fun s r => match r.1 with
    | .phys a => s.physWrite (some e.w.core) a r.2
    | .win .. => s

/-- Write a record to table memory and to the record caches. -/
def Env.putRec (e : Env) (s : State) (c idx : Nat) (ws : List Word) (ps : List Piece) : State :=
  (e.putSlot s ps (bytesLE (ws.take 10))).cacheRec e.w.core ⟨(e.s.tableOf e.w c false).1, false, idx, ws, firstPa ps⟩ fun _ => ws

/-- The bytes of a slot of table memory. -/
def State.slotBytes (s : State) (ps : List Piece) : List Byte := ps.flatMap fun p => s.rdBytes p.pa p.len

/-- A slot of table memory as the lanes of E touch it. -/
def slotTouch (ls : List Nat) (ps : List Piece) : FlightOp :=
  .store (ls.map fun l => { lane := l, runs := ps.map fun p => (.phys p.pa, List.replicate p.len 0) })

/-- What an instruction on a slot of table memory waits for: E's earlier accesses to it (spec/10 R241), and an all-bank mode that
holds it (spec/13 R324). -/
def Env.slotReady (e : Env) (ord : Order) (sc : Scope) (ps : List Piece) : Except Res State :=
  match e.settled ord sc false (slotTouch e.ls ps) with
  | .error r => .error r
  | .ok s1 =>
    match ps.find? fun p => s1.held ⟨.phys p.pa, p.len⟩ with
    | some p => .error (.park s1 (.bank (pchOf p.pa)) e.run.pend)
    | none => .ok s1

/-- A trap of E at a record: index in DETAIL, offset zero. -/
def Env.recTrap (e : Env) (cause idx : Nat) : Res := e.trap cause e.ls [BitVec.ofNat 32 idx]

/-- The sixteen words of a record. -/
def recWords (r : Nat) : List Word := (List.range 16).map fun k => BitVec.ofNat 32 (bits r (32 * k) 32)

/-- A record with its generation number advanced (R228, R230). -/
def bumpRgen (r old : Nat) : List Word := recWords (putBits r 302 8 (rRgen old + 1))

/-- GEN and RGEN of a record put into another copy of it (R197, R228). -/
def genInto (new copy : Nat) : Nat := putBits (putBits copy 120 1 (bits new 120 1)) 302 8 (rRgen new)

def publishBody (a : Sel) (e : Env) : Res :=
  match e.ls with
  | [] => .ok e.s []
  | l :: _ =>
    match e.crewless with
    | k :: ks => e.trap 0x6D (k :: ks)
    | [] =>
      let c := (e.crewOf l).getD 0
      let idx := (e.int32 l a 0 0).toNat % 256
      e.withRec c idx (e.slotWalk c idx false) fun e =>
      match e.s.recGet e.w c idx 6 with
      | .error (cause, g) =>
        if cause = 0x20 then e.recTrap 0x20 idx
        else .trap e.s ((faultTrap e.fpc (e.ls.map fun k => ⟨k, xlRank cause, cause, idx, 0, g⟩)).getD
          { cause := cause, faulters := e.ls, fpc := e.fpc })
      | .ok (ws, _) =>
        let r := recBits ws
        let super := match e.s.descUse e.w.core (e.w.crew c).domain with | some d => descSuper d | none => false
        match recCheck { z := 1, bank := true } super (e.w.crew c).domain idx r with
        | some (_, cause) => e.recTrap cause idx
        | none =>
          if rShen r = false then e.recTrap 0x21 idx
          else match e.tablePieces c true ((e.s.tableOf e.w c false).2.1 + 64 * idx) 40 e.ls with
            | .error q => .trap e.s q
            | .ok ps =>
              match e.slotReady .release .device ps with
              | .error r => r
              | .ok s1 =>
                let new := bumpRgen (putBits r 120 1 (if rGen r then 0 else 1)) r
                -- of table memory and of the copies only GEN and RGEN change (R197, R228): the rest is what stands there
                let mem := genInto (recBits new) (natOfBytes (s1.slotBytes ps))
                let s2 := (e.putSlot s1 ps (bytesOfNat 40 mem)).cacheRec e.w.core
                  ⟨(e.s.tableOf e.w c false).1, false, idx, new, firstPa ps⟩ fun ws => recWords (genInto (recBits new) (recBits ws))
                .ok ((s2.endE e).closeE e) []

def execPublish (a : Sel) (s : State) : Host.Outcome State Fault Refusal := laneIssue (.publish a) (publishBody a) s

/-- What RECSET functions share: the crew and the index of the lowest lane of E (R230). -/
def recsetWith (a : Sel) (f : Nat → Nat → Env → Res) (e : Env) : Res :=
  match e.ls with
  | [] => .ok e.s []
  | l :: _ =>
    match e.crewless with
    | k :: ks => e.trap 0x6D (k :: ks)
    | [] => f ((e.crewOf l).getD 0) ((e.int32 l a 0 0).toNat % 256) e

/-- The record that a core holds at an index, before RECSET (R230); zeros where it holds none. -/
def Env.oldRec (e : Env) (c idx : Nat) : Nat := match e.s.recGet e.w c idx 6 with | .ok (ws, _) => recBits ws | .error _ => 0

/-- RECSET of a record given in registers. RSV bits go to table memory as the registers hold them, and read back there as stored
(DESIGN CHOICE, log 75). -/
def recsetNew (g : Nat) (c idx : Nat) (e : Env) : Res :=
  e.withRec c idx (e.slotWalk c idx false) fun e =>
  if idx = 0 then e.recTrap 0x21 idx
  else
    let tb := e.s.tableOf e.w c false
    if idx ≥ tb.2.2 then e.recTrap 0x20 idx
    else
      let r := recBits (e.regs (e.ls.headD 0) (.v g) 10 1 8)
      let dom := (e.w.crew c).domain
      let super := match e.s.descUse e.w.core dom with | some d => descSuper d | none => false
      match recCheck { z := 1, bank := true } super dom idx r with
      | some (_, cause) => e.recTrap cause idx
      | none =>
        match e.tablePieces c true (tb.2.1 + 64 * idx) 40 e.ls with
        | .error q => .trap e.s q
        | .ok ps =>
          match e.slotReady .relaxed .device ps with
          | .error x => x
          | .ok s1 => .ok ((e.putRec s1 c idx (bumpRgen r (e.oldRec c idx)) ps).closeE e) []

/-- RECSET's reload of a record or shape from table memory. A record passes the checks of R200, and its generation number goes on
from the cached record's. -/
def recsetLoad (shape : Bool) (c idx : Nat) (e : Env) : Res :=
  (if shape then e.walked (e.slotWalk c (idx % 64) shape) else e.withRec c idx (e.slotWalk c idx shape)) fun e =>
  let tb := e.s.tableOf e.w c shape
  let i := if shape then idx % 64 else idx
  if shape = false ∧ i = 0 then e.recTrap 0x21 i
  else if i ≥ tb.2.2 then e.recTrap 0x20 i
  else
    match e.tablePieces c (!shape) (tb.2.1 + 64 * i) 64 e.ls with
    | .error q => .trap e.s q
    | .ok ps =>
      match e.slotReady .relaxed .device ps with
      | .error x => x
      | .ok s1 =>
        let ws := wordsLE (s1.slotBytes ps)
        if shape then .ok ((s1.cacheRec e.w.core ⟨tb.1, true, i, ws, firstPa ps⟩ fun _ => ws).closeE e) []
        else
          let dom := (e.w.crew c).domain
          let super := match e.s.descUse e.w.core dom with | some d => descSuper d | none => false
          match recCheck { z := 1, bank := true } super dom i (recBits ws) with
          | some (_, cause) => e.recTrap cause i
          | none =>
            let new := bumpRgen (recBits ws) (e.oldRec c i)
            .ok (((e.putSlot s1 ps (bytesLE (new.take 10))).cacheRec e.w.core ⟨tb.1, false, i, new, firstPa ps⟩ fun _ => new).closeE e) []

def recsetBody (a : Sel) (g : Nat) (e : Env) : Res := recsetWith a (recsetNew g) e
def recsetReloadBody (a : Sel) (e : Env) : Res := recsetWith a (recsetLoad false) e
def recsetShapeBody (a : Sel) (e : Env) : Res := recsetWith a (recsetLoad true) e

def execRecset (a : Sel) (g : Nat) (s : State) : Host.Outcome State Fault Refusal := laneIssue (.recset a g) (recsetBody a g) s
def execRecsetReload (a : Sel) (s : State) : Host.Outcome State Fault Refusal :=
  laneIssue (.recsetReload a) (recsetReloadBody a) s
def execRecsetShape (a : Sel) (s : State) : Host.Outcome State Fault Refusal :=
  laneIssue (.recsetShape a) (recsetShapeBody a) s

/-! ### Tiles: PIN, UNPIN, RESQ, PREF (R216, R217, R224, R229) -/

/-- A lane's tile: its map entry's virtual and physical address, or nothing where the lane is clipped. -/
structure TileAcc where
  lane : Nat
  idx : Nat
  off : Nat
  dom : Nat
  rcd : Nat
  entry : Option (Nat × Nat)
  tlb : List TlbEntry
  load : Option RecEntry
  deriving DecidableEq, Repr, Inhabited

/-- The tile a lane names, through a paged record (R229); `wr` says that the entry is written. -/
def State.tileOf (s : State) (t : Nat) (wr : Bool) (q : LaneReq) : LaneFault ⊕ TileAcc :=
  let w := s.wg t
  let l := q.lane
  let fail (rank cause : Nat) (g : List Gran) : LaneFault ⊕ TileAcc := .inl ⟨l, rank, cause, q.idx, q.off, g⟩
  match (w.lane l).crew with
  | none => fail 0 0x6D []
  | some c =>
    let cr := w.crew c
    let super := match s.descUse w.core cr.domain with | some d => descSuper d | none => false
    match s.recGet w c q.idx (8 * l) with
    | .error (cause, g) => fail (if cause = 0x20 then 1 else xlRank cause) cause g
    | .ok (ws, ld) =>
      let r := recBits ws
      match recCheck { z := 1, paged := true } super cr.domain q.idx r with
      | some (rank, cause) => fail rank cause []
      | none =>
        if q.off ≥ rExtent r then .inr ⟨l, q.idx, q.off, cr.domain, r, none, [], ld⟩
        else
          let mv := mapVa r q.off
          let x := s.xlate w.core cr.domain wr cr.handler (8 * l + 5) [(mv, 8)]
          match worstGran (x.map (·.1)), x.filterMap (·.2.1) with
          | some cause, _ => fail (xlRank cause) cause (x.map (·.1))
          | none, [] => fail 7 0x27 []
          | none, p :: _ =>
            if p.ty ≠ 0 then fail 7 0x27 []
            else .inr ⟨l, q.idx, q.off, cr.domain, r, some (mv, p.pa), x.flatMap (·.2.2), ld⟩

/-- A tile access as the caches see it. -/
def TileAcc.asAcc (a : TileAcc) (st : Nat) (e : Nat) : LaneAcc :=
  { lane := a.lane, idx := a.idx, off := a.off, dom := a.dom, rcd := a.rcd, status := st, pieces := [], conv := []
    map := a.entry.map fun p => (p.1, p.2, BitVec.ofNat 64 e), tlb := a.tlb, load := a.load }

/-- The bytes of map entries, as an item's operation that only orders. -/
def tileTouch (as : List TileAcc) : FlightOp :=
  .atomic .cas .b64 none (as.filterMap fun a => a.entry.map fun p => { lane := a.lane, loc := .phys p.2, b := 0, c := 0 })

/-- The effect of PIN or UNPIN on an entry (R217): the new entry, or none for PIN_STATE. -/
def pinEntry (pin : Bool) (e : Nat) : Option Nat :=
  let st := bits e 0 3
  let n := bits e 4 12
  if pin then
    if st = 2 then some (putBits (putBits e 0 3 3) 4 12 1)
    else if st = 3 then (if n = 4095 then none else some (putBits e 4 12 (n + 1)))
    else some e
  else
    if st = 3 then some (if n = 1 then putBits (putBits e 0 3 2) 4 12 0 else putBits e 4 12 (n - 1)) else none

/-- Evaluate the lanes in order (R229): the state after them, each lane's status before its effect, and the lanes in
PIN_STATE. -/
def State.pinLanes (s : State) (core : Nat) (pin : Bool) (as : List TileAcc) : State × List (TileAcc × Nat × Nat) × List Nat :=
  overList as (s, [], []) fun acc a =>
    match a.entry with
    | none => (acc.1, acc.2.1 ++ [(a, 6, 0)], acc.2.2)
    | some (_, pa) =>
      let e := acc.1.rdNat pa 8
      match pinEntry pin e with
      | some v => (acc.1.physWrite (some core) pa (bytesOfNat 8 v), acc.2.1 ++ [(a, mapStatus e, e)], acc.2.2)
      | none => (acc.1, acc.2.1, acc.2.2 ++ [a.lane])

/-- What tile instructions share: the lanes' tiles, the order of what came before, held banks, and machine checks of the entries, which
are precise (DEDUCED, log 31). -/
def tileWith (wr : Bool) (rcd : RecRef) (off : Sel) (f : State → List TileAcc → Res) (e : Env) : Res :=
  match e.ls with
  | [] => .ok e.s []
  | _ => e.walked (fun s l => s.tableReads e.t { z := 1 } true (e.offReq rcd off l)) fun e =>
    let rs := (e.ls.map (e.offReq rcd off)).map (e.s.tileOf e.t wr)
    let fs := rs.filterMap fun r => match r with | .inl x => some x | .inr _ => none
    let as := rs.filterMap fun r => match r with | .inl _ => none | .inr a => some a
    match faultTrap e.fpc fs with
    | some q => .trap e.s q
    | none =>
      match e.settled .relaxed .device false (tileTouch as) with
      | .error r => r
      | .ok s1 =>
        match (as.filterMap (·.entry)).find? fun p => s1.held ⟨.phys p.2, 8⟩ with
        | some p => .park s1 (.bank (pchOf p.2)) e.run.pend
        | none =>
          match s1.mcTrap e.fpc (as.map fun a => (a.lane, a.entry.toList.map fun p => ⟨.phys p.2, 8⟩)) with
          | some q => .trap q.1 q.2
          | none => f s1 as

def pinRun (pin : Bool) (st : Option Sel) (e : Env) (s : State) (as : List TileAcc) : Res :=
  let r := s.pinLanes e.w.core pin as
  match r.2.2 with
  | l :: ls =>
    let bad := l :: ls
    .trap s {
      cause := 0x25, faulters := bad, fpc := e.fpc
      detail := fun k => match as.find? fun a => a.lane == k with
        | some a => BitVec.ofNat 32 a.idx :: twoWords a.off
        | none => [] }
  | [] =>
    let las := r.2.1.map fun x => x.1.asAcc x.2.1 x.2.2
    match s.requestHeld e.w.core las with
    | some g => .park s (.bank g) e.run.pend
    | none =>
    let s1 := (r.1.keepCaches e.w.core (las.map fun a => { a with map := none })).requests e.w.core las
    let s2 := match st with
      | some q => s1.updWg e.t fun w => w.writeSel s1.free q (statVals las)
      | none => s1
    .ok (s2.closeE e) []

def pinBody (rcd : RecRef) (off st : Sel) (e : Env) : Res := tileWith true rcd off (pinRun true (some st) e) e
def unpinBody (rcd : RecRef) (off : Sel) (e : Env) : Res := tileWith true rcd off (pinRun false none e) e

def execPin (sw : Bool) (rcd : RecRef) (off sr : Sel) (s : State) : Host.Outcome State Fault Refusal :=
  laneIssue (.pin sw rcd off sr) (pinBody rcd off sr) s
def execUnpin (sw : Bool) (rcd : RecRef) (off : Sel) (s : State) : Host.Outcome State Fault Refusal :=
  laneIssue (.unpin sw rcd off) (unpinBody rcd off) s

/-- RESQ: entries are read as a core uses them; function 1 requests the tiles that miss (R216). -/
def resqRun (fetch : Bool) (d : Sel) (st : Option Sel) (e : Env) (s : State) (as : List TileAcc) : Res :=
  let vs := as.filterMap fun a => a.entry.map fun p =>
    let m := s.mapUse e.w.core a.dom p.1 p.2
    a.asAcc (mapStatus m) m
  let entryOf (a : LaneAcc) : Nat := match a.map with | some m => m.2.2.toNat % 65536 | none => 0
  match (if fetch then s.requestHeld e.w.core vs else none) with
  | some g => .park s (.bank g) e.run.pend
  | none =>
  let s1 := s.keepCaches e.w.core vs
  let s2 := if fetch then s1.requests e.w.core vs else s1
  let s3 := s2.updWg e.t fun w =>
    let w1 := w.writeSel s2.free d (vs.map fun a => (a.lane, [BitVec.ofNat 32 (entryOf a)]))
    match st with
    | some q => w1.writeSel s2.free q (statVals vs)
    | none => w1
  .ok (s3.closeE e) []

def resqBody (fetch : Bool) (rcd : RecRef) (off d : Sel) (st : Option Sel) (e : Env) : Res :=
  tileWith fetch rcd off (resqRun fetch d st e) e

def execResq (nw sw : Bool) (rcd : RecRef) (off d : Sel) (sr : Option Sel) (s : State) : Host.Outcome State Fault Refusal :=
  laneIssue (.resq nw sw rcd off d sr) (resqBody false rcd off d sr) s
def execResqFetch (nw sw : Bool) (rcd : RecRef) (off d : Sel) (sr : Option Sel) (s : State) : Host.Outcome State Fault Refusal :=
  laneIssue (.resqFetch nw sw rcd off d sr) (resqBody true rcd off d sr) s

/-- The accesses of the lanes that would neither fault nor be clipped (R224). -/
def Env.prefAccs (e : Env) (rcd : RecRef) (off : Sel) : List LaneAcc :=
  ((e.ls.map (e.offReq rcd off)).filter (e.s.mapFine e.t)).filterMap fun q => match e.s.resolve e.t { z := 1 } true q with
    | .inl _ => none
    | .inr a => if a.isOk then some a else none

/-- What PREF translates, when it can (R224, spec/14 R338). -/
def Env.prefWalked (e : Env) (rcd : RecRef) (off : Sel) (k : Env → Res) : Res :=
  e.walked (fun s l => s.tableReads e.t { z := 1 } true (e.offReq rcd off l)) k

/-- PREF into the carve-out: the lines of the lanes that would neither fault nor be clipped (R224). -/
def prefL1Body (rcd : RecRef) (off : Sel) (e : Env) : Res :=
  e.prefWalked rcd off fun e =>
  let as := e.prefAccs rcd off
  let s1 := e.s.keepCaches e.w.core as
  let lines := (as.filter fun a => (loadLaneOf true a).l1).flatMap fun a => a.pieces.flatMap fun p => linesOf p.pa p.len
  let me := e.ls.map fun l => Agent.lane e.t l
  .ok (overList lines s1 fun s ln => if s.held ⟨.phys (64 * ln), 64⟩ then s else
    match s.seenBy me [⟨.phys (64 * ln), 64⟩] with
    | some s2 => s2.l1Fill e.t ln
    | none => s) []

/-- PREF into the L2, which the model keeps as the memory behind it. -/
def prefL2Body (rcd : RecRef) (off : Sel) (e : Env) : Res :=
  e.prefWalked rcd off fun e => .ok (e.s.keepCaches e.w.core (e.prefAccs rcd off)) []

/-- PREF as RESQ function 1 without a result: lanes that would fault are dropped. -/
def prefPageinBody (rcd : RecRef) (off : Sel) (e : Env) : Res :=
  e.prefWalked rcd off fun e =>
  let rs := ((e.ls.map (e.offReq rcd off)).filter (e.s.mapFine e.t)).map (e.s.tileOf e.t true)
  let vs := rs.filterMap fun r => match r with
    | .inl _ => none
    | .inr a => a.entry.map fun p =>
        let m := e.s.mapUse e.w.core a.dom p.1 p.2
        a.asAcc (mapStatus m) m
  match e.s.requestHeld e.w.core vs with
  | some g => .park e.s (.bank g) e.run.pend
  | none => .ok ((e.s.keepCaches e.w.core vs).requests e.w.core vs) []

def execPrefL1 (sw : Bool) (rcd : RecRef) (off : Sel) (s : State) : Host.Outcome State Fault Refusal :=
  laneIssue (.prefL1 sw rcd off) (prefL1Body rcd off) s
def execPrefL2 (sw : Bool) (rcd : RecRef) (off : Sel) (s : State) : Host.Outcome State Fault Refusal :=
  laneIssue (.prefL2 sw rcd off) (prefL2Body rcd off) s
def execPrefPagein (sw : Bool) (rcd : RecRef) (off : Sel) (s : State) : Host.Outcome State Fault Refusal :=
  laneIssue (.prefPagein sw rcd off) (prefPageinBody rcd off) s

end Sys2Proof.Machine
end

