-- ==== Sys2Proof/Machine/CrewOps.lean ====
section
/-! DEFINITION. JOIN, LEAVE, REGANG, YIELD and EXIT (spec/02 R33-R41). -/

namespace Sys2Proof.Machine

open Sys2Proof

/-- Lanes whose crew is inside a gate call. -/
def Env.inGate (e : Env) : List Nat := e.ls.filter fun l => (e.w.gateOf l).isSome

/-- Lanes of E in a crew leave it (R38, R39): departures are seen by barriers (spec/12 R286), their intervals end, and traps
whose handler they ran go on without them. -/
def Workgroup.leaveCrews (w : Workgroup) (ls : List Nat) : Workgroup :=
  let w0 := w.endInterval ls
  let w1 := overList (w.crewsOf ls) w0 fun w c => w.departures c (ls.filter fun l => (w.lane l).crew == some c)
  overList ls (w1.departTraps ls) fun w l => w.updLane l fun x => { x with crew := none }

/-! ### JOIN -/

/-- The crew that is forming for a tag, with its expected count (R36). -/
def Workgroup.formingFor (w : Workgroup) (tag : Word) : Option (Nat × Nat) :=
  w.crews.findSome? fun p => match p.2.forming with
    | some (t, n) => if t = tag then some (p.1, n) else none
    | none => none

/-- The lowest free crew identifier (R28). -/
def Workgroup.freeCrew (w : Workgroup) : Option Nat := (List.range 64).find? fun c => (w.crew c).held == false

/-- The lanes that wait in a forming crew. -/
def Workgroup.waiters (w : Workgroup) (c : Nat) : List Nat :=
  (w.lanes.filter fun p => p.2.live && (match p.2.joining with | some j => j.crew == c | none => false)).map (·.1)

/-- A lane waits in a forming crew, opened first if there is none. -/
def Workgroup.joinOne (w : Workgroup) (l : Nat) (tag : Word) (n : Nat) (j : Joining) : Option (Workgroup × Nat) :=
  match w.formingFor tag with
  | some (c, _) => some (w.updLane l fun x => { x with joining := some { j with crew := c } }, c)
  | none => match w.freeCrew with
    | none => none
    | some c => some ((w.updCrew c fun x => { (default : Crew) with
        held := true, forming := some (tag, n), domain := w.domain, flight := x.flight }).updLane l
        fun x => { x with joining := some { j with crew := c } }, c)

/-- Gangs of lanes that wait at a JOIN of their own, one for each issue of it: paths of one slice do not merge (R22). What is left of
a YIELD hold goes with them (R41). Past a segment's last word they stand at that word, which is no header (spec/03 R46). -/
def Workgroup.regroup (w : Workgroup) (ms : List (Nat × ClauseRun × Nat)) : Workgroup :=
  let keys := dedup (ms.map fun m => (homeOf m.1, m.2))
  overList keys w fun w k => w.addGang { (default : Gang) with
    hset := k.1, pc := (if k.2.1.next % 4096 = 0 then k.2.1.next - 4 else k.2.1.next), ages := List.replicate 8 0, hold := k.2.2
    mask := maskOfLanes ((ms.filter fun m => decide ((homeOf m.1, m.2) = k)).map (·.1)) }

/-- A forming crew seals when its count is reached (R36). -/
def Workgroup.sealCrew (w : Workgroup) (free c : Nat) : Workgroup :=
  let ms := w.waiters c
  match (w.crew c).forming with
  | none => w
  | some (_, n) =>
    if ms.length < n then w else
    let js := ms.filterMap fun l => (w.lane l).joining.map fun j => (l, j)
    let regs := match js with
      | (_, j) :: _ => if j.former.isSome then j.regs else []
      | [] => []
    let w1 := w.updCrew c fun x => { x with forming := none, s := regs }
    let w2 := overList js w1 fun w p =>
      let w' := w.updLane p.1 fun x => { x with crew := some c, joining := none }
      match p.2.d with
      | some r => w'.writeSel free r [(p.1, [BitVec.ofNat 32 c])]
      | none => w'
    (w2.layEdge ms).regroup (js.map fun p => (p.1, p.2.run, p.2.hold))

/-- The checks of JOIN for a lane in the replay; a lane that CREW_MISMATCH refuses neither opens nor fills a crew there (DEDUCED, log
68): the workgroup after it, lanes of CREW_MISMATCH, lanes of CREW_LIMIT. -/
def joinReplay (free : Nat) (acc : Workgroup × List Nat × List Nat) (x : Nat × Word × Nat) : Workgroup × List Nat × List Nat :=
  let (w, bad, lim) := acc
  let (l, tag, n) := x
  let differs : Bool := match w.formingFor tag with | some (_, m) => m != n | none => false
  if n < 1 ∨ n > 512 ∨ differs then (w, bad ++ [l], lim)
  else match w.joinOne l tag n default with
    | none => (w, bad, lim ++ [l])
    | some (w1, c) => (w1.sealCrew free c, bad, lim)

/-- True when every live lane of a workgroup waits in JOIN (R37). -/
def Workgroup.stalledInJoin (w : Workgroup) : Bool :=
  !w.liveLanes.isEmpty && w.liveLanes.all fun l => (w.lane l).joining.isSome

/-- CREW_STALL (R37): forming crews are discarded; the waiting lanes of each JOIN trap, in no crew, and resume at it. -/
def State.crewStall (s : State) (t : Nat) : State :=
  let w := s.wg t
  if w.stalledInJoin = false then s else
  let js := w.liveLanes.filterMap fun l => (w.lane l).joining.map fun j => (l, j.run)
  let w1 := overList w.liveLanes w fun w l => w.updLane l fun x => { x with joining := none }
  let kept := w1.crews.filter fun (p : Nat × Crew) => !p.2.forming.isSome
  let keys := dedup (js.map fun j => (homeOf j.1, j.2))
  overList keys (s.setWg t { w1 with crews := kept }) fun s k =>
    let ls := (js.filter fun j => decide ((homeOf j.1, j.2) = k)).map (·.1)
    s.startTrap t k.1 (maskOfLanes ls) (ls.map fun l => ⟨l, 1, k.2.at, some k.2⟩) { cause := 0x6B, faulters := ls, fpc := k.2.at }

/-- JOIN (R36): the gang's lanes of E wait; the others go on at the next clause. -/
def joinBody (nw : Bool) (d a b : Sel) (e : Env) : Res :=
  match e.inGate with
  | l :: ls => e.trap 0x7C (l :: ls)
  | [] =>
    let v (l : Nat) : Nat × Word × Nat :=
      let o := e.opds l [.int .u32 a, .int .u32 b] 0 0
      (l, (o.getD 0 0).setWidth 32, (o.getD 1 0).toNat)
    let xs := e.ls.map v
    match xs.foldl (joinReplay e.s.free) (e.w, [], []) with
    | (_, l :: ls, _) => e.trap 0x6E (l :: ls)
    | (_, [], l :: ls) => e.trap 0x6C (l :: ls)
    | (_, [], []) =>
      let regs (l : Nat) : SMap Word := match (e.w.lane l).crew with | some c => (e.w.crew c).sBefore | none => []
      let w1 := (e.w.closeRegion e.ls).leaveCrews e.ls
      let s2 := (e.s.setWg e.t (w1.dropLanes e.ls)).transfer e.t e.g.id e.run []
      let s3 := s2.updWg e.t fun w => xs.foldl (fun w x =>
        let (l, tag, n) := x
        let g : Gang := { e.g with clause := some e.run }
        let j : Joining := {
          crew := 0, former := (e.w.lane l).crew, regs := regs l, d := if nw then none else some d, run := e.run
          hold := g.holdAfter e.w.yhold.toNat }
        match w.joinOne l tag n j with
        | none => w
        | some (w', c) => w'.sealCrew e.s.free c) w
      .gone ((s3.endEmptyHandlers e.t).crewStall e.t)

def execJoin (nw : Bool) (d a b : Sel) (s : State) : Host.Outcome State Fault Refusal := laneIssue (.join nw d a b) (joinBody nw d a b) s

/-! ### LEAVE and EXIT -/

/-- LEAVE (R38). -/
def leaveBody (e : Env) : Res :=
  match e.crewless, e.inGate with
  | l :: ls, _ => e.trap 0x6D (l :: ls)
  | [], l :: ls => e.trap 0x7C (l :: ls)
  | [], [] =>
    let s1 := e.s.setWg e.t ((e.w.closeRegion e.ls).leaveCrews e.ls)
    .jump (s1.endEmptyHandlers e.t) []

def execLeave (s : State) : Host.Outcome State Fault Refusal := laneIssue .leave leaveBody s

/-- EXIT (R39): the lanes of E leave their crews and stop being live. -/
def exitBody (e : Env) : Res :=
  match e.inGate with
  | l :: ls => e.trap 0x7C (l :: ls)
  | [] =>
    let w1 := e.w.leaveCrews e.ls
    let s1 := (e.s.setWg e.t (w1.dropLanes e.ls)).transfer e.t e.g.id e.run []
    let s2 := s1.updWg e.t fun w => overList e.ls w fun w l => w.updLane l fun x => { x with live := false }
    .gone ((s2.endEmptyHandlers e.t).crewStall e.t)

def execExit (s : State) : Host.Outcome State Fault Refusal := laneIssue .exit exitBody s

/-! ### REGANG and YIELD -/

/-- The gangs of a home set that wait at a REGANG at address p. -/
def Workgroup.atRegang (w : Workgroup) (h p : Nat) : List Gang := w.gangs.filter fun g => g.regang && g.hset == h && g.pc == p + 4

/-- Gangs merge into one (R22): their lanes together, ages reset to zero, and no YIELD hold (DEDUCED, log 68). -/
def Workgroup.mergeGangs (w : Workgroup) (gs : List Gang) : Workgroup :=
  match gs with
  | [] => w
  | g :: _ => { w with gangs := (w.gangs.filter fun x => !(gs.any fun y => y.id == x.id)) ++
      [{ g with mask := gs.foldl (fun m x => m ||| x.mask) 0, ages := List.replicate 8 0, hold := 0, regang := false, cross := false }] }

/-- A REGANG window closes (R40): the waiting paths form one gang, which goes on after p, or falls past its segment there (spec/03
R46). -/
def State.closeWindow (s : State) (t h p : Nat) : State :=
  let gs := (s.wg t).atRegang h p
  let s1 := s.updWg t fun w =>
    let w1 := w.mergeGangs gs
    { w1 with windows := w1.windows.filter fun x => !(x.hset == h && x.pc == p) }
  match gs with
  | g :: _ => if (p + 4) % 4096 = 0 then (s1.updGang t g.id fun x => { x with pc := p }).fallTrap t g.id p else s1
  | [] => s1

/-- REGANG (R40): every lane of the issue mask waits at the address of the instruction, in the open window there, or in one it
opens. Where eight windows are open already it passes at once. -/
def regangBody (e : Env) : Res :=
  let p := e.fpc
  let mine := e.w.windows.any fun x => x.hset == e.g.hset && x.pc == p
  let count := (e.w.windows.filter fun x => x.hset == e.g.hset).length
  if mine = false ∧ count ≥ 8 then .gone (e.s.transfer e.t e.g.id e.run [])
  else
    let w1 := e.w.updGang e.g.id fun g =>
      { (if hYield e.run.hdr.toNat then g.yielded e.w.yhold.toNat else g) with
        clause := none, park := none, pc := e.run.next, regang := true, moved := true }
    .gone (e.s.setWg e.t (if mine then w1 else
      { w1 with windows := w1.windows ++ [{ hset := e.g.hset, pc := p, left := e.w.rgwin.toNat }] }))

def execRegang (s : State) : Host.Outcome State Fault Refusal := laneIssue .regang regangBody s

/-- YIELD (R41). -/
def yieldBody (e : Env) : Res :=
  .jump (e.s.updGang e.t e.g.id fun g => g.yielded e.w.yhold.toNat) []

def execYield (s : State) : Host.Outcome State Fault Refusal := laneIssue .yield yieldBody s

end Sys2Proof.Machine
end

