-- ==== Sys2Proof/Machine/Sweep.lean ====
section
/-! DEFINITION. Sweep instructions (spec/13 R316-R322): SWREG, SWDEREG, SWWAIT, SWPOS, SWFORCE. -/

namespace Sys2Proof.Machine

open Sys2Proof

/-- What the five instructions share (R316): the bank-direct record of the lowest lane of E, its checks, and BANK_BUSY. The
meaning is given the crew, the lowest lane and the pseudo-channel. A wait that has been accepted skips BANK_BUSY. -/
def sweepBody (r : Sel) (waiting : Bool) (f : Nat → Nat → Nat → Env → Res) (e : Env) : Res :=
  crewBody (fun c low =>
    let idx := (e.int32 low r 0 0).toNat % 256
    let det : List Word := [BitVec.ofNat 32 idx]
    let dom := (e.w.crew c).domain
    e.withRec c idx (fun _ _ => []) fun e =>
    match e.s.recGet e.w c idx 6 with
    | .error (cause, g) =>
      if cause = 0x20 then e.trap 0x20 e.ls det
      else .trap e.s ((faultTrap e.fpc (e.ls.map fun k => ⟨k, xlRank cause, cause, idx, 0, g⟩)).getD
        { cause := cause, faulters := e.ls, fpc := e.fpc })
    | .ok (ws, _) =>
      let x := recBits ws
      let super := match e.s.descUse e.w.core dom with | some d => descSuper d | none => false
      match recCheck { z := 1, bank := true } super dom idx x with
      | some (_, cause) => e.trap cause e.ls det
      | none =>
        if rKind x ≠ 5 then e.trap 0x21 e.ls det
        else
          let g := rAux x % 1024
          if waiting = false ∧ (e.s.pch g).heldByOther (e.t, c) then e.trap 0x90 e.ls
          else f c low g e) e

/-- Number of ACTIVE entries that cover a bank. -/
def Pch.activeOn (p : Pch) (b : Nat) : Nat :=
  ((List.range 32).filter fun i => (p.table.get i).state == 1 && bitAt (p.table.get i).mask b).length

def swregBody (d r : Sel) (i : Nat) (e : Env) : Res :=
  sweepBody r false (fun c low g e =>
    let img := e.regs low (.v i) 3 (popsIn [(r, 1)]) 4
    let dom := (e.w.crew c).domain
    let p := e.s.pch g
    let x : SweepEntry := { (default : SweepEntry) with
      img0 := img.getD 0 0, img1 := img.getD 1 0, img2 := img.getD 2 0, state := 1, domain := dom, ackn := p.n, reg := p.regs + 1 }
    if imageOk p x = false then e.trap 0x94 e.ls
    else match firstBelow 32 fun k => (p.table.get k).state == 0 with
      | none => e.trap 0x93 e.ls
      | some k =>
        if (List.range 16).any (fun b => bitAt x.mask b && decide (p.activeOn b ≥ 8)) then e.trap 0x93 e.ls
        else match e.settled .release .device false .fence with
          | .error q => q
          | .ok s1 => .ok ((((s1.updPch g fun q => { q with table := q.table.set k x, regs := q.regs + 1 }).putAll e d k).endE e).closeE e) []) e

/-- The entry that a sweep instruction names, when it is the crew's domain's (R322). -/
def Pch.entryOf (p : Pch) (dom i : Nat) : Option SweepEntry :=
  let x := p.table.get i
  if x.state = 0 ∨ x.domain ≠ dom then none else some x

/-- Entry index of the lowest lane. -/
def Env.entryIdx (e : Env) (low : Nat) (r x : Sel) : Nat := (e.int32 low x (popsIn [(r, 1)]) 4).toNat % 32

def swderegBody (r x : Sel) (e : Env) : Res :=
  sweepBody r false (fun c low g e =>
    let i := e.entryIdx low r x
    match (e.s.pch g).entryOf (e.w.crew c).domain i with
    | none => e.trap 0x93 e.ls
    | some _ =>
      match e.settled .release .device false .fence with
      | .error q => q
      | .ok s1 => .ok (((s1.freeEntry g i).endE e).closeE e) []) e

/-- The rows that a wait on an entry accepted now still has to see (R319). -/
def SweepEntry.waitRows (x : SweepEntry) : List Nat :=
  if x.state ≠ 1 then [] else if x.repeats then x.rows else x.rows.filter fun k => !x.applied.contains k

/-- Rows still to be seen by a wait in progress. -/
def Pend.sweeps : Pend → Option (List (Nat × List Nat))
  | .sweep es => some es
  | _ => Option.none

def swwaitBody (r : Sel) (x : Option Sel) (e : Env) : Res :=
  sweepBody r e.run.pend.sweeps.isSome (fun c low g e =>
    let p := e.s.pch g
    let dom := (e.w.crew c).domain
    let start : Option (List (Nat × List Nat)) :=
      match x with
      | some q =>
        let i := e.entryIdx low r q
        (p.entryOf dom i).map fun y => [(i, y.waitRows)]
      | none => some ((List.range 32).filterMap fun i =>
          match p.entryOf dom i with
          | some y => if y.state = 1 then some (i, y.waitRows) else none
          | none => none)
    let now : Option (List (Nat × List Nat)) :=
      match e.run.pend.sweeps with
      | some es => if x.isSome ∧ es = [] then none else some es
      | none => start
    match now with
    | none => e.trap 0x93 e.ls
    | some es =>
      if es.all fun y => y.2.isEmpty then .ok ((e.s.acquired e.t .acquire .device).endE e) []
      else .park e.s (.sweepWait g) (.sweep es)) e

def swposBody (d r : Sel) (e : Env) : Res :=
  sweepBody r false (fun _ _ g e => .ok (e.s.putAll e d ((e.s.pch g).n.toNat % 2 ^ 32)) []) e

/-- A number for a new forcing. -/
def Pch.freshForcing (p : Pch) : Nat := p.forcings.foldl (fun n f => max n (f.num + 1)) 0

def swforceBody (r x : Sel) (e : Env) : Res :=
  sweepBody r false (fun c low g e =>
    let i := e.entryIdx low r x
    match (e.s.pch g).entryOf (e.w.crew c).domain i with
    | none => e.trap 0x93 e.ls
    | some y =>
      if (e.s.pch g).ownedBy (e.t, c) then e.trap 0x92 e.ls
      else match e.settled .release .device false .fence with
        | .error q => q
        | .ok s1 =>
          let s2 := if y.state = 1 then s1.updPch g fun q => { q with forcings := q.forcings ++ [⟨q.freshForcing, i, y.waitRows⟩] } else s1
          .ok ((s2.endE e).closeE e) []) e

def execSwreg (d r : Sel) (i : Nat) (s : State) : Host.Outcome State Fault Refusal := laneIssue (.swreg d r i) (swregBody d r i) s
def execSwdereg (r e : Sel) (s : State) : Host.Outcome State Fault Refusal := laneIssue (.swdereg r e) (swderegBody r e) s
def execSwwait (r : Sel) (e : Option Sel) (s : State) : Host.Outcome State Fault Refusal := laneIssue (.swwait r e) (swwaitBody r e) s
def execSwpos (d r : Sel) (s : State) : Host.Outcome State Fault Refusal := laneIssue (.swpos d r) (swposBody d r) s
def execSwforce (r e : Sel) (s : State) : Host.Outcome State Fault Refusal := laneIssue (.swforce r e) (swforceBody r e) s

end Sys2Proof.Machine
end

