-- ==== Sys2Proof/Machine/Domain.lean ====
section
/-! DEFINITION. XLINV with its acknowledgements, and XLPROBE (spec/14 R339-R341). -/

namespace Sys2Proof.Machine

open Sys2Proof

/-! ### What an XLINV drops -/

/-- A cached entry's span contains an address: its page for a leaf, the span of its index otherwise. -/
def TlbEntry.covers (x : TlbEntry) (va : Nat) : Bool :=
  let e := x.pte.toNat
  let sz := if bitAt e 2 then max (levelShift x.level) (leafFrame e).1 else levelShift x.level
  va / 2 ^ sz == x.vpre * 2 ^ levelShift x.level / 2 ^ sz

def Shootdown.tlb (d : Shootdown) (x : TlbEntry) : Bool :=
  match d.fn with
  | 0 => x.domain == d.domain && x.covers d.va
  | 1 => x.domain == d.domain
  | 2 => false
  | _ => true

def Shootdown.map (d : Shootdown) (x : MapEntry) : Bool :=
  match d.fn with
  | 0 => false
  | 1 => x.domain == d.domain
  | 2 => x.domain == d.domain && x.va == d.va
  | _ => true

def Shootdown.desc (d : Shootdown) (x : DescEntry) : Bool := d.fn == 3 || (d.fn == 1 && x.domain == d.domain)

/-- Records of a callee domain; a node's table changes only at the events of spec/09 R197. -/
def Shootdown.record (d : Shootdown) (x : RecEntry) : Bool :=
  match x.key with
  | .node _ => false
  | .domain k => d.fn == 3 || (d.fn == 1 && k == d.domain)

/-- A core drops what an XLINV names (R340). -/
def Core.dropped (c : Core) (d : Shootdown) : Core :=
  { c with
    tlb := c.tlb.filter fun x => !d.tlb x
    maps := c.maps.filter fun x => !d.map x
    descs := c.descs.filter fun x => !d.desc x
    recs := c.recs.filter fun x => !d.record x }

/-- An access has used an item that is dropped. -/
def Shootdown.hits (d : Shootdown) (u : Used) : Bool :=
  u.tlb.any d.tlb || u.maps.any fun m => match d.fn with
    | 0 => false
    | 1 => m.1 == d.domain
    | 2 => m == (d.domain, d.va)
    | _ => true

/-- An item in flight has used an item that is dropped. -/
def Shootdown.holds (d : Shootdown) (c : Core) (i : FlightItem) : Bool :=
  !i.done && d.hits (match i.op with
    | .fetch _ k => (c.istore.get k).used
    | _ => i.used)

/-- A load in flight of an Apprentice has (R340). -/
def Shootdown.holdsAppr (d : Shootdown) (a : Apprentice) : Bool :=
  (a.ldLanes ++ a.queues.flatMap fun q => q.2.flatMap (·.lanes)).any fun x => d.hits x.used

/-- A core may acknowledge: every access it issued that used a dropped item has completed (R340). -/
def State.mayAck (s : State) (core : Nat) (d : Shootdown) : Bool :=
  ((s.core core).apprs.all fun a => !d.holdsAppr a.2) &&
  s.wgs.all fun p => p.2.core != core || p.2.items.all fun i => !d.holds (s.core core) i

/-- A core on which an XLINV has something to drop or to wait for. -/
def State.shootCores (s : State) (d : Shootdown) : List Nat :=
  (s.cores.filter fun p =>
    p.2.tlb.any d.tlb || p.2.maps.any d.map || p.2.descs.any d.desc || p.2.recs.any d.record || !s.mayAck p.1 d).map (·.1)

/-- SHOOTDOWN_ACK: a core drops what the oldest XLINV it owes an answer names, and acknowledges. -/
def execShootdownAck (core : Nat) (s : State) : Host.Outcome State Fault Refusal :=
  match s.shootdowns.find? fun d => d.waits.contains core && s.mayAck core d with
  | none => .fault .notEnabled
  | some d =>
    let s1 := s.updCore core fun c => c.dropped d
    let left := { d with waits := d.waits.filter (· != core) }
    .next { s1 with shootdowns := (s1.shootdowns.map fun x => if x.id = d.id then left else x).filter fun x => !x.waits.isEmpty }

/-! ### XLINV -/

/-- Free the sweep-table entries of domains whose descriptor counts as VALID = 0 (R334, R340). -/
def State.freeDead (s : State) (dead : Nat → Bool) : State :=
  overList (s.pchs.flatMap fun p => (p.2.table.filter fun e => e.2.state != 0 && dead e.2.domain).map fun e => (p.1, e.1)) s
    fun s x => s.freeEntry x.1 x.2

/-- XLINV (R340): `fn`, the address pair, the domain where one is named, whose descriptor the issuing core rereads (R333). -/
def xlinvBody (fn : Nat) (a : Option Nat) (dom : Option Sel) : Env → Res :=
  fun e => crewBody (fun c low =>
    let pair := match a with | some n => e.opd low (.pair (.v n)) 0 0 | none => 0
    let own := (e.w.crew c).domain
    let d := match dom with | some r => (e.int32 low r 0 4).toNat % 4096 | none => own
    -- whether the domain is a supervisor is asked where the instruction reaches beyond it, before it is accepted
    let asks : Bool := (decide (d ≠ own) || fn == 3) && (match e.run.pend with | .xlinv _ => false | _ => true)
    e.walked (fun s _ => if asks then s.descReads e.w.core own else []) fun e =>
    let super := match e.s.descUse e.w.core own with | some x => descSuper x | none => false
    if asks ∧ super = false then e.trap 0x77 e.ls
    else
      let dead (s : State) (k : Nat) : Bool := (fn == 3 || (fn == 1 && k == d)) && !descValid (s.descMem k)
      let reread (s : State) : State := if dom.isSome then s.descLoad e.w.core d else s
      let finish (s : State) : Res :=
        match (if dom.isSome then s.heldIn [⟨.phys (s.regs.domtab + 128 * d), 128⟩] else none) with
        | some g => .park s (.bank g) e.run.pend
        | none => .ok (((((reread s).freeDead (dead s)).acquired e.t .acquire .device).endE e).closeE e) []
      match e.run.pend with
      | .xlinv id => if e.s.shootdowns.any fun x => x.id == id then .park e.s (.xlinv id) e.run.pend else finish e.s
      | _ =>
        match e.settled .release .device false .fence with
        | .error r => r
        | .ok s1 =>
          let sd : Shootdown := { id := s1.nextShoot, fn := fn, domain := d, va := pair.toNat, waits := [] }
          match s1.shootCores sd with
          | [] => finish s1
          | cs =>
            let s2 : State := { s1 with shootdowns := s1.shootdowns ++ [{ sd with waits := cs }], nextShoot := s1.nextShoot + 1 }
            .park s2 (.xlinv sd.id) (.xlinv sd.id)) e

def execXlinvPage (a : Nat) (dom : Option Sel) (s : State) : Host.Outcome State Fault Refusal :=
  laneIssue (.xlinvPage a dom) (xlinvBody 0 (some a) dom) s
def execXlinvDomain (dom : Sel) (s : State) : Host.Outcome State Fault Refusal :=
  laneIssue (.xlinvDomain dom) (xlinvBody 1 none (some dom)) s
def execXlinvResidency (a : Nat) (dom : Option Sel) (s : State) : Host.Outcome State Fault Refusal :=
  laneIssue (.xlinvResidency a dom) (xlinvBody 2 (some a) dom) s
def execXlinvAll (s : State) : Host.Outcome State Fault Refusal := laneIssue .xlinvAll (xlinvBody 3 none none) s

/-! ### XLPROBE -/

/-- The pair that XLPROBE writes of a walk (R341). -/
def probeWords : Walk → List Word
  | .ok pa ty w sup lv sz _ =>
    [BitVec.ofNat 32 (ty * 8 + (if w then 32 else 0) + (if sup then 64 else 0) + lv * 128 + bits pa 12 20 * 4096),
     BitVec.ofNat 32 (bits pa 32 20 + sz * 2 ^ 20)]
  | .fail cause lv _ =>
    [BitVec.ofNat 32 ((match cause with | 0x30 => 1 | 0x33 => 2 | 0x34 => 3 | _ => 1) + lv * 128), 0]

/-- XLPROBE (R341): each lane under its crew's domain, or under the domain it names. -/
def xlprobeBody (d a : Nat) (dom : Option Sel) (e : Env) : Res :=
  match e.crewless with
  | l :: ls => e.trap 0x6D (l :: ls)
  | [] =>
    let own (l : Nat) : Nat := e.w.domOf l
    e.walked (fun s l => if dom.isSome then s.descReads e.w.core (own l) else []) fun e =>
    let super (l : Nat) : Bool := match e.s.descUse e.w.core (own l) with | some x => descSuper x | none => false
    match (if dom.isSome then e.ls.filter fun l => !super l else []) with
    | l :: ls => e.trap 0x77 (l :: ls)
    | [] =>
      let named (l : Nat) : Nat := match dom with | some r => (e.int32 l r 0 4).toNat % 4096 | none => own l
      let va (l : Nat) : Nat := (e.opd l (.pair (.v a)) 0 0).toNat
      e.walked (fun s l => s.walkReads e.w.core (named l) (va l) (8 * l)) fun e =>
      let one (l : Nat) : Nat × Nat × Walk × List TlbEntry := (l, named l, e.s.walk e.w.core (named l) false true (va l) (8 * l))
      let rs := e.ls.map one
      let s1 := overList rs e.s fun s r =>
        (s.descTake e.w.core r.2.1 (e.s.walkReads e.w.core r.2.1 (va r.1) (8 * r.1))).walkKeep e.w.core r.2.1 r.2.2
      .ok (s1.updWg e.t fun w => w.writeSel e.s.free (.v d) (rs.map fun r => (r.1, probeWords r.2.2.1))) []

def execXlprobe (d a : Nat) (dom : Option Sel) (s : State) : Host.Outcome State Fault Refusal :=
  laneIssue (.xlprobe d a dom) (xlprobeBody d a dom) s

end Sys2Proof.Machine
end

