-- ==== Sys2Proof/Machine/Control.lean ====
section
/-! DEFINITION. Control transfers (spec/04 R91-R94): BRA, CALL, JMPF, BRI, RET and NOP, for lanes and, where admitted, for
Apprentices (spec/17 R404). -/

namespace Sys2Proof.Machine

open Sys2Proof

/-- The lanes that a branch transfers (R93). -/
def Env.taken (e : Env) (p : Nat) (pn : Bool) : List Nat := e.ls.filter fun l => (e.w.lane l).pred p != pn

/-- Target of BRA and CALL (R93): the branch word's address plus four times the signed offset, in 18 bits. -/
def branchTarget (at_ : Nat) (off : BitVec 18) : Nat := (((at_ : Int) + 4 * signedOf 18 off.toNat) % 2 ^ 18).toNat

/-- A target that BRA and CALL may reach: bits [17:12] name the branch word's own segment (R93). -/
def sameSegment (at_ : Nat) (off : BitVec 18) : Bool := branchTarget at_ off / 4096 == at_ / 4096

/-- BRA and CALL; CALL writes o7 in the lanes it transfers. -/
def branchBody (link : Bool) (p : Nat) (pn : Bool) (off : BitVec 18) (e : Env) : Res :=
  match e.taken p pn with
  | [] => .jump e.s []
  | ts =>
    if sameSegment e.fpc off = false then e.trap 0x01 ts
    else
      let s1 := if link then
          e.s.updWg e.t fun w => w.writeSel e.s.free (.o 7) (ts.map fun l => (l, [BitVec.ofNat 32 (e.fpc + 4)]))
        else e.s
      .jump s1 (ts.map fun l => (l, branchTarget e.fpc off))

/-- An Apprentice ends (spec/17 R403, R404). -/
def State.apprEnd (s : State) (core u cause : Nat) : State :=
  s.updAppr core u fun a => { a with st := .ended, ecause := cause, clause := none, ld := none, ldLanes := [] }

/-- BRA of an Apprentice (spec/17 R404). -/
def braAppr (p : Nat) (pn : Bool) (off : BitVec 18) (s : State) (core u : Nat) (a : Apprentice) (r : ClauseRun) : ApprRes :=
  if r.exec = 0 ∨ (p == 0 || a.p.getLsbD p) = pn then .ok s none
  else if sameSegment r.at off = false then .wait (s.apprEnd core u 0x01)
  else .jump s (branchTarget r.at off)

def execBra (p : Nat) (pn : Bool) (off : BitVec 18) (s : State) : Host.Outcome State Fault Refusal :=
  bothIssue (.bra p pn off) (branchBody false p pn off) (braAppr p pn off) s

def execCall (p : Nat) (pn : Bool) (off : BitVec 18) (s : State) : Host.Outcome State Fault Refusal :=
  laneIssue (.call p pn off) (branchBody true p pn off) s

/-- JMPF (R93). Lanes of different domains may see a segment differently; where one finds it absent, all of T fault. -/
def jmpfBody (p : Nat) (pn : Bool) (seg word : Nat) (e : Env) : Res :=
  let ts := e.taken p pn
  if ts.all fun l => e.s.segLanded e.w (e.w.domOf l) seg then .jump e.s (ts.map fun l => (l, 4096 * seg + 4 * word))
  else e.trap 0xA0 ts

def execJmpf (p : Nat) (pn : Bool) (seg word : Nat) (s : State) : Host.Outcome State Fault Refusal :=
  laneIssue (.jmpf p pn seg word) (jmpfBody p pn seg word) s

/-- The first check that a lane's target fails (R94). -/
def Env.targetCause (e : Env) (l x : Nat) : Option Nat :=
  if x ≥ 2 ^ 18 ∨ x % 4 ≠ 0 then some 0x01
  else if e.s.segLanded e.w (e.w.domOf l) (x / 4096) = false then some 0xA0
  else if e.s.isHeader e.w (e.w.domOf l) x = false then some 0x01
  else none

/-- BRI and RET (R94): the lowest lane whose target fails decides the trap. -/
def indirectBody (r : Sel) (e : Env) : Res :=
  let ts := e.ls.map fun l => (l, (e.int32 l r 0 0).toNat)
  match ts.findSome? fun p => (e.targetCause p.1 p.2).map fun c => (p.2, c) with
  | none => .jump e.s ts
  | some (x, c) => .trap e.s { cause := c, faulters := (ts.filter fun p => p.2 == x).map (·.1), fpc := x }

def execBri (a : Sel) (s : State) : Host.Outcome State Fault Refusal := laneIssue (.bri a) (indirectBody a) s
def execRet (s : State) : Host.Outcome State Fault Refusal := laneIssue .ret (indirectBody (.o 7)) s

/-- NOP (R94). -/
def execNop (s : State) : Host.Outcome State Fault Refusal :=
  bothIssue .nop (fun e => .ok e.s []) (fun s _ _ _ _ => .ok s none) s

end Sys2Proof.Machine
end

