-- ==== Sys2Proof/Machine/Inference.lean ====
section
/-! DEFINITION. Apprentices and the Sorter (spec/17 R402-R412, R419-R423): ASTART, APUSH, LD and EXIT of Apprentice code, the
Apprentice's clause fetch and the completion of its loads; VGMV, VGRD, VGWAIT and the service of an entry. -/

namespace Sys2Proof.Machine

open Sys2Proof

/-! ### ASTART (R412) -/

/-- The lowest-numbered free Apprentice of a core (R402). -/
def Core.freeUnit (c : Core) : Option Nat := (List.range 4).find? fun u => (c.apprs.get u).st == .unbound

/-- Bind a unit to a crew and start it (R403). -/
def State.bindAppr (s : State) (t c u start : Nat) (w0 : Word) (pops discard : SMap Nat) : State :=
  (s.updCore (s.wg t).core fun k => { k with apprs := k.apprs.set u { (default : Apprentice) with
      wg := t, crew := c, st := .running, w := SMap.set [] 0 w0, pc := start, discard := discard } }).updWg t fun w =>
    w.updCrew c fun x => { x with appr := some { unit := some u, start := start, w0 := w0, pops := pops } }

def astartBody (d a b : Sel) (e : Env) : Res :=
  crewBody (fun c low =>
    let v := e.opds low [.int .u32 a, .int .u32 b] 0 0
    let x := (v.getD 0 0).toNat
    if (e.w.crew c).appr.isSome then e.trap 0x65 e.ls
    else if x ≥ 2 ^ 18 ∨ x % 4 ≠ 0 then e.trap 0x01 e.ls
    else match (e.s.core e.w.core).freeUnit with
      | none => .ok ((e.s.putAll e d 1).closeE e) []
      | some u => .ok (((e.s.bindAppr e.t c u x ((v.getD 1 0).setWidth 32) [] []).putAll e d 0).closeE e) []) e

def astartStopBody (d : Sel) (e : Env) : Res :=
  crewBody (fun c _ =>
    if (e.w.crew c).appr.isNone then e.trap 0x65 e.ls
    else .ok (((e.s.freeAppr e.t c).putAll e d 0).closeE e) []) e

def execAstart (d a b : Sel) (s : State) : Host.Outcome State Fault Refusal := laneIssue (.astart d a b) (astartBody d a b) s
def execAstartStop (d : Sel) (s : State) : Host.Outcome State Fault Refusal := laneIssue (.astartStop d) (astartStopBody d) s

/-! ### Speculative loads (R406) -/

/-- The number under which an access is made for a crew by no lane of it. -/
def crewLane : Nat := 1000

/-- The state as such an access resolves in it. -/
def State.asCrew (s : State) (t c : Nat) : State :=
  s.updWg t fun w => w.updLane crewLane fun _ => { (default : Lane) with live := true, crew := some c }

/-- What is read to translate an access of z bytes for a crew by no lane of it. -/
def State.crewReads (s : State) (t c z recd off : Nat) : List Span :=
  (s.asCrew t c).tableReads t { z := z } false { lane := crewLane, idx := recd, off := off }

/-- What a unit reads for a crew at crew scope: the homes take the stores first that the crew's lanes see as performed. -/
def State.crewSees (s : State) (t c : Nat) (xs : List Span) : State :=
  s.sendHome (s.passedAt [.lane t (((s.wg t).members c).headD 0)] xs)

/-- The state in which an access for a crew by no lane of it is translated: homes have taken the stores that it sees, the core the
descriptor that it needs (spec/14 R333, R338). -/
def State.crewReady (s : State) (t c : Nat) (xs : List Span) : State :=
  (s.crewSees t c xs).descTake (s.wg t).core ((s.wg t).crew c).domain xs

/-- One .b32 of a crew's Apprentice: the access, or none where it meets a problem. -/
def State.specOne (s : State) (t c recd off : Nat) : Option LaneAcc :=
  if (s.asCrew t c).mapFine t { lane := crewLane, idx := recd, off := off } = false then none else
  match (s.asCrew t c).resolve t { z := 4 } false { lane := crewLane, idx := recd, off := off } with
  | .inl _ => none
  | .inr a =>
    if (a.status ≠ 0 ∧ a.status ≠ 6) ∨ a.pieces.any (fun p => decide (p.ty ≥ 2)) ∨ (a.reads.2.any fun x => (s.mcOf x).isSome) ∨ rKind a.rcd = 3 ∨
        rSenc a.rcd ≠ 0 then none
    else some a

/-- The offsets of a load's elements. -/
def ApprLoad.offsets (l : ApprLoad) : List Nat := if l.vec then (List.range 32).map fun i => l.off + 4 * i else [l.off]

/-- The elements of a load, numbered as its lanes; none where any of them meets a problem. -/
def State.specLoad (s : State) (t c : Nat) (l : ApprLoad) : Option (List LaneAcc) :=
  let as := l.offsets.map (s.specOne t c l.recd)
  if as.any Option.isNone then none
  else some ((as.filterMap id).zipIdx.map fun p => { p.1 with lane := p.2 })

/-- What is read to translate a load. -/
def State.specReads (s : State) (t c : Nat) (l : ApprLoad) : List Span := l.offsets.flatMap (s.crewReads t c 4 l.recd)

/-- All-bank mode holds what is read to translate a load: its issue waits (spec/13 R324). -/
def State.specHeld (s : State) (t c : Nat) (l : ApprLoad) : Bool := (s.specReads t c l).any s.held

/-- A load is issued: the caches take what it used, and its reads are kept until they are performed. -/
def State.specIssue (s0 : State) (t c : Nat) (l : ApprLoad) : State × Option (List LoadLane) :=
  let s := s0.crewReady t c (s0.specReads t c l)
  match s.specLoad t c l with
  | none => (s, none)
  | some as => (s.keepCaches (s.wg t).core as, some (as.map fun a => { s.sworded a with used := usedOf [a] }))

/-! ### APUSH (R405, R412) -/

/-- Append an entry, which can be popped from the next cycle, or discard it after a restore (R410). -/
def State.push (s : State) (core u n : Nat) (x : ApprEntry) : State :=
  s.updAppr core u fun a =>
    if a.discard.get n > 0 then { a with discard := a.discard.set n (a.discard.get n - 1) }
    else { a with queues := a.queues.set n (a.queues.get n ++ [{ x with new := true }]) }

/-- An operand of an Apprentice as a number. -/
def State.apprNum (s : State) (a : Apprentice) (r : ClauseRun) (x : Sel) : Nat :=
  let w := s.wg a.wg
  (a.opd (w.crew a.crew).sBefore (w.members a.crew).length r.pos (.int .u32 x)).toNat % 2 ^ 32

/-- APUSH by an Apprentice: it stalls while the queue holds 16 entries, and while its load's translation is held. -/
def apushAppr (n : Nat) (held : State → Apprentice → ClauseRun → Bool) (mk : State → Apprentice → ClauseRun → State × ApprEntry)
    (s : State) (core u : Nat) (a : Apprentice) (r : ClauseRun) : ApprRes :=
  if r.exec = 0 then .ok s none
  else if a.discard.get n > 0 then .ok (s.push core u n default) none
  else if (a.queues.get n).length ≥ 16 ∨ held s a r then .wait s
  else
    let x := mk s a r
    .ok (x.1.push core u n x.2) none

/-- SYNC of an Apprentice's crew. -/
def State.syncOf (s : State) (a : Apprentice) : Word := ((s.wg a.wg).crew a.crew).sync

def apushValue (x : Sel) (s : State) (a : Apprentice) (r : ClauseRun) : State × ApprEntry :=
  (s, { (default : ApprEntry) with data := SMap.set [] 0 (BitVec.ofNat 32 (s.apprNum a r x)), sync := s.syncOf a })

/-- The load that an APUSH names. -/
def State.apushNames (s : State) (vec : Bool) (x b : Sel) (a : Apprentice) (r : ClauseRun) : ApprLoad :=
  { vec := vec, recd := s.apprNum a r b % 256, off := s.apprNum a r x }

def apushLoad (vec : Bool) (x b : Sel) (s : State) (a : Apprentice) (r : ClauseRun) : State × ApprEntry :=
  let l := s.apushNames vec x b a r
  let q := s.specIssue a.wg a.crew l
  (q.1, { (default : ApprEntry) with
    vec := vec, poison := q.2.isNone, pending := q.2.isSome, load := some l, sync := s.syncOf a, lanes := q.2.getD [] })

/-- APUSH in lane code (R411). -/
def apushLanes (e : Env) : Res :=
  match e.ls with
  | [] => .ok e.s []
  | ls => e.trap 0x65 ls

def execApush (n : Nat) (a : Sel) (s : State) : Host.Outcome State Fault Refusal :=
  bothIssue (.apush n a) apushLanes (apushAppr n (fun _ _ _ => false) (apushValue a)) s
def execApushVec (n : Nat) (a b : Sel) (s : State) : Host.Outcome State Fault Refusal :=
  bothIssue (.apushVec n a b) apushLanes (apushAppr n (fun s x r => s.specHeld x.wg x.crew (s.apushNames true a b x r)) (apushLoad true a b)) s
def execApushBcld (n : Nat) (a b : Sel) (s : State) : Host.Outcome State Fault Refusal :=
  bothIssue (.apushBcld n a b) apushLanes (apushAppr n (fun s x r => s.specHeld x.wg x.crew (s.apushNames false a b x r)) (apushLoad false a b))
    s

/-! ### LD and EXIT of Apprentice code (R404, R406) -/

/-- An instruction that only an Apprentice issues. -/
def apprOnly (i : Instr) (body : State → Nat → Nat → Apprentice → ClauseRun → ApprRes) (s : State) :
    Host.Outcome State Fault Refusal :=
  match s.agenda with
  | .appr core u :: rest => apprIssue i body { s with agenda := rest } core u
  | _ => .fault .noIssuer

/-- LD: its register is filled when the load completes; a problem stalls the Apprentice at it. -/
def ldAppr (d : Sel) (rcd : RecRef) (off : Sel) (s : State) (core u : Nat) (a : Apprentice) (r : ClauseRun) : ApprRes :=
  if r.exec = 0 then .ok s none else
  let idx := match rcd with | .imm n => n | .reg x => s.apprNum a r x % 256
  let l : ApprLoad := { vec := false, recd := idx, off := s.apprNum a r off }
  if s.specHeld a.wg a.crew l then .wait s else
  let q := s.specIssue a.wg a.crew l
  let reg := match d with | .v n => n | _ => 0
  .ok (q.1.updAppr core u fun x => { x with
    st := if q.2.isSome then .running else .stalled
    ld := some (reg, l), ldLanes := q.2.getD [] }) none

def execApprenticeLd (d : Sel) (rcd : RecRef) (off : Sel) (s : State) : Host.Outcome State Fault Refusal :=
  apprOnly (.apprenticeLd d rcd off) (ldAppr d rcd off) s

/-- EXIT of Apprentice code. -/
def exitAppr (s : State) (core u : Nat) (_ : Apprentice) (r : ClauseRun) : ApprRes :=
  if r.exec = 0 then .ok s none else .wait (s.apprEnd core u 0)

def execApprenticeExit (s : State) : Host.Outcome State Fault Refusal := apprOnly .apprenticeExit exitAppr s

/-! ### APPRENTICE_LOAD_COMPLETE -/

/-- A load that may be performed now: every byte's pseudo-channel is free, and no sweep entry holds it (spec/13 R315). -/
def State.lanesFree (s : State) (ls : List LoadLane) : Bool :=
  ls.all fun x => x.spans.all (fun p => !s.held p) && x.waits.all s.sweptDone

/-- The loads in flight of an Apprentice that may complete: the LD (none), or an entry by queue and place. -/
def State.apprLoads (s : State) (a : Apprentice) : List (Option (Nat × Nat)) :=
  (if a.st = .running ∧ a.ld.isSome ∧ s.lanesFree a.ldLanes then [none] else []) ++
  a.queues.flatMap fun q => (q.2.zipIdx.filter fun x => x.1.pending && s.lanesFree x.1.lanes).map fun x => some (q.1, x.2)

/-- The words of a load for a crew, by element. -/
def State.readLanes (s : State) (t c : Nat) (ls : List LoadLane) : State × SMap Word :=
  overList ls (s.crewSees t c (ls.flatMap fun x => if x.l1 then lineSpans x.spans else x.spans), []) fun acc x =>
    let r := acc.1.loadLane t x
    (r.1, SMap.set acc.2 x.lane (BitVec.ofNat 32 (natOfBytes r.2.1)))

/-- APPRENTICE_LOAD_COMPLETE: a load in flight is performed and fills its register or its entry. -/
def execApprenticeLoadComplete (core unit : Nat) (s : State) : Host.Outcome State Fault Refusal :=
  let a := (s.core core).apprs.get unit
  let cs := s.apprLoads a
  match cs[Config.choice s.free % cs.length]? with
  | none => .fault .notEnabled
  | some none =>
    let r := s.readLanes a.wg a.crew a.ldLanes
    .next ((r.1.updAppr core unit fun x => { x with
      w := (match x.ld with | some (d, _) => x.w.set d (r.2.get 0) | none => x.w)
      ld := none, ldLanes := [] }).spent s.free)
  | some (some (q, k)) =>
    let x := ((a.queues.get q)[k]?).getD default
    let r := s.readLanes a.wg a.crew x.lanes
    .next ((r.1.updAppr core unit fun y => { y with queues := y.queues.set q ((y.queues.get q).modify k fun z =>
      { z with data := r.2, pending := false, lanes := [] }) }).spent s.free)

/-! ### APPRENTICE_CLAUSE_FETCH (R404) -/

/-- APPRENTICE_CLAUSE_FETCH: the next clause is checked; a clause that fails ends the Apprentice with its ECAUSE. -/
def execApprenticeClauseFetch (core unit : Nat) (s : State) : Host.Outcome State Fault Refusal :=
  let a := (s.core core).apprs.get unit
  let w := s.wg a.wg
  let stop (c : Nat) : Host.Outcome State Fault Refusal := .next (s.apprEnd core unit c)
  if a.st ≠ .running ∨ a.ld.isSome ∨ a.clause.isSome then .fault .notEnabled
  else match w.slotOf (a.pc / 4096) with
    | none => stop 0xA0
    | some k =>
      if ((s.core core).istore.get k).st = .fetching then .fault .notEnabled
      else match s.segWords w (w.crew a.crew).domain (a.pc / 4096) with
        | none => stop 0xA0
        | some m =>
          if s.codeBroken core k then stop 0xB5 else
          let off := a.pc % 4096 / 4
          let h := (m.get off).toNat
          let ws := wordsFrom m (a.pc + 4) (hCount h)
          match apprClauseCheck h off ws with
          | some c => stop c
          | none =>
            let p := hPred h == 0 || a.p.getLsbD (hPred h)
            let run : ClauseRun := { (default : ClauseRun) with
              base := a.pc, hdr := BitVec.ofNat 32 h, words := ws.map fun x => BitVec.ofNat 32 x
              issue := 1, exec := if p != hNeg h then 1 else 0 }
            .next (s.updAppr core unit fun x => { x with clause := some run })

/-! ### The Sorter: VGMV, VGRD, VGWAIT (R420, R421, R423) -/

/-- The entries of a Sorter queue of a core. -/
def State.sorterQ (s : State) (core q : Nat) : List SorterEntry := (s.core core).sorter.get q

/-- A word laid out as in R189: cluster flag and address. -/
def addrWord (x : Nat) : Bool × Nat := (bitAt x 24, x % 2 ^ 24)

def vgmvBody (n : Nat) (a b c : Sel) (e : Env) : Res :=
  crewBody (fun cr low =>
    let j := popsIn [(a, 1)]
    let j2 := popsIn [(a, 1), (b, 1)]
    let pair := (e.opd low (.pair c) j2 8).toNat
    let act := pair % 2 ^ 32
    let idx := bits pair 32 8
    let wcol := bits pair 40 16
    let dom := (e.w.crew cr).domain
    let det : List Word := [BitVec.ofNat 32 idx]
    if wcol = 0 ∨ wcol > 65534 ∨ bits pair 56 8 ≠ 0 then e.trap 0x66 e.ls
    else
      let row (l : Nat) : Nat := (e.int32 l a 0 0).toNat
      let res (l : Nat) : Nat := (e.int32 l b j 4).toNat % 2 ^ 25
      e.withRec cr idx (fun _ _ => []) fun e =>
      match e.s.recGet e.w cr idx 6 with
      | .error (cause, g) =>
        .trap e.s ((faultTrap e.fpc (e.ls.map fun l => ⟨l, if cause = 0x20 then 1 else xlRank cause, cause, idx, 0, g⟩)).getD
          { cause := cause, faulters := e.ls, fpc := e.fpc })
      | .ok (ws, _) =>
        let x := recBits ws
        let super := match e.s.descUse e.w.core dom with | some y => descSuper y | none => false
        match recCheck { z := 2, noSenc := true } super dom idx x with
        | some (_, cause) => e.trap cause e.ls det
        | none =>
          if rKind x > 1 then e.trap 0x21 e.ls det
          else
            let (acl, aea) := addrWord (act % 2 ^ 25)
            let loc (l : Nat) : Option (Nat × Nat) := e.s.spadAt e.t l (addrWord (res l)).1 (addrWord (res l)).2 8
            let rdet (l : Nat) : List Word := spadDetail (addrWord (res l)).1 (res l)
            if aea % 4 ≠ 0 then e.trap 0x29 e.ls (spadDetail acl (act % 2 ^ 25))
            else match e.s.spadAt e.t low acl aea (4 * wcol) with
              | none => e.trap 0x28 e.ls (spadDetail acl (act % 2 ^ 25))
              | some (au, ao) =>
                match e.ls.filter fun l => res l % 8 ≠ 0 with
                | l :: ls => .trap e.s { cause := 0x29, faulters := l :: ls, fpc := e.fpc, detail := rdet }
                | [] =>
                  match e.ls.filter fun l => (loc l).isNone with
                  | l :: ls => .trap e.s { cause := 0x28, faulters := l :: ls, fpc := e.fpc, detail := rdet }
                  | [] =>
                    match e.ls.filter fun l => row l % 2 ≠ 0 with
                    | l :: ls => e.trap 0x22 (l :: ls) det
                    | [] =>
                      match e.full .dm with
                      | some p => .park e.s p e.run.pend
                      | none =>
                        if (e.s.sorterQ e.w.core n).length + e.ls.length > 64 then .park e.s (.sorterSpace n e.ls.length) e.run.pend
                        else
                          let id := e.s.nextItem e.t
                          let entry (l : Nat) : SorterEntry :=
                            let q := (loc l).getD (0, 0)
                            { item := id, wg := e.t, crew := cr, row := row l, result := .win q.1 q.2, act := .win au ao
                              recd := idx, wcol := wcol, domain := dom }
                          let s1 := e.s.updCore e.w.core fun k => { k with
                            sorter := k.sorter.set n (k.sorter.get n ++ e.ls.map entry) }
                          .ok ((s1.launch e.t e.ls (some .dm) .relaxed .crew false false (.sorter e.ls.length)).closeE e) []) e

def execVgmv (n : Nat) (a b c : Sel) (s : State) : Host.Outcome State Fault Refusal := laneIssue (.vgmv n a b c) (vgmvBody n a b c) s

/-- VGRD (R423). -/
def vgrdBody (n : Nat) (d : Sel) (e : Env) : Res :=
  crewBody (fun c _ =>
    let q := e.s.sorterQ e.w.core n
    let mine := (q.filter fun x => x.wg == e.t && x.crew == c).length
    .ok (e.s.putAll e d (64 - q.length + mine * 128 + q.length * 16384)) []) e

def execVgrd (n : Nat) (d : Sel) (s : State) : Host.Outcome State Fault Refusal := laneIssue (.vgrd n d) (vgrdBody n d) s

/-- VGWAIT (R423): the postings of the crew that stand in the queues when it first issues. -/
def vgwaitBody (n : Option Nat) (e : Env) : Res :=
  crewBody (fun c _ =>
    let qs := match n with | some k => [k] | none => List.range 8
    let there : List SorterEntry := qs.flatMap fun q => (e.s.sorterQ e.w.core q).filter fun x => x.wg == e.t && x.crew == c
    let items : List Nat := match e.run.pend with
      | .sorter l => l
      | _ => dedup (there.map (·.item))
    match items.filter fun i => there.any fun (x : SorterEntry) => x.item == i with
    | [] => .ok ((e.s.acquired e.t .acquire .cluster).endE e) []
    | l => .park e.s (.sorterDone l) (.sorter l)) e

def execVgwait (n : Option Nat) (s : State) : Host.Outcome State Fault Refusal := laneIssue (.vgwait n) (vgwaitBody n) s

/-! ### SORTER_ENTRY (R419, R420, R422) -/

/-- What the read of a half of an encoded row comes to: it waits, because its pseudo-channel is held (spec/13 R324) or a sweep entry
holds it (R315); it cannot be read; or its value. -/
inductive Half where
  | wait
  | bad
  | val (v : Nat)
  deriving DecidableEq, Repr

/-- A half of an encoded row, through the record of the poster's crew. -/
def State.rowHalf (s0 : State) (x : SorterEntry) (off : Nat) : State × Half :=
  let xs := s0.crewReads x.wg x.crew 2 x.recd off
  if xs.any s0.held then (s0, .wait) else
  let s := s0.crewReady x.wg x.crew xs
  if (s.asCrew x.wg x.crew).mapFine x.wg { lane := crewLane, idx := x.recd, off := off } = false then (s, .bad) else
  match (s.asCrew x.wg x.crew).resolve x.wg { z := 2 } false { lane := crewLane, idx := x.recd, off := off } with
  | .inl _ => (s, .bad)
  | .inr a =>
    if a.status ≠ 0 ∨ (a.reads.2.any fun x => (s.mcOf x).isSome) then (s, .bad)
    else if s.lanesFree [s.sworded a] = false then (s, .wait)
    else
      let r := ((s.keepCaches (s.wg x.wg).core [a]).crewSees x.wg x.crew (spansOf a.pieces)).loadLane x.wg (s.sworded a)
      (r.1, .val (natOfBytes r.2.1))

/-- A row as read: where the reading stands, the totals so far with their flags, positions listed, groups left, and whether an
activation has met an uncorrectable error. -/
structure RowState where
  s : State
  off : Nat
  total : Nat
  sum : Nat
  flags : FFlags
  pos : Nat
  listed : Nat
  value : Nat
  groups : Nat
  fault : Bool

/-- Where an activation lies. -/
def SorterEntry.actAt (x : SorterEntry) (p : Nat) : Span :=
  ⟨(match x.act with | .win t o => .win t (o + 4 * p) | .phys a => .phys (a + 4 * p)), 4⟩

/-- An activation. -/
def State.activation (s : State) (x : SorterEntry) (p : Nat) : Nat := natOfBytes (s.rdSpan (x.actAt p))

/-- The groups of a row (R419, R422): the total and its flags, or the status of the rejection. An error of an activation rejects the
row after the checks of its positions and their count; a half that cannot be read leaves none of these to be made. `inGroup` says that
the next half is a delta of its group. -/
def rowGroups (x : SorterEntry) (npos : Nat) : Nat → Bool → RowState → State × Option (Nat ⊕ (Nat × FFlags))
  | 0, _, r => (r.s, some (.inl 2))
  | fuel + 1, inGroup, r =>
    if inGroup = false then
      if r.groups = 0 then (r.s, some (if r.listed ≠ npos then .inl 2 else if r.fault then .inl 3 else .inr (r.total, r.flags)))
      else match r.s.rowHalf x r.off with
        | (s1, .wait) => (s1, none)
        | (s1, .bad) => (s1, some (.inl 3))
        | (s1, .val v) => rowGroups x npos fuel true { r with
            s := s1, off := r.off + 2, value := v, sum := 0x80000000, pos := 0, groups := r.groups - 1 }
    else match r.s.rowHalf x r.off with
      | (s1, .wait) => (s1, none)
      | (s1, .bad) => (s1, some (.inl 3))
      | (s1, .val 0xFFFF) =>
        let p := fp32.mul .rne (fp16.decode r.value) (fp32.decode r.sum)
        let t := fp32.add .rne (fp32.decode r.total) (fp32.decode p.bits)
        rowGroups x npos fuel false { r with s := s1, off := r.off + 2, total := t.bits, flags := r.flags ||| p.flags ||| t.flags }
      | (s1, .val dlt) =>
        let pos := r.pos + dlt
        if pos ≥ x.wcol ∨ r.listed ≥ npos then (s1, some (.inl 2))
        else
          let q := fp32.add .rne (fp32.decode r.sum) (fp32.decode (s1.activation x pos))
          rowGroups x npos fuel true { r with
            s := s1, off := r.off + 2, sum := q.bits, flags := r.flags ||| q.flags, pos := pos, listed := r.listed + 1
            fault := r.fault || (s1.mcOf (x.actAt pos)).isSome }

/-- A whole row; none while a half of it waits. -/
def State.sortRow (s : State) (x : SorterEntry) : State × Option (Nat ⊕ (Nat × FFlags)) :=
  match s.rowHalf x x.row with
  | (s1, .wait) => (s1, none)
  | (s1, .bad) => (s1, some (.inl 3))
  | (s1, .val d) =>
    if d > 64 then (s1, some (.inl 1))
    else match s1.rowHalf x (x.row + 2) with
      | (s2, .wait) => (s2, none)
      | (s2, .bad) => (s2, some (.inl 3))
      | (s2, .val z) =>
        if z ≠ 0 then (s2, some (.inl 2))
        else match s2.rowHalf x (x.row + 4) with
          | (s3, .wait) => (s3, none)
          | (s3, .bad) => (s3, some (.inl 3))
          | (s3, .val lo) => match s3.rowHalf x (x.row + 6) with
            | (s4, .wait) => (s4, none)
            | (s4, .bad) => (s4, some (.inl 3))
            | (s4, .val hi) =>
              let npos := lo + 65536 * hi
              rowGroups x npos (npos + 2 * d + 2) false
                { s := s4, off := x.row + 8, total := 0x80000000, sum := 0x80000000, flags := 0, pos := 0, listed := 0, value := 0
                  groups := d, fault := false }

/-- The queue that the Sorter serves next: the first at or after its turn that holds an entry (R420). -/
def Core.nextSorter (c : Core) : Option Nat :=
  ((List.range 8).map fun k => (c.sorterTurn + k) % 8).find? fun q => !(c.sorter.get q).isEmpty

/-- An item of a VGMV after one of its entries has written its result: counted complete after the last. -/
def Workgroup.sorterDone (w : Workgroup) (id : Nat) : Workgroup :=
  let dec (i : FlightItem) : FlightItem := match i.op with | .sorter n => { i with op := .sorter (n - 1) } | _ => i
  let w1 := w.updItem id dec
  if w1.items.any fun i => i.id == id && (match i.op with | .sorter 0 => true | _ => false) then w1.finishItem id else w1

/-- SORTER_ENTRY: the Sorter serves the head of the queue whose turn it is. -/
def execSorterEntry (core q : Nat) (s : State) : Host.Outcome State Fault Refusal :=
  if (s.core core).nextSorter ≠ some q then .fault .notEnabled
  else match s.sorterQ core q with
    | [] => .fault .notEnabled
    | x :: rest =>
      let r := s.sortRow x
      match r.2 with
      | none => .fault .notEnabled
      | some out =>
        let (total, st, fl) : Nat × Nat × FFlags := match out with
          | .inr (t, f) => (t, 0, f)
          | .inl e => (0, e, 0)
        let s1 := r.1.updCore core fun c => { c with sorter := c.sorter.set q rest, sorterTurn := (q + 1) % 8 }
        let s2 := s1.locStore x.wg x.crew x.result (bytesOfNat 4 total ++ bytesOfNat 4 st)
        let s3 := s2.updWg x.wg fun w => (w.sumUp fl 0 0).sorterDone x.item
        .next ((s3.settleForced x.wg x.crew).spent s.free)

end Sys2Proof.Machine
end

