-- ==== Sys2Proof/Machine/Matrix.lean ====
section
/-! DEFINITION. Matrix units and accumulator slots (spec/07): issue of the collective instructions, the finishing, waiting
and moving instructions, and the two events of the pipelines. -/

namespace Sys2Proof.Machine

open Sys2Proof

/-! ### Formats and operands (R146-R149) -/

/-- The combinations of R109: bytes per element and accumulator, for SCALE = 0 (`scaled = false`) or MMAX's row. -/
def matFmtOk (scaled : Bool) (x : Nat) : Bool :=
  let a := fmtA x
  let b := fmtB x
  let acc := fmtAcc x
  fmtOk x &&
  (if scaled then a == 4 && b == 4 && acc == 0 && fmtScale x == 1
   else fmtScale x == 0 && ((a == b && (a == 2 || a == 3 || a == 4) && acc == 0) || (a == 1 && b == 1 && acc == 1) ||
    ((a == 7 || a == 8) && (b == 7 || b == 8) && acc == 5)))

def accOf (x : Nat) : AccFmt := match fmtAcc x with | 0 => .fp32 | 1 => .fp64 | _ => .int32

def matFmt (x : Nat) : MatFmt :=
  { afmt := fmtA x, bfmt := fmtB x, acc := accOf x, round := fmtRound x, scale := fmtScale x == 1, sat := fmtSat x }

/-- Bytes of an element of an operand format. -/
def elemSize (fmt : Nat) : Nat := match fmt with | 1 => 8 | 2 => 2 | 3 => 2 | _ => 1

/-- Products per operation (R146). -/
def matK (fmt : Nat) : Nat := 32 / elemSize fmt

/-- Key of a quarter and of one of its slots. -/
def hqOf (h q : Nat) : Nat := 4 * h + q
def slotKey (h q c : Nat) : Nat := 16 * hqOf h q + c

/-- The quarters of a gang with a nonempty quarter mask, each with its lanes (R144). -/
def Env.quarters (e : Env) : List (Nat × List Nat) :=
  ((List.range 4).map fun q => (q, e.ls.filter fun l => posOf l / 8 == q)).filter fun p => p.2 != []

/-- The lines of a register operand (R147): silent lanes read as zero bytes. -/
def Env.regLines (e : Env) (q n i : Nat) (ms : List Nat) : List (List Byte) :=
  (List.range 8).map fun k =>
    let l := 32 * e.g.hset + 8 * q + k
    if ms.contains l then bytesLE (e.regs l (.v n) 8 0 i) else List.replicate 32 0

/-- The descriptor of a scratchpad operand: address and layout word of the crew of a lane (R148). -/
def Env.matDesc (e : Env) (l n : Nat) : Nat × Nat :=
  let c := e.w.crew ((e.crewOf l).getD 0)
  ((c.sRead n).toNat, (c.sRead (n + 1)).toNat)

def descOk (d : Nat × Nat) : Bool := bits d.1 0 4 == 0 && bits d.1 25 7 == 0 && bits d.2 27 5 == 0

/-- COLMAJ of a layout word. -/
def colMaj (d : Nat × Nat) : Bool := bitAt d.2 26

/-- The word addresses of each line of a scratchpad operand of quarter q (R149). -/
def spadLines (d : Nat × Nat) (q fmt : Nat) : List (List Nat) :=
  let base := bits d.1 0 24 + q * bits d.2 10 12 * 64
  let nl := if colMaj d then matK fmt else 8
  let w := if colMaj d then 2 * elemSize fmt else 8
  (List.range nl).map fun k => (List.range w).map fun j => base + k * bits d.2 0 10 * 16 + 4 * ((j + k * bits d.2 22 4) % w)

/-- Element (line i of the tile, index kk) of an operand's lines (R147, R149). -/
def matElem (lines : List (List Byte)) (col : Bool) (size i kk : Nat) : Nat :=
  if col then natOfBytes (((lines.getD kk []).drop (i * size)).take size)
  else natOfBytes (((lines.getD i []).drop (kk * size)).take size)

/-! ### The format vote and the tags (R152, R153) -/

/-- One quarter's part of a collective instruction. -/
structure QuarterIssue where
  q : Nat
  ms : List Nat
  fmt : Nat
  key : Nat
  hq : Nat
  deriving DecidableEq, Repr, Inhabited

/-- The quarters of an instruction on slot c, with the format words of their lowest lanes. -/
def Env.matQuarters (e : Env) (c : Nat) (words : List (Nat × Nat)) : List QuarterIssue :=
  e.quarters.map fun p =>
    { q := p.1, ms := p.2, fmt := ((words.find? fun w => some w.1 == p.2.head?).map (·.2)).getD 0
      key := slotKey e.g.hset p.1 c, hq := hqOf e.g.hset p.1 }

/-- The vote (R152) and the slot tags (R153); format words are compared within each quarter, whatever the crews, as R152 has it, where
spec/02 R29 names the crew (DEDUCED, log 16): the trap, if one stops the instruction. `refuse` is the tag's test. -/
def Env.matVote (e : Env) (scaled : Bool) (c : Nat) (words : List (Nat × Nat)) (refuse : Slot → Nat → Bool) : Option Res :=
  let qs := e.matQuarters c words
  let wordOf (l : Nat) : Nat := ((words.find? fun w => w.1 == l).map (·.2)).getD 0
  match words.filter fun w => !matFmtOk scaled w.2 with
  | w :: ws => some (e.trap 0x50 ((w :: ws).map (·.1)))
  | [] =>
    match qs.flatMap (fun x => x.ms.filter fun l => wordOf l != x.fmt) with
    | l :: ls => some (e.trap 0x51 (l :: ls) ((List.range 4).map fun q =>
        BitVec.ofNat 32 (((qs.find? fun x => x.q == q).map (·.fmt)).getD 0)))
    | [] =>
      match qs.filter fun x => refuse (e.w.slots.get x.key) x.fmt with
      | x :: xs => some (e.trap 0x52 ((x :: xs).flatMap (·.ms)))
      | [] => none

/-! ### Operand reads (R148, R149, R151) -/

/-- An operand of one quarter: its lines, how many are still to be read, COLMAJ, the scratchpad words it reads. -/
structure MatSource where
  lines : List (List Byte)
  left : Nat
  col : Bool
  cluster : Bool
  words : List (List Nat)
  word : Nat
  deriving DecidableEq, Repr, Inhabited

/-- An operand as a quarter finds it. -/
def Env.matSource (e : Env) (o : MOperand) (fmt i : Nat) (x : QuarterIssue) : MatSource :=
  match o with
  | .reg n => { lines := e.regLines x.q n i x.ms, left := 0, col := false, cluster := false, words := [], word := 0 }
  | .spad n =>
    let d := e.matDesc (x.ms.headD 0) n
    let ws := spadLines d x.q fmt
    { lines := ws.map fun w => List.replicate (4 * w.length) 0, left := ws.length, col := colMaj d, cluster := bitAt d.1 24
      words := ws, word := d.1 }

/-- True when an operand's descriptor breaks a "must be zero" (R148). -/
def Env.matBad (e : Env) (o : MOperand) (x : QuarterIssue) : Bool :=
  match o with
  | .reg _ => false
  | .spad n => !descOk (e.matDesc (x.ms.headD 0) n)

/-- The scratchpad accesses of an operand by the lowest lane of its quarter. -/
def State.matAccs (s : State) (t : Nat) (lane : Nat) (m : MatSource) : List SpadLoc :=
  m.words.flatten.filterMap fun ea => (s.spadAt t lane m.cluster ea 4).map fun p => ⟨lane, p.1, p.2⟩

/-- The line reads of an operand, as items of the flight. -/
def State.matReads (s : State) (t : Nat) (x : QuarterIssue) (opid : Nat) (isB : Bool) (m : MatSource) : List MatRead :=
  m.words.zipIdx.map fun p =>
    { hq := x.hq, opid := opid, isB := isB, line := p.2, lane := x.ms.headD 0
      spans := p.1.filterMap fun ea => (s.spadAt t (x.ms.headD 0) m.cluster ea 4).map fun q => ⟨.win q.1 q.2, 4⟩
      l1 := false }

/-- A quarter's operation about to be queued: its operands, scales, and, for MMAM, the reads of B's columns. -/
structure QueueReq where
  x : QuarterIssue
  a : MatSource
  b : MatSource
  sa : List Word
  sb : List Word
  columns : List (Nat × List Span × Bool)
  deriving Repr, Inhabited

/-- The range check of scratchpad operands (R149): SPAD_RANGE with the quarter masks as faulters. -/
def Env.matRange (e : Env) (rs : List QueueReq) : Option Res :=
  let out (r : QueueReq) (m : MatSource) : Bool :=
    m.words.flatten.any fun ea => (e.s.spadAt e.t (r.x.ms.headD 0) m.cluster ea 4).isNone
  let bad := rs.filter (fun r => out r r.a || out r r.b)
  let detail (l : Nat) : List Word :=
    match bad.find? fun r => r.x.ms.contains l with
    | some r => let m := if out r r.a then r.a else r.b
                spadDetail m.cluster m.word
    | none => []
  match bad with
  | [] => none
  | _ => some (.trap e.s { cause := 0x28, faulters := bad.flatMap (fun r => r.x.ms), fpc := e.fpc, detail := detail })

/-- Quarters whose operation queue is full (R146). -/
def Env.fullQueues (e : Env) : List Nat :=
  (e.quarters.filter fun p => decide ((e.w.mqueues.get (hqOf e.g.hset p.1)).length ≥ 8)).map (·.1)

/-- The changes of a slot at issue (R153, R154, R156, R160). ROUND is that of the last collective operation after the last MMAZ or
MACCWR; MMAZ itself leaves none (DEDUCED, log 16). -/
def Slot.issued (s : Slot) (k : MatKind) (f : MatFmt) : Slot :=
  let s1 := { s with owned := true, round := some f.round }
  match k with
  | .mmaz => { s1 with round := none, accf := f.acc, mode := .unscaled, bposIss := 0, poison := false }
  | .mmax => { s1 with mode := .scaled, bposIss := (s.bposIss + 32) % 128 }
  | .mmafin => { s1 with round := s.round, mode := .none, bposIss := 0 }
  | _ => { s1 with mode := .unscaled }

/-- Put an operation into its quarter's queue. -/
def Workgroup.queueOp (w : Workgroup) (hq key : Nat) (o : MatOp) : Workgroup :=
  { w with
    slots := w.slots.upd key fun s => s.issued o.kind o.fmt
    mqueues := w.mqueues.upd hq fun l => l ++ [{ o with
      spoiled := o.kind != .mmaz && (w.slots.get key).poison }] }

/-- The lowest lanes of the quarters that read an operand from local or from cluster scratchpad (R149, R151). -/
def operandLanes (rs : List QueueReq) (cl : Bool) : List Nat := (rs.filter fun r =>
  (r.a.words != [] && r.a.cluster == cl) || (r.b.words != [] && r.b.cluster == cl)).map fun r => r.x.ms.headD 0

/-- The lanes whose columns an instruction reads from device memory (R158). -/
def Env.columnLanes (e : Env) (rs : List QueueReq) : List Nat := if rs.any fun r => r.columns != [] then e.ls else []

/-- The scratchpad accesses of an instruction's operands. -/
def Env.operandAccs (e : Env) (rs : List QueueReq) : List SpadLoc :=
  rs.flatMap fun r => e.s.matAccs e.t (r.x.ms.headD 0) r.a ++ e.s.matAccs e.t (r.x.ms.headD 0) r.b

/-- Crews of lanes whose counter on a path is full (R151, spec/08 R177). -/
def Env.fullOn (e : Env) (p : Path) (ls : List Nat) : List (Path × Nat) :=
  ((e.w.crewsOf ls).filter fun k => decide ((e.w.crew k).count p ≥ 63)).map fun k => (p, k)

/-- The counters that keep an instruction's operand reads waiting. -/
def Env.fullCounters (e : Env) (rs : List QueueReq) : List (Path × Nat) :=
  e.fullOn .sp (operandLanes rs false) ++ e.fullOn .cl (operandLanes rs true) ++ e.fullOn .dm (e.columnLanes rs)

/-- A collective instruction that has passed its checks: race detection, counters, queues, items in flight. -/
def Env.matIssue (e : Env) (kind : MatKind) (c : Nat) (rs : List QueueReq) (tys : List Nat) (chk : Bool) (devRaces : List RaceAcc)
    (as : List LaneAcc := []) : Res :=
  match e.matRange rs with
  | some r => r
  | none =>
    match e.fullQueues with
    | q :: qs => .park e.s (.mqueue (q :: qs)) e.run.pend
    | [] =>
      let lanesBy := operandLanes rs
      let lanesDm := e.columnLanes rs
      match e.fullCounters rs with
      | (p, k) :: _ => .park e.s (.counter p [(k, 62)]) e.run.pend
      | [] =>
        match e.race false (e.s.spadRaces (e.operandAccs rs) 4 ++ devRaces) with
        | .error r => r
        | .ok s0 =>
          let first := e.w.nextOp
          let s1 := s0.updWg e.t fun w => overList rs.zipIdx { w with nextOp := first + rs.length } fun w p =>
            w.queueOp p.1.x.hq p.1.x.key { (default : MatOp) with
              id := first + p.2, kind := kind, slot := c, fmt := matFmt p.1.x.fmt, a := p.1.a.lines, b := p.1.b.lines
              aLeft := p.1.a.left, bLeft := p.1.b.left + p.1.columns.length, aCol := p.1.a.col, bCol := p.1.b.col, live := p.1.x.ms.map fun l => posOf l % 8
              sa := p.1.sa, sb := p.1.sb }
          let reads (cl : Bool) : List MatRead := rs.zipIdx.flatMap fun p =>
            (if p.1.a.cluster = cl then e.s.matReads e.t p.1.x (first + p.2) false p.1.a else []) ++
            (if p.1.b.cluster = cl then e.s.matReads e.t p.1.x (first + p.2) true p.1.b else [])
          let cols : List MatRead := rs.zipIdx.flatMap fun p => p.1.columns.map fun k =>
            { hq := p.1.x.hq, opid := first + p.2, isB := true, line := posOf k.1 % 8, lane := k.1, spans := k.2.1, l1 := k.2.2
              waits := (as.filter fun a => a.lane == k.1).flatMap (s0.accWaits false) }
          let launch (s : State) (p : Path) (ls : List Nat) (tys : List Nat) (r : List MatRead) : State :=
            if ls = [] ∨ r = [] then s else
            let (o, sc) := effective .relaxed .crew tys
            s.launch e.t ls (some p) o sc (tys.contains 2) (if p = .dm then chk else true) (.matread r) none
              (if p = .dm then usedOf as else {})
          let s2 := launch (launch (launch s1 .sp (lanesBy false) [] (reads false)) .cl (lanesBy true) [] (reads true))
            .dm lanesDm tys cols
          .ok ((if tys.contains 3 then s2.endE e else s2).closeE e) []

/-- Format words of the lanes of E. -/
def Env.fmtWords (e : Env) (fmt : Sel) : List (Nat × Nat) := e.ls.map fun l => (l, (e.int32 l fmt 0 0).toNat)

/-- R153 for MMA, MMAS and MMAM, and for MMAX. -/
def refuseMma (s : Slot) (f : Nat) : Bool := s.accf != accOf f || s.mode == .scaled
def refuseMmax (s : Slot) (_ : Nat) : Bool := s.accf != .fp32 || s.mode == .unscaled

/-- What the quarters of an instruction queue: the operands, and the rows of the scales where there are any (R157). -/
def Env.queueReqs (e : Env) (a b : MOperand) (fmt : Sel) (scales : List Sel) (qs : List QuarterIssue) : List QueueReq :=
  let sc (l k : Nat) : Word :=
    ((e.opds l (.int .u32 fmt :: scales.map fun r => .flt .f32 r) 0 0).getD (k + 1) 0).setWidth 32
  let row (x : QuarterIssue) (k : Nat) : List Word := (List.range 8).map fun i =>
    let l := 32 * e.g.hset + 8 * x.q + i
    if x.ms.contains l then sc l k else 0
  qs.map fun x =>
    { x := x, a := e.matSource a (fmtA x.fmt) 64 x, b := e.matSource b (fmtB x.fmt) 128 x
      sa := if scales.isEmpty then [] else row x 0, sb := if scales.isEmpty then [] else row x 1, columns := [] }

/-- The slot tags an operation refuses (R153). -/
def refuseOf : MatKind → Slot → Nat → Bool
  | .mmaz => fun _ _ => false
  | .mmax => refuseMmax
  | _ => refuseMma

/-- MMA, MMAS, MMAZ and MMAX (R156, R157): `scales` are the X operands, X1 and X2. -/
def matBody (kind : MatKind) (c : Nat) (a b : MOperand) (fmt : Sel) (scales : List Sel) (e : Env) : Res :=
  match e.ls with
  | [] => .ok e.s []
  | _ =>
    let words := e.fmtWords fmt
    match e.matVote (kind == .mmax) c words (refuseOf kind) with
    | some r => r
    | none =>
      let qs := e.matQuarters c words
      match qs.filter fun x => e.matBad a x || e.matBad b x with
      | x :: xs => e.trap 0x53 ((x :: xs).flatMap (·.ms))
      | [] => e.matIssue kind c (e.queueReqs a b fmt scales qs) [] false []

def execMma (acc : Nat) (a b : MOperand) (fmt : Sel) (s : State) : Host.Outcome State Fault Refusal :=
  laneIssue (.mma acc a b fmt) (matBody .mma acc a b fmt []) s
def execMmas (acc : Nat) (a b : MOperand) (fmt : Sel) (s : State) : Host.Outcome State Fault Refusal :=
  laneIssue (.mmas acc a b fmt) (matBody .mmas acc a b fmt []) s
def execMmaz (acc : Nat) (a b : MOperand) (fmt : Sel) (s : State) : Host.Outcome State Fault Refusal :=
  laneIssue (.mmaz acc a b fmt) (matBody .mmaz acc a b fmt []) s
def execMmax (acc : Nat) (a b : MOperand) (fmt x1 x2 : Sel) (s : State) : Host.Outcome State Fault Refusal :=
  laneIssue (.mmax acc a b fmt x1 x2) (matBody .mmax acc a b fmt [x1, x2]) s

/-! ### MMAM (R158) -/

def colSpec : AccSpec := { z := 16, column := true }

/-- The requests of one lane's column: two runs of 16 bytes, the largest access R207 lets a lane make (DESIGN CHOICE, log 69: R158
gives no size). -/
def columnReqs (rcd : Nat) (l off : Nat) : List LaneReq := [⟨l, rcd, off, false⟩, ⟨l, rcd, off + 16, false⟩]

/-- A column's bytes: spans of its parts. A part that stops short of its 16 bytes ends the column within the extent. -/
def columnOf (as : List LaneAcc) (l : Nat) : List Span :=
  (as.filter fun a => a.lane == l).flatMap fun a => spansOf a.pieces

/-- Lines of a column that the carve-out may serve. -/
def columnNormal (as : List LaneAcc) (l : Nat) : Bool :=
  (as.filter fun a => a.lane == l).all fun a => (loadLaneOf (!rSword a.rcd) a).l1

/-- What the quarters of an MMAM queue: A as an operand, B as columns still to be read. -/
def Env.columnReqsOf (e : Env) (a : MOperand) (qs : List QuarterIssue) (as : List LaneAcc) : List QueueReq :=
  qs.map fun x =>
    { x := x, a := e.matSource a (fmtA x.fmt) 64 x
      b := { lines := List.replicate 8 (List.replicate 32 0), left := 0, col := false, cluster := false, words := [], word := 0 }
      sa := [], sb := [], columns := x.ms.map fun l => (l, columnOf as l, columnNormal as l) }

def mmamBody (c : Nat) (a : MOperand) (fmt x1 : Sel) (rcd : Nat) (e : Env) : Res :=
  match e.ls with
  | [] => .ok e.s []
  | _ =>
    let words := e.fmtWords fmt
    match e.matVote false c words refuseMma with
    | some r => r
    | none =>
      let qs := e.matQuarters c words
      match qs.filter fun x => e.matBad a x with
      | x :: xs => e.trap 0x53 ((x :: xs).flatMap (·.ms))
      | [] =>
        let off (l : Nat) : Nat := ((e.opds l [.int .u32 fmt, .int .u32 x1] 0 0).getD 1 0).toNat
        match e.s.access e.t e.fpc e.run.pend colSpec true false (e.ls.flatMap fun l => columnReqs rcd l (off l)) with
        | .trap s q => .trap s { q with faulters := sortNat (dedup q.faulters) }
        | .park s p pd => .park s p pd
        | .ok s1 as =>
          let e1 := { e with s := s1 }
          let tys := typesOf as
          e1.matIssue .mmam c (e1.columnReqsOf a qs as) tys (as.any fun k => !(raceAccs k).isEmpty) (as.flatMap raceAccs) as

def execMmam (acc : Nat) (a : MOperand) (fmt x1 : Sel) (rcd : Nat) (s : State) : Host.Outcome State Fault Refusal :=
  laneIssue (.mmam acc a fmt x1 rcd) (mmamBody acc a fmt x1 rcd) s

/-! ### MMAFIN, MXWAIT (R160, R161) -/

def mmafinBody (c : Nat) (e : Env) : Res :=
  match e.fullQueues with
  | q :: qs => .park e.s (.mqueue (q :: qs)) e.run.pend
  | [] =>
    let qs := e.quarters
    let first := e.w.nextOp
    .ok ((e.s.updWg e.t fun w => overList qs.zipIdx { w with nextOp := first + qs.length } fun w p =>
      let sl := w.slots.get (slotKey e.g.hset p.1.1 c)
      w.queueOp (hqOf e.g.hset p.1.1) (slotKey e.g.hset p.1.1 c) { (default : MatOp) with
        id := first + p.2, kind := .mmafin, slot := c
        fmt := { (default : MatFmt) with acc := sl.accf, round := sl.round.getD .rne } }).closeE e) []

def execMmafin (slot : Nat) (s : State) : Host.Outcome State Fault Refusal := laneIssue (.mmafin slot) (mmafinBody slot) s

/-- The slots an MXWAIT names. -/
def waitSlots : Option Nat → List Nat
  | some c => [c]
  | none => List.range 16

/-- Operations of the named slots that are queued in the quarters of E: (quarter key, operation). -/
def Env.outstanding (e : Env) (cs : List Nat) : List (Nat × Nat) :=
  e.quarters.flatMap fun p =>
    ((e.w.mqueues.get (hqOf e.g.hset p.1)).filter fun o => cs.contains o.slot).map fun o => (hqOf e.g.hset p.1, o.id)

/-- Of operations waited for, those still queued. -/
def Workgroup.stillQueued (w : Workgroup) (ops : List (Nat × Nat)) : List (Nat × Nat) :=
  ops.filter fun p => (w.mqueues.get p.1).any fun o => o.id == p.2

def mxwaitBody (slot : Option Nat) (e : Env) : Res :=
  let cs := waitSlots slot
  let ops := match e.run.pend with
    | .mx l => l
    | _ => e.outstanding cs
  match e.w.stillQueued ops with
  | [] =>
    .ok (e.s.updWg e.t fun w => overList e.quarters w fun w p => overList cs w fun w c =>
      { w with slots := w.slots.upd (slotKey e.g.hset p.1 c) fun x => { x with owned := false } }) []
  | l => .park e.s (.mxwait l) (.mx ops)

def execMxwait (slot : Option Nat) (s : State) : Host.Outcome State Fault Refusal := laneIssue (.mxwait slot) (mxwaitBody slot) s

/-! ### MACCRD, MACCWR (R162) -/

def Slot.chain (s : Slot) : Chain → SMap Dword
  | .e => s.e
  | .o => s.o

/-- The registers of the row of lane position i of a chain. -/
def rowWords (f : AccFmt) (m : SMap Dword) (i : Nat) : List Word :=
  (List.range 8).flatMap fun n =>
    let v := m.get (8 * i + n)
    if f = .fp64 then [v.setWidth 32, (v >>> 32).setWidth 32] else [v.setWidth 32]

def maccrdBody (f : AccFmt) (c : Nat) (ch : Chain) (d : Nat) (e : Env) : Res :=
  let slotAt (q : Nat) : Slot := e.w.slots.get (slotKey e.g.hset q c)
  let torn (p : Nat × List Nat) : Bool := e.s.damage.contains (.slot e.t (slotKey e.g.hset p.1 c))
  match e.quarters.filter fun p => (slotAt p.1).accf != f with
  | p :: ps => e.trap 0x52 ((p :: ps).flatMap (·.2))
  | [] =>
  match e.quarters.filter torn with
  | p :: ps => .trap (e.s.logMc 0xB1 3 0) {
      cause := 0xB1, faulters := (p :: ps).flatMap (·.2), fpc := e.fpc, detail := fun _ => mcDetail 3 0 }
  | [] =>
    let vals := e.ls.map fun l =>
      let s := slotAt (posOf l / 8)
      (l, if s.owned || s.poison then
          (List.range (accSpan f)).map fun k => (Config.freeWord (e.s.free + 16 * l + k)).setWidth 32
        else rowWords f (s.chain ch) (posOf l % 8))
    .ok (e.s.updWg e.t fun w => w.writeSel e.s.free (.v d) vals) []

def execMaccrd (f : AccFmt) (slot : Nat) (ch : Chain) (d : Nat) (s : State) : Host.Outcome State Fault Refusal :=
  laneIssue (.maccrd f slot ch d) (maccrdBody f slot ch d) s

/-- Write rows into a chain: (lane position, its registers). -/
def writeRows (f : AccFmt) (m : SMap Dword) (rows : List (Nat × List Word)) : SMap Dword :=
  overList rows m fun m r => overList (List.range 8) m fun m n =>
    m.set (8 * r.1 + n) (if f = .fp64 then (r.2.getD (2 * n + 1) 0) ++ (r.2.getD (2 * n) 0) else (r.2.getD n 0).setWidth 64)

/-- A write of an accumulator slot in which an uncorrectable error stands is lost; the crews of its lanes have the machine check at
their next issue (spec/15 R358). -/
def State.slotCheck (s : State) (t : Nat) (ls : List Nat) : State :=
  overList ((s.wg t).crewsOf ls) s fun s c => s.mcLater t c (0xB1, 3, 0)

/-- MACCWR on a FREE slot, which also ends what an earlier MACCWR made unpredictable (R154, R162). -/
def Slot.written (s : Slot) (f : AccFmt) (ch : Chain) (rows : List (Nat × List Word)) : Slot :=
  let s1 := if f = s.accf then s else { s with e := [], o := [] }
  let s2 := match ch with
    | .e => { s1 with e := writeRows f s1.e rows }
    | .o => { s1 with o := writeRows f s1.o rows }
  { s2 with
    accf := f, mode := .none, k := 0, j := 0, round := none, poison := false
    bpos := 0, bsum := [], bnan := [], sa := [], sb := [] }

/-- A slot whose contents have become unpredictable (R154): free values in both chains and in BSUM. -/
def Slot.spoil (s : Slot) (f : AccFmt) (free : Nat) : Slot :=
  let any (k : Nat) : Dword := if s.accf = .fp64 ∨ f = .fp64 then Config.freeWord (free + k) else (Config.freeWord (free + k)).setWidth 32 |>.setWidth 64
  { s with
    e := SMap.ofList ((List.range 64).map any)
    o := SMap.ofList ((List.range 64).map fun k => any (64 + k))
    bsum := SMap.ofList ((List.range 64).map fun k => (Config.freeWord (free + 128 + k)).toInt)
    accf := f, mode := .none, k := 0, j := 0, round := none, poison := true }

def maccwrBody (f : AccFmt) (c : Nat) (ch : Chain) (a : Option Nat) (e : Env) : Res :=
  let key (q : Nat) : Nat := slotKey e.g.hset q c
  match e.quarters.filter fun p => (e.w.slots.get (key p.1)).bposIss != 0 with
  | p :: ps => e.trap 0x52 ((p :: ps).flatMap (·.2))
  | [] =>
    let row (l : Nat) : Nat × List Word :=
      (posOf l % 8, match a with | some n => e.regs l (.v n) (accSpan f) 0 0 | none => List.replicate 16 0)
    let torn := e.quarters.filter fun p => e.s.damage.contains (.slot e.t (key p.1))
    let s0 := e.s.slotCheck e.t (torn.flatMap (·.2))
    .ok ((s0.updWg e.t fun w => overList (e.quarters.filter fun p => !torn.contains p) w fun w p =>
      let sl := w.slots.get (key p.1)
      if sl.owned then
        { w with
          slots := w.slots.set (key p.1) (sl.spoil f (e.s.free + 256 * p.1))
          mqueues := w.mqueues.upd (hqOf e.g.hset p.1) fun l => l.map fun o => if o.slot = c then { o with spoiled := true } else o }
      else { w with slots := w.slots.set (key p.1) (sl.written f ch (p.2.map row)) }).closeE e) []

def execMaccwr (f : AccFmt) (slot : Nat) (ch : Chain) (a : Option Nat) (s : State) : Host.Outcome State Fault Refusal :=
  laneIssue (.maccwr f slot ch a) (maccwrBody f slot ch a) s

/-! ### MTRANS (R163) -/

/-- Element width of MTRANS. -/
def transBits : TransWidth → Nat
  | .b8 => 8 | .b16 => 16 | .b32 => 32 | .b64 => 64

def mtransBody (tw : TransWidth) (d a : Nat) (e : Env) : Res :=
  let n := transSpan tw
  let b := transBits tw
  let row (l : Nat) : Nat := packElems 32 ((e.regs l (.v a) n 0 0).map BitVec.toNat)
  let vals := e.ls.map fun l =>
    let q := posOf l / 8
    let x := packElems b ((List.range 8).map fun j =>
      let k := 32 * e.g.hset + 8 * q + j
      if e.ls.contains k then elemAt b (row k) (posOf l % 8) else 0)
    (l, (List.range n).map fun k => BitVec.ofNat 32 (bits x (32 * k) 32))
  .ok (e.s.updWg e.t fun w => w.writeSel e.s.free (.v d) vals) []

def execMtrans (w : TransWidth) (nw : Bool) (d a : Nat) (s : State) : Host.Outcome State Fault Refusal :=
  laneIssue (.mtrans w nw d a) (mtransBody w d a) s

/-! ### Completion (spec/05 R111-R113) -/

/-- The value of an element of an operand format. -/
def matVal (fmt x : Nat) : FVal :=
  match fmt with
  | 1 => fp64.decode x
  | 2 => fp16.decode x
  | 3 => bf16.decode x
  | _ => e4m3.decode x

/-- The integer of an element of INT8 or UINT8. -/
def matInt (fmt x : Nat) : Int := if fmt = 7 then signedOf 8 x else ((x % 256 : Nat) : Int)

/-- Accumulator format as a floating-point format. -/
def accFFmt : AccFmt → FFmt
  | .fp64 => fp64
  | _ => fp32

/-- One step of a chain (R111): chain + p, rounded once; the chain is the first operand. -/
def chainStep (f : FFmt) (mode : Rounding) (e : Nat) (p : FVal × FFlags) : Nat × FFlags :=
  let r := f.add mode (f.decode e) p.1
  (r.bits, r.flags ||| p.2)

/-- A product, negated by MMAS unless it is a NaN (R156). -/
def matProd (neg : Bool) (a b : FVal) : FVal × FFlags :=
  let p := scaledVal a b
  (if neg then p.1.negate else p.1, p.2)

/-- Add a product to an integer chain (R112): the new value and the clamps. -/
def intStep (sat : Bool) (e p : Int) : Int × Nat :=
  let s := e + p
  if sat then
    if s < -(2 ^ 31) then (-(2 ^ 31), 1) else if s > 2 ^ 31 - 1 then (2 ^ 31 - 1, 1) else (s, 0)
  else (signedOf 32 (patOf 32 s), 0)

/-- What the work on one element gives: both chains, flags, clamps. -/
structure ElemAcc where
  e : Nat
  o : Nat
  flags : FFlags
  sat : Nat

/-- The products of one element in ascending k from index k0 (R111, R112). -/
def accumulate (f : MatFmt) (neg : Bool) (k0 : Nat) (ab : List (Nat × Nat)) (x : ElemAcc) : ElemAcc :=
  overList ab.zipIdx x fun x p =>
    if f.acc = .int32 then
      let v := matInt f.afmt p.1.1 * matInt f.bfmt p.1.2
      let r := intStep f.sat (signedOf 32 x.e) (if neg then -v else v)
      { x with e := patOf 32 r.1, sat := x.sat + r.2 }
    else
      let pr := matProd neg (matVal f.afmt p.1.1) (matVal f.bfmt p.1.2)
      if (k0 + p.2) % 2 = 0 then
        let r := chainStep (accFFmt f.acc) f.round x.e pr
        { x with e := r.1, flags := x.flags ||| r.2 }
      else
        let r := chainStep (accFFmt f.acc) f.round x.o pr
        { x with o := r.1, flags := x.flags ||| r.2 }

/-- Apply work to the 64 elements of a slot. -/
def Slot.overElems (s : Slot) (g : Nat → Nat → ElemAcc → ElemAcc) : Slot × FFlags × Nat :=
  overList (List.range 64) (s, 0, 0) fun acc k =>
    let x := g (k / 8) (k % 8) { e := (acc.1.e.get k).toNat, o := (acc.1.o.get k).toNat, flags := 0, sat := 0 }
    ({ acc.1 with e := acc.1.e.set k (BitVec.ofNat 64 x.e), o := acc.1.o.set k (BitVec.ofNat 64 x.o) },
      acc.2.1 ||| x.flags, acc.2.2 + x.sat)

/-- The pairs of operand elements of element (i, n): column n of B is zero where lane n is silent, wherever B comes from (R156). -/
def MatOp.pairs (o : MatOp) (i n : Nat) : List (Nat × Nat) :=
  (List.range (matK o.fmt.afmt)).map fun kk =>
    (matElem o.a o.aCol (elemSize o.fmt.afmt) i kk,
      if o.live.contains n then matElem o.b o.bCol (elemSize o.fmt.bfmt) n kk else 0)

/-- The exact sum of a block as a value (R113): a NaN keeps the sign of the first NaN product. -/
def Slot.blockSum (s : Slot) (k : Nat) : FVal :=
  match s.bnan.find? fun x => x / 2 == k with
  | some x => .nan (x % 2 == 1) (7 * 2 ^ 49) false
  | none => .fin (decide (s.bsum.get k < 0)) (s.bsum.get k).natAbs (-18)

/-- Promote the current block (R113). The triple product is taken from the left: where sum × sa is invalid, its default NaN stands
even if sb is a NaN (DESIGN CHOICE, log 69). -/
def Slot.promote (s : Slot) (mode : Rounding) : Slot × FFlags × Nat :=
  let r := s.overElems fun i n x =>
    let p1 := scaledVal (s.blockSum (8 * i + n)) (fp32.decode (s.sa.get i).toNat)
    let p2 := scaledVal p1.1 (fp32.decode (s.sb.get n).toNat)
    let q := fp32.ofVal mode p2.1
    let fl := p1.2 ||| p2.2 ||| q.flags
    let v := fp32.decode q.bits
    if s.j % 2 = 0 then
      let c := chainStep fp32 mode x.e (v, fl)
      { x with e := c.1, flags := c.2 }
    else
      let c := chainStep fp32 mode x.o (v, fl)
      { x with o := c.1, flags := c.2 }
  ({ r.1 with bsum := [], bnan := [], sa := [], sb := [], bpos := 0, j := s.j + 1 }, r.2.1, r.2.2)

/-- The E4M3 products of an MMAX into the block's exact sums, in units of 2^-18. -/
def Slot.blockAdd (s : Slot) (o : MatOp) : Slot :=
  overList (List.range 64) s fun s k =>
    overList (o.pairs (k / 8) (k % 8)) s fun s p =>
      match (scaledVal (e4m3.decode p.1) (e4m3.decode p.2)).1 with
      | .fin neg m e => { s with bsum := s.bsum.set k (s.bsum.get k + signed neg (m * 2 ^ (e + 18).toNat)) }
      | v => if s.bnan.any fun x => x / 2 == k then s else { s with bnan := s.bnan ++ [2 * k + if v.neg then 1 else 0] }

/-- MMAX at completion (R157). -/
def Slot.mmax (s : Slot) (o : MatOp) : Slot × FFlags × Nat :=
  let s1 := if s.bpos = 0 then { s with sa := SMap.ofList o.sa, sb := SMap.ofList o.sb } else s
  let s2 : Slot := { s1.blockAdd o with bpos := s.bpos + 32 }
  if s2.bpos = 128 then s2.promote o.fmt.round else (s2, 0, 0)

/-- MMAFIN at completion (R160). -/
def Slot.finish (s : Slot) (f : MatFmt) : Slot × FFlags × Nat :=
  let p := if s.bpos > 0 then s.promote f.round else (s, 0, 0)
  let r := if f.acc = .int32 then (p.1, 0, 0) else
    p.1.overElems fun _ _ x =>
      let c := (accFFmt f.acc).add f.round ((accFFmt f.acc).decode x.e) ((accFFmt f.acc).decode x.o)
      { x with e := c.bits, o := 0, flags := c.flags }
  ({ r.1 with k := 0, j := 0, bpos := 0 }, p.2.1 ||| r.2.1, p.2.2 + r.2.2)

/-- What an operation does to its slot when it completes. -/
def Slot.complete (s : Slot) (o : MatOp) : Slot × FFlags × Nat :=
  if o.spoiled then (s, 0, 0) else
  match o.kind with
  | .mmafin => s.finish o.fmt
  | .mmax => s.mmax o
  | k =>
    let s0 := if k = .mmaz then { s with e := [], o := [], k := 0, j := 0, bpos := 0, bsum := [], bnan := [], sa := [], sb := [] } else s
    let r := s0.overElems fun i n x => accumulate o.fmt (k == .mmas) s0.k (o.pairs i n) x
    ({ r.1 with k := s0.k + matK o.fmt.afmt }, r.2.1, r.2.2)

/-- The queue of quarter q of the home set that stands in physical home set ph of a quadrant of a core. -/
def State.queueAtHome (s : State) (core quad q ph : Nat) : Option (Nat × Nat × List MatOp) :=
  s.wgs.findSome? fun p =>
    if p.2.core = core ∧ p.2.life ≠ .absent ∧ p.2.life ≠ .saved then
      ((List.range p.2.homes.length).find? fun h => quadOf h == quad && p.2.homes[h]? == some ph).map fun h =>
        (p.1, hqOf h q, p.2.mqueues.get (hqOf h q))
    else none

/-- The queues a pipeline serves, from the home set after the one last served (R146). -/
def State.pipeQueues (s : State) (core quad q : Nat) : List (Nat × Nat × Nat × List MatOp) :=
  (List.range 4).filterMap fun k =>
    let ph := ((s.core core).pipes.get (4 * quad + q) + k) % 4
    (s.queueAtHome core quad q ph).map fun x => (ph, x.1, x.2.1, x.2.2)

/-- MATRIX_OP_START: the pipeline is idle and the next queue's first operation has its operands. -/
def State.matStart (s : State) (core quad q : Nat) : Option State :=
  let qs := s.pipeQueues core quad q
  if qs.any (fun x => x.2.2.2.any (·.started)) then none else
  match qs.find? fun x => x.2.2.2 != [] with
  | some (ph, t, hq, o :: rest) =>
    if o.aLeft = 0 ∧ o.bLeft = 0 then
      some ((s.updWg t fun w => { w with mqueues := w.mqueues.set hq ({ o with started := true } :: rest) }).updCore core
        fun c => { c with pipes := c.pipes.set (4 * quad + q) ((ph + 1) % 4) })
    else none
  | _ => none

def execMatrixOpStart (core quad q : Nat) (s : State) : Host.Outcome State Fault Refusal :=
  match s.matStart core quad q with
  | some s1 => .next s1
  | none => .fault .notEnabled

/-- MATRIX_OP_COMPLETE: the first operation of a quarter's queue completes (R146, R116); forced returns that waited for the
matrix unit are taken (spec/14 R353). -/
def State.matComplete (s : State) (t h q : Nat) : Option State :=
  match (s.wg t).mqueues.get (hqOf h q) with
  | o :: rest =>
    if o.started then
      let key := slotKey h q o.slot
      let r := ((s.wg t).slots.get key).complete o
      let s1 := if s.damage.contains (.slot t key) then
          (s.slotCheck t ((List.range 8).map fun k => 32 * h + 8 * q + k)).updWg t fun w => { w with mqueues := w.mqueues.set (hqOf h q) rest }
        else s.updWg t fun w =>
          { w with slots := w.slots.set key r.1, mqueues := w.mqueues.set (hqOf h q) rest }.sumUp r.2.1 r.2.2 0
      some (s1.settleCrews t)
    else none
  | [] => none

def execMatrixOpComplete (wg hset q : Nat) (s : State) : Host.Outcome State Fault Refusal :=
  match s.matComplete wg hset q with
  | some s1 => .next s1
  | none => .fault .notEnabled

end Sys2Proof.Machine
end

