-- ==== Sys2Proof/Machine/TrapOps.lean ====
section
/-! DEFINITION. TRAP, TRET and EXCRD (spec/15 R370-R374). Taking a trap and the return from one stand in Ops.lean. -/

namespace Sys2Proof.Machine

open Sys2Proof

/-- TRAP (R371). -/
def trapBody (n : Nat) (e : Env) : Res :=
  match e.ls with
  | [] => .jump e.s []
  | ls => .trap e.s { cause := 0xF0 + n % 16, faulters := ls, fpc := e.fpc, software := true }

def execTrap (n : Nat) (s : State) : Host.Outcome State Fault Refusal := laneIssue (.trap n) (trapBody n) s

/-- The trap whose handler a lane runs. -/
def Workgroup.handlerTrap (w : Workgroup) (l : Nat) : Option TrapIssue :=
  w.traps.find? fun x => x.hset == homeOf l && (match x.cur with
    | some tc => tc.faulters.getLsbD (posOf l)
    | none => false)

/-- The other gangs that hold lanes of a list. -/
def Env.otherGangs (e : Env) (ls : List Nat) : List Gang :=
  e.w.gangs.filter fun g => g.id != e.g.id && ls.any fun l => homeOf l == g.hset && g.mask.getLsbD (posOf l)

/-- Split the issuing gang, standing where it stands, by a key of its lanes. -/
def Env.splitBy (e : Env) (key : Nat → Option Nat) : State :=
  e.s.updWg e.t fun w => overList (dedup (e.iss.map key)) (w.dropGang e.g.id) fun w k =>
    let m := maskOfLanes (e.iss.filter fun l => key l == k)
    w.addGang { e.g with mask := m, park := some .resumed, clause := some { e.run with issue := m, exec := e.run.exec &&& m } }

/-- The instruction word at which a gang stands, and its ABORT bit. -/
def Gang.tretAt (g : Gang) : Option (Nat × Bool) := g.clause.map fun r => (r.at, bitAt (r.words.getD r.pos 0).toNat 0)

/-- TRET for the handler of one trap (R372): gather, drain, release and acquire, return or escalate. -/
def Env.tret (e : Env) (abort : Bool) (ti : TrapIssue) : Res :=
  let tc := ti.cur.getD default
  let hl := (lanesOf ti.hset tc.faulters).filter fun l => (e.w.lane l).live
  let others := e.otherGangs hl
  let wait (s : State) : Res := .park s (.tret ti.id) e.run.pend
  if others.any (fun g => g.park != some (.tret ti.id)) then wait e.s
  else if others.any (fun g => g.tretAt != some (e.fpc, abort)) then e.trap 0x67 e.iss
  else
    let drained := match tc.crew with | some c => (e.w.crew c).drained | none => true
    if drained = false then wait e.s
    else match e.s.settleFor e.t (e.s.asItem e.t hl .acqRel .device false .fence) with
      | (s1, some _) => wait s1
      | (s1, none) =>
        let s2 := (s1.acquired e.t .acqRel .device).updWg e.t fun w => w.endInterval hl
        .gone (if abort then s2.abortHandler e.t ti else s2.endHandler e.t ti)

/-- TRET and TRET.ABORT. Lanes of several handlers return in gangs of their own. -/
def tretBody (abort : Bool) (e : Env) : Res :=
  let key (l : Nat) : Option Nat := (e.w.handlerTrap l).map (·.id)
  match e.ls.filter fun l => (key l).isNone with
  | l :: ls => e.trap 0x67 (l :: ls)
  | [] =>
    match dedup (e.iss.map key) with
    | [some id] => (match e.w.traps.find? fun x => x.id == id with
      | some ti => e.tret abort ti
      | none => .jump e.s [])
    | [] => .jump e.s []
    | [none] => .jump e.s []
    | _ => .gone (e.splitBy key)

def execTret (s : State) : Host.Outcome State Fault Refusal := laneIssue .tret (tretBody false) s
def execTretAbort (s : State) : Host.Outcome State Fault Refusal := laneIssue .tretAbort (tretBody true) s

/-- What EXCRD reads at an index (R373): the summary part (spec/05 R115), or the frame of the lane's crew. -/
def Workgroup.excWord (w : Workgroup) (l i : Nat) : Word :=
  let fr := w.frames.get (match (w.lane l).crew with | some c => c | none => 64)
  if i = 0 then w.flags.setWidth 32
  else if i = 1 then w.satcnt
  else if i = 2 then w.nanscore
  else if 16 ≤ i ∧ i ≤ 31 then fr.hdr.get (i - 16)
  else if 64 ≤ i ∧ i ≤ 575 then ((fr.recs.getD ((i - 64) / 8) 0) >>> (32 * ((i - 64) % 8))).setWidth 32
  else 0

/-- EXCRD (R373). -/
def excrdBody (d a : Sel) (e : Env) : Res :=
  let vs := e.ls.map fun l => (l, e.w.excWord l (e.int32 l a 0 0).toNat)
  .ok (e.s.updWg e.t fun w => w.writeSel e.s.free d (vs.map fun v => (v.1, [v.2]))) (vs.map fun v => (v.1, v.2.setWidth 64))

def execExcrd (d a : Sel) (s : State) : Host.Outcome State Fault Refusal := laneIssue (.excrd d a) (excrdBody d a) s

end Sys2Proof.Machine
end

