-- ==== Sys2Proof/Machine/Gate.lean ====
section
/-! DEFINITION. Gate calls (spec/14 R346-R353): GCALL and GRET. The return itself stands in Ops.lean, beside the forced
return of a trap. -/

namespace Sys2Proof.Machine

open Sys2Proof

/-! ### Gate entries (R346) -/

def gDomain (g : List Word) : Nat := gateFld g 11 0
def gMatrix (g : List Word) : Bool := gateFld g 14 14 == 1
def gNest (g : List Word) : Nat := gateFld g 17 15
def gSeg (g : List Word) : Nat := gateFld g 37 32
def gOffset (g : List Word) : Nat := gateFld g 47 38
def gArg (g : List Word) : Nat := gateFld g 95 64
def gRes (g : List Word) : Nat := gateFld g 127 96
def gSpOff (g : List Word) : Nat := gateFld g 151 128
def gSpLen (g : List Word) : Nat := gateFld g 175 152
def gStack (g : List Word) : Nat := gateFld g 223 192

/-- Gate entry x of a domain's gate table, at its physical address. -/
def State.gateEntry (s : State) (dc : List Dword) (x : Nat) : List Word :=
  wordsLE (s.rdBytes (fieldOf dc 243 192 + 64 * x) 64)

/-- Where gate entry x of a domain's gate table lies. -/
def gateSpan (dc : List Dword) (x : Nat) : Span := ⟨.phys (fieldOf dc 243 192 + 64 * x), 64⟩

/-- What a crew reads to find gate x of its domain and the descriptor of the gate's domain (R333, R346). -/
def State.gateReads (s : State) (core dom x : Nat) : List Span :=
  let dc := (s.descUse core dom).getD []
  s.descReads core dom ++ [gateSpan dc x, ⟨.phys (s.regs.domtab + 128 * gDomain (s.gateEntry dc x)), 128⟩]

/-- Entries of a domain's gate table. -/
def gateCount (dc : List Dword) : Nat := fieldOf dc 256 244

/-- An entry that is valid, keeps R346 and fits the workgroup (R350). -/
def gateEntryOk (w : Workgroup) (g : List Word) : Bool :=
  gateFld g 12 12 == 1 && decide (1 ≤ gNest g) && decide (gNest g ≤ 4) && gateFld g 31 18 == 0 && gateFld g 63 48 == 0 &&
  gSpOff g % 64 == 0 && gateFld g 191 176 == 0 && gStack g % 16 == 0 && gateFld g 511 224 == 0 &&
  decide (gArg g < 2 ^ w.vregs) && decide (gRes g < 2 ^ w.vregs) && decide (gSpOff g + gSpLen g ≤ w.spad)

/-! ### The gather (R349) -/

/-- The crew that a gate transfer gathers: that of E, or, where E is empty, that of the issue mask. -/
def Env.gateCrew (e : Env) : Except Res (Option Nat) :=
  match e.ls with
  | low :: _ =>
    match e.crewless with
    | l :: ls => .error (e.trap 0x6D (l :: ls))
    | [] => if e.mixed then .error (e.trap 0x6F e.ls) else .ok (e.crewOf low)
  | [] =>
    if e.iss.any fun l => (e.crewOf l).isNone then .ok none
    else match e.w.crewsOf e.iss with
      | [c] => .ok (some c)
      | _ => .ok none

/-- A gang that takes part in a gather: its number, home set, the members in it, where it stands, and those of its lanes that
are in its execute mask. -/
structure Gathered where
  id : Nat
  hset : Nat
  ls : List Nat
  run : ClauseRun

/-- The gangs of a gathered crew, the issuing gang first; none while a member has still to arrive. -/
def Env.gather (e : Env) (c : Nat) : Option (List Gathered) :=
  let ms := e.w.members c
  let others := e.otherGangs ms
  let part (h : Nat) (m : BitVec 32) : List Nat := ms.filter fun l => homeOf l == h && m.getLsbD (posOf l)
  let mine : Gathered := ⟨e.g.id, e.g.hset, part e.g.hset e.g.mask, e.run⟩
  let rest := others.filterMap fun g => match g.park, g.clause with
    | some (.gather k), some r => if k = c then some (⟨g.id, g.hset, part g.hset g.mask, r⟩ : Gathered) else none
    | _, _ => none
  let there := (mine :: rest).flatMap (·.ls)
  if ms.all fun l => there.contains l then some (mine :: rest) else none

/-- The gang that takes the trap of a gathered crew: lowest home set, then lowest slice. -/
def gatherHead (gs : List Gathered) : Option Gathered :=
  gs.foldl (fun m x => match m with
    | none => if x.ls.isEmpty then none else some x
    | some y => if x.ls.isEmpty then some y else if decide (x.ls.headD 0 / 4 < y.ls.headD 0 / 4) then some x else some y) none

/-- A cause raised in every member of a gathered crew: the gang so chosen traps, the others stay parked. -/
def Env.gatherTrap (e : Env) (c : Nat) (gs : List Gathered) (cause : Nat) (detail : List Word := []) : Res :=
  match gatherHead gs with
  | none => e.trap cause e.ls detail
  | some x =>
    if x.id = e.g.id then e.trap cause x.ls detail
    else .gone ((e.s.updGang e.t e.g.id fun g => { g with park := some (.gather c), clause := some e.run }).takeTrap e.t x.id
      { cause := cause, faulters := x.ls, fpc := x.run.at, detail := fun _ => detail })

/-- GATE_MASK (R349): members at different addresses, or outside the execute mask. -/
def gatherMask (gs : List Gathered) : Bool :=
  let pcs := dedup ((gs.filter fun g => !g.ls.isEmpty).map fun g => g.run.at)
  decide (pcs.length > 1) || gs.any fun g => g.ls.any fun l => !g.run.exec.getLsbD (posOf l)

/-- The lanes that were in the gathered gangs and are not members go on at the next clause. -/
def State.passOthers (s : State) (t : Nat) (gs : List Gathered) : State :=
  overList gs s fun s g => s.transfer t g.id g.run []

/-- Gather the crew, then go on with it: GCALL and GRET. -/
def gateBody (k : Nat → List Gathered → Env → Res) (e : Env) : Res :=
  match e.gateCrew with
  | .error r => r
  | .ok none => .jump e.s []
  | .ok (some c) =>
    match e.gather c with
    | none => .park e.s (.gather c) e.run.pend
    | some gs => if gatherMask gs then e.gatherTrap c gs 0x74 else k c gs e

/-- The wait of R350 and R352: the crew's counters, its matrix operations, and what else its release orders. -/
def Env.gateDrain (e : Env) (c : Nat) (matrix : Bool) : Except Res State :=
  if (e.w.crew c).drained = false ∨ (matrix ∧ e.w.matrixIdle c = false) then .error (.park e.s (.gather c) e.run.pend)
  else match e.s.settleFor e.t (e.s.asItem e.t (e.w.members c) .acqRel .device false .fence) with
    | (s1, some _) => .error (.park s1 (.gather c) e.run.pend)
    | (s1, none) => .ok (s1.acquired e.t .acqRel .device)

/-! ### GCALL (R350) -/

/-- The first check of GCALL that fails, after the gather. Where the crew's own domain has no valid descriptor, its NGATE counts as 0
(DEDUCED, log 29). -/
def Env.gcallCheck (e : Env) (c x : Nat) : Option Nat :=
  let w := e.w
  let cr := w.crew c
  let dc := (e.s.descUse w.core cr.domain).getD []
  let g := e.s.gateEntry dc x
  if cr.handler ∨ cr.appr.isSome then some 0x75
  else if x ≥ gateCount dc then some 0x70
  else if gateEntryOk w g = false then some 0x71
  else if descValid (e.s.descMem (gDomain g)) = false then some 0x72
  else if cr.depth + 1 > min (gNest g) w.gdepth then some 0x73
  else if e.s.segLanded w (gDomain g) (gSeg g) = false then some 0xA0
  else none

/-- The frame that GCALL saves. -/
def Workgroup.gateFrame (w : Workgroup) (c ret : Nat) (g : List Word) : GateFrame :=
  let cr := w.crew c
  let keep (n : Nat) : Bool := decide (n < 32) && bitAt (gArg g) n
  let ms := w.members c
  { lanes := overList ms [] fun m l =>
      let y := w.lane l
      SMap.set m l ({ o := y.o, p := y.p, cf := y.cf, fpmode := y.fpmode } : LaneSave)
    vregs := overList ms [] fun m l => SMap.set m l ((w.lane l).v.filter fun (p : Nat × Word) => !keep p.1)
    s := cr.s, counts := [Path.sp, .cl, .dm, .en, .ic].map cr.count, monitor := cr.monitor, ret := ret, gate := cr.gate, entry := g, caller := cr.caller
    slots := if gMatrix g then
        overList (w.memberSlots c) [] fun (m : SMap Slot) k => SMap.set m k (w.slots.get k)
      else [] }

/-- Enter the callee: save, zero, and change the crew's gate state. -/
def Workgroup.enterGate (w : Workgroup) (c x ret : Nat) (g : List Word) : Workgroup :=
  let cr := w.crew c
  let f := w.gateFrame c ret g
  let keep (n : Nat) : Bool := decide (n < 32) && bitAt (gArg g) n
  let w1 := overList (w.members c) w fun w l => w.updLane l fun y => { y with
    v := y.v.filter fun (p : Nat × Word) => keep p.1
    o := [], p := 0, cf := false, fpmode := 0 }
  let w2 := if gMatrix g then { w1 with slots := overList (w.memberSlots c) w1.slots fun m k => m.set k default } else w1
  let w3 := w2.updCrew c fun y => { y with
    s := [], old := [], depth := cr.depth + 1, gate := x, caller := cr.domain, domain := gDomain g }
  { w3 with gates := w3.gates.set (frameKey c cr.depth) f }.layEdge (w.members c)

/-- The gate index: immediate, or that of the lowest member. -/
def Env.gateIndex (e : Env) (c : Nat) (gs : List Gathered) (a : Option Sel) (idx : Nat) : Nat :=
  match a with
  | none => idx
  | some r =>
    let low := (e.w.members c).headD 0
    match gs.find? fun g => g.ls.contains low with
    | some g => match (if g.id = e.g.id then none else e.w.gang? g.id) with
      | some y => ((e.s.env e.t y g.run).int32 low r 0 0).toNat % 4096
      | none => (e.int32 low r 0 0).toNat % 4096
    | none => idx

/-- A lock held at a GCALL that gathers no crew: LOCK_STATE of the holding lanes (spec/08 R181). -/
def Env.gcallLock (e : Env) : List Nat :=
  match e.gateCrew with
  | .error _ => []
  | .ok none => e.holders
  | .ok (some c) => if (e.gather c).isNone then e.holders else []

def gcallBody (a : Option Sel) (idx : Nat) (e0 : Env) : Res :=
  match e0.gcallLock with
  | l :: ls => e0.trap 0x63 (l :: ls) (e0.lockDetail l)
  | [] => gateBody (fun c gs e =>
    let x := e.gateIndex c gs a idx
    e.walked (fun s _ => s.gateReads e.w.core (e.w.crew c).domain x) fun e =>
    match (if e.holders.isEmpty then e.gcallCheck c x else some 0x63) with
    | some cause => e.gatherTrap c gs cause (match e.holders with | l :: _ => e.lockDetail l | [] => [])
    | none =>
      let g := e.s.gateEntry ((e.s.descUse e.w.core (e.w.crew c).domain).getD []) x
      match e.gateDrain c (gMatrix g) with
      | .error r => r
      | .ok s1 =>
        let ms := e.w.members c
        let s2 := (s1.descNeed e.w.core (e.w.crew c).domain).descLoad e.w.core (gDomain g)
        let s3 := s2.updWg e.t fun w =>
          (((w.endInterval ms).closeRegion ms).enterGate c x e.run.next g).moveCrew c (4096 * gSeg g + 4 * gOffset g) []
            fun y => y.holdAfter w.yhold.toNat
        .gone (s3.passOthers e.t gs)) e0

def execGcall (idx : Nat) (s : State) : Host.Outcome State Fault Refusal := laneIssue (.gcall idx) (gcallBody none idx) s
def execGcallReg (a : Sel) (s : State) : Host.Outcome State Fault Refusal := laneIssue (.gcallReg a) (gcallBody (some a) 0) s

/-! ### GRET (R352) -/

def gretBody : Env → Res :=
  gateBody fun c gs e =>
    if (e.w.crew c).depth = 0 then e.gatherTrap c gs 0x76
    else match e.gateDrain c true with
      | .error r => r
      | .ok s1 =>
        let ended := (s1.wg e.t).trapsOf c
        let s3 := s1.gateReturn e.t c none
        .gone (overList ended (s3.passOthers e.t gs) fun s k => State.nextCrew e.t k 66 s)

def execGret (s : State) : Host.Outcome State Fault Refusal := laneIssue .gret gretBody s

end Sys2Proof.Machine
end

