-- ==== Sys2Proof/Machine/Service.lean ====
section
/-! DEFINITION. MCALL (spec/04 R95, spec/16 R399), ICFETCH with the landing of a segment (R395-R397), and NODEPOST (R400). -/

namespace Sys2Proof.Machine

open Sys2Proof

/-! ### MCALL -/

/-- The operations of macro m of a workgroup's node, where the core holds them. -/
def State.macroOps (s : State) (w : Workgroup) (m : Nat) : List (Word × Word) :=
  let e := w.macros.get m
  if e = 0 then [] else ((s.core w.core).macros.get (e - 1)).ops

/-- MCALL: the checks of the whole macro as a clause of CLASS 7 come first; then the gang stands at its first operation. -/
def mcallBody (m : Nat) (sels : List Sel) (e : Env) : Res :=
  match e.ls with
  | [] => .jump e.s []
  | _ =>
    match e.s.macroOps e.w m with
    | [] => e.trap 0xA3 e.ls
    | ops =>
      match macroCheck e.w.vregs sels ops 0 [] with
      | some c => e.trap c.code e.ls
      | none => .gone (e.s.updGang e.t e.g.id fun g => { g with
          clause := some { e.run with mac := some { ops := ops, sels := sels, pos := 0, latches := [] }, pend := .none } })

def execMcall (m : Nat) (o1 o2 o3 o4 : Sel) (s : State) : Host.Outcome State Fault Refusal :=
  laneIssue (.mcall m o1 o2 o3 o4) (mcallBody m [o1, o2, o3, o4]) s

/-! ### The instruction store (R395) -/

/-- Unmap a logical segment of a workgroup: its slot's count falls. -/
def State.unmapSeg (s : State) (t seg : Nat) : State :=
  let w := s.wg t
  match w.slotOf seg with
  | none => s
  | some k => (s.updCore w.core fun c => { c with istore := c.istore.upd k fun x => { x with count := x.count - 1 } }).updWg t
      fun w => { w with segs := w.segs.set seg 0 }

/-- Map a slot to a logical segment: its count rises. -/
def State.mapSeg (s : State) (t seg k : Nat) : State :=
  (s.updCore (s.wg t).core fun c => { c with istore := c.istore.upd k fun x => { x with count := x.count + 1 } }).updWg t
    fun w => { w with segs := w.segs.set seg (k + 1) }

/-- The slot of a core that holds an image segment, or fetches it. -/
def Core.slotOf (c : Core) (dom va : Nat) (st : SlotState) : Option Nat :=
  (List.range 64).find? fun k =>
    let x := c.istore.get k
    x.st == st && !x.fromSpad && x.tagDom == dom && x.tagVa == va

/-- The lowest-numbered slot with count 0. -/
def Core.freeSlot (c : Core) : Option Nat := (List.range 64).find? fun k => (c.istore.get k).count == 0

/-- An item of a fetch into a slot: one that IC counts, or its reads. -/
def FlightItem.fetches (i : FlightItem) (core k : Nat) : Bool :=
  match i.op with
  | .fetch c j => c == core && j == k
  | .fetchRead c j _ => c == core && j == k
  | _ => false

/-- Items of the workgroups of a core are over. -/
def State.finishItems (s : State) (core : Nat) (p : FlightItem → Bool) : State :=
  { s with wgs := s.wgs.map fun x => if x.2.core = core then
      (x.1, overList (dedup ((x.2.items.filter p).map (·.id))) x.2 fun w id => w.finishItem id) else x }

/-- A fetch into a slot that no segment is mapped to any more is given up, where the slot is taken for another: its counts fall (DEDUCED,
log 73). -/
def State.endFetch (s : State) (core k : Nat) : State :=
  if ((s.core core).istore.get k).st = .fetching then s.finishItems core fun i => i.fetches core k else s

/-- Begin a fetch into a slot. -/
def State.beginFetch (s : State) (core k dom va : Nat) (spad : Bool) (source : List Span) : State :=
  let of (x : TlbEntry) (a : Nat) : Bool := x.vpre == a / 2 ^ levelShift x.level
  (s.endFetch core k).updCore core fun c => { c with istore := c.istore.upd k fun x => { x with
    st := .fetching, tagDom := dom, tagVa := va, fromSpad := spad, source := source, bad := false
    used := { tlb := if spad then [] else c.tlb.filter fun x => x.domain == dom && (of x va || of x (va + 4095)) } } }

/-- The words of a fetch as they are written into its slot: those of scratchpad have been read by the instruction's own reads. -/
def State.fetched (s : State) (x : ISlot) : ISlot :=
  if x.fromSpad then { x with st := .landed, used := {} } else
  let bytes := x.source.flatMap fun p => match p.loc with
    | .phys a => s.homeLoad a p.len
    | .win .. => s.rdSpan p
  { x with
    st := .landed, words := SMap.ofList (wordsLE bytes), source := [], used := {}, bad := (x.source.any fun p => (s.mcOf p).isSome) }

/-- SEGMENT_LANDED: the bytes of a fetch are read and written into its slot; the segment counts as landed, the counts of its
fetches fall, and lanes that wait for their entry segment start (R389, R395). -/
def execSegmentLanded (core slot : Nat) (s : State) : Host.Outcome State Fault Refusal :=
  let x := (s.core core).istore.get slot
  if x.st ≠ .fetching ∨ (x.fromSpad ∧ x.source ≠ []) ∨ x.source.any s.held then .fault .notEnabled
  else
    let s1 := (s.updCore core fun c => { c with istore := c.istore.upd slot s.fetched }).finishItems core fun i => i.fetches core slot
    .next (((overList (s1.wgs.filter fun p => p.2.core == core) s1 fun s p =>
      let s3 := s.settleCrews p.1
      if (s3.wg p.1).starting = some slot then s3.updWg p.1 fun w => { w with starting := none } else s3).endIssues core).spent s.free)

/-! ### ICFETCH (R397) -/

/-- Where an ICFETCH takes its segment from: domain, virtual address, from scratchpad, the bytes' places. -/
structure FetchSource where
  dom : Nat
  va : Nat
  spad : Bool
  spans : List Span

/-- The fetch of segment seg by the crew's lanes of E, once its source is known: map a landed slot, share one that is being
fetched, or take a free one. `src` gives the places of the bytes, or the trap. -/
def Env.fetchInto (e : Env) (seg dom va : Nat) (spad : Bool) (src : Except Res (State × List Span)) : Res :=
  let s0 := e.s.unmapSeg e.t seg
  let core := s0.core e.w.core
  let done (s : State) : Res := .ok (s.closeE e) []
  match (if spad then none else core.slotOf dom va .landed) with
  | some k => done (s0.mapSeg e.t seg k)
  | none =>
    match e.full .ic, (if spad then e.full .sp else none) with
    | some p, _ => .park e.s p e.run.pend
    | none, some p => .park e.s p e.run.pend
    | none, none =>
      let count (s : State) (k : Nat) : State :=
        let s1 := s.launch e.t e.ls (some .ic) .relaxed .crew false false (.fetch e.w.core k)
        if spad then s1.launch e.t e.ls (some .sp) .relaxed .crew false false
          (.fetchRead e.w.core k (((s.core e.w.core).istore.get k).source)) else s1
      match (if spad then none else core.slotOf dom va .fetching) with
      | some k => done (count (s0.mapSeg e.t seg k) k)
      | none =>
        match core.freeSlot, src with
        | none, _ => e.trap 0xA1 e.ls
        | some _, .error r => r
        | some k, .ok (s1, spans) =>
          done (count (((s1.unmapSeg e.t seg).beginFetch e.w.core k dom va spad spans).mapSeg e.t seg k) k)

/-- The checks shared by the fetching forms: the crew, the range of the segment, the callee. -/
def icfetchCommon (seg : Env → Nat → Nat) (drop : Bool) (k : Nat → Nat → Nat → Env → Res) (e : Env) : Res :=
  crewBody (fun c low =>
    let sg := seg e low % 64
    if drop = false ∧ (e.w.crew c).depth > 0 then e.trap 0x75 e.ls
    else if sg ≥ e.w.nseg then e.trap 0xA1 e.ls
    else k c low sg e) e

/-- Segment number of the lowest lane. -/
def segNum (r : SegRef) (e : Env) (low : Nat) : Nat :=
  match r with
  | .imm n => n
  | .reg a => (e.int32 low a 0 0).toNat

/-- A callee's page tables as ICFETCH.GATE walks them: those that its descriptor in memory names, also where it counts as invalid
(R401). -/
def State.calleeTables (s : State) (core d : Nat) : State :=
  match s.descUse core d with
  | some _ => s
  | none => s.updCore core fun c => { c with descs := ⟨d, s.descMem d⟩ :: c.descs }

/-- The bytes of an image segment, translated line by line under the tables that a state names; faults are precise. -/
def Env.imageSource (e : Env) (tables : State) (c dom va : Nat) : Except Res (State × List Span) :=
  let cr := e.w.crew c
  let x := tables.xlate e.w.core dom false cr.handler 6 [(va, 4096)]
  match worstGran (x.map (·.1)) with
  | some cause => .error (.trap e.s ((faultTrap e.fpc (e.ls.map fun l => ⟨l, xlRank cause, cause, 0, 0, x.map (·.1)⟩)).getD
      { cause := cause, faulters := e.ls, fpc := e.fpc }))
  | none => .ok (e.s.walkKeep e.w.core dom (.ok 0 0 false false 0 0 0, x.flatMap (·.2.2)), spansOf (x.filterMap (·.2.1)))

def icfetchBody (r : SegRef) : Env → Res :=
  icfetchCommon (segNum r) false fun c _ sg e =>
    let dom := (e.w.crew c).domain
    let va := e.w.codeVa + 4096 * sg
    e.walked (e.walkAt dom fun _ => [va]) fun e => e.fetchInto sg dom va false (e.imageSource e.s c dom va)

def icfetchDropBody (r : SegRef) : Env → Res :=
  icfetchCommon (segNum r) true fun _ _ sg e => .ok ((e.s.unmapSeg e.t sg).closeE e) []

def icfetchGateBody (a x : Sel) : Env → Res :=
  icfetchCommon (segNum (.reg a)) false fun c low sg e =>
    let i := (e.int32 low x (popsIn [(a, 1)]) 4).toNat % 4096
    e.walked (fun s _ => s.gateReads e.w.core (e.w.crew c).domain i) fun e =>
    let dc := (e.s.descUse e.w.core (e.w.crew c).domain).getD []
    let g := e.s.gateEntry dc i
    if i ≥ gateCount dc then e.trap 0x70 e.ls
    else if gateEntryOk e.w g = false then e.trap 0x71 e.ls
    else
      let va := e.w.codeVa + 4096 * sg
      let tables (s : State) : State := s.calleeTables e.w.core (gDomain g)
      e.walked (fun s l => e.walkAt (gDomain g) (fun _ => [va]) (tables s) l) fun e =>
        e.fetchInto sg (gDomain g) va false (e.imageSource (tables e.s) c (gDomain g) va)

def icfetchSpadBody (a x : Sel) : Env → Res :=
  icfetchCommon (segNum (.reg a)) false fun c low sg e =>
    let ea := (e.int32 low x (popsIn [(a, 1)]) 4).toNat % 2 ^ 24
    if ea % 64 ≠ 0 then e.trap 0x29 e.ls (spadDetail false ea)
    else match e.s.spadAt e.t low false ea 4096 with
      | none => e.trap 0x28 e.ls (spadDetail false ea)
      | some (u, o) => e.fetchInto sg (e.w.crew c).domain 0 true (.ok (e.s, [⟨.win u o, 4096⟩]))

def execIcfetch (r : SegRef) (s : State) : Host.Outcome State Fault Refusal := laneIssue (.icfetch r) (icfetchBody r) s
def execIcfetchSpad (a x : Sel) (s : State) : Host.Outcome State Fault Refusal := laneIssue (.icfetchSpad a x) (icfetchSpadBody a x) s
def execIcfetchDrop (r : SegRef) (s : State) : Host.Outcome State Fault Refusal := laneIssue (.icfetchDrop r) (icfetchDropBody r) s
def execIcfetchGate (a x : Sel) (s : State) : Host.Outcome State Fault Refusal := laneIssue (.icfetchGate a x) (icfetchGateBody a x) s

/-! ### NODEPOST (R400) -/

/-- NODEPOST of the descriptor at an address of a domain, once what the walk reads has been settled: its faults, and the answer of
the pool. -/
def nodepostAt (d : Sel) (va dom : Nat) (handler : Bool) (e : Env) : Res :=
  let s := e.s
  let x := s.xlate e.w.core dom false handler 6 [(va, 128)]
  match worstGran (x.map (·.1)) with
  | some cause => .trap s ((faultTrap e.fpc (e.ls.map fun l => ⟨l, xlRank cause, cause, 0, 0, x.map (·.1)⟩)).getD
      { cause := cause, faulters := e.ls, fpc := e.fpc })
  | none =>
    let spans := spansOf (x.filterMap (·.2.1))
    let ws := wordsLE (spans.flatMap fun p => match p.loc with | .phys q => s.homeLoad q p.len | .win .. => [])
    let n : NodeDesc := ⟨ws⟩
    let super := match s.descUse e.w.core dom with | some y => descSuper y | none => false
    match s.heldIn spans, s.mcTrap e.fpc (e.ls.map fun l => (l, spans)) with
    | some g, _ => .park s (.bank g) e.run.pend
    | none, some q => .trap q.1 q.2
    | none, none =>
      if n.domain ≠ dom ∧ super = false then .trap s { cause := 0xA2, faulters := e.ls, fpc := e.fpc }
      else if s.acceptHeld dom ws then .stay s
      else
        let s2 := s.walkKeep e.w.core dom (.ok 0 0 false false 0 0 0, x.flatMap (·.2.2))
        let r := s2.accept dom ws
        .ok (((r.1.putAll e d r.2).endE e).closeE e) []

def nodepostBody (d : Sel) (a : Nat) (e : Env) : Res :=
  crewBody (fun c low =>
    let va := (e.opd low (.pair (.v a)) 0 0).toNat
    let dom := (e.w.crew c).domain
    if va % 128 ≠ 0 then e.trap 0xA2 e.ls
    else match e.settled .release .device false .fence with
      | .error r => r
      | .ok s1 =>
        let e1 : Env := { e with s := s1 }
        e1.walked (e.walkAt dom fun _ => (granules va 128).map (·.1)) (nodepostAt d va dom (e.w.crew c).handler)) e

def execNodepost (d : Sel) (a : Nat) (s : State) : Host.Outcome State Fault Refusal := laneIssue (.nodepost d a) (nodepostBody d a) s

end Sys2Proof.Machine
end

