-- ==== Sys2Proof/Machine/Sched.lean ====
section
/-! DEFINITION. The selection of gangs and the events of lanes, gangs and crews (spec/02 R20-R27, R40-R42, R30; spec/03 R47,
R51; spec/08 R176, R182, R184; spec/10 R253): CLAUSE_ISSUE, GANG_UNPARK, REGANG_WINDOW_CLOSE, YIELD_HOLD_EXPIRE,
CROSS_LANE_GATHER, CREW_DISSOLVE, IN_FLIGHT_COMPLETE, LOCK_RETRY, LOCK_HOLD, RACE_STALL_RELEASE, RACE_STALL_TIMEOUT,
L2_EVICT_SPILL. -/

namespace Sys2Proof.Machine

open Sys2Proof

/-! ### Gangs that may not move -/

/-- A gang in the middle of a clause that may issue its next instruction. -/
def Workgroup.inIssue (w : Workgroup) (g : Gang) : Bool := g.clause.isSome && g.park.isNone && !w.gangHeld g

/-- The quadrant of a core is issuing a clause for a gang other than the one named (R25). -/
def State.quadBusy (s : State) (core quad : Nat) (me : Nat × Nat) : Bool :=
  s.wgs.any fun p => p.2.core == core && p.2.gangs.any fun g => quadOf g.hset == quad && (p.1, g.id) != me && p.2.inIssue g

/-! ### The header of the next clause (spec/03 R47, spec/16 R396) -/

/-- The header, its word offset in the segment, and the words after it, as the gang's quadrant fetches them. -/
def State.fetchClause (s : State) (w : Workgroup) (g : Gang) : Option (Nat × Nat × List Nat) :=
  match s.segWords w (w.domOf (g.lanes.headD 0)) (g.pc / 4096) with
  | none => none
  | some m =>
    let off := g.pc % 4096 / 4
    let h := (m.get off).toNat
    some (h, off, wordsFrom m (g.pc + 4) (hCount h))

/-- Lanes of the gang whose crew is inside a gate call. -/
def Workgroup.calleeLanes (w : Workgroup) (g : Gang) : List Nat := g.lanes.filter fun l => (w.gateOf l).isSome

/-- The BW wait of a header is over: the lanes pass, or the wait is one that raises its cause (spec/12 R293, spec/14 R351). -/
def Workgroup.bwMet (w : Workgroup) (g : Gang) (k : Nat) : Bool :=
  !(w.calleeLanes g).isEmpty || !(w.barriers.get k).init || w.passed k (g.lanes.map fun l => (l, none))

/-- The waits of a header are met (R25, R47). -/
def Workgroup.waitsMet (w : Workgroup) (g : Gang) (h : Nat) : Bool :=
  bits h 26 6 != 63 ||
  (((hDrains h).all fun p => (w.crewsOf g.lanes).all fun c => (w.crew c).count p == 0) &&
   (!hMxw h || g.lanes.all fun l => (w.mqueues.get (4 * homeOf l + posOf l / 8)).isEmpty) &&
   (!hBw h || w.bwMet g (hK h)))

/-! ### Accesses that issue again (spec/08 R184, spec/10 R253) -/

/-- The meaning of an instruction whose access may stall for a race entry, or that arbitrates for lock bits. -/
def accessExec (i : Instr) (s : State) : Option (Host.Outcome State Fault Refusal) :=
  match i with
  | .ldlk w sp pt d a off => some (execLdlk w sp pt d a off s)
  | .atoms op w sp d a b c => some (execAtoms op w sp d a b c s)
  | .lds o => some (execLds o s)
  | .sts o => some (execSts o s)
  | .ldsc o => some (execLdsc o s)
  | .stsc o => some (execStsc o s)
  | .ld w o sc nw sw a d st => some (execLd w o sc nw sw a d st s)
  | .st w o sc a d st => some (execSt w o sc a d st s)
  | .ldt o => some (execLdt o s)
  | .stt o => some (execStt o s)
  | .mma a x y f => some (execMma a x y f s)
  | .mmas a x y f => some (execMmas a x y f s)
  | .mmam a x f y r => some (execMmam a x f y r s)
  | .mmax a x y f p q => some (execMmax a x y f p q s)
  | .mmaz a x y f => some (execMmaz a x y f s)
  | .unpkd ty nw d a b c => some (execUnpkd ty nw d a b c s)
  | .unpkz ty nw d a => some (execUnpkz ty nw d a s)
  | .unpkr ty nw rc d a b c => some (execUnpkr ty nw rc d a b c s)
  | _ => none

/-- The instruction at which a gang stands. -/
def ClauseRun.instr (r : ClauseRun) : Option Instr :=
  match r.mac with
  | some m => (match m.ops[m.pos]? with
    | some p => (match macroOp p.1 p.2 m.sels with
      | .ok i => some i
      | .error _ => none)
    | none => none)
  | none => (match decodeWords ((r.words.drop r.pos).map BitVec.toNat) with
    | .ok (i, _) => some i
    | .error _ => none)

/-- Ages of an issuing gang. -/
def freshAges : List Nat := List.replicate 8 0

/-- The parked gang issues its instruction again, with its pending data changed: the state after it, unless it has parked for
the same reason again; `moves` says that something has happened even so. -/
def State.again (s : State) (t : Nat) (g : Gang) (p : Park) (f : Pend → Pend) (moves : Bool := false) : Option State :=
  match g.clause with
  | none => none
  | some r =>
    let s1 := s.updGang t g.id fun x => { x with park := none, ages := freshAges, clause := some { r with pend := f r.pend } }
    match r.instr with
    | none => none
    | some i =>
      match accessExec i { s1 with agenda := .gang t g.id :: s.agenda } with
      | some (.next s2) =>
        (match (s2.wg t).gang? g.id with
          | some x => if x.park = some p ∧ moves = false then none else some s2
          | none => some s2)
      | some _ => none
      | none =>
        -- the instruction has no access of its own: the reload of an entry it pops is what waits (spec/17 R408)
        match { s1.env t { g with park := none } { r with pend := f r.pend } with s := s1 }.popsOf i with
        | .wait s2 q pd => if q = p ∧ moves = false then none else some (s2.updGang t g.id fun x => { x with
            park := some q, clause := some { r with pend := pd } })
        | _ => some s1

/-- Requester number of a gang in its cluster (spec/08 R184). -/
def Workgroup.requester (w : Workgroup) (g : Gang) : Nat := 4 * (w.core % 4) + quadOf g.hset

/-- Priority of a requester in the cycle of its cluster: 0 is the highest. -/
def State.lockRank (s : State) (core r : Nat) : Nat := (r + 16 - (s.cycleOf core).toNat % 16) % 16

/-- A quadrant of a core may issue in the current cycle: neither it nor a higher quadrant has (spec/02 R36, spec/04 R76), and the
core's ordinary issues are not over. -/
def Core.mayIssue (k : Core) (quad : Nat) : Bool := !k.late && (k.issued >>> quad) == 0

/-- Instructions that arbitrate in the cluster: for lock bits, and for the banks of its scratchpads (spec/08 R184, spec/10 R254). -/
def arbitrates : Instr → Bool
  | .ldlk .. | .atoms .. | .lds _ | .sts _ | .ldsc _ | .stsc _ => true
  | _ => false

/-- A quadrant may make an attempt in the current cycle: it has not issued, and no requester of lower priority of its cluster
has made one (spec/08 R184). Attempts come after the ordinary issues of their core's cycle. -/
def State.mayAttempt (s : State) (w : Workgroup) (g : Gang) : Bool :=
  !(s.core w.core).issued.getLsbD (quadOf g.hset) && decide ((s.core (4 * (w.core / 4))).lockNext ≤ s.lockRank w.core (w.requester g))

/-- Record an ordinary issue of a quadrant, or an attempt, in the current cycle. -/
def State.tookSlot (s : State) (core quad : Nat) : State := s.updCore core fun k => { k with issued := k.issued ||| (1 <<< quad) }
def State.tookAttempt (s : State) (w : Workgroup) (g : Gang) : State :=
  ((s.tookSlot w.core (quadOf g.hset)).endIssues w.core).updCore (4 * (w.core / 4)) fun k => { k with
    lockNext := s.lockRank w.core (w.requester g) + 1 }

/-- The turn of a gang in the current cycle is an attempt. -/
def Gang.attempts (g : Gang) : Bool := (g.clause.bind ClauseRun.instr).any arbitrates

/-- A gang's quadrant may issue for it in the current cycle, or make an attempt. -/
def State.hasTurn (s : State) (w : Workgroup) (g : Gang) : Bool :=
  if g.attempts then s.mayAttempt w g else (s.core w.core).mayIssue (quadOf g.hset)

/-- Record that it has. -/
def State.tookTurn (s : State) (w : Workgroup) (g : Gang) : State :=
  if g.attempts then s.tookAttempt w g else s.tookSlot w.core (quadOf g.hset)

/-- A requester of higher priority in the cluster that would take its bits in the current cycle: a parked one whose quadrant is free
(spec/08 R184). -/
def State.outranked (s : State) (t : Nat) (g : Gang) : Bool :=
  let w := s.wg t
  let mine := s.lockRank w.core (w.requester g)
  s.wgs.any fun p => clusterOf p.2.core == clusterOf w.core && p.2.gangs.any fun x =>
    x.park == some .lock && !p.2.gangHeld x && decide (s.lockRank w.core (p.2.requester x) < mine) && s.mayAttempt p.2 x &&
    !s.quadBusy p.2.core (quadOf x.hset) (p.1, x.id) && (s.again p.1 x .lock id).isSome

/-! ### What a parked gang waits for (R25) -/

/-- A flight item is no longer to be waited for. -/
def Workgroup.itemOver (w : Workgroup) (c id : Nat) : Bool :=
  match w.item? c id with
  | some i => i.done
  | none => true

/-- Members of lanes all stand in gangs with a park reason. -/
def Workgroup.allParked (w : Workgroup) (ls : List Nat) (p : Park) : Bool :=
  let there := w.gangs.flatMap fun g => if g.park == some p then g.lanes else []
  ls.all fun l => there.contains l

/-- The condition a parked gang waits for holds: of a failed lock attempt, that it would now succeed; of a race stall, that an entry
is free or that the stall has passed 256 cycles (spec/10 R253). -/
def State.parkOver (s : State) (t : Nat) (g : Gang) : Park → Bool
  | .counter p limits => limits.all fun x => decide (((s.wg t).crew x.1).count p ≤ x.2)
  | .mqueue qs => qs.all fun q => decide (((s.wg t).mqueues.get (hqOf g.hset q)).length < 8)
  | .mxwait ops => ((s.wg t).stillQueued ops).isEmpty
  | .pop c q =>
    match ((s.wg t).crew c).appr with
    | some { unit := some u, .. } =>
      let a := (s.core (s.wg t).core).apprs.get u
      a.st == .ended || a.st == .stalled || ((a.queues.get q).any fun x => !x.pending && !x.new)
    | _ => true
  | .stream c q claim =>
    let x := s.stream t c q
    !x.bound || !(if claim then x.canClaim else x.canTake).isEmpty
  | .barrier k want => (s.wg t).passed k want
  | .monitor c => match ((s.wg t).crew c).monitor with
    | some m => m.fired
    | none => true
  | .queueAt hdr n => seqGe (qWm (s.hdrBits hdr)) n
  | .residency => true
  | .gather c => (s.wg t).allParked ((s.wg t).members c) (.gather c)
  | .tret id =>
    match (s.wg t).traps.find? fun x => x.id == id with
    | some x => (match x.cur with
      | some tc => (s.wg t).allParked ((lanesOf x.hset tc.faulters).filter fun l => ((s.wg t).lane l).live) (.tret id)
      | none => true)
    | none => true
  | .xlinv id => !(s.shootdowns.any fun x => x.id == id)
  | .sweepWait _ => match g.clause with
    | some r => (match r.pend with
      | .sweep es => es.all fun e => e.2.isEmpty
      | _ => true)
    | none => true
  | .swept l => l.all s.sweptDone
  | .sorterSpace q n => decide ((s.sorterQ (s.wg t).core q).length + n ≤ 64)
  | .sorterDone items => !((List.range 8).any fun q => (s.sorterQ (s.wg t).core q).any fun x => items.contains x.item)
  | .lock => !s.outranked t g && (s.again t g .lock id).isSome
  | .race => decide ((match g.clause with | some r => r.pend.stallOf.1 | none => 0) > 256) ||
      (s.again t g .race fun p => .stall p.stallOf.1 false).isSome
  | .bank k => !(s.pch k).held || (s.pch k).postponed == 0
  | .item c id => (s.wg t).itemOver c id
  | .resumed => true

/-! ### Selection (R25, R26, R41) -/

/-- A gang that could be selected: at a clause boundary with its header's waits met, or parked with its condition holding. A lock
holder at a header that waits by DRAIN, MXW or BW waits with its lock (spec/08 R182: DESIGN CHOICE, log 41). -/
def State.ready (s : State) (t : Nat) (g : Gang) : Bool :=
  let w := s.wg t
  !w.gangHeld g && g.mask != 0 &&
  (match g.clause, g.park with
    | none, _ => !g.cross && !g.regang && (match s.fetchClause w g with
      | some x => w.waitsMet g x.1
      | none => true)
    | some _, some p => s.parkOver t g p
    | some _, none => false)

/-- Slices of a gang with their ages. -/
def Gang.slices (g : Gang) : List (Nat × Nat) :=
  ((List.range 8).filter fun k => (g.mask >>> (4 * k)) &&& 0xF != 0).map fun k => (k, g.ages.getD k 0)

/-- The oldest path of a gang: age, slice. -/
def Gang.oldest (g : Gang) : Nat × Nat :=
  g.slices.foldl (fun m x => if x.2 > m.1 then (x.2, x.1) else m) (0, ((g.slices.map (·.1)).headD 0))

/-- The ready gangs of a quadrant: workgroup, gang, home set in the quadrant. -/
def State.readyOf (s : State) (core quad : Nat) : List (Nat × Gang × Nat) :=
  s.wgs.flatMap fun p => if p.2.core = core then
    (p.2.gangs.filter fun g => quadOf g.hset == quad && s.ready p.1 g).map fun g => (p.1, g, p.2.homes.getD g.hset 0)
  else []

/-- The first of two ready gangs by age, home set, slice (R26); of two that are equal in all of these, the first in the list (DESIGN
CHOICE, log 75). -/
def olderGang (a b : Nat × Gang × Nat) : Bool :=
  let x := a.2.1.oldest
  let y := b.2.1.oldest
  decide (x.1 > y.1) || (x.1 == y.1 && (decide (a.2.2 < b.2.2) || (a.2.2 == b.2.2 && decide (x.2 ≤ y.2))))

/-- The gangs that a quadrant may select now: the oldest one when an age exceeds 256, else any, those in a YIELD hold last. -/
def State.selectable (s : State) (core quad : Nat) : List (Nat × Nat) :=
  let rs := s.readyOf core quad
  match rs.filter fun x => decide (x.2.1.oldest.1 > 256) with
  | [] =>
    match rs.filter fun x => x.2.1.hold == 0 with
    | [] => rs.map fun x => (x.1, x.2.1.id)
    | fs => fs.map fun x => (x.1, x.2.1.id)
  | o :: os =>
    let m := os.foldl (fun a b => if olderGang a b then a else b) o
    [(m.1, m.2.1.id)]

/-- The quadrant of the gang's home set is free, has its turn in the cycle, and may select the gang. -/
def State.maySelect (s : State) (t : Nat) (g : Gang) : Bool :=
  let w := s.wg t
  !s.quadBusy w.core (quadOf g.hset) (t, g.id) && (s.selectable w.core (quadOf g.hset)).contains (t, g.id) &&
  s.hasTurn w g

/-! ### CLAUSE_ISSUE (R25, R27, R42; spec/03 R51; spec/15 R366) -/

/-- Instructions that gather their home set: VOTE and SHFL (R42), FREDA and FREDM (spec/06 R137), the three of stream decode (spec/06
R138). -/
def gathersHome : Instr → Bool
  | .vote .. => true
  | .shfl .. => true
  | .freda _ => true
  | .fredm _ => true
  | .unpkd .. => true
  | .unpkz .. => true
  | .unpkr .. => true
  | _ => false

/-- A cross-lane clause (R42). -/
def crossLane (is : List (Nat × Instr)) : Bool := is.any fun p => gathersHome p.2

/-- Every live lane of a home set is in a mask. -/
def Workgroup.wholeHome (w : Workgroup) (h : Nat) (m : BitVec 32) : Bool :=
  w.liveLanes.all fun l => homeOf l != h || m.getLsbD (posOf l)

/-- The clause starts: REGION opens the lanes' regions, the header's waits end their intervals, BW takes their parities and
acquires; the execute mask is that of PRED and PNEG. -/
def State.beginClause (s : State) (t : Nat) (g : Gang) (h : Nat) (ws : List Nat) : State :=
  let ls := g.lanes
  let s1 := s.updWg t fun w =>
    let w1 := if hRegion h then overList ls w fun w l => w.updLane l fun x =>
        { x with opened := true, repc := BitVec.ofNat 18 g.pc, rcnt := x.rcnt + 1 } else w
    let w2 := if hBw h ∨ hDrains h ≠ [] then w1.endInterval ls else w1
    if hBw h then w2.setParity (hK h) ls else w2
  let s2 := if hBw h then s1.acquired t .acquire .cluster else s1
  let exec := maskOfLanes (ls.filter fun l => ((s.wg t).lane l).pred (hPred h) != hNeg h)
  s2.updGang t g.id fun x => { x with
    ages := freshAges
    clause := some { (default : ClauseRun) with
      base := g.pc, hdr := BitVec.ofNat 32 h, words := ws.map fun k => BitVec.ofNat 32 k, issue := g.mask, exec := exec } }

/-- The quadrant fetches and decodes the clause of a selected gang (R51). The spec asks for no crew check at a BW header, and the
model makes none, for lanes in no crew or of two crews (DEDUCED, log 43). An uncorrectable error of the instruction store is a machine
check at the clause (spec/15 R358); its address is the byte's place in the store (DESIGN CHOICE, log 31). -/
def State.startClause (s : State) (t : Nat) (g : Gang) : State :=
  let w := s.wg t
  let ls := g.lanes
  let stop (cause fpc : Nat) (fs : List Nat) (detail : List Word := []) : State :=
    s.takeTrap t g.id { cause := cause, faulters := fs, fpc := fpc, decode := true, detail := fun _ => detail }
  match s.fetchClause w g with
  | none => stop 0xA0 g.pc ls
  | some (h, off, ws) =>
    let k := (w.slotOf (g.pc / 4096)).getD 0
    let pa := 4096 * k + g.pc % 4096
    if s.codeBroken w.core k then
      (s.logMc 0xB5 7 pa).takeTrap t g.id { cause := 0xB5, faulters := ls, fpc := g.pc, decode := true, detail := fun _ => mcDetail 7 pa }
    else
    match clauseDecode w.vregs h off ws with
    | .error (k, c) => stop c.code (g.pc + 4 * k) ls
    | .ok is =>
      if crossLane is ∧ w.wholeHome g.hset g.mask = false then
        match ls.filter fun l => (w.lane l).lock.isSome with
        | [] => s.updGang t g.id fun x => { x with cross := true }
        | k :: ks => stop 0x62 g.pc (k :: ks) (match (w.lane k).lock with | some x => [BitVec.ofNat 32 x.phys] | none => [])
      else if hBw h ∧ w.calleeLanes g ≠ [] then stop 0x75 g.pc (w.calleeLanes g)
      else if hBw h ∧ (w.barriers.get (hK h)).init = false then stop 0x61 g.pc ls
      else s.beginClause t g h ws

/-- CLAUSE_ISSUE. -/
def execClauseIssue (wg gang : Nat) (s : State) : Host.Outcome State Fault Refusal :=
  match (s.wg wg).gang? gang with
  | none => .fault .notEnabled
  | some g =>
    if g.clause.isSome ∨ s.maySelect wg g = false then .fault .notEnabled
    else .next ((s.startClause wg g).spent s.free)

/-- Reasons to park whose wake-up is an event of its own: LOCK_RETRY, RACE_STALL_RELEASE, RACE_STALL_TIMEOUT. -/
def Park.retried : Park → Bool
  | .lock => true
  | .race => true
  | _ => false

/-- GANG_UNPARK: the gang resumes at its blocked instruction, with its latches and clause position. -/
def execGangUnpark (wg gang : Nat) (s : State) : Host.Outcome State Fault Refusal :=
  match (s.wg wg).gang? gang with
  | none => .fault .notEnabled
  | some g =>
    if g.park.all Park.retried ∨ s.maySelect wg g = false then .fault .notEnabled
    else .next (s.updGang wg gang fun x => { x with park := none, ages := freshAges })

/-! ### REGANG windows, YIELD holds, cross-lane gathering, dissolution -/

/-- REGANG_WINDOW_CLOSE (R40), at the end of the cycle in which the window expires or every live lane of the home set waits: the
merged gang goes on in the next cycle at the earliest. -/
def execRegangWindowClose (wg hset pc : Nat) (s : State) : Host.Outcome State Fault Refusal :=
  let w := s.wg wg
  match w.windows.find? fun x => x.hset == hset && x.pc == pc with
  | none => .fault .notEnabled
  | some x =>
    let m := (w.atRegang hset pc).foldl (fun m g => m ||| g.mask) 0
    if x.left = 0 ∨ w.wholeHome hset m then .next ((s.closeWindow wg hset pc).endIssues w.core) else .fault .notEnabled

/-- YIELD_HOLD_EXPIRE (R41): the last cycle of the hold is over. -/
def execYieldHoldExpire (wg gang : Nat) (s : State) : Host.Outcome State Fault Refusal :=
  match (s.wg wg).gang? gang with
  | none => .fault .notEnabled
  | some g => if g.hold = 1 then .next (s.updGang wg gang fun x => { x with hold := 0 }) else .fault .notEnabled

/-- CROSS_LANE_GATHER (R42): the waiting paths of a home set merge into one gang. -/
def execCrossLaneGather (wg hset pc : Nat) (s : State) : Host.Outcome State Fault Refusal :=
  let w := s.wg wg
  let gs := w.gangs.filter fun g => g.cross && g.hset == hset && g.pc == pc
  if gs.isEmpty ∨ w.wholeHome hset (gs.foldl (fun m g => m ||| g.mask) 0) = false then .fault .notEnabled
  else .next (s.setWg wg (w.mergeGangs gs))

/-- True when a crew dissolves: sealed, without members, with nothing counted in flight (R30). -/
def Workgroup.crewOver (w : Workgroup) (c : Nat) : Bool :=
  (w.crew c).held && !(w.crew c).gone && (w.crew c).forming.isNone && (w.members c).isEmpty && (w.crew c).drained

/-- CREW_DISSOLVE (R30; spec/12 R286; spec/13 R329): its Apprentice is released, barriers bound to it are no longer bound, its
all-bank ownership ends, and its identifier is free from the next cycle on. -/
def execCrewDissolve (wg crew : Nat) (s : State) : Host.Outcome State Fault Refusal :=
  if (s.wg wg).crewOver crew = false then .fault .notEnabled
  else
    let s1 := (s.freeAppr wg crew).endOwnership wg (some crew) 2
    .next (s1.updWg wg fun w => { w with
      crews := w.crews.set crew { (default : Crew) with held := true, gone := true, flight := (w.crew crew).flight }
      barriers := w.barriers.map fun p => (p.1, if p.2.bound && p.2.bcrew.toNat == crew then { p.2 with bound := false } else p.2) })

/-! ### IN_FLIGHT_COMPLETE (spec/08 R176) -/

/-- IN_FLIGHT_COMPLETE: an item that may be performed is performed, and counters fall in issue order. -/
def execInFlightComplete (wg crew item : Nat) (s : State) : Host.Outcome State Fault Refusal :=
  match (s.wg wg).item? crew item with
  | none => .fault .notEnabled
  | some i =>
    if (s.wg wg).life = .saved then .fault .notEnabled
    else if s.mayPerform wg i = false then
      (match i.op with
        | .nop => if i.path.isSome ∧ i.done = false ∧ (s.wg wg).items.all (fun j => j.id != item || (match j.op with | .nop => true | _ => j.done))
            then .next (s.updWg wg fun w => w.finishItem item) else .fault .notEnabled
        | _ => .fault .notEnabled)
    else .next ((overList ((s.wg wg).crewsOf (i.lanes.map (·.1)) ++ [crew]) (s.perform wg crew i)
      fun s c => s.settleForced wg c).spent s.free)

/-! ### Retries, and the spill of race entries (spec/08 R182, R184, spec/10 R253) -/

/-- LOCK_RETRY (R184): the attempt of a parked LDLK or ATOMS is made again, and takes its bits. -/
def execLockRetry (wg gang : Nat) (s : State) : Host.Outcome State Fault Refusal :=
  match (s.wg wg).gang? gang with
  | none => .fault .notEnabled
  | some g =>
    if g.park ≠ some .lock ∨ s.maySelect wg g = false then .fault .notEnabled
    else match s.again wg g .lock id with
      | some s1 => .next (s1.tookAttempt (s.wg wg) g)
      | none => .fault .notEnabled

/-- LOCK_HOLD (R182): the 17th issue with the lock still held traps. -/
def execLockHold (wg gang : Nat) (s : State) : Host.Outcome State Fault Refusal :=
  match (s.wg wg).gang? gang with
  | none => .fault .notEnabled
  | some g =>
    match g.clause, g.park with
    | some r, none =>
      let e := s.env wg g r
      (match e.overHeld with
        | [] => .fault .notEnabled
        | l :: ls =>
          if (s.wg wg).gangHeld g then .fault .notEnabled
          else .next (s.takeTrap wg gang { cause := 0x62, faulters := l :: ls, fpc := e.fpc, detail := e.lockDetail }))
    | _, _ => .fault .notEnabled

/-- A stalled access that an entry has become free for, or that goes on unchecked, issues again. -/
def State.raceAgain (s : State) (t gid : Nat) (pass : Bool) : Host.Outcome State Fault Refusal :=
  match (s.wg t).gang? gid with
  | none => .fault .notEnabled
  | some g =>
    let n := match g.clause with | some r => r.pend.stallOf.1 | none => 0
    if g.park ≠ some .race ∨ (pass ∧ n ≤ 256) ∨ s.maySelect t g = false then .fault .notEnabled
    else match s.again t g .race (fun p => .stall p.stallOf.1 pass) pass with
      | some s1 => .next (s1.tookTurn (s.wg t) g)
      | none => .fault .notEnabled

/-- RACE_STALL_RELEASE (spec/10 R253). -/
def execRaceStallRelease (wg gang : Nat) (s : State) : Host.Outcome State Fault Refusal := s.raceAgain wg gang false

/-- RACE_STALL_TIMEOUT (spec/10 R253): the stall has passed 256 cycles; the line is marked unchecked and the access proceeds. -/
def execRaceStallTimeout (wg gang : Nat) (s : State) : Host.Outcome State Fault Refusal := s.raceAgain wg gang true

/-- Stack whose L2 holds a device line (spec/10 R246). -/
def stackOfLine (line : Nat) : Nat := 64 * line / 2 ^ 36

/-- L2_EVICT_SPILL (spec/10 R253): the L2 evicts a device line with live entries; they move to the spill table of its stack, or
the line is marked unchecked. -/
def execL2EvictSpill (line : Nat) (s : State) : Host.Outcome State Fault Refusal :=
  let k := stackOfLine line
  if aperture (64 * line) ≠ some 0 ∨ (((s.stks.get k).race.lines.get line).filter s.entryLive).isEmpty then .fault .notEnabled
  else .next (s.evictEntries k line)

end Sys2Proof.Machine
end

