-- ==== Sys2Proof/Machine/Place.lean ====
section
/-! DEFINITION. Placement, completion, pre-emption, save and restore of workgroups (spec/16 R389-R391, R399; spec/15 R375-R377;
spec/02 R39; spec/08 R166-R168; spec/04 R72): WORKGROUP_PLACE, WORKGROUP_COMPLETE, PREEMPT, PREEMPT_SAVE, RESTORE. -/

namespace Sys2Proof.Machine

open Sys2Proof

/-! ### Room on a core -/

/-- Cores of the module (spec/01 R12). -/
def numCores : Nat := 4096

/-- The workgroup occupies its core. -/
def Life.here : Life → Bool
  | .resident => true
  | .stopping => true
  | _ => false

/-- The workgroups that occupy a core. -/
def State.onCore (s : State) (c : Nat) : List (Nat × Workgroup) := s.wgs.filter fun p => p.2.core == c && p.2.life.here

/-- What an instance needs of a core: home sets, VREGS, window and carve-out bytes, segments by tag, whether a fetch of one of them in
progress serves it, the segments of its image, its node and the node's macros, Apprentices. -/
structure Need where
  homes : Nat
  vregs : Nat
  size : Nat
  segs : List (Nat × Nat)
  share : Bool
  image : List (Nat × Nat)
  node : Nat
  nmac : Nat
  apprs : Nat

/-- What a core offers: physical home sets, the window bases that are free, a slot for each segment. -/
structure Room where
  homes : List Nat
  bases : List Nat
  slots : List Nat

/-- A free physical home set for each home set, the lowest of its quadrant (spec/02 R18). -/
def pickHomes : Nat → Nat → List (Nat × Nat) → Option (List Nat)
  | 0, _, _ => some []
  | n + 1, j, used =>
    match (List.range 4).find? fun k => !used.contains (quadOf j, k) with
    | none => none
    | some k => (pickHomes n (j + 1) ((quadOf j, k) :: used)).map (k :: ·)

/-- Home sets of the first n that lie in a quadrant. -/
def homesIn (n d : Nat) : Nat := ((List.range n).filter fun j => quadOf j == d).length

/-- Tag address under which a segment from scratchpad is saved: it matches no image segment. -/
def spadTag : Nat := 2 ^ 56

/-- A slot is fetching, or holds one of some image segments. -/
def Core.slotInUse (c : Core) (image : List (Nat × Nat)) (k : Nat) : Bool :=
  let x := c.istore.get k
  x.st == .fetching || (x.st == .landed && !x.fromSpad && image.contains (x.tagDom, x.tagVa))

/-- A slot for each segment: the one that holds it, or fetches it if that serves, else a slot with count 0, one that is not fetching
and holds no segment of the instance's image before any other (R389, R395). -/
def Core.slotsFor (c : Core) (share : Bool) (image : List (Nat × Nat)) : List (Nat × Nat) → List Nat → Option (List Nat)
  | [], _ => some []
  | (d, va) :: rest, taken =>
    let there := match c.slotOf d va .landed with
      | some k => some k
      | none => if share then c.slotOf d va .fetching else none
    match there with
    | some k => (c.slotsFor share image rest (k :: taken)).map (k :: ·)
    | none =>
      let free := (List.range 64).filter fun k => (c.istore.get k).count == 0 && !taken.contains k &&
        !(rest.any fun t => c.slotOf t.1 t.2 .landed == some k)
      match (free.filter fun k => !c.slotInUse image k) ++ free with
      | [] => none
      | k :: _ => (c.slotsFor share image rest (k :: taken)).map (k :: ·)

/-- The control store holds a node's macros, or has room for them (spec/16 R399). -/
def Core.macroRoom (c : Core) (node n : Nat) : Bool :=
  (c.macros.any fun p => p.2.node == node && p.2.users != []) || decide (c.macros.length + n ≤ 64)

/-- Bytes of a workgroup's window and carve-out. -/
def Workgroup.bytes (w : Workgroup) : Nat := w.spad + l1Bytes w.l1code

/-- The room of a core for an instance, when everything is free at once (R389). The gate save area, which the spec gives no
size, has room for every gate stack (log 32). -/
def State.roomAt (s : State) (c : Nat) (n : Need) : Option Room :=
  let on := s.onCore c
  let core := s.core c
  let used := on.flatMap fun p => p.2.homes.zipIdx.map fun (h : Nat × Nat) => (quadOf h.2, h.1)
  let regs := (List.range 4).all fun d =>
    decide (on.foldl (fun m p => m + 32 * p.2.vregs * homesIn p.2.homes.length d) (32 * n.vregs * homesIn n.homes d) ≤ 16384)
  let clear (b : Nat) : Bool := on.all fun p => p.2.bytes == 0 || decide (b + n.size ≤ p.2.base) || decide (p.2.base + p.2.bytes ≤ b)
  let bases := if n.size = 0 then [0] else
    ((List.range 1024).map fun k => 4096 * k).filter fun b => decide (b + n.size ≤ 4194304) && clear b
  let units := ((List.range 4).filter fun u => (core.apprs.get u).st == .unbound).length
  match pickHomes n.homes 0 used, core.slotsFor n.share n.image n.segs [] with
  | some hs, some sl =>
    if (s.islands.get (islandOf c)).stopped = false ∧ on.length < 8 ∧ regs ∧ bases ≠ [] ∧ core.macroRoom n.node n.nmac ∧ n.apprs ≤ units then some ⟨hs, bases, sl⟩ else none
  | _, _ => none

/-! ### What waits for a place (R390) -/

/-- Home sets of n lanes (spec/02 R18). -/
def homeSets (n : Nat) : Nat := (n + 31) / 32

/-- The entry segment's address, and the entry's code address (R389). -/
def NodeDesc.entryVa (d : NodeDesc) : Nat := d.code + 4096 * d.eseg
def NodeDesc.entryPc (d : NodeDesc) : Nat := 4096 * d.eseg + 4 * d.eoff

/-- What an unplaced instance of a node needs. -/
def Node.need (n : Node) : Need :=
  let d := n.desc
  { homes := homeSets d.lanes, vregs := d.vregs, size := 4096 * d.spad + l1Bytes d.l1, segs := [(d.domain, d.entryVa)]
    share := true, image := (List.range d.nseg).map fun k => (d.domain, d.code + 4096 * k)
    node := n.id, nmac := n.macros.length, apprs := 0 }

/-- Crews of a workgroup that hold an Apprentice. -/
def Workgroup.bindings (w : Workgroup) : List (Nat × ApprBinding) :=
  w.crews.filterMap fun p => p.2.appr.map fun b => (p.1, b)

/-- What a saved instance needs. -/
def State.savedNeed (s : State) (t : Nat) : Need :=
  let w := s.wg t
  { homes := homeSets w.nlanes, vregs := w.vregs, size := w.bytes, segs := w.savedSegs.map fun x => (x.dom, x.va)
    share := false, image := []
    node := w.node, nmac := (match s.node? w.node with | some n => n.macros.length | none => 0), apprs := w.bindings.length }

/-- The workgroups that are placed, saved and restored together; siblings that have completed are no longer among them
(spec/08 R167). -/
def State.unitOf (s : State) (t : Nat) : List Nat := if (s.wg t).cluster then (s.wg t).sibs.filterMap id else [t]

/-- Work that waits for a place: priority, domain, node, instance, and the tag of a saved workgroup. -/
structure Waiting where
  prio : Nat
  domain : Nat
  node : Nat
  inst : Nat
  tag : Option Nat
  deriving DecidableEq

/-- Saved workgroups, one entry for each group of four, and ready nodes with instances to place. -/
def State.waiting (s : State) : List Waiting :=
  let saved := s.wgs.filterMap fun p =>
    if p.2.life = .saved ∧ (s.unitOf p.1).head? = some p.1 then
      let prio := match s.node? p.2.node with | some n => n.desc.prio | none => 0
      some (⟨prio, p.2.domain, p.2.node, p.2.inst, some p.1⟩ : Waiting)
    else none
  saved ++ s.pool.nodes.filterMap fun n =>
    if n.ready ∧ n.desc.kind = 0 ∧ n.nextInst < n.desc.ninst then some ⟨n.desc.prio, n.desc.domain, n.id, n.nextInst, none⟩ else none

/-- The cores that work is placed on when it goes to a core: four of one cluster, or one. -/
def coresFrom (cluster : Bool) (c : Nat) : List Nat := if cluster then [c, c + 1, c + 2, c + 3] else [c]

/-- The saved workgroups of a unit by the core that each goes to: a group of four stands by cluster position, where a sibling that has
completed needs nothing (spec/08 R167). -/
def State.savedUnit (s : State) (t : Nat) : List (Option Nat) := if (s.wg t).cluster then (s.wg t).sibs else [some t]

/-- Needs of waiting work on each of its cores, and whether it is a group of four. -/
def State.needsOf (s : State) (x : Waiting) : Bool × List (Option Need) :=
  match x.tag with
  | some t => ((s.wg t).cluster, (s.savedUnit t).map fun u => u.map s.savedNeed)
  | none => match s.node? x.node with
    | some n => (n.desc.cluster, List.replicate (if n.desc.cluster then 4 else 1) (some n.need))
    | none => (false, [])

/-- The work fits on a core, or on the cluster that begins at it. -/
def State.fitsAt (s : State) (x : Waiting) (c : Nat) : Bool :=
  let (cl, ns) := s.needsOf x
  (!cl || c % 4 == 0) && decide (c < numCores) && !ns.isEmpty &&
  ((coresFrom cl c).zip ns).all fun p => p.2.all fun n => (s.roomAt p.1 n).isSome

/-- Work fits on a core of a list, or on the cluster of one. -/
def State.fitsOver (s : State) (y : Waiting) (cs : List Nat) : Bool :=
  cs.any fun k => s.fitsAt y (if (s.needsOf y).1 then k / 4 * 4 else k)

/-- Of waiting work of one priority that fits somewhere, the one that is placed next: a saved instance before an unplaced one
(R389); domains in turn from the one last served; the oldest node, the lowest instance (R390). -/
def State.nextAt (s : State) (prio : Nat) : Option Waiting :=
  let ys := s.waiting.filter fun x => x.prio == prio && (List.range numCores).any (s.fitsAt x)
  let zs := if ys.any fun x => x.tag.isSome then ys.filter fun x => x.tag.isSome else ys
  let doms := sortNat (dedup (zs.map (·.domain)))
  let last := s.pool.served.get prio
  let dom := match doms.filter (· > last) with
    | d :: _ => d
    | [] => doms.headD 0
  (zs.filter fun x => x.domain == dom).foldl (fun m x => match m with
    | none => some x
    | some y => if x.node < y.node ∨ (x.node = y.node ∧ x.inst < y.inst) then some x else some y) none

/-- The pool may place waiting work on a core, or on the cluster that begins at it: it fits, it is next at its priority, and nothing of
higher priority fits on a core that it would take, alone or with its cluster. -/
def State.mayPlace (s : State) (x : Waiting) (c : Nat) : Bool :=
  s.fitsAt x c && (s.waiting.all fun y => decide (y.prio ≤ x.prio) || !s.fitsOver y (coresFrom (s.needsOf x).1 c)) &&
  s.nextAt x.prio == some x

/-! ### Placing an instance (R389) -/

/-- A running packet names a workgroup. -/
def State.packetNames (s : State) (t : Nat) : Bool :=
  s.queues.any fun q => q.running.any fun p => p.tgtWg == t && (p.tgten || p.needsWg)

/-- A free WGTAG of the implementation's choice, other than 0x1FFFFF, and none that a running packet names: what it does to the
workgroup that has gone reaches no later one (spec/08 R168). -/
def State.freeTag (s : State) (k : Nat) : Nat :=
  let start := Config.choice (s.free + k) % 2097151
  match (List.range 2097151).find? fun j => (s.wg ((start + j) % 2097151)).life = .absent && !s.packetNames ((start + j) % 2097151) with
  | some j => (start + j) % 2097151
  | none => 0

/-- Translated pieces of a run of virtual memory, or the cause and the failing address. -/
def State.virtSpans (s : State) (wr : Bool) (d va n : Nat) : Except (Nat × Nat) (List Span) :=
  (granules va n).foldr (fun p acc =>
    match s.walkMem d wr p.1, acc with
    | .fail c _ _, _ => .error (c, p.1)
    | .ok .., .error e => .error e
    | .ok pa .., .ok l => .ok (⟨.phys pa, p.2⟩ :: l)) (.ok [])

/-- Record 0 of a node (spec/09 R211). -/
def NodeDesc.record0 (d : NodeDesc) : List Word :=
  let r := d.privbase + 3 * 2 ^ 56 + 2 ^ 59 + 2 ^ 60 + d.privwsize * 2 ^ 256 + d.domain * 2 ^ 288
  (List.range 16).map fun k => BitVec.ofNat 32 (bits r (32 * k) 32)

/-- A table entry of a node as the core reads it: one that cannot be read is zero, so that it is not VALID. -/
def State.tableWords (s : State) (dom va : Nat) : List Word :=
  match s.rdVirt dom va 64 with
  | .ok b => wordsLE b
  | .error _ => List.replicate 16 0

/-- Physical address of a virtual one, as a table's slot lies there. -/
def State.slotPa (s : State) (dom va : Nat) : Nat := match s.walkMem dom false va with | .ok pa .. => pa | .fail .. => 0

/-- Record 0 is written to its slot in table memory (spec/09 R196, R211), as far as the slot can be written. -/
def State.writeRecord0 (s : State) (d : NodeDesc) : State :=
  match s.virtSpans false d.domain d.rectab 40 with
  | .error _ => s
  | .ok l => s.putSpans l (bytesLE (d.record0.take 10))

/-- A core loads a node's records and shape records into its record cache (spec/09 R197). -/
def State.loadRecords (s : State) (core id : Nat) (d : NodeDesc) : State :=
  let entry (shape : Bool) (i va : Nat) : RecEntry :=
    ⟨.node id, shape, i, if shape = false ∧ i = 0 then d.record0 else s.tableWords d.domain va, s.slotPa d.domain va⟩
  let rs := (List.range d.nrec).map fun i => entry false i (d.rectab + 64 * i)
  let hs := (List.range d.nshape).map fun i => entry true i (d.shapetab + 64 * i)
  s.updCore core fun c => { c with recs := rs ++ hs ++ c.recs.filter fun e => e.key != .node id }

/-- A core loads a node's macros for a workgroup, or shares those the node has there (spec/16 R399). -/
def State.loadMacros (s : State) (t core node : Nat) (ms : List (List (Word × Word))) : State :=
  let there := (s.core core).macros.filter fun p => p.2.node == node && p.2.users != []
  let c := s.core core
  if there.isEmpty then
    let free := (List.range 64).filter fun k => (c.macros.get k).users == []
    let put := (free.zip ms).zipIdx
    let m1 := overList put c.macros fun m x => m.set x.1.1 { node := node, index := x.2, users := [t], ops := x.1.2 }
    (s.updCore core fun c => { c with macros := m1 }).updWg t fun w => { w with
      macros := overList put w.macros fun m x => m.set x.2 (x.1.1 + 1) }
  else
    let m1 := overList there c.macros fun m x => m.upd x.1 fun e => { e with users := e.users ++ [t] }
    (s.updCore core fun c => { c with macros := m1 }).updWg t fun w => { w with
      macros := overList there w.macros fun m x => m.set x.2.index (x.1 + 1) }

/-- A workgroup gives its macros up: entries that no workgroup of the node uses are free. -/
def State.dropMacros (s : State) (t : Nat) : State :=
  (s.updCore (s.wg t).core fun c => { c with
    macros := overList (c.macros.filter fun p => p.2.users.contains t) c.macros fun m x =>
      let us := x.2.users.filter (· != t)
      m.set x.1 (if us.isEmpty then default else { x.2 with users := us }) }).updWg t fun w => { w with macros := [] }

/-- The lanes, the crew and the gangs of a fresh workgroup (spec/02 R24, R28). -/
def Workgroup.launch (w : Workgroup) (d : NodeDesc) : Workgroup :=
  let lane (_ : Nat) : Lane := { (default : Lane) with live := true, crew := some 0 }
  let w1 := { w with
    lanes := overList (List.range d.lanes) [] fun m l => SMap.set m l (lane l)
    crews := SMap.set [] 0 { (default : Crew) with
      held := true, domain := d.domain
      s := overList (List.range 8) [] fun m k => SMap.set m k (BitVec.ofNat 32 (d.param k)) } }
  overList (List.range (homeSets d.lanes)) w1 fun w h => w.addGang { (default : Gang) with
    hset := h, pc := d.entryPc, ages := freshAges
    mask := maskOfLanes ((List.range 32).filter fun k => decide (32 * h + k < d.lanes)) }

/-- A fresh workgroup of a node (R389), before its segments are mapped. -/
def freshWorkgroup (n : Node) (inst core base : Nat) (homes : List Nat) (sibs : List (Option Nat)) : Workgroup :=
  let d := n.desc
  ({ (default : Workgroup) with
    life := .resident, node := n.id, inst := inst, core := core, homes := homes, nlanes := d.lanes, vregs := d.vregs
    spad := 4096 * d.spad, l1code := d.l1, cluster := d.cluster, sibs := sibs, base := base, gdepth := d.gdepth
    domain := d.domain, nrec := d.nrec, nshape := d.nshape, codeVa := d.code, nseg := d.nseg
    privBase := d.privbase, privSize := d.privwsize, rgwin := 64, yhold := 16 } : Workgroup).launch d

/-- Map the landed segments of a node's image, but for the entry segment, which has its slot first (R389). -/
def State.mapLanded (s : State) (t : Nat) (d : NodeDesc) : State :=
  overList ((List.range d.nseg).filter (· != d.eseg)) s fun s k =>
    match (s.core (s.wg t).core).slotOf d.domain (d.code + 4096 * k) .landed with
    | some sl => s.mapSeg t k sl
    | none => s

/-- Map the entry segment to its slot; where it has not landed it is fetched, and the lanes wait for it. -/
def State.mapEntry (s : State) (t slot : Nat) (d : NodeDesc) (src : List Span) : State :=
  let core := (s.wg t).core
  let x := (s.core core).istore.get slot
  let mine := !x.fromSpad && x.tagDom == d.domain && x.tagVa == d.entryVa
  if x.st = .landed ∧ mine then s.mapSeg t d.eseg slot
  else
    let s1 := if x.st = .fetching ∧ mine then s else s.beginFetch core slot d.domain d.entryVa false src
    (s1.mapSeg t d.eseg slot).updWg t fun w => { w with starting := some slot }

/-- Place one instance on a core, in a room of it; the core reads the domain's descriptor (spec/14 R333). -/
def State.placeOne (s : State) (n : Node) (inst t core : Nat) (sibs : List (Option Nat)) (r : Room) : State :=
  let d := n.desc
  let base := r.bases.getD (Config.choice s.free % max 1 r.bases.length) 0
  let s0 := (s.descLoad core d.domain).setWg t (freshWorkgroup n inst core base r.homes sibs)
  let s1 := (s0.writeRecord0 d).loadRecords core n.id d
  let s2 := s1.loadMacros t core n.id n.macros
  let fail (e : Nat × Nat) : State := (s2.mapLanded t d).terminate t e.1 d.entryPc d.domain e.2
  match s2.virtSpans false d.domain d.entryVa 4096, s2.virtSpans false d.domain d.mactab (512 * d.nmac) with
  | .error e, _ => fail e
  | .ok _, .error e => fail e
  | .ok src, .ok _ => (s2.mapEntry t (r.slots.headD 0) d src).mapLanded t d

/-- Tables that placement reads lie in a pseudo-channel that is held. -/
def State.placeHeld (s : State) (d : NodeDesc) : Bool :=
  s.virtHeld d.domain false d.rectab (64 * d.nrec) || s.virtHeld d.domain false d.shapetab (64 * d.nshape)

/-- Record that a domain has been served at a priority (R390). -/
def State.serve (s : State) (prio dom : Nat) : State := { s with pool := { s.pool with served := s.pool.served.set prio dom } }

/-- WORKGROUP_PLACE: the next instance of a ready node, or four of them on a cluster, is placed. -/
def execWorkgroupPlace (node core : Nat) (s : State) : Host.Outcome State Fault Refusal :=
  match s.node? node with
  | none => .fault .notEnabled
  | some n =>
    let x : Waiting := ⟨n.desc.prio, n.desc.domain, node, n.nextInst, none⟩
    if s.waiting.contains x = false ∨ s.mayPlace x core = false ∨ s.placeHeld n.desc then .fault .notEnabled
    else
      let cores := coresFrom n.desc.cluster core
      let t0 := s.freeTag 0
      let tags := if n.desc.cluster then
          let t1 := (s.setWg t0 { (default : Workgroup) with life := .saved }).freeTag 1
          let t2 := ((s.setWg t0 { (default : Workgroup) with life := .saved }).setWg t1 { (default : Workgroup) with life := .saved }).freeTag 2
          let t3 := (((s.setWg t0 { (default : Workgroup) with life := .saved }).setWg t1 { (default : Workgroup) with life := .saved }).setWg t2
            { (default : Workgroup) with life := .saved }).freeTag 3
          [t0, t1, t2, t3]
        else [t0]
      let s1 := overList ((cores.zip tags).zipIdx) s fun s p =>
        match s.roomAt p.1.1 n.need with
        | some r => ({ s with free := s.free + 1 }).placeOne n (n.nextInst + p.2) p.1.2 p.1.1 (tags.map some) r
        | none => s
      let s2 := s1.updNode node fun m => { m with nextInst := m.nextInst + tags.length }
      .next ((s2.serve n.desc.prio n.desc.domain).spent s.free)

/-! ### Completion (spec/02 R39, spec/15 R363, R379) -/

/-- A workgroup is over: no live lane, nothing left to drain, no undissolved crew unless it is terminated, nothing queued at the
matrix units. -/
def Workgroup.isOver (w : Workgroup) : Bool :=
  w.life.here && w.liveLanes.isEmpty && (w.mqueues.all fun p => p.2.isEmpty) &&
  (w.crews.all fun p => p.2.flight.isEmpty && (w.term.isSome || !p.2.held))

/-- A run of bytes in the window of a workgroup. -/
def Span.inWin (x : Span) (t : Nat) : Bool := match x.loc with | .win u _ => u == t | .phys _ => false

/-- What another workgroup has in progress still names a workgroup: an access to its window, an arrival at a barrier of it, a lock on a
granule of it, a Sorter entry. The window and the tag return when that is over (spec/08 R168). -/
def State.stillNamed (s : State) (t : Nat) : Bool :=
  (s.wgs.any fun p => p.1 != t &&
    ((p.2.items.any fun i => !i.done && (i.bytes.any (·.inWin t) || match i.op with | .arrive u .. => u == t | _ => false)) ||
      p.2.lanes.any fun l => l.2.lock.any fun k => k.owner == t)) ||
  s.cores.any fun c => c.2.sorter.any fun q => q.2.any fun x => x.wg != t && ((Span.mk x.result 8).inWin t || (Span.mk x.act 4).inWin t)

/-- Forget the race entries of a workgroup. -/
def RaceHome.without (r : RaceHome) (t : Nat) : RaceHome :=
  { r with
    lines := overList r.lines [] fun m p => SMap.set m p.1 (p.2.filter fun e => e.wg != t)
    spill := r.spill.filter fun p => p.2.wg != t }

/-- The resources of a workgroup return: segments, macros, window, registers, tag. -/
def State.reclaim (s : State) (t : Nat) : State :=
  let s1 := (overList (List.range 64) s fun s k => s.unmapSeg t k).dropMacros t
  let s2 : State := { s1 with
    cores := overList s1.cores [] fun m p => SMap.set m p.1 { p.2 with race := p.2.race.without t }
    stks := overList s1.stks [] fun m p => SMap.set m p.1 { p.2 with race := p.2.race.without t } }
  let gone (w : Workgroup) : Workgroup := { w with sibs := w.sibs.map fun x => if x = some t then none else x }
  (overList ((s.wg t).sibs.filterMap id) s2 fun s u => s.updWg u gone).setWg t default

/-- The lanes of a workgroup, as agents. -/
def State.agents (s : State) (t : Nat) : List Agent := (s.wg t).lanes.map fun p => .lane t p.1

/-- WORKGROUP_COMPLETE: the stores that its lanes see as performed are at their homes, since its node's record may be written now, as a
release (R379); its part is merged into the record, and its resources return. -/
def execWorkgroupComplete (wg : Nat) (s : State) : Host.Outcome State Fault Refusal :=
  let w := s.wg wg
  let stuck : Bool := match s.node? w.node with
    | some n => s.endBlocked n (s.agents wg)
    | none => false
  if w.isOver = false ∨ s.stillNamed wg ∨ stuck then .fault .notEnabled
  else .next ((((s.sendHome (s.passed (s.agents wg))).endOwnership wg none 2).mergeInto w.node w).reclaim wg)

/-! ### Pre-emption (spec/15 R375, spec/16 R390) -/

/-- A gang as it is saved: one in the middle of a clause waits to be selected again; an access that stalls for a race entry is
saved unissued (R375, spec/10 R257). -/
def Gang.asSaved (g : Gang) : Gang :=
  match g.clause, g.park with
  | some _, none => { g with park := some .resumed }
  | some r, some .race => { g with park := some .resumed, clause := some { r with pend := .none } }
  | _, _ => g

/-- A workgroup leaves its core: what PREEMPT_SAVE does to it (R375-R377). Its lanes go on to see what they have seen, wherever they are
restored (spec/10 R238). -/
def State.saveOne (s : State) (t : Nat) : State :=
  let w0 := (s.wg t).cycleEnd
  let core := s.core w0.core
  let segs := (List.range 64).filterMap fun k => (w0.slotOf k).map fun sl =>
    let x := core.istore.get sl
    ({ seg := k, dom := x.tagDom, va := if x.fromSpad then spadTag else x.tagVa, words := x.words, bad := x.bad } : SavedSeg)
  let s1 := (((s.sendHome (s.passed (s.agents t))).passWide t).endOwnership t none 1).updWg t fun w => w.cycleEnd.endInterval w.liveLanes
  let s2 := (overList (List.range 64) s1 fun s k => s.unmapSeg t k).dropMacros t
  let s3 := overList w0.bindings s2 fun s b => match b.2.unit with
    | some u => s.updCore w0.core fun k => { k with apprs := k.apprs.set u default }
    | none => s
  s3.updWg t fun w => { w with
    life := .saved, l1 := [], savedSegs := segs, macros := [], gangs := w.gangs.map Gang.asSaved
    crews := overList w.crews [] fun m p => SMap.set m p.1 { p.2 with
      appr := p.2.appr.map fun b => { b with unit := none }
      flight := p.2.flight.map fun (i : FlightItem) => match i.op with | .reload .. => { i with op := .nop } | _ => i } }

/-- Virtual address of the save area of an instance: SAVE + i × Z, and Z (R376, R391). -/
def NodeDesc.imageVa (d : NodeDesc) (i : Nat) : Nat := d.save + i * imagePart (homeSets d.lanes) d.vregs (4096 * d.spad) 7
def NodeDesc.imageSize (d : NodeDesc) : Nat := imagePart (homeSets d.lanes) d.vregs (4096 * d.spad) 7

/-- The bytes of an image: the barrier words, laid out as R283 states, and the window, byte for byte; every other part is private to
the device, and its bytes are free values (log 32). -/
def Workgroup.imageBytes (w : Workgroup) (free k : Nat) : List Byte :=
  let n := w.imagePart (k + 1) - w.imagePart k
  let byte (j : Nat) : Byte := (Config.freeWord (free + (w.imagePart k + j) / 8) >>> (8 * (j % 8))).setWidth 8
  if k = 6 then (List.range n).map w.win.get
  else if k = 4 then (List.range 16).flatMap (fun b => bytesOfNat 16 (w.barriers.get b).bits) ++ ((List.range (n - 256)).map fun j => byte (256 + j))
  else (List.range n).map byte

/-- The save image of a workgroup that has been saved is written, where its area can be written (R376, R377, R391). -/
def State.writeImage (s : State) (t : Nat) : State :=
  match s.node? (s.wg t).node with
  | none => s
  | some n =>
    match s.virtSpans true n.desc.domain (n.desc.imageVa (s.wg t).inst) n.desc.imageSize with
    | .error _ => s
    | .ok l =>
      let s1 := s.updWg t fun w => { w with image := l }
      let s2 := overList (List.range 7) s1 fun s k => s.imagePut t ((s.wg t).imagePart k) ((s.wg t).imageBytes s.free k)
      { s2 with free := s2.free + (s.wg t).imagePart 6 }

/-- Resident workgroups of lower priority on the cores that begin at one, in the order of R390: lowest priority, youngest node,
highest instance. A group of four counts once, whichever of its members are there. -/
def State.victims (s : State) (prio c : Nat) (cl : Bool) : List Nat :=
  let pr (w : Workgroup) : Nat := match s.node? w.node with | some n => n.desc.prio | none => 0
  let heads := dedup (((coresFrom cl c).flatMap s.onCore).filterMap fun p => (s.unitOf p.1).head?)
  let here := (heads.map fun t => (t, s.wg t)).filter fun p => decide (pr p.2 < prio)
  let worse (a b : Nat × Workgroup) : Bool :=
    decide (pr a.2 < pr b.2) || (pr a.2 == pr b.2 && (decide (a.2.node > b.2.node) || (a.2.node == b.2.node && decide (a.2.inst > b.2.inst))))
  let ins (x : Nat × Workgroup) (l : List (Nat × Workgroup)) : List (Nat × Workgroup) :=
    (l.filter fun y => worse y x) ++ [x] ++ l.filter fun y => !worse y x
  (here.foldr ins []).map (·.1)

/-- The first of the victims without which work fits on a core; none when it never does. -/
def State.victimsFor (s : State) (x : Waiting) (c : Nat) : List Nat → List Nat → Option (List Nat)
  | [], acc => if s.fitsAt x c then some acc else none
  | v :: vs, acc =>
    if s.fitsAt x c then some acc
    else (overList (s.unitOf v) s fun s u => s.saveOne u).victimsFor x c vs (acc ++ [v])

/-- The pool pre-empts a workgroup for waiting work on some core: the work fits nowhere, and the workgroup is among the fewest
victims that make room for it there (R390). While victims stop, the pool takes no other core or cluster. -/
def State.mayPreempt (s : State) (t : Nat) : Bool :=
  let w := s.wg t
  s.waiting.any fun x =>
    !((List.range numCores).any (s.fitsAt x)) &&
    (let cl := (s.needsOf x).1
     let c := if cl then w.core / 4 * 4 else w.core
     (s.wgs.all fun p => p.2.life != .stopping || (coresFrom cl c).contains p.2.core) &&
     match s.victimsFor x c (s.victims x.prio c cl) [] with
     | some vs => vs.any fun v => (s.unitOf v).contains t
     | none => false)

/-- PREEMPT: the workgroup, with its siblings if it has any, stops: gangs at their next issue slots, holders of locks once they
have released them. -/
def execPreempt (wg : Nat) (s : State) : Host.Outcome State Fault Refusal :=
  if (s.wg wg).life ≠ .resident ∨ s.mayPreempt wg = false then .fault .notEnabled
  else .next (overList (s.unitOf wg) s fun s u => s.updWg u fun w => if w.life = .resident then { w with life := .stopping } else w)

/-- A load that waits for a sweep entry: it is cancelled at pre-emption and issued again after restore (spec/13 R315). -/
def State.sweptWaiting (s : State) (i : FlightItem) : Bool :=
  match i.op with
  | .load _ _ _ sw => !(sw.all s.sweptDone)
  | _ => false

/-- An item that a save does not wait for: a swept load that waits for a sweep entry, the reload of a pop and a post that waits
for its slot, which belong to gangs that are parked (R375, spec/17 R410, spec/12 R289). -/
def State.savedAsIs (s : State) (i : FlightItem) : Bool :=
  s.sweptWaiting i || (match i.op with | .reload .. => true | .post _ => true | _ => false)

/-- The drain of a stopping workgroup has ended (R375): no gang goes on, nothing counted is left but what a save keeps, the matrix
queues are empty, the entry segment is there. -/
def State.drainedOut (s : State) (t : Nat) : Bool :=
  let w := s.wg t
  w.life == .stopping && w.starting.isNone && (w.gangs.all fun g => !w.inIssue g && !w.gangLocked g) &&
  (w.mqueues.all fun p => p.2.isEmpty) &&
  (w.crews.all fun p => p.2.forced.isNone && p.2.flight.all fun i => i.done || s.savedAsIs i)

/-- Part of a workgroup's save area lies in a pseudo-channel that is held. -/
def State.imageHeld (s : State) (t : Nat) : Bool :=
  match s.node? (s.wg t).node with
  | some n => s.virtHeld n.desc.domain true (n.desc.imageVa (s.wg t).inst) n.desc.imageSize
  | none => false

/-- PREEMPT_SAVE: the drain has ended; barriers and streams are frozen, and the workgroup is saved to its image. -/
def execPreemptSave (wg : Nat) (s : State) : Host.Outcome State Fault Refusal :=
  if (s.unitOf wg).all s.drainedOut = false ∨ (s.unitOf wg).any s.imageHeld then .fault .notEnabled
  else .next ((overList (s.unitOf wg) s fun s u => (s.saveOne u).writeImage u).spent s.free)

/-! ### Restore (R377, spec/16 R389) -/

/-- The saved segments of a workgroup go into slots of its new core. -/
def State.restoreSegs (s : State) (t core : Nat) (slots : List Nat) : State :=
  overList ((s.wg t).savedSegs.zip slots) s fun s p =>
    let g := p.1
    let x := (s.core core).istore.get p.2
    let same := x.st == .landed && !x.fromSpad && x.tagDom == g.dom && x.tagVa == g.va
    let s1 := if same then s else (s.endFetch core p.2).updCore core fun c => { c with istore := c.istore.upd p.2 fun y => { y with
      st := .landed, tagDom := g.dom, tagVa := g.va, fromSpad := g.va == spadTag, words := g.words, source := [], used := {}, bad := g.bad } }
    s1.mapSeg t g.seg p.2

/-- A load that a sweep entry held at the save is issued again (spec/13 R315): its lanes are translated anew, and wait for the entries
that are acknowledged by now. A lane that would not load now keeps what it had (DESIGN CHOICE, log 72). -/
def State.reissue (s : State) (t : Nat) (i : FlightItem) : State :=
  match i.again, i.op with
  | some r, .load z d lanes old =>
    let as := (r.reqs.filter (s.mapFine t)).filterMap fun q => match s.resolve t r.spec r.stat q with
      | .inl _ => none
      | .inr a => if a.isOk && lanes.any (fun x => x.lane == a.lane) then some a else none
    let fresh (x : LoadLane) : Option LoadLane := (as.find? fun a => a.lane == x.lane).map fun a => loadLaneOf (!(r.swept || rSword a.rcd)) a
    let waits := as.flatMap (s.accWaits r.swept) ++ if lanes.any fun x => (fresh x).isNone && !(x.spans.isEmpty && x.conv.isEmpty) then old else []
    (s.keepCaches (s.wg t).core as).updWg t fun w => w.updItem i.id fun j => if j.again.isSome then { j with
      op := .load z d (lanes.map fun x => (fresh x).getD x) waits, used := usedOf as } else j
  | _, _ => s

/-- The loads of a workgroup that were held at its save are issued again. -/
def State.reissueAll (s : State) (t : Nat) : State :=
  overList ((s.wg t).items.filter fun i => !i.done && i.again.isSome) s fun s i => s.reissue t i

/-- Restore one workgroup on a core, in a room of it: its registers are loaded, its Apprentices start again (spec/17 R410), its
monitors count as fired, contributions of the current IOD0 cycle are merged (R377), and paths that waited in REGANG windows pass as if these had expired (spec/02 R45). -/
def State.restoreOne (s : State) (t core : Nat) (r : Room) : State :=
  let base := r.bases.getD (Config.choice s.free % max 1 r.bases.length) 0
  let s1 := s.updWg t fun w => { w with
    life := .resident, core := core, base := base, homes := r.homes, image := []
    barriers := overList w.barriers [] fun m p => SMap.set m p.1 p.2.cycleEnd
    crews := overList w.crews [] fun m p => SMap.set m p.1 { p.2 with
      monitor := p.2.monitor.map fun (m : Monitor) => { m with fired := true } } }
  let s2 : State := (s1.restoreSegs t core r.slots).updWg t fun w => { w with savedSegs := [] }
  let s3 : State := match s2.node? (s2.wg t).node with
    | some n => (if (s2.core core).recs.any (fun x => x.key == RecKey.node n.id) then s2 else s2.loadRecords core n.id n.desc).loadMacros t core n.id n.macros
    | none => s2
  let s4 := overList (s3.wg t).bindings s3 fun s b =>
    match (s.core core).freeUnit with
    | some u => s.bindAppr t b.1 u b.2.start b.2.w0 b.2.pops b.2.pops
    | none => s
  overList (s4.wg t).windows (s4.reissueAll t) fun s x => s.closeWindow t x.hset x.pc

/-- RESTORE: a saved workgroup, or a group of four, is loaded onto a core or cluster. -/
def execRestore (wg core : Nat) (s : State) : Host.Outcome State Fault Refusal :=
  let w := s.wg wg
  let prio := match s.node? w.node with | some n => n.desc.prio | none => 0
  let x : Waiting := ⟨prio, w.domain, w.node, w.inst, some wg⟩
  let held : Bool := match s.node? w.node with | some n => s.placeHeld n.desc | none => false
  if s.waiting.contains x = false ∨ s.mayPlace x core = false ∨ held then .fault .notEnabled
  else
    let s1 := overList ((coresFrom w.cluster core).zip (s.savedUnit wg)) s fun s p =>
      match p.2 with
      | none => s
      | some u => (match s.roomAt p.1 (s.savedNeed u) with
        | some r => ({ s with free := s.free + 1 }).restoreOne u p.1 r
        | none => s)
    .next ((s1.serve prio w.domain).spent s.free)

end Sys2Proof.Machine
end

