-- ==== Sys2Proof/Machine/BankEvents.lean ====
section
/-! DEFINITION. The events of the banks (spec/13 R300, R320, R323-R329) and the two node kinds that run no lanes (spec/16 R392,
R393): SWEEP_STEP, FORCED_ROW_APPLY, CATCHUP_STEP, ALLBANK_ENTER, ALLBANK_EXIT, ALLBANK_TIMEOUT, the commands and stores of a
bank job, BANK_JOB, PACKET_NODE. -/

namespace Sys2Proof.Machine

open Sys2Proof

/-- Pseudo-channels of the module (spec/13 R299). -/
def numPchs : Nat := 1024

/-! ### The sweep -/

/-- A sweep step, of which the Scrivener's passes take what they need (spec/12 R281). -/
def State.sweepOn (s : State) (g : Nat) : State := (s.sweepStep g).captureRow g ((s.pch g).n.toNat % 65536)

/-- The sweep goes on once its rows hold what the units of the module see as performed (R312). -/
def State.sweepNow (s : State) (g : Nat) (k : State → State) : Host.Outcome State Fault Refusal :=
  match s.rowsSeen g with
  | some s1 => .next (k s1)
  | none => .fault .notEnabled

/-- SWEEP_STEP: a row interval expires. In all-bank mode, and while postponed rows remain, the step is postponed (R323). -/
def execSweepStep (g : Nat) (s : State) : Host.Outcome State Fault Refusal :=
  if g ≥ numPchs then .fault .notEnabled
  else if (s.pch g).held ∨ (s.pch g).postponed > 0 then .next (s.updPch g fun p => { p with postponed := p.postponed + 1 })
  else s.sweepNow g fun s => s.sweepOn g

/-- CATCHUP_STEP: after exit, the controller restores a postponed row, applying functions. -/
def execCatchupStep (g : Nat) (s : State) : Host.Outcome State Fault Refusal :=
  let p := s.pch g
  if p.held ∨ p.postponed = 0 then .fault .notEnabled
  else s.sweepNow g fun s => (s.sweepOn g).updPch g fun p => { p with postponed := p.postponed - 1 }

/-- The rows that a forcing has still to take: a one-shot entry's rows that the sweep has reached meanwhile are done (R314). -/
def Pch.forcedRows (p : Pch) (f : Forcing) : List Nat :=
  let e := p.table.get f.entry
  if e.repeats then f.rows else f.rows.filter fun k => !e.applied.contains k

/-- The rows that may be taken now, with their forcing: the first of each bank (R320). -/
def Pch.forcedNext (p : Pch) : List (Forcing × Nat) :=
  p.forcings.flatMap fun f =>
    let rows := p.forcedRows f
    ((List.range 16).filterMap fun b => rows.find? fun k => k / 65536 == b).map fun k => (f, k)

/-- FORCED_ROW_APPLY: the controller activates the next row of a forcing in a bank and applies functions to it. -/
def execForcedRowApply (g : Nat) (s : State) : Host.Outcome State Fault Refusal :=
  let p := s.pch g
  let cs := p.forcedNext
  if p.held then .fault .notEnabled
  else match cs[Config.choice s.free % max 1 cs.length]? with
    | none => .fault .notEnabled
    | some (f, key) =>
      let left (q : Pch) : List Forcing := (q.forcings.map fun x =>
        if x = f then { x with rows := (q.forcedRows x).filter (· != key) } else x).filter fun x => !(q.forcedRows x).isEmpty
      s.sweepNow g fun s0 =>
        ((s0.restoreRow g (key / 65536) (key % 65536) none).updPch g fun q => { q with forcings := left q }).spent s.free

/-! ### Bank jobs (spec/16 R392) -/

/-- The node of a bank job in progress. -/
def State.jobNode (s : State) (g : Nat) : Option (Node × BankJob) :=
  match (s.pch g).job with
  | some j => (s.node? j.node).map fun n => (n, j)
  | none => none

/-- The job ends with a cause: a forced exit with a REASON, and the node ends FAULT. -/
def State.jobFail (s : State) (g reason : Nat) (n : Node) (j : BankJob) (cause fva : Nat) : State :=
  (s.forceExit g reason false).failNode n.id cause j.next fva

/-- The entry that a job has reached: its window offset and value; or the cause of its end and the failing address, or the
uncorrectable error it meets; none when the list is at its end, or while the entry lies in a held pseudo-channel. -/
inductive JobAt where
  | finished
  | waits
  | bad (cause fva : Nat)
  | broken (m : Nat × Nat × Nat)
  | entry (off val : Nat)
  deriving DecidableEq

def State.jobAt (s : State) (n : Node) (j : BankJob) : JobAt :=
  let d := n.desc
  let va := d.code + 16 * j.next
  if j.next ≥ d.param 1 then .finished
  else if s.virtHeld d.domain false va 16 then .waits
  else match s.rdVirt d.domain va 16 with
    | .error e => .bad e.1 e.2
    | .ok b =>
      match s.virtMc d.domain va 16 with
      | some m => .broken m
      | none =>
      let x := natOfBytes b
      let off := bits x 0 16
      if off % 8 ≠ 0 ∨ bits x 16 48 ≠ 0 ∨ off = 0 then .bad 0x95 0 else .entry off (bits x 64 64)

/-- The node can end now, once the mode is free. -/
def State.jobMayEnd (s : State) (g : Nat) (n : Node) : Bool := !((s.updPch g fun p => { p with held := false }).endBlocked n [])

/-- One step of the bank unit for a job in progress. -/
def State.jobStep (s : State) (g : Nat) (n : Node) (j : BankJob) : Option State :=
  let fail (cause fva : Nat) : Option State := if s.jobMayEnd g n then some (s.jobFail g 2 n j cause fva) else none
  match s.jobAt n j with
  | .waits => none
  | .finished => if s.jobMayEnd g n then some ((s.exitMode g).doneNode n.id) else none
  | .bad c va => fail c va
  | .broken m => if s.jobMayEnd g n then some ((s.logMc m.1 m.2.1 m.2.2).jobFail g 2 n j 0xB0 0) else none
  | .entry off v =>
    match s.winStore g jobOwner off 8 v with
    | .cause c => fail c 0
    | .wait => none
    | .ok s1 => some (s1.updPch g fun p => { p with job := some { j with next := j.next + 1 } })

/-- BANK_JOB: the first waiting job enters the mode when it is free and the catch-up is over; then the job performs its next
entry, or ends. -/
def execBankJob (g : Nat) (s : State) : Host.Outcome State Fault Refusal :=
  let p := s.pch g
  match p.job, p.jobs with
  | some _, _ =>
    (match s.jobNode g with
      | some (n, j) => (match s.jobStep g n j with
        | some s1 => .next s1
        | none => .fault .notEnabled)
      | none => .fault .notEnabled)
  | none, [] => .fault .notEnabled
  | none, id :: rest =>
    if p.held ∨ p.postponed > 0 then .fault .notEnabled
    else
      let mask := match s.node? id with | some n => n.desc.param 2 | none => 0
      s.sweepNow g fun s => ((s.enterMode g jobOwner mask (some { node := id, next := 0, entered := true })).updPch g fun q => { q with jobs := rest })

/-- The command at which a bank job stands, when the controller would perform it. -/
def State.jobCmd (s : State) (g : Nat) : Option BankCmd :=
  match s.jobNode g with
  | some (n, j) => (match s.jobAt n j with
    | .entry 0x10 v => if (s.pch g).cmdCause v = none then bankCmd v else none
    | _ => none)
  | none => none

/-- A command of a bank job: BANK_JOB's next entry. -/
def State.jobCommand (s : State) (g : Nat) (c : BankCmd) : Host.Outcome State Fault Refusal :=
  if s.jobCmd g = some c then execBankJob g s else .fault .notEnabled

def execAct (g row : Nat) (s : State) : Host.Outcome State Fault Refusal := s.jobCommand g (.act row)
def execPre (g : Nat) (s : State) : Host.Outcome State Fault Refusal := s.jobCommand g .pre
def execPass (g : Nat) (args : PassArgs) (s : State) : Host.Outcome State Fault Refusal := s.jobCommand g (.pass args)
def execKpass (g : Nat) (args : KpassArgs) (s : State) : Host.Outcome State Fault Refusal := s.jobCommand g (.kpass args)
def execMacr (g : Nat) (args : MacrArgs) (s : State) : Host.Outcome State Fault Refusal := s.jobCommand g (.macr args)

/-- CTL_WINDOW_WRITE: a job's store to a register without behaviour of its own. -/
def execCtlWindowWrite (g off : Nat) (wide : Bool) (val : Dword) (s : State) : Host.Outcome State Fault Refusal :=
  match s.jobNode g with
  | some (n, j) =>
    let taken : Bool := match s.winStore g jobOwner off 8 val.toNat with | .ok _ => true | _ => false
    if wide ∧ off ≠ 0x10 ∧ s.jobAt n j = .entry off val.toNat ∧ taken then execBankJob g s
    else .fault .notEnabled
  | none => .fault .notEnabled

/-! ### All-bank mode (R323, R324, R328, R329) -/

/-- The gang of a crew whose store to MODE waits in the controller (R323), and the state in which it has been performed. -/
def State.waitingEntry (s : State) (g wg crew mask : Nat) : Option State :=
  (s.wg wg).gangs.findSome? fun x =>
    let mine := match x.clause with
      | some r => (match r.instr with | some (.st ..) => true | _ => false) && x.lanes.any fun l => ((s.wg wg).lane l).crew == some crew
      | none => false
    if mine = false ∨ x.park ≠ some (.bank g) ∨ (s.wg wg).gangHeld x ∨ s.quadBusy (s.wg wg).core (quadOf x.hset) (wg, x.id) then none
    else match s.again wg x (.bank g) id with
      | none => none
      | some s1 =>
        let p := s1.pch g
        if p.ownedBy (wg, crew) ∧ p.bankmask.toNat = mask then some s1 else none

/-- ALLBANK_ENTER: a store of ALLBANK = 1 that waited is performed, or the first waiting bank job enters. -/
def execAllbankEnter (g wg crew mask : Nat) (s : State) : Host.Outcome State Fault Refusal :=
  let p := s.pch g
  if p.held ∨ p.postponed > 0 then .fault .notEnabled
  else if (wg, crew) = jobOwner then
    (match p.jobs with
      | [] => .fault .notEnabled
      | id :: _ => if (s.node? id).map (fun n => n.desc.param 2) = some mask then execBankJob g s else .fault .notEnabled)
  else match s.waitingEntry g wg crew mask with
    | some s1 => .next s1
    | none => .fault .notEnabled

/-- ALLBANK_EXIT: a bank job at the end of its list leaves the mode, and its node ends DONE. A crew's exit is its store to MODE. -/
def execAllbankExit (g : Nat) (s : State) : Host.Outcome State Fault Refusal :=
  match s.jobNode g with
  | some (n, j) => if s.jobAt n j = .finished then execBankJob g s else .fault .notEnabled
  | none => .fault .notEnabled

/-- ALLBANK_TIMEOUT: the controller forces an exit with REASON 0. The owner is told by LOST; a bank job's node ends FAULT with
BANK_TIMEOUT. -/
def execAllbankTimeout (g : Nat) (s : State) : Host.Outcome State Fault Refusal :=
  if (s.pch g).held = false then .fault .notEnabled
  else match s.jobNode g with
    | some (n, j) => if s.jobMayEnd g n then .next (s.jobFail g 0 n j 0x91 0) else .fault .notEnabled
    | none => .next (s.forceExit g 0 true)

/-! ### Engine-packet nodes (spec/16 R393) -/

/-- Address of the queue header that a KIND 2 node names. -/
def NodeDesc.queueVa (d : NodeDesc) : Nat := (d.param 0 + d.param 1 * 2 ^ 32) % 2 ^ 64

/-- A line that the pool reaches under a domain: its physical address, or the cause. -/
def State.poolLine (s : State) (dom va : Nat) : Except Nat Nat :=
  match s.walkMem dom true va with
  | .fail c _ _ => .error c
  | .ok pa ty .. => if ty = 0 then .ok pa else .error 0x27

/-- A packet node ends FAULT with the uncorrectable error that its image, header or slot meets. -/
def State.packetBroken (s : State) (n : Node) (m : Nat × Nat × Nat) (va : Nat) : State :=
  (s.logMc m.1 m.2.1 m.2.2).failNode n.id m.1 0 va

/-- The first step of a packet node: the checks and the claim. -/
def State.packetClaim (s : State) (n : Node) : Option State :=
  let d := n.desc
  let hv := d.queueVa
  if s.virtHeld d.domain false d.code 64 ∨ s.virtHeld d.domain true hv 64 ∨ s.endBlocked n [] then none
  else match s.rdVirt d.domain d.code 64 with
    | .error e => some (s.failNode n.id e.1 0 e.2)
    | .ok _ =>
      match s.virtMc d.domain d.code 64 with
      | some m => some (s.packetBroken n m d.code)
      | none =>
      if hv % 64 ≠ 0 then some (s.failNode n.id 0x80 0 0)
      else match s.poolLine d.domain hv with
        | .error c => some (if c = 0x27 then s.failNode n.id 0x80 0 0 else s.failNode n.id c 0 hv)
        | .ok pa =>
          match s.mcOf ⟨.phys pa, 64⟩ with
          | some m => some (s.packetBroken n m hv)
          | none =>
          let h := s.hdrBits pa
          if queueOk h d.domain = false then some (s.failNode n.id 0x80 0 0)
          else
            let seq := (qWridx h + 1) % 2 ^ 32
            some ((s.physWrite none pa (bytesOfNat 4 seq)).updNode n.id fun m => { m with posted := some (pa, seq, none) })

/-- The second step: the slot is free; its words are written and the packet published. -/
def State.packetPublish (s : State) (n : Node) (pa seq : Nat) : Option State :=
  let d := n.desc
  if s.held ⟨.phys pa, 64⟩ then none
  else
    let h := s.hdrBits pa
    let va := slotVa h seq
    if seqGe (qWm h) (slotFree h seq) = false ∨ s.virtHeld d.domain true va 64 ∨ s.virtHeld d.domain false d.code 64 ∨
        s.endBlocked n [] then none
    else match s.poolLine d.domain va, s.rdVirt d.domain d.code 64 with
      | .error c, _ => some (s.failNode n.id c 0 va)
      | .ok _, .error e => some (s.failNode n.id e.1 0 e.2)
      | .ok sp, .ok img =>
        match s.mcOf ⟨.phys sp, 64⟩, s.virtMc d.domain d.code 64 with
        | some m, _ => some (s.packetBroken n m va)
        | none, some m => some (s.packetBroken n m d.code)
        | none, none =>
        let x := natOfBytes img
        let words := seq + bits x 32 24 * 2 ^ 32 + x / 2 ^ 64 * 2 ^ 64
        some ((s.physWrite none sp (bytesOfNat 64 words)).updNode n.id fun m => { m with posted := some (pa, seq, some sp) })

/-- The last step: WM has reached the packet, whose STATUS decides how the node ends. -/
def State.packetEnd (s : State) (n : Node) (pa seq sp : Nat) : Option State :=
  if s.held ⟨.phys pa, 64⟩ ∨ s.held ⟨.phys sp, 64⟩ ∨ s.endBlocked n [] then none
  else if seqGe (qWm (s.hdrBits pa)) seq = false then none
  else
    let st := s.rdNat (sp + 7) 1
    some (if st = 0 ∨ st = 8 then s.doneNode n.id else s.failNode n.id 0 st 0)

/-- PACKET_NODE: the pool posts the packet of a ready node and ends the node when the packet has completed. -/
def execPacketNode (node : Nat) (s : State) : Host.Outcome State Fault Refusal :=
  match s.node? node with
  | none => .fault .notEnabled
  | some n =>
    if n.ready = false ∨ n.desc.kind ≠ 2 then .fault .notEnabled
    else
      let r := match n.posted with
        | none => s.packetClaim n
        | some (pa, seq, none) => s.packetPublish n pa seq
        | some (pa, seq, some sp) => s.packetEnd n pa seq sp
      match r with
      | some s1 => .next s1
      | none => .fault .notEnabled

end Sys2Proof.Machine
end

