-- ==== Sys2Proof/Machine/Slh.lean ====
section
/-! DEFINITION. SLH-DSA-SHAKE-256s, the signature that spec/19 R451 and R452 name by its standard (FIPS 205): a hypertree of 8 layers
of XMSS trees of height 8, each leaf a WOTS+ key with digits of 4 bits, over FORS with 22 trees of height 14; 32-byte nodes. The
spec gives none of this; it is taken from the standard (PRESUMED: log 74), in its pure form with an empty context. -/

namespace Sys2Proof.Machine

open Sys2Proof

/-- A string of n bytes, high byte first. -/
def beBytes (n x : Nat) : List Byte := (bytesOfNat n x).reverse

def natOfBe (b : List Byte) : Nat := natOfBytes b.reverse

/-- Digits of b bits of a byte string, from its high end. -/
def slhDigits (x : List Byte) (b k : Nat) : List Nat :=
  (List.range k).map fun i => natOfBe x / 2 ^ (8 * x.length - b * (i + 1)) % 2 ^ b

/-- An address: where in the structure a hash is made. `p1` and `p2` are the two words that depend on the type. -/
structure SlhAdrs where
  layer : Nat
  tree : Nat
  typ : Nat
  pair : Nat
  p1 : Nat
  p2 : Nat
  deriving DecidableEq, Repr, Inhabited

def SlhAdrs.bytes (a : SlhAdrs) : List Byte :=
  beBytes 4 a.layer ++ beBytes 12 a.tree ++ beBytes 4 a.typ ++ beBytes 4 a.pair ++ beBytes 4 a.p1 ++ beBytes 4 a.p2

/-- The hash of nodes at an address, under a public seed. -/
def slhHash (seed : List Byte) (a : SlhAdrs) (m : List Byte) : List Byte := shake256 (seed ++ a.bytes ++ m) 32

/-! ### WOTS+ and trees -/

/-- A chain of s hashes from position i. -/
def slhChain (seed : List Byte) (a : SlhAdrs) (x : List Byte) (i s : Nat) : List Byte :=
  (List.range s).foldl (fun x j => slhHash seed { a with p2 := i + j } x) x

/-- The 67 digits of a node: 64 of its own and 3 of their checksum. -/
def slhMsgDigits (m : List Byte) : List Nat :=
  let ds := slhDigits m 4 64
  ds ++ slhDigits (beBytes 2 (16 * ds.foldl (fun c x => c + (15 - x)) 0)) 4 3

/-- The node of a WOTS+ key's 67 chain ends. -/
def slhWotsNode (seed : List Byte) (a : SlhAdrs) (ends : List (List Byte)) : List Byte :=
  slhHash seed { a with typ := 1, p1 := 0, p2 := 0 } (ends.flatMap id)

/-- The key that a WOTS+ signature of a node stands for. -/
def slhWotsFrom (seed : List Byte) (a : SlhAdrs) (sig : List (List Byte)) (m : List Byte) : List Byte :=
  slhWotsNode seed a ((sig.zip (slhMsgDigits m)).zipIdx.map fun p =>
    slhChain seed { a with p1 := p.2 } p.1.1 p.1.2 (15 - p.1.2))

/-- The root above a node, by its authentication path: `p1` of an address is the height and `p2` the index. -/
def slhClimb (seed : List Byte) (a : SlhAdrs) (idx : Nat) (node : List Byte) (auth : List (List Byte)) : List Byte :=
  (auth.zipIdx.foldl (fun (x : List Byte × Nat) p =>
    let m := if idx / 2 ^ p.2 % 2 = 0 then x.1 ++ p.1 else p.1 ++ x.1
    (slhHash seed { a with p1 := p.2 + 1, p2 := x.2 / 2 } m, x.2 / 2)) (node, a.p2)).1

/-- The root that an XMSS signature of a node stands for: 67 chain values and 8 path nodes. -/
def slhXmssFrom (seed : List Byte) (layer tree idx : Nat) (sig : List (List Byte)) (m : List Byte) : List Byte :=
  let leaf := slhWotsFrom seed ⟨layer, tree, 0, idx, 0, 0⟩ (sig.take 67) m
  slhClimb seed ⟨layer, tree, 2, 0, 0, idx⟩ idx leaf (sig.drop 67)

/-- The root of the hypertree that 8 XMSS signatures of a node stand for, from a layer on. -/
def slhTreeFrom (seed : List Byte) : List (List (List Byte)) → Nat → Nat → Nat → List Byte → List Byte
  | [], _, _, _, m => m
  | sig :: rest, layer, tree, idx, m =>
    slhTreeFrom seed rest (layer + 1) (tree / 256) (tree % 256) (slhXmssFrom seed layer tree idx sig m)

/-- The FORS key that a FORS signature of 22 values of 14 bits stands for: each a secret and a path of 14 nodes. -/
def slhForsFrom (seed : List Byte) (a : SlhAdrs) (sig : List (List (List Byte))) (idx : List Nat) : List Byte :=
  let roots := (sig.zip idx).zipIdx.map fun p =>
    let at0 : SlhAdrs := { a with p1 := 0, p2 := p.2 * 2 ^ 14 + p.1.2 }
    match p.1.1 with
    | sk :: auth => slhClimb seed at0 p.1.2 (slhHash seed at0 sk) auth
    | [] => []
  slhHash seed { a with typ := 4, p1 := 0, p2 := 0 } (roots.flatMap id)

/-! ### Messages -/

/-- What a message's digest selects: the 22 FORS values, the tree and the leaf of the lowest layer. -/
structure SlhPick where
  fors : List Nat
  tree : Nat
  leaf : Nat
  deriving DecidableEq, Repr, Inhabited

/-- A message in the pure form, with an empty context. -/
def slhMessage (m : List Byte) : List Byte := [0, 0] ++ m

def slhPick (r pk m : List Byte) : SlhPick :=
  let d := shake256 (r ++ pk ++ slhMessage m) 47
  ⟨slhDigits (d.take 39) 14 22, natOfBe ((d.drop 39).take 7), natOfBe (d.drop 46)⟩

/-- The address of the FORS key of a pick. -/
def SlhPick.adrs (x : SlhPick) : SlhAdrs := ⟨0, x.tree, 3, x.leaf, 0, 0⟩

/-- Verification: a public key of 64 bytes (seed, root), a message, a signature of 29792 bytes. -/
def slhVerify (pk m sig : List Byte) : Bool :=
  let ns := chunks 32 (sig.length / 32) sig
  let seed := pk.take 32
  let x := slhPick (ns.getD 0 []) pk m
  let key := slhForsFrom seed x.adrs (chunks 15 22 (ns.drop 1)) x.fors
  sig.length == 29792 && pk.length == 64 && slhTreeFrom seed (chunks 75 8 (ns.drop 331)) 0 x.tree x.leaf key == pk.drop 32

/-! ### Signing -/

/-- A secret value at an address. -/
def slhSecret (seed sk : List Byte) (a : SlhAdrs) : List Byte := slhHash seed a sk

/-- A node of a tree of some height from its leaves. -/
def slhNode (seed : List Byte) (leaf : Nat → List Byte) (a : SlhAdrs) : Nat → Nat → List Byte
  | 0, i => leaf i
  | z + 1, i => slhHash seed { a with p1 := z + 1, p2 := i }
      (slhNode seed leaf a z (2 * i) ++ slhNode seed leaf a z (2 * i + 1))

/-- The sibling's index. -/
def sibling (i : Nat) : Nat := if i % 2 = 0 then i + 1 else i - 1

/-- The secret of a FORS leaf, and its node. -/
def slhForsSecret (seed sk : List Byte) (a : SlhAdrs) (i : Nat) : List Byte := slhSecret seed sk { a with typ := 6, p1 := 0, p2 := i }

def slhForsLeaf (seed sk : List Byte) (a : SlhAdrs) (i : Nat) : List Byte :=
  slhHash seed { a with p1 := 0, p2 := i } (slhForsSecret seed sk a i)

/-- A FORS signature: for each value its secret and its path. -/
def slhForsSign (seed sk : List Byte) (a : SlhAdrs) (idx : List Nat) : List (List (List Byte)) :=
  idx.zipIdx.map fun p => slhForsSecret seed sk a (p.2 * 2 ^ 14 + p.1) ::
    (List.range 14).map fun j => slhNode seed (slhForsLeaf seed sk a) a j (p.2 * 2 ^ (14 - j) + sibling (p.1 / 2 ^ j))

/-- The secret that starts a WOTS+ chain. -/
def slhWotsSecret (seed sk : List Byte) (a : SlhAdrs) (i : Nat) : List Byte := slhSecret seed sk { a with typ := 5, p1 := i, p2 := 0 }

/-- A leaf of an XMSS tree: its WOTS+ key. -/
def slhXmssLeaf (seed sk : List Byte) (layer tree i : Nat) : List Byte :=
  let a : SlhAdrs := ⟨layer, tree, 0, i, 0, 0⟩
  slhWotsNode seed a ((List.range 67).map fun k => slhChain seed { a with p1 := k } (slhWotsSecret seed sk a k) 0 15)

/-- An XMSS signature of a node. -/
def slhXmssSign (seed sk : List Byte) (layer tree idx : Nat) (m : List Byte) : List (List Byte) :=
  let a : SlhAdrs := ⟨layer, tree, 0, idx, 0, 0⟩
  ((slhMsgDigits m).zipIdx.map fun p => slhChain seed { a with p1 := p.2 } (slhWotsSecret seed sk a p.2) 0 p.1) ++
  (List.range 8).map fun j => slhNode seed (slhXmssLeaf seed sk layer tree) ⟨layer, tree, 2, 0, 0, 0⟩ j (sibling (idx / 2 ^ j))

/-- Signatures of the layers from one on, k of them. -/
def slhTreeSign (seed sk : List Byte) : Nat → Nat → Nat → Nat → List Byte → List (List Byte)
  | 0, _, _, _, _ => []
  | k + 1, layer, tree, idx, m =>
    let sig := slhXmssSign seed sk layer tree idx m
    sig ++ slhTreeSign seed sk k (layer + 1) (tree / 256) (tree % 256) (slhXmssFrom seed layer tree idx sig m)

/-- Signing with a private key of 128 bytes (secret seed, message key, public seed, root) and 32 bytes of randomness. -/
def slhSign (key m rand : List Byte) : List Byte :=
  let sk := key.take 32
  let seed := (key.drop 64).take 32
  let r := shake256 ((key.drop 32).take 32 ++ rand ++ slhMessage m) 32
  let x := slhPick r (key.drop 64) m
  let fs := slhForsSign seed sk x.adrs x.fors
  r ++ fs.flatMap (fun f => f.flatMap id) ++ (slhTreeSign seed sk 8 0 x.tree x.leaf (slhForsFrom seed x.adrs fs x.fors)).flatMap id

end Sys2Proof.Machine
end

