-- ==== Sys2Proof/Machine/Edges.lean ====
section
/-! DEFINITION. The edges of the module (spec/19 R439-R453, spec/11 R259-R262, spec/13 R300, spec/04 R80): the module registers
and the launch ring, accesses of the host and of peers, links, correctable errors, clocks and heat, boot, wipe, life cycle and
attestation. -/

namespace Sys2Proof.Machine

open Sys2Proof

/-- The module is running: not held in reset (R453). -/
def State.powered (s : State) : Bool := !s.pmc.heldReset

/-! ### Module registers and doorbells (R440) -/

/-- DOORBELL: a store of the host to the register in BAR0. A lane's store to it is its ST. -/
def execDoorbell (domain : Nat) (s : State) : Host.Outcome State Fault Refusal :=
  if s.powered = false ∨ domain ≥ 4096 then .fault .notEnabled
  else .next (s.regStore .host 0 (BitVec.ofNat 64 domain))

/-- An item is a store whose first byte is offset 0 of the doorbell page. -/
def FlightItem.rings (i : FlightItem) : Bool :=
  match i.op with
  | .store lanes => lanes.any fun l => l.runs.any fun r => match r.1 with
      | .phys a => aperture a == some 3 && a % 4096 == 0
      | .win .. => false
  | _ => false

/-- DOORBELL_PAGE_STORE: a crew's store at offset 0 of the doorbell page is performed there. -/
def execDoorbellPageStore (wg crew : Nat) (s : State) : Host.Outcome State Fault Refusal :=
  match ((s.wg wg).crew crew).flight.find? fun i => i.rings && s.mayPerform wg i with
  | some i => if s.powered ∧ (s.wg wg).life = .resident then .next (s.perform wg crew i) else .fault .notEnabled
  | none => .fault .notEnabled

/-- MODULE_REGISTER_WRITE: a store of the host or of the PMC to a register without behaviour of its own. A lane's store is its
ST, and none of these registers takes it. -/
def execModuleRegisterWrite (who : RegWriter) (off : Nat) (val : Dword) (s : State) : Host.Outcome State Fault Refusal :=
  if s.powered = false ∨ who = .lane ∨ off = 0 ∨ off = 0x030 ∨ off % 8 ≠ 0 ∨ off ≥ 4096 then .fault .notEnabled
  else .next (s.regStore who off val)

/-! ### The launch ring (R441) -/

/-- Take entries of the launch ring, at most k, until the ring is empty or the pool has to wait. -/
def State.takeLaunches : Nat → State → State
  | 0, s => s
  | k + 1, s =>
    let r := s.regs
    if r.lrhead = r.lrtail ∨ s.pool.opened = false then s
    else
      let a := r.lrbase + 16 * (r.lrhead.toNat % 2 ^ r.lrlog.toNat)
      let e := natOfBytes (s.homeLoad a 16)
      let va := bits e 0 56
      let dom := bits e 68 12
      let past (t : State) : State := { t with regs := { t.regs with lrhead := r.lrhead + 1 } }
      if s.held ⟨.phys a, 16⟩ ∨ s.virtHeld dom false va 128 then s
      else if va % 128 ≠ 0 then State.takeLaunches k (past s)
      else match s.rdVirt dom va 128 with
        | .error _ => State.takeLaunches k (past s)
        | .ok b =>
          if s.acceptHeld dom (wordsLE b) then s
          else
            let x := s.accept dom (wordsLE b)
            if x.2 = 1 then s else State.takeLaunches k (past x.1)

/-- LRTAIL_WRITE: the host stores LRTAIL, and the pool takes entries up to it. The value that LRTAIL holds already stands for
the pool's going on with entries that it had to leave. -/
def execLrtailWrite (val : Dword) (s : State) : Host.Outcome State Fault Refusal :=
  if s.powered = false then .fault .notEnabled
  else .next (State.takeLaunches 65536 (s.regStore .host 0x030 val))

/-! ### The host and peers (spec/11 R259-R262, R442) -/

end Sys2Proof.Machine

namespace Sys2Proof

/-- First byte and length of an external access. -/
def ExtAccess.range : ExtAccess → Nat × Nat
  | .read pa n => (pa, n)
  | .write pa bs => (pa, bs.length)
  | .atomic _ wide pa .. => (pa, if wide then 8 else 4)

/-- The access lies in one line, an atomic aligned in it. -/
def ExtAccess.inLine (x : ExtAccess) : Bool :=
  let (a, n) := x.range
  n != 0 && decide (a % 64 + n ≤ 64) && (match x with | .atomic .. => a % n == 0 | _ => true)

def ExtAccess.isRead : ExtAccess → Bool
  | .read .. => true
  | _ => false

/-- The message that a firmware signature covers. -/
def Firmware.message (f : Firmware) : List Byte := Machine.bytesOfNat 4 f.version ++ f.body

end Sys2Proof

namespace Sys2Proof.Machine

open Sys2Proof

/-- Perform an access at its home. -/
def State.extPerform (s : State) (x : ExtAccess) : State :=
  match x with
  | .read .. => s
  | .write pa bs => s.physWrite none pa bs
  | .atomic op wide pa b c =>
    let n := if wide then 8 else 4
    let r := atomNew op (8 * n) (s.rdNat pa n) (b.toNat % 2 ^ (8 * n)) (c.toNat % 2 ^ (8 * n))
    s.physWrite none pa (bytesOfNat n r.1)

/-- An access from outside, to one of these apertures. -/
def State.extAccess (s : State) (aps : List Nat) (x : ExtAccess) : Host.Outcome State Fault Refusal :=
  let (a, n) := x.range
  if s.powered = false ∨ x.inLine = false ∨ s.held ⟨.phys a, n⟩ then .fault .notEnabled
  else match aperture a with
    | some ap => if aps.contains ap then .next (s.extPerform x) else .fault .notEnabled
    | none => .fault .notEnabled

/-- HOST_ACCESS: to device memory; to its own memory, of which this module may hold no line any more; to the capacity tier. -/
def execHostAccess (acc : ExtAccess) (s : State) : Host.Outcome State Fault Refusal :=
  if acc.isRead = false ∧ s.hostLines.contains (lineOf acc.range.1) then .fault .notEnabled
  else s.extAccess [0, 5, 6] acc

/-- REMOTE_ACCESS: a peer's access, performed at its home: this module's memory, or the peer's own, where this module's
monitors see the write (spec/11 R269). -/
def execRemoteAccess (acc : ExtAccess) (s : State) : Host.Outcome State Fault Refusal := s.extAccess [0, 4] acc

/-- BACK_INVALIDATE: a cached line is dropped. A capacity-tier line then reads as its home has it; the home of an HDM-DB line is
this module's L2, which keeps it. -/
def execBackInvalidate (line : Nat) (bytes : List Byte) (s : State) : Host.Outcome State Fault Refusal :=
  if s.powered = false then .fault .notEnabled
  else match aperture (64 * line) with
    | some 6 => if bytes.length = 64 then .next (s.physWrite none (64 * line) bytes) else .fault .notEnabled
    | some 0 => if bytes = [] then .next s else .fault .notEnabled
    | _ => .fault .notEnabled

/-- HOST_SNOOP: the module gives up a line of host memory that it holds. -/
def execHostSnoop (line : Nat) (s : State) : Host.Outcome State Fault Refusal :=
  if s.hostLines.contains line then .next { s with hostLines := s.hostLines.filter (· != line) } else .fault .notEnabled

/-- CXL features by number, in the order of R442's table: supported ones are 0 CXL.io, 1 CXL.cache, 2 CXL.mem, 3 flits of 256
bytes, 4 64 GT/s, 5 width x16, 6 width x8, 7 port-based routing, 8 HDM-DB with back-invalidation, 9 Unordered I/O to the
capacity tier, 10 IDE for CXL.io, 11 IDE for CXL.cachemem, 12 containment mode. Every other number is a feature not listed. -/
def cxlListed (f : Nat) : Bool := decide (f ≤ 12)

/-- LINK_TRAINING: the port is trained with the features that are supported. -/
def execLinkTraining (port : Nat) (features : List Nat) (s : State) : Host.Outcome State Fault Refusal :=
  if s.powered = false ∨ port ≥ 2 then .fault .notEnabled
  else .next { s with pmc := { s.pmc with linked := s.pmc.linked.set port (features.filter cxlListed) } }

/-! ### Errors that are corrected (R443, R446-R448) -/

/-- LINK_CRC_REPLAY: a correctable error of a Tiltain port, counted and logged. -/
def execLinkCrcReplay (port : Nat) (s : State) : Host.Outcome State Fault Refusal :=
  if s.powered = false ∨ port ≥ 64 then .fault .notEnabled
  else
    let s1 := s.logCorrected 5 0
    .next { s1 with pmc := { s1.pmc with linkErrs := s1.pmc.linkErrs.upd port (· + 1) } }

/-- One more error of a row in a window. -/
def countError (window : Nat) (old : Nat × Nat) : Nat × Nat := if old.1 = window then (window, old.2 + 1) else (window, 1)

/-- DRAM_CORRECTABLE_ERROR: the fourth error of a row in one window marks a lasting fault. -/
def execDramCorrectableError (g bank row : Nat) (s : State) : Host.Outcome State Fault Refusal :=
  if s.powered = false ∨ g ≥ numPchs ∨ bank ≥ 16 ∨ row ≥ 65536 then .fault .notEnabled
  else .next (s.updPch g fun p =>
    let k := rowId bank row
    let e := countError (p.n.toNat / 2 ^ 22) (p.errs.get k)
    { p with
      errs := p.errs.set k e
      lasting := if e.2 ≥ 4 ∧ p.lasting.contains k = false then p.lasting ++ [k] else p.lasting })

/-- SRAM_CORRECTABLE_ERROR: the fourth error of a row in one window has the row spared, while its bank has a spare. -/
def execSramCorrectableError (core bank row : Nat) (s : State) : Host.Outcome State Fault Refusal :=
  if s.powered = false ∨ core ≥ numCores ∨ bank ≥ 32 ∨ row ≥ 128 then .fault .notEnabled
  else .next (s.updCore core fun c =>
    let k := bank * 128 + row
    let e := countError ((s.cycleOf core).toNat / 2 ^ 32) (c.sramErr.get k)
    if e.2 ≥ 4 ∧ c.sramSpares.get bank < 8 then
      { c with sramErr := c.sramErr.drop k, sramSpares := c.sramSpares.set bank (c.sramSpares.get bank + 1) }
    else { c with sramErr := c.sramErr.set k e })

/-! ### Clocks and heat (R453, spec/13 R300, spec/04 R80) -/

/-- CLOCK_CHANGE: a clock of 0.8 to 2.2 GHz in steps of 25 MHz. It starts a clock that was stopped. -/
def execClockChange (island mhz : Nat) (s : State) : Host.Outcome State Fault Refusal :=
  if s.powered = false ∨ island ≥ 16 ∨ mhz < 800 ∨ mhz > 2200 ∨ mhz % 25 ≠ 0 then .fault .notEnabled
  else .next { s with islands := s.islands.upd island fun i => { i with mhz := mhz, stopped := false } }

/-- ISLAND_CLOCK_STOP: only where no workgroup is resident. -/
def execIslandClockStop (island : Nat) (s : State) : Host.Outcome State Fault Refusal :=
  if s.powered = false ∨ island ≥ 16 ∨ (s.wgs.any fun p => p.2.life.here && islandOf p.2.core == island) then .fault .notEnabled
  else .next { s with islands := s.islands.upd island fun i => { i with stopped := true } }

/-- REFRESH_RATE_CHANGE: a stack crosses 85 degrees, either way; timing only. -/
def execRefreshRateChange (stack : Nat) (hot : Bool) (s : State) : Host.Outcome State Fault Refusal :=
  if s.powered = false ∨ stack ≥ 16 ∨ (s.stks.get stack).hot = hot then .fault .notEnabled
  else .next { s with stks := s.stks.upd stack fun x => { x with hot := hot } }

/-- A workgroup is terminated by thermal shutdown: DETAIL word 8 of its frame names unit 9. -/
def State.heatStop (s : State) (t : Nat) : State :=
  let w := s.wg t
  let pc := (w.gangs.head?.map (·.pc)).getD 0
  (s.terminate t 0xB1 pc w.domain 0).updWg t fun w => { w with
    frames := w.frames.set 64 { (w.frames.get 64) with hdr := SMap.set (SMap.set [] 0 0xB1) 8 9 } }

/-- THERMAL_SHUTDOWN: every resident workgroup is terminated, every island stopped, the module held in reset. -/
def execThermalShutdown (s : State) : Host.Outcome State Fault Refusal :=
  if s.powered = false then .fault .notEnabled
  else
    let ts := (s.wgs.filter fun p => p.2.life.here).map (·.1)
    let s1 := overList ts s State.heatStop
    let s2 := s1.logMc 0xB1 9 0
    .next { s2 with
      islands := s2.islands.map fun p => (p.1, { p.2 with stopped := true })
      pmc := { s2.pmc with heldReset := true } }

/-! ### Wipe and boot (R449-R451) -/

/-- What of a pseudo-channel a wipe keeps: the sweep counter, the spared rows and the log. -/
def Pch.wiped (p : Pch) : Pch := { (default : Pch) with n := p.n, lasting := p.lasting, spares := p.spares, logged := p.logged }

/-- What of a core a wipe keeps: its spared SRAM rows. -/
def Core.wiped (c : Core) : Core := { (default : Core) with sramSpares := c.sramSpares }

/-- The wipe (R450): device DRAM reads zero, everything the module holds of work is cleared; memory outside the module stays. -/
def State.wipe (s : State) : State :=
  { s with
    mem := s.mem.filter fun p => aperture p.1 != some 0
    cores := overList s.cores [] fun m p => SMap.set m p.1 p.2.wiped
    wgs := []
    pchs := overList s.pchs [] fun m p => SMap.set m p.1 p.2.wiped
    stks := overList s.stks [] fun m p => SMap.set m p.1 { (default : Stack) with hot := p.2.hot }
    queues := []
    pool := { State.reset.pool with opened := s.pool.opened }
    hostLines := []
    shootdowns := []
    publishing := []
    agenda := [] }

/-- Reset: the wipe, with every register at its reset value. LCSTATE is kept, and MCLAST, for which no reset value is stated. -/
def State.cold (s : State) : State :=
  let w := s.wipe
  { w with
    pchs := overList w.pchs [] fun m p => SMap.set m p.1 { p.2 with n := 0 }
    islands := State.reset.islands
    pool := State.reset.pool
    regs := { State.reset.regs with lcstate := s.regs.lcstate, mclast := s.regs.mclast }
    pmc := { State.reset.pmc with reports := s.pmc.reports } }

/-- The boot ROM's verification (R449, R451). -/
def State.accepts (s : State) (f : Firmware) : Bool :=
  f.publicKey.length == 64 && f.signature.length == 29792 && decide (f.version ≥ Config.rollback) &&
  (if s.regs.lcstate = 3 then f.publicKey == Config.manufacturingKey else shake256 f.publicKey 32 == Config.fusedDigest) &&
  slhVerify f.publicKey f.message f.signature

/-- The SHAKE256-256 measurement of each firmware stage: the image, and those that it starts (R452). -/
def measurements (f : Firmware) : List (List Byte) := (f.body :: Config.laterStages f.body).map fun b => shake256 b 32

/-- Boot with an image: it runs and the pool opens, or the PMC stays in recovery. -/
def State.boot (s : State) (f : Firmware) : State :=
  if s.accepts f then
    { s with
      pmc := { s.pmc with booted := true, recovery := false, version := f.version, measure := measurements f }
      pool := { s.pool with opened := true } }
  else { s with pmc := { s.pmc with booted := false, recovery := true }, pool := { s.pool with opened := false } }

/-- MODULE_RESET. -/
def execModuleReset (img : Firmware) (s : State) : Host.Outcome State Fault Refusal :=
  if s.powered = false then .fault .notEnabled else .next (s.cold.boot img)

/-- RECOVERY_IMAGE: in recovery, a new image arrives over CXL.io. -/
def execRecoveryImage (img : Firmware) (s : State) : Host.Outcome State Fault Refusal :=
  if s.powered = false ∨ s.pmc.recovery = false then .fault .notEnabled else .next (s.boot img)

/-- THERMAL_RECOVERY: the module leaves reset; no image has been verified yet. -/
def execThermalRecovery (s : State) : Host.Outcome State Fault Refusal :=
  if s.powered then .fault .notEnabled else .next s.cold

/-- The life-cycle transitions (R449). -/
def lifecycleStep (a b : Nat) : Bool :=
  (a == 0 && b == 1) || (a == 1 && b == 2) || (a == 2 && b == 1) || (a != 3 && b == 3)

/-- LIFECYCLE_CHANGE: along an allowed transition, with a wipe. In the returned state the firmware has to be verified anew. -/
def execLifecycleChange (st : Nat) (s : State) : Host.Outcome State Fault Refusal :=
  if s.powered = false ∨ lifecycleStep s.regs.lcstate.toNat st = false then .fault .notEnabled
  else
    let w := s.wipe
    let open' := w.pool.opened && st != 3
    .next { w with
      regs := { w.regs with lcstate := BitVec.ofNat 2 st }
      pool := { w.pool with opened := open' }
      pmc := { w.pmc with booted := w.pmc.booted && st != 3 } }

/-- ATTESTATION_REQUEST: the nonce, LCSTATE, MODID, the rollback counter and the measurements, signed with
the device identity key, under randomness of the signer's own (R452). -/
def execAttestationRequest (nonce : List Byte) (s : State) : Host.Outcome State Fault Refusal :=
  if s.powered = false ∨ nonce.length ≠ 32 then .fault .notEnabled
  else
    let body := nonce ++ bytesOfNat 1 s.regs.lcstate.toNat ++ bytesOfNat 2 Config.modid.toNat ++ bytesOfNat 4 Config.rollback ++
      s.pmc.measure.flatMap id
    let rand := (List.range 32).map fun k => (Config.freeWord (s.free + k)).setWidth 8
    .next { s with
      free := s.free + 32
      pmc := { s.pmc with reports := s.pmc.reports ++ [body ++ slhSign Config.identityKey body rand] } }

end Sys2Proof.Machine
end

