-- ==== Sys2Proof/Machine/Flags.lean ====
section
/-! DEFINITION. The carry flag (spec/04 R84) and the class of predicate results. -/

namespace Sys2Proof.Machine

open Sys2Proof

/-- IADD and IADDC: the sum of two unsigned words and a carry, with the carry out. -/
def addCarry (a b : Nat) (c : Bool) : Nat × Bool :=
  let t := a + b + if c then 1 else 0
  (t % 2 ^ 32, decide (t ≥ 2 ^ 32))

/-- ISUB and ISUBB: the difference of two unsigned words and a borrow, with the borrow out. -/
def subBorrow (a b : Nat) (c : Bool) : Nat × Bool :=
  let d := b + if c then 1 else 0
  ((a + 2 ^ 33 - d) % 2 ^ 32, decide (a < d))

/-- A condition of ICMP on two values (spec/04 R90). -/
def icmpHolds (c : ICond) (x y : Int) : Bool :=
  match c with
  | .eq => decide (x = y) | .ne => decide (x ≠ y) | .lt => decide (x < y) | .le => decide (x ≤ y)
  | .gt => decide (x > y) | .ge => decide (x ≥ y)

/-- An operation of PLOP (spec/04 R90). -/
def plopVal (o : PredOp) (x y : Bool) : Bool :=
  match o with
  | .and => x && y | .or => x || y | .xor => xor x y | .andn => x && !y

end Sys2Proof.Machine
end

