-- ==== Sys2Proof/Machine/Integer.lean ====
section
/-! DEFINITION. The integer and special-register instructions (spec/04 R79-R90) and the two cross-lane instructions of
spec/02 (R35, R42-R44). -/

namespace Sys2Proof.Machine

open Sys2Proof

/-! ### Element-wise operations (R81) -/

/-- A binary operation on elements as integers of the TYPE, modulo 2^w. -/
def elemInt (t : IType) (g : Int → Int → Int → Int) (x : LaneIn) : LaneOut :=
  { res := BitVec.ofNat 64 (mapElems t.bits t.count (fun a b c => patOf t.bits (g (itVal t a) (itVal t b) (itVal t c)))
      (x.val 0) (x.val 1) (x.val 2)) }

/-- An operation on elements as unsigned numbers, modulo 2^w. -/
def elemNat (t : IType) (g : Nat → Nat → Nat) (x : LaneIn) : LaneOut :=
  { res := BitVec.ofNat 64 (mapElems t.bits t.count (fun a b _ => g a b) (x.val 0) (x.val 1) 0) }

/-- An operation on all 32 bits. -/
def wordOp (g : Nat → Nat → Nat) (x : LaneIn) : LaneOut := { res := BitVec.ofNat 64 (g (x.val 0) (x.val 1) % 2 ^ 32) }

/-- A two-source integer instruction. -/
def intA (i : Instr) (o : IntA) (f : LaneIn → LaneOut) (s : State) : Host.Outcome State Fault Refusal :=
  alu i [.int o.ty o.a, .int o.ty o.b] (dst o.nw o.d 1) f s

/-- A one-source integer instruction. -/
def intU (i : Instr) (o : IntU) (f : LaneIn → LaneOut) (s : State) : Host.Outcome State Fault Refusal :=
  alu i [.int o.ty o.a] (dst o.nw o.d 1) f s

/-- A logic instruction (R86). -/
def logicA (i : Instr) (o : LogicA) (g : Nat → Nat → Nat) (s : State) : Host.Outcome State Fault Refusal :=
  alu i [.int .u32 o.a, .int .u32 o.b] (dst o.nw o.d 1) (wordOp g) s

/-- MOV (R83): all 32 bits; TYPE has no effect. -/
def execMov (o : IntU) (s : State) : Host.Outcome State Fault Refusal :=
  intU (.mov o) o (wordOp fun a _ => a) s

/-- MOVI (R83): the immediate, or a register. -/
def execMovi (ty : IType) (nw : Bool) (d : Sel) (src : Src) (s : State) : Host.Outcome State Fault Refusal :=
  alu (.movi ty nw d src) [srcOpd ty src] (dst nw d 1) (wordOp fun a _ => a) s

/-- 32-bit types, at which CF is written (R84). -/
def isWordType (t : IType) : Bool := t == .s32 || t == .u32

/-- IADD (R84). -/
def addOut (t : IType) (x : LaneIn) : LaneOut :=
  if isWordType t then
    let r := addCarry (x.val 0) (x.val 1) false
    { res := BitVec.ofNat 64 r.1, cf := some r.2 }
  else elemInt t (fun a b _ => a + b) x

/-- ISUB (R84). -/
def subOut (t : IType) (x : LaneIn) : LaneOut :=
  if isWordType t then
    let r := subBorrow (x.val 0) (x.val 1) false
    { res := BitVec.ofNat 64 r.1, cf := some r.2 }
  else elemInt t (fun a b _ => a - b) x

/-- IADDC (R84). -/
def addcOut (x : LaneIn) : LaneOut :=
  let r := addCarry (x.val 0) (x.val 1) x.cf
  { res := BitVec.ofNat 64 r.1, cf := some r.2 }

/-- ISUBB (R84). -/
def subbOut (x : LaneIn) : LaneOut :=
  let r := subBorrow (x.val 0) (x.val 1) x.cf
  { res := BitVec.ofNat 64 r.1, cf := some r.2 }

def execIadd (o : IntA) (s : State) : Host.Outcome State Fault Refusal := intA (.iadd o) o (addOut o.ty) s
def execIaddc (o : IntA) (s : State) : Host.Outcome State Fault Refusal := intA (.iaddc o) o addcOut s
def execIsub (o : IntA) (s : State) : Host.Outcome State Fault Refusal := intA (.isub o) o (subOut o.ty) s
def execIsubb (o : IntA) (s : State) : Host.Outcome State Fault Refusal := intA (.isubb o) o subbOut s

/-- IMUL, IMULH, IMIN, IMAX, IMAD (R83). -/
def execImul (o : IntA) (s : State) : Host.Outcome State Fault Refusal :=
  intA (.imul o) o (elemInt o.ty fun a b _ => a * b) s
def execImulh (o : IntA) (s : State) : Host.Outcome State Fault Refusal :=
  intA (.imulh o) o (elemInt o.ty fun a b _ => a * b / ((2 ^ o.ty.bits : Nat) : Int)) s
def execImin (o : IntA) (s : State) : Host.Outcome State Fault Refusal :=
  intA (.imin o) o (elemInt o.ty fun a b _ => min a b) s
def execImax (o : IntA) (s : State) : Host.Outcome State Fault Refusal :=
  intA (.imax o) o (elemInt o.ty fun a b _ => max a b) s
def execImad (o : IntMad) (s : State) : Host.Outcome State Fault Refusal :=
  alu (.imad o) [.int o.ty o.a, .int o.ty o.b, .int o.ty o.c] (dst o.nw o.d 1) (elemInt o.ty fun a b c => a * b + c) s

/-- IMADW (R83): a 64-bit product-sum. -/
def madwOut (t : IType) (x : LaneIn) : LaneOut :=
  { res := BitVec.ofNat 64 (patOf 64 (itVal t (x.val 0) * itVal t (x.val 1) + signedOf 64 (x.val 2))) }

def execImadw (o : IntMad) (s : State) : Host.Outcome State Fault Refusal :=
  alu (.imadw o) [.int o.ty o.a, .int o.ty o.b, .pair o.c] (dst o.nw o.d 2) (madwOut o.ty) s

/-- Quotient and remainder of R85. -/
def divRem (t : IType) (a b : Int) : Int × Int :=
  if b = 0 then (-1, a)
  else if itSigned t ∧ a = itLo t ∧ b = -1 then (a, 0)
  else (Int.tdiv a b, a - b * Int.tdiv a b)

def execIdiv (o : IntA) (s : State) : Host.Outcome State Fault Refusal :=
  intA (.idiv o) o (elemInt o.ty fun a b _ => (divRem o.ty a b).1) s
def execIrem (o : IntA) (s : State) : Host.Outcome State Fault Refusal :=
  intA (.irem o) o (elemInt o.ty fun a b _ => (divRem o.ty a b).2) s

/-- The unary functions (R86). -/
def execIabs (o : IntU) (s : State) : Host.Outcome State Fault Refusal :=
  intU (.iabs o) o (elemInt o.ty fun a _ _ => if a < 0 then -a else a) s
def execIneg (o : IntU) (s : State) : Host.Outcome State Fault Refusal := intU (.ineg o) o (elemInt o.ty fun a _ _ => -a) s
def execPopc (o : IntU) (s : State) : Host.Outcome State Fault Refusal :=
  intU (.popc o) o (elemNat o.ty fun a _ => popCount o.ty.bits a) s
def execClz (o : IntU) (s : State) : Host.Outcome State Fault Refusal :=
  intU (.clz o) o (elemNat o.ty fun a _ => leadZeros o.ty.bits a) s
def execCtz (o : IntU) (s : State) : Host.Outcome State Fault Refusal :=
  intU (.ctz o) o (elemNat o.ty fun a _ => trailZeros o.ty.bits a) s
def execBrev (o : IntU) (s : State) : Host.Outcome State Fault Refusal :=
  intU (.brev o) o (elemNat o.ty fun a _ => revBits o.ty.bits a) s

/-- The logic functions (R86). -/
def execAnd (o : LogicA) (s : State) : Host.Outcome State Fault Refusal := logicA (.and o) o andNat s
def execOr (o : LogicA) (s : State) : Host.Outcome State Fault Refusal := logicA (.or o) o orNat s
def execXor (o : LogicA) (s : State) : Host.Outcome State Fault Refusal := logicA (.xor o) o xorNat s
def execAndn (o : LogicA) (s : State) : Host.Outcome State Fault Refusal :=
  logicA (.andn o) o (fun a b => andNat a (xorNat b (2 ^ 32 - 1))) s

/-- Shifts of an element of w bits (R87). -/
def shlElem (w a c : Nat) : Nat := if c < w then a * 2 ^ c % 2 ^ w else 0
def shrElem (w a c : Nat) : Nat := if c < w then a / 2 ^ c else 0
def sarElem (w a c : Nat) : Nat := patOf w (signedOf w a / ((2 ^ (min c w) : Nat) : Int))
def rotElem (w a c : Nat) : Nat := a * 2 ^ (c % w) % 2 ^ w + a / 2 ^ (w - c % w)

def execShl (o : IntA) (s : State) : Host.Outcome State Fault Refusal := intA (.shl o) o (elemNat o.ty (shlElem o.ty.bits)) s
def execShr (o : IntA) (s : State) : Host.Outcome State Fault Refusal := intA (.shr o) o (elemNat o.ty (shrElem o.ty.bits)) s
def execSar (o : IntA) (s : State) : Host.Outcome State Fault Refusal := intA (.sar o) o (elemNat o.ty (sarElem o.ty.bits)) s
def execRot (o : IntA) (s : State) : Host.Outcome State Fault Refusal := intA (.rot o) o (elemNat o.ty (rotElem o.ty.bits)) s

/-- Position and length of a control word (R88): a register's length is clamped. -/
def ctlPos (c : Nat) : Nat := bits c 0 5
def ctlLen (c : Nat) : Nat := min (bits c 8 6) (32 - ctlPos c)

/-- BFX (R88). -/
def bfxOut (t : IType) (x : LaneIn) : LaneOut :=
  let c := x.val 1
  let f := bits (x.val 0) (ctlPos c) (ctlLen c)
  let n := ctlLen c
  { res := BitVec.ofNat 64 (if n = 0 then 0 else if itSigned t then patOf 32 (signedOf n f) else f) }

def execBfx (ty : IType) (nw : Bool) (d a : Sel) (ctl : Src) (s : State) : Host.Outcome State Fault Refusal :=
  alu (.bfx ty nw d a ctl) [.int ty a, srcOpd .u32 ctl] (dst nw d 1) (bfxOut ty) s

/-- BFI (R88): the field of the base (operand 1) at the control (operand 2) is replaced. -/
def bfiOut (x : LaneIn) : LaneOut :=
  let c := x.val 2
  { res := BitVec.ofNat 64 (putBits (x.val 1) (ctlPos c) (ctlLen c) (x.val 0)) }

def execBfi (ty : IType) (nw : Bool) (f : BfiForm) (s : State) : Host.Outcome State Fault Refusal :=
  match f with
  | .imm d a ctl => alu (.bfi ty nw f) [.int ty a, .int ty d, .imm (ctl.setWidth 64)] (dst nw d 1) bfiOut s
  | .reg d a b c => alu (.bfi ty nw f) [.int ty a, .int ty b, .int .u32 c] (dst nw d 1) bfiOut s

/-- PERM (R89): operands A, the second source, the control. -/
def permOut (x : LaneIn) : LaneOut :=
  let all := x.val 0 + x.val 1 * 2 ^ 32
  { res := BitVec.ofNat 64 (packElems 8 ((List.range 4).map fun k =>
      let n := bits (x.val 2) (4 * k) 4
      if n ≥ 8 then 0 else bits all (8 * n) 8)) }

def execPerm (nw : Bool) (f : PermForm) (s : State) : Host.Outcome State Fault Refusal :=
  match f with
  | .imm d a ctl => alu (.perm nw f) [.int .u32 a, .imm 0, .imm (ctl.setWidth 64)] (dst nw d 1) permOut s
  | .reg d a b c => alu (.perm nw f) [.int .u32 a, .int .u32 b, .int .u32 c] (dst nw d 1) permOut s

/-- A predicate result and the 1 or 0 it leaves as a latch (R81). -/
def predOut (pd : Nat) (b : Bool) : LaneOut := { res := if b then 1 else 0, pd := some (pd, b) }

/-- ICMP (R90). -/
def icmpOut (c : ICond) (t : IType) (pd : Nat) (x : LaneIn) : LaneOut :=
  predOut pd (icmpHolds c (itVal t (x.val 0)) (itVal t (x.val 1)))

def execIcmp (c : ICond) (ty : IType) (pd : Nat) (a : Sel) (b : Src) (s : State) : Host.Outcome State Fault Refusal :=
  alu (.icmp c ty pd a b) [.int ty a, srcOpd ty b] none (icmpOut c ty pd) s

/-- SEL (R90). -/
def selOut (p : PredRef) (x : LaneIn) : LaneOut :=
  { res := BitVec.ofNat 64 (if xor (x.pred p.p) p.neg then x.val 0 else x.val 1) }

def execSel (ty : IType) (nw : Bool) (p : PredRef) (d a : Sel) (b : Src) (s : State) : Host.Outcome State Fault Refusal :=
  alu (.sel ty nw p d a b) [.int ty a, srcOpd ty b] (dst nw d 1) (selOut p) s

/-- PLOP (R90). -/
def plopOut (op : PredOp) (d a b : PredRef) (x : LaneIn) : LaneOut :=
  predOut d.p (xor (plopVal op (xor (x.pred a.p) a.neg) (xor (x.pred b.p) b.neg)) d.neg)

def execPlop (op : PredOp) (d a b : PredRef) (s : State) : Host.Outcome State Fault Refusal :=
  alu (.plop op d a b) [] none (plopOut op d a b) s

/-! ### Special registers (R78-R80 and the chapters that own the others) -/

/-- Fields laid out from bit 0 upwards: (width, value). -/
def packFields : List (Nat × Nat) → Nat
  | [] => 0
  | (n, v) :: t => v % 2 ^ n + 2 ^ n * packFields t

/-- A Bool as a field. -/
def fldB (b : Bool) : Nat × Nat := (1, if b then 1 else 0)

/-- STATE of an Apprentice (spec/17 R409). -/
def apprStNum : ApprState → Nat
  | .unbound => 0 | .running => 1 | .stalled => 2 | .ended => 3

/-- sr.appr of a crew (spec/17 R409). -/
def State.srAppr (s : State) (w : Workgroup) (c : Nat) : Nat :=
  match (w.crew c).appr with
  | some { unit := some u, .. } =>
    let a := (s.core w.core).apprs.get u
    packFields ([(2, apprStNum a.st), (2, u)] ++ ((List.range 4).map fun q => (5, (a.queues.get q).length)) ++ [(8, a.ecause)])
  | _ => 0

/-- sr.qn of a crew (spec/08 R193). -/
def srStream (x : Stream) : Nat :=
  packFields [(7, x.full.length), (7, x.free.length), (7, x.ring.nslot), fldB (x.ring.nslot != 0)]

/-- The value of a special register as a lane reads it. -/
def State.sreg (s : State) (t l : Nat) (r : SReg) : Dword :=
  let w := s.wg t
  let x := w.lane l
  let crew : Option Crew := x.crew.map w.crew
  BitVec.ofNat 64 (match r with
    | .lane => packFields [(9, l), (2, quadOf (homeOf l)), (4, homeOf l), (6, x.crew.getD 0), fldB x.crew.isSome]
    | .gangctl => packFields [(10, w.rgwin.toNat), (6, w.yhold.toNat)]
    | .flags => if x.cf then 1 else 0
    | .cycle => (s.cycleOf w.core).toNat
    | .clock => (s.islands.get (islandOf w.core)).mhz % 4096
    | .core => packFields [(12, w.core), (10, clusterOf w.core), (4, islandOf w.core)]
    | .alloc => packFields [(8, w.vregs), (10, w.nlanes)]
    | .wg => packFields [(24, w.inst)]
    | .domain => packFields [(12, w.domOf l)]
    | .fpmode => x.fpmode.toNat
    | .count => match crew with
      | some c => packFields (([Path.sp, .cl, .dm, .en, .ic]).map fun p => (6, c.count p))
      | none => 0
    | .spad => packFields [(11, w.spad / 4096), (2, w.l1code), fldB w.cluster, (2, w.core % 4)]
    | .racecov => packFields [(24, w.unchk.toNat), (7, 0), fldB w.spill]
    | .wgtag => t % 2 ^ 21
    | .gate => match crew with
      | some c => packFields [(3, c.depth), fldB c.handler, (12, c.gate), (12, c.caller)]
      | none => 0
    | .appr => match x.crew with | some c => s.srAppr w c | none => 0
    | .q n => match crew with | some c => srStream (c.streams.get n) | none => 0)

/-- MOVS (R79) into n registers. -/
def movsBody (r : SReg) (d : Dest) (e : Env) : Res :=
  let vs := e.ls.map fun l => (l, e.s.sreg e.t l r)
  let s1 := e.s.updWg e.t fun w => match d with
    | some (q, n) => w.writeSel e.s.free q (vs.map fun p => (p.1, splitWords n p.2))
    | none => w
  .ok s1 vs

def execMovs (nw : Bool) (d : Sel) (r : SReg) (s : State) : Host.Outcome State Fault Refusal :=
  laneIssue (.movs nw d r) (movsBody r (dst nw d 1)) s

/-- MOVS.WIDE of sr.cycle (R79). -/
def execMovsWide (nw : Bool) (d : Sel) (s : State) : Host.Outcome State Fault Refusal :=
  laneIssue (.movsWide nw d) (movsBody .cycle (dst nw d 2)) s

/-- MOVSW (R79): the RW fields; a per-workgroup register takes the highest lane of E. -/
def movswBody (r : SReg) (a : Sel) (e : Env) : Res :=
  let vs := e.ls.map fun l => (l, e.int32 l a 0 0)
  let s1 := e.s.updWg e.t fun w =>
    match r with
    | .flags => overList vs w fun w p => w.updLane p.1 fun x => { x with cf := p.2.getLsbD 0 }
    | .fpmode => overList vs w fun w p => w.updLane p.1 fun x => { x with fpmode := p.2.setWidth 2 }
    | .gangctl => match vs.getLast? with
      | some p => { w with rgwin := p.2.setWidth 10, yhold := (p.2 >>> 10).setWidth 6 }
      | none => w
    | _ => w
  .ok s1 (vs.map fun p => (p.1, p.2.setWidth 64))

def execMovsw (r : SReg) (a : Sel) (s : State) : Host.Outcome State Fault Refusal :=
  laneIssue (.movsw r a) (movswBody r a) s

/-! ### VOTE and SHFL (spec/02 R35, R42-R44) -/

/-- VOTE's result over the participants' values. -/
def voteOf (m : VoteMode) (vs : List (Nat × Word)) (mine : Word) : Nat :=
  let t := vs.filter fun p => p.2 != 0
  match m with
  | .all => if t.length = vs.length then 1 else 0
  | .any => if t.isEmpty then 0 else 1
  | .ballot => (maskOfLanes (t.map (·.1))).toNat
  | .eq => if vs.all (fun p => p.2 == mine) then 1 else 0
  | .popc => t.length

/-- A cross-lane result: every participant's operands are read before any result is written. -/
def crossBody (d : Dest) (rs : List (Nat × Dword)) (e : Env) : Res :=
  .ok (e.s.updWg e.t fun w => match d with
    | some (q, n) => w.writeSel e.s.free q (rs.map fun p => (p.1, splitWords n p.2))
    | none => w) rs

def voteBody (m : VoteMode) (a : Sel) (d : Dest) (e : Env) : Res :=
  let vs := e.ls.map fun l => (l, e.int32 l a 0 0)
  crossBody d (vs.map fun p => (p.1, BitVec.ofNat 64 (voteOf m vs p.2))) e

def execVote (m : VoteMode) (nw : Bool) (d a : Sel) (s : State) : Host.Outcome State Fault Refusal :=
  laneIssue (.vote m nw d a) (voteBody m a (dst nw d 1)) s

/-- The position a SHFL reads from, if it lies in the home set (R43). -/
def shflFrom (m : ShflMode) (q b : Nat) : Option Nat :=
  let x : Int := match m with
    | .idx => b
    | .up => (q : Int) - b
    | .down => (q : Int) + b
    | .xor => xorNat q b
  if 0 ≤ x ∧ x ≤ 31 then some x.toNat else none

def shflBody (m : ShflMode) (a b : Sel) (d : Dest) (e : Env) : Res :=
  let vs := e.ls.map fun l => (l, e.opds l [.int .u32 a, .int .u32 b] 0 0)
  let va (p : Nat × List Dword) : Dword := p.2.getD 0 0
  crossBody d (vs.map fun p =>
    (p.1, match shflFrom m (posOf p.1) (p.2.getD 1 0).toNat with
      | some q => (match vs.find? fun x => x.1 == 32 * e.g.hset + q with | some x => va x | none => va p)
      | none => va p)) e

def execShfl (m : ShflMode) (nw : Bool) (d a b : Sel) (s : State) : Host.Outcome State Fault Refusal :=
  laneIssue (.shfl m nw d a b) (shflBody m a b (dst nw d 1)) s

end Sys2Proof.Machine
end

