-- ==== Sys2Proof/Machine/Dispatch.lean ====
section
/-! DEFINITION. The meaning of every instruction and event: one arm per constructor of `Instr`, each one call of its
meaning. -/

namespace Sys2Proof.Machine

def exec (i : Instr) (s : State) : Host.Outcome State Fault Refusal :=
  match i with
  | .clauseIssue wg gang => Sys2Proof.Machine.execClauseIssue wg gang s
  | .gangUnpark wg gang => Sys2Proof.Machine.execGangUnpark wg gang s
  | .regangWindowClose wg hset pc => Sys2Proof.Machine.execRegangWindowClose wg hset pc s
  | .yieldHoldExpire wg gang => Sys2Proof.Machine.execYieldHoldExpire wg gang s
  | .crossLaneGather wg hset pc => Sys2Proof.Machine.execCrossLaneGather wg hset pc s
  | .crewDissolve wg crew => Sys2Proof.Machine.execCrewDissolve wg crew s
  | .workgroupComplete wg => Sys2Proof.Machine.execWorkgroupComplete wg s
  | .inFlightComplete wg crew item => Sys2Proof.Machine.execInFlightComplete wg crew item s
  | .matrixOpStart core quad q => Sys2Proof.Machine.execMatrixOpStart core quad q s
  | .matrixOpComplete wg hset q => Sys2Proof.Machine.execMatrixOpComplete wg hset q s
  | .lockRetry wg gang => Sys2Proof.Machine.execLockRetry wg gang s
  | .lockHold wg gang => Sys2Proof.Machine.execLockHold wg gang s
  | .raceStallRelease wg gang => Sys2Proof.Machine.execRaceStallRelease wg gang s
  | .raceStallTimeout wg gang => Sys2Proof.Machine.execRaceStallTimeout wg gang s
  | .l2EvictSpill line => Sys2Proof.Machine.execL2EvictSpill line s
  | .shootdownAck core => Sys2Proof.Machine.execShootdownAck core s
  | .preempt wg => Sys2Proof.Machine.execPreempt wg s
  | .preemptSave wg => Sys2Proof.Machine.execPreemptSave wg s
  | .restore wg core => Sys2Proof.Machine.execRestore wg core s
  | .nodeReady node => Sys2Proof.Machine.execNodeReady node s
  | .workgroupPlace node core => Sys2Proof.Machine.execWorkgroupPlace node core s
  | .bankJob g => Sys2Proof.Machine.execBankJob g s
  | .packetNode node => Sys2Proof.Machine.execPacketNode node s
  | .segmentLanded core slot => Sys2Proof.Machine.execSegmentLanded core slot s
  | .queueEnable hdr => Sys2Proof.Machine.execQueueEnable hdr s
  | .queueDisable hdr => Sys2Proof.Machine.execQueueDisable hdr s
  | .packetStart hdr => Sys2Proof.Machine.execPacketStart hdr s
  | .packetComplete hdr seq => Sys2Proof.Machine.execPacketComplete hdr seq s
  | .engineSlotClaim hdr seq => Sys2Proof.Machine.execEngineSlotClaim hdr seq s
  | .copyPacket hdr seq => Sys2Proof.Machine.execCopyPacket hdr seq s
  | .gather hdr seq => Sys2Proof.Machine.execGather hdr seq s
  | .quant2 hdr seq => Sys2Proof.Machine.execQuant2 hdr seq s
  | .coll hdr seq contrib => Sys2Proof.Machine.execColl hdr seq contrib s
  | .ckpt hdr seq => Sys2Proof.Machine.execCkpt hdr seq s
  | .assay hdr seq => Sys2Proof.Machine.execAssay hdr seq s
  | .link hdr seq => Sys2Proof.Machine.execLink hdr seq s
  | .sorterEntry core q => Sys2Proof.Machine.execSorterEntry core q s
  | .apprenticeLoadComplete core unit => Sys2Proof.Machine.execApprenticeLoadComplete core unit s
  | .sweepStep g => Sys2Proof.Machine.execSweepStep g s
  | .forcedRowApply g => Sys2Proof.Machine.execForcedRowApply g s
  | .catchupStep g => Sys2Proof.Machine.execCatchupStep g s
  | .allbankEnter g wg crew mask => Sys2Proof.Machine.execAllbankEnter g wg crew mask s
  | .allbankExit g => Sys2Proof.Machine.execAllbankExit g s
  | .allbankTimeout g => Sys2Proof.Machine.execAllbankTimeout g s
  | .act g row => Sys2Proof.Machine.execAct g row s
  | .pre g => Sys2Proof.Machine.execPre g s
  | .pass g args => Sys2Proof.Machine.execPass g args s
  | .kpass g args => Sys2Proof.Machine.execKpass g args s
  | .macr g args => Sys2Proof.Machine.execMacr g args s
  | .ctlWindowWrite g off wide val => Sys2Proof.Machine.execCtlWindowWrite g off wide val s
  | .doorbell domain => Sys2Proof.Machine.execDoorbell domain s
  | .doorbellPageStore wg crew => Sys2Proof.Machine.execDoorbellPageStore wg crew s
  | .lrtailWrite val => Sys2Proof.Machine.execLrtailWrite val s
  | .moduleRegisterWrite who off val => Sys2Proof.Machine.execModuleRegisterWrite who off val s
  | .hostAccess acc => Sys2Proof.Machine.execHostAccess acc s
  | .remoteAccess acc => Sys2Proof.Machine.execRemoteAccess acc s
  | .backInvalidate line bytes => Sys2Proof.Machine.execBackInvalidate line bytes s
  | .linkCrcReplay port => Sys2Proof.Machine.execLinkCrcReplay port s
  | .dramCorrectableError g bank row => Sys2Proof.Machine.execDramCorrectableError g bank row s
  | .sramCorrectableError core bank row => Sys2Proof.Machine.execSramCorrectableError core bank row s
  | .clockChange island mhz => Sys2Proof.Machine.execClockChange island mhz s
  | .refreshRateChange stack hot => Sys2Proof.Machine.execRefreshRateChange stack hot s
  | .thermalShutdown => Sys2Proof.Machine.execThermalShutdown s
  | .thermalRecovery => Sys2Proof.Machine.execThermalRecovery s
  | .moduleReset img => Sys2Proof.Machine.execModuleReset img s
  | .recoveryImage img => Sys2Proof.Machine.execRecoveryImage img s
  | .lifecycleChange st => Sys2Proof.Machine.execLifecycleChange st s
  | .attestationRequest nonce => Sys2Proof.Machine.execAttestationRequest nonce s
  | .mov o => Sys2Proof.Machine.execMov o s
  | .movi ty nw d src => Sys2Proof.Machine.execMovi ty nw d src s
  | .movs nw d r => Sys2Proof.Machine.execMovs nw d r s
  | .movsWide nw d => Sys2Proof.Machine.execMovsWide nw d s
  | .movsw r a => Sys2Proof.Machine.execMovsw r a s
  | .iadd o => Sys2Proof.Machine.execIadd o s
  | .iaddc o => Sys2Proof.Machine.execIaddc o s
  | .isub o => Sys2Proof.Machine.execIsub o s
  | .isubb o => Sys2Proof.Machine.execIsubb o s
  | .imul o => Sys2Proof.Machine.execImul o s
  | .imulh o => Sys2Proof.Machine.execImulh o s
  | .imad o => Sys2Proof.Machine.execImad o s
  | .imadw o => Sys2Proof.Machine.execImadw o s
  | .idiv o => Sys2Proof.Machine.execIdiv o s
  | .irem o => Sys2Proof.Machine.execIrem o s
  | .imin o => Sys2Proof.Machine.execImin o s
  | .imax o => Sys2Proof.Machine.execImax o s
  | .iabs o => Sys2Proof.Machine.execIabs o s
  | .ineg o => Sys2Proof.Machine.execIneg o s
  | .popc o => Sys2Proof.Machine.execPopc o s
  | .clz o => Sys2Proof.Machine.execClz o s
  | .ctz o => Sys2Proof.Machine.execCtz o s
  | .brev o => Sys2Proof.Machine.execBrev o s
  | .and o => Sys2Proof.Machine.execAnd o s
  | .or o => Sys2Proof.Machine.execOr o s
  | .xor o => Sys2Proof.Machine.execXor o s
  | .andn o => Sys2Proof.Machine.execAndn o s
  | .shl o => Sys2Proof.Machine.execShl o s
  | .shr o => Sys2Proof.Machine.execShr o s
  | .sar o => Sys2Proof.Machine.execSar o s
  | .rot o => Sys2Proof.Machine.execRot o s
  | .bfx ty nw d a ctl => Sys2Proof.Machine.execBfx ty nw d a ctl s
  | .bfi ty nw f => Sys2Proof.Machine.execBfi ty nw f s
  | .perm nw f => Sys2Proof.Machine.execPerm nw f s
  | .icmp c ty pd a b => Sys2Proof.Machine.execIcmp c ty pd a b s
  | .sel ty nw p d a b => Sys2Proof.Machine.execSel ty nw p d a b s
  | .plop op d a b => Sys2Proof.Machine.execPlop op d a b s
  | .vote m nw d a => Sys2Proof.Machine.execVote m nw d a s
  | .shfl m nw d a b => Sys2Proof.Machine.execShfl m nw d a b s
  | .fadd o => Sys2Proof.Machine.execFadd o s
  | .fsub o => Sys2Proof.Machine.execFsub o s
  | .fmul o => Sys2Proof.Machine.execFmul o s
  | .ffma ty nw rc d a b c => Sys2Proof.Machine.execFfma ty nw rc d a b c s
  | .fmin o => Sys2Proof.Machine.execFmin o s
  | .fmax o => Sys2Proof.Machine.execFmax o s
  | .fcopys o => Sys2Proof.Machine.execFcopys o s
  | .fcmp c ty pd a b => Sys2Proof.Machine.execFcmp c ty pd a b s
  | .fclass o => Sys2Proof.Machine.execFclass o s
  | .fdiv o => Sys2Proof.Machine.execFdiv o s
  | .fsqrt o => Sys2Proof.Machine.execFsqrt o s
  | .frcp o => Sys2Proof.Machine.execFrcp o s
  | .frsq o => Sys2Proof.Machine.execFrsq o s
  | .fexp2 o => Sys2Proof.Machine.execFexp2 o s
  | .flog2 o => Sys2Proof.Machine.execFlog2 o s
  | .fsin o => Sys2Proof.Machine.execFsin o s
  | .fcos o => Sys2Proof.Machine.execFcos o s
  | .fscale o => Sys2Proof.Machine.execFscale o s
  | .frnd o m => Sys2Proof.Machine.execFrnd o m s
  | .cvt ty nw rc d a t sat => Sys2Proof.Machine.execCvt ty nw rc d a t sat s
  | .cvti ty nw rc d a t => Sys2Proof.Machine.execCvti ty nw rc d a t s
  | .cvtf ty nw rc d a t => Sys2Proof.Machine.execCvtf ty nw rc d a t s
  | .split3 nw d a => Sys2Proof.Machine.execSplit3 nw d a s
  | .qnt nw d a b c => Sys2Proof.Machine.execQnt nw d a b c s
  | .dqnt nw d a b c => Sys2Proof.Machine.execDqnt nw d a b c s
  | .smxmerge nw n d a b => Sys2Proof.Machine.execSmxmerge nw n d a b s
  | .freda o => Sys2Proof.Machine.execFreda o s
  | .fredm o => Sys2Proof.Machine.execFredm o s
  | .unpkd ty nw d a b c => Sys2Proof.Machine.execUnpkd ty nw d a b c s
  | .unpkz ty nw d a => Sys2Proof.Machine.execUnpkz ty nw d a s
  | .unpkr ty nw rc d a b c => Sys2Proof.Machine.execUnpkr ty nw rc d a b c s
  | .mma acc a b fmt => Sys2Proof.Machine.execMma acc a b fmt s
  | .mmas acc a b fmt => Sys2Proof.Machine.execMmas acc a b fmt s
  | .mmam acc a fmt x1 rcd => Sys2Proof.Machine.execMmam acc a fmt x1 rcd s
  | .mmax acc a b fmt x1 x2 => Sys2Proof.Machine.execMmax acc a b fmt x1 x2 s
  | .mmaz acc a b fmt => Sys2Proof.Machine.execMmaz acc a b fmt s
  | .mmafin slot => Sys2Proof.Machine.execMmafin slot s
  | .maccrd f slot ch d => Sys2Proof.Machine.execMaccrd f slot ch d s
  | .maccwr f slot ch a => Sys2Proof.Machine.execMaccwr f slot ch a s
  | .mxwait slot => Sys2Proof.Machine.execMxwait slot s
  | .mtrans w nw d a => Sys2Proof.Machine.execMtrans w nw d a s
  | .lds o => Sys2Proof.Machine.execLds o s
  | .sts o => Sys2Proof.Machine.execSts o s
  | .ldsc o => Sys2Proof.Machine.execLdsc o s
  | .stsc o => Sys2Proof.Machine.execStsc o s
  | .ldlk w sp pt d addr off => Sys2Proof.Machine.execLdlk w sp pt d addr off s
  | .stul w sp d addr off => Sys2Proof.Machine.execStul w sp d addr off s
  | .atoms op w sp d a b c => Sys2Proof.Machine.execAtoms op w sp d a b c s
  | .waitc path a => Sys2Proof.Machine.execWaitc path a s
  | .qrd n d => Sys2Proof.Machine.execQrd n d s
  | .qpushClaim n d => Sys2Proof.Machine.execQpushClaim n d s
  | .qpushCommit n a => Sys2Proof.Machine.execQpushCommit n a s
  | .qfree n a => Sys2Proof.Machine.execQfree n a s
  | .qinit n a b => Sys2Proof.Machine.execQinit n a b s
  | .ld w ord scope nw swept addr data st => Sys2Proof.Machine.execLd w ord scope nw swept addr data st s
  | .st w ord scope addr data st => Sys2Proof.Machine.execSt w ord scope addr data st s
  | .ldt o => Sys2Proof.Machine.execLdt o s
  | .stt o => Sys2Proof.Machine.execStt o s
  | .atom o => Sys2Proof.Machine.execAtom o s
  | .red o => Sys2Proof.Machine.execRed o s
  | .prefL1 sw rcd off => Sys2Proof.Machine.execPrefL1 sw rcd off s
  | .prefL2 sw rcd off => Sys2Proof.Machine.execPrefL2 sw rcd off s
  | .prefPagein sw rcd off => Sys2Proof.Machine.execPrefPagein sw rcd off s
  | .monitor w acq scope nw sw rcd off data st => Sys2Proof.Machine.execMonitor w acq scope nw sw rcd off data st s
  | .monwait => Sys2Proof.Machine.execMonwait s
  | .fence ord scope => Sys2Proof.Machine.execFence ord scope s
  | .publish a => Sys2Proof.Machine.execPublish a s
  | .pin sw rcd off st => Sys2Proof.Machine.execPin sw rcd off st s
  | .unpin sw rcd off => Sys2Proof.Machine.execUnpin sw rcd off s
  | .resq nw sw rcd off d st => Sys2Proof.Machine.execResq nw sw rcd off d st s
  | .resqFetch nw sw rcd off d st => Sys2Proof.Machine.execResqFetch nw sw rcd off d st s
  | .recset a g => Sys2Proof.Machine.execRecset a g s
  | .recsetReload a => Sys2Proof.Machine.execRecsetReload a s
  | .recsetShape a => Sys2Proof.Machine.execRecsetShape a s
  | .binit k absorb crew a b => Sys2Proof.Machine.execBinit k absorb crew a b s
  | .bexpect k imm => Sys2Proof.Machine.execBexpect k imm s
  | .bexpectReg k a => Sys2Proof.Machine.execBexpectReg k a s
  | .barrive k sib b => Sys2Proof.Machine.execBarrive k sib b s
  | .bwait k phase => Sys2Proof.Machine.execBwait k phase s
  | .btest k word d => Sys2Proof.Machine.execBtest k word d s
  | .epost d q img => Sys2Proof.Machine.execEpost d q img s
  | .eseq d q thr => Sys2Proof.Machine.execEseq d q thr s
  | .copy tgt stream d q g => Sys2Proof.Machine.execCopy tgt stream d q g s
  | .swreg d r img => Sys2Proof.Machine.execSwreg d r img s
  | .swdereg r e => Sys2Proof.Machine.execSwdereg r e s
  | .swwait r e => Sys2Proof.Machine.execSwwait r e s
  | .swpos d r => Sys2Proof.Machine.execSwpos d r s
  | .swforce r e => Sys2Proof.Machine.execSwforce r e s
  | .bra p pn off => Sys2Proof.Machine.execBra p pn off s
  | .call p pn off => Sys2Proof.Machine.execCall p pn off s
  | .jmpf p pn seg word => Sys2Proof.Machine.execJmpf p pn seg word s
  | .bri a => Sys2Proof.Machine.execBri a s
  | .ret => Sys2Proof.Machine.execRet s
  | .nop => Sys2Proof.Machine.execNop s
  | .trap n => Sys2Proof.Machine.execTrap n s
  | .tret => Sys2Proof.Machine.execTret s
  | .tretAbort => Sys2Proof.Machine.execTretAbort s
  | .excrd d a => Sys2Proof.Machine.execExcrd d a s
  | .mcall m o1 o2 o3 o4 => Sys2Proof.Machine.execMcall m o1 o2 o3 o4 s
  | .icfetch sg => Sys2Proof.Machine.execIcfetch sg s
  | .icfetchSpad sg a => Sys2Proof.Machine.execIcfetchSpad sg a s
  | .icfetchDrop sg => Sys2Proof.Machine.execIcfetchDrop sg s
  | .icfetchGate sg x => Sys2Proof.Machine.execIcfetchGate sg x s
  | .nodepost d a => Sys2Proof.Machine.execNodepost d a s
  | .join nw d a b => Sys2Proof.Machine.execJoin nw d a b s
  | .leave => Sys2Proof.Machine.execLeave s
  | .regang => Sys2Proof.Machine.execRegang s
  | .yield => Sys2Proof.Machine.execYield s
  | .exit => Sys2Proof.Machine.execExit s
  | .apprenticeExit => Sys2Proof.Machine.execApprenticeExit s
  | .gcall idx => Sys2Proof.Machine.execGcall idx s
  | .gcallReg a => Sys2Proof.Machine.execGcallReg a s
  | .gret => Sys2Proof.Machine.execGret s
  | .xlinvPage a dom => Sys2Proof.Machine.execXlinvPage a dom s
  | .xlinvDomain dom => Sys2Proof.Machine.execXlinvDomain dom s
  | .xlinvResidency a dom => Sys2Proof.Machine.execXlinvResidency a dom s
  | .xlinvAll => Sys2Proof.Machine.execXlinvAll s
  | .xlprobe d a dom => Sys2Proof.Machine.execXlprobe d a dom s
  | .astart d a b => Sys2Proof.Machine.execAstart d a b s
  | .astartStop d => Sys2Proof.Machine.execAstartStop d s
  | .apush n a => Sys2Proof.Machine.execApush n a s
  | .apushVec n a b => Sys2Proof.Machine.execApushVec n a b s
  | .apushBcld n a b => Sys2Proof.Machine.execApushBcld n a b s
  | .apprenticeLd d rcd off => Sys2Proof.Machine.execApprenticeLd d rcd off s
  | .vgmv n a b c => Sys2Proof.Machine.execVgmv n a b c s
  | .vgrd n d => Sys2Proof.Machine.execVgrd n d s
  | .vgwait n => Sys2Proof.Machine.execVgwait n s
  | .hostSnoop line => Sys2Proof.Machine.execHostSnoop line s
  | .apprenticeClauseFetch core unit => Sys2Proof.Machine.execApprenticeClauseFetch core unit s
  | .islandClockStop island => Sys2Proof.Machine.execIslandClockStop island s
  | .linkTraining port features => Sys2Proof.Machine.execLinkTraining port features s

end Sys2Proof.Machine
end

