-- ==== Sys2Proof/Machine/Turns.lean ====
section
/-! DEFINITION. What may move next (log 1): the turns of a state, the island clocks (spec/02 R26, R40, R41, spec/04 R80, spec/10
R253), how a turn runs, and a workgroup that stands at a given instruction. -/

namespace Sys2Proof.Machine

open Sys2Proof

/-! ### An island clock edge -/

/-- Ages of a ready gang that does not issue rise by 1, to 1023 at most (R26). -/
def Gang.older (g : Gang) : Gang := { g with ages := g.ages.zipIdx.map fun a =>
  if (g.mask >>> (4 * a.2)) &&& 0xF != 0 then min 1023 (a.1 + 1) else a.1 }

/-- The end of a cycle for an Apprentice: what it has appended can be popped (spec/17 R405). -/
def Apprentice.cycleEnd (a : Apprentice) : Apprentice :=
  { a with queues := a.queues.map fun p => (p.1, p.2.map fun x => { x with new := false }) }

/-- A core's next cycle begins. -/
def Core.nextCycle (k : Core) : Core :=
  { k with issued := 0, late := false, lockNext := 0, lockWon := [], apprs := k.apprs.map fun p => (p.1, p.2.cycleEnd) }

/-- One cycle of a gang: its age, the rest of a YIELD hold (R41), the cycles of a race stall (spec/10 R253). -/
def State.tickGang (s : State) (t : Nat) (g : Gang) : Gang :=
  let g1 := if g.hold = 0 ∧ g.moved = false ∧ s.ready t g then g.older else g
  let g2 := { g1 with hold := holdLess g1.hold, moved := false }
  match g2.park, g2.clause with
  | some .race, some r => { g2 with clause := some { r with pend := .stall (r.pend.stallOf.1 + 1) r.pend.stallOf.2 } }
  | _, _ => g2

/-- The failing units whose correctable errors are counted and logged only (spec/19 R445, R448); those of a Tiltain port are CRC
replays. -/
def otherUnits : List Nat := [2, 3, 4, 6, 7, 8]

/-- One cycle of an island ends: its counter (spec/04 R80); the gangs and REGANG windows of its cores; what the cycle has written to
uniform registers, streams and barriers takes effect (spec/04 R76, spec/08 R188, spec/12 R284); dissolved crews' identifiers are
free (R30); every quadrant has its next issue slot. Forced GRETs of drained crews take place (spec/14 R353), and traps that wait
to read their TVT word try again (spec/15 R361). Residency requests whose turn has come are published (spec/14 R345). Uncorrectable
errors come and go (spec/15 R358), correctable ones are counted and logged (spec/19 R448). IOD0, whose clock the spec gives no register, is taken to end its cycles with island 0 (DESIGN CHOICE: log 32). -/
def State.tick (s : State) (island : Nat) : State :=
  let one (p : Nat × Workgroup) : Nat × Workgroup :=
    if p.2.life.here && islandOf p.2.core == island then
      (p.1, { p.2.cycleEnd with
        gangs := p.2.gangs.map (s.tickGang p.1)
        windows := p.2.windows.map fun x => { x with left := x.left - 1 } })
    else p
  let s1 : State := { s with
    damage := Config.damage s.free
    islands := s.islands.upd island fun i => { i with cycle := i.cycle + 1 }
    cores := overList s.cores [] fun m p => SMap.set m p.1 (if islandOf p.1 == island then p.2.nextCycle else p.2)
    wgs := s.wgs.map one }
  let s2 := (overList (s1.wgs.filter fun p => p.2.life.here && islandOf p.2.core == island) s1
    fun s p => (s.settleCrews p.1).resumeTraps p.1).publishDue
  let s3 := overList ((Config.corrected s.free).filter fun e => otherUnits.contains e.1) s2 fun s e => s.logCorrected e.1 e.2
  if island = 0 then s3.mergeSaved else s3

/-! ### The turns of a state -/

/-- The instruction that an Apprentice issues: LD and EXIT have meanings of their own there (spec/17 R404). -/
def apprInstr (i : Instr) : Instr :=
  match i with
  | .ld _ _ _ _ _ (.off r o) d _ => .apprenticeLd d r o
  | .exit => .apprenticeExit
  | i => i

/-- Events of a workgroup that may be enabled. -/
def eventsOfWg (t : Nat) (w : Workgroup) : List Instr :=
  (w.gangs.flatMap fun g => [.clauseIssue t g.id, .gangUnpark t g.id, .yieldHoldExpire t g.id, .lockRetry t g.id, .lockHold t g.id,
    .raceStallRelease t g.id, .raceStallTimeout t g.id, .crossLaneGather t g.hset g.pc]) ++
  (w.windows.map fun x => .regangWindowClose t x.hset x.pc) ++
  (w.crews.flatMap fun c => .crewDissolve t c.1 :: c.2.flight.map fun i => .inFlightComplete t c.1 i.id) ++
  (w.mqueues.map fun q => .matrixOpComplete t (q.1 / 4) (q.1 % 4)) ++
  [.workgroupComplete t, .preempt t, .preemptSave t]

/-- Events of a core. -/
def eventsOfCore (c : Nat) (k : Core) : List Instr :=
  ((List.range 16).map fun j => .matrixOpStart c (j / 4) (j % 4)) ++
  (k.istore.map fun p => .segmentLanded c p.1) ++ (k.sorter.map fun p => .sorterEntry c p.1) ++
  (k.apprs.flatMap fun p => [.apprenticeClauseFetch c p.1, .apprenticeLoadComplete c p.1]) ++ [.shootdownAck c]

/-- Events of a queue; the work of a COLL comes with the data of other modules, from outside. -/
def eventsOfQueue (q : Queue) : List Instr :=
  [.packetStart q.hdr, .queueDisable q.hdr] ++ q.running.flatMap fun p =>
    [.packetComplete q.hdr p.seq, .engineSlotClaim q.hdr p.seq, .copyPacket q.hdr p.seq, .gather q.hdr p.seq,
     .quant2 q.hdr p.seq, .ckpt q.hdr p.seq, .assay q.hdr p.seq, .link q.hdr p.seq]

/-- Events of a pseudo-channel; the commands of a bank job come as BANK_JOB. -/
def eventsOfPch (s : State) (g : Nat) : List Instr :=
  [.sweepStep g, .catchupStep g, .forcedRowApply g, .bankJob g, .allbankTimeout g] ++
  s.wgs.flatMap fun p => p.2.crews.map fun c => .allbankEnter g p.1 c.1 0xFFFF

/-- Events of the pool. -/
def eventsOfPool (s : State) : List Instr :=
  (s.pool.nodes.flatMap fun n => [.nodeReady n.id, .packetNode n.id] ++ (List.range numCores).map fun c => .workgroupPlace n.id c) ++
  (s.wgs.flatMap fun p => (List.range numCores).map fun c => .restore p.1 c) ++
  (if s.regs.lrhead = s.regs.lrtail then [] else [.lrtailWrite s.regs.lrtail])

/-- Events that the machine takes by itself, when their guards hold. -/
def events (s : State) : List Instr :=
  (s.wgs.flatMap fun p => eventsOfWg p.1 p.2) ++ (s.cores.flatMap fun p => eventsOfCore p.1 p.2) ++
  s.queues.flatMap eventsOfQueue ++ eventsOfPool s ++ (List.range numPchs).flatMap (eventsOfPch s) ++
  s.stks.flatMap fun p => p.2.race.lines.map fun l => .l2EvictSpill l.1

/-- An event whose guard holds. -/
def State.enabled (s : State) (i : Instr) : Bool :=
  match exec i s with
  | .fault _ => false
  | _ => true

/-- A gang in the middle of a clause has its turn in the current cycle: its quadrant may issue, or may make an attempt that no
waiting requester outranks (spec/08 R184). -/
def State.mayGo (s : State) (t : Nat) (w : Workgroup) (g : Gang) : Bool := s.hasTurn w g && !(g.attempts && s.outranked t g)

/-- What the current cycle of an island does not end before: a REGANG window of it closes (R40), a crew dissolves (R30). -/
def State.cycleDue (s : State) (island : Nat) : Bool :=
  s.wgs.any fun p => p.2.life.here && islandOf p.2.core == island &&
    ((p.2.windows.any fun x => s.enabled (.regangWindowClose p.1 x.hset x.pc)) || p.2.crews.any fun c => p.2.crewOver c.1)

/-- An event by which terminated workgroups drain and are reclaimed (spec/15 R363). -/
def drains : Instr → Bool
  | .inFlightComplete .. | .matrixOpStart .. | .matrixOpComplete .. | .sorterEntry .. | .segmentLanded .. | .workgroupComplete .. |
    .allbankTimeout .. => true
  | _ => false

/-- What may move, but for the outside world: a gang in the middle of a clause, an Apprentice, an event, a clock. While the module
is held in reset, terminated workgroups drain and are reclaimed, and nothing else moves. -/
def State.turns (s : State) : List Turn :=
  if s.pmc.heldReset then ((events s).filter fun i => drains i && s.enabled i).map .event
  else
    (s.wgs.flatMap fun p => (p.2.gangs.filter fun g => p.2.inIssue g && s.mayGo p.1 p.2 g).map fun g => .gang p.1 g.id) ++
    (s.cores.flatMap fun p => (p.2.apprs.filter fun u => u.2.st == .running && u.2.ld.isNone && u.2.clause.isSome).map fun u => .appr p.1 u.1) ++
    ((events s).filter s.enabled).map .event ++
    (s.islands.filter fun p => !p.2.stopped && !s.cycleDue p.1).map fun p => .tick p.1

/-- Events that take place before anything else once they are due: the ends of a YIELD hold (R41) and of a race stall (spec/10
R253). -/
def Turn.urgent : Turn → Bool
  | .event (.yieldHoldExpire ..) => true
  | .event (.raceStallTimeout ..) => true
  | _ => false

/-- Something from outside, when its guard holds. A module that is held in reset takes only its recovery. -/
def State.outer (s : State) : List Turn :=
  match Config.envEvent s.free with
  | some i => if s.enabled i ∧ (s.pmc.heldReset = false ∨ i = .thermalRecovery) then [.event i] else []
  | none => []

/-- The next turn: an urgent one, or any other. -/
def State.pick (s : State) : Option Turn :=
  let all := s.turns ++ s.outer
  let l := match all.filter Turn.urgent with
    | [] => all
    | us => us
  l[Config.choice s.free % max 1 l.length]?

/-! ### Running a turn -/

/-- A gang whose turn it is takes its quadrant's issue slot of the cycle, or makes its attempt. -/
def State.takeTurn (s : State) (u : Turn) : State :=
  match u with
  | .gang t g =>
    let w := s.wg t
    (match w.gang? g with
      | some x => if (x.clause.bind ClauseRun.instr).isSome then s.tookTurn w x else s
      | none => s)
  | _ => s

/-- A turn at the agenda's head runs: an event is popped first; a gang or an Apprentice is popped by the instruction it issues. -/
def State.runTurn (s : State) (u : Turn) (rest : List Turn) : Host.Outcome State Fault Refusal :=
  match u with
  | .event i => exec i { s with agenda := rest }
  | .tick k => .next (({ s with agenda := rest } : State).tick k)
  | .gang t g =>
    (match (s.wg t).gang? g with
      | some x => (match x.clause with
        | some r => (match r.instr with
          | some i => exec i s
          | none => .fault .noIssuer)
        | none => .fault .noIssuer)
      | none => .fault .noIssuer)
  | .appr c k =>
    (match ((s.core c).apprs.get k).clause with
      | some r => (match r.instr with
        | some i => exec (apprInstr i) s
        | none => .fault .noIssuer)
      | none => .fault .noIssuer)

/-! ### A workgroup that stands at an instruction (log 5) -/

/-- The words of an instruction given by its bits: two, unless it decodes as one. -/
def fetchWords (w : Nat) : List Word :=
  let l := [BitVec.ofNat 32 w, BitVec.ofNat 32 (w / 2 ^ 32)]
  match decodeWords (l.map BitVec.toNat) with
  | .ok (_, n) => l.take n
  | .error _ => l

/-- A clause of CLASS 7 with some words. -/
def fetchHeader (ws : List Word) : Word := BitVec.ofNat 32 (0xFC000000 + ws.length * 2 ^ 22 + 7 * 2 ^ 19)

/-- The clause in issue at its first instruction. -/
def fetchRun (ws : List Word) : ClauseRun :=
  { (default : ClauseRun) with base := 0, hdr := fetchHeader ws, words := ws, pos := 0, issue := 1, exec := 1 }

/-- One lane, in crew 0, with 192 v registers and a window of 4096 bytes, on core 0. -/
def fetchGroup (ws : List Word) : Workgroup :=
  { (default : Workgroup) with
    life := .resident, homes := [0], nlanes := 1, vregs := 192, spad := 4096, nseg := 1
    lanes := [(0, { (default : Lane) with live := true, crew := some 0 })]
    crews := [(0, { (default : Crew) with held := true })]
    gangs := [{ (default : Gang) with id := 0, mask := 1, ages := freshAges, clause := some (fetchRun ws) }]
    nextGang := 1, segs := [(0, 1)] }

/-- Slot 0 of core 0 holds the clause. -/
def fetchSlot (ws : List Word) : ISlot :=
  { (default : ISlot) with st := .landed, count := 1, words := SMap.ofList (fetchHeader ws :: ws) }

end Sys2Proof.Machine
end

