-- ==== Sys2Proof/Machine/Step.lean ====
section
/-! DEFINITION. One step of the machine, and the state in which a given instruction is the next one to be run. -/

namespace Sys2Proof.Machine

/-- One step: the turn at the agenda's head runs; with an empty agenda the next turn is chosen, and a gang
takes its issue slot (log 1). -/
def step (s : State) : Host.Outcome State Fault Refusal :=
  match s.agenda with
  | u :: rest => s.runTurn u rest
  | [] =>
    let s1 := { s with free := s.free + 1 }
    match s1.pick with
    | some u => .next { s1.takeTurn u with agenda := [u] }
    | none => .fault .idle

/-- The state with an instruction placed: a workgroup of one lane, resident on core 0, stands at it, and moves next (log 5). -/
def State.withFetchWord (s : State) (_nbits w : Nat) : State :=
  let ws := fetchWords w
  ({ s.setWg 0 (fetchGroup ws) with agenda := [.gang 0 0] } : State).updCore 0 fun c => { c with istore := c.istore.set 0 (fetchSlot ws) }

end Sys2Proof.Machine
end

