-- ==== Sys2Proof/Safety.lean ====
section
/-! DEFINITION. The terms in which statements about the machine are made: what a safe run is; when an agent stands ready to issue
an instruction; what it means that an instruction has been performed, and what it leaves alone. -/

namespace Sys2Proof.Safety

open Sys2Proof Sys2Proof.Machine

/-- A safe run meets no instruction without a meaning. -/
def Meant (s : State) : Prop := ∀ m, step s ≠ .refused m

/-- The lanes of the execute mask of a clause, ascending (spec/02 R27). -/
def execLanes (g : Gang) (r : ClauseRun) : List Nat := lanesOf g.hset r.exec

/-- The lanes of its issue mask (spec/02 R27). -/
def issueLanes (g : Gang) (r : ClauseRun) : List Nat := lanesOf g.hset r.issue

/-- The state in which the turn at the head of the agenda has been taken up. -/
def taken (s : State) : State := { s with agenda := s.agenda.tail }

/-- What a gang's instruction reads its operands from, before anything is popped. -/
def envOf (s : State) (t : Nat) (g : Gang) (r : ClauseRun) : Env := (taken s).env t g r

/-- It is the turn of gang `g` of workgroup `t`, which is not parked and stands in clause `r`, outside a macro body. -/
structure Stands (s : State) (t : Nat) (g : Gang) (r : ClauseRun) : Prop where
  turn : s.agenda = .gang t g.id :: s.agenda.tail
  gang : (s.wg t).gang? g.id = some g
  clause : g.clause = some r
  awake : g.park = none
  plain : r.mac = none

/-- The registers an instruction reads or writes include a uniform one. -/
def usesUniform (i : Instr) : Bool := (i.reads ++ i.writes).any fun p => p.1.isS

/-- It writes a uniform register. -/
def writesUniform (i : Instr) : Bool := i.writes.any fun p => p.1.isS

/-- Uniform registers find the crews they need (spec/02 R29, spec/04 R76): no lane of E is crewless, and a write finds one crew. -/
structure CrewsFit (w : Workgroup) (i : Instr) (ls : List Nat) : Prop where
  crewed : usesUniform i = true → ∀ l ∈ ls, (w.lane l).crew ≠ none
  one : writesUniform i = true → ∀ l ∈ ls, ∀ m ∈ ls, (w.lane l).crew = (w.lane m).crew

/-- A gate call in force does not bar the instruction (spec/14 R351): streams, barriers and Apprentice bindings are barred
inside any call, matrix instructions where the gate's MATRIX bit is 0. -/
def GateLets (w : Workgroup) (i : Instr) (ls : List Nat) : Prop :=
  ∀ l ∈ ls, ∀ e, w.gateOf l = some e → calleeBars i = false ∧ (isMatrix i = true → gateFld e 14 14 ≠ 0)

/-- Gang `g` may perform instruction `i`, its locks apart: none of the lanes of its issue mask has a machine check to be
delivered and no uncorrectable error stands in what it reads (spec/15 R358), uniform registers and gates admit it, the queue entries `es` that it pops are there (spec/17
R408), and the clause does not end on the last word of its segment (spec/03 R46). -/
structure Able (s : State) (t : Nat) (g : Gang) (r : ClauseRun) (i : Instr) (es : List ApprEntry) : Prop extends
    Stands s t g r where
  unchecked : ∀ l ∈ issueLanes g r, ∀ c, ((s.wg t).lane l).crew = some c → ((s.wg t).crew c).mcheck = none
  intact : s.damage = []
  crews : CrewsFit (s.wg t) i (execLanes g r)
  gates : GateLets (s.wg t) i (execLanes g r)
  pops : (envOf s t g r).popsOf i = .ready es
  within : r.pos + i.len < r.words.length ∨ r.next % 4096 ≠ 0

/-- Gang `g` stands ready to perform instruction `i`: it may, and no lane of its issue mask holds a lock (spec/08 R181). -/
structure Ready (s : State) (t : Nat) (g : Gang) (r : ClauseRun) (i : Instr) (es : List ApprEntry) : Prop extends
    Able s t g r i es where
  unlocked : ∀ l ∈ issueLanes g r, ((s.wg t).lane l).lock = none

/-- Gang `g` goes on: `n` words further in its clause, or at the next clause where this one ends (spec/03 R46, R51). -/
def WentOn (s' : State) (t : Nat) (g : Gang) (r : ClauseRun) (n : Nat) : Prop :=
  ∃ g', (s'.wg t).gang? g.id = some g' ∧ g'.hset = g.hset ∧ g'.mask = g.mask ∧ g'.park = none ∧
    if r.pos + n < r.words.length then
      g'.pc = g.pc ∧ ∃ r', g'.clause = some r' ∧ r'.base = r.base ∧ r'.words = r.words ∧ r'.pos = r.pos + n ∧
        r'.issue = r.issue ∧ r'.exec = r.exec
    else g'.clause = none ∧ g'.pc = r.next

/-- Gang `g` waits where it stands, for `p`. -/
def Parked (s' : State) (t : Nat) (g : Gang) (r : ClauseRun) (p : Park) : Prop :=
  ∃ g' r', (s'.wg t).gang? g.id = some g' ∧ g'.park = some p ∧ g'.clause = some r' ∧ r'.base = r.base ∧ r'.pos = r.pos

/-- The turn has been taken, and nothing but workgroups, and what cores keep of queues and caches where `cores` allows it, has
changed: memory, banks, engines, the pool and the module registers stand. -/
structure WorldKept (s s' : State) (t : Nat) (cores : Bool) : Prop where
  rest : s' = { s with wgs := s'.wgs, cores := s'.cores, free := s'.free, agenda := s.agenda.tail }
  cores : cores = false → s'.cores = s.cores
  others : ∀ u, u ≠ t → s'.wg u = s.wg u

/-- An instruction pops no Apprentice queue. -/
def popless (i : Instr) : Bool := (popQueues i.reads).isEmpty

/-- Register codes of a destination (main register n is n, small register n is 256 + n). -/
def codesOf (d : Sel × Nat) : List Nat :=
  match regCode d.1 with
  | some c => (List.range d.2).map (c + ·)
  | none => []

/-- Uniform registers of a destination. -/
def uniformOf (d : Sel × Nat) : List Nat :=
  match d.1 with
  | .s n => (List.range d.2).map (n + ·)
  | _ => []

/-- No load in flight has register `code` of lane `l` as its destination (spec/08 R174). -/
def Settled (w : Workgroup) (l code : Nat) : Prop := w.pendingItems l code = []

/-- The lanes of E hold `val` in destination `d` (spec/04 R75, R76): each lane its own value in main or small registers that
no load in flight is to write, the crew the highest lane's in a uniform register. -/
def Holds (w w' : Workgroup) (ls : List Nat) (d : Dest) (val : Nat → Dword) : Prop :=
  match d with
  | none => True
  | some (.s n, k) => ∀ l c, ls.getLast? = some l → (w.lane l).crew = some c → ∀ j, j < k →
      (w'.crew c).s.get (n + j) = (val l >>> (32 * j)).setWidth 32
  | some (q, k) => ∀ c, regCode q = some c → ∀ l ∈ ls, ∀ j, j < k → Settled w l (c + j) →
      (w'.lane l).reg (c + j) = (val l >>> (32 * j)).setWidth 32

/-- The instruction writes CF (spec/04 R77, R84). -/
def writesCf : Instr → Bool
  | .iadd o | .isub o => isWordType o.ty
  | .iaddc _ | .isubb _ => true
  | _ => false

/-- The predicate that an instruction writes (spec/04 R90, spec/06 R126). -/
def writesPred : Instr → Option Nat
  | .icmp _ _ pd _ _ | .fcmp _ _ pd _ _ => some pd
  | .plop _ d _ _ => some d.p
  | _ => none

/-- The instruction can raise a flag (spec/05 R114, R116 and its entry). -/
def raisesFlags : Instr → Bool
  | .fadd _ | .fsub _ | .fmul _ | .ffma .. | .fmin _ | .fmax _ | .fcmp .. | .fdiv _ | .fsqrt _ | .frcp _ | .frsq _ | .fexp2 _
  | .flog2 _ | .fsin _ | .fcos _ | .fscale _ | .frnd .. | .cvt .. | .cvti .. | .cvtf .. | .split3 .. | .qnt .. | .dqnt ..
  | .smxmerge .. | .freda _ | .fredm _ | .unpkr .. => true
  | _ => false

/-- The instruction can count in SATCNT: a saturating conversion into E4M3, one into an integer, QNT (spec/05 R110, spec/06 R131,
R133). -/
def saturates : Instr → Bool
  | .cvt _ _ _ _ _ target sat => decide (target = .e4m3) && sat
  | .cvti .. | .qnt .. => true
  | _ => false

/-- The instruction can count in NANSCORE (spec/05 R116, spec/06 R136). -/
def countsNans : Instr → Bool
  | .smxmerge .. => true
  | _ => false

/-- What an instruction may do to the exception summary (spec/05 R115, R116): FLAGS is only ORed into, the counts never fall, and
each moves by the instructions alone whose entries say so. -/
structure SummaryGrown (w w' : Workgroup) (i : Instr) : Prop where
  sticky : w'.flags = w.flags ||| w'.flags
  flags : raisesFlags i = false → w'.flags = w.flags
  satcnt : w.satcnt.toNat ≤ w'.satcnt.toNat ∧ (saturates i = false → w'.satcnt = w.satcnt)
  nanscore : w.nanscore.toNat ≤ w'.nanscore.toNat ∧ (countsNans i = false → w'.nanscore = w.nanscore)

/-- The frame of a workgroup in which a gang has performed an instruction that computes: lanes outside E, registers other
than destinations, predicates and CF that the instruction does not write, everything but the gang, its lanes' replay regions, and
the workgroup's exception summary stand. -/
structure GroupKept (w w' : Workgroup) (g : Nat) (i : Instr) (ls : List Nat) : Prop where
  rest : w' = { w with lanes := w'.lanes, crews := w'.crews, gangs := w'.gangs, flags := w'.flags, satcnt := w'.satcnt,
                        nanscore := w'.nanscore }
  outside : ∀ l, l ∉ ls → w'.lane l = w.lane l
  lane : ∀ l, w'.lane l = { w.lane l with
      v := (w'.lane l).v, o := (w'.lane l).o, p := (w'.lane l).p, cf := (w'.lane l).cf, opened := (w'.lane l).opened }
  regs : ∀ l n, (∀ d ∈ i.writes, n ∉ codesOf d) → (w'.lane l).reg n = (w.lane l).reg n
  opened : popless i = true → ∀ l, (w'.lane l).opened = (w.lane l).opened
  carry : writesCf i = false → ∀ l, (w'.lane l).cf = (w.lane l).cf
  preds : ∀ l n, writesPred i ≠ some n → (w'.lane l).pred n = (w.lane l).pred n
  summary : SummaryGrown w w' i
  others : ∀ h, h ≠ g → w'.gang? h = w.gang? h
  crew : ∀ c, w'.crew c = { w.crew c with
      s := (w'.crew c).s, old := (w'.crew c).old, flight := (w'.crew c).flight, appr := (w'.crew c).appr }
  uniform : ∀ c n, (∀ d ∈ i.writes, n ∉ uniformOf d) → ((w'.crew c).s).get n = ((w.crew c).s).get n

/-- Gang `g` has performed instruction `i`, and has done no more: it goes on, and all else that the instruction does not write
stands. -/
structure Performed (s s' : State) (t : Nat) (g : Gang) (r : ClauseRun) (i : Instr) : Prop where
  goesOn : WentOn s' t g r i.len
  world : WorldKept s s' t (!popless i)
  group : GroupKept (s.wg t) (s'.wg t) g.id i (execLanes g r)

/-! ### Operands and results -/

/-- What instruction reads its operands from, with the queue entries it pops. -/
def opEnv (s : State) (t : Nat) (g : Gang) (r : ClauseRun) (es : List ApprEntry) : Env := { envOf s t g r with pops := es }

/-- Operand `k` of lane `l`, as a number. -/
def operand (s : State) (t : Nat) (g : Gang) (r : ClauseRun) (es : List ApprEntry) (ops : List Opd) (l k : Nat) : Nat :=
  (((opEnv s t g r es).opds l ops 0 0).getD k 0).toNat

/-- The latch of the instruction at `r.pos` (spec/03 R62): where the clause goes on, a lane of E reads its value from it, and any
other lane of the home set reads zero. -/
def LatchLeft (s' : State) (t : Nat) (g : Gang) (r : ClauseRun) (val : Nat → Dword) : Prop :=
  (∀ x ∈ r.latches, x.word ≠ r.pos) → ∀ g' r', (s'.wg t).gang? g.id = some g' → g'.clause = some r' →
    ∀ l, homeOf l = g.hset → latchRead r'.latches r.pos l = if l ∈ execLanes g r then val l else 0

/-- CF of a lane. -/
def cfOf (s : State) (t l : Nat) : Bool := ((s.wg t).lane l).cf

/-- A predicate of a lane. -/
def predOf (s : State) (t l n : Nat) : Bool := ((s.wg t).lane l).pred n

/-- CF and the predicates of the lanes stand. -/
def FlagsKept (s s' : State) (t : Nat) : Prop := ∀ l, cfOf s' t l = cfOf s t l ∧ ((s'.wg t).lane l).p = ((s.wg t).lane l).p

/-- The exception summary of a workgroup stands (spec/05 R116). -/
def SummaryKept (s s' : State) (t : Nat) : Prop :=
  (s'.wg t).flags = (s.wg t).flags ∧ (s'.wg t).satcnt = (s.wg t).satcnt ∧ (s'.wg t).nanscore = (s.wg t).nanscore

/-- The instructions of the integer and the float group that compute in each lane of E, or across them, from registers alone. -/
def computes : Instr → Bool
  | .mov _ | .movi .. | .movs .. | .movsWide .. | .iadd _ | .iaddc _ | .isub _ | .isubb _ | .imul _ | .imulh _ | .imad _
  | .imadw _ | .idiv _ | .irem _ | .imin _ | .imax _ | .iabs _ | .ineg _ | .popc _ | .clz _ | .ctz _ | .brev _ | .and _
  | .or _ | .xor _ | .andn _ | .shl _ | .shr _ | .sar _ | .rot _ | .bfx .. | .bfi .. | .perm .. | .icmp .. | .sel ..
  | .plop .. | .vote .. | .shfl .. => true
  | .fadd _ | .fsub _ | .fmul _ | .ffma .. | .fmin _ | .fmax _ | .fcopys _ | .fcmp .. | .fclass _ | .fdiv _ | .fsqrt _
  | .frcp _ | .frsq _ | .fexp2 _ | .flog2 _ | .fsin _ | .fcos _ | .fscale _ | .frnd .. | .cvt .. | .cvti .. | .cvtf ..
  | .split3 .. | .smxmerge .. | .freda _ | .fredm _ => true
  | _ => false

/-! ### Frames of instructions that do more than compute -/

/-- Registers other than the destinations `ds`, predicates, CF and rounding modes stand, and uniform registers too. -/
structure RegsKept (s s' : State) (t : Nat) (ds : List (Sel × Nat)) : Prop where
  regs : ∀ l n, (∀ d ∈ ds, n ∉ codesOf d) → ((s'.wg t).lane l).reg n = ((s.wg t).lane l).reg n
  flags : ∀ l, ((s'.wg t).lane l).p = ((s.wg t).lane l).p ∧ ((s'.wg t).lane l).cf = ((s.wg t).lane l).cf ∧
    ((s'.wg t).lane l).fpmode = ((s.wg t).lane l).fpmode
  uniform : ∀ c n, (∀ d ∈ ds, n ∉ uniformOf d) → ((s'.wg t).crew c).s.get n = ((s.wg t).crew c).s.get n

/-- The turn has been taken, and nothing outside workgroup `t` has changed but what cores and stacks keep of caches, queues and
race detection, and the numbers that the model gives to rings and passes: memory, banks, engines, the pool, the module registers and
every other workgroup stand. -/
structure OnlyGroup (s s' : State) (t : Nat) : Prop where
  rest : s' = { s with
    wgs := s'.wgs, cores := s'.cores, stks := s'.stks, nextRing := s'.nextRing, nextPass := s'.nextPass, free := s'.free
    agenda := s.agenda.tail }
  others : ∀ u, u ≠ t → s'.wg u = s.wg u

/-- Every byte of memory reads as before. -/
def MemKept (s s' : State) : Prop := ∀ a, s'.mem.get a = s.mem.get a

/-- The translations that an instruction makes at its issue can be made, and `s1` is the state then: the stores that happen before
them have been performed (spec/14 R338), no all-bank mode holds what they read (spec/13 R324), and the core has taken the descriptors
that it did not hold (spec/14 R333); `reads` are the bytes they read. -/
def Walked (e : Env) (reads : State → Nat → List Span) (s1 : State) : Prop := e.s.translated e.t e.ls reads = (s1, none)

/-- The same of an instruction that uses record `idx` of crew `c` and reads `more`: in `b` the record cache has taken the record
(spec/09 R197), and the gang stands. -/
def Found (e : Env) (c idx : Nat) (more : State → Nat → List Span) (b : State) : Prop :=
  ∃ s0, Walked e (e.recWalk c idx more) s0 ∧ b = s0.recUse e.w c idx ∧ (b.wg e.t).gang? e.g.id = some e.g

/-- No access is in flight, on the module. -/
def NothingFlies (s : State) : Prop := ∀ p ∈ s.wgs, ∀ c ∈ p.2.crews, c.2.flight = []

/-- No store in flight has been passed by a release (spec/10 R247), on the module. -/
def NonePassed (s : State) : Prop := ∀ p ∈ s.wgs, ∀ c ∈ p.2.crews, ∀ i ∈ c.2.flight, i.past = none

/-- The bytes of the runs lie in the spaces they name, and their load by a lane meets no race and does not stall (spec/06 R138,
spec/10 R253, R254). -/
def RunsClear (e : Env) (lane : Nat) (rs : List SpadRun) : Prop :=
  (∀ q ∈ rs, (e.s.runLocs e.t lane q).isSome = true) ∧
    ∃ s1, e.race false (e.s.spadRaces (e.s.runAccs e.t lane rs) 1) = .ok s1

/-- No pseudo-channel is held in all-bank mode (spec/13 R324). -/
def NoBankHeld (s : State) : Prop := ∀ p, (s.pch p).held = false

/-- Byte `a` of memory stands in the image of workgroup `u` in its save area (spec/15 R376). -/
def InImage (s : State) (u a : Nat) : Prop := ∃ b n, ⟨.phys b, n⟩ ∈ (s.wg u).image ∧ b ≤ a ∧ a < b + n

/-- Every byte of every window reads as before. -/
def WinKept (s s' : State) : Prop := ∀ u a, ((s'.wg u).win).get a = ((s.wg u).win).get a

/-- Gang `g` has performed instruction `i`, which acts within its workgroup alone: it goes on; registers other than the
destinations `ds`, memory and windows stand. -/
structure Acted (s s' : State) (t : Nat) (g : Gang) (r : ClauseRun) (i : Instr) (ds : List (Sel × Nat)) : Prop where
  goesOn : WentOn s' t g r i.len
  only : OnlyGroup s s' t
  regs : RegsKept s s' t ds
  wins : WinKept s s'

/-- Every lane of E is in a crew. -/
def Crewed (s : State) (t : Nat) (g : Gang) (r : ClauseRun) : Prop := ∀ l ∈ execLanes g r, ((s.wg t).lane l).crew ≠ none

/-- Every lane of E is in crew `c`. -/
def InCrew (s : State) (t : Nat) (g : Gang) (r : ClauseRun) (c : Nat) : Prop :=
  execLanes g r ≠ [] ∧ ∀ l ∈ execLanes g r, ((s.wg t).lane l).crew = some c

/-- The record that a sweep instruction names is found, which leaves state `b`; it is bank-direct, passes its checks, and names
pseudo-channel `p` (spec/13 R316). -/
def SweepAt (s : State) (t : Nat) (g : Gang) (r : ClauseRun) (es : List ApprEntry) (q : Sel) (c p : Nat) (b : State) : Prop :=
  InCrew s t g r c ∧
  let idx := operand s t g r es [.int .u32 q] ((execLanes g r).headD 0) 0 % 256
  let dom := ((s.wg t).crew c).domain
  let super := match b.descUse (s.wg t).core dom with | some d => descSuper d | none => false
  Found (opEnv s t g r es) c idx (fun _ _ => []) b ∧
  ∃ ws k, b.recGet (s.wg t) c idx 6 = .ok (ws, k) ∧ recCheck { z := 1, bank := true } super dom idx (recBits ws) = none ∧
    rKind (recBits ws) = 5 ∧ p = rAux (recBits ws) % 1024

/-- No crew of E has 63 instructions counted on a path (spec/08 R177). -/
def Room (s : State) (t : Nat) (g : Gang) (r : ClauseRun) (p : Path) : Prop :=
  ∀ c ∈ (s.wg t).crewsOf (execLanes g r), ((s.wg t).crew c).count p < 63

/-- An access of lanes `ls` has gone into flight on path `p` as item `it`: the first crew holds it, every crew counts it (spec/08
R176). -/
structure Flew (s2 s' : State) (t : Nat) (ls : List Nat) (p : Path) (it : FlightItem) : Prop where
  item : it.id = (s2.wg t).nextItem ∧ it.path = some p ∧ it.done = false
  first : ∀ c, ((s2.wg t).crewsOf ls).head? = some c → ∃ l, ((s'.wg t).crew c).flight = l ++ [it] ∧
    l.map (·.id) = ((s2.wg t).crew c).flight.map (·.id)
  counted : ∀ c ∈ (s2.wg t).crewsOf ls, ((s'.wg t).crew c).count p = ((s2.wg t).crew c).count p + 1

/-- Gang `g` has performed instruction `i` after its checks and what they settled had given state `s1`: it goes on; from `s1` on,
registers other than the destinations `ds`, windows and other workgroups' lanes stand. -/
structure After (s1 s' : State) (t : Nat) (g : Gang) (r : ClauseRun) (i : Instr) (ds : List (Sel × Nat)) : Prop where
  goesOn : WentOn s' t g r i.len
  agenda : s'.agenda = s1.agenda
  regs : RegsKept s1 s' t ds
  wins : WinKept s1 s'
  others : ∀ u, u ≠ t → (s'.wg u).lanes = (s1.wg u).lanes

/-- `bs` stands in memory from `a` on, and every byte outside reads as in `s1`. -/
def Stored (s1 s' : State) (a : Nat) (bs : List Byte) : Prop :=
  ∀ x, s'.mem.get x = if a ≤ x ∧ x < a + bs.length then bs.getD (x - a) 0 else s1.mem.get x

/-- The intervals of the lanes of E have ended (spec/10 R249). -/
def IntervalsEnded (s s' : State) (t : Nat) (g : Gang) (r : ClauseRun) : Prop :=
  ∀ l ∈ execLanes g r, ((s'.wg t).lane l).interval = ((s.wg t).lane l).interval + 1

/-- The trap that lanes `ls` of gang `g` take at the instruction (spec/15 R359), from state `b` on, as the next state. -/
def trappedFrom (b s : State) (t : Nat) (g : Gang) (r : ClauseRun) (cause : Nat) (ls : List Nat) : State :=
  (b.takeTrap t g.id { cause := cause, faulters := ls, fpc := (envOf s t g r).fpc }).spent s.free

/-- The same where nothing has changed before it. -/
def trapped (s : State) (t : Nat) (g : Gang) (r : ClauseRun) (cause : Nat) (ls : List Nat) : State :=
  trappedFrom (taken s) s t g r cause ls

/-- Every lane of gang `g` stands at a clause boundary, at the address that `pcOf` gives it (spec/02 R21, R24). -/
def Spread (s' : State) (t : Nat) (g : Gang) (pcOf : Nat → Nat) : Prop :=
  ∀ l ∈ lanesOf g.hset g.mask, ∃ g' ∈ (s'.wg t).gangs, g'.hset = g.hset ∧ g'.mask.getLsbD (posOf l) = true ∧
    g'.clause = none ∧ g'.park = none ∧ g'.pc = pcOf l

/-- A terminal instruction of gang `g` has been performed: its lanes go on where `pcOf` says; registers other than the
destinations `ds`, memory and windows stand. -/
structure Transferred (s s' : State) (t : Nat) (g : Gang) (pcOf : Nat → Nat) (ds : List (Sel × Nat)) : Prop where
  goesTo : Spread s' t g pcOf
  only : OnlyGroup s s' t
  regs : RegsKept s s' t ds
  wins : WinKept s s'

/-- Workgroup `t` has been terminated (spec/15 R363): no lane is live, no gang is left, and the cause stands for the completion
record. -/
def Terminated (s s' : State) (t cause fpc dom : Nat) : Prop :=
  (∀ l, ((s'.wg t).lane l).live = false) ∧ (s'.wg t).gangs = [] ∧
    ((s.wg t).term = none → ∃ va, (s'.wg t).term = some (cause, fpc, dom, va))

/-- It is the turn of Apprentice `u` of a core, which runs clause `r` and waits for no load (spec/17 R403). -/
structure ApprStands (s : State) (core u : Nat) (a : Apprentice) (r : ClauseRun) : Prop where
  turn : s.agenda = .appr core u :: s.agenda.tail
  unit : (s.core core).apprs.get u = a
  running : a.st = .running
  free : a.ld = none
  clause : a.clause = some r
  plain : r.mac = none

/-- Apprentice `u` goes on by `n` words, or at the next clause; it ends where it passes the last word of its segment (spec/03 R46). -/
def ApprWentOn (s' : State) (core u : Nat) (r : ClauseRun) (n : Nat) : Prop :=
  let a' := (s'.core core).apprs.get u
  if r.pos + n < r.words.length then ∃ r', a'.clause = some r' ∧ r'.pos = r.pos + n ∧ r'.words = r.words ∧ r'.base = r.base
  else a'.clause = none ∧ (if r.next % 4096 = 0 then a'.st = .ended ∧ a'.ecause = 1 else a'.pc = r.next)

/-- The turn has been taken, and nothing but one core has changed. -/
def OnlyCore (s s' : State) (core : Nat) : Prop :=
  s' = { s with cores := s'.cores, free := s'.free, agenda := s.agenda.tail } ∧ ∀ c, c ≠ core → s'.core c = s.core c

/-- Nothing but workgroup `t`, and the count of free values used, has changed. -/
def OnlyWg (s s' : State) (t : Nat) : Prop := s' = { s with wgs := s'.wgs, free := s'.free } ∧ ∀ u, u ≠ t → s'.wg u = s.wg u

/-- The gangs of a list, of one home set, stand in workgroup `w'` as one gang `h`; every gang of another number stands. -/
def Joined (w w' : Workgroup) (gs : List Gang) (hset pc : Nat) : Prop :=
  (∀ x ∈ w.gangs, (∀ y ∈ gs, y.id ≠ x.id) → x ∈ w'.gangs) ∧
  (gs ≠ [] → ∃ h ∈ w'.gangs, h.hset = hset ∧ h.pc = pc ∧ h.cross = false ∧ h.regang = false ∧ h.hold = 0 ∧ (∀ a ∈ h.ages, a = 0) ∧
    ∀ k, h.mask.getLsbD k = gs.any fun y => y.mask.getLsbD k)

/-- Nothing but one core, and the count of free values used, has changed. -/
def OnlyCoreHere (s s' : State) (core : Nat) : Prop :=
  s' = { s with cores := s'.cores, free := s'.free } ∧ ∀ c, c ≠ core → s'.core c = s.core c

/-- Registers of the lanes of workgroup `t` stand. -/
def LaneRegsKept (s s' : State) (t : Nat) : Prop := ∀ l k, ((s'.wg t).lane l).reg k = ((s.wg t).lane l).reg k

/-- No forced return of a crew of workgroup `t` is pending (spec/14 R353). -/
def NoneForced (s : State) (t : Nat) : Prop := ∀ k, ((s.wg t).crew k).forced = none

/-- No forced return of a crew (spec/14 R353) and no trap (spec/15 R361) of any workgroup waits to take place. -/
def NothingDue (s : State) : Prop :=
  ∀ p ∈ s.wgs, (∀ c, (p.2.crew c).forced = none) ∧ ∀ x ∈ p.2.traps, x.cur.isSome = true ∨ x.todo = []

/-- Packet `seq` of the queue with header `hdr` has done a unit of work that has led to state `s2`: it is as `P` says, and nothing
else of `s2` has changed but the queue. -/
def PacketDid (o : Host.Outcome State Fault Refusal) (s2 : State) (hdr seq : Nat) (P : Packet → Prop) : Prop :=
  ∃ s' q p, o = .next s' ∧ s' = { s2 with queues := s'.queues } ∧ s'.queue? hdr = some q ∧ q.packet? seq = some p ∧ P p

/-- The pattern of an exact number v × 2^e, not zero, rounded once into a format (spec/05 R103). -/
def rounded (f : FFmt) (mode : Rounding) (v e : Int) : Nat := (f.round mode (decide (v < 0)) v.natAbs e).bits

/-- `z` is the sum of two values that are no NaNs, rounded once (spec/06 R122, spec/05 R103): a sum of zero is +0, or -0 when rounding
down, but for equal zeros, and infinities of opposite signs give the default NaN. -/
def SumIs (f : FFmt) (mode : Rounding) (x y : FVal) (z : Nat) : Prop :=
  match x, y with
  | .fin n1 m1 e1, .fin n2 m2 e2 =>
    let e := min e1 e2
    let v := signed n1 m1 * 2 ^ (e1 - e).toNat + signed n2 m2 * 2 ^ (e2 - e).toNat
    z = if v = 0 then f.signBit (if m1 = 0 ∧ m2 = 0 ∧ n1 = n2 then n1 else decide (mode = .rdn)) else rounded f mode v e
  | .inf a, .inf b => z = if a = b then f.infBits a else f.defNan
  | .inf a, .fin .. => z = f.infBits a
  | .fin .., .inf b => z = f.infBits b
  | _, _ => True

/-- `z` is the product of two values that are no NaNs, rounded once (spec/06 R122). -/
def ProductIs (f : FFmt) (mode : Rounding) (x y : FVal) (z : Nat) : Prop :=
  match x, y with
  | .fin n1 m1 e1, .fin n2 m2 e2 => z = (f.round mode (xor n1 n2) (m1 * m2) (e1 + e2)).bits
  | .inf a, .inf b => z = f.infBits (xor a b)
  | .inf a, .fin n m _ | .fin n m _, .inf a => z = if m = 0 then f.defNan else f.infBits (xor a n)
  | _, _ => True

/-- `z` is the quotient of two values that are no NaNs, rounded once (spec/06 R122). The quotient of the magnitudes is cut after at
least two bits more than the format holds, and a lowest bit says whether anything was cut off. -/
def QuotientIs (f : FFmt) (mode : Rounding) (x y : FVal) (z : Nat) : Prop :=
  match x, y with
  | .fin n1 m1 e1, .fin n2 m2 e2 =>
    if m2 = 0 then z = if m1 = 0 then f.defNan else f.infBits (xor n1 n2)
    else if m1 = 0 then z = f.signBit (xor n1 n2)
    else ∃ k : Nat, 2 ^ (f.mb + 2) ≤ m1 * 2 ^ k / m2 ∧
      z = (f.round mode (xor n1 n2) (2 * (m1 * 2 ^ k / m2) + if m1 * 2 ^ k % m2 = 0 then 0 else 1) (e1 - e2 - (k : Int) - 1)).bits
  | .inf _, .inf _ => z = f.defNan
  | .inf a, .fin n _ _ => z = f.infBits (xor a n)
  | .fin n _ _, .inf b => z = f.signBit (xor n b)
  | _, _ => True

/-- `z` is the square root of a value that is no NaN, rounded once (spec/06 R125); the root is cut as a quotient is. -/
def RootIs (f : FFmt) (mode : Rounding) (x : FVal) (z : Nat) : Prop :=
  match x with
  | .fin n m e =>
    if m = 0 then z = f.signBit n else if n then z = f.defNan
    else ∃ k r : Nat, (e - (k : Int)) % 2 = 0 ∧ r * r ≤ m * 2 ^ k ∧ m * 2 ^ k < (r + 1) * (r + 1) ∧ 2 ^ (f.mb + 2) ≤ r ∧
      z = (f.round mode false (2 * r + if r * r = m * 2 ^ k then 0 else 1) ((e - (k : Int)) / 2 - 1)).bits
  | .inf n => z = if n then f.defNan else f.infBits false
  | .nan .. => True

/-- A pattern of a floating-point format that is a NaN (spec/05 R100). -/
def isNaN (f : FFmt) (x : Nat) : Bool := decide (bits x f.mb f.eb = 2 ^ f.eb - 1) && decide (x % 2 ^ f.mb ≠ 0)

/-- The quiet NaN with the sign and fraction of a NaN (spec/05 R102). -/
def quieted (f : FFmt) (x : Nat) : Nat := x ||| 2 ^ (f.mb - 1)

end Sys2Proof.Safety
end

