-- ==== Sys2Proof/Certificates/Slice0/Obligations.lean ====
section
/-! DEFINITION. The statements for the provers: what the rules of spec/ say that the machine and its instructions do. -/

open Sys2Proof Sys2Proof.Machine Sys2Proof.Safety

/-- Every instruction that computes from registers alone completes where it stands ready: it goes on, writes its destination,
and the predicate, CF and counts that its entry names, ORs into FLAGS, and nothing else changes (spec/04 R75-R77, R81; spec/05
R116; spec/06 R119). -/
def Obligations.ComputePerformed : Prop :=
  ∀ (s : State) (t : Nat) (g : Gang) (r : ClauseRun) (es : List ApprEntry) (i : Instr), computes i = true → Ready s t g r i es →
    ∃ s', exec i s = .next s' ∧ Performed s s' t g r i

/-- IADD, IADDC, ISUB, ISUBB (spec/04 R84): elements modulo 2^w; carry and borrow at 32-bit types, CF unchanged at packed ones. -/
def Obligations.AddSubtractCarry : Prop :=
  ∀ (s : State) (t : Nat) (g : Gang) (r : ClauseRun) (es : List ApprEntry) (o : IntA),
    let a := fun l => operand s t g r es [.int o.ty o.a, .int o.ty o.b] l 0
    let b := fun l => operand s t g r es [.int o.ty o.a, .int o.ty o.b] l 1
    let c := fun l => if cfOf s t l then 1 else 0
    let w := o.ty.bits
    let res := fun (s' : State) (f : Nat → Nat) =>
      Holds (s.wg t) (s'.wg t) (execLanes g r) (dst o.nw o.d 1) (fun l => BitVec.ofNat 64 (f l))
    (Ready s t g r (.iadd o) es → ∃ s', exec (.iadd o) s = .next s' ∧ Performed s s' t g r (.iadd o) ∧
      res s' (fun l => mapElems w o.ty.count (fun x y _ => (x + y) % 2 ^ w) (a l) (b l) 0) ∧
      ∀ l ∈ execLanes g r, cfOf s' t l = if isWordType o.ty then decide (a l + b l ≥ 2 ^ 32) else cfOf s t l) ∧
    (Ready s t g r (.isub o) es → ∃ s', exec (.isub o) s = .next s' ∧ Performed s s' t g r (.isub o) ∧
      res s' (fun l => mapElems w o.ty.count (fun x y _ => (x + 2 ^ w - y) % 2 ^ w) (a l) (b l) 0) ∧
      ∀ l ∈ execLanes g r, cfOf s' t l = if isWordType o.ty then decide (a l < b l) else cfOf s t l) ∧
    (isWordType o.ty = true → Ready s t g r (.iaddc o) es → ∃ s', exec (.iaddc o) s = .next s' ∧
      Performed s s' t g r (.iaddc o) ∧ res s' (fun l => (a l + b l + c l) % 2 ^ 32) ∧
      ∀ l ∈ execLanes g r, cfOf s' t l = decide (a l + b l + c l ≥ 2 ^ 32)) ∧
    (isWordType o.ty = true → Ready s t g r (.isubb o) es → ∃ s', exec (.isubb o) s = .next s' ∧
      Performed s s' t g r (.isubb o) ∧ res s' (fun l => (a l + 2 ^ 33 - b l - c l) % 2 ^ 32) ∧
      ∀ l ∈ execLanes g r, cfOf s' t l = decide (a l < b l + c l))

/-- IDIV and IREM (spec/04 R85): truncation towards zero, and the two corners that never trap. -/
def Obligations.DivideTruncates : Prop :=
  ∀ (s : State) (t : Nat) (g : Gang) (r : ClauseRun) (es : List ApprEntry) (o : IntA),
    let a := fun l => operand s t g r es [.int o.ty o.a, .int o.ty o.b] l 0
    let b := fun l => operand s t g r es [.int o.ty o.a, .int o.ty o.b] l 1
    let w := o.ty.bits
    (Ready s t g r (.idiv o) es → ∃ s' val, exec (.idiv o) s = .next s' ∧ Performed s s' t g r (.idiv o) ∧
      Holds (s.wg t) (s'.wg t) (execLanes g r) (dst o.nw o.d 1) val ∧ LatchLeft s' t g r val ∧
      ∀ l ∈ execLanes g r, ∀ k, k < o.ty.count →
        let x := itVal o.ty (elemAt w (a l) k)
        let y := itVal o.ty (elemAt w (b l) k)
        elemAt w (val l).toNat k =
          if y = 0 then 2 ^ w - 1 else if x = itLo o.ty ∧ y = -1 then elemAt w (a l) k else patOf w (Int.tdiv x y)) ∧
    (Ready s t g r (.irem o) es → ∃ s' val, exec (.irem o) s = .next s' ∧ Performed s s' t g r (.irem o) ∧
      Holds (s.wg t) (s'.wg t) (execLanes g r) (dst o.nw o.d 1) val ∧ LatchLeft s' t g r val ∧
      ∀ l ∈ execLanes g r, ∀ k, k < o.ty.count →
        let x := itVal o.ty (elemAt w (a l) k)
        let y := itVal o.ty (elemAt w (b l) k)
        elemAt w (val l).toNat k =
          if y = 0 then elemAt w (a l) k else if x = itLo o.ty ∧ y = -1 then 0 else patOf w (x - y * Int.tdiv x y))

/-- SHL, SHR, SAR, ROT (spec/04 R87): every count, c ≥ w included. -/
def Obligations.ShiftsByElement : Prop :=
  ∀ (s : State) (t : Nat) (g : Gang) (r : ClauseRun) (es : List ApprEntry) (o : IntA),
    let a := fun l k => elemAt o.ty.bits (operand s t g r es [.int o.ty o.a, .int o.ty o.b] l 0) k
    let c := fun l k => elemAt o.ty.bits (operand s t g r es [.int o.ty o.a, .int o.ty o.b] l 1) k
    let w := o.ty.bits
    let gives := fun (i : Instr) (f : Nat → Nat → Nat) =>
      Ready s t g r i es → ∃ s' val, exec i s = .next s' ∧ Performed s s' t g r i ∧ FlagsKept s s' t ∧ SummaryKept s s' t ∧
        Holds (s.wg t) (s'.wg t) (execLanes g r) (dst o.nw o.d 1) val ∧ LatchLeft s' t g r val ∧
        ∀ l ∈ execLanes g r, ∀ k, k < o.ty.count → elemAt w (val l).toNat k = f (a l k) (c l k)
    gives (.shl o) (fun x n => if n < w then x * 2 ^ n % 2 ^ w else 0) ∧
    gives (.shr o) (fun x n => if n < w then x / 2 ^ n else 0) ∧
    gives (.sar o) (fun x n =>
      if n < w then patOf w (signedOf w x / ((2 ^ n : Nat) : Int)) else if x < 2 ^ (w - 1) then 0 else 2 ^ w - 1) ∧
    gives (.rot o) (fun x n => x * 2 ^ (n % w) % 2 ^ w + x / 2 ^ (w - n % w))

/-- IABS, INEG, POPC, CLZ, CTZ, BREV and the logic functions (spec/04 R86).
IMUL, IMULH, IMIN, IMAX, IMAD and IMADW (spec/04 R83): exact, then reduced modulo 2^w, or 2^64 for IMADW. MOV and MOVI (R83): the
word or the immediate. BFX and BFI (R88): the field at pos of a length clamped to the word, sign-extended at signed types; the other
bits of the base stand. PERM (R89): bytes 0-3 are of A, 4-7 of the second source, 8 and above are zero. -/
def Obligations.UnaryLogicAndMultiply : Prop :=
  (
    ∀ (s : State) (t : Nat) (g : Gang) (r : ClauseRun) (es : List ApprEntry),
      (∀ o : IntU,
        let w := o.ty.bits
        let gives := fun (i : Instr) (f : Nat → Nat) =>
          Ready s t g r i es → ∃ s' val, exec i s = .next s' ∧ Performed s s' t g r i ∧ FlagsKept s s' t ∧
            Holds (s.wg t) (s'.wg t) (execLanes g r) (dst o.nw o.d 1) val ∧
            ∀ l ∈ execLanes g r, ∀ k, k < o.ty.count →
              elemAt w (val l).toNat k = f (elemAt w (operand s t g r es [.int o.ty o.a] l 0) k)
        gives (.iabs o) (fun x => if itVal o.ty x < 0 then (2 ^ w - x) % 2 ^ w else x) ∧
        gives (.ineg o) (fun x => (2 ^ w - x) % 2 ^ w) ∧
        gives (.popc o) (fun x => ((List.range w).filter fun k => x.testBit k).length) ∧
        gives (.clz o) (fun x => if x = 0 then w else w - 1 - x.log2) ∧
        gives (.ctz o) (fun x => ((List.range w).takeWhile fun k => !x.testBit k).length) ∧
        gives (.brev o) (fun x => ((List.range w).map fun k => if x.testBit (w - 1 - k) then 2 ^ k else 0).sum)) ∧
      ∀ o : LogicA,
        let a := fun l => operand s t g r es [.int .u32 o.a, .int .u32 o.b] l 0
        let b := fun l => operand s t g r es [.int .u32 o.a, .int .u32 o.b] l 1
        let gives := fun (i : Instr) (f : Bool → Bool → Bool) =>
          Ready s t g r i es → ∃ s' val, exec i s = .next s' ∧ Performed s s' t g r i ∧ FlagsKept s s' t ∧
            Holds (s.wg t) (s'.wg t) (execLanes g r) (dst o.nw o.d 1) val ∧
            ∀ l ∈ execLanes g r, ∀ k, k < 32 → (val l).toNat.testBit k = f ((a l).testBit k) ((b l).testBit k)
        gives (.and o) (fun x y => x && y) ∧ gives (.or o) (fun x y => x || y) ∧ gives (.xor o) (fun x y => xor x y) ∧
        gives (.andn o) (fun x y => x && !y)) ∧
  (
    ∀ (s : State) (t : Nat) (g : Gang) (r : ClauseRun) (es : List ApprEntry),
      (∀ o : IntA,
        let w := o.ty.bits
        let ops := [Opd.int o.ty o.a, Opd.int o.ty o.b]
        let gives := fun (i : Instr) (f : Int → Int → Int) =>
          Ready s t g r i es → ∃ s' val, exec i s = .next s' ∧ Performed s s' t g r i ∧ FlagsKept s s' t ∧ SummaryKept s s' t ∧
            Holds (s.wg t) (s'.wg t) (execLanes g r) (dst o.nw o.d 1) val ∧ LatchLeft s' t g r val ∧
            ∀ l ∈ execLanes g r, ∀ k, k < o.ty.count →
              ((elemAt w (val l).toNat k : Nat) : Int) =
                f (itVal o.ty (elemAt w (operand s t g r es ops l 0) k)) (itVal o.ty (elemAt w (operand s t g r es ops l 1) k)) %
                  ((2 ^ w : Nat) : Int)
        gives (.imul o) (fun x y => x * y) ∧ gives (.imulh o) (fun x y => x * y / ((2 ^ w : Nat) : Int)) ∧
        gives (.imin o) (fun x y => min x y) ∧ gives (.imax o) (fun x y => max x y)) ∧
      ∀ o : IntMad,
        let w := o.ty.bits
        (Ready s t g r (.imad o) es → ∃ s' val, exec (.imad o) s = .next s' ∧ Performed s s' t g r (.imad o) ∧ FlagsKept s s' t ∧
          Holds (s.wg t) (s'.wg t) (execLanes g r) (dst o.nw o.d 1) val ∧
          ∀ l ∈ execLanes g r, ∀ k, k < o.ty.count →
            let x := fun j => itVal o.ty (elemAt w (operand s t g r es [.int o.ty o.a, .int o.ty o.b, .int o.ty o.c] l j) k)
            ((elemAt w (val l).toNat k : Nat) : Int) = (x 0 * x 1 + x 2) % ((2 ^ w : Nat) : Int)) ∧
        (isWordType o.ty = true → Ready s t g r (.imadw o) es → ∃ s' val, exec (.imadw o) s = .next s' ∧
          Performed s s' t g r (.imadw o) ∧ FlagsKept s s' t ∧
          Holds (s.wg t) (s'.wg t) (execLanes g r) (dst o.nw o.d 2) val ∧ LatchLeft s' t g r val ∧
          ∀ l ∈ execLanes g r,
            let x := operand s t g r es [.int o.ty o.a, .int o.ty o.b, .pair o.c] l
            (((val l).toNat : Nat) : Int) = (itVal o.ty (x 0) * itVal o.ty (x 1) + ((x 2 : Nat) : Int)) % ((2 ^ 64 : Nat) : Int))) ∧
  (
    ∀ (s : State) (t : Nat) (g : Gang) (r : ClauseRun) (es : List ApprEntry) (ty : IType) (nw : Bool),
      let gives := fun (i : Instr) (d : Sel) (p : Nat → Nat → Prop) =>
        Ready s t g r i es → ∃ s' val, exec i s = .next s' ∧ Performed s s' t g r i ∧ FlagsKept s s' t ∧ SummaryKept s s' t ∧
          Holds (s.wg t) (s'.wg t) (execLanes g r) (dst nw d 1) val ∧ LatchLeft s' t g r val ∧
          ∀ l ∈ execLanes g r, (val l).toNat < 2 ^ 32 ∧ p l (val l).toNat
      let x := fun ops l k => operand s t g r es ops l k
      let pos := fun ctl : Nat => ctl % 32
      let len := fun ctl : Nat => min (ctl / 2 ^ 8 % 64) (32 - ctl % 32)
      let inserted := fun (ops : List Opd) l z => ∀ j, j < 32 → Nat.testBit z j =
        if pos (x ops l 2) ≤ j ∧ j < pos (x ops l 2) + len (x ops l 2) then (x ops l 0).testBit (j - pos (x ops l 2))
        else (x ops l 1).testBit j
      let chosen := fun (ops : List Opd) l z => ∀ k, k < 4 → elemAt 8 z k =
        let n := elemAt 4 (x ops l 2) k
        if n < 4 then elemAt 8 (x ops l 0) n else if n < 8 then elemAt 8 (x ops l 1) (n - 4) else 0
      (∀ d a, gives (.mov ⟨ty, nw, d, a⟩) d fun l z => z = x [.int ty a] l 0) ∧
      (∀ d c, gives (.movi ty nw d (.imm c)) d fun _ z => z = c.toNat) ∧
      (∀ d a, gives (.movi ty nw d (.reg a)) d fun l z => z = x [.int ty a] l 0) ∧
      (∀ d a c, gives (.bfx ty nw d a c) d fun l z =>
        let ops := [Opd.int ty a, srcOpd .u32 c]
        let n := len (x ops l 1)
        ∀ j, j < 32 → z.testBit j = if j < n then (x ops l 0).testBit (pos (x ops l 1) + j)
          else itSigned ty && decide (0 < n) && (x ops l 0).testBit (pos (x ops l 1) + n - 1)) ∧
      (∀ d a c, gives (.bfi ty nw (.imm d a c)) d (inserted [.int ty a, .int ty d, .imm (c.setWidth 64)])) ∧
      (∀ d a b c, gives (.bfi ty nw (.reg d a b c)) d (inserted [.int ty a, .int ty b, .int .u32 c])) ∧
      (∀ d a c, gives (.perm nw (.imm d a c)) d (chosen [.int .u32 a, .imm 0, .imm (c.setWidth 64)])) ∧
      ∀ d a b c, gives (.perm nw (.reg d a b c)) d (chosen [.int .u32 a, .int .u32 b, .int .u32 c]))

/-- ICMP, SEL and PLOP (spec/04 R90); p0 reads as true in every lane of every state, and takes no write (R77). -/
def Obligations.CompareSelectPredicates : Prop :=
  ∀ (s : State) (t : Nat) (g : Gang) (r : ClauseRun) (es : List ApprEntry),
    (∀ l b, predOf s t l 0 = true ∧ ((s.wg t).lane l).setPred 0 b = (s.wg t).lane l) ∧
    (∀ c ty pd a b, pd ≠ 0 → Ready s t g r (.icmp c ty pd a b) es → ∃ s', exec (.icmp c ty pd a b) s = .next s' ∧
      Performed s s' t g r (.icmp c ty pd a b) ∧
      ∀ l ∈ execLanes g r,
        let x := itVal ty (operand s t g r es [.int ty a, srcOpd ty b] l 0)
        let y := itVal ty (operand s t g r es [.int ty a, srcOpd ty b] l 1)
        cfOf s' t l = cfOf s t l ∧
        (∀ n, n ≠ pd → n < 8 → predOf s' t l n = predOf s t l n) ∧
        (pd < 8 → predOf s' t l pd = match c with
          | .eq => decide (x = y) | .ne => decide (x ≠ y) | .lt => decide (x < y)
          | .le => decide (x ≤ y) | .gt => decide (y < x) | .ge => decide (y ≤ x))) ∧
    (∀ ty nw p d a b, Ready s t g r (.sel ty nw p d a b) es → ∃ s', exec (.sel ty nw p d a b) s = .next s' ∧
      Performed s s' t g r (.sel ty nw p d a b) ∧ FlagsKept s s' t ∧
      Holds (s.wg t) (s'.wg t) (execLanes g r) (dst nw d 1) (fun l => BitVec.ofNat 64
        (operand s t g r es [.int ty a, srcOpd ty b] l (if xor (predOf s t l p.p) p.neg then 0 else 1)))) ∧
    ∀ op d a b, d.p ≠ 0 → d.p < 8 → Ready s t g r (.plop op d a b) es → ∃ s', exec (.plop op d a b) s = .next s' ∧
      Performed s s' t g r (.plop op d a b) ∧
      ∀ l ∈ execLanes g r,
        let x := xor (predOf s t l a.p) a.neg
        let y := xor (predOf s t l b.p) b.neg
        cfOf s' t l = cfOf s t l ∧
        predOf s' t l d.p = xor (match op with | .and => x && y | .or => x || y | .xor => xor x y | .andn => x && !y) d.neg
/-- MOVS reads special registers (spec/04 R78-R80, spec/02 R31, spec/06 R120), and writes only its destination. -/
def Obligations.SpecialRegisterReads : Prop :=
  ∀ (s : State) (t : Nat) (g : Gang) (r : ClauseRun) (es : List ApprEntry) (nw : Bool) (d : Sel),
    let w := s.wg t
    (∀ q, Ready s t g r (.movs nw d q) es → ∃ s' val, exec (.movs nw d q) s = .next s' ∧
      Performed s s' t g r (.movs nw d q) ∧ FlagsKept s s' t ∧ LatchLeft s' t g r val ∧
      Holds w (s'.wg t) (execLanes g r) (dst nw d 1) val ∧
      ∀ l ∈ execLanes g r, ((val l).toNat % 2 ^ 32 : Nat) = match q with
        | .flags => if cfOf s t l then 1 else 0
        | .fpmode => (w.lane l).fpmode.toNat
        | .gangctl => w.rgwin.toNat + 1024 * w.yhold.toNat
        | .alloc => w.vregs % 256 + 256 * (w.nlanes % 1024)
        | .wg => w.inst % 2 ^ 24
        | .domain => w.domOf l % 4096
        | .core => w.core % 4096 + 4096 * (w.core / 4 % 1024) + 2 ^ 22 * (w.core / 256 % 16)
        | .lane => l % 512 + 512 * (l / 32 % 4) + 2048 * (l / 32 % 16) + 32768 * (((w.lane l).crew.getD 0) % 64) +
            2 ^ 21 * (if (w.lane l).crew.isSome then 1 else 0)
        | .cycle => (s.islands.get (w.core / 256)).cycle.toNat % 2 ^ 32
        | q => (s.sreg t l q).toNat % 2 ^ 32) ∧
    (Ready s t g r (.movsWide nw d) es → ∃ s', exec (.movsWide nw d) s = .next s' ∧ Performed s s' t g r (.movsWide nw d) ∧
      Holds w (s'.wg t) (execLanes g r) (dst nw d 2) (fun _ => (s.islands.get (w.core / 256)).cycle))

/-- MOVSW writes CF, the rounding mode or the gang-control windows, and leaves A as its latch (spec/04 R79, spec/02 R32). -/
def Obligations.SpecialRegisterWrites : Prop :=
  ∀ (s : State) (t : Nat) (g : Gang) (r : ClauseRun) (es : List ApprEntry) (q : SReg) (a : Sel),
    let x := fun l => operand s t g r es [.int .u32 a] l 0
    Ready s t g r (.movsw q a) es → ∃ s', exec (.movsw q a) s = .next s' ∧ WentOn s' t g r (Instr.movsw q a).len ∧
      WorldKept s s' t (!popless (.movsw q a)) ∧ LatchLeft s' t g r (fun l => BitVec.ofNat 64 (x l)) ∧
      (∀ l n, ((s'.wg t).lane l).reg n = ((s.wg t).lane l).reg n) ∧ (∀ l, ((s'.wg t).lane l).p = ((s.wg t).lane l).p) ∧
      (∀ c, ((s'.wg t).crew c).s = ((s.wg t).crew c).s) ∧ SummaryKept s s' t ∧ (s'.wg t).win = (s.wg t).win ∧
      (∀ l, cfOf s' t l = if q = .flags ∧ l ∈ execLanes g r then (x l).testBit 0 else cfOf s t l) ∧
      (∀ l, ((s'.wg t).lane l).fpmode =
        if q = .fpmode ∧ l ∈ execLanes g r then BitVec.ofNat 2 (x l) else ((s.wg t).lane l).fpmode) ∧
      (match (execLanes g r).getLast? with
        | some l => q = .gangctl → (s'.wg t).rgwin.toNat = x l % 1024 ∧ (s'.wg t).yhold.toNat = x l / 1024 % 64
        | none => True) ∧
      (q ≠ .gangctl ∨ execLanes g r = [] → (s'.wg t).rgwin = (s.wg t).rgwin ∧ (s'.wg t).yhold = (s.wg t).yhold)

/-- VOTE and SHFL (spec/02 R35, R43, R44): the same answer for every participant; a source lane outside the home set or the
execute mask yields the reading lane's own A. -/
def Obligations.VoteAndShuffle : Prop :=
  ∀ (s : State) (t : Nat) (g : Gang) (r : ClauseRun) (es : List ApprEntry) (nw : Bool) (d a b : Sel),
    let ls := execLanes g r
    (∀ m, let x := fun l => operand s t g r es [.int .u32 a] l 0;
      Ready s t g r (.vote m nw d a) es → ∃ s' val, exec (.vote m nw d a) s = .next s' ∧
        Performed s s' t g r (.vote m nw d a) ∧ FlagsKept s s' t ∧ SummaryKept s s' t ∧ LatchLeft s' t g r val ∧
        Holds (s.wg t) (s'.wg t) ls (dst nw d 1) val ∧
        ∀ l ∈ ls, (m = .all → (val l).toNat = if ∀ k ∈ ls, x k ≠ 0 then 1 else 0) ∧
          (m = .any → (val l).toNat = if ∃ k ∈ ls, x k ≠ 0 then 1 else 0) ∧
          (m = .eq → (val l).toNat = if ∀ k ∈ ls, x k = x l then 1 else 0) ∧
          (m = .popc → (val l).toNat = (ls.filter fun k => x k != 0).length) ∧
          (m = .ballot → ∀ k, k < 32 → ((val l).toNat.testBit k ↔ 32 * g.hset + k ∈ ls ∧ x (32 * g.hset + k) ≠ 0))) ∧
    ∀ m, let x := fun l k => operand s t g r es [.int .u32 a, .int .u32 b] l k;
      Ready s t g r (.shfl m nw d a b) es → ∃ s', exec (.shfl m nw d a b) s = .next s' ∧
        Performed s s' t g r (.shfl m nw d a b) ∧ FlagsKept s s' t ∧ SummaryKept s s' t ∧
        Holds (s.wg t) (s'.wg t) ls (dst nw d 1) (fun l =>
          let q := l % 32
          let src : Int := match m with
            | .idx => ((x l 1 : Nat) : Int) | .up => (q : Int) - ((x l 1 : Nat) : Int)
            | .down => (q : Int) + ((x l 1 : Nat) : Int) | .xor => ((q ^^^ x l 1 : Nat) : Int)
          BitVec.ofNat 64 (if 0 ≤ src ∧ src ≤ 31 ∧ 32 * g.hset + src.toNat ∈ ls then x (32 * g.hset + src.toNat) 0 else x l 0))

/-- The vector floating-point results, every element rounded once (spec/05 R102, R103). FADD, FSUB, FMUL, FDIV, FFMA, FSQRT, FSCALE,
FRND (spec/06 R121-R123, R125); FMIN, FMAX and FCOPYS (R124), and NaN operands: the first NaN, quieted, but where a number is asked for.
FCMP and FCLASS (R126, R127). The approximate functions (R128, R129): one fixed function of operand and TYPE, with the special values,
and elsewhere within the bound or the exact value rounded.
CVT, CVTI, CVTF (R130, R131) of at most 64 bits of result, as R130 admits, SPLIT3 (R132), SMXMERGE (R136; a NaN beside a product of zero and infinity is delivered, the model's
choice, log 69).
FREDA and FREDM (spec/06 R137): every participant receives the same result; of one participant, its own value, quieted. -/
def Obligations.FloatNaNsSignsAndReductions : Prop :=
  (
    ∀ (s : State) (t : Nat) (g : Gang) (r : ClauseRun) (es : List ApprEntry) (o : FltA),
      let f := ftFmt o.ty
      let w := o.ty.bits
      let a := fun l k => elemAt w (operand s t g r es [.flt o.ty o.a, .flt o.ty o.b] l 0) k
      let b := fun l k => elemAt w (operand s t g r es [.flt o.ty o.a, .flt o.ty o.b] l 1) k
      let gives := fun (i : Instr) (p : Nat → Nat → Nat → Prop) =>
        Ready s t g r i es → ∃ s' val, exec i s = .next s' ∧ Performed s s' t g r i ∧ FlagsKept s s' t ∧ LatchLeft s' t g r val ∧
          Holds (s.wg t) (s'.wg t) (execLanes g r) (dst o.nw o.d (fspan o.ty)) val ∧
          ∀ l ∈ execLanes g r, ∀ k, k < o.ty.count → p (a l k) (b l k) (elemAt w (val l).toNat k)
      let first := fun x y z =>
        (isNaN f x = true → z = quieted f x) ∧ (isNaN f x = false → isNaN f y = true → z = quieted f y)
      let number := fun x y z => (isNaN f x = true → isNaN f y = false → z = y) ∧ (isNaN f x = false → isNaN f y = true → z = x)
      let picks := fun (before : Int) x y z => isNaN f x = false → isNaN f y = false →
        let k := (f.decode x).cmp (f.decode y) * before
        (k < 0 → z = x) ∧ (0 < k → z = y) ∧
          (k = 0 → z = if (f.decode x).neg = (f.decode y).neg then z else if (f.decode x).neg = decide (before = 1) then x else y) ∧
          (z = x ∨ z = y)
      gives (.fadd o) first ∧ gives (.fsub o) first ∧ gives (.fmul o) first ∧ gives (.fdiv o) first ∧
      gives (.fmin o) (fun x y z => number x y z ∧ picks 1 x y z ∧ (isNaN f x = true → isNaN f y = true → z = quieted f x)) ∧
      gives (.fmax o) (fun x y z => number x y z ∧ picks (-1) x y z ∧ (isNaN f x = true → isNaN f y = true → z = quieted f x)) ∧
      gives (.fcopys o) (fun x y z => ∀ j, j < w → z.testBit j = if j = w - 1 then y.testBit j else x.testBit j)) ∧
  (
    ∀ (s : State) (t : Nat) (g : Gang) (r : ClauseRun) (es : List ApprEntry),
      let ls := execLanes g r
      let mode := fun l => roundOf ((s.wg t).lane l).fpmode
      let gives := fun (i : Instr) (d : Dest) (n w : Nat) (p : Nat → Nat → Nat → Prop) =>
        Ready s t g r i es → ∃ s' val, exec i s = .next s' ∧ Performed s s' t g r i ∧ FlagsKept s s' t ∧ LatchLeft s' t g r val ∧
          Holds (s.wg t) (s'.wg t) ls d val ∧
          ∀ l ∈ ls, ∀ k, k < n → ∃ z, p l k z ∧ elemAt w (val l).toNat k = z % 2 ^ w
      (∀ o : FltA,
        let f := ftFmt o.ty
        let v := fun j l k => f.decode (elemAt o.ty.bits (operand s t g r es [.flt o.ty o.a, .flt o.ty o.b] l j) k)
        let numbers := fun (i : Instr) (p : Rounding → FVal → FVal → Nat → Prop) =>
          gives i (dst o.nw o.d (fspan o.ty)) o.ty.count o.ty.bits fun l k z =>
            (v 0 l k).isNan = false → (v 1 l k).isNan = false → p (mode l) (v 0 l k) (v 1 l k) z
        numbers (.fadd o) (SumIs f) ∧ numbers (.fsub o) (fun m x y z => SumIs f m x y.negate z) ∧
        numbers (.fmul o) (ProductIs f) ∧ numbers (.fdiv o) (QuotientIs f) ∧
        gives (.fscale o) (dst o.nw o.d (fspan o.ty)) o.ty.count o.ty.bits (fun l k z =>
          let op := operand s t g r es [.flt o.ty o.a, .int (scaleType o.ty) o.b] l
          let n := itVal (scaleType o.ty) (elemAt (scaleType o.ty).bits (op 1) k)
          match f.decode (elemAt o.ty.bits (op 0) k) with
          | .fin c m e => z = (f.round (mode l) c m (e + n)).bits
          | .inf c => z = f.infBits c
          | .nan .. => z = quieted f (elemAt o.ty.bits (op 0) k))) ∧
      (∀ ty nw rc d a b c,
        let f := ftFmt ty
        let x := fun l j k => elemAt ty.bits (operand s t g r es [.flt ty a, .flt ty b, .flt ty c] l j) k
        gives (.ffma ty nw rc d a b c) (dst nw d (fspan ty)) ty.count ty.bits fun l k z =>
          if isNaN f (x l 0 k) then z = quieted f (x l 0 k) else if isNaN f (x l 1 k) then z = quieted f (x l 1 k)
          else if isNaN f (x l 2 k) then z = quieted f (x l 2 k)
          else match (f.decode (x l 0 k)).times (f.decode (x l 1 k)) with
            | some p => SumIs f (ctlMode rc (mode l)) p (f.decode (x l 2 k)) z
            | none => z = f.defNan) ∧
      (∀ o : FltU,
        let f := ftFmt o.ty
        let x := fun l k => elemAt o.ty.bits (operand s t g r es [.flt o.ty o.a] l 0) k
        gives (.fsqrt o) (dst o.nw o.d (fspan o.ty)) o.ty.count o.ty.bits (fun l k z =>
          if isNaN f (x l k) then z = quieted f (x l k) else RootIs f (mode l) (f.decode (x l k)) z) ∧
        (∀ m, gives (.frnd o m) (dst o.nw o.d (fspan o.ty)) o.ty.count o.ty.bits fun l k z =>
          match f.decode (x l k) with
          | .fin n c e => z = if e ≥ 0 then x l k else
              (f.round (rndMode m (mode l)) n (roundShift (rndMode m (mode l)) n c (-e).toNat).1 0).bits
          | .inf _ => z = x l k
          | .nan .. => z = quieted f (x l k)) ∧
        (Ready s t g r (.fclass o) es → ∃ s' val, exec (.fclass o) s = .next s' ∧ Performed s s' t g r (.fclass o) ∧
          FlagsKept s s' t ∧ LatchLeft s' t g r val ∧ Holds (s.wg t) (s'.wg t) ls (dst o.nw o.d 1) val ∧
          ∀ l ∈ ls, (val l).toNat < 2 ^ (16 * o.ty.count) ∧ ∀ k, k < o.ty.count →
            elemAt 16 (val l).toNat k = match f.decode (x l k) with
              | .nan _ _ sig => if sig then 1 else 2
              | .inf n => if n then 2 ^ 2 else 2 ^ 9
              | .fin n m _ => if m = 0 then (if n then 2 ^ 5 else 2 ^ 6)
                else if m < 2 ^ f.mb then (if n then 2 ^ 4 else 2 ^ 7) else if n then 2 ^ 3 else 2 ^ 8)) ∧
      (∀ c ty pd a b, pd ≠ 0 → Ready s t g r (.fcmp c ty pd a b) es → ∃ s' val, exec (.fcmp c ty pd a b) s = .next s' ∧
        Performed s s' t g r (.fcmp c ty pd a b) ∧ LatchLeft s' t g r val ∧
        ∀ l ∈ ls,
          let x := (ftFmt ty).decode (operand s t g r es [.flt ty a, cmpOpd ty b] l 0)
          let y := (ftFmt ty).decode (operand s t g r es [.flt ty a, cmpOpd ty b] l 1)
          let un := x.isNan = true ∨ y.isNan = true
          let holds := match c with
            | .eq => ¬un ∧ x.cmp y = 0 | .ne => un ∨ x.cmp y ≠ 0 | .lt => ¬un ∧ x.cmp y < 0 | .le => ¬un ∧ x.cmp y ≤ 0
            | .gt => ¬un ∧ 0 < x.cmp y | .ge => ¬un ∧ 0 ≤ x.cmp y | .ord => ¬un | .unord => un
          (pd < 8 → (predOf s' t l pd = true ↔ holds)) ∧ (holds → val l = 1) ∧ (¬holds → val l = 0)) ∧
      (∀ ty nw rc d a target sat, ty.count * target.bits ≤ 64 → gives (.cvt ty nw rc d a target sat) (dst nw d (bspan (ty.count * target.bits))) ty.count target.bits
        fun l k z =>
          let x := (ftFmt ty).decode (elemAt ty.bits (operand s t g r es [.flt ty a] l 0) k)
          if target = .e4m3 then z = (toE4m3 (ctlMode rc (mode l)) sat x).bits
          else match x with
            | .fin n m e => z = ((cvtFmt target).round (ctlMode rc (mode l)) n m e).bits
            | .inf n => z = (cvtFmt target).infBits n
            | .nan n frac _ => z = (cvtFmt target).nanBits n frac) ∧
      (∀ ty nw rc d a target,
        let x := fun l k => (ftFmt ty).decode (elemAt ty.bits (operand s t g r es [.flt ty a] l 0) k)
        let whole := fun l n m e => (roundToInt (ctlMode rc (mode l)) n m e).1
        (ty.count * target.bits ≤ 64 → gives (.cvti ty nw rc d a target) (dst nw d (bspan (ty.count * target.bits))) ty.count target.bits (fun l k z =>
          match x l k with
          | .fin n m e => z = patOf target.bits (max (itLo target) (min (itHi target) (whole l n m e)))
          | .inf n => z = patOf target.bits (if n then itLo target else itHi target)
          | .nan .. => z = 0)) ∧
        (Ready s t g r (.cvti ty nw rc d a target) es → ∀ s', exec (.cvti ty nw rc d a target) s = .next s' →
          (s'.wg t).satcnt.toNat = min (2 ^ 32 - 1) ((s.wg t).satcnt.toNat + (ls.map fun l =>
            ((List.range ty.count).filter fun k => match x l k with
              | .fin n m e => decide (whole l n m e < itLo target ∨ itHi target < whole l n m e)
              | .inf _ => true | .nan .. => false).length).sum))) ∧
      (∀ ty nw rc d a source, source.count * ty.bits ≤ 64 → gives (.cvtf ty nw rc d a source) (dst nw d (bspan (source.count * ty.bits))) source.count ty.bits
        fun l k z =>
          let n := itVal source (elemAt source.bits (operand s t g r es [.int source a] l 0) k)
          z = if n = 0 then 0 else rounded (ftFmt ty) (ctlMode rc (mode l)) n 0) ∧
      ∀ nw d a, gives (.split3 nw d a) (dst nw d 2) 4 16 fun l k z =>
        let x := operand s t g r es [.flt .f32 a] l 0 % 2 ^ 32
        match fp32.decode x with
        | .fin n m e =>
          let h := (bf16.round .rne n m e).bits
          let hi := if h = bf16.infBits n then bf16.maxBits n else h
          let rest := subExact (fp32.decode x) (bf16.decode hi)
          let mid := (bf16.ofVal .rne rest).bits
          z = [hi, mid, (bf16.ofVal .rne (subExact rest (bf16.decode mid))).bits, 0].getD k 0
        | .inf n => z = [bf16.infBits n, 0, 0, 0].getD k 0
        | .nan n frac _ => z = [bf16.nanBits n frac, 0, 0, 0].getD k 0) ∧
  (
    ∃ F : Config.Trans → FType → Nat → Nat,
      (∀ fn ty x, x < 2 ^ ty.bits →
        let f := ftFmt ty
        let z := F fn ty x
        match f.decode x with
        | .nan .. => z = quieted f x
        | .inf n => z = (match fn with
          | .rcp => f.signBit n | .rsq => if n then f.defNan else 0 | .log2 => if n then f.defNan else f.infBits false
          | .exp2 => if n then 0 else f.infBits false | .sin => f.defNan | .cos => f.defNan)
        | .fin n m e =>
          let iv := transInterval fn n m e
          let near := f.admits (transUlps fn ty) (transAbs fn ty m e iv) iv (f.decode z) = true ∨
            z = (f.roundInt .rne false iv.lo iv.e).bits
          match fn with
          | .rcp => if m = 0 then z = f.infBits n else near
          | .rsq => if m = 0 then z = f.infBits n else if n then z = f.defNan else near
          | .exp2 => if finInt m e = true ∧ f.emin ≤ finIntVal n m e then z = rounded f .rne 1 (finIntVal n m e) else near
          | .log2 => if m = 0 then z = f.infBits true else if n then z = f.defNan else match log2Exact m e with
            | some k => z = if k = 0 then 0 else rounded f .rne k 0
            | none => near
          | .sin => if finInt m e then z = f.signBit n else near
          | .cos => if m = 0 then z = rounded f .rne 1 0 else if finInt (2 * m) e && !finInt m e then z = 0 else near) ∧
      ∀ (s : State) (t : Nat) (g : Gang) (r : ClauseRun) (es : List ApprEntry),
        (∀ (o : FltU) fn, let i : Instr := (match fn with
              | .rcp => .frcp o | .rsq => .frsq o | .exp2 => .fexp2 o | .log2 => .flog2 o | .sin => .fsin o | .cos => .fcos o)
          Ready s t g r i es → ∃ s' val, exec i s = .next s' ∧ Performed s s' t g r i ∧ FlagsKept s s' t ∧ LatchLeft s' t g r val ∧
            Holds (s.wg t) (s'.wg t) (execLanes g r) (dst o.nw o.d (fspan o.ty)) val ∧
            ∀ l ∈ execLanes g r, ∀ k, k < o.ty.count → elemAt o.ty.bits (val l).toNat k =
              F fn o.ty (elemAt o.ty.bits (operand s t g r es [.flt o.ty o.a] l 0) k) % 2 ^ o.ty.bits) ∧
        ∀ nw n d a b, Ready s t g r (.smxmerge nw n d a b) es →
          let x := fun l k => ((opEnv s t g r es).word32 l a k 0 0).toNat
          let y := fun l k => ((opEnv s t g r es).word32 l b k 0 32).toNat
          let top := fun l => (fp32.minmax true (x l 0) (y l 0)).bits
          let factor := fun l m => if m = fp32.infBits true then none
            else if (fp32.decode m).cmp (fp32.decode (top l)) = 0 then some 0x3F800000
            else some (F .exp2 .f32 (fp32.sub .rne (fp32.decode m) (fp32.decode (top l))).bits)
          let mix := fun (p q : Option Nat) (u v : Nat) =>
            let term := match p with | none => 0 | some c => (fp32.mul .rne (fp32.decode c) (fp32.decode u)).bits
            match q with
            | none => (fp32.add .rne (.fin false 0 0) (fp32.decode term)).bits
            | some c => (fp32.fma .rne (fp32.decode c) (fp32.decode v) (fp32.decode term)).bits
          let out := fun l k => if isNaN fp32 (x l 0) then quieted fp32 (x l 0) else if isNaN fp32 (y l 0) then quieted fp32 (y l 0)
            else if k = 0 then top l else mix (factor l (x l 0)) (factor l (y l 0)) (x l k) (y l k)
          ∃ s', exec (.smxmerge nw n d a b) s = .next s' ∧ Performed s s' t g r (.smxmerge nw n d a b) ∧ FlagsKept s s' t ∧
            LatchLeft s' t g r (fun l => BitVec.ofNat 64 (out l 0 % 2 ^ 32 + 2 ^ 32 * (out l 1 % 2 ^ 32))) ∧
            (∀ code, regCode d = some code → nw = false → ∀ l ∈ execLanes g r, ∀ k, k < n + 2 → Settled (s.wg t) l (code + k) →
              ((s'.wg t).lane l).reg (code + k) = BitVec.ofNat 32 (out l k)) ∧
            (s'.wg t).nanscore.toNat = min (2 ^ 32 - 1) ((s.wg t).nanscore.toNat +
              ((execLanes g r).filter fun l => isNaN fp32 (x l 0) || isNaN fp32 (y l 0)).length)) ∧
  (
    ∀ (s : State) (t : Nat) (g : Gang) (r : ClauseRun) (es : List ApprEntry) (o : FltU) (i : Instr), i = .freda o ∨ i = .fredm o →
      let w := o.ty.bits
      Ready s t g r i es → ∃ s' x, exec i s = .next s' ∧ Performed s s' t g r i ∧ FlagsKept s s' t ∧
        Holds (s.wg t) (s'.wg t) (execLanes g r) (dst o.nw o.d (fspan o.ty)) (fun _ => x) ∧
        (execLanes g r = [] → SummaryKept s s' t) ∧
        ∀ l, execLanes g r = [l] → ∀ k, k < o.ty.count →
          let y := elemAt w (operand s t g r es [.flt o.ty o.a] l 0) k
          elemAt w x.toNat k = if isNaN (ftFmt o.ty) y then quieted (ftFmt o.ty) y else y)

/-- QNT and DQNT (spec/06 R133, R134): where every lane's format word passes, the results are written, each the exact product by the
scale rounded once; where a lane's does not, the lanes that fail trap with FORMAT_INVALID and nothing is performed.
An XD that does not fit an FP32 result of DQNT traps at issue, with the lanes of that BFMT as faulters (the model's choice, log 69). -/
def Obligations.QuantizeAndDequantize : Prop :=
  ∀ (s : State) (t : Nat) (g : Gang) (r : ClauseRun) (es : List ApprEntry) (nw : Bool) (d b c : Sel),
    (∀ m,
      let i : Instr := .qnt nw d (.v m) b c
      let x := fun l => operand s t g r es (quadSrc (.v m) ++ [.flt .f32 b, .int .u32 c]) l
      let bad := (execLanes g r).filter fun l => !qntFmt (x l 5)
      Ready s t g r i es →
        (bad = [] → ∃ s' val, exec i s = .next s' ∧ Performed s s' t g r i ∧ FlagsKept s s' t ∧ LatchLeft s' t g r val ∧
          Holds (s.wg t) (s'.wg t) (execLanes g r) (dst nw d 1) val ∧
          ∀ l ∈ execLanes g r, ∀ k, k < 4 →
            let y := (scaledVal (fp32.decode (x l k)) (fp32.decode (x l 4))).1
            elemAt 8 (val l).toNat k = (if fmtB (x l 5) = 4 then toE4m3 (fmtRound (x l 5)) (fmtSat (x l 5)) y
              else quantInt8 (fmtRound (x l 5)) y).bits % 2 ^ 8) ∧
        (bad ≠ [] → exec i s = .next (trapped s t g r 0x50 bad))) ∧
    (∀ a,
      let i : Instr := .dqnt nw d a b c
      let x := fun l => operand s t g r es [.int .u32 a, .flt .f32 b, .int .u32 c] l
      let bad := (execLanes g r).filter fun l => !dqntFmt (x l 2)
      let wide := (execLanes g r).filter fun l => fmtB (x l 2) == 0
      let fits := wide = [] ∨ ∃ n, d = .v n ∧ n % 4 = 0 ∧ n + 4 ≤ (s.wg t).vregs
      let res := fun l k => (dqntElem (x l 2) (elemAt 8 (x l 0) k) (x l 1)).bits
      Ready s t g r i es →
        (bad = [] → fits → ∃ s' val, exec i s = .next s' ∧ Acted s s' t g r i (nwDst nw d (if wide = [] then 2 else 4)) ∧
          LatchLeft s' t g r val ∧
          ∀ l ∈ execLanes g r,
            (∀ k, k < (if fmtB (x l 2) = 0 then 2 else 4) →
              elemAt (if fmtB (x l 2) = 0 then 32 else 16) (val l).toNat k = res l k % 2 ^ (if fmtB (x l 2) = 0 then 32 else 16)) ∧
            ∀ code, regCode d = some code → nw = false → ∀ k, k < 4 →
              if fmtB (x l 2) = 0 then
                Settled (s.wg t) l (code + k) → ((s'.wg t).lane l).reg (code + k) = BitVec.ofNat 32 (res l k)
              else
                Settled (s.wg t) l (code + k / 2) →
                  elemAt 16 (((s'.wg t).lane l).reg (code + k / 2)).toNat (k % 2) = res l k % 2 ^ 16) ∧
        (bad ≠ [] → exec i s = .next (trapped s t g r 0x50 bad)) ∧
        (bad = [] → ¬fits → exec i s = .next (trapped s t g r
          (match d with | .v n => if n % 4 = 0 then 0xA5 else 0x03 | _ => 0x03) wide)))
/-- UNPKD, UNPKZ and UNPKR (spec/06 R138-R141): where the reads of the stream are admitted, the data and the advanced cursor are
written in every participant and the gang goes on; an empty execute mask does nothing. That an advance beyond 2^27 - 1 wraps within
27 bits and keeps the space bit is the model's choice (log 69); so is which of the two stays where XD and XA are one register, and the
statement says of that form that the cursor does (R138 names no order). -/
def Obligations.UnpackWritesDataAndCursor : Prop :=
  ∀ (s : State) (t : Nat) (g : Gang) (r : ClauseRun) (es : List ApprEntry) (nw : Bool) (d a b c : Sel),
    let e := opEnv s t g r es
    let affined := fun (ty : FType) (rc : RoundCtl) (cur ctl : Nat) (bs : List Byte) (l : Nat) =>
      packElems ty.bits ((List.range ty.count).map fun j =>
        (affine (ftFmt ty) (ctlMode rc (roundOf ((s.wg t).lane l).fpmode)) (ctl.testBit 4) (ctl % 16 + 1)
          (streamBits cur bs ((ty.count * (execLanes g r).idxOf l + j) * (ctl % 16 + 1)) (ctl % 16 + 1))
          ((e.regs l c 2 0 8).getD 0 0).toNat ((e.regs l c 2 0 8).getD 1 0).toNat).bits)
    let done := fun (i : Instr) (s1 : State) (cur n : Nat) (data : Nat → Nat) =>
      ∃ s', exec i s = .next s' ∧ WentOn s' t g r i.len ∧ s'.agenda = s1.agenda ∧ (∀ u, u ≠ t → s'.wg u = s1.wg u) ∧
        MemKept s1 s' ∧ WinKept s1 s' ∧
        RegsKept s1 s' t (nwDst nw d 1 ++ [(a, 1)]) ∧
        Holds (s1.wg t) (s'.wg t) (execLanes g r) (some (a, 1)) (fun _ => BitVec.ofNat 64
          ((cur % 2 ^ 27 + n) % 2 ^ 27 + (if cur.testBit 27 then 2 ^ 27 else 0))) ∧
        (d ≠ a → Holds (s1.wg t) (s'.wg t) (execLanes g r) (dst nw d 1) (fun l => BitVec.ofNat 64 (data l)))
    (∀ ty i, i = .unpkd ty nw d a b c ∨ i = .unpkz ty nw d a ∨ (∃ rc, i = .unpkr ty nw rc d a b c) → Ready s t g r i es →
      execLanes g r = [] → ∃ s', exec i s = .next s' ∧ Performed s s' t g r i ∧ ∀ x n, ((s'.wg t).lane x).reg n = ((s.wg t).lane x).reg n) ∧
    (∀ ty p ps s0 s1, Ready s t g r (.unpkd ty nw d a b c) es → execLanes g r = p :: ps →
      let x := fun k => operand s t g r es [.int .u32 a, .int .u32 b, .int .u32 c] p k
      let n := x 1 % 8 + 1
      let size := ty.bits / 8
      let total := (execLanes g r).length * ty.count * n
      let code := fun k => streamBits (x 0) (s0.runBytes t p (cursorRun (x 0) total)) (k * n) n
      let dict := x 2 % 2 ^ 24 / size * size
      let entry := fun k : Nat =>
        (⟨(x 2).testBit 24, dict + code k * size, size, dict + (if (x 2).testBit 24 then 2 ^ 24 else 0)⟩ : SpadRun)
      e.spadSettle p [cursorRun (x 0) total] = .ok s0 →
      ({ e with s := s0 } : Env).spadReads p (cursorRun (x 0) total ::
        (List.range ((execLanes g r).length * ty.count)).map entry) = .ok s1 →
      (s1.wg t).gang? g.id = some g →
      done (.unpkd ty nw d a b c) s1 (x 0) total (fun l =>
        packElems ty.bits ((List.range ty.count).map fun j =>
          natOfBytes (s1.runBytes t p (entry (ty.count * (execLanes g r).idxOf l + j)))))) ∧
    (∀ ty p ps s0 s1, Ready s t g r (.unpkz ty nw d a) es → execLanes g r = p :: ps →
      let x := operand s t g r es [.int .u32 a] p 0
      let m := streamBits x (s0.runBytes t p (cursorRun x 32)) 0 32
      let total := 32 + popCount 32 m * ty.bits
      e.spadSettle p [cursorRun x 32] = .ok s0 → ({ e with s := s0 } : Env).spadReads p [cursorRun x total] = .ok s1 →
      (s1.wg t).gang? g.id = some g →
      done (.unpkz ty nw d a) s1 x total (fun l =>
        if m.testBit (l % 32) then
          streamBits x (s1.runBytes t p (cursorRun x total)) (32 + popCount (l % 32) m * ty.bits) ty.bits
        else 0)) ∧
    (∀ ty rc p ps s1, Ready s t g r (.unpkr ty nw rc d a b c) es → execLanes g r = p :: ps →
      let x := fun k => operand s t g r es [.int .u32 a, .int .u32 b] p k
      let total := (execLanes g r).length * ty.count * (x 1 % 16 + 1)
      e.spadReads p [cursorRun (x 0) total] = .ok s1 → (s1.wg t).gang? g.id = some g →
      done (.unpkr ty nw rc d a b c) s1 (x 0) total (affined ty rc (x 0) (x 1) (s1.runBytes t p (cursorRun (x 0) total)))) ∧
    (NothingFlies s →
      (∀ ty p ps, Ready s t g r (.unpkd ty nw d a b c) es → execLanes g r = p :: ps →
        let x := fun k => operand s t g r es [.int .u32 a, .int .u32 b, .int .u32 c] p k
        let n := x 1 % 8 + 1
        let size := ty.bits / 8
        let total := (execLanes g r).length * ty.count * n
        let code := fun k => streamBits (x 0) ((taken s).runBytes t p (cursorRun (x 0) total)) (k * n) n
        let dict := x 2 % 2 ^ 24 / size * size
        let entry := fun k : Nat =>
          (⟨(x 2).testBit 24, dict + code k * size, size, dict + (if (x 2).testBit 24 then 2 ^ 24 else 0)⟩ : SpadRun)
        RunsClear e p (cursorRun (x 0) total :: (List.range ((execLanes g r).length * ty.count)).map entry) →
        done (.unpkd ty nw d a b c) (taken s) (x 0) total (fun l =>
          packElems ty.bits ((List.range ty.count).map fun j =>
            natOfBytes ((taken s).runBytes t p (entry (ty.count * (execLanes g r).idxOf l + j)))))) ∧
      (∀ ty p ps, Ready s t g r (.unpkz ty nw d a) es → execLanes g r = p :: ps →
        let x := operand s t g r es [.int .u32 a] p 0
        let m := streamBits x ((taken s).runBytes t p (cursorRun x 32)) 0 32
        let total := 32 + popCount 32 m * ty.bits
        RunsClear e p [cursorRun x total] →
        done (.unpkz ty nw d a) (taken s) x total (fun l =>
          if m.testBit (l % 32) then
            streamBits x ((taken s).runBytes t p (cursorRun x total)) (32 + popCount (l % 32) m * ty.bits) ty.bits
          else 0)) ∧
      ∀ ty rc p ps, Ready s t g r (.unpkr ty nw rc d a b c) es → execLanes g r = p :: ps →
        let x := fun k => operand s t g r es [.int .u32 a, .int .u32 b] p k
        let total := (execLanes g r).length * ty.count * (x 1 % 16 + 1)
        RunsClear e p [cursorRun (x 0) total] →
        done (.unpkr ty nw rc d a b c) (taken s) (x 0) total
          (affined ty rc (x 0) (x 1) ((taken s).runBytes t p (cursorRun (x 0) total))))

/-- The collective matrix instructions (spec/07 R146, R151-R158): where the format vote and the tags admit the instruction, its
operands can be read, queues and counters have room and no race is met, each quarter with lanes in E queues one operation, its
slot becomes OWNED, and the gang goes on; no register and no byte of memory changes. -/
def Obligations.MatrixOperationsQueue : Prop :=
  ∀ (s : State) (t : Nat) (g : Gang) (r : ClauseRun) (es : List ApprEntry) (c : Nat) (a b : MOperand) (fmt : Sel),
    let e := opEnv s t g r es
    let ls := execLanes g r
    let words := ls.map fun l => (l, operand s t g r es [.int .u32 fmt] l 0)
    let qs := e.matQuarters c words
    let queued := fun (i : Instr) (kind : MatKind) (ls : List Nat) (qs : List QuarterIssue) =>
      ∃ s', exec i s = .next s' ∧ WentOn s' t g r i.len ∧ RegsKept s s' t [] ∧ WinKept s s' ∧ s'.agenda = s.agenda.tail ∧
        (∀ l, l ∉ ls → ((s'.wg t).lane l).opened = ((s.wg t).lane l).opened) ∧ (∀ l ∈ ls, ((s'.wg t).lane l).opened = false) ∧
        (∀ u, u ≠ t → s'.wg u = s.wg u) ∧
        (∀ hq, (∀ x ∈ qs, x.hq ≠ hq) → (s'.wg t).mqueues.get hq = (s.wg t).mqueues.get hq) ∧
        (∀ k, (∀ x ∈ qs, x.key ≠ k) → (s'.wg t).slots.get k = (s.wg t).slots.get k) ∧
        ∀ x ∈ qs, (∃ o, (s'.wg t).mqueues.get x.hq = (s.wg t).mqueues.get x.hq ++ [o] ∧ o.kind = kind ∧ o.slot = c ∧
          o.started = false ∧ (kind ≠ .mmafin → o.fmt = matFmt x.fmt)) ∧
          ((s'.wg t).slots.get x.key).owned = true ∧
          (((s'.wg t).slots.get x.key).mode = match kind with
            | .mmax => .scaled | .mmafin => .none | _ => .unscaled)
    let register := fun (kind : MatKind) (i : Instr) (scales : List Sel) =>
      Ready s t g r i es → ls ≠ [] → e.matVote (kind == .mmax) c words (refuseOf kind) = none →
        (∀ x ∈ qs, e.matBad a x = false ∧ e.matBad b x = false) →
        e.matRange (e.queueReqs a b fmt scales qs) = none → e.fullQueues = [] → e.fullCounters (e.queueReqs a b fmt scales qs) = [] →
        (∃ s0, e.race false (e.s.spadRaces (e.operandAccs (e.queueReqs a b fmt scales qs)) 4) = .ok s0) →
        queued i kind ls qs ∧ ∀ s', exec i s = .next s' → MemKept s s'
    register .mma (.mma c a b fmt) [] ∧ register .mmas (.mmas c a b fmt) [] ∧ register .mmaz (.mmaz c a b fmt) [] ∧
    (∀ x1 x2, register .mmax (.mmax c a b fmt x1 x2) [x1, x2]) ∧
    (∀ x1 rcd s1 as, Ready s t g r (.mmam c a fmt x1 rcd) es → ls ≠ [] → e.matVote false c words refuseMma = none →
      (∀ x ∈ qs, e.matBad a x = false) →
      (taken s).access t e.fpc r.pend colSpec true false (ls.flatMap fun l =>
        columnReqs rcd l (operand s t g r es [.int .u32 fmt, .int .u32 x1] l 1)) = .ok s1 as → s1.wg t = s.wg t →
      let e1 : Env := { e with s := s1 }
      e1.matRange (e1.columnReqsOf a qs as) = none → e1.fullQueues = [] → e1.fullCounters (e1.columnReqsOf a qs as) = [] →
      (∃ s0, e1.race false (s1.spadRaces (e1.operandAccs (e1.columnReqsOf a qs as)) 4 ++ as.flatMap raceAccs) = .ok s0) →
      (∀ u, s1.wg u = s.wg u) → s1.agenda = s.agenda.tail → queued (.mmam c a fmt x1 rcd) .mmam ls qs) ∧
    (Ready s t g r (.mmafin c) es → e.fullQueues = [] → queued (.mmafin c) .mmafin ls (e.matQuarters c []) ∧
      ∀ s', exec (.mmafin c) s = .next s' → MemKept s s')

/-- MACCRD, MACCWR, MXWAIT and MTRANS (spec/07 R154, R161-R163): a chain's row into registers, registers into a chain, slots freed
once their operations have completed, a transposed tile. -/
def Obligations.AccumulatorsMove : Prop :=
  ∀ (s : State) (t : Nat) (g : Gang) (r : ClauseRun) (es : List ApprEntry) (f : AccFmt) (c : Nat) (ch : Chain),
    let e := opEnv s t g r es
    let w := s.wg t
    let ls := execLanes g r
    let slot := fun l => w.slots.get (slotKey g.hset (l % 32 / 8) c)
    (∀ d, Ready s t g r (.maccrd f c ch d) es → (∀ l ∈ ls, (slot l).accf = f) → ∃ s', exec (.maccrd f c ch d) s = .next s' ∧
      Performed s s' t g r (.maccrd f c ch d) ∧ FlagsKept s s' t ∧
      ∀ l ∈ ls, (slot l).owned = false → (slot l).poison = false → ∀ n, n < 8 →
        let v := ((slot l).chain ch).get (8 * (l % 8) + n)
        if f = .fp64 then
          (Settled w l (d + 2 * n) → ((s'.wg t).lane l).reg (d + 2 * n) = v.setWidth 32) ∧
          (Settled w l (d + 2 * n + 1) → ((s'.wg t).lane l).reg (d + 2 * n + 1) = (v >>> 32).setWidth 32)
        else Settled w l (d + n) → ((s'.wg t).lane l).reg (d + n) = v.setWidth 32) ∧
    (∀ n, Ready s t g r (.maccwr f c ch (some n)) es → (∀ l ∈ ls, (slot l).bposIss = 0) →
      ∃ s', exec (.maccwr f c ch (some n)) s = .next s' ∧ Acted s s' t g r (.maccwr f c ch (some n)) [] ∧
        ∀ l ∈ ls, (slot l).owned = false → ((s'.wg t).slots.get (slotKey g.hset (l % 32 / 8) c)).accf = f ∧
          ((s'.wg t).slots.get (slotKey g.hset (l % 32 / 8) c)).k = 0 ∧
          ∀ j, j < 8 → ((((s'.wg t).slots.get (slotKey g.hset (l % 32 / 8) c)).chain ch).get (8 * (l % 8) + j)) =
            if f = .fp64 then e.word32 l (.v n) (2 * j + 1) 0 0 ++ e.word32 l (.v n) (2 * j) 0 0
            else (e.word32 l (.v n) j 0 0).setWidth 64) ∧
    (Ready s t g r (.maccwr f c ch none) es → (∀ l ∈ ls, (slot l).bposIss = 0) →
      ∃ s', exec (.maccwr f c ch none) s = .next s' ∧ Acted s s' t g r (.maccwr f c ch none) [] ∧
        ∀ l ∈ ls, (slot l).owned = false → ∀ j, j < 8 →
          ((((s'.wg t).slots.get (slotKey g.hset (l % 32 / 8) c)).chain ch).get (8 * (l % 8) + j)) = 0) ∧
    (∀ sl, Ready s t g r (.mxwait sl) es → r.pend = .none → (∀ p ∈ e.quarters, ∀ o ∈ w.mqueues.get (hqOf g.hset p.1), o.slot ∉ waitSlots sl) →
      ∃ s', exec (.mxwait sl) s = .next s' ∧ Acted s s' t g r (.mxwait sl) [] ∧
        ∀ l ∈ ls, ∀ k ∈ waitSlots sl, (s'.wg t).slots.get (slotKey g.hset (l % 32 / 8) k) =
          { w.slots.get (slotKey g.hset (l % 32 / 8) k) with owned := false }) ∧
    ∀ tw nw d a, Ready s t g r (.mtrans tw nw d a) es → ∃ s', exec (.mtrans tw nw d a) s = .next s' ∧
      Performed s s' t g r (.mtrans tw nw d a) ∧ FlagsKept s s' t ∧ SummaryKept s s' t ∧
      let b := transBits tw
      ∀ l ∈ ls, ∀ j, j < 8 →
        let mate := 32 * g.hset + 8 * (l % 32 / 8) + j
        (tw ≠ .b64 → Settled w l (d + j * b / 32) → elemAt b (((s'.wg t).lane l).reg (d + j * b / 32)).toNat (j % (32 / b)) =
          if mate ∈ ls then elemAt b (e.word32 mate (.v a) (l % 8 * b / 32) 0 0).toNat (l % 8 % (32 / b)) else 0) ∧
        (tw = .b64 → ∀ h, h < 2 → Settled w l (d + 2 * j + h) → ((s'.wg t).lane l).reg (d + 2 * j + h) =
          if mate ∈ ls then e.word32 mate (.v a) (2 * (l % 8) + h) 0 0 else 0)
/-- LDS, LDSC, STS and STSC (spec/08 R172, R173, R176): where every lane's address is aligned and lies in the addressed scratchpad,
counters have room and no race is met, one access of all lanes goes into flight; no register and no byte changes at the issue. -/
def Obligations.ScratchpadAccessesGoIntoFlight : Prop :=
  ∀ (s : State) (t : Nat) (g : Gang) (r : ClauseRun) (es : List ApprEntry) (o : SpadAcc),
    let e := opEnv s t g r es
    let ls := execLanes g r
    let ea := fun l => operand s t g r es [.int .u32 o.addr, srcOpd .u32 o.off] l 0 +
      operand s t g r es [.int .u32 o.addr, srcOpd .u32 o.off] l 1
    let n := wbytes o.w
    let flies := fun (i : Instr) (cluster wr : Bool) (p : Path) (op : List SpadLoc → FlightOp) =>
      let xs := ls.filterMap fun l => (s.spadAt t l cluster (ea l) n).map fun q => (⟨l, q.1, q.2⟩ : SpadLoc)
      Ready s t g r i es →
        (ls = [] → ∃ s', exec i s = .next s' ∧ Acted s s' t g r i [] ∧ ∀ c, ((s'.wg t).crew c).flight = ((s.wg t).crew c).flight) ∧
        (ls ≠ [] → Crewed s t g r → (∀ l ∈ ls, ea l % n = 0 ∧ s.spadAt t l cluster (ea l) n ≠ none) → Room s t g r p →
          (∃ s1, e.race wr (if o.ord = .relaxed then s.spadRaces xs n else []) = .ok s1) →
          ∃ s' it, exec i s = .next s' ∧ Acted s s' t g r i [] ∧
            it.id = (s.wg t).nextItem ∧ it.op = op xs ∧ it.path = some p ∧ it.ord = o.ord ∧ it.scope = o.scope ∧ it.done = false ∧
            (∀ c, ((s.wg t).crewsOf ls).head? = some c → ((s'.wg t).crew c).flight = ((s.wg t).crew c).flight ++ [it]) ∧
            (∀ c ∈ (s.wg t).crewsOf ls, ((s'.wg t).crew c).count p = ((s.wg t).crew c).count p + 1) ∧
            (o.ord ≠ .relaxed → IntervalsEnded s s' t g r) ∧
            (o.ord = .relaxed → ∀ l, ((s'.wg t).lane l).interval = ((s.wg t).lane l).interval))
    let data := e.storeWords o.d (wspan o.w) (popsIn ((o.addr, 1) :: o.off.sels)) 8
    flies (.lds o) false false .sp (spadLoad o) ∧ flies (.ldsc o) true false .cl (spadLoad o) ∧
    flies (.sts o) false true .sp (spadStore o data) ∧ flies (.stsc o) true true .cl (spadStore o data)

/-- A lane that is in no crew and issues LDS, STS, LDSC, STSC, LDLK, STUL, ATOMS or WAITC raises CREW_STATE, with those lanes as
faulters (spec/08 R175). -/
def Obligations.CrewlessScratchpadTraps : Prop :=
  ∀ (s : State) (t : Nat) (g : Gang) (r : ClauseRun) (i : Instr),
    (∃ o, i = .lds o ∨ i = .sts o ∨ i = .ldsc o ∨ i = .stsc o) ∨ (∃ w sp pt d a off, i = .ldlk w sp pt d a off) ∨
      (∃ w sp d a off, i = .stul w sp d a off) ∨ (∃ op w sp d a b c, i = .atoms op w sp d a b c) ∨ (∃ p a, i = .waitc p a) →
    Stands s t g r → (∀ l ∈ issueLanes g r, ((s.wg t).lane l).lock = none) →
    (∀ l ∈ issueLanes g r, ∀ c, ((s.wg t).lane l).crew = some c → ((s.wg t).crew c).mcheck = none) → s.damage = [] →
    ¬ Crewed s t g r →
    exec i s = .next (trapped s t g r 0x6D ((execLanes g r).filter fun l => ((s.wg t).lane l).crew.isNone))

/-- LDLK (spec/08 R184, R185): where no bit that a lane would win is held, of lanes that need one bit the lowest wins, holds the
lock of its granule, and reads; PD tells a lane whether it won; the intervals end. -/
def Obligations.LockAcquire : Prop :=
  ∀ (s : State) (t : Nat) (g : Gang) (r : ClauseRun) (es : List ApprEntry) (w : Width) (sp : Space) (pt : Nat) (d a : Sel) (off : Src),
    let e := opEnv s t g r es
    let ls := execLanes g r
    let i := Instr.ldlk w sp pt d a off
    Ready s t g r i es →
      (ls = [] → ∃ s', exec i s = .next s' ∧ Acted s s' t g r i []) ∧
      ∀ xs s1, ls ≠ [] → Crewed s t g r →
        (taken s).spadResolve t e.fpc (Space.isCluster sp) (wbytes w) (e.eas a off) = .ok xs →
        e.settled .acquire (spaceScope sp) false (spadTouch w xs) = .ok s1 → (s1.wg t).gang? g.id = some g →
        let win := lockWinners s1.lockOf xs []
        (∀ x ∈ win, s1.lockHeld (s1.lockOf x) = false) →
        ∃ s', exec i s = .next s' ∧ WentOn s' t g r i.len ∧ MemKept s1 s' ∧ WinKept s1 s' ∧ (∀ u, u ≠ t → s'.wg u = s1.wg u) ∧
          (∀ x ∈ win, ∃ k, ((s'.wg t).lane x.lane).lock = some k ∧ k.owner = x.owner ∧ k.off = x.off / 64 * 64 ∧
            (k.core, k.bit) = s1.lockOf x ∧ k.issues = 0) ∧
          (pt ≠ 0 → pt < 8 → ∀ l ∈ ls, predOf s' t l pt = win.any fun x => x.lane == l) ∧
          (∀ x ∈ win, ∀ c, regCode d = some c → ∀ j, j < wspan w → Settled (s1.wg t) x.lane (c + j) →
            ((s'.wg t).lane x.lane).reg (c + j) = (regWords (wspan w) (s1.rdSpan ⟨.win x.owner x.off, wbytes w⟩)).getD j 0) ∧
          (∀ l n, n ∉ codesOf (d, wspan w) → ((s'.wg t).lane l).reg n = ((s1.wg t).lane l).reg n) ∧
          ∀ l ∈ ls, ((s'.wg t).lane l).interval = ((s1.wg t).lane l).interval + 1

/-- Locks held across issues (spec/08 R181, R182, R185): STUL of lanes that hold their granules stores, releases and ends the
intervals; an instruction that may not be issued under a lock traps with LOCK_STATE; one that is issued for the
seventeenth time under a lock traps with LOCK_HOLD. -/
def Obligations.LockHeldAndReleased : Prop :=
  ∀ (s : State) (t : Nat) (g : Gang) (r : ClauseRun) (es : List ApprEntry),
    let e := opEnv s t g r es
    let ls := execLanes g r
    let holders := (issueLanes g r).filter fun l => ((s.wg t).lane l).lock.isSome
    let early := ∀ l ∈ issueLanes g r, ∀ k, ((s.wg t).lane l).lock = some k → k.issues < 16
    (∀ w sp d a off xs s1, let i := Instr.stul w sp d a off; Able s t g r i es → early → ls ≠ [] → Crewed s t g r →
      (taken s).spadResolve t e.fpc (Space.isCluster sp) (wbytes w) (e.eas a off) = .ok xs →
      (∀ x ∈ xs, ∃ k, ((s.wg t).lane x.lane).lock = some k ∧ k.owner = x.owner ∧ k.off = x.off / 64 * 64) →
      (taken s).settleFor t ((taken s).asItem t ls .release (spaceScope sp) false (spadTouch w xs)) = (s1, none) →
      (s1.wg t).gang? g.id = some g →
      ∃ s', exec i s = .next s' ∧ WentOn s' t g r i.len ∧
        (∀ a, (∀ x ∈ xs, ¬ InImage s1 x.owner a) → s'.mem.get a = s1.mem.get a) ∧ (∀ l ∈ ls, ((s'.wg t).lane l).lock = none) ∧
        (∀ l n, ((s'.wg t).lane l).reg n = ((s1.wg t).lane l).reg n) ∧
        (∀ l ∈ ls, ((s'.wg t).lane l).interval = ((s1.wg t).lane l).interval + 1) ∧
        (∀ u b, (∀ x ∈ xs, ¬ (u = x.owner ∧ x.off ≤ b ∧ b < x.off + wbytes w)) → ((s'.wg u).win).get b = ((s1.wg u).win).get b) ∧
        ∀ x, xs = [x] → ∀ j, j < wbytes w → ((s'.wg x.owner).win).get (x.off + j) =
          (bytesLE (e.regs x.lane d (wspan w) (popsIn ((a, 1) :: off.sels)) 8)).getD j 0) ∧
    (∀ w sp d a off, let i := Instr.stul w sp d a off; Ready s t g r i es → ls = [] →
      ∃ s', exec i s = .next s' ∧ Acted s s' t g r i []) ∧
    (∀ i, Stands s t g r → (∀ l ∈ issueLanes g r, ∀ c, ((s.wg t).lane l).crew = some c → ((s.wg t).crew c).mcheck = none) →
      early → holders ≠ [] → lockFree i = false → (∃ body, exec i s = laneIssue i body s) →
      exec i s = .next (((taken s).takeTrap t g.id { cause := 0x63, faulters := holders, fpc := e.fpc, detail := e.lockDetail }).spent s.free)) ∧
    ∀ i, Stands s t g r → (∀ l ∈ issueLanes g r, ∀ c, ((s.wg t).lane l).crew = some c → ((s.wg t).crew c).mcheck = none) →
      ¬ early → (∃ body, exec i s = laneIssue i body s) →
      exec i s = .next (((taken s).takeTrap t g.id { cause := 0x62, fpc := e.fpc, detail := e.lockDetail, faulters := holders.filter fun l =>
        match ((s.wg t).lane l).lock with | some k => decide (16 ≤ k.issues) | none => false }).spent s.free)

/-- ATOMS and WAITC (spec/08 R179, R186, R187): an atomic of one lane replaces the old value by the new one and hands the old one
back; WAITC goes on once every crew's counter is at its threshold; both end the intervals. -/
def Obligations.ScratchpadAtomicsAndWaits : Prop :=
  ∀ (s : State) (t : Nat) (g : Gang) (r : ClauseRun) (es : List ApprEntry),
    let e := opEnv s t g r es
    let ls := execLanes g r
    (∀ op w sp d a b c, let i := Instr.atoms op w sp d a b c; Ready s t g r i es →
      let ops := Opd.int .u32 a :: atomOpd w b :: (match c with | some q => [atomOpd w q] | none => [])
      let v := fun l k => operand s t g r es ops l k
      let bits := 8 * wbytes w
      (ls = [] → ∃ s', exec i s = .next s' ∧ Acted s s' t g r i []) ∧
      ∀ xs s1, ls ≠ [] → Crewed s t g r →
        (taken s).spadResolve t e.fpc (Space.isCluster sp) (wbytes w) (ls.map fun l => (l, v l 0)) = .ok xs →
        e.settled .acqRel (spaceScope sp) false (spadTouch w xs) = .ok s1 → (s1.wg t).gang? g.id = some g →
        (∀ x ∈ xs, s1.lockHeld (s1.lockOf x) = false) →
        ∃ s', exec i s = .next s' ∧ WentOn s' t g r i.len ∧
          (∀ y, (∀ x ∈ xs, ¬ InImage s1 x.owner y) → s'.mem.get y = s1.mem.get y) ∧
          (∀ l ∈ ls, ((s'.wg t).lane l).interval = ((s1.wg t).lane l).interval + 1) ∧
          (∀ l n, (∀ q, d = some q → n ∉ codesOf (q, wspan w)) → ((s'.wg t).lane l).reg n = ((s1.wg t).lane l).reg n) ∧
          (∀ u y, (∀ x ∈ xs, ¬ (u = x.owner ∧ x.off ≤ y ∧ y < x.off + wbytes w)) → ((s'.wg u).win).get y = ((s1.wg u).win).get y) ∧
          ∀ x, xs = [x] → w = .b32 ∨ w = .b64 →
            let old := natOfBytes (s1.rdSpan ⟨.win x.owner x.off, wbytes w⟩)
            let new := (atomNew op bits old (v x.lane 1 % 2 ^ bits) (v x.lane 2 % 2 ^ bits)).1
            (∀ j, j < wbytes w → ((s'.wg x.owner).win).get (x.off + j) = BitVec.ofNat 8 (new / 2 ^ (8 * j))) ∧
            ∀ q, d = some q → Holds (s1.wg t) (s'.wg t) [x.lane] (some (q, wspan w)) (fun _ => BitVec.ofNat 64 old)) ∧
    ∀ p a, Ready s t g r (.waitc p a) es → Crewed s t g r →
      (∀ l ∈ ls, ∀ c, ((s.wg t).lane l).crew = some c → ((s.wg t).crew c).count p ≤ min 63 (operand s t g r es [.int .u32 a] l 0)) →
      ∃ s', exec (.waitc p a) s = .next s' ∧ Acted s s' t g r (.waitc p a) [] ∧ IntervalsEnded s s' t g r ∧
        ∀ c, ((s'.wg t).crew c).flight = ((s.wg t).crew c).flight

/-- The stream instructions (spec/08 R188-R192): each hands the address of the slot that it moves to every lane of E or takes it from
the lowest, and keeps every other stream; the move is seen from the next cycle on (R188); QINIT makes every slot free. That a slot
moves once in a cycle, and a ring bound in a cycle stands afresh at its end, is log 71 (DEDUCED). -/
def Obligations.StreamsMoveSlots : Prop :=
  ∀ (s : State) (t : Nat) (g : Gang) (r : ClauseRun) (es : List ApprEntry) (c n : Nat),
    let e := opEnv s t g r es
    let ls := execLanes g r
    let q := s.stream t c n
    let others := fun s' : State => ∀ k m, (k ≠ c ∨ m ≠ n) → s'.stream t k m = s.stream t k m
    let at' := fun (s' : State) (d : Sel) (i : Nat) =>
      Holds (s.wg t) (s'.wg t) ls (some (d, 1)) (fun _ => BitVec.ofNat 64 (q.addr i % 2 ^ 32))
    InCrew s t g r c →
    (∀ d i rest s1, Ready s t g r (.qrd n d) es → q.bound = true → q.canTake = i :: rest →
      e.settled .acquire q.scope false .nop = .ok s1 → s1 = taken s → ∃ s', exec (.qrd n d) s = .next s' ∧
        Acted s s' t g r (.qrd n d) [(d, 1)] ∧ others s' ∧ IntervalsEnded s s' t g r ∧ at' s' d i ∧
        s'.stream t c n = { q with newTaken := q.newTaken ++ [i] }) ∧
    (∀ d i rest, Ready s t g r (.qpushClaim n d) es → q.bound = true → q.canClaim = i :: rest → ∃ s', exec (.qpushClaim n d) s = .next s' ∧
        Acted s s' t g r (.qpushClaim n d) [(d, 1)] ∧ others s' ∧ at' s' d i ∧
        s'.stream t c n = { q with newClaimed := q.newClaimed ++ [i] }) ∧
    (∀ a i s1, Ready s t g r (.qpushCommit n a) es →
      q.canCommit.find? (fun i => q.addr i % 2 ^ 25 == operand s t g r es [.int .u32 a] (ls.headD 0) 0 % 2 ^ 25) = some i →
      e.settled .release q.scope false .nop = .ok s1 → s1 = taken s → ∃ s', exec (.qpushCommit n a) s = .next s' ∧
        Acted s s' t g r (.qpushCommit n a) [] ∧ others s' ∧ IntervalsEnded s s' t g r ∧
        s'.stream t c n = { q with newFull := q.newFull ++ [i] }) ∧
    (∀ a i, Ready s t g r (.qfree n a) es →
      q.canGive.find? (fun i => q.addr i % 2 ^ 25 == operand s t g r es [.int .u32 a] (ls.headD 0) 0 % 2 ^ 25) = some i →
      ∃ s', exec (.qfree n a) s = .next s' ∧ Acted s s' t g r (.qfree n a) [] ∧ others s' ∧ IntervalsEnded s s' t g r ∧
        s'.stream t c n = { q with newFree := q.newFree ++ [i] }) ∧
    (∀ i, q.newRing = none →
      (i ∈ q.cycleEnd.free ↔ i ∈ q.free ∧ i ∉ q.newClaimed ∨ i ∈ q.newFree) ∧
      (i ∈ q.cycleEnd.claimed ↔ (i ∈ q.claimed ∨ i ∈ q.newClaimed) ∧ i ∉ q.newFull) ∧
      (i ∈ q.cycleEnd.full ↔ i ∈ q.full ∧ i ∉ q.newTaken ∨ i ∈ q.newFull) ∧
      (i ∈ q.cycleEnd.taken ↔ (i ∈ q.taken ∨ i ∈ q.newTaken) ∧ i ∉ q.newFree) ∧ q.cycleEnd.ring = q.ring) ∧
    ∀ a b, Ready s t g r (.qinit n a b) es →
      let base := operand s t g r es [.int .u32 a, .int .u32 b] (ls.headD 0) 0
      let geo := operand s t g r es [.int .u32 a, .int .u32 b] (ls.headD 0) 1
      let size := geo / 256 % 4096
      base % 64 = 0 → 1 ≤ geo % 128 → geo % 128 ≤ 64 → size ≠ 0 →
      s.spadAt t (ls.headD 0) (base.testBit 24) (base % 2 ^ 24) (geo % 128 * size * 64) ≠ none → q.claimed = [] → q.taken = [] →
      ∃ s', exec (.qinit n a b) s = .next s' ∧ Acted s s' t g r (.qinit n a b) [] ∧ others s' ∧
        let x := s'.stream t c n
        x = { q with newRing := x.newRing } ∧ (∀ i, i ∈ x.cycleEnd.free ↔ i < geo % 128) ∧ x.cycleEnd.full = [] ∧
          x.cycleEnd.claimed = [] ∧ x.cycleEnd.taken = [] ∧ x.cycleEnd.ring.base = base % 2 ^ 24 ∧
          x.cycleEnd.ring.cluster = base.testBit 24 ∧ x.cycleEnd.ring.nslot = geo % 128 ∧ x.cycleEnd.ring.slotsz = size
/-- LD, ST, LDT, STT, ATOM and RED (spec/09 R202-R206, R220-R223): where the record path admits every lane's access, DM has room
and accesses through bank-direct records are served, the rest goes into flight as one item on DM; memory and registers stand at
the issue, the value of a bank-direct load apart, which is zero where the lane is clipped; an order other than relaxed ends the
intervals. That the lanes' accesses are one item, with the order and scope of its strongest line, is the model's choice (log 9). -/
def Obligations.DeviceAccessesGoIntoFlight : Prop :=
  ∀ (s : State) (t : Nat) (g : Gang) (r : ClauseRun) (es : List ApprEntry),
    let e := opEnv s t g r es
    let ls := execLanes g r
    let flies := fun (b : State) (i : Instr) (sp : AccSpec) (ord : Order) (sc : Scope) (st : Option Sel) (plain : Bool)
        (reqs : List LaneReq) (val : Nat → Option Nat) (d : Dest) (op : State → List LaneAcc → FlightOp) =>
      ∀ s1 as s2 vals, ls ≠ [] → b.access t e.fpc r.pend sp st.isSome plain reqs = .ok s1 as → e.full .dm = none →
        (∀ s3 q, e.winRun b (effective ord sc (typesOf as)).1 (effective ord sc (typesOf as)).2 as (s1.winAccs t sp.z val as) ≠
          .error (.trap s3 q)) →
        e.winRun s1 (effective ord sc (typesOf as)).1 (effective ord sc (typesOf as)).2 as (s1.winAccs t sp.z val as) = .ok (s2, vals) →
        (s2.wg t).gang? g.id = some g →
        ∃ s' it, exec i s = .next s' ∧ After s2 s' t g r i (match d with | some x => [x] | none => []) ∧ MemKept s2 s' ∧
          Flew s2 s' t ls .dm it ∧ it.ord = (effective ord sc (typesOf as)).1 ∧ it.scope = (effective ord sc (typesOf as)).2 ∧
          it.op = op s2 (as.filter fun a => !(rKind a.rcd == 5)) ∧ it.stat = statOf st as ∧
          ((as.filter fun a => rKind a.rcd == 5) = [] → RegsKept s2 s' t []) ∧
          (∀ a, (as.filter fun a => rKind a.rcd == 5) = [a] →
            (vals = [] → Holds (s2.wg t) (s'.wg t) [a.lane] d (fun _ => 0)) ∧
            (∀ x, vals = [(a.lane, x)] → Holds (s2.wg t) (s'.wg t) [a.lane] d (fun _ => BitVec.ofNat 64 x))) ∧
          ((effective ord sc (typesOf as)).1 ≠ .relaxed → IntervalsEnded s2 s' t g r)
    let idle := fun (i : Instr) => Ready s t g r i es → ls = [] → ∃ s', exec i s = .next s' ∧ Acted s s' t g r i []
    (∀ w ord sc nw sw a d st, idle (.ld w ord sc nw sw a d st) ∧ (Ready s t g r (.ld w ord sc nw sw a d st) es →
      flies (taken s) (.ld w ord sc nw sw a d st) { z := wbytes w, bank := bankWidth w } ord sc st (ord == .relaxed) (ls.map (e.memReq a))
        (fun _ => none) (dst nw d (wspan w)) (loadOp w (if nw then none else some d) sw))) ∧
    (∀ w ord sc a d st, idle (.st w ord sc a d st) ∧ (Ready s t g r (.st w ord sc a d st) es →
      flies (taken s) (.st w ord sc a d st) { z := wbytes w, write := true, noSenc := true, bank := bankWidth w } ord sc st (ord == .relaxed)
        (ls.map (e.memReq a)) (fun l => some (natOfBytes (e.storeBytes d w (popsIn a.sels) 8 l))) none
        (storeOp (e.storeBytes d w (popsIn a.sels) 8)))) ∧
    (∀ o : TensorAcc, idle (.ldt o) ∧ idle (.stt o) ∧ ∀ (reqs : List (LaneReq × Option RecEntry)) (b : State),
      Walked e (fun x l => match e.crewOf l with | some c => x.recReads (x.wg t) c o.shape (8 * l + 7) true | none => []) b →
      ls.map (({ e with s := b } : Env).tensorReq o) = reqs.map .ok →
      (Ready s t g r (.ldt o) es → flies b (.ldt o) { z := wbytes o.w } .relaxed .crew o.st true (reqs.map (·.1)) (fun _ => none)
        (dst o.nw o.data (wspan o.w)) (loadOp o.w (if o.nw then none else some o.data) o.swept)) ∧
      (Ready s t g r (.stt o) es → flies b (.stt o) { z := wbytes o.w, write := true, noSenc := true } .relaxed .crew o.st true
        (reqs.map (·.1)) (fun _ => none) none
        (storeOp (e.storeBytes o.data o.w (popsIn (o.coords.map fun c => (c, 1))) (4 * o.coords.length))))) ∧
    ∀ o : RecAtom,
      let sp : AccSpec := { z := wbytes o.w, write := true, strict := true, noSenc := true }
      let j := popsIn ((o.off, 1) :: o.rcd.sels)
      idle (.atom o) ∧ idle (.red o) ∧
      (Ready s t g r (.atom o) es → flies (taken s) (.atom o) sp o.ord o.scope o.st false (ls.map (e.offReq o.rcd o.off)) (fun _ => none) none
        (atomItem o (if o.nw then none else some o.data) fun l => e.regs l o.data (atomSpan o.w o.op) j 8)) ∧
      (Ready s t g r (.red o) es → flies (taken s) (.red o) sp o.ord o.scope o.st false (ls.map (e.offReq o.rcd o.off)) (fun _ => none) none
        (atomItem o none fun l => e.regs l o.data (wspan o.w) j 8))

/-- PREF (spec/09 R224) only brings in: once its translations can be made it completes whatever its lanes name and faults none of
them; registers and windows stand, and memory too, but for the residency requests of PAGEIN, which wait for no more than an all-bank
mode to end (spec/13 R324).
MONITOR, MONWAIT and FENCE (spec/09 R225-R227): MONITOR reads and arms; MONWAIT goes on where the monitor has fired, and
waits where it has not; FENCE goes into flight without a count. Each ends the intervals of the lanes. -/
def Obligations.PrefetchMonitorsAndFences : Prop :=
  (
    ∀ (s : State) (t : Nat) (g : Gang) (r : ClauseRun) (es : List ApprEntry) (sw : Bool) (rcd : RecRef) (off : Sel),
      let e := opEnv s t g r es
      let ls := execLanes g r
      let asks := fun (b : State) l => ∃ a, b.tileOf t true (e.offReq rcd off l) = .inr a ∧ rPagein a.rcd = true
      let brings := fun (i : Instr) (b : State) => ∃ s', exec i s = .next s' ∧ After b s' t g r i [] ∧
        ((∀ l ∈ ls, ¬ asks b l) → MemKept b s')
      let plain := fun (i : Instr) => Ready s t g r i es → ls = [] ∨ (NothingFlies s ∧ NoBankHeld s) →
        ∃ s', exec i s = .next s' ∧ After (taken s) s' t g r i [] ∧ ((∀ l ∈ ls, ¬ asks (taken s) l) → MemKept s s')
      plain (.prefL1 sw rcd off) ∧ plain (.prefL2 sw rcd off) ∧ plain (.prefPagein sw rcd off) ∧
      ∀ b, Walked e (fun x l => x.tableReads t { z := 1 } true (e.offReq rcd off l)) b → (b.wg t).gang? g.id = some g →
        (Ready s t g r (.prefL1 sw rcd off) es → b.passed (ls.map (Agent.lane t)) = [] → brings (.prefL1 sw rcd off) b) ∧
        (Ready s t g r (.prefL2 sw rcd off) es → brings (.prefL2 sw rcd off) b) ∧
        (Ready s t g r (.prefPagein sw rcd off) es → NoBankHeld b ∨ (∀ l ∈ ls, ¬ asks b l) → brings (.prefPagein sw rcd off) b)) ∧
  (
    ∀ (s : State) (t : Nat) (g : Gang) (r : ClauseRun) (es : List ApprEntry),
      let e := opEnv s t g r es
      let ls := execLanes g r
      let idle := fun (i : Instr) => Ready s t g r i es → ls = [] → ∃ s', exec i s = .next s' ∧ Acted s s' t g r i []
      (∀ w acq sc nw sw rcd off d st, let i := Instr.monitor w acq sc nw sw rcd off d st; idle i ∧
        (Ready s t g r i es → r.pend = .none → ls ≠ [] → ∀ s1 as s2,
          (taken s).access t e.fpc r.pend { z := wbytes w, strict := true, noSenc := true, mon := true } st.isSome false
            (ls.map (e.offReq rcd off)) = .ok s1 as →
          (as.flatMap (s1.accWaits false)).all s1.sweptDone = true →
          s1.settleFor t (s1.asItem t ls (if acq then .acquire else .relaxed) sc false (touchOp as)) = (s2, none) →
          s2.heldPch as = none → (s2.wg t).gang? g.id = some g →
          ∃ s', exec i s = .next s' ∧ After s2 s' t g r i (nwDst nw d (wspan w) ++ optSel st) ∧ MemKept s2 s' ∧ IntervalsEnded s2 s' t g r ∧
            ∀ a, as = [a] → a.isOk = true → ∀ c, ((s2.wg t).lane a.lane).crew = some c →
              ((s'.wg t).crew c).monitor = some { line := lineOf ((a.pieces.headD default).pa), fired := false })) ∧
      (idle .monwait ∧ ∀ c m, Ready s t g r .monwait es → InCrew s t g r c → ((s.wg t).crew c).monitor = some m →
        if m.fired then ∃ s', exec .monwait s = .next s' ∧ Acted s s' t g r .monwait [] ∧ ((s'.wg t).crew c).monitor = none ∧
          IntervalsEnded s s' t g r
        else ∃ s', exec .monwait s = .next s' ∧ Parked s' t g r (.monitor c) ∧ MemKept s s') ∧
      ∀ ord sc, idle (.fence ord sc) ∧ (Ready s t g r (.fence ord sc) es → ls ≠ [] → Crewed s t g r →
        ∃ s' it, exec (.fence ord sc) s = .next s' ∧ Acted s s' t g r (.fence ord sc) [] ∧ IntervalsEnded s s' t g r ∧
          it.op = .fence ∧ it.ord = ord ∧ it.scope = sc ∧ it.path = none ∧
          ∀ c, ((s.wg t).crewsOf ls).head? = some c → ((s'.wg t).crew c).flight = ((s.wg t).crew c).flight ++ [it]))

/-- PUBLISH and RECSET (spec/09 R228, R230): PUBLISH toggles GEN and advances the generation number, in table memory and in every
copy that a record cache holds, whose other fields stand (R197); RECSET writes a record with the old one's generation advanced, in
table memory and in the caches; a reload takes the record, its generation advanced, or the shape from table memory; no other byte of
memory and no register changes. -/
def Obligations.RecordsArePublishedAndSet : Prop :=
  ∀ (s : State) (t : Nat) (g : Gang) (r : ClauseRun) (es : List ApprEntry) (a : Sel) (b : State),
    let e := opEnv s t g r es
    let e1 : Env := { e with s := b }
    let ls := execLanes g r
    let c := ((s.wg t).lane (ls.headD 0)).crew.getD 0
    let dom := ((s.wg t).crew c).domain
    let super := match b.descUse (s.wg t).core dom with | some d => descSuper d | none => false
    let idx := operand s t g r es [.int .u32 a] (ls.headD 0) 0 % 256
    let tb := b.tableOf (s.wg t) c false
    let idle := fun (i : Instr) => Ready s t g r i es → ls = [] → ∃ s', exec i s = .next s' ∧ Acted s s' t g r i []
    let cached := fun (s' : State) (key : RecKey) (shape : Bool) (i : Nat) (ws : List Word) =>
      ∃ pa, ⟨key, shape, i, ws, pa⟩ ∈ (s'.core (s.wg t).core).recs
    let old := match b.recGet (s.wg t) c idx 6 with | .ok (ws, _) => recBits ws | .error _ => 0
    let found := Found e c idx (e.slotWalk c idx false) b
    idle (.publish a) ∧ idle (.recsetReload a) ∧ idle (.recsetShape a) ∧ (∀ n, idle (.recset a n)) ∧ (ls ≠ [] → Crewed s t g r →
      (∀ ws k ps s1, Ready s t g r (.publish a) es → found → b.recGet (s.wg t) c idx 6 = .ok (ws, k) →
        recCheck { z := 1, bank := true } super dom idx (recBits ws) = none → rShen (recBits ws) = true →
        e1.tablePieces c true (tb.2.1 + 64 * idx) 40 ls = .ok ps → e1.slotReady .release .device ps = .ok s1 →
        (s1.wg t).gang? g.id = some g →
        let new := bumpRgen (putBits (recBits ws) 120 1 (if rGen (recBits ws) then 0 else 1)) (recBits ws)
        let put := fun x => putBits (putBits x 120 1 (bits (recBits new) 120 1)) 302 8 (rRgen (recBits new))
        let of := fun x : RecEntry => x.shape = false ∧ (x.key = tb.1 ∧ x.idx = idx ∨ x.pa = firstPa ps)
        ∃ s', exec (.publish a) s = .next s' ∧ After s1 s' t g r (.publish a) [] ∧ IntervalsEnded s1 s' t g r ∧
          (∃ x ∈ (s'.core (s.wg t).core).recs, x.key = tb.1 ∧ x.shape = false ∧ x.idx = idx) ∧
          (∀ m x, x ∈ (s1.core m).recs →
            (of x → { x with words := recWords (put (recBits x.words)) } ∈ (s'.core m).recs) ∧ (¬ of x → x ∈ (s'.core m).recs)) ∧
          (∀ p, ps = [p] → p.len = 40 → Stored s1 s' p.pa (bytesOfNat 40 (put (natOfBytes (s1.rdBytes p.pa 40))))) ∧
          rGen (recBits new) = !rGen (recBits ws) ∧ rRgen (recBits new) = (rRgen (recBits ws) + 1) % 256) ∧
      (∀ n ps s1, Ready s t g r (.recset a n) es → found → idx ≠ 0 → idx < tb.2.2 →
        let x := recBits (e.regs (ls.headD 0) (.v n) 10 1 8)
        recCheck { z := 1, bank := true } super dom idx x = none → e1.tablePieces c true (tb.2.1 + 64 * idx) 40 ls = .ok ps →
        e1.slotReady .relaxed .device ps = .ok s1 → (s1.wg t).gang? g.id = some g →
        ∃ s', exec (.recset a n) s = .next s' ∧ After s1 s' t g r (.recset a n) [] ∧
          cached s' tb.1 false idx (bumpRgen x old) ∧
          (∀ p, ps = [p] → p.len = 40 → Stored s1 s' p.pa (bytesLE ((bumpRgen x old).take 10)))) ∧
      (∀ ps s1, Ready s t g r (.recsetReload a) es → found → idx ≠ 0 → idx < tb.2.2 →
        e1.tablePieces c true (tb.2.1 + 64 * idx) 64 ls = .ok ps → e1.slotReady .relaxed .device ps = .ok s1 →
        (s1.wg t).gang? g.id = some g →
        let x := recBits (wordsLE (s1.slotBytes ps))
        recCheck { z := 1, bank := true } super dom idx x = none →
        ∃ s', exec (.recsetReload a) s = .next s' ∧ After s1 s' t g r (.recsetReload a) [] ∧ cached s' tb.1 false idx (bumpRgen x old) ∧
          (∀ p, ps = [p] → p.len = 64 → Stored s1 s' p.pa (bytesLE ((bumpRgen x old).take 10)))) ∧
      ∀ ps s1, let h := idx % 64
        let sh := b.tableOf (s.wg t) c true
        Ready s t g r (.recsetShape a) es → Walked e (e.slotWalk c h true) b → h < sh.2.2 →
        e1.tablePieces c false (sh.2.1 + 64 * h) 64 ls = .ok ps → e1.slotReady .relaxed .device ps = .ok s1 →
        (s1.wg t).gang? g.id = some g →
        ∃ s', exec (.recsetShape a) s = .next s' ∧ After s1 s' t g r (.recsetShape a) [] ∧ MemKept s1 s' ∧
          cached s' sh.1 true h (wordsLE (s1.slotBytes ps)))

/-- PIN, UNPIN and RESQ (spec/09 R216, R217, R229): the lanes' map entries are read; PIN and UNPIN of one lane's tile write the entry
that the state and the pin count call for, and PIN_STATE is raised where there is none; RESQ reports the entry. -/
def Obligations.TilesPinnedAndQueried : Prop :=
  ∀ (s : State) (t : Nat) (g : Gang) (r : ClauseRun) (es : List ApprEntry) (sw : Bool) (rcd : RecRef) (off : Sel),
    let e := opEnv s t g r es
    let ls := execLanes g r
    let idle := fun (i : Instr) => Ready s t g r i es → ls = [] → ∃ s', exec i s = .next s' ∧ Acted s s' t g r i []
    let tiles := fun (wr : Bool) (as : List TileAcc) (s1 : State) => ls ≠ [] ∧
      ∃ b, Walked e (fun x l => x.tableReads t { z := 1 } true (e.offReq rcd off l)) b ∧
      (ls.map fun l => b.tileOf t wr (e.offReq rcd off l)) = as.map .inr ∧
      ({ e with s := b } : Env).settled .relaxed .device false (tileTouch as) = .ok s1 ∧ (s1.wg t).gang? g.id = some g ∧
      ∀ a ∈ as, ∀ p, a.entry = some p → s1.held ⟨.phys p.2, 8⟩ = false ∧ s1.mcOf ⟨.phys p.2, 8⟩ = none
    let pins := fun (pin : Bool) (i : Instr) (ds : List (Sel × Nat)) => idle i ∧
      (Ready s t g r i es → ∀ as s1, tiles true as s1 → (s1.pinLanes (s.wg t).core pin as).2.2 = [] →
        NoBankHeld s1 ∨ (∀ a ∈ as, rPagein a.rcd = false) →
        ∃ s', exec i s = .next s' ∧ After s1 s' t g r i ds ∧
          ∀ a va pa v, as = [a] → a.entry = some (va, pa) → pinEntry pin (s1.rdNat pa 8) = some v → rPagein a.rcd = false →
            Stored s1 s' pa (bytesOfNat 8 v)) ∧
      (Ready s t g r i es → ∀ a s1 va pa, tiles true [a] s1 → a.entry = some (va, pa) → pinEntry pin (s1.rdNat pa 8) = none →
        let dt := fun k => if k = a.lane then BitVec.ofNat 32 a.idx :: twoWords a.off else []
        exec i s = .next ((s1.takeTrap t g.id { cause := 0x25, faulters := [a.lane], fpc := e.fpc, detail := dt }).spent s.free))
    (∀ st, pins true (.pin sw rcd off st) [(st, 1)]) ∧ pins false (.unpin sw rcd off) [] ∧
    ∀ nw d st,
      (idle (.resq nw sw rcd off d st) ∧ (Ready s t g r (.resq nw sw rcd off d st) es → ∀ as s1, tiles false as s1 →
        ∃ s', exec (.resq nw sw rcd off d st) s = .next s' ∧ After s1 s' t g r (.resq nw sw rcd off d st) ((d, 1) :: optSel st) ∧
          MemKept s1 s' ∧ ∀ a va pa, as = [a] → a.entry = some (va, pa) → st ≠ some d →
            Holds (s1.wg t) (s'.wg t) ls (some (d, 1)) (fun _ => BitVec.ofNat 64 (s1.mapUse (s.wg t).core a.dom va pa % 65536)))) ∧
      (idle (.resqFetch nw sw rcd off d st) ∧ (Ready s t g r (.resqFetch nw sw rcd off d st) es → ∀ as s1, tiles true as s1 →
        NoBankHeld s1 ∨ (∀ a ∈ as, rPagein a.rcd = false) →
        ∃ s', exec (.resqFetch nw sw rcd off d st) s = .next s' ∧
          After s1 s' t g r (.resqFetch nw sw rcd off d st) ((d, 1) :: optSel st) ∧
          ((∀ a ∈ as, rPagein a.rcd = false) → MemKept s1 s')))
/-- BEXPECT (spec/12 R291): the byte count joins, as e, the contributions that R284 merges into kK at the end of the cycle; on a
register with INIT = 0 it raises BARRIER_STATE. -/
def Obligations.BarrierExpectsBytes : Prop :=
  ∀ (s : State) (t : Nat) (g : Gang) (r : ClauseRun) (es : List ApprEntry) (k c : Nat),
    let b := (s.wg t).barriers.get k
    let expects := fun (i : Instr) (n : Nat) => Ready s t g r i es → InCrew s t g r c →
      (b.init = true → ∃ s', exec i s = .next s' ∧ Acted s s' t g r i [] ∧
        (s'.wg t).barriers.get k = { b with due := true, cyExp := b.cyExp + n } ∧
        ((s'.wg t).barriers.get k).cycleEnd =
          { b.merge b.cyArr b.cyBytes (b.cyExp + n) with due := false, cyArr := 0, cyDep := 0, cyBytes := 0, cyExp := 0 } ∧
        ∀ j, j ≠ k → (s'.wg t).barriers.get j = (s.wg t).barriers.get j) ∧
      (b.init = false → exec i s = .next (trapped s t g r 0x61 (execLanes g r)))
    (∀ imm, expects (.bexpect k imm) imm.toNat) ∧
    ∀ a, expects (.bexpectReg k a) (operand s t g r es [.int .u32 a] ((execLanes g r).headD 0) 0)

/-- BINIT (spec/12 R285, R290): counts and binding are set, the phase stands, every lane's parity takes it; early counts join the
contributions of the cycle with ABSORB, and raise BARRIER_EARLY without it; departures of the cycle (R284: BINIT comes first) count no
more. -/
def Obligations.BarrierInitialised : Prop :=
  ∀ (s : State) (t : Nat) (g : Gang) (r : ClauseRun) (es : List ApprEntry) (k : Nat) (absorb crew : Bool) (a b : Sel) (c : Nat),
    let ls := execLanes g r
    let x := fun j => operand s t g r es [.int .u32 a, .int .u32 b] (ls.headD 0) j
    let i := Instr.binit k absorb crew a b
    let old := (s.wg t).barriers.get k
    let exp := if crew then ((s.wg t).members c).length else x 0
    Ready s t g r i es →
    (ls = [] → ∃ s', exec i s = .next s' ∧ Acted s s' t g r i []) ∧
    (InCrew s t g r c → crew = true ∨ x 0 ≤ 4095 → old.early = false ∨ absorb = true →
      ∃ s', exec i s = .next s' ∧ Acted s s' t g r i [] ∧
        (∀ j, j ≠ k → (s'.wg t).barriers.get j = (s.wg t).barriers.get j) ∧
        (let new := (s'.wg t).barriers.get k;
          new.init = true ∧ new.early = false ∧ new.overflow = false ∧ new.phase = old.phase ∧ new.bound = crew ∧
          (new.bcrew = if crew then BitVec.ofNat 6 c else old.bcrew) ∧
          new.exparr.toNat = exp % 4096 ∧ new.pendarr.toNat = exp % 4096 ∧
          new.expbytes.toNat = x 1 % 2 ^ 32 ∧ new.pendbytes.toNat = x 1 % 2 ^ 32 ∧ new.due = true ∧ new.cyExp = old.cyExp ∧
          (new.cyArr = old.cyArr - old.cyDep + if old.early then old.pendarr.toNat else 0) ∧ new.cyDep = 0 ∧
          (new.cyBytes = old.cyBytes + if old.early then -(signedOf 32 old.pendbytes.toNat) else 0)) ∧
        ∀ l ∈ (s.wg t).lanes.map (·.1), ((s'.wg t).lane l).wpar.getLsbD k = (decide (k < 16) && old.phase.getLsbD 0)) ∧
    (InCrew s t g r c → crew = true ∨ x 0 ≤ 4095 → old.early = true → absorb = false →
      let dt := fun _ : Nat => [old.pendarr.setWidth 32, BitVec.ofInt 32 old.earlyBytes, BitVec.ofNat 32 k]
      exec i s = .next (((taken s).takeTrap t g.id
        { cause := 0x60, faulters := ls, fpc := (envOf s t g r).fpc, detail := dt }).spent s.free)) ∧
    (InCrew s t g r c → crew = false → 4095 < x 0 → exec i s = .next (trapped s t g r 0x61 ls))

/-- BARRIVE and BWAIT (spec/12 R292, R293): an arrival counts on CL until it is merged; a wait passes every lane whose parity, or
explicit phase, differs from the barrier's, and parks the gang otherwise.
The merge of a cycle's contributions (spec/12 R284): one merge of all of them at its end; of an initialised barrier a phase ends
once, when no arrival is awaited and no byte. -/
def Obligations.BarrierArrivesMergesAndWaits : Prop :=
  (
    ∀ (s : State) (t : Nat) (g : Gang) (r : ClauseRun) (es : List ApprEntry) (k c : Nat),
      let ls := execLanes g r
      let idle := fun (i : Instr) => Ready s t g r i es → ls = [] → ∃ s', exec i s = .next s' ∧ Acted s s' t g r i []
      (∀ (sib : Option Sel) b, let i := Instr.barrive k sib b
        let ops := (match sib with | some q => [Opd.int .u32 q] | none => []) ++ [Opd.int .u32 b]
        let x := fun j => operand s t g r es ops (ls.headD 0) j
        let target := match sib with | some _ => (taken s).sibling t (x 0 % 4) | none => some t
        idle i ∧ (Ready s t g r i es → InCrew s t g r c →
          (∀ u, target = some u → Room s t g r .cl → ∃ s' it, exec i s = .next s' ∧ Acted s s' t g r i [] ∧
            IntervalsEnded s s' t g r ∧ Flew s s' t ls .cl it ∧ it.ord = .release ∧ it.scope = .cluster ∧
            it.op = .arrive u k ls.length (x (ops.length - 1)) ls ∧ (s'.wg t).barriers = (s.wg t).barriers) ∧
          (target = none → exec i s = .next (trapped s t g r 0x61 ls)))) ∧
      ∀ phase : Option Sel, let i := Instr.bwait k phase
        let b := (s.wg t).barriers.get k
        let passes := fun l => match phase with
          | none => b.phase.getLsbD 0 ≠ ((s.wg t).lane l).wpar.getLsbD k
          | some q => b.phase.toNat ≠ operand s t g r es [.int .u32 q] l 0 % 65536
        idle i ∧ (Ready s t g r i es → InCrew s t g r c →
          (b.init = true → (∀ l ∈ ls, passes l) → ∃ s', exec i s = .next s' ∧ Acted s s' t g r i [] ∧ IntervalsEnded s s' t g r ∧
            (s'.wg t).barriers = (s.wg t).barriers ∧
            ∀ l ∈ ls, phase = none → k < 16 → ((s'.wg t).lane l).wpar.getLsbD k = b.phase.getLsbD 0) ∧
          (b.init = true → ¬ (∀ l ∈ ls, passes l) → ∃ s' want, exec i s = .next s' ∧ Parked s' t g r (.barrier k want) ∧
            MemKept s s' ∧ WinKept s s' ∧ ∀ l, (s'.wg t).lane l = (s.wg t).lane l) ∧
          (b.init = false → exec i s = .next (trapped s t g r 0x61 ls)))) ∧
  (
    ∀ (b : Barrier) (arr : Nat) (bytes : Int) (exp : Nat),
      let pb : Int := signedOf 32 b.pendbytes.toNat - bytes + (exp : Int)
      let pa := b.pendarr.toNat - arr
      let m := b.merge arr bytes exp
      (b.due = true → b.cyArr = arr → b.cyBytes = bytes → b.cyExp = exp →
        b.cycleEnd = { m with due := false, cyArr := 0, cyDep := 0, cyBytes := 0, cyExp := 0 }) ∧ (b.due = false → b.cycleEnd = b) ∧
      m.init = b.init ∧ m.exparr = b.exparr ∧ m.expbytes = b.expbytes ∧ m.bound = b.bound ∧ m.bcrew = b.bcrew ∧
      (b.init = false → m.early = true ∧ m.phase = b.phase ∧ m.pendarr.toNat = min (b.pendarr.toNat + arr) 4095 ∧
        m.pendbytes = BitVec.ofInt 32 pb) ∧
      (b.init = true → pa = 0 → pb ≤ 0 → m.phase = b.phase + 1 ∧ m.pendarr = b.exparr ∧ m.pendbytes = b.expbytes ∧
        m.overflow = (b.overflow || decide (b.pendarr.toNat < arr) || decide (pb < 0))) ∧
      (b.init = true → ¬ (pa = 0 ∧ pb ≤ 0) → m.phase = b.phase ∧ m.pendarr.toNat = pa ∧ m.pendbytes = BitVec.ofInt 32 pb ∧
        m.overflow = (b.overflow || decide (b.pendarr.toNat < arr))))

/-- BTEST (spec/12 R294): the selected word goes to XD, the register stands, and nothing is synchronised. -/
def Obligations.BarrierWordsRead : Prop :=
  ∀ (s : State) (t : Nat) (g : Gang) (r : ClauseRun) (es : List ApprEntry) (k word c : Nat) (d : Sel),
    let i := Instr.btest k word d
    let b := (s.wg t).barriers.get k
    let f := fun (x : Bool) (n : Nat) => if x then 2 ^ n else 0
    Ready s t g r i es → InCrew s t g r c →
      ∃ s' val, exec i s = .next s' ∧ Acted s s' t g r i [(d, 1)] ∧ Holds (s.wg t) (s'.wg t) (execLanes g r) (some (d, 1)) val ∧
        (s'.wg t).barriers = (s.wg t).barriers ∧ (∀ l, ((s'.wg t).lane l).interval = ((s.wg t).lane l).interval) ∧
        (∀ m, ((s'.wg t).crew m).flight.map (·.id) = ((s.wg t).crew m).flight.map (·.id)) ∧
        ∀ l ∈ execLanes g r, (val l).toNat = match word with
          | 0 => b.phase.toNat + f b.init 16 + f b.early 17 + f b.overflow 18 +
              f (b.phase.getLsbD 0 != ((s.wg t).lane ((execLanes g r).headD 0)).wpar.getLsbD k) 19 + b.pendarr.toNat * 2 ^ 20
          | 1 => b.pendbytes.toNat
          | 2 => b.exparr.toNat + f b.bound 12 + b.bcrew.toNat * 2 ^ 13
          | _ => b.expbytes.toNat

/-- EPOST and COPY (spec/12 R295), where the record, the header and the image pass: WRIDX rises at once; where the slot is free the
packet goes into flight on EN, the sequence number to D, and the intervals end; where it is not, the gang waits with its claim,
counted on EN (R289).
ESEQ (spec/12 R296): the watermark goes to D once it has reached the threshold, and the intervals end; until then the gang waits. -/
def Obligations.PostsClaimAndWatermarksRead : Prop :=
  (
    ∀ (s : State) (t : Nat) (g : Gang) (r : ClauseRun) (es : List ApprEntry) (c : Nat) (d q : Sel),
      let e := opEnv s t g r es
      let ls := execLanes g r
      let low := ls.headD 0
      let idx := e.queueIdx low q
      let posts := fun (i : Instr) (src : PacketSource) =>
        (Ready s t g r i es → ls = [] → ∃ s', exec i s = .next s' ∧ Acted s s' t g r i []) ∧
        ∀ b ref ws0 locs ws locs1 s1, let e1 : Env := { e with s := b }
          Ready s t g r i es → InCrew s t g r c → r.pend = .none → Found e c idx (e.queueWalk c idx) b →
          e1.queueRef c idx true = .ok ref →
          src low e1 = .ok (ws0, locs) → e1.settled .relaxed .device false (lineTouch low (.phys ref.pa :: locs)) = .ok s1 →
          s1.held ⟨.phys ref.pa, 64⟩ = false → s1.mcOf ⟨.phys ref.pa, 64⟩ = none → src low { e with s := s1 } = .ok (ws, locs1) →
          queueOk (s1.hdrBits ref.pa) ((s.wg t).crew c).domain = true → classServes (qClass (s1.hdrBits ref.pa)) (ws.getD 1 0 % 256) = true →
          mustZeroSet ws = false → e.full .en = none → (s1.wg t).gang? g.id = some g →
          let n := (qWridx (s1.hdrBits ref.pa) + 1) % 2 ^ 32
          let s2 := s1.physWrite (some (s.wg t).core) ref.pa (bytesOfNat 4 n)
          let h := s2.hdrBits ref.pa
          (seqGe (qWm h) (slotFree h n) = true → ∀ s3 pa tlb,
            Walked { e with s := s2 } (e.walkAt ((s.wg t).crew c).domain fun _ => [slotVa h n]) s3 → (s3.wg t).gang? g.id = some g →
            ({ e with s := s3 } : Env).normalLine c true (slotVa h n) ref.idx = .ok (pa, tlb) →
            ∃ s' it, exec i s = .next s' ∧ After s3 s' t g r i [(d, 1)] ∧ Stored s1 s2 ref.pa (bytesOfNat 4 n) ∧ MemKept s3 s' ∧
              Holds (s3.wg t) (s'.wg t) ls (some (d, 1)) (fun _ => BitVec.ofNat 64 n) ∧ IntervalsEnded s3 s' t g r ∧
              Flew s3 s' t ls .en it ∧ it.ord = .release ∧ it.scope = .device ∧
              it.op = .store [{ lane := low, runs := [(.phys (pa + 4), bytesLE ((ws.drop 1).map fun x => BitVec.ofNat 32 x)),
                (.phys pa, bytesOfNat 4 n)] }]) ∧
          (seqGe (qWm h) (slotFree h n) = false → ∃ s', exec i s = .next s' ∧ Parked s' t g r (.queueAt ref.pa (slotFree h n)) ∧
            Stored s1 s' ref.pa (bytesOfNat 4 n) ∧ RegsKept s1 s' t [] ∧
            (∀ m ∈ (s2.wg t).crewsOf ls, ((s'.wg t).crew m).count .en = ((s2.wg t).crew m).count .en + 1) ∧
            ∃ g' r', (s'.wg t).gang? g.id = some g' ∧ g'.clause = some r' ∧ r'.pend = .claim n ref.pa ref.idx ws)
      (∀ x, posts (.epost d q x) (epostImage x (popsIn [(q, 1)]))) ∧
      ∀ tgt stream n, posts (.copy tgt stream d q n) (copyImage tgt stream n (popsIn [(q, 1)]))) ∧
  (
    ∀ (s : State) (t : Nat) (g : Gang) (r : ClauseRun) (es : List ApprEntry) (c : Nat) (d q : Sel) (thr : Option Sel),
      let e := opEnv s t g r es
      let ls := execLanes g r
      let low := ls.headD 0
      let idx := e.queueIdx low q
      let i := Instr.eseq d q thr
      (Ready s t g r i es → ls = [] → ∃ s', exec i s = .next s' ∧ Acted s s' t g r i []) ∧
      ∀ b ref s1, let e1 : Env := { e with s := b }
        Ready s t g r i es → InCrew s t g r c → Found e c idx (e.queueWalk c idx) b → e1.queueRef c idx false = .ok ref →
        e1.settled .acquire .device false (lineTouch low [.phys ref.pa]) = .ok s1 → s1.held ⟨.phys ref.pa, 64⟩ = false →
        s1.mcOf ⟨.phys ref.pa, 64⟩ = none →
        queueOk (s1.hdrBits ref.pa) ((s.wg t).crew c).domain = true → (s1.wg t).gang? g.id = some g →
        let wm := qWm (s1.hdrBits ref.pa)
        let reached := match thr with
          | none => true
          | some x => seqGe wm (e.int32 low x (popsIn [(q, 1)]) 4).toNat
        (reached = true → ∃ s', exec i s = .next s' ∧ After s1 s' t g r i [(d, 1)] ∧ MemKept s1 s' ∧ IntervalsEnded s1 s' t g r ∧
          Holds (s1.wg t) (s'.wg t) ls (some (d, 1)) (fun _ => BitVec.ofNat 64 wm)) ∧
        (reached = false → ∃ s' n, exec i s = .next s' ∧ Parked s' t g r (.queueAt ref.pa n) ∧ MemKept s1 s' ∧ RegsKept s1 s' t []))

/-- An entry index that is FREE or belongs to another domain raises SWEEP_TABLE in SWDEREG, SWWAIT and SWFORCE; a SWWAIT whose entry
has been freed while it still waited for rows of it raises it too (spec/13 R322, R319). -/
def Obligations.SweepTableIsGuarded : Prop :=
  ∀ (s : State) (t : Nat) (g : Gang) (r : ClauseRun) (es : List ApprEntry) (c p : Nat) (q x : Sel) (i : Instr),
    i = .swdereg q x ∨ i = .swwait q (some x) ∨ i = .swforce q x → Ready s t g r i es →
    let k := (opEnv s t g r es).entryIdx ((execLanes g r).headD 0) q x
    (∀ b, SweepAt s t g r es q c p b →
      let y := (b.pch p).table.get k
      ((b.pch p).heldByOther (t, c) = false → (i = .swforce q x → (b.pch p).ownedBy (t, c) = false) → r.pend = .none →
        y.state = 0 ∨ y.domain ≠ ((s.wg t).crew c).domain →
        exec i s = .next (trappedFrom b s t g r 0x93 (execLanes g r))) ∧
      (i = .swwait q (some x) → r.pend = .sweep [] → exec i s = .next (trappedFrom b s t g r 0x93 (execLanes g r)))) ∧
    ∀ u h rh ent, (s.wg u).gang? h.id = some h → h.park = some (.sweepWait p) → h.clause = some rh → rh.pend = .sweep [(k, ent)] →
      ∃ h', ((s.freeEntry p k).wg u).gang? h.id = some h' ∧
        h'.clause = some { rh with pend := if ent = [] then .sweep [(k, ent)] else .sweep [] }

/-- SWREG, SWDEREG, SWWAIT and SWFORCE (spec/13 R317-R320): an entry becomes ACTIVE under the lowest FREE index; one is freed; a wait
goes on once its rows have been applied, and parks until then; a forcing is queued. Each ends the intervals.
SWPOS (spec/13 R321): N[31:0] of the pseudo-channel goes to XD, and nothing is synchronised. -/
def Obligations.SweepEntriesMoveAndPositionRead : Prop :=
  (
    ∀ (s : State) (t : Nat) (g : Gang) (r : ClauseRun) (es : List ApprEntry) (c p : Nat) (q : Sel),
      let e := opEnv s t g r es
      let ls := execLanes g r
      let dom := ((s.wg t).crew c).domain
      let settled := fun b s1 : State => ({ e with s := b } : Env).settled .release .device false .fence = .ok s1 ∧
        (s1.wg t).gang? g.id = some g
      let idle := fun (i : Instr) => Ready s t g r i es → ls = [] → ∃ s', exec i s = .next s' ∧ Acted s s' t g r i []
      let there := fun (i : Instr) (b : State) => Ready s t g r i es ∧ SweepAt s t g r es q c p b ∧ (b.pch p).heldByOther (t, c) = false
      let entry := fun x => (opEnv s t g r es).entryIdx (ls.headD 0) q x
      (∀ d n b s1 k, let img := e.regs (ls.headD 0) (.v n) 3 (popsIn [(q, 1)]) 4
        let new : SweepEntry := { (default : SweepEntry) with
          img0 := img.getD 0 0, img1 := img.getD 1 0, img2 := img.getD 2 0, state := 1, domain := dom, ackn := (b.pch p).n
          reg := (b.pch p).regs + 1 }
        idle (.swreg d q n) ∧ idle (.swpos d q) ∧ (there (.swreg d q n) b → imageOk (b.pch p) new = true →
          firstBelow 32 (fun j => ((b.pch p).table.get j).state == 0) = some k →
          (∀ j, j < 16 → bitAt new.mask j = true → (b.pch p).activeOn j < 8) → settled b s1 →
          ∃ s', exec (.swreg d q n) s = .next s' ∧ After s1 s' t g r (.swreg d q n) [(d, 1)] ∧ MemKept s1 s' ∧ IntervalsEnded s1 s' t g r ∧
            (s'.pch p).table = (s1.pch p).table.set k new ∧ (∀ m, m ≠ p → s'.pch m = s1.pch m) ∧
            Holds (s1.wg t) (s'.wg t) ls (some (d, 1)) (fun _ => BitVec.ofNat 64 k))) ∧
      (∀ x b s1 y, idle (.swdereg q x) ∧ idle (.swforce q x) ∧ ((b.pch p).entryOf dom (entry x) = some y → settled b s1 →
        (there (.swdereg q x) b → ∃ s', exec (.swdereg q x) s = .next s' ∧ After s1 s' t g r (.swdereg q x) [] ∧ MemKept s1 s' ∧
          IntervalsEnded s1 s' t g r ∧ ((s'.pch p).table.get (entry x)).state = 0 ∧ (∀ f ∈ (s'.pch p).forcings, f.entry ≠ entry x) ∧
          (∀ k, k ≠ entry x → (s'.pch p).table.get k = (s1.pch p).table.get k) ∧ ∀ m, m ≠ p → s'.pch m = s1.pch m) ∧
        (there (.swforce q x) b → (b.pch p).ownedBy (t, c) = false → ∃ s', exec (.swforce q x) s = .next s' ∧
          After s1 s' t g r (.swforce q x) [] ∧ MemKept s1 s' ∧ IntervalsEnded s1 s' t g r ∧ (∀ m, m ≠ p → s'.pch m = s1.pch m) ∧
          s'.pch p = if y.state = 1 then { s1.pch p with forcings := (s1.pch p).forcings ++ [⟨(s1.pch p).freshForcing, entry x, y.waitRows⟩] } else s1.pch p))) ∧
      ∀ x b, idle (.swwait q x) ∧ (there (.swwait q x) b → r.pend = .none →
        let named : List (Nat × SweepEntry) := match x with
          | some x => ((b.pch p).entryOf dom (entry x)).toList.map fun y => (entry x, y)
          | none => (List.range 32).filterMap fun k => match (b.pch p).entryOf dom k with
            | some y => if y.state = 1 then some (k, y) else none
            | none => none
        x = none ∨ named ≠ [] →
        ((∀ y ∈ named, y.2.waitRows = []) → ∃ s', exec (.swwait q x) s = .next s' ∧ After b s' t g r (.swwait q x) [] ∧
          MemKept b s' ∧ IntervalsEnded b s' t g r) ∧
        (¬ (∀ y ∈ named, y.2.waitRows = []) → ∃ s', exec (.swwait q x) s = .next s' ∧ Parked s' t g r (.sweepWait p) ∧ MemKept b s' ∧
          ∃ g' r', (s'.wg t).gang? g.id = some g' ∧ g'.clause = some r' ∧ r'.pend = .sweep (named.map fun y => (y.1, y.2.waitRows))))) ∧
  (
    ∀ (s : State) (t : Nat) (g : Gang) (r : ClauseRun) (es : List ApprEntry) (c p : Nat) (d q : Sel) (b : State),
      Ready s t g r (.swpos d q) es → SweepAt s t g r es q c p b → (b.pch p).heldByOther (t, c) = false →
      ∃ s', exec (.swpos d q) s = .next s' ∧ After b s' t g r (.swpos d q) [(d, 1)] ∧ MemKept b s' ∧
        Holds (b.wg t) (s'.wg t) (execLanes g r) (some (d, 1)) (fun _ => BitVec.ofNat 64 ((b.pch p).n.toNat % 2 ^ 32)) ∧
        (∀ l, ((s'.wg t).lane l).interval = ((b.wg t).lane l).interval) ∧
        ∀ m, ((s'.wg t).crew m).flight.map (·.id) = ((b.wg t).crew m).flight.map (·.id))
/-- BRA, CALL, JMPF, BRI, RET and NOP (spec/04 R93, R94): lanes of E whose predicate holds, or all lanes of E, go to the target; the
others go on at the next clause; CALL writes o7 in the lanes it transfers; a target outside the branch word's segment, a
segment that has not landed and a target that is no header trap. -/
def Obligations.ControlTransfers : Prop :=
  ∀ (s : State) (t : Nat) (g : Gang) (r : ClauseRun) (es : List ApprEntry),
    let ls := execLanes g r
    let fpc := (envOf s t g r).fpc
    let goes := fun (ts : List Nat) (f : Nat → Nat) (l : Nat) => if l ∈ ts then f l else r.next
    r.next % 4096 ≠ 0 →
    (∀ p pn (off : BitVec 18),
      let ts := ls.filter fun l => predOf s t l p != pn
      let target := (((fpc : Int) + 4 * signedOf 18 off.toNat) % 2 ^ 18).toNat
      let near := target / 4096 = fpc / 4096
      (Ready s t g r (.bra p pn off) es →
        (ts = [] ∨ near → ∃ s', exec (.bra p pn off) s = .next s' ∧ Transferred s s' t g (goes ts fun _ => target) []) ∧
        (ts ≠ [] → ¬ near → exec (.bra p pn off) s = .next (trapped s t g r 0x01 ts))) ∧
      (Ready s t g r (.call p pn off) es →
        (ts = [] ∨ near → ∃ s', exec (.call p pn off) s = .next s' ∧ Transferred s s' t g (goes ts fun _ => target) [(.o 7, 1)] ∧
          Holds (s.wg t) (s'.wg t) ts (some (.o 7, 1)) (fun _ => BitVec.ofNat 64 (fpc + 4)) ∧
          ∀ l, l ∉ ts → ((s'.wg t).lane l).reg 263 = ((s.wg t).lane l).reg 263) ∧
        (ts ≠ [] → ¬ near → exec (.call p pn off) s = .next (trapped s t g r 0x01 ts)))) ∧
    (∀ p pn seg word, Ready s t g r (.jmpf p pn seg word) es →
      let ts := ls.filter fun l => predOf s t l p != pn
      let bad := ts.filter fun l => !(taken s).segLanded (s.wg t) ((s.wg t).domOf l) seg
      (bad = [] → ∃ s', exec (.jmpf p pn seg word) s = .next s' ∧ Transferred s s' t g (goes ts fun _ => 4096 * seg + 4 * word) []) ∧
      (bad ≠ [] → exec (.jmpf p pn seg word) s = .next (trapped s t g r 0xA0 ts))) ∧
    (∀ i q, (i = .bri q ∨ (i = .ret ∧ q = .o 7)) → Ready s t g r i es →
      let x := fun l => ((opEnv s t g r es).int32 l q 0 0).toNat
      let bad := fun l => (opEnv s t g r es).targetCause l (x l)
      ((∀ l ∈ ls, bad l = none) → ∃ s', exec i s = .next s' ∧ Transferred s s' t g (goes ls x) []) ∧
      ∀ l lower upper cause, ls = lower ++ l :: upper → (∀ k ∈ lower, bad k = none) → bad l = some cause →
        exec i s = .next (((taken s).takeTrap t g.id
          { cause := cause, faulters := ls.filter fun k => x k == x l, fpc := x l }).spent s.free)) ∧
    (Ready s t g r .nop es → ∃ s', exec .nop s = .next s' ∧ Acted s s' t g r .nop [] ∧ (s'.wg t).lanes = (s.wg t).lanes)

/-- TRAP (spec/15 R371, R359): cause 0xF0 + B[3:0] is taken by the lanes of E; with an empty execute mask every lane goes on at the
next clause; in a crew that runs its handler outside a gate call the workgroup is terminated, and inside one the crew's
forced return is noted until its counters are zero. -/
def Obligations.SoftwareTrapRaised : Prop :=
  ∀ (s : State) (t : Nat) (g : Gang) (r : ClauseRun) (es : List ApprEntry) (n : Nat), Ready s t g r (.trap n) es →
    let ls := execLanes g r
    let fpc := (envOf s t g r).fpc
    (ls = [] → r.next % 4096 ≠ 0 → ∃ s', exec (.trap n) s = .next s' ∧ Transferred s s' t g (fun _ => r.next) []) ∧
    (ls ≠ [] → exec (.trap n) s = .next (((taken s).takeTrap t g.id
      { cause := 0xF0 + n % 16, faulters := ls, fpc := fpc, software := true }).spent s.free)) ∧
    ∀ c, InCrew s t g r c → (∀ x ∈ (s.wg t).traps, x.id ≠ (s.wg t).nextTrap) → ((s.wg t).crew c).handler = true →
      (((s.wg t).crew c).depth = 0 → ∃ s', exec (.trap n) s = .next s' ∧
        Terminated s s' t (0xF0 + n % 16) fpc ((s.wg t).crew c).domain) ∧
      (((s.wg t).crew c).depth > 0 → (((s.wg t).dropPosts fun i => i.isPost g.id).crew c).drained = false → ∃ s', exec (.trap n) s = .next s' ∧
        ((s'.wg t).crew c).forced = some (0xF0 + n % 16, false))

/-- Handler entry (spec/15 R359-R364, R368) as a TRAP of lanes of one crew shows it: the saved registers, the handler's
registers, HANDLER, the handler's gang, and the words of the frame's header. -/
def Obligations.HandlerEntered : Prop :=
  ∀ (s : State) (t : Nat) (g : Gang) (r : ClauseRun) (es : List ApprEntry) (n c pc : Nat), Ready s t g r (.trap n) es →
    let w := s.wg t
    let ls := execLanes g r
    let cr := w.crew c
    let fpc := (envOf s t g r).fpc
    InCrew s t g r c → (∀ l ∈ ls, l ∈ issueLanes g r) → (∀ x ∈ w.traps, x.id ≠ w.nextTrap) → cr.handler = false →
    (cr.depth > 0 → gateFld (w.gates.get (frameKey c (cr.depth - 1))).entry 13 13 = 0) →
    (∀ x ∈ (taken s).tvtReads w.core cr.domain (0xF0 + n % 16), s.held x = false) →
    (taken s).handlerOf w cr.domain (0xF0 + n % 16) = some pc →
    ∃ s', exec (.trap n) s = .next s' ∧ MemKept s s' ∧ WinKept s s' ∧ (∀ u, u ≠ t → s'.wg u = s.wg u) ∧
      (∀ l ∈ ls,
        let x := w.lane l
        let y := (s'.wg t).lane l
        y.saved = some { o := x.o, p := x.p, cf := x.cf, fpmode := x.fpmode } ∧ y.v = x.v ∧ y.cf = x.cf ∧ y.fpmode = 0 ∧ y.p = 0 ∧
        y.reg 256 = BitVec.ofNat 32 (0xF0 + n % 16) ∧ (∀ k, 1 ≤ k → k < 8 → y.reg (256 + k) = 0) ∧ y.interval = x.interval + 1 ∧
        y.crew = x.crew ∧ y.live = x.live) ∧
      (∀ l, l ∉ ls → (s'.wg t).lane l = { w.lane l with lock := ((s'.wg t).lane l).lock }) ∧
      ((s'.wg t).crew c).handler = true ∧ (∀ k, ((s'.wg t).crew k).s = (w.crew k).s) ∧
      (∃ h ∈ (s'.wg t).gangs, h.pc = pc ∧ h.mask = maskOfLanes ls ∧ h.hset = g.hset ∧ h.clause = none) ∧
      (let f := fun k => (((s'.wg t).frames.get c).hdr.get k).toNat;
        f 0 = 0xF0 + n % 16 + 131072 ∧ f 1 = fpc % 2 ^ 18 ∧ f 2 = r.next % 2 ^ 18 ∧
        f 3 = (w.lane (ls.headD 0)).rcnt.toNat ∧ f 4 = (maskOfLanes ls).toNat ∧ f 5 = r.issue.toNat ∧
        f 6 = (c + cr.depth * 64 + g.hset * 512) % 2 ^ 32 ∧ ∀ k, 7 ≤ k → k < 16 → f k = 0)

/-- TRET and TRET.ABORT (spec/15 R372): once every handler lane is there and the crew is drained, TRET gives the saved registers
back, clears HANDLER, and every lane of the trap resumes at its resume point, in the middle of a clause once it is selected again; TRET.ABORT outside a gate call terminates the
workgroup with the trap's cause; outside a handler both raise TRAP_STATE. -/
def Obligations.HandlerReturns : Prop :=
  ∀ (s : State) (t : Nat) (g : Gang) (r : ClauseRun) (es : List ApprEntry) (i : Instr), i = .tret ∨ i = .tretAbort → Ready s t g r i es →
    let w := s.wg t
    let ls := execLanes g r
    let e := opEnv s t g r es
    (ls.filter (fun l => (w.handlerTrap l).isNone) ≠ [] →
      exec i s = .next (trapped s t g r 0x67 (ls.filter fun l => (w.handlerTrap l).isNone))) ∧
    ∀ ti tc c s1, (∀ l ∈ issueLanes g r, w.handlerTrap l = some ti) → issueLanes g r ≠ [] → (∀ l ∈ ls, l ∈ issueLanes g r) →
      w.traps.find? (fun x => x.id == ti.id) = some ti → ti.cur = some tc → tc.crew = some c → (w.crew c).drained = true →
      let hl := (lanesOf ti.hset tc.faulters).filter fun l => (w.lane l).live
      e.otherGangs hl = [] → (taken s).settleFor t ((taken s).asItem t hl .acqRel .device false .fence) = (s1, none) →
      (i = .tret → ti.todo = [] → (s1.wg t).traps.find? (fun x => x.id == ti.id) = some ti →
        ∃ s', exec i s = .next s' ∧ MemKept s1 s' ∧
          (∀ l ∈ lanesOf ti.hset tc.faulters, ∀ v, ((s1.wg t).lane l).saved = some v →
            let y := (s'.wg t).lane l
            y.o = v.o ∧ y.p = v.p ∧ y.cf = v.cf ∧ y.fpmode = v.fpmode ∧ y.saved = none ∧ y.v = ((s1.wg t).lane l).v) ∧
          ((s'.wg t).crew c).handler = false ∧ (∀ x ∈ (s'.wg t).traps, x.id ≠ ti.id) ∧
          ∀ x ∈ ti.resume, ((s1.wg t).lane x.lane).live = true → homeOf x.lane = ti.hset →
            ∃ h ∈ (s'.wg t).gangs, h.hset = ti.hset ∧ h.mask.getLsbD (posOf x.lane) = true ∧
              h.park = x.run.map (fun _ => .resumed) ∧
              match x.run with
              | some q => ∃ q', h.clause = some q' ∧ q'.base = q.base ∧ q'.pos = q.pos ∧ q'.words = q.words
              | none => h.clause = none ∧ h.pc = x.pc) ∧
      (i = .tretAbort → (w.crew c).depth = 0 → (s1.wg t).crew c = w.crew c → (s1.wg t).term = w.term →
        ∃ s', exec i s = .next s' ∧ Terminated s s' t ti.cause ti.fpc (w.crew c).domain)

/-- EXCRD (spec/15 R373): words of the summary part, of the frame of the lane's crew, of its fault records; zero elsewhere. -/
def Obligations.ExceptionStateRead : Prop :=
  ∀ (s : State) (t : Nat) (g : Gang) (r : ClauseRun) (es : List ApprEntry) (d a : Sel), Ready s t g r (.excrd d a) es →
    let w := s.wg t
    let x := fun l => operand s t g r es [.int .u32 a] l 0
    let fr := fun l => w.frames.get ((w.lane l).crew.getD 64)
    ∃ s' val, exec (.excrd d a) s = .next s' ∧ Performed s s' t g r (.excrd d a) ∧ FlagsKept s s' t ∧ SummaryKept s s' t ∧
      Holds w (s'.wg t) (execLanes g r) (some (d, 1)) val ∧ LatchLeft s' t g r val ∧
      ∀ l ∈ execLanes g r, (x l = 0 → (val l).toNat = w.flags.toNat) ∧ (x l = 1 → (val l).toNat = w.satcnt.toNat) ∧
        (x l = 2 → (val l).toNat = w.nanscore.toNat) ∧
        (16 ≤ x l → x l ≤ 31 → (val l).toNat = ((fr l).hdr.get (x l - 16)).toNat) ∧
        (64 ≤ x l → x l ≤ 575 → (val l).toNat =
          ((fr l).recs.getD ((x l - 64) / 8) 0).toNat / 2 ^ (32 * ((x l - 64) % 8)) % 2 ^ 32) ∧
        ((3 ≤ x l ∧ x l < 16) ∨ (31 < x l ∧ x l < 64) ∨ 575 < x l → (val l).toNat = 0)
/-- JOIN (spec/02 R36, R37): lanes that fill the crew they open are its members, hold its number, and go on at the next clause, the
uniform registers those of the former crew before the writes of this cycle (spec/04 R76); lanes that do not fill it wait in it; a count out of range raises CREW_MISMATCH. -/
def Obligations.CrewsForm : Prop :=
  ∀ (s : State) (t : Nat) (g : Gang) (r : ClauseRun) (es : List ApprEntry) (nw : Bool) (d a b : Sel) (tag : Word) (n c : Nat),
    let i := Instr.join nw d a b
    let w := s.wg t
    let ls := execLanes g r
    let x := fun l k => operand s t g r es [.int .u32 a, .int .u32 b] l k
    Ready s t g r i es → ls ≠ [] → r.next % 4096 ≠ 0 → w.traps = [] → (∀ l ∈ ls, w.gateOf l = none ∧ (w.lane l).live = true) →
    (∀ l, (w.lane l).joining = none) →
    ((∀ l ∈ ls, BitVec.ofNat 32 (x l 0) = tag ∧ x l 1 = n) → n ≤ 512 → w.formingFor tag = none → w.freeCrew = some c →
      (n = ls.length → ∃ s', exec i s = .next s' ∧ Spread s' t g (fun _ => r.next) ∧ OnlyGroup s s' t ∧ WinKept s s' ∧ FlagsKept s s' t ∧
        (∀ l k, nw = true ∨ k ∉ codesOf (d, 1) → ((s'.wg t).lane l).reg k = (w.lane l).reg k) ∧
        (∀ k, k ≠ c → ((s'.wg t).crew k).s = (w.crew k).s) ∧
        (∀ l ∈ ls, ((s'.wg t).lane l).crew = some c ∧ ((s'.wg t).lane l).joining = none) ∧
        ((s'.wg t).crew c).held = true ∧ ((s'.wg t).crew c).forming = none ∧ IntervalsEnded s s' t g r ∧
        (d.isS = false → Holds w (s'.wg t) ls (dst nw d 1) (fun _ => BitVec.ofNat 64 c)) ∧
        (∀ l, ls = [l] → d.isS = false → ∀ k, ((s'.wg t).crew c).s.get k =
          match (w.lane l).crew with | some old => (w.crew old).sBefore.get k | none => 0)) ∧
      (ls.length < n → (∃ k, k ∉ ls ∧ k ∈ w.liveLanes) → ∃ s', exec i s = .next s' ∧ MemKept s s' ∧ WinKept s s' ∧
        (∀ l ∈ ls, ((s'.wg t).lane l).crew = none ∧ ∃ j, ((s'.wg t).lane l).joining = some j ∧ j.crew = c ∧
          j.former = (w.lane l).crew) ∧
        ((s'.wg t).crew c).held = true ∧ ((s'.wg t).crew c).forming = some (tag, n) ∧ IntervalsEnded s s' t g r)) ∧
    ((∀ l ∈ ls, x l 1 < 1 ∨ 512 < x l 1) → exec i s = .next (trapped s t g r 0x6E ls))

/-- LEAVE, EXIT, REGANG and YIELD (spec/02 R38-R41): lanes leave their crews, or end; a gang waits in a window of its home set or
passes; a yielding gang's ages fall to zero, and its hold covers the next YHOLD cycles after the current one. -/
def Obligations.LanesLeaveAndGangsMove : Prop :=
  ∀ (s : State) (t : Nat) (g : Gang) (r : ClauseRun) (es : List ApprEntry),
    let w := s.wg t
    let ls := execLanes g r
    r.next % 4096 ≠ 0 → w.traps = [] →
    (Ready s t g r .leave es → Crewed s t g r → (∀ l ∈ ls, w.gateOf l = none) → ∃ s', exec .leave s = .next s' ∧
      Transferred s s' t g (fun _ => r.next) [] ∧ IntervalsEnded s s' t g r ∧ (∀ l ∈ ls, ((s'.wg t).lane l).crew = none) ∧
      ∀ l, l ∉ ls → (s'.wg t).lane l = w.lane l) ∧
    (Ready s t g r .leave es → ¬ Crewed s t g r → exec .leave s = .next (trapped s t g r 0x6D (ls.filter fun l => (w.lane l).crew.isNone))) ∧
    (Ready s t g r .exit es → (∀ l ∈ ls, w.gateOf l = none) → (∀ l, (w.lane l).joining = none) → ∃ s', exec .exit s = .next s' ∧
      OnlyGroup s s' t ∧ RegsKept s s' t [] ∧ WinKept s s' ∧
      (∀ l ∈ ls, ((s'.wg t).lane l).live = false ∧ ((s'.wg t).lane l).crew = none) ∧ (∀ l, l ∉ ls → (s'.wg t).lane l = w.lane l) ∧
      (∀ l ∈ ls, ∀ h ∈ (s'.wg t).gangs, h.hset = g.hset → h.mask.getLsbD (posOf l) = false) ∧
      ∀ l ∈ lanesOf g.hset g.mask, l ∉ ls → ∃ h ∈ (s'.wg t).gangs, h.hset = g.hset ∧ h.mask.getLsbD (posOf l) = true ∧
        h.clause = none ∧ h.park = none ∧ h.pc = r.next) ∧
    (Ready s t g r .regang es → g.mask ≠ 0 →
      let p := (envOf s t g r).fpc
      let mine := w.windows.any fun x => x.hset == g.hset && x.pc == p
      ∃ s' h, exec .regang s = .next s' ∧ Transferred s s' t g (fun _ => r.next) [] ∧ (s'.wg t).gang? g.id = some h ∧
        if mine ∨ (w.windows.filter fun x => x.hset == g.hset).length < 8 then
          h.regang = true ∧ (s'.wg t).windows =
            if mine then w.windows else w.windows ++ [{ hset := g.hset, pc := p, left := w.rgwin.toNat }]
        else h.regang = g.regang ∧ (s'.wg t).windows = w.windows) ∧
    (Ready s t g r .yield es → g.mask ≠ 0 → ∃ s' h, exec .yield s = .next s' ∧ Transferred s s' t g (fun _ => r.next) [] ∧
      (s'.wg t).gang? g.id = some h ∧ (∀ a ∈ h.ages, a = 0) ∧ h.hold = if w.yhold = 0 then 0 else w.yhold.toNat + 2)

/-- GCALL and GRET (spec/14 R349-R352), once the crew is gathered and drained and, for GCALL, the tables it reads can be read: GCALL
saves and zeroes the members' registers but for the arguments, with the gate's MATRIX bit saves and resets the accumulator slots of
their quarters (spec/07 R145), and the crew goes to the callee's domain and entry; GRET gives the registers back but for the results,
and the slots. -/
def Obligations.GatesCallAndReturn : Prop :=
  ∀ (s : State) (t : Nat) (g : Gang) (r : ClauseRun) (es : List ApprEntry) (c : Nat) (gs : List Gathered) (s1 : State),
    let e := opEnv s t g r es
    let w1 := s1.wg t
    let cr := w1.crew c
    let ms := (s.wg t).members c
    e.gateCrew = .ok (some c) → e.gather c = some gs → gatherMask gs = false → (∀ x ∈ gs, x.id < w1.nextGang) → r.next % 4096 ≠ 0 →
    (∀ x ∈ gs, x.run.next % 4096 ≠ 0) → w1.members c = ms → ms.Nodup →
    let stands := fun (s' : State) (pc : Nat) => ∀ l ∈ ms, ∃ h ∈ (s'.wg t).gangs, h.hset = homeOf l ∧ h.mask.getLsbD (posOf l) = true ∧
      h.clause = none ∧ h.park = none ∧ h.pc = pc
    let calls := fun (i : Instr) (x : Nat) => ∀ b, Ready s t g r i es →
      Walked e (fun y _ => y.gateReads (s.wg t).core ((s.wg t).crew c).domain x) b → (b.wg t).members c = ms →
      let e1 : Env := { e with s := b }
      e1.holders = [] → e1.gcallCheck c x = none →
      let ent := b.gateEntry ((b.descUse (b.wg t).core ((b.wg t).crew c).domain).getD []) x
      let arg := fun k => decide (k < 32) && bitAt (gArg ent) k
      e1.gateDrain c (gMatrix ent) = .ok s1 → ∃ s', exec i s = .next s' ∧ MemKept s1 s' ∧ WinKept s1 s' ∧
        (∀ k, (s'.wg t).slots.get k = if gMatrix ent = true ∧ k ∈ w1.memberSlots c then default else w1.slots.get k) ∧
        (let cr' := (s'.wg t).crew c;
          cr'.depth = cr.depth + 1 ∧ cr'.gate = x ∧ cr'.caller = cr.domain ∧ cr'.domain = gDomain ent ∧ cr'.s = []) ∧
        (∀ l ∈ ms, let y := (s'.wg t).lane l
          y.o = [] ∧ y.p = 0 ∧ y.cf = false ∧ y.fpmode = 0 ∧ y.interval = (w1.lane l).interval + 1 ∧
          ∀ k, y.v.get k = if arg k then (w1.lane l).v.get k else 0) ∧
        (∀ l, l ∉ ms → (s'.wg t).lane l = w1.lane l) ∧ stands s' (4096 * gSeg ent + 4 * gOffset ent) ∧
        (let f := (s'.wg t).gates.get (frameKey c cr.depth);
          f.ret = r.next ∧ f.caller = cr.caller ∧ f.gate = cr.gate ∧ f.entry = ent ∧ f.s = cr.s ∧
          (gMatrix ent = true → ∀ k ∈ w1.memberSlots c, f.slots.get k = w1.slots.get k) ∧
          ∀ l ∈ ms, f.lanes.get l = { o := (w1.lane l).o, p := (w1.lane l).p, cf := (w1.lane l).cf, fpmode := (w1.lane l).fpmode } ∧
            ∀ k, arg k = false → (f.vregs.get l).get k = (w1.lane l).v.get k)
    (∀ x, calls (.gcall x) x) ∧ (∀ a, calls (.gcallReg a) (e.gateIndex c gs (some a) 0)) ∧
    (Ready s t g r .gret es → ((s.wg t).crew c).depth = 0 → ∀ h, gatherHead gs = some h → h.id = g.id →
      exec .gret s = .next (trapped s t g r 0x76 h.ls)) ∧
    (Ready s t g r .gret es → ((s.wg t).crew c).depth ≠ 0 → e.gateDrain c true = .ok s1 → w1.trapsOf c = [] →
      let f := w1.gates.get (frameKey c (cr.depth - 1))
      let kept := fun k => decide (k < 32) && bitAt (gRes f.entry) k
      let arg := fun k => decide (k < 32) && bitAt (gArg f.entry) k
      ∃ s', exec .gret s = .next s' ∧ MemKept s1 s' ∧ WinKept s1 s' ∧
        (∀ k, (s'.wg t).slots.get k =
          if gMatrix f.entry = true ∧ k ∈ w1.memberSlots c then f.slots.get k else w1.slots.get k) ∧
        (let cr' := (s'.wg t).crew c;
          cr'.depth = cr.depth - 1 ∧ cr'.domain = cr.caller ∧ cr'.gate = f.gate ∧ cr'.caller = f.caller ∧ cr'.handler = false ∧
          ∀ k, cr'.s.get k = if k = 31 then 0 else f.s.get k) ∧
        (∀ l ∈ ms, let y := (s'.wg t).lane l
          y.o = (f.lanes.get l).o ∧ y.cf = (f.lanes.get l).cf ∧ y.fpmode = (f.lanes.get l).fpmode ∧ y.pred 7 = true ∧
          (∀ k, 1 ≤ k → k < 7 → y.p.getLsbD k = (f.lanes.get l).p.getLsbD k) ∧
          ∀ k, k < w1.vregs → y.v.get k = if kept k then (w1.lane l).v.get k else if arg k then 0 else (f.vregs.get l).get k) ∧
        (∀ l, l ∉ ms → (s'.wg t).lane l = w1.lane l) ∧ stands s' f.ret)

/-- XLINV and XLPROBE (spec/14 R340, R341), where the descriptors they ask for can be read: where no core holds anything to drop, XLINV
is over at once (it waits for cores that do hold something: the model's reading, log 28); where some do, the gang waits for their answers;
only a SUPER domain may name another. XLPROBE reports each lane's walk. -/
def Obligations.TranslationsInvalidatedAndProbed : Prop :=
  ∀ (s : State) (t : Nat) (g : Gang) (r : ClauseRun) (es : List ApprEntry) (c : Nat),
    let e := opEnv s t g r es
    let ls := execLanes g r
    let low := ls.headD 0
    let core := (s.wg t).core
    let own := ((s.wg t).crew c).domain
    let super := fun (b : State) d => match b.descUse core d with | some x => descSuper x | none => false
    let invalidates := fun (i : Instr) (fn : Nat) (a : Option Nat) (dom : Option Sel) =>
      (Ready s t g r i es → ls = [] → ∃ s', exec i s = .next s' ∧ Acted s s' t g r i []) ∧
      (Ready s t g r i es → InCrew s t g r c → r.pend = .none →
        let d := match dom with | some q => (e.int32 low q 0 4).toNat % 4096 | none => own
        let va := match a with | some n => (e.opd low (.pair (.v n)) 0 0).toNat | none => 0
        let asks := d ≠ own ∨ fn = 3
        ∀ b, Walked e (fun x _ => if asks then x.descReads core own else []) b →
        (super b own = false ∧ asks → exec i s = .next (trappedFrom b s t g r 0x77 ls)) ∧
        ∀ s1, ¬ (super b own = false ∧ asks) → ({ e with s := b } : Env).settled .release .device false .fence = .ok s1 →
          (s1.wg t).gang? g.id = some g → (dom.isSome = true → s1.heldIn [⟨.phys (s1.regs.domtab + 128 * d), 128⟩] = none) →
          let sd : Shootdown := { id := s1.nextShoot, fn := fn, domain := d, va := va, waits := [] }
          (s1.shootCores sd = [] → ∃ s', exec i s = .next s' ∧ After s1 s' t g r i [] ∧ MemKept s1 s' ∧ IntervalsEnded s1 s' t g r ∧
            s'.shootdowns = s1.shootdowns) ∧
          (s1.shootCores sd ≠ [] → ∃ s', exec i s = .next s' ∧ Parked s' t g r (.xlinv sd.id) ∧ MemKept s1 s' ∧
            s'.shootdowns = s1.shootdowns ++ [{ sd with waits := s1.shootCores sd }]))
    (∀ a dom, invalidates (.xlinvPage a dom) 0 (some a) dom) ∧ (∀ dom, invalidates (.xlinvDomain dom) 1 none (some dom)) ∧
    (∀ a dom, invalidates (.xlinvResidency a dom) 2 (some a) dom) ∧ invalidates .xlinvAll 3 none none ∧
    ∀ d a dom, Ready s t g r (.xlprobe d a dom) es → Crewed s t g r →
      let k := fun l => match dom with | some q => (e.int32 l q 0 4).toNat % 4096 | none => (s.wg t).domOf l
      ∀ b, Walked e (fun x l => if dom.isSome then x.descReads core ((s.wg t).domOf l) else []) b →
      let bad := if dom.isSome then ls.filter fun l => !super b ((s.wg t).domOf l) else []
      (bad ≠ [] → exec (.xlprobe d a dom) s = .next (trappedFrom b s t g r 0x77 bad)) ∧
      ∀ b1, bad = [] → Walked { e with s := b } (fun x l => x.walkReads core (k l) (e.opd l (.pair (.v a)) 0 0).toNat (8 * l)) b1 →
        (b1.wg t).gang? g.id = some g →
        ∃ s', exec (.xlprobe d a dom) s = .next s' ∧ After b1 s' t g r (.xlprobe d a dom) [(.v d, 2)] ∧ MemKept b1 s' ∧
        ∀ l ∈ ls, ∀ j, j < 2 → Settled (b1.wg t) l (d + j) → ((s'.wg t).lane l).reg (d + j) =
          (probeWords (b1.walk core (k l) false true (e.opd l (.pair (.v a)) 0 0).toNat (8 * l)).1).getD j 0

/-- MCALL (spec/04 R95, spec/16 R399): the gang stands at the macro's first operation, with its selectors; a macro that is absent, or
fails a check as a clause, traps in the lanes of its execute mask; an empty execute mask does nothing (the faulters of a failing macro
and the empty mask are the model's reading, log 36).
ICFETCH (spec/16 R397), where the tables it reads can be read: the segment is dropped, mapped to the slot that holds it, or mapped to a free slot whose fetch goes into
flight; a segment out of range raises FETCH_INVALID, and a callee's fetch GATE_STATE.
NODEPOST (spec/16 R400, R383): where the descriptor can be read and its domain may be posted for, the pool's answer goes to D in the
issue step (the model's reading, log 34) and the intervals end; a descriptor that is not 128-byte aligned raises NODE_INVALID. -/
def Obligations.MacrosSegmentsAndNodes : Prop :=
  (
    ∀ (s : State) (t : Nat) (g : Gang) (r : ClauseRun) (es : List ApprEntry) (m : Nat) (o1 o2 o3 o4 : Sel),
      let i := Instr.mcall m o1 o2 o3 o4
      let ls := execLanes g r
      let ops := (taken s).macroOps (s.wg t) m
      let sels := [o1, o2, o3, o4]
      Ready s t g r i es →
      (ls = [] → r.next % 4096 ≠ 0 → ∃ s', exec i s = .next s' ∧ Transferred s s' t g (fun _ => r.next) []) ∧
      (ls ≠ [] → ops = [] → exec i s = .next (trapped s t g r 0xA3 ls)) ∧
      (ls ≠ [] → ops ≠ [] → ∀ x, macroCheck (s.wg t).vregs sels ops 0 [] = some x → exec i s = .next (trapped s t g r x.code ls)) ∧
      (ls ≠ [] → ops ≠ [] → macroCheck (s.wg t).vregs sels ops 0 [] = none → ∃ s' g', exec i s = .next s' ∧ OnlyGroup s s' t ∧
        RegsKept s s' t [] ∧ WinKept s s' ∧ (s'.wg t).gang? g.id = some g' ∧ g'.park = none ∧
        g'.clause = some { r with mac := some { ops := ops, sels := sels, pos := 0, latches := [] }, pend := .none })) ∧
  (
    (
      ∀ (s : State) (t : Nat) (g : Gang) (r : ClauseRun) (es : List ApprEntry) (c : Nat),
        let e := opEnv s t g r es
        let w := s.wg t
        let ls := execLanes g r
        let low := ls.headD 0
        let dom := (w.crew c).domain
        let seg := fun (q : SegRef) => segNum q e low % 64
        let idle := fun (i : Instr) => Ready s t g r i es → ls = [] → ∃ s', exec i s = .next s' ∧ Acted s s' t g r i []
        let mapped := fun (b s' : State) (sg k : Nat) => (s'.wg t).segs.get sg = k + 1 ∧
          ∀ j, j ≠ sg → (s'.wg t).segs.get j = (b.wg t).segs.get j
        let fetches := fun (b : State) (i : Instr) (sg d va : Nat) (spad : Bool) (src : Except Res (State × List Span)) =>
          let s0 := b.unmapSeg t sg
          let core := (b.wg t).core
          (w.crew c).depth = 0 → sg < w.nseg → (b.wg t).gang? g.id = some g →
          (∀ k, spad = false → (s0.core core).slotOf d va .landed = some k → ∃ s', exec i s = .next s' ∧ After b s' t g r i [] ∧
            MemKept b s' ∧ mapped b s' sg k ∧ ((s'.core core).istore.get k).words = ((b.core core).istore.get k).words) ∧
          (∀ k spans s1, (spad = true ∨ (s0.core core).slotOf d va .landed = none ∧ (s0.core core).slotOf d va .fetching = none) →
            Room b t g r .ic → (spad = true → Room b t g r .sp) → (s0.core core).freeSlot = some k → src = .ok (s1, spans) →
            ∃ s', exec i s = .next s' ∧ After b s' t g r i [] ∧ MemKept b s' ∧ mapped b s' sg k ∧
              (let x := (s'.core core).istore.get k;
                x.st = .fetching ∧ x.tagDom = d ∧ x.tagVa = va ∧ x.fromSpad = spad ∧ x.source = spans) ∧
              (((s1.core core).istore.get k).st ≠ .fetching → ∀ m ∈ (b.wg t).crewsOf ls, ((s'.wg t).crew m).count .ic = ((b.wg t).crew m).count .ic + 1 ∧
                ((s'.wg t).crew m).count .sp = ((b.wg t).crew m).count .sp + if spad then 1 else 0) ∧
              (((s1.core core).istore.get k).st ≠ .fetching → spad = false → ∃ it, Flew b s' t ls .ic it ∧ it.op = .fetch core k))
        let guarded := fun (i : Instr) (sg : Nat) (drop : Bool) =>
          (drop = false → (w.crew c).depth > 0 → exec i s = .next (trapped s t g r 0x75 ls)) ∧
          ((drop = true ∨ (w.crew c).depth = 0) → w.nseg ≤ sg → exec i s = .next (trapped s t g r 0xA1 ls))
        (∀ q, idle (.icfetch q) ∧ (Ready s t g r (.icfetch q) es → InCrew s t g r c → guarded (.icfetch q) (seg q) false ∧
          ∀ b, Walked e (e.walkAt dom fun _ => [w.codeVa + 4096 * seg q]) b → fetches b (.icfetch q) (seg q) dom
            (w.codeVa + 4096 * seg q) false (({ e with s := b } : Env).imageSource b c dom (w.codeVa + 4096 * seg q)))) ∧
        (∀ q, idle (.icfetchDrop q) ∧ (Ready s t g r (.icfetchDrop q) es → InCrew s t g r c → guarded (.icfetchDrop q) (seg q) true ∧
          (seg q < w.nseg → ∃ s', exec (.icfetchDrop q) s = .next s' ∧ Acted s s' t g r (.icfetchDrop q) [] ∧
            (w.slotOf (seg q) ≠ none → (s'.wg t).segs.get (seg q) = 0) ∧
            ∀ j, j ≠ seg q → (s'.wg t).segs.get j = w.segs.get j))) ∧
        (∀ a x, let sg := seg (.reg a)
          let n := (e.int32 low x (popsIn [(a, 1)]) 4).toNat % 4096
          idle (.icfetchGate a x) ∧ (Ready s t g r (.icfetchGate a x) es → InCrew s t g r c → guarded (.icfetchGate a x) sg false ∧
            ∀ b0 b, Walked e (fun y _ => y.gateReads w.core dom n) b0 →
              let e0 : Env := { e with s := b0 }
              let dc := (b0.descUse e0.w.core (e0.w.crew c).domain).getD []
              let ent := b0.gateEntry dc n
              let tables := fun y : State => y.calleeTables e0.w.core (gDomain ent)
              let va := e0.w.codeVa + 4096 * sg
              n < gateCount dc → gateEntryOk e0.w ent = true →
              Walked e0 (fun y l => e0.walkAt (gDomain ent) (fun _ => [va]) (tables y) l) b →
              fetches b (.icfetchGate a x) sg (gDomain ent) va false
                (({ e with s := b } : Env).imageSource (tables b) c (gDomain ent) va))) ∧
        ∀ a x, let sg := seg (.reg a)
          let ea := (e.int32 low x (popsIn [(a, 1)]) 4).toNat % 2 ^ 24
          idle (.icfetchSpad a x) ∧ (Ready s t g r (.icfetchSpad a x) es → InCrew s t g r c → guarded (.icfetchSpad a x) sg false ∧
            ∀ u o, ea % 64 = 0 → (taken s).spadAt t low false ea 4096 = some (u, o) →
              fetches (taken s) (.icfetchSpad a x) sg dom 0 true (.ok (taken s, [⟨.win u o, 4096⟩])))) ∧
    (
      ∀ (s : State) (t : Nat) (g : Gang) (r : ClauseRun) (es : List ApprEntry) (c a : Nat) (d : Sel),
        let i := Instr.nodepost d a
        let e := opEnv s t g r es
        let ls := execLanes g r
        let dom := ((s.wg t).crew c).domain
        let va := (e.opd (ls.headD 0) (.pair (.v a)) 0 0).toNat
        (Ready s t g r i es → ls = [] → ∃ s', exec i s = .next s' ∧ Acted s s' t g r i []) ∧
        (Ready s t g r i es → InCrew s t g r c → va % 128 ≠ 0 → exec i s = .next (trapped s t g r 0xA2 ls)) ∧
        ∀ s0 s1, Ready s t g r i es → InCrew s t g r c → va % 128 = 0 → e.settled .release .device false .fence = .ok s0 →
          Walked { e with s := s0 } (({ e with s := s0 } : Env).walkAt dom fun _ => (granules va 128).map (·.1)) s1 →
          (s1.wg t).gang? g.id = some g →
          let x := s1.xlate (s.wg t).core dom false ((s.wg t).crew c).handler 6 [(va, 128)]
          let spans := spansOf (x.filterMap (·.2.1))
          let ws := wordsLE (spans.flatMap fun p => match p.loc with | .phys q => s1.homeLoad q p.len | .win .. => [])
          let super := match s1.descUse (s.wg t).core dom with | some y => descSuper y | none => false
          let s2 := s1.walkKeep (s.wg t).core dom (.ok 0 0 false false 0 0 0, x.flatMap (·.2.2))
          worstGran (x.map (·.1)) = none → s1.heldIn spans = none → (spans.any fun p => (s1.mcOf p).isSome) = false →
          (NodeDesc.domain ⟨ws⟩ = dom ∨ super = true) →
          s1.acceptHeld dom ws = false →
          ∃ s', exec i s = .next s' ∧ After s1 s' t g r i [(d, 1)] ∧ s'.pool = (s2.accept dom ws).1.pool ∧
            s'.mem = (s2.accept dom ws).1.mem ∧ IntervalsEnded s1 s' t g r ∧
            Holds (s1.wg t) (s'.wg t) ls (some (d, 1)) (fun _ => BitVec.ofNat 64 (s2.accept dom ws).2)))
/-- ASTART (spec/17 R402, R403, R412): the lowest free Apprentice of the core is bound to the crew, starts at the address with w0, and
D is 0; with none free D is 1; a stop frees it. An Apprentice that is bound, or none to stop, raises APPRENTICE_STATE. -/
def Obligations.ApprenticesBound : Prop :=
  ∀ (s : State) (t : Nat) (g : Gang) (r : ClauseRun) (es : List ApprEntry) (c : Nat) (d : Sel),
    let w := s.wg t
    let ls := execLanes g r
    let idle := fun (i : Instr) => Ready s t g r i es → ls = [] → ∃ s', exec i s = .next s' ∧ Acted s s' t g r i []
    let put := fun (s' : State) (v : Nat) => Holds w (s'.wg t) ls (some (d, 1)) (fun _ => BitVec.ofNat 64 v)
    (∀ a b, let i := Instr.astart d a b
      let x := operand s t g r es [.int .u32 a, .int .u32 b] (ls.headD 0)
      idle i ∧ (Ready s t g r i es → InCrew s t g r c →
        ((w.crew c).appr ≠ none → exec i s = .next (trapped s t g r 0x65 ls)) ∧
        ((w.crew c).appr = none → 2 ^ 18 ≤ x 0 ∨ x 0 % 4 ≠ 0 → exec i s = .next (trapped s t g r 0x01 ls)) ∧
        ((w.crew c).appr = none → x 0 < 2 ^ 18 → x 0 % 4 = 0 →
          ((s.core w.core).freeUnit = none → ∃ s', exec i s = .next s' ∧ Acted s s' t g r i [(d, 1)] ∧ put s' 1) ∧
          ∀ u, (s.core w.core).freeUnit = some u → ∃ s', exec i s = .next s' ∧ Acted s s' t g r i [(d, 1)] ∧ put s' 0 ∧
            (let a' := (s'.core w.core).apprs.get u;
              a'.wg = t ∧ a'.crew = c ∧ a'.st = .running ∧ a'.pc = x 0 ∧ a'.p = 0 ∧ a'.cf = false ∧ a'.clause = none ∧
              (∀ k, (a'.w.get k).toNat = if k = 0 then x 1 % 2 ^ 32 else 0) ∧ ∀ q, a'.queues.get q = []) ∧
            (∀ v, v ≠ u → (s'.core w.core).apprs.get v = (s.core w.core).apprs.get v) ∧
            ∃ b', ((s'.wg t).crew c).appr = some b' ∧ b'.unit = some u))) ∧
    let i := Instr.astartStop d
    idle i ∧ (Ready s t g r i es → InCrew s t g r c →
      ((w.crew c).appr = none → exec i s = .next (trapped s t g r 0x65 ls)) ∧
      ∀ b, (w.crew c).appr = some b → ∃ s', exec i s = .next s' ∧ Acted s s' t g r i [(d, 1)] ∧ put s' 0 ∧
        ((s'.wg t).crew c).appr = none ∧ ∀ u, b.unit = some u → (s'.core w.core).apprs.get u = default)

/-- APUSH, LD and EXIT of Apprentice code (spec/17 R404-R406, R411): an entry is appended while the queue holds fewer than 16, and
the Apprentice stays at the APUSH when it is full; the entry can be popped from the next cycle; a load that meets a problem poisons
its entry, or stalls the Apprentice at its LD; while all-bank mode holds what its translation reads, the Apprentice stays (spec/13
R324); EXIT ends it. In lane code APUSH raises APPRENTICE_STATE. -/
def Obligations.ApprenticesPushAndLoad : Prop :=
  (∀ (s : State) (core u : Nat) (a : Apprentice) (r : ClauseRun), ApprStands s core u a r →
    let a' := fun s' : State => (s'.core core).apprs.get u
    let skips := fun (i : Instr) => r.exec = 0 → ∃ s', exec i s = .next s' ∧ OnlyCore s s' core ∧ ApprWentOn s' core u r i.len ∧
      (a' s').queues = a.queues ∧ (a' s').w = a.w
    let stays := fun (i : Instr) => ∃ s', exec i s = .next s' ∧ OnlyCore s s' core ∧ a' s' = a
    let pushes := fun (i : Instr) (n : Nat) (b : State) (held : Bool) (p : ApprEntry → Prop) => skips i ∧
      (r.exec ≠ 0 → a.discard.get n = 0 → held = true → stays i) ∧
      (r.exec ≠ 0 → a.discard.get n = 0 → (a.queues.get n).length < 16 → held = false → ∃ s' x, exec i s = .next s' ∧
        OnlyCoreHere b s' core ∧ s'.agenda = b.agenda ∧
        ApprWentOn s' core u r i.len ∧ (a' s').queues.get n = a.queues.get n ++ [x] ∧ p x ∧ x.fresh = none ∧ x.new = true ∧
        x.sync = ((s.wg a.wg).crew a.crew).sync ∧ ∀ m, m ≠ n → (a' s').queues.get m = a.queues.get m) ∧
      (r.exec ≠ 0 → a.discard.get n = 0 → 16 ≤ (a.queues.get n).length → stays i)
    let ready := fun l : ApprLoad => (taken s).crewReady a.wg a.crew ((taken s).specReads a.wg a.crew l)
    let held := fun l : ApprLoad => (taken s).specHeld a.wg a.crew l
    let load := fun (vec : Bool) (x b : Sel) =>
      ({ vec := vec, recd := (taken s).apprNum a r b % 256, off := (taken s).apprNum a r x } : ApprLoad)
    (∀ n x, pushes (.apush n x) n (taken s) false fun e => e.load = none ∧ e.poison = false ∧ e.pending = false ∧ e.vec = false ∧
      (e.data.get 0).toNat = (taken s).apprNum a r x) ∧
    ((s.wg a.wg).core = core → ∀ vec n x b,
      let l := load vec x b
      pushes (if vec then .apushVec n x b else .apushBcld n x b) n (ready l) (held l) fun e => e.vec = vec ∧ e.load = some l ∧
        let q := (ready l).specLoad a.wg a.crew l
        e.poison = q.isNone ∧ e.pending = q.isSome) ∧
    ((s.wg a.wg).core = core → ∀ d rcd off, let i := Instr.apprenticeLd d rcd off
      let idx := match rcd with | .imm n => n | .reg x => (taken s).apprNum a r x % 256
      let l : ApprLoad := { vec := false, recd := idx, off := (taken s).apprNum a r off }
      skips i ∧ (r.exec ≠ 0 → held l = true → stays i) ∧
        (r.exec ≠ 0 → held l = false → ∃ s', exec i s = .next s' ∧ OnlyCoreHere (ready l) s' core ∧ s'.agenda = (ready l).agenda ∧
        ApprWentOn s' core u r i.len ∧ (a' s').w = a.w ∧
        (r.next % 4096 ≠ 0 → (a' s').ld = some (match d with | .v n => n | _ => 0, l) ∧
          (a' s').st = if ((ready l).specLoad a.wg a.crew l).isSome then .running else .stalled))) ∧
    (skips .apprenticeExit ∧ (r.exec ≠ 0 → ∃ s', exec .apprenticeExit s = .next s' ∧ OnlyCore s s' core ∧ (a' s').st = .ended ∧
      (a' s').ecause = 0 ∧ (a' s').clause = none ∧ (a' s').queues = a.queues ∧ (a' s').w = a.w))) ∧
    ∀ (s : State) (t : Nat) (g : Gang) (r : ClauseRun) (es : List ApprEntry) (i : Instr),
      (∃ n x b, i = .apush n x ∨ i = .apushVec n x b ∨ i = .apushBcld n x b) → Ready s t g r i es →
      (execLanes g r ≠ [] → exec i s = .next (trapped s t g r 0x65 (execLanes g r))) ∧
      (execLanes g r = [] → ∃ s', exec i s = .next s' ∧ Acted s s' t g r i [])

/-- Pops (spec/04 R63, spec/17 R408): an instruction that pops takes its entries off the front of its crew's queues, one for each
selector that names a queue; with an empty execute mask it takes none; where an entry is missing, and no other gang reloads one of the
queue, the gang waits. -/
def Obligations.PopsTakeEntries : Prop :=
  ∀ (s : State) (t : Nat) (g : Gang) (r : ClauseRun) (i : Instr),
    let ls := execLanes g r
    let w := s.wg t
    let qs := popQueues i.reads
    (∀ es, computes i = true → Ready s t g r i es → ∃ s', exec i s = .next s' ∧
      (ls = [] → s'.cores = s.cores) ∧
      ∀ c b u, InCrew s t g r c → qs ≠ [] → (w.crew c).appr = some b → b.unit = some u →
        es.length = qs.length ∧ ∀ q, ((s'.core w.core).apprs.get u).queues.get q =
          (((s.core w.core).apprs.get u).queues.get q).drop (qs.filter (· == q)).length) ∧
    (∀ c b u q rest, computes i = true → Stands s t g r → (∀ l ∈ issueLanes g r, (w.lane l).lock = none) →
      (∀ l ∈ issueLanes g r, ∀ k, (w.lane l).crew = some k → (w.crew k).mcheck = none) → s.damage = [] → CrewsFit w i ls → GateLets w i ls →
      InCrew s t g r c → qs = q :: rest → (w.crew c).appr = some b → b.unit = some u →
      (envOf s t g r).otherReload c (some q) = none → ((s.core w.core).apprs.get u).queues.get q = [] → ((s.core w.core).apprs.get u).st = .running →
      ∃ s', exec i s = .next s' ∧ Parked s' t g r (.pop c q) ∧ MemKept s s' ∧ s'.cores = s.cores)

/-- VGMV, VGRD and VGWAIT (spec/17 R420, R421, R423): one entry for each lane of E, in order, behind those that stand in the queue,
counted as one instruction on DM; the queue's state; a wait until the crew's entries have written their results. -/
def Obligations.SorterPostsAndWaits : Prop :=
  ∀ (s : State) (t : Nat) (g : Gang) (r : ClauseRun) (es : List ApprEntry) (c : Nat),
    let e := opEnv s t g r es
    let w := s.wg t
    let ls := execLanes g r
    let low := ls.headD 0
    let q := fun n => s.sorterQ w.core n
    let mine := fun n => (q n).filter fun x => x.wg == t && x.crew == c
    let idle := fun (i : Instr) => Ready s t g r i es → ls = [] → ∃ s', exec i s = .next s' ∧ Acted s s' t g r i []
    (∀ n a b p, let i := Instr.vgmv n a b p
      let pair := (e.opd low (.pair p) (popsIn [(a, 1), (b, 1)]) 8).toNat
      let idx := bits pair 32 8
      let wcol := bits pair 40 16
      let row := fun l => (e.int32 l a 0 0).toNat
      let res := fun l => (e.int32 l b (popsIn [(a, 1)]) 4).toNat
      let dom := (w.crew c).domain
      idle i ∧ (Ready s t g r i es → InCrew s t g r c → wcol = 0 ∨ wcol > 65534 ∨ bits pair 56 8 ≠ 0 →
        exec i s = .next (trapped s t g r 0x66 ls)) ∧
      ∀ b ws k au ao, Ready s t g r i es → InCrew s t g r c → wcol ≠ 0 → wcol ≤ 65534 → bits pair 56 8 = 0 →
        let super := match b.descUse w.core dom with | some y => descSuper y | none => false
        let q1 := fun n => b.sorterQ w.core n
        Found e c idx (fun _ _ => []) b → (b.wg t).core = w.core →
        b.recGet (b.wg t) c idx 6 = .ok (ws, k) → recCheck { z := 2, noSenc := true } super dom idx (recBits ws) = none →
        rKind (recBits ws) ≤ 1 → pair % 4 = 0 → b.spadAt t low (bitAt pair 24) (pair % 2 ^ 24) (4 * wcol) = some (au, ao) →
        (∀ l ∈ ls, row l % 2 = 0 ∧ res l % 8 = 0 ∧ b.spadAt t l (bitAt (res l) 24) (res l % 2 ^ 24) 8 ≠ none) →
        Room b t g r .dm → (q1 n).length + ls.length ≤ 64 →
        ∃ s' it xs, exec i s = .next s' ∧ After b s' t g r i [] ∧ MemKept b s' ∧ Flew b s' t ls .dm it ∧ it.op = .sorter ls.length ∧
          s'.sorterQ w.core n = q1 n ++ xs ∧ xs.map (·.row) = ls.map row ∧ (∀ m, m ≠ n → s'.sorterQ w.core m = q1 m) ∧
          ∀ x ∈ xs, x.item = it.id ∧ x.wg = t ∧ x.crew = c ∧ x.act = .win au ao ∧ x.recd = idx ∧ x.wcol = wcol ∧ x.domain = dom) ∧
    (∀ n d, idle (.vgrd n d) ∧ (Ready s t g r (.vgrd n d) es → InCrew s t g r c → ∃ s', exec (.vgrd n d) s = .next s' ∧
      Acted s s' t g r (.vgrd n d) [(d, 1)] ∧ s'.cores = (taken s).cores ∧
      Holds w (s'.wg t) ls (some (d, 1)) (fun _ => BitVec.ofNat 64 (64 - (q n).length + (mine n).length * 128 + (q n).length * 16384)))) ∧
    ∀ n, let qs := match n with | some k => [k] | none => List.range 8
      idle (.vgwait n) ∧ (Ready s t g r (.vgwait n) es → InCrew s t g r c → r.pend = .none →
        ((∀ k ∈ qs, mine k = []) → ∃ s', exec (.vgwait n) s = .next s' ∧ Acted s s' t g r (.vgwait n) [] ∧ IntervalsEnded s s' t g r) ∧
        (¬ (∀ k ∈ qs, mine k = []) → ∃ s' l, exec (.vgwait n) s = .next s' ∧ Parked s' t g r (.sorterDone l) ∧ MemKept s s' ∧
          ∀ x, x ∈ l ↔ ∃ k ∈ qs, ∃ y ∈ mine k, y.item = x))
/-- Events of gangs and crews: CLAUSE_ISSUE, GANG_UNPARK, REGANG_WINDOW_CLOSE, YIELD_HOLD_EXPIRE, CROSS_LANE_GATHER, CREW_DISSOLVE,
LOCK_RETRY, LOCK_HOLD, RACE_STALL_RELEASE, RACE_STALL_TIMEOUT (spec/02 R25, R27, R30, R40-R42; spec/08 R182, R184; spec/10 R253;
spec/15 R366): where the event's condition holds it takes place, with its effect and no other. A merged gang has no YIELD hold (the
model's reading, log 68); a BW header asks for no crew (log 43); that an event, a retry or an attempt ends its core's ordinary issues of the
cycle is the model's own order of a cycle (logs 1, 41). -/
def Obligations.GangEventsHappen : Prop :=
  ∀ (s : State) (t : Nat),
    let w := s.wg t
    (∀ g, w.gang? g.id = some g →
      let only := fun (s' : State) (g' : Gang) => OnlyWg s s' t ∧ s'.wg t = { w with gangs := (s'.wg t).gangs } ∧
        (s'.wg t).gang? g.id = some g' ∧ ∀ h, h ≠ g.id → (s'.wg t).gang? h = w.gang? h
      let mine := lanesOf g.hset g.mask
      (∀ h off ws is, g.clause = none → s.maySelect t g = true → s.fetchClause w g = some (h, off, ws) →
        clauseDecode w.vregs h off ws = .ok is → (crossLane is = true → w.wholeHome g.hset g.mask = true) →
        (hBw h = true → w.calleeLanes g = [] ∧ (w.barriers.get (hK h)).init = true) →
        s.codeBroken w.core ((w.slotOf (g.pc / 4096)).getD 0) = false →
        ∃ s' g' r, exec (.clauseIssue t g.id) s = .next s' ∧ MemKept s s' ∧ RegsKept s s' t [] ∧ WinKept s s' ∧
          (hBw h = false → OnlyWg s s' t) ∧ (s'.wg t).gang? g.id = some g' ∧ g'.pc = g.pc ∧ g'.mask = g.mask ∧ g'.hset = g.hset ∧
          (∀ a ∈ g'.ages, a = 0) ∧ g'.clause = some r ∧ r.base = g.pc ∧ r.hdr.toNat = h % 2 ^ 32 ∧
          r.words.map BitVec.toNat = ws.map (· % 2 ^ 32) ∧ r.pos = 0 ∧ r.latches = [] ∧ r.mac = none ∧ r.issue = g.mask ∧
          (∀ l ∈ mine, l ∈ execLanes g r ↔ predOf s t l (hPred h) ≠ hNeg h) ∧ (∀ l ∈ execLanes g r, l ∈ mine) ∧
          ∀ l ∈ mine,
            let x := w.lane l
            let y := (s'.wg t).lane l
            (hRegion h = true → y.opened = true ∧ y.repc.toNat = g.pc % 2 ^ 18 ∧ y.rcnt = x.rcnt + 1) ∧
            (hRegion h = false → y.opened = x.opened ∧ y.repc = x.repc ∧ y.rcnt = x.rcnt) ∧
            y.interval = x.interval + (if hBw h = true ∨ hDrains h ≠ [] then 1 else 0)) ∧
      (g.park ≠ none → g.park ≠ some .lock → g.park ≠ some .race → s.maySelect t g = true →
        ∃ s', exec (.gangUnpark t g.id) s = .next s' ∧ only s' { g with park := none, ages := List.replicate 8 0 }) ∧
      (g.hold = 1 → ∃ s', exec (.yieldHoldExpire t g.id) s = .next s' ∧ only s' { g with hold := 0 }) ∧
      (∀ r, g.clause = some r → g.park = none → w.gangHeld g = false →
        let ls := (issueLanes g r).filter fun l => match (w.lane l).lock with | some k => decide (16 ≤ k.issues) | none => false
        ls ≠ [] → exec (.lockHold t g.id) s = .next (s.takeTrap t g.id
          { cause := 0x62, faulters := ls, fpc := (s.env t g r).fpc, detail := (s.env t g r).lockDetail })) ∧
      (s.maySelect t g = true → s.ready t g = true → ∀ r i, g.clause = some r → r.instr = some i →
        let woken := fun (f : Pend → Pend) => { (s.updGang t g.id fun x => { x with
            park := none, ages := List.replicate 8 0, clause := some { r with pend := f r.pend } }) with
          agenda := .gang t g.id :: s.agenda }
        let goesOn := fun (p : Park) (u : State) (ev : Instr) (took : State → State) => ∃ s2, exec i u = .next s2 ∧
          (∀ x, (s2.wg t).gang? g.id = some x → x.park ≠ some p) ∧ exec ev s = .next (took s2)
        (g.park = some .lock → (accessExec i s).isSome = true → goesOn .lock (woken id) (.lockRetry t g.id) fun s2 => s2.tookAttempt w g) ∧
        (g.park = some .race → (accessExec i s).isSome = true → r.pend.stallOf.1 ≤ 256 →
          goesOn .race (woken fun p => .stall p.stallOf.1 false) (.raceStallRelease t g.id) fun s2 => s2.tookTurn w g) ∧
        ∀ s2, g.park = some .race → 256 < r.pend.stallOf.1 → (accessExec i s).isSome = true →
          exec i (woken fun p => .stall p.stallOf.1 true) = .next s2 → exec (.raceStallTimeout t g.id) s = .next (s2.tookTurn w g))) ∧
    (∀ x, w.windows.find? (fun y => y.hset == x.hset && y.pc == x.pc) = some x →
      let gs := w.gangs.filter fun g => g.regang && g.hset == x.hset && g.pc == x.pc + 4
      x.left = 0 ∨ (∀ l ∈ w.liveLanes, homeOf l = x.hset → ∃ g ∈ gs, g.mask.getLsbD (posOf l) = true) →
      ∃ s1, OnlyWg s s1 t ∧
        s1.wg t = { w with gangs := (s1.wg t).gangs, windows := w.windows.filter fun y => !(y.hset == x.hset && y.pc == x.pc) } ∧
        ((x.pc + 4) % 4096 ≠ 0 → exec (.regangWindowClose t x.hset x.pc) s = .next (s1.endIssues w.core) ∧
          Joined w (s1.wg t) gs x.hset (x.pc + 4)) ∧
        ∀ y, (x.pc + 4) % 4096 = 0 → gs.head? = some y → Joined w (s1.wg t) gs x.hset x.pc ∧
          exec (.regangWindowClose t x.hset x.pc) s = .next ((s1.fallTrap t y.id x.pc).endIssues w.core)) ∧
    (∀ hset pc, let gs := w.gangs.filter fun g => g.cross && g.hset == hset && g.pc == pc
      gs ≠ [] → (∀ l ∈ w.liveLanes, homeOf l = hset → ∃ g ∈ gs, g.mask.getLsbD (posOf l) = true) →
      ∃ s', exec (.crossLaneGather t hset pc) s = .next s' ∧ OnlyWg s s' t ∧ s'.wg t = { w with gangs := (s'.wg t).gangs } ∧
        Joined w (s'.wg t) gs hset pc) ∧
    ∀ c, (w.crew c).held = true → (w.crew c).gone = false → (w.crew c).forming = none → w.members c = [] → (w.crew c).drained = true →
      ∃ s', exec (.crewDissolve t c) s = .next s' ∧ MemKept s s' ∧ WinKept s s' ∧
        (s'.wg t).crew c = { (default : Crew) with held := true, gone := true, flight := ((s'.wg t).crew c).flight } ∧
        ((s'.wg t).crew c).flight.map (·.id) = (w.crew c).flight.map (·.id) ∧
        (∀ k, k ≠ c → ((s'.wg t).crew k).s = (w.crew k).s ∧ ((s'.wg t).crew k).held = (w.crew k).held) ∧ (s'.wg t).lanes = w.lanes ∧
        (s'.wg t).gangs = w.gangs ∧
        ∀ k, let b := w.barriers.get k
          (s'.wg t).barriers.get k = if b.bound = true ∧ b.bcrew.toNat = c then { b with bound := false } else b
/-- IN_FLIGHT_COMPLETE (spec/08 R176, R186; spec/12 R284, R292; spec/10 R246): an item that may be performed is performed: a load's
bytes reach its registers, a store's bytes memory, an atomic does both, an arrival is a contribution of the cycle; the item is done in
every crew. The stores that it needs at their homes are performed first (`needsHome`: the model's choice, log 70); that an arrival ends
its core's ordinary issues of the cycle is the model's own order of a cycle (logs 1, 4). Values are stated of items of one lane. -/
def Obligations.ItemsInFlightComplete : Prop :=
  ∀ (s : State) (t c : Nat) (i : FlightItem), let w := s.wg t
    w.item? c i.id = some i → w.life ≠ .saved → s.mayPerform t i = true → NoneForced s t →
    let s1 := s.sendHome (s.needsHome t i)
    ∃ s', exec (.inFlightComplete t c i.id) s = .next s' ∧
      (∀ k, ∀ j ∈ ((s'.wg t).crew k).flight, j.id = i.id → j.done = true) ∧
      (i.stat = none → ∀ l a, aperture a = some 0 →
        let lands := fun (d : Option Sel) (n : Nat) (ws : List Word) =>
          (∀ m k, (∀ q, d = some q → m = l → k ∉ codesOf (q, n)) → ((s'.wg t).lane m).reg k = ((s1.wg t).lane m).reg k) ∧
          ∀ q b, d = some q → regCode q = some b → ∀ j, j < n → (l, b + j) ∉ i.skip → ((s'.wg t).lane l).reg (b + j) = ws.getD j 0
        (∀ z d n, i.op = .load z d [⟨l, [⟨.phys a, n⟩], false, [], [], {}⟩] [] →
          MemKept s1 s' ∧ lands d (wspan z) (regWords (wspan z) (s1.rdBytes a n))) ∧
        (∀ bs, i.op = .store [⟨l, [(.phys a, bs)]⟩] → s.damage = [] → Stored s1 s' a bs ∧ LaneRegsKept s1 s' t) ∧
        ∀ op z d b x, i.op = .atomic op z d [⟨l, .phys a, b, x⟩] → s.damage = [] →
          let n := wspan z * 4
          let old := natOfBytes (s1.rdBytes a n)
          Stored s1 s' a (bytesOfNat n (atomNew op (8 * n) old (b.toNat % 2 ^ (8 * n)) (x.toNat % 2 ^ (8 * n))).1) ∧
          lands d (wspan z) (regWords (wspan z) (bytesOfNat 16 old))) ∧
      ∀ u k n b ls, i.op = .arrive u k n b ls → (s1.wg u).life ≠ .absent → i.stat = none → MemKept s1 s' ∧ LaneRegsKept s1 s' t ∧
        (s'.wg u).barriers.get k = ((s1.wg u).barriers.get k).add n b 0 ∧ (∀ j, j ≠ k → (s'.wg u).barriers.get j = (s1.wg u).barriers.get j) ∧
        ((s1.wg u).life ≠ .saved → (s'.core (s1.wg u).core).late = true)

/-- MATRIX_OP_START, MATRIX_OP_COMPLETE, SHOOTDOWN_ACK, SORTER_ENTRY, APPRENTICE_LOAD_COMPLETE, APPRENTICE_CLAUSE_FETCH and
L2_EVICT_SPILL (spec/07 R146, R160; spec/14 R340; spec/17 R404, R406, R419, R420; spec/10 R253): a pipeline starts the next queue's first
operation, which then completes into its slot; a core drops what an XLINV names; the Sorter writes total and status of the head of
the queue whose turn it is; a load fills its register or entry; an Apprentice's next clause starts, or ends it; live race
entries of a line leave the L2. An operation that overlaps another leaves its slot's free contents, which the model takes as they stand
(log 15, the model's choice); cores with nothing to drop owe no acknowledgement (log 28). -/
def Obligations.UnitEventsHappen : Prop :=
  ∀ (s : State) (core : Nat),
    (∀ quad q t ph hq o rest, let qs := s.pipeQueues core quad q
      (∀ x ∈ qs, ∀ y ∈ x.2.2.2, y.started = false) → qs.find? (fun x => x.2.2.2 != []) = some (ph, t, hq, o :: rest) →
      o.aLeft = 0 → o.bLeft = 0 →
      ∃ s', exec (.matrixOpStart core quad q) s = .next s' ∧ s' = { s with wgs := s'.wgs, cores := s'.cores } ∧
        (∀ u, u ≠ t → s'.wg u = s.wg u) ∧ (∀ c, c ≠ core → s'.core c = s.core c) ∧ (s'.wg t).lanes = (s.wg t).lanes ∧
        (s'.wg t).slots = (s.wg t).slots ∧ (s'.wg t).mqueues.get hq = { o with started := true } :: rest ∧
        (∀ k, k ≠ hq → (s'.wg t).mqueues.get k = (s.wg t).mqueues.get k) ∧ (s'.core core).pipes.get (4 * quad + q) = (ph + 1) % 4) ∧
    (∀ t h q o rest, (s.wg t).mqueues.get (hqOf h q) = o :: rest → o.started = true → NoneForced s t → s.damage = [] →
      let key := slotKey h q o.slot
      let x := (s.wg t).slots.get key
      ∃ s', exec (.matrixOpComplete t h q) s = .next s' ∧ OnlyWg s s' t ∧ (s'.wg t).lanes = (s.wg t).lanes ∧
        (s'.wg t).mqueues.get (hqOf h q) = rest ∧ (∀ k, k ≠ key → (s'.wg t).slots.get k = (s.wg t).slots.get k) ∧
        (let y := (s'.wg t).slots.get key;
          y.owned = x.owned ∧ y.accf = x.accf ∧ (o.spoiled = true → y = x) ∧
          (o.spoiled = false → (o.kind = .mma ∨ o.kind = .mmas ∨ o.kind = .mmam → y.k = x.k + matK o.fmt.afmt) ∧
            (o.kind = .mmaz → y.k = matK o.fmt.afmt) ∧ (o.kind = .mmafin → y.k = 0 ∧ y.j = 0 ∧ y.bpos = 0) ∧
            (o.kind = .mmax → if x.bpos + 32 = 128 then y.bpos = 0 ∧ y.j = x.j + 1 else y.bpos = x.bpos + 32))) ∧
        ∀ b, (s.wg t).flags.getLsbD b = true → (s'.wg t).flags.getLsbD b = true) ∧
    (∀ d, s.shootdowns.find? (fun d => d.waits.contains core && s.mayAck core d) = some d →
      ∃ s', exec (.shootdownAck core) s = .next s' ∧ s' = { s with cores := s'.cores, shootdowns := s'.shootdowns } ∧
        (∀ x ∈ (s'.core core).tlb, d.tlb x = false) ∧ (∀ x ∈ (s.core core).tlb, d.tlb x = false → x ∈ (s'.core core).tlb) ∧
        (∀ x ∈ (s'.core core).maps, d.map x = false) ∧ (∀ x ∈ (s'.core core).descs, d.desc x = false) ∧
        (∀ x ∈ (s'.core core).recs, d.record x = false) ∧ (∀ c, c ≠ core → s'.core c = s.core c) ∧
        (∀ x ∈ s'.shootdowns, x.id = d.id → core ∉ x.waits ∧ x.waits ≠ []) ∧
        ∀ x ∈ s.shootdowns, x.id ≠ d.id → x.waits ≠ [] → x ∈ s'.shootdowns) ∧
    (∀ q x rest t o res, (s.core core).nextSorter = some q → s.sorterQ core q = x :: rest → (s.sortRow x).2 = some res → x.result = .win t o →
      (∀ u, NoneForced s u) → s.damage = [] →
      let r := s.sortRow x
      let bs := match res with
        | .inr (total, _) => bytesOfNat 4 total ++ bytesOfNat 4 0
        | .inl e => bytesOfNat 4 0 ++ bytesOfNat 4 e
      ∃ s', exec (.sorterEntry core q) s = .next s' ∧ (∀ a, ¬ InImage r.1 t a → s'.mem.get a = r.1.mem.get a) ∧ s'.sorterQ core q = rest ∧
        (∀ m, m ≠ q → s'.sorterQ core m = r.1.sorterQ core m) ∧ (s'.core core).sorterTurn = (q + 1) % 8 ∧
        (∀ u a, ((s'.wg u).win).get a =
          if u = t ∧ o ≤ a ∧ a < o + 8 then bs.getD (a - o) 0 else ((r.1.wg u).win).get a) ∧
        ∀ u l, ((s'.wg u).lane l) = ((r.1.wg u).lane l)) ∧
    (∀ u, let a := (s.core core).apprs.get u
      let a' := fun s' : State => (s'.core core).apprs.get u
      (s.apprLoads a ≠ [] → SMap.wf a.queues = true → ∃ s' p, p ∈ s.apprLoads a ∧ exec (.apprenticeLoadComplete core u) s = .next s' ∧
        match p with
        | none =>
          let r := s.readLanes a.wg a.crew a.ldLanes
          MemKept r.1 s' ∧
          (a' s').ld = none ∧ (a' s').queues = a.queues ∧ (a' s').st = a.st ∧
            ∀ d l, a.ld = some (d, l) → ∀ k, (a' s').w.get k = if k = d then r.2.get 0 else a.w.get k
        | some (q, k) => ∃ x, (a.queues.get q)[k]? = some x ∧
          (let r := s.readLanes a.wg a.crew x.lanes;
            MemKept r.1 s' ∧
            ((a' s').queues.get q)[k]? = some { x with data := r.2, pending := false, lanes := [] } ∧ (a' s').w = a.w ∧
            (∀ j, j ≠ k → ((a' s').queues.get q)[j]? = (a.queues.get q)[j]?) ∧ ∀ m, m ≠ q → (a' s').queues.get m = a.queues.get m)) ∧
      ∀ k m, a.st = .running → a.ld = none → a.clause = none → (s.wg a.wg).slotOf (a.pc / 4096) = some k →
        ((s.core core).istore.get k).st ≠ .fetching → s.codeBroken core k = false →
        s.segWords (s.wg a.wg) ((s.wg a.wg).crew a.crew).domain (a.pc / 4096) = some m →
        let h := (m.get (a.pc % 4096 / 4)).toNat
        let ws := wordsFrom m (a.pc + 4) (hCount h)
        ∃ s', exec (.apprenticeClauseFetch core u) s = .next s' ∧ OnlyCoreHere s s' core ∧ (a' s').queues = a.queues ∧ (a' s').w = a.w ∧
          (∀ v, v ≠ u → (s'.core core).apprs.get v = (s.core core).apprs.get v) ∧
          (∀ x, apprClauseCheck h (a.pc % 4096 / 4) ws = some x → (a' s').st = .ended ∧ (a' s').ecause = x) ∧
          (apprClauseCheck h (a.pc % 4096 / 4) ws = none → (a' s').st = .running ∧ ∃ r, (a' s').clause = some r ∧ r.base = a.pc ∧ r.pos = 0 ∧
            r.words.map BitVec.toNat = ws.map (· % 2 ^ 32) ∧ r.mac = none ∧
            (r.exec ≠ 0 ↔ ((hPred h = 0 ∨ a.p.getLsbD (hPred h) = true) ↔ hNeg h = false)))) ∧
    ∀ line, aperture (64 * line) = some 0 →
      let r := (s.stks.get (stackOfLine line)).race
      let live := (r.lines.get line).filter s.entryLive
      live ≠ [] → ∃ s', exec (.l2EvictSpill line) s = .next s' ∧ s' = { s with stks := s'.stks } ∧
        (let r' := (s'.stks.get (stackOfLine line)).race;
          r'.lines.get line = [] ∧ (∀ m, m ≠ line → r'.lines.get m = r.lines.get m) ∧
          ((∀ e ∈ live, (line, e) ∈ r'.spill) ∨ ∃ ivs, (line, ivs) ∈ r'.unchecked) ∧
          (((r.spill.filter fun p => s.entryLive p.2).length + live.length ≤ 4096) → ∀ e ∈ live, (line, e) ∈ r'.spill))
/-- NODE_READY, WORKGROUP_PLACE, WORKGROUP_COMPLETE, SEGMENT_LANDED, PREEMPT, PREEMPT_SAVE and RESTORE (spec/16 R384, R388-R390,
R395; spec/15 R375-R377, R379): a node whose predecessors have ended is ready, or is cancelled with STATUS 3; an instance is placed
with its lanes, crew, parameters and gangs at the entry, and record 0 is written to its slot; a workgroup that is over returns its
resources and is counted in its node; a fetched segment lands; a victim stops, is saved with its registers to its image, which holds
its barrier words and its window, and is restored with them. Stores that a release has passed are at their homes before a record is
written (R379) and before the lanes that see them leave their core (spec/10 R238). Memory that stands where record 0's slot cannot be
written is the model's reading (log 35), as are a cancellation once every predecessor has ended (log 34), the use of the image (log 32) and
what State keeps of a saved workgroup (log 33). -/
def Obligations.PlacementEventsHappen : Prop :=
  ∀ (s : State),
    (∀ id n, s.node? id = some n → n.ready = false → n.deps = [] → n.desc.windows.all (fun w => !s.virtHeld n.desc.domain true w.1 w.2) = true →
      let d := n.desc
      ((d.cancelf = false ∨ n.depBad = false) → ∃ s', exec (.nodeReady id) s = .next s' ∧ s'.node? id = some { n with ready := true } ∧
        (∀ k, k ≠ id → s'.node? k = s.node? k) ∧ (∀ a, s'.mem.get a = s.mem.get a ∨ s'.mem.get a = 0) ∧ (d.windows = [] → MemKept s s') ∧
        (∀ va k pa ty w su lv sz gl, d.windows = [(va, k)] → granules va k = [(va, k)] →
          s.walkMem d.domain true va = .ok pa ty w su lv sz gl → ∀ a, s'.mem.get a = if pa ≤ a ∧ a < pa + k then 0 else s.mem.get a) ∧
        (d.kind = 1 → (s'.pch (d.param 0 % 1024)).jobs = (s.pch (d.param 0 % 1024)).jobs ++ [id]) ∧
        (d.kind ≠ 1 → s'.pchs = s.pchs) ∧ ∀ u, (s'.wg u).lanes = (s.wg u).lanes) ∧
      (d.cancelf = true → n.depBad = true → s.endBlocked n [] = false →
        let s1 := s.sendHome (s.passed [.module])
        ∃ s', exec (.nodeReady id) s = .next s' ∧ s'.node? id = none ∧
          (∀ pa, s1.complAt d.domain d.compl = some pa → Stored s1 s' pa (bytesOfNat 64 (d.seq + 3 * 2 ^ 32))) ∧
          ∀ m ∈ s.pool.nodes, m.id ≠ id → ∃ m' ∈ s'.pool.nodes, m'.id = m.id ∧ m'.desc = m.desc ∧ id ∉ m'.deps ∧
            (id ∈ m.deps → m'.depBad = true) ∧ (id ∉ m.deps → m' = m))) ∧
    (∀ id n core, s.node? id = some n →
      let d := n.desc
      let x : Waiting := ⟨d.prio, d.domain, id, n.nextInst, none⟩
      s.waiting.contains x = true → s.mayPlace x core = true → s.placeHeld d = false →
      (d.cluster = true → ∃ s' m, exec (.workgroupPlace id core) s = .next s' ∧ s'.node? id = some m ∧ m.nextInst = n.nextInst + 4 ∧
        ∀ x, s.virtSpans false d.domain d.rectab 40 = .error x → MemKept s s') ∧
      ∀ t src ms, d.cluster = false → t = s.freeTag 0 → (s.wg t).life = .absent →
        (s.writeRecord0 d).virtSpans false d.domain d.entryVa 4096 = .ok src →
        (s.writeRecord0 d).virtSpans false d.domain d.mactab (512 * d.nmac) = .ok ms →
        ∃ s' m, exec (.workgroupPlace id core) s = .next s' ∧ s'.node? id = some m ∧ m.nextInst = n.nextInst + 1 ∧
          (∀ x, s.virtSpans false d.domain d.rectab 40 = .error x → MemKept s s') ∧
          (∀ b, s.virtSpans false d.domain d.rectab 40 = .ok [⟨.phys b, 40⟩] → Stored s s' b (bytesLE (d.record0.take 10))) ∧
          (∀ u, u ≠ t → s'.wg u = { s.wg u with crews := (s'.wg u).crews } ∧
            ∀ k, (s'.wg u).crew k = { (s.wg u).crew k with monitor := ((s'.wg u).crew k).monitor, flight := ((s'.wg u).crew k).flight }) ∧
          (∀ c, c ≠ core → s'.core c = s.core c) ∧
          (let w := s'.wg t;
            w.life = .resident ∧ w.node = id ∧ w.inst = n.nextInst ∧ w.core = core ∧ w.nlanes = d.lanes ∧ w.vregs = d.vregs ∧
            w.spad = 4096 * d.spad ∧ w.domain = d.domain ∧ w.win = [] ∧ w.flags = 0 ∧ w.rgwin = 64 ∧ w.yhold = 16 ∧
            (∀ l, l < d.lanes → w.lane l = { (default : Lane) with live := true, crew := some 0 }) ∧ (∀ l, d.lanes ≤ l → w.lane l = default) ∧
            (w.crew 0).held = true ∧ (w.crew 0).domain = d.domain ∧ (∀ k, k < 8 → ((w.crew 0).s.get k).toNat = d.param k) ∧
            (∀ g ∈ w.gangs, g.pc = d.entryPc ∧ g.clause = none ∧ g.park = none) ∧
            ∀ l, l < d.lanes → ∃ g ∈ w.gangs, g.hset = homeOf l ∧ g.mask.getLsbD (posOf l) = true)) ∧
    (∀ t, let w := s.wg t
      let s1 := s.sendHome (s.passed (s.agents t))
      w.isOver = true → s.stillNamed t = false → (∀ n, s.node? w.node = some n → s.endBlocked n (s.agents t) = false) →
      ∃ s', exec (.workgroupComplete t) s = .next s' ∧ s'.wg t = default ∧
        (NonePassed s → ∀ u, u ≠ t → (s'.wg u).lanes = (s.wg u).lanes) ∧
        ∀ n, s.node? w.node = some n →
          (n.progress + n.term + 1 < n.desc.ninst → MemKept s1 s' ∧ (∀ u, u ≠ t → (s'.wg u).lanes = (s1.wg u).lanes) ∧ ∃ m, s'.node? w.node = some m ∧ m.flags = n.flags ||| w.flags ∧
            (w.term = none → m.progress = n.progress + 1 ∧ m.term = n.term) ∧
            (w.term ≠ none → m.progress = n.progress ∧ m.term = n.term + 1)) ∧
          (n.desc.ninst ≤ n.progress + n.term + 1 → s'.node? w.node = none)) ∧
    (∀ core slot, let x := (s.core core).istore.get slot
      x.st = .fetching → (x.fromSpad = true → x.source = []) → x.source.any s.held = false → (∀ u, NoneForced s u) →
      ∃ s', exec (.segmentLanded core slot) s = .next s' ∧ MemKept s s' ∧ (∀ c, c ≠ core → s'.core c = s.core c) ∧
        (∀ k, k ≠ slot → (s'.core core).istore.get k = (s.core core).istore.get k) ∧ (∀ u l, (s'.wg u).lane l = (s.wg u).lane l) ∧
        (let y := (s'.core core).istore.get slot;
          y.st = .landed ∧ y.count = x.count ∧ y.tagDom = x.tagDom ∧ y.tagVa = x.tagVa ∧ y.fromSpad = x.fromSpad ∧
          (x.fromSpad = true → y.words = x.words) ∧
          ∀ a n k, x.fromSpad = false → x.source = [⟨.phys a, n⟩] → aperture a = some 0 → 4 * k + 4 ≤ n → (y.words.get k).toNat = s.rdNat (a + 4 * k) 4) ∧
        ∀ u, (s.wg u).core = core → (s.wg u).starting = some slot → (s'.wg u).starting = none) ∧
    (∀ t, let unit := s.unitOf t
      let kept := fun (s1 s' : State) (u l : Nat) =>
        let x := (s1.wg u).lane l
        let y := (s'.wg u).lane l
        y.v = x.v ∧ y.o = x.o ∧ y.p = x.p ∧ y.cf = x.cf ∧ y.fpmode = x.fpmode ∧ y.crew = x.crew ∧ y.live = x.live
      ((s.wg t).life = .resident → s.mayPreempt t = true → ∃ s', exec (.preempt t) s = .next s' ∧ s' = { s with wgs := s'.wgs } ∧
        ∀ u, s'.wg u = if u ∈ unit ∧ (s.wg u).life = .resident then { s.wg u with life := .stopping } else s.wg u) ∧
      (∀ s1, (s1 = s ∧ NonePassed s ∨ unit = [t] ∧ s1 = s.sendHome (s.passed (s.agents t))) →
        unit.all s.drainedOut = true → unit.any s.imageHeld = false → unit.Nodup → ∃ s', exec (.preemptSave t) s = .next s' ∧
        (∀ a, (∀ u ∈ unit, ¬ InImage s' u a) → s'.mem.get a = s1.mem.get a) ∧ WinKept s1 s' ∧ (∀ u l, kept s1 s' u l) ∧
        (∀ u ∈ unit, (s'.wg u).life = .saved ∧ (s'.wg u).l1 = [] ∧ (s'.wg u).windows = (s.wg u).windows ∧ (s'.wg u).macros = []) ∧
        (∀ u, u ∉ unit → (s'.wg u).gangs = (s.wg u).gangs ∧ (s'.wg u).life = (s.wg u).life) ∧
        ∀ n l, unit = [t] → s.node? (s.wg t).node = some n → n.desc.imageSize = (s.wg t).imagePart 7 →
          s.virtSpans true n.desc.domain (n.desc.save + (s.wg t).inst * n.desc.imageSize) n.desc.imageSize = .ok l →
          l.Pairwise (fun x y => x.meets y = false) → (s'.wg t).image = l ∧
            (∀ k, k < 16 → s'.rdSpans (spanCut l ((s.wg t).imagePart 4 + 16 * k) 16) = bytesOfNat 16 ((s'.wg t).barriers.get k).bits) ∧
            ∀ o, o < (s.wg t).spad → s'.rdSpans (spanCut l ((s.wg t).imagePart 6 + o) 1) = [(s1.wg t).win.get o]) ∧
      ∀ core n, let w := s.wg t
        s.node? w.node = some n → s.waiting.contains ⟨n.desc.prio, w.domain, w.node, w.inst, some t⟩ = true →
        s.mayPlace ⟨n.desc.prio, w.domain, w.node, w.inst, some t⟩ core = true → s.placeHeld n.desc = false →
        ∃ s', exec (.restore t core) s = .next s' ∧ MemKept s s' ∧ WinKept s s' ∧
          ((∀ u, some u ∈ (if w.cluster then w.sibs else [some t]) → (s.wg u).windows = []) → ∀ u l, kept s s' u l) ∧
          (w.cluster = false → (s'.wg t).life = .resident ∧ (s'.wg t).core = core ∧ (s'.wg t).image = [] ∧
            (SMap.wf w.barriers = true → ∀ k, (s'.wg t).barriers.get k = (w.barriers.get k).cycleEnd) ∧
            (w.windows = [] → (s'.wg t).gangs = w.gangs) ∧ (s'.wg t).slots = w.slots ∧ (s'.wg t).savedSegs = [] ∧
            (∀ c m, ((s'.wg t).crew c).monitor = some m → m.fired = true) ∧
            ∀ u, u ≠ t → s'.wg u = { s.wg u with crews := (s'.wg u).crews } ∧
              ∀ c, (s'.wg u).crew c = { (s.wg u).crew c with flight := ((s'.wg u).crew c).flight }))
/-- QUEUE_ENABLE, QUEUE_DISABLE, PACKET_START, PACKET_COMPLETE, ENGINE_SLOT_CLAIM and LINK (spec/12 R263-R265, R271-R275, R277, R282): a
queue is bound, or refused as the 257th; it is left; its next packet starts, with the status its checks give; a finished packet's
STATUS is written, WM rises with the packets below it, and the arrival is made; a stream COPY claims a slot, in the order in which the
COPYs into a stream have finished reading (spec/23 R458); a LINK names the ring. A queue that halts at a slot line that cannot be
written is the model's choice (log 47), as are a header that is bound as soon as it looks enabled, and a disable that waits for packets
(log 46), and the nominal bytes of an arrival (log 51). -/
def Obligations.QueueEventsHappen : Prop :=
  ∀ (s : State) (hdr : Nat), s.held ⟨.phys hdr, 64⟩ = false →
    let h := s.hdrBits hdr
    let status := fun (s' : State) (v : Nat) => qStatus (s'.hdrBits hdr) = v ∧ ∀ a, a ≠ hdr + 18 → s'.mem.get a = s.mem.get a
    (hdr % 64 = 0 → aperture hdr ≠ none → s.queue? hdr = none → qEnable h = true → qStatus h ≠ 2 →
      engineExists (qClass h) (qInst h) = true →
      (256 ≤ (s.queues.filter fun q => q.cls == qClass h && q.inst == qInst h).length →
        ∃ s', exec (.queueEnable hdr) s = .next s' ∧ status s' 2 ∧ s'.queues = s.queues) ∧
      ((s.queues.filter fun q => q.cls == qClass h && q.inst == qInst h).length < 256 →
        ∃ s' q, exec (.queueEnable hdr) s = .next s' ∧ status s' 1 ∧ s'.queues = s.queues ++ [q] ∧ q.hdr = hdr ∧ q.cls = qClass h ∧
          q.inst = qInst h ∧ q.domain = qDomain h ∧ q.ring = (qRing h, qLog h, qRingseq h) ∧ q.next = (qWm h + 1) % 2 ^ 32 ∧
          q.running = [] ∧ q.halted = false ∧ q.done = [])) ∧
    (qEnable h = false → (∀ q, s.queue? hdr = some q → q.running = []) →
      (∃ q, s.queue? hdr = some q) ∨ (hdr % 64 = 0 ∧ qStatus h = 2 ∧ engineExists (qClass h) (qInst h) = true) →
      ∃ s', exec (.queueDisable hdr) s = .next s' ∧ status s' 0 ∧ s'.queue? hdr = none ∧ ∀ q ∈ s.queues, q.hdr ≠ hdr → q ∈ s'.queues) ∧
    ∀ q, s.queue? hdr = some q →
      (q.halted = false → qEnable h = true → seqGe (qWridx h) q.next = true → (q.running.any fun p => p.op == 7 && !p.finished) = false →
        (∀ c lv tbl, s.walkMem q.domain true (q.slotVa q.next) = .fail c lv tbl →
          ∃ s', exec (.packetStart hdr) s = .next s' ∧ qStatus (s'.hdrBits hdr) = 3 ∧ s'.queue? hdr = some { q with halted := true } ∧
            ∀ a, a < hdr + 18 ∨ hdr + 33 ≤ a → s'.mem.get a = s.mem.get a) ∧
        ∀ pa w su lv sz gl s0, s.walkMem q.domain true (q.slotVa q.next) = .ok pa 0 w su lv sz gl → s.held ⟨.phys pa, 64⟩ = false →
          s.mcOf ⟨.phys pa, 64⟩ = none → s.rdNat pa 4 = q.next →
          let e : Packet := { (default : Packet) with seq := q.next, slot := pa, die := if q.cls = 0 then some q.inst else none }
          s.engSee e [⟨.phys pa, 64⟩] = .ok () s0 →
          let p0 : Packet := { e with words := wordsLE (s0.rdBytes pa 64) }
          let p := s0.enterColl { p0 with needsWg := p0.usesWg }
          let enters := fun (s1 : State) (P : Packet → Prop) => ∃ s' p1, exec (.packetStart hdr) s = .next s' ∧ MemKept s1 s' ∧
            s'.queue? hdr = some { q with next := (q.next + 1) % 2 ^ 32, running := q.running ++ [p1] } ∧ P p1
          (∀ c, s0.startStatus q.cls p = c → c ≠ 0 → enters s0 fun p1 => p1 = { p with finished := true, status := c }) ∧
          (s0.startStatus q.cls p = 0 → p.op ≠ 4 → p.op ≠ 5 → enters s0 fun p1 =>
            p1 = { (if p.op == 1 && p.stream && p.word 8 == 0 then s0.readDone p else p) with finished := p.work == 0 }) ∧
          (s0.startStatus q.cls p = 0 → p.op = 4 → enters s0 fun p1 => p1 = p ∧ p.ring = (List.range 64).map s0.regs.ring.get ∧
            p.bytes = p.collBytes s0.regs.ringpos.toNat) ∧
          ∀ l s1, s0.startStatus q.cls p = 0 → p.op = 5 → State.ckptBlocks p q.domain
            ((List.range (bits (p.word 3) 8 8)).map (bits (p.word 3) 0 8 + ·)) [] s0 = .ok l s1 → enters s1 fun p1 => p1 = { p with blocks := l }) ∧
      (∀ p, q.packet? p.seq = some p → p.finished = true → s.behind p (fun _ => true) = false → s.held ⟨.phys p.slot, 64⟩ = false →
        p.slot + 64 ≤ hdr ∨ hdr + 64 ≤ p.slot →
        let st := s.finalStatus p
        let wm := qWm h
        ∃ s' q', exec (.packetComplete hdr p.seq) s = .next s' ∧ s'.queue? hdr = some q' ∧ q'.running = q.running.filter (fun y => y.seq != p.seq) ∧
          (s'.mem.get (p.slot + 7)).toNat = st % 256 ∧
          (∀ a, a ≠ p.slot + 7 → (a < hdr + 4 ∨ hdr + 8 ≤ a) → (a < hdr + 28 ∨ hdr + 33 ≤ a) → s'.mem.get a = s.mem.get a) ∧
          (st ≠ 0 → st ≠ 8 → bits h 224 40 = 0 → bits (s'.hdrBits hdr) 224 40 = (p.seq + st * 2 ^ 32) % 2 ^ 40) ∧
          (q.done = [] → (p.seq = (wm + 1) % 2 ^ 32 → qWm (s'.hdrBits hdr) = p.seq ∧ q'.done = []) ∧
            (p.seq ≠ (wm + 1) % 2 ^ 32 → qWm (s'.hdrBits hdr) = wm ∧ q'.done = [p.seq])) ∧
          (∀ t, t = p.tgtWg → p.tgten = true → p.tgtOk = true → s.targetThere p = true → p.stream = false → (p.op ≠ 1 ∨ p.mask = 0) →
            p.op ≠ 7 → p.status ≠ 3 → (s'.wg t).barriers.get p.tgtReg = ((s.wg t).barriers.get p.tgtReg).add 1 p.nominal 0) ∧
          (∀ i, p.tgten = true → p.tgtOk = true → s.targetThere p = true → p.stream = true → p.op ≠ 7 → p.claimed = some i → p.status = 0 →
            let x := s.stream p.tgtWg p.tgtCrew p.tgtReg
            s'.stream p.tgtWg p.tgtCrew p.tgtReg = { x with newFull := x.newFull ++ [i] }) ∧
          (p.tgten = false → ∀ u, (s'.wg u).barriers = (s.wg u).barriers ∧ (s'.wg u).flags = (s.wg u).flags)) ∧
      (∀ p seq, s.workOf hdr seq 7 = some (q, p) →
        ∃ s' q', exec (.link hdr seq) s = .next s' ∧ s' = { s with queues := s'.queues } ∧ s'.queue? hdr = some q' ∧
          q'.ring = (p.dbl 4, p.word 6, (seq + 1) % 2 ^ 32) ∧ q'.packet? seq = some { p with finished := true, status := 0 } ∧
          q'.next = q.next ∧ q'.domain = q.domain) ∧
      ∀ p seq, s.workOf hdr seq 1 = some (q, p) → p.stream = true → p.claimed = none → p.word 8 ≤ 64 * p.units →
        let t := p.tgtWg
        let x := s.stream t p.tgtCrew p.tgtReg
        (s.targetThere p = false → PacketDid (exec (.engineSlotClaim hdr seq) s) s hdr seq fun p' => p'.finished = true ∧ p'.status = 3) ∧
        (s.targetThere p = true → 64 * x.ring.slotsz < p.word 8 →
          PacketDid (exec (.engineSlotClaim hdr seq) s) s hdr seq fun p' => p'.finished = true ∧ p'.status = 7) ∧
        ∀ i rest, s.targetThere p = true → p.word 8 ≤ 64 * x.ring.slotsz → s.behind p (fun y => y.claimed.isNone) = false →
          x.canClaim = i :: rest →
          ∃ s' q' p', exec (.engineSlotClaim hdr seq) s = .next s' ∧ MemKept s s' ∧ s'.queue? hdr = some q' ∧ q'.packet? seq = some p' ∧
            p'.claimed = some i ∧ p'.bound = x.ring.num ∧ p'.status = p.status ∧
            s'.stream t p.tgtCrew p.tgtReg = { x with newClaimed := x.newClaimed ++ [i] }

/-- COPY_PACKET, GATHER, QUANT2, COLL, CKPT and ASSAY (spec/12 R276-R281; spec/17 R414-R417; spec/24 R458): each unit of a packet's work whose
reads and writes are admitted is done, and the packet stands as it says; a write to device memory stores just its bytes; a clipped
index gives a row of zeros and STATUS 8; a member that is not active, or a contribution that is missing, STATUS 6, the latter with the
link's failure logged (spec/19 R445). The model's choices here: the layouts of COLL's gathering and scattering functions and its free bytes
(log 53), COPY's units of 64 bytes, all read before any is written (log 50), ASSAY in one step (log 55), the flags of QUANT2's scales
(log 52), what CKPT keeps of a row (log 54). -/
def Obligations.PacketsDoTheirWork : Prop :=
  ∀ (s : State) (hdr seq : Nat) (q : Queue) (p : Packet),
    let dom := q.domain
    (∀ a d bs pa ty w su lv sz gl s1, addrForm a = 0 → addrKind a = 0 → granules (a + d) bs.length = [(a + d, bs.length)] →
      s.engSee p (s.engLocs p dom a d bs.length) = .ok () s1 →
      s1.walkMem dom true (a + d) = .ok pa ty w su lv sz gl → s1.held ⟨.phys pa, bs.length⟩ = false → s1.mcOf ⟨.phys pa, bs.length⟩ = none →
      aperture pa = some 0 → ∃ s2, s.engWrite p dom a d bs = .ok () s2 ∧ Stored s1 s2 pa bs ∧ WinKept s1 s2) ∧
    (∀ a d bs u o s1, addrForm a = 0 → addrKind a = 1 → s.engSee p (s.engLocs p dom a d bs.length) = .ok () s1 →
      s1.targetGone p = false → s1.padAt p.tgtWg a (d + bs.length) = some (u, o) → s1.mcOf ⟨.win u (o + d), bs.length⟩ = none →
      ∃ s2, s.engWrite p dom a d bs = .ok () s2 ∧ (∀ y, ¬ InImage s1 u y → s2.mem.get y = s1.mem.get y) ∧
        ∀ v x, ((s2.wg v).win).get x = if v = u ∧ o + d ≤ x ∧ x < o + d + bs.length then bs.getD (x - (o + d)) 0 else ((s1.wg v).win).get x) ∧
    (s.workOf hdr seq 1 = some (q, p) →
      let n := p.word 8
      let total := (n + 63) / 64
      (∀ b s1, p.units < total → s.engRead p dom (p.dbl 4) (64 * p.units) (min 64 (n - 64 * p.units)) = .ok b s1 →
        PacketDid (exec (.copyPacket hdr seq) s) s1 hdr seq fun p' => p'.units = p.units + 1 ∧ p'.finished = false ∧
          ∀ a, p'.captured.get a = if 64 * p.units ≤ a ∧ a < 64 * p.units + b.length then b.getD (a - 64 * p.units) 0 else p.captured.get a) ∧
      (total ≤ p.units →
        let d := 64 * (p.units - total)
        let len := min 64 (n - d)
        let bs := (List.range len).map fun k => p.captured.get (d + k)
        let gone := fun p' : Packet => p'.units = p.units + 1 ∧ (p'.finished = true ↔ 2 * total ≤ p.units + 1) ∧ p'.status = p.status
        (∀ s2, p.stream = false → p.mask = 0 → s.copyBlur p dom (p.dbl 6) d bs = bs →
          ({ s with free := s.free + 64 } : State).engWrite p dom (p.dbl 6) d bs = .ok () s2 → PacketDid (exec (.copyPacket hdr seq) s) s2 hdr seq gone) ∧
        ∀ i u o s1, p.stream = true → p.claimed = some i → s.targetThere p = true → s.slotLoc p i d len = some (.win u o) →
          s.engSee p [⟨.win u o, len⟩] = .ok () s1 → s1.mcOf ⟨.win u o, len⟩ = none →
          ∃ s2, PacketDid (exec (.copyPacket hdr seq) s) s2 hdr seq gone ∧ (∀ y, ¬ InImage s1 u y → s2.mem.get y = s1.mem.get y) ∧
            ∀ v x, ((s2.wg v).win).get x = if v = u ∧ o ≤ x ∧ x < o + len then bs.getD (x - o) 0 else ((s1.wg v).win).get x)) ∧
    (s.workOf hdr seq 2 = some (q, p) → ∀ b r s0 s1 s2 s3,
      let rb := bits (p.word 3) 0 24
      let i := p.units
      let x := natOfBytes b
      (if i = 0 ∧ addrKind (p.dbl 4) = 1 then s.gatherCheck q p rb (List.range (p.word 8)) else .ok () s) = .ok () s0 →
      s0.engRead p dom (p.dbl 6) (4 * i) 4 = .ok b s1 →
      (if p.word 9 ≤ x then r = List.replicate rb 0 ∧ s2 = s1 else s1.engRead p dom (p.dbl 4) (x * rb) rb = .ok r s2) →
      s2.engWrite p dom (p.dbl 10) (i * rb) r = .ok () s3 →
      PacketDid (exec (.gather hdr seq) s) s3 hdr seq fun p' => p'.units = i + 1 ∧ (p'.finished = true ↔ p.word 8 ≤ i + 1) ∧
        p'.status = if p.word 9 ≤ x then 8 else p.status) ∧
    (s.workOf hdr seq 3 = some (q, p) → ∀ rows s1 s2,
      let w := p.word 3
      let es := quant2Size w
      let f := match bits w 0 2 with | 0 => fp32 | 1 => bf16 | _ => fp16
      s.quantRows q p (bits w 8 24) es (List.range 128) [] = .ok rows s1 →
      let vals : List (List FVal) := rows.map fun r => (chunks es 128 r).map fun b => f.decode (natOfBytes b)
      let line := quantLine (roundOf (BitVec.ofNat 2 (bits w 2 2))) (bitAt w 4)
      let qr := vals.map line
      let qc := (columnsOf 128 vals).map line
      let tile := fun l : List (List Nat) => l.flatMap fun r => r.map (BitVec.ofNat 8)
      let scales := fun l : List QuantLine => l.flatMap fun x => bytesOfNat 4 x.scale
      let fl := (qr ++ qc).foldl (fun a x => a ||| x.flags) 0
      let n := ((qr ++ qc).map (·.sat)).sum
      (s1.updPacket q.hdr p.seq fun x => { x with flags := fl, satcnt := n }).engWrites p dom [(p.dbl 6, 0, tile (qr.map (·.qs))),
        (p.dbl 8, 0, scales qr), (p.dbl 10, 0, tile (columnsOf 128 (qc.map (·.qs)))), (p.dbl 12, 0, scales qc)] = .ok () s2 →
      PacketDid (exec (.quant2 hdr seq) s) s2 hdr seq fun p' => p'.finished = true ∧ p'.status = p.status ∧ p'.flags = fl ∧ p'.satcnt = n) ∧
    (s.workOf hdr seq 4 = some (q, p) → ∀ outer,
      let w := p.word 3
      let own := s.regs.ringpos.toNat
      let n := p.word 8 * collSize w
      let nb := p.collBytes own
      let who := if bits w 0 4 = 3 then p.contributors.filter (· == bits w 7 6) else p.contributors
      let kept := fun (s1 : State) (f : FFlags) => s1.updPacket q.hdr p.seq fun x => { x with flags := f }
      (own ∉ p.actives → PacketDid (exec (.coll hdr seq outer) s) s hdr seq fun p' => p'.finished = true ∧ p'.status = 6 ∧ p'.bytes = nb) ∧
      ∀ cs s1 s2, own ∈ p.actives → s.contributions q p outer n who [] = .ok cs s1 →
        (none ∈ cs ∨ cs = [] → ∀ junk, junk = (List.range (p.collBytes own)).map (fun k => (Config.freeWord (s1.free + k)).setWidth 8) →
          let s0 := match collLost p who cs with | some e => s1.logMc 0xB3 (linkUnit e) 0 | none => s1
          ({ s0 with free := s1.free + p.collBytes own } : State).engWrite p dom (p.dbl 6) 0 junk = .ok () s2 →
          PacketDid (exec (.coll hdr seq outer) s) s2 hdr seq fun p' => p'.finished = true ∧ p'.status = 6 ∧ p'.bytes = nb) ∧
        (none ∉ cs → cs ≠ [] → bits w 0 4 = 0 →
          let r := collReduce (bits w 4 3) (collSize w) (p.word 8) (cs.filterMap id)
          (kept s1 r.2).engWrite p dom (p.dbl 6) 0 r.1 = .ok () s2 →
          PacketDid (exec (.coll hdr seq outer) s) s2 hdr seq fun p' => p'.finished = true ∧ p'.status = p.status ∧ p'.flags = r.2) ∧
        (none ∉ cs → cs ≠ [] → bits w 0 4 = 2 →
          let es := collSize w
          let sl := scatterSlice (p.word 8) p.actives.length ((p.actives.takeWhile (· != own)).length)
          let r := collReduce (bits w 4 3) es sl.2 ((cs.filterMap id).map fun c => (c.drop (es * sl.1)).take (es * sl.2))
          (kept s1 r.2).engWrite p dom (p.dbl 6) 0 r.1 = .ok () s2 →
          PacketDid (exec (.coll hdr seq outer) s) s2 hdr seq fun p' => p'.finished = true ∧ p'.status = p.status ∧ p'.flags = r.2) ∧
        (none ∉ cs → cs ≠ [] → bits w 0 4 = 1 ∨ bits w 0 4 = 3 → (kept s1 0).engWrite p dom (p.dbl 6) 0 ((cs.filterMap id).flatMap id) = .ok () s2 →
          PacketDid (exec (.coll hdr seq outer) s) s2 hdr seq fun p' => p'.finished = true ∧ p'.status = p.status)) ∧
    (s.workOf hdr seq 5 = some (q, p) → (∀ r ∈ s.ckptRows dom p, r ∈ p.seen) → ∀ bs s1 s2,
      s.ckptHash q p p.blocks.zipIdx [] = .ok bs s1 →
      let ch := bs.filter fun b => b.2.2.2.2
      let m := manifest (p.word 14) bs.length (ch.map fun b => (b.1, b.2.1))
      s1.padOutside p (p.dbl 8) (16 * bs.length) = false → s1.padOutside p (p.dbl 12) (65536 * ch.length) = false →
      s1.padOutside p (p.dbl 10) m.length = false →
      s1.engWrites p dom ([(p.dbl 8, 0, bs.flatMap fun b => b.2.2.2.1)] ++ (ch.zipIdx.map fun x => (p.dbl 12, 65536 * x.2, x.1.2.2.1)) ++
        [(p.dbl 10, 0, m)]) = .ok () s2 →
      PacketDid (exec (.ckpt hdr seq) s) s2 hdr seq fun p' => p'.finished = true ∧ p'.status = p.status) ∧
    (s.workOf hdr seq 6 = some (q, p) → ∀ tb conf cand mb cas s1 s2 s3 s4 s5 s6 s7,
      let npos := bits (p.word 3) 0 21
      let nb := (npos + 7) / 8
      let a := fun k => natOfBytes ((tb.drop (8 * k)).take 8)
      let tpos := bits (p.word 8) 0 16
      let tiles := bits (p.word 7) 24 8 * ((npos + tpos - 1) / tpos)
      let mark := bitAt (p.word 7) 2
      let uses : List AssayArray := [⟨0, a 0, 4 * npos, false⟩, ⟨1, a 1, 4 * npos, false⟩, ⟨2, a 2, 4 * npos, true⟩, ⟨3, a 3, nb, false⟩,
        ⟨4, a 4, nb, true⟩, ⟨5, a 5, (tiles + 7) / 8, true⟩, ⟨7, a 7, 16, true⟩] ++ (if mark then [⟨6, a 6, 8 * tiles, true⟩] else [])
      s.engRead p dom (p.dbl 10) 0 64 = .ok tb s1 → (∀ x ∈ uses, addrForm x.addr = 0 ∧ (addrKind x.addr = 1 → s1.targetGone p = false) ∧
        s1.padOutside p x.addr x.len = false) →
      s1.engRead p dom (a 0) 0 (4 * npos) = .ok conf s2 → s2.engRead p dom (a 1) 0 (4 * npos) = .ok cand s3 →
      s3.engRead p dom (a 3) 0 nb = .ok mb s4 →
      let r := assayRound npos (bits (p.word 4) 0 16) (p.word 5) (p.word 6) (fun k => (mb.getD (k / 8) 0).getLsbD (k % 8))
        (fun k => fp32.decode (natOfBytes ((conf.drop (4 * k)).take 4)))
      let fl : FFlags := if r.nan = [] then 0 else flIV
      (s4.updPacket q.hdr p.seq fun x => { x with flags := fl, nanscore := r.nan.length }).engWrites p dom (((sortNat r.commit).map fun k => (a 2, 4 * k, (cand.drop (4 * k)).take 4)) ++
        [(a 4, 0, bitBytes npos (r.masked.filter fun k => !r.commit.contains k)), (a 5, 0, bitBytes tiles (p.dirtyTiles r))]) = .ok () s5 →
      State.assaySwap p dom (a 6) (if mark then p.dirtyTiles r else []) 0 (s5.assayBlur p dom uses) = .ok cas s6 →
      s6.engWrite p dom (a 7) 0 (bytesOfNat 4 r.commit.length ++ bytesOfNat 4 r.masked.length ++ bytesOfNat 4 r.nan.length ++ bytesOfNat 4 cas) = .ok () s7 →
      PacketDid (exec (.assay hdr seq) s) (s7.assayBlur p dom uses) hdr seq (fun p' => p'.finished = true ∧ p'.nanscore = r.nan.length ∧
        p'.flags = fl) ∧
      (∀ k ∈ r.commit, k ∈ r.masked ∧ k ∉ r.nan) ∧
      r.commit.length = min (min (max ((bits (p.word 4) 0 16 * r.masked.length + 65535) / 65536) (p.word 5)) (p.word 6)) (r.masked.length - r.nan.length))
/-- SWEEP_STEP, CATCHUP_STEP, FORCED_ROW_APPLY, ALLBANK_ENTER, ALLBANK_EXIT, ALLBANK_TIMEOUT, BANK_JOB and PACKET_NODE (spec/13 R300, R311, R314,
R320, R323, R324, R328, R329; spec/16 R392, R393): once the rows hold what the units of the module see as performed, a step restores a row
in every bank and N rises; in all-bank mode, or behind postponed rows, it is postponed; forced rows are taken; the mode is entered, left
and taken away (ALLBANK_TIMEOUT at any moment while it is held is the model's choice, log 27); a bank job ends; a packet node claims,
publishes and ends. -/
def Obligations.BankEventsHappen : Prop :=
  ∀ (s : State) (g : Nat), let p := s.pch g
    let steps := fun (ev : Instr) (k : Nat) => ∀ s1, s.rowsSeen g = some s1 →
      let p := s1.pch g
      ∃ s', exec ev s = .next s' ∧ (s'.pch g).n = p.n + 1 ∧ (s'.pch g).postponed = p.postponed - k ∧
      (∀ m, m ≠ g → s'.pch m = s1.pch m) ∧ ((∀ i, i < 32 → (p.table.get i).state ≠ 1) → MemKept s1 s') ∧
      ((∀ i, i < 32 → (p.table.get i).colFirst + (p.table.get i).colLen ≤ 1024) → ∀ a,
        (∀ b, b < 16 → a < rowAddr g b (p.n.toNat % 65536) ∨ rowAddr g b (p.n.toNat % 65536) + 1024 ≤ a) → s'.mem.get a = s1.mem.get a) ∧
      ∀ i b, i < 32 → b < 16 → (p.table.get i).state = 1 → (p.table.get i).repeats = true → (p.table.get i).ackn ≠ p.n →
        (p.table.get i).covers b (p.n.toNat % 65536) = true → rowId b (p.n.toNat % 65536) ∈ ((s'.pch g).table.get i).applied
    (g < 1024 → p.held = false → p.postponed = 0 → steps (.sweepStep g) 0) ∧
    (g < 1024 → p.held = true ∨ 0 < p.postponed → ∃ s', exec (.sweepStep g) s = .next s' ∧ MemKept s s' ∧
      s'.pch g = { p with postponed := p.postponed + 1 } ∧ ∀ m, m ≠ g → s'.pch m = s.pch m) ∧
    (p.held = false → 0 < p.postponed → steps (.catchupStep g) 1) ∧
    (∀ s1, p.held = false → p.forcedNext ≠ [] → s.rowsSeen g = some s1 →
      ∃ s' f key, exec (.forcedRowApply g) s = .next s' ∧ (f, key) ∈ p.forcedNext ∧
      s'.mem = (s1.restoreRow g (key / 65536) (key % 65536) none).mem ∧ (s'.pch g).n = (s1.pch g).n ∧
      ∀ x ∈ (s'.pch g).forcings, x ∈ (s1.pch g).forcings ∨ (x.entry = f.entry ∧ x.num = f.num ∧ key ∉ x.rows)) ∧
    (∀ t x r i s2 c mask, (s.wg t).gangs = [x] → x.clause = some r → r.instr = some i → (∃ w o sc a d st, i = .st w o sc a d st) →
      (∃ l ∈ lanesOf x.hset x.mask, ((s.wg t).lane l).crew = some c) → x.park = some (.bank g) → (s.wg t).gangHeld x = false →
      s.quadBusy (s.wg t).core (quadOf x.hset) (t, x.id) = false → p.held = false → p.postponed = 0 → (t, c) ≠ jobOwner →
      exec i { (s.updGang t x.id fun y => { y with park := none, ages := List.replicate 8 0, clause := some { r with pend := r.pend } }) with
        agenda := .gang t x.id :: s.agenda } = .next s2 →
      (∀ y, (s2.wg t).gang? x.id = some y → y.park ≠ some (.bank g)) → (s2.pch g).ownedBy (t, c) = true → (s2.pch g).bankmask.toNat = mask →
      exec (.allbankEnter g t c mask) s = .next s2) ∧
    (∀ id rest n s1, p.held = false → p.postponed = 0 → p.job = none → p.jobs = id :: rest → s.node? id = some n → s.rowsSeen g = some s1 →
      ∃ s', exec (.allbankEnter g 0x1FFFFF 0 (n.desc.param 2)) s = .next s' ∧ exec (.bankJob g) s = .next s' ∧ MemKept s1 s' ∧
        (let q := s'.pch g;
          q.held = true ∧ q.owner.toNat = 0x1FFFFF ∧ q.ocrew = 0 ∧ q.bankmask.toNat = n.desc.param 2 % 65536 ∧ q.flags = 0 ∧ q.acc = [] ∧
          q.vec = [] ∧ q.opened = [] ∧ q.jobs = rest ∧ q.job = some { node := id, next := 0, entered := true } ∧ ∀ b, b < 16 → q.rows.get b = 0)) ∧
    (∀ n j, p.job = some j → s.node? j.node = some n → s.jobMayEnd g n = true →
      let ended := fun (ev : Instr) (reason : Option Nat) => ∃ s', exec ev s = .next s' ∧ (s'.pch g).held = false ∧ (s'.pch g).job = none ∧
        (∀ b, b < 16 → (s'.pch g).rows.get b = 0) ∧ (s'.pch g).reason = reason ∧ s'.node? n.id = none
      (s.jobAt n j = .finished → ended (.allbankExit g) p.reason ∧ ended (.bankJob g) p.reason) ∧
      (∀ c va, s.jobAt n j = .bad c va → ended (.bankJob g) (some 2)) ∧
      (∀ m, s.jobAt n j = .broken m → ended (.bankJob g) (some 2)) ∧
      (p.held = true → ended (.allbankTimeout g) (some 0))) ∧
    (p.held = true → p.job = none → ∃ s', exec (.allbankTimeout g) s = .next s' ∧ MemKept s s' ∧ (s'.pch g).held = false ∧
      (s'.pch g).reason = some 0 ∧ (s'.pch g).lost = p.lost ++ [(p.owner.toNat, p.ocrew.toNat, 0)] ∧ ∀ b, b < 16 → (s'.pch g).rows.get b = 0) ∧
    ∀ id n, s.node? id = some n → n.ready = true → n.desc.kind = 2 → let d := n.desc
      (∀ img pa, n.posted = none → s.virtHeld d.domain false d.code 64 = false → s.virtHeld d.domain true d.queueVa 64 = false →
        s.endBlocked n [] = false → s.rdVirt d.domain d.code 64 = .ok img → s.virtMc d.domain d.code 64 = none →
        d.queueVa % 64 = 0 → s.poolLine d.domain d.queueVa = .ok pa → s.mcOf ⟨.phys pa, 64⟩ = none → queueOk (s.hdrBits pa) d.domain = true →
        let seq := (qWridx (s.hdrBits pa) + 1) % 2 ^ 32
        ∃ s', exec (.packetNode id) s = .next s' ∧ Stored s s' pa (bytesOfNat 4 seq) ∧ s'.node? id = some { n with posted := some (pa, seq, none) }) ∧
      (∀ pa seq sp img, n.posted = some (pa, seq, none) → s.held ⟨.phys pa, 64⟩ = false →
        let h := s.hdrBits pa
        seqGe (qWm h) (slotFree h seq) = true → s.virtHeld d.domain true (slotVa h seq) 64 = false → s.virtHeld d.domain false d.code 64 = false →
        s.endBlocked n [] = false → s.poolLine d.domain (slotVa h seq) = .ok sp → s.rdVirt d.domain d.code 64 = .ok img →
        s.mcOf ⟨.phys sp, 64⟩ = none → s.virtMc d.domain d.code 64 = none →
        ∃ s', exec (.packetNode id) s = .next s' ∧ s'.node? id = some { n with posted := some (pa, seq, some sp) } ∧
          Stored s s' sp (bytesOfNat 64 (seq + bits (natOfBytes img) 32 24 * 2 ^ 32 + natOfBytes img / 2 ^ 64 * 2 ^ 64))) ∧
      ∀ pa seq sp, n.posted = some (pa, seq, some sp) → s.held ⟨.phys pa, 64⟩ = false → s.held ⟨.phys sp, 64⟩ = false →
        s.endBlocked n [] = false → seqGe (qWm (s.hdrBits pa)) seq = true →
        let st := s.rdNat (sp + 7) 1
        let u := s.updNode id fun m => if st = 0 ∨ st = 8 then { m with progress := 1 } else { m with term := 1, fcause := 0, finst := st, fva := 0 }
        let s1 := u.sendHome (u.passed [.module])
        ∃ s', exec (.packetNode id) s = .next s' ∧ s'.node? id = none ∧
          ∀ a, s1.complAt d.domain d.compl = some a → ∃ m, Stored s1 s' a (bytesOfNat 64 (complRecord (if st = 0 ∨ st = 8 then 1 else 2) m)) ∧
            m.desc = d ∧ m.term = (if st = 0 ∨ st = 8 then n.term else 1) ∧ m.progress = (if st = 0 ∨ st = 8 then 1 else n.progress) ∧
            m.finst = (if st = 0 ∨ st = 8 then n.finst else st)

/-- ACT, PRE, PASS, KPASS, MACR and CTL_WINDOW_WRITE as the entries of a bank job (spec/13 R302, R307-R309, R326, R327; spec/16 R392): rows open
and close; a pass writes each word of its window in every bank as its key, tags and masks say, and no other byte; MACR adds to its
accumulators; other stores write the window's registers; the job goes on to its next entry. -/
def Obligations.BankCommandsRun : Prop :=
  ∀ (s : State) (g : Nat) (n : Node) (j : BankJob), let p := s.pch g
    p.job = some j → s.node? j.node = some n → p.ownedBy jobOwner = true →
    let runs := fun (ev : Instr) (P : State → Prop) => ∃ s', exec ev s = .next s' ∧ exec (.bankJob g) s = .next s' ∧
      (s'.pch g).job = some { j with next := j.next + 1 } ∧ (∀ m, m ≠ g → s'.pch m = s.pch m) ∧ P s'
    let cmd := fun (ev : Instr) (c : BankCmd) (P : State → Prop) => ∀ v, s.jobAt n j = .entry 0x10 v → p.cmdCause v = none →
      bankCmd v = some c → runs ev P
    let start := fun b : Nat => rowAddr g b (p.rows.get b - 1)
    let passes := fun (w first len : Nat) (ps : PassSpec) (tagged : Nat → Nat → Bool) (s' : State) =>
      (∀ a, (∀ b ∈ p.banks, a < start b + first ∨ start b + first + len ≤ a) → s'.mem.get a = s.mem.get a) ∧
      ((∀ b, p.rows.get b ≤ 65536) → ∀ b ∈ p.banks, ∀ k, k < len / (w / 8) →
        let a := start b + first + k * (w / 8)
        let x := s.rdNat a (w / 8)
        let hit := (∀ i, i < w → ps.cmask.testBit i = true → x.testBit i = ps.key.testBit i) ∧
          (ps.tcond = 0 ∨ (tagged b (first + k * (w / 8)) = true ↔ ps.tcond = 1))
        (hit → ∀ i, i < w → (s'.rdNat a (w / 8)).testBit i = if ps.wr = true ∧ ps.wmask.testBit i = true then ps.pat.testBit i else x.testBit i) ∧
        (¬ hit → s'.rdNat a (w / 8) = x))
    (∀ row, cmd (.act g row) (.act row) fun s' => MemKept s s' ∧
      (∀ b ∈ p.banks, (s'.pch g).rows.get b = row + 1 ∧ (s'.pch g).tags.get b = []) ∧
      ∀ b, b ∉ p.banks → (s'.pch g).rows.get b = p.rows.get b ∧ (s'.pch g).tags.get b = p.tags.get b) ∧
    (cmd (.pre g) .pre fun s' => MemKept s s' ∧ (∀ b ∈ p.banks, (s'.pch g).rows.get b = 0) ∧
      ∀ b, b ∉ p.banks → (s'.pch g).rows.get b = p.rows.get b) ∧
    (∀ a ps, passOfSlot (p.passStore.get a.slot).toNat = some ps → cmd (.pass g a) (.pass a) fun s' =>
      passes (wsizeBits a.wsize) a.colFirst a.colLen ps (fun b o => (p.tags.get b).contains o) s' ∧ (s'.pch g).rows = p.rows) ∧
    (∀ a, cmd (.kpass g a) (.kpass a) fun s' => (s'.pch g).rows = p.rows ∧
      ∀ ps, (∀ b ∈ p.banks, passOfRegs (p.passRegs.get b).toNat a.tcond a.top a.wr = ps) →
        passes (wsizeBits a.wsize) a.colFirst a.colLen ps (fun _ _ => false) s') ∧
    (∀ a, cmd (.macr g a) (.macr a) fun s' => MemKept s s' ∧ (s'.pch g).rows = p.rows ∧ (s'.pch g).tags = p.tags ∧
      (∀ k, (∀ b ∈ p.banks, k < 64 * b + a.acc ∨ 64 * b + a.acc + a.nacc ≤ k) → (s'.pch g).acc.get k = p.acc.get k) ∧
      (∀ i, p.flags.getLsbD i = true → (s'.pch g).flags.getLsbD i = true) ∧
      ∀ b, p.banks = [b] → a.acc + a.nacc ≤ 64 → ∀ k, k < a.nacc → (s'.pch g).acc.get (64 * b + a.acc + k) =
        ((macrBank a.bf (s.rdBytes (start b) 1024) ((List.range 512).map fun t => p.vec.get (512 * b + t)) a.nacc a.len a.voff
          (64 * b + a.acc) p.acc).1).get (64 * b + a.acc + k)) ∧
    ∀ (off : Nat) (v : Dword), s.jobAt n j = .entry off v.toNat →
      (0x200 ≤ off ∧ off < 0x400 → runs (.ctlWindowWrite g off true v) fun s' => MemKept s s' ∧
        let b := (off - 0x200) / 32
        bits ((s'.pch g).passRegs.get b).toNat (8 * ((off - 0x200) % 32)) 64 = v.toNat ∧
          ∀ k, k ≠ b → (s'.pch g).passRegs.get k = p.passRegs.get k) ∧
      (0x1000 ≤ off ∧ off < 0x2000 → runs (.ctlWindowWrite g off true v) fun s' => MemKept s s' ∧
        let b := (off - 0x1000) / 64
        bits ((s'.pch g).passStore.get b).toNat (8 * ((off - 0x1000) % 64)) 64 = v.toNat ∧
          ∀ k, k ≠ b → (s'.pch g).passStore.get k = p.passStore.get k) ∧
      (0x2000 ≤ off ∧ off < 0x4000 → runs (.ctlWindowWrite g off true v) fun s' => MemKept s s' ∧
        ∀ a, (s'.pch g).vec.get a = if off - 0x2000 ≤ a ∧ a < off - 0x2000 + 8 then
          (bytesOfNat 8 v.toNat).getD (a - (off - 0x2000)) 0 else p.vec.get a)
/-- DOORBELL, DOORBELL_PAGE_STORE, MODULE_REGISTER_WRITE, LRTAIL_WRITE, HOST_ACCESS, REMOTE_ACCESS, BACK_INVALIDATE, HOST_SNOOP, LINK_TRAINING and
LINK_CRC_REPLAY (spec/19 R440-R443; spec/11 R259-R261; spec/09 R439): a doorbell raises its domain's vector; a register takes what its
row says of the writer; the pool takes the entries of the launch ring in order; an access from outside reads, or stores just its bytes. The
model's choices here: an entry of the launch ring that is not aligned is dropped (log 56); accesses from outside lie in one line, and what
the module keeps of host lines and takes from a BACK_INVALIDATE (log 57); feature numbers up to 12 (log 58); the address under which a CRC
replay is logged (log 31). Register writes by lanes are stores of theirs (O47). -/
def Obligations.HostAndLinkEventsHappen : Prop :=
  ∀ (s : State), s.pmc.heldReset = false → let r := s.regs
    (∀ d, d < 4096 → ∃ s', exec (.doorbell d) s = .next s' ∧ s' = { s with msix := s.msix ++ [s.hostvec d] }) ∧
    (∀ t c i l a bs, ((s.wg t).crew c).flight.find? (fun i => i.rings && s.mayPerform t i) = some i → (s.wg t).life = .resident →
      i.op = .store [⟨l, [(.phys a, bs)]⟩] → aperture a = some 3 → a % 4096 = 0 → i.stat = none →
      let s1 := s.sendHome (s.needsHome t i)
      let w := s1.wg t
      ∃ s' core, exec (.doorbellPageStore t c) s = .next s' ∧ MemKept s1 s' ∧ LaneRegsKept s1 s' t ∧ core = w.core ∧
        s'.msix = s1.msix ++ [s1.coreHostvec core (w.crew ((w.lane l).crew.getD c)).domain] ∧
        ∀ k, ∀ j ∈ ((s'.wg t).crew k).flight, j.id = i.id → j.done = true) ∧
    (∀ (who : RegWriter) off (v : Dword), who ≠ .lane → off ≠ 0 → off ≠ 0x30 → off % 8 = 0 → off < 4096 →
      ∃ s', exec (.moduleRegisterWrite who off v) s = .next s' ∧ s' = { s with regs := s'.regs } ∧
        s'.regs = { r with
          domtab := if off = 0x10 ∧ who = .pmc then v.toNat % 2 ^ 52 / 128 * 128 else r.domtab
          ringpos := if off = 0x18 ∧ who = .pmc then v.setWidth 6 else r.ringpos
          lrbase := if off = 0x20 then v.toNat % 2 ^ 52 / 64 * 64 else r.lrbase
          lrlog := if off = 0x28 then v.setWidth 5 else r.lrlog
          ring := s'.regs.ring } ∧
        ∀ k, s'.regs.ring.get k = if 0x400 ≤ off ∧ off < 0x800 ∧ k = (off - 0x400) / 16 then
          (if off / 8 % 2 = 0 then (r.ring.get k >>> 64 <<< 64) ||| (v &&& 0x3FFFFF000F).setWidth 128
            else (r.ring.get k &&& 0xFFFFFFFFFFFFFFFF) ||| ((v &&& 0xFFFFFFFFFFFFFF).setWidth 128 <<< 64)) else r.ring.get k) ∧
    (∀ v : Dword, let s1 : State := { s with regs := { r with lrtail := v } }
      let a := r.lrbase + 16 * (r.lrhead.toNat % 2 ^ r.lrlog.toNat)
      let e := natOfBytes (s1.homeLoad a 16)
      let va := bits e 0 56
      let dom := bits e 68 12
      (v = r.lrhead ∨ s.pool.opened = false → exec (.lrtailWrite v) s = .next s1) ∧
      (v = r.lrhead + 1 → s.pool.opened = true → s.held ⟨.phys a, 16⟩ = false → s1.virtHeld dom false va 128 = false →
        (va % 128 ≠ 0 → exec (.lrtailWrite v) s = .next { s1 with regs := { s1.regs with lrhead := v } }) ∧
        ∀ b, va % 128 = 0 → s1.rdVirt dom va 128 = .ok b → s1.acceptHeld dom (wordsLE b) = false →
          (s1.accept dom (wordsLE b)).2 ≠ 1 → ∃ s', exec (.lrtailWrite v) s = .next s' ∧ s'.regs = { s1.regs with lrhead := v } ∧
            s'.pool = (s1.accept dom (wordsLE b)).1.pool ∧ s'.mem = (s1.accept dom (wordsLE b)).1.mem)) ∧
    (∀ (x : ExtAccess) ev, (ev = .hostAccess x ∧ aperture x.range.1 ∈ [some 0, some 5, some 6] ∧ (x.isRead = true ∨ lineOf x.range.1 ∉ s.hostLines)) ∨
        (ev = .remoteAccess x ∧ aperture x.range.1 ∈ [some 0, some 4]) → x.inLine = true → s.held ⟨.phys x.range.1, x.range.2⟩ = false →
      ∃ s', exec ev s = .next s' ∧ WinKept s s' ∧ (∀ u, (s'.wg u).lanes = (s.wg u).lanes) ∧ s'.regs = r ∧
        match x with
        | .read .. => s' = s
        | .write a bs => Stored s s' a bs
        | .atomic op wide a b c =>
          let n := if wide then 8 else 4
          Stored s s' a (bytesOfNat n (atomNew op (8 * n) (s.rdNat a n) (b.toNat % 2 ^ (8 * n)) (c.toNat % 2 ^ (8 * n))).1)) ∧
    (∀ line bs, aperture (64 * line) = some 6 → bs.length = 64 → ∃ s', exec (.backInvalidate line bs) s = .next s' ∧ Stored s s' (64 * line) bs) ∧
    (∀ line, aperture (64 * line) = some 0 → exec (.backInvalidate line []) s = .next s) ∧
    (∀ line, line ∈ s.hostLines → ∃ s', exec (.hostSnoop line) s = .next s' ∧ s' = { s with hostLines := s'.hostLines } ∧
      ∀ k, k ∈ s'.hostLines ↔ k ∈ s.hostLines ∧ k ≠ line) ∧
    (∀ port fs, port < 2 → ∃ s', exec (.linkTraining port fs) s = .next s' ∧ s' = { s with pmc := { s.pmc with linked := s'.pmc.linked } } ∧
      (∀ f, f ∈ s'.pmc.linked.get port ↔ f ∈ fs ∧ f ≤ 12) ∧ ∀ k, k ≠ port → s'.pmc.linked.get k = s.pmc.linked.get k) ∧
    ∀ port, port < 64 → ∃ s', exec (.linkCrcReplay port) s = .next s' ∧
      s' = { s with pmc := { s.pmc with linkErrs := s'.pmc.linkErrs, corrected := s'.pmc.corrected, errLog := s.pmc.errLog ++ [(5, 0)] } } ∧
      (∀ k, s'.pmc.corrected.get k = s.pmc.corrected.get k + if k = 5 then 1 else 0) ∧
      s'.pmc.linkErrs.get port = s.pmc.linkErrs.get port + 1 ∧ ∀ k, k ≠ port → s'.pmc.linkErrs.get k = s.pmc.linkErrs.get k

/-- DRAM_CORRECTABLE_ERROR, SRAM_CORRECTABLE_ERROR, CLOCK_CHANGE, ISLAND_CLOCK_STOP, REFRESH_RATE_CHANGE, THERMAL_SHUTDOWN, THERMAL_RECOVERY,
MODULE_RESET, RECOVERY_IMAGE, LIFECYCLE_CHANGE and ATTESTATION_REQUEST (spec/19 R446-R453; spec/04 R80): errors are counted by row, a row with
four in one window is spared; clocks change and stop; heat terminates every workgroup and holds the module in reset; reset and
every life-cycle transition wipe; an image that verifies opens the pool, another leaves recovery; a report is signed. The model's choices
here: SRAM rows spared at the fourth error (log 59), the layout of digests and reports (log 60), what reset and life-cycle changes keep
(log 61), frame 64 and the recovery from heat (log 62), a CLOCK_CHANGE that starts a stopped island (log 63); the signature scheme is
FIPS 205's (log 74). -/
def Obligations.ModuleEventsHappen : Prop :=
  ∀ (s : State),
    let wiped := fun s' : State => (∀ a, s'.mem.get a = if aperture a = some 0 then 0 else s.mem.get a) ∧ s'.wgs = [] ∧ s'.queues = [] ∧
      s'.pool.nodes = [] ∧ s'.hostLines = [] ∧ s'.shootdowns = [] ∧
      (∀ c, (s'.core c).istore = [] ∧ (s'.core c).apprs = [] ∧ (s'.core c).tlb = [] ∧ (s'.core c).recs = []) ∧
      ∀ g, (s'.pch g).held = false ∧ (s'.pch g).table = [] ∧ (s'.pch g).jobs = [] ∧ (s'.pch g).rows = []
    let cold := fun s' : State => wiped s' ∧ (∀ g, (s'.pch g).n = 0) ∧ s'.islands = State.reset.islands ∧
      s'.regs = { State.reset.regs with lcstate := s.regs.lcstate, mclast := s.regs.mclast } ∧ s'.pmc.heldReset = false ∧ s'.pmc.reports = s.pmc.reports
    let boots := fun (s' : State) (f : Firmware) => if s.accepts f = true then
        s'.pmc.booted = true ∧ s'.pmc.recovery = false ∧ s'.pmc.version = f.version ∧ s'.pool.opened = true ∧ s'.pmc.measure = measurements f
      else s'.pmc.booted = false ∧ s'.pmc.recovery = true ∧ s'.pool.opened = false
    (s.pmc.heldReset = true → ∃ s', exec .thermalRecovery s = .next s' ∧ cold s' ∧ s'.pool.opened = false ∧ s'.pmc.booted = false) ∧
    (s.pmc.heldReset = false →
      (∀ g b row, g < 1024 → b < 16 → row < 65536 → ∃ s', exec (.dramCorrectableError g b row) s = .next s' ∧ MemKept s s' ∧
        (∀ m, m ≠ g → s'.pch m = s.pch m) ∧
        let p := s.pch g
        let k := rowId b row
        let e := p.errs.get k
        let w := p.n.toNat / 2 ^ 22
        let n := if e.1 = w then e.2 + 1 else 1
        (s'.pch g).errs.get k = (w, n) ∧ (k ∈ (s'.pch g).lasting ↔ k ∈ p.lasting ∨ 4 ≤ n) ∧ (s'.pch g).n = p.n) ∧
      (∀ c b row, c < 4096 → b < 32 → row < 128 → ∃ s', exec (.sramCorrectableError c b row) s = .next s' ∧ OnlyCoreHere s s' c ∧
        let k := b * 128 + row
        let e := (s.core c).sramErr.get k
        let w := (s.cycleOf c).toNat / 2 ^ 32
        let n := if e.1 = w then e.2 + 1 else 1
        let x := (s.core c).sramSpares.get b
        if 4 ≤ n ∧ x < 8 then (s'.core c).sramSpares.get b = x + 1 ∧ (s'.core c).sramErr.get k = default
        else (s'.core c).sramSpares.get b = x ∧ (s'.core c).sramErr.get k = (w, n)) ∧
      (∀ i mhz, i < 16 → 800 ≤ mhz → mhz ≤ 2200 → mhz % 25 = 0 → ∃ s', exec (.clockChange i mhz) s = .next s' ∧
        s' = { s with islands := s'.islands } ∧ s'.islands.get i = { s.islands.get i with mhz := mhz, stopped := false } ∧
        ∀ k, k ≠ i → s'.islands.get k = s.islands.get k) ∧
      (∀ i, i < 16 → (∀ p ∈ s.wgs, p.2.life.here = true → islandOf p.2.core ≠ i) → ∃ s', exec (.islandClockStop i) s = .next s' ∧
        s' = { s with islands := s'.islands } ∧ s'.islands.get i = { s.islands.get i with stopped := true } ∧
        ∀ k, k ≠ i → s'.islands.get k = s.islands.get k) ∧
      (∀ k hot, k < 16 → (s.stks.get k).hot ≠ hot → ∃ s', exec (.refreshRateChange k hot) s = .next s' ∧ s' = { s with stks := s'.stks } ∧
        s'.stks.get k = { s.stks.get k with hot := hot } ∧ ∀ j, j ≠ k → s'.stks.get j = s.stks.get j) ∧
      (∃ s', exec .thermalShutdown s = .next s' ∧ MemKept s s' ∧ s'.pmc.heldReset = true ∧ (∀ p ∈ s'.islands, p.2.stopped = true) ∧
        s'.regs.mccount = s.regs.mccount + 1 ∧
        ∀ t, (s.wg t).life.here = true → (s'.wg t).gangs = [] ∧ (∀ l, ((s'.wg t).lane l).live = false) ∧
          ((s.wg t).term = none → ∃ pc d va, (s'.wg t).term = some (0xB1, pc, d, va)) ∧
          (((s'.wg t).frames.get 64).hdr.get 0).toNat = 0xB1 ∧ (((s'.wg t).frames.get 64).hdr.get 8).toNat = 9) ∧
      (∀ f, ∃ s', exec (.moduleReset f) s = .next s' ∧ cold s' ∧ boots s' f) ∧
      (∀ f, s.pmc.recovery = true → ∃ s', exec (.recoveryImage f) s = .next s' ∧ boots s' f ∧ MemKept s s' ∧ s'.wgs = s.wgs ∧ s'.regs = s.regs) ∧
      (∀ a b, s.regs.lcstate.toNat = a → (a = 0 ∧ b = 1) ∨ (a = 1 ∧ b = 2) ∨ (a = 2 ∧ b = 1) ∨ (a ≠ 3 ∧ b = 3) →
        ∃ s', exec (.lifecycleChange b) s = .next s' ∧ wiped s' ∧ s'.regs.lcstate.toNat = b ∧ s'.regs = { s.regs with lcstate := s'.regs.lcstate } ∧
          (b = 3 → s'.pool.opened = false ∧ s'.pmc.booted = false)) ∧
      ∀ nonce : List Byte, nonce.length = 32 → ∃ s' body, exec (.attestationRequest nonce) s = .next s' ∧
        s' = { s with free := s.free + 32, pmc := { s.pmc with reports := s.pmc.reports ++
          [body ++ slhSign Config.identityKey body ((List.range 32).map fun k => (Config.freeWord (s.free + k)).setWidth 8)] } } ∧
        body = nonce ++ bytesOfNat 1 s.regs.lcstate.toNat ++ bytesOfNat 2 Config.modid.toNat ++ bytesOfNat 4 Config.rollback ++
          s.pmc.measure.flatMap id)
/-- DECODING IS RIGHT for words that the spec works out in full: one or more of each family, from the listings of spec/02, 03, 04,
06, 07, 08, 12, 13, 14, 15, 16 and 17. -/
def Obligations.DecodesSpecWords : Prop :=
  decodeWords [0x0800C082] = .ok (.iadd ⟨.s32, false, .v 3, .v 1, .v 2⟩, 1) ∧
  decodeWords [0x02000300, 0x00000100] = .ok (.movi .s32 false (.v 6) (.imm 0x100), 2) ∧
  decodeWords [0x04400600, 0x00000002] = .ok (.movs false (.v 12) .flags, 2) ∧
  decodeWords [0x38810080] = .ok (.vote .ballot false (.v 4) (.v 1), 1) ∧
  decodeWords [0x4000C0E2] = .ok (.fadd ⟨.f32, false, .v 3, .v 1, .o 2⟩, 1) ∧
  decodeWords [0x46104000, 0x05010203] = .ok (.ffma .f32 false (.static .rtz) (.v 5) (.v 1) (.v 2) (.v 3), 2) ∧
  decodeWords [0x88040C60, 0] = .ok (.mmaz 0 (.reg 16) (.reg 24) (.o 0), 2) ∧
  decodeWords [0xA8C0C202, 0] = .ok (.ldlk .b64 .cluster 1 (.v 4) (.v 2) (.imm 0), 2) ∧
  decodeWords [0xC08081C0, 0x05010900] =
    .ok (.ld .b32 .relaxed .crew false false (.off (.imm 5) (.v 7)) (.v 4) (some (.v 9)), 2) ∧
  decodeWords [0xE6104000, 0x03040800] = .ok (.copy true false (.v 3) (.v 4) 8, 2) ∧
  decodeWords [0xE8900000, 0x00031400] = .ok (.swwait (.v 3) (some (.v 20)), 2) ∧
  decodeWords [0xF007FFFB] = .ok (.bra 1 false (-5), 1) ∧
  decodeWords [0xF2C00003] = .ok (.trap 3, 1) ∧
  decodeWords [0xF6014103] = .ok (.join false (.v 5) (.v 2) (.v 3), 1) ∧
  decodeWords [0xF8000000, 0x00000011] = .ok (.gcall 17, 2) ∧
  decodeWords [0xF4900000, 0x0A020000] = .ok (.nodepost (.v 10) 2, 2) ∧
  decodeWords [0xFA520000, 0x00030000] = .ok (.apushBcld 0 (.v 3) (.v 0), 2)

/-- DECODE AND ENCODE AGREE, for every instruction that an encoding can hold: it has words, as many as its format gives it (spec/03
R50), each of 32 bits, and whatever words follow them, decoding gives back the instruction and its length. Decoding answers
nothing but such instructions. -/
def Obligations.DecodeEncodeAgree : Prop :=
  (∀ i : Instr, i.wf = true → ∃ ws, encode i = some ws ∧ ws.length = i.len ∧ (∀ w ∈ ws, w < 2 ^ 32) ∧
    ∀ rest, decodeWords (ws ++ rest) = .ok (i, ws.length)) ∧
  ∀ (ws : List Nat) (i : Instr) (n : Nat), decodeWords ws = .ok (i, n) → i.wf = true ∧ n = i.len ∧ n ≤ ws.length

/-- A STEP RUNS THE DECODED INSTRUCTION. In the turn of a gang that stands in a clause, a step is the meaning of the instruction that
the clause's words at its position decode to, or, in a macro body, of the operation at the body's position with the call's
selectors; in the turn of an Apprentice, that of its instruction, LD and EXIT in the Apprentice's own form (spec/17 R404); in
the turn of an event, that of the event with its turn taken; in the turn of an island clock, that island's cycle counter rises by
one (spec/04 R80), and, where no forced return and no trap waits to take place at the cycle's end, what the cycle has contributed to
barriers and written to crews' registers and streams takes effect there (spec/04 R76, spec/08 R188, spec/12 R284), and banks and registers
of the module stand; memory too, but for requests to be published and images of saved workgroups. With no turn left a step chooses one that may be taken, a gang taking its issue slot, or stops as idle
where there is none. After withFetchWord, a step runs the instruction of the word. The order of turns is the model's (log 1, log 5). -/
def Obligations.StepRunsDecoded : Prop :=
  (∀ (s : State) (t : Nat) (g : Gang) (r : ClauseRun) (i : Instr) (n : Nat), Stands s t g r →
    decodeWords ((r.words.drop r.pos).map BitVec.toNat) = .ok (i, n) → step s = exec i s ∧ i.wf = true ∧ n = i.len) ∧
  (∀ (s : State) (t : Nat) (g : Gang) (r : ClauseRun) (m : MacroRun) (p : Word × Word) (i : Instr),
    s.agenda = .gang t g.id :: s.agenda.tail → (s.wg t).gang? g.id = some g → g.clause = some r → r.mac = some m →
    m.ops[m.pos]? = some p → macroOp p.1 p.2 m.sels = .ok i → step s = exec i s) ∧
  (∀ (s : State) (c k : Nat) (r : ClauseRun) (i : Instr) (n : Nat), s.agenda = .appr c k :: s.agenda.tail →
    ((s.core c).apprs.get k).clause = some r → r.mac = none →
    decodeWords ((r.words.drop r.pos).map BitVec.toNat) = .ok (i, n) → step s = exec (apprInstr i) s) ∧
  (∀ (s : State) (i : Instr), s.agenda = .event i :: s.agenda.tail → step s = exec i (taken s)) ∧
  (∀ (s : State) (k : Nat), s.agenda = .tick k :: s.agenda.tail → ∃ s', step s = .next s' ∧ s'.agenda = s.agenda.tail ∧
    (s'.islands.get k).cycle = (s.islands.get k).cycle + 1 ∧ (∀ j, j ≠ k → s'.islands.get j = s.islands.get j) ∧
    (NothingDue s →
    (s.publishing = [] → (k ≠ 0 ∨ ∀ p ∈ s.wgs, p.2.life ≠ .saved) → MemKept s s') ∧
    (SMap.wf s.cores = true → ∀ c, s'.core c = if islandOf c = k then (s.core c).nextCycle else s.core c) ∧
    (∀ t, let w := s.wg t
      w.life.here = true → islandOf w.core = k →
        (SMap.wf w.barriers = true → ∀ n, (s'.wg t).barriers.get n = (w.barriers.get n).cycleEnd) ∧
        (SMap.wf w.crews = true → ∀ c, (s'.wg t).crew c = { (w.crew c).cycleEnd with monitor := ((s'.wg t).crew c).monitor })) ∧
    s'.pchs = s.pchs ∧ s'.regs = s.regs ∧ s'.queues = s.queues ∧ s'.pool = s.pool)) ∧
  (∀ s : State, s.agenda = [] → let s' : State := { s with free := s.free + 1 }
    (step s = match s'.pick with | some u => .next { s'.takeTurn u with agenda := [u] } | none => .fault .idle) ∧
      ∀ u, s'.pick = some u → u ∈ s'.turns ++ s'.outer) ∧
  ∀ (s : State) (nbits w : Nat) (i : Instr) (n : Nat), decodeWords [w % 2 ^ 32, w / 2 ^ 32 % 2 ^ 32] = .ok (i, n) →
    step (s.withFetchWord nbits w) = exec i (s.withFetchWord nbits w)

/-- WHAT RESET LEAVES, where the spec gives it: every byte of memory is zero and its list canonical (spec/19 R450); every
pseudo-channel's sweep counter is 0 (spec/13 R300), its table entries FREE, its registers, store, vectors and accumulators clear
(spec/13 R304), its STATUS that of R306 with REASON 3; no workgroup is resident, no queue enabled, no node posted, and the pool
closed until a firmware image is verified (spec/19 R451). That host, peer and tier memory, which R450 does not wipe, read zero too is the
model's choice (log 2), and so is it that the module registers read zero and no island is stopped (log 3). -/
def Obligations.ResetState : Prop :=
  let s := State.reset
  Memory.wf s.mem = true ∧ (∀ a, s.mem.get a = 0) ∧
  (∀ g, let p := s.pch g
    p.n = 0 ∧ p.held = false ∧ p.statusWord = 3 * 2 ^ 3 ∧ (∀ e, (p.table.get e).state = 0) ∧ (∀ k, p.passRegs.get k = 0) ∧
    (∀ k, p.passStore.get k = 0) ∧ (∀ a, p.vec.get a = 0) ∧ (∀ k, p.acc.get k = 0)) ∧
  (∀ t, (s.wg t).life = .absent) ∧ s.queues = [] ∧ s.pool.nodes = [] ∧ s.pool.opened = false ∧ s.pmc.booted = false ∧
  s.regs.mccount = 0 ∧ s.regs.lcstate = 0 ∧ s.regs.lrtail = s.regs.lrhead ∧
  ∀ k, (s.islands.get k).stopped = false ∧ (s.islands.get k).cycle = 0

/-- AN INVARIANT THAT EVERY STEP KEEPS: memory keeps its canonical form, addresses rising and no byte listed that reads as an
unlisted one does (log 2), whatever moves: an instruction, an engine, a bank, the host or the PMC. -/
def Obligations.StepKeepsMemory : Prop :=
  ∀ s s' : State, Memory.wf s.mem = true → step s = .next s' → Memory.wf s'.mem = true
end

