-- ==== Sys2Proof/Laws/Sparse.lean ====
section
/-! SUPPORT. The laws of sparse maps and of memory: a read after a write, what a write leaves alone, and the canonical form that
every operation keeps. -/

namespace Sys2Proof.Machine

open Sys2Proof

variable {β : Type} [Inhabited β] [DecidableEq β]

omit [Inhabited β] [DecidableEq β] in
theorem SMap.mem_drop {m : SMap β} {k : Nat} {p : Nat × β} : p ∈ SMap.drop m k → p ∈ m ∧ p.1 ≠ k := by
  induction m with
  | nil => simp [SMap.drop]
  | cons h t ih =>
    obtain ⟨a, b⟩ := h
    unfold SMap.drop
    split
    · intro hp; exact ⟨List.mem_cons_of_mem _ (ih hp).1, (ih hp).2⟩
    · intro hp
      rcases List.mem_cons.1 hp with rfl | hp
      · exact ⟨by simp, by assumption⟩
      · exact ⟨List.mem_cons_of_mem _ (ih hp).1, (ih hp).2⟩

omit [Inhabited β] [DecidableEq β] in
theorem SMap.mem_insert {m : SMap β} {k : Nat} {v : β} {p : Nat × β} :
    p ∈ SMap.insert m k v → p = (k, v) ∨ p ∈ m := by
  induction m with
  | nil => simp [SMap.insert]
  | cons h t ih =>
    obtain ⟨a, b⟩ := h
    unfold SMap.insert
    split
    · intro hp; simpa using hp
    · intro hp
      rcases List.mem_cons.1 hp with rfl | hp
      · simp
      · rcases ih hp with rfl | h
        · simp
        · exact Or.inr (List.mem_cons_of_mem _ h)

/-- The canonical form, as what it says of the entries. -/
theorem SMap.wf_cons {a : Nat} {b : β} {t : SMap β} :
    SMap.wf ((a, b) :: t) = true ↔ b ≠ default ∧ (∀ p ∈ t, a < p.1) ∧ SMap.wf t = true := by
  simp [SMap.wf, and_assoc]

theorem SMap.wf_filter (m : SMap β) (f : Nat × β → Bool) (h : SMap.wf m = true) : SMap.wf (m.filter f) = true := by
  induction m with
  | nil => simpa using h
  | cons x t ih =>
    obtain ⟨a, b⟩ := x
    rw [SMap.wf_cons] at h
    rw [List.filter_cons]
    split
    · rw [SMap.wf_cons]
      exact ⟨h.1, fun p hp => h.2.1 p (List.mem_filter.1 hp).1, ih h.2.2⟩
    · exact ih h.2.2

theorem SMap.wf_drop (m : SMap β) (k : Nat) (h : SMap.wf m = true) : SMap.wf (SMap.drop m k) = true := by
  induction m with
  | nil => simpa [SMap.drop] using h
  | cons x t ih =>
    obtain ⟨a, b⟩ := x
    rw [SMap.wf_cons] at h
    unfold SMap.drop
    split
    · exact ih h.2.2
    · rw [SMap.wf_cons]
      exact ⟨h.1, fun p hp => h.2.1 p (SMap.mem_drop hp).1, ih h.2.2⟩

theorem SMap.wf_insert (m : SMap β) (k : Nat) (v : β) (hv : v ≠ default) (hk : ∀ p ∈ m, p.1 ≠ k)
    (h : SMap.wf m = true) : SMap.wf (SMap.insert m k v) = true := by
  induction m with
  | nil => simp [SMap.insert, SMap.wf, hv]
  | cons x t ih =>
    obtain ⟨a, b⟩ := x
    rw [SMap.wf_cons] at h
    have hak : a ≠ k := hk (a, b) (by simp)
    unfold SMap.insert
    split
    · rename_i hlt
      rw [SMap.wf_cons]
      refine ⟨hv, ?_, SMap.wf_cons.2 h⟩
      intro p hp
      rcases List.mem_cons.1 hp with rfl | hp
      · exact hlt
      · exact Nat.lt_trans hlt (h.2.1 p hp)
    · rename_i hge
      rw [SMap.wf_cons]
      refine ⟨h.1, ?_, ih (fun p hp => hk p (List.mem_cons_of_mem _ hp)) h.2.2⟩
      intro p hp
      rcases SMap.mem_insert hp with rfl | hp
      · show a < k
        omega
      · exact h.2.1 p hp

/-- Writing keeps the canonical form. -/
theorem SMap.wf_set (m : SMap β) (k : Nat) (v : β) (h : SMap.wf m = true) : SMap.wf (SMap.set m k v) = true := by
  unfold SMap.set
  split
  · exact SMap.wf_drop m k h
  · exact SMap.wf_insert _ k v (by assumption) (fun p hp => (SMap.mem_drop hp).2) (SMap.wf_drop m k h)

/-- Changing an entry keeps the canonical form. -/
theorem SMap.wf_upd (m : SMap β) (k : Nat) (f : β → β) (h : SMap.wf m = true) : SMap.wf (SMap.upd m k f) = true :=
  SMap.wf_set m k _ h

omit [DecidableEq β] in
theorem SMap.get_drop (m : SMap β) (k j : Nat) : SMap.get (SMap.drop m k) j = if j = k then default else SMap.get m j := by
  induction m with
  | nil => simp [SMap.drop, SMap.get]
  | cons x t ih =>
    obtain ⟨a, b⟩ := x
    unfold SMap.drop
    split
    · rename_i hak
      rw [ih]
      by_cases hj : j = k
      · simp [hj]
      · simp only [hj, if_false]
        have : ¬ a = j := by omega
        simp [SMap.get, this]
    · rename_i hak
      by_cases haj : a = j
      · have : ¬ j = k := by omega
        simp [SMap.get, haj, this]
      · simp [SMap.get, haj, ih]

omit [DecidableEq β] in
theorem SMap.get_insert (m : SMap β) (k j : Nat) (v : β) (hk : ∀ p ∈ m, p.1 ≠ k) :
    SMap.get (SMap.insert m k v) j = if j = k then v else SMap.get m j := by
  induction m with
  | nil =>
    by_cases h : j = k
    · simp [SMap.insert, SMap.get, h]
    · have : ¬ k = j := by omega
      simp [SMap.insert, SMap.get, h, this]
  | cons x t ih =>
    obtain ⟨a, b⟩ := x
    have hak : a ≠ k := hk (a, b) (by simp)
    unfold SMap.insert
    split
    · by_cases h : j = k
      · simp [SMap.get, h]
      · have : ¬ k = j := by omega
        simp [SMap.get, h, this]
    · by_cases haj : a = j
      · have : ¬ j = k := by omega
        simp [SMap.get, haj, this]
      · simp [SMap.get, haj, ih (fun p hp => hk p (List.mem_cons_of_mem _ hp))]

/-- A read after a write. -/
theorem SMap.get_set (m : SMap β) (k j : Nat) (v : β) :
    SMap.get (SMap.set m k v) j = if j = k then v else SMap.get m j := by
  unfold SMap.set
  split
  · rename_i hv
    rw [SMap.get_drop, hv]
  · rw [SMap.get_insert _ _ _ _ (fun p hp => (SMap.mem_drop hp).2), SMap.get_drop]
    by_cases h : j = k <;> simp [h]

@[simp] theorem SMap.get_set_self (m : SMap β) (k : Nat) (v : β) : SMap.get (SMap.set m k v) k = v := by
  simp [SMap.get_set]

theorem SMap.get_set_ne (m : SMap β) {k j : Nat} (v : β) (h : j ≠ k) : SMap.get (SMap.set m k v) j = SMap.get m j := by
  simp [SMap.get_set, h]

@[simp] theorem SMap.get_upd_self (m : SMap β) (k : Nat) (f : β → β) : SMap.get (SMap.upd m k f) k = f (SMap.get m k) := by
  simp [SMap.upd]

theorem SMap.get_upd_ne (m : SMap β) {k j : Nat} (f : β → β) (h : j ≠ k) : SMap.get (SMap.upd m k f) j = SMap.get m j := by
  simp [SMap.upd, SMap.get_set, h]

/-! ### Memory -/

/-- Writing bytes keeps the canonical form. -/
theorem Memory.wf_write (m : Memory) (a : Nat) (bs : List Byte) (h : Memory.wf m = true) :
    Memory.wf (Memory.write m a bs) = true := by
  induction bs generalizing m a with
  | nil => simpa [Memory.write] using h
  | cons b t ih => exact ih _ _ (SMap.wf_set m a b h)

/-- A byte outside the written ones reads as before; a written one reads as written. -/
theorem Memory.get_write (m : Memory) (a : Nat) (bs : List Byte) (x : Nat) :
    SMap.get (Memory.write m a bs) x = if a ≤ x ∧ x < a + bs.length then bs.getD (x - a) 0 else SMap.get m x := by
  induction bs generalizing m a with
  | nil =>
    have : ¬ (a ≤ x ∧ x < a + ([] : List Byte).length) := by simp
    simp [Memory.write]
  | cons b t ih =>
    unfold Memory.write
    rw [ih, SMap.get_set]
    by_cases hx : x = a
    · subst hx
      simp
    · by_cases h1 : a + 1 ≤ x ∧ x < a + 1 + t.length
      · have h2 : a ≤ x ∧ x < a + (b :: t).length := by simp; omega
        rw [if_pos h1, if_pos h2]
        have : x - a = (x - (a + 1)) + 1 := by omega
        rw [this]
        simp
      · have h2 : ¬ (a ≤ x ∧ x < a + (b :: t).length) := by simp; omega
        rw [if_neg h1, if_neg hx, if_neg h2]

end Sys2Proof.Machine
end

