-- ==== Sys2Proof/Laws/State.lean ====
section
/-! SUPPORT. What each update of a part of the state changes and what it leaves: one lemma per field per update, and the reads of
a part after its update. -/

namespace Sys2Proof.Machine

open Sys2Proof

/-! ### Updates of the machine -/

@[simp] theorem State.updWg_mem (s : State) (t : Nat) (f : Workgroup → Workgroup) : (s.updWg t f).mem = s.mem := rfl
@[simp] theorem State.updWg_cores (s : State) (t : Nat) (f : Workgroup → Workgroup) : (s.updWg t f).cores = s.cores := rfl
@[simp] theorem State.updWg_pchs (s : State) (t : Nat) (f : Workgroup → Workgroup) : (s.updWg t f).pchs = s.pchs := rfl
@[simp] theorem State.updWg_stks (s : State) (t : Nat) (f : Workgroup → Workgroup) : (s.updWg t f).stks = s.stks := rfl
@[simp] theorem State.updWg_islands (s : State) (t : Nat) (f : Workgroup → Workgroup) : (s.updWg t f).islands = s.islands := rfl
@[simp] theorem State.updWg_queues (s : State) (t : Nat) (f : Workgroup → Workgroup) : (s.updWg t f).queues = s.queues := rfl
@[simp] theorem State.updWg_pool (s : State) (t : Nat) (f : Workgroup → Workgroup) : (s.updWg t f).pool = s.pool := rfl
@[simp] theorem State.updWg_regs (s : State) (t : Nat) (f : Workgroup → Workgroup) : (s.updWg t f).regs = s.regs := rfl
@[simp] theorem State.updWg_pmc (s : State) (t : Nat) (f : Workgroup → Workgroup) : (s.updWg t f).pmc = s.pmc := rfl
@[simp] theorem State.updWg_msix (s : State) (t : Nat) (f : Workgroup → Workgroup) : (s.updWg t f).msix = s.msix := rfl
@[simp] theorem State.updWg_hostLines (s : State) (t : Nat) (f : Workgroup → Workgroup) : (s.updWg t f).hostLines = s.hostLines := rfl
@[simp] theorem State.updWg_shootdowns (s : State) (t : Nat) (f : Workgroup → Workgroup) : (s.updWg t f).shootdowns = s.shootdowns := rfl
@[simp] theorem State.updWg_nextShoot (s : State) (t : Nat) (f : Workgroup → Workgroup) : (s.updWg t f).nextShoot = s.nextShoot := rfl
@[simp] theorem State.updWg_nextRing (s : State) (t : Nat) (f : Workgroup → Workgroup) : (s.updWg t f).nextRing = s.nextRing := rfl
@[simp] theorem State.updWg_nextPass (s : State) (t : Nat) (f : Workgroup → Workgroup) : (s.updWg t f).nextPass = s.nextPass := rfl
@[simp] theorem State.updWg_publishing (s : State) (t : Nat) (f : Workgroup → Workgroup) : (s.updWg t f).publishing = s.publishing := rfl
@[simp] theorem State.updWg_damage (s : State) (t : Nat) (f : Workgroup → Workgroup) : (s.updWg t f).damage = s.damage := rfl
@[simp] theorem State.updWg_free (s : State) (t : Nat) (f : Workgroup → Workgroup) : (s.updWg t f).free = s.free := rfl
@[simp] theorem State.updWg_agenda (s : State) (t : Nat) (f : Workgroup → Workgroup) : (s.updWg t f).agenda = s.agenda := rfl

@[simp] theorem State.setWg_mem (s : State) (t : Nat) (w : Workgroup) : (s.setWg t w).mem = s.mem := rfl
@[simp] theorem State.setWg_cores (s : State) (t : Nat) (w : Workgroup) : (s.setWg t w).cores = s.cores := rfl
@[simp] theorem State.setWg_pchs (s : State) (t : Nat) (w : Workgroup) : (s.setWg t w).pchs = s.pchs := rfl
@[simp] theorem State.setWg_stks (s : State) (t : Nat) (w : Workgroup) : (s.setWg t w).stks = s.stks := rfl
@[simp] theorem State.setWg_islands (s : State) (t : Nat) (w : Workgroup) : (s.setWg t w).islands = s.islands := rfl
@[simp] theorem State.setWg_queues (s : State) (t : Nat) (w : Workgroup) : (s.setWg t w).queues = s.queues := rfl
@[simp] theorem State.setWg_pool (s : State) (t : Nat) (w : Workgroup) : (s.setWg t w).pool = s.pool := rfl
@[simp] theorem State.setWg_regs (s : State) (t : Nat) (w : Workgroup) : (s.setWg t w).regs = s.regs := rfl
@[simp] theorem State.setWg_pmc (s : State) (t : Nat) (w : Workgroup) : (s.setWg t w).pmc = s.pmc := rfl
@[simp] theorem State.setWg_msix (s : State) (t : Nat) (w : Workgroup) : (s.setWg t w).msix = s.msix := rfl
@[simp] theorem State.setWg_hostLines (s : State) (t : Nat) (w : Workgroup) : (s.setWg t w).hostLines = s.hostLines := rfl
@[simp] theorem State.setWg_shootdowns (s : State) (t : Nat) (w : Workgroup) : (s.setWg t w).shootdowns = s.shootdowns := rfl
@[simp] theorem State.setWg_nextShoot (s : State) (t : Nat) (w : Workgroup) : (s.setWg t w).nextShoot = s.nextShoot := rfl
@[simp] theorem State.setWg_nextRing (s : State) (t : Nat) (w : Workgroup) : (s.setWg t w).nextRing = s.nextRing := rfl
@[simp] theorem State.setWg_nextPass (s : State) (t : Nat) (w : Workgroup) : (s.setWg t w).nextPass = s.nextPass := rfl
@[simp] theorem State.setWg_publishing (s : State) (t : Nat) (w : Workgroup) : (s.setWg t w).publishing = s.publishing := rfl
@[simp] theorem State.setWg_damage (s : State) (t : Nat) (w : Workgroup) : (s.setWg t w).damage = s.damage := rfl
@[simp] theorem State.setWg_free (s : State) (t : Nat) (w : Workgroup) : (s.setWg t w).free = s.free := rfl
@[simp] theorem State.setWg_agenda (s : State) (t : Nat) (w : Workgroup) : (s.setWg t w).agenda = s.agenda := rfl

@[simp] theorem State.updCore_mem (s : State) (c : Nat) (f : Core → Core) : (s.updCore c f).mem = s.mem := rfl
@[simp] theorem State.updCore_wgs (s : State) (c : Nat) (f : Core → Core) : (s.updCore c f).wgs = s.wgs := rfl
@[simp] theorem State.updCore_pchs (s : State) (c : Nat) (f : Core → Core) : (s.updCore c f).pchs = s.pchs := rfl
@[simp] theorem State.updCore_stks (s : State) (c : Nat) (f : Core → Core) : (s.updCore c f).stks = s.stks := rfl
@[simp] theorem State.updCore_islands (s : State) (c : Nat) (f : Core → Core) : (s.updCore c f).islands = s.islands := rfl
@[simp] theorem State.updCore_queues (s : State) (c : Nat) (f : Core → Core) : (s.updCore c f).queues = s.queues := rfl
@[simp] theorem State.updCore_pool (s : State) (c : Nat) (f : Core → Core) : (s.updCore c f).pool = s.pool := rfl
@[simp] theorem State.updCore_regs (s : State) (c : Nat) (f : Core → Core) : (s.updCore c f).regs = s.regs := rfl
@[simp] theorem State.updCore_pmc (s : State) (c : Nat) (f : Core → Core) : (s.updCore c f).pmc = s.pmc := rfl
@[simp] theorem State.updCore_msix (s : State) (c : Nat) (f : Core → Core) : (s.updCore c f).msix = s.msix := rfl
@[simp] theorem State.updCore_hostLines (s : State) (c : Nat) (f : Core → Core) : (s.updCore c f).hostLines = s.hostLines := rfl
@[simp] theorem State.updCore_shootdowns (s : State) (c : Nat) (f : Core → Core) : (s.updCore c f).shootdowns = s.shootdowns := rfl
@[simp] theorem State.updCore_nextShoot (s : State) (c : Nat) (f : Core → Core) : (s.updCore c f).nextShoot = s.nextShoot := rfl
@[simp] theorem State.updCore_nextRing (s : State) (c : Nat) (f : Core → Core) : (s.updCore c f).nextRing = s.nextRing := rfl
@[simp] theorem State.updCore_nextPass (s : State) (c : Nat) (f : Core → Core) : (s.updCore c f).nextPass = s.nextPass := rfl
@[simp] theorem State.updCore_publishing (s : State) (c : Nat) (f : Core → Core) : (s.updCore c f).publishing = s.publishing := rfl
@[simp] theorem State.updCore_damage (s : State) (c : Nat) (f : Core → Core) : (s.updCore c f).damage = s.damage := rfl
@[simp] theorem State.updCore_free (s : State) (c : Nat) (f : Core → Core) : (s.updCore c f).free = s.free := rfl
@[simp] theorem State.updCore_agenda (s : State) (c : Nat) (f : Core → Core) : (s.updCore c f).agenda = s.agenda := rfl

@[simp] theorem State.updPch_mem (s : State) (g : Nat) (f : Pch → Pch) : (s.updPch g f).mem = s.mem := rfl
@[simp] theorem State.updPch_cores (s : State) (g : Nat) (f : Pch → Pch) : (s.updPch g f).cores = s.cores := rfl
@[simp] theorem State.updPch_wgs (s : State) (g : Nat) (f : Pch → Pch) : (s.updPch g f).wgs = s.wgs := rfl
@[simp] theorem State.updPch_stks (s : State) (g : Nat) (f : Pch → Pch) : (s.updPch g f).stks = s.stks := rfl
@[simp] theorem State.updPch_islands (s : State) (g : Nat) (f : Pch → Pch) : (s.updPch g f).islands = s.islands := rfl
@[simp] theorem State.updPch_queues (s : State) (g : Nat) (f : Pch → Pch) : (s.updPch g f).queues = s.queues := rfl
@[simp] theorem State.updPch_pool (s : State) (g : Nat) (f : Pch → Pch) : (s.updPch g f).pool = s.pool := rfl
@[simp] theorem State.updPch_regs (s : State) (g : Nat) (f : Pch → Pch) : (s.updPch g f).regs = s.regs := rfl
@[simp] theorem State.updPch_pmc (s : State) (g : Nat) (f : Pch → Pch) : (s.updPch g f).pmc = s.pmc := rfl
@[simp] theorem State.updPch_msix (s : State) (g : Nat) (f : Pch → Pch) : (s.updPch g f).msix = s.msix := rfl
@[simp] theorem State.updPch_hostLines (s : State) (g : Nat) (f : Pch → Pch) : (s.updPch g f).hostLines = s.hostLines := rfl
@[simp] theorem State.updPch_shootdowns (s : State) (g : Nat) (f : Pch → Pch) : (s.updPch g f).shootdowns = s.shootdowns := rfl
@[simp] theorem State.updPch_nextShoot (s : State) (g : Nat) (f : Pch → Pch) : (s.updPch g f).nextShoot = s.nextShoot := rfl
@[simp] theorem State.updPch_nextRing (s : State) (g : Nat) (f : Pch → Pch) : (s.updPch g f).nextRing = s.nextRing := rfl
@[simp] theorem State.updPch_nextPass (s : State) (g : Nat) (f : Pch → Pch) : (s.updPch g f).nextPass = s.nextPass := rfl
@[simp] theorem State.updPch_publishing (s : State) (g : Nat) (f : Pch → Pch) : (s.updPch g f).publishing = s.publishing := rfl
@[simp] theorem State.updPch_damage (s : State) (g : Nat) (f : Pch → Pch) : (s.updPch g f).damage = s.damage := rfl
@[simp] theorem State.updPch_free (s : State) (g : Nat) (f : Pch → Pch) : (s.updPch g f).free = s.free := rfl
@[simp] theorem State.updPch_agenda (s : State) (g : Nat) (f : Pch → Pch) : (s.updPch g f).agenda = s.agenda := rfl

@[simp] theorem State.updGang_mem (s : State) (t g : Nat) (f : Gang → Gang) : (s.updGang t g f).mem = s.mem := rfl
@[simp] theorem State.updGang_cores (s : State) (t g : Nat) (f : Gang → Gang) : (s.updGang t g f).cores = s.cores := rfl
@[simp] theorem State.updGang_pchs (s : State) (t g : Nat) (f : Gang → Gang) : (s.updGang t g f).pchs = s.pchs := rfl
@[simp] theorem State.updGang_stks (s : State) (t g : Nat) (f : Gang → Gang) : (s.updGang t g f).stks = s.stks := rfl
@[simp] theorem State.updGang_islands (s : State) (t g : Nat) (f : Gang → Gang) : (s.updGang t g f).islands = s.islands := rfl
@[simp] theorem State.updGang_queues (s : State) (t g : Nat) (f : Gang → Gang) : (s.updGang t g f).queues = s.queues := rfl
@[simp] theorem State.updGang_pool (s : State) (t g : Nat) (f : Gang → Gang) : (s.updGang t g f).pool = s.pool := rfl
@[simp] theorem State.updGang_regs (s : State) (t g : Nat) (f : Gang → Gang) : (s.updGang t g f).regs = s.regs := rfl
@[simp] theorem State.updGang_pmc (s : State) (t g : Nat) (f : Gang → Gang) : (s.updGang t g f).pmc = s.pmc := rfl
@[simp] theorem State.updGang_msix (s : State) (t g : Nat) (f : Gang → Gang) : (s.updGang t g f).msix = s.msix := rfl
@[simp] theorem State.updGang_hostLines (s : State) (t g : Nat) (f : Gang → Gang) : (s.updGang t g f).hostLines = s.hostLines := rfl
@[simp] theorem State.updGang_shootdowns (s : State) (t g : Nat) (f : Gang → Gang) : (s.updGang t g f).shootdowns = s.shootdowns := rfl
@[simp] theorem State.updGang_nextShoot (s : State) (t g : Nat) (f : Gang → Gang) : (s.updGang t g f).nextShoot = s.nextShoot := rfl
@[simp] theorem State.updGang_nextRing (s : State) (t g : Nat) (f : Gang → Gang) : (s.updGang t g f).nextRing = s.nextRing := rfl
@[simp] theorem State.updGang_nextPass (s : State) (t g : Nat) (f : Gang → Gang) : (s.updGang t g f).nextPass = s.nextPass := rfl
@[simp] theorem State.updGang_publishing (s : State) (t g : Nat) (f : Gang → Gang) : (s.updGang t g f).publishing = s.publishing := rfl
@[simp] theorem State.updGang_damage (s : State) (t g : Nat) (f : Gang → Gang) : (s.updGang t g f).damage = s.damage := rfl
@[simp] theorem State.updGang_free (s : State) (t g : Nat) (f : Gang → Gang) : (s.updGang t g f).free = s.free := rfl
@[simp] theorem State.updGang_agenda (s : State) (t g : Nat) (f : Gang → Gang) : (s.updGang t g f).agenda = s.agenda := rfl

@[simp] theorem State.spent_mem (s : State) (n : Nat) : (s.spent n).mem = s.mem := rfl
@[simp] theorem State.spent_cores (s : State) (n : Nat) : (s.spent n).cores = s.cores := rfl
@[simp] theorem State.spent_wgs (s : State) (n : Nat) : (s.spent n).wgs = s.wgs := rfl
@[simp] theorem State.spent_pchs (s : State) (n : Nat) : (s.spent n).pchs = s.pchs := rfl
@[simp] theorem State.spent_stks (s : State) (n : Nat) : (s.spent n).stks = s.stks := rfl
@[simp] theorem State.spent_islands (s : State) (n : Nat) : (s.spent n).islands = s.islands := rfl
@[simp] theorem State.spent_queues (s : State) (n : Nat) : (s.spent n).queues = s.queues := rfl
@[simp] theorem State.spent_pool (s : State) (n : Nat) : (s.spent n).pool = s.pool := rfl
@[simp] theorem State.spent_regs (s : State) (n : Nat) : (s.spent n).regs = s.regs := rfl
@[simp] theorem State.spent_pmc (s : State) (n : Nat) : (s.spent n).pmc = s.pmc := rfl
@[simp] theorem State.spent_msix (s : State) (n : Nat) : (s.spent n).msix = s.msix := rfl
@[simp] theorem State.spent_hostLines (s : State) (n : Nat) : (s.spent n).hostLines = s.hostLines := rfl
@[simp] theorem State.spent_shootdowns (s : State) (n : Nat) : (s.spent n).shootdowns = s.shootdowns := rfl
@[simp] theorem State.spent_nextShoot (s : State) (n : Nat) : (s.spent n).nextShoot = s.nextShoot := rfl
@[simp] theorem State.spent_nextRing (s : State) (n : Nat) : (s.spent n).nextRing = s.nextRing := rfl
@[simp] theorem State.spent_nextPass (s : State) (n : Nat) : (s.spent n).nextPass = s.nextPass := rfl
@[simp] theorem State.spent_publishing (s : State) (n : Nat) : (s.spent n).publishing = s.publishing := rfl
@[simp] theorem State.spent_damage (s : State) (n : Nat) : (s.spent n).damage = s.damage := rfl
@[simp] theorem State.spent_agenda (s : State) (n : Nat) : (s.spent n).agenda = s.agenda := rfl

/-! ### Updates of a workgroup -/

@[simp] theorem Workgroup.updLane_life (w : Workgroup) (l : Nat) (f : Lane → Lane) : (w.updLane l f).life = w.life := rfl
@[simp] theorem Workgroup.updLane_node (w : Workgroup) (l : Nat) (f : Lane → Lane) : (w.updLane l f).node = w.node := rfl
@[simp] theorem Workgroup.updLane_inst (w : Workgroup) (l : Nat) (f : Lane → Lane) : (w.updLane l f).inst = w.inst := rfl
@[simp] theorem Workgroup.updLane_core (w : Workgroup) (l : Nat) (f : Lane → Lane) : (w.updLane l f).core = w.core := rfl
@[simp] theorem Workgroup.updLane_homes (w : Workgroup) (l : Nat) (f : Lane → Lane) : (w.updLane l f).homes = w.homes := rfl
@[simp] theorem Workgroup.updLane_nlanes (w : Workgroup) (l : Nat) (f : Lane → Lane) : (w.updLane l f).nlanes = w.nlanes := rfl
@[simp] theorem Workgroup.updLane_vregs (w : Workgroup) (l : Nat) (f : Lane → Lane) : (w.updLane l f).vregs = w.vregs := rfl
@[simp] theorem Workgroup.updLane_spad (w : Workgroup) (l : Nat) (f : Lane → Lane) : (w.updLane l f).spad = w.spad := rfl
@[simp] theorem Workgroup.updLane_l1code (w : Workgroup) (l : Nat) (f : Lane → Lane) : (w.updLane l f).l1code = w.l1code := rfl
@[simp] theorem Workgroup.updLane_cluster (w : Workgroup) (l : Nat) (f : Lane → Lane) : (w.updLane l f).cluster = w.cluster := rfl
@[simp] theorem Workgroup.updLane_sibs (w : Workgroup) (l : Nat) (f : Lane → Lane) : (w.updLane l f).sibs = w.sibs := rfl
@[simp] theorem Workgroup.updLane_base (w : Workgroup) (l : Nat) (f : Lane → Lane) : (w.updLane l f).base = w.base := rfl
@[simp] theorem Workgroup.updLane_gdepth (w : Workgroup) (l : Nat) (f : Lane → Lane) : (w.updLane l f).gdepth = w.gdepth := rfl
@[simp] theorem Workgroup.updLane_domain (w : Workgroup) (l : Nat) (f : Lane → Lane) : (w.updLane l f).domain = w.domain := rfl
@[simp] theorem Workgroup.updLane_nrec (w : Workgroup) (l : Nat) (f : Lane → Lane) : (w.updLane l f).nrec = w.nrec := rfl
@[simp] theorem Workgroup.updLane_nshape (w : Workgroup) (l : Nat) (f : Lane → Lane) : (w.updLane l f).nshape = w.nshape := rfl
@[simp] theorem Workgroup.updLane_codeVa (w : Workgroup) (l : Nat) (f : Lane → Lane) : (w.updLane l f).codeVa = w.codeVa := rfl
@[simp] theorem Workgroup.updLane_nseg (w : Workgroup) (l : Nat) (f : Lane → Lane) : (w.updLane l f).nseg = w.nseg := rfl
@[simp] theorem Workgroup.updLane_privBase (w : Workgroup) (l : Nat) (f : Lane → Lane) : (w.updLane l f).privBase = w.privBase := rfl
@[simp] theorem Workgroup.updLane_privSize (w : Workgroup) (l : Nat) (f : Lane → Lane) : (w.updLane l f).privSize = w.privSize := rfl
@[simp] theorem Workgroup.updLane_win (w : Workgroup) (l : Nat) (f : Lane → Lane) : (w.updLane l f).win = w.win := rfl
@[simp] theorem Workgroup.updLane_rgwin (w : Workgroup) (l : Nat) (f : Lane → Lane) : (w.updLane l f).rgwin = w.rgwin := rfl
@[simp] theorem Workgroup.updLane_yhold (w : Workgroup) (l : Nat) (f : Lane → Lane) : (w.updLane l f).yhold = w.yhold := rfl
@[simp] theorem Workgroup.updLane_flags (w : Workgroup) (l : Nat) (f : Lane → Lane) : (w.updLane l f).flags = w.flags := rfl
@[simp] theorem Workgroup.updLane_satcnt (w : Workgroup) (l : Nat) (f : Lane → Lane) : (w.updLane l f).satcnt = w.satcnt := rfl
@[simp] theorem Workgroup.updLane_nanscore (w : Workgroup) (l : Nat) (f : Lane → Lane) : (w.updLane l f).nanscore = w.nanscore := rfl
@[simp] theorem Workgroup.updLane_unchk (w : Workgroup) (l : Nat) (f : Lane → Lane) : (w.updLane l f).unchk = w.unchk := rfl
@[simp] theorem Workgroup.updLane_spill (w : Workgroup) (l : Nat) (f : Lane → Lane) : (w.updLane l f).spill = w.spill := rfl
@[simp] theorem Workgroup.updLane_crews (w : Workgroup) (l : Nat) (f : Lane → Lane) : (w.updLane l f).crews = w.crews := rfl
@[simp] theorem Workgroup.updLane_gangs (w : Workgroup) (l : Nat) (f : Lane → Lane) : (w.updLane l f).gangs = w.gangs := rfl
@[simp] theorem Workgroup.updLane_nextGang (w : Workgroup) (l : Nat) (f : Lane → Lane) : (w.updLane l f).nextGang = w.nextGang := rfl
@[simp] theorem Workgroup.updLane_nextItem (w : Workgroup) (l : Nat) (f : Lane → Lane) : (w.updLane l f).nextItem = w.nextItem := rfl
@[simp] theorem Workgroup.updLane_edges (w : Workgroup) (l : Nat) (f : Lane → Lane) : (w.updLane l f).edges = w.edges := rfl
@[simp] theorem Workgroup.updLane_windows (w : Workgroup) (l : Nat) (f : Lane → Lane) : (w.updLane l f).windows = w.windows := rfl
@[simp] theorem Workgroup.updLane_barriers (w : Workgroup) (l : Nat) (f : Lane → Lane) : (w.updLane l f).barriers = w.barriers := rfl
@[simp] theorem Workgroup.updLane_segs (w : Workgroup) (l : Nat) (f : Lane → Lane) : (w.updLane l f).segs = w.segs := rfl
@[simp] theorem Workgroup.updLane_savedSegs (w : Workgroup) (l : Nat) (f : Lane → Lane) : (w.updLane l f).savedSegs = w.savedSegs := rfl
@[simp] theorem Workgroup.updLane_macros (w : Workgroup) (l : Nat) (f : Lane → Lane) : (w.updLane l f).macros = w.macros := rfl
@[simp] theorem Workgroup.updLane_slots (w : Workgroup) (l : Nat) (f : Lane → Lane) : (w.updLane l f).slots = w.slots := rfl
@[simp] theorem Workgroup.updLane_mqueues (w : Workgroup) (l : Nat) (f : Lane → Lane) : (w.updLane l f).mqueues = w.mqueues := rfl
@[simp] theorem Workgroup.updLane_nextOp (w : Workgroup) (l : Nat) (f : Lane → Lane) : (w.updLane l f).nextOp = w.nextOp := rfl
@[simp] theorem Workgroup.updLane_l1 (w : Workgroup) (l : Nat) (f : Lane → Lane) : (w.updLane l f).l1 = w.l1 := rfl
@[simp] theorem Workgroup.updLane_frames (w : Workgroup) (l : Nat) (f : Lane → Lane) : (w.updLane l f).frames = w.frames := rfl
@[simp] theorem Workgroup.updLane_traps (w : Workgroup) (l : Nat) (f : Lane → Lane) : (w.updLane l f).traps = w.traps := rfl
@[simp] theorem Workgroup.updLane_nextTrap (w : Workgroup) (l : Nat) (f : Lane → Lane) : (w.updLane l f).nextTrap = w.nextTrap := rfl
@[simp] theorem Workgroup.updLane_gates (w : Workgroup) (l : Nat) (f : Lane → Lane) : (w.updLane l f).gates = w.gates := rfl
@[simp] theorem Workgroup.updLane_image (w : Workgroup) (l : Nat) (f : Lane → Lane) : (w.updLane l f).image = w.image := rfl
@[simp] theorem Workgroup.updLane_starting (w : Workgroup) (l : Nat) (f : Lane → Lane) : (w.updLane l f).starting = w.starting := rfl
@[simp] theorem Workgroup.updLane_term (w : Workgroup) (l : Nat) (f : Lane → Lane) : (w.updLane l f).term = w.term := rfl

@[simp] theorem Workgroup.updCrew_life (w : Workgroup) (c : Nat) (f : Crew → Crew) : (w.updCrew c f).life = w.life := rfl
@[simp] theorem Workgroup.updCrew_node (w : Workgroup) (c : Nat) (f : Crew → Crew) : (w.updCrew c f).node = w.node := rfl
@[simp] theorem Workgroup.updCrew_inst (w : Workgroup) (c : Nat) (f : Crew → Crew) : (w.updCrew c f).inst = w.inst := rfl
@[simp] theorem Workgroup.updCrew_core (w : Workgroup) (c : Nat) (f : Crew → Crew) : (w.updCrew c f).core = w.core := rfl
@[simp] theorem Workgroup.updCrew_homes (w : Workgroup) (c : Nat) (f : Crew → Crew) : (w.updCrew c f).homes = w.homes := rfl
@[simp] theorem Workgroup.updCrew_nlanes (w : Workgroup) (c : Nat) (f : Crew → Crew) : (w.updCrew c f).nlanes = w.nlanes := rfl
@[simp] theorem Workgroup.updCrew_vregs (w : Workgroup) (c : Nat) (f : Crew → Crew) : (w.updCrew c f).vregs = w.vregs := rfl
@[simp] theorem Workgroup.updCrew_spad (w : Workgroup) (c : Nat) (f : Crew → Crew) : (w.updCrew c f).spad = w.spad := rfl
@[simp] theorem Workgroup.updCrew_l1code (w : Workgroup) (c : Nat) (f : Crew → Crew) : (w.updCrew c f).l1code = w.l1code := rfl
@[simp] theorem Workgroup.updCrew_cluster (w : Workgroup) (c : Nat) (f : Crew → Crew) : (w.updCrew c f).cluster = w.cluster := rfl
@[simp] theorem Workgroup.updCrew_sibs (w : Workgroup) (c : Nat) (f : Crew → Crew) : (w.updCrew c f).sibs = w.sibs := rfl
@[simp] theorem Workgroup.updCrew_base (w : Workgroup) (c : Nat) (f : Crew → Crew) : (w.updCrew c f).base = w.base := rfl
@[simp] theorem Workgroup.updCrew_gdepth (w : Workgroup) (c : Nat) (f : Crew → Crew) : (w.updCrew c f).gdepth = w.gdepth := rfl
@[simp] theorem Workgroup.updCrew_domain (w : Workgroup) (c : Nat) (f : Crew → Crew) : (w.updCrew c f).domain = w.domain := rfl
@[simp] theorem Workgroup.updCrew_nrec (w : Workgroup) (c : Nat) (f : Crew → Crew) : (w.updCrew c f).nrec = w.nrec := rfl
@[simp] theorem Workgroup.updCrew_nshape (w : Workgroup) (c : Nat) (f : Crew → Crew) : (w.updCrew c f).nshape = w.nshape := rfl
@[simp] theorem Workgroup.updCrew_codeVa (w : Workgroup) (c : Nat) (f : Crew → Crew) : (w.updCrew c f).codeVa = w.codeVa := rfl
@[simp] theorem Workgroup.updCrew_nseg (w : Workgroup) (c : Nat) (f : Crew → Crew) : (w.updCrew c f).nseg = w.nseg := rfl
@[simp] theorem Workgroup.updCrew_privBase (w : Workgroup) (c : Nat) (f : Crew → Crew) : (w.updCrew c f).privBase = w.privBase := rfl
@[simp] theorem Workgroup.updCrew_privSize (w : Workgroup) (c : Nat) (f : Crew → Crew) : (w.updCrew c f).privSize = w.privSize := rfl
@[simp] theorem Workgroup.updCrew_win (w : Workgroup) (c : Nat) (f : Crew → Crew) : (w.updCrew c f).win = w.win := rfl
@[simp] theorem Workgroup.updCrew_rgwin (w : Workgroup) (c : Nat) (f : Crew → Crew) : (w.updCrew c f).rgwin = w.rgwin := rfl
@[simp] theorem Workgroup.updCrew_yhold (w : Workgroup) (c : Nat) (f : Crew → Crew) : (w.updCrew c f).yhold = w.yhold := rfl
@[simp] theorem Workgroup.updCrew_flags (w : Workgroup) (c : Nat) (f : Crew → Crew) : (w.updCrew c f).flags = w.flags := rfl
@[simp] theorem Workgroup.updCrew_satcnt (w : Workgroup) (c : Nat) (f : Crew → Crew) : (w.updCrew c f).satcnt = w.satcnt := rfl
@[simp] theorem Workgroup.updCrew_nanscore (w : Workgroup) (c : Nat) (f : Crew → Crew) : (w.updCrew c f).nanscore = w.nanscore := rfl
@[simp] theorem Workgroup.updCrew_unchk (w : Workgroup) (c : Nat) (f : Crew → Crew) : (w.updCrew c f).unchk = w.unchk := rfl
@[simp] theorem Workgroup.updCrew_spill (w : Workgroup) (c : Nat) (f : Crew → Crew) : (w.updCrew c f).spill = w.spill := rfl
@[simp] theorem Workgroup.updCrew_lanes (w : Workgroup) (c : Nat) (f : Crew → Crew) : (w.updCrew c f).lanes = w.lanes := rfl
@[simp] theorem Workgroup.updCrew_gangs (w : Workgroup) (c : Nat) (f : Crew → Crew) : (w.updCrew c f).gangs = w.gangs := rfl
@[simp] theorem Workgroup.updCrew_nextGang (w : Workgroup) (c : Nat) (f : Crew → Crew) : (w.updCrew c f).nextGang = w.nextGang := rfl
@[simp] theorem Workgroup.updCrew_nextItem (w : Workgroup) (c : Nat) (f : Crew → Crew) : (w.updCrew c f).nextItem = w.nextItem := rfl
@[simp] theorem Workgroup.updCrew_edges (w : Workgroup) (c : Nat) (f : Crew → Crew) : (w.updCrew c f).edges = w.edges := rfl
@[simp] theorem Workgroup.updCrew_windows (w : Workgroup) (c : Nat) (f : Crew → Crew) : (w.updCrew c f).windows = w.windows := rfl
@[simp] theorem Workgroup.updCrew_barriers (w : Workgroup) (c : Nat) (f : Crew → Crew) : (w.updCrew c f).barriers = w.barriers := rfl
@[simp] theorem Workgroup.updCrew_segs (w : Workgroup) (c : Nat) (f : Crew → Crew) : (w.updCrew c f).segs = w.segs := rfl
@[simp] theorem Workgroup.updCrew_savedSegs (w : Workgroup) (c : Nat) (f : Crew → Crew) : (w.updCrew c f).savedSegs = w.savedSegs := rfl
@[simp] theorem Workgroup.updCrew_macros (w : Workgroup) (c : Nat) (f : Crew → Crew) : (w.updCrew c f).macros = w.macros := rfl
@[simp] theorem Workgroup.updCrew_slots (w : Workgroup) (c : Nat) (f : Crew → Crew) : (w.updCrew c f).slots = w.slots := rfl
@[simp] theorem Workgroup.updCrew_mqueues (w : Workgroup) (c : Nat) (f : Crew → Crew) : (w.updCrew c f).mqueues = w.mqueues := rfl
@[simp] theorem Workgroup.updCrew_nextOp (w : Workgroup) (c : Nat) (f : Crew → Crew) : (w.updCrew c f).nextOp = w.nextOp := rfl
@[simp] theorem Workgroup.updCrew_l1 (w : Workgroup) (c : Nat) (f : Crew → Crew) : (w.updCrew c f).l1 = w.l1 := rfl
@[simp] theorem Workgroup.updCrew_frames (w : Workgroup) (c : Nat) (f : Crew → Crew) : (w.updCrew c f).frames = w.frames := rfl
@[simp] theorem Workgroup.updCrew_traps (w : Workgroup) (c : Nat) (f : Crew → Crew) : (w.updCrew c f).traps = w.traps := rfl
@[simp] theorem Workgroup.updCrew_nextTrap (w : Workgroup) (c : Nat) (f : Crew → Crew) : (w.updCrew c f).nextTrap = w.nextTrap := rfl
@[simp] theorem Workgroup.updCrew_gates (w : Workgroup) (c : Nat) (f : Crew → Crew) : (w.updCrew c f).gates = w.gates := rfl
@[simp] theorem Workgroup.updCrew_image (w : Workgroup) (c : Nat) (f : Crew → Crew) : (w.updCrew c f).image = w.image := rfl
@[simp] theorem Workgroup.updCrew_starting (w : Workgroup) (c : Nat) (f : Crew → Crew) : (w.updCrew c f).starting = w.starting := rfl
@[simp] theorem Workgroup.updCrew_term (w : Workgroup) (c : Nat) (f : Crew → Crew) : (w.updCrew c f).term = w.term := rfl

@[simp] theorem Workgroup.updGang_life (w : Workgroup) (g : Nat) (f : Gang → Gang) : (w.updGang g f).life = w.life := rfl
@[simp] theorem Workgroup.updGang_node (w : Workgroup) (g : Nat) (f : Gang → Gang) : (w.updGang g f).node = w.node := rfl
@[simp] theorem Workgroup.updGang_inst (w : Workgroup) (g : Nat) (f : Gang → Gang) : (w.updGang g f).inst = w.inst := rfl
@[simp] theorem Workgroup.updGang_core (w : Workgroup) (g : Nat) (f : Gang → Gang) : (w.updGang g f).core = w.core := rfl
@[simp] theorem Workgroup.updGang_homes (w : Workgroup) (g : Nat) (f : Gang → Gang) : (w.updGang g f).homes = w.homes := rfl
@[simp] theorem Workgroup.updGang_nlanes (w : Workgroup) (g : Nat) (f : Gang → Gang) : (w.updGang g f).nlanes = w.nlanes := rfl
@[simp] theorem Workgroup.updGang_vregs (w : Workgroup) (g : Nat) (f : Gang → Gang) : (w.updGang g f).vregs = w.vregs := rfl
@[simp] theorem Workgroup.updGang_spad (w : Workgroup) (g : Nat) (f : Gang → Gang) : (w.updGang g f).spad = w.spad := rfl
@[simp] theorem Workgroup.updGang_l1code (w : Workgroup) (g : Nat) (f : Gang → Gang) : (w.updGang g f).l1code = w.l1code := rfl
@[simp] theorem Workgroup.updGang_cluster (w : Workgroup) (g : Nat) (f : Gang → Gang) : (w.updGang g f).cluster = w.cluster := rfl
@[simp] theorem Workgroup.updGang_sibs (w : Workgroup) (g : Nat) (f : Gang → Gang) : (w.updGang g f).sibs = w.sibs := rfl
@[simp] theorem Workgroup.updGang_base (w : Workgroup) (g : Nat) (f : Gang → Gang) : (w.updGang g f).base = w.base := rfl
@[simp] theorem Workgroup.updGang_gdepth (w : Workgroup) (g : Nat) (f : Gang → Gang) : (w.updGang g f).gdepth = w.gdepth := rfl
@[simp] theorem Workgroup.updGang_domain (w : Workgroup) (g : Nat) (f : Gang → Gang) : (w.updGang g f).domain = w.domain := rfl
@[simp] theorem Workgroup.updGang_nrec (w : Workgroup) (g : Nat) (f : Gang → Gang) : (w.updGang g f).nrec = w.nrec := rfl
@[simp] theorem Workgroup.updGang_nshape (w : Workgroup) (g : Nat) (f : Gang → Gang) : (w.updGang g f).nshape = w.nshape := rfl
@[simp] theorem Workgroup.updGang_codeVa (w : Workgroup) (g : Nat) (f : Gang → Gang) : (w.updGang g f).codeVa = w.codeVa := rfl
@[simp] theorem Workgroup.updGang_nseg (w : Workgroup) (g : Nat) (f : Gang → Gang) : (w.updGang g f).nseg = w.nseg := rfl
@[simp] theorem Workgroup.updGang_privBase (w : Workgroup) (g : Nat) (f : Gang → Gang) : (w.updGang g f).privBase = w.privBase := rfl
@[simp] theorem Workgroup.updGang_privSize (w : Workgroup) (g : Nat) (f : Gang → Gang) : (w.updGang g f).privSize = w.privSize := rfl
@[simp] theorem Workgroup.updGang_win (w : Workgroup) (g : Nat) (f : Gang → Gang) : (w.updGang g f).win = w.win := rfl
@[simp] theorem Workgroup.updGang_rgwin (w : Workgroup) (g : Nat) (f : Gang → Gang) : (w.updGang g f).rgwin = w.rgwin := rfl
@[simp] theorem Workgroup.updGang_yhold (w : Workgroup) (g : Nat) (f : Gang → Gang) : (w.updGang g f).yhold = w.yhold := rfl
@[simp] theorem Workgroup.updGang_flags (w : Workgroup) (g : Nat) (f : Gang → Gang) : (w.updGang g f).flags = w.flags := rfl
@[simp] theorem Workgroup.updGang_satcnt (w : Workgroup) (g : Nat) (f : Gang → Gang) : (w.updGang g f).satcnt = w.satcnt := rfl
@[simp] theorem Workgroup.updGang_nanscore (w : Workgroup) (g : Nat) (f : Gang → Gang) : (w.updGang g f).nanscore = w.nanscore := rfl
@[simp] theorem Workgroup.updGang_unchk (w : Workgroup) (g : Nat) (f : Gang → Gang) : (w.updGang g f).unchk = w.unchk := rfl
@[simp] theorem Workgroup.updGang_spill (w : Workgroup) (g : Nat) (f : Gang → Gang) : (w.updGang g f).spill = w.spill := rfl
@[simp] theorem Workgroup.updGang_lanes (w : Workgroup) (g : Nat) (f : Gang → Gang) : (w.updGang g f).lanes = w.lanes := rfl
@[simp] theorem Workgroup.updGang_crews (w : Workgroup) (g : Nat) (f : Gang → Gang) : (w.updGang g f).crews = w.crews := rfl
@[simp] theorem Workgroup.updGang_nextGang (w : Workgroup) (g : Nat) (f : Gang → Gang) : (w.updGang g f).nextGang = w.nextGang := rfl
@[simp] theorem Workgroup.updGang_nextItem (w : Workgroup) (g : Nat) (f : Gang → Gang) : (w.updGang g f).nextItem = w.nextItem := rfl
@[simp] theorem Workgroup.updGang_edges (w : Workgroup) (g : Nat) (f : Gang → Gang) : (w.updGang g f).edges = w.edges := rfl
@[simp] theorem Workgroup.updGang_windows (w : Workgroup) (g : Nat) (f : Gang → Gang) : (w.updGang g f).windows = w.windows := rfl
@[simp] theorem Workgroup.updGang_barriers (w : Workgroup) (g : Nat) (f : Gang → Gang) : (w.updGang g f).barriers = w.barriers := rfl
@[simp] theorem Workgroup.updGang_segs (w : Workgroup) (g : Nat) (f : Gang → Gang) : (w.updGang g f).segs = w.segs := rfl
@[simp] theorem Workgroup.updGang_savedSegs (w : Workgroup) (g : Nat) (f : Gang → Gang) : (w.updGang g f).savedSegs = w.savedSegs := rfl
@[simp] theorem Workgroup.updGang_macros (w : Workgroup) (g : Nat) (f : Gang → Gang) : (w.updGang g f).macros = w.macros := rfl
@[simp] theorem Workgroup.updGang_slots (w : Workgroup) (g : Nat) (f : Gang → Gang) : (w.updGang g f).slots = w.slots := rfl
@[simp] theorem Workgroup.updGang_mqueues (w : Workgroup) (g : Nat) (f : Gang → Gang) : (w.updGang g f).mqueues = w.mqueues := rfl
@[simp] theorem Workgroup.updGang_nextOp (w : Workgroup) (g : Nat) (f : Gang → Gang) : (w.updGang g f).nextOp = w.nextOp := rfl
@[simp] theorem Workgroup.updGang_l1 (w : Workgroup) (g : Nat) (f : Gang → Gang) : (w.updGang g f).l1 = w.l1 := rfl
@[simp] theorem Workgroup.updGang_frames (w : Workgroup) (g : Nat) (f : Gang → Gang) : (w.updGang g f).frames = w.frames := rfl
@[simp] theorem Workgroup.updGang_traps (w : Workgroup) (g : Nat) (f : Gang → Gang) : (w.updGang g f).traps = w.traps := rfl
@[simp] theorem Workgroup.updGang_nextTrap (w : Workgroup) (g : Nat) (f : Gang → Gang) : (w.updGang g f).nextTrap = w.nextTrap := rfl
@[simp] theorem Workgroup.updGang_gates (w : Workgroup) (g : Nat) (f : Gang → Gang) : (w.updGang g f).gates = w.gates := rfl
@[simp] theorem Workgroup.updGang_image (w : Workgroup) (g : Nat) (f : Gang → Gang) : (w.updGang g f).image = w.image := rfl
@[simp] theorem Workgroup.updGang_starting (w : Workgroup) (g : Nat) (f : Gang → Gang) : (w.updGang g f).starting = w.starting := rfl
@[simp] theorem Workgroup.updGang_term (w : Workgroup) (g : Nat) (f : Gang → Gang) : (w.updGang g f).term = w.term := rfl

@[simp] theorem Workgroup.dropGang_life (w : Workgroup) (g : Nat) : (w.dropGang g).life = w.life := rfl
@[simp] theorem Workgroup.dropGang_node (w : Workgroup) (g : Nat) : (w.dropGang g).node = w.node := rfl
@[simp] theorem Workgroup.dropGang_inst (w : Workgroup) (g : Nat) : (w.dropGang g).inst = w.inst := rfl
@[simp] theorem Workgroup.dropGang_core (w : Workgroup) (g : Nat) : (w.dropGang g).core = w.core := rfl
@[simp] theorem Workgroup.dropGang_homes (w : Workgroup) (g : Nat) : (w.dropGang g).homes = w.homes := rfl
@[simp] theorem Workgroup.dropGang_nlanes (w : Workgroup) (g : Nat) : (w.dropGang g).nlanes = w.nlanes := rfl
@[simp] theorem Workgroup.dropGang_vregs (w : Workgroup) (g : Nat) : (w.dropGang g).vregs = w.vregs := rfl
@[simp] theorem Workgroup.dropGang_spad (w : Workgroup) (g : Nat) : (w.dropGang g).spad = w.spad := rfl
@[simp] theorem Workgroup.dropGang_l1code (w : Workgroup) (g : Nat) : (w.dropGang g).l1code = w.l1code := rfl
@[simp] theorem Workgroup.dropGang_cluster (w : Workgroup) (g : Nat) : (w.dropGang g).cluster = w.cluster := rfl
@[simp] theorem Workgroup.dropGang_sibs (w : Workgroup) (g : Nat) : (w.dropGang g).sibs = w.sibs := rfl
@[simp] theorem Workgroup.dropGang_base (w : Workgroup) (g : Nat) : (w.dropGang g).base = w.base := rfl
@[simp] theorem Workgroup.dropGang_gdepth (w : Workgroup) (g : Nat) : (w.dropGang g).gdepth = w.gdepth := rfl
@[simp] theorem Workgroup.dropGang_domain (w : Workgroup) (g : Nat) : (w.dropGang g).domain = w.domain := rfl
@[simp] theorem Workgroup.dropGang_nrec (w : Workgroup) (g : Nat) : (w.dropGang g).nrec = w.nrec := rfl
@[simp] theorem Workgroup.dropGang_nshape (w : Workgroup) (g : Nat) : (w.dropGang g).nshape = w.nshape := rfl
@[simp] theorem Workgroup.dropGang_codeVa (w : Workgroup) (g : Nat) : (w.dropGang g).codeVa = w.codeVa := rfl
@[simp] theorem Workgroup.dropGang_nseg (w : Workgroup) (g : Nat) : (w.dropGang g).nseg = w.nseg := rfl
@[simp] theorem Workgroup.dropGang_privBase (w : Workgroup) (g : Nat) : (w.dropGang g).privBase = w.privBase := rfl
@[simp] theorem Workgroup.dropGang_privSize (w : Workgroup) (g : Nat) : (w.dropGang g).privSize = w.privSize := rfl
@[simp] theorem Workgroup.dropGang_win (w : Workgroup) (g : Nat) : (w.dropGang g).win = w.win := rfl
@[simp] theorem Workgroup.dropGang_rgwin (w : Workgroup) (g : Nat) : (w.dropGang g).rgwin = w.rgwin := rfl
@[simp] theorem Workgroup.dropGang_yhold (w : Workgroup) (g : Nat) : (w.dropGang g).yhold = w.yhold := rfl
@[simp] theorem Workgroup.dropGang_flags (w : Workgroup) (g : Nat) : (w.dropGang g).flags = w.flags := rfl
@[simp] theorem Workgroup.dropGang_satcnt (w : Workgroup) (g : Nat) : (w.dropGang g).satcnt = w.satcnt := rfl
@[simp] theorem Workgroup.dropGang_nanscore (w : Workgroup) (g : Nat) : (w.dropGang g).nanscore = w.nanscore := rfl
@[simp] theorem Workgroup.dropGang_unchk (w : Workgroup) (g : Nat) : (w.dropGang g).unchk = w.unchk := rfl
@[simp] theorem Workgroup.dropGang_spill (w : Workgroup) (g : Nat) : (w.dropGang g).spill = w.spill := rfl
@[simp] theorem Workgroup.dropGang_lanes (w : Workgroup) (g : Nat) : (w.dropGang g).lanes = w.lanes := rfl
@[simp] theorem Workgroup.dropGang_crews (w : Workgroup) (g : Nat) : (w.dropGang g).crews = w.crews := rfl
@[simp] theorem Workgroup.dropGang_nextGang (w : Workgroup) (g : Nat) : (w.dropGang g).nextGang = w.nextGang := rfl
@[simp] theorem Workgroup.dropGang_nextItem (w : Workgroup) (g : Nat) : (w.dropGang g).nextItem = w.nextItem := rfl
@[simp] theorem Workgroup.dropGang_edges (w : Workgroup) (g : Nat) : (w.dropGang g).edges = w.edges := rfl
@[simp] theorem Workgroup.dropGang_windows (w : Workgroup) (g : Nat) : (w.dropGang g).windows = w.windows := rfl
@[simp] theorem Workgroup.dropGang_barriers (w : Workgroup) (g : Nat) : (w.dropGang g).barriers = w.barriers := rfl
@[simp] theorem Workgroup.dropGang_segs (w : Workgroup) (g : Nat) : (w.dropGang g).segs = w.segs := rfl
@[simp] theorem Workgroup.dropGang_savedSegs (w : Workgroup) (g : Nat) : (w.dropGang g).savedSegs = w.savedSegs := rfl
@[simp] theorem Workgroup.dropGang_macros (w : Workgroup) (g : Nat) : (w.dropGang g).macros = w.macros := rfl
@[simp] theorem Workgroup.dropGang_slots (w : Workgroup) (g : Nat) : (w.dropGang g).slots = w.slots := rfl
@[simp] theorem Workgroup.dropGang_mqueues (w : Workgroup) (g : Nat) : (w.dropGang g).mqueues = w.mqueues := rfl
@[simp] theorem Workgroup.dropGang_nextOp (w : Workgroup) (g : Nat) : (w.dropGang g).nextOp = w.nextOp := rfl
@[simp] theorem Workgroup.dropGang_l1 (w : Workgroup) (g : Nat) : (w.dropGang g).l1 = w.l1 := rfl
@[simp] theorem Workgroup.dropGang_frames (w : Workgroup) (g : Nat) : (w.dropGang g).frames = w.frames := rfl
@[simp] theorem Workgroup.dropGang_traps (w : Workgroup) (g : Nat) : (w.dropGang g).traps = w.traps := rfl
@[simp] theorem Workgroup.dropGang_nextTrap (w : Workgroup) (g : Nat) : (w.dropGang g).nextTrap = w.nextTrap := rfl
@[simp] theorem Workgroup.dropGang_gates (w : Workgroup) (g : Nat) : (w.dropGang g).gates = w.gates := rfl
@[simp] theorem Workgroup.dropGang_image (w : Workgroup) (g : Nat) : (w.dropGang g).image = w.image := rfl
@[simp] theorem Workgroup.dropGang_starting (w : Workgroup) (g : Nat) : (w.dropGang g).starting = w.starting := rfl
@[simp] theorem Workgroup.dropGang_term (w : Workgroup) (g : Nat) : (w.dropGang g).term = w.term := rfl

@[simp] theorem Workgroup.addGang_life (w : Workgroup) (g : Gang) : (w.addGang g).life = w.life := rfl
@[simp] theorem Workgroup.addGang_node (w : Workgroup) (g : Gang) : (w.addGang g).node = w.node := rfl
@[simp] theorem Workgroup.addGang_inst (w : Workgroup) (g : Gang) : (w.addGang g).inst = w.inst := rfl
@[simp] theorem Workgroup.addGang_core (w : Workgroup) (g : Gang) : (w.addGang g).core = w.core := rfl
@[simp] theorem Workgroup.addGang_homes (w : Workgroup) (g : Gang) : (w.addGang g).homes = w.homes := rfl
@[simp] theorem Workgroup.addGang_nlanes (w : Workgroup) (g : Gang) : (w.addGang g).nlanes = w.nlanes := rfl
@[simp] theorem Workgroup.addGang_vregs (w : Workgroup) (g : Gang) : (w.addGang g).vregs = w.vregs := rfl
@[simp] theorem Workgroup.addGang_spad (w : Workgroup) (g : Gang) : (w.addGang g).spad = w.spad := rfl
@[simp] theorem Workgroup.addGang_l1code (w : Workgroup) (g : Gang) : (w.addGang g).l1code = w.l1code := rfl
@[simp] theorem Workgroup.addGang_cluster (w : Workgroup) (g : Gang) : (w.addGang g).cluster = w.cluster := rfl
@[simp] theorem Workgroup.addGang_sibs (w : Workgroup) (g : Gang) : (w.addGang g).sibs = w.sibs := rfl
@[simp] theorem Workgroup.addGang_base (w : Workgroup) (g : Gang) : (w.addGang g).base = w.base := rfl
@[simp] theorem Workgroup.addGang_gdepth (w : Workgroup) (g : Gang) : (w.addGang g).gdepth = w.gdepth := rfl
@[simp] theorem Workgroup.addGang_domain (w : Workgroup) (g : Gang) : (w.addGang g).domain = w.domain := rfl
@[simp] theorem Workgroup.addGang_nrec (w : Workgroup) (g : Gang) : (w.addGang g).nrec = w.nrec := rfl
@[simp] theorem Workgroup.addGang_nshape (w : Workgroup) (g : Gang) : (w.addGang g).nshape = w.nshape := rfl
@[simp] theorem Workgroup.addGang_codeVa (w : Workgroup) (g : Gang) : (w.addGang g).codeVa = w.codeVa := rfl
@[simp] theorem Workgroup.addGang_nseg (w : Workgroup) (g : Gang) : (w.addGang g).nseg = w.nseg := rfl
@[simp] theorem Workgroup.addGang_privBase (w : Workgroup) (g : Gang) : (w.addGang g).privBase = w.privBase := rfl
@[simp] theorem Workgroup.addGang_privSize (w : Workgroup) (g : Gang) : (w.addGang g).privSize = w.privSize := rfl
@[simp] theorem Workgroup.addGang_win (w : Workgroup) (g : Gang) : (w.addGang g).win = w.win := rfl
@[simp] theorem Workgroup.addGang_rgwin (w : Workgroup) (g : Gang) : (w.addGang g).rgwin = w.rgwin := rfl
@[simp] theorem Workgroup.addGang_yhold (w : Workgroup) (g : Gang) : (w.addGang g).yhold = w.yhold := rfl
@[simp] theorem Workgroup.addGang_flags (w : Workgroup) (g : Gang) : (w.addGang g).flags = w.flags := rfl
@[simp] theorem Workgroup.addGang_satcnt (w : Workgroup) (g : Gang) : (w.addGang g).satcnt = w.satcnt := rfl
@[simp] theorem Workgroup.addGang_nanscore (w : Workgroup) (g : Gang) : (w.addGang g).nanscore = w.nanscore := rfl
@[simp] theorem Workgroup.addGang_unchk (w : Workgroup) (g : Gang) : (w.addGang g).unchk = w.unchk := rfl
@[simp] theorem Workgroup.addGang_spill (w : Workgroup) (g : Gang) : (w.addGang g).spill = w.spill := rfl
@[simp] theorem Workgroup.addGang_lanes (w : Workgroup) (g : Gang) : (w.addGang g).lanes = w.lanes := rfl
@[simp] theorem Workgroup.addGang_crews (w : Workgroup) (g : Gang) : (w.addGang g).crews = w.crews := rfl
@[simp] theorem Workgroup.addGang_nextItem (w : Workgroup) (g : Gang) : (w.addGang g).nextItem = w.nextItem := rfl
@[simp] theorem Workgroup.addGang_edges (w : Workgroup) (g : Gang) : (w.addGang g).edges = w.edges := rfl
@[simp] theorem Workgroup.addGang_windows (w : Workgroup) (g : Gang) : (w.addGang g).windows = w.windows := rfl
@[simp] theorem Workgroup.addGang_barriers (w : Workgroup) (g : Gang) : (w.addGang g).barriers = w.barriers := rfl
@[simp] theorem Workgroup.addGang_segs (w : Workgroup) (g : Gang) : (w.addGang g).segs = w.segs := rfl
@[simp] theorem Workgroup.addGang_savedSegs (w : Workgroup) (g : Gang) : (w.addGang g).savedSegs = w.savedSegs := rfl
@[simp] theorem Workgroup.addGang_macros (w : Workgroup) (g : Gang) : (w.addGang g).macros = w.macros := rfl
@[simp] theorem Workgroup.addGang_slots (w : Workgroup) (g : Gang) : (w.addGang g).slots = w.slots := rfl
@[simp] theorem Workgroup.addGang_mqueues (w : Workgroup) (g : Gang) : (w.addGang g).mqueues = w.mqueues := rfl
@[simp] theorem Workgroup.addGang_nextOp (w : Workgroup) (g : Gang) : (w.addGang g).nextOp = w.nextOp := rfl
@[simp] theorem Workgroup.addGang_l1 (w : Workgroup) (g : Gang) : (w.addGang g).l1 = w.l1 := rfl
@[simp] theorem Workgroup.addGang_frames (w : Workgroup) (g : Gang) : (w.addGang g).frames = w.frames := rfl
@[simp] theorem Workgroup.addGang_traps (w : Workgroup) (g : Gang) : (w.addGang g).traps = w.traps := rfl
@[simp] theorem Workgroup.addGang_nextTrap (w : Workgroup) (g : Gang) : (w.addGang g).nextTrap = w.nextTrap := rfl
@[simp] theorem Workgroup.addGang_gates (w : Workgroup) (g : Gang) : (w.addGang g).gates = w.gates := rfl
@[simp] theorem Workgroup.addGang_image (w : Workgroup) (g : Gang) : (w.addGang g).image = w.image := rfl
@[simp] theorem Workgroup.addGang_starting (w : Workgroup) (g : Gang) : (w.addGang g).starting = w.starting := rfl
@[simp] theorem Workgroup.addGang_term (w : Workgroup) (g : Gang) : (w.addGang g).term = w.term := rfl

/-! ### Reads after updates -/

@[simp] theorem State.wg_updWg_self (s : State) (t : Nat) (f : Workgroup → Workgroup) : (s.updWg t f).wg t = f (s.wg t) := by
  simp [State.wg, State.updWg]

theorem State.wg_updWg_ne (s : State) {t u : Nat} (f : Workgroup → Workgroup) (h : u ≠ t) : (s.updWg t f).wg u = s.wg u :=
  SMap.get_upd_ne _ f h

@[simp] theorem State.wg_setWg_self (s : State) (t : Nat) (w : Workgroup) : (s.setWg t w).wg t = w := by
  simp [State.wg, State.setWg]

theorem State.wg_setWg_ne (s : State) {t u : Nat} (w : Workgroup) (h : u ≠ t) : (s.setWg t w).wg u = s.wg u :=
  SMap.get_set_ne _ w h

@[simp] theorem State.wg_updCore (s : State) (c : Nat) (f : Core → Core) (t : Nat) : (s.updCore c f).wg t = s.wg t := rfl

@[simp] theorem State.wg_spent (s : State) (n t : Nat) : (s.spent n).wg t = s.wg t := rfl

@[simp] theorem State.core_updCore_self (s : State) (c : Nat) (f : Core → Core) : (s.updCore c f).core c = f (s.core c) := by
  simp [State.core, State.updCore]

theorem State.core_updCore_ne (s : State) {c d : Nat} (f : Core → Core) (h : d ≠ c) : (s.updCore c f).core d = s.core d :=
  SMap.get_upd_ne _ f h

@[simp] theorem State.pch_updPch_self (s : State) (g : Nat) (f : Pch → Pch) : (s.updPch g f).pch g = f (s.pch g) := by
  simp [State.pch, State.updPch]

theorem State.pch_updPch_ne (s : State) {g h : Nat} (f : Pch → Pch) (e : h ≠ g) : (s.updPch g f).pch h = s.pch h :=
  SMap.get_upd_ne _ f e

@[simp] theorem State.pch_updWg (s : State) (t : Nat) (f : Workgroup → Workgroup) (g : Nat) : (s.updWg t f).pch g = s.pch g := rfl

@[simp] theorem State.core_updWg (s : State) (t : Nat) (f : Workgroup → Workgroup) (c : Nat) : (s.updWg t f).core c = s.core c := rfl

@[simp] theorem Workgroup.lane_updLane_self (w : Workgroup) (l : Nat) (f : Lane → Lane) : (w.updLane l f).lane l = f (w.lane l) := by
  simp [Workgroup.lane, Workgroup.updLane]

theorem Workgroup.lane_updLane_ne (w : Workgroup) {l m : Nat} (f : Lane → Lane) (h : m ≠ l) : (w.updLane l f).lane m = w.lane m :=
  SMap.get_upd_ne _ f h

@[simp] theorem Workgroup.crew_updCrew_self (w : Workgroup) (c : Nat) (f : Crew → Crew) : (w.updCrew c f).crew c = f (w.crew c) := by
  simp [Workgroup.crew, Workgroup.updCrew]

theorem Workgroup.crew_updCrew_ne (w : Workgroup) {c d : Nat} (f : Crew → Crew) (h : d ≠ c) : (w.updCrew c f).crew d = w.crew d :=
  SMap.get_upd_ne _ f h

@[simp] theorem Workgroup.lane_updCrew (w : Workgroup) (c : Nat) (f : Crew → Crew) (l : Nat) : (w.updCrew c f).lane l = w.lane l := rfl
@[simp] theorem Workgroup.crew_updLane (w : Workgroup) (l : Nat) (f : Lane → Lane) (c : Nat) : (w.updLane l f).crew c = w.crew c := rfl
@[simp] theorem Workgroup.lane_updGang (w : Workgroup) (g : Nat) (f : Gang → Gang) (l : Nat) : (w.updGang g f).lane l = w.lane l := rfl
@[simp] theorem Workgroup.crew_updGang (w : Workgroup) (g : Nat) (f : Gang → Gang) (c : Nat) : (w.updGang g f).crew c = w.crew c := rfl
@[simp] theorem Workgroup.gang_updLane (w : Workgroup) (l : Nat) (f : Lane → Lane) (g : Nat) : (w.updLane l f).gang? g = w.gang? g := rfl
@[simp] theorem Workgroup.gang_updCrew (w : Workgroup) (c : Nat) (f : Crew → Crew) (g : Nat) : (w.updCrew c f).gang? g = w.gang? g := rfl

/-- A changed gang is found under its number, if the change leaves the number alone. -/
theorem Workgroup.gang_updGang_self (w : Workgroup) (g : Nat) (f : Gang → Gang) (hf : ∀ x, (f x).id = x.id) :
    (w.updGang g f).gang? g = (w.gang? g).map f := by
  unfold Workgroup.gang? Workgroup.updGang
  induction w.gangs with
  | nil => rfl
  | cons x t ih =>
    by_cases h : x.id = g
    · simp [h, hf]
    · simpa [h] using ih

theorem Workgroup.gang_updGang_ne (w : Workgroup) {g h : Nat} (f : Gang → Gang) (hf : ∀ x, (f x).id = x.id) (e : h ≠ g) :
    (w.updGang g f).gang? h = w.gang? h := by
  unfold Workgroup.gang? Workgroup.updGang
  induction w.gangs with
  | nil => rfl
  | cons x t ih =>
    by_cases hx : x.id = g
    · have : ¬ x.id = h := by omega
      have : ¬ g = h := by omega
      simpa [hx, hf, this] using ih
    · by_cases hh : x.id = h
      · simp [hh, e]
      · simpa [hx, hh] using ih

/-- A register after it is written. -/
theorem Lane.reg_setReg (x : Lane) (c d : Nat) (w : Word) : (x.setReg c w).reg d = if d = c then w else x.reg d := by
  unfold Lane.reg Lane.setReg
  by_cases hc : c < 256 <;> by_cases hd : d < 256 <;> by_cases h : d = c <;>
    simp [hc, hd, h, SMap.get_set] <;> omega

end Sys2Proof.Machine
end

