-- ==== Sys2Proof/Laws/Issue.lean ====
section
/-! SUPPORT. What the issue of an instruction does, said once: a gang that stands ready performs the instruction's body, and its
result is closed. -/

namespace Sys2Proof.Machine

open Sys2Proof Sys2Proof.Safety

/-! ### Lists of numbers -/

theorem mem_insertSorted {x y : Nat} {l : List Nat} : y ∈ insertSorted x l ↔ y = x ∨ y ∈ l := by
  induction l with
  | nil => simp [insertSorted]
  | cons a t ih =>
    unfold insertSorted
    split
    · simp
    · simp [ih, or_left_comm]

@[simp] theorem mem_sortNat {x : Nat} {l : List Nat} : x ∈ sortNat l ↔ x ∈ l := by
  induction l with
  | nil => simp [sortNat]
  | cons a t ih => simp [sortNat, mem_insertSorted, ih]

@[simp] theorem mem_dedup {α : Type} [DecidableEq α] {x : α} {l : List α} : x ∈ dedup l ↔ x ∈ l := by
  induction l with
  | nil => simp [dedup]
  | cons a t ih =>
    by_cases h : x = a <;> simp [dedup, ih, h]

@[simp] theorem length_insertSorted (a : Nat) (l : List Nat) : (insertSorted a l).length = l.length + 1 := by
  induction l with
  | nil => simp [insertSorted]
  | cons b t ih =>
    unfold insertSorted
    split
    · simp
    · simp [ih]

@[simp] theorem length_sortNat (l : List Nat) : (sortNat l).length = l.length := by
  induction l with
  | nil => rfl
  | cons a t ih => simp [sortNat, ih]

/-- Without repeats, a list of equal things has at most one. -/
theorem length_dedup_le_one {α : Type} [DecidableEq α] {l : List α} (h : ∀ x ∈ l, ∀ y ∈ l, x = y) : (dedup l).length ≤ 1 := by
  cases l with
  | nil => simp [dedup]
  | cons a t =>
    have : (dedup t).filter (fun b => !decide (b = a)) = [] := by
      rw [List.filter_eq_nil_iff]
      intro x hx
      have := h x (List.mem_cons_of_mem _ (mem_dedup.1 hx)) a (by simp)
      simp [this]
    simp [dedup, this]

/-- The crews of lanes. -/
theorem Workgroup.mem_crewsOf {w : Workgroup} {ls : List Nat} {c : Nat} :
    c ∈ w.crewsOf ls ↔ ∃ l ∈ ls, (w.lane l).crew = some c := by
  simp [Workgroup.crewsOf, List.mem_filterMap]

/-! ### The checks of an issue -/

@[simp] theorem State.env_s (s : State) (t : Nat) (g : Gang) (r : ClauseRun) : (s.env t g r).s = s := rfl
@[simp] theorem State.env_t (s : State) (t : Nat) (g : Gang) (r : ClauseRun) : (s.env t g r).t = t := rfl
@[simp] theorem State.env_w (s : State) (t : Nat) (g : Gang) (r : ClauseRun) : (s.env t g r).w = s.wg t := rfl
@[simp] theorem State.env_g (s : State) (t : Nat) (g : Gang) (r : ClauseRun) : (s.env t g r).g = g := rfl
@[simp] theorem State.env_run (s : State) (t : Nat) (g : Gang) (r : ClauseRun) : (s.env t g r).run = r := rfl
@[simp] theorem State.env_ls (s : State) (t : Nat) (g : Gang) (r : ClauseRun) : (s.env t g r).ls = execLanes g r := rfl
@[simp] theorem State.env_iss (s : State) (t : Nat) (g : Gang) (r : ClauseRun) : (s.env t g r).iss = issueLanes g r := rfl
@[simp] theorem State.env_pops (s : State) (t : Nat) (g : Gang) (r : ClauseRun) : (s.env t g r).pops = [] := rfl

@[simp] theorem Safety.taken_wg (s : State) (t : Nat) : (taken s).wg t = s.wg t := rfl

/-- No machine check is delivered to a gang whose crews have none. -/
theorem Env.mcheck_none {e : Env} (h : ∀ l ∈ e.iss, ∀ c, (e.w.lane l).crew = some c → (e.w.crew c).mcheck = none) :
    e.mcheck = none := by
  unfold Env.mcheck
  rw [List.findSome?_eq_none_iff]
  intro c hc
  obtain ⟨l, hl, hcl⟩ := Workgroup.mem_crewsOf.1 hc
  simp [h l hl c hcl]

/-- No register holds an uncorrectable error where none stands. -/
theorem Env.regCheck_none {e : Env} {i : Instr} (h : e.s.damage = []) : e.regCheck i = none := by
  unfold Env.regCheck
  simp [h]

/-- Where no uncorrectable error stands, the machine checks of what is read are those of absent peers. -/
theorem State.mcOf_intact {s : State} (h : s.damage = []) (x : Span) : s.mcOf x = match x.loc with
    | .phys a => if s.peerAbsent a then some (0xB3, linkUnit (s.peerEntry a), a) else none
    | .win .. => none := by
  unfold State.mcOf
  cases hx : x.loc <;> simp [h]

/-- A gang without locks has no holders. -/
theorem Env.holders_nil {e : Env} (h : ∀ l ∈ e.iss, (e.w.lane l).lock = none) : e.holders = [] := by
  unfold Env.holders
  rw [List.filter_eq_nil_iff]
  intro l hl
  simp [h l hl]

theorem Env.overHeld_nil {e : Env} (h : e.holders = []) : e.overHeld = [] := by simp [Env.overHeld, h]

/-- The crew checks of uniform registers pass where the crews fit. -/
theorem Env.crewTrap_none {e : Env} {i : Instr} (h : CrewsFit e.w i e.ls) : e.crewTrap i = none := by
  have hu : ∀ p : Sel × Nat, (p ∈ i.reads ∨ p ∈ i.writes) → p.1.isS = true → e.crewless = [] := by
    intro p hp hs
    unfold Env.crewless
    rw [List.filter_eq_nil_iff]
    intro l hl
    have := h.crewed (by
      unfold usesUniform
      rw [List.any_eq_true]
      exact ⟨p, List.mem_append.2 hp, hs⟩) l hl
    simpa [Env.crewOf] using this
  have hm : i.writes.any (fun p => p.1.isS) = true → e.mixed = false := by
    intro hw
    unfold Env.mixed Workgroup.crewsOf
    rw [decide_eq_false_iff_not, length_sortNat]
    have := length_dedup_le_one (l := e.ls.filterMap fun l => (e.w.lane l).crew) (by
      intro x hx y hy
      obtain ⟨l, hl, hxl⟩ := List.mem_filterMap.1 hx
      obtain ⟨m, hm, hym⟩ := List.mem_filterMap.1 hy
      have := h.one hw l hl m hm
      rw [hxl, hym] at this
      exact Option.some.inj this)
    omega
  unfold Env.crewTrap
  dsimp only
  rw [if_neg, if_neg]
  · rintro ⟨hw, hx⟩
    simp [hm hw] at hx
  · rintro ⟨ha | ha, hb⟩
    · simp only [Bool.and_eq_true, List.any_eq_true] at ha
      obtain ⟨-, p, hp, hs⟩ := ha
      exact hb (hu p (Or.inl hp) hs)
    · rw [List.any_eq_true] at ha
      obtain ⟨p, hp, hs⟩ := ha
      exact hb (hu p (Or.inr hp) hs)

/-- No gate bars an instruction that the gates let through. -/
theorem Env.gateTrap_nil {e : Env} {i : Instr} (h : GateLets e.w i e.ls) : e.gateTrap i = [] := by
  unfold Env.gateTrap
  split
  · rename_i hb
    split
    · rfl
    · rw [List.filter_eq_nil_iff]
      intro l hl
      cases hg : e.w.gateOf l with
      | none => simp
      | some x => exact absurd hb (by simp [(h l hl x hg).1])
  · split
    · rename_i hm
      rw [List.filter_eq_nil_iff]
      intro l hl
      cases hg : e.w.gateOf l with
      | none => simp
      | some x => simp [(h l hl x hg).2 hm]
    · rfl

/-- A gang that stands ready performs the instruction's body. -/
theorem laneIssue_ready {s : State} {t : Nat} {g : Gang} {r : ClauseRun} {i : Instr} {es : List ApprEntry}
    (h : Ready s t g r i es) (body : Env → Res) :
    laneIssue i body s = .next ((State.settleRes { envOf s t g r with pops := es } i
      (body { envOf s t g r with pops := es })).spent s.free) := by
  have hl : (envOf s t g r).holders = [] := Env.holders_nil h.unlocked
  have hi : State.issue (taken s) t g r i body = State.settleRes { envOf s t g r with pops := es } i
      (body { envOf s t g r with pops := es }) := by
    unfold State.issue
    dsimp only
    have e1 : (envOf s t g r).mcheck = none := Env.mcheck_none h.unchecked
    have e2 : (envOf s t g r).overHeld = [] := Env.overHeld_nil hl
    have e3 : (envOf s t g r).crewTrap i = none := Env.crewTrap_none h.crews
    have e4 : (envOf s t g r).gateTrap i = [] := Env.gateTrap_nil h.gates
    have e5 : (envOf s t g r).popsOf i = .ready es := h.pops
    have e6 : (envOf s t g r).regCheck i = none := Env.regCheck_none h.intact
    unfold envOf at *
    simp [e1, e2, e3, e4, e5, e6, hl]
  unfold laneIssue
  rw [h.turn]
  have hg : ((taken s).wg t).gang? g.id = some g := h.gang
  unfold taken at hg hi
  simp only [hg, h.clause, h.awake]
  rw [hi]

/-! ### The end of an instruction -/

/-- A state in which gang `g` still stands in clause `r`. -/
def Safety.Holding (s : State) (t : Nat) (g : Gang) (r : ClauseRun) : Prop :=
  ∃ g', (s.wg t).gang? g.id = some g' ∧ g'.id = g.id ∧ g'.hset = g.hset ∧ g'.mask = g.mask ∧ g'.pc = g.pc ∧ g'.clause = some r

/-- The clause after `n` words, outside a macro body. -/
theorem ClauseRun.step_plain {r : ClauseRun} (h : r.mac = none) (n : Nat) (l : Option (List (Nat × Dword))) :
    (r.step n l).pos = r.pos + n ∧ (r.step n l).words = r.words ∧ (r.step n l).base = r.base ∧ (r.step n l).issue = r.issue ∧
      (r.step n l).exec = r.exec ∧ (r.step n l).hdr = r.hdr ∧ (r.step n l).next = r.next := by
  unfold ClauseRun.step
  rw [h]
  cases l <;> simp [ClauseRun.next]

/-- YIELD leaves a gang's number, lanes, place and clause. -/
theorem Gang.yielded_kept (g : Gang) (y : Nat) : (g.yielded y).id = g.id ∧ (g.yielded y).hset = g.hset ∧
    (g.yielded y).mask = g.mask ∧ (g.yielded y).pc = g.pc := ⟨rfl, rfl, rfl, rfl⟩

/-- The gang that was changed, as the machine holds it. -/
theorem State.gang_updGang (s : State) {t g : Nat} (f : Gang → Gang) (hf : ∀ x, (f x).id = x.id) :
    ((s.updGang t g f).wg t).gang? g = ((s.wg t).gang? g).map f := by
  unfold State.updGang
  rw [State.wg_updWg_self, Workgroup.gang_updGang_self _ _ _ hf]

/-- After an instruction the gang goes on. -/
theorem State.advance_wentOn {s : State} {t : Nat} {g : Gang} {r : ClauseRun} {i : Instr}
    (hg : Safety.Holding s t g r) (hm : r.mac = none)
    (hw : r.pos + i.len < r.words.length ∨ r.next % 4096 ≠ 0) (vals : List (Nat × Dword)) :
    WentOn (s.advance t g.id i r vals) t g r i.len := by
  obtain ⟨g', hg', e1, e2, e3, e4, e5⟩ := hg
  obtain ⟨p1, p2, p3, p4, p5, p6, p7⟩ := ClauseRun.step_plain hm i.len (if i.leavesLatch then some vals else none)
  unfold State.advance
  dsimp only
  by_cases hp : r.pos + i.len < r.words.length
  · rw [if_neg (by rw [p1, p2]; omega)]
    have := s.gang_updGang (t := t) (g := g.id) 
      (fun g => { g with clause := some (r.step i.len (if i.leavesLatch then some vals else none)), park := none })
      (fun _ => rfl)
    rw [hg'] at this
    refine ⟨_, this, e2, e3, rfl, ?_⟩
    rw [if_pos hp]
    exact ⟨e4, _, rfl, p3, p2, p1, p4, p5⟩
  · have hn := hw.resolve_left hp
    rw [if_pos (by rw [p1, p2]; omega)]
    unfold State.endClause
    dsimp only
    rw [p6, p7]
    rw [if_neg (by simpa using hn)]
    have hz : (r.next % 4096 == 0) = false := by simpa using hn
    have := s.gang_updGang (t := t) (g := g.id) (fun g =>
      let g1 := if hYield r.hdr.toNat then g.yielded (s.wg t).yhold.toNat else g
      { g1 with clause := none, park := none, pc := if (r.next % 4096 == 0) then r.next - 4 else r.next, moved := true })
      (fun x => by dsimp only; split <;> rfl)
    rw [hg'] at this
    refine ⟨_, this, ?_, ?_, rfl, ?_⟩
    · dsimp only; split <;> simp [Gang.yielded, e2]
    · dsimp only; split <;> simp [Gang.yielded, e3]
    · rw [if_neg hp]
      simp [hz]

/-- The end of an instruction changes only the gang's workgroup. -/
theorem State.advance_frame {s : State} {t : Nat} {g : Gang} {r : ClauseRun} {i : Instr} (hm : r.mac = none)
    (hw : r.pos + i.len < r.words.length ∨ r.next % 4096 ≠ 0) (vals : List (Nat × Dword)) :
    ∃ f : Gang → Gang, (∀ x, (f x).id = x.id) ∧ s.advance t g.id i r vals = s.updGang t g.id f := by
  obtain ⟨p1, p2, p3, p4, p5, p6, p7⟩ := ClauseRun.step_plain hm i.len (if i.leavesLatch then some vals else none)
  unfold State.advance
  dsimp only
  by_cases hp : r.pos + i.len < r.words.length
  · rw [if_neg (by rw [p1, p2]; omega)]
    refine ⟨_, ?_, rfl⟩
    exact fun _ => rfl
  · have hn := hw.resolve_left hp
    rw [if_pos (by rw [p1, p2]; omega)]
    unfold State.endClause
    dsimp only
    rw [p6, p7, if_neg (by simpa using hn)]
    refine ⟨_, ?_, rfl⟩
    intro x
    dsimp only
    split <;> rfl

/-- Without locks and without pops, an instruction that has been performed only moves its gang on. -/
theorem State.settle_ok {e : Env} {i : Instr} {s : State} {l : List (Nat × Dword)} (hl : e.holders = [])
    (hp : popless i = true) :
    State.settleRes e i (.ok s l) = (s.updWg e.t fun w => w).advance e.t e.g.id i e.run l := by
  unfold State.settleRes State.countLocks State.takePops
  unfold popless at hp
  simp [hl, hp, overList]

end Sys2Proof.Machine
end

