-- ==== Sys2Proof/Laws/Write.lean ====
section
/-! SUPPORT. Writes of results: what they change, what they leave alone, and what a register holds afterwards. -/

namespace Sys2Proof.Machine

open Sys2Proof Sys2Proof.Safety

/-- What a computing instruction may change of a workgroup, given the lanes it works in, the registers and the uniform
registers it may write. -/
structure Touch (ls : List Nat) (reg uni : Nat → Prop) (w w' : Workgroup) : Prop where
  rest : w' = { w with lanes := w'.lanes, crews := w'.crews, flags := w'.flags, satcnt := w'.satcnt, nanscore := w'.nanscore }
  outside : ∀ l, l ∉ ls → w'.lane l = w.lane l
  lane : ∀ l, w'.lane l = { w.lane l with
      v := (w'.lane l).v, o := (w'.lane l).o, p := (w'.lane l).p, cf := (w'.lane l).cf }
  regs : ∀ l n, ¬ reg n → (w'.lane l).reg n = (w.lane l).reg n
  crew : ∀ c, w'.crew c = { w.crew c with s := (w'.crew c).s, old := (w'.crew c).old, flight := (w'.crew c).flight }
  uniform : ∀ c n, ¬ uni n → ((w'.crew c).s).get n = ((w.crew c).s).get n

theorem Touch.refl (ls : List Nat) (reg uni : Nat → Prop) (w : Workgroup) : Touch ls reg uni w w :=
  ⟨rfl, fun _ _ => rfl, fun _ => rfl, fun _ _ _ => rfl, fun _ => rfl, fun _ _ _ => rfl⟩

theorem Touch.trans {ls : List Nat} {reg uni : Nat → Prop} {a b c : Workgroup} (h : Touch ls reg uni a b)
    (k : Touch ls reg uni b c) : Touch ls reg uni a c where
  rest := by rw [k.rest, h.rest]
  outside l hl := (k.outside l hl).trans (h.outside l hl)
  lane l := by rw [k.lane l, h.lane l]
  regs l n hn := (k.regs l n hn).trans (h.regs l n hn)
  crew x := by rw [k.crew x, h.crew x]
  uniform x n hn := (k.uniform x n hn).trans (h.uniform x n hn)

/-- A loop of touching steps touches. -/
theorem Touch.over {α : Type} {ls : List Nat} {reg uni : Nat → Prop} {f : Workgroup → α → Workgroup} (l : List α)
    (h : ∀ w x, x ∈ l → Touch ls reg uni w (f w x)) (w : Workgroup) : Touch ls reg uni w (overList l w f) := by
  induction l generalizing w with
  | nil => exact Touch.refl ..
  | cons x t ih =>
    exact (h w x (by simp)).trans (ih (fun w y hy => h w y (List.mem_cons_of_mem _ hy)) (f w x))

theorem Workgroup.lane_updLane (w : Workgroup) (l m : Nat) (f : Lane → Lane) :
    (w.updLane l f).lane m = if m = l then f (w.lane l) else w.lane m := by
  by_cases h : m = l
  · simp [h]
  · simp [h, Workgroup.lane_updLane_ne]

theorem Workgroup.crew_updCrew (w : Workgroup) (c d : Nat) (f : Crew → Crew) :
    (w.updCrew c f).crew d = if d = c then f (w.crew c) else w.crew d := by
  by_cases h : d = c
  · simp [h]
  · simp [h, Workgroup.crew_updCrew_ne]

/-- A change of a lane's registers, predicates or CF touches. -/
theorem Touch.ofLane {ls : List Nat} {reg uni : Nat → Prop} (w : Workgroup) {l : Nat} {f : Lane → Lane} (hl : l ∈ ls)
    (h1 : ∀ x, f x = { x with v := (f x).v, o := (f x).o, p := (f x).p, cf := (f x).cf })
    (h2 : ∀ x n, ¬ reg n → (f x).reg n = x.reg n) : Touch ls reg uni w (w.updLane l f) where
  rest := rfl
  outside m hm := Workgroup.lane_updLane_ne _ _ (by rintro rfl; exact hm hl)
  lane m := by
    rw [Workgroup.lane_updLane]
    split
    · rename_i h; rw [h]; exact h1 _
    · rfl
  regs m n hn := by
    rw [Workgroup.lane_updLane]
    split
    · rename_i h; rw [h]; exact h2 _ n hn
    · rfl
  crew c := rfl
  uniform c n hn := rfl

/-- A map over a sparse table that keeps keys, read at a key. -/
theorem SMap.get_map {β : Type} [Inhabited β] (m : SMap β) (f : β → β) (k : Nat) (h : f default = default) :
    SMap.get (m.map fun c => (c.1, f c.2)) k = f (SMap.get m k) := by
  induction m with
  | nil => simp [SMap.get, h]
  | cons x t ih =>
    obtain ⟨a, b⟩ := x
    by_cases e : a = k
    · simp [SMap.get, e]
    · simpa [SMap.get, e] using ih

/-- Marks on the items in flight touch. -/
theorem Touch.ofFlight {ls : List Nat} {reg uni : Nat → Prop} (w : Workgroup) (mark : FlightItem → FlightItem) :
    Touch ls reg uni w { w with crews := w.crews.map fun c => (c.1, { c.2 with flight := c.2.flight.map mark }) } := by
  have hc : ∀ c, ({ w with crews := w.crews.map fun c => (c.1, { c.2 with flight := c.2.flight.map mark }) } : Workgroup).crew c =
      { w.crew c with flight := (w.crew c).flight.map mark } := by
    intro c
    exact SMap.get_map w.crews (fun c => { c with flight := c.flight.map mark }) c rfl
  exact ⟨rfl, fun _ _ => rfl, fun _ => rfl, fun _ _ _ => rfl, fun c => by rw [hc], fun c n _ => by rw [hc]⟩

theorem Lane.setReg_shape (x : Lane) (c : Nat) (v : Word) :
    x.setReg c v = { x with v := (x.setReg c v).v, o := (x.setReg c v).o, p := (x.setReg c v).p, cf := (x.setReg c v).cf } := by
  unfold Lane.setReg
  split <;> rfl

/-- A register write touches its lane and its register. -/
theorem Touch.writeReg {ls : List Nat} {reg uni : Nat → Prop} (w : Workgroup) (free : Nat) {l code : Nat} (v : Word)
    (hl : l ∈ ls) (hc : reg code) : Touch ls reg uni w (w.writeReg free l code v) := by
  have h1 : Touch ls reg uni w (w.updLane l fun x => x.setReg code v) :=
    Touch.ofLane w hl (fun x => Lane.setReg_shape x code v) (by
      intro x n hn
      rw [Lane.reg_setReg, if_neg]
      rintro rfl
      exact hn hc)
  unfold Workgroup.writeReg
  dsimp only
  split
  · split
    · exact Touch.refl ..
    · exact h1
  · refine Touch.trans ?_ (Touch.ofFlight _ _)
    split
    · exact Touch.refl ..
    · exact h1

/-- A change of a crew's uniform registers, with their values before the cycle, touches. -/
theorem Touch.ofUniform {ls : List Nat} {reg uni : Nat → Prop} (w : Workgroup) (c : Nat) (f : SMap Word → SMap Word)
    (o : Crew → List (Nat × Word)) (h : ∀ m n, ¬ uni n → (f m).get n = m.get n) :
    Touch ls reg uni w (w.updCrew c fun x => { x with s := f x.s, old := o x }) where
  rest := rfl
  outside _ _ := rfl
  lane _ := rfl
  regs _ _ _ := rfl
  crew d := by
    rw [Workgroup.crew_updCrew]
    split
    · rename_i hd; rw [hd]
    · rfl
  uniform d n hn := by
    rw [Workgroup.crew_updCrew]
    split
    · rename_i hd; rw [hd]; exact h _ n hn
    · rfl

theorem get_overSet (l : List (Word × Nat)) (m : SMap Word) (b n : Nat) (h : ∀ p ∈ l, n ≠ b + p.2) :
    (overList l m fun m p => m.set (b + p.2) p.1).get n = m.get n := by
  induction l generalizing m with
  | nil => rfl
  | cons p t ih =>
    show (overList t (m.set (b + p.2) p.1) fun m p => m.set (b + p.2) p.1).get n = _
    rw [ih _ (fun q hq => h q (List.mem_cons_of_mem _ hq)), SMap.get_set_ne _ _ (h p (by simp))]

/-- Writing a result touches the lanes it is written in and the registers of the destination. -/
theorem Touch.writeSel {ls : List Nat} {k : Nat} (w : Workgroup) (free : Nat) (d : Sel) (vals : List (Nat × List Word))
    (hl : ∀ p ∈ vals, p.1 ∈ ls ∧ p.2.length = k) :
    Touch ls (· ∈ codesOf (d, k)) (· ∈ uniformOf (d, k)) w (w.writeSel free d vals) := by
  have hz : ∀ (ws : List Word) (p : Word × Nat), p ∈ ws.zipIdx → p.2 < ws.length := by
    intro ws p hp
    have := List.mem_zipIdx hp
    omega
  unfold Workgroup.writeSel
  split
  · rename_i n
    split
    · exact Touch.refl ..
    · rename_i l ws hlast
      split
      · refine Touch.ofUniform w _ (fun m => overList ws.zipIdx m fun m p => m.set (n + p.2) p.1) (fun x => overList ws.zipIdx x.old
          fun m p => if m.any (fun y => y.1 == n + p.2) then m else (n + p.2, x.s.get (n + p.2)) :: m) ?_
        intro m j hj
        apply get_overSet
        rintro p hp rfl
        apply hj
        have := hz ws p hp
        rw [(hl _ (List.mem_of_getLast? hlast)).2] at this
        simp [uniformOf]
        omega
      · exact Touch.refl ..
  · split
    · exact Touch.refl ..
    · rename_i c hc
      refine Touch.over _ ?_ w
      intro w p hp
      refine Touch.over _ ?_ w
      intro w q hq
      refine Touch.writeReg w free q.1 (hl p hp).1 ?_
      have := hz _ q hq
      rw [(hl p hp).2] at this
      simp [codesOf, hc]
      omega

/-- The effects of computed lanes on predicates, CF and the summary touch. -/
theorem Touch.effects {ls : List Nat} {reg uni : Nat → Prop} (w : Workgroup) (rs : List (Nat × LaneOut))
    (hl : ∀ p ∈ rs, p.1 ∈ ls) : Touch ls reg uni w (w.effects rs) := by
  unfold Workgroup.effects
  refine Touch.over _ ?_ w
  intro w r hr
  have h1 : Touch ls reg uni w (w.updLane r.1 fun x =>
      let x1 := match r.2.cf with | some b => { x with cf := b } | none => x
      match r.2.pd with | some (n, b) => x1.setPred n b | none => x1) := by
    refine Touch.ofLane w (hl r hr) ?_ ?_
    · intro x
      dsimp only
      split <;> split <;> (try unfold Lane.setPred; split) <;> rfl
    · intro x n _
      dsimp only
      split <;> split <;> (try unfold Lane.setPred; split) <;> rfl
  refine h1.trans ?_
  exact ⟨rfl, fun _ _ => rfl, fun _ => rfl, fun _ _ _ => rfl, fun _ => rfl, fun _ _ _ => rfl⟩

/-! ### What registers hold after a write -/

theorem Workgroup.pendingItems_updLane (w : Workgroup) (l : Nat) (f : Lane → Lane) (m n : Nat) :
    (w.updLane l f).pendingItems m n = w.pendingItems m n := rfl

/-- Marks that leave destinations alone leave a register pending, or not. -/
theorem Workgroup.pending_mark (w : Workgroup) (mark : FlightItem → FlightItem) (m n : Nat)
    (h : ∀ i, (mark i).destOf m = i.destOf m) :
    ({ w with crews := w.crews.map fun c => (c.1, { c.2 with flight := c.2.flight.map mark }) } : Workgroup).pendingItems m n = [] ↔
      w.pendingItems m n = [] := by
  unfold Workgroup.pendingItems
  dsimp only
  induction w.crews with
  | nil => rfl
  | cons c t ih =>
    rw [List.map_cons, List.flatMap_cons, List.flatMap_cons, List.append_eq_nil_iff, List.append_eq_nil_iff, ih,
      List.filter_eq_nil_iff, List.filter_eq_nil_iff]
    simp [h]

/-- A write leaves a register pending, or not. -/
theorem Workgroup.pending_writeReg (w : Workgroup) (free l c : Nat) (v : Word) (m n : Nat) :
    (w.writeReg free l c v).pendingItems m n = [] ↔ w.pendingItems m n = [] := by
  unfold Workgroup.writeReg
  dsimp only
  split
  · split <;> rfl
  · refine (Workgroup.pending_mark _ _ m n ?_).trans ?_
    · intro i
      split <;> rfl
    · split <;> rfl

theorem Workgroup.lane_writeReg (w : Workgroup) (free l c : Nat) (v : Word) (m : Nat) :
    (w.writeReg free l c v).lane m =
      (if ((w.pendingItems l c).any (fun i => i.done) && Config.freeBool (free + 524288 + c * 512 + l)) = true then w
        else w.updLane l fun x => x.setReg c v).lane m := by
  unfold Workgroup.writeReg
  dsimp only
  split <;> rfl

/-- A register that no load is to write holds what was written. -/
theorem Workgroup.reg_writeReg_self (w : Workgroup) (free l c : Nat) (v : Word) (h : w.pendingItems l c = []) :
    ((w.writeReg free l c v).lane l).reg c = v := by
  rw [Workgroup.lane_writeReg]
  simp [h, Lane.reg_setReg]

theorem Workgroup.reg_writeReg_ne (w : Workgroup) (free l c : Nat) (v : Word) {m n : Nat} (h : m ≠ l ∨ n ≠ c) :
    ((w.writeReg free l c v).lane m).reg n = (w.lane m).reg n := by
  rw [Workgroup.lane_writeReg]
  split
  · rfl
  · rw [Workgroup.lane_updLane]
    split
    · rename_i e
      subst e
      rw [Lane.reg_setReg, if_neg (h.resolve_left (by simp))]
    · rfl

/-- One lane's words written from register `c` up. -/
theorem reg_overWords (ws : List Word) (w : Workgroup) (free l c b : Nat) (m n : Nat) :
    ((overList (ws.zipIdx b) w fun w q => w.writeReg free l (c + q.2) q.1).pendingItems m n = [] ↔ w.pendingItems m n = []) ∧
    (w.pendingItems m n = [] → ((overList (ws.zipIdx b) w fun w q => w.writeReg free l (c + q.2) q.1).lane m).reg n =
      if m = l ∧ c + b ≤ n ∧ n < c + b + ws.length then ws.getD (n - (c + b)) 0 else (w.lane m).reg n) := by
  induction ws generalizing w b with
  | nil => simp [overList]
  | cons x t ih =>
    have hi := ih (w.writeReg free l (c + b) x) (b + 1)
    show ((overList (t.zipIdx (b + 1)) (w.writeReg free l (c + b) x) _).pendingItems m n = [] ↔ _) ∧ (_ →
      ((overList (t.zipIdx (b + 1)) (w.writeReg free l (c + b) x) _).lane m).reg n = _)
    refine ⟨hi.1.trans (Workgroup.pending_writeReg ..), ?_⟩
    intro hp
    rw [hi.2 ((Workgroup.pending_writeReg ..).2 hp)]
    by_cases hm : m = l
    · subst hm
      by_cases hn : n = c + b
      · subst hn
        have h1 : ¬ (m = m ∧ c + (b + 1) ≤ c + b ∧ c + b < c + (b + 1) + t.length) := by omega
        rw [if_neg h1, Workgroup.reg_writeReg_self _ _ _ _ _ hp]
        simp
      · rw [Workgroup.reg_writeReg_ne _ _ _ _ _ (Or.inr hn)]
        by_cases hr : c + b ≤ n ∧ n < c + b + (x :: t).length
        · have h1 : m = m ∧ c + (b + 1) ≤ n ∧ n < c + (b + 1) + t.length := by simp at hr ⊢; omega
          rw [if_pos h1, if_pos ⟨rfl, hr⟩]
          have : n - (c + b) = (n - (c + (b + 1))) + 1 := by omega
          rw [this]; simp
        · have h1 : ¬ (m = m ∧ c + (b + 1) ≤ n ∧ n < c + (b + 1) + t.length) := by simp at hr ⊢; omega
          rw [if_neg h1, if_neg (by tauto)]
    · rw [Workgroup.reg_writeReg_ne _ _ _ _ _ (Or.inl hm)]
      simp [hm]

/-- Every lane's words, lanes without repeats. -/
theorem reg_overLanes (vals : List (Nat × List Word)) (w : Workgroup) (free c : Nat) (hd : (vals.map (·.1)).Nodup) (m n : Nat)
    (hp : w.pendingItems m n = []) :
    ((overList vals w fun w p => overList p.2.zipIdx w fun w q => w.writeReg free p.1 (c + q.2) q.1).lane m).reg n =
      match vals.find? fun p => p.1 == m with
      | some p => if c ≤ n ∧ n < c + p.2.length then p.2.getD (n - c) 0 else (w.lane m).reg n
      | none => (w.lane m).reg n := by
  induction vals generalizing w with
  | nil => rfl
  | cons p t ih =>
    have h0 := reg_overWords p.2 w free p.1 c 0 m n
    simp only [List.map_cons, List.nodup_cons] at hd
    have := ih (overList p.2.zipIdx w fun w q => w.writeReg free p.1 (c + q.2) q.1) hd.2 (h0.1.2 hp)
    show ((overList t (overList p.2.zipIdx w fun w q => w.writeReg free p.1 (c + q.2) q.1) _).lane m).reg n = _
    rw [this, h0.2 hp]
    by_cases hm : p.1 = m
    · have hf : t.find? (fun q => q.1 == m) = none := by
        rw [List.find?_eq_none]
        intro q hq
        have : q.1 ≠ p.1 := fun e => hd.1 (List.mem_map.2 ⟨q, hq, e⟩)
        simp [hm ▸ this]
      simp [hf, hm]
    · have : ¬ m = p.1 := fun e => hm e.symm
      simp [hm, this]

theorem splitWords_length {k : Nat} (hk : k = 1 ∨ k = 2) (x : Dword) : (splitWords k x).length = k := by
  rcases hk with rfl | rfl <;> simp [splitWords]

theorem splitWords_getD {k : Nat} (hk : k = 1 ∨ k = 2) (x : Dword) {j : Nat} (hj : j < k) :
    (splitWords k x).getD j 0 = (x >>> (32 * j)).setWidth 32 := by
  rcases hk with rfl | rfl
  · have : j = 0 := by omega
    subst this
    simp [splitWords]
  · have : j = 0 ∨ j = 1 := by omega
    rcases this with rfl | rfl <;> simp [splitWords]

theorem get_overSet_at (ws : List Word) (m : SMap Word) (c b j : Nat) (hj : j < ws.length) :
    (overList (ws.zipIdx b) m fun m p => m.set (c + p.2) p.1).get (c + b + j) = ws.getD j 0 := by
  induction ws generalizing m b j with
  | nil => simp at hj
  | cons x t ih =>
    show (overList (t.zipIdx (b + 1)) (m.set (c + b) x) _).get _ = _
    cases j with
    | zero =>
      rw [get_overSet _ _ _ _ (by
        intro p hp
        have := List.mem_zipIdx hp
        omega)]
      simp
    | succ j =>
      have := ih (m.set (c + b) x) (b + 1) j (by simpa using hj)
      have e : c + (b + 1) + j = c + b + (j + 1) := by omega
      rw [e] at this
      rw [this]; simp

/-- What a destination holds after its result is written (spec/04 R75, R76). -/
theorem Workgroup.writeSel_holds (w : Workgroup) (free : Nat) (d : Sel) (k : Nat) (hk : k = 1 ∨ k = 2) (ls : List Nat)
    (hn : ls.Nodup) (val : Nat → Dword) :
    Holds w (w.writeSel free d (ls.map fun l => (l, splitWords k (val l)))) ls (some (d, k)) val := by
  have hv : ∀ m ∈ ls, (ls.map fun l => (l, splitWords k (val l))).find? (fun p => p.1 == m) = some (m, splitWords k (val m)) := by
    intro m hm
    induction ls with
    | nil => simp at hm
    | cons a t ih =>
      by_cases h : a = m
      · simp [h]
      · simp only [List.nodup_cons] at hn
        simp [h]
        have := ih hn.2 (by rcases List.mem_cons.1 hm with rfl | hm; exact absurd rfl h; exact hm)
        simpa using this
  unfold Holds
  split
  · trivial
  · rename_i n j hd
    simp only [Option.some.injEq, Prod.mk.injEq] at hd
    obtain ⟨rfl, rfl⟩ := hd
    intro l c hl hc i hi
    unfold Workgroup.writeSel
    have : (ls.map fun l => (l, splitWords k (val l))).getLast? = some (l, splitWords k (val l)) := by
      rw [List.getLast?_map, hl]; rfl
    simp only [this, hc]
    rw [Workgroup.crew_updCrew_self]
    have h2 := get_overSet_at (splitWords k (val l)) (w.crew c).s n 0 i (by rw [splitWords_length hk]; exact hi)
    simp only [Nat.add_zero] at h2
    rw [h2, splitWords_getD hk _ hi]
  · rename_i q j hq hd
    simp only [Option.some.injEq, Prod.mk.injEq] at hd
    obtain ⟨rfl, rfl⟩ := hd
    intro c hc l hl i hi hs
    have hne : ∀ n, d ≠ .s n := by
      rintro n rfl
      exact hq n rfl
    have : w.writeSel free d (ls.map fun l => (l, splitWords k (val l))) =
        overList (ls.map fun l => (l, splitWords k (val l))) w fun w p =>
          overList p.2.zipIdx w fun w q => w.writeReg free p.1 (c + q.2) q.1 := by
      unfold Workgroup.writeSel
      split
      · rename_i n; exact absurd rfl (hne n)
      · simp [hc]
    rw [this, reg_overLanes _ _ _ _ (by rw [List.map_map]; simpa [Function.comp_def] using hn) _ _ hs, hv l hl]
    simp only [splitWords_length hk]
    rw [if_pos (by omega)]
    have e : c + i - c = i := by omega
    rw [e, splitWords_getD hk _ hi]

end Sys2Proof.Machine
end

