-- ==== Sys2Proof/Laws/Compute.lean ====
section
/-! SUPPORT. An instruction that computes in every lane: what its issue does, said once. -/

namespace Sys2Proof.Machine

open Sys2Proof Sys2Proof.Safety

/-- The lanes of a mask are distinct. -/
theorem lanesOf_nodup (h : Nat) (m : BitVec 32) : (lanesOf h m).Nodup := by
  unfold lanesOf maskList
  refine List.Nodup.map ?_ (List.Nodup.filter _ List.nodup_range)
  intro a b hab
  simpa using hab

theorem Workgroup.lane_closeRegion (w : Workgroup) (ls : List Nat) (l : Nat) :
    (w.closeRegion ls).lane l = if l ∈ ls then { w.lane l with opened := false } else w.lane l := by
  unfold Workgroup.closeRegion
  induction ls generalizing w with
  | nil => rfl
  | cons a t ih =>
    show (overList t (w.updLane a fun x => { x with opened := false }) _).lane l = _
    rw [ih, Workgroup.lane_updLane]
    by_cases h : l = a
    · subst h; by_cases h2 : l ∈ t <;> simp [h2]
    · by_cases h2 : l ∈ t <;> simp [h, h2]

theorem Workgroup.closeRegion_rest (w : Workgroup) (ls : List Nat) :
    w.closeRegion ls = { w with lanes := (w.closeRegion ls).lanes } := by
  unfold Workgroup.closeRegion
  induction ls generalizing w with
  | nil => rfl
  | cons a t ih =>
    show overList t (w.updLane a fun x => { x with opened := false }) _ = _
    rw [ih]
    rfl

theorem Workgroup.crew_closeRegion (w : Workgroup) (ls : List Nat) (c : Nat) : (w.closeRegion ls).crew c = w.crew c := by
  rw [Workgroup.closeRegion_rest]
  rfl

/-- What taking pops may change: the queues of the core, the binding of the crew, and whether lanes' regions are open. -/
theorem State.takePops_kept (s : State) (e : Env) (i : Instr) :
    (s.takePops e i) = { s with wgs := (s.takePops e i).wgs, cores := (s.takePops e i).cores } ∧
    (∀ u, u ≠ e.t → (s.takePops e i).wg u = s.wg u) ∧
    ((s.takePops e i).wg e.t = { s.wg e.t with lanes := ((s.takePops e i).wg e.t).lanes, crews := ((s.takePops e i).wg e.t).crews }) ∧
    (∀ l, l ∉ e.ls → ((s.takePops e i).wg e.t).lane l = (s.wg e.t).lane l) ∧
    (∀ l, ((s.takePops e i).wg e.t).lane l = { (s.wg e.t).lane l with opened := (((s.takePops e i).wg e.t).lane l).opened }) ∧
    (∀ c, ((s.takePops e i).wg e.t).crew c = { (s.wg e.t).crew c with appr := (((s.takePops e i).wg e.t).crew c).appr }) ∧
    (popless i = true → s.takePops e i = s) := by
  unfold State.takePops
  dsimp only
  by_cases hp : (popQueues i.reads).isEmpty = true ∨ e.ls.isEmpty = true
  · rw [if_pos hp]
    exact ⟨rfl, fun _ _ => rfl, rfl, fun _ _ => rfl, fun _ => rfl, fun _ => rfl, fun _ => rfl⟩
  · rw [if_neg hp]
    have hpl : popless i = true → False := fun h => hp (Or.inl h)
    cases hb : ((s.wg e.t).crew (e.crew?.getD 0)).appr with
    | none => simp
    | some b =>
      have key : ∀ s1 : State, s1 = { s with cores := s1.cores } → ∀ b' : ApprBinding,
          let s' := s1.updWg e.t fun w => (w.updCrew (e.crew?.getD 0) fun x => { x with appr := some b' }).closeRegion e.ls
          s' = { s with wgs := s'.wgs, cores := s'.cores } ∧ (∀ u, u ≠ e.t → s'.wg u = s.wg u) ∧
          (s'.wg e.t = { s.wg e.t with lanes := (s'.wg e.t).lanes, crews := (s'.wg e.t).crews }) ∧
          (∀ l, l ∉ e.ls → (s'.wg e.t).lane l = (s.wg e.t).lane l) ∧
          (∀ l, (s'.wg e.t).lane l = { (s.wg e.t).lane l with opened := ((s'.wg e.t).lane l).opened }) ∧
          (∀ c, (s'.wg e.t).crew c = { (s.wg e.t).crew c with appr := ((s'.wg e.t).crew c).appr }) ∧
          (popless i = true → s' = s) := by
        intro s1 h1 b'
        have hw : ∀ u, s1.wg u = s.wg u := by intro u; rw [h1]; rfl
        dsimp only
        refine ⟨?_, ?_, ?_, ?_, ?_, ?_, fun h => (hpl h).elim⟩
        · rw [h1]; rfl
        · intro u hu; rw [State.wg_updWg_ne _ _ hu, hw]
        · rw [State.wg_updWg_self, hw, Workgroup.closeRegion_rest]; rfl
        · intro l hl
          rw [State.wg_updWg_self, hw, Workgroup.lane_closeRegion, if_neg hl]; rfl
        · intro l
          rw [State.wg_updWg_self, hw, Workgroup.lane_closeRegion]
          split <;> rfl
        · intro c
          rw [State.wg_updWg_self, hw, Workgroup.crew_closeRegion, Workgroup.crew_updCrew]
          split
          · rename_i h; rw [h]
          · rfl
      dsimp only
      cases b.unit with
      | none => exact key s rfl _
      | some u => exact key _ rfl _

/-- A result that has been performed, closed by a gang without locks. -/
theorem State.settle_ok' {e : Env} {i : Instr} {s : State} {l : List (Nat × Dword)} (hl : e.holders = []) :
    State.settleRes e i (.ok s l) = ((s.updWg e.t fun w => w).takePops e i).advance e.t e.g.id i e.run l := by
  unfold State.settleRes State.countLocks
  simp [hl, overList]

theorem Workgroup.lane_sumUp (w : Workgroup) (f : FFlags) (a b l : Nat) : (w.sumUp f a b).lane l = w.lane l := rfl

/-- A saturating count never falls, and adding nothing leaves it. -/
theorem le_satAdd (x : Word) (n : Nat) : x.toNat ≤ (satAdd x n).toNat := by
  have := x.isLt
  unfold satAdd
  split
  · show _ ≤ 0xFFFFFFFF
    omega
  · rw [BitVec.toNat_ofNat, Nat.mod_eq_of_lt (by omega)]
    omega

theorem satAdd_zero (x : Word) : satAdd x 0 = x := by
  have := x.isLt
  unfold satAdd
  rw [if_neg (by omega)]
  simp

theorem Safety.SummaryGrown.refl (w : Workgroup) (i : Instr) : SummaryGrown w w i :=
  ⟨by simp, fun _ => rfl, ⟨Nat.le_refl _, fun _ => rfl⟩, ⟨Nat.le_refl _, fun _ => rfl⟩⟩

theorem Safety.SummaryGrown.trans {a b c : Workgroup} {i : Instr} (h : SummaryGrown a b i) (k : SummaryGrown b c i) :
    SummaryGrown a c i := by
  refine ⟨?_, fun x => (k.flags x).trans (h.flags x), ⟨Nat.le_trans h.satcnt.1 k.satcnt.1, fun x => (k.satcnt.2 x).trans (h.satcnt.2 x)⟩,
    ⟨Nat.le_trans h.nanscore.1 k.nanscore.1, fun x => (k.nanscore.2 x).trans (h.nanscore.2 x)⟩⟩
  have h1 := h.sticky
  have h2 := k.sticky
  rw [h2, ← BitVec.or_assoc, ← h1]

/-- What an instruction may do to predicates, CF and the summary of a workgroup (spec/04 R77, spec/05 R116). -/
structure Safety.FlagsFit (i : Instr) (w w' : Workgroup) : Prop where
  carry : writesCf i = false → ∀ l, (w'.lane l).cf = (w.lane l).cf
  preds : ∀ l n, writesPred i ≠ some n → (w'.lane l).pred n = (w.lane l).pred n
  summary : SummaryGrown w w' i

theorem Safety.FlagsFit.refl (i : Instr) (w : Workgroup) : FlagsFit i w w :=
  ⟨fun _ _ => rfl, fun _ _ _ => rfl, Safety.SummaryGrown.refl w i⟩

theorem Safety.FlagsFit.trans {i : Instr} {a b c : Workgroup} (h : FlagsFit i a b) (k : FlagsFit i b c) : FlagsFit i a c :=
  ⟨fun x l => (k.carry x l).trans (h.carry x l), fun l n x => (k.preds l n x).trans (h.preds l n x), Safety.SummaryGrown.trans h.summary k.summary⟩

/-- Workgroups that agree on predicates, CF and the summary. -/
theorem Safety.FlagsFit.of_eq {i : Instr} {w w' : Workgroup} (h : ∀ l, (w'.lane l).cf = (w.lane l).cf ∧ (w'.lane l).p = (w.lane l).p)
    (hf : w'.flags = w.flags) (hs : w'.satcnt = w.satcnt) (hn : w'.nanscore = w.nanscore) : FlagsFit i w w' := by
  refine ⟨fun _ l => (h l).1, fun l n _ => ?_, ⟨?_, fun _ => hf, ⟨?_, fun _ => hs⟩, ⟨?_, fun _ => hn⟩⟩⟩
  · unfold Lane.pred
    rw [(h l).2]
  · rw [hf]; simp
  · rw [hs]
  · rw [hn]

/-- A lane instruction whose body touches only what it may write is performed, and no more. -/
theorem laneIssue_performed {s : State} {t : Nat} {g : Gang} {r : ClauseRun} {i : Instr} {es : List ApprEntry}
    (h : Ready s t g r i es) (body : Env → Res) (s1 : State) (l : List (Nat × Dword))
    (hb : body { envOf s t g r with pops := es } = .ok s1 l)
    (h1 : s1 = { taken s with wgs := s1.wgs }) (h2 : ∀ u, u ≠ t → s1.wg u = s.wg u)
    (h3 : Touch (execLanes g r) (fun n => ∃ d ∈ i.writes, n ∈ codesOf d) (fun n => ∃ d ∈ i.writes, n ∈ uniformOf d)
      (s.wg t) (s1.wg t)) (h4 : Safety.FlagsFit i (s.wg t) (s1.wg t)) :
    ∃ s', laneIssue i body s = .next s' ∧ Performed s s' t g r i ∧ (∀ x c, ((s'.wg t).lane x).reg c = ((s1.wg t).lane x).reg c) ∧
      (∀ x, ((s'.wg t).lane x).cf = ((s1.wg t).lane x).cf ∧ ((s'.wg t).lane x).p = ((s1.wg t).lane x).p) ∧
      (∀ c, ((s'.wg t).crew c).s = ((s1.wg t).crew c).s) ∧ SummaryKept s1 s' t := by
  have hlk : ({ envOf s t g r with pops := es } : Env).holders = [] := Env.holders_nil (e := { envOf s t g r with pops := es }) h.unlocked
  rw [laneIssue_ready h body, hb, State.settle_ok' hlk]
  change ∃ s', Host.Outcome.next (State.spent (State.advance (State.takePops (s1.updWg t fun w => w) _ i) t g.id i r l) s.free) = _ ∧ _
  obtain ⟨k1, k2, k3, k4, k5, k6, k7⟩ := State.takePops_kept (s1.updWg t fun w => w) { envOf s t g r with pops := es } i
  generalize hs2 : State.takePops (s1.updWg t fun w => w) { envOf s t g r with pops := es } i = s2 at *
  change ∀ u, u ≠ t → _ at k2
  change s2.wg t = { (s1.updWg t fun w => w).wg t with lanes := (s2.wg t).lanes, crews := (s2.wg t).crews } at k3
  change ∀ l, l ∉ execLanes g r → (s2.wg t).lane l = ((s1.updWg t fun w => w).wg t).lane l at k4
  change ∀ l, (s2.wg t).lane l = { ((s1.updWg t fun w => w).wg t).lane l with opened := ((s2.wg t).lane l).opened } at k5
  change ∀ c, (s2.wg t).crew c = { ((s1.updWg t fun w => w).wg t).crew c with appr := ((s2.wg t).crew c).appr } at k6
  simp only [State.wg_updWg_self] at k3 k4 k5 k6
  obtain ⟨f, hf, ha⟩ := State.advance_frame (s := s2) (t := t) (g := g) (i := i) h.plain h.within l
  have hg2 : ∀ x, (s2.wg t).gang? x = (s.wg t).gang? x := by
    intro x
    rw [k3, h3.rest]
    rfl
  have hh : Safety.Holding s2 t g r := ⟨g, by rw [hg2]; exact h.gang, rfl, rfl, rfl, rfl, h.clause⟩
  have hwent := State.advance_wentOn (i := i) hh h.plain h.within l
  rw [ha] at hwent ⊢
  refine ⟨_, rfl, ⟨hwent, ⟨?_, ?_, ?_⟩, ?_⟩, ?_, ?_, ?_, ?_⟩
  · rw [k1, h1]; rfl
  · intro hc
    have := k7 (by simpa using hc)
    rw [this, h1]; rfl
  · intro u hu
    show (s2.updGang t g.id f).wg u = _
    unfold State.updGang
    rw [State.wg_updWg_ne _ _ hu, k2 u hu, State.wg_updWg_ne _ _ hu, h2 u hu]
  all_goals
    have hw : (State.spent (s2.updGang t g.id f) s.free).wg t = (s2.wg t).updGang g.id f := by
      show (s2.updGang t g.id f).wg t = _
      unfold State.updGang
      rw [State.wg_updWg_self]
  · rw [hw]
    refine ⟨?_, ?_, ?_, ?_, ?_, ?_, ?_, ?_, ?_, ?_, ?_⟩
    · rw [k3, h3.rest]; rfl
    · intro x hx
      show (s2.wg t).lane x = _
      rw [k4 x hx, h3.outside x hx]
    · intro x
      show (s2.wg t).lane x = { (s.wg t).lane x with
        v := ((s2.wg t).lane x).v, o := ((s2.wg t).lane x).o, p := ((s2.wg t).lane x).p, cf := ((s2.wg t).lane x).cf
        opened := ((s2.wg t).lane x).opened }
      rw [k5 x, h3.lane x]
    · intro x n hn
      show ((s2.wg t).lane x).reg n = _
      rw [k5 x]
      exact h3.regs x n (by rintro ⟨d, hd, hx⟩; exact hn d hd hx)
    · intro hp x
      show ((s2.wg t).lane x).opened = _
      rw [k7 hp, State.wg_updWg_self, h3.lane x]
    · intro hc x
      show ((s2.wg t).lane x).cf = _
      rw [k5 x]
      exact h4.carry hc x
    · intro x n hn
      show ((s2.wg t).lane x).pred n = _
      rw [k5 x]
      exact h4.preds x n hn
    · have := h4.summary
      refine ⟨?_, ?_, ?_, ?_⟩
      · show (s2.wg t).flags = _ ||| (s2.wg t).flags
        rw [k3]; exact this.sticky
      · show _ → (s2.wg t).flags = _
        rw [k3]; exact this.flags
      · show _ ≤ (s2.wg t).satcnt.toNat ∧ (_ → (s2.wg t).satcnt = _)
        rw [k3]; exact this.satcnt
      · show _ ≤ (s2.wg t).nanscore.toNat ∧ (_ → (s2.wg t).nanscore = _)
        rw [k3]; exact this.nanscore
    · intro y hy
      rw [Workgroup.gang_updGang_ne _ _ hf hy, hg2]
    · intro c
      show (s2.wg t).crew c = { (s.wg t).crew c with
        s := ((s2.wg t).crew c).s, old := ((s2.wg t).crew c).old, flight := ((s2.wg t).crew c).flight, appr := ((s2.wg t).crew c).appr }
      rw [k6 c, h3.crew c]
    · intro c n hn
      show ((s2.wg t).crew c).s.get n = _
      rw [k6 c]
      exact h3.uniform c n (by rintro ⟨d, hd, hx⟩; exact hn d hd hx)
  · intro x c
    rw [hw]
    show ((s2.wg t).lane x).reg c = _
    rw [k5 x]; rfl
  · intro x
    rw [hw]
    show ((s2.wg t).lane x).cf = _ ∧ ((s2.wg t).lane x).p = _
    rw [k5 x]; exact ⟨rfl, rfl⟩
  · intro c
    rw [hw]
    show ((s2.wg t).crew c).s = _
    rw [k6 c]
  · unfold SummaryKept
    rw [hw]
    show (s2.wg t).flags = _ ∧ (s2.wg t).satcnt = _ ∧ (s2.wg t).nanscore = _
    rw [k3]
    exact ⟨rfl, rfl, rfl⟩

/-! ### Bodies of computing instructions -/

theorem Workgroup.lane_writeReg_flags (w : Workgroup) (free l c : Nat) (v : Word) (m : Nat) :
    ((w.writeReg free l c v).lane m).cf = (w.lane m).cf ∧ ((w.writeReg free l c v).lane m).p = (w.lane m).p := by
  rw [Workgroup.lane_writeReg]
  split
  · exact ⟨rfl, rfl⟩
  · rw [Workgroup.lane_updLane]
    split
    · rename_i h; subst h
      unfold Lane.setReg
      split <;> exact ⟨rfl, rfl⟩
    · exact ⟨rfl, rfl⟩

theorem Workgroup.writeSel_flags (w : Workgroup) (free : Nat) (d : Sel) (vals : List (Nat × List Word)) (m : Nat) :
    ((w.writeSel free d vals).lane m).cf = (w.lane m).cf ∧ ((w.writeSel free d vals).lane m).p = (w.lane m).p := by
  unfold Workgroup.writeSel
  split
  · split
    · exact ⟨rfl, rfl⟩
    · split <;> exact ⟨rfl, rfl⟩
  · split
    · exact ⟨rfl, rfl⟩
    · rename_i c _
      induction vals generalizing w with
      | nil => exact ⟨rfl, rfl⟩
      | cons p t ih =>
        have h1 := ih (overList p.2.zipIdx w fun w q => w.writeReg free p.1 (c + q.2) q.1)
        have h2 : ∀ (l : List (Word × Nat)) (w : Workgroup), ((overList l w fun w q => w.writeReg free p.1 (c + q.2) q.1).lane m).cf =
            (w.lane m).cf ∧ ((overList l w fun w q => w.writeReg free p.1 (c + q.2) q.1).lane m).p = (w.lane m).p := by
          intro l
          induction l with
          | nil => intro w; exact ⟨rfl, rfl⟩
          | cons q l ih2 =>
            intro w
            have h3 := ih2 (w.writeReg free p.1 (c + q.2) q.1)
            have h4 := Workgroup.lane_writeReg_flags w free p.1 (c + q.2) q.1 m
            exact ⟨h3.1.trans h4.1, h3.2.trans h4.2⟩
        exact ⟨h1.1.trans (h2 _ w).1, h1.2.trans (h2 _ w).2⟩

theorem Workgroup.writeSel_cf (w : Workgroup) (free : Nat) (d : Sel) (vals : List (Nat × List Word)) (m : Nat) :
    ((w.writeSel free d vals).lane m).cf = (w.lane m).cf := (w.writeSel_flags free d vals m).1

theorem Workgroup.writeSel_p (w : Workgroup) (free : Nat) (d : Sel) (vals : List (Nat × List Word)) (m : Nat) :
    ((w.writeSel free d vals).lane m).p = (w.lane m).p := (w.writeSel_flags free d vals m).2


/-- Writing registers leaves the summary alone. -/
theorem Workgroup.writeReg_summary (w : Workgroup) (free l c : Nat) (v : Word) :
    (w.writeReg free l c v).flags = w.flags ∧ (w.writeReg free l c v).satcnt = w.satcnt ∧
      (w.writeReg free l c v).nanscore = w.nanscore := by
  unfold Workgroup.writeReg
  dsimp only
  split <;> split <;> exact ⟨rfl, rfl, rfl⟩

theorem Workgroup.writeSel_summary (w : Workgroup) (free : Nat) (d : Sel) (vals : List (Nat × List Word)) :
    (w.writeSel free d vals).flags = w.flags ∧ (w.writeSel free d vals).satcnt = w.satcnt ∧
      (w.writeSel free d vals).nanscore = w.nanscore := by
  unfold Workgroup.writeSel
  split
  · split
    · exact ⟨rfl, rfl, rfl⟩
    · split <;> exact ⟨rfl, rfl, rfl⟩
  · split
    · exact ⟨rfl, rfl, rfl⟩
    · rename_i c _
      have one : ∀ (a : Nat) (l : List (Word × Nat)) (w : Workgroup),
          let w' := overList l w fun w q => w.writeReg free a (c + q.2) q.1
          w'.flags = w.flags ∧ w'.satcnt = w.satcnt ∧ w'.nanscore = w.nanscore := by
        intro a l
        induction l with
        | nil => intro w; exact ⟨rfl, rfl, rfl⟩
        | cons q l ih =>
          intro w
          have h1 := ih (w.writeReg free a (c + q.2) q.1)
          have h2 := Workgroup.writeReg_summary w free a (c + q.2) q.1
          exact ⟨h1.1.trans h2.1, h1.2.1.trans h2.2.1, h1.2.2.trans h2.2.2⟩
      induction vals generalizing w with
      | nil => exact ⟨rfl, rfl, rfl⟩
      | cons p t ih =>
        have h1 := ih (overList p.2.zipIdx w fun w q => w.writeReg free p.1 (c + q.2) q.1)
        have h2 := one p.1 p.2.zipIdx w
        exact ⟨h1.1.trans h2.1, h1.2.1.trans h2.2.1, h1.2.2.trans h2.2.2⟩

/-- A lane's computation writes CF, a predicate, flags and counts only where the instruction may. -/
structure Safety.Conforms (i : Instr) (o : LaneOut) : Prop where
  cf : writesCf i = false → o.cf = none
  pd : ∀ n b, o.pd = some (n, b) → writesPred i = some n
  flags : raisesFlags i = false → o.flags = 0
  sat : saturates i = false → o.sat = 0
  nan : countsNans i = false → o.nan = 0

/-- A predicate written leaves every other as it is. -/
theorem Lane.pred_setPred_ne (x : Lane) {n m : Nat} (h : n ≠ m) (b : Bool) : (x.setPred n b).pred m = x.pred m := by
  unfold Lane.setPred
  split
  · rfl
  · unfold Lane.pred
    dsimp only
    rcases Nat.lt_or_ge m 8 with hm | hm
    · congr 1
      have hb : (BitVec.ofNat 8 (2 ^ n)).getLsbD m = false := by
        rw [BitVec.getLsbD_ofNat, Nat.testBit_two_pow]
        simp [h]
      cases b
      · show (x.p &&& ~~~BitVec.ofNat 8 (2 ^ n)).getLsbD m = _
        rw [BitVec.getLsbD_and, BitVec.getLsbD_not, hb]
        simp [hm]
      · show (x.p ||| BitVec.ofNat 8 (2 ^ n)).getLsbD m = _
        rw [BitVec.getLsbD_or, hb, Bool.or_false]
    · rw [BitVec.getLsbD_of_ge _ m hm, BitVec.getLsbD_of_ge _ m hm]

/-- The effects of computed lanes fit the instruction where each lane's computation does. -/
theorem Safety.FlagsFit.effects {i : Instr} (w : Workgroup) (rs : List (Nat × LaneOut)) (h : ∀ p ∈ rs, Conforms i p.2) :
    FlagsFit i w (w.effects rs) := by
  unfold Workgroup.effects
  induction rs generalizing w with
  | nil => exact .refl i w
  | cons r t ih =>
    have hr := h r (by simp)
    refine FlagsFit.trans ?_ (ih _ fun p hp => h p (by simp [hp]))
    refine ⟨?_, ?_, ?_, ?_, ?_, ?_⟩
    · intro hc l
      rw [Workgroup.lane_sumUp, Workgroup.lane_updLane]
      split
      · rename_i e; subst e
        rw [hr.cf hc]
        dsimp only
        split <;> (try unfold Lane.setPred; split) <;> rfl
      · rfl
    · intro l n hn
      rw [Workgroup.lane_sumUp, Workgroup.lane_updLane]
      split
      · rename_i e; subst e
        dsimp only
        cases hp : r.2.pd with
        | none => cases r.2.cf <;> rfl
        | some q =>
          obtain ⟨m, b⟩ := q
          have hm : m ≠ n := by
            rintro rfl
            exact hn (hr.pd m b hp)
          dsimp only
          rw [Lane.pred_setPred_ne _ hm]
          cases r.2.cf <;> rfl
      · rfl
    · show w.flags ||| r.2.flags = w.flags ||| (w.flags ||| r.2.flags)
      rw [← BitVec.or_assoc, BitVec.or_self]
    · intro hf
      show w.flags ||| r.2.flags = w.flags
      rw [hr.flags hf]
      simp
    · refine ⟨le_satAdd .., fun hf => ?_⟩
      show satAdd w.satcnt r.2.sat = w.satcnt
      rw [hr.sat hf, satAdd_zero]
    · refine ⟨le_satAdd .., fun hf => ?_⟩
      show satAdd w.nanscore r.2.nan = w.nanscore
      rw [hr.nan hf, satAdd_zero]

/-- Destinations that an instruction declares, in the form in which a body names them. -/
def Safety.Declared (i : Instr) (d : Dest) : Prop := ∀ q k, d = some (q, k) → (q, k) ∈ i.writes ∧ (k = 1 ∨ k = 2)

theorem Touch.mono {ls : List Nat} {a b c d : Nat → Prop} {w w' : Workgroup} (h : Touch ls a b w w') (hac : ∀ n, a n → c n)
    (hbd : ∀ n, b n → d n) : Touch ls c d w w' :=
  ⟨h.rest, h.outside, h.lane, fun l n hn => h.regs l n (fun x => hn (hac n x)), h.crew,
    fun x n hn => h.uniform x n (fun y => hn (hbd n y))⟩

/-- A result written to a destination, if there is one. -/
def Workgroup.putDest (w : Workgroup) (free : Nat) (d : Dest) (rs : List (Nat × Dword)) : Workgroup :=
  match d with
  | some (q, n) => w.writeSel free q (rs.map fun p => (p.1, splitWords n p.2))
  | none => w

/-- Writing a declared result touches what the instruction may write. -/
theorem Touch.writeDest {ls : List Nat} {i : Instr} {d : Dest} (hd : Safety.Declared i d) (w : Workgroup) (free : Nat)
    (rs : List (Nat × Dword)) (hl : ∀ p ∈ rs, p.1 ∈ ls) :
    Touch ls (fun n => ∃ d ∈ i.writes, n ∈ codesOf d) (fun n => ∃ d ∈ i.writes, n ∈ uniformOf d) w
      (w.putDest free d rs) := by
  cases d with
  | none => exact Touch.refl ..
  | some x =>
    obtain ⟨q, k⟩ := x
    have := hd q k rfl
    refine (Touch.writeSel (k := k) w free q _ ?_).mono (fun n hn => ⟨(q, k), this.1, hn⟩) (fun n hn => ⟨(q, k), this.1, hn⟩)
    intro p hp
    obtain ⟨y, hy, rfl⟩ := List.mem_map.1 hp
    exact ⟨hl y hy, splitWords_length this.2 _⟩

/-- The effects of computed lanes leave registers, pending loads and crews alone. -/
theorem Workgroup.effects_kept (w : Workgroup) (rs : List (Nat × LaneOut)) :
    (w.effects rs).crews = w.crews ∧ (∀ l c, ((w.effects rs).lane l).reg c = (w.lane l).reg c) ∧
      (∀ l, ((w.effects rs).lane l).crew = (w.lane l).crew) := by
  unfold Workgroup.effects
  induction rs generalizing w with
  | nil => exact ⟨rfl, fun _ _ => rfl, fun _ => rfl⟩
  | cons r t ih =>
    have h := ih ((w.updLane r.1 fun x =>
      let x1 := match r.2.cf with | some b => { x with cf := b } | none => x
      match r.2.pd with | some (n, b) => x1.setPred n b | none => x1).sumUp r.2.flags r.2.sat r.2.nan)
    refine ⟨h.1, fun l c => (h.2.1 l c).trans ?_, fun l => (h.2.2 l).trans ?_⟩
    · rw [Workgroup.lane_sumUp, Workgroup.lane_updLane]
      split
      · rename_i e; subst e
        dsimp only
        split <;> split <;> (try unfold Lane.setPred; split) <;> rfl
      · rfl
    · rw [Workgroup.lane_sumUp, Workgroup.lane_updLane]
      split
      · rename_i e; subst e
        dsimp only
        split <;> split <;> (try unfold Lane.setPred; split) <;> rfl
      · rfl

/-- `Holds` speaks of registers, crews and pending loads only. -/
theorem Safety.Holds.congr {w v w' v' : Workgroup} {ls : List Nat} {d : Dest} {val : Nat → Dword}
    (h : Holds w w' ls d val) (h1 : ∀ l, (v.lane l).crew = (w.lane l).crew) (h2 : v.crews = w.crews)
    (h3 : ∀ l c, (v'.lane l).reg c = (w'.lane l).reg c) (h4 : ∀ c, (v'.crew c).s = (w'.crew c).s) :
    Holds v v' ls d val := by
  unfold Holds at *
  split
  · trivial
  · simp only at h
    intro l c hl hc j hj
    rw [h4]
    exact h l c hl (by rw [← h1]; exact hc) j hj
  · rename_i q k hq
    split at h
    · trivial
    · rename_i n j hd
      simp only [Option.some.injEq, Prod.mk.injEq] at hd
      exact absurd hd.1 (hq n)
    · rename_i q' k' hq' hd
      simp only [Option.some.injEq, Prod.mk.injEq] at hd
      obtain ⟨rfl, rfl⟩ := hd
      intro c hc l hl j hj hs
      rw [h3]
      refine h c hc l hl j hj ?_
      unfold Settled Workgroup.pendingItems at *
      rw [← h2]
      exact hs

/-- The lanes of E after effects: CF and predicates of a lane as its own computation gives them. -/
theorem Workgroup.effects_flags (w : Workgroup) (f : Nat → LaneOut) (ls : List Nat) (hn : ls.Nodup) (l : Nat) :
    let x := (w.effects (ls.map fun l => (l, f l))).lane l
    (x.cf = if l ∈ ls then (match (f l).cf with | some b => b | none => (w.lane l).cf) else (w.lane l).cf) ∧
    (x.p = if l ∈ ls then (match (f l).pd with | some (n, b) => ((w.lane l).setPred n b).p | none => (w.lane l).p)
      else (w.lane l).p) := by
  unfold Workgroup.effects
  induction ls generalizing w with
  | nil => exact ⟨rfl, rfl⟩
  | cons a t ih =>
    simp only [List.nodup_cons] at hn
    have h := ih ((w.updLane a fun x =>
      let x1 := match (f a).cf with | some b => { x with cf := b } | none => x
      match (f a).pd with | some (n, b) => x1.setPred n b | none => x1).sumUp (f a).flags (f a).sat (f a).nan) hn.2
    have e : ∀ l, ((w.updLane a fun x =>
      let x1 := match (f a).cf with | some b => { x with cf := b } | none => x
      match (f a).pd with | some (n, b) => x1.setPred n b | none => x1).sumUp (f a).flags (f a).sat (f a).nan).lane l =
      (w.updLane a fun x =>
      let x1 := match (f a).cf with | some b => { x with cf := b } | none => x
      match (f a).pd with | some (n, b) => x1.setPred n b | none => x1).lane l := fun _ => rfl
    dsimp only at h ⊢
    refine ⟨h.1.trans ?_, h.2.trans ?_⟩
    · rw [e, Workgroup.lane_updLane]
      by_cases hla : l = a
      · subst hla
        simp only [hn.1, if_false, List.mem_cons, true_or, if_true]
        cases (f l).cf <;> cases (f l).pd <;> (try unfold Lane.setPred) <;> (try simp) <;> split <;> rfl
      · simp [hla]
    · rw [e, Workgroup.lane_updLane]
      by_cases hla : l = a
      · subst hla
        simp only [hn.1, if_false, List.mem_cons, true_or, if_true]
        cases (f l).cf <;> cases (f l).pd <;> (try unfold Lane.setPred) <;> (try simp) <;> split <;> rfl
      · simp [hla]

/-- An instruction that computes in every lane: it is performed, its destination holds the results, CF and predicates are as each
lane's computation gives them. -/
theorem laneIssue_alu {s : State} {t : Nat} {g : Gang} {r : ClauseRun} {i : Instr} {es : List ApprEntry}
    (h : Ready s t g r i es) (ops : List Opd) (d : Dest) (f : LaneIn → LaneOut) (hd : Safety.Declared i d)
    (hf : ∀ x, Safety.Conforms i (f x)) :
    let e := opEnv s t g r es
    let out := fun l => f { vals := e.opds l ops 0 0, cf := cfOf s t l, pred := predOf s t l
                            rnd := roundOf ((s.wg t).lane l).fpmode }
    ∃ s', laneIssue i (aluBody ops d f) s = .next s' ∧ Performed s s' t g r i ∧
      Holds (s.wg t) (s'.wg t) (execLanes g r) d (fun l => (out l).res) ∧
      (∀ l ∈ execLanes g r, (cfOf s' t l = match (out l).cf with | some b => b | none => cfOf s t l) ∧
        ((s'.wg t).lane l).p = (match (out l).pd with | some (n, b) => (((s.wg t).lane l).setPred n b).p | none => ((s.wg t).lane l).p)) ∧
      let w1 := (s.wg t).effects ((execLanes g r).map fun l => (l, out l))
      (s'.wg t).flags = w1.flags ∧ (s'.wg t).satcnt = w1.satcnt ∧ (s'.wg t).nanscore = w1.nanscore := by
  intro e out
  have hnd : (execLanes g r).Nodup := lanesOf_nodup _ _
  have hc : e.compute ops f = (execLanes g r).map fun l => (l, out l) := rfl
  let w1 := (s.wg t).effects ((execLanes g r).map fun l => (l, out l))
  let w2 := w1.putDest s.free d ((execLanes g r).map fun l => (l, (out l).res))
  have hb : aluBody ops d f e = .ok ((taken s).updWg t fun _ => w2) ((execLanes g r).map fun l => (l, (out l).res)) := by
    unfold aluBody
    dsimp only
    rw [hc, List.map_map]
    have : e.s = taken s := rfl
    rw [this]
    congr 1
    unfold State.updWg SMap.upd
    congr 2
    cases d with
    | none => rfl
    | some x =>
      obtain ⟨q, k⟩ := x
      dsimp only [w2, Workgroup.putDest]
      rw [List.map_map, List.map_map]
      rfl
  have ht : Touch (execLanes g r) (fun n => ∃ d ∈ i.writes, n ∈ codesOf d) (fun n => ∃ d ∈ i.writes, n ∈ uniformOf d)
      (s.wg t) w2 := by
    refine Touch.trans (Touch.effects _ _ ?_) (Touch.writeDest hd w1 s.free _ ?_)
    · intro p hp
      obtain ⟨l, hl, rfl⟩ := List.mem_map.1 hp
      exact hl
    · intro p hp
      obtain ⟨l, hl, rfl⟩ := List.mem_map.1 hp
      exact hl
  have hsum : w2.flags = w1.flags ∧ w2.satcnt = w1.satcnt ∧ w2.nanscore = w1.nanscore := by
    dsimp only [w2, Workgroup.putDest]
    split
    · exact Workgroup.writeSel_summary ..
    · exact ⟨rfl, rfl, rfl⟩
  have hfl : ∀ l, (w2.lane l).cf = (w1.lane l).cf ∧ (w2.lane l).p = (w1.lane l).p := by
    intro l
    dsimp only [w2, Workgroup.putDest]
    split
    · exact ⟨Workgroup.writeSel_cf .., Workgroup.writeSel_p ..⟩
    · exact ⟨rfl, rfl⟩
  have hfit : Safety.FlagsFit i (s.wg t) w2 := by
    refine (Safety.FlagsFit.effects _ _ ?_).trans (.of_eq hfl hsum.1 hsum.2.1 hsum.2.2)
    intro p hp
    obtain ⟨l, _, rfl⟩ := List.mem_map.1 hp
    exact hf _
  obtain ⟨s', h1, h2, h3, h4, h5, h6⟩ := laneIssue_performed h (aluBody ops d f) _ _ hb rfl
    (fun u hu => State.wg_updWg_ne _ _ hu) (by rw [State.wg_updWg_self]; exact ht) (by rw [State.wg_updWg_self]; exact hfit)
  unfold SummaryKept at h6
  rw [State.wg_updWg_self] at h3 h4 h5 h6
  obtain ⟨k1, k2, k3⟩ := Workgroup.effects_kept (s.wg t) ((execLanes g r).map fun l => (l, out l))
  refine ⟨s', h1, h2, ?_, fun l hl => ?_, h6.1.trans hsum.1, h6.2.1.trans hsum.2.1, h6.2.2.trans hsum.2.2⟩
  · cases hdd : d with
    | none => trivial
    | some x =>
      obtain ⟨q, k⟩ := x
      have := Workgroup.writeSel_holds w1 s.free q k (hd q k hdd).2 (execLanes g r) hnd (fun l => (out l).res)
      refine Safety.Holds.congr this (fun l => (k3 l).symm) k1.symm ?_ ?_
      · intro l c
        rw [h3]
        simp only [w2, hdd, Workgroup.putDest, List.map_map]
        rfl
      · intro c
        rw [h5]
        simp only [w2, hdd, Workgroup.putDest, List.map_map]
        rfl
  · have hf := Workgroup.effects_flags (s.wg t) out (execLanes g r) hnd l
    unfold cfOf
    rw [(h4 l).1, (h4 l).2, (hfl l).1, (hfl l).2, hf.1, hf.2, if_pos hl, if_pos hl]
    exact ⟨rfl, rfl⟩

end Sys2Proof.Machine
end

