-- ==== Sys2Proof/Laws/Turns.lean ====
section
/-! SUPPORT. What an island cycle keeps apart: the issue slots that a turn takes, the contributions that a barrier register has in a
cycle and their one merge, and the end of a cycle for a stream register. -/

namespace Sys2Proof.Machine

open Sys2Proof

/-! ### Issue slots -/

@[simp] theorem State.endIssues_mem (s : State) (c : Nat) : (s.endIssues c).mem = s.mem := rfl
@[simp] theorem State.endIssues_wgs (s : State) (c : Nat) : (s.endIssues c).wgs = s.wgs := rfl
@[simp] theorem State.endIssues_free (s : State) (c : Nat) : (s.endIssues c).free = s.free := rfl
@[simp] theorem State.endIssues_agenda (s : State) (c : Nat) : (s.endIssues c).agenda = s.agenda := rfl
@[simp] theorem State.tookSlot_mem (s : State) (c q : Nat) : (s.tookSlot c q).mem = s.mem := rfl
@[simp] theorem State.tookSlot_wgs (s : State) (c q : Nat) : (s.tookSlot c q).wgs = s.wgs := rfl
@[simp] theorem State.tookSlot_free (s : State) (c q : Nat) : (s.tookSlot c q).free = s.free := rfl
@[simp] theorem State.tookSlot_agenda (s : State) (c q : Nat) : (s.tookSlot c q).agenda = s.agenda := rfl
@[simp] theorem State.tookAttempt_mem (s : State) (w : Workgroup) (g : Gang) : (s.tookAttempt w g).mem = s.mem := rfl
@[simp] theorem State.tookAttempt_wgs (s : State) (w : Workgroup) (g : Gang) : (s.tookAttempt w g).wgs = s.wgs := rfl
@[simp] theorem State.tookAttempt_free (s : State) (w : Workgroup) (g : Gang) : (s.tookAttempt w g).free = s.free := rfl

/-- Everything a turn that is picked can do before it runs: nothing, take a slot, or make a lock attempt. -/
theorem State.takeTurn_cases (s : State) (u : Turn) :
    s.takeTurn u = s ∨ (∃ c q, s.takeTurn u = s.tookSlot c q) ∨ ∃ w g, s.takeTurn u = s.tookAttempt w g := by
  cases u with
  | gang t g =>
    simp only [State.takeTurn]
    split
    · split
      · unfold State.tookTurn
        split
        · exact .inr (.inr ⟨_, _, rfl⟩)
        · exact .inr (.inl ⟨_, _, rfl⟩)
      · exact .inl rfl
    · exact .inl rfl
  | _ => exact .inl rfl

@[simp] theorem State.takeTurn_mem (s : State) (u : Turn) : (s.takeTurn u).mem = s.mem := by
  obtain h | ⟨_, _, h⟩ | ⟨_, _, h⟩ := s.takeTurn_cases u <;> rw [h] <;> rfl
@[simp] theorem State.takeTurn_wgs (s : State) (u : Turn) : (s.takeTurn u).wgs = s.wgs := by
  obtain h | ⟨_, _, h⟩ | ⟨_, _, h⟩ := s.takeTurn_cases u <;> rw [h] <;> rfl
@[simp] theorem State.takeTurn_free (s : State) (u : Turn) : (s.takeTurn u).free = s.free := by
  obtain h | ⟨_, _, h⟩ | ⟨_, _, h⟩ := s.takeTurn_cases u <;> rw [h] <;> rfl

/-- Once a quadrant has issued, it and the lower ones issue no more in the cycle. -/
theorem Core.issued_blocks (k : Core) {p q : Nat} (h : p ≤ q) (hq : q < 4) :
    ({ k with issued := k.issued ||| BitVec.ofNat 4 (1 <<< q) } : Core).mayIssue p = false := by
  have all : ∀ (x : BitVec 4) (q p : Fin 4), p ≤ q → ((x ||| BitVec.ofNat 4 (1 <<< q.val)) >>> p.val == 0) = false := by decide
  have := all k.issued ⟨q, hq⟩ ⟨p, by omega⟩ h
  simp only [Core.mayIssue, this, Bool.and_false]

/-! ### Barriers and streams -/

@[simp] theorem Barrier.add_phase (k : Barrier) (a : Nat) (b : Int) (e : Nat) : (k.add a b e).phase = k.phase := rfl
@[simp] theorem Barrier.add_init (k : Barrier) (a : Nat) (b : Int) (e : Nat) : (k.add a b e).init = k.init := rfl
@[simp] theorem Barrier.add_due (k : Barrier) (a : Nat) (b : Int) (e : Nat) : (k.add a b e).due = true := rfl

/-- Contributions of one cycle add up before they are merged. -/
theorem Barrier.add_add (k : Barrier) (a a' : Nat) (b b' : Int) (e e' : Nat) :
    (k.add a b e).add a' b' e' = k.add (a + a') (b + b') (e + e') := by
  simp [Barrier.add, Nat.add_assoc, Int.add_assoc]

/-- A register without contributions stands at the end of a cycle. -/
@[simp] theorem Barrier.cycleEnd_idle (k : Barrier) (h : k.due = false) : k.cycleEnd = k := by simp [Barrier.cycleEnd, h]

@[simp] theorem Barrier.cycleEnd_due (k : Barrier) : k.cycleEnd.due = false := by
  unfold Barrier.cycleEnd
  split <;> simp_all

/-- A merge ends at most one phase. -/
theorem Barrier.merge_phase (k : Barrier) (a : Nat) (b : Int) (e : Nat) :
    (k.merge a b e).phase = k.phase ∨ (k.merge a b e).phase = k.phase + 1 := by
  simp only [Barrier.merge]
  split
  · exact .inl rfl
  · split
    · exact .inr rfl
    · exact .inl rfl

/-- After a cycle nothing of a stream register waits for the end of one. -/
theorem Stream.cycleEnd_settled (q : Stream) : q.cycleEnd.newFree = [] ∧ q.cycleEnd.newFull = [] ∧ q.cycleEnd.newClaimed = [] ∧
    q.cycleEnd.newTaken = [] ∧ q.cycleEnd.newRing = none := by
  unfold Stream.cycleEnd
  split <;> simp_all [Ring.fresh]

/-- A ring bound in the cycle stands afresh after it. -/
theorem Stream.cycleEnd_bound {q : Stream} {r : Ring} (h : q.newRing = some r) : q.cycleEnd = r.fresh := by simp [Stream.cycleEnd, h]

end Sys2Proof.Machine
end

