-- ==== Sys2Proof/Tests/Slice0.lean ====
section
/-! SUPPORT. Tests: words of the spec decode to what they stand for; ill-formed terms are refused; single steps do what the spec
says; and for every statement a state and operands that meet its hypotheses. -/

namespace Sys2Proof.Tests

set_option Elab.async false

open Sys2Proof Sys2Proof.Machine Sys2Proof.Safety

/-! ### A small machine: one gang of four lanes -/

/-- Outcome answers a next state. -/
def goes (o : Host.Outcome State Fault Refusal) : Bool := match o with | .next _ => true | _ => false

/-- A test of the next state. -/
def gives (o : Host.Outcome State Fault Refusal) (p : State → Bool) : Bool := match o with | .next s => p s | _ => false

/-- A list of words decodes to an instruction of a length. -/
def reads (ws : List Nat) (i : Instr) : Bool :=
  match decodeWords ws with
  | .ok (j, n) => j == i && n == ws.length
  | .error _ => false

/-- A clause of seven NOPs that stands at its first word: issued for lanes 0 to 3, executed by the lanes of `x`. -/
def run (x : BitVec 32) : ClauseRun :=
  { (default : ClauseRun) with
    base := 0, hdr := 0xFDF80000, words := List.replicate 7 0xF2800000, pos := 0, issue := 0xF, exec := x }

/-- The gang of lanes 0 to 3 that stands in it. -/
def gang (x : BitVec 32) : Gang := { (default : Gang) with id := 0, mask := 0xF, ages := freshAges, clause := some (run x) }

/-- A live lane of crew 0. -/
def lane : Lane := { (default : Lane) with live := true, crew := some 0 }

/-- A workgroup of the four lanes. -/
def group (x : BitVec 32) : Workgroup :=
  { fetchGroup [] with nlanes := 4, lanes := [(0, lane), (1, lane), (2, lane), (3, lane)], gangs := [gang x] }

/-- The machine with that workgroup, changed by `f`, and then by `h`; the gang moves next. -/
def at' (x : BitVec 32) (f : Workgroup → Workgroup) (h : State → State) : State :=
  h { State.reset with wgs := [(0, f (group x))], agenda := [.gang 0 0] }

/-- The gang stands there, and its lanes are in crew 0, with no lock, no gate call and no machine check. -/
def quiet (s : State) (x : BitVec 32) : Bool :=
  s.agenda == [.gang 0 0] && (s.wg 0).gang? 0 == some (gang x) && ((s.wg 0).crew 0).mcheck == none && ((s.wg 0).crew 0).depth == 0 && s.damage == [] &&
  (issueLanes (gang x) (run x)).all fun l => ((s.wg 0).lane l).crew == some 0 && ((s.wg 0).lane l).lock == none

/-- The lanes that execute are lanes of the issue. -/
def within (x : BitVec 32) : Bool := (execLanes (gang x) (run x)).all fun l => (issueLanes (gang x) (run x)).contains l

theorem stands_of {s : State} {x : BitVec 32} (h : quiet s x = true) : Stands s 0 (gang x) (run x) := by
  simp only [quiet, Bool.and_eq_true, beq_iff_eq] at h
  obtain ⟨⟨⟨⟨⟨h1, h2⟩, -⟩, -⟩, -⟩, -⟩ := h
  exact ⟨by rw [h1]; rfl, h2, rfl, rfl, rfl⟩

theorem crew_of {s : State} {x : BitVec 32} (h : quiet s x = true) {l : Nat} (hl : l ∈ issueLanes (gang x) (run x)) :
    ((s.wg 0).lane l).crew = some 0 ∧ ((s.wg 0).lane l).lock = none := by
  simp only [quiet, Bool.and_eq_true, beq_iff_eq, List.all_eq_true] at h
  exact h.2 l hl

theorem mem_of {x : BitVec 32} (h : within x = true) {l : Nat} (hl : l ∈ execLanes (gang x) (run x)) :
    l ∈ issueLanes (gang x) (run x) := by
  simp only [within, List.all_eq_true, List.contains_eq_mem, decide_eq_true_eq] at h
  exact h l hl

/-- Where it stands so, the gang stands ready for every instruction that pops nothing. -/
theorem ready_of {s : State} {x : BitVec 32} {i : Instr} (h : quiet s x = true) (hx : within x = true) (hp : popless i = true) :
    Ready s 0 (gang x) (run x) i [] := by
  have h0 := h
  simp only [quiet, Bool.and_eq_true, beq_iff_eq] at h0
  obtain ⟨⟨⟨⟨⟨-, -⟩, h3⟩, h4⟩, h5⟩, -⟩ := h0
  have hc := fun l hl => (crew_of h (mem_of hx (l := l) hl)).1
  refine ⟨⟨stands_of h, ?_, h5, ⟨?_, ?_⟩, ?_, ?_, ?_⟩, ?_⟩
  · intro l hl c hc'
    rw [(crew_of h hl).1] at hc'
    obtain rfl := Option.some.inj hc'
    exact h3
  · intro _ l hl; rw [hc l hl]; simp
  · intro _ l hl m hm; rw [hc l hl, hc m hm]
  · intro l hl e he
    simp [Workgroup.gateOf, hc l hl, h4] at he
  · simp only [popless] at hp
    simp [Env.popsOf, hp]
  · exact .inr (by simp [ClauseRun.next, run])
  · exact fun l hl => (crew_of h hl).2

theorem ok_exists {ε α : Type} (x : Except ε α) (P : α → Prop) [∀ a, Decidable (P a)]
    (h : (match x with | .ok a => decide (P a) | .error _ => false) = true) : ∃ a, x = .ok a ∧ P a := by
  cases x with
  | ok a => exact ⟨a, rfl, of_decide_eq_true h⟩
  | error e => cases h

/-- Two lanes, 0 and 1, execute. -/
def s2 : State := at' 3 id id

/-- No lane executes. -/
def s0 : State := at' 0 id id

theorem ready2 (i : Instr) (h : popless i = true) : Ready s2 0 (gang 3) (run 3) i [] := ready_of (by decide) (by decide) h
theorem ready0 (i : Instr) (h : popless i = true) : Ready s0 0 (gang 0) (run 0) i [] := ready_of (by decide) (by decide) h

/-! ### The small machine with tables in memory -/

/-- Memory with 8-byte numbers stored at addresses. -/
def memOf (l : List (Nat × Nat)) : Memory := l.foldl (fun m p => Memory.write m p.1 (bytesOfNat 8 p.2)) []

/-- Domain 0 (spec/14 R333-R337): a descriptor at 0 whose tables map the first GiB to itself, and the second to the bank control
windows as Device memory. -/
def tables (super : Bool) : List (Nat × Nat) :=
  [(0, if super then 3 else 1), (8, 0x1000), (0x1000, 0x2001), (0x2000, 0x3001), (0x3000, 0x20000027), (0x3008, 0x10020000037)]

/-- Records 5 to 7 of node 0 (spec/09 R198): linear, of 4096 bytes at 0x10000; paged, of tiles of 1024 bytes at 0x20000 with its map
at 0x21000; bank-direct, of pseudo-channel 0. -/
def records : List RecEntry :=
  [⟨.node 0, false, 5, [0x10000, 0x18000000, 0, 0, 0x1000], 0x30140⟩, ⟨.node 0, false, 6, [0x20000, 0x1A000000, 0, 0, 0x1000, 0, 0, 0, 1], 0x30180⟩,
   ⟨.node 0, false, 7, [0x40000000, 0x1D000000, 0, 0, 0x10000], 0x301C0⟩]

/-- The small machine with them, and with more in memory. -/
def atMem (x : BitVec 32) (super : Bool) (more : List (Nat × Nat)) (f : Workgroup → Workgroup) (h : State → State) : State :=
  at' x (fun w => f { w with nrec := 8 }) fun s => h { s with mem := memOf (tables super ++ more), cores := [(0, { (default : Core) with recs := records })] }

/-- A result that is there, and what holds of it. -/
def okB {ε α : Type} (x : Except ε α) (p : α → Bool) : Bool := match x with | .ok a => p a | .error _ => false

theorem okB_elim {ε α : Type} {x : Except ε α} {p : α → Bool} (h : okB x p = true) : ∃ a, x = .ok a ∧ p a = true := by
  cases x with
  | ok a => exact ⟨a, rfl, h⟩
  | error e => cases h

theorem test_tables_translate :
    (match ((atMem 1 false [] id id).walk 0 0 true false 0x12345 0).1 with | .ok pa ty _ _ _ _ _ => (pa, ty) == (0x12345, 0) | _ => false) = true ∧
    (match ((atMem 1 false [] id id).walk 0 0 true false 0x40000008 0).1 with | .ok pa ty _ _ _ _ _ => (pa, ty) == (0x10000000008, 2) | _ => false) = true := by decide

/-- An access that faults no lane and parks nowhere, and what holds of it. -/
def accB (x : AccOut) (p : State → List LaneAcc → Bool) : Bool := match x with | .ok s as => p s as | _ => false

theorem accB_elim {x : AccOut} {p : State → List LaneAcc → Bool} (h : accB x p = true) : ∃ s as, x = .ok s as ∧ p s as = true := by
  cases x with
  | ok s as => exact ⟨s, as, rfl, h⟩
  | trap q => cases h
  | park s p pd => cases h

/-- Translations that can be made, and what holds of the state then. -/
def walkedB (e : Env) (rd : State → Nat → List Span) (p : State → Bool) : Bool :=
  let x := e.s.translated e.t e.ls rd
  x.2 == none && p x.1

theorem walkedB_elim {e : Env} {rd : State → Nat → List Span} {p : State → Bool} (h : walkedB e rd p = true) :
    ∃ b, Walked e rd b ∧ p b = true := by
  simp only [walkedB, Bool.and_eq_true, beq_iff_eq] at h
  exact ⟨_, Prod.ext rfl h.1, h.2⟩

/-- A record that is found, and what holds of the state then. -/
def foundB (e : Env) (c idx : Nat) (more : State → Nat → List Span) (p : State → Bool) : Bool :=
  walkedB e (e.recWalk c idx more) fun x =>
    let b := x.recUse e.w c idx
    (b.wg e.t).gang? e.g.id == some e.g && p b

theorem foundB_elim {e : Env} {c idx : Nat} {more : State → Nat → List Span} {p : State → Bool} (h : foundB e c idx more p = true) :
    ∃ b, Found e c idx more b ∧ p b = true := by
  obtain ⟨x, hx, hp⟩ := walkedB_elim h
  simp only [Bool.and_eq_true, beq_iff_eq] at hp
  exact ⟨_, ⟨x, hx, rfl, hp.1⟩, hp.2⟩

theorem noBankHeld {s : State} (h : s.pchs = []) : NoBankHeld s := by
  intro p
  show (s.pchs.get p).held = false
  rw [h]
  rfl

/-- No crew of any workgroup waits for a forced return. -/
theorem noneForced {s : State} (h : (s.wgs.all fun p => p.2.crews.all fun q => q.2.forced.isNone) = true) (t : Nat) : NoneForced s t := by
  have hg : ∀ (m : SMap Crew), (m.all fun q => q.2.forced.isNone) = true → ∀ k, (SMap.get m k).forced = none := by
    intro m
    induction m with
    | nil => intro _ k; rfl
    | cons p m ih =>
      obtain ⟨a, b⟩ := p
      intro h k
      simp only [List.all_cons, Bool.and_eq_true, Option.isNone_iff_eq_none] at h
      unfold SMap.get
      split
      · exact h.1
      · exact ih h.2 k
  have hw : ∀ (m : SMap Workgroup), (m.all fun p => p.2.crews.all fun q => q.2.forced.isNone) = true →
      ((SMap.get m t).crews.all fun q => q.2.forced.isNone) = true := by
    intro m
    induction m with
    | nil => intro _; rfl
    | cons p m ih =>
      obtain ⟨a, b⟩ := p
      intro h
      simp only [List.all_cons, Bool.and_eq_true] at h
      unfold SMap.get
      split
      · exact h.1
      · exact ih h.2
  exact fun k => hg _ (hw _ h) k
/-! ### Words written bit by bit from the encodings of the spec -/

/-- spec/04 R79, R82. -/
theorem test_decode_integer_1 :
    [reads [0b0000000_000_1_1110010_1101101_0000000] (.mov ⟨.s32, true, .s 2, .a 1⟩),
     reads [0b0000001_001_0_0_000000_0000110_0000000, 0xFFFFFFFF] (.movi .u32 false (.v 6) (.imm 0xFFFFFFFF)),
     reads [0b0000001_000_0_1_000000_0000000_0000000, 0b10111111_11100101_00000000_00000000] (.movi .s32 false (.v 191) (.reg (.o 5))),
     reads [0b0000010_001_0_0_000000_0001100_0000000, 0x1F] (.movs false (.v 12) (.q 7)),
     reads [0b0000010_001_1_0_000001_1011110_0000000, 0x3] (.movsWide true (.v 94)),
     reads [0b0000011_001_0_0_000000_0000000_0000101, 0x10] (.movsw .fpmode (.v 5)),
     reads [0b0000100_000_0_1011111_1100011_1101001] (.iadd ⟨.s32, false, .v 95, .o 3, .x 1⟩),
     reads [0b0000101_001_0_1011111_1100011_1101001] (.iaddc ⟨.u32, false, .v 95, .o 3, .x 1⟩),
     reads [0b0000110_110_0_1011111_1100011_1101001] (.isub ⟨.s4, false, .v 95, .o 3, .x 1⟩),
     reads [0b0000111_001_0_1011111_1100011_1101001] (.isubb ⟨.u32, false, .v 95, .o 3, .x 1⟩),
     reads [0b0001000_101_0_1011111_1100011_1101001] (.imul ⟨.u8, false, .v 95, .o 3, .x 1⟩),
     reads [0b0001001_100_0_1011111_1100011_1101001] (.imulh ⟨.s8, false, .v 95, .o 3, .x 1⟩)].all id = true := by decide

/-- spec/04 R79, R82, continued. -/
theorem test_decode_integer_2 :
    [reads [0b0001010_010_0_1_000000_0000000_0000000, 0b10111111_11011111_11110000_11100101] (.imad ⟨.s16, false, .v 191, .s 31, .zero, .o 5⟩),
     reads [0b0001011_001_0_1_000000_0000000_0000000, 0b10111110_00000001_00000010_11110000] (.imadw ⟨.u32, false, .v 190, .v 1, .v 2, .zero⟩),
     reads [0b0001100_011_0_1011111_1100011_1101001] (.idiv ⟨.u16, false, .v 95, .o 3, .x 1⟩),
     reads [0b0001101_000_0_1011111_1100011_1101001] (.irem ⟨.s32, false, .v 95, .o 3, .x 1⟩),
     reads [0b0001110_000_0_1011111_1100011_1101001] (.imin ⟨.s32, false, .v 95, .o 3, .x 1⟩),
     reads [0b0001111_000_0_1011111_1100011_1101001] (.imax ⟨.s32, false, .v 95, .o 3, .x 1⟩)].all id = true := by decide

/-- spec/04 R82, R86-R90, spec/02 R35. -/
theorem test_decode_bits_1 :
    [reads [0b0010000_000_0_0000001_0000010_0000000] (.iabs ⟨.s32, false, .v 1, .v 2⟩),
     reads [0b0010000_000_0_0000001_0000010_0000001] (.ineg ⟨.s32, false, .v 1, .v 2⟩),
     reads [0b0010000_000_0_0000001_0000010_0000010] (.popc ⟨.s32, false, .v 1, .v 2⟩),
     reads [0b0010000_000_0_0000001_0000010_0000011] (.clz ⟨.s32, false, .v 1, .v 2⟩),
     reads [0b0010000_000_0_0000001_0000010_0000100] (.ctz ⟨.s32, false, .v 1, .v 2⟩),
     reads [0b0010000_000_0_0000001_0000010_0000101] (.brev ⟨.s32, false, .v 1, .v 2⟩),
     reads [0b0010001_000_1_0000001_0000010_1111010] (.and ⟨true, .v 1, .v 2, .negOne⟩),
     reads [0b0010001_001_1_0000001_0000010_1111010] (.or ⟨true, .v 1, .v 2, .negOne⟩),
     reads [0b0010001_010_1_0000001_0000010_1111010] (.xor ⟨true, .v 1, .v 2, .negOne⟩),
     reads [0b0010001_011_1_0000001_0000010_1111010] (.andn ⟨true, .v 1, .v 2, .negOne⟩),
     reads [0b0010010_000_0_1011111_1100011_1101001] (.shl ⟨.s32, false, .v 95, .o 3, .x 1⟩),
     reads [0b0010011_000_0_1011111_1100011_1101001] (.shr ⟨.s32, false, .v 95, .o 3, .x 1⟩)].all id = true := by decide

/-- spec/04 R82, R86-R90, spec/02 R35, continued. -/
theorem test_decode_bits_2 :
    [reads [0b0010100_000_0_1011111_1100011_1101001] (.sar ⟨.s32, false, .v 95, .o 3, .x 1⟩),
     reads [0b0010101_000_0_1011111_1100011_1101001] (.rot ⟨.s32, false, .v 95, .o 3, .x 1⟩),
     reads [0b0010110_000_0_0_000000_0000010_0000001, 0x804] (.bfx .s32 false (.v 2) (.v 1) (.imm 0x804)),
     reads [0b0010111_001_0_1_000000_0000000_0000000, 0b10111110_00000011_00000100_00000101] (.bfi .u32 false (.reg (.v 190) (.v 3) (.v 4) (.v 5))),
     reads [0b0011000_001_0_0_000000_0000010_0000001, 0x3210] (.perm false (.imm (.v 2) (.v 1) 0x3210)),
     reads [0b0011001_000_0_0_000101_0000111_0000011, 0x9] (.icmp .ge .s32 7 (.v 3) (.imm 9)),
     reads [0b0011010_000_0_1_001111_0000000_0000000, 0b00000110_00000110_00000100_00000000] (.sel .s32 false ⟨7, true⟩ (.v 6) (.v 6) (.reg (.v 4))),
     reads [0b0011011_011_0_0001001_0000010_0001000] (.plop .andn ⟨1, true⟩ ⟨2, false⟩ ⟨0, true⟩),
     reads [0b0011100_100_0_0000100_0000001_0000000] (.vote .popc false (.v 4) (.v 1)),
     reads [0b0011101_010_0_0000110_0000011_0001001] (.shfl .down false (.v 6) (.v 3) (.v 9))].all id = true := by decide

/-- spec/06 R121-R141. -/
theorem test_decode_float_1 :
    [reads [0b0100000_011_0_0000011_0000001_1100010] (.fadd ⟨.bf16, false, .v 3, .v 1, .o 2⟩),
     reads [0b0100001_011_0_0000011_0000001_1100010] (.fsub ⟨.bf16, false, .v 3, .v 1, .o 2⟩),
     reads [0b0100010_011_0_0000011_0000001_1100010] (.fmul ⟨.bf16, false, .v 3, .v 1, .o 2⟩),
     reads [0b0100011_001_0_1_000100_0000000_0000000, 0b10111110_00000010_00000100_00000110] (.ffma .f64 false .dyn (.v 190) (.v 2) (.v 4) (.v 6)),
     reads [0b0100100_011_0_0000011_0000001_1100010] (.fmin ⟨.bf16, false, .v 3, .v 1, .o 2⟩),
     reads [0b0100101_011_0_0000011_0000001_1100010] (.fmax ⟨.bf16, false, .v 3, .v 1, .o 2⟩),
     reads [0b0100110_011_0_0000011_0000001_1100010] (.fcopys ⟨.bf16, false, .v 3, .v 1, .o 2⟩),
     reads [0b0100111_000_0_0_000111_0000011_0000001, 0x3F800000] (.fcmp .unord .f32 3 (.v 1) (.imm 0x3F800000)),
     reads [0b0101000_010_0_0000001_0000010_0000000] (.fclass ⟨.f16, false, .v 1, .v 2⟩),
     reads [0b0101001_011_0_0000011_0000001_1100010] (.fdiv ⟨.bf16, false, .v 3, .v 1, .o 2⟩),
     reads [0b0101010_001_0_0000010_0000100_0000000] (.fsqrt ⟨.f64, false, .v 2, .v 4⟩),
     reads [0b0101011_000_0_0000001_0000010_0000000] (.frcp ⟨.f32, false, .v 1, .v 2⟩)].all id = true := by decide

/-- spec/06 R121-R141, continued. -/
theorem test_decode_float_2 :
    [reads [0b0101011_000_0_0000001_0000010_0000001] (.frsq ⟨.f32, false, .v 1, .v 2⟩),
     reads [0b0101011_000_0_0000001_0000010_0000010] (.fexp2 ⟨.f32, false, .v 1, .v 2⟩),
     reads [0b0101011_000_0_0000001_0000010_0000011] (.flog2 ⟨.f32, false, .v 1, .v 2⟩),
     reads [0b0101011_000_0_0000001_0000010_0000100] (.fsin ⟨.f32, false, .v 1, .v 2⟩),
     reads [0b0101011_000_0_0000001_0000010_0000101] (.fcos ⟨.f32, false, .v 1, .v 2⟩),
     reads [0b0101100_011_0_0000011_0000001_1100010] (.fscale ⟨.bf16, false, .v 3, .v 1, .o 2⟩),
     reads [0b0101101_000_0_0000001_0000010_0000100] (.frnd ⟨.f32, false, .v 1, .v 2⟩ .fpmode),
     reads [0b0101110_000_0_0_000000_0000001_0000010, 0xC] (.cvt .f32 false (.static .rne) (.v 1) (.v 2) .e4m3 true),
     reads [0b0101111_000_0_0_000011_0000001_0000010, 0x5] (.cvti .f32 false (.static .rdn) (.v 1) (.v 2) .u8),
     reads [0b0110000_000_0_0_000010_0000110_0000010, 0x2] (.cvtf .f32 false (.static .rup) (.v 6) (.v 2) .s16),
     reads [0b0110001_000_0_1011110_0000001_0000000] (.split3 false (.v 94) (.v 1)),
     reads [0b0110010_000_0_1_000000_0000000_0000000, 0b00001001_00000100_00000001_00000010] (.qnt false (.v 9) (.v 4) (.v 1) (.v 2))].all id = true := by decide

/-- spec/06 R121-R141, continued. -/
theorem test_decode_float_3 :
    [reads [0b0110011_000_1_1_000000_0000000_0000000, 0b00001000_00000100_00000001_00000010] (.dqnt true (.v 8) (.v 4) (.v 1) (.v 2)),
     reads [0b0110100_000_0_1_001111_0000000_0000000, 0b00001000_00101000_01010000_00000000] (.smxmerge false 16 (.v 8) (.v 40) (.v 80)),
     reads [0b0110101_000_0_0000001_0000010_0000000] (.freda ⟨.f32, false, .v 1, .v 2⟩),
     reads [0b0110110_000_0_0000001_0000010_0000000] (.fredm ⟨.f32, false, .v 1, .v 2⟩),
     reads [0b0110111_000_0_1_000000_0000000_0000000, 0b00001001_00001010_00001011_00001100] (.unpkd .f32 false (.v 9) (.v 10) (.v 11) (.v 12)),
     reads [0b0111000_010_0_1_000000_0000000_0000000, 0b00001001_00001010_00000000_00000000] (.unpkz .f16 false (.v 9) (.v 10)),
     reads [0b0111001_011_0_1_000001_0000000_0000000, 0b00001001_00001010_00001011_00001100] (.unpkr .bf16 false (.static .rtz) (.v 9) (.v 10) (.v 11) (.v 12))].all id = true := by decide

/-- spec/07 R157, R163 and spec/03 R57. -/
theorem test_decode_matrix :
    [reads [0b1000000_1111_1011000_1110110_1100000, 0b0_1_00000000_00000000_00000000_000000] (.mma 15 (.reg 88) (.spad 6) (.o 0)),
     reads [0b1000001_0001_1110000_0001000_0000001, 0b1_0_00000000_00000000_00000000_000000] (.mmas 1 (.spad 0) (.reg 8) (.v 1)),
     reads [0b1000010_0010_0010000_0000000_0000001, 0b0_0_00000111_00000000_11111111_000000] (.mmam 2 (.reg 16) (.v 1) (.v 7) 255),
     reads [0b1000011_0011_0000000_0001000_0000001, 0b0_0_11011111_00001001_00000000_000000] (.mmax 3 (.reg 0) (.reg 8) (.v 1) (.s 31) (.v 9)),
     reads [0b1000100_0000_0010000_0011000_1100000, 0b0_0_00000000_00000000_00000000_000000] (.mmaz 0 (.reg 16) (.reg 24) (.o 0)),
     reads [0b1000101_000_0_0000000_0000000_0001111] (.mmafin 15),
     reads [0b1000110_000_0_0110000_0000000_1010011] (.maccrd .int32 3 .o 48),
     reads [0b1000111_000_0_0000000_0001000_0100010] (.maccwr .fp64 2 .e (some 8)),
     reads [0b1000111_000_0_0000000_1111000_0000010] (.maccwr .fp32 2 .e none),
     reads [0b1001000_000_0_0000000_0000000_0010000] (.mxwait none),
     reads [0b1001001_000_0_1_000011_0000000_0000000, 0b10111111_00000000_00000000_00000000] (.mtrans .b64 false 191 0)].all id = true := by decide

/-- spec/08 R172, R179, R185, R186, R188. -/
theorem test_decode_scratchpad_1 :
    [reads [0b1010000_011_0_0_001001_0000100_0000010, 0x8] (.lds ⟨.b64, .acquire, .core, .v 4, .v 2, .imm 8⟩),
     reads [0b1010001_011_0_0_000010_0000100_0000010, 0x8] (.sts ⟨.b64, .release, .crew, .v 4, .v 2, .imm 8⟩),
     reads [0b1010010_011_0_0_010100_0000100_0000010, 0x8] (.ldsc ⟨.b64, .seq, .cluster, .v 4, .v 2, .imm 8⟩),
     reads [0b1010011_011_0_0_000000_0000100_0000010, 0x8] (.stsc ⟨.b64, .relaxed, .crew, .v 4, .v 2, .imm 8⟩),
     reads [0b1010100_011_0_0_000011_0000100_0000010, 0x0] (.ldlk .b64 .cluster 1 (.v 4) (.v 2) (.imm 0)),
     reads [0b1010101_011_0_0_000001_0000110_0000010, 0x0] (.stul .b64 .cluster (.v 6) (.v 2) (.imm 0)),
     reads [0b1010110_010_0_1_011010_0000000_0000000, 0b00001001_00000010_00000011_00000100] (.atoms .cas .b32 .cluster (some (.v 9)) (.v 2) (.v 3) (some (.v 4))),
     reads [0b1010110_011_1_1_000000_0000000_0000000, 0b00000000_00000010_00000100_00000000] (.atoms .add .b64 .local none (.v 2) (.v 4) none),
     reads [0b1010111_100_0_0000000_0000011_0000000] (.waitc .ic (.v 3)),
     reads [0b1011000_111_0_0000001_0000000_0000000] (.qrd 7 (.v 1)),
     reads [0b1011001_110_0_0000001_0000000_0000000] (.qpushClaim 6 (.v 1)),
     reads [0b1011001_101_0_0000000_0000001_0000001] (.qpushCommit 5 (.v 1))].all id = true := by decide

/-- spec/08 R172, R179, R185, R186, R188, continued. -/
theorem test_decode_scratchpad_2 :
    [reads [0b1011010_100_0_0000000_0000001_0000000] (.qfree 4 (.v 1)),
     reads [0b1011011_000_0_1_000011_0000000_0000000, 0b00000000_00000001_00000010_00000000] (.qinit 3 (.v 1) (.v 2))].all id = true := by decide

/-- spec/09 R221-R230 and spec/03 R55, R56. -/
theorem test_decode_device_1 :
    [reads [0b1100000_010_0_0_0000100_0000111_000000, 0b00000010_001_100_0_0_00000000_00000000] (.ld .b32 .acquire .device false false (.off (.imm 2) (.v 7)) (.v 4) none),
     reads [0b1100000_011_1_0_0000100_0001000_000000, 0b00000000_000_000_1_1_11011111_00000001] (.ld .b64 .relaxed .crew true true (.ptr (.v 8)) (.v 4) (some (.s 31))),
     reads [0b1100001_100_0_1_0000100_0000111_000000, 0b11000011_010_101_0_0_00000000_00000000] (.st .b128 .release .system (.off (.reg (.s 3)) (.v 7)) (.v 4) none),
     reads [0b1100010_010_1_0000100_0000001_0000010, 0b0000011_0000000_0000000_0000000_011_1, 0b0000000_1100011_11111111_111111_1_000] (.ldt ⟨.b32, true, true, .v 4, [.v 1, .v 2, .v 3], 255, 63, some (.o 3)⟩),
     reads [0b1100011_001_0_0000100_0000001_0000010, 0b0000011_0000100_0000101_0000110_111_0, 0b0000111_0000000_00000001_000010_0_000] (.stt ⟨.b16, false, false, .v 4, [.v 1, .v 2, .v 3, .v 4, .v 5, .v 6, .v 7], 1, 2, none⟩),
     reads [0b1100100_011_1_0_0000100_0000111_000000, 0b00000101_011_011_0_1_00001001_00001010] (.atom ⟨.cas, .b64, .acqRel, .die, true, false, .imm 5, .v 7, .v 4, some (.v 9)⟩),
     reads [0b1100101_010_0_0_0000101_0000111_000000, 0b00000101_000_000_0_0_00000000_00001100] (.red ⟨.incw, .b32, .relaxed, .crew, false, false, .imm 5, .v 7, .v 5, none⟩),
     reads [0b1100110_000_0_0_0000000_0000111_000000, 0b00000101_000_000_1_0_00000000_00000000] (.prefL1 true (.imm 5) (.v 7)),
     reads [0b1100110_000_0_0_0000000_0000111_000000, 0b00000101_000_000_0_0_00000000_00000001] (.prefL2 false (.imm 5) (.v 7)),
     reads [0b1100110_000_0_0_0000000_0000111_000000, 0b00000101_000_000_0_0_00000000_00000010] (.prefPagein false (.imm 5) (.v 7)),
     reads [0b1100111_010_0_0_0000100_0000111_000000, 0b00000101_001_100_0_0_00000000_00000000] (.monitor .b32 true .device false false (.imm 5) (.v 7) (.v 4) none),
     reads [0b1101000_000_0_0000000_0000000_0000000] (.monwait)].all id = true := by decide

/-- spec/09 R221-R230 and spec/03 R55, R56, continued. -/
theorem test_decode_device_2 :
    [reads [0b1101001_100_0_0000000_0000000_0000101] (.fence .seq .system),
     reads [0b1101010_000_0_0000000_0000011_0000000] (.publish (.v 3)),
     reads [0b1101011_000_0_0_0000000_0000111_000000, 0b00000101_000_000_0_1_00001001_00000000] (.pin false (.imm 5) (.v 7) (.v 9)),
     reads [0b1101100_000_0_0_0000000_0000111_000000, 0b00000101_000_000_0_0_00000000_00000000] (.unpin false (.imm 5) (.v 7)),
     reads [0b1101101_000_0_0_0000100_0000111_000000, 0b00000101_000_000_0_0_00000000_00000000] (.resq false false (.imm 5) (.v 7) (.v 4) none),
     reads [0b1101101_000_0_0_0000100_0000111_000000, 0b00000101_000_000_0_1_00001001_00000001] (.resqFetch false false (.imm 5) (.v 7) (.v 4) (some (.v 9))),
     reads [0b1101110_000_0_1_000000_0000000_0000000, 0b00000000_00000011_10111110_00000000] (.recset (.v 3) 190),
     reads [0b1101110_000_0_1_000001_0000000_0000000, 0b00000000_00000011_00000000_00000000] (.recsetReload (.v 3)),
     reads [0b1101110_000_0_1_000010_0000000_0000000, 0b00000000_00000011_00000000_00000000] (.recsetShape (.v 3))].all id = true := by decide

/-- spec/12 R287 and spec/13 R316. -/
theorem test_decode_barriers_1 :
    [reads [0b1110000_000_0_1_111111_0000000_0000000, 0b00000000_00000001_00000010_00000000] (.binit 15 true true (.v 1) (.v 2)),
     reads [0b1110000_001_0_0_000010_0000000_0000000, 0x1000] (.bexpect 2 4096),
     reads [0b1110000_001_0_1_000010_0000000_0000000, 0b00000000_00000011_00000000_00000000] (.bexpectReg 2 (.v 3)),
     reads [0b1110000_010_0_1_010010_0000000_0000000, 0b00000000_00000011_00000100_00000000] (.barrive 2 (some (.v 3)) (.v 4)),
     reads [0b1110000_011_0_1_010010_0000000_0000000, 0b00000000_00000011_00000000_00000000] (.bwait 2 (some (.v 3))),
     reads [0b1110000_100_0_1_110010_0000000_0000000, 0b00000101_00000000_00000000_00000000] (.btest 2 3 (.v 5)),
     reads [0b1110001_000_0_1_000000_0000000_0000000, 0b00000011_00000100_00000101_00000000] (.epost (.v 3) (.v 4) (.v 5)),
     reads [0b1110010_000_0_1_000001_0000000_0000000, 0b00000011_00000100_00000101_00000000] (.eseq (.v 3) (.v 4) (some (.v 5))),
     reads [0b1110011_000_0_1_000011_0000000_0000000, 0b00000011_00000100_10111000_00000000] (.copy true true (.v 3) (.v 4) 184),
     reads [0b1110100_000_0_1_000000_0000000_0000000, 0b00010100_00000011_10111101_00000000] (.swreg (.v 20) (.v 3) 189),
     reads [0b1110100_001_0_1_000000_0000000_0000000, 0b00000000_00000011_00010100_00000000] (.swdereg (.v 3) (.v 20)),
     reads [0b1110100_010_0_1_000001_0000000_0000000, 0b00000000_00000011_00000000_00000000] (.swwait (.v 3) none)].all id = true := by decide

/-- spec/12 R287 and spec/13 R316, continued. -/
theorem test_decode_barriers_2 :
    [reads [0b1110100_011_0_1_000000_0000000_0000000, 0b00010101_00000011_00000000_00000000] (.swpos (.v 21) (.v 3)),
     reads [0b1110100_100_0_1_000000_0000000_0000000, 0b00000000_00000011_00010100_00000000] (.swforce (.v 3) (.v 20))].all id = true := by decide

/-- spec/04 R92, spec/15 R370, spec/02 R33 and spec/03 R58. -/
theorem test_decode_control_1 :
    [reads [0b1111000_000_1_111_111111111111111111] (.bra 7 true (-1)),
     reads [0b1111000_001_0_001_000000000000000101] (.call 1 false 5),
     reads [0b1111000_010_0_000_001111111111111111] (.jmpf 0 false 63 1023),
     reads [0b1111001_000_0_0000000_0000010_0000000] (.bri (.v 2)),
     reads [0b1111001_001_0_0000000_0000000_0000000] (.ret),
     reads [0b1111001_010_0_0000000_0000000_0000000] (.nop),
     reads [0b1111001_011_0_0000000_0000000_0001111] (.trap 15),
     reads [0b1111001_100_0_0000000_0000000_0000000] (.tret),
     reads [0b1111001_100_0_0000000_0000000_0000001] (.tretAbort),
     reads [0b1111001_101_0_0010100_0010101_0000000] (.excrd (.v 20) (.v 21)),
     reads [0b1111011_000_1_0000101_0000010_0000011] (.join true (.v 5) (.v 2) (.v 3)),
     reads [0b1111011_001_0_0000000_0000000_0000000] (.leave)].all id = true := by decide

/-- spec/04 R92, spec/15 R370, spec/02 R33 and spec/03 R58, continued. -/
theorem test_decode_control_2 :
    [reads [0b1111011_010_0_0000000_0000000_0000000] (.regang),
     reads [0b1111011_011_0_0000000_0000000_0000000] (.yield),
     reads [0b1111011_100_0_0000000_0000000_0000000] (.exit)].all id = true := by decide

/-- spec/04 R95, spec/16 R397, R400, spec/14 R340, R349, spec/17 R411. -/
theorem test_decode_system_1 :
    [reads [0b1111010_000_0_1_111111_0000000_0000000, 0b00000001_11100101_11110000_11011111] (.mcall 63 (.v 1) (.o 5) (.zero) (.s 31)),
     reads [0b1111010_001_0_0_000000_0000000_0000000, 0x3F] (.icfetch (.imm 63)),
     reads [0b1111010_001_0_1_000001_0000000_0000000, 0b00000000_00000001_00000010_00000000] (.icfetchSpad (.v 1) (.v 2)),
     reads [0b1111010_001_0_0_000010_0000000_0000000, 0x5] (.icfetchDrop (.imm 5)),
     reads [0b1111010_001_0_1_000011_0000000_0000000, 0b00000000_00000001_00000010_00000000] (.icfetchGate (.v 1) (.v 2)),
     reads [0b1111010_010_0_1_000000_0000000_0000000, 0b00001010_00000010_00000000_00000000] (.nodepost (.v 10) 2),
     reads [0b1111100_000_0_0_000000_0000000_0000000, 0xFFF] (.gcall 4095),
     reads [0b1111100_000_0_1_000000_0000000_0000000, 0b00000000_00000011_00000000_00000000] (.gcallReg (.v 3)),
     reads [0b1111100_001_0_0_000000_0000000_0000000, 0x0] (.gret),
     reads [0b1111100_010_0_1_000100_0000000_0000000, 0b00000000_00000010_00000011_00000000] (.xlinvPage 2 (some (.v 3))),
     reads [0b1111100_010_0_1_000001_0000000_0000000, 0b00000000_00000000_00000011_00000000] (.xlinvDomain (.v 3)),
     reads [0b1111100_010_0_1_000010_0000000_0000000, 0b00000000_10111110_00000000_00000000] (.xlinvResidency 190 none)].all id = true := by decide

/-- spec/04 R95, spec/16 R397, R400, spec/14 R340, R349, spec/17 R411, continued. -/
theorem test_decode_system_2 :
    [reads [0b1111100_010_0_1_000011_0000000_0000000, 0b00000000_00000000_00000000_00000000] (.xlinvAll),
     reads [0b1111100_011_0_1_000001_0000000_0000000, 0b00000100_00000010_00000011_00000000] (.xlprobe 4 2 (some (.v 3))),
     reads [0b1111101_000_0_1_000000_0000000_0000000, 0b00000001_00000010_00000011_00000000] (.astart (.v 1) (.v 2) (.v 3)),
     reads [0b1111101_000_0_1_000001_0000000_0000000, 0b00000001_00000000_00000000_00000000] (.astartStop (.v 1)),
     reads [0b1111101_001_0_1_000011_0000000_0000000, 0b00000000_00000001_00000000_00000000] (.apush 3 (.v 1)),
     reads [0b1111101_001_0_1_000110_0000000_0000000, 0b00000000_00000001_00000010_00000000] (.apushVec 2 (.v 1) (.v 2)),
     reads [0b1111101_001_0_1_001000_0000000_0000000, 0b00000000_00000011_00000000_00000000] (.apushBcld 0 (.v 3) (.v 0)),
     reads [0b1111101_010_0_1_000111_0000000_0000000, 0b00000000_00000001_00000010_00000100] (.vgmv 7 (.v 1) (.v 2) (.v 4)),
     reads [0b1111101_011_0_1_000111_0000000_0000000, 0b00000001_00000000_00000000_00000000] (.vgrd 7 (.v 1)),
     reads [0b1111101_100_0_1_001000_0000000_0000000, 0b00000000_00000000_00000000_00000000] (.vgwait none)].all id = true := by decide

/-! ### Ill-formed terms and words that are refused -/

/-- Selector ranges and kinds (spec/03 R59-R61, spec/04 R82): each term breaks one check. -/
theorem test_illformed_selectors :
    ([.mov ⟨.s16, false, .v 1, .v 2⟩, .mov ⟨.s32, false, .v 96, .v 2⟩, .mov ⟨.s32, false, .x 0, .v 2⟩, .mov ⟨.s32, false, .v 1, .half⟩,
      .mov ⟨.s32, false, .o 8, .v 2⟩, .mov ⟨.s32, false, .v 1, .x 4⟩, .mov ⟨.s32, false, .v 1, .a 4⟩, .mov ⟨.s32, false, .s 8, .v 2⟩,
      .movi .s8 false (.v 1) (.imm 0), .movi .s32 false (.v 96) (.imm 0), .movi .s32 false (.v 192) (.reg (.v 1)),
      .movi .s32 false (.v 1) (.reg (.s 32)), .movs false (.a 0) .lane, .movs false (.v 1) (.q 8), .movsWide false (.v 1), .movsWide false (.o 2),
      .movsw .lane (.v 1), .movsw .flags .half] : List Instr).all (fun i => !i.wf) = true := by decide

/-- Types, spans and controls of the integer group (spec/04 R82, R83, R86, R88-R90). -/
theorem test_illformed_integer :
    ([.iaddc ⟨.s16, false, .v 1, .v 2, .v 3⟩, .idiv ⟨.s8, false, .v 1, .v 2, .v 3⟩, .iabs ⟨.u32, false, .v 1, .v 2⟩,
      .imad ⟨.s32, false, .v 192, .v 1, .v 2, .v 3⟩, .imadw ⟨.s32, false, .v 1, .v 1, .v 2, .v 4⟩, .imadw ⟨.s32, false, .v 2, .v 1, .v 2, .v 3⟩,
      .imadw ⟨.s16, false, .v 2, .v 1, .v 2, .v 4⟩, .imadw ⟨.s32, false, .v 2, .v 1, .v 2, .one⟩, .bfx .s32 false (.v 1) (.v 2) (.imm 0),
      .bfx .s32 false (.v 1) (.v 2) (.imm 0x2001), .bfx .s32 false (.v 1) (.v 2) (.imm 0x4100), .bfi .s8 false (.imm (.v 1) (.v 2) 0x100),
      .bfi .s32 false (.reg (.v 1) (.v 2) (.v 3) .half), .perm false (.imm (.v 1) (.v 2) 0x10000), .perm false (.reg (.x 0) (.v 2) (.v 3) (.v 4)),
      .icmp .eq .s32 0 (.v 1) (.imm 0), .icmp .eq .s32 8 (.v 1) (.imm 0), .icmp .eq .s16 1 (.v 1) (.imm 0), .sel .s32 false ⟨8, false⟩ (.v 1) (.v 2) (.imm 0),
      .plop .and ⟨0, false⟩ ⟨1, false⟩ ⟨2, false⟩, .plop .and ⟨1, false⟩ ⟨8, false⟩ ⟨2, false⟩, .vote .all false (.a 0) (.v 1),
      .shfl .idx false (.s 0) (.v 1) (.v 2)] : List Instr).all (fun i => !i.wf) = true := by decide

/-- The float group (spec/06 R119, R126, R130-R141). -/
theorem test_illformed_float :
    ([.fadd ⟨.f64, false, .v 1, .v 2, .v 4⟩, .fadd ⟨.f64, false, .v 2, .s 0, .v 4⟩, .fadd ⟨.f32, false, .v 2, .laneIdx, .v 4⟩,
      .ffma .f64 false .dyn (.v 2) (.v 4) (.v 5) (.v 6), .fcmp .eq .f16 1 (.v 1) (.imm 0), .fcmp .eq .f32 0 (.v 1) (.imm 0),
      .fclass ⟨.f64, false, .v 1, .v 3⟩, .fscale ⟨.f32, false, .v 1, .v 2, .half⟩, .cvt .f16 false .dyn (.v 1) (.v 2) .f32 false,
      .cvt .f32 false .dyn (.v 1) (.v 2) .f16 true, .cvtf .f32 false .dyn (.v 2) (.v 2) .s8, .cvti .f64 false .dyn (.v 2) (.v 3) .s32,
      .split3 false (.v 1) (.v 2), .qnt false (.v 1) (.v 2) (.v 3) (.v 4), .dqnt false (.v 1) (.v 2) (.v 3) (.v 4), .smxmerge false 17 (.v 1) (.v 2) (.v 3),
      .smxmerge false 1 (.o 1) (.v 2) (.v 3), .unpkd .f64 false (.v 1) (.v 2) (.v 3) (.v 4), .unpkz .f32 false (.v 1) .zero,
      .unpkr .f32 false .dyn (.v 1) (.v 2) (.v 3) (.v 5)] : List Instr).all (fun i => !i.wf) = true := by decide

/-- The matrix and scratchpad groups (spec/07 R157, R163, spec/08 R172, R185, R186, R188). -/
theorem test_illformed_matrix_scratchpad :
    ([.mma 16 (.reg 0) (.reg 0) (.v 1), .mma 0 (.reg 4) (.reg 0) (.v 1), .mma 0 (.reg 96) (.reg 0) (.v 1), .mma 0 (.spad 7) (.reg 0) (.v 1),
      .mmam 0 (.reg 0) (.v 1) (.v 1) 256, .mmax 0 (.reg 0) (.reg 0) (.v 1) .laneIdx (.v 1), .mmafin 16, .maccrd .fp32 0 .e 4, .maccwr .fp32 0 .e (some 4),
      .mxwait (some 16), .mtrans .b8 false 192 0, .mtrans .b8 true 1 0, .lds ⟨.b32, .release, .crew, .v 1, .v 2, .imm 0⟩, .lds ⟨.b32, .relaxed, .core, .v 1, .v 2, .imm 0⟩,
      .lds ⟨.b32, .acquire, .cluster, .v 1, .v 2, .imm 0⟩, .lds ⟨.b64, .relaxed, .crew, .v 1, .v 2, .imm 0⟩, .lds ⟨.b128, .relaxed, .crew, .v 2, .v 2, .imm 0⟩,
      .sts ⟨.b32, .acquire, .crew, .v 1, .v 2, .imm 0⟩, .sts ⟨.b32, .relaxed, .crew, .half, .v 2, .imm 0⟩, .stsc ⟨.b32, .release, .die, .v 1, .v 2, .imm 0⟩,
      .ldlk .b16 .local 1 (.v 1) (.v 2) (.imm 0), .ldlk .b32 .local 0 (.v 1) (.v 2) (.imm 0), .stul .b8 .local (.v 1) (.v 2) (.imm 0),
      .atoms .add .b8 .local none (.v 1) (.v 2) none, .atoms .cas .b32 .local none (.v 1) (.v 2) none, .atoms .add .b32 .local none (.v 1) (.v 2) (some (.v 3)),
      .atoms .add .b64 .local none (.v 1) (.v 3) none, .waitc .sp .half, .qrd 8 (.v 1), .qpushClaim 0 (.a 0), .qpushCommit 8 (.v 1), .qfree 8 (.v 1),
      .qinit 8 (.v 1) (.v 2)] : List Instr).all (fun i => !i.wf) = true := by decide

/-- The device-memory group (spec/09 R202, R220-R230). -/
theorem test_illformed_device :
    ([.ld .b32 .release .crew false false (.off (.imm 0) (.v 1)) (.v 2) none, .ld .b32 .relaxed .crew true false (.off (.imm 0) (.v 1)) (.v 2) none,
      .ld .b32 .relaxed .crew false false (.off (.imm 256) (.v 1)) (.v 2) none, .ld .b32 .relaxed .crew false false (.ptr (.v 1)) (.v 2) none,
      .ld .b32 .relaxed .die false false (.off (.imm 0) (.v 1)) (.v 2) none, .ld .b32 .relaxed .crew false false (.off (.imm 0) (.v 1)) (.v 2) (some (.x 0)),
      .st .b32 .acquire .crew (.off (.imm 0) (.v 1)) (.v 2) none, .ldt ⟨.b32, false, false, .v 1, [], 0, 0, none⟩,
      .ldt ⟨.b32, false, false, .v 1, List.replicate 8 (.v 1), 0, 0, none⟩, .ldt ⟨.b32, false, false, .v 1, [.v 1], 0, 64, none⟩,
      .stt ⟨.b32, false, true, .v 1, [.v 1], 0, 0, none⟩, .stt ⟨.b32, true, false, .v 1, [.v 1], 0, 0, some (.v 2)⟩,
      .atom ⟨.cas, .b32, .relaxed, .crew, false, false, .imm 0, .v 1, .v 3, none⟩, .atom ⟨.cas, .b64, .relaxed, .crew, false, false, .imm 0, .v 1, .v 2, none⟩,
      .atom ⟨.add, .b16, .relaxed, .crew, false, false, .imm 0, .v 1, .v 2, none⟩, .red ⟨.xchg, .b32, .relaxed, .crew, false, false, .imm 0, .v 1, .v 2, none⟩,
      .red ⟨.add, .b32, .relaxed, .crew, true, false, .imm 0, .v 1, .v 2, none⟩, .prefL1 false (.imm 256) (.v 1), .prefL2 false (.imm 0) .half,
      .prefPagein false (.reg .half) (.v 1), .monitor .b16 false .crew false false (.imm 0) (.v 1) (.v 2) none,
      .monitor .b32 false .die false false (.imm 0) (.v 1) (.v 2) none, .fence .relaxed .crew, .publish .half, .pin false (.imm 0) (.v 1) (.a 0),
      .unpin false (.imm 256) (.v 1), .resq false false (.imm 0) (.v 1) (.s 0) none, .resqFetch true false (.imm 0) (.v 1) (.v 9) none, .resqFetch false false (.imm 0) (.v 1) (.v 96) none, .recset (.v 1) 1,
      .recset (.v 1) 192, .recsetReload .half, .recsetShape .half] : List Instr).all (fun i => !i.wf) = true := by decide

/-- The groups from 0x70 on (spec/12 R287, spec/13 R316, spec/04 R92, R95, spec/14 R340, R349, spec/15 R370, spec/16 R397, R400,
spec/17 R411, spec/02 R33). -/
theorem test_illformed_control :
    ([.binit 16 false false (.v 1) (.v 2), .bexpect 16 0, .bexpectReg 16 (.v 1), .barrive 16 none (.v 1), .barrive 0 (some .half) (.v 1), .bwait 16 none,
      .btest 0 4 (.v 1), .epost .zero (.v 1) (.v 2), .eseq (.v 1) .half none, .copy false false (.v 1) (.v 2) 4, .copy false false (.v 1) (.v 2) 192,
      .swreg (.v 1) (.v 2) 190, .swdereg .half (.v 1), .swwait (.v 1) (some .half), .swpos .zero (.v 1), .swforce (.v 1) .half, .bra 8 false 0, .call 8 false 0,
      .jmpf 0 false 64 0, .jmpf 0 false 0 1024, .bri .half, .trap 16, .excrd .zero (.v 1), .join false (.s 0) (.v 1) (.v 2), .mcall 64 (.v 1) (.v 1) (.v 1) (.v 1),
      .mcall 0 (.v 192) (.v 1) (.v 1) (.v 1), .icfetch (.imm 64), .icfetchDrop (.imm 64), .icfetchSpad .half (.v 1), .icfetchGate .half (.v 1),
      .nodepost (.v 1) 3, .gcall 4096, .gcallReg .half, .xlinvPage 3 none, .xlinvDomain .half, .xlinvResidency 192 none, .xlprobe 1 2 none, .xlprobe 2 1 none,
      .astart .zero (.v 1) (.v 2), .astartStop .zero, .apush 4 (.v 1), .apushVec 4 (.v 1) (.v 2), .apushBcld 0 .half (.v 2), .vgmv 8 (.v 1) (.v 2) (.v 4),
      .vgmv 0 (.v 1) (.v 2) (.v 3), .vgrd 8 (.v 1), .vgwait (some 8), .apprenticeExit, .apprenticeLd (.v 1) (.imm 0) (.v 1), .thermalShutdown] :
      List Instr).all (fun i => !i.wf) = true := by decide

/-- The words are refused by the cause. -/
def refuses (ws : List Nat) (c : DecodeCause) : Bool := match decodeWords ws with | .error e => e == c | .ok _ => false

/-- Causes of the decoder (spec/03 R50, R52, R68, R69): a header's signature, a missing extension word, an unassigned opcode, a
reserved bit, a field value that no table lists. -/
theorem test_refused_words :
    (refuses [0xFD400000] .framing && refuses [] .framing && refuses [0x02000300] .framing && refuses [0x3C000000] .opcode &&
      refuses [0xEA000000] .opcode && refuses [0x00000001] .reserved && refuses [0xF2A00000] .reserved && refuses [0x09C00000] .field &&
      refuses [0x20000006] .field && refuses [0x32000000, 0] .field && refuses [0x14000000, 0] .field && refuses [0x04000600, 2] .field &&
      refuses [0x04400600, 0x400] .reserved && refuses [0xF000000] .field && refuses [0xC0808000, 0x02A00000] .field &&
      refuses [0xC0808000, 0x02040000] .reserved) = true := by decide

/-- NW = 1 where the entry has none (spec/03 R55, R69, spec/07 R163, spec/09 R229). -/
theorem test_nw_refused :
    (refuses [0b1001001_000_1_1_000011_0000000_0000000, 0b10111111_00000000_00000000_00000000] .reserved &&
      refuses [0b1101101_000_1_0_0000100_0000111_000000, 0b00000101_000_000_0_0_00000000_00000000] .reserved) = true := by decide

/-- Clauses (spec/03 R46-R51, R62): a class that does not admit the opcode, a terminal instruction that is not last, a COUNT of 0, a
latch that names an extension word, a register beyond VREGS, a clause that passes its segment's end. -/
theorem test_clause_checks :
    (clauseDecode 192 0xFC480000 0 [0x0800C082] == .error (1, .clauseClass) && clauseDecode 192 0xFCB80000 0 [0xF2000100, 0xF2800000] == .error (1, .framing) &&
      clauseDecode 192 0xFC380000 0 [] == .error (0, .framing) && clauseDecode 192 0xFCC00000 0 [0x02000300, 0x100, 0x0801F406] == .error (3, .latch) &&
      clauseDecode 8 0xFC400000 0 [0x0800C088] == .error (1, .range) && clauseDecode 192 0xFC800000 1022 [0xF2800000, 0xF2800000] == .error (0, .framing) &&
      (match clauseDecode 192 0xFD400000 64 [0x0800C082, 0x02000300, 0x100, 0x0801F506, 0xF007FFFB] with
        | .ok l => l.map (·.1) == [0, 1, 3, 4]
        | .error _ => false)) = true := by decide
/-! ### Witnesses of the statements about instructions that compute -/

theorem witness_ComputePerformed : computes (.iadd ⟨.u32, false, .v 3, .v 1, .v 2⟩) = true ∧
    Ready s2 0 (gang 3) (run 3) (.iadd ⟨.u32, false, .v 3, .v 1, .v 2⟩) [] ∧ computes (.fredm ⟨.f64, true, .v 2, .v 4⟩) = true ∧
    Ready s0 0 (gang 0) (run 0) (.fredm ⟨.f64, true, .v 2, .v 4⟩) [] := ⟨rfl, ready2 _ rfl, rfl, ready0 _ rfl⟩

/-- Word and packed types; the sums that carry. -/
theorem witness_AddSubtractCarry :
    let w : IntA := ⟨.u32, false, .v 3, .negOne, .one⟩
    let p : IntA := ⟨.s4, false, .s 3, .v 1, .v 2⟩
    Ready s2 0 (gang 3) (run 3) (.iadd w) [] ∧ Ready s2 0 (gang 3) (run 3) (.isub w) [] ∧ isWordType w.ty = true ∧
    Ready s2 0 (gang 3) (run 3) (.iaddc w) [] ∧ Ready s2 0 (gang 3) (run 3) (.isubb w) [] ∧ Ready s2 0 (gang 3) (run 3) (.iadd p) [] ∧
    Ready s2 0 (gang 3) (run 3) (.isub p) [] ∧
    operand s2 0 (gang 3) (run 3) [] [.int .u32 .negOne, .int .u32 .one] 1 0 + operand s2 0 (gang 3) (run 3) [] [.int .u32 .negOne, .int .u32 .one] 1 1 = 2 ^ 32 :=
  ⟨ready2 _ rfl, ready2 _ rfl, rfl, ready2 _ rfl, ready2 _ rfl, ready2 _ rfl, ready2 _ rfl, by decide⟩

/-- Division by zero, and an exact division. -/
theorem witness_DivideTruncates :
    Ready s2 0 (gang 3) (run 3) (.idiv ⟨.s32, false, .v 3, .negOne, .zero⟩) [] ∧ Ready s2 0 (gang 3) (run 3) (.irem ⟨.s32, false, .v 3, .negOne, .zero⟩) [] ∧
    Ready s2 0 (gang 3) (run 3) (.idiv ⟨.u16, false, .v 3, .negOne, .two⟩) [] ∧ Ready s2 0 (gang 3) (run 3) (.irem ⟨.u16, true, .v 3, .negOne, .two⟩) [] :=
  ⟨ready2 _ rfl, ready2 _ rfl, ready2 _ rfl, ready2 _ rfl⟩

/-- A count of w − 1 and counts of w and more are both there: v1 holds 31, v2 holds 32. -/
def sShift : State := at' 3 (fun w => w.updLane 0 fun x => { x with v := [(1, 31), (2, 32)] }) id
theorem witness_ShiftsByElement :
    (∀ i, popless i = true → Ready sShift 0 (gang 3) (run 3) i []) ∧ popless (.shl ⟨.u32, false, .v 3, .negOne, .v 1⟩) = true ∧
    popless (.sar ⟨.s32, false, .v 3, .negOne, .v 2⟩) = true ∧
    operand sShift 0 (gang 3) (run 3) [] [.int .u32 .negOne, .int .u32 (.v 1)] 0 1 = 31 ∧
    operand sShift 0 (gang 3) (run 3) [] [.int .u32 .negOne, .int .u32 (.v 2)] 0 1 = 32 :=
  ⟨fun _ h => ready_of (by decide) (by decide) h, rfl, rfl, by decide, by decide⟩

theorem witness_UnaryLogicAndMultiply :
    Ready s2 0 (gang 3) (run 3) (.iabs ⟨.s8, false, .v 1, .v 2⟩) [] ∧ Ready s2 0 (gang 3) (run 3) (.clz ⟨.u32, false, .v 1, .zero⟩) [] ∧
    Ready s2 0 (gang 3) (run 3) (.andn ⟨false, .v 1, .v 2, .v 3⟩) [] ∧ Ready s2 0 (gang 3) (run 3) (.imulh ⟨.s32, false, .v 1, .v 2, .v 3⟩) [] ∧
    Ready s2 0 (gang 3) (run 3) (.imad ⟨.u8, false, .v 1, .v 2, .v 3, .v 4⟩) [] ∧ isWordType .s32 = true ∧
    Ready s2 0 (gang 3) (run 3) (.imadw ⟨.s32, false, .v 2, .v 4, .v 5, .v 6⟩) [] ∧
    Ready s2 0 (gang 3) (run 3) (.mov ⟨.u32, false, .v 1, .v 2⟩) [] ∧ Ready s2 0 (gang 3) (run 3) (.movi .u32 false (.v 1) (.imm 7)) [] ∧
    Ready s2 0 (gang 3) (run 3) (.movi .u32 false (.v 1) (.reg (.o 2))) [] ∧
    Ready s2 0 (gang 3) (run 3) (.bfx .s32 false (.v 2) (.v 1) (.imm 0x804)) [] ∧
    Ready s2 0 (gang 3) (run 3) (.bfi .u32 false (.imm (.v 2) (.v 1) 0x804)) [] ∧
    Ready s2 0 (gang 3) (run 3) (.bfi .u32 true (.reg (.v 2) (.v 1) (.v 3) (.v 4))) [] ∧
    Ready s2 0 (gang 3) (run 3) (.perm false (.imm (.v 2) (.v 1) 0x0123)) [] ∧
    Ready s2 0 (gang 3) (run 3) (.perm false (.reg (.v 2) (.v 1) (.v 3) (.v 4))) [] :=
  ⟨ready2 _ rfl, ready2 _ rfl, ready2 _ rfl, ready2 _ rfl, ready2 _ rfl, rfl, ready2 _ rfl, ready2 _ rfl, ready2 _ rfl, ready2 _ rfl,
    ready2 _ rfl, ready2 _ rfl, ready2 _ rfl, ready2 _ rfl, ready2 _ rfl⟩

theorem witness_CompareSelectPredicates : (7 ≠ 0 ∧ 7 < 8) ∧ Ready s2 0 (gang 3) (run 3) (.icmp .le .s32 7 (.v 1) (.imm 0)) [] ∧
    Ready s2 0 (gang 3) (run 3) (.sel .u32 false ⟨0, true⟩ (.v 1) (.v 2) (.reg (.v 191))) [] ∧ (1 ≠ 0 ∧ 1 < 8) ∧
    Ready s2 0 (gang 3) (run 3) (.plop .andn ⟨1, true⟩ ⟨0, false⟩ ⟨7, true⟩) [] := ⟨by decide, ready2 _ rfl, ready2 _ rfl, by decide, ready2 _ rfl⟩

theorem witness_SpecialRegisterReads : Ready s2 0 (gang 3) (run 3) (.movs false (.v 1) .flags) [] ∧
    Ready s2 0 (gang 3) (run 3) (.movs true (.s 1) (.q 7)) [] ∧ Ready s2 0 (gang 3) (run 3) (.movsWide false (.v 2)) [] :=
  ⟨ready2 _ rfl, ready2 _ rfl, ready2 _ rfl⟩

theorem witness_SpecialRegisterWrites : Ready s2 0 (gang 3) (run 3) (.movsw .flags (.v 1)) [] ∧ Ready s2 0 (gang 3) (run 3) (.movsw .gangctl (.v 1)) [] ∧
    Ready s0 0 (gang 0) (run 0) (.movsw .fpmode (.v 1)) [] := ⟨ready2 _ rfl, ready2 _ rfl, ready0 _ rfl⟩

theorem witness_VoteAndShuffle : Ready s2 0 (gang 3) (run 3) (.vote .ballot false (.v 1) (.v 2)) [] ∧
    Ready s2 0 (gang 3) (run 3) (.shfl .up false (.v 1) (.v 2) .one) [] := ⟨ready2 _ rfl, ready2 _ rfl⟩

/-- v1 holds an FP32 NaN, v2 a number; one lane executes. -/
def sNaN : State := at' 1 (fun w => w.updLane 0 fun x => { x with v := [(1, 0x7F800001), (2, 0x3F800000)] }) id
theorem witness_FloatNaNsSignsAndReductions :
    (∀ i, popless i = true → Ready sNaN 0 (gang 1) (run 1) i []) ∧ popless (.fmin ⟨.f32, false, .v 3, .v 1, .v 2⟩) = true ∧
    popless (.freda ⟨.f32, false, .v 3, .v 1⟩) = true ∧ execLanes (gang 1) (run 1) = [0] ∧
    isNaN (ftFmt .f32) (operand sNaN 0 (gang 1) (run 1) [] [.flt .f32 (.v 1), .flt .f32 (.v 2)] 0 0) = true ∧
    isNaN (ftFmt .f32) (operand sNaN 0 (gang 1) (run 1) [] [.flt .f32 (.v 1), .flt .f32 (.v 2)] 0 1) = false ∧
    Ready s0 0 (gang 0) (run 0) (.fredm ⟨.f32, false, .v 3, .v 1⟩) [] :=
  ⟨fun _ h => ready_of (by decide) (by decide) h, rfl, rfl, by decide, by decide, by decide, ready0 _ rfl⟩

/-- Every form whose results the statement gives. -/
theorem witness_FloatNaNsSignsAndReductions_results :
    (∀ i, popless i = true → Ready sNaN 0 (gang 1) (run 1) i []) ∧ popless (.fdiv ⟨.f64, false, .v 4, .v 2, .v 2⟩) = true ∧
    popless (.fscale ⟨.f16, false, .v 3, .v 1, .v 2⟩) = true ∧ popless (.ffma .bf16 false .dyn (.v 3) (.v 1) (.v 2) (.v 2)) = true ∧
    popless (.fsqrt ⟨.f32, false, .v 3, .v 2⟩) = true ∧ popless (.frnd ⟨.f32, false, .v 3, .v 2⟩ .fpmode) = true ∧
    popless (.fclass ⟨.f64, false, .v 3, .v 2⟩) = true ∧ (7 ≠ 0 ∧ 7 < 8) ∧ popless (.fcmp .unord .f64 7 (.v 2) (.imm 0)) = true ∧
    popless (.cvt .f32 false .dyn (.v 3) (.v 2) .e4m3 true) = true ∧ popless (.cvti .f32 false .dyn (.v 3) (.v 2) .s8) = true ∧
    popless (.cvtf .f16 false .dyn (.v 4) (.v 2) .s8) = true ∧ popless (.split3 false (.v 4) (.v 1)) = true ∧
    popless (.flog2 ⟨.f32, false, .v 3, .v 2⟩) = true ∧ popless (.smxmerge false 16 (.v 20) (.v 1) (.v 2)) = true ∧
    regCode (.v 20) = some 20 ∧ Settled (sNaN.wg 0) 0 37 ∧
    ((fp32.decode (operand sNaN 0 (gang 1) (run 1) [] [.flt .f32 (.v 2)] 0 0)).isNan = false) ∧ 0x3F800000 < 2 ^ FType.f32.bits :=
  ⟨fun _ h => ready_of (by decide) (by decide) h, rfl, rfl, rfl, rfl, rfl, rfl, by decide, rfl, rfl, rfl, rfl, rfl, rfl, rfl, rfl, by
    unfold Settled; decide, by decide, by decide⟩

/-- v8 holds a format word that QNT accepts (FP32 to E4M3), v9 one that DQNT accepts (E4M3 to FP32). -/
def sFmt : State := at' 1 (fun w => w.updLane 0 fun x => { x with v := [(8, 0x40), (9, 0x04)] }) id
theorem witness_QuantizeAndDequantize :
    (∀ i, popless i = true → Ready sFmt 0 (gang 1) (run 1) i []) ∧ popless (.qnt false (.v 3) (.v 4) (.v 1) (.v 8)) = true ∧
    (quadSrc (.v 4)).length = 4 ∧
    (∀ l ∈ execLanes (gang 1) (run 1), qntFmt (operand sFmt 0 (gang 1) (run 1) [] (quadSrc (.v 4) ++ [.flt .f32 (.v 1), .int .u32 (.v 8)]) l 5) = true) ∧
    (execLanes (gang 1) (run 1)).filter (fun l =>
      !qntFmt (operand sFmt 0 (gang 1) (run 1) [] (quadSrc (.v 4) ++ [.flt .f32 (.v 1), .int .u32 (.v 2)]) l 5)) ≠ [] ∧
    (∀ l ∈ execLanes (gang 1) (run 1), dqntFmt (operand sFmt 0 (gang 1) (run 1) [] [.int .u32 (.v 4), .flt .f32 (.v 1), .int .u32 (.v 9)] l 2) = true) ∧
    (execLanes (gang 1) (run 1)).filter (fun l =>
      !dqntFmt (operand sFmt 0 (gang 1) (run 1) [] [.int .u32 (.v 4), .flt .f32 (.v 1), .int .u32 (.v 2)] l 2)) ≠ [] ∧
    (188 % 4 = 0 ∧ 188 + 4 ≤ (sFmt.wg 0).vregs) ∧
    ¬ ((execLanes (gang 1) (run 1)).filter (fun l =>
      fmtB (operand sFmt 0 (gang 1) (run 1) [] [.int .u32 (.v 4), .flt .f32 (.v 1), .int .u32 (.v 9)] l 2) == 0) = [] ∨
      ∃ n, Sel.v 2 = .v n ∧ n % 4 = 0 ∧ n + 4 ≤ (sFmt.wg 0).vregs) :=
  ⟨fun _ h => ready_of (by decide) (by decide) h, rfl, by decide, by decide, by decide, by decide, by decide, by decide, fun h => by
    obtain h | ⟨n, h, h4, -⟩ := h
    · exact absurd h (by decide)
    · obtain rfl := Sel.v.inj h; exact absurd h4 (by decide)⟩

/-! ### Witnesses of the statements about decode instructions and matrices -/

theorem witness_UnpackWritesDataAndCursor_empty : Ready s0 0 (gang 0) (run 0) (.unpkz .f16 false (.v 9) (.v 10)) [] ∧ execLanes (gang 0) (run 0) = [] :=
  ⟨ready0 _ rfl, by decide⟩

/-- Cursor v10 = 3, index width 1, dictionary at 64: two participants. -/
def sUnpk : State := at' 3 (fun w => w.updLane 0 fun x => { x with v := [(10, 3), (11, 0), (12, 64)] }) id
theorem witness_UnpackWritesDataAndCursor_unpkd :
    let i := Instr.unpkd .f32 false (.v 9) (.v 10) (.v 11) (.v 12)
    let e := opEnv sUnpk 0 (gang 3) (run 3) []
    let entry := fun k s0 => (⟨false, 64 + streamBits 3 (State.runBytes s0 0 0 (cursorRun 3 2)) (k * 1) 1 * 4, 4, 64⟩ : SpadRun)
    Ready sUnpk 0 (gang 3) (run 3) i [] ∧ execLanes (gang 3) (run 3) = [0, 1] ∧
    (∀ k, operand sUnpk 0 (gang 3) (run 3) [] [.int .u32 (.v 10), .int .u32 (.v 11), .int .u32 (.v 12)] 0 k = [3, 0, 64].getD k 0) ∧
    ∃ s0, e.spadSettle 0 [cursorRun 3 2] = .ok s0 ∧
      okB (({ e with s := s0 } : Env).spadReads 0 (cursorRun 3 2 :: (List.range 2).map (entry · s0)))
        (fun s1 => (s1.wg 0).gang? 0 == some (gang 3)) = true := by
  refine ⟨ready_of (by decide) (by decide) rfl, by decide, fun k => ?_, okB_elim (by decide)⟩
  match k with
  | 0 => decide
  | 1 => decide
  | 2 => decide
  | k + 3 => simp [operand, Env.opds]

theorem witness_UnpackWritesDataAndCursor_unpkz :
    let e := opEnv sUnpk 0 (gang 3) (run 3) []
    Ready sUnpk 0 (gang 3) (run 3) (.unpkz .bf16 true (.v 9) (.v 10)) [] ∧
    ∃ s0, e.spadSettle 0 [cursorRun 3 32] = .ok s0 ∧
      (okB (({ e with s := s0 } : Env).spadReads 0 [cursorRun 3 (32 + popCount 32 (streamBits 3 (s0.runBytes 0 0 (cursorRun 3 32)) 0 32) * 16)])
        fun s1 => (s1.wg 0).gang? 0 == some (gang 3)) = true :=
  ⟨ready_of (by decide) (by decide) rfl, okB_elim (by decide)⟩

theorem witness_UnpackWritesDataAndCursor_unpkr :
    Ready sUnpk 0 (gang 3) (run 3) (.unpkr .f32 false .dyn (.v 9) (.v 10) (.v 11) (.v 2)) [] ∧
    ∃ s1, (opEnv sUnpk 0 (gang 3) (run 3) []).spadReads 0 [cursorRun 3 2] = .ok s1 ∧ ((s1.wg 0).gang? 0 == some (gang 3)) = true :=
  ⟨ready_of (by decide) (by decide) rfl, okB_elim (by decide)⟩

/-- The clauses with nothing in flight. -/
theorem witness_UnpackWritesDataAndCursor_clear :
    let e := opEnv sUnpk 0 (gang 3) (run 3) []
    let entry := fun k => (⟨false, 64 + streamBits 3 ((taken sUnpk).runBytes 0 0 (cursorRun 3 2)) (k * 1) 1 * 4, 4, 64⟩ : SpadRun)
    NothingFlies sUnpk ∧ RunsClear e 0 (cursorRun 3 2 :: (List.range 2).map entry) ∧
    RunsClear e 0 [cursorRun 3 (32 + popCount 32 (streamBits 3 ((taken sUnpk).runBytes 0 0 (cursorRun 3 32)) 0 32) * 16)] ∧
    RunsClear e 0 [cursorRun 3 2] :=
  have ok : ∀ {x : Except Res State}, okB x (fun _ => true) = true → ∃ s1, x = .ok s1 := fun h => (okB_elim h).imp fun _ h => h.1
  ⟨by unfold NothingFlies; decide, ⟨by decide, ok (by decide)⟩, ⟨by decide, ok (by decide)⟩, ⟨by decide, ok (by decide)⟩⟩

/-- v60 holds the word FP16 by FP16, v61 INT8 by INT8, v62 E4M3 by E4M3 with scales. -/
def sMat : State := at' 3 (fun w => (w.updLane 0 fun x => { x with v := [(60, 0x22), (61, 0x577), (62, 0x4044)] }).updLane 1 fun x =>
  { x with v := [(60, 0x22), (61, 0x577), (62, 0x4044)] }) id
theorem readyMat (i : Instr) (h : popless i = true) : Ready sMat 0 (gang 3) (run 3) i [] := ready_of (by decide) (by decide) h

/-- All that a matrix instruction with registers as operands asks for. -/
def matGo (scaled : Bool) (c : Nat) (fmt : Sel) (kind : MatKind) (scales : List Sel) : Bool :=
  let e := opEnv sMat 0 (gang 3) (run 3) []
  let words := (execLanes (gang 3) (run 3)).map fun l => (l, operand sMat 0 (gang 3) (run 3) [] [.int .u32 fmt] l 0)
  let qs := e.matQuarters c words
  (e.matVote scaled c words (refuseOf kind)).isNone && qs.length == 1 && (qs.all fun x => !e.matBad (.reg 0) x && !e.matBad (.reg 88) x) &&
  (e.matRange (e.queueReqs (.reg 0) (.reg 88) fmt scales qs)).isNone && e.fullQueues == [] &&
  (e.fullCounters (e.queueReqs (.reg 0) (.reg 88) fmt scales qs)) == [] &&
  okB (e.race false (e.s.spadRaces (e.operandAccs (e.queueReqs (.reg 0) (.reg 88) fmt scales qs)) 4)) fun _ => true

theorem witness_MatrixOperationsQueue :
    Ready sMat 0 (gang 3) (run 3) (.mma 15 (.reg 0) (.reg 88) (.v 60)) [] ∧ execLanes (gang 3) (run 3) ≠ [] ∧ matGo false 15 (.v 60) .mma [] = true ∧
    Ready sMat 0 (gang 3) (run 3) (.mmas 15 (.reg 0) (.reg 88) (.v 60)) [] ∧ matGo false 15 (.v 60) .mmas [] = true ∧
    Ready sMat 0 (gang 3) (run 3) (.mmaz 0 (.reg 0) (.reg 88) (.v 61)) [] ∧ matGo false 0 (.v 61) .mmaz [] = true ∧
    Ready sMat 0 (gang 3) (run 3) (.mmax 0 (.reg 0) (.reg 88) (.v 62) (.v 1) (.v 2)) [] ∧ matGo true 0 (.v 62) .mmax [.v 1, .v 2] = true ∧
    Ready sMat 0 (gang 3) (run 3) (.mmafin 15) [] ∧ (opEnv sMat 0 (gang 3) (run 3) []).fullQueues = [] :=
  ⟨readyMat _ rfl, by decide, by decide, readyMat _ rfl, by decide, readyMat _ rfl, by decide, readyMat _ rfl, by decide, readyMat _ rfl, by decide⟩

/-- MMAM through record 5, one lane. -/
def sMmam : State := atMem 1 false [] (fun w => w.updLane 0 fun x => { x with v := [(60, 0x22)] }) id
theorem witness_MatrixOperationsQueue_mmam :
    let e := opEnv sMmam 0 (gang 1) (run 1) []
    let words := (execLanes (gang 1) (run 1)).map fun l => (l, operand sMmam 0 (gang 1) (run 1) [] [.int .u32 (.v 60)] l 0)
    let qs := e.matQuarters 0 words
    Ready sMmam 0 (gang 1) (run 1) (.mmam 0 (.reg 0) (.v 60) (.v 1) 5) [] ∧ execLanes (gang 1) (run 1) ≠ [] ∧
    (e.matVote false 0 words refuseMma).isNone = true ∧ (∀ x ∈ qs, e.matBad (.reg 0) x = false) ∧
    ∃ s1 as, (taken sMmam).access 0 e.fpc (run 1).pend colSpec true false ((execLanes (gang 1) (run 1)).flatMap fun l =>
        columnReqs 5 l (operand sMmam 0 (gang 1) (run 1) [] [.int .u32 (.v 60), .int .u32 (.v 1)] l 1)) = .ok s1 as ∧
      (let e1 : Env := { e with s := s1 }
       s1.wgs == sMmam.wgs && s1.agenda == [] && (e1.matRange (e1.columnReqsOf (.reg 0) qs as)).isNone && e1.fullQueues == [] &&
       e1.fullCounters (e1.columnReqsOf (.reg 0) qs as) == [] &&
       okB (e1.race false (s1.spadRaces (e1.operandAccs (e1.columnReqsOf (.reg 0) qs as)) 4 ++ as.flatMap raceAccs)) fun _ => true) = true :=
  ⟨ready_of (by decide) (by decide) rfl, by decide, by decide, by decide, accB_elim (by decide)⟩

/-- Slot 3 of quarter 0 is owned, with nothing queued; slot 2 is free and holds a row of FP64. -/
def sSlot : State := at' 3 (fun w => { w with slots := [(2, { (default : Slot) with accf := .fp64 }), (3, { (default : Slot) with owned := true })] }) id
theorem readySlot (i : Instr) (h : popless i = true) : Ready sSlot 0 (gang 3) (run 3) i [] := ready_of (by decide) (by decide) h
theorem witness_AccumulatorsMove :
    Ready sSlot 0 (gang 3) (run 3) (.maccrd .fp64 2 .o 8) [] ∧
    (∀ l ∈ execLanes (gang 3) (run 3), (((sSlot.wg 0).slots.get (slotKey 0 (l % 32 / 8) 2)).accf = .fp64 ∧
      ((sSlot.wg 0).slots.get (slotKey 0 (l % 32 / 8) 2)).owned = false ∧ ((sSlot.wg 0).slots.get (slotKey 0 (l % 32 / 8) 2)).poison = false)) ∧
    Ready sSlot 0 (gang 3) (run 3) (.maccrd .fp32 15 .e 88) [] ∧
    (∀ l ∈ execLanes (gang 3) (run 3), ((sSlot.wg 0).slots.get (slotKey 0 (l % 32 / 8) 15)).accf = .fp32) ∧
    Ready sSlot 0 (gang 3) (run 3) (.maccwr .int32 2 .e (some 8)) [] ∧ Ready sSlot 0 (gang 3) (run 3) (.maccwr .fp32 2 .e none) [] ∧
    (∀ l ∈ execLanes (gang 3) (run 3), ((sSlot.wg 0).slots.get (slotKey 0 (l % 32 / 8) 2)).bposIss = 0) ∧
    Ready sSlot 0 (gang 3) (run 3) (.mxwait (some 3)) [] ∧ (run 3).pend = .none ∧
    (∀ p ∈ (opEnv sSlot 0 (gang 3) (run 3) []).quarters, ∀ o ∈ (sSlot.wg 0).mqueues.get (hqOf 0 p.1), o.slot ∉ waitSlots (some 3)) ∧
    Ready sSlot 0 (gang 3) (run 3) (.maccwr .fp64 2 .e (some 8)) [] ∧ Ready sSlot 0 (gang 3) (run 3) (.mtrans .b8 false 8 16) [] ∧
    Ready sSlot 0 (gang 3) (run 3) (.mtrans .b64 false 32 16) [] ∧ Settled (sSlot.wg 0) 0 47 :=
  ⟨readySlot _ rfl, by decide, readySlot _ rfl, by decide, readySlot _ rfl, readySlot _ rfl, by decide, readySlot _ rfl, rfl, by decide, readySlot _ rfl,
    readySlot _ rfl, readySlot _ rfl, by unfold Settled; decide⟩


/-! ### Witnesses of the statements about scratchpads, locks and streams -/

/-- v1 is the last word of the scratchpad in lane 0, the first word of another granule in lane 1. -/
def sSpad : State := at' 3 (fun w => (w.updLane 0 fun x => { x with v := [(1, 4092)] }).updLane 1 fun x => { x with v := [(1, 128)] }) id
theorem readySpad (i : Instr) (h : popless i = true) : Ready sSpad 0 (gang 3) (run 3) i [] := ready_of (by decide) (by decide) h

theorem witness_ScratchpadAccessesGoIntoFlight_empty (o : SpadAcc) (h : popless (.lds o) = true) :
    Ready s0 0 (gang 0) (run 0) (.lds o) [] ∧ execLanes (gang 0) (run 0) = [] := ⟨ready0 _ h, by decide⟩

theorem witness_ScratchpadAccessesGoIntoFlight :
    let e := opEnv sSpad 0 (gang 3) (run 3) []
    let o : SpadAcc := ⟨.b32, .relaxed, .cluster, .v 2, .v 1, .imm 0⟩
    let q : SpadAcc := ⟨.b32, .release, .core, .v 2, .v 1, .imm 0⟩
    let ls := execLanes (gang 3) (run 3)
    let ea := fun l => operand sSpad 0 (gang 3) (run 3) [] [.int .u32 o.addr, srcOpd .u32 o.off] l 0 +
      operand sSpad 0 (gang 3) (run 3) [] [.int .u32 o.addr, srcOpd .u32 o.off] l 1
    let xs := fun cl => ls.filterMap fun l => (sSpad.spadAt 0 l cl (ea l) 4).map fun q => (⟨l, q.1, q.2⟩ : SpadLoc)
    (Ready sSpad 0 (gang 3) (run 3) (.lds o) [] ∧ Ready sSpad 0 (gang 3) (run 3) (.stsc q) []) ∧ ls ≠ [] ∧ Crewed sSpad 0 (gang 3) (run 3) ∧
    (∀ cl, ∀ l ∈ ls, ea l % 4 = 0 ∧ sSpad.spadAt 0 l cl (ea l) 4 ≠ none) ∧ (∀ p, Safety.Room sSpad 0 (gang 3) (run 3) p) ∧
    (∃ s1, e.race false (sSpad.spadRaces (xs false) 4) = .ok s1 ∧ true = true) ∧ ∃ s1, e.race true [] = .ok s1 ∧ true = true :=
  ⟨⟨readySpad _ rfl, readySpad _ rfl⟩, by decide, by unfold Crewed; decide, by decide, fun p => by cases p <;> unfold Safety.Room <;> decide,
    okB_elim (p := fun _ => true) (by decide), okB_elim (p := fun _ => true) (by decide)⟩

/-- Lane 1 is in no crew. -/
def sCrewless : State := at' 3 (fun w => w.updLane 1 fun x => { x with crew := none }) id
theorem witness_CrewlessScratchpadTraps :
    Stands sCrewless 0 (gang 3) (run 3) ∧ (∀ l ∈ issueLanes (gang 3) (run 3), ((sCrewless.wg 0).lane l).lock = none) ∧
    (∀ l ∈ issueLanes (gang 3) (run 3), ∀ c, ((sCrewless.wg 0).lane l).crew = some c → ((sCrewless.wg 0).crew c).mcheck = none) ∧
    ¬ Crewed sCrewless 0 (gang 3) (run 3) ∧
    (execLanes (gang 3) (run 3)).filter (fun l => ((sCrewless.wg 0).lane l).crew.isNone) = [1] :=
  ⟨⟨rfl, by decide, rfl, rfl, rfl⟩, by decide, by
    intro l hl c hc
    have : ∀ l ∈ issueLanes (gang 3) (run 3), ((sCrewless.wg 0).lane l).crew = some 0 ∨ ((sCrewless.wg 0).lane l).crew = none := by decide
    obtain h | h := this l hl <;> rw [h] at hc <;> cases hc; decide, by
    unfold Crewed; decide, by decide⟩

theorem witness_LockAcquire :
    let e := opEnv sSpad 0 (gang 3) (run 3) []
    let ls := execLanes (gang 3) (run 3)
    (Ready sSpad 0 (gang 3) (run 3) (.ldlk .b32 .local 1 (.v 2) (.v 1) (.imm 0)) [] ∧
      Ready s0 0 (gang 0) (run 0) (.ldlk .b32 .local 1 (.v 2) (.v 1) (.imm 0)) []) ∧ ls ≠ [] ∧ Crewed sSpad 0 (gang 3) (run 3) ∧
    ∃ xs, (taken sSpad).spadResolve 0 e.fpc (Space.isCluster .local) (wbytes .b32) (e.eas (.v 1) (.imm 0)) = .ok xs ∧
      okB (e.settled .acquire (spaceScope .local) false (spadTouch .b32 xs)) (fun s1 =>
        (s1.wg 0).gang? 0 == some (gang 3) && (lockWinners s1.lockOf xs []).length == 2 &&
        (lockWinners s1.lockOf xs []).all fun x => !s1.lockHeld (s1.lockOf x)) = true :=
  ⟨⟨readySpad _ rfl, ready0 _ rfl⟩, by decide, by unfold Crewed; decide, okB_elim (by decide)⟩

/-- The gang stands so; locks do not matter. -/
def calm (s : State) (x : BitVec 32) : Bool :=
  s.agenda == [.gang 0 0] && (s.wg 0).gang? 0 == some (gang x) && ((s.wg 0).crew 0).mcheck == none && ((s.wg 0).crew 0).depth == 0 && s.damage == [] &&
  (issueLanes (gang x) (run x)).all fun l => ((s.wg 0).lane l).crew == some 0

theorem able_of {s : State} {x : BitVec 32} {i : Instr} (h : calm s x = true) (hx : within x = true) (hp : popless i = true) :
    Able s 0 (gang x) (run x) i [] := by
  simp only [calm, Bool.and_eq_true, beq_iff_eq, List.all_eq_true] at h
  obtain ⟨⟨⟨⟨⟨h1, h2⟩, h3⟩, h4⟩, h6⟩, h5⟩ := h
  have hc := fun l hl => h5 l (mem_of hx (l := l) hl)
  refine ⟨⟨by rw [h1]; rfl, h2, rfl, rfl, rfl⟩, ?_, h6, ⟨?_, ?_⟩, ?_, ?_, ?_⟩
  · intro l hl c hc'
    rw [h5 l hl] at hc'
    obtain rfl := Option.some.inj hc'
    exact h3
  · intro _ l hl; rw [hc l hl]; simp
  · intro _ l hl m hm; rw [hc l hl, hc m hm]
  · intro l hl e he
    simp [Workgroup.gateOf, hc l hl, h4] at he
  · simp only [popless] at hp
    simp [Env.popsOf, hp]
  · exact .inr (by simp [ClauseRun.next, run])

/-- Lane 0 executes and holds the lock of granule 64, `n` issues old; v1 is an address in it. -/
def sLock (n : Nat) : State := at' 1 (fun w => w.updLane 0 fun x =>
  { x with v := [(1, 64)], lock := some { owner := 0, off := 64, core := 0, bit := lockBit 64, phys := 64, issues := n, atRun := run 1 } }) id

theorem witness_LockHeldAndReleased_stul :
    let e := opEnv (sLock 15) 0 (gang 1) (run 1) []
    let ls := execLanes (gang 1) (run 1)
    (Able (sLock 15) 0 (gang 1) (run 1) (.stul .b32 .local (.v 2) (.v 1) (.imm 60)) [] ∧
      Ready s0 0 (gang 0) (run 0) (.stul .b32 .local (.v 2) (.v 1) (.imm 60)) []) ∧
    (∀ l ∈ issueLanes (gang 1) (run 1), ∀ k, (((sLock 15).wg 0).lane l).lock = some k → k.issues < 16) ∧ ls ≠ [] ∧
    Crewed (sLock 15) 0 (gang 1) (run 1) ∧
    ∃ xs, (taken (sLock 15)).spadResolve 0 e.fpc (Space.isCluster .local) (wbytes .b32) (e.eas (.v 1) (.imm 60)) = .ok xs ∧
      (xs.all (fun x => match (((sLock 15).wg 0).lane x.lane).lock with
        | some k => k.owner == x.owner && k.off == x.off / 64 * 64 | none => false) && xs.length == 1 &&
      (let q := (taken (sLock 15)).settleFor 0 ((taken (sLock 15)).asItem 0 ls .release (spaceScope .local) false (spadTouch .b32 xs))
       q.2 == none && (q.1.wg 0).gang? 0 == some (gang 1))) = true := by
  refine ⟨⟨able_of (by decide) (by decide) rfl, ready0 _ rfl⟩, ?_, by decide, by unfold Crewed; decide, okB_elim (by decide)⟩
  intro l hl k hk
  have : ∀ l ∈ issueLanes (gang 1) (run 1), (match (((sLock 15).wg 0).lane l).lock with | some k => decide (k.issues < 16) | none => true) = true := by
    decide
  have := this l hl
  rw [hk] at this
  exact of_decide_eq_true this

theorem witness_LockHeldAndReleased_state :
    Able (sLock 15) 0 (gang 1) (run 1) (.waitc .sp (.v 1)) [] ∧
    (issueLanes (gang 1) (run 1)).filter (fun l => (((sLock 15).wg 0).lane l).lock.isSome) = [0] ∧ lockFree (.waitc .sp (.v 1)) = false ∧
    (∃ body, exec (.waitc .sp (.v 1)) (sLock 15) = laneIssue (.waitc .sp (.v 1)) body (sLock 15)) :=
  ⟨able_of (by decide) (by decide) rfl, by decide, rfl, _, rfl⟩

theorem witness_LockHeldAndReleased_hold :
    Able (sLock 16) 0 (gang 1) (run 1) (.mov ⟨.u32, false, .v 1, .v 2⟩) [] ∧
    ¬ (∀ l ∈ issueLanes (gang 1) (run 1), ∀ k, (((sLock 16).wg 0).lane l).lock = some k → k.issues < 16) ∧
    (∃ body, exec (.mov ⟨.u32, false, .v 1, .v 2⟩) (sLock 16) = laneIssue (.mov ⟨.u32, false, .v 1, .v 2⟩) body (sLock 16)) := by
  refine ⟨able_of (by decide) (by decide) rfl, fun h => ?_, _, rfl⟩
  exact absurd (h 0 (by decide) _ rfl) (by decide)

theorem witness_ScratchpadAtomicsAndWaits :
    let e := opEnv sSpad 0 (gang 3) (run 3) []
    let ls := execLanes (gang 3) (run 3)
    let ops := Opd.int .u32 (.v 1) :: atomOpd .b32 (.v 3) :: []
    let i := Instr.atoms .add .b32 .local (some (.v 4)) (.v 1) (.v 3) none
    (Ready sSpad 0 (gang 3) (run 3) i [] ∧ Ready s0 0 (gang 0) (run 0) i []) ∧ ls ≠ [] ∧ Crewed sSpad 0 (gang 3) (run 3) ∧
    ∃ xs, (taken sSpad).spadResolve 0 e.fpc (Space.isCluster .local) (wbytes .b32)
        (ls.map fun l => (l, operand sSpad 0 (gang 3) (run 3) [] ops l 0)) = .ok xs ∧
      okB (e.settled .acqRel (spaceScope .local) false (spadTouch .b32 xs)) (fun s1 =>
        (s1.wg 0).gang? 0 == some (gang 3) && xs.all fun x => !s1.lockHeld (s1.lockOf x)) = true :=
  ⟨⟨readySpad _ rfl, ready0 _ rfl⟩, by decide, by unfold Crewed; decide, okB_elim (by decide)⟩

/-- An atomic of one lane. -/
def sAtom : State := at' 1 (fun w => w.updLane 0 fun x => { x with v := [(1, 4088), (3, 5)] }) id
theorem witness_ScratchpadAtomicsAndWaits_one :
    let e := opEnv sAtom 0 (gang 1) (run 1) []
    let ls := execLanes (gang 1) (run 1)
    let ops := Opd.int .u32 (.v 1) :: atomOpd .b64 (.v 4) :: []
    Ready sAtom 0 (gang 1) (run 1) (.atoms .xor .b64 .local (some (.v 6)) (.v 1) (.v 4) none) [] ∧
    ∃ xs, (taken sAtom).spadResolve 0 e.fpc (Space.isCluster .local) (wbytes .b64)
        (ls.map fun l => (l, operand sAtom 0 (gang 1) (run 1) [] ops l 0)) = .ok xs ∧
      (xs.length == 1 && okB (e.settled .acqRel (spaceScope .local) false (spadTouch .b64 xs)) fun s1 =>
        (s1.wg 0).gang? 0 == some (gang 1) && xs.all fun x => !s1.lockHeld (s1.lockOf x)) = true :=
  ⟨ready_of (by decide) (by decide) rfl, okB_elim (by decide)⟩

theorem witness_ScratchpadAtomicsAndWaits_waitc :
    Ready s2 0 (gang 3) (run 3) (.waitc .dm (.v 5)) [] ∧ Crewed s2 0 (gang 3) (run 3) ∧
    (∀ l ∈ execLanes (gang 3) (run 3), ((s2.wg 0).lane l).crew = some 0) ∧
    ∀ l ∈ execLanes (gang 3) (run 3), ((s2.wg 0).crew 0).count .dm ≤ min 63 (operand s2 0 (gang 3) (run 3) [] [.int .u32 (.v 5)] l 0) :=
  ⟨ready2 _ rfl, by unfold Crewed; decide, by decide, by decide⟩

/-- Stream 1 has slots of 64 bytes at 256: 0 is free, 1 full, 2 claimed, 3 taken. v1, v2 name slots 2 and 3; v3 is a base, v4 a
geometry of 64 slots of one granule. -/
def sStream : State := at' 3 (fun w => (w.updCrew 0 fun c => { c with streams := [(1,
    { (default : Stream) with ring := ⟨256, false, 4, 1, 0⟩, free := [0], full := [1], claimed := [2], taken := [3] })] }).updLane 0 fun x =>
  { x with v := [(1, 384), (2, 448), (3, 0), (4, 0x140)] }) id
theorem readyStream (i : Instr) (h : popless i = true) : Ready sStream 0 (gang 3) (run 3) i [] := ready_of (by decide) (by decide) h
theorem witness_StreamsMoveSlots :
    let e := opEnv sStream 0 (gang 3) (run 3) []
    let q := sStream.stream 0 0 1
    InCrew sStream 0 (gang 3) (run 3) 0 ∧
    (Ready sStream 0 (gang 3) (run 3) (.qrd 1 (.v 5)) [] ∧ q.bound = true ∧ q.canTake = [1] ∧ ∃ s1, e.settled .acquire q.scope false .nop = .ok s1 ∧
      (s1 == taken sStream) = true) ∧
    (Ready sStream 0 (gang 3) (run 3) (.qpushClaim 1 (.s 5)) [] ∧ q.bound = true ∧ q.canClaim = [0]) ∧
    (Ready sStream 0 (gang 3) (run 3) (.qpushCommit 1 (.v 1)) [] ∧
      q.canCommit.find? (fun i => q.addr i % 2 ^ 25 == operand sStream 0 (gang 3) (run 3) [] [.int .u32 (.v 1)] 0 0 % 2 ^ 25) = some 2 ∧
      ∃ s1, e.settled .release q.scope false .nop = .ok s1 ∧ (s1 == taken sStream) = true) ∧
    (Ready sStream 0 (gang 3) (run 3) (.qfree 1 (.v 2)) [] ∧
      q.canGive.find? (fun i => q.addr i % 2 ^ 25 == operand sStream 0 (gang 3) (run 3) [] [.int .u32 (.v 2)] 0 0 % 2 ^ 25) = some 3) ∧
    (Ready sStream 0 (gang 3) (run 3) (.qinit 0 (.v 3) (.v 4)) [] ∧
      let geo := operand sStream 0 (gang 3) (run 3) [] [.int .u32 (.v 3), .int .u32 (.v 4)] 0 1
      1 ≤ geo % 128 ∧ geo % 128 ≤ 64 ∧ geo / 256 % 4096 ≠ 0 ∧
      sStream.spadAt 0 0 (Nat.testBit 0 24) (0 % 2 ^ 24) (geo % 128 * (geo / 256 % 4096) * 64) ≠ none ∧
      (sStream.stream 0 0 0).claimed = [] ∧ (sStream.stream 0 0 0).taken = []) ∧ q.newRing = none :=
  ⟨⟨by decide, by decide⟩, ⟨readyStream _ rfl, by decide, by decide, okB_elim (by decide)⟩, ⟨readyStream _ rfl, by decide⟩,
   ⟨readyStream _ rfl, by decide, okB_elim (by decide)⟩, ⟨readyStream _ rfl, by decide⟩, ⟨readyStream _ rfl, by decide⟩, by decide⟩

/-! ### Witnesses of the statements about device memory, records and tiles -/

/-- Lane 0 executes: v1 = 0, v2 the pointer of record 5 and offset 4092 with v3, v4 = 4 and v5 = 5; record 4 is shadowed; shape 0 has
one axis of 8; tile 0 is resident. -/
def sMem : State := atMem 1 false [(0x21000, 0x20002)] (fun w => { (w.updLane 0 fun x =>
  { x with v := [(2, 4092), (3, 0x05000000), (4, 4), (5, 5), (10, 0x10000), (11, 0x18000000), (14, 0x1000)] }) with nshape := 1 }) fun s =>
  s.updCore 0 fun c => { c with recs := ⟨.node 0, false, 4, [0x10000, 0x18000000, 0x12000, 0x02000000, 0x1000], 0x30100⟩ ::
    ⟨.node 0, true, 0, [1, 8, 0, 0, 0, 0, 0, 0, 1], 0x30800⟩ :: c.recs }
theorem readyMem (i : Instr) (h : popless i = true) : Ready sMem 0 (gang 1) (run 1) i [] := ready_of (by decide) (by decide) h

/-- The record path admits the accesses, DM has room, and bank windows give as many values as there are. -/
def dmIn (b : State) (sp : AccSpec) (ord : Order) (sc : Scope) (st : Option Sel) (plain : Bool) (reqs : List LaneReq) (val : Nat → Option Nat)
    (n : Nat) : Bool :=
  let e := opEnv sMem 0 (gang 1) (run 1) []
  accB (b.access 0 e.fpc (run 1).pend sp st.isSome plain reqs) fun s1 as =>
    (e.full .dm).isNone &&
    (match e.winRun b (effective ord sc (typesOf as)).1 (effective ord sc (typesOf as)).2 as (s1.winAccs 0 sp.z val as) with
      | .error (.trap ..) => false | _ => true) &&
    okB (e.winRun s1 (effective ord sc (typesOf as)).1 (effective ord sc (typesOf as)).2 as (s1.winAccs 0 sp.z val as)) fun p =>
      (p.1.wg 0).gang? 0 == some (gang 1) && p.2.length == n

def dmB := dmIn (taken sMem)

def memB (i : MemAddr) : List LaneReq := (execLanes (gang 1) (run 1)).map ((opEnv sMem 0 (gang 1) (run 1) []).memReq i)

theorem witness_DeviceAccessesGoIntoFlight_idle (i : Instr) (h : popless i = true) :
    Ready s0 0 (gang 0) (run 0) i [] ∧ execLanes (gang 0) (run 0) = [] := ⟨ready0 _ h, by decide⟩

/-- LD by record and offset, the last word of it by a pointer, with acquire order, through a bank-direct record; ST. -/
theorem witness_DeviceAccessesGoIntoFlight :
    (∀ i, popless i = true → Ready sMem 0 (gang 1) (run 1) i []) ∧ execLanes (gang 1) (run 1) ≠ [] ∧
    dmB { z := 4, bank := true } .relaxed .crew none true (memB (.off (.imm 5) (.v 1))) (fun _ => none) 0 = true ∧
    dmB { z := 4, bank := true } .acquire .device (some (.v 9)) false (memB (.ptr (.v 2))) (fun _ => none) 0 = true ∧
    dmB { z := 4, write := true, noSenc := true, bank := true } .relaxed .crew none true (memB (.off (.imm 5) (.v 1))) (fun _ => some 7) 0 = true :=
  ⟨readyMem, by decide, by decide, by decide, by decide⟩

/-- Shapes: a coordinate in range, one beyond the axis with a status register. -/
theorem witness_DeviceAccessesGoIntoFlight_tensor :
    let e := opEnv sMem 0 (gang 1) (run 1) []
    let ls := execLanes (gang 1) (run 1)
    let req := fun (c : Sel) => ls.map (e.tensorReq ⟨.b32, false, false, .v 20, [c], 5, 0, none⟩)
    (∃ b, Walked e (fun x l => match e.crewOf l with | some c => x.recReads (x.wg 0) c 0 (8 * l + 7) true | none => []) b ∧
      (okB (({ e with s := b } : Env).tensorReq ⟨.b32, false, false, .v 20, [.v 4], 5, 0, none⟩ 0) fun q => q.1.off == 16 &&
        dmIn b { z := 4 } .relaxed .crew none true [q.1] (fun _ => none) 0) = true) ∧
    ls = [0] ∧ (∃ q, e.tensorReq ⟨.b32, false, false, .v 20, [.v 4], 5, 0, none⟩ 0 = .ok q ∧
      (q.1.off == 16 && dmB { z := 4 } .relaxed .crew none true [q.1] (fun _ => none) 0 &&
        dmB { z := 4, write := true, noSenc := true } .relaxed .crew none true [q.1] (fun _ => none) 0) = true) ∧
    (∃ q, e.tensorReq ⟨.b32, false, false, .v 20, [.v 2], 5, 0, some (.v 9)⟩ 0 = .ok q ∧
      (q.1.clipped && dmB { z := 4 } .relaxed .crew (some (.v 9)) true [q.1] (fun _ => none) 0) = true) ∧ req (.v 4) ≠ [] :=
  ⟨walkedB_elim (by decide), by decide, okB_elim (by decide), okB_elim (by decide), by simp [execLanes, lanesOf, gang, run]; decide⟩

/-- ATOM and RED. -/
theorem witness_DeviceAccessesGoIntoFlight_atomic :
    let sp : AccSpec := { z := 4, write := true, strict := true, noSenc := true }
    let reqs := (execLanes (gang 1) (run 1)).map ((opEnv sMem 0 (gang 1) (run 1) []).offReq (.reg (.v 5)) (.v 4))
    dmB sp .relaxed .crew none false reqs (fun _ => none) 0 = true ∧ dmB sp .acqRel .device none false reqs (fun _ => none) 0 = true ∧
    popless (.atom ⟨.add, .b32, .acqRel, .device, false, false, .reg (.v 5), .v 4, .v 8, none⟩) = true :=
  ⟨by decide, by decide, rfl⟩

theorem witness_PrefetchMonitorsAndFences_pref :
    Ready sMem 0 (gang 1) (run 1) (.prefL1 false (.imm 5) (.v 1)) [] ∧ Ready sMem 0 (gang 1) (run 1) (.prefL2 true (.imm 255) (.v 1)) [] ∧
    Ready sMem 0 (gang 1) (run 1) (.prefPagein false (.imm 6) (.v 1)) [] ∧
    (∀ l ∈ execLanes (gang 1) (run 1), (match (taken sMem).tileOf 0 true ((opEnv sMem 0 (gang 1) (run 1) []).offReq (.imm 6) (.v 1) l) with
      | .inr a => !rPagein a.rcd | .inl _ => false) = true) ∧
    (NothingFlies sMem ∧ NoBankHeld sMem) ∧
    ∃ b, Walked (opEnv sMem 0 (gang 1) (run 1) [])
        (fun x l => x.tableReads 0 { z := 1 } true ((opEnv sMem 0 (gang 1) (run 1) []).offReq (.imm 6) (.v 1) l)) b ∧
      ((b.wg 0).gang? 0 == some (gang 1) && b.passed ((execLanes (gang 1) (run 1)).map (Agent.lane 0)) == [] && b.pchs == []) = true :=
  ⟨readyMem _ rfl, readyMem _ rfl, readyMem _ rfl, by decide, ⟨by unfold NothingFlies; decide, noBankHeld rfl⟩, walkedB_elim (by decide)⟩

/-- A monitor that has fired, and one that has not. -/
def sMon (f : Bool) : State := at' 1 (fun w => w.updCrew 0 fun c => { c with monitor := some ⟨4, f⟩ }) id
theorem witness_PrefetchMonitorsAndFences :
    let e := opEnv sMem 0 (gang 1) (run 1) []
    let ls := execLanes (gang 1) (run 1)
    let reqs := ls.map (e.offReq (.imm 5) (.v 1))
    Ready s0 0 (gang 0) (run 0) .monwait [] ∧
    (Ready sMem 0 (gang 1) (run 1) (.monitor .b32 true .device false false (.imm 5) (.v 1) (.v 9) none) [] ∧ ls ≠ [] ∧
      (run 1).pend = .none ∧
      ∃ s1 as, (taken sMem).access 0 e.fpc (run 1).pend { z := 4, strict := true, noSenc := true, mon := true } false false reqs = .ok s1 as ∧
        ((as.flatMap (s1.accWaits false)).all s1.sweptDone && let q := s1.settleFor 0 (s1.asItem 0 ls .acquire .device false (touchOp as))
         q.2 == none && (q.1.heldPch as).isNone && (q.1.wg 0).gang? 0 == some (gang 1) && as.length == 1 && as.all (·.isOk)) = true) ∧
    (∀ f, Ready (sMon f) 0 (gang 1) (run 1) .monwait [] ∧ InCrew (sMon f) 0 (gang 1) (run 1) 0 ∧
      (((sMon f).wg 0).crew 0).monitor = some ⟨4, f⟩) ∧
    Ready s2 0 (gang 3) (run 3) (.fence .seq .system) [] ∧ Crewed s2 0 (gang 3) (run 3) :=
  ⟨ready0 _ rfl, ⟨readyMem _ rfl, by decide, rfl, accB_elim (by decide)⟩,
   fun f => by cases f <;> exact ⟨ready_of (by decide) (by decide) rfl, ⟨by decide, by decide⟩, by decide⟩, ready2 _ rfl, by unfold Crewed; decide⟩

/-- PUBLISH of the shadowed record 4, RECSET of record 5 from v10, reloads of record 5 and shape 0. -/
theorem witness_RecordsArePublishedAndSet :
    let e := opEnv sMem 0 (gang 1) (run 1) []
    let ls := execLanes (gang 1) (run 1)
    let tb := fun b : State => b.tableOf (sMem.wg 0) 0 false
    (∀ i, popless i = true → Ready sMem 0 (gang 1) (run 1) i []) ∧ ls ≠ [] ∧ Crewed sMem 0 (gang 1) (run 1) ∧
    operand sMem 0 (gang 1) (run 1) [] [.int .u32 (.v 4)] 0 0 % 256 = 4 ∧ operand sMem 0 (gang 1) (run 1) [] [.int .u32 (.v 5)] 0 0 % 256 = 5 ∧
    (∃ b, Found e 0 4 (e.slotWalk 0 4 false) b ∧
      (okB (b.recGet (sMem.wg 0) 0 4 6) (fun x => recCheck { z := 1, bank := true } false 0 4 (recBits x.1) == none && rShen (recBits x.1)) &&
      okB (({ e with s := b } : Env).tablePieces 0 true ((tb b).2.1 + 64 * 4) 40 ls) fun ps => ps.length == 1 && ps.all (fun p => p.len == 40) &&
        okB (({ e with s := b } : Env).slotReady .release .device ps) fun s1 => (s1.wg 0).gang? 0 == some (gang 1)) = true) ∧
    (∃ b, Found e 0 5 (e.slotWalk 0 5 false) b ∧ (decide (5 < (tb b).2.2) &&
      okB (({ e with s := b } : Env).tablePieces 0 true ((tb b).2.1 + 64 * 5) 40 ls) fun ps => ps.length == 1 &&
        okB (({ e with s := b } : Env).slotReady .relaxed .device ps) fun s1 => (s1.wg 0).gang? 0 == some (gang 1)) = true) ∧
    recCheck { z := 1, bank := true } false 0 5 (recBits (e.regs 0 (.v 10) 10 1 8)) = none ∧
    ∃ b, Walked e (e.slotWalk 0 0 true) b ∧ (decide (0 < (b.tableOf (sMem.wg 0) 0 true).2.2) &&
      okB (({ e with s := b } : Env).tablePieces 0 false (b.tableOf (sMem.wg 0) 0 true).2.1 64 ls) fun ps => ps.length == 1 &&
        okB (({ e with s := b } : Env).slotReady .relaxed .device ps) fun s1 => (s1.wg 0).gang? 0 == some (gang 1)) = true :=
  ⟨readyMem, by decide, by unfold Crewed; decide, by decide, by decide, foundB_elim (by decide), foundB_elim (by decide), by decide,
   walkedB_elim (by decide)⟩

/-- The same machine where record 5 stands in the table too. -/
def sTab : State := { sMem with mem := memOf (tables false ++ [(320, 0x1800000000010000), (336, 0x1000)]) }
theorem witness_RecordsArePublishedAndSet_reload :
    let e := opEnv sTab 0 (gang 1) (run 1) []
    let ls := execLanes (gang 1) (run 1)
    Ready sTab 0 (gang 1) (run 1) (.recsetReload (.v 5)) [] ∧ ∃ b, Found e 0 5 (e.slotWalk 0 5 false) b ∧
      (okB (({ e with s := b } : Env).tablePieces 0 true ((b.tableOf (sTab.wg 0) 0 false).2.1 + 64 * 5) 64 ls) fun ps =>
        ps.length == 1 && ps.all (fun p => p.len == 64) &&
        okB (({ e with s := b } : Env).slotReady .relaxed .device ps) fun s1 => (s1.wg 0).gang? 0 == some (gang 1) &&
          recCheck { z := 1, bank := true } false 0 5 (recBits (wordsLE (s1.slotBytes ps))) == none) = true :=
  ⟨ready_of (by decide +kernel) (by decide) rfl, foundB_elim (by decide +kernel)⟩

/-- The tile of each lane is found, with the entry's value; nothing has to be waited for. -/
def tileB (s : State) (wr : Bool) (p : State → List TileAcc → Bool) : Bool :=
  let e := opEnv s 0 (gang 1) (run 1) []
  walkedB e (fun x l => x.tableReads 0 { z := 1 } true (e.offReq (.imm 6) (.v 1) l)) fun b =>
    match b.tileOf 0 wr (e.offReq (.imm 6) (.v 1) 0) with
    | .inr a => okB (({ e with s := b } : Env).settled .relaxed .device false (tileTouch [a])) fun s1 =>
        (s1.wg 0).gang? 0 == some (gang 1) && s1.pchs == [] &&
        (match a.entry with | some q => !s1.held ⟨.phys q.2, 8⟩ && s1.mcOf ⟨.phys q.2, 8⟩ == none | none => true) && p s1 [a]
    | .inl _ => false

theorem witness_TilesPinnedAndQueried :
    execLanes (gang 1) (run 1) = [0] ∧
    Ready sMem 0 (gang 1) (run 1) (.pin false (.imm 6) (.v 1) (.v 9)) [] ∧
    tileB sMem true (fun s1 as => (s1.pinLanes 0 true as).2.2 == [] && as.all fun a => a.entry.isSome && !rPagein a.rcd) = true ∧
    Ready sMem 0 (gang 1) (run 1) (.unpin false (.imm 6) (.v 1)) [] ∧
    tileB sMem true (fun s1 as => as.all fun a => match a.entry with | some q => pinEntry false (s1.rdNat q.2 8) == none | none => false) = true ∧
    Ready sMem 0 (gang 1) (run 1) (.resq false false (.imm 6) (.v 1) (.v 8) (some (.v 9))) [] ∧ tileB sMem false (fun _ as => as.all (·.entry.isSome)) = true ∧
    Ready sMem 0 (gang 1) (run 1) (.resqFetch false false (.imm 6) (.v 1) (.v 8) none) [] ∧ tileB sMem true (fun _ as => as.all fun a => !rPagein a.rcd) = true :=
  ⟨by decide, readyMem _ rfl, by decide, readyMem _ rfl, by decide, readyMem _ rfl, by decide, readyMem _ rfl, by decide⟩

/-- A load through the bank-direct record of pseudo-channel 0, and a load that is all checked. -/
theorem witness_DeviceAccessesGoIntoFlight_bank :
    dmB { z := 4, bank := true } .relaxed .crew none true (memB (.off (.imm 7) (.v 1))) (fun _ => none) 1 = true := by decide

/-! ### Witnesses of the statements about barriers, queues and sweeps -/

/-- Barrier 2 is initialised, in phase 1, and awaits 3 arrivals; barrier 3 has early counts; barriers 0 and 31 are as after reset.
v1 = 4095, v2 = 4096, v3 = 1. -/
def sBar : State := at' 3 (fun w => { (w.updLane 0 fun x => { x with v := [(1, 4095), (2, 4096), (3, 1)] }) with barriers :=
  [(2, { (default : Barrier) with init := true, phase := 1, exparr := 3, pendarr := 3 }), (3, { (default : Barrier) with early := true, pendarr := 1 })] }) id
theorem readyBar (i : Instr) (h : popless i = true) : Ready sBar 0 (gang 3) (run 3) i [] := ready_of (by decide) (by decide) h
theorem crewBar : InCrew sBar 0 (gang 3) (run 3) 0 := ⟨by decide, by decide⟩

theorem witness_BarrierExpectsBytes :
    Ready sBar 0 (gang 3) (run 3) (.bexpect 2 7) [] ∧ Ready sBar 0 (gang 3) (run 3) (.bexpectReg 31 (.v 1)) [] ∧ InCrew sBar 0 (gang 3) (run 3) 0 ∧
    ((sBar.wg 0).barriers.get 2).init = true ∧ ((sBar.wg 0).barriers.get 31).init = false := ⟨readyBar _ rfl, readyBar _ rfl, crewBar, by decide, by decide⟩

theorem witness_BarrierInitialised :
    let x := fun a => operand sBar 0 (gang 3) (run 3) [] [.int .u32 a, .int .u32 (.v 3)] 0 0
    (∀ i, popless i = true → Ready sBar 0 (gang 3) (run 3) i []) ∧ popless (.binit 0 false false (.v 1) (.v 3)) = true ∧ InCrew sBar 0 (gang 3) (run 3) 0 ∧
    x (.v 1) ≤ 4095 ∧ ((sBar.wg 0).barriers.get 0).early = false ∧ 0 < x (.v 1) % 4096 ∧ ((sBar.wg 0).barriers.get 3).early = true ∧ 4095 < x (.v 2) ∧
    Ready s0 0 (gang 0) (run 0) (.binit 0 false false (.v 1) (.v 3)) [] :=
  ⟨readyBar, rfl, crewBar, by decide, by decide, by decide, by decide, by decide, ready0 _ rfl⟩

theorem witness_BarrierArrivesMergesAndWaits :
    (∀ i, popless i = true → Ready sBar 0 (gang 3) (run 3) i []) ∧ popless (.barrive 2 none (.v 3)) = true ∧ popless (.barrive 2 (some (.v 3)) (.v 3)) = true ∧
    InCrew sBar 0 (gang 3) (run 3) 0 ∧ Safety.Room sBar 0 (gang 3) (run 3) .cl ∧ (taken sBar).sibling 0 (1 % 4) = none ∧
    popless (.bwait 2 none) = true ∧ ((sBar.wg 0).barriers.get 2).init = true ∧
    (∀ l ∈ execLanes (gang 3) (run 3), ((sBar.wg 0).barriers.get 2).phase.getLsbD 0 ≠ ((sBar.wg 0).lane l).wpar.getLsbD 2) ∧
    popless (.bwait 2 (some (.v 3))) = true ∧
    ¬ (∀ l ∈ execLanes (gang 3) (run 3), ((sBar.wg 0).barriers.get 2).phase.toNat ≠ operand sBar 0 (gang 3) (run 3) [] [.int .u32 (.v 3)] l 0 % 65536) ∧
    ((sBar.wg 0).barriers.get 0).init = false ∧ Ready s0 0 (gang 0) (run 0) (.bwait 2 none) [] :=
  ⟨readyBar, rfl, rfl, crewBar, by unfold Safety.Room; decide, by decide, rfl, by decide, by decide, rfl, by decide, by decide, ready0 _ rfl⟩

/-- The merge: the last arrival with the last byte, an early one, one too many. -/
theorem witness_BarrierMerges :
    ((default : Barrier).init = false ∧ ({ (default : Barrier) with init := true, pendarr := 1, pendbytes := 8 } : Barrier).init = true) ∧
    (1 - 1 = 0 ∧ signedOf 32 (8 : Word).toNat - (8 : Int) + 0 ≤ 0) ∧ ¬ (1 - 1 = 0 ∧ signedOf 32 (8 : Word).toNat - (7 : Int) + 0 ≤ 0) := by decide

theorem witness_BarrierWordsRead : Ready sBar 0 (gang 3) (run 3) (.btest 2 0 (.v 9)) [] ∧ Ready sBar 0 (gang 3) (run 3) (.btest 31 3 (.s 9)) [] ∧
    InCrew sBar 0 (gang 3) (run 3) 0 := ⟨readyBar _ rfl, readyBar _ rfl, crewBar⟩

/-- Record 5 names the header of a queue of sixteen slots, of a memory engine, whose WRIDX is `n`; the window holds an image that copies; v5 = 5. -/
def sPost (n : Nat) : State := atMem 1 false [(0x10000, n), (0x10008, 0x18000), (0x10010, 4 + 2 ^ 20)] (fun w =>
  { (w.updLane 0 fun x => { x with v := [(5, 5), (6, 1)] }) with win := Memory.write [] 4 [1] }) id

theorem readyPost (n : Nat) (h : n = 15 ∨ n = 16) (i : Instr) (hp : popless i = true) : Ready (sPost n) 0 (gang 1) (run 1) i [] := by
  obtain rfl | rfl := h <;> exact ready_of (by decide) (by decide) hp

/-- All that a post asks for, with the slot free or not. -/
def postGo (n : Nat) (src : PacketSource) (free : Bool) : Bool :=
  let e0 := opEnv (sPost n) 0 (gang 1) (run 1) []
  let idx := e0.queueIdx 0 (.v 5)
  foundB e0 0 idx (e0.queueWalk 0 idx) fun b =>
  let e : Env := { e0 with s := b }
  okB (e.queueRef 0 idx true) fun ref => okB (src 0 e) fun x =>
    okB (e.settled .relaxed .device false (lineTouch 0 (.phys ref.pa :: x.2))) fun s1 => okB (src 0 { e with s := s1 }) fun y =>
      let h0 := s1.hdrBits ref.pa
      let k := (qWridx h0 + 1) % 2 ^ 32
      let s2 := s1.physWrite (some 0) ref.pa (bytesOfNat 4 k)
      let h := s2.hdrBits ref.pa
      !s1.held ⟨.phys ref.pa, 64⟩ && s1.mcOf ⟨.phys ref.pa, 64⟩ == none && queueOk h0 0 && classServes (qClass h0) (y.1.getD 1 0 % 256) && !mustZeroSet y.1 && (e.full .en).isNone &&
      (s1.wg 0).gang? 0 == some (gang 1) && seqGe (qWm h) (slotFree h k) == free &&
      (!free || walkedB { e0 with s := s2 } (e0.walkAt 0 fun _ => [slotVa h k]) fun s3 => (s3.wg 0).gang? 0 == some (gang 1) &&
        okB (({ e0 with s := s3 } : Env).normalLine 0 true (slotVa h k) ref.idx) fun _ => true)

theorem witness_PostsClaimAndWatermarksRead :
    InCrew (sPost 15) 0 (gang 1) (run 1) 0 ∧ Ready (sPost 15) 0 (gang 1) (run 1) (.epost (.v 8) (.v 5) (.v 1)) [] ∧ (run 1).pend = .none ∧
    postGo 15 (epostImage (.v 1) (popsIn [(.v 5, 1)])) true = true ∧ postGo 16 (epostImage (.v 1) (popsIn [(.v 5, 1)])) false = true ∧
    Ready (sPost 16) 0 (gang 1) (run 1) (.copy true false (.v 8) (.v 5) 16) [] ∧
    postGo 15 (copyImage true false 16 (popsIn [(.v 5, 1)])) true = true ∧ Ready s0 0 (gang 0) (run 0) (.eseq (.v 8) (.v 5) none) [] :=
  ⟨⟨by decide, by decide⟩, readyPost _ (.inl rfl) _ rfl, rfl, by decide +kernel, by decide +kernel, readyPost _ (.inr rfl) _ rfl, by decide +kernel, ready0 _ rfl⟩

theorem witness_PostsClaimAndWatermarksRead_eseq :
    let e := opEnv (sPost 15) 0 (gang 1) (run 1) []
    Ready (sPost 15) 0 (gang 1) (run 1) (.eseq (.v 8) (.v 5) none) [] ∧ Ready (sPost 15) 0 (gang 1) (run 1) (.eseq (.v 8) (.v 5) (some (.v 6))) [] ∧
    InCrew (sPost 15) 0 (gang 1) (run 1) 0 ∧ ∃ b, Found e 0 (e.queueIdx 0 (.v 5)) (e.queueWalk 0 (e.queueIdx 0 (.v 5))) b ∧
      okB (({ e with s := b } : Env).queueRef 0 (e.queueIdx 0 (.v 5)) false) (fun ref =>
      okB (({ e with s := b } : Env).settled .acquire .device false (lineTouch 0 [.phys ref.pa])) fun s1 =>
        !s1.held ⟨.phys ref.pa, 64⟩ && s1.mcOf ⟨.phys ref.pa, 64⟩ == none && queueOk (s1.hdrBits ref.pa) 0 && (s1.wg 0).gang? 0 == some (gang 1) &&
        seqGe (qWm (s1.hdrBits ref.pa)) (e.int32 0 (.v 1) 0 4).toNat && !seqGe (qWm (s1.hdrBits ref.pa)) (e.int32 0 (.v 6) 0 4).toNat) = true :=
  ⟨readyPost _ (.inl rfl) _ rfl, readyPost _ (.inl rfl) _ rfl, ⟨by decide, by decide⟩, foundB_elim (by decide +kernel)⟩

/-- A sweep entry of bank 0, row 0, by function 2. -/
def sweep (state : Nat) : SweepEntry := { (default : SweepEntry) with img0 := 1 + BitVec.ofNat 32 (2 ^ 17 + 2 ^ 19 + 2 * 2 ^ 20), img2 := 2 * 1024, state := state }

/-- Entry 3 is ACTIVE and entry 31 STOPPED; v7 names the bank-direct record, v3 = 3, v4 = 31; v10 to v12 hold an image; gang 1 is
parked in a wait for entry 3. -/
def sSweep : State := atMem 1 false [] (fun w => { (w.updLane 0 fun x =>
  { x with v := [(3, 3), (4, 31), (7, 7), (10, (sweep 1).img0), (12, (sweep 1).img2)] }) with gangs := w.gangs ++
    [{ gang 0 with id := 1, park := some (.sweepWait 0), clause := some { run 0 with pend := .sweep [(3, [0])] } }] })
  fun s => s.updPch 0 fun p => { p with table := [(3, sweep 1), (31, sweep 2)] }
theorem readySweep (i : Instr) (h : popless i = true) : Ready sSweep 0 (gang 1) (run 1) i [] := ready_of (by decide) (by decide) h

/-- The record that v7 names is found, and what holds of the state then. -/
def sweepB (p : State → Bool) : Bool :=
  foundB (opEnv sSweep 0 (gang 1) (run 1) []) 0 7 (fun _ _ => []) fun b =>
    okB (b.recGet (sSweep.wg 0) 0 7 6) (fun x =>
      recCheck { z := 1, bank := true } (match b.descUse 0 0 with | some d => descSuper d | none => false) 0 7 (recBits x.1) == none &&
        rKind (recBits x.1) == 5 && rAux (recBits x.1) % 1024 == 0) && p b

theorem sweepAt {p : State → Bool} (h : sweepB p = true) : ∃ b, SweepAt sSweep 0 (gang 1) (run 1) [] (.v 7) 0 0 b ∧ p b = true := by
  obtain ⟨b, hb, hp⟩ := foundB_elim h
  simp only [Bool.and_eq_true] at hp
  obtain ⟨⟨ws, k⟩, hx, hc⟩ := okB_elim hp.1
  simp only [Bool.and_eq_true, beq_iff_eq] at hc
  exact ⟨b, ⟨⟨by decide, by decide⟩, hb, ws, k, hx, hc.1.1, hc.1.2, hc.2.symm⟩, hp.2⟩

theorem witness_SweepTableIsGuarded :
    let idx := fun x => (opEnv sSweep 0 (gang 1) (run 1) []).entryIdx 0 (.v 7) x
    Ready sSweep 0 (gang 1) (run 1) (.swforce (.v 7) (.v 1)) [] ∧ (∃ b, SweepAt sSweep 0 (gang 1) (run 1) [] (.v 7) 0 0 b ∧
      (!(b.pch 0).heldByOther (0, 0) && !(b.pch 0).ownedBy (0, 0) && ((b.pch 0).table.get (idx (.v 1))).state == 0) = true) ∧
    (run 1).pend = .none ∧ idx (.v 3) = 3 ∧
    ((sSweep.wg 0).gang? 1).isSome = true ∧
    (∀ h, (sSweep.wg 0).gang? 1 = some h → h.id = 1 ∧ h.park = some (.sweepWait 0) ∧ h.clause = some { run 0 with pend := .sweep [(3, [0])] }) :=
  ⟨readySweep _ rfl, sweepAt (by decide), rfl, by decide, by decide, fun h hh => by
    obtain rfl : _ = h := Option.some.inj ((rfl : (sSweep.wg 0).gang? 1 = some _).symm.trans hh); exact ⟨rfl, rfl, rfl⟩⟩

/-- A SWWAIT whose entry has been freed. -/
theorem witness_SweepTableIsGuarded_freed :
    let r := { run 1 with pend := .sweep [] }
    let g := { gang 1 with clause := some r }
    let s := { sSweep with wgs := [(0, { sSweep.wg 0 with gangs := [g] })] }
    Stands s 0 g r ∧ r.pend = .sweep [] := ⟨⟨rfl, rfl, rfl, rfl, rfl⟩, rfl⟩

theorem witness_SweepEntriesMoveAndPositionRead :
    let e := opEnv sSweep 0 (gang 1) (run 1) []
    let entry := fun x => e.entryIdx 0 (.v 7) x
    let p := sSweep.pch 0
    let img := e.regs 0 (.v 10) 3 (popsIn [(.v 7, 1)]) 4
    let new : SweepEntry := { (default : SweepEntry) with img0 := img.getD 0 0, img1 := img.getD 1 0, img2 := img.getD 2 0, state := 1, domain := 0, ackn := p.n, reg := p.regs + 1 }
    (∀ i, popless i = true → Ready sSweep 0 (gang 1) (run 1) i []) ∧ popless (.swreg (.v 9) (.v 7) 10) = true ∧
    (∃ b, SweepAt sSweep 0 (gang 1) (run 1) [] (.v 7) 0 0 b ∧ (b.pch 0 == p &&
      okB (({ e with s := b } : Env).settled .release .device false .fence) fun s1 => (s1.wg 0).gang? 0 == some (gang 1)) = true) ∧
    p.heldByOther (0, 0) = false ∧ imageOk p new = true ∧ firstBelow 32 (fun j => (p.table.get j).state == 0) = some 0 ∧
    (∀ b, b < 16 → bitAt new.mask b = true → p.activeOn b < 8) ∧
    p.entryOf 0 (entry (.v 3)) = some (sweep 1) ∧ p.entryOf 0 (entry (.v 4)) = some (sweep 2) ∧ p.ownedBy (0, 0) = false ∧ (run 1).pend = .none ∧
    (sweep 2).waitRows = [] ∧ (sweep 1).waitRows ≠ [] ∧ Ready s0 0 (gang 0) (run 0) (.swwait (.v 7) none) [] :=
  ⟨readySweep, rfl, sweepAt (by decide), by decide, by decide, by decide, by decide, by decide, by decide, by decide, rfl, by decide,
   by decide, ready0 _ rfl⟩

/-- spec/12 R284: two arrivals of one cycle on a register that awaits one end its phase once, and the excess is OVERFLOW. -/
theorem test_contributions_merge_once :
    let b : Barrier := ((({ (default : Barrier) with init := true, exparr := 1, pendarr := 1 } : Barrier).add 1 0 0).add 1 0 0).cycleEnd
    (b.phase, b.pendarr, b.overflow) = (1, 1, true) := by decide

/-! ### Witnesses of the statements about control and exceptions -/

/-- Slot 0 of the core holds the clause; the vector of cause 0xF2 names a header at 32. -/
def atCtl (x : BitVec 32) (f : Workgroup → Workgroup) : State := atMem x false [(0x3C8, 0x40020)] f fun s =>
  s.updCore 0 fun c => { c with istore := c.istore.set 0 (fetchSlot (List.replicate 7 0xF2800000 ++ [0xFDF80000])) }

/-- v1 is a header in lane 0, and 2^18 in lane 1; P1 holds in lane 1. -/
def sCtl : State := atCtl 3 fun w => (w.updLane 0 fun x => { x with v := [(1, 32)] }).updLane 1 fun x => { x with v := [(1, 2 ^ 18)], p := 2 }
theorem readyCtl (i : Instr) (h : popless i = true) : Ready sCtl 0 (gang 3) (run 3) i [] := ready_of (by decide) (by decide) h

theorem witness_ControlTransfers :
    let ls := execLanes (gang 3) (run 3)
    let fpc := (envOf sCtl 0 (gang 3) (run 3)).fpc
    let near := fun (off : BitVec 18) => ((fpc : Int) + 4 * signedOf 18 off.toNat) / 4096 = (fpc : Int) / 4096
    (∀ i, popless i = true → Ready sCtl 0 (gang 3) (run 3) i []) ∧ (run 3).next % 4096 ≠ 0 ∧ popless (.bra 1 false 7) = true ∧ popless (.call 1 true 7) = true ∧
    ls.filter (fun l => predOf sCtl 0 l 1 != false) = [1] ∧ ls.filter (fun l => predOf sCtl 0 l 1 != true) = [0] ∧ near 7 ∧
    near 1022 ∧ ¬ near 1023 ∧ ¬ near 0x3FFFE ∧ popless (.jmpf 1 false 0 8) = true ∧
    ls.filter (fun l => !(taken sCtl).segLanded (sCtl.wg 0) ((sCtl.wg 0).domOf l) 0) = [] ∧
    ls.filter (fun l => !(taken sCtl).segLanded (sCtl.wg 0) ((sCtl.wg 0).domOf l) 63) = [0, 1] ∧ popless .nop = true :=
  ⟨readyCtl, by decide, rfl, rfl, by decide, by decide, by decide, by decide, by decide, by decide, rfl, by decide, by decide, rfl⟩

theorem witness_ControlTransfers_indirect :
    let e := opEnv sCtl 0 (gang 3) (run 3) []
    let x := fun l => (e.int32 l (.v 1) 0 0).toNat
    Ready sCtl 0 (gang 3) (run 3) (.bri (.v 1)) [] ∧ execLanes (gang 3) (run 3) = [0] ++ 1 :: [] ∧ (∀ k ∈ [0], e.targetCause k (x k) = none) ∧
    e.targetCause 1 (x 1) = some 1 ∧ Ready sCtl 0 (gang 3) (run 3) .ret [] ∧ ∀ l ∈ execLanes (gang 3) (run 3), e.targetCause l (e.int32 l (.o 7) 0 0).toNat = none :=
  ⟨readyCtl _ rfl, by decide, by decide +kernel, by decide +kernel, readyCtl _ rfl, by decide +kernel⟩

/-- The gang stands so; a gate call may be in force. -/
theorem ready_gated {s : State} {x : BitVec 32} {i : Instr} (h1 : s.agenda = [.gang 0 0]) (h2 : (s.wg 0).gang? 0 = some (gang x))
    (h3 : ((s.wg 0).crew 0).mcheck = none) (h5 : ∀ l ∈ issueLanes (gang x) (run x), ((s.wg 0).lane l).crew = some 0 ∧ ((s.wg 0).lane l).lock = none)
    (hx : within x = true) (hp : popless i = true) (hb : calleeBars i = false) (hm : isMatrix i = false) (h6 : s.damage = [] := by rfl) :
    Ready s 0 (gang x) (run x) i [] := by
  have hc := fun l hl => (h5 l (mem_of hx (l := l) hl)).1
  refine ⟨⟨⟨by rw [h1]; rfl, h2, rfl, rfl, rfl⟩, ?_, h6, ⟨?_, ?_⟩, ?_, ?_, ?_⟩, fun l hl => (h5 l hl).2⟩
  · intro l hl c hc'
    rw [(h5 l hl).1] at hc'
    obtain rfl := Option.some.inj hc'
    exact h3
  · intro _ l hl; rw [hc l hl]; simp
  · intro _ l hl m hm; rw [hc l hl, hc m hm]
  · intro l hl e he
    exact ⟨hb, fun h => absurd h (by rw [hm]; decide)⟩
  · simp only [popless] at hp
    simp [Env.popsOf, hp]
  · exact .inr (by simp [ClauseRun.next, run])

/-- The crew runs its handler, in a call or in none, with a load in flight. -/
def sInHandler (d : Nat) : State := at' 3 (fun w => w.updCrew 0 fun c => { c with handler := true, depth := d, flight := [{ (default : FlightItem) with path := some .dm }] }) id
theorem witness_SoftwareTrapRaised :
    Ready s0 0 (gang 0) (run 0) (.trap 15) [] ∧ (run 0).next % 4096 ≠ 0 ∧ Ready s2 0 (gang 3) (run 3) (.trap 2) [] ∧ execLanes (gang 3) (run 3) ≠ [] ∧
    Ready (sInHandler 0) 0 (gang 3) (run 3) (.trap 2) [] ∧ InCrew (sInHandler 0) 0 (gang 3) (run 3) 0 ∧
    (∀ d, (∀ x ∈ ((sInHandler d).wg 0).traps, x.id ≠ ((sInHandler d).wg 0).nextTrap) ∧ (((sInHandler d).wg 0).crew 0).handler = true ∧
      (((sInHandler d).wg 0).crew 0).depth = d ∧ (((sInHandler d).wg 0).crew 0).drained = false) ∧
    Ready (sInHandler 1) 0 (gang 3) (run 3) (.trap 2) [] ∧ InCrew (sInHandler 1) 0 (gang 3) (run 3) 0 :=
  ⟨ready0 _ rfl, by decide, ready2 _ rfl, by decide, ready_of (by decide) (by decide) rfl, ⟨by decide, by decide⟩,
   fun _ => ⟨(by intro x hx; cases hx), rfl, rfl, rfl⟩, ready_gated rfl rfl rfl (by decide) (by decide) rfl rfl rfl, ⟨by decide, by decide⟩⟩

theorem witness_HandlerEntered :
    Ready sCtl 0 (gang 3) (run 3) (.trap 2) [] ∧ InCrew sCtl 0 (gang 3) (run 3) 0 ∧ (∀ l ∈ execLanes (gang 3) (run 3), l ∈ issueLanes (gang 3) (run 3)) ∧
    (∀ x ∈ (sCtl.wg 0).traps, x.id ≠ (sCtl.wg 0).nextTrap) ∧ ((sCtl.wg 0).crew 0).handler = false ∧ ((sCtl.wg 0).crew 0).depth = 0 ∧
    (taken sCtl).handlerOf (sCtl.wg 0) ((sCtl.wg 0).crew 0).domain (0xF0 + 2 % 16) = some 32 :=
  ⟨readyCtl _ rfl, ⟨by decide, by decide⟩, by decide, (by intro x hx; cases hx), by decide, by decide, by decide +kernel⟩

/-- Lanes 0 and 1 run the handler of a trap that all four lanes resume from, lanes 0 and 1 where they stood, 2 and 3 at 32. -/
def trap0 : TrapIssue := { id := 0, hset := 0, issue := 0xF, fpc := 4, cause := 0xF2, todo := []
                           resume := [⟨0, 0, 4, some (run 1)⟩, ⟨1, 0, 4, some (run 1)⟩, ⟨2, 0, 32, none⟩]
                           cur := some { crew := some 0, faulters := 3, detail := [], recs := [] } }
def runH : ClauseRun := { run 3 with issue := 3 }
def gangH : Gang := { gang 3 with mask := 3, clause := some runH }
def sRet : State := { State.reset with agenda := [.gang 0 0], wgs := [(0, { group 0 with
  crews := [(0, { (default : Crew) with held := true, handler := true })], gangs := [gangH], traps := [trap0], nextTrap := 1
  lanes := [(0, { lane with saved := some default }), (1, { lane with saved := some default }), (2, lane), (3, lane)] })] }

theorem readyRet (i : Instr) (h : popless i = true) : Ready sRet 0 gangH runH i [] := by
  refine ⟨⟨⟨rfl, by decide, rfl, rfl, rfl⟩, ?_, rfl, ⟨?_, ?_⟩, ?_, ?_, ?_⟩, by decide⟩
  · intro l hl c hc'
    have : ∀ l ∈ issueLanes gangH runH, ((sRet.wg 0).lane l).crew = some 0 := by decide
    rw [this l hl] at hc'
    obtain rfl := Option.some.inj hc'
    decide
  · intro _; decide
  · intro _; decide
  · intro l hl e he
    have : ∀ l ∈ execLanes gangH runH, (sRet.wg 0).gateOf l = none := by decide
    rw [this l hl] at he
    cases he
  · simp only [popless] at h
    simp [Env.popsOf, h]
  · exact .inr (by decide)

theorem witness_HandlerReturns :
    let e := opEnv sRet 0 gangH runH []
    let tc : TrapCrew := { crew := some 0, faulters := 3, detail := [], recs := [] }
    let hl := (lanesOf 0 tc.faulters).filter fun l => ((sRet.wg 0).lane l).live
    (Ready sRet 0 gangH runH .tret [] ∧ Ready sRet 0 gangH runH .tretAbort []) ∧ (∀ l ∈ issueLanes gangH runH, (sRet.wg 0).handlerTrap l = some trap0) ∧
    issueLanes gangH runH ≠ [] ∧ (∀ l ∈ execLanes gangH runH, l ∈ issueLanes gangH runH) ∧
    (sRet.wg 0).traps.find? (fun x => x.id == trap0.id) = some trap0 ∧ trap0.cur = some tc ∧ ((sRet.wg 0).crew 0).drained = true ∧
    (e.otherGangs hl).isEmpty = true ∧ trap0.todo = [] ∧ ((sRet.wg 0).crew 0).depth = 0 ∧
    (let q := (taken sRet).settleFor 0 ((taken sRet).asItem 0 hl .acqRel .device false .fence)
     q.2 == none && (q.1.wg 0).traps.find? (fun x => x.id == 0) == some trap0 && (q.1.wg 0).crew 0 == (sRet.wg 0).crew 0 &&
     (q.1.wg 0).term == (sRet.wg 0).term) = true ∧
    (∀ l ∈ lanesOf 0 tc.faulters, ((sRet.wg 0).lane l).saved = some default) ∧ homeOf 2 = 0 ∧
    Ready s2 0 (gang 3) (run 3) .tret [] ∧ (execLanes (gang 3) (run 3)).filter (fun l => ((s2.wg 0).handlerTrap l).isNone) ≠ [] :=
  ⟨⟨readyRet _ rfl, readyRet _ rfl⟩, by decide, by decide, by decide, by decide, rfl, by decide, by decide, rfl, by decide, by decide, by decide, by decide,
   ready2 _ rfl, by decide⟩

/-- v1 is 16 in lane 0, 575 in lane 1. -/
def sExc : State := at' 3 (fun w => (w.updLane 0 fun x => { x with v := [(1, 16)] }).updLane 1 fun x => { x with v := [(1, 575)] }) id
theorem witness_ExceptionStateRead :
    Ready sExc 0 (gang 3) (run 3) (.excrd (.v 9) (.v 1)) [] ∧ execLanes (gang 3) (run 3) = [0, 1] ∧
    operand sExc 0 (gang 3) (run 3) [] [.int .u32 (.v 1)] 0 0 = 16 ∧ operand sExc 0 (gang 3) (run 3) [] [.int .u32 (.v 1)] 1 0 = 575 :=
  ⟨ready_of (by decide) (by decide) rfl, by decide, by decide, by decide⟩

/-! ### Witnesses of the statements about crews, gates, translations and segments -/

/-- v1 is a tag; v2 is 2, the count that lanes 0 and 1 fill, v3 3, which they do not, v4 513; lanes 0 and 1 execute, or lane 0 alone. -/
def sJoin (x : BitVec 32) : State := at' x (fun w =>
  let f : Lane → Lane := fun y => { y with v := [(1, 9), (2, 2), (3, 3), (4, 513), (5, 1)] }
  (w.updLane 0 f).updLane 1 f) id
theorem witness_CrewsForm :
    (∀ i, popless i = true → Ready (sJoin 3) 0 (gang 3) (run 3) i [] ∧ Ready (sJoin 1) 0 (gang 1) (run 1) i []) ∧
    execLanes (gang 3) (run 3) = [0, 1] ∧ execLanes (gang 1) (run 1) = [0] ∧ (run 3).next % 4096 ≠ 0 ∧
    (∀ x, x = 1 ∨ x = 3 → ((sJoin x).wg 0).traps = [] ∧ (∀ l ∈ [0, 1], ((sJoin x).wg 0).gateOf l = none ∧ (((sJoin x).wg 0).lane l).live = true) ∧
      ((sJoin x).wg 0).formingFor 9 = none ∧ ((sJoin x).wg 0).freeCrew = some 1 ∧ 2 ∈ ((sJoin x).wg 0).liveLanes ∧
      (∀ p ∈ ((sJoin x).wg 0).lanes, p.2.joining = none)) ∧ (default : Lane).joining = none ∧
    (let y := fun n l k => operand (sJoin 3) 0 (gang 3) (run 3) [] [.int .u32 (.v 1), .int .u32 (.v n)] l k
     (∀ l ∈ [0, 1], BitVec.ofNat 32 (y 2 l 0) = 9 ∧ y 2 l 1 = 2) ∧ (∀ l ∈ [0, 1], BitVec.ofNat 32 (y 3 l 0) = 9 ∧ y 3 l 1 = 3) ∧
     (∀ l ∈ [0, 1], 512 < y 4 l 1) ∧ (∀ l ∈ [0, 1], y 0 l 1 < 1)) ∧
    BitVec.ofNat 32 (operand (sJoin 1) 0 (gang 1) (run 1) [] [.int .u32 (.v 1), .int .u32 (.v 5)] 0 0) = 9 ∧
    operand (sJoin 1) 0 (gang 1) (run 1) [] [.int .u32 (.v 1), .int .u32 (.v 5)] 0 1 = 1 :=
  ⟨fun _ h => ⟨ready_of (by decide) (by decide) h, ready_of (by decide) (by decide) h⟩, by decide, by decide, by decide,
   fun x h => by obtain rfl | rfl := h <;> decide, rfl, by decide, by decide, by decide⟩

/-- RGWIN and YHOLD are not zero. -/
def sGang : State := at' 3 (fun w => { w with rgwin := 1, yhold := 255 }) id
theorem readyGang (i : Instr) (h : popless i = true) : Ready sGang 0 (gang 3) (run 3) i [] := ready_of (by decide) (by decide) h
theorem witness_LanesLeaveAndGangsMove :
    (∀ i, popless i = true → Ready sGang 0 (gang 3) (run 3) i [] ∧ Ready s2 0 (gang 3) (run 3) i []) ∧ (run 3).next % 4096 ≠ 0 ∧
    (sGang.wg 0).traps = [] ∧ Crewed sGang 0 (gang 3) (run 3) ∧ (∀ l ∈ execLanes (gang 3) (run 3), (sGang.wg 0).gateOf l = none) ∧ (gang 3).mask ≠ 0 ∧
    (∀ p ∈ (sGang.wg 0).lanes, p.2.joining = none) ∧ ((sGang.wg 0).rgwin ≠ 0 ∧ ((sGang.wg 0).windows.filter fun x => x.hset == 0).length < 8) ∧
    (s2.wg 0).rgwin = 0 ∧ (s2.wg 0).yhold = 0 ∧ (sGang.wg 0).yhold ≠ 0 ∧ ¬ Crewed sCrewless 0 (gang 3) (run 3) ∧ popless .leave = true :=
  ⟨fun i h => ⟨readyGang i h, ready2 i h⟩, by decide, rfl, by unfold Crewed; decide, by decide, by decide, by decide, by decide, by decide, by decide,
   by decide, by unfold Crewed; decide, rfl⟩

/-- A lane without a crew, executing LEAVE. -/
theorem witness_LanesLeaveAndGangsMove_crewless : Ready sCrewless 0 (gang 3) (run 3) .leave [] := by
  refine ⟨⟨⟨rfl, by decide, rfl, rfl, rfl⟩, ?_, rfl, ⟨fun h => absurd h (by decide), fun h => absurd h (by decide)⟩, ?_, by simp [Env.popsOf, Instr.reads, popQueues], .inr (by decide)⟩,
    by decide⟩
  · intro l hl c hc
    have : ∀ l ∈ issueLanes (gang 3) (run 3), ((sCrewless.wg 0).lane l).crew = some 0 ∨ ((sCrewless.wg 0).lane l).crew = none := by decide
    obtain h | h := this l hl <;> rw [h] at hc <;> cases hc
    decide
  · intro l hl e he
    have : ∀ l ∈ execLanes (gang 3) (run 3), (sCrewless.wg 0).gateOf l = none := by decide
    rw [this l hl] at he
    cases he

/-- All four lanes of the crew execute; gate 0, of MATRIX = 1, leads to domain 0 at 32 with v0 as its argument; the crew is at a depth of calls. -/
def sGate (d : Nat) : State := atMem 15 false [(0x18, 2 ^ 52 + 0x4000), (0x4000, 0xD000 + 2 ^ 41), (0x4008, 1)] (fun w =>
  { (w.updCrew 0 fun c => { c with depth := d }) with gdepth := 4 }) fun s =>
  s.updCore 0 fun c => { c with istore := c.istore.set 0 (fetchSlot (List.replicate 7 0xF2800000 ++ [0xFDF80000])) }

theorem witness_GatesCallAndReturn :
    let s := sGate 0
    let e := opEnv s 0 (gang 15) (run 15) []
    let ent := (taken s).gateEntry (((taken s).descUse 0 0).getD []) 0
    (Ready s 0 (gang 15) (run 15) (.gcall 0) [] ∧ Ready s 0 (gang 15) (run 15) (.gcallReg (.v 7)) [] ∧ Ready s 0 (gang 15) (run 15) .gret []) ∧
    (match e.gateCrew with | .ok (some 0) => true | _ => false) = true ∧
    (∃ gs, e.gather 0 = some gs ∧ (gs.map (·.id) = [0] ∧ gatherMask gs = false ∧ (gs.all fun x => x.run.next % 4096 != 0) = true ∧ e.gateIndex 0 gs (some (.v 7)) 0 = 0 ∧
      (match gatherHead gs with | some h => h.id == 0 | none => false) = true)) ∧
    (s.wg 0).nextGang = 1 ∧ ((s.wg 0).members 0) = [0, 1, 2, 3] ∧ ((s.wg 0).members 0).Nodup ∧ gMatrix ent = true ∧
    ((s.wg 0).crew 0).depth = 0 ∧
    ∃ b, Walked e (fun y _ => y.gateReads 0 0 0) b ∧ ((b.wg 0).members 0 == [0, 1, 2, 3] && ({ e with s := b } : Env).holders == [] &&
      ({ e with s := b } : Env).gcallCheck 0 0 == none && gMatrix (b.gateEntry ((b.descUse 0 0).getD []) 0) &&
      okB (({ e with s := b } : Env).gateDrain 0 true) fun s1 => (s1.wg 0).members 0 == [0, 1, 2, 3] && (s1.wg 0).nextGang == 1) = true :=
  ⟨⟨ready_gated rfl rfl rfl (by decide) (by decide) rfl rfl rfl, ready_of (by decide) (by decide) rfl, ready_of (by decide) (by decide) rfl⟩, by decide,
   ⟨_, rfl, by decide +kernel⟩, by decide, by decide, by decide, by decide +kernel, rfl, walkedB_elim (by decide +kernel)⟩

theorem witness_GatesCallAndReturn_gret :
    let s := sGate 1
    let e := opEnv s 0 (gang 15) (run 15) []
    Ready s 0 (gang 15) (run 15) .gret [] ∧ ((s.wg 0).crew 0).depth ≠ 0 ∧
    (match e.gateCrew with | .ok (some 0) => true | _ => false) = true ∧ (e.gather 0).isSome = true ∧ (e.gather 0).all (fun gs => !gatherMask gs) = true ∧
    ∃ s1, e.gateDrain 0 true = .ok s1 ∧ ((s1.wg 0).members 0 == [0, 1, 2, 3] && ((s1.wg 0).trapsOf 0).isEmpty) = true :=
  ⟨ready_gated rfl rfl rfl (by decide) (by decide) rfl rfl rfl, by decide, by decide, by decide, by decide, okB_elim (by decide)⟩

/-- A super domain whose core holds its descriptor. -/
def sShoot : State := atMem 1 true [] id fun s => s.updCore 0 fun c => { c with descs := [⟨0, s.descMem 0⟩] }
theorem witness_TranslationsInvalidatedAndProbed :
    let sd := fun (s : State) fn => ({ id := s.nextShoot, fn := fn, domain := 0, va := 0, waits := [] } : Shootdown)
    let at_ := fun (s : State) => opEnv s 0 (gang 1) (run 1) []
    let drain := fun (s b : State) => ({ at_ s with s := b } : Env).settled .release .device false .fence
    let super := fun (b : State) => match b.descUse 0 0 with | some x => descSuper x | none => false
    let asked := fun (x : State) (_ : Nat) => x.descReads 0 0
    Ready sMem 0 (gang 1) (run 1) .xlinvAll [] ∧ InCrew sMem 0 (gang 1) (run 1) 0 ∧ (run 1).pend = .none ∧
    (∃ b, Walked (at_ sMem) asked b ∧ (!super b) = true) ∧ Ready sMem 0 (gang 1) (run 1) (.xlinvPage 2 none) [] ∧
    (∃ b, Walked (at_ sMem) (fun _ _ => []) b ∧ (okB (drain sMem b) fun s1 =>
      (s1.shootCores (sd s1 0)).isEmpty && (s1.wg 0).gang? 0 == some (gang 1)) = true) ∧
    Ready sShoot 0 (gang 1) (run 1) .xlinvAll [] ∧ InCrew sShoot 0 (gang 1) (run 1) 0 ∧
    (∃ b, Walked (at_ sShoot) asked b ∧ (super b && okB (drain sShoot b) fun s1 =>
      s1.shootCores (sd s1 3) == [0] && (s1.wg 0).gang? 0 == some (gang 1)) = true) ∧
    Ready sMem 0 (gang 1) (run 1) (.xlprobe 20 2 none) [] ∧ Crewed sMem 0 (gang 1) (run 1) ∧ Ready sMem 0 (gang 1) (run 1) (.xlprobe 20 2 (some (.v 1))) [] ∧
    (∃ b, Walked (at_ sMem) (fun x l => x.descReads 0 ((sMem.wg 0).domOf l)) b ∧ (!super b) = true) ∧
    (∃ b, Walked (at_ sMem) (fun _ _ => []) b ∧ (walkedB { at_ sMem with s := b } (fun x l =>
      x.walkReads 0 ((sMem.wg 0).domOf l) ((at_ sMem).opd l (.pair (.v 2)) 0 0).toNat (8 * l)) fun b1 => (b1.wg 0).gang? 0 == some (gang 1)) = true) ∧
    Ready s0 0 (gang 0) (run 0) .xlinvAll [] :=
  ⟨readyMem _ rfl, ⟨by decide, by decide⟩, rfl, walkedB_elim (by decide), readyMem _ rfl, walkedB_elim (by decide), ready_of (by decide) (by decide) rfl,
   ⟨by decide, by decide⟩, walkedB_elim (by decide +kernel), readyMem _ rfl, by unfold Crewed; decide, readyMem _ rfl, walkedB_elim (by decide),
   walkedB_elim (by decide +kernel), ready0 _ rfl⟩

/-- Macro 0 is an IADD of two placeholders, and macro 1 one whose placeholder stands where nothing fits. -/
def sMac : State := at' 3 (fun w => { w with macros := [(0, 1), (1, 2)] }) fun s => s.updCore 0 fun c => { c with macros :=
  [(0, ⟨0, 0, [0], [(0x08000000, 0o654)]⟩), (1, ⟨0, 1, [0], [(0xFDF80000, 0)]⟩)] }
theorem readyMac (i : Instr) (h : popless i = true) : Ready sMac 0 (gang 3) (run 3) i [] := ready_of (by decide) (by decide) h
theorem witness_MacrosSegmentsAndNodes_mcall :
    let ops := fun m => (taken sMac).macroOps (sMac.wg 0) m
    let sels := [Sel.v 190, .v 2, .v 3, .v 4]
    Ready sMac 0 (gang 3) (run 3) (.mcall 0 (.v 190) (.v 2) (.v 3) (.v 4)) [] ∧ execLanes (gang 3) (run 3) ≠ [] ∧ ops 2 = [] ∧ ops 0 ≠ [] ∧ ops 1 ≠ [] ∧
    macroCheck (sMac.wg 0).vregs sels (ops 0) 0 [] = none ∧ macroCheck (sMac.wg 0).vregs sels (ops 1) 0 [] ≠ none ∧
    Ready s0 0 (gang 0) (run 0) (.mcall 0 (.v 190) (.v 2) (.v 3) (.v 4)) [] ∧ (run 0).next % 4096 ≠ 0 :=
  ⟨readyMac _ rfl, by decide, by decide, by decide, by decide, by decide +kernel, by decide +kernel, ready0 _ rfl, by decide⟩

/-- Four segments; slot 0 holds the image's segment 0, and nothing is mapped to segment 3; v1 is 3; gate 0 leads to domain 0. -/
def sSeg (d : Nat) : State := atMem 1 false [(0x18, 2 ^ 52 + 0x4000), (0x4000, 0xD000)] (fun w =>
  { ((w.updLane 0 fun x => { x with v := [(1, 3)] }).updCrew 0 fun c => { c with depth := d }) with nseg := 4, codeVa := 0x8000 }) fun s =>
  s.updCore 0 fun c => { c with istore := c.istore.set 0 { fetchSlot (List.replicate 7 0xF2800000) with tagVa := 0x8000 } }
theorem witness_MacrosSegmentsAndNodes :
    let s := sSeg 0
    let e := opEnv s 0 (gang 1) (run 1) []
    let s0 := fun sg => (taken s).unmapSeg 0 sg
    (∀ i, popless i = true → Ready s 0 (gang 1) (run 1) i []) ∧ InCrew s 0 (gang 1) (run 1) 0 ∧ popless (.icfetch (.imm 3)) = true ∧
    ((s0 0).core 0).slotOf 0 (0x8000 + 4096 * 0) .landed = some 0 ∧ ((s0 3).core 0).slotOf 0 (0x8000 + 4096 * 3) .landed = none ∧
    ((s0 3).core 0).slotOf 0 (0x8000 + 4096 * 3) .fetching = none ∧ ((s0 3).core 0).freeSlot = some 1 ∧
    Safety.Room s 0 (gang 1) (run 1) .ic ∧ Safety.Room s 0 (gang 1) (run 1) .sp ∧ (∃ b, Walked e (e.walkAt 0 fun _ => [0x8000 + 4096 * 3]) b ∧ ((b.wg 0).gang? 0 == some (gang 1) && ((b.unmapSeg 0 3).core 0).freeSlot == some 1 &&
      okB (({ e with s := b } : Env).imageSource b 0 0 (0x8000 + 4096 * 3)) fun _ => true) = true) ∧
    (∃ b0, Walked e (fun y _ => y.gateReads 0 0 0) b0 ∧
     (let e0 : Env := { e with s := b0 }
      let dc := (b0.descUse 0 0).getD []
      let ent := b0.gateEntry dc 0
      let tables := fun y : State => y.calleeTables 0 (gDomain ent)
      decide (0 < gateCount dc) && gateEntryOk (s.wg 0) ent &&
      walkedB e0 (fun y l => e0.walkAt (gDomain ent) (fun _ => [0x8000 + 4096 * 3]) (tables y) l) fun b => (b.wg 0).gang? 0 == some (gang 1) &&
        okB (({ e with s := b } : Env).imageSource (tables b) 0 (gDomain ent) (0x8000 + 4096 * 3)) fun _ => true) = true) ∧
    segNum (.reg (.v 1)) e 0 % 64 = 3 ∧ (s.wg 0).nseg ≤ 4 ∧
    (taken s).spadAt 0 0 false 0 4096 = some (0, 0) ∧ (s.wg 0).slotOf 0 ≠ none ∧ ((s.wg 0).crew 0).depth = 0 ∧
    Ready (sSeg 1) 0 (gang 1) (run 1) (.icfetch (.imm 0)) [] ∧ (((sSeg 1).wg 0).crew 0).depth > 0 ∧ Ready Tests.s0 0 (gang 0) (run 0) (.icfetchDrop (.imm 0)) [] :=
  ⟨fun i h => ready_of (by decide) (by decide) h, ⟨by decide, by decide⟩, rfl, by decide, by decide, by decide, by decide, by unfold Safety.Room; decide,
   by unfold Safety.Room; decide, walkedB_elim (by decide +kernel), walkedB_elim (by decide +kernel), by decide, by decide, by decide, by decide, by decide,
   ready_gated rfl rfl rfl (by decide) (by decide) rfl rfl rfl, by decide, ready0 _ rfl⟩

/-- v2 is the address of a descriptor of zeros, v4 no address of one. -/
def sNode : State := atMem 1 false [] (fun w => w.updLane 0 fun x => { x with v := [(2, 0x8080), (4, 0x8040)] }) id
theorem witness_MacrosSegmentsAndNodes_nodepost :
    let e := opEnv sNode 0 (gang 1) (run 1) []
    Ready sNode 0 (gang 1) (run 1) (.nodepost (.v 9) 2) [] ∧ InCrew sNode 0 (gang 1) (run 1) 0 ∧ (e.opd 0 (.pair (.v 2)) 0 0).toNat = 0x8080 ∧
    (e.opd 0 (.pair (.v 4)) 0 0).toNat % 128 ≠ 0 ∧ ∃ s0, e.settled .release .device false .fence = .ok s0 ∧
      (walkedB { e with s := s0 } (({ e with s := s0 } : Env).walkAt 0 fun _ => (granules 0x8080 128).map (·.1)) fun s1 =>
       let x := s1.xlate 0 0 false false 6 [(0x8080, 128)]
       let spans := spansOf (x.filterMap (·.2.1))
       let ws := wordsLE (spans.flatMap fun p => match p.loc with | .phys q => s1.homeLoad q p.len | .win .. => [])
       (s1.wg 0).gang? 0 == some (gang 1) && worstGran (x.map (·.1)) == none && s1.heldIn spans == none &&
       !(spans.any fun p => (s1.mcOf p).isSome) && NodeDesc.domain ⟨ws⟩ == 0 &&
       !s1.acceptHeld 0 ws) = true :=
  ⟨ready_of (by decide) (by decide) rfl, ⟨by decide, by decide⟩, by decide, by decide, okB_elim (by decide +kernel)⟩

/-! ### Witnesses of the statements about Apprentices and the Sorter -/

/-- v1 is a start address, v2 none, v3 none within the segments. -/
def sAst (f : Workgroup → Workgroup) (h : State → State) : State := at' 3 (fun w => f (w.updLane 0 fun x => { x with v := [(1, 0x3FFFC), (2, 2), (3, 0x40000), (4, 9)] })) h
/-- The crew's Apprentice is unit 0. -/
def bound (w : Workgroup) : Workgroup := w.updCrew 0 fun c => { c with appr := some { unit := some 0, start := 0, w0 := 0, pops := [] } }
/-- All four Apprentices of the core are taken. -/
def busyAppr : Apprentice := { (default : Apprentice) with wg := 1, st := .running }
def taken4 (s : State) : State := s.updCore 0 fun c => { c with apprs := [(0, busyAppr), (1, busyAppr), (2, busyAppr), (3, busyAppr)] }

theorem witness_ApprenticesBound :
    let x := fun a k => operand (sAst id id) 0 (gang 3) (run 3) [] [.int .u32 a, .int .u32 (.v 4)] 0 k
    (∀ i, popless i = true → Ready (sAst id id) 0 (gang 3) (run 3) i [] ∧ Ready (sAst bound id) 0 (gang 3) (run 3) i [] ∧ Ready (sAst id taken4) 0 (gang 3) (run 3) i []) ∧
    popless (.astart (.v 9) (.v 1) (.v 4)) = true ∧ popless (.astartStop (.s 9)) = true ∧
    (InCrew (sAst id id) 0 (gang 3) (run 3) 0 ∧ InCrew (sAst bound id) 0 (gang 3) (run 3) 0 ∧ InCrew (sAst id taken4) 0 (gang 3) (run 3) 0) ∧
    (((sAst id id).wg 0).crew 0).appr = none ∧ (((sAst bound id).wg 0).crew 0).appr ≠ none ∧ (((sAst id taken4).wg 0).crew 0).appr = none ∧
    (x (.v 1) 0 < 2 ^ 18 ∧ x (.v 1) 0 % 4 = 0) ∧ x (.v 2) 0 % 4 ≠ 0 ∧ 2 ^ 18 ≤ x (.v 3) 0 ∧
    ((sAst id id).core 0).freeUnit = some 0 ∧ ((sAst id taken4).core 0).freeUnit = none ∧ Ready s0 0 (gang 0) (run 0) (.astartStop (.s 9)) [] :=
  ⟨fun i h => ⟨ready_of (by decide) (by decide) h, ready_of (by decide) (by decide) h, ready_of (by decide) (by decide) h⟩, rfl, rfl,
   ⟨⟨by decide, by decide⟩, ⟨by decide, by decide⟩, ⟨by decide, by decide⟩⟩, by decide, by decide, by decide, by decide, by decide, by decide, by decide,
   by decide, ready0 _ rfl⟩

/-- Unit 3 runs a clause whose execute mask is `x`; queue 0 is full and queue 1 holds one entry; w1 = 5, w2 = 0xFFFFFFFF. -/
def apprRun (x : BitVec 32) : ClauseRun := { run x with issue := 1 }
def appr (x : BitVec 32) : Apprentice := { (default : Apprentice) with
  st := .running, w := [(1, 5), (2, 0xFFFFFFFF)], clause := some (apprRun x), queues := [(0, List.replicate 16 default), (1, [default])] }
def sAppr (x : BitVec 32) : State := atMem 1 false [] bound fun s => { s.updCore 0 (fun c => { c with apprs := [(3, appr x)] }) with agenda := [.appr 0 3] }

theorem witness_ApprenticesPushAndLoad :
    let load := fun (x b : Sel) => ({ vec := false, recd := (taken (sAppr 1)).apprNum (appr 1) (apprRun 1) b % 256
                                      off := (taken (sAppr 1)).apprNum (appr 1) (apprRun 1) x } : ApprLoad)
    (∀ x, x = 0 ∨ x = 1 → ApprStands (sAppr x) 0 3 (appr x) (apprRun x)) ∧ (apprRun 0).exec = 0 ∧ (apprRun 1).exec ≠ 0 ∧ (apprRun 1).next % 4096 ≠ 0 ∧
    (∀ n, (appr 1).discard.get n = 0) ∧ ((appr 1).queues.get 1).length < 16 ∧ 16 ≤ ((appr 1).queues.get 0).length ∧ ((sAppr 1).wg (appr 1).wg).core = 0 ∧
    (let s := taken (sAppr 1)
     let ready := fun l : ApprLoad => s.crewReady 0 0 (s.specReads 0 0 l)
     s.specHeld 0 0 (load .zero (.v 1)) = false ∧ s.specHeld 0 0 (load .zero (.v 2)) = false ∧
     ((ready (load .zero (.v 1))).specLoad 0 0 (load .zero (.v 1))).isSome = true ∧
     ((ready (load .zero (.v 2))).specLoad 0 0 (load .zero (.v 2))).isNone = true) :=
  ⟨fun x h => by obtain rfl | rfl := h <;> exact ⟨rfl, rfl, rfl, rfl, rfl, rfl⟩, rfl, by decide, by decide, fun _ => rfl, by decide, by decide, by decide,
   by decide +kernel⟩

theorem witness_ApprenticesPushAndLoad_lanes : Ready s2 0 (gang 3) (run 3) (.apushVec 7 (.v 1) (.v 2)) [] ∧ execLanes (gang 3) (run 3) ≠ [] ∧
    Ready s0 0 (gang 0) (run 0) (.apush 0 (.v 1)) [] ∧ execLanes (gang 0) (run 0) = [] := ⟨ready2 _ rfl, by decide, ready0 _ rfl, by decide⟩

/-- Where a gang stands so, it is ready for an instruction whose entries are there. -/
theorem ready_pops {s : State} {x : BitVec 32} {i : Instr} {es : List ApprEntry} (h : quiet s x = true) (hx : within x = true)
    (hp : (envOf s 0 (gang x) (run x)).popsOf i = .ready es) : Ready s 0 (gang x) (run x) i es :=
  have h0 := ready_of (i := .nop) h hx rfl
  have h1 := h
  have hc := fun l hl => (crew_of h (mem_of hx (l := l) hl)).1
  ⟨⟨h0.toStands, h0.unchecked, h0.intact, ⟨fun _ l hl => by rw [hc l hl]; simp, fun _ l hl m hm => by rw [hc l hl, hc m hm]⟩, by
    simp only [quiet, Bool.and_eq_true, beq_iff_eq] at h1
    obtain ⟨⟨⟨-, h4⟩, -⟩, -⟩ := h1
    intro l hl e he
    simp [Workgroup.gateOf, hc l hl, h4] at he, hp, .inr (by simp [ClauseRun.next, run])⟩, h0.unlocked⟩

/-- Unit 0 runs for the crew, with two entries in queue 1. -/
def sPop : State := at' 3 bound fun s => s.updCore 0 fun c => { c with apprs := [(0, { (default : Apprentice) with
  st := .running, queues := [(1, [{ (default : ApprEntry) with data := [(0, 7)] }, { (default : ApprEntry) with data := [(0, 8)] }])] })] }
def popTwo : Instr := .iadd ⟨.u32, false, .v 3, .a 1, .a 1⟩
def popOther : Instr := .iadd ⟨.u32, false, .v 3, .a 2, .a 1⟩
theorem gates_pop : GateLets (sPop.wg 0) popOther (execLanes (gang 3) (run 3)) := by
  intro l hl e he
  have : ∀ l ∈ execLanes (gang 3) (run 3), (sPop.wg 0).gateOf l = none := by decide
  rw [this l hl] at he
  cases he
theorem witness_PopsTakeEntries :
    let es : List ApprEntry := [{ (default : ApprEntry) with data := [(0, 7)] }, { (default : ApprEntry) with data := [(0, 8)] }]
    computes popTwo = true ∧ Ready sPop 0 (gang 3) (run 3) popTwo es ∧ InCrew sPop 0 (gang 3) (run 3) 0 ∧ popQueues popTwo.reads = [1, 1] ∧
    (((sPop.wg 0).crew 0).appr = some { unit := some 0, start := 0, w0 := 0, pops := [] }) ∧
    computes popOther = true ∧ Stands sPop 0 (gang 3) (run 3) ∧ CrewsFit (sPop.wg 0) popOther (execLanes (gang 3) (run 3)) ∧
    GateLets (sPop.wg 0) popOther (execLanes (gang 3) (run 3)) ∧ popQueues popOther.reads = [2, 1] ∧
    (envOf sPop 0 (gang 3) (run 3)).otherReload 0 (some 2) = none ∧ ((sPop.core 0).apprs.get 0).queues.get 2 = [] ∧ ((sPop.core 0).apprs.get 0).st = .running ∧ sPop.damage = [] ∧
    Ready s0 0 (gang 0) (run 0) popTwo [] ∧ execLanes (gang 0) (run 0) = [] :=
  have h := ready_of (s := sPop) (x := 3) (i := .nop) (by decide) (by decide) rfl
  have hc : ∀ l ∈ execLanes (gang 3) (run 3), ((sPop.wg 0).lane l).crew = some 0 := by decide
  ⟨rfl, ready_pops (by decide) (by decide) rfl, ⟨by decide, by decide⟩, by decide, by decide, rfl, h.toStands,
   ⟨fun _ l hl => by rw [hc l hl]; simp, fun _ l hl m hm => by rw [hc l hl, hc m hm]⟩, gates_pop, by decide, by decide, by decide, by decide, by decide, ready_pops (by decide) (by decide) rfl, by decide⟩

/-- v4, v5 a pair that names record 5 with 2 columns, v6, v7 one of no column; v2 the row 0, v3 a result at 256 (v2 and v3 are 0 and 8 in lane 1 too);
queue 7 holds an entry of the crew. -/
def sVg : State := atMem 3 false [] (fun w =>
  let f : Lane → Lane := fun y => { y with v := [(3, 256), (4, 64), (5, 5 + 2 * 256)] }
  (w.updLane 0 f).updLane 1 f) fun s => s.updCore 0 fun c => { c with sorter := [(7, [{ (default : SorterEntry) with item := 4 }])] }
theorem readyVg (i : Instr) (h : popless i = true) : Ready sVg 0 (gang 3) (run 3) i [] := ready_of (by decide) (by decide) h
theorem witness_SorterPostsAndWaits :
    let e := opEnv sVg 0 (gang 3) (run 3) []
    let pair := (e.opd 0 (.pair (.v 4)) (popsIn [(.v 2, 1), (.v 3, 1)]) 8).toNat
    let row := fun l => (e.int32 l (.v 2) 0 0).toNat
    let res := fun l => (e.int32 l (.v 3) (popsIn [(.v 2, 1)]) 4).toNat
    Ready sVg 0 (gang 3) (run 3) (.vgmv 0 (.v 2) (.v 3) (.v 4)) [] ∧ InCrew sVg 0 (gang 3) (run 3) 0 ∧
    (bits pair 40 16 ≠ 0 ∧ bits pair 40 16 ≤ 65534 ∧ bits pair 56 8 = 0 ∧ bits pair 32 8 = 5 ∧ pair % 4 = 0) ∧
    (∃ b, Found e 0 5 (fun _ _ => []) b ∧ (okB (b.recGet (b.wg 0) 0 5 6) (fun x =>
        recCheck { z := 2, noSenc := true } (match b.descUse 0 0 with | some y => descSuper y | none => false) 0 5 (recBits x.1) == none &&
          decide (rKind (recBits x.1) ≤ 1)) &&
      (b.wg 0).core == 0 && b.spadAt 0 0 (bitAt pair 24) (pair % 2 ^ 24) (4 * bits pair 40 16) == some (0, 64) &&
      (execLanes (gang 3) (run 3)).all (fun l => row l % 2 == 0 && res l % 8 == 0 && (b.spadAt 0 l (bitAt (res l) 24) (res l % 2 ^ 24) 8).isSome) &&
      ((b.wg 0).crewsOf (execLanes (gang 3) (run 3))).all (fun c => decide (((b.wg 0).crew c).count .dm < 63)) &&
      decide ((b.sorterQ 0 0).length + (execLanes (gang 3) (run 3)).length ≤ 64)) = true) ∧
    Ready sVg 0 (gang 3) (run 3) (.vgmv 0 (.v 2) (.v 3) (.v 6)) [] ∧ (e.opd 0 (.pair (.v 6)) (popsIn [(.v 2, 1), (.v 3, 1)]) 8).toNat = 0 ∧
    Ready sVg 0 (gang 3) (run 3) (.vgrd 7 (.v 9)) [] ∧ Ready sVg 0 (gang 3) (run 3) (.vgwait (some 6)) [] ∧ Ready sVg 0 (gang 3) (run 3) (.vgwait none) [] ∧
    (run 3).pend = .none ∧ (sVg.sorterQ 0 6).filter (fun x => x.wg == 0 && x.crew == 0) = [] ∧
    (sVg.sorterQ 0 7).filter (fun x => x.wg == 0 && x.crew == 0) ≠ [] ∧ Ready s0 0 (gang 0) (run 0) (.vgwait none) [] :=
  ⟨readyVg _ rfl, ⟨by decide, by decide⟩, by decide, foundB_elim (by decide), readyVg _ rfl,
   by decide, readyVg _ rfl, readyVg _ rfl, readyVg _ rfl, rfl, by decide, by decide, ready0 _ rfl⟩

/-! ### Witnesses of the statements about events of gangs and crews -/

/-- Memory tables, the gang changed by `f`, and a clause of seven NOPs with header `h` in slot 0; no turn is pending. -/
def slotWith (h : Word) : ISlot := { fetchSlot [] with words := SMap.ofList (h :: List.replicate 7 0xF2800000) }
def atGang (h : Word) (f : Gang → Gang) (k : Workgroup → Workgroup) : State := atMem 15 false [] (fun w =>
  k { w with gangs := [f (gang 15)] }) fun s => { s.updCore 0 (fun c => { c with istore := c.istore.set 0 (slotWith h) }) with agenda := [] }

/-- Headers without waits, and with REGION, BW of barrier 2 and PNEG with P1 (spec/03 R47). -/
def hPlain : Word := 0xFDF80000
def hBusy : Word := 0xFDF80000 + 2 ^ 18 + 2 ^ 10 + 2 * 64 + 1 * 8 + 4
def isReady (h : Word) : Bool :=
  let s := atGang h (fun g => { g with clause := none }) fun w => { w with barriers := [(2, { (default : Barrier) with init := true, phase := 1 })] }
  let g := { gang 15 with clause := none }
  s.maySelect 0 g && g.pc == 0 && (match s.fetchClause (s.wg 0) g with
    | some (k, off, ws) => k == h.toNat && okB (clauseDecode (s.wg 0).vregs k off ws) (fun is => !crossLane is && is.length == 7) &&
        !s.codeBroken 0 (((s.wg 0).slotOf 0).getD 0) && (!hBw k || ((s.wg 0).calleeLanes g == [] && ((s.wg 0).barriers.get (hK k)).init))
    | none => false)
theorem witness_GangEventsHappen_issue : isReady hPlain = true ∧ isReady hBusy = true ∧ hBw hBusy.toNat = true ∧ hRegion hBusy.toNat = true ∧
    hBw hPlain.toNat = false ∧ hRegion hPlain.toNat = false := by decide +kernel

theorem witness_GangEventsHappen_unpark :
    let f := fun g : Gang => { g with park := some (.monitor 0), hold := 1 }
    let s := atGang hPlain f fun w => w.updCrew 0 fun c => { c with monitor := some ⟨0, true⟩ }
    (s.wg 0).gang? 0 = some (f (gang 15)) ∧ (f (gang 15)).hold = 1 ∧
    let s' := atGang hPlain (fun g => { f g with hold := 0 }) fun w => w.updCrew 0 fun c => { c with monitor := some ⟨0, true⟩ }
    s'.maySelect 0 { f (gang 15) with hold := 0 } = true ∧ (f (gang 15)).park = some (.monitor 0) := by decide +kernel

theorem witness_GangEventsHappen_lockHold :
    let s := atGang hPlain id fun w => w.updLane 3 fun x => { x with lock := some { owner := 0, off := 0, core := 0, bit := 0, phys := 0, issues := 16, atRun := run 15 } }
    (s.wg 0).gang? 0 = some (gang 15) ∧ (gang 15).clause = some (run 15) ∧ (gang 15).park = none ∧ (s.wg 0).gangHeld (gang 15) = false ∧
    (issueLanes (gang 15) (run 15)).filter (fun l => match ((s.wg 0).lane l).lock with | some k => decide (16 ≤ k.issues) | none => false) = [3] := by decide +kernel

/-- The gang waits at an instruction, for a lock bit or a race entry, since `n` steps. -/
def runAt (i : Instr) (p : Pend) : ClauseRun := { run 15 with pend := p, words := ((encode i).getD []).map (BitVec.ofNat 32) ++ List.replicate 5 0xF2800000 }
def sWait (i : Instr) (p : Park) (n : Nat) : State := atGang hPlain (fun g => { g with park := some p, clause := some (runAt i (.stall n false)) }) id
def retries (i : Instr) (p : Park) (n : Nat) (f : Pend → Pend) : Bool :=
  let s := sWait i p n
  let r := runAt i (.stall n false)
  let g := { gang 15 with park := some p, clause := some r }
  (s.wg 0).gang? 0 == some g && r.instr == some i && (accessExec i s).isSome && s.maySelect 0 g && s.ready 0 g &&
  gives (exec i { (s.updGang 0 0 fun x => { x with park := none, clause := some { r with pend := f r.pend } }) with agenda := .gang 0 0 :: s.agenda })
    fun s2 => ((s2.wg 0).gang? 0).all fun x => x.park != some p
theorem witness_GangEventsHappen_retry :
    retries (.ldlk .b32 .local 1 (.v 4) (.v 2) (.imm 0)) .lock 0 id = true ∧ retries (.lds ⟨.b32, .relaxed, .crew, .v 4, .v 2, .imm 0⟩) .race 5 (fun p => .stall p.stallOf.1 false) = true ∧
    retries (.lds ⟨.b32, .relaxed, .crew, .v 4, .v 2, .imm 0⟩) .race 257 (fun p => .stall p.stallOf.1 true) = true ∧ 256 < (Pend.stall 257 false).stallOf.1 := by decide +kernel

/-- A window that closes since all its lanes are there, one whose time is over, and gangs that gather for a clause with VOTE. -/
theorem witness_GangEventsHappen_gather :
    let x : Window := { hset := 0, pc := 28, left := 5 }
    let s := atGang hPlain (fun g => { g with regang := true, cross := true, pc := 32, clause := none }) fun w => { w with windows := [x, { x with pc := 64, left := 0 }] }
    (∀ y, y = x ∨ y = { x with pc := 64, left := 0 } → (s.wg 0).windows.find? (fun z => z.hset == y.hset && z.pc == y.pc) = some y) ∧
    (let gs := (s.wg 0).gangs.filter fun g => g.regang && g.hset == x.hset && g.pc == x.pc + 4
     gs ≠ [] ∧ ∀ l ∈ (s.wg 0).liveLanes, ∃ g ∈ gs, g.mask.getLsbD (posOf l) = true) ∧
    (x.pc + 4) % 4096 ≠ 0 ∧ (let gs := (s.wg 0).gangs.filter fun g => g.cross && g.hset == 0 && g.pc == 32
     gs ≠ [] ∧ ∀ l ∈ (s.wg 0).liveLanes, ∃ g ∈ gs, g.mask.getLsbD (posOf l) = true) :=
  ⟨fun y h => by obtain rfl | rfl := h <;> decide +kernel, by decide +kernel, by decide +kernel, by decide +kernel⟩

/-- A window at the last word of a segment. -/
theorem witness_GangEventsHappen_fall :
    let x : Window := { hset := 0, pc := 4092, left := 0 }
    let s := atGang hPlain (fun g => { g with regang := true, pc := 4096, clause := none }) fun w => { w with windows := [x] }
    (s.wg 0).windows.find? (fun z => z.hset == x.hset && z.pc == x.pc) = some x ∧ (x.pc + 4) % 4096 = 0 ∧
    (((s.wg 0).gangs.filter fun g => g.regang && g.hset == x.hset && g.pc == x.pc + 4).head?).isSome = true := by decide +kernel

theorem witness_GangEventsHappen_dissolve :
    let s := atGang hPlain id fun w => { w with crews := w.crews ++ [(63, { (default : Crew) with held := true })], barriers := [(1, { (default : Barrier) with bound := true, bcrew := 63 })] }
    ((s.wg 0).crew 63).held = true ∧ ((s.wg 0).crew 63).gone = false ∧ ((s.wg 0).crew 63).forming = none ∧ (s.wg 0).members 63 = [] ∧ ((s.wg 0).crew 63).drained = true ∧
    ((s.wg 0).barriers.get 1).bcrew.toNat = 63 := by decide +kernel

/-! ### Witnesses of the statements about items in flight and events of units -/

/-- One item in flight in crew 0. -/
def itemOf (op : FlightOp) : FlightItem := { (default : FlightItem) with id := 5, path := some .dm, lanes := [(1, 0)], op := op }
def sItem (op : FlightOp) : State := at' 3 (fun w => { (w.updCrew 0 fun c => { c with flight := [itemOf op] }) with nextItem := 6 }) id
def itemGo (op : FlightOp) : Bool := ((sItem op).wg 0).item? 0 5 == some (itemOf op) && ((sItem op).wg 0).life != .saved && (sItem op).mayPerform 0 (itemOf op) &&
  ((sItem op).wgs.all fun p => p.2.crews.all fun q => q.2.forced.isNone) && (itemOf op).stat == none && (sItem op).damage == []

/-- A load at the last byte of local memory, a store, an atomic, an arrival. -/
theorem witness_ItemsInFlightComplete :
    itemGo (.load .b8 (some (.v 9)) [⟨1, [⟨.phys 0xFFFFFFFFFF, 1⟩], false, [], [], {}⟩] []) = true ∧ aperture 0xFFFFFFFFFF = some 0 ∧
    itemGo (.store [⟨1, [(.phys 0x10000, [1, 2, 3, 4])]⟩]) = true ∧ itemGo (.atomic .add .b64 (some (.v 8)) [⟨1, .phys 0x10000, 1, 0⟩]) = true ∧
    itemGo (.arrive 0 31 4095 7 [0, 1]) = true ∧ (let s := sItem (.arrive 0 31 4095 7 [0, 1]); let i := itemOf (.arrive 0 31 4095 7 [0, 1]);
      ((s.sendHome (s.needsHome 0 i)).wg 0).life ≠ .absent) ∧ aperture 0x10000 = some 0 := by decide +kernel

/-- Quarter 0 has an operation, which has its operands; or has started. -/
def matOp (k : MatKind) (b : Bool) : MatOp := { (default : MatOp) with kind := k, slot := 15, started := b }
def sMatQ (k : MatKind) (b : Bool) : State := at' 3 (fun w => { w with mqueues := [(hqOf 0 0, [matOp k b, matOp .mmafin false])] }) id
theorem witness_UnitEventsHappen_matrix :
    (let qs := (sMatQ .mma false).pipeQueues 0 (quadOf 0) 0
     (∀ x ∈ qs, ∀ y ∈ x.2.2.2, y.started = false) ∧ qs.find? (fun x => x.2.2.2 != []) = some (0, 0, hqOf 0 0, [matOp .mma false, matOp .mmafin false])) ∧
    (matOp .mma false).aLeft = 0 ∧ (matOp .mma false).bLeft = 0 := by decide +kernel
theorem witness_UnitEventsHappen_complete (k : MatKind) :
    ((sMatQ k true).wg 0).mqueues.get (hqOf 0 0) = [matOp k true, matOp .mmafin false] ∧ (matOp k true).started = true ∧ (matOp k true).spoiled = false ∧
    NoneForced (sMatQ k true) 0 ∧ (sMatQ k true).damage = [] := ⟨rfl, rfl, rfl, noneForced (by cases k <;> decide +kernel) 0, rfl⟩

/-- A core that owes an answer, and holds what is to be dropped. -/
theorem witness_UnitEventsHappen_shootdown :
    let d : Shootdown := { id := 3, fn := 3, domain := 0, va := 0, waits := [0, 7] }
    let s := { sShoot with shootdowns := [{ d with id := 2, waits := [7] }, d] }
    s.shootdowns.find? (fun d => d.waits.contains 0 && s.mayAck 0 d) = some d ∧ (s.core 0).descs ≠ [] := by decide +kernel

/-- The Sorter serves queue 7, whose head is a row of zeros. -/
theorem witness_UnitEventsHappen_sorter :
    let x : SorterEntry := { item := 4, wg := 0, crew := 0, row := 0, result := .win 0 256, act := .win 0 64, recd := 5, wcol := 2, domain := 0 }
    let s := sVg.updCore 0 fun c => { c with sorter := [(7, [x])] }
    (s.core 0).nextSorter = some 7 ∧ s.sorterQ 0 7 = [x] ∧ (s.sortRow x).2.isSome = true ∧ x.result = .win 0 256 ∧ s.damage = [] ∧ ∀ u, NoneForced s u :=
  ⟨by decide +kernel, by decide +kernel, by decide +kernel, rfl, rfl, noneForced (by decide +kernel)⟩

/-- Unit 3 waits for an LD, and an entry of queue 1 for its load; unit 2 stands before the clause in slot 0. -/
def apprIdle : Apprentice := { (default : Apprentice) with st := .running }
def apprLoads : Apprentice := { (default : Apprentice) with
  st := .running, ld := some (9, ⟨false, 5, 0⟩), ldLanes := [⟨0, [⟨.phys 0x10000, 4⟩], true, [], [], {}⟩]
  queues := [(1, [default, { (default : ApprEntry) with pending := true, lanes := [⟨0, [⟨.phys 0x10004, 4⟩], true, [], [], {}⟩] }])] }
def sApprLoad : State := atMem 1 false [] bound fun s =>
  s.updCore 0 fun c => { c with istore := c.istore.set 0 (slotWith hPlain), apprs := [(2, apprIdle), (3, apprLoads)] }
theorem witness_UnitEventsHappen_apprentice :
    let s := sApprLoad
    s.apprLoads ((s.core 0).apprs.get 3) = [none, some (1, 1)] ∧ SMap.wf ((s.core 0).apprs.get 3).queues = true ∧
    (let a := (s.core 0).apprs.get 2
     a.st = .running ∧ a.ld = none ∧ a.clause = none ∧ (s.wg a.wg).slotOf (a.pc / 4096) = some 0 ∧ ((s.core 0).istore.get 0).st ≠ .fetching ∧ s.codeBroken 0 0 = false ∧
     (s.segWords (s.wg a.wg) ((s.wg a.wg).crew a.crew).domain (a.pc / 4096)).isSome = true) := by decide +kernel

/-- A line of the last stack with a live entry. -/
theorem witness_UnitEventsHappen_spill :
    let line := 0xFFFFFFFFFF / 64
    let e : RaceEntry := { wg := 0, lane := 1, core := 0, interval := 0, words := 1, write := true }
    let s := { s2 with stks := [(15, { (default : Stack) with race := { (default : RaceHome) with lines := [(line, [e])] } })] }
    aperture (64 * line) = some 0 ∧ stackOfLine line = 15 ∧ ((s.stks.get (stackOfLine line)).race.lines.get line).filter s.entryLive ≠ [] := by decide +kernel

/-! ### Witnesses of the statements about nodes, placement and pre-emption -/

/-- A node of 4 lanes, 8 v registers and `n` instances, by its descriptor (spec/16 R382): `w1` its second word, a private window of 16
bytes a lane at 0x10000 where `priv` says so, code at 0x8000, the record table at 0x30000, the save area at 0. -/
def node (id : Nat) (w1 : Word) (n : Nat) (priv ready bad : Bool) : Node := { (default : Node) with
  id := id, ready := ready, depBad := bad
  desc := ⟨[7, w1, BitVec.ofNat 32 (n + 4 * 2 ^ 24), 32, 0x8000, 0, 0, 0x30000, 0, 0, 0, if priv then 0x10000 else 0, 0, if priv then 16 else 0]⟩ }
def atNodes (ns : List Node) (ws : SMap Workgroup) : State :=
  { atMem 0 false [] id id with agenda := [], wgs := ws, pool := { (default : Pool) with opened := true, nodes := ns, nextNode := 9 } }

/-- A node that becomes ready, one with a window, a bank job, one that is cancelled. -/
theorem witness_PlacementEventsHappen_ready :
    let s := atNodes [node 1 0 1 false false true, node 2 0 1 true false false, node 3 1 1 false false false, node 4 0x400000 1 false false true] []
    (∀ n ∈ s.pool.nodes, s.node? n.id = some n ∧ n.ready = false ∧ n.deps = [] ∧
      n.desc.windows.all (fun w => !s.virtHeld n.desc.domain true w.1 w.2) = true) ∧
    (s.node? 1).all (fun n => n.desc.cancelf == false && n.desc.windows == [] && n.desc.kind == 0) = true ∧
    (s.node? 2).all (fun n => n.desc.windows == [(0x10000, 64)] && granules 0x10000 64 == [(0x10000, 64)] &&
      match s.walkMem n.desc.domain true 0x10000 with | .ok .. => true | .fail .. => false) = true ∧
    (s.node? 3).all (fun n => n.desc.kind == 1) = true ∧
    (s.node? 4).all (fun n => n.desc.cancelf && n.depBad && !s.virtHeld n.desc.domain true n.desc.compl 64 && (s.complAt n.desc.domain n.desc.compl).isSome &&
      !s.endBlocked n []) = true := by
  decide +kernel

/-- An instance of a node alone, and four of a node of clusters. -/
theorem witness_PlacementEventsHappen_place :
    let s := atNodes [node 1 0 2 false true false] []
    let c := atNodes [node 1 0x10000 4 false true false] []
    (∀ n, s.node? 1 = some n → n = node 1 0 2 false true false) ∧ s.waiting.contains ⟨0, 0, 1, 0, none⟩ = true ∧ s.mayPlace ⟨0, 0, 1, 0, none⟩ 4095 = true ∧
    s.placeHeld (node 1 0 2 false true false).desc = false ∧ (node 1 0 2 false true false).desc.cluster = false ∧ (∀ t, (s.wg t).life = .absent) ∧
    okB ((s.writeRecord0 (node 1 0 2 false true false).desc).virtSpans false 0 (node 1 0 2 false true false).desc.entryVa 4096) (fun _ => true) = true ∧
    okB ((s.writeRecord0 (node 1 0 2 false true false).desc).virtSpans false 0 (node 1 0 2 false true false).desc.mactab
      (512 * (node 1 0 2 false true false).desc.nmac)) (fun _ => true) = true ∧
    okB (s.virtSpans false 0 (node 1 0 2 false true false).desc.rectab 40) (fun l => l == [⟨.phys 0x30000, 40⟩]) = true ∧
    okB (s.virtSpans false 1 (node 1 0 2 false true false).desc.rectab 40) (fun _ => true) = false ∧
    (node 1 0x10000 4 false true false).desc.cluster = true ∧ c.waiting.contains ⟨0, 0, 1, 0, none⟩ = true ∧ c.mayPlace ⟨0, 0, 1, 0, none⟩ 4 = true ∧
    c.placeHeld (node 1 0x10000 4 false true false).desc = false :=
  ⟨fun n h => (Option.some.inj h).symm, by decide +kernel, by decide +kernel, by decide +kernel, by decide +kernel, fun _ => rfl, by decide +kernel, by decide +kernel,
   by decide +kernel, by decide +kernel,
   by decide +kernel, by decide +kernel, by decide +kernel, by decide +kernel⟩

theorem nonePassed_of {s : State} (h : (s.wgs.all fun p => p.2.crews.all fun c => c.2.flight.all fun i => i.past.isNone) = true) : NonePassed s := by
  intro p hp c hc i hi
  simpa using List.all_eq_true.1 (List.all_eq_true.1 (List.all_eq_true.1 h p hp) c hc) i hi

/-- A workgroup that is over, of a node with more instances to come, or with none. -/
theorem witness_PlacementEventsHappen_complete :
    let w : Workgroup := { (default : Workgroup) with life := .resident, node := 1, nlanes := 4 }
    let s := fun n => atNodes [node 1 0 n false true false] [(0, w)]
    w.isOver = true ∧ (∀ n, NonePassed (s n)) ∧ (∀ n, n = 1 ∨ n = 2 → (s n).stillNamed 0 = false ∧
      (s n).endBlocked (node 1 0 n false true false) ((s n).agents 0) = false) ∧ (∀ n, n = 1 ∨ n = 2 → (s n).node? ((s n).wg 0).node = some (node 1 0 n false true false) ∧ ((s n).wg 0).isOver = true ∧
      (s n).virtHeld (node 1 0 n false true false).desc.domain true (node 1 0 n false true false).desc.compl 64 = false) ∧
    (node 1 0 2 false true false).desc.ninst = 2 ∧ (node 1 0 1 false true false).desc.ninst ≤ 1 :=
  ⟨by decide +kernel, fun n => nonePassed_of (by rfl), fun n h => by obtain rfl | rfl := h <;> decide +kernel, fun n h => by obtain rfl | rfl := h <;> decide +kernel,
    by decide +kernel, by decide +kernel⟩

theorem witness_PlacementEventsHappen_landed :
    let x : ISlot := { (default : ISlot) with st := .fetching, count := 1, source := [⟨.phys 0x10000, 4096⟩] }
    let s := (atNodes [] [(0, { group 0 with starting := some 63 })]).updCore 0 fun c => { c with istore := [(63, x)] }
    (s.core 0).istore.get 63 = x ∧ x.source.any s.held = false ∧ aperture 0x10000 = some 0 ∧ 4 * 1023 + 4 ≤ 4096 ∧ (s.wg 0).starting = some 63 ∧ ∀ u, NoneForced s u :=
  ⟨by decide +kernel, by decide +kernel, by decide +kernel, by decide, by decide +kernel, noneForced (by decide +kernel)⟩

/-- Work of higher priority, for a cluster, that fits nowhere: islands 1 to 15 stand still, and on each cluster of island 0 a workgroup of lower
priority fills the registers of a quadrant. -/
def full (k : Nat) : Workgroup := { (default : Workgroup) with life := .resident, node := 1, core := 4 * k, homes := [0], nlanes := 4, vregs := 512 }
def sFull : State := { atNodes [{ node 1 0 64 false true false with nextInst := 64 }, node 2 0x10004 4 false true false] ((List.range 64).map fun k => (k, full k)) with
  islands := (List.range 15).map fun k => (k + 1, { (default : Island) with stopped := true }) }
theorem room_stopped (s : State) (c : Nat) (n : Need) (h : (s.islands.get (islandOf c)).stopped = true) : s.roomAt c n = none := by
  unfold State.roomAt
  simp only [h]
  split <;> simp
theorem full_nowhere : (List.range numCores).any (sFull.fitsAt ⟨1, 0, 2, 0, none⟩) = false := by
  have h0 : ∀ c, c < 256 → sFull.fitsAt ⟨1, 0, 2, 0, none⟩ c = false := by decide +kernel
  have h1 : ∀ k, k < 16 → 1 ≤ k → (sFull.islands.get k).stopped = true := by decide +kernel
  obtain ⟨n, h2⟩ : ∃ n, sFull.needsOf ⟨1, 0, 2, 0, none⟩ = (true, List.replicate 4 (some n)) := ⟨_, rfl⟩
  rw [List.any_eq_false]
  intro c hc
  rw [List.mem_range, numCores] at hc
  by_cases h : c < 256
  · rw [h0 c h]; decide
  · have := room_stopped sFull c n (h1 (islandOf c) (by unfold islandOf; omega) (by unfold islandOf; omega))
    simp [State.fitsAt, h2, coresFrom, List.replicate, this]
theorem witness_PlacementEventsHappen_preempt : (sFull.wg 0).life = .resident ∧ sFull.mayPreempt 0 = true := by
  refine ⟨rfl, ?_⟩
  unfold State.mayPreempt
  rw [show sFull.waiting = [⟨1, 0, 2, 0, none⟩] by decide +kernel]
  simp only [List.any_cons, List.any_nil, Bool.or_false, full_nowhere, Bool.not_false, Bool.true_and]
  decide +kernel

/-- A workgroup that has drained, and one that is saved. -/
theorem witness_PlacementEventsHappen_save :
    let s := atNodes [node 1 0 1 false true false] [(5, { group 0 with life := .stopping, node := 1, gangs := [], vregs := 8, spad := 0 })]
    let n := node 1 0 1 false true false
    (s.unitOf 5).all s.drainedOut = true ∧ (s.unitOf 5).any s.imageHeld = false ∧ (s.unitOf 5).Nodup ∧ s.unitOf 5 = [5] ∧
    s.node? (s.wg 5).node = some n ∧ n.desc.imageSize = (s.wg 5).imagePart 7 ∧
    okB (s.virtSpans true n.desc.domain (n.desc.save + (s.wg 5).inst * n.desc.imageSize) n.desc.imageSize)
      (fun l => decide (l.Pairwise fun x y => x.meets y = false)) = true := by decide +kernel
theorem witness_PlacementEventsHappen_restore :
    let n := { node 1 0 1 false true false with nextInst := 1 }
    let s := atNodes [n] [(5, { group 0 with life := .saved, node := 1 })]
    s.node? (s.wg 5).node = some n ∧ s.waiting.contains ⟨n.desc.prio, (s.wg 5).domain, (s.wg 5).node, (s.wg 5).inst, some 5⟩ = true ∧
    s.mayPlace ⟨n.desc.prio, (s.wg 5).domain, (s.wg 5).node, (s.wg 5).inst, some 5⟩ 77 = true ∧ s.placeHeld n.desc = false ∧ (s.wg 5).cluster = false ∧
    (∀ u, some u ∈ [some 5] → (s.wg u).windows = []) ∧ SMap.wf (s.wg 5).barriers = true := by
  refine ⟨by decide +kernel, by decide +kernel, by decide +kernel, by decide +kernel, by decide +kernel, fun u h => ?_, by decide +kernel⟩
  obtain rfl : u = 5 := by simpa using h
  decide +kernel

/-! ### Witnesses of the statements about queues and packets -/

/-- A queue's header at 0x10000: WRIDX, WM, class, instance, ENABLE, QSTATUS; its ring of 16 slots at 0x18000. -/
def hdrOf (wridx wm cls inst en st : Nat) : List (Nat × Nat) :=
  [(0x10000, wridx + wm * 2 ^ 32), (0x10008, 0x18000), (0x10010, 4 + cls * 2 ^ 8 + inst * 2 ^ 12 + en * 2 ^ 20 + st * 2 ^ 21)]

/-- The queue bound to its engine, with packets running. -/
def queOf (cls : Nat) (ps : List Packet) : Queue :=
  { (default : Queue) with hdr := 0x10000, cls := cls, ring := (0x18000, 4, 0), next := 1, running := ps }

/-- Packet 1 with its words, from word 1 on. -/
def pkt (ws : List Nat) : Packet := { (default : Packet) with seq := 1, slot := 0x18040, words := (1 :: ws).map (BitVec.ofNat 32) }

/-- The machine with a header, with bytes of the slot of packet 1, and with queues. -/
def sQue (hdr slot : List (Nat × Nat)) (qs : List Queue) : State := { atMem 0 false (hdr ++ slot) id id with queues := qs }

/-- A COPY of 64 bytes from 0x12000 to 0x13000. -/
def copyWords : List (Nat × Nat) := [(0x18040, 1 + 1 * 2 ^ 32), (0x18050, 0x12000), (0x18058, 0x13000), (0x18060, 64)]

/-- A walk of the tables that succeeds, on Normal memory. -/
def walkB (x : Walk) (p : Nat → Bool) : Bool := match x with | .ok pa ty _ _ _ _ _ => ty == 0 && p pa | .fail .. => false

theorem walkB_elim {x : Walk} {p : Nat → Bool} (h : walkB x p = true) : ∃ pa w su lv sz gl, x = .ok pa 0 w su lv sz gl ∧ p pa = true := by
  cases x with
  | ok pa ty w su lv sz gl =>
    simp only [walkB, Bool.and_eq_true, beq_iff_eq] at h
    exact ⟨pa, w, su, lv, sz, gl, by rw [h.1], h.2⟩
  | fail c l t => cases h

/-- A result of an engine that is there. -/
def engB {α : Type} (x : EngRes α) (p : α → State → Bool) : Bool := match x with | .ok a s => p a s | _ => false

theorem engB_elim {α : Type} {x : EngRes α} {p : α → State → Bool} (h : engB x p = true) : ∃ a s, x = .ok a s ∧ p a s = true := by
  cases x with
  | ok a s => exact ⟨a, s, rfl, h⟩
  | wait => cases h
  | stop c s => cases h

/-- A queue is bound, and refused. -/
theorem witness_QueueEventsHappen_enable :
    (∀ qs : List Queue, (qs = [] ∨ qs = List.replicate 256 { (default : Queue) with hdr := 64 }) →
      let s := sQue (hdrOf 0 0 0 0 1 0) [] qs
      let h := s.hdrBits 0x10000
      s.held ⟨.phys 0x10000, 64⟩ = false ∧ 0x10000 % 64 = 0 ∧ aperture 0x10000 ≠ none ∧ s.queue? 0x10000 = none ∧ qEnable h = true ∧ qStatus h ≠ 2 ∧
        engineExists (qClass h) (qInst h) = true ∧
        ((s.queues.filter fun q => q.cls == qClass h && q.inst == qInst h).length = if qs = [] then 0 else 256)) := by
  rintro qs (rfl | rfl)
  · decide +kernel
  · decide +kernel

theorem witness_QueueEventsHappen_disable :
    (let s := sQue (hdrOf 0 0 0 0 0 1) [] [queOf 0 []]
     s.held ⟨.phys 0x10000, 64⟩ = false ∧ qEnable (s.hdrBits 0x10000) = false ∧ s.queue? 0x10000 = some (queOf 0 [])) ∧
    (let s := sQue (hdrOf 0 0 0 0 0 2) [] []
     let h := s.hdrBits 0x10000
     s.held ⟨.phys 0x10000, 64⟩ = false ∧ qEnable h = false ∧ s.queue? 0x10000 = none ∧ qStatus h = 2 ∧ engineExists (qClass h) (qInst h) = true) := by
  decide +kernel

/-- The queue's next packet has been posted. -/
def qReady (s : State) (q : Queue) : Bool :=
  let h := s.hdrBits 0x10000
  s.held ⟨.phys 0x10000, 64⟩ == false && s.queue? 0x10000 == some q && !q.halted && qEnable h && seqGe (qWridx h) q.next &&
  !(q.running.any fun p => p.op == 7 && !p.finished)

/-- The slot of the next packet is read, and the packet that stands there, in the state in which it is seen. -/
def slotB (s : State) (q : Queue) (f : State → Packet → Bool) : Bool :=
  qReady s q && walkB (s.walkMem q.domain true (q.slotVa q.next)) fun pa =>
    !s.held ⟨.phys pa, 64⟩ && (s.mcOf ⟨.phys pa, 64⟩).isNone && s.rdNat pa 4 == q.next &&
    let e : Packet := { (default : Packet) with seq := q.next, slot := pa, die := if q.cls = 0 then some q.inst else none }
    engB (s.engSee e [⟨.phys pa, 64⟩]) fun _ s0 =>
      let p0 : Packet := { e with words := wordsLE (s0.rdBytes pa 64) }
      f s0 (s0.enterColl { p0 with needsWg := p0.usesWg })

/-- A ring that is not mapped; a packet of an opcode that no class serves; a COPY; a COLL; a CKPT of a record that is accepted, of 64 KiB and 1. -/
theorem witness_QueueEventsHappen_start :
    (let q := { queOf 0 [] with ring := (0x80000000, 4, 0) }
     let s := sQue (hdrOf 1 0 0 0 1 1) [] [q]
     qReady s q = true ∧ (match s.walkMem q.domain true (q.slotVa q.next) with | .fail .. => true | .ok .. => false) = true) ∧
    (let s := sQue (hdrOf 1 0 0 0 1 1) [(0x18040, 1 + 9 * 2 ^ 32)] [queOf 0 []]
     slotB s (queOf 0 []) (fun s p => s.startStatus 0 p == 4) = true) ∧
    (let s := sQue (hdrOf 1 0 0 0 1 1) copyWords [queOf 0 []]
     slotB s (queOf 0 []) (fun s p => s.startStatus 0 p == 0 && p.op == 1) = true) ∧
    (let s := sQue (hdrOf 1 0 1 0 1 1) [(0x18040, 1 + 4 * 2 ^ 32), (0x18050, 0x12000), (0x18058, 0x13000), (0x18060, 4)] [queOf 1 []]
     slotB s (queOf 1 []) (fun s p => s.startStatus 1 p == 0 && p.op == 4) = true) ∧
    (let s := sQue (hdrOf 1 0 3 0 1 1) [(0x18040, 1 + 5 * 2 ^ 32), (0x18048, 0x100 * 2 ^ 32), (0x18050, 0x14000), (0x18058, 0), (0x18060, 0x13000),
       (0x18068, 0x13100), (0x18070, 0x13200), (0x14000, 0x100000), (0x14008, 0), (0x14004, 0x08000000), (0x14010, 0x10001)] [queOf 3 []]
     slotB s (queOf 3 []) (fun s p => s.startStatus 3 p == 0 && p.op == 5 && engB (State.ckptBlocks p 0
       ((List.range (bits (p.word 3) 8 8)).map (bits (p.word 3) 0 8 + ·)) [] s) fun l _ => l.length == 2) = true) := by
  refine ⟨by decide +kernel, by decide +kernel, by decide +kernel, by decide +kernel, by decide +kernel⟩

/-- Packets that have finished: the next above WM, with a target; one out of order, without. -/
theorem witness_QueueEventsHappen_complete :
    (let p := { pkt [0x101, 2, 0, 0x12000, 0, 0x13000, 0, 64] with finished := true }
     let s := sQue (hdrOf 1 0 0 0 1 1) [] [queOf 0 [p]]
     s.held ⟨.phys 0x10000, 64⟩ = false ∧ s.queue? 0x10000 = some (queOf 0 [p]) ∧ (queOf 0 [p]).packet? p.seq = some p ∧
       s.behind p (fun _ => true) = false ∧
       s.held ⟨.phys p.slot, 64⟩ = false ∧ 0x10000 + 64 ≤ p.slot ∧ s.finalStatus p = 0 ∧ p.seq = (qWm (s.hdrBits 0x10000) + 1) % 2 ^ 32 ∧
       p.tgten = true ∧ p.tgtOk = true ∧ s.targetThere p = true ∧ p.stream = false ∧ p.mask = 0 ∧ p.op ≠ 7 ∧ p.status ≠ 3 ∧ p.tgtReg = 2) ∧
    (let p := { pkt [1, 0, 0, 0x12000, 0, 0x13000, 0, 64] with finished := true, status := 1, seq := 2 }
     let s := sQue (hdrOf 2 0 0 0 1 1) [] [queOf 0 [p]]
     s.held ⟨.phys 0x10000, 64⟩ = false ∧ s.queue? 0x10000 = some (queOf 0 [p]) ∧ (queOf 0 [p]).packet? p.seq = some p ∧
       s.behind p (fun _ => true) = false ∧
       s.held ⟨.phys p.slot, 64⟩ = false ∧ s.finalStatus p = 1 ∧ bits (s.hdrBits 0x10000) 224 40 = 0 ∧
       p.seq ≠ (qWm (s.hdrBits 0x10000) + 1) % 2 ^ 32 ∧ p.tgten = false) := by
  decide +kernel

/-- A LINK, and stream COPYs: to a crew that is gone, with more bytes than a slot holds, with a slot that is free. -/
def crewStream (free claimed : List Nat) (w : Workgroup) : Workgroup := w.updCrew 0 fun c => { c with held := true, streams := [(1,
  { (default : Stream) with ring := ⟨256, false, 4, 1, 0⟩, free := free, claimed := claimed })] }

/-- Such a COPY of n bytes, all read, to stream 1 of a crew. -/
def pktStream (crew n units : Nat) : Packet := { pkt [0x301, 0x11 + crew * 2 ^ 5, 0, 0x12000, 0, 0, 0, n] with units := units }

def sStreamQ (p : Packet) : State := { atMem 0 false (hdrOf 1 0 0 0 1 1) (fun w => crewStream (if p.claimed.isNone then [0] else []) p.claimed.toList { w with spad := 4096 }) id with queues := [queOf 0 [p]] }

/-- A COPY that has filled the slot it claimed. -/
theorem witness_QueueEventsHappen_commit :
    let p := { pktStream 0 64 2 with finished := true, claimed := some 0 }
    let s := sStreamQ p
    s.held ⟨.phys 0x10000, 64⟩ = false ∧ s.queue? 0x10000 = some (queOf 0 [p]) ∧ (queOf 0 [p]).packet? p.seq = some p ∧
       s.behind p (fun _ => true) = false ∧
      s.held ⟨.phys p.slot, 64⟩ = false ∧ 0x10000 + 64 ≤ p.slot ∧ p.tgten = true ∧ p.tgtOk = true ∧ s.targetThere p = true ∧ p.stream = true ∧
      p.op ≠ 7 ∧ p.status = 0 := by decide +kernel

theorem witness_QueueEventsHappen_link_claim :
    (let p := pkt [7, 0, 0, 0x19000, 0, 3]
     let s := sQue (hdrOf 1 0 0 0 1 1) [] [queOf 0 [p]]
     s.held ⟨.phys 0x10000, 64⟩ = false ∧ s.workOf 0x10000 1 7 = some (queOf 0 [p], p)) ∧
    (let p := pktStream 1 64 1
     let s := sStreamQ p
     s.held ⟨.phys 0x10000, 64⟩ = false ∧ s.workOf 0x10000 1 1 = some (queOf 0 [p], p) ∧ p.stream = true ∧ p.claimed = none ∧ p.word 8 ≤ 64 * p.units ∧
       s.targetThere p = false) ∧
    (let p := pktStream 0 65 2
     let s := sStreamQ p
     s.workOf 0x10000 1 1 = some (queOf 0 [p], p) ∧ p.stream = true ∧ p.claimed = none ∧ p.word 8 ≤ 64 * p.units ∧ s.targetThere p = true ∧
       64 * (s.stream p.tgtWg p.tgtCrew p.tgtReg).ring.slotsz < p.word 8) ∧
    (let p := pktStream 0 64 1
     let s := sStreamQ p
     s.workOf 0x10000 1 1 = some (queOf 0 [p], p) ∧ p.stream = true ∧ p.claimed = none ∧ p.word 8 ≤ 64 * p.units ∧ s.targetThere p = true ∧
       p.word 8 ≤ 64 * (s.stream p.tgtWg p.tgtCrew p.tgtReg).ring.slotsz ∧ s.behind p (fun y => y.claimed.isNone) = false ∧
       (s.stream p.tgtWg p.tgtCrew p.tgtReg).canClaim = [0]) := by
  decide +kernel

/-- A running packet with its queue, in a machine with more in memory and a window of 65536 bytes. -/
def sWork (cls : Nat) (p : Packet) (more : List (Nat × Nat)) (f : Workgroup → Workgroup) (h : State → State) : State :=
  h { atMem 0 false more (fun w => f { w with spad := 0x10000 }) id with queues := [queOf cls [p]] }

/-- An engine's write to device memory, and one to the window. -/
theorem witness_PacketsDoTheirWork_write :
    let s := sWork 0 (pkt [1]) [] id id
    let bs : List Byte := [1, 2, 3, 4]
    (addrForm 0x12000 = 0 ∧ addrKind 0x12000 = 0 ∧ granules (0x12000 + 0) bs.length = [(0x12000 + 0, bs.length)] ∧
      s.engSee (pkt [1]) (s.engLocs (pkt [1]) 0 0x12000 0 bs.length) = .ok () s ∧
      ∃ pa w su lv sz gl, s.walkMem 0 true (0x12000 + 0) = .ok pa 0 w su lv sz gl ∧
        (!s.held ⟨.phys pa, bs.length⟩ && (s.mcOf ⟨.phys pa, bs.length⟩).isNone && aperture pa == some 0) = true) ∧
    (let a := 2 ^ 62 + 256
     addrForm a = 0 ∧ addrKind a = 1 ∧ s.engSee (pkt [1]) (s.engLocs (pkt [1]) 0 a 0 bs.length) = .ok () s ∧
       s.mcOf ⟨.win 0 256, bs.length⟩ = none ∧ s.targetGone (pkt [1]) = false ∧ s.padAt (pkt [1]).tgtWg a (0 + bs.length) = some (0, 256)) :=
  ⟨⟨by decide, by decide, by decide, rfl, walkB_elim (by decide)⟩, by decide, by decide, rfl, rfl, by decide, by decide⟩

/-- COPY: the source is read; written to memory; to the slot that has been claimed. -/
theorem witness_PacketsDoTheirWork_copy :
    (let p := pkt [1, 0, 0, 0x12000, 0, 0x13000, 0, 65]
     let s := sWork 0 p [(0x12000, 0x1122334455667788)] id id
     s.workOf 0x10000 1 1 = some (queOf 0 [p], p) ∧ p.units < (p.word 8 + 63) / 64 ∧
       ∃ b s1, s.engRead p 0 (p.dbl 4) (64 * p.units) (min 64 (p.word 8 - 64 * p.units)) = .ok b s1 ∧ (b.length == 64) = true) ∧
    (let p := { pkt [1, 0, 0, 0x12000, 0, 0x13000, 0, 4] with units := 1, captured := [(0, 5), (1, 6), (2, 7), (3, 8)] }
     let s := sWork 0 p [] id id
     let bs := (List.range (min 64 (4 - 0))).map fun k => p.captured.get (0 + k)
     s.workOf 0x10000 1 1 = some (queOf 0 [p], p) ∧ (p.word 8 + 63) / 64 ≤ p.units ∧ p.stream = false ∧ p.mask = 0 ∧
       s.copyBlur p 0 (p.dbl 6) 0 bs = bs ∧
       ∃ u s2, ({ s with free := s.free + 64 } : State).engWrite p 0 (p.dbl 6) 0 bs = .ok u s2 ∧ (s2.rdBytes 0x13000 4 == [5, 6, 7, 8]) = true) ∧
    (let p := { pktStream 0 64 1 with claimed := some 0, captured := [(0, 5)] }
     let s := sStreamQ p
     s.workOf 0x10000 1 1 = some (queOf 0 [p], p) ∧ (p.word 8 + 63) / 64 ≤ p.units ∧ p.stream = true ∧ s.targetThere p = true ∧
       s.slotLoc p 0 0 64 = some (.win 0 256) ∧ s.engSee p [⟨.win 0 256, 64⟩] = .ok () s ∧ s.mcOf ⟨.win 0 256, 64⟩ = none) :=
  ⟨⟨by decide, by decide, engB_elim (by decide +kernel)⟩, ⟨by decide, by decide, by decide, by decide, by decide, engB_elim (by decide +kernel)⟩, by decide, by decide, by decide, by decide, by decide, rfl, by decide⟩

/-- GATHER of one row of 8 bytes: an index in range, with the table in memory; one beyond the table. -/
theorem witness_PacketsDoTheirWork_gather :
    (let p := pkt [2, 0, 8, 0x12000, 0, 0x14000, 0, 1, 4, 0x13000, 0]
     let s := sWork 0 p [(0x14000, 3), (0x12018, 77)] id id
     s.workOf 0x10000 1 2 = some (queOf 0 [p], p) ∧
       ∃ b s1, s.engRead p 0 (p.dbl 6) (4 * p.units) 4 = .ok b s1 ∧ (decide (natOfBytes b < p.word 9) &&
         engB (s1.engRead p 0 (p.dbl 4) (natOfBytes b * 8) 8) fun r s2 =>
           engB (s2.engWrite p 0 (p.dbl 10) (p.units * 8) r) fun _ s3 => s3.rdNat 0x13000 8 == 77) = true) ∧
    (let p := pkt [2, 0, 8, 0, 0x40000000, 0x14000, 0, 1, 3, 0x13000, 0]
     let s := sWork 0 p [(0x14000, 3)] id id
     s.workOf 0x10000 1 2 = some (queOf 0 [p], p) ∧ addrKind (p.dbl 4) = 1 ∧ ∃ u s0, s.gatherCheck (queOf 0 [p]) p 8 (List.range 1) = .ok u s0 ∧
       engB (s0.engRead p 0 (p.dbl 6) (4 * p.units) 4) (fun b s1 => decide (p.word 9 ≤ natOfBytes b) &&
         engB (s1.engWrite p 0 (p.dbl 10) (p.units * 8) (List.replicate 8 0)) fun _ _ => true) = true) :=
  ⟨⟨by decide, engB_elim (by decide +kernel)⟩, ⟨by decide, by decide, engB_elim (by decide +kernel)⟩⟩

/-! QUANT2: a window of zeros, and its four results, lie in the scratchpad. -/

theorem quantRows_cons (s : State) (q : Queue) (p : Packet) (pitch es i : Nat) (l : List Nat) (acc : List (List Byte)) :
    s.quantRows q p pitch es (i :: l) acc = (s.engRead p q.domain (p.dbl 4) (i * pitch) (128 * es)).andThen fun b s =>
      s.quantRows q p pitch es l (acc ++ [b]) := by rw [State.quantRows]

theorem quantRows_ok {s : State} {q : Queue} {p : Packet} {pitch es : Nat} {l : List Nat}
    (h : ∀ i ∈ l, ∃ b, s.engRead p q.domain (p.dbl 4) (i * pitch) (128 * es) = .ok b s) :
    ∀ acc, ∃ bs, s.quantRows q p pitch es l acc = .ok bs s ∧ bs.length = acc.length + l.length := by
  induction l with
  | nil => intro acc; exact ⟨acc, by rw [State.quantRows], by simp⟩
  | cons i rest ih =>
    intro acc
    obtain ⟨b, hb⟩ := h i (by simp)
    obtain ⟨bs, hbs, hl⟩ := ih (fun j hj => h j (by simp [hj])) (acc ++ [b])
    exact ⟨bs, by rw [quantRows_cons, hb]; exact hbs, by simp [hl]; omega⟩

theorem length_quantLine (mode : Rounding) (sat : Bool) (vs : List FVal) : (quantLine mode sat vs).qs.length = vs.length := by
  simp [quantLine]

theorem length_chunks {α : Type} (n : Nat) : ∀ (k : Nat) (l : List α), (chunks n k l).length = k
  | 0, _ => rfl
  | k + 1, l => by simp [chunks, length_chunks n k]

theorem length_flatMap_const {α β : Type} (f : α → List β) (n : Nat) : ∀ l : List α, (∀ x ∈ l, (f x).length = n) → (l.flatMap f).length = l.length * n
  | [], _ => by simp
  | x :: t, h => by
    rw [List.flatMap_cons, List.length_append, h x (by simp), length_flatMap_const f n t fun y hy => h y (by simp [hy]), List.length_cons, Nat.add_mul]
    omega

/-- A tile of 128 rows of 128 zeros, as FP16, from the window; its results go there too. -/
def pQuant : Packet := pkt [3, 0, 2 + 256 * 2 ^ 8, 0, 0x40000000, 0x8000, 0x40000000, 0xC000, 0x40000000, 0xD000, 0x40000000, 0x11000, 0x40000000]
def sQuant : State := sWork 0 pQuant [] (fun w => { w with spad := 0x20000 }) id

/-- That machine with other queues and another window. -/
def sWin (qs : List Queue) (m : Memory) : State := { sQuant with queues := qs, wgs := [(0, { sQuant.wg 0 with win := m })] }

/-- A write that lies in the window is made. -/
theorem quant_write (qs : List Queue) (m : Memory) {a d o : Nat} {bs : List Byte} (hf : addrForm a = 0) (hk : addrKind a = 1)
    (hp : (sWin qs m).padAt 0 a (d + bs.length) = some (0, o)) :
    (sWin qs m).engWrite pQuant 0 a d bs = .ok () (sWin qs (Memory.write m (o + d) bs)) := by
  have hs : ∀ xs, (sWin qs m).engSee pQuant xs = .ok () (sWin qs m) := fun _ => rfl
  have ht : pQuant.tgtWg = 0 := by decide
  have hg : (sWin qs m).targetGone pQuant = false := by unfold State.targetGone; rw [ht]; rfl
  have hm : ∀ n, (sWin qs m).engPad (.win 0 (o + d)) n = .ok () (sWin qs m) := fun _ => rfl
  simp only [State.engWrite, hs, EngRes.andThen, hf, hk, hg, ht, hp, hm]
  rfl

/-- Writes that lie in it are all made. -/
theorem quant_writes (qs : List Queue) : ∀ (l : List (Nat × Nat × List Byte)) (m : Memory),
    (∀ x ∈ l, addrForm x.1 = 0 ∧ addrKind x.1 = 1 ∧ ∀ m, ∃ o, (sWin qs m).padAt 0 x.1 (x.2.1 + x.2.2.length) = some (0, o)) →
    ∃ s2, State.engWrites pQuant 0 l (sWin qs m) = .ok () s2
  | [], m, _ => ⟨_, by rw [State.engWrites]⟩
  | x :: rest, m, h => by
    obtain ⟨hf, hk, hp⟩ := h x (by simp)
    obtain ⟨o, ho⟩ := hp m
    obtain ⟨s2, h2⟩ := quant_writes qs rest (Memory.write m (o + x.2.1) x.2.2) fun y hy => h y (by simp [hy])
    exact ⟨s2, by rw [State.engWrites, quant_write qs m hf hk ho]; exact h2⟩

theorem witness_PacketsDoTheirWork_quant2 : sQuant.workOf 0x10000 1 3 = some (queOf 0 [pQuant], pQuant) ∧
    ∃ rows s1 s2,
      let p := pQuant
      let w := p.word 3
      let es := quant2Size w
      let f := match bits w 0 2 with | 0 => fp32 | 1 => bf16 | _ => fp16
      sQuant.quantRows (queOf 0 [p]) p (bits w 8 24) es (List.range 128) [] = .ok rows s1 ∧
      let vals : List (List FVal) := rows.map fun r => (chunks es 128 r).map fun b => f.decode (natOfBytes b)
      let line := quantLine (roundOf (BitVec.ofNat 2 (bits w 2 2))) (bitAt w 4)
      let qr := vals.map line
      let qc := (columnsOf 128 vals).map line
      let tile := fun l : List (List Nat) => l.flatMap fun r => r.map (BitVec.ofNat 8)
      let scales := fun l : List QuantLine => l.flatMap fun x => bytesOfNat 4 x.scale
      (s1.updPacket 0x10000 1 fun x => { x with flags := (qr ++ qc).foldl (fun a x => a ||| x.flags) 0, satcnt := ((qr ++ qc).map (·.sat)).sum }).engWrites
        p 0 [(p.dbl 6, 0, tile (qr.map (·.qs))), (p.dbl 8, 0, scales qr), (p.dbl 10, 0, tile (columnsOf 128 (qc.map (·.qs)))),
          (p.dbl 12, 0, scales qc)] = .ok () s2 := by
  refine ⟨by decide, ?_⟩
  have hs : ∀ xs, sQuant.engSee pQuant xs = .ok () sQuant := fun _ => rfl
  have hr : ∀ i ∈ List.range 128, ∃ b, sQuant.engRead pQuant (queOf 0 [pQuant]).domain (pQuant.dbl 4) (i * bits (pQuant.word 3) 8 24)
      (128 * quant2Size (pQuant.word 3)) = .ok b sQuant := by
    intro i hi
    have hi := List.mem_range.1 hi
    have h1 : addrForm (pQuant.dbl 4) = 0 := by decide
    have h2 : addrKind (pQuant.dbl 4) = 1 := by decide
    have h3 : sQuant.targetGone pQuant = false := by decide
    have h4 : bits (pQuant.word 3) 8 24 = 256 := by decide
    have h5 : quant2Size (pQuant.word 3) = 2 := by decide
    have h6 : sQuant.padAt pQuant.tgtWg (pQuant.dbl 4) (i * 256 + 256) = some (0, 0) := by
      revert i
      decide +kernel
    have h7 : ∀ k n, sQuant.engPad (.win 0 k) n = .ok () sQuant := fun _ _ => rfl
    rw [h4, h5]
    exact ⟨_, by simp only [State.engRead, hs, EngRes.andThen, h1, h2, h3, h6, h7]; rfl⟩
  obtain ⟨rows, h1, hl⟩ := quantRows_ok hr []
  have hl : rows.length = 128 := by simpa using hl
  have h0 : ∀ f, ∃ qs, sQuant.updPacket 0x10000 1 f = sWin qs (sQuant.wg 0).win := fun f => ⟨(sQuant.updPacket 0x10000 1 f).queues, rfl⟩
  have ht : ∀ l : List (List Nat), l.length = 128 → (∀ r ∈ l, r.length = 128) → (l.flatMap fun r => r.map (BitVec.ofNat 8)).length = 16384 := by
    intro l h h'
    rw [length_flatMap_const _ 128 _ (by simpa using h'), h]
  have hsc : ∀ l : List QuantLine, l.length = 128 → (l.flatMap fun x => bytesOfNat 4 x.scale).length = 512 := by
    intro l h
    rw [length_flatMap_const _ 4 _ (by simp [bytesOfNat]), h]
  have hp : ∀ qs m, ∀ n ≤ 16384, (sWin qs m).padAt 0 (pQuant.dbl 6) (0 + n) = some (0, 0x8000) ∧ (sWin qs m).padAt 0 (pQuant.dbl 8) (0 + n) = some (0, 0xC000) ∧
      (sWin qs m).padAt 0 (pQuant.dbl 10) (0 + n) = some (0, 0xD000) ∧ (sWin qs m).padAt 0 (pQuant.dbl 12) (0 + n) = some (0, 0x11000) := by
    intro qs m n hn
    have e1 : ((sWin qs m).wg 0).spad = 0x20000 := rfl
    have e2 : ((sWin qs m).wg 0).cluster = false := rfl
    have e3 : ((sWin qs m).wg 0).core = 0 := rfl
    have e4 : ((sWin qs m).wg 0).life = .resident := rfl
    have b1 : bits (pQuant.dbl 6) 22 2 = 0 ∧ bits (pQuant.dbl 6) 0 22 = 0x8000 := by decide
    have b2 : bits (pQuant.dbl 8) 22 2 = 0 ∧ bits (pQuant.dbl 8) 0 22 = 0xC000 := by decide
    have b3 : bits (pQuant.dbl 10) 22 2 = 0 ∧ bits (pQuant.dbl 10) 0 22 = 0xD000 := by decide
    have b4 : bits (pQuant.dbl 12) 22 2 = 0 ∧ bits (pQuant.dbl 12) 0 22 = 0x11000 := by decide
    simp only [State.padAt, Workgroup.sibAt, e2, e3, b1, b2, b3, b4]
    simp [e1, e4]
    omega
  have h5 : ∀ f l, (∀ qs, ∀ x ∈ l, addrForm x.1 = 0 ∧ addrKind x.1 = 1 ∧ ∀ m, ∃ o, (sWin qs m).padAt 0 x.1 (x.2.1 + x.2.2.length) = some (0, o)) →
      ∃ s2, (sQuant.updPacket 0x10000 1 f).engWrites pQuant 0 l = .ok () s2 := by
    intro f l h
    obtain ⟨qs, h2⟩ := h0 f
    rw [h2]
    exact quant_writes qs l _ (h qs)
  refine ⟨rows, sQuant, (h5 _ _ ?_).imp fun s2 h3 => ⟨h1, h3⟩⟩
  · intro qs x hx
    simp only [List.mem_cons, List.not_mem_nil, or_false] at hx
    obtain rfl | rfl | rfl | rfl := hx
    · refine ⟨show addrForm (pQuant.dbl 6) = 0 by decide, show addrKind (pQuant.dbl 6) = 1 by decide, fun m => ⟨0x8000, ?_⟩⟩
      dsimp only
      rw [ht _ (by simp [hl]) (by simp [length_quantLine, length_chunks]), (hp _ _ _ (by omega)).1]
    · refine ⟨show addrForm (pQuant.dbl 8) = 0 by decide, show addrKind (pQuant.dbl 8) = 1 by decide, fun m => ⟨0xC000, ?_⟩⟩
      dsimp only
      rw [hsc _ (by simp [hl]), (hp _ _ _ (by omega)).2.1]
    · refine ⟨show addrForm (pQuant.dbl 10) = 0 by decide, show addrKind (pQuant.dbl 10) = 1 by decide, fun m => ⟨0xD000, ?_⟩⟩
      dsimp only
      rw [ht _ (by simp [columnsOf]) (by simp [columnsOf]), (hp _ _ _ (by omega)).2.2.1]
    · refine ⟨show addrForm (pQuant.dbl 12) = 0 by decide, show addrKind (pQuant.dbl 12) = 1 by decide, fun m => ⟨0x11000, ?_⟩⟩
      dsimp only
      rw [hsc _ (by simp [columnsOf]), (hp _ _ _ (by omega)).2.2.2]

/-! COLL, CKPT and ASSAY -/

/-- COLL of one FP32: operation, data type 4 (32-bit integers). This module at position 0 alone is a member. -/
def pColl (op : Nat) (member : Bool) : Packet :=
  { pkt [4, 0, op + 4 * 2 ^ 4, 0x12000, 0, 0x13000, 0, 1] with ring := if member then 1 :: List.replicate 63 0 else List.replicate 64 0 }

/-- This module and another, from which nothing comes. -/
def pColl2 : Packet := { pkt [4, 0, 4 * 2 ^ 4, 0x12000, 0, 0x13000, 0, 1] with ring := 1 :: 1 :: List.replicate 62 0 }

def sColl (p : Packet) : State := sWork 1 p [(0x12000, 7)] id fun s => { s with regs := { s.regs with ringpos := 0 } }

/-- What an operation writes of the contributions, with its flags. -/
def collData (op own : Nat) (p : Packet) (data : List (List Byte)) : List Byte × FFlags :=
  match op with
  | 0 => collReduce 4 4 1 data
  | 2 =>
    let sl := scatterSlice (p.word 8) p.actives.length ((p.actives.takeWhile (· != own)).length)
    collReduce 4 4 sl.2 (data.map fun c => (c.drop (4 * sl.1)).take (4 * sl.2))
  | _ => (data.flatMap id, 0)

/-- A member contributes, with a sum, a scatter, a gather and a broadcast. -/
theorem witness_PacketsDoTheirWork_coll (op : Nat) (h : op < 4) :
    let p := pColl op true
    let s := sColl p
    let own := s.regs.ringpos.toNat
    s.workOf 0x10000 1 4 = some (queOf 1 [p], p) ∧ own ∈ p.actives ∧ bits (p.word 3) 0 4 = op ∧
    ∃ cs s1, s.contributions (queOf 1 [p]) p [] (p.word 8 * collSize (p.word 3))
        (if op = 3 then p.contributors.filter (· == bits (p.word 3) 7 6) else p.contributors) [] = .ok cs s1 ∧
      (!cs.contains none && !cs.isEmpty && let r := collData op own p (cs.filterMap id)
       engB ((s1.updPacket 0x10000 1 fun x => { x with flags := r.2 }).engWrite p 0 (p.dbl 6) 0 r.1) fun _ s2 => s2.rdNat 0x13000 4 == 7) = true := by
  have : op = 0 ∨ op = 1 ∨ op = 2 ∨ op = 3 := by omega
  obtain rfl | rfl | rfl | rfl := this
  · exact ⟨by decide +kernel, by decide +kernel, by decide +kernel, engB_elim (by decide +kernel)⟩
  · exact ⟨by decide +kernel, by decide +kernel, by decide +kernel, engB_elim (by decide +kernel)⟩
  · exact ⟨by decide +kernel, by decide +kernel, by decide +kernel, engB_elim (by decide +kernel)⟩
  · exact ⟨by decide +kernel, by decide +kernel, by decide +kernel, engB_elim (by decide +kernel)⟩

/-- It is no member; a contribution is missing. -/
theorem witness_PacketsDoTheirWork_coll_fails :
    (let s := sColl (pColl 0 false)
     s.workOf 0x10000 1 4 = some (queOf 1 [pColl 0 false], pColl 0 false) ∧ s.regs.ringpos.toNat ∉ (pColl 0 false).actives) ∧
    (let p := pColl2
     let s := sColl p
     s.workOf 0x10000 1 4 = some (queOf 1 [p], p) ∧ s.regs.ringpos.toNat ∈ p.actives ∧
       ∃ cs s1, s.contributions (queOf 1 [p]) p [] (p.word 8 * collSize (p.word 3)) p.contributors [] = .ok cs s1 ∧
         (cs.contains none && let s0 := match collLost p p.contributors cs with | some e => s1.logMc 0xB3 (linkUnit e) 0 | none => s1
          (match ({ s0 with free := s0.free + p.collBytes 0 } : State).engAt 0 true (p.dbl 6) 4 with
           | .ok pa _ => pa == 0x13000 | _ => false)) = true) :=
  ⟨by decide +kernel, by decide +kernel, by decide +kernel, engB_elim (by decide +kernel)⟩

/-- CKPT of a record of no bytes: nothing is changed. -/
theorem witness_PacketsDoTheirWork_ckpt :
    let p := pkt [5, 0, 0x100, 0x14000, 0, 0, 0, 0x13000, 0, 0x13100, 0, 0x13200, 0, 9]
    let s := sWork 3 p [] id id
    s.workOf 0x10000 1 5 = some (queOf 3 [p], p) ∧ (∀ r ∈ s.ckptRows 0 p, r ∈ p.seen) ∧
    ∃ bs s1, s.ckptHash (queOf 3 [p]) p p.blocks.zipIdx [] = .ok bs s1 ∧
      (let ch := bs.filter fun b => b.2.2.2.2
       let m := manifest (p.word 14) bs.length (ch.map fun b => (b.1, b.2.1))
       !s1.padOutside p (p.dbl 8) (16 * bs.length) && !s1.padOutside p (p.dbl 12) (65536 * ch.length) && !s1.padOutside p (p.dbl 10) m.length &&
       engB (s1.engWrites p 0 ([(p.dbl 8, 0, bs.flatMap fun b => b.2.2.2.1)] ++ (ch.zipIdx.map fun x => (p.dbl 12, 65536 * x.2, x.1.2.2.1)) ++
         [(p.dbl 10, 0, m)])) fun _ s2 => s2.rdNat 0x13100 4 == 9) = true :=
  ⟨by decide, by decide, engB_elim (by decide +kernel)⟩

/-- ASSAY of two positions, both masked, with confidences 1 and 2; one is committed, and its tile marked in the map. -/
theorem witness_PacketsDoTheirWork_assay :
    let p := pkt [6, 0, 2, 0, 1, 1, 4 + 2 ^ 24, 1, 0, 0x12000, 0]
    let s := sWork 2 p [(0x12000, 0x13000), (0x12008, 0x13008), (0x12010, 0x13010), (0x12018, 0x13018), (0x12020, 0x13020), (0x12028, 0x13028),
      (0x12030, 0x13030), (0x12038, 0x13040), (0x13000, 0x3F800000 + 0x40000000 * 2 ^ 32), (0x13008, 5 + 6 * 2 ^ 32), (0x13018, 3), (0x13038, 2)] id id
    let dom := 0
    let npos := bits (p.word 3) 0 21
    let nb := (npos + 7) / 8
    let tiles := bits (p.word 7) 24 8 * ((npos + bits (p.word 8) 0 16 - 1) / bits (p.word 8) 0 16)
    s.workOf 0x10000 1 6 = some (queOf 2 [p], p) ∧
    ∃ tb s1, s.engRead p dom (p.dbl 10) 0 64 = .ok tb s1 ∧
      (let a := fun k => natOfBytes ((tb.drop (8 * k)).take 8)
       let uses : List AssayArray := [⟨0, a 0, 4 * npos, false⟩, ⟨1, a 1, 4 * npos, false⟩, ⟨2, a 2, 4 * npos, true⟩, ⟨3, a 3, nb, false⟩,
         ⟨4, a 4, nb, true⟩, ⟨5, a 5, (tiles + 7) / 8, true⟩, ⟨7, a 7, 16, true⟩] ++ (if bitAt (p.word 7) 2 then [⟨6, a 6, 8 * tiles, true⟩] else [])
       (uses.all fun x => addrForm x.addr == 0 && (addrKind x.addr != 1 || !s1.targetGone p) && !s1.padOutside p x.addr x.len) &&
       engB (s1.engRead p dom (a 0) 0 (4 * npos)) fun conf s2 => engB (s2.engRead p dom (a 1) 0 (4 * npos)) fun cand s3 =>
       engB (s3.engRead p dom (a 3) 0 nb) fun mb s4 =>
       let r := assayRound npos (bits (p.word 4) 0 16) (p.word 5) (p.word 6) (fun k => (mb.getD (k / 8) 0).getLsbD (k % 8))
         (fun k => fp32.decode (natOfBytes ((conf.drop (4 * k)).take 4)))
       engB ((s4.updPacket 0x10000 1 fun x => { x with flags := if r.nan = [] then 0 else flIV, nanscore := r.nan.length }).engWrites p dom (((sortNat r.commit).map fun k => (a 2, 4 * k, (cand.drop (4 * k)).take 4)) ++
         [(a 4, 0, bitBytes npos (r.masked.filter fun k => !r.commit.contains k)), (a 5, 0, bitBytes tiles (p.dirtyTiles r))])) fun _ s5 =>
       engB (State.assaySwap p dom (a 6) (if bitAt (p.word 7) 2 then p.dirtyTiles r else []) 0 (s5.assayBlur p dom uses)) fun cas s6 =>
       engB (s6.engWrite p dom (a 7) 0 (bytesOfNat 4 r.commit.length ++ bytesOfNat 4 r.masked.length ++ bytesOfNat 4 r.nan.length ++ bytesOfNat 4 cas))
         fun _ s7 => s7.rdNat 0x13014 4 == 6 && s7.rdNat 0x13038 8 == 5) = true :=
  ⟨by decide +kernel, engB_elim (by decide +kernel)⟩

/-! ### Witnesses of the statements about banks -/

/-- The machine with tables, more in memory, pseudo-channel 1 and nodes. -/
def atBank (more : List (Nat × Nat)) (p : Pch) (ns : List Node) : State :=
  { atMem 0 false more id id with pchs := [(1, p)], pool := { (default : Pool) with opened := true, nodes := ns, nextNode := 9 } }

/-- A one-shot sweep entry of rows 3 to 4 of bank 0, 64 bytes of each, by the library function that clears. -/
def entry3 : SweepEntry := { (default : SweepEntry) with
  img0 := BitVec.ofNat 32 (1 + 2 ^ 19), img1 := BitVec.ofNat 32 (3 + 4 * 65536), img2 := BitVec.ofNat 32 (64 * 1024), state := 1 }

theorem witness_BankEventsHappen_sweep :
    (∀ p : Pch, (p = { (default : Pch) with n := 3, table := [(2, { entry3 with img0 := entry3.img0 ||| 65536, ackn := 1 })] } ∨ p = default) →
      (atBank [] p []).pch 1 = p ∧ p.held = false ∧ p.postponed = 0 ∧ (atBank [] p []).rowsSeen 1 = some (atBank [] p []) ∧ (∀ i, i < 32 → (p.table.get i).colFirst + (p.table.get i).colLen ≤ 1024)) ∧
    (let p : Pch := { (default : Pch) with n := 3, table := [(2, { entry3 with img0 := entry3.img0 ||| 65536, ackn := 1 })] }
     2 < 32 ∧ (p.table.get 2).state = 1 ∧ (p.table.get 2).repeats = true ∧ (p.table.get 2).ackn ≠ p.n ∧ (p.table.get 2).covers 0 (p.n.toNat % 65536) = true) ∧
    (∀ i, i < 32 → ((default : Pch).table.get i).state ≠ 1) ∧
    (atBank [] { (default : Pch) with held := true } []).pch 1 = { (default : Pch) with held := true } ∧
    (atBank [] { (default : Pch) with postponed := 2 } []).pch 1 = { (default : Pch) with postponed := 2 } ∧
    (atBank [] { (default : Pch) with postponed := 2 } []).rowsSeen 1 = some (atBank [] { (default : Pch) with postponed := 2 } []) := by
  refine ⟨?_, by decide, by decide, by decide, by decide⟩
  rintro p (rfl | rfl)
  · decide
  · decide

/-- A forcing with two rows left, of which the first is next. -/
theorem witness_BankEventsHappen_forced :
    let p : Pch := { (default : Pch) with table := [(2, entry3)], forcings := [⟨0, 2, [3, 4]⟩] }
    (atBank [] p []).pch 1 = p ∧ p.held = false ∧ p.forcedNext = [(⟨0, 2, [3, 4]⟩, 3)] ∧ (atBank [] p []).rowsSeen 1 = some (atBank [] p []) := by decide

/-- ST of MODE.ALLBANK = 1 with the mask of bank 0, through the bank-direct record 7, which waited for the catch-up. -/
def stMode : Instr := .st .b64 .relaxed .crew (.off (.imm 7) (.v 1)) (.v 20) none
def rMode : ClauseRun := { run 1 with words := ((encode stMode).getD []).map (BitVec.ofNat 32) ++ List.replicate 5 0xF2800000 }
def gMode : Gang := { gang 1 with clause := some rMode, park := some (.bank 0) }
def sMode : State := atMem 1 false [] (fun w => { (w.updLane 0 fun x => { x with v := [(20, 0x10001)] }) with gangs := [gMode] }) id
theorem witness_BankEventsHappen_enter :
    (sMode.wg 0).gangs = [gMode] ∧ gMode.clause = some rMode ∧ rMode.instr = some stMode ∧
    (∃ l ∈ lanesOf gMode.hset gMode.mask, ((sMode.wg 0).lane l).crew = some 0) ∧ gMode.park = some (.bank 0) ∧ (sMode.wg 0).gangHeld gMode = false ∧
    sMode.quadBusy (sMode.wg 0).core (quadOf gMode.hset) (0, gMode.id) = false ∧ (sMode.pch 0).held = false ∧ (sMode.pch 0).postponed = 0 ∧ (0, 0) ≠ jobOwner ∧
    gives (exec stMode { (sMode.updGang 0 gMode.id fun y => { y with park := none, clause := some { rMode with pend := rMode.pend } }) with
      agenda := .gang 0 gMode.id :: sMode.agenda }) (fun s2 => (((s2.wg 0).gang? gMode.id).all fun y => y.park != some (.bank 0)) &&
        (s2.pch 0).ownedBy (0, 0) && (s2.pch 0).bankmask.toNat == 1) = true := by decide +kernel

/-- A bank job of `n` entries at 0x8000 for banks 0 and 1. -/
def jobNode (n : Nat) : Node := { (default : Node) with
  id := 3, ready := true, desc := ⟨[7, 1, 0, 0, 0x8000, 0, 0, 0, 0, 0, 0, 0, 0, 0, 0x9000, 0, 0, 0, 0, 0, 0, 0, 0, 0, 0, BitVec.ofNat 32 n, 3]⟩ }
def jobOf (k : Nat) : BankJob := { node := 3, next := k, entered := true }
theorem witness_BankEventsHappen_job :
    (let p : Pch := { (default : Pch) with jobs := [3] }
     (atBank [] p [jobNode 1]).pch 1 = p ∧ p.held = false ∧ p.postponed = 0 ∧ p.job = none ∧ (atBank [] p [jobNode 1]).node? 3 = some (jobNode 1) ∧
       (atBank [] p [jobNode 1]).rowsSeen 1 = some (atBank [] p [jobNode 1])) ∧
    (∀ k, k < 2 → let p : Pch := { (default : Pch) with held := true, job := some (jobOf k) }
      let s := atBank [] p [jobNode 1]
      s.pch 1 = p ∧ s.node? 3 = some (jobNode 1) ∧ s.jobMayEnd 1 (jobNode 1) = true ∧ s.jobAt (jobNode 1) (jobOf k) = if k = 0 then .bad 0x95 0 else .finished) ∧
    (let p : Pch := { (default : Pch) with held := true, job := some (jobOf 0) }
     let s := { atBank [] p [jobNode 1] with damage := [.dram 512] }
     s.jobMayEnd 1 (jobNode 1) = true ∧ (match s.jobAt (jobNode 1) (jobOf 0) with | .broken _ => true | _ => false) = true) ∧
    (let p : Pch := { (default : Pch) with held := true, owner := 5 }
     (atBank [] p []).pch 1 = p ∧ p.job = none) := by decide +kernel

/-- A node that posts a packet: to be claimed, to be published, and with its packet complete. -/
def packNode (po : Option (Nat × Nat × Option Nat)) : Node := { (default : Node) with id := 3, ready := true, posted := po, desc :=
  ⟨[7, 2, 0, 0, 0x8000, 0, 0, 0, 0, 0, 0, 0, 0, 0, 0x9000, 0, 0, 0, 0, 0, 0, 0, 0, 0, 0x10000, 0]⟩ }
theorem witness_BankEventsHappen_packet :
    (∀ po ∈ [none, some (0x10000, 1, none), some (0x10000, 1, some 0x18040)], let n := packNode po
      let s := atBank (hdrOf 0 (if po = some (0x10000, 1, some 0x18040) then 1 else 0) 0 0 1 1) default [n]
      s.node? 3 = some n ∧ n.ready = true ∧ n.desc.kind = 2 ∧ n.posted = po ∧ s.endBlocked n [] = false ∧ s.virtHeld n.desc.domain false n.desc.code 64 = false ∧
      s.virtHeld n.desc.domain true n.desc.queueVa 64 = false ∧ s.virtHeld n.desc.domain true n.desc.compl 64 = false ∧
      s.held ⟨.phys 0x10000, 64⟩ = false ∧ s.held ⟨.phys 0x18040, 64⟩ = false ∧ s.virtMc n.desc.domain n.desc.code 64 = none ∧ s.mcOf ⟨.phys 0x10000, 64⟩ = none ∧
      (s.mcOf ⟨.phys 0x18040, 64⟩) = none ∧ okB (s.rdVirt n.desc.domain n.desc.code 64) (fun _ => true) = true ∧
      n.desc.queueVa % 64 = 0 ∧ okB (s.poolLine n.desc.domain n.desc.queueVa) (fun pa => pa == 0x10000 && queueOk (s.hdrBits pa) n.desc.domain) = true ∧
      (let h := s.hdrBits 0x10000
       seqGe (qWm h) (slotFree h 1) = true ∧ s.virtHeld n.desc.domain true (slotVa h 1) 64 = false ∧
       okB (s.poolLine n.desc.domain (slotVa h 1)) (fun sp => sp == 0x18040) = true ∧ (po = some (0x10000, 1, some 0x18040) → seqGe (qWm h) 1 = true)) ∧
      s.complAt n.desc.domain n.desc.compl = some 0x9000) := by decide +kernel

/-! Entries of a bank job: with the banks' rows open, or not -/

/-- A job that stands at its first entry: the word of its offset, and its value. -/
def sCmd (off v : Nat) (p : Pch) : State := atBank [(0x8000, off), (0x8008, v)] { p with held := true, owner := 0x1FFFFF, ocrew := 0, bankmask := 3, job := some (jobOf 0) } [jobNode 1]

/-- Banks 0 and 1 have rows 2 and 5 open; slot 1 of the pass store is a pass that writes. -/
def pOpen : Pch := { (default : Pch) with rows := [(0, 3), (1, 6)], passStore := [(1, BitVec.ofNat 512 (5 + 255 * 2 ^ 64 + 9 * 2 ^ 128 + 255 * 2 ^ 192 + 2 ^ 260))] }

/-- The job stands at a command that passes the checks. -/
def cmdB (v : Nat) (p : Pch) (c : BankCmd) : Bool :=
  let s := sCmd 0x10 v p
  let q := s.pch 1
  q.job == some (jobOf 0) && s.node? 3 == some (jobNode 1) && q.ownedBy jobOwner && decide (s.jobAt (jobNode 1) (jobOf 0) = .entry 0x10 v) &&
  q.cmdCause v == none && decide (bankCmd v = some c) && q.banks == [0, 1]

theorem witness_BankCommandsRun :
    cmdB (65535 * 16) default (.act 65535) = true ∧ cmdB 1 pOpen .pre = true ∧
    cmdB (2 + 1 * 16 + 64 * 2 ^ 12 + 64 * 2 ^ 22) pOpen (.pass ⟨1, 0, 64, 64⟩) = true ∧ (passOfSlot (pOpen.passStore.get 1).toNat).isSome = true ∧
    (∀ b, pOpen.rows.get b ≤ 65536) ∧ wsizeBits 0 = 8 ∧ (0 : Nat) < 64 / (8 / 8) ∧
    cmdB (3 + 1 * 2 ^ 10 + 1024 * 2 ^ 22 + 2 * 2 ^ 33 + 1 * 2 ^ 35 + 2 ^ 37) pOpen (.kpass ⟨1, 0, 1024, 2, 1, true⟩) = true ∧
    cmdB (4 + 63 * 16 + 1 * 2 ^ 10 + 256 * 2 ^ 17) pOpen (.macr ⟨63, 1, 256, 0, false⟩) = true ∧
    (∀ b ∈ (sCmd 0x10 0 pOpen).pch 1 |>.banks, passOfRegs (((sCmd 0x10 0 pOpen).pch 1).passRegs.get b).toNat 2 1 true =
      { key := 0, cmask := 0, pat := 0, wmask := 0, tcond := 2, top := 1, wr := true }) := by
  refine ⟨by decide +kernel, by decide +kernel, by decide +kernel, by decide +kernel, ?_, by decide, by decide, by decide +kernel, by decide +kernel, by decide +kernel⟩
  intro b
  by_cases h0 : b = 0
  · subst h0; decide
  · by_cases h1 : b = 1
    · subst h1; decide
    · simp [SMap.get, pOpen, Ne.symm h0, Ne.symm h1]

/-- One bank, in which MACR's accumulators are computed; stores to the pass registers, the pass store and a vector register. -/
theorem witness_BankCommandsRun_stores :
    (let s := atBank [(0x8000, 0x10), (0x8008, 4 + 1 * 2 ^ 10 + 256 * 2 ^ 17)]
       { pOpen with held := true, owner := 0x1FFFFF, ocrew := 0, bankmask := 2, job := some (jobOf 0) } [jobNode 1]
     (s.pch 1).banks = [1] ∧ s.jobAt (jobNode 1) (jobOf 0) = .entry 0x10 (4 + 1 * 2 ^ 10 + 256 * 2 ^ 17) ∧ (s.pch 1).cmdCause (4 + 1 * 2 ^ 10 + 256 * 2 ^ 17) = none ∧
       bankCmd (4 + 1 * 2 ^ 10 + 256 * 2 ^ 17) = some (.macr ⟨0, 1, 256, 0, false⟩)) ∧
    ∀ off ∈ [0x200, 0x3F8, 0x1000, 0x1FF8, 0x2000, 0x3FF8], let s := sCmd off 77 default
      (s.pch 1).job = some (jobOf 0) ∧ s.node? 3 = some (jobNode 1) ∧ (s.pch 1).ownedBy jobOwner = true ∧ s.jobAt (jobNode 1) (jobOf 0) = .entry off (77 : Dword).toNat := by
  decide +kernel

/-! ### Witnesses of the statements about the host, the links and the module -/

/-- A store to the doorbell page that may be performed. -/
theorem witness_HostAndLinkEventsHappen_doorbell :
    let i := itemOf (.store [⟨1, [(.phys 0x20000001000, [1, 0, 0, 0])]⟩])
    let s := sItem i.op
    s.pmc.heldReset = false ∧ ((s.wg 0).crew 0).flight.find? (fun i => i.rings && s.mayPerform 0 i) = some i ∧ (s.wg 0).life = .resident ∧
    aperture 0x20000001000 = some 3 ∧ 0x20000001000 % 4096 = 0 ∧ i.stat = none := by decide +kernel

/-- An entry of the launch ring: with a descriptor that is accepted, and one that is not aligned. -/
def sRing (va : Nat) (opened : Bool) : State :=
  { atMem 0 false [(0x11000, va), (0x10000, 7), (0x10008, 1 + 4 * 2 ^ 24 + 32 * 2 ^ 32), (0x10010, 0x8000)] id id with
    regs := { (default : ModRegs) with lrbase := 0x11000, lrlog := 4 }, pool := { (default : Pool) with opened := opened, nextNode := 9 } }
theorem witness_HostAndLinkEventsHappen_launch :
    (sRing 0x10000 false).pmc.heldReset = false ∧ (sRing 0x10000 false).pool.opened = false ∧
    ∀ va ∈ [0x10000, 0x10040],
      let s := sRing va true
      let v : Dword := 1
      let s1 : State := { s with regs := { s.regs with lrtail := v } }
      let a := s.regs.lrbase + 16 * (s.regs.lrhead.toNat % 2 ^ s.regs.lrlog.toNat)
      let e := natOfBytes (s1.homeLoad a 16)
      s.pmc.heldReset = false ∧ v = s.regs.lrhead + 1 ∧ s.pool.opened = true ∧ s.held ⟨.phys a, 16⟩ = false ∧ bits e 0 56 = va ∧ bits e 68 12 = 0 ∧
        s1.virtHeld 0 false va 128 = false ∧ (if va = 0x10000 then va % 128 = 0 ∧ okB (s1.rdVirt 0 va 128) (fun b =>
          !s1.acceptHeld 0 (wordsLE b) && (s1.accept 0 (wordsLE b)).2 == 0 && (s1.accept 0 (wordsLE b)).1.pool.nodes.length == 1) = true else va % 128 ≠ 0) := by
  decide +kernel

/-- A module register of the table of membership; accesses from the host and from another module; lines. -/
theorem witness_HostAndLinkEventsHappen :
    let s := { s2 with hostLines := [7] }
    s.pmc.heldReset = false ∧ RegWriter.host ≠ .lane ∧ 0x408 ≠ 0 ∧ 0x408 ≠ 0x30 ∧ 0x408 % 8 = 0 ∧ 0x408 < 4096 ∧
    (∀ x ∈ [ExtAccess.write 0x3FC0 [1], .write 0x2000000000000 (List.replicate 64 9), .atomic .add true 0x4000000000038 1 0],
      aperture x.range.1 ∈ [some 0, some 5, some 6] ∧ x.isRead = false ∧ lineOf x.range.1 ∉ s.hostLines ∧ x.inLine = true ∧
        s.held ⟨.phys x.range.1, x.range.2⟩ = false) ∧
    (ExtAccess.read 0x1C0 8).isRead = true ∧ (ExtAccess.read 0x1C0 8).inLine = true ∧ aperture 0x1C0 = some 0 ∧ lineOf 0x1C0 ∈ s.hostLines ∧
    aperture (64 * 0x100000000000) = some 6 ∧ aperture (64 * 7) = some 0 ∧ 7 ∈ s.hostLines := by decide +kernel

/-- The module in use, with a workgroup on core 0; held in reset; with its boot failed; in each state of its life cycle. -/
theorem witness_ModuleEventsHappen :
    let s := s2
    s.pmc.heldReset = false ∧ ({ s with pmc := { s.pmc with heldReset := true } } : State).pmc.heldReset = true ∧
    ({ s with pmc := { s.pmc with recovery := true } } : State).pmc.recovery = true ∧
    (∀ p ∈ s.wgs, p.2.life.here = true → islandOf p.2.core ≠ 15) ∧ (s.stks.get 15).hot ≠ true ∧ (s.wg 0).life.here = true ∧ (s.wg 0).term = none ∧
    (∀ a b, (a, b) ∈ [(0, 1), (1, 2), (2, 1), (0, 3), (2, 3)] → ({ s with regs := { s.regs with lcstate := BitVec.ofNat 2 a } } : State).regs.lcstate.toNat = a) ∧
    (List.replicate 32 (0 : Byte)).length = 32 := by
  refine ⟨by decide, by decide, by decide, by decide, by decide, by decide, by decide, ?_, by decide⟩
  intro a b h
  simp at h
  obtain ⟨rfl, -⟩ | ⟨rfl, -⟩ | ⟨rfl, -⟩ | ⟨rfl, -⟩ | ⟨rfl, -⟩ := h <;> rfl

/-! ### Witnesses of the statements about decoding, steps and memory -/

/-- An instruction that an encoding holds, of two words; and words that decode. -/
theorem witness_DecodeEncodeAgree :
    (Instr.ldlk .b64 .cluster 1 (.v 4) (.v 2) (.imm 0)).wf = true ∧ (Instr.iadd ⟨.s32, false, .v 95, .s 7, .o 7⟩).wf = true ∧
    okB (decodeWords [0xF2800000]) (fun p => p.1 == .nop && p.2 == 1) = true := by decide

/-- A turn is chosen where any may be taken. -/
theorem pick_some {s : State} (h : s.turns ≠ []) : ∃ u, s.pick = some u := by
  have hl : ∀ l : List Turn, l ≠ [] → ∀ n, ∃ u, l[n % max 1 l.length]? = some u := by
    intro l hl n
    have h1 : 0 < l.length := List.length_pos_iff.2 hl
    have h2 : n % max 1 l.length < l.length := by
      rw [Nat.max_eq_right h1]; exact Nat.mod_lt _ h1
    exact ⟨_, List.getElem?_eq_getElem h2⟩
  simp only [State.pick]
  apply hl
  split
  · simp [h]
  · rename_i hne; exact fun hn => hne (by rw [hn])

/-- The call of a macro that stands at its IADD. -/
def rBody : ClauseRun := { run 3 with mac := some { ops := [(0x08000000, 0o654)], sels := [.v 190, .v 2, .v 3, .v 4], pos := 0, latches := [] } }
def sBody : State := at' 3 (fun w => { w with gangs := [{ gang 3 with clause := some rBody }] }) id
def sTurn (u : Turn) : State := { atMem 1 false [] bound fun s => s.updCore 0 fun c =>
  { c with apprs := [(0, { (default : Apprentice) with st := .running, clause := some (run 1) })] } with agenda := [u] }

/-- Nothing waits for the end of a cycle on the small machine. -/
theorem nothingDue_tick : NothingDue (sTurn (.tick 0)) := by
  intro p hp
  obtain ⟨k, w⟩ := p
  obtain ⟨rfl, rfl⟩ := Prod.mk.injEq .. ▸ List.mem_singleton.1 hp
  exact ⟨fun c => noneForced (s := sTurn (.tick 0)) (by decide) 0 c, fun x hx => nomatch hx⟩

theorem witness_StepRunsDecoded :
    (Stands s2 0 (gang 3) (run 3) ∧ okB (decodeWords (((run 3).words.drop (run 3).pos).map BitVec.toNat)) (fun p => p.1 == .nop && p.2 == 1) = true) ∧
    (sBody.agenda = .gang 0 0 :: sBody.agenda.tail ∧ (sBody.wg 0).gang? 0 = some { gang 3 with clause := some rBody } ∧
      rBody.mac = some { ops := [(0x08000000, 0o654)], sels := [.v 190, .v 2, .v 3, .v 4], pos := 0, latches := [] } ∧
      okB (macroOp 0x08000000 0o654 [.v 190, .v 2, .v 3, .v 4]) (fun _ => true) = true) ∧
    (let s := sTurn (.appr 0 0)
     s.agenda = .appr 0 0 :: s.agenda.tail ∧ ((s.core 0).apprs.get 0).clause = some (run 1) ∧ (run 1).mac = none) ∧
    (sTurn (.event (.doorbell 4095))).agenda = .event (.doorbell 4095) :: (sTurn (.event (.doorbell 4095))).agenda.tail ∧
    (sTurn (.tick 15)).agenda = .tick 15 :: (sTurn (.tick 15)).agenda.tail ∧
    (let s := sTurn (.tick 0)
     s.agenda = .tick 0 :: s.agenda.tail ∧ NothingDue s ∧ s.publishing = [] ∧ SMap.wf s.cores = true ∧ (s.wg 0).life.here = true ∧
       islandOf (s.wg 0).core = 0 ∧ SMap.wf (s.wg 0).barriers = true ∧ SMap.wf (s.wg 0).crews = true) ∧
    (State.reset.agenda = [] ∧ ∃ u, ({ State.reset with free := State.reset.free + 1 } : State).pick = some u) ∧
    okB (decodeWords [0x46104000 % 2 ^ 32, (0x46104000 + 0x05010203 * 2 ^ 32) / 2 ^ 32 % 2 ^ 32]) (fun p => p.2 == 2) = true :=
  ⟨⟨(ready2 .nop rfl).toStands, by decide⟩, by decide, by decide, by decide, by decide,
   ⟨rfl, nothingDue_tick, by decide, by decide, by decide, by decide, by decide, by decide⟩,
   ⟨rfl, pick_some (by rw [State.turns, if_neg (by decide)]; exact List.append_ne_nil_of_right_ne_nil _ (by decide))⟩, by decide⟩

/-- A step from a state whose memory is canonical answers a next state, and stores a byte. -/
theorem witness_StepKeepsMemory :
    let s := sTurn (.event (.hostAccess (.write 0x3FC0 [1])))
    Memory.wf s.mem = true ∧ gives (step s) (fun s' => s'.mem != s.mem) = true := by decide +kernel

/-! ### Single steps, with results that the spec works out -/

/-- Lanes 0 and 1 execute, with values in v1, v2, v3 of lane 0. -/
def sVals (a b c : Word) : State := at' 3 (fun w => w.updLane 0 fun x => { x with v := [(1, a), (2, b), (3, c)], p := 0xFF }) id

/-- Register `k` of lane 0 after an instruction. -/
def after (i : Instr) (s : State) (k : Nat) (v : Word) : Bool := gives (exec i s) fun s' => ((s'.wg 0).lane 0).v.get k == v

/-- spec/04, under R88: bfx.s32 v2, v1, 4, 8 of 0x0AB0. -/
theorem test_bfx_sign_extends :
    after (.bfx .s32 false (.v 2) (.v 1) (.imm (4 + 8 * 256))) (sVals 0xAB0 0 0) 2 0xFFFFFFAB = true := by decide +kernel

/-- R84: 0xFFFF_FFFF + 1 is 0, with CF. -/
theorem test_iadd_wraps : gives (exec (.iadd ⟨.s32, false, .v 4, .v 1, .v 2⟩) (sVals 0xFFFFFFFF 1 0))
    (fun s' => ((s'.wg 0).lane 0).v.get 4 == 0 && ((s'.wg 0).lane 0).cf) = true := by decide +kernel

/-- R85: −7 / 2 is −3, and division truncates towards zero. -/
theorem test_idiv_truncates : after (.idiv ⟨.s32, false, .v 4, .v 1, .v 2⟩) (sVals 0xFFFFFFF9 2 0) 4 0xFFFFFFFD = true := by decide +kernel

/-- spec/04: plop.and p3, !p0, p0 clears p3. -/
theorem test_plop_clears : gives (exec (.plop .and ⟨3, false⟩ ⟨0, true⟩ ⟨0, false⟩) (sVals 0 0 0))
    (fun s' => ((s'.wg 0).lane 0).p == 0xF7) = true := by decide +kernel

/-- spec/06, under R125: fscale.f32 of 1.5 × 2^−126 by −1. -/
theorem test_fscale_subnormal : after (.fscale ⟨.f32, false, .v 4, .v 1, .v 2⟩) (sVals 0x00C00000 0xFFFFFFFF 0) 4 0x00600000 = true := by decide +kernel

/-- R122: 1 + 2^−24 is a tie, and goes to the even 1. -/
theorem test_fadd_ties : after (.fadd ⟨.f32, false, .v 4, .v 1, .v 2⟩) (sVals 0x3F800000 0x33800000 0) 4 0x3F800000 = true := by decide +kernel

/-- A lane outside E keeps its register, one inside is written (R27). -/
theorem test_lanes_outside_stand : gives (exec (.movi .s32 false (.v 6) (.imm 0x100)) (sVals 0 0 0))
    (fun s' => ((s'.wg 0).lane 1).v.get 6 == 0x100 && ((s'.wg 0).lane 2).v.get 6 == 0) = true := by decide +kernel

/-- spec/05, R110: the six conversions to E4M3 under RNE that its table works out, with SAT 0 and 1. -/
theorem test_e4m3_table :
    (let cv := fun (x : Nat) (sat : Bool) => let r := toE4m3 .rne sat (fp32.decode x); (r.bits, r.sat)
     [(0x3E99999A, 0x2A, 0x2A, 0), (0x43960000, 0x79, 0x79, 0), (0x43FA0000, 0x7F, 0x7E, 1), (0x3A83126F, 0x01, 0x01, 0), (0xBA378034, 0x80, 0x80, 0),
      (0xFF800000, 0xFF, 0xFE, 1)].all fun t => cv t.1 false == (t.2.1, 0) && cv t.1 true == (t.2.2.1, t.2.2.2)) = true := by decide +kernel

/-- spec/21: MACR leaves 120 in accumulator 0 of bank 0, of a row of ones and the vector 0 to 15. -/
theorem test_macr_sums : ((macrBank false ((List.replicate 16 [0x00, 0x3C]).flatten) ((List.range 16).flatMap fun t => bytesOfNat 2 (fp16.ofVal .rne (.fin false t 0)).bits)
    1 16 0 0 []).1.get 0) = 0x42F00000 := by decide +kernel

/-- R326: ACT of row 2 in bank 1, given as a COMMAND value; a value with CMD 5 is none. -/
theorem test_bank_commands : bankCmd (2 * 16) = some (.act 2) ∧ bankCmd 5 = none := by decide

/-- R272: slots of a ring of 16, and sequence numbers that pass 2^32. -/
theorem test_sequence_wraps : seqGe 0 0xFFFFFFFF = true ∧ seqGe 0xFFFFFFFF 0 = false := by decide

/-- R443: the reserved bits of a membership entry read zero after stores of ones. -/
theorem test_ring_reserved : gives (exec (.moduleRegisterWrite .host 0x408 (BitVec.ofNat 64 (2 ^ 64 - 1))) State.reset)
    (fun s => s.regs.load 0x408 == 0x00FFFFFFFFFFFFFF) = true ∧
    gives (exec (.moduleRegisterWrite .pmc 0x7F0 (BitVec.ofNat 64 (2 ^ 64 - 1))) State.reset) (fun s => s.regs.load 0x7F0 == 0x3FFFFF000F) = true := by
  decide +kernel

/-- R129: 1/3 is admitted as the reciprocal of 3, and so is its neighbour, but no value three units in the last place away. -/
theorem test_reciprocal_bound :
    (let ok := fun b => fp32.admits (transUlps .rcp .f32) none (transInterval .rcp false 3 0) (fp32.decode b)
     ok 0x3EAAAAAB = true ∧ ok 0x3EAAAAAA = true ∧ ok 0x3EAAAAAE = false ∧ ok 0xBEAAAAAB = false) := by decide +kernel

end Sys2Proof.Tests
end

section
/-! SUPPORT. Packed elements (spec/04 R81) and the integers they stand for: what an element of a packed result is, and how the value
of an element and its pattern go over into each other. -/

namespace Sys2Proof.Machine

open Sys2Proof Sys2Proof.Safety

/-! ### Packing -/

theorem elemAt_lt (w x e : Nat) : elemAt w x e < 2 ^ w := Nat.mod_lt _ (Nat.two_pow_pos w)

theorem packElems_lt (w : Nat) (l : List Nat) : packElems w l < 2 ^ (w * l.length) := by
  induction l with
  | nil => simp [packElems]
  | cons a t ih =>
    have ha : a % 2 ^ w < 2 ^ w := Nat.mod_lt _ (Nat.two_pow_pos w)
    calc a % 2 ^ w + 2 ^ w * packElems w t
        < 2 ^ w * (packElems w t + 1) := by rw [Nat.mul_succ]; omega
      _ ≤ 2 ^ w * 2 ^ (w * t.length) := Nat.mul_le_mul_left _ ih
      _ = 2 ^ (w * (a :: t).length) := by rw [← Nat.pow_add, List.length_cons, Nat.mul_succ, Nat.add_comm]

/-- The first element of a packed number, and the others. -/
theorem elemAt_cons_zero (w a n : Nat) : elemAt w (a % 2 ^ w + 2 ^ w * n) 0 = a % 2 ^ w := by
  simp [elemAt, bits]

theorem elemAt_cons_succ (w a n k : Nat) : elemAt w (a % 2 ^ w + 2 ^ w * n) (k + 1) = elemAt w n k := by
  have ha : a % 2 ^ w / 2 ^ w = 0 := Nat.div_eq_of_lt (Nat.mod_lt _ (Nat.two_pow_pos w))
  unfold elemAt bits
  rw [Nat.mul_succ, Nat.add_comm (w * k), Nat.pow_add, ← Nat.div_div_eq_div_mul,
    Nat.add_mul_div_left _ _ (Nat.two_pow_pos w), ha, Nat.zero_add]

/-- An element of a packed list is the list's, modulo 2^w. -/
theorem elemAt_packElems (w : Nat) (l : List Nat) (k : Nat) : elemAt w (packElems w l) k = l.getD k 0 % 2 ^ w := by
  induction l generalizing k with
  | nil => simp [packElems, elemAt, bits]
  | cons a t ih =>
    cases k with
    | zero => exact elemAt_cons_zero ..
    | succ k => exact (elemAt_cons_succ ..).trans (ih k)

/-- An element of an element-wise result. -/
theorem elemAt_mapElems (w : Nat) {n k : Nat} (hk : k < n) (f : Nat → Nat → Nat → Nat) (x y z : Nat) :
    elemAt w (mapElems w n f x y z) k = f (elemAt w x k) (elemAt w y k) (elemAt w z k) % 2 ^ w := by
  rw [mapElems, elemAt_packElems, List.getD_eq_getElem _ _ (by simpa using hk)]
  simp

/-- Packing sees its elements modulo 2^w only. -/
theorem packElems_congr {α : Type} (w : Nat) {f g : α → Nat} (l : List α) (h : ∀ x, f x % 2 ^ w = g x % 2 ^ w) :
    packElems w (l.map f) = packElems w (l.map g) := by
  induction l with
  | nil => rfl
  | cons a t ih => simp only [List.map_cons, packElems, h a, ih]

/-- Two element functions that agree modulo 2^w on patterns of w bits, whatever the third operand, give one result. -/
theorem mapElems_congr {w : Nat} {f g : Nat → Nat → Nat → Nat}
    (h : ∀ a b c c', a < 2 ^ w → b < 2 ^ w → f a b c % 2 ^ w = g a b c' % 2 ^ w) (n x y z z' : Nat) :
    mapElems w n f x y z = mapElems w n g x y z' :=
  packElems_congr w _ fun _ => h _ _ _ _ (elemAt_lt ..) (elemAt_lt ..)

theorem typeBits_pos (t : IType) : 0 < t.bits := by cases t <;> decide

/-- The elements of a TYPE fill a word. -/
theorem typeBits_mul_count (t : IType) : t.bits * t.count = 32 := by cases t <;> rfl

theorem mapElems_lt (t : IType) (f : Nat → Nat → Nat → Nat) (x y z : Nat) : mapElems t.bits t.count f x y z < 2 ^ 32 := by
  have := packElems_lt t.bits ((List.range t.count).map fun e => f (elemAt t.bits x e) (elemAt t.bits y e) (elemAt t.bits z e))
  rwa [List.length_map, List.length_range, typeBits_mul_count] at this

theorem isWordType_iff {t : IType} : isWordType t = true ↔ t = .s32 ∨ t = .u32 := by simp [isWordType]

theorem bits_of_isWordType {t : IType} (ht : isWordType t = true) : t.bits = 32 := by
  obtain rfl | rfl := isWordType_iff.1 ht <;> rfl

theorem count_of_isWordType {t : IType} (ht : isWordType t = true) : t.count = 1 := by
  obtain rfl | rfl := isWordType_iff.1 ht <;> rfl

/-- A 32-bit TYPE has one element, the word. -/
theorem mapElems_word {t : IType} (ht : isWordType t = true) (f : Nat → Nat → Nat → Nat) (x y z : Nat) :
    mapElems t.bits t.count f x y z = f (x % 2 ^ 32) (y % 2 ^ 32) (z % 2 ^ 32) % 2 ^ 32 := by
  simp [bits_of_isWordType ht, count_of_isWordType ht, mapElems, packElems, elemAt, bits]

/-! ### Values and patterns -/

theorem patOf_lt (n : Nat) (x : Int) : patOf n x < 2 ^ n := by
  have h := Int.emod_lt_of_pos x (b := ((2 ^ n : Nat) : Int)) (by exact_mod_cast Nat.two_pow_pos n)
  have h0 := Int.emod_nonneg x (b := ((2 ^ n : Nat) : Int)) (by exact_mod_cast (Nat.two_pow_pos n).ne')
  unfold patOf
  omega

/-- The pattern of an integer is that of any natural number congruent to it. -/
theorem patOf_of_modEq {n : Nat} {x : Int} {y : Nat} (h : x ≡ y [ZMOD ((2 ^ n : Nat) : Int)]) : patOf n x = y % 2 ^ n := by
  rw [patOf, h, ← Int.natCast_emod, Int.toNat_natCast]

theorem patOf_neg_one (n : Nat) : patOf n (-1) = 2 ^ n - 1 := by
  have hp := Nat.two_pow_pos n
  have h : (-1 : Int) ≡ ((2 ^ n - 1 : Nat) : Int) [ZMOD ((2 ^ n : Nat) : Int)] := by
    rw [Int.modEq_iff_dvd]
    exact ⟨1, by omega⟩
  rw [patOf_of_modEq h, Nat.mod_eq_of_lt (by omega)]

theorem signedOf_modEq (n x : Nat) : signedOf n x ≡ x [ZMOD ((2 ^ n : Nat) : Int)] := by
  have h : ((x % 2 ^ n : Nat) : Int) ≡ x [ZMOD ((2 ^ n : Nat) : Int)] := by
    rw [Int.natCast_emod]; exact Int.mod_modEq ..
  unfold signedOf
  split
  · exact h
  · simpa using h.sub (Int.modEq_zero_iff_dvd.2 (dvd_refl ((2 ^ n : Nat) : Int)))

theorem itVal_modEq (t : IType) (x : Nat) : itVal t x ≡ x [ZMOD ((2 ^ t.bits : Nat) : Int)] := by
  unfold itVal
  split
  · exact signedOf_modEq ..
  · rw [Int.natCast_emod]; exact Int.mod_modEq ..

/-- The pattern of an element's value is the element. -/
theorem patOf_itVal {t : IType} {x : Nat} (hx : x < 2 ^ t.bits) : patOf t.bits (itVal t x) = x := by
  rw [patOf_of_modEq (itVal_modEq t x), Nat.mod_eq_of_lt hx]

theorem patOf_itVal_add (t : IType) (x y : Nat) : patOf t.bits (itVal t x + itVal t y) = (x + y) % 2 ^ t.bits :=
  patOf_of_modEq (by simpa using (itVal_modEq t x).add (itVal_modEq t y))

theorem patOf_itVal_sub (t : IType) (x : Nat) {y : Nat} (hy : y < 2 ^ t.bits) :
    patOf t.bits (itVal t x - itVal t y) = (x + 2 ^ t.bits - y) % 2 ^ t.bits := by
  refine patOf_of_modEq (((itVal_modEq t x).sub (itVal_modEq t y)).trans ?_)
  rw [Int.modEq_iff_dvd]
  exact ⟨1, by omega⟩

/-- An element of an unsigned TYPE has no negative value. -/
theorem itSigned_of_itVal_neg {t : IType} {x : Nat} (h : itVal t x < 0) : itSigned t = true := by
  by_contra hs
  rw [itVal, if_neg hs] at h
  omega

end Sys2Proof.Machine
end

section
/-! SUPPORT. The latch that an instruction leaves (spec/03 R62), and an instruction that computes in every lane, with its latch. -/

namespace Sys2Proof.Machine

open Sys2Proof Sys2Proof.Safety

/-! ### Latches -/

/-- The lanes of the execute mask are those of the home set at its positions. -/
theorem mem_execLanes {g : Gang} {r : ClauseRun} {l : Nat} :
    l ∈ execLanes g r ↔ homeOf l = g.hset ∧ r.exec.getLsbD (posOf l) = true := by
  simp only [execLanes, lanesOf, maskList, homeOf, posOf, List.mem_map, List.mem_filter, List.mem_range]
  constructor
  · rintro ⟨k, ⟨hk, hb⟩, rfl⟩
    have h1 : (32 * g.hset + k) / 32 = g.hset := by omega
    have h2 : (32 * g.hset + k) % 32 = k := by omega
    exact ⟨h1, by rwa [h2]⟩
  · rintro ⟨hh, hb⟩
    exact ⟨l % 32, ⟨Nat.mod_lt _ (by decide), hb⟩, by omega⟩

/-- Values stored by position, read back in a lane that shares its position with no other of them. -/
theorem get_overPositions (ls : List Nat) (val : Nat → Dword) (m : SMap Dword) {l : Nat}
    (hinj : ∀ a ∈ ls, posOf a = posOf l → a = l) :
    (overList (ls.map fun l => (l, val l)) m fun m p => m.set (posOf p.1) p.2).get (posOf l) =
      if l ∈ ls then val l else m.get (posOf l) := by
  induction ls generalizing m with
  | nil => rfl
  | cons a t ih =>
    have ht := ih (m.set (posOf a) (val a)) fun b hb => hinj b (List.mem_cons_of_mem _ hb)
    refine ht.trans ?_
    by_cases hl : l ∈ t
    · simp [hl]
    · by_cases ha : a = l
      · simp [ha]
      · have hp : posOf l ≠ posOf a := fun h => ha (hinj a (by simp) h.symm)
        simp [hl, Ne.symm ha, SMap.get_set_ne _ _ hp]

/-- The latch of a word that has left none before: the value in the lanes of E, zero in the others of the home set. -/
theorem latchRead_append_mkLatch {g : Gang} {r : ClauseRun} {ls : List Latch} {word : Nat} (hw : ∀ x ∈ ls, x.word ≠ word)
    (val : Nat → Dword) {l : Nat} (hl : homeOf l = g.hset) :
    latchRead (ls ++ [mkLatch word r.exec ((execLanes g r).map fun l => (l, val l))]) word l =
      if l ∈ execLanes g r then val l else 0 := by
  have hf : (ls ++ [mkLatch word r.exec ((execLanes g r).map fun l => (l, val l))]).find? (fun x => x.word == word) =
      some (mkLatch word r.exec ((execLanes g r).map fun l => (l, val l))) := by
    rw [List.find?_append, List.find?_eq_none.2 (by simpa using hw)]
    simp [mkLatch]
  have hinj : ∀ a ∈ execLanes g r, posOf a = posOf l → a = l := by
    intro a ha hp
    have := (mem_execLanes.1 ha).1
    unfold homeOf posOf at *
    omega
  have hv : (mkLatch word r.exec ((execLanes g r).map fun l => (l, val l))).vals.get (posOf l) =
      if l ∈ execLanes g r then val l else default := get_overPositions _ val [] hinj
  unfold latchRead
  rw [hf]
  simp only [hv, mem_execLanes, hl, true_and]
  simp only [mkLatch]
  split <;> rfl

/-- Where the clause goes on after an instruction, it has the latch of the instruction besides those it had. -/
theorem State.advance_latches {s : State} {t : Nat} {g : Gang} {r : ClauseRun} {i : Instr} (hg : (s.wg t).gang? g.id = some g)
    (hm : r.mac = none) (hw : r.pos + i.len < r.words.length ∨ r.next % 4096 ≠ 0) (hl : i.leavesLatch = true)
    {vals : List (Nat × Dword)} {g' : Gang} {r' : ClauseRun} (hg' : ((s.advance t g.id i r vals).wg t).gang? g.id = some g')
    (hr' : g'.clause = some r') : r'.latches = r.latches ++ [mkLatch r.pos r.exec vals] := by
  obtain ⟨hpos, hwords, -, -, -, hhdr, hnext⟩ := ClauseRun.step_plain hm i.len (some vals)
  unfold State.advance at hg'
  rw [if_pos hl] at hg'
  dsimp only at hg'
  by_cases hp : r.pos + i.len < r.words.length
  · rw [if_neg (by rw [hpos, hwords]; omega), State.gang_updGang, hg] at hg'
    · cases hg'
      cases hr'
      simp [ClauseRun.step, hm]
    · exact fun _ => rfl
  · have hn : ¬ (r.next % 4096 == 0) = true := by simpa using hw.resolve_left hp
    rw [if_pos (by rw [hpos, hwords]; omega)] at hg'
    unfold State.endClause at hg'
    dsimp only at hg'
    rw [hhdr, hnext, if_neg hn, State.gang_updGang, hg] at hg'
    · cases hg'
      cases hr'
    · intro x
      dsimp only
      split <;> rfl

/-- Taking pops leaves the gangs alone. -/
theorem State.takePops_gang (s : State) (e : Env) (i : Instr) (g : Nat) :
    ((s.takePops e i).wg e.t).gang? g = (s.wg e.t).gang? g := by
  obtain ⟨-, -, h, -⟩ := State.takePops_kept s e i
  rw [h]
  rfl

/-- An instruction whose body leaves the gang in place leaves the latch of what the body answers. -/
theorem laneIssue_latches {s : State} {t : Nat} {g : Gang} {r : ClauseRun} {i : Instr} {es : List ApprEntry}
    (h : Ready s t g r i es) (hl : i.leavesLatch = true) {body : Env → Res} {s1 s' : State} {vals : List (Nat × Dword)}
    (hb : body (opEnv s t g r es) = .ok s1 vals) (hg : (s1.wg t).gang? g.id = some g) (hs : laneIssue i body s = .next s')
    {g' : Gang} {r' : ClauseRun} (hg' : (s'.wg t).gang? g.id = some g') (hr' : g'.clause = some r') :
    r'.latches = r.latches ++ [mkLatch r.pos r.exec vals] := by
  have hlk : (opEnv s t g r es).holders = [] := Env.holders_nil (e := opEnv s t g r es) h.unlocked
  rw [laneIssue_ready h body, ← opEnv, hb, State.settle_ok' hlk] at hs
  cases hs
  refine State.advance_latches (s := (s1.updWg t fun w => w).takePops (opEnv s t g r es) i) ?_ h.plain h.within hl hg' hr'
  refine (State.takePops_gang _ (opEnv s t g r es) i g.id).trans ?_
  show ((s1.updWg t fun w => w).wg t).gang? g.id = some g
  rw [State.wg_updWg_self, hg]

/-! ### Instructions that compute -/

/-- What lane `l` computes from (spec/04 R75, R77). -/
def laneIn (s : State) (t : Nat) (g : Gang) (r : ClauseRun) (es : List ApprEntry) (ops : List Opd) (l : Nat) : LaneIn :=
  { vals := (opEnv s t g r es).opds l ops 0 0, cf := cfOf s t l, pred := predOf s t l
    rnd := roundOf ((s.wg t).lane l).fpmode }

@[simp] theorem laneIn_val (s : State) (t : Nat) (g : Gang) (r : ClauseRun) (es : List ApprEntry) (ops : List Opd) (l k : Nat) :
    (laneIn s t g r es ops l).val k = operand s t g r es ops l k := rfl

@[simp] theorem laneIn_cf (s : State) (t : Nat) (g : Gang) (r : ClauseRun) (es : List ApprEntry) (ops : List Opd) (l : Nat) :
    (laneIn s t g r es ops l).cf = cfOf s t l := rfl

/-- Gang `g` has performed instruction `i`, whose lanes have computed `out`: destination, latch, CF and predicates are as `out`
says. -/
structure Computed (s s' : State) (t : Nat) (g : Gang) (r : ClauseRun) (i : Instr) (d : Dest) (out : Nat → LaneOut) : Prop where
  performed : Performed s s' t g r i
  holds : Holds (s.wg t) (s'.wg t) (execLanes g r) d fun l => (out l).res
  latch : LatchLeft s' t g r fun l => (out l).res
  carry : ∀ l ∈ execLanes g r, cfOf s' t l = (out l).cf.getD (cfOf s t l)
  pred : ∀ l ∈ execLanes g r, ∀ n b, (out l).pd = some (n, b) → ((s'.wg t).lane l).p = (((s.wg t).lane l).setPred n b).p
  noPred : ∀ l ∈ execLanes g r, (out l).pd = none → ((s'.wg t).lane l).p = ((s.wg t).lane l).p

/-- A gang that stands ready issues an instruction as a gang. -/
theorem bothIssue_ready {s : State} {t : Nat} {g : Gang} {r : ClauseRun} {i : Instr} {es : List ApprEntry}
    (h : Ready s t g r i es) (body : Env → Res) (abody : State → Nat → Nat → Apprentice → ClauseRun → ApprRes) :
    bothIssue i body abody s = laneIssue i body s := by
  unfold bothIssue
  rw [h.turn]

theorem Touch.gangs {ls : List Nat} {reg uni : Nat → Prop} {w w' : Workgroup} (h : Touch ls reg uni w w') : w'.gangs = w.gangs := by
  rw [h.rest]

/-- Computing leaves the gangs alone. -/
theorem aluBody_gangs {i : Instr} {d : Dest} (hd : Safety.Declared i d) (ops : List Opd) (f : LaneIn → LaneOut) (e : Env) :
    ∃ s1, aluBody ops d f e = .ok s1 ((e.compute ops f).map fun p => (p.1, p.2.res)) ∧ (s1.wg e.t).gangs = (e.s.wg e.t).gangs := by
  refine ⟨_, rfl, ?_⟩
  rw [State.wg_updWg_self]
  set w1 := (e.s.wg e.t).effects (e.compute ops f)
  have h1 : w1.gangs = (e.s.wg e.t).gangs :=
    (Touch.effects (reg := fun _ => False) (uni := fun _ => False) (e.s.wg e.t) (e.compute ops f)
      (ls := (e.compute ops f).map (·.1)) fun _ hp => List.mem_map_of_mem hp).gangs
  cases d with
  | none => exact h1
  | some x =>
    have h2 := (Touch.writeDest hd w1 e.s.free ((e.compute ops f).map fun p => (p.1, p.2.res))
      (ls := ((e.compute ops f).map fun p => (p.1, p.2.res)).map (·.1)) fun _ hp => List.mem_map_of_mem hp).gangs
    simp only [Workgroup.putDest, List.map_map] at h2
    exact h2.trans h1

/-- An instruction that computes in every lane and leaves a latch: what its issue does, where the gang stands ready. -/
theorem alu_computed {s : State} {t : Nat} {g : Gang} {r : ClauseRun} {i : Instr} {es : List ApprEntry} (h : Ready s t g r i es)
    (ops : List Opd) {d : Dest} {f : LaneIn → LaneOut} (hd : Safety.Declared i d) (hf : ∀ x, Safety.Conforms i (f x))
    (hl : i.leavesLatch = true) :
    ∃ s', alu i ops d f s = .next s' ∧ Computed s s' t g r i d fun l => f (laneIn s t g r es ops l) := by
  obtain ⟨s', hs, hperf, hhold, hflag, -⟩ := laneIssue_alu h ops d f hd hf
  obtain ⟨s1, hb, hg⟩ := aluBody_gangs hd ops f (opEnv s t g r es)
  have hg1 : (s1.wg t).gang? g.id = some g := by
    unfold Workgroup.gang?
    rw [show (s1.wg t).gangs = (s.wg t).gangs from hg]
    exact h.gang
  have hv : (((opEnv s t g r es).compute ops f).map fun p => (p.1, p.2.res)) =
      (execLanes g r).map fun l => (l, (f (laneIn s t g r es ops l)).res) := List.map_map
  rw [hv] at hb
  refine ⟨s', (bothIssue_ready h ..).trans hs, hperf, hhold, ?_, ?_, ?_, ?_⟩
  · intro hw g' r' hg' hr' l hh
    rw [laneIssue_latches h hl hb hg1 hs hg' hr']
    exact latchRead_append_mkLatch hw _ hh
  · intro l hm
    refine (hflag l hm).1.trans ?_
    change (match (f (laneIn s t g r es ops l)).cf with | some b => b | none => cfOf s t l) = _
    cases (f (laneIn s t g r es ops l)).cf <;> rfl
  · intro l hm n b hp
    rw [laneIn] at hp
    simpa only [hp] using (hflag l hm).2
  · intro l hm hp
    rw [laneIn] at hp
    simpa only [hp] using (hflag l hm).2

/-- The destination holds what the results are. -/
theorem Computed.holds_of {s s' : State} {t : Nat} {g : Gang} {r : ClauseRun} {i : Instr} {d : Dest} {out : Nat → LaneOut}
    (h : Computed s s' t g r i d out) {val : Nat → Dword} (hv : ∀ l, (out l).res = val l) :
    Holds (s.wg t) (s'.wg t) (execLanes g r) d val :=
  funext hv ▸ h.holds

/-- A computation that gives neither CF nor a predicate leaves both. -/
theorem Computed.flagsKept {s s' : State} {t : Nat} {g : Gang} {r : ClauseRun} {i : Instr} {d : Dest} {out : Nat → LaneOut}
    (h : Computed s s' t g r i d out) (hcf : ∀ l, (out l).cf = none) (hpd : ∀ l, (out l).pd = none) : FlagsKept s s' t := by
  intro l
  by_cases hl : l ∈ execLanes g r
  · exact ⟨by rw [h.carry l hl, hcf]; rfl, h.noPred l hl (hpd l)⟩
  · unfold cfOf
    rw [h.performed.group.outside l hl]
    exact ⟨rfl, rfl⟩

/-- An instruction that can raise no flag and count nothing leaves the exception summary. -/
theorem Computed.summaryKept {s s' : State} {t : Nat} {g : Gang} {r : ClauseRun} {i : Instr} {d : Dest} {out : Nat → LaneOut}
    (h : Computed s s' t g r i d out) (hf : raisesFlags i = false) (hs : saturates i = false) (hn : countsNans i = false) :
    SummaryKept s s' t :=
  have hg := h.performed.group.summary
  ⟨hg.flags hf, hg.satcnt.2 hs, hg.nanscore.2 hn⟩

/-! ### Operands -/

/-- An inline constant of an integer TYPE is a word. -/
theorem constInt_lt {t : IType} {l cs x : Nat} {q : Sel} (h : constInt t l cs q = some x) : x < 2 ^ 32 := by
  have hfill : ∀ y, packElems t.bits (List.replicate (32 / t.bits) y) < 2 ^ 32 := by
    intro y
    have hb : t.bits * (32 / t.bits) = 32 := by cases t <;> rfl
    have := packElems_lt t.bits (List.replicate (32 / t.bits) y)
    rwa [List.length_replicate, hb] at this
  unfold constInt at h
  cases q <;> cases h
  case zero | half => exact Nat.two_pow_pos 32
  case negOne => decide
  all_goals exact hfill _

/-- An operand that is read as an integer is a word. -/
theorem Env.opd_int_lt (e : Env) (l : Nat) (t : IType) (q : Sel) (j i : Nat) : (e.opd l (.int t q) j i).toNat < 2 ^ 32 := by
  unfold Env.opd
  dsimp only
  split
  · next x hx =>
    have := constInt_lt hx
    rw [BitVec.toNat_ofNat]
    omega
  · rw [BitVec.toNat_setWidth]
    omega

/-- Both operands of a two-source integer instruction are words. -/
theorem operand_int_lt (s : State) (t : Nat) (g : Gang) (r : ClauseRun) (es : List ApprEntry) (ta tb : IType) (a b : Sel)
    (l k : Nat) : operand s t g r es [.int ta a, .int tb b] l k < 2 ^ 32 := by
  match k with
  | 0 => exact Env.opd_int_lt ..
  | 1 => exact Env.opd_int_lt ..
  | k + 2 => exact Nat.two_pow_pos 32

end Sys2Proof.Machine
end

section
/-! SUPPORT. The two-source integer instructions (spec/04 R84, R85, R87): what each computes, and the statements about them. -/

namespace Sys2Proof.Machine

open Sys2Proof Sys2Proof.Safety

/-! ### Two-source integer instructions -/

/-- Instruction `i` computes `f` from the two sources of `o`, and leaves a latch. -/
structure ComputesA (i : Instr) (o : IntA) (f : LaneIn → LaneOut) : Prop where
  exec : ∀ s, exec i s = intA i o f s
  writes : i.writes = nwDst (o.nw && !false) o.d 1
  latch : i.leavesLatch = true
  conforms : ∀ x, Safety.Conforms i (f x)

/-- A destination under NW is declared as the operand tables give it. -/
theorem declared_dst {i : Instr} {nw : Bool} {d : Sel} {n : Nat} (hw : i.writes = nwDst (nw && !false) d n) (hn : n = 1 ∨ n = 2) :
    Safety.Declared i (dst nw d n) := by
  intro q k h
  cases nw with
  | true => cases h
  | false =>
    cases h
    exact ⟨by rw [hw]; exact List.mem_singleton.2 rfl, hn⟩

/-- The sources of a two-source integer instruction. -/
abbrev sourcesA (o : IntA) : List Opd := [.int o.ty o.a, .int o.ty o.b]

/-- What a two-source integer instruction does, where the gang stands ready. -/
theorem ComputesA.computed {i : Instr} {o : IntA} {f : LaneIn → LaneOut} (hi : ComputesA i o f) {s : State} {t : Nat} {g : Gang}
    {r : ClauseRun} {es : List ApprEntry} (h : Ready s t g r i es) :
    ∃ s', Machine.exec i s = .next s' ∧ Computed s s' t g r i (dst o.nw o.d 1) fun l => f (laneIn s t g r es (sourcesA o) l) := by
  rw [hi.exec]
  exact alu_computed h _ (declared_dst hi.writes (.inl rfl)) hi.conforms hi.latch

/-- A computation that gives a result alone conforms to any instruction. -/
theorem conforms_res (i : Instr) (x : Dword) : Safety.Conforms i { res := x } where
  cf _ := rfl
  pd _ _ h := nomatch h
  flags _ := rfl
  sat _ := rfl
  nan _ := rfl

/-- One that gives CF too conforms to an instruction that writes CF. -/
theorem conforms_carry {i : Instr} (h : writesCf i = true) (x : Dword) (c : Bool) : Safety.Conforms i { res := x, cf := some c } where
  cf h' := absurd (h.symm.trans h') (by decide)
  pd _ _ h := nomatch h
  flags _ := rfl
  sat _ := rfl
  nan _ := rfl

/-! ### R84: IADD, IADDC, ISUB, ISUBB -/

theorem addOut_cf (t : IType) (x : LaneIn) :
    (addOut t x).cf = if isWordType t then some (decide (x.val 0 + x.val 1 ≥ 2 ^ 32)) else none := by
  unfold addOut
  split <;> rfl

theorem subOut_cf (t : IType) (x : LaneIn) :
    (subOut t x).cf = if isWordType t then some (decide (x.val 0 < x.val 1)) else none := by
  unfold subOut
  split <;> rfl

/-- At every TYPE, the elements are added modulo 2^w. -/
theorem addOut_res (t : IType) (x : LaneIn) : (addOut t x).res =
    BitVec.ofNat 64 (mapElems t.bits t.count (fun a b _ => (a + b) % 2 ^ t.bits) (x.val 0) (x.val 1) 0) := by
  unfold addOut
  split
  · next ht =>
    rw [mapElems_word ht, bits_of_isWordType ht]
    simp [addCarry]
  · rw [elemInt]
    refine congrArg (BitVec.ofNat 64) (mapElems_congr (fun a b _ _ _ _ => ?_) ..)
    rw [patOf_itVal_add]

/-- At every TYPE, the elements are subtracted modulo 2^w. -/
theorem subOut_res (t : IType) (x : LaneIn) (hb : x.val 1 < 2 ^ 32) : (subOut t x).res =
    BitVec.ofNat 64 (mapElems t.bits t.count (fun a b _ => (a + 2 ^ t.bits - b) % 2 ^ t.bits) (x.val 0) (x.val 1) 0) := by
  unfold subOut
  split
  · next ht =>
    rw [mapElems_word ht, bits_of_isWordType ht]
    refine congrArg (BitVec.ofNat 64) ?_
    simp only [subBorrow, Bool.false_eq_true, if_false]
    omega
  · rw [elemInt]
    refine congrArg (BitVec.ofNat 64) (mapElems_congr (fun a b _ _ _ hb => ?_) ..)
    rw [patOf_itVal_sub _ _ hb]

theorem subbOut_res (x : LaneIn) :
    (subbOut x).res = BitVec.ofNat 64 ((x.val 0 + 2 ^ 33 - x.val 1 - if x.cf then 1 else 0) % 2 ^ 32) := by
  rw [subbOut, subBorrow, Nat.sub_sub]

theorem computesA_iadd (o : IntA) : ComputesA (.iadd o) o (addOut o.ty) where
  exec _ := rfl
  writes := rfl
  latch := rfl
  conforms x := by
    unfold addOut
    split
    · exact conforms_carry ‹_› ..
    · exact conforms_res ..

theorem computesA_isub (o : IntA) : ComputesA (.isub o) o (subOut o.ty) where
  exec _ := rfl
  writes := rfl
  latch := rfl
  conforms x := by
    unfold subOut
    split
    · exact conforms_carry ‹_› ..
    · exact conforms_res ..

theorem computesA_iaddc (o : IntA) : ComputesA (.iaddc o) o addcOut :=
  ⟨fun _ => rfl, rfl, rfl, fun _ => conforms_carry rfl ..⟩

theorem computesA_isubb (o : IntA) : ComputesA (.isubb o) o subbOut :=
  ⟨fun _ => rfl, rfl, rfl, fun _ => conforms_carry rfl ..⟩

/-- Settles O2: the four computations, and what the issue of a computing instruction does. -/
theorem addSubtractCarry : Obligations.AddSubtractCarry := by
  unfold Obligations.AddSubtractCarry
  intro s t g r es o a b c w res
  refine ⟨fun h => ?_, fun h => ?_, fun _ h => ?_, fun _ h => ?_⟩
  · obtain ⟨s', he, hc⟩ := (computesA_iadd o).computed h
    refine ⟨s', he, hc.performed, hc.holds_of fun l => addOut_res .., fun l hl => ?_⟩
    rw [hc.carry l hl, addOut_cf]
    split <;> rfl
  · obtain ⟨s', he, hc⟩ := (computesA_isub o).computed h
    refine ⟨s', he, hc.performed, hc.holds_of fun l => subOut_res _ _ (operand_int_lt ..), fun l hl => ?_⟩
    rw [hc.carry l hl, subOut_cf]
    split <;> rfl
  · obtain ⟨s', he, hc⟩ := (computesA_iaddc o).computed h
    exact ⟨s', he, hc.performed, hc.holds, hc.carry⟩
  · obtain ⟨s', he, hc⟩ := (computesA_isubb o).computed h
    exact ⟨s', he, hc.performed, hc.holds_of fun l => subbOut_res _, hc.carry⟩

/-! ### Element-wise instructions -/

/-- An element of an element-wise result on patterns. -/
theorem elemAt_elemNat (t : IType) (f : Nat → Nat → Nat) (x : LaneIn) {k : Nat} (hk : k < t.count) :
    elemAt t.bits (elemNat t f x).res.toNat k = f (elemAt t.bits (x.val 0) k) (elemAt t.bits (x.val 1) k) % 2 ^ t.bits := by
  have hlt := mapElems_lt t (fun a b _ => f a b) (x.val 0) (x.val 1) 0
  rw [elemNat, BitVec.toNat_ofNat, Nat.mod_eq_of_lt (by omega), elemAt_mapElems _ hk]

/-- An element of an element-wise result on integers. -/
theorem elemAt_elemInt (t : IType) (f : Int → Int → Int → Int) (x : LaneIn) {k : Nat} (hk : k < t.count) :
    elemAt t.bits (elemInt t f x).res.toNat k = patOf t.bits (f (itVal t (elemAt t.bits (x.val 0) k))
      (itVal t (elemAt t.bits (x.val 1) k)) (itVal t (elemAt t.bits (x.val 2) k))) := by
  have hlt := mapElems_lt t (fun a b c => patOf t.bits (f (itVal t a) (itVal t b) (itVal t c))) (x.val 0) (x.val 1) (x.val 2)
  rw [elemInt, BitVec.toNat_ofNat, Nat.mod_eq_of_lt (by omega), elemAt_mapElems _ hk, Nat.mod_eq_of_lt (patOf_lt ..)]

/-! ### R85: IDIV, IREM -/

theorem computesA_idiv (o : IntA) : ComputesA (.idiv o) o (elemInt o.ty fun a b _ => (divRem o.ty a b).1) :=
  ⟨fun _ => rfl, rfl, rfl, fun _ => conforms_res ..⟩

theorem computesA_irem (o : IntA) : ComputesA (.irem o) o (elemInt o.ty fun a b _ => (divRem o.ty a b).2) :=
  ⟨fun _ => rfl, rfl, rfl, fun _ => conforms_res ..⟩

/-- A divisor of −1 is of a signed TYPE, so that R85's second corner need not ask for one. -/
theorem divRem_itVal (t : IType) (a : Int) (y : Nat) : divRem t a (itVal t y) =
    if itVal t y = 0 then (-1, a) else if a = itLo t ∧ itVal t y = -1 then (a, 0)
    else (Int.tdiv a (itVal t y), a - itVal t y * Int.tdiv a (itVal t y)) := by
  have hs : itVal t y = -1 → itSigned t = true := fun h => itSigned_of_itVal_neg (x := y) (by omega)
  have hc : (itSigned t = true ∧ a = itLo t ∧ itVal t y = -1) ↔ (a = itLo t ∧ itVal t y = -1) :=
    ⟨And.right, fun h => ⟨hs h.2, h⟩⟩
  simp only [divRem, hc]

/-- The pattern of R85's quotient. -/
theorem patOf_quotient {t : IType} {x : Nat} (hx : x < 2 ^ t.bits) (y : Nat) :
    patOf t.bits (divRem t (itVal t x) (itVal t y)).1 =
      if itVal t y = 0 then 2 ^ t.bits - 1 else if itVal t x = itLo t ∧ itVal t y = -1 then x
      else patOf t.bits (Int.tdiv (itVal t x) (itVal t y)) := by
  rw [divRem_itVal]
  split
  · exact patOf_neg_one _
  · split
    · exact patOf_itVal hx
    · rfl

/-- The pattern of R85's remainder. -/
theorem patOf_remainder {t : IType} {x : Nat} (hx : x < 2 ^ t.bits) (y : Nat) :
    patOf t.bits (divRem t (itVal t x) (itVal t y)).2 =
      if itVal t y = 0 then x else if itVal t x = itLo t ∧ itVal t y = -1 then 0
      else patOf t.bits (itVal t x - itVal t y * Int.tdiv (itVal t x) (itVal t y)) := by
  rw [divRem_itVal]
  split
  · exact patOf_itVal hx
  · split
    · simp [patOf]
    · rfl

/-- Settles O3: an element of the result is the pattern of R85's quotient or remainder. -/
theorem divideTruncates : Obligations.DivideTruncates := by
  unfold Obligations.DivideTruncates
  intro s t g r es o a b w
  constructor
  · intro h
    obtain ⟨s', he, hc⟩ := (computesA_idiv o).computed h
    refine ⟨s', _, he, hc.performed, hc.holds, hc.latch, fun l _ k hk => ?_⟩
    rw [elemAt_elemInt _ _ _ hk]
    exact patOf_quotient (elemAt_lt ..) _
  · intro h
    obtain ⟨s', he, hc⟩ := (computesA_irem o).computed h
    refine ⟨s', _, he, hc.performed, hc.holds, hc.latch, fun l _ k hk => ?_⟩
    rw [elemAt_elemInt _ _ _ hk]
    exact patOf_remainder (elemAt_lt ..) _

/-! ### R87: SHL, SHR, SAR, ROT -/

theorem computesA_shl (o : IntA) : ComputesA (.shl o) o (elemNat o.ty (shlElem o.ty.bits)) :=
  ⟨fun _ => rfl, rfl, rfl, fun _ => conforms_res ..⟩

theorem computesA_shr (o : IntA) : ComputesA (.shr o) o (elemNat o.ty (shrElem o.ty.bits)) :=
  ⟨fun _ => rfl, rfl, rfl, fun _ => conforms_res ..⟩

theorem computesA_sar (o : IntA) : ComputesA (.sar o) o (elemNat o.ty (sarElem o.ty.bits)) :=
  ⟨fun _ => rfl, rfl, rfl, fun _ => conforms_res ..⟩

theorem computesA_rot (o : IntA) : ComputesA (.rot o) o (elemNat o.ty (rotElem o.ty.bits)) :=
  ⟨fun _ => rfl, rfl, rfl, fun _ => conforms_res ..⟩

theorem shlElem_lt (w a c : Nat) : shlElem w a c < 2 ^ w := by
  unfold shlElem
  split
  · exact Nat.mod_lt _ (Nat.two_pow_pos w)
  · exact Nat.two_pow_pos w

theorem shrElem_lt {w a : Nat} (ha : a < 2 ^ w) (c : Nat) : shrElem w a c < 2 ^ w := by
  unfold shrElem
  split
  · exact (Nat.div_le_self ..).trans_lt ha
  · exact Nat.two_pow_pos w

/-- The two parts of a rotated element do not overlap. -/
theorem rotElem_lt {w a : Nat} (hw : 0 < w) (ha : a < 2 ^ w) (c : Nat) : rotElem w a c < 2 ^ w := by
  have hk : c % w < w := Nat.mod_lt _ hw
  unfold rotElem
  generalize c % w = k at *
  have hsplit : 2 ^ w = 2 ^ (w - k) * 2 ^ k := by rw [← Nat.pow_add]; congr 1; omega
  have hlow : a / 2 ^ (w - k) < 2 ^ k := Nat.div_lt_of_lt_mul (hsplit ▸ ha)
  have hhigh : a % 2 ^ (w - k) + 1 ≤ 2 ^ (w - k) := Nat.mod_lt _ (Nat.two_pow_pos _)
  calc a * 2 ^ k % 2 ^ w + a / 2 ^ (w - k)
      = a % 2 ^ (w - k) * 2 ^ k + a / 2 ^ (w - k) := by rw [hsplit, Nat.mul_mod_mul_right]
    _ < (a % 2 ^ (w - k) + 1) * 2 ^ k := by rw [Nat.succ_mul]; omega
    _ ≤ 2 ^ w := by rw [hsplit]; exact Nat.mul_le_mul_right _ hhigh

/-- A count of w or more leaves copies of the top bit. -/
theorem sarElem_eq {w a : Nat} (ha : a < 2 ^ w) (c : Nat) : sarElem w a c =
    if c < w then patOf w (signedOf w a / ((2 ^ c : Nat) : Int)) else if a < 2 ^ (w - 1) then 0 else 2 ^ w - 1 := by
  unfold sarElem
  split
  · next hc => rw [Nat.min_eq_left hc.le]
  · next hc =>
    rw [Nat.min_eq_right (by omega), signedOf, Nat.mod_eq_of_lt ha]
    split
    · rw [Int.ediv_eq_zero_of_lt (by omega) (by exact_mod_cast ha)]
      simp [patOf]
    · have hneg : ((a : Int) - (2 ^ w : Nat)) / ((2 ^ w : Nat) : Int) = -1 := by
        rw [Int.ediv_eq_iff_of_pos (by exact_mod_cast Nat.two_pow_pos w)]
        omega
      rw [hneg, patOf_neg_one]

/-- A two-source instruction whose element function on patterns is `f`, modulo 2^w, and that can raise or count nothing. -/
theorem ComputesA.elementwise {i : Instr} {o : IntA} {f₀ f : Nat → Nat → Nat} (hi : ComputesA i o (elemNat o.ty f₀))
    (hf : ∀ a c, a < 2 ^ o.ty.bits → f₀ a c % 2 ^ o.ty.bits = f a c) (hr : raisesFlags i = false) (hs : saturates i = false)
    (hn : countsNans i = false) {s : State} {t : Nat} {g : Gang} {r : ClauseRun} {es : List ApprEntry} (h : Ready s t g r i es) :
    ∃ s' val, Machine.exec i s = .next s' ∧ Performed s s' t g r i ∧ FlagsKept s s' t ∧ SummaryKept s s' t ∧
      Holds (s.wg t) (s'.wg t) (execLanes g r) (dst o.nw o.d 1) val ∧ LatchLeft s' t g r val ∧
      ∀ l ∈ execLanes g r, ∀ k, k < o.ty.count → elemAt o.ty.bits (val l).toNat k =
        f (elemAt o.ty.bits (operand s t g r es (sourcesA o) l 0) k) (elemAt o.ty.bits (operand s t g r es (sourcesA o) l 1) k) := by
  obtain ⟨s', he, hc⟩ := hi.computed h
  refine ⟨s', _, he, hc.performed, hc.flagsKept (fun _ => rfl) (fun _ => rfl), hc.summaryKept hr hs hn, hc.holds, hc.latch,
    fun l _ k hk => ?_⟩
  rw [elemAt_elemNat _ _ _ hk]
  exact hf _ _ (elemAt_lt ..)

/-- Settles O4: each shift works on its elements alone, and its element function is R87's. -/
theorem shiftsByElement : Obligations.ShiftsByElement := by
  unfold Obligations.ShiftsByElement
  intro s t g r es o a c w gives
  refine ⟨?_, ?_, ?_, ?_⟩
  · exact (computesA_shl o).elementwise (fun x n _ => Nat.mod_eq_of_lt (shlElem_lt ..)) rfl rfl rfl
  · exact (computesA_shr o).elementwise (fun x n hx => Nat.mod_eq_of_lt (shrElem_lt hx n)) rfl rfl rfl
  · exact (computesA_sar o).elementwise (fun x n hx => (Nat.mod_eq_of_lt (patOf_lt ..)).trans (sarElem_eq hx n)) rfl rfl rfl
  · exact (computesA_rot o).elementwise (fun x n hx => Nat.mod_eq_of_lt (rotElem_lt (typeBits_pos _) hx n)) rfl rfl rfl

end Sys2Proof.Machine
end

section
/-! SUPPORT. Lanes in no crew at an instruction that needs one (spec/08 R175): every check that looks at crews finds the same trap, and
the statement about the scratchpad instructions. -/

namespace Sys2Proof.Machine

open Sys2Proof Sys2Proof.Safety

/-! ### The checks of an issue that find lanes in no crew -/

/-- A gang that stands at an instruction issues it, whatever the checks then find. -/
theorem laneIssue_stands {s : State} {t : Nat} {g : Gang} {r : ClauseRun} (h : Stands s t g r) (i : Instr) (body : Env → Res) :
    laneIssue i body s = .next ((State.issue (taken s) t g r i body).spent s.free) := by
  have hg : ((taken s).wg t).gang? g.id = some g := h.gang
  unfold taken at hg ⊢
  unfold laneIssue
  rw [h.turn]
  simp only [hg, h.clause, h.awake, List.tail_cons]

/-- A lane in no crew is a lane of E. -/
theorem Env.ls_ne_nil_of_crewless {e : Env} (h : e.crewless ≠ []) : e.ls ≠ [] := by
  intro hl
  simp [Env.crewless, hl] at h

/-- Where lanes of E are in no crew, the check of uniform registers finds nothing else. -/
theorem Env.crewTrap_crewless {e : Env} (h : e.crewless ≠ []) (i : Instr) :
    e.crewTrap i = none ∨ e.crewTrap i = some (0x6D, e.crewless) := by
  unfold Env.crewTrap
  dsimp only
  split_ifs with hu hw
  · exact .inr rfl
  · exact absurd ⟨.inr hw.1, h⟩ hu
  · exact .inl rfl

/-- Where lanes of E are in no crew, an instruction that pops has no other trap. -/
theorem Env.popsOf_crewless {e : Env} (h : e.crewless ≠ []) (i : Instr) :
    e.popsOf i = .ready [] ∨ e.popsOf i = .trap 0x6D e.crewless := by
  unfold Env.popsOf
  dsimp only
  split_ifs
  · exact .inl rfl
  · exact .inr rfl

/-- Gates bar streams, barriers, bindings and matrix instructions alone. -/
theorem Env.gateTrap_free {i : Instr} (hc : calleeBars i = false) (hm : isMatrix i = false) (e : Env) : e.gateTrap i = [] := by
  simp [Env.gateTrap, hc, hm]

/-- A trap of lanes, closed by a gang that has popped nothing. -/
theorem State.settle_trap {e : Env} (hp : e.pops = []) (i : Instr) (cause : Nat) (ls : List Nat) :
    State.settleRes e i (e.trap cause ls) = e.s.takeTrap e.t e.g.id { cause := cause, faulters := ls, fpc := e.fpc } := by
  simp [Env.trap, State.settleRes, hp]

/-! ### Instructions whose lanes must be in crews -/

/-- Instruction `i` is issued by lanes with the meaning `body`, no gate bars it, and it raises CREW_STATE, with the lanes in no crew
as faulters, before it does anything else. -/
structure NeedsCrews (i : Instr) (body : Env → Res) : Prop where
  exec : ∀ s, exec i s = laneIssue i body s
  callee : calleeBars i = false
  matrix : isMatrix i = false
  traps : ∀ e : Env, e.crewless ≠ [] → body e = e.trap 0x6D e.crewless

/-- The issue of an instruction that needs crews traps where lanes of E are in none: the earlier checks pass or find the same. -/
theorem NeedsCrews.issue_crewless {i : Instr} {body : Env → Res} (hi : NeedsCrews i body) {s : State} {t : Nat} {g : Gang}
    {r : ClauseRun} (hm : (s.env t g r).mcheck = none) (hl : (s.env t g r).holders = []) (hd : s.damage = [])
    (hc : (s.env t g r).crewless ≠ []) :
    State.issue s t g r i body =
      s.takeTrap t g.id { cause := 0x6D, faulters := (s.env t g r).crewless, fpc := (s.env t g r).fpc } := by
  have htrap := State.settle_trap (e := s.env t g r) rfl i 0x6D (s.env t g r).crewless
  unfold State.issue
  simp only [hm, Env.overHeld_nil hl, hl, ne_eq, not_true_eq_false, false_and, if_false]
  obtain hu | hu := Env.crewTrap_crewless hc i
  · simp only [hu, Env.gateTrap_free hi.callee hi.matrix, Env.regCheck_none (i := i) (show (s.env t g r).s.damage = [] from hd)]
    obtain hp | hp := Env.popsOf_crewless hc i
    · simp only [hp]
      exact (congrArg _ (hi.traps (s.env t g r) hc)).trans htrap
    · simp only [hp]
      exact htrap
  · simp only [hu]
    exact htrap

/-- An instruction that needs crews traps at a gang that stands at it with lanes of E in none. -/
theorem NeedsCrews.exec_crewless {i : Instr} {body : Env → Res} (hi : NeedsCrews i body) {s : State} {t : Nat} {g : Gang}
    {r : ClauseRun} (h : Stands s t g r) (hlock : ∀ l ∈ issueLanes g r, ((s.wg t).lane l).lock = none)
    (hcheck : ∀ l ∈ issueLanes g r, ∀ c, ((s.wg t).lane l).crew = some c → ((s.wg t).crew c).mcheck = none)
    (hd : s.damage = []) (hc : ¬ Crewed s t g r) :
    Machine.exec i s = .next (trapped s t g r 0x6D ((execLanes g r).filter fun l => ((s.wg t).lane l).crew.isNone)) := by
  have hne : ((taken s).env t g r).crewless ≠ [] := by
    intro hnil
    refine hc fun l hl hnone => List.filter_eq_nil_iff.1 hnil l hl ?_
    simp [Env.crewOf, hnone]
  rw [hi.exec, laneIssue_stands h, hi.issue_crewless (s := taken s) (Env.mcheck_none hcheck) (Env.holders_nil hlock) hd hne]
  rfl

/-! ### R175: LDS, STS, LDSC, STSC, LDLK, STUL, ATOMS, WAITC -/

theorem spadAccess_crewless (cluster : Bool) (o : SpadAcc) (wr : Bool) (op : List SpadLoc → FlightOp) {e : Env}
    (h : e.crewless ≠ []) : spadAccess cluster o wr op e = e.trap 0x6D e.crewless := by
  obtain ⟨a, as, hls⟩ := List.exists_cons_of_ne_nil (Env.ls_ne_nil_of_crewless h)
  obtain ⟨l, ls, hc⟩ := List.exists_cons_of_ne_nil h
  simp only [spadAccess, hls, hc]

theorem ldlkBody_crewless (w : Width) (sp : Space) (pt : Nat) (d a : Sel) (off : Src) {e : Env} (h : e.crewless ≠ []) :
    ldlkBody w sp pt d a off e = e.trap 0x6D e.crewless := by
  obtain ⟨b, bs, hls⟩ := List.exists_cons_of_ne_nil (Env.ls_ne_nil_of_crewless h)
  obtain ⟨l, ls, hc⟩ := List.exists_cons_of_ne_nil h
  simp only [ldlkBody, hls, hc]

theorem stulBody_crewless (w : Width) (sp : Space) (d a : Sel) (off : Src) {e : Env} (h : e.crewless ≠ []) :
    stulBody w sp d a off e = e.trap 0x6D e.crewless := by
  obtain ⟨b, bs, hls⟩ := List.exists_cons_of_ne_nil (Env.ls_ne_nil_of_crewless h)
  obtain ⟨l, ls, hc⟩ := List.exists_cons_of_ne_nil h
  simp only [stulBody, hls, hc]

theorem atomsBody_crewless (op : AtomOp) (w : Width) (sp : Space) (d : Option Sel) (a b : Sel) (c : Option Sel) {e : Env}
    (h : e.crewless ≠ []) : atomsBody op w sp d a b c e = e.trap 0x6D e.crewless := by
  obtain ⟨x, xs, hls⟩ := List.exists_cons_of_ne_nil (Env.ls_ne_nil_of_crewless h)
  obtain ⟨l, ls, hc⟩ := List.exists_cons_of_ne_nil h
  simp only [atomsBody, hls, hc]

theorem waitcBody_crewless (p : Path) (a : Sel) {e : Env} (h : e.crewless ≠ []) :
    waitcBody p a e = e.trap 0x6D e.crewless := by
  obtain ⟨l, ls, hc⟩ := List.exists_cons_of_ne_nil h
  simp only [waitcBody, hc]

theorem needsCrews_lds (o : SpadAcc) : NeedsCrews (.lds o) (spadLoadBody false o) :=
  ⟨fun _ => rfl, rfl, rfl, fun _ => spadAccess_crewless _ _ _ _⟩

theorem needsCrews_sts (o : SpadAcc) : NeedsCrews (.sts o) (spadStoreBody false o) :=
  ⟨fun _ => rfl, rfl, rfl, fun _ => spadAccess_crewless _ _ _ _⟩

theorem needsCrews_ldsc (o : SpadAcc) : NeedsCrews (.ldsc o) (spadLoadBody true o) :=
  ⟨fun _ => rfl, rfl, rfl, fun _ => spadAccess_crewless _ _ _ _⟩

theorem needsCrews_stsc (o : SpadAcc) : NeedsCrews (.stsc o) (spadStoreBody true o) :=
  ⟨fun _ => rfl, rfl, rfl, fun _ => spadAccess_crewless _ _ _ _⟩

theorem needsCrews_ldlk (w : Width) (sp : Space) (pt : Nat) (d a : Sel) (off : Src) :
    NeedsCrews (.ldlk w sp pt d a off) (ldlkBody w sp pt d a off) :=
  ⟨fun _ => rfl, rfl, rfl, fun _ => ldlkBody_crewless _ _ _ _ _ _⟩

theorem needsCrews_stul (w : Width) (sp : Space) (d a : Sel) (off : Src) :
    NeedsCrews (.stul w sp d a off) (stulBody w sp d a off) :=
  ⟨fun _ => rfl, rfl, rfl, fun _ => stulBody_crewless _ _ _ _ _⟩

theorem needsCrews_atoms (op : AtomOp) (w : Width) (sp : Space) (d : Option Sel) (a b : Sel) (c : Option Sel) :
    NeedsCrews (.atoms op w sp d a b c) (atomsBody op w sp d a b c) :=
  ⟨fun _ => rfl, rfl, rfl, fun _ => atomsBody_crewless _ _ _ _ _ _ _⟩

theorem needsCrews_waitc (p : Path) (a : Sel) : NeedsCrews (.waitc p a) (waitcBody p a) :=
  ⟨fun _ => rfl, rfl, rfl, fun _ => waitcBody_crewless _ _⟩

/-- Settles O16: each of the eight instructions needs crews. -/
theorem crewlessScratchpadTraps : Obligations.CrewlessScratchpadTraps := by
  unfold Obligations.CrewlessScratchpadTraps
  rintro s t g r i (⟨o, rfl | rfl | rfl | rfl⟩ | ⟨w, sp, pt, d, a, off, rfl⟩ | ⟨w, sp, d, a, off, rfl⟩ |
    ⟨op, w, sp, d, a, b, c, rfl⟩ | ⟨p, a, rfl⟩)
  · exact (needsCrews_lds o).exec_crewless
  · exact (needsCrews_sts o).exec_crewless
  · exact (needsCrews_ldsc o).exec_crewless
  · exact (needsCrews_stsc o).exec_crewless
  · exact (needsCrews_ldlk w sp pt d a off).exec_crewless
  · exact (needsCrews_stul w sp d a off).exec_crewless
  · exact (needsCrews_atoms op w sp d a b c).exec_crewless
  · exact (needsCrews_waitc p a).exec_crewless

end Sys2Proof.Machine
end

section
/-! SUPPORT. An instruction that acts within its workgroup: what its issue leaves, said once for every body that keeps the gangs, and
the checks of an instruction that acts for the one crew of its lanes. -/

namespace Sys2Proof.Machine

open Sys2Proof Sys2Proof.Safety

/-! ### The close of an instruction -/

/-- What the close of an instruction leaves of its workgroup: gangs, open regions and Apprentice bindings alone may move. -/
structure Closed (w w' : Workgroup) : Prop where
  rest : w' = { w with lanes := w'.lanes, crews := w'.crews, gangs := w'.gangs }
  lane : ∀ l, w'.lane l = { w.lane l with opened := (w'.lane l).opened }
  crew : ∀ c, w'.crew c = { w.crew c with appr := (w'.crew c).appr }

/-- A lane whose region alone has moved holds the same registers. -/
theorem Closed.reg {w w' : Workgroup} (h : Closed w w') (l n : Nat) : (w'.lane l).reg n = (w.lane l).reg n := by
  rw [h.lane]
  rfl

/-- A gang that stands ready, and whose body leaves it in place, goes on; beyond the body, the close of the instruction alone
changes the state. -/
theorem laneIssue_closed {s : State} {t : Nat} {g : Gang} {r : ClauseRun} {i : Instr} {es : List ApprEntry}
    (h : Ready s t g r i es) {body : Env → Res} {s1 : State} {vals : List (Nat × Dword)}
    (hb : body (opEnv s t g r es) = .ok s1 vals) (hg : (s1.wg t).gang? g.id = some g) :
    ∃ s', laneIssue i body s = .next s' ∧ WentOn s' t g r i.len ∧ Closed (s1.wg t) (s'.wg t) ∧
      s' = { s1 with wgs := s'.wgs, cores := s'.cores, free := s'.free } ∧ ∀ u, u ≠ t → s'.wg u = s1.wg u := by
  have hlk : (opEnv s t g r es).holders = [] := Env.holders_nil (e := opEnv s t g r es) h.unlocked
  rw [laneIssue_ready h body, ← opEnv, hb, State.settle_ok' hlk]
  change ∃ s', Host.Outcome.next
    (((State.takePops (s1.updWg t fun w => w) (opEnv s t g r es) i).advance t g.id i r vals).spent s.free) = .next s' ∧ _
  obtain ⟨hrest, hothers, hwg, -, hlane, hcrew, -⟩ := State.takePops_kept (s1.updWg t fun w => w) (opEnv s t g r es) i
  change ∀ u, u ≠ t → _ at hothers
  generalize State.takePops (s1.updWg t fun w => w) (opEnv s t g r es) i = s2 at hrest hothers hwg hlane hcrew ⊢
  change s2.wg t = { (s1.updWg t fun w => w).wg t with lanes := (s2.wg t).lanes, crews := (s2.wg t).crews } at hwg
  change ∀ l, (s2.wg t).lane l = { ((s1.updWg t fun w => w).wg t).lane l with opened := ((s2.wg t).lane l).opened } at hlane
  change ∀ c, (s2.wg t).crew c = { ((s1.updWg t fun w => w).wg t).crew c with appr := ((s2.wg t).crew c).appr } at hcrew
  simp only [State.wg_updWg_self] at hwg hlane hcrew
  have hg2 : (s2.wg t).gang? g.id = some g := by
    rw [hwg]
    exact hg
  have hwent := State.advance_wentOn (i := i) ⟨g, hg2, rfl, rfl, rfl, rfl, h.clause⟩ h.plain h.within vals
  obtain ⟨f, -, hadv⟩ := State.advance_frame (s := s2) (t := t) (g := g) (i := i) h.plain h.within vals
  rw [hadv] at hwent ⊢
  refine ⟨_, rfl, hwent, ?_, ?_, ?_⟩
  · rw [State.wg_spent, State.updGang, State.wg_updWg_self]
    refine ⟨?_, hlane, hcrew⟩
    rw [hwg]
    rfl
  · rw [hrest]
    rfl
  · intro u hu
    rw [State.wg_spent, State.updGang, State.wg_updWg_ne _ _ hu, hothers u hu, State.wg_updWg_ne _ _ hu]

/-- A body has changed its workgroup alone, and of it neither gangs nor the window nor registers other than the destinations `ds`. -/
structure BodyActed (s s1 : State) (t : Nat) (ds : List (Sel × Nat)) : Prop where
  rest : s1 = { taken s with wgs := s1.wgs }
  others : ∀ u, u ≠ t → s1.wg u = s.wg u
  gangs : (s1.wg t).gangs = (s.wg t).gangs
  win : (s1.wg t).win = (s.wg t).win
  regs : RegsKept s s1 t ds

/-- An instruction whose body acts within its workgroup acts, and the close of the instruction adds nothing to what the body did. -/
theorem laneIssue_acted {s : State} {t : Nat} {g : Gang} {r : ClauseRun} {i : Instr} {es : List ApprEntry}
    (h : Ready s t g r i es) {body : Env → Res} {s1 : State} {vals : List (Nat × Dword)} {ds : List (Sel × Nat)}
    (hb : body (opEnv s t g r es) = .ok s1 vals) (ha : BodyActed s s1 t ds) :
    ∃ s', laneIssue i body s = .next s' ∧ Acted s s' t g r i ds ∧ Closed (s1.wg t) (s'.wg t) := by
  have hg : (s1.wg t).gang? g.id = some g := by
    unfold Workgroup.gang?
    rw [ha.gangs]
    exact h.gang
  obtain ⟨s', hs, hwent, hcl, hrest, hothers⟩ := laneIssue_closed h hb hg
  have hother : ∀ u, u ≠ t → s'.wg u = s.wg u := fun u hu => (hothers u hu).trans (ha.others u hu)
  refine ⟨s', hs, ⟨hwent, ⟨?_, hother⟩, ⟨?_, ?_, ?_⟩, ?_⟩, hcl⟩
  · rw [hrest, ha.rest]
    rfl
  · intro l n hn
    rw [hcl.reg, ha.regs.regs l n hn]
  · intro l
    rw [hcl.lane]
    exact ha.regs.flags l
  · intro c n hn
    rw [hcl.crew]
    exact ha.regs.uniform c n hn
  · intro u a
    by_cases hu : u = t
    · subst hu
      rw [hcl.rest]
      exact congrArg (fun m => SMap.get m a) ha.win
    · rw [hother u hu]

/-- A body that writes the result of its lanes, and does no more. -/
theorem BodyActed.of_writeSel {s : State} {t : Nat} {d : Sel} {k : Nat} {vals : List (Nat × List Word)}
    (hk : ∀ p ∈ vals, p.2.length = k) :
    BodyActed s ((taken s).updWg t fun w => w.writeSel s.free d vals) t [(d, k)] := by
  have ht := Touch.writeSel (ls := vals.map (·.1)) (k := k) (s.wg t) s.free d vals
    fun p hp => ⟨List.mem_map_of_mem hp, hk p hp⟩
  have hwg : ((taken s).updWg t fun w => w.writeSel s.free d vals).wg t = (s.wg t).writeSel s.free d vals := State.wg_updWg_self ..
  refine ⟨rfl, fun u hu => State.wg_updWg_ne _ _ hu, ?_, ?_, ⟨fun l n hn => ?_, fun l => ?_, fun c n hn => ?_⟩⟩ <;> rw [hwg]
  · exact ht.gangs
  · rw [ht.rest]
  · exact ht.regs l n (hn _ (List.mem_singleton.2 rfl))
  · refine ⟨Workgroup.writeSel_p .., Workgroup.writeSel_cf .., ?_⟩
    rw [ht.lane l]
  · exact ht.uniform c n (hn _ (List.mem_singleton.2 rfl))

/-- A trap of lanes, taken at once by an instruction whose traps undo its pops. -/
theorem laneIssue_trapped {s : State} {t : Nat} {g : Gang} {r : ClauseRun} {i : Instr} {es : List ApprEntry}
    (h : Ready s t g r i es) (hk : keepsPops i = false) {body : Env → Res} {cause : Nat} {ls : List Nat}
    (hb : body (opEnv s t g r es) = (opEnv s t g r es).trap cause ls) :
    laneIssue i body s = .next (trapped s t g r cause ls) := by
  rw [laneIssue_ready h body, ← opEnv, hb]
  simp only [Env.trap, State.settleRes, hk, Bool.false_and, Bool.false_eq_true, if_false]
  rfl

/-! ### Instructions that act for the one crew of their lanes -/

/-- Lanes of one crew do not mix crews. -/
theorem Env.mixed_eq_false {e : Env} {c : Nat} (h : ∀ l ∈ e.ls, (e.w.lane l).crew = some c) : e.mixed = false := by
  have hone : (dedup (e.ls.filterMap fun l => (e.w.lane l).crew)).length ≤ 1 := by
    refine length_dedup_le_one fun x hx y hy => ?_
    obtain ⟨l, hl, hxl⟩ := List.mem_filterMap.1 hx
    obtain ⟨m, hm, hym⟩ := List.mem_filterMap.1 hy
    exact Option.some.inj ((hxl.symm.trans (h l hl)).trans ((h m hm).symm.trans hym))
  unfold Env.mixed Workgroup.crewsOf
  rw [decide_eq_false_iff_not, length_sortNat]
  omega

/-- No lane is crewless where all are in one crew. -/
theorem Env.crewless_eq_nil {e : Env} {c : Nat} (h : ∀ l ∈ e.ls, (e.w.lane l).crew = some c) : e.crewless = [] :=
  List.filter_eq_nil_iff.2 fun l hl => by simp [Env.crewOf, h l hl]

/-- Where all lanes are in crew `c`, an instruction that acts for its crew acts for `c` and the lowest lane. -/
theorem crewBody_inCrew {s : State} {t : Nat} {g : Gang} {r : ClauseRun} {c : Nat} (h : InCrew s t g r c) (es : List ApprEntry)
    (k : Nat → Nat → Res) : crewBody k (opEnv s t g r es) = k c ((execLanes g r).headD 0) := by
  obtain ⟨hne, hcrew⟩ := h
  obtain ⟨low, rest, hls⟩ := List.exists_cons_of_ne_nil hne
  have hin : ∀ l ∈ (opEnv s t g r es).ls, ((opEnv s t g r es).w.lane l).crew = some c := hcrew
  have hlow : (opEnv s t g r es).crewOf low = some c := hcrew low (by simp [hls])
  have hls' : (opEnv s t g r es).ls = low :: rest := hls
  simp [crewBody, hls', Env.crewless_eq_nil hin, Env.mixed_eq_false hin, hlow, hls]

end Sys2Proof.Machine
end

section
/-! SUPPORT. BEXPECT and BTEST (spec/12 R291, R294): what each does to the barrier registers, and the statements about them. -/

namespace Sys2Proof.Machine

open Sys2Proof Sys2Proof.Safety

/-! ### R291: BEXPECT -/

/-- The end of a cycle merges what has been added to what the cycle had brought before. -/
theorem Barrier.cycleEnd_add (k : Barrier) (a : Nat) (b : Int) (e : Nat) :
    (k.add a b e).cycleEnd =
      { k.merge (k.cyArr + a) (k.cyBytes + b) (k.cyExp + e) with due := false, cyArr := 0, cyDep := 0, cyBytes := 0, cyExp := 0 } := by
  cases hi : k.init with
  | false => simp [Barrier.cycleEnd, Barrier.merge, Barrier.add, hi]
  | true =>
    by_cases hp : k.pendarr.toNat - (k.cyArr + a) = 0 ∧
      signedOf 32 k.pendbytes.toNat - (k.cyBytes + b) + ((k.cyExp + e : Nat) : Int) ≤ 0
    · simp only [Barrier.cycleEnd, Barrier.merge, Barrier.add, hi, hp, and_self, if_true, Bool.true_eq_false, if_false]
    · simp only [Barrier.cycleEnd, Barrier.merge, Barrier.add, hi, hp, if_true, Bool.true_eq_false, if_false]

/-- What BEXPECT makes of its workgroup: `n` bytes more are expected of register `k`, and the regions of its lanes are closed. -/
def Workgroup.expect (w : Workgroup) (k n : Nat) (ls : List Nat) : Workgroup :=
  ({ w with barriers := w.barriers.upd k fun x => x.add 0 0 n } : Workgroup).closeRegion ls

theorem Workgroup.expect_rest (w : Workgroup) (k n : Nat) (ls : List Nat) : w.expect k n ls =
    { w with lanes := (w.expect k n ls).lanes, barriers := w.barriers.upd k fun x => x.add 0 0 n } :=
  Workgroup.closeRegion_rest ..

theorem Workgroup.lane_expect (w : Workgroup) (k n : Nat) (ls : List Nat) (l : Nat) :
    (w.expect k n ls).lane l = { w.lane l with opened := ((w.expect k n ls).lane l).opened } := by
  unfold Workgroup.expect
  rw [Workgroup.lane_closeRegion]
  split <;> rfl

/-- The state in which BEXPECT has added `n` expected bytes to register `k`, in lanes `ls`. -/
def State.expectBytes (s : State) (t k n : Nat) (ls : List Nat) : State :=
  ((taken s).updWg t fun w => { w with barriers := w.barriers.upd k fun x => x.add 0 0 n }).updWg t fun w => w.closeRegion ls

theorem State.wg_expectBytes (s : State) (t k n : Nat) (ls : List Nat) : (State.expectBytes s t k n ls).wg t = (s.wg t).expect k n ls := by
  simp [State.expectBytes, Workgroup.expect]

theorem BodyActed.of_expectBytes (s : State) (t k n : Nat) (ls : List Nat) : BodyActed s (State.expectBytes s t k n ls) t [] := by
  have hcrew : ∀ c, ((s.wg t).expect k n ls).crew c = (s.wg t).crew c := fun c => by
    rw [Workgroup.expect_rest]
    rfl
  refine ⟨rfl, fun u hu => (State.wg_updWg_ne _ _ hu).trans (State.wg_updWg_ne _ _ hu), ?_, ?_,
    ⟨fun l n _ => ?_, fun l => ?_, fun c n _ => ?_⟩⟩ <;> rw [State.wg_expectBytes]
  · rw [Workgroup.expect_rest]
  · rw [Workgroup.expect_rest]
  · rw [Workgroup.lane_expect]
    rfl
  · rw [Workgroup.lane_expect]
    exact ⟨rfl, rfl, rfl⟩
  · rw [hcrew]

/-- BEXPECT where all lanes are in one crew: the bytes are those of the lowest lane. -/
theorem bexpectBy_inCrew {s : State} {t : Nat} {g : Gang} {r : ClauseRun} {c : Nat} (h : InCrew s t g r c) (es : List ApprEntry)
    (k : Nat) (bytes : Nat → Nat) : bexpectBy k bytes (opEnv s t g r es) =
      if ((s.wg t).barriers.get k).init = false then (opEnv s t g r es).trap 0x61 (execLanes g r)
      else .ok (State.expectBytes s t k (bytes ((execLanes g r).headD 0)) (execLanes g r)) [] :=
  crewBody_inCrew h es _

/-- What the bytes that BEXPECT adds do to their register, to the merge of its cycle, and to the other registers. -/
theorem get_addExpected (m : SMap Barrier) (k n : Nat) :
    let b := m.get k
    let m' := m.upd k fun x => x.add 0 0 n
    m'.get k = { b with due := true, cyExp := b.cyExp + n } ∧
      (m'.get k).cycleEnd =
        { b.merge b.cyArr b.cyBytes (b.cyExp + n) with due := false, cyArr := 0, cyDep := 0, cyBytes := 0, cyExp := 0 } ∧
      ∀ j, j ≠ k → m'.get j = m.get j := by
  refine ⟨?_, ?_, fun j hj => SMap.get_upd_ne _ _ hj⟩
  · simp [Barrier.add]
  · simp [Barrier.cycleEnd_add]

/-- Each form of BEXPECT, where the gang stands ready: the `n` bytes of the lowest lane join the contributions of the cycle. -/
theorem bexpect_settles {s : State} {t : Nat} {g : Gang} {r : ClauseRun} {i : Instr} {es : List ApprEntry} {k c n : Nat}
    {body : Env → Res} {bytes : Nat → Nat} (hk : keepsPops i = false)
    (hbody : body (opEnv s t g r es) = bexpectBy k bytes (opEnv s t g r es)) (hn : bytes ((execLanes g r).headD 0) = n)
    (h : Ready s t g r i es) (hc : InCrew s t g r c) :
    let b := (s.wg t).barriers.get k
    (b.init = true → ∃ s', laneIssue i body s = .next s' ∧ Acted s s' t g r i [] ∧
      (s'.wg t).barriers.get k = { b with due := true, cyExp := b.cyExp + n } ∧
      ((s'.wg t).barriers.get k).cycleEnd =
        { b.merge b.cyArr b.cyBytes (b.cyExp + n) with due := false, cyArr := 0, cyDep := 0, cyBytes := 0, cyExp := 0 } ∧
      ∀ j, j ≠ k → (s'.wg t).barriers.get j = (s.wg t).barriers.get j) ∧
    (b.init = false → laneIssue i body s = .next (trapped s t g r 0x61 (execLanes g r))) := by
  have hb := hbody.trans (bexpectBy_inCrew hc es k bytes)
  rw [hn] at hb
  refine ⟨fun hi => ?_, fun hi => ?_⟩
  · rw [hi, if_neg (by decide)] at hb
    obtain ⟨s', hs, hact, hcl⟩ := laneIssue_acted h hb (BodyActed.of_expectBytes ..)
    have hbar : (s'.wg t).barriers = (s.wg t).barriers.upd k fun x => x.add 0 0 n := by
      rw [hcl.rest, State.wg_expectBytes, Workgroup.expect_rest]
    refine ⟨s', hs, hact, ?_⟩
    rw [hbar]
    exact get_addExpected ..
  · rw [if_pos hi] at hb
    exact laneIssue_trapped h hk hb

/-- A plain integer operand of a lane, as a number. -/
theorem int32_toNat_operand (s : State) (t : Nat) (g : Gang) (r : ClauseRun) (es : List ApprEntry) (a : Sel) (l : Nat) :
    ((opEnv s t g r es).int32 l a 0 0).toNat = operand s t g r es [.int .u32 a] l 0 := by
  unfold Env.int32
  rw [BitVec.toNat_setWidth]
  exact Nat.mod_eq_of_lt (Env.opd_int_lt ..)

/-- Settles O25: in both forms the bytes of the lowest lane are added to the contributions of the cycle, and the end of the cycle
merges them. -/
theorem barrierExpectsBytes : Obligations.BarrierExpectsBytes := by
  unfold Obligations.BarrierExpectsBytes
  intro s t g r es k c b expects
  refine ⟨fun imm => ?_, fun a => ?_⟩
  · exact bexpect_settles (body := bexpectBody k imm) rfl rfl rfl
  · exact bexpect_settles (body := bexpectRegBody k a) rfl rfl (int32_toNat_operand ..)

/-! ### R294: BTEST -/

/-- Marks that leave numbers alone leave every crew's items in flight, by number. -/
theorem Workgroup.flight_mark (w : Workgroup) {mark : FlightItem → FlightItem} (hid : ∀ i, (mark i).id = i.id) (m : Nat) :
    (({ w with crews := w.crews.map fun c => (c.1, { c.2 with flight := c.2.flight.map mark }) } : Workgroup).crew m).flight.map
      (·.id) = (w.crew m).flight.map (·.id) := by
  have hget := SMap.get_map w.crews (fun c => { c with flight := c.flight.map mark }) m rfl
  refine (congrArg (fun c : Crew => c.flight.map (·.id)) hget).trans ?_
  rw [List.map_map]
  exact List.map_congr_left fun i _ => hid i

/-- Writing a register leaves every crew's items in flight, by number. -/
theorem Workgroup.flight_writeReg (w : Workgroup) (free l c : Nat) (v : Word) (m : Nat) :
    ((w.writeReg free l c v).crew m).flight.map (·.id) = (w.crew m).flight.map (·.id) := by
  unfold Workgroup.writeReg
  dsimp only
  split
  · split <;> rfl
  · rw [Workgroup.flight_mark _ fun i => by split <;> rfl]
    split <;> rfl

/-- Writing a result leaves every crew's items in flight, by number. -/
theorem Workgroup.flight_writeSel (w : Workgroup) (free : Nat) (d : Sel) (vals : List (Nat × List Word)) (m : Nat) :
    ((w.writeSel free d vals).crew m).flight.map (·.id) = (w.crew m).flight.map (·.id) := by
  unfold Workgroup.writeSel
  split
  case h_1 n =>
    split
    · rfl
    · split
      · rw [Workgroup.crew_updCrew]
        split
        · next hm => rw [hm]
        · rfl
      · rfl
  case h_2 =>
    split
    · rfl
    · unfold overList
      refine List.foldlRecOn (motive := fun x : Workgroup => (x.crew m).flight.map (·.id) = (w.crew m).flight.map (·.id)) _ _ rfl
        fun x hx p _ => ?_
      refine List.foldlRecOn (motive := fun y : Workgroup => (y.crew m).flight.map (·.id) = (w.crew m).flight.map (·.id)) _ _ hx
        fun y hy q _ => ?_
      rw [Workgroup.flight_writeReg, hy]

/-- A word of a barrier register is a word. -/
theorem Barrier.word_lt (b : Barrier) (par : Bool) (i : Nat) : b.word par i < 2 ^ 32 := by
  have hbit : ∀ (x : Bool) (n : Nat), (if x then 2 ^ n else 0) ≤ 2 ^ n := fun x n => by cases x <;> simp
  unfold Barrier.word
  dsimp only
  split
  · have := b.phase.isLt
    have := b.pendarr.isLt
    have := hbit b.init 16
    have := hbit b.early 17
    have := hbit b.overflow 18
    have := hbit (b.phase.getLsbD 0 != par) 19
    omega
  · exact b.pendbytes.isLt
  · have := b.exparr.isLt
    have := b.bcrew.isLt
    have := hbit b.bound 12
    omega
  · exact b.expbytes.isLt

/-- A word that an instruction writes to every lane, as a body puts it, is a result of one register. -/
theorem putAll_opEnv (s : State) (t : Nat) (g : Gang) (r : ClauseRun) (es : List ApprEntry) (d : Sel) (x : Nat) :
    (taken s).putAll (opEnv s t g r es) d x = (taken s).updWg t fun w =>
      w.writeSel s.free d ((execLanes g r).map fun l => (l, splitWords 1 (BitVec.ofNat 64 x))) := by
  have hx : splitWords 1 (BitVec.ofNat 64 x) = [BitVec.ofNat 32 x] := by
    simp [splitWords, BitVec.setWidth_ofNat_of_le]
  rw [hx]
  rfl

/-- Settles O28: the word that R294 selects goes to the destination of every lane, and BTEST writes nothing else. -/
theorem barrierWordsRead : Obligations.BarrierWordsRead := by
  unfold Obligations.BarrierWordsRead
  intro s t g r es k word c d i b f h hc
  let x := b.word (((s.wg t).lane ((execLanes g r).headD 0)).wpar.getLsbD k) word
  let val : Nat → Dword := fun _ => BitVec.ofNat 64 x
  let vals := (execLanes g r).map fun l => (l, splitWords 1 (val l))
  have hlen : ∀ p ∈ vals, p.2.length = 1 := by
    intro p hp
    obtain ⟨l, -, rfl⟩ := List.mem_map.1 hp
    exact splitWords_length (.inl rfl) _
  have hb : btestBody k word d (opEnv s t g r es) = .ok ((taken s).updWg t fun w => w.writeSel s.free d vals) [] :=
    (crewBody_inCrew hc es _).trans (congrArg (Res.ok · []) (putAll_opEnv s t g r es d x))
  obtain ⟨s', hs, hact, hcl⟩ := laneIssue_acted h hb (BodyActed.of_writeSel hlen)
  rw [State.wg_updWg_self, Safety.taken_wg] at hcl
  have ht := Touch.writeSel (ls := vals.map (·.1)) (k := 1) (s.wg t) s.free d vals
    fun p hp => ⟨List.mem_map_of_mem hp, hlen p hp⟩
  refine ⟨s', val, hs, hact, ?_, ?_, fun l => ?_, fun m => ?_, fun l _ => ?_⟩
  · have hhold := Workgroup.writeSel_holds (s.wg t) s.free d 1 (.inl rfl) (execLanes g r) (lanesOf_nodup ..) val
    exact Safety.Holds.congr hhold (fun _ => rfl) rfl hcl.reg fun m => by rw [hcl.crew]
  · rw [hcl.rest, ht.rest]
  · rw [hcl.lane, ht.lane]
  · rw [hcl.crew]
    exact Workgroup.flight_writeSel ..
  · have hx : (val l).toNat = x := Nat.mod_eq_of_lt (Nat.lt_trans (b.word_lt ..) (by decide))
    exact hx

end Sys2Proof.Machine
end

section
/-! SUPPORT. Sweep instructions and the entry they name (spec/13 R316, R319, R322): what SWDEREG, SWWAIT and SWFORCE do where the entry
is FREE or of another domain, and what the freeing of an entry does to a gang that waits for it. -/

namespace Sys2Proof.Machine

open Sys2Proof Sys2Proof.Safety

/-! ### R316: the record of a sweep instruction -/

/-- What an instruction reads its operands from once what it found has left state `b`. -/
def Env.inState (e : Env) (b : State) : Env := { e with s := b }

/-- Where its record is found, an instruction that uses one goes on in the state that this leaves. -/
theorem Env.withRec_found {e : Env} {c idx : Nat} {more : State → Nat → List Span} {b : State} (h : Found e c idx more b)
    (k : Env → Res) : e.withRec c idx more k = k (e.inState b) := by
  obtain ⟨s0, hwalk, rfl, -⟩ := h
  unfold Walked at hwalk
  simp only [Env.withRec, Env.walked, hwalk]
  rfl

/-- A trap of lanes, taken from the state that the instruction's record has left. -/
theorem laneIssue_trappedFrom {s b : State} {t : Nat} {g : Gang} {r : ClauseRun} {i : Instr} {es : List ApprEntry}
    (h : Ready s t g r i es) (hk : keepsPops i = false) {body : Env → Res} {cause : Nat} {ls : List Nat}
    (hb : body (opEnv s t g r es) = ((opEnv s t g r es).inState b).trap cause ls) :
    laneIssue i body s = .next (trappedFrom b s t g r cause ls) := by
  rw [laneIssue_ready h body, ← opEnv, hb]
  simp only [Env.trap, State.settleRes, hk, Bool.false_and, Bool.false_eq_true, if_false]
  rfl

/-- A gang whose instruction parks waits. -/
theorem laneIssue_parked {s b : State} {t : Nat} {g : Gang} {r : ClauseRun} {i : Instr} {es : List ApprEntry}
    (h : Ready s t g r i es) {body : Env → Res} {k : Park} {pd : Pend} (hb : body (opEnv s t g r es) = .park b k pd)
    (hg : (b.wg t).gang? g.id = some g) :
    ∃ s', laneIssue i body s = .next s' ∧ ∃ g', (s'.wg t).gang? g.id = some g' ∧ g'.park = some k := by
  have hlk : (opEnv s t g r es).holders = [] := Env.holders_nil (e := opEnv s t g r es) h.unlocked
  have hset : State.settleRes (opEnv s t g r es) i (.park b k pd) =
      b.updGang t g.id fun g => { g with park := some k, moved := true, clause := some { r with pend := pd } } := by
    simp only [State.settleRes, hlk]
    rfl
  have hfind := State.gang_updGang b (t := t) (g := g.id)
    (fun g => { g with park := some k, moved := true, clause := some { r with pend := pd } }) fun _ => rfl
  rw [hg] at hfind
  rw [laneIssue_ready h body, ← opEnv, hb, hset]
  exact ⟨_, rfl, _, hfind, rfl⟩

/-- The entry that a sweep instruction names, by the index that it reads once the walks of its record have left state `b`. -/
def namedEntry (b s : State) (t : Nat) (g : Gang) (r : ClauseRun) (es : List ApprEntry) (q x : Sel) : Nat :=
  ((opEnv s t g r es).inState b).entryIdx ((execLanes g r).headD 0) q x

section
variable {s b : State} {t : Nat} {g : Gang} {r : ClauseRun} {es : List ApprEntry} {q x : Sel} {c p : Nat}

/-- Where its record is found and names pseudo-channel `p`, a sweep instruction acts on `p` unless another crew holds it. -/
theorem sweepBody_at (h : SweepAt s t g r es q c p b) (waiting : Bool) (f : Nat → Nat → Nat → Env → Res) :
    sweepBody q waiting f (opEnv s t g r es) =
      if waiting = false ∧ (b.pch p).heldByOther (t, c) then ((opEnv s t g r es).inState b).trap 0x90 (execLanes g r)
      else f c ((execLanes g r).headD 0) p ((opEnv s t g r es).inState b) := by
  obtain ⟨hcrew, hfound, ws, k, hrec, hcheck, hkind, rfl⟩ := h
  rw [← int32_toNat_operand] at hfound hrec hcheck
  have hs : ((opEnv s t g r es).inState b).s = b := rfl
  have hw : ((opEnv s t g r es).inState b).w = s.wg t := rfl
  have hdom : (opEnv s t g r es).w = s.wg t := rfl
  rw [sweepBody, crewBody_inCrew hcrew]
  cases hdesc : b.descUse (s.wg t).core ((s.wg t).crew c).domain
  all_goals
    simp only [hdesc] at hcheck
    simp only [Env.withRec_found hfound, hs, hw, hdom, hrec, hdesc, hcheck, hkind, ne_eq, not_true_eq_false, if_false]
    rfl

/-- Where no other crew holds it, the pseudo-channel is not BANK_BUSY. -/
theorem sweepBody_free (h : SweepAt s t g r es q c p b) (hheld : (b.pch p).heldByOther (t, c) = false) (waiting : Bool)
    (f : Nat → Nat → Nat → Env → Res) :
    sweepBody q waiting f (opEnv s t g r es) = f c ((execLanes g r).headD 0) p ((opEnv s t g r es).inState b) := by
  rw [sweepBody_at h, if_neg (by simp [hheld])]

/-! ### R322: an entry that is FREE or of another domain -/

theorem Pch.entryOf_eq_none {a : Pch} {dom k : Nat} :
    a.entryOf dom k = none ↔ (a.table.get k).state = 0 ∨ (a.table.get k).domain ≠ dom := by
  simp only [Pch.entryOf, ite_eq_left_iff, reduceCtorEq, imp_false, not_not]

/-- The entry as the meanings of sweep instructions look it up. -/
theorem entryOf_named : (((opEnv s t g r es).inState b).s.pch p).entryOf (((opEnv s t g r es).inState b).w.crew c).domain
    (((opEnv s t g r es).inState b).entryIdx ((execLanes g r).headD 0) q x) =
      (b.pch p).entryOf ((s.wg t).crew c).domain (namedEntry b s t g r es q x) := rfl

theorem swderegBody_refused (h : SweepAt s t g r es q c p b) (hheld : (b.pch p).heldByOther (t, c) = false)
    (hno : (b.pch p).entryOf ((s.wg t).crew c).domain (namedEntry b s t g r es q x) = none) :
    swderegBody q x (opEnv s t g r es) = ((opEnv s t g r es).inState b).trap 0x93 (execLanes g r) := by
  rw [swderegBody, sweepBody_free h hheld]
  simp only [entryOf_named, hno]
  rfl

theorem swforceBody_refused (h : SweepAt s t g r es q c p b) (hheld : (b.pch p).heldByOther (t, c) = false)
    (hno : (b.pch p).entryOf ((s.wg t).crew c).domain (namedEntry b s t g r es q x) = none) :
    swforceBody q x (opEnv s t g r es) = ((opEnv s t g r es).inState b).trap 0x93 (execLanes g r) := by
  rw [swforceBody, sweepBody_free h hheld]
  simp only [entryOf_named, hno]
  rfl

/-- A wait that starts has no rows from an earlier issue. -/
theorem sweeps_of_pend_none (hp : r.pend = .none) : ((opEnv s t g r es).inState b).run.pend.sweeps = none :=
  congrArg Pend.sweeps hp

theorem swwaitBody_refused (h : SweepAt s t g r es q c p b) (hheld : (b.pch p).heldByOther (t, c) = false) (hp : r.pend = .none)
    (hno : (b.pch p).entryOf ((s.wg t).crew c).domain (namedEntry b s t g r es q x) = none) :
    swwaitBody q (some x) (opEnv s t g r es) = ((opEnv s t g r es).inState b).trap 0x93 (execLanes g r) := by
  rw [swwaitBody, sweepBody_free h hheld]
  simp only [sweeps_of_pend_none hp, entryOf_named, hno, Option.map_none]
  rfl

/-- R319: a wait for an entry of the crew's domain that has rows to wait for parks. -/
theorem swwaitBody_parks (h : SweepAt s t g r es q c p b) (hheld : (b.pch p).heldByOther (t, c) = false) (hp : r.pend = .none)
    {y : SweepEntry} (hy : (b.pch p).entryOf ((s.wg t).crew c).domain (namedEntry b s t g r es q x) = some y) (hrows : y.waitRows ≠ []) :
    swwaitBody q (some x) (opEnv s t g r es) = .park b (.sweepWait p) (.sweep [(namedEntry b s t g r es q x, y.waitRows)]) := by
  rw [swwaitBody, sweepBody_free h hheld]
  simp only [sweeps_of_pend_none hp, entryOf_named, hy, Option.map_some, List.all_cons, List.all_nil, Bool.and_true, List.isEmpty_iff,
    hrows, if_false]
  rfl

/-- R319: a wait for one entry that is left with no entry to wait for finds that its entry has been freed. -/
theorem swwaitBody_freed (h : SweepAt s t g r es q c p b) (hp : r.pend = .sweep []) :
    swwaitBody q (some x) (opEnv s t g r es) = ((opEnv s t g r es).inState b).trap 0x93 (execLanes g r) := by
  have hwaits : (opEnv s t g r es).run.pend.sweeps = some [] := congrArg Pend.sweeps hp
  have hsweeps : ((opEnv s t g r es).inState b).run.pend.sweeps = some [] := hwaits
  rw [swwaitBody, sweepBody_at h, if_neg (by simp [hwaits])]
  simp only [hsweeps, Option.isSome_some, and_self, if_true]
  rfl

/-- SWDEREG, SWWAIT and SWFORCE trap with SWEEP_TABLE where the entry that they name, by the index that they read after the walks of
their record, is FREE or of another domain; and so does a wait whose entry has been freed. -/
theorem sweepTable_guarded {i : Instr} (hi : i = .swdereg q x ∨ i = .swwait q (some x) ∨ i = .swforce q x) (h : Ready s t g r i es)
    (hat : SweepAt s t g r es q c p b) :
    let y := (b.pch p).table.get (namedEntry b s t g r es q x)
    ((b.pch p).heldByOther (t, c) = false → r.pend = .none → y.state = 0 ∨ y.domain ≠ ((s.wg t).crew c).domain →
      exec i s = .next (trappedFrom b s t g r 0x93 (execLanes g r))) ∧
    (i = .swwait q (some x) → r.pend = .sweep [] → exec i s = .next (trappedFrom b s t g r 0x93 (execLanes g r))) := by
  intro y
  refine ⟨fun hheld hpend hy => ?_, fun hwait hpend => ?_⟩
  · have hno := Pch.entryOf_eq_none.2 hy
    obtain rfl | rfl | rfl := hi
    · exact laneIssue_trappedFrom h rfl (swderegBody_refused hat hheld hno)
    · exact laneIssue_trappedFrom h rfl (swwaitBody_refused hat hheld hpend hno)
    · exact laneIssue_trappedFrom h rfl (swforceBody_refused hat hheld hno)
  · subst hwait
    exact laneIssue_trappedFrom h rfl (swwaitBody_freed hat hpend)

end

/-! ### R319: the freeing of an entry -/

/-- What the freeing of entry `i` of pseudo-channel `g` does to a gang: a wait counts the entry no more, unless it has seen all rows
of it. -/
def Gang.entryFreed (x : Gang) (g i : Nat) : Gang :=
  match x.park, x.clause with
  | some (.sweepWait h), some r =>
    if h ≠ g then x else
    match r.pend with
    | .sweep es => { x with clause := some { r with pend := .sweep (es.filter fun e => e.1 != i || e.2.isEmpty) } }
    | _ => x
  | _, _ => x

@[simp] theorem Gang.entryFreed_id (x : Gang) (g i : Nat) : (x.entryFreed g i).id = x.id := by
  unfold Gang.entryFreed
  split
  · split
    · rfl
    · split <;> rfl
  · rfl

theorem Gang.entryFreed_wait {x : Gang} {r : ClauseRun} {g i : Nat} {rows : List Nat} (hp : x.park = some (.sweepWait g))
    (hc : x.clause = some r) (hr : r.pend = .sweep [(i, rows)]) :
    (x.entryFreed g i).clause = some { r with pend := if rows = [] then .sweep [(i, rows)] else .sweep [] } := by
  cases rows <;> simp [Gang.entryFreed, hp, hc, hr]

/-- A change of every gang that leaves their numbers alone finds each of them changed. -/
theorem State.gang_overGangs (s : State) {f : Gang → Gang} (hf : ∀ x, (f x).id = x.id) (u k : Nat) :
    ((s.overGangs f).wg u).gang? k = ((s.wg u).gang? k).map f := by
  have hwg : (s.overGangs f).wg u = { s.wg u with gangs := (s.wg u).gangs.map f } :=
    SMap.get_map s.wgs (fun w => { w with gangs := w.gangs.map f }) u rfl
  have hid : ((fun x : Gang => x.id == k) ∘ f) = fun x => x.id == k := funext fun x => by simp [hf]
  rw [hwg]
  simp only [Workgroup.gang?, List.find?_map, hid]

theorem State.gang_freeEntry (s : State) (p k u n : Nat) :
    ((s.freeEntry p k).wg u).gang? n = ((s.wg u).gang? n).map fun x => x.entryFreed p k :=
  State.gang_overGangs _ (fun x => x.entryFreed_id p k) u n

/-- A gang parked in a wait for one entry, when that is freed: it is left with no entry to wait for, unless it has seen every row. -/
theorem freeEntry_leavesWait {s : State} {u p k : Nat} {x : Gang} {r : ClauseRun} {rows : List Nat}
    (hx : (s.wg u).gang? x.id = some x) (hp : x.park = some (.sweepWait p)) (hc : x.clause = some r) (hr : r.pend = .sweep [(k, rows)]) :
    ∃ x', ((s.freeEntry p k).wg u).gang? x.id = some x' ∧
      x'.clause = some { r with pend := if rows = [] then .sweep [(k, rows)] else .sweep [] } := by
  rw [State.gang_freeEntry, hx]
  exact ⟨_, rfl, Gang.entryFreed_wait hp hc hr⟩

end Sys2Proof.Machine
end

section
/-! SUPPORT. What the statement O30 rests on. It takes the index of the entry as the instruction reads it before the walks of its
record; the machine reads the index after them. The two differ where the index stands in a register whose load has landed and is not
yet counted complete (spec/08 R174): the free bit that chooses between its values is numbered by a counter, and the loads that the
walks perform first move that counter. So O30 holds where the free bits agree, and fails where two of them differ. `Config.freeBool` is
opaque: neither O30 nor its negation follows from the model. -/

namespace Sys2Proof.Machine

open Sys2Proof Sys2Proof.Safety

/-! ### Where the free bits agree -/

/-- The free bits by which the index of an entry is read are one: its operand's number starts at 16384. -/
def IndexBitsAgree : Prop := ∀ n, Config.freeBool (n + 16384) = Config.freeBool 16384

/-- What has moved the counter of the free bits then changes no register that is read as an index. -/
theorem IndexBitsAgree.readReg (h : IndexBitsAgree) (a b : State) (w : Workgroup) (l code : Nat) :
    a.readReg w l code (4096 * (4 + 0) + l) = b.readReg w l code (4096 * (4 + 0) + l) := by
  have hbit (m : Nat) : Config.freeBool (m + (4096 * (4 + 0) + l)) = Config.freeBool 16384 := by
    rw [← h (m + l)]
    congr 1
    omega
  simp only [State.readReg, hbit]

theorem IndexBitsAgree.word32 (h : IndexBitsAgree) (e : Env) (b : State) (l : Nat) (x : Sel) (j : Nat) :
    (e.inState b).word32 l x 0 j 4 = e.word32 l x 0 j 4 := by
  cases x with
  | v n => exact h.readReg ..
  | o n => exact h.readReg ..
  | _ => rfl

theorem IndexBitsAgree.namedEntry (h : IndexBitsAgree) (b s : State) (t : Nat) (g : Gang) (r : ClauseRun) (es : List ApprEntry)
    (q x : Sel) : namedEntry b s t g r es q x = (opEnv s t g r es).entryIdx ((execLanes g r).headD 0) q x := by
  unfold Machine.namedEntry Env.entryIdx Env.int32 Env.opd
  simp only [h.word32]
  rfl

theorem sweepTableIsGuarded_of_indexBitsAgree (h : IndexBitsAgree) : Obligations.SweepTableIsGuarded := by
  unfold Obligations.SweepTableIsGuarded
  intro s t g r es c p q x i hi hready k
  refine ⟨fun b hat => ?_, fun u x r rows hx hp hc hr => freeEntry_leavesWait hx hp hc hr⟩
  intro y
  have hk : k = Machine.namedEntry b s t g r es q x := (h.namedEntry ..).symm
  have hguard := sweepTable_guarded hi hready hat
  rw [← hk] at hguard
  exact ⟨fun hheld _ hpend hy => hguard.1 hheld hpend hy, hguard.2⟩

/-! ### Where two free bits differ -/

/-- A load of lane 0, an acquire, that is still to be performed; it brings a line into the carve-out. -/
def earlierLoad : FlightItem :=
  { (default : FlightItem) with
    id := 0, path := some .dm, ord := .acquire, scope := .crew, lanes := [(0, 0)]
    op := .load .b32 none [{ lane := 0, spans := [⟨.phys 0x5000, 4⟩], l1 := true, conv := [] }] [] }

/-- A load of lane 0 to v3 that has landed and is not yet counted complete; before it, the register held `old`. -/
def landedLoad (old : Word) : FlightItem :=
  { (default : FlightItem) with
    id := 1, path := some .dm, done := true, lanes := [(0, 0)], op := .nop, dest := [(0, 3)], olds := [(0, 3, old)] }

/-- An ACTIVE entry of bank 0, row 0. -/
def activeEntry : SweepEntry := { (default : SweepEntry) with img0 := 1, state := 1 }

/-- The words of a bank-direct record of pseudo-channel 0. -/
def bankRecord : List Word := [0x40000000, 0x1D000000, 0, 0, 0x10000]

/-- A clause, and a gang of lane 0 that stands in it. -/
def sweepRun : ClauseRun := fetchRun (List.replicate 7 0xF2800000)
def sweepGang : Gang := { (default : Gang) with id := 0, mask := 1, ages := freshAges, clause := some sweepRun }

/-- Lane 0: v7 names the record, and v3 an entry. -/
def sweepLane (v : Bool) : Lane := { (default : Lane) with live := true, crew := some 0, v := [(3, if v then 3 else 1), (7, 7)] }

/-- Entry 3 is ACTIVE and entry 1 FREE; by the free bit `v`, v3 is read as 1, and by the other as 3. -/
def sweepState (v : Bool) : State :=
  { State.reset with
    agenda := [.gang 0 0]
    cores := [(0, { (default : Core) with recs := [⟨.node 0, false, 7, bankRecord, 0x301C0⟩] })]
    pchs := [(0, { (default : Pch) with table := [(3, activeEntry)] })]
    wgs := [(0, { fetchGroup (List.replicate 7 0xF2800000) with
      nrec := 8, l1code := 1, nextItem := 2
      lanes := [(0, sweepLane v)]
      crews := [(0, { (default : Crew) with held := true, flight := [earlierLoad, landedLoad (if v then 1 else 3)] })] })] }

/-- What the instruction reads its operands from there. -/
def sweepEnv (v : Bool) : Env := opEnv (sweepState v) 0 sweepGang sweepRun []

/-- The state that the walks of the record leave: the earlier load has been performed. -/
def sweepFound (v : Bool) : State :=
  ((sweepEnv v).s.translated (sweepEnv v).t (sweepEnv v).ls ((sweepEnv v).recWalk 0 7 fun _ _ => [])).1

theorem execLanes_sweep : execLanes sweepGang sweepRun = [0] := by decide

theorem sweepState_lane {v : Bool} {l : Nat} (hl : l ∈ [0]) : ((sweepState v).wg 0).lane l = sweepLane v := by
  obtain rfl := List.mem_singleton.1 hl
  rfl

theorem sweepState_ready (v : Bool) : Ready (sweepState v) 0 sweepGang sweepRun (.swwait (.v 7) (some (.v 3))) [] := by
  have hissue : issueLanes sweepGang sweepRun = [0] := by decide
  refine ⟨⟨⟨rfl, rfl, rfl, rfl, rfl⟩, ?_, rfl, ⟨?_, ?_⟩, ?_, rfl, .inl (by decide)⟩, ?_⟩
  · rw [hissue]
    intro l hl c hc
    rw [sweepState_lane hl] at hc
    obtain rfl := Option.some.inj hc
    rfl
  · exact fun huniform => absurd huniform (by decide)
  · exact fun huniform => absurd huniform (by decide)
  · exact fun _ _ _ _ => ⟨rfl, fun hmatrix => absurd hmatrix (by decide)⟩
  · rw [hissue]
    intro l hl
    rw [sweepState_lane hl]
    rfl

theorem sweepFound_gang : ∀ v, ((sweepFound v).wg 0).gang? sweepGang.id = some sweepGang := by decide +kernel

theorem sweepFound_found (v : Bool) : Found (sweepEnv v) 0 7 (fun _ _ => []) (sweepFound v) := by
  have hwalk : ∀ v, Walked (sweepEnv v) ((sweepEnv v).recWalk 0 7 fun _ _ => []) (sweepFound v) := by
    unfold Walked
    decide +kernel
  have huse : ∀ v, sweepFound v = (sweepFound v).recUse (sweepEnv v).w 0 7 := by decide +kernel
  exact ⟨sweepFound v, hwalk v, huse v, sweepFound_gang v⟩

theorem sweepFound_at (v : Bool) : SweepAt (sweepState v) 0 sweepGang sweepRun [] (.v 7) 0 0 (sweepFound v) := by
  have hidx : ∀ v, operand (sweepState v) 0 sweepGang sweepRun [] [.int .u32 (.v 7)] 0 0 % 256 = 7 := by decide +kernel
  have hrec : ∀ v, (sweepFound v).recGet ((sweepState v).wg 0) 0 7 6 = .ok (bankRecord, none) := by decide +kernel
  have hdesc : ∀ v, (sweepFound v).descUse ((sweepState v).wg 0).core (((sweepState v).wg 0).crew 0).domain = none := by
    decide +kernel
  have hdom : ∀ v, (((sweepState v).wg 0).crew 0).domain = 0 := by decide +kernel
  unfold SweepAt InCrew
  rw [execLanes_sweep, List.headD_cons, hidx v]
  refine ⟨⟨by decide, fun l hl => ?_⟩, sweepFound_found v, bankRecord, none, hrec v, ?_, by decide, by decide⟩
  · rw [sweepState_lane hl]
    rfl
  · rw [hdesc v, hdom v]
    decide

/-- The index is read by one free bit, which the counter of the state numbers. -/
theorem sweepEnv_index (v : Bool) (a : State) :
    ((sweepEnv v).inState a).entryIdx 0 (.v 7) (.v 3) = if Config.freeBool (a.free + 16384) = v then 1 else 3 := by
  have hread : ((sweepEnv v).inState a).entryIdx 0 (.v 7) (.v 3) = (a.readReg ((sweepState v).wg 0) 0 3 16384).toNat % 32 := by
    unfold Env.entryIdx Env.int32 Env.opd
    simp only [constInt]
    rw [BitVec.setWidth_setWidth_of_le _ (by decide), BitVec.setWidth_eq]
    rfl
  have hfind : (((sweepState v).wg 0).pendingItems 0 3).find? (fun i => i.done) = some (landedLoad (if v then 1 else 3)) := by
    cases v <;> rfl
  have hold : (landedLoad (if v then 1 else 3)).oldOf 0 3 = some (if v then 1 else 3) := by cases v <;> rfl
  have hcur : (((sweepState v).wg 0).lane 0).reg 3 = if v then 3 else 1 := by cases v <;> rfl
  rw [hread, State.readReg]
  simp only [hfind, hold, hcur]
  cases v <;> cases Config.freeBool (a.free + 16384) <;> rfl

/-- Before the walks, the free bit is 16384's; after them, it is 16385's. -/
theorem sweepState_free : ∀ v, (taken (sweepState v)).free + 16384 = 16384 := by decide +kernel
theorem sweepFound_free : ∀ v, (sweepFound v).free + 16384 = 16385 := by decide +kernel

/-- Nobody holds the pseudo-channel; entry 1 is FREE, and entry 3 is the crew's, with a row to wait for. -/
theorem sweepFound_entries : ∀ v, ((sweepFound v).pch 0).heldByOther (0, 0) = false ∧ (((sweepFound v).pch 0).table.get 1).state = 0 ∧
    ((sweepFound v).pch 0).entryOf (((sweepState v).wg 0).crew 0).domain 3 = some activeEntry := by decide +kernel

/-- The trap leaves no gang 0 that waits. -/
theorem trapped_sweep : ∀ v, (((trappedFrom (sweepFound v) (sweepState v) 0 sweepGang sweepRun 0x93 [0]).wg 0).gang? sweepGang.id).all
    (fun x => x.park != some (.sweepWait 0)) = true := by decide +kernel

/-- Were the two bits to differ, the statement's index would be 1, whose entry is FREE, and the machine's 3: it waits, and does not trap. -/
theorem freeBool_eq_of_sweepTableIsGuarded (h : Obligations.SweepTableIsGuarded) : Config.freeBool 16384 = Config.freeBool 16385 := by
  by_contra hne
  obtain ⟨v, hv⟩ : ∃ v, Config.freeBool 16384 = v := ⟨_, rfl⟩
  have hready := sweepState_ready v
  have hat := sweepFound_at v
  obtain ⟨hheld, hfree, hactive⟩ := sweepFound_entries v
  have hstated : (sweepEnv v).entryIdx ((execLanes sweepGang sweepRun).headD 0) (.v 7) (.v 3) = 1 := by
    have hidx := sweepEnv_index v (taken (sweepState v))
    rw [sweepState_free, if_pos hv] at hidx
    rw [execLanes_sweep]
    exact hidx
  have hnamed : namedEntry (sweepFound v) (sweepState v) 0 sweepGang sweepRun [] (.v 7) (.v 3) = 3 := by
    have hidx := sweepEnv_index v (sweepFound v)
    rw [sweepFound_free, if_neg fun he => hne (hv.trans he.symm)] at hidx
    unfold namedEntry
    rw [execLanes_sweep]
    exact hidx
  have htraps := ((h (sweepState v) 0 sweepGang sweepRun [] 0 0 (.v 7) (.v 3) _ (.inr (.inl rfl)) hready).1 _ hat).1
    hheld (fun hi => nomatch hi) rfl
  rw [← sweepEnv, hstated, execLanes_sweep] at htraps
  obtain ⟨s', hs, g', hg, hpark⟩ := laneIssue_parked hready
    (swwaitBody_parks hat hheld rfl (hnamed ▸ hactive) (by decide +kernel)) (sweepFound_gang v)
  obtain rfl : s' = _ := Host.Outcome.next.inj (hs.symm.trans (htraps (.inl hfree)))
  have hawake := trapped_sweep v
  rw [hg] at hawake
  simp [hpark] at hawake

end Sys2Proof.Machine
end

section
/-! SUPPORT. Instructions that compute a result alone (spec/04 R83, R86, R88, R89): what each computes, and the statement about them. -/

namespace Sys2Proof.Machine

open Sys2Proof Sys2Proof.Safety

-- One proof at a time: side by side they need more threads than a check's memory holds.
set_option Elab.async false

/-! ### Instructions that give a result alone -/

/-- In the turn of a gang, an instruction that Apprentices run too is issued by the gang. -/
theorem bothIssue_gang {s : State} {t g : Nat} (h : s.agenda = .gang t g :: s.agenda.tail) (i : Instr) (body : Env → Res)
    (abody : State → Nat → Nat → Apprentice → ClauseRun → ApprRes) : bothIssue i body abody s = laneIssue i body s := by
  unfold bothIssue
  rw [h]

/-- Instruction `i` computes `f` from the operands `ops` into `d`, and leaves a latch. -/
structure ComputesInto (i : Instr) (ops : List Opd) (d : Dest) (f : LaneIn → LaneOut) : Prop where
  issues : ∀ s t g, s.agenda = .gang t g :: s.agenda.tail → exec i s = laneIssue i (aluBody ops d f) s
  declared : Safety.Declared i d
  latch : i.leavesLatch = true
  conforms : ∀ x, Safety.Conforms i (f x)

theorem ComputesInto.computed {i : Instr} {ops : List Opd} {d : Dest} {f : LaneIn → LaneOut} (hi : ComputesInto i ops d f)
    {s : State} {t : Nat} {g : Gang} {r : ClauseRun} {es : List ApprEntry} (h : Ready s t g r i es) :
    ∃ s', Machine.exec i s = .next s' ∧ Computed s s' t g r i d fun l => f (laneIn s t g r es ops l) := by
  rw [hi.issues s t g.id h.turn, ← bothIssue_ready h]
  exact alu_computed h _ hi.declared hi.conforms hi.latch

/-- It gives a result alone: neither CF nor a predicate, and it can raise no flag and count nothing. -/
structure GivesResult (i : Instr) (ops : List Opd) (d : Dest) (f : LaneIn → LaneOut) : Prop extends ComputesInto i ops d f where
  cf : ∀ x, (f x).cf = none
  pd : ∀ x, (f x).pd = none
  flags : raisesFlags i = false
  sat : saturates i = false
  nan : countsNans i = false

/-- What an instruction that gives a result alone does, where the gang stands ready. -/
theorem GivesResult.gives {i : Instr} {ops : List Opd} {d : Dest} {f : LaneIn → LaneOut} (hi : GivesResult i ops d f)
    {s : State} {t : Nat} {g : Gang} {r : ClauseRun} {es : List ApprEntry} (h : Ready s t g r i es) :
    let val := fun l => (f (laneIn s t g r es ops l)).res
    ∃ s', Machine.exec i s = .next s' ∧ Performed s s' t g r i ∧ FlagsKept s s' t ∧ SummaryKept s s' t ∧
      Holds (s.wg t) (s'.wg t) (execLanes g r) d val ∧ LatchLeft s' t g r val := by
  obtain ⟨s', he, hc⟩ := hi.computed h
  exact ⟨s', he, hc.performed, hc.flagsKept (fun _ => hi.cf _) (fun _ => hi.pd _), hc.summaryKept hi.flags hi.sat hi.nan, hc.holds,
    hc.latch⟩

/-- The computations of an instruction under NW whose lanes give a result alone. -/
theorem givesResult_of_res {i : Instr} {ops : List Opd} {nw : Bool} {q : Sel} {n : Nat} {f : LaneIn → LaneOut}
    (hf : ∀ x, f x = { res := (f x).res }) (hn : n = 1 ∨ n = 2)
    (he : ∀ s, exec i s = alu i ops (dst nw q n) f s := by intros; rfl)
    (hw : i.writes = nwDst (nw && !false) q n := by rfl) (hl : i.leavesLatch = true := by rfl)
    (hflags : raisesFlags i = false := by rfl) (hsat : saturates i = false := by rfl) (hnan : countsNans i = false := by rfl) :
    GivesResult i ops (dst nw q n) f where
  issues s _ _ ht := (he s).trans (bothIssue_gang ht ..)
  declared := declared_dst hw hn
  latch := hl
  conforms x := hf x ▸ conforms_res i _
  cf x := by rw [hf x]
  pd x := by rw [hf x]
  flags := hflags
  sat := hsat
  nan := hnan

/-- An operand that is read as an integer is a word, wherever it stands. -/
theorem operand_lt_of_int (s : State) (t : Nat) (g : Gang) (r : ClauseRun) (es : List ApprEntry) {ops : List Opd} (l : Nat) {k : Nat}
    {ty : IType} {q : Sel} (h : ops[k]? = some (.int ty q)) : operand s t g r es ops l k < 2 ^ 32 := by
  have key : ∀ (ops : List Opd) (j i k : Nat), ops[k]? = some (.int ty q) →
      (((opEnv s t g r es).opds l ops j i).getD k 0).toNat < 2 ^ 32 := by
    intro ops
    induction ops with
    | nil => intro j i k h; cases h
    | cons o os ih =>
      intro j i k h
      cases k with
      | zero => cases h; exact Env.opd_int_lt ..
      | succ k => exact ih _ _ k h
  exact key ops 0 0 k h

/-- A number that fits a word is its own value as a result. -/
theorem toNat_word {x : Nat} (h : x < 2 ^ 32) : (BitVec.ofNat 64 x).toNat = x := by
  rw [BitVec.toNat_ofNat, Nat.mod_eq_of_lt (by omega)]

/-! ### R86: the unary functions and logic -/

theorem patOf_neg_itVal (t : IType) {x : Nat} (hx : x < 2 ^ t.bits) : patOf t.bits (-itVal t x) = (2 ^ t.bits - x) % 2 ^ t.bits := by
  have h0 : itVal t 0 = 0 := by cases t <;> rfl
  have := patOf_itVal_sub t 0 hx
  rwa [h0, Int.zero_sub, Nat.zero_add] at this

/-- The magnitude of an element, as a pattern. -/
theorem patOf_abs (t : IType) {x : Nat} (hx : x < 2 ^ t.bits) :
    patOf t.bits (if itVal t x < 0 then -itVal t x else itVal t x) = if itVal t x < 0 then (2 ^ t.bits - x) % 2 ^ t.bits else x := by
  split
  · exact patOf_neg_itVal t hx
  · exact patOf_itVal hx

theorem bitAt_eq_testBit (x k : Nat) : bitAt x k = x.testBit k := (Nat.testBit_eq_decide_div_mod_eq).symm

theorem popCount_eq (w x : Nat) : popCount w x = ((List.range w).filter fun k => x.testBit k).length := by
  simp only [popCount, bitAt_eq_testBit]

theorem popCount_le (w x : Nat) : popCount w x ≤ w :=
  (List.length_filter_le ..).trans_eq List.length_range

theorem trailZeros_eq (w x : Nat) : trailZeros w x = ((List.range w).takeWhile fun k => !x.testBit k).length := by
  simp only [trailZeros, bitAt_eq_testBit]

theorem trailZeros_le (w x : Nat) : trailZeros w x ≤ w :=
  (List.takeWhile_prefix _).length_le.trans_eq List.length_range

/-- The zeros above the highest one bit. -/
theorem leadZeros_eq (w x : Nat) (hx : x < 2 ^ w) : leadZeros w x = if x = 0 then w else w - 1 - x.log2 := by
  induction w with
  | zero => simp [leadZeros, Nat.lt_one_iff.1 hx]
  | succ n ih =>
    rw [leadZeros, bitAt_eq_testBit]
    by_cases hn : x < 2 ^ n
    · rw [Nat.testBit_lt_two_pow hn, ih hn]
      by_cases h0 : x = 0
      · simp [h0, Nat.add_comm]
      · have := (Nat.log2_lt h0).2 hn
        simp only [h0, Bool.false_eq_true, if_false]
        omega
    · have h0 : x ≠ 0 := by rintro rfl; exact hn (Nat.two_pow_pos n)
      have hlog : x.log2 = n := by
        rw [Nat.log2_eq_iff h0]
        exact ⟨by omega, hx⟩
      have hbit : x.testBit n = true := by
        rw [Nat.testBit_eq_decide_div_mod_eq, decide_eq_true_eq, Nat.div_eq_of_lt_le (m := x) (k := 1) (by omega) (by
          rw [Nat.pow_succ] at hx; omega)]
      simp [hbit, h0, hlog]

theorem revBits_succ (n x : Nat) : revBits (n + 1) x = revBits n x * 2 + x / 2 ^ n % 2 := by
  simp [revBits, List.range_succ, List.foldl_append]

theorem revBits_lt (n x : Nat) : revBits n x < 2 ^ n := by
  induction n with
  | zero => simp [revBits]
  | succ n ih => rw [revBits_succ, Nat.pow_succ]; omega

/-- Reversed, bit k stands at w − 1 − k. -/
theorem revBits_eq (n x : Nat) :
    revBits n x = ((List.range n).map fun k => if x.testBit (n - 1 - k) then 2 ^ k else 0).sum := by
  induction n with
  | zero => rfl
  | succ n ih =>
    have hbit : x / 2 ^ n % 2 = if x.testBit n then 1 else 0 := by
      rw [Nat.testBit_eq_decide_div_mod_eq]
      split <;> simp_all
    have hshift : ((List.range n).map fun k => if x.testBit (n - (k + 1)) then 2 ^ (k + 1) else 0).sum = revBits n x * 2 := by
      rw [ih, ← List.sum_map_mul_right]
      refine congrArg List.sum (List.map_congr_left fun k _ => ?_)
      rw [show n - (k + 1) = n - 1 - k by omega]
      split <;> simp [Nat.pow_succ]
    rw [revBits_succ, hbit, List.range_succ_eq_map, List.map_cons, List.map_map, List.sum_cons]
    simp only [Function.comp_def, Nat.add_sub_cancel, Nat.sub_zero, Nat.pow_zero, Nat.succ_eq_add_one]
    rw [hshift, Nat.add_comm]

/-- Bit k of a word's logic function. -/
theorem testBit_wordOp (f : Nat → Nat → Nat) (x : LaneIn) {k : Nat} (hk : k < 32) :
    (wordOp f x).res.toNat.testBit k = (f (x.val 0) (x.val 1)).testBit k := by
  rw [wordOp, toNat_word (Nat.mod_lt _ (Nat.two_pow_pos 32)), Nat.testBit_mod_two_pow]
  simp [hk]

theorem testBit_andNat_not (a b : Nat) {k : Nat} (hk : k < 32) :
    (andNat a (xorNat b (2 ^ 32 - 1))).testBit k = (a.testBit k && !b.testBit k) := by
  rw [andNat, xorNat, Nat.testBit_and, Nat.testBit_xor, Nat.testBit_two_pow_sub_one]
  simp [hk]

/-! ### R83: products, minima and maxima -/

theorem cast_patOf (n : Nat) (x : Int) : ((patOf n x : Nat) : Int) = x % ((2 ^ n : Nat) : Int) :=
  Int.toNat_of_nonneg (Int.emod_nonneg x (by exact_mod_cast (Nat.two_pow_pos n).ne'))

/-- An element of an element-wise result on integers, as an integer. -/
theorem cast_elemAt_elemInt (t : IType) (f : Int → Int → Int → Int) (x : LaneIn) {k : Nat} (hk : k < t.count) :
    ((elemAt t.bits (elemInt t f x).res.toNat k : Nat) : Int) = f (itVal t (elemAt t.bits (x.val 0) k))
      (itVal t (elemAt t.bits (x.val 1) k)) (itVal t (elemAt t.bits (x.val 2) k)) % ((2 ^ t.bits : Nat) : Int) := by
  rw [elemAt_elemInt _ _ _ hk, cast_patOf]

/-- IMADW's sum is exact modulo 2^64, whichever sign its addend has. -/
theorem cast_madwOut (t : IType) (x : LaneIn) : (((madwOut t x).res.toNat : Nat) : Int) =
    (itVal t (x.val 0) * itVal t (x.val 1) + ((x.val 2 : Nat) : Int)) % ((2 ^ 64 : Nat) : Int) := by
  rw [madwOut, BitVec.toNat_ofNat, Nat.mod_eq_of_lt (patOf_lt 64 _), cast_patOf]
  exact (Int.ModEq.refl _).add (signedOf_modEq 64 _)

/-! ### R88, R89: fields and bytes -/

theorem ctlPos_add_ctlLen_le (c : Nat) : ctlPos c + ctlLen c ≤ 32 := by
  have : ctlPos c < 32 := Nat.mod_lt _ (by decide)
  unfold ctlLen
  omega

theorem ctlPos_eq (c : Nat) : ctlPos c = c % 32 := by simp [ctlPos, bits]

theorem ctlLen_eq (c : Nat) : ctlLen c = min (c / 2 ^ 8 % 64) (32 - c % 32) := by simp [ctlLen, ctlPos_eq, bits]

theorem testBit_bits (x lo n j : Nat) : (bits x lo n).testBit j = (decide (j < n) && x.testBit (lo + j)) := by
  rw [bits, Nat.testBit_mod_two_pow, Nat.testBit_div_two_pow, Nat.add_comm]

theorem bits_lt (x lo n : Nat) : bits x lo n < 2 ^ n := Nat.mod_lt _ (Nat.two_pow_pos n)

/-- Sign extension of an n-bit field to a word, bit by bit. -/
theorem testBit_signExtend {n f : Nat} (hn : 0 < n) (hn' : n ≤ 32) (hf : f < 2 ^ n) {j : Nat} (hj : j < 32) :
    (patOf 32 (signedOf n f)).testBit j = if j < n then f.testBit j else f.testBit (n - 1) := by
  have htop : f.testBit (n - 1) = decide (2 ^ (n - 1) ≤ f) := by
    have hsplit : 2 ^ n = 2 * 2 ^ (n - 1) := by rw [← Nat.pow_succ']; congr 1; omega
    rw [Nat.testBit_eq_decide_div_mod_eq]
    by_cases h : 2 ^ (n - 1) ≤ f
    · rw [Nat.div_eq_of_lt_le (m := f) (k := 1) (by omega) (by omega)]; simp [h]
    · rw [Nat.div_eq_of_lt (by omega)]; simp [h]
  have hle : 2 ^ n ≤ 2 ^ 32 := Nat.pow_le_pow_right (by decide) hn'
  rw [signedOf, Nat.mod_eq_of_lt hf]
  split
  · next h =>
    have : patOf 32 (f : Int) = f := by rw [patOf_of_modEq (Int.ModEq.refl _), Nat.mod_eq_of_lt (by omega)]
    rw [this, htop, decide_eq_false (by omega)]
    split
    · rfl
    · next h => exact Nat.testBit_lt_two_pow (hf.trans_le (Nat.pow_le_pow_right (by decide) (by omega)))
  · next h =>
    have hsplit : 2 ^ 32 = 2 ^ (32 - n) * 2 ^ n := by rw [← Nat.pow_add]; congr 1; omega
    have : patOf 32 ((f : Int) - (2 ^ n : Nat)) = 2 ^ n * (2 ^ (32 - n) - 1) + f := by
      have hval : 2 ^ n * (2 ^ (32 - n) - 1) = 2 ^ 32 - 2 ^ n := by rw [Nat.mul_sub, Nat.mul_one, Nat.mul_comm, ← hsplit]
      rw [hval, patOf_of_modEq (y := 2 ^ 32 - 2 ^ n + f), Nat.mod_eq_of_lt (by omega)]
      rw [Int.modEq_iff_dvd]
      exact ⟨1, by omega⟩
    rw [this, Nat.testBit_two_pow_mul_add _ hf, htop, decide_eq_true (by omega), Nat.testBit_two_pow_sub_one]
    split
    · rfl
    · exact decide_eq_true (by omega)

/-- BFX, bit by bit. -/
theorem testBit_bfxOut (t : IType) (x : LaneIn) {j : Nat} (hj : j < 32) : (bfxOut t x).res.toNat < 2 ^ 32 ∧
    (bfxOut t x).res.toNat.testBit j = if j < ctlLen (x.val 1) then (x.val 0).testBit (ctlPos (x.val 1) + j)
      else itSigned t && decide (0 < ctlLen (x.val 1)) && (x.val 0).testBit (ctlPos (x.val 1) + ctlLen (x.val 1) - 1) := by
  have hle := ctlPos_add_ctlLen_le (x.val 1)
  unfold bfxOut
  dsimp only
  generalize ctlLen (x.val 1) = n at *
  generalize ctlPos (x.val 1) = p at *
  have hf := bits_lt (x.val 0) p n
  have hword : 2 ^ n ≤ 2 ^ 32 := Nat.pow_le_pow_right (by decide) (by omega)
  by_cases h0 : n = 0
  · simp [h0]
  · rw [if_neg h0]
    split
    · next hs =>
      rw [toNat_word (patOf_lt ..), testBit_signExtend (by omega) (by omega) hf hj, testBit_bits, testBit_bits, hs,
        show p + (n - 1) = p + n - 1 by omega]
      refine ⟨patOf_lt .., ?_⟩
      split
      · next h => simp [h]
      · simp [show n - 1 < n by omega, show 0 < n by omega]
    · next hs =>
      rw [toNat_word (hf.trans_le hword), testBit_bits]
      refine ⟨hf.trans_le hword, ?_⟩
      split
      · next h => simp [h]
      · next h => simp [h, hs]

/-- A number whose field has been replaced, bit by bit. -/
theorem testBit_putBits (x lo n f j : Nat) :
    (putBits x lo n f).testBit j = if lo ≤ j ∧ j < lo + n then f.testBit (j - lo) else x.testBit j := by
  have hx : x = 2 ^ lo * (2 ^ n * (x / 2 ^ lo / 2 ^ n) + bits x lo n) + x % 2 ^ lo := by
    rw [bits, Nat.div_add_mod, Nat.div_add_mod]
  have hput : putBits x lo n f = 2 ^ lo * (2 ^ n * (x / 2 ^ lo / 2 ^ n) + f % 2 ^ n) + x % 2 ^ lo := by
    have h1 := Nat.mul_add (2 ^ lo) (2 ^ n * (x / 2 ^ lo / 2 ^ n)) (bits x lo n)
    have h2 := Nat.mul_add (2 ^ lo) (2 ^ n * (x / 2 ^ lo / 2 ^ n)) (f % 2 ^ n)
    rw [putBits, Nat.mul_comm (bits x lo n), Nat.mul_comm (f % 2 ^ n)]
    omega
  have hlow := Nat.mod_lt x (Nat.two_pow_pos lo)
  rw [hput]
  conv_rhs => rw [hx]
  rw [Nat.testBit_two_pow_mul_add _ hlow, Nat.testBit_two_pow_mul_add _ hlow,
    Nat.testBit_two_pow_mul_add _ (Nat.mod_lt _ (Nat.two_pow_pos n)), Nat.testBit_two_pow_mul_add _ (bits_lt ..),
    Nat.testBit_mod_two_pow]
  by_cases h1 : j < lo
  · simp [h1, show ¬ lo ≤ j by omega]
  · by_cases h2 : j - lo < n
    · simp [h1, h2, show lo ≤ j ∧ j < lo + n by omega]
    · simp [h1, h2, show ¬ (lo ≤ j ∧ j < lo + n) by omega]

/-- BFI, bit by bit. -/
theorem testBit_bfiOut (x : LaneIn) (hx : x.val 1 < 2 ^ 32) : (bfiOut x).res.toNat < 2 ^ 32 ∧ ∀ j,
    (bfiOut x).res.toNat.testBit j = if ctlPos (x.val 2) ≤ j ∧ j < ctlPos (x.val 2) + ctlLen (x.val 2)
      then (x.val 0).testBit (j - ctlPos (x.val 2)) else (x.val 1).testBit j := by
  have hle := ctlPos_add_ctlLen_le (x.val 2)
  have hlt : putBits (x.val 1) (ctlPos (x.val 2)) (ctlLen (x.val 2)) (x.val 0) < 2 ^ 32 := by
    refine Nat.lt_pow_two_of_testBit _ fun j hj => ?_
    rw [testBit_putBits, if_neg (by omega)]
    exact Nat.testBit_lt_two_pow (hx.trans_le (Nat.pow_le_pow_right (by decide) hj))
  rw [bfiOut, toNat_word hlt]
  exact ⟨hlt, fun j => testBit_putBits ..⟩

/-- PERM, byte by byte. -/
theorem elemAt_permOut (x : LaneIn) (hx : x.val 0 < 2 ^ 32) : (permOut x).res.toNat < 2 ^ 32 ∧ ∀ k, k < 4 →
    elemAt 8 (permOut x).res.toNat k =
      let n := elemAt 4 (x.val 2) k
      if n < 4 then elemAt 8 (x.val 0) n else if n < 8 then elemAt 8 (x.val 1) (n - 4) else 0 := by
  have hlt : ∀ l : List Nat, l.length = 4 → packElems 8 l < 2 ^ 32 := fun l h => by
    simpa only [h] using packElems_lt 8 l
  rw [permOut, toNat_word (hlt _ (by simp))]
  refine ⟨hlt _ (by simp), fun k hk => ?_⟩
  rw [elemAt_packElems, List.getD_eq_getElem _ _ (by simpa using hk), List.getElem_map, List.getElem_range]
  have hlow : ∀ n, n < 4 → elemAt 8 (x.val 0 + x.val 1 * 2 ^ 32) n = elemAt 8 (x.val 0) n := by
    intro n hn
    refine Nat.eq_of_testBit_eq fun j => ?_
    rw [elemAt, elemAt, testBit_bits, testBit_bits, Nat.add_comm, Nat.mul_comm (x.val 1), Nat.testBit_two_pow_mul_add _ hx]
    by_cases hj : j < 8
    · simp [show 8 * n + j < 32 by omega]
    · simp [hj]
  have hhigh : ∀ n, 4 ≤ n → elemAt 8 (x.val 0 + x.val 1 * 2 ^ 32) n = elemAt 8 (x.val 1) (n - 4) := by
    intro n hn
    refine Nat.eq_of_testBit_eq fun j => ?_
    rw [elemAt, elemAt, testBit_bits, testBit_bits, Nat.add_comm, Nat.mul_comm (x.val 1), Nat.testBit_two_pow_mul_add _ hx,
      if_neg (by omega), show 8 * n + j - 32 = 8 * (n - 4) + j by omega]
  change (if elemAt 4 (x.val 2) k ≥ 8 then 0 else elemAt 8 _ (elemAt 4 (x.val 2) k)) % 2 ^ 8 = _
  generalize elemAt 4 (x.val 2) k = n
  dsimp only
  split
  · rw [if_neg (by omega), if_neg (by omega), Nat.zero_mod]
  · rw [Nat.mod_eq_of_lt (elemAt_lt ..)]
    split
    · exact hlow n ‹_›
    · rw [if_pos (by omega)]
      exact hhigh n (by omega)

/-! ### What each instruction computes -/

theorem givesResult_iabs (o : IntU) :
    GivesResult (.iabs o) [.int o.ty o.a] (dst o.nw o.d 1) (elemInt o.ty fun a _ _ => if a < 0 then -a else a) :=
  givesResult_of_res (fun _ => rfl) (.inl rfl)

theorem givesResult_ineg (o : IntU) :
    GivesResult (.ineg o) [.int o.ty o.a] (dst o.nw o.d 1) (elemInt o.ty fun a _ _ => -a) :=
  givesResult_of_res (fun _ => rfl) (.inl rfl)

theorem givesResult_popc (o : IntU) :
    GivesResult (.popc o) [.int o.ty o.a] (dst o.nw o.d 1) (elemNat o.ty fun a _ => popCount o.ty.bits a) :=
  givesResult_of_res (fun _ => rfl) (.inl rfl)

theorem givesResult_clz (o : IntU) :
    GivesResult (.clz o) [.int o.ty o.a] (dst o.nw o.d 1) (elemNat o.ty fun a _ => leadZeros o.ty.bits a) :=
  givesResult_of_res (fun _ => rfl) (.inl rfl)

theorem givesResult_ctz (o : IntU) :
    GivesResult (.ctz o) [.int o.ty o.a] (dst o.nw o.d 1) (elemNat o.ty fun a _ => trailZeros o.ty.bits a) :=
  givesResult_of_res (fun _ => rfl) (.inl rfl)

theorem givesResult_brev (o : IntU) :
    GivesResult (.brev o) [.int o.ty o.a] (dst o.nw o.d 1) (elemNat o.ty fun a _ => revBits o.ty.bits a) :=
  givesResult_of_res (fun _ => rfl) (.inl rfl)

theorem givesResult_mov (o : IntU) :
    GivesResult (.mov o) [.int o.ty o.a] (dst o.nw o.d 1) (wordOp fun a _ => a) :=
  givesResult_of_res (fun _ => rfl) (.inl rfl)

theorem givesResult_and (o : LogicA) :
    GivesResult (.and o) [.int .u32 o.a, .int .u32 o.b] (dst o.nw o.d 1) (wordOp andNat) :=
  givesResult_of_res (fun _ => rfl) (.inl rfl)

theorem givesResult_or (o : LogicA) :
    GivesResult (.or o) [.int .u32 o.a, .int .u32 o.b] (dst o.nw o.d 1) (wordOp orNat) :=
  givesResult_of_res (fun _ => rfl) (.inl rfl)

theorem givesResult_xor (o : LogicA) :
    GivesResult (.xor o) [.int .u32 o.a, .int .u32 o.b] (dst o.nw o.d 1) (wordOp xorNat) :=
  givesResult_of_res (fun _ => rfl) (.inl rfl)

theorem givesResult_andn (o : LogicA) :
    GivesResult (.andn o) [.int .u32 o.a, .int .u32 o.b] (dst o.nw o.d 1) (wordOp fun a b => andNat a (xorNat b (2 ^ 32 - 1))) :=
  givesResult_of_res (fun _ => rfl) (.inl rfl)

theorem givesResult_imul (o : IntA) :
    GivesResult (.imul o) [.int o.ty o.a, .int o.ty o.b] (dst o.nw o.d 1) (elemInt o.ty fun a b _ => a * b) :=
  givesResult_of_res (fun _ => rfl) (.inl rfl)

theorem givesResult_imulh (o : IntA) :
    GivesResult (.imulh o) [.int o.ty o.a, .int o.ty o.b] (dst o.nw o.d 1) (elemInt o.ty fun a b _ => a * b / ((2 ^ o.ty.bits : Nat) : Int)) :=
  givesResult_of_res (fun _ => rfl) (.inl rfl)

theorem givesResult_imin (o : IntA) :
    GivesResult (.imin o) [.int o.ty o.a, .int o.ty o.b] (dst o.nw o.d 1) (elemInt o.ty fun a b _ => min a b) :=
  givesResult_of_res (fun _ => rfl) (.inl rfl)

theorem givesResult_imax (o : IntA) :
    GivesResult (.imax o) [.int o.ty o.a, .int o.ty o.b] (dst o.nw o.d 1) (elemInt o.ty fun a b _ => max a b) :=
  givesResult_of_res (fun _ => rfl) (.inl rfl)

theorem givesResult_imad (o : IntMad) :
    GivesResult (.imad o) [.int o.ty o.a, .int o.ty o.b, .int o.ty o.c] (dst o.nw o.d 1) (elemInt o.ty fun a b c => a * b + c) :=
  givesResult_of_res (fun _ => rfl) (.inl rfl)

theorem givesResult_imadw (o : IntMad) :
    GivesResult (.imadw o) [.int o.ty o.a, .int o.ty o.b, .pair o.c] (dst o.nw o.d 2) (madwOut o.ty) :=
  givesResult_of_res (fun _ => rfl) (.inr rfl)

theorem givesResult_movi (ty : IType) (nw : Bool) (d : Sel) (c : Src) :
    GivesResult (.movi ty nw d c) [srcOpd ty c] (dst nw d 1) (wordOp fun a _ => a) :=
  givesResult_of_res (fun _ => rfl) (.inl rfl)

theorem givesResult_bfx (ty : IType) (nw : Bool) (d a : Sel) (c : Src) :
    GivesResult (.bfx ty nw d a c) [.int ty a, srcOpd .u32 c] (dst nw d 1) (bfxOut ty) :=
  givesResult_of_res (fun _ => rfl) (.inl rfl)

theorem givesResult_bfi_imm (ty : IType) (nw : Bool) (d a : Sel) (c : Word) :
    GivesResult (.bfi ty nw (.imm d a c)) [.int ty a, .int ty d, .imm (c.setWidth 64)] (dst nw d 1) bfiOut :=
  givesResult_of_res (fun _ => rfl) (.inl rfl)

theorem givesResult_bfi_reg (ty : IType) (nw : Bool) (d a b c : Sel) :
    GivesResult (.bfi ty nw (.reg d a b c)) [.int ty a, .int ty b, .int .u32 c] (dst nw d 1) bfiOut :=
  givesResult_of_res (fun _ => rfl) (.inl rfl)

theorem givesResult_perm_imm (nw : Bool) (d a : Sel) (c : Word) :
    GivesResult (.perm nw (.imm d a c)) [.int .u32 a, .imm 0, .imm (c.setWidth 64)] (dst nw d 1) permOut :=
  givesResult_of_res (fun _ => rfl) (.inl rfl)

theorem givesResult_perm_reg (nw : Bool) (d a b c : Sel) :
    GivesResult (.perm nw (.reg d a b c)) [.int .u32 a, .int .u32 b, .int .u32 c] (dst nw d 1) permOut :=
  givesResult_of_res (fun _ => rfl) (.inl rfl)

/-! ### The statement -/

/-- A one-source integer instruction whose elements are `f` of the source's. -/
theorem GivesResult.unary {i : Instr} {o : IntU} {f : LaneIn → LaneOut} (hi : GivesResult i [.int o.ty o.a] (dst o.nw o.d 1) f)
    (F : Nat → Nat) (hF : ∀ x k, k < o.ty.count → elemAt o.ty.bits (f x).res.toNat k = F (elemAt o.ty.bits (x.val 0) k))
    {s : State} {t : Nat} {g : Gang} {r : ClauseRun} {es : List ApprEntry} (h : Ready s t g r i es) :
    ∃ s' val, Machine.exec i s = .next s' ∧ Performed s s' t g r i ∧ FlagsKept s s' t ∧
      Holds (s.wg t) (s'.wg t) (execLanes g r) (dst o.nw o.d 1) val ∧ ∀ l ∈ execLanes g r, ∀ k, k < o.ty.count →
        elemAt o.ty.bits (val l).toNat k = F (elemAt o.ty.bits (operand s t g r es [.int o.ty o.a] l 0) k) := by
  obtain ⟨s', he, hp, hf, -, hh, -⟩ := hi.gives h
  exact ⟨s', _, he, hp, hf, hh, fun l _ k hk => hF _ k hk⟩

/-- A logic instruction whose bits are `f` of the sources'. -/
theorem GivesResult.logic {i : Instr} {o : LogicA} {f : LaneIn → LaneOut}
    (hi : GivesResult i [.int .u32 o.a, .int .u32 o.b] (dst o.nw o.d 1) f) (F : Bool → Bool → Bool)
    (hF : ∀ x k, k < 32 → (f x).res.toNat.testBit k = F ((x.val 0).testBit k) ((x.val 1).testBit k))
    {s : State} {t : Nat} {g : Gang} {r : ClauseRun} {es : List ApprEntry} (h : Ready s t g r i es) :
    ∃ s' val, Machine.exec i s = .next s' ∧ Performed s s' t g r i ∧ FlagsKept s s' t ∧
      Holds (s.wg t) (s'.wg t) (execLanes g r) (dst o.nw o.d 1) val ∧ ∀ l ∈ execLanes g r, ∀ k, k < 32 →
        (val l).toNat.testBit k = F ((operand s t g r es [.int .u32 o.a, .int .u32 o.b] l 0).testBit k)
          ((operand s t g r es [.int .u32 o.a, .int .u32 o.b] l 1).testBit k) := by
  obtain ⟨s', he, hp, hf, -, hh, -⟩ := hi.gives h
  exact ⟨s', _, he, hp, hf, hh, fun l _ k hk => hF _ k hk⟩

/-- A two-source integer instruction whose elements are `f` of the sources', modulo 2^w. -/
theorem GivesResult.binary {i : Instr} {o : IntA} {f : Int → Int → Int}
    (hi : GivesResult i [.int o.ty o.a, .int o.ty o.b] (dst o.nw o.d 1) (elemInt o.ty fun a b _ => f a b))
    {s : State} {t : Nat} {g : Gang} {r : ClauseRun} {es : List ApprEntry} (h : Ready s t g r i es) :
    ∃ s' val, Machine.exec i s = .next s' ∧ Performed s s' t g r i ∧ FlagsKept s s' t ∧ SummaryKept s s' t ∧
      Holds (s.wg t) (s'.wg t) (execLanes g r) (dst o.nw o.d 1) val ∧ LatchLeft s' t g r val ∧
      ∀ l ∈ execLanes g r, ∀ k, k < o.ty.count → ((elemAt o.ty.bits (val l).toNat k : Nat) : Int) =
        f (itVal o.ty (elemAt o.ty.bits (operand s t g r es [.int o.ty o.a, .int o.ty o.b] l 0) k))
          (itVal o.ty (elemAt o.ty.bits (operand s t g r es [.int o.ty o.a, .int o.ty o.b] l 1) k)) %
            ((2 ^ o.ty.bits : Nat) : Int) := by
  obtain ⟨s', he, hp, hf, hs, hh, hl⟩ := hi.gives h
  exact ⟨s', _, he, hp, hf, hs, hh, hl, fun l _ k hk => cast_elemAt_elemInt _ _ _ hk⟩

/-- An instruction whose result is a word of which `P` holds. -/
theorem GivesResult.word {i : Instr} {ops : List Opd} {d : Dest} {f : LaneIn → LaneOut} (hi : GivesResult i ops d f)
    {s : State} {t : Nat} {g : Gang} {r : ClauseRun} {es : List ApprEntry} {P : Nat → Nat → Prop}
    (hP : ∀ l, (f (laneIn s t g r es ops l)).res.toNat < 2 ^ 32 ∧ P l (f (laneIn s t g r es ops l)).res.toNat)
    (h : Ready s t g r i es) :
    ∃ s' val, Machine.exec i s = .next s' ∧ Performed s s' t g r i ∧ FlagsKept s s' t ∧ SummaryKept s s' t ∧
      Holds (s.wg t) (s'.wg t) (execLanes g r) d val ∧ LatchLeft s' t g r val ∧
      ∀ l ∈ execLanes g r, (val l).toNat < 2 ^ 32 ∧ P l (val l).toNat := by
  obtain ⟨s', he, hp, hf, hs, hh, hl⟩ := hi.gives h
  exact ⟨s', _, he, hp, hf, hs, hh, hl, fun l _ => hP l⟩

/-- A word that is moved is the operand. -/
theorem wordOp_fst {x : LaneIn} (hx : x.val 0 < 2 ^ 32) : (wordOp (fun a _ => a) x).res.toNat = x.val 0 := by
  rw [wordOp, toNat_word (Nat.mod_lt _ (Nat.two_pow_pos 32)), Nat.mod_eq_of_lt hx]

/-- Settles O5: each instruction gives a result alone, whose elements, bits, fields or bytes are those of its function. -/
theorem unaryLogicAndMultiply : Obligations.UnaryLogicAndMultiply := by
  unfold Obligations.UnaryLogicAndMultiply
  refine ⟨fun s t g r es => ⟨?_, ?_⟩, fun s t g r es => ⟨?_, ?_⟩, ?_⟩
  · intro o w gives
    refine ⟨?_, ?_, ?_, ?_, ?_, ?_⟩
    · refine (givesResult_iabs o).unary (fun x => if itVal o.ty x < 0 then (2 ^ w - x) % 2 ^ w else x) fun x k hk => ?_
      exact (elemAt_elemInt _ _ _ hk).trans (patOf_abs _ (elemAt_lt ..))
    · refine (givesResult_ineg o).unary (fun x => (2 ^ w - x) % 2 ^ w) fun x k hk => ?_
      exact (elemAt_elemInt _ _ _ hk).trans (patOf_neg_itVal _ (elemAt_lt ..))
    · refine (givesResult_popc o).unary (fun x => ((List.range w).filter fun k => x.testBit k).length) fun x k hk => ?_
      rw [elemAt_elemNat _ _ _ hk, Nat.mod_eq_of_lt ((popCount_le ..).trans_lt Nat.lt_two_pow_self), popCount_eq]
    · refine (givesResult_clz o).unary (fun x => if x = 0 then w else w - 1 - x.log2) fun x k hk => ?_
      rw [elemAt_elemNat _ _ _ hk, leadZeros_eq o.ty.bits _ (elemAt_lt ..), Nat.mod_eq_of_lt]
      refine lt_of_le_of_lt ?_ (Nat.lt_two_pow_self (n := o.ty.bits))
      split <;> omega
    · refine (givesResult_ctz o).unary (fun x => ((List.range w).takeWhile fun k => !x.testBit k).length) fun x k hk => ?_
      rw [elemAt_elemNat _ _ _ hk, Nat.mod_eq_of_lt ((trailZeros_le ..).trans_lt Nat.lt_two_pow_self), trailZeros_eq]
    · refine (givesResult_brev o).unary (fun x => ((List.range w).map fun k => if x.testBit (w - 1 - k) then 2 ^ k else 0).sum) fun x k hk => ?_
      rw [elemAt_elemNat _ _ _ hk, Nat.mod_eq_of_lt (revBits_lt ..), revBits_eq]
  · intro o a b gives
    refine ⟨?_, ?_, ?_, ?_⟩
    · exact (givesResult_and o).logic (fun x y => x && y) fun x k hk => (testBit_wordOp _ x hk).trans (Nat.testBit_and ..)
    · exact (givesResult_or o).logic (fun x y => x || y) fun x k hk => (testBit_wordOp _ x hk).trans (Nat.testBit_or ..)
    · exact (givesResult_xor o).logic (fun x y => xor x y) fun x k hk => (testBit_wordOp _ x hk).trans (Nat.testBit_xor ..)
    · exact (givesResult_andn o).logic (fun x y => x && !y) fun x k hk => (testBit_wordOp _ x hk).trans (testBit_andNat_not _ _ hk)
  · intro o w ops gives
    exact ⟨(givesResult_imul o).binary, (givesResult_imulh o).binary, (givesResult_imin o).binary, (givesResult_imax o).binary⟩
  · intro o w
    constructor
    · intro h
      obtain ⟨s', he, hp, hf, -, hh, -⟩ := (givesResult_imad o).gives h
      exact ⟨s', _, he, hp, hf, hh, fun l _ k hk => cast_elemAt_elemInt _ _ _ hk⟩
    · intro _ h
      obtain ⟨s', he, hp, hf, -, hh, hl⟩ := (givesResult_imadw o).gives h
      exact ⟨s', _, he, hp, hf, hh, hl, fun l _ => cast_madwOut _ _⟩
  · intro s t g r es ty nw gives x pos len inserted chosen
    have hint : ∀ {ops : List Opd} {k : Nat} {ty q}, ops[k]? = some (.int ty q) → ∀ l, (laneIn s t g r es ops l).val k < 2 ^ 32 :=
      fun h l => operand_lt_of_int s t g r es l h
    have key : ∀ {i : Instr} {ops : List Opd} {d : Sel} {f : LaneIn → LaneOut} {P : Nat → Nat → Prop},
        GivesResult i ops (dst nw d 1) f → (∀ l, (f (laneIn s t g r es ops l)).res.toNat < 2 ^ 32 ∧
          P l (f (laneIn s t g r es ops l)).res.toNat) → gives i d P := fun hi hP h => hi.word hP h
    clear_value gives
    refine ⟨fun d a => ?_, fun d c => ?_, fun d a => ?_, fun d a c => ?_, fun d a c => ?_, fun d a b c => ?_, fun d a c => ?_,
      fun d a b c => ?_⟩
    · refine key (givesResult_mov ⟨ty, nw, d, a⟩) fun l => ?_
      have hx := hint (ops := [.int ty a]) (k := 0) rfl l
      exact ⟨(wordOp_fst hx).trans_lt hx, wordOp_fst hx⟩
    · refine key (givesResult_movi ty nw d (.imm c)) fun l => ?_
      have hc : (laneIn s t g r es [.imm (c.setWidth 64)] l).val 0 = c.toNat := by
        show (c.setWidth 64).toNat = c.toNat
        exact BitVec.toNat_setWidth_of_le (by decide)
      have hx : (laneIn s t g r es [.imm (c.setWidth 64)] l).val 0 < 2 ^ 32 := hc ▸ c.isLt
      exact ⟨(wordOp_fst hx).trans_lt hx, (wordOp_fst hx).trans hc⟩
    · refine key (givesResult_movi ty nw d (.reg a)) fun l => ?_
      have hx := hint (ops := [.int ty a]) (k := 0) rfl l
      exact ⟨(wordOp_fst hx).trans_lt hx, wordOp_fst hx⟩
    · refine key (givesResult_bfx ty nw d a c) fun l => ?_
      refine ⟨(testBit_bfxOut ty _ (j := 0) (by decide)).1, fun j hj => ?_⟩
      rw [(testBit_bfxOut ty _ hj).2, ctlLen_eq, ctlPos_eq]
      rfl
    · refine key (givesResult_bfi_imm ty nw d a c) fun l => ?_
      obtain ⟨hlt, hbits⟩ := testBit_bfiOut (laneIn s t g r es [.int ty a, .int ty d, .imm (c.setWidth 64)] l) (hint rfl l)
      refine ⟨hlt, fun j _ => ?_⟩
      rw [hbits, ctlLen_eq, ctlPos_eq]
      rfl
    · refine key (givesResult_bfi_reg ty nw d a b c) fun l => ?_
      obtain ⟨hlt, hbits⟩ := testBit_bfiOut (laneIn s t g r es [.int ty a, .int ty b, .int .u32 c] l) (hint rfl l)
      refine ⟨hlt, fun j _ => ?_⟩
      rw [hbits, ctlLen_eq, ctlPos_eq]
      rfl
    · exact key (givesResult_perm_imm nw d a c) fun l => elemAt_permOut _ (hint rfl l)
    · exact key (givesResult_perm_reg nw d a b c) fun l => elemAt_permOut _ (hint rfl l)

end Sys2Proof.Machine
end

section
/-! SUPPORT. Predicates, special registers and the cross-lane instructions (spec/04 R77-R80, R90; spec/02 R35, R42-R44): what each
computes, and the statements about them. -/

namespace Sys2Proof.Machine

open Sys2Proof Sys2Proof.Safety

-- One proof at a time: side by side they need more threads than a check's memory holds.
set_option Elab.async false

/-! ### R90: ICMP, SEL, PLOP -/

/-- A computation that gives a predicate conforms to an instruction that writes it and may raise flags where it does. -/
theorem conforms_pred {i : Instr} {pd : Nat} (h : writesPred i = some pd) (x : Dword) (b : Bool) {fl : FFlags}
    (hfl : raisesFlags i = false → fl = 0) : Safety.Conforms i { res := x, pd := some (pd, b), flags := fl } where
  cf _ := rfl
  pd _ _ hp := by cases hp; exact h
  flags := hfl
  sat _ := rfl
  nan _ := rfl

/-- An instruction without a destination declares nothing. -/
theorem declared_none (i : Instr) : Safety.Declared i none := fun _ _ h => nomatch h

/-- A predicate that is written holds what was written (spec/04 R77). -/
theorem Lane.pred_setPred_self (x : Lane) {n : Nat} (hn : n ≠ 0) (hn8 : n < 8) (b : Bool) : (x.setPred n b).pred n = b := by
  have hbit : ∀ y : BitVec 8, (setBit y n b).getLsbD n = b := by
    intro y
    have hone : (BitVec.ofNat 8 (2 ^ n)).getLsbD n = true := by
      rw [BitVec.getLsbD_ofNat, Nat.testBit_two_pow_self]
      simp [hn8]
    cases b with
    | true => rw [setBit, if_pos rfl, BitVec.getLsbD_or, hone, Bool.or_true]
    | false => rw [setBit, if_neg (by decide), BitVec.getLsbD_and, BitVec.getLsbD_not, hone, Bool.not_true, Bool.and_false,
        Bool.and_false]
  simp [Lane.pred, Lane.setPred, hn, hbit]

/-- A predicate depends on the predicate register alone. -/
theorem Lane.pred_congr {x y : Lane} (h : x.p = y.p) (n : Nat) : x.pred n = y.pred n := by simp only [Lane.pred, h]

/-- What a computed predicate is. -/
theorem Computed.predOf_eq {s s' : State} {t : Nat} {g : Gang} {r : ClauseRun} {i : Instr} {d : Dest} {out : Nat → LaneOut}
    (h : Computed s s' t g r i d out) {l n : Nat} (hl : l ∈ execLanes g r) (hn : n ≠ 0) (hn8 : n < 8) {b : Bool}
    (hb : (out l).pd = some (n, b)) : predOf s' t l n = b := by
  unfold predOf
  rw [Lane.pred_congr (h.pred l hl n b hb), Lane.pred_setPred_self _ hn hn8]

theorem computesInto_icmp (c : ICond) (ty : IType) (pd : Nat) (a : Sel) (b : Src) :
    ComputesInto (.icmp c ty pd a b) [.int ty a, srcOpd ty b] none (icmpOut c ty pd) :=
  ⟨fun _ _ _ ht => bothIssue_gang ht .., declared_none _, rfl, fun _ => conforms_pred rfl _ _ fun _ => rfl⟩

theorem computesInto_plop (op : PredOp) (d a b : PredRef) : ComputesInto (.plop op d a b) [] none (plopOut op d a b) :=
  ⟨fun _ _ _ ht => bothIssue_gang ht .., declared_none _, rfl, fun _ => conforms_pred rfl _ _ fun _ => rfl⟩

theorem givesResult_sel (ty : IType) (nw : Bool) (p : PredRef) (d a : Sel) (b : Src) :
    GivesResult (.sel ty nw p d a b) [.int ty a, srcOpd ty b] (dst nw d 1) (selOut p) :=
  givesResult_of_res (fun _ => rfl) (.inl rfl)

theorem laneIn_pred (s : State) (t : Nat) (g : Gang) (r : ClauseRun) (es : List ApprEntry) (ops : List Opd) (l n : Nat) :
    (laneIn s t g r es ops l).pred n = predOf s t l n := rfl

/-- Settles O6: a compared or combined predicate is the one that the lane's computation gives, and SEL's result one of its operands. -/
theorem compareSelectPredicates : Obligations.CompareSelectPredicates := by
  unfold Obligations.CompareSelectPredicates
  intro s t g r es
  refine ⟨fun l b => ⟨rfl, rfl⟩, fun c ty pd a b hpd h => ?_, fun ty nw p d a b h => ?_, fun op d a b hd hd8 h => ?_⟩
  · obtain ⟨s', he, hc⟩ := (computesInto_icmp c ty pd a b).computed h
    refine ⟨s', he, hc.performed, fun l hl => ⟨hc.carry l hl, fun n hn _ => ?_, fun hpd8 => ?_⟩⟩
    · exact hc.performed.group.preds l n fun hw => hn (Option.some.inj hw).symm
    · refine (hc.predOf_eq hl hpd hpd8 rfl).trans ?_
      cases c <;> rfl
  · obtain ⟨s', he, hp, hf, -, hh, -⟩ := (givesResult_sel ty nw p d a b).gives h
    refine ⟨s', he, hp, hf, ?_⟩
    convert hh using 2 with l
    refine congrArg (BitVec.ofNat 64) ?_
    rw [laneIn_pred]
    split <;> rfl
  · obtain ⟨s', he, hc⟩ := (computesInto_plop op d a b).computed h
    refine ⟨s', he, hc.performed, fun l hl => ⟨hc.carry l hl, ?_⟩⟩
    refine (hc.predOf_eq hl hd hd8 rfl).trans ?_
    cases op <;> rfl

/-! ### Bodies that write one result to every lane -/

/-- An instruction whose body writes each lane of E its result, and does no more. -/
theorem laneIssue_writes {s : State} {t : Nat} {g : Gang} {r : ClauseRun} {i : Instr} {es : List ApprEntry} (h : Ready s t g r i es)
    {body : Env → Res} {d : Dest} (hd : Safety.Declared i d) (hl : i.leavesLatch = true) (val : Nat → Dword)
    (hb : body (opEnv s t g r es) = .ok ((taken s).updWg t fun w => w.putDest s.free d ((execLanes g r).map fun l => (l, val l)))
      ((execLanes g r).map fun l => (l, val l))) :
    ∃ s', laneIssue i body s = .next s' ∧ Performed s s' t g r i ∧ FlagsKept s s' t ∧ SummaryKept s s' t ∧
      LatchLeft s' t g r val ∧ Holds (s.wg t) (s'.wg t) (execLanes g r) d val := by
  set w1 := (s.wg t).putDest s.free d ((execLanes g r).map fun l => (l, val l)) with hw1
  have ht : Touch (execLanes g r) (fun n => ∃ d ∈ i.writes, n ∈ codesOf d) (fun n => ∃ d ∈ i.writes, n ∈ uniformOf d) (s.wg t) w1 :=
    Touch.writeDest hd _ _ _ fun p hp => by
      obtain ⟨l, hm, rfl⟩ := List.mem_map.1 hp
      exact hm
  have hsum : w1.flags = (s.wg t).flags ∧ w1.satcnt = (s.wg t).satcnt ∧ w1.nanscore = (s.wg t).nanscore := by
    rw [hw1]
    cases d with
    | none => exact ⟨rfl, rfl, rfl⟩
    | some x => exact Workgroup.writeSel_summary ..
  have hfl : ∀ l, (w1.lane l).cf = ((s.wg t).lane l).cf ∧ (w1.lane l).p = ((s.wg t).lane l).p := by
    intro l
    rw [hw1]
    cases d with
    | none => exact ⟨rfl, rfl⟩
    | some x => exact Workgroup.writeSel_flags ..
  have hself : ((taken s).updWg t fun w => w.putDest s.free d ((execLanes g r).map fun l => (l, val l))).wg t = w1 :=
    State.wg_updWg_self ..
  obtain ⟨s', hs, hp, hregs, hflags, hunis, hsums⟩ := laneIssue_performed h body _ _ hb rfl (fun u hu => State.wg_updWg_ne _ _ hu)
    (hself.symm ▸ ht) (hself.symm ▸ Safety.FlagsFit.of_eq hfl hsum.1 hsum.2.1 hsum.2.2)
  rw [hself] at hregs hflags hunis
  unfold SummaryKept at hsums
  rw [hself] at hsums
  refine ⟨s', hs, hp, fun l => ?_, ?_, ?_, ?_⟩
  · unfold cfOf
    exact ⟨(hflags l).1.trans (hfl l).1, (hflags l).2.trans (hfl l).2⟩
  · exact ⟨hsums.1.trans hsum.1, hsums.2.1.trans hsum.2.1, hsums.2.2.trans hsum.2.2⟩
  · intro hw g' r' hg' hr' l hh
    have hg : (((taken s).updWg t fun w => w.putDest s.free d ((execLanes g r).map fun l => (l, val l))).wg t).gang? g.id = some g := by
      rw [hself]
      unfold Workgroup.gang?
      rw [ht.gangs]
      exact h.gang
    rw [laneIssue_latches h hl hb hg hs hg' hr']
    exact latchRead_append_mkLatch hw _ hh
  · cases hdd : d with
    | none => trivial
    | some x =>
      have hhold := Workgroup.writeSel_holds (s.wg t) s.free x.1 x.2 (hd x.1 x.2 hdd).2 (execLanes g r) (lanesOf_nodup ..) val
      have hput : w1 = (s.wg t).writeSel s.free x.1 ((execLanes g r).map fun l => (l, splitWords x.2 (val l))) := by
        rw [hw1, hdd, Workgroup.putDest, List.map_map]
        rfl
      exact Safety.Holds.congr hhold (fun _ => rfl) rfl (fun l c => by rw [hregs, hput]) fun c => by rw [hunis, hput]

/-! ### R79: MOVS -/

/-- MOVS writes each lane the value that it reads of the special register. -/
theorem movsBody_eq (s : State) (t : Nat) (g : Gang) (r : ClauseRun) (es : List ApprEntry) (q : SReg) (d : Dest) :
    movsBody q d (opEnv s t g r es) = .ok ((taken s).updWg t fun w =>
        w.putDest s.free d ((execLanes g r).map fun l => (l, s.sreg t l q))) ((execLanes g r).map fun l => (l, s.sreg t l q)) := by
  cases d <;> rfl

/-- Fields below bit 32 are the value of their register. -/
theorem toNat_ofNat_mod_word (x : Nat) : (BitVec.ofNat 64 x).toNat % 2 ^ 32 = x % 2 ^ 32 := by
  rw [BitVec.toNat_ofNat, Nat.mod_mod_of_dvd _ (by decide)]

/-- Settles O7: MOVS writes what the lane reads of the register, whose fields are those of the rules. -/
theorem specialRegisterReads : Obligations.SpecialRegisterReads := by
  unfold Obligations.SpecialRegisterReads
  intro s t g r es nw d w
  subst w
  refine ⟨fun q h => ?_, fun h => ?_⟩
  · obtain ⟨s', hs, hp, hf, -, hl, hh⟩ := laneIssue_writes h (declared_dst rfl (.inl rfl)) rfl _ (movsBody_eq s t g r es q (dst nw d 1))
    refine ⟨s', _, hs, hp, hf, hl, hh, fun l _ => ?_⟩
    unfold State.sreg
    cases q with
    | flags =>
      rw [toNat_ofNat_mod_word, Nat.mod_eq_of_lt (by dsimp only; split <;> decide)]
      rfl
    | fpmode =>
      have := (((s.wg t).lane l).fpmode).isLt
      rw [toNat_ofNat_mod_word]
      exact Nat.mod_eq_of_lt (by dsimp only; omega)
    | gangctl =>
      have := (s.wg t).rgwin.isLt
      have := (s.wg t).yhold.isLt
      rw [toNat_ofNat_mod_word]
      simp only [packFields]
      omega
    | alloc | wg | domain =>
      rw [toNat_ofNat_mod_word]
      simp only [packFields]
      omega
    | core =>
      rw [toNat_ofNat_mod_word]
      simp only [packFields, clusterOf, islandOf]
      omega
    | lane =>
      rw [toNat_ofNat_mod_word]
      simp only [packFields, fldB, quadOf, homeOf, show (2 : Nat) ^ 2 = 4 from rfl, Nat.mod_mod]
      have hcrew : (if ((s.wg t).lane l).crew.isSome = true then 1 else 0) < 2 := by split <;> decide
      rw [Nat.mod_eq_of_lt (by omega)]
      omega
    | cycle => exact toNat_ofNat_mod_word _
    | clock | count | spad | racecov | wgtag | gate | appr | q => rfl
  · obtain ⟨s', hs, hp, -, -, -, hh⟩ :=
      laneIssue_writes h (declared_dst rfl (.inr rfl)) rfl _ (movsBody_eq s t g r es .cycle (dst nw d 2))
    refine ⟨s', hs, hp, ?_⟩
    convert hh using 2 with l
    exact ((BitVec.ofNat_toNat ..).trans (BitVec.setWidth_eq _)).symm

/-! ### R43, R44: VOTE and SHFL -/

/-- A cross-lane result is written to every participant. -/
theorem crossBody_eq (s : State) (t : Nat) (g : Gang) (r : ClauseRun) (es : List ApprEntry) (d : Dest) (val : Nat → Dword) :
    crossBody d ((execLanes g r).map fun l => (l, val l)) (opEnv s t g r es) = .ok ((taken s).updWg t fun w =>
        w.putDest s.free d ((execLanes g r).map fun l => (l, val l))) ((execLanes g r).map fun l => (l, val l)) := by
  cases d <;> rfl

/-- The mask of positions, bit by bit. -/
theorem getLsbD_maskOf (l : List Nat) {k : Nat} (hk : k < 32) : (maskOf l).getLsbD k = true ↔ k ∈ l := by
  have key : ∀ (l : List Nat) (m : BitVec 32),
      (l.foldl (fun m j => m ||| BitVec.ofNat 32 (2 ^ j)) m).getLsbD k = true ↔ m.getLsbD k = true ∨ k ∈ l := by
    intro l
    induction l with
    | nil => simp
    | cons a l ih =>
      intro m
      rw [List.foldl_cons, ih, BitVec.getLsbD_or, BitVec.getLsbD_ofNat, Nat.testBit_two_pow, List.mem_cons]
      simp only [Bool.or_eq_true, Bool.and_eq_true, decide_eq_true_eq, hk, true_and]
      rw [or_assoc, @eq_comm _ a k]
  exact (key l 0).trans (by simp)

/-- The values that the participants of a VOTE read. -/
def voteVals (s : State) (t : Nat) (g : Gang) (r : ClauseRun) (es : List ApprEntry) (a : Sel) : List (Nat × Word) :=
  (execLanes g r).map fun l => (l, (opEnv s t g r es).int32 l a 0 0)

theorem word_bne_zero {x : Word} : (x != 0) = true ↔ x.toNat ≠ 0 := by
  rw [bne_iff_ne, ne_eq, ← BitVec.toNat_inj]
  rfl

section
variable {s : State} {t : Nat} {g : Gang} {r : ClauseRun} {es : List ApprEntry} {a : Sel}

/-- The participants whose value is not zero. -/
theorem voteVals_filter : (voteVals s t g r es a).filter (fun p => p.2 != 0) =
    ((execLanes g r).filter fun l => operand s t g r es [.int .u32 a] l 0 != 0).map fun l => (l, (opEnv s t g r es).int32 l a 0 0) := by
  rw [voteVals, List.filter_map]
  refine congrArg _ (List.filter_congr fun l _ => ?_)
  rw [Bool.eq_iff_iff, Function.comp_apply, word_bne_zero, int32_toNat_operand, bne_iff_ne]

/-- VOTE's answer, mode by mode. -/
theorem voteOf_spec (m : VoteMode) (l : Nat) :
    let ls := execLanes g r
    let x := fun l => operand s t g r es [.int .u32 a] l 0
    let z := voteOf m (voteVals s t g r es a) ((opEnv s t g r es).int32 l a 0 0)
    z < 2 ^ 64 ∧ (m = .all → z = if ∀ k ∈ ls, x k ≠ 0 then 1 else 0) ∧ (m = .any → z = if ∃ k ∈ ls, x k ≠ 0 then 1 else 0) ∧
      (m = .eq → z = if ∀ k ∈ ls, x k = x l then 1 else 0) ∧ (m = .popc → z = (ls.filter fun k => x k != 0).length) ∧
      (m = .ballot → ∀ k, k < 32 → (z.testBit k ↔ 32 * g.hset + k ∈ ls ∧ x (32 * g.hset + k) ≠ 0)) := by
  intro ls x z
  have hbool : ∀ b : Prop, [Decidable b] → (if b then 1 else 0) < 2 ^ 64 := fun b _ => by split <;> decide
  cases m with
  | all =>
    refine ⟨hbool _, fun _ => ?_, nofun, nofun, nofun, nofun⟩
    refine if_congr ?_ rfl rfl
    rw [voteVals_filter, List.length_map, voteVals, List.length_map, List.length_filter_eq_length_iff]
    simp only [bne_iff_ne]
    rfl
  | any =>
    refine ⟨?_, nofun, fun _ => ?_, nofun, nofun, nofun⟩
    · show (if _ then 0 else 1) < 2 ^ 64
      split <;> decide
    · show (if _ then 0 else 1) = _
      rw [voteVals_filter, ← ite_not]
      refine if_congr ?_ rfl rfl
      rw [List.isEmpty_iff, List.map_eq_nil_iff, List.filter_eq_nil_iff]
      simp only [bne_iff_ne, not_forall, exists_prop, not_not]
      rfl
  | eq =>
    refine ⟨hbool _, nofun, nofun, fun _ => ?_, nofun, nofun⟩
    refine if_congr ?_ rfl rfl
    rw [voteVals, List.all_map, List.all_eq_true]
    refine forall₂_congr fun k _ => ?_
    rw [Function.comp_apply, beq_iff_eq, ← BitVec.toNat_inj, int32_toNat_operand, int32_toNat_operand]
  | popc =>
    have hz : z = (ls.filter fun k => x k != 0).length := by
      show List.length _ = _
      rw [voteVals_filter, List.length_map]
    refine ⟨?_, nofun, nofun, nofun, fun _ => hz, nofun⟩
    have h1 : (ls.filter fun k => x k != 0).length ≤ ls.length := List.length_filter_le ..
    have h2 : ls.length ≤ 32 := by
      show (lanesOf g.hset r.exec).length ≤ 32
      rw [lanesOf, List.length_map]
      exact (List.length_filter_le ..).trans (by simp)
    omega
  | ballot =>
    refine ⟨?_, nofun, nofun, nofun, nofun, fun _ k hk => ?_⟩
    · show BitVec.toNat _ < _
      exact (BitVec.isLt _).trans (by decide)
    · show (BitVec.toNat _).testBit k = true ↔ _
      rw [BitVec.testBit_toNat, voteVals_filter, maskOfLanes, getLsbD_maskOf _ hk]
      simp only [List.mem_map, List.mem_filter, bne_iff_ne, exists_exists_and_eq_and]
      constructor
      · rintro ⟨j, ⟨hj, hx⟩, rfl⟩
        have hhome := (mem_execLanes.1 hj).1
        have : 32 * g.hset + posOf j = j := by unfold homeOf posOf at *; omega
        rw [this]
        exact ⟨hj, hx⟩
      · rintro ⟨hj, hx⟩
        exact ⟨_, ⟨hj, hx⟩, by unfold posOf; omega⟩

/-- What stands beside a lane in a list of the lanes' values. -/
theorem find_lane {α : Type} (ls : List Nat) (f : Nat → α) (k : Nat) :
    (ls.map fun l => (l, f l)).find? (fun x => x.1 == k) = if k ∈ ls then some (k, f k) else none := by
  induction ls with
  | nil => rfl
  | cons a ls ih =>
    by_cases h : a = k
    · simp [h]
    · simpa [h, Ne.symm h] using ih

/-- The lane that a SHFL reads from, where it lies in the home set and in the execute mask; the lane itself elsewhere (R43). -/
def shflSource (g : Gang) (r : ClauseRun) (m : ShflMode) (l b : Nat) : Nat :=
  match shflFrom m (posOf l) b with
  | some q => if 32 * g.hset + q ∈ execLanes g r then 32 * g.hset + q else l
  | none => l

/-- SHFL gives each participant the value of its source lane. -/
theorem shflBody_eq (s : State) (t : Nat) (g : Gang) (r : ClauseRun) (es : List ApprEntry) (m : ShflMode) (a b : Sel) (d : Dest) :
    shflBody m a b d (opEnv s t g r es) = crossBody d ((execLanes g r).map fun l =>
        (l, BitVec.ofNat 64 (operand s t g r es [.int .u32 a, .int .u32 b]
          (shflSource g r m l (operand s t g r es [.int .u32 a, .int .u32 b] l 1)) 0))) (opEnv s t g r es) := by
  unfold shflBody
  dsimp only
  rw [List.map_map]
  refine congrArg (crossBody d · _) (List.map_congr_left fun l hl => ?_)
  refine congrArg (Prod.mk l) ?_
  show (match shflFrom m (posOf l) (operand s t g r es [.int .u32 a, .int .u32 b] l 1) with
    | some q => _ | none => _) = _
  unfold shflSource
  split
  · next q _ =>
    show (match ((execLanes g r).map fun l => (l, (opEnv s t g r es).opds l [.int .u32 a, .int .u32 b] 0 0)).find?
      (fun x => x.1 == 32 * g.hset + q) with | some x => _ | none => _) = _
    rw [find_lane]
    split_ifs with hq
    · exact ((BitVec.ofNat_toNat ..).trans (BitVec.setWidth_eq _)).symm
    · exact ((BitVec.ofNat_toNat ..).trans (BitVec.setWidth_eq _)).symm
  · exact ((BitVec.ofNat_toNat ..).trans (BitVec.setWidth_eq _)).symm

end

/-- VOTE gives each participant its mode's answer. -/
theorem voteBody_eq (s : State) (t : Nat) (g : Gang) (r : ClauseRun) (es : List ApprEntry) (m : VoteMode) (a : Sel) (d : Dest) :
    voteBody m a d (opEnv s t g r es) = crossBody d ((execLanes g r).map fun l =>
      (l, BitVec.ofNat 64 (voteOf m (voteVals s t g r es a) ((opEnv s t g r es).int32 l a 0 0)))) (opEnv s t g r es) := by
  unfold voteBody
  dsimp only
  rw [List.map_map]
  rfl

/-- Settles O9: the answer of a VOTE mode by mode, and the source lane of a SHFL. -/
theorem voteAndShuffle : Obligations.VoteAndShuffle := by
  unfold Obligations.VoteAndShuffle
  intro s t g r es nw d a b ls
  refine ⟨?_, ?_⟩
  · intro m x h
    obtain ⟨s', hs, hp, hf, hsum, hl, hh⟩ :=
      laneIssue_writes h (declared_dst rfl (.inl rfl)) rfl _ ((voteBody_eq s t g r es m a (dst nw d 1)).trans (crossBody_eq s t g r es (dst nw d 1) _))
    refine ⟨s', _, hs, hp, hf, hsum, hl, hh, fun l _ => ?_⟩
    obtain ⟨hlt, hspec⟩ := voteOf_spec (s := s) (t := t) (g := g) (r := r) (es := es) (a := a) m l
    rw [BitVec.toNat_ofNat, Nat.mod_eq_of_lt hlt]
    exact hspec
  · intro m x h
    obtain ⟨s', hs, hp, hf, hsum, -, hh⟩ := laneIssue_writes h (declared_dst rfl (.inl rfl)) rfl _
      ((shflBody_eq s t g r es m a b (dst nw d 1)).trans (crossBody_eq s t g r es (dst nw d 1) _))
    refine ⟨s', hs, hp, hf, hsum, ?_⟩
    convert hh using 2 with l
    refine congrArg (BitVec.ofNat 64) ?_
    have hq : ∀ (src : Int) (q : Option Nat), q = (if 0 ≤ src ∧ src ≤ 31 then some src.toNat else none) →
        (if 0 ≤ src ∧ src ≤ 31 ∧ 32 * g.hset + src.toNat ∈ ls then x (32 * g.hset + src.toNat) 0 else x l 0) =
          x (match q with | some q => if 32 * g.hset + q ∈ execLanes g r then 32 * g.hset + q else l | none => l) 0 := by
      rintro src _ rfl
      by_cases hr : 0 ≤ src ∧ src ≤ 31
      · by_cases hm : 32 * g.hset + src.toNat ∈ ls
        · rw [if_pos ⟨hr.1, hr.2, hm⟩, if_pos hr]
          dsimp only
          rw [if_pos hm]
        · rw [if_neg fun h => hm h.2.2, if_pos hr]
          dsimp only
          rw [if_neg hm]
      · rw [if_neg fun h => hr ⟨h.1, h.2.1⟩, if_neg hr]
    cases m <;> exact hq _ _ rfl

end Sys2Proof.Machine
end

section
/-! SUPPORT. MOVSW (spec/04 R79): what it writes, and the statement about it. -/

namespace Sys2Proof.Machine

open Sys2Proof Sys2Proof.Safety

-- One proof at a time: side by side they need more threads than a check's memory holds.
set_option Elab.async false

/-- An instruction that pops nothing leaves the cores as its body does. -/
theorem laneIssue_cores {s : State} {t : Nat} {g : Gang} {r : ClauseRun} {i : Instr} {es : List ApprEntry} (h : Ready s t g r i es)
    {body : Env → Res} {s1 s' : State} {vals : List (Nat × Dword)} (hb : body (opEnv s t g r es) = .ok s1 vals)
    (hs : laneIssue i body s = .next s') (hp : popless i = true) : s'.cores = s1.cores := by
  have hlk : (opEnv s t g r es).holders = [] := Env.holders_nil (e := opEnv s t g r es) h.unlocked
  obtain ⟨-, -, -, -, -, -, hpop⟩ := State.takePops_kept (s1.updWg t fun w => w) (opEnv s t g r es) i
  rw [laneIssue_ready h body, ← opEnv, hb, State.settle_ok' hlk] at hs
  change Host.Outcome.next
    (((State.takePops (s1.updWg t fun w => w) (opEnv s t g r es) i).advance t g.id i r vals).spent s.free) = _ at hs
  obtain ⟨f, -, hadv⟩ := State.advance_frame (s := s1.updWg t fun w => w) (t := t) (g := g) (i := i) h.plain h.within vals
  rw [hpop hp, hadv] at hs
  cases hs
  rfl

/-- Each lane of a list changed by its own value: lanes outside stand. -/
theorem Workgroup.lane_overUpd {α : Type} (ls : List Nat) (hn : ls.Nodup) (v : Nat → α) (F : α → Lane → Lane) (w : Workgroup) (m : Nat) :
    (overList (ls.map fun l => (l, v l)) w fun w p => w.updLane p.1 (F p.2)).lane m =
      if m ∈ ls then F (v m) (w.lane m) else w.lane m := by
  induction ls generalizing w with
  | nil => rfl
  | cons a ls ih =>
    obtain ⟨ha, hn⟩ := List.nodup_cons.1 hn
    refine (ih hn (w.updLane a (F (v a)))).trans ?_
    rw [Workgroup.lane_updLane]
    by_cases hm : m = a
    · simp [hm, ha]
    · simp [hm]

/-- Changes of lanes leave everything else of a workgroup. -/
theorem Workgroup.overUpd_rest {α : Type} (l : List α) (k : α → Nat) (F : α → Lane → Lane) (w : Workgroup) :
    (overList l w fun w p => w.updLane (k p) (F p)) = { w with lanes := (overList l w fun w p => w.updLane (k p) (F p)).lanes } := by
  induction l generalizing w with
  | nil => rfl
  | cons a l ih => exact ih (w.updLane (k a) (F a))

/-- What MOVSW makes of its workgroup, of the values that the lanes read. -/
def Workgroup.putSpecial (w : Workgroup) (q : SReg) (vs : List (Nat × Word)) : Workgroup :=
  match q with
  | .flags => overList vs w fun w p => w.updLane p.1 fun x => { x with cf := p.2.getLsbD 0 }
  | .fpmode => overList vs w fun w p => w.updLane p.1 fun x => { x with fpmode := p.2.setWidth 2 }
  | .gangctl => match vs.getLast? with
    | some p => { w with rgwin := p.2.setWidth 10, yhold := (p.2 >>> 10).setWidth 6 }
    | none => w
  | _ => w

theorem movswBody_eq (q : SReg) (a : Sel) (e : Env) :
    movswBody q a e = .ok (e.s.updWg e.t fun w => w.putSpecial q (e.ls.map fun l => (l, e.int32 l a 0 0)))
      (e.ls.map fun l => (l, (e.int32 l a 0 0).setWidth 64)) := by
  unfold movswBody Workgroup.putSpecial
  dsimp only
  rw [List.map_map]
  rfl

/-- MOVSW writes lanes, or the windows of gang control, and nothing else. -/
theorem Workgroup.putSpecial_rest (w : Workgroup) (q : SReg) (vs : List (Nat × Word)) : w.putSpecial q vs =
    { w with lanes := (w.putSpecial q vs).lanes, rgwin := (w.putSpecial q vs).rgwin, yhold := (w.putSpecial q vs).yhold } := by
  cases q with
  | flags | fpmode =>
    rw [Workgroup.putSpecial, Workgroup.overUpd_rest]
  | gangctl =>
    rw [Workgroup.putSpecial]
    split <;> rfl
  | _ => rfl

/-- A lane after MOVSW: CF or the rounding mode alone, in the lanes that have read a value. -/
theorem Workgroup.lane_putSpecial (w : Workgroup) (q : SReg) {ls : List Nat} (hn : ls.Nodup) (v : Nat → Word) (l : Nat) :
    (w.putSpecial q (ls.map fun l => (l, v l))).lane l = { w.lane l with
      cf := if q = .flags ∧ l ∈ ls then (v l).getLsbD 0 else (w.lane l).cf
      fpmode := if q = .fpmode ∧ l ∈ ls then (v l).setWidth 2 else (w.lane l).fpmode } := by
  cases q with
  | flags =>
    refine (Workgroup.lane_overUpd ls hn v (fun y x => { x with cf := y.getLsbD 0 }) w l).trans ?_
    split <;> simp [*]
  | fpmode =>
    refine (Workgroup.lane_overUpd ls hn v (fun y x => { x with fpmode := y.setWidth 2 }) w l).trans ?_
    split <;> simp [*]
  | gangctl =>
    rw [Workgroup.putSpecial]
    split <;> simp [Workgroup.lane]
  | _ => simp [Workgroup.putSpecial]

/-- The windows of gang control after MOVSW: those of the highest lane, where it writes them. -/
theorem Workgroup.windows_putSpecial (w : Workgroup) (q : SReg) (ls : List Nat) (v : Nat → Word) :
    (∀ l, ls.getLast? = some l → q = .gangctl → (w.putSpecial q (ls.map fun l => (l, v l))).rgwin = (v l).setWidth 10 ∧
      (w.putSpecial q (ls.map fun l => (l, v l))).yhold = (v l >>> 10).setWidth 6) ∧
    (q ≠ .gangctl ∨ ls = [] → (w.putSpecial q (ls.map fun l => (l, v l))).rgwin = w.rgwin ∧
      (w.putSpecial q (ls.map fun l => (l, v l))).yhold = w.yhold) := by
  constructor
  · rintro l hl rfl
    have hlast : (ls.map fun l => (l, v l)).getLast? = some (l, v l) := by rw [List.getLast?_map, hl]; rfl
    simp [Workgroup.putSpecial, hlast]
  · rintro (hq | rfl)
    · cases q with
      | gangctl => exact absurd rfl hq
      | flags | fpmode =>
        rw [Workgroup.putSpecial, Workgroup.overUpd_rest]
        exact ⟨rfl, rfl⟩
      | _ => exact ⟨rfl, rfl⟩
    · cases q <;> exact ⟨rfl, rfl⟩

/-- Settles O8: what MOVSW writes, lane by lane and in gang control; the close of the instruction adds nothing to it. -/
theorem specialRegisterWrites : Obligations.SpecialRegisterWrites := by
  unfold Obligations.SpecialRegisterWrites
  intro s t g r es q a x h
  set v : Nat → Word := fun l => (opEnv s t g r es).int32 l a 0 0 with hv
  have hx : ∀ l, (v l).toNat = x l := fun l => int32_toNat_operand s t g r es a l
  have hb : movswBody q a (opEnv s t g r es) = .ok ((taken s).updWg t fun w => w.putSpecial q ((execLanes g r).map fun l => (l, v l)))
      ((execLanes g r).map fun l => (l, (v l).setWidth 64)) := movswBody_eq q a (opEnv s t g r es)
  set w1 := (s.wg t).putSpecial q ((execLanes g r).map fun l => (l, v l)) with hw1
  have hself : (((taken s).updWg t fun w => w.putSpecial q ((execLanes g r).map fun l => (l, v l))).wg t) = w1 :=
    State.wg_updWg_self ..
  have hrest := (s.wg t).putSpecial_rest q ((execLanes g r).map fun l => (l, v l))
  have hlane := (s.wg t).lane_putSpecial q (ls := execLanes g r) (lanesOf_nodup ..) v
  obtain ⟨hwin, hstand⟩ := (s.wg t).windows_putSpecial q (execLanes g r) v
  rw [← hw1] at hrest
  have hg : (((taken s).updWg t fun w => w.putSpecial q ((execLanes g r).map fun l => (l, v l))).wg t).gang? g.id =
      some g := by
    rw [hself, hrest]
    exact h.gang
  obtain ⟨s', hs, hwent, hcl, hworld, hothers⟩ := laneIssue_closed h hb hg
  rw [hself] at hcl
  have hlast : ∀ l, ((s'.wg t).lane l).cf = (w1.lane l).cf ∧ ((s'.wg t).lane l).p = (w1.lane l).p ∧
      ((s'.wg t).lane l).fpmode = (w1.lane l).fpmode := fun l => by
    rw [hcl.lane l]
    exact ⟨rfl, rfl, rfl⟩
  have hs1 : (s'.wg t).rgwin = w1.rgwin ∧ (s'.wg t).yhold = w1.yhold := by
    rw [hcl.rest]
    exact ⟨rfl, rfl⟩
  refine ⟨s', hs, hwent, ⟨?_, fun hp => ?_, fun u hu => ?_⟩, ?_, fun l n => ?_, fun l => ?_, fun c => ?_, ?_, ?_, fun l => ?_, fun l => ?_,
    ?_, fun hq => ?_⟩
  · rw [hworld]
    rfl
  · exact (laneIssue_cores h hb hs (by simpa using hp)).trans rfl
  · rw [hothers u hu]
    exact State.wg_updWg_ne _ _ hu
  · intro hw g' r' hg' hr' l hh
    rw [laneIssue_latches h rfl hb hg hs hg' hr']
    refine (latchRead_append_mkLatch hw _ hh).trans ?_
    refine if_congr Iff.rfl ?_ rfl
    show (v l).setWidth 64 = BitVec.ofNat 64 (x l)
    rw [← hx, BitVec.ofNat_toNat]
  · rw [hcl.reg, hw1, hlane]
    rfl
  · rw [(hlast l).2.1, hw1, hlane]
  · rw [hcl.crew, hrest]
    rfl
  · unfold SummaryKept
    rw [hcl.rest, hrest]
    exact ⟨rfl, rfl, rfl⟩
  · rw [hcl.rest, hrest]
  · unfold cfOf
    rw [(hlast l).1, hw1, hlane]
    refine if_congr Iff.rfl ?_ rfl
    rw [← hx, BitVec.testBit_toNat]
  · rw [(hlast l).2.2, hw1, hlane]
    refine if_congr Iff.rfl ?_ rfl
    rw [← hx, BitVec.ofNat_toNat]
  · split
    · next l hl =>
      intro hq
      obtain ⟨h1, h2⟩ := hwin l hl hq
      rw [hs1.1, hs1.2, hw1, h1, h2, BitVec.toNat_setWidth, BitVec.toNat_setWidth, BitVec.toNat_ushiftRight, hx]
      exact ⟨rfl, by rw [Nat.shiftRight_eq_div_pow]⟩
    · trivial
  · rw [hs1.1, hs1.2]
    exact hstand hq

end Sys2Proof.Machine
end

section
/-! SUPPORT. Results of several words with a summary (spec/05 R116, spec/06 R119): an instruction whose body adds to the exception
summary and writes its lanes' words, and what it leaves. -/

namespace Sys2Proof.Machine

open Sys2Proof Sys2Proof.Safety

-- One proof at a time: side by side they need more threads than a check's memory holds.
set_option Elab.async false

/-! ### Words written to a destination -/

/-- The lanes of E hold their words from destination `d` up, each lane its own in main or small registers that no load in flight is to
write, the crew the highest lane's in uniform ones (spec/04 R75, R76). -/
def HoldsWords (w w' : Workgroup) (ls : List Nat) (d : Sel) (k : Nat) (words : Nat → List Word) : Prop :=
  (∀ n, d = .s n → ∀ l c, ls.getLast? = some l → (w.lane l).crew = some c → ∀ j, j < k →
    (w'.crew c).s.get (n + j) = (words l).getD j 0) ∧
  ((∀ n, d ≠ .s n) → ∀ c, regCode d = some c → ∀ l ∈ ls, ∀ j, j < k → Settled w l (c + j) →
    (w'.lane l).reg (c + j) = (words l).getD j 0)

/-- What stands in the registers after the words of lanes without repeats are written. -/
theorem Workgroup.writeSel_holdsWords (w : Workgroup) (free : Nat) (d : Sel) (k : Nat) {ls : List Nat} (hn : ls.Nodup)
    (words : Nat → List Word) (hk : ∀ l, (words l).length = k) :
    HoldsWords w (w.writeSel free d (ls.map fun l => (l, words l))) ls d k words := by
  constructor
  · rintro n rfl l c hl hc j hj
    have hlast : (ls.map fun l => (l, words l)).getLast? = some (l, words l) := by rw [List.getLast?_map, hl]; rfl
    unfold Workgroup.writeSel
    simp only [hlast, hc]
    rw [Workgroup.crew_updCrew_self]
    exact get_overSet_at (words l) (w.crew c).s n 0 j (by rw [hk]; exact hj)
  · intro hne c hc l hl j hj hs
    have hwrite : w.writeSel free d (ls.map fun l => (l, words l)) = overList (ls.map fun l => (l, words l)) w fun w p =>
        overList p.2.zipIdx w fun w q => w.writeReg free p.1 (c + q.2) q.1 := by
      unfold Workgroup.writeSel
      split
      · next n => exact absurd rfl (hne n)
      · simp [hc]
    rw [hwrite, reg_overLanes _ _ _ _ (by rw [List.map_map]; simpa [Function.comp_def] using hn) _ _ hs, find_lane, if_pos hl]
    dsimp only
    rw [hk, if_pos (by omega), Nat.add_sub_cancel_left]

/-- `HoldsWords` speaks of registers, crews and pending loads only. -/
theorem HoldsWords.congr {w v w' v' : Workgroup} {ls : List Nat} {d : Sel} {k : Nat} {words : Nat → List Word}
    (h : HoldsWords w w' ls d k words) (h1 : ∀ l, (v.lane l).crew = (w.lane l).crew) (h2 : v.crews = w.crews)
    (h3 : ∀ l c, (v'.lane l).reg c = (w'.lane l).reg c) (h4 : ∀ c, (v'.crew c).s = (w'.crew c).s) :
    HoldsWords v v' ls d k words := by
  constructor
  · intro n hd l c hl hc j hj
    rw [h4]
    exact h.1 n hd l c hl (h1 l ▸ hc) j hj
  · intro hd c hc l hl j hj hs
    rw [h3]
    refine h.2 hd c hc l hl j hj ?_
    unfold Settled Workgroup.pendingItems at hs ⊢
    rwa [h2] at hs

/-- Words that are a result's are held as a result is. -/
theorem HoldsWords.holds {w w' : Workgroup} {ls : List Nat} {d : Sel} {k : Nat} (hk : k = 1 ∨ k = 2) {words : Nat → List Word}
    {val : Nat → Dword} (h : HoldsWords w w' ls d k words) (hw : ∀ l, words l = splitWords k (val l)) :
    Holds w w' ls (some (d, k)) val := by
  unfold Holds
  split
  · trivial
  · next n j hd =>
    cases hd
    intro l c hl hc i hi
    rw [h.1 n rfl l c hl hc i hi, hw, splitWords_getD hk _ hi]
  · next q j hq hd =>
    cases hd
    intro c hc l hl i hi hs
    rw [h.2 (fun n e => hq n (e ▸ rfl)) c hc l hl i hi hs, hw, splitWords_getD hk _ hi]

/-! ### Bodies that add to the summary -/

/-- A body has made `w1` of workgroup `w` before it writes its lanes' words: lanes and crews stand, and the summary fits the
instruction. -/
structure Summed (i : Instr) (w w1 : Workgroup) : Prop where
  rest : w1 = { w with flags := w1.flags, satcnt := w1.satcnt, nanscore := w1.nanscore }
  summary : SummaryGrown w w1 i

theorem Summed.refl (i : Instr) (w : Workgroup) : Summed i w w := ⟨rfl, Safety.SummaryGrown.refl w i⟩

theorem Summed.trans {i : Instr} {a b c : Workgroup} (h : Summed i a b) (k : Summed i b c) : Summed i a c :=
  ⟨by rw [k.rest, h.rest], Safety.SummaryGrown.trans h.summary k.summary⟩

/-- Flags and counts that the instruction can raise and move. -/
theorem Summed.sumUp {i : Instr} (w : Workgroup) {fl : FFlags} {sat nan : Nat} (hf : raisesFlags i = false → fl = 0)
    (hs : saturates i = false → sat = 0) (hn : countsNans i = false → nan = 0) : Summed i w (w.sumUp fl sat nan) where
  rest := rfl
  summary := {
    sticky := by
      show w.flags ||| fl = w.flags ||| (w.flags ||| fl)
      rw [← BitVec.or_assoc, BitVec.or_self]
    flags h := by
      show w.flags ||| fl = w.flags
      rw [hf h]
      exact BitVec.or_zero
    satcnt := ⟨le_satAdd .., fun h => by
      show satAdd w.satcnt sat = w.satcnt
      rw [hs h, satAdd_zero]⟩
    nanscore := ⟨le_satAdd .., fun h => by
      show satAdd w.nanscore nan = w.nanscore
      rw [hn h, satAdd_zero]⟩ }

theorem Summed.over {α : Type} {i : Instr} {f : Workgroup → α → Workgroup} (l : List α) (h : ∀ w x, x ∈ l → Summed i w (f w x))
    (w : Workgroup) : Summed i w (overList l w f) := by
  induction l generalizing w with
  | nil => exact Summed.refl i w
  | cons a l ih =>
    exact (h w a (by simp)).trans (ih (fun w x hx => h w x (List.mem_cons_of_mem _ hx)) (f w a))

/-- An instruction whose body adds to the summary and writes each lane of E its `k` words, unless NW, and does no more. -/
theorem laneIssue_words {s : State} {t : Nat} {g : Gang} {r : ClauseRun} {i : Instr} {es : List ApprEntry} (h : Ready s t g r i es)
    {body : Env → Res} {nw : Bool} {d : Sel} {k : Nat} {w1 : Workgroup} {words : Nat → List Word} {vals : List (Nat × Dword)}
    (hw : i.writes = nwDst (nw && !false) d k) (hk : ∀ l, (words l).length = k) (h1 : Summed i (s.wg t) w1)
    (hb : body (opEnv s t g r es) = .ok ((taken s).updWg t fun _ =>
      if nw then w1 else w1.writeSel s.free d ((execLanes g r).map fun l => (l, words l))) vals) :
    ∃ s', laneIssue i body s = .next s' ∧ Performed s s' t g r i ∧ FlagsKept s s' t ∧
      ((s'.wg t).flags = w1.flags ∧ (s'.wg t).satcnt = w1.satcnt ∧ (s'.wg t).nanscore = w1.nanscore) ∧
      (i.leavesLatch = true → ∀ val : Nat → Dword, vals = (execLanes g r).map (fun l => (l, val l)) → LatchLeft s' t g r val) ∧
      (nw = false → HoldsWords (s.wg t) (s'.wg t) (execLanes g r) d k words) := by
  set w2 := if nw then w1 else w1.writeSel s.free d ((execLanes g r).map fun l => (l, words l)) with hw2
  have hlanes : ∀ l, w1.lane l = (s.wg t).lane l := fun l => by rw [h1.rest]; rfl
  have hcrews : ∀ c, w1.crew c = (s.wg t).crew c := fun c => by rw [h1.rest]; rfl
  have ht1 : Touch (execLanes g r) (fun n => ∃ d ∈ i.writes, n ∈ codesOf d) (fun n => ∃ d ∈ i.writes, n ∈ uniformOf d) (s.wg t) w1 := by
    refine ⟨?_, fun l _ => hlanes l, fun l => ?_, fun l n _ => by rw [hlanes], fun c => ?_, fun c n _ => by rw [hcrews]⟩
    · rw [h1.rest]
    · rw [hlanes]
    · rw [hcrews]
  have ht : Touch (execLanes g r) (fun n => ∃ d ∈ i.writes, n ∈ codesOf d) (fun n => ∃ d ∈ i.writes, n ∈ uniformOf d) (s.wg t) w2 := by
    rw [hw2]
    split
    · exact ht1
    · next hnw =>
      have hmem : (d, k) ∈ i.writes := by
        rw [hw, Bool.eq_false_iff.2 hnw]
        exact List.mem_singleton.2 rfl
      have hwrite := Touch.writeSel (ls := execLanes g r) (k := k) w1 s.free d ((execLanes g r).map fun l => (l, words l)) fun p hp => by
        obtain ⟨l, hl, rfl⟩ := List.mem_map.1 hp
        exact ⟨hl, hk l⟩
      exact ht1.trans (hwrite.mono (fun n hn => ⟨_, hmem, hn⟩) fun n hn => ⟨_, hmem, hn⟩)
  have hfl : ∀ l, (w2.lane l).cf = ((s.wg t).lane l).cf ∧ (w2.lane l).p = ((s.wg t).lane l).p := by
    intro l
    rw [hw2, ← hlanes]
    split
    · exact ⟨rfl, rfl⟩
    · exact Workgroup.writeSel_flags ..
  have hsum : w2.flags = w1.flags ∧ w2.satcnt = w1.satcnt ∧ w2.nanscore = w1.nanscore := by
    rw [hw2]
    split
    · exact ⟨rfl, rfl, rfl⟩
    · exact Workgroup.writeSel_summary ..
  have hfit : Safety.FlagsFit i (s.wg t) w2 :=
    (Safety.FlagsFit.mk (fun _ l => by rw [hlanes]) (fun l n _ => by rw [hlanes]) h1.summary).trans
      (.of_eq (fun l => by rw [hlanes]; exact hfl l) hsum.1 hsum.2.1 hsum.2.2)
  have hself : ((taken s).updWg t fun _ => w2).wg t = w2 := State.wg_updWg_self ..
  obtain ⟨s', hs, hp, hregs, hflags, hunis, hsums⟩ := laneIssue_performed h body _ _ hb rfl (fun u hu => State.wg_updWg_ne _ _ hu)
    (hself.symm ▸ ht) (hself.symm ▸ hfit)
  rw [hself] at hregs hflags hunis
  unfold SummaryKept at hsums
  rw [hself] at hsums
  refine ⟨s', hs, hp, fun l => ?_, ?_, ?_, ?_⟩
  · unfold cfOf
    exact ⟨(hflags l).1.trans (hfl l).1, (hflags l).2.trans (hfl l).2⟩
  · exact ⟨hsums.1.trans hsum.1, hsums.2.1.trans hsum.2.1, hsums.2.2.trans hsum.2.2⟩
  · rintro hl val rfl hwd g' r' hg' hr' l hh
    have hg : (((taken s).updWg t fun _ => w2).wg t).gang? g.id = some g := by
      rw [hself]
      unfold Workgroup.gang?
      rw [ht.gangs]
      exact h.gang
    rw [laneIssue_latches h hl hb hg hs hg' hr']
    exact latchRead_append_mkLatch hwd _ hh
  · rintro rfl
    refine (Workgroup.writeSel_holdsWords w1 s.free d k (lanesOf_nodup g.hset r.exec) words hk).congr (fun l => by rw [hlanes]) ?_
      (fun l c => hregs l c) fun c => hunis c
    rw [h1.rest]

end Sys2Proof.Machine
end

section
/-! SUPPORT. Floating-point instructions (spec/05, spec/06 R119-R131): which of them can saturate, what their lanes' computations give
beside the result, and the statement about every instruction that computes. -/

namespace Sys2Proof.Machine

open Sys2Proof Sys2Proof.Safety

-- One proof at a time: side by side they need more threads than a check's memory holds.
set_option Elab.async false

/-! ### Results that have not saturated -/

@[simp] theorem FFmt.round_sat (f : FFmt) (mode : Rounding) (n : Bool) (m : Nat) (e : Int) : (f.round mode n m e).sat = 0 := by
  unfold FFmt.round
  dsimp only
  split
  · rfl
  · split <;> rfl

@[simp] theorem FFmt.roundInt_sat (f : FFmt) (mode : Rounding) (z : Bool) (n e : Int) : (f.roundInt mode z n e).sat = 0 := by
  unfold FFmt.roundInt
  split
  · rfl
  · exact f.round_sat ..

theorem FFmt.nanOf_sat {f : FFmt} {l : List FVal} {r : FRes} (h : f.nanOf l = some r) : r.sat = 0 := by
  unfold FFmt.nanOf at h
  split at h
  · cases h
    rfl
  · cases h

@[simp] theorem FFmt.ofVal_sat (f : FFmt) (mode : Rounding) (v : FVal) : (f.ofVal mode v).sat = 0 := by
  cases v with
  | fin n m e => exact f.round_sat ..
  | _ => rfl

@[simp] theorem FFmt.add_sat (f : FFmt) (mode : Rounding) (a b : FVal) : (f.add mode a b).sat = 0 := by
  unfold FFmt.add
  split
  · next h => exact FFmt.nanOf_sat h
  · split
    · split <;> rfl
    · rfl
    · rfl
    · exact f.roundInt_sat ..
    · rfl

@[simp] theorem FFmt.sub_sat (f : FFmt) (mode : Rounding) (a b : FVal) : (f.sub mode a b).sat = 0 := f.add_sat ..

@[simp] theorem FFmt.mul_sat (f : FFmt) (mode : Rounding) (a b : FVal) : (f.mul mode a b).sat = 0 := by
  unfold FFmt.mul
  split
  · next h => exact FFmt.nanOf_sat h
  · split
    · exact f.ofVal_sat ..
    · rfl

@[simp] theorem FFmt.fma_sat (f : FFmt) (mode : Rounding) (a b c : FVal) : (f.fma mode a b c).sat = 0 := by
  unfold FFmt.fma
  dsimp only
  split
  · next r h =>
    have hr : r.sat = 0 := FFmt.nanOf_sat h
    split <;> exact hr
  · split
    · exact f.add_sat ..
    · rfl

@[simp] theorem FFmt.div_sat (f : FFmt) (mode : Rounding) (a b : FVal) : (f.div mode a b).sat = 0 := by
  unfold FFmt.div
  split
  · next h => exact FFmt.nanOf_sat h
  · split
    case h_4 =>
      split
      · split <;> rfl
      · split
        · rfl
        · exact f.round_sat ..
    all_goals rfl

@[simp] theorem FFmt.sqrt_sat (f : FFmt) (mode : Rounding) (a : FVal) : (f.sqrt mode a).sat = 0 := by
  unfold FFmt.sqrt
  split
  · next h => exact FFmt.nanOf_sat h
  · split
    · split <;> rfl
    · split
      · rfl
      · split
        · rfl
        · exact f.round_sat ..
    · rfl

@[simp] theorem FFmt.minmax_sat (f : FFmt) (isMax : Bool) (x y : Nat) : (f.minmax isMax x y).sat = 0 := by
  unfold FFmt.minmax
  dsimp only
  split <;> rfl

@[simp] theorem FFmt.rndInt_sat (f : FFmt) (mode : Rounding) (x : Nat) : (f.rndInt mode x).sat = 0 := by
  unfold FFmt.rndInt
  split
  · rfl
  · rfl
  · split
    · rfl
    · exact f.round_sat ..

@[simp] theorem FFmt.scaleBy_sat (f : FFmt) (mode : Rounding) (v : FVal) (n : Int) : (f.scaleBy mode v n).sat = 0 := by
  unfold FFmt.scaleBy
  split
  · exact f.round_sat ..
  · exact f.ofVal_sat ..

@[simp] theorem transFree_sat (fn : Config.Trans) (ty : FType) (x : Nat) (n : Bool) (m : Nat) (e : Int) (ex : FVal → Bool) :
    (transFree fn ty x n m e ex).sat = 0 := by
  unfold transFree
  extract_lets f iv c r v
  split
  · rfl
  · cases v <;> rfl

@[simp] theorem transOp_sat (fn : Config.Trans) (ty : FType) (x : Nat) : (transOp fn ty x).sat = 0 := by
  unfold transOp
  dsimp only
  split
  · rfl
  · cases fn with
    | rcp | sin | cos => rfl
    | _ => dsimp only; split_ifs <;> rfl
  · cases fn with
    | log2 =>
      dsimp only
      split_ifs
      · rfl
      · rfl
      · cases log2Exact _ _ <;> simp
    | _ => dsimp only; split_ifs <;> simp [FFmt.invalid]

/-- A conversion saturates into E4M3 alone, and only where it is asked to (spec/05 R110). -/
theorem convert_sat {t : CvtTarget} {sat : Bool} (h : (decide (t = .e4m3) && sat) = false) (mode : Rounding) (v : FVal) :
    (convert (cvtFmt t) mode sat v).sat = 0 := by
  unfold convert
  split
  · next he =>
    have ht : t = .e4m3 := by cases t <;> first | rfl | cases he
    have hs : sat = false := by simpa [ht] using h
    subst hs
    cases v with
    | nan n fr s => rfl
    | inf n => rfl
    | fin n m e => simp [toE4m3]
  · exact FFmt.ofVal_sat ..

/-! ### What the lanes of a floating-point instruction compute -/

theorem packRes_flags {w : Nat} {rs : List FRes} (h : ∀ r ∈ rs, r.flags = 0) : (packRes w rs).flags = 0 := by
  show rs.foldl (fun f r => f ||| r.flags) 0 = 0
  induction rs with
  | nil => rfl
  | cons a rs ih =>
    rw [List.foldl_cons, h a (by simp)]
    exact ih fun r hr => h r (List.mem_cons_of_mem _ hr)

theorem packRes_sat {w : Nat} {rs : List FRes} (h : ∀ r ∈ rs, r.sat = 0) : (packRes w rs).sat = 0 := by
  show rs.foldl (fun n r => n + r.sat) 0 = 0
  induction rs with
  | nil => rfl
  | cons a rs ih =>
    rw [List.foldl_cons, h a (by simp)]
    exact ih fun r hr => h r (List.mem_cons_of_mem _ hr)

/-- Delivered elements conform to an instruction that raises flags, and saturates where they may have. -/
theorem conforms_packRes {i : Instr} (w : Nat) {rs : List FRes} (hf : raisesFlags i = false → ∀ r ∈ rs, r.flags = 0)
    (hs : saturates i = false → ∀ r ∈ rs, r.sat = 0) : Safety.Conforms i (packRes w rs) where
  cf _ := rfl
  pd _ _ h := nomatch h
  flags h := packRes_flags (hf h)
  sat h := packRes_sat (hs h)
  nan _ := rfl

/-- Elements that are computed one by one, of a function that never saturates. -/
theorem conforms_fltElems {i : Instr} (hf : raisesFlags i = true) (t : FType) {f : Nat → Nat → Nat → FRes} (hs : ∀ a b c, (f a b c).sat = 0)
    (x : LaneIn) : Safety.Conforms i (fltElems t f x) :=
  conforms_packRes _ (fun h => absurd (hf.symm.trans h) (by decide)) fun _ r hr => by
    obtain ⟨k, -, rfl⟩ := List.mem_map.1 hr
    exact hs ..

theorem bspan_cases (n : Nat) : bspan n = 1 ∨ bspan n = 2 := by
  unfold bspan
  split
  · exact .inl rfl
  · exact .inr rfl

theorem fspan_cases (t : FType) : fspan t = 1 ∨ fspan t = 2 := by
  unfold fspan
  split
  · exact .inr rfl
  · exact .inl rfl

/-- An instruction that computes each element by a function that never saturates. -/
theorem computesInto_flt {i : Instr} {ops : List Opd} {d : Dest} {t : FType} {F : LaneIn → Nat → Nat → Nat → FRes}
    (he : ∀ s, exec i s = laneIssue i (aluBody ops d fun x => fltElems t (F x) x) s) (hd : Safety.Declared i d)
    (hl : i.leavesLatch = true) (hf : raisesFlags i = true) (hs : ∀ x a b c, (F x a b c).sat = 0) :
    ComputesInto i ops d fun x => fltElems t (F x) x :=
  ⟨fun s _ _ _ => he s, hd, hl, fun x => conforms_fltElems hf t (hs x) x⟩

theorem computesInto_fadd (o : FltA) : ComputesInto (.fadd o) [.flt o.ty o.a, .flt o.ty o.b] (dst o.nw o.d (fspan o.ty))
    fun x => fltElems o.ty (fun a b _ => op2 o.ty (fun f => f.add x.rnd) a b) x :=
  computesInto_flt (fun _ => rfl) (declared_dst rfl (fspan_cases _)) rfl rfl (by intros; exact FFmt.add_sat ..)

theorem computesInto_fsub (o : FltA) : ComputesInto (.fsub o) [.flt o.ty o.a, .flt o.ty o.b] (dst o.nw o.d (fspan o.ty))
    fun x => fltElems o.ty (fun a b _ => op2 o.ty (fun f => f.sub x.rnd) a b) x :=
  computesInto_flt (fun _ => rfl) (declared_dst rfl (fspan_cases _)) rfl rfl (by intros; exact FFmt.sub_sat ..)

theorem computesInto_fmul (o : FltA) : ComputesInto (.fmul o) [.flt o.ty o.a, .flt o.ty o.b] (dst o.nw o.d (fspan o.ty))
    fun x => fltElems o.ty (fun a b _ => op2 o.ty (fun f => f.mul x.rnd) a b) x :=
  computesInto_flt (fun _ => rfl) (declared_dst rfl (fspan_cases _)) rfl rfl (by intros; exact FFmt.mul_sat ..)

theorem computesInto_fdiv (o : FltA) : ComputesInto (.fdiv o) [.flt o.ty o.a, .flt o.ty o.b] (dst o.nw o.d (fspan o.ty))
    fun x => fltElems o.ty (fun a b _ => op2 o.ty (fun f => f.div x.rnd) a b) x :=
  computesInto_flt (fun _ => rfl) (declared_dst rfl (fspan_cases _)) rfl rfl (by intros; exact FFmt.div_sat ..)

theorem computesInto_fmin (o : FltA) : ComputesInto (.fmin o) [.flt o.ty o.a, .flt o.ty o.b] (dst o.nw o.d (fspan o.ty))
    fun x => fltElems o.ty (fun a b _ => (ftFmt o.ty).minmax false a b) x :=
  computesInto_flt (fun _ => rfl) (declared_dst rfl (fspan_cases _)) rfl rfl (by intros; exact FFmt.minmax_sat ..)

theorem computesInto_fmax (o : FltA) : ComputesInto (.fmax o) [.flt o.ty o.a, .flt o.ty o.b] (dst o.nw o.d (fspan o.ty))
    fun x => fltElems o.ty (fun a b _ => (ftFmt o.ty).minmax true a b) x :=
  computesInto_flt (fun _ => rfl) (declared_dst rfl (fspan_cases _)) rfl rfl (by intros; exact FFmt.minmax_sat ..)

theorem computesInto_fsqrt (o : FltU) : ComputesInto (.fsqrt o) [.flt o.ty o.a] (dst o.nw o.d (fspan o.ty))
    fun x => fltElems o.ty (fun a _ _ => (ftFmt o.ty).sqrt x.rnd ((ftFmt o.ty).decode a)) x :=
  computesInto_flt (fun _ => rfl) (declared_dst rfl (fspan_cases _)) rfl rfl (by intros; exact FFmt.sqrt_sat ..)

theorem computesInto_frcp (o : FltU) : ComputesInto (.frcp o) [.flt o.ty o.a] (dst o.nw o.d (fspan o.ty))
    fun x => fltElems o.ty (fun a _ _ => transOp .rcp o.ty a) x :=
  computesInto_flt (fun _ => rfl) (declared_dst rfl (fspan_cases _)) rfl rfl (by intros; exact transOp_sat ..)

theorem computesInto_frsq (o : FltU) : ComputesInto (.frsq o) [.flt o.ty o.a] (dst o.nw o.d (fspan o.ty))
    fun x => fltElems o.ty (fun a _ _ => transOp .rsq o.ty a) x :=
  computesInto_flt (fun _ => rfl) (declared_dst rfl (fspan_cases _)) rfl rfl (by intros; exact transOp_sat ..)

theorem computesInto_fexp2 (o : FltU) : ComputesInto (.fexp2 o) [.flt o.ty o.a] (dst o.nw o.d (fspan o.ty))
    fun x => fltElems o.ty (fun a _ _ => transOp .exp2 o.ty a) x :=
  computesInto_flt (fun _ => rfl) (declared_dst rfl (fspan_cases _)) rfl rfl (by intros; exact transOp_sat ..)

theorem computesInto_flog2 (o : FltU) : ComputesInto (.flog2 o) [.flt o.ty o.a] (dst o.nw o.d (fspan o.ty))
    fun x => fltElems o.ty (fun a _ _ => transOp .log2 o.ty a) x :=
  computesInto_flt (fun _ => rfl) (declared_dst rfl (fspan_cases _)) rfl rfl (by intros; exact transOp_sat ..)

theorem computesInto_fsin (o : FltU) : ComputesInto (.fsin o) [.flt o.ty o.a] (dst o.nw o.d (fspan o.ty))
    fun x => fltElems o.ty (fun a _ _ => transOp .sin o.ty a) x :=
  computesInto_flt (fun _ => rfl) (declared_dst rfl (fspan_cases _)) rfl rfl (by intros; exact transOp_sat ..)

theorem computesInto_fcos (o : FltU) : ComputesInto (.fcos o) [.flt o.ty o.a] (dst o.nw o.d (fspan o.ty))
    fun x => fltElems o.ty (fun a _ _ => transOp .cos o.ty a) x :=
  computesInto_flt (fun _ => rfl) (declared_dst rfl (fspan_cases _)) rfl rfl (by intros; exact transOp_sat ..)

theorem computesInto_frnd (o : FltU) (m : RndMode) : ComputesInto (.frnd o m) [.flt o.ty o.a] (dst o.nw o.d (fspan o.ty))
    fun x => fltElems o.ty (fun a _ _ => (ftFmt o.ty).rndInt (rndMode m x.rnd) a) x :=
  computesInto_flt (fun _ => rfl) (declared_dst rfl (fspan_cases _)) rfl rfl (by intros; exact FFmt.rndInt_sat ..)

theorem computesInto_ffma (ty : FType) (nw : Bool) (rc : RoundCtl) (d a b c : Sel) :
    ComputesInto (.ffma ty nw rc d a b c) [.flt ty a, .flt ty b, .flt ty c] (dst nw d (fspan ty)) fun x =>
      fltElems ty (fun p q r => (ftFmt ty).fma (ctlMode rc x.rnd) ((ftFmt ty).decode p) ((ftFmt ty).decode q) ((ftFmt ty).decode r)) x :=
  computesInto_flt (fun _ => rfl) (declared_dst rfl (fspan_cases _)) rfl rfl (by intros; exact FFmt.fma_sat ..)

theorem computesInto_fcopys (o : FltA) : ComputesInto (.fcopys o) [.flt o.ty o.a, .flt o.ty o.b] (dst o.nw o.d (fspan o.ty))
    fun x => fltElems o.ty (fun a b _ => copySign o.ty.bits a b) x where
  issues _ _ _ _ := rfl
  declared := declared_dst rfl (fspan_cases _)
  latch := rfl
  conforms x := by
    refine conforms_packRes _ (fun _ r hr => ?_) fun _ r hr => ?_
    · obtain ⟨k, -, rfl⟩ := List.mem_map.1 hr
      rfl
    · obtain ⟨k, -, rfl⟩ := List.mem_map.1 hr
      rfl

theorem computesInto_fscale (o : FltA) :
    ComputesInto (.fscale o) [.flt o.ty o.a, .int (scaleType o.ty) o.b] (dst o.nw o.d (fspan o.ty)) (scaleOut o.ty) where
  issues _ _ _ _ := rfl
  declared := declared_dst rfl (fspan_cases _)
  latch := rfl
  conforms x := by
    refine conforms_packRes _ nofun fun _ r hr => ?_
    obtain ⟨k, -, rfl⟩ := List.mem_map.1 hr
    exact FFmt.scaleBy_sat ..

theorem computesInto_fcmp (c : FCond) (ty : FType) (pd : Nat) (a : Sel) (b : Src) :
    ComputesInto (.fcmp c ty pd a b) [.flt ty a, cmpOpd ty b] none (fcmpOut c ty pd) :=
  ⟨fun _ _ _ _ => rfl, declared_none _, rfl, fun _ => conforms_pred rfl _ _ nofun⟩

theorem computesInto_fclass (o : FltU) : ComputesInto (.fclass o) [.flt o.ty o.a] (dst o.nw o.d 1) (classOut o.ty) :=
  ⟨fun _ _ _ _ => rfl, declared_dst rfl (.inl rfl), rfl, fun _ => conforms_res ..⟩

/-- An instruction that converts each element by a function that saturates only where the instruction may. -/
theorem computesInto_conv {i : Instr} {ops : List Opd} {d : Dest} {n sw tw : Nat} {F : LaneIn → Nat → FRes}
    (he : ∀ s, exec i s = laneIssue i (aluBody ops d fun x => convOut n sw tw (F x) x) s) (hd : Safety.Declared i d)
    (hl : i.leavesLatch = true) (hf : raisesFlags i = true) (hs : saturates i = false → ∀ x v, (F x v).sat = 0) :
    ComputesInto i ops d fun x => convOut n sw tw (F x) x where
  issues s _ _ _ := he s
  declared := hd
  latch := hl
  conforms x := conforms_packRes _ (fun h => absurd (hf.symm.trans h) (by decide)) fun h r hr => by
    obtain ⟨k, -, rfl⟩ := List.mem_map.1 hr
    exact hs h ..

theorem computesInto_cvt (ty : FType) (nw : Bool) (rc : RoundCtl) (d a : Sel) (t : CvtTarget) (sat : Bool) :
    ComputesInto (.cvt ty nw rc d a t sat) [.flt ty a] (dst nw d (bspan (ty.count * t.bits))) fun x =>
      convOut ty.count ty.bits t.bits (fun v => convert (cvtFmt t) (ctlMode rc x.rnd) sat ((ftFmt ty).decode v)) x :=
  computesInto_conv (fun _ => rfl) (declared_dst rfl (bspan_cases _)) rfl rfl (by intro h x v; exact convert_sat h ..)

theorem computesInto_cvti (ty : FType) (nw : Bool) (rc : RoundCtl) (d a : Sel) (t : IType) :
    ComputesInto (.cvti ty nw rc d a t) [.flt ty a] (dst nw d (bspan (ty.count * t.bits))) fun x =>
      convOut ty.count ty.bits t.bits (fun v => toIntType t (ctlMode rc x.rnd) ((ftFmt ty).decode v)) x :=
  computesInto_conv (fun _ => rfl) (declared_dst rfl (bspan_cases _)) rfl rfl (by intro h; cases h)

theorem computesInto_cvtf (ty : FType) (nw : Bool) (rc : RoundCtl) (d a : Sel) (t : IType) :
    ComputesInto (.cvtf ty nw rc d a t) [.int t a] (dst nw d (bspan (t.count * ty.bits))) fun x =>
      convOut t.count t.bits ty.bits (fun v => ofIntType (ftFmt ty) (ctlMode rc x.rnd) (itVal t v)) x :=
  computesInto_conv (fun _ => rfl) (declared_dst rfl (bspan_cases _)) rfl rfl (by intro _ x v; exact FFmt.roundInt_sat ..)

theorem computesInto_split3 (nw : Bool) (d a : Sel) : ComputesInto (.split3 nw d a) [.flt .f32 a] (dst nw d 2) split3Out where
  issues _ _ _ _ := rfl
  declared := declared_dst rfl (.inr rfl)
  latch := rfl
  conforms _ := ⟨fun _ => rfl, nofun, nofun, fun _ => rfl, fun _ => rfl⟩

theorem ComputesA.computesInto {i : Instr} {o : IntA} {f : LaneIn → LaneOut} (hi : ComputesA i o f) :
    ComputesInto i (sourcesA o) (dst o.nw o.d 1) f :=
  ⟨fun s _ _ ht => (hi.exec s).trans (bothIssue_gang ht ..), declared_dst hi.writes (.inl rfl), hi.latch, hi.conforms⟩

/-! ### R137: ordered reductions -/

/-- The result of a reduction over lanes `p0 :: ps`, in the mode of the lowest. -/
def reduced (e : Env) (t : FType) (a : Sel) (comb : Rounding → Nat → Nat → FRes) (p0 : Nat) (ps : List Nat) : LaneOut :=
  packRes t.bits ((List.range t.count).map fun k => reduceElem (ftFmt t) (comb (roundOf (e.w.lane p0).fpmode))
    (((p0 :: ps).map fun l => (e.opd l (.flt t a) 0 0).toNat).map fun v => elemAt t.bits v k))

/-- A reduction is performed: every participant receives the result, and where there is none the summary stands. -/
theorem reduce_performed {s : State} {t : Nat} {g : Gang} {r : ClauseRun} {i : Instr} {es : List ApprEntry} (h : Ready s t g r i es)
    {ty : FType} {nw : Bool} {d a : Sel} {comb : Rounding → Nat → Nat → FRes} (hw : i.writes = nwDst (nw && !false) d (fspan ty))
    (hf : raisesFlags i = true) :
    ∃ s' x, laneIssue i (reduceBody ty a (dst nw d (fspan ty)) comb) s = .next s' ∧ Performed s s' t g r i ∧ FlagsKept s s' t ∧
      Holds (s.wg t) (s'.wg t) (execLanes g r) (dst nw d (fspan ty)) (fun _ => x) ∧ (execLanes g r = [] → SummaryKept s s' t) ∧
      ∀ p0 ps, execLanes g r = p0 :: ps → x = (reduced (opEnv s t g r es) ty a comb p0 ps).res := by
  cases hls : execLanes g r with
  | nil =>
    have hb : reduceBody ty a (dst nw d (fspan ty)) comb (opEnv s t g r es) = .ok (taken s) [] := by
      unfold reduceBody
      rw [show (opEnv s t g r es).ls = [] from hls]
      rfl
    obtain ⟨s', hs, hp, -, hfl, -, hsum⟩ := laneIssue_performed h _ _ _ hb rfl (fun _ _ => rfl) (Touch.refl ..) (Safety.FlagsFit.refl ..)
    refine ⟨s', 0, hs, hp, hfl, ?_, fun _ => hsum, nofun⟩
    unfold Holds
    split <;> simp
  | cons p0 ps =>
    set x := reduced (opEnv s t g r es) ty a comb p0 ps with hx
    set w1 := (s.wg t).sumUp x.flags 0 0 with hw1
    have hb : reduceBody ty a (dst nw d (fspan ty)) comb (opEnv s t g r es) = .ok ((taken s).updWg t fun _ =>
        if nw then w1 else w1.writeSel s.free d ((execLanes g r).map fun l => (l, splitWords (fspan ty) x.res)))
        ((execLanes g r).map fun l => (l, x.res)) := by
      unfold reduceBody
      rw [show (opEnv s t g r es).ls = p0 :: ps from hls, hls]
      cases nw <;> rfl
    obtain ⟨s', hs, hp, hfl, -, -, hh⟩ := laneIssue_words (words := fun _ => splitWords (fspan ty) x.res) h hw
      (fun _ => splitWords_length (fspan_cases ty) _) (Summed.sumUp _ (fun h => absurd (hf.symm.trans h) (by decide)) (fun _ => rfl) fun _ => rfl) hb
    refine ⟨s', x.res, hs, hp, hfl, ?_, nofun, fun q qs hq => by cases hq; rfl⟩
    rw [← hls]
    cases nw with
    | true => trivial
    | false => exact (hh rfl).holds (fspan_cases ty) fun _ => rfl

/-! ### Results of several words -/

/-- The words and the summary of lanes without NW are added up and written. -/
theorem wideResult_eq (s : State) (t : Nat) (g : Gang) (r : ClauseRun) (es : List ApprEntry) (nw : Bool) (d : Sel)
    (out : Nat → List Nat × FFlags × Nat × Nat) :
    wideResult (opEnv s t g r es) nw d ((execLanes g r).map fun l => (l, out l)) = .ok ((taken s).updWg t fun _ =>
        if nw then overList ((execLanes g r).map fun l => (l, out l)) (s.wg t) fun w r => w.sumUp r.2.2.1 r.2.2.2.1 r.2.2.2.2
        else (overList ((execLanes g r).map fun l => (l, out l)) (s.wg t) fun w r => w.sumUp r.2.2.1 r.2.2.2.1 r.2.2.2.2).writeSel
          s.free d ((execLanes g r).map fun l => (l, (out l).1.map (BitVec.ofNat 32))))
      ((execLanes g r).map fun l => (l, BitVec.ofNat 64 (packElems 32 ((out l).1.take 2)))) := by
  unfold wideResult
  dsimp only
  rw [List.map_map, List.map_map]
  rfl

/-- An instruction that writes `k` words to each lane of E and adds to the summary: performed, with its words and its latch. -/
theorem wideResult_performed {s : State} {t : Nat} {g : Gang} {r : ClauseRun} {i : Instr} {es : List ApprEntry} (h : Ready s t g r i es)
    {body : Env → Res} {nw : Bool} {d : Sel} {k : Nat} {out : Nat → List Nat × FFlags × Nat × Nat}
    (hw : i.writes = nwDst (nw && !false) d k) (hl : i.leavesLatch = true) (hf : raisesFlags i = true)
    (hk : ∀ l, (out l).1.length = k) (hsat : saturates i = false → ∀ l, (out l).2.2.1 = 0)
    (hnan : countsNans i = false → ∀ l, (out l).2.2.2 = 0)
    (hb : body (opEnv s t g r es) = wideResult (opEnv s t g r es) nw d ((execLanes g r).map fun l => (l, out l))) :
    let w1 := overList ((execLanes g r).map fun l => (l, out l)) (s.wg t) fun w r => w.sumUp r.2.2.1 r.2.2.2.1 r.2.2.2.2
    ∃ s', laneIssue i body s = .next s' ∧ Performed s s' t g r i ∧ FlagsKept s s' t ∧
      ((s'.wg t).flags = w1.flags ∧ (s'.wg t).satcnt = w1.satcnt ∧ (s'.wg t).nanscore = w1.nanscore) ∧
      LatchLeft s' t g r (fun l => BitVec.ofNat 64 (packElems 32 ((out l).1.take 2))) ∧
      (nw = false → HoldsWords (s.wg t) (s'.wg t) (execLanes g r) d k fun l => (out l).1.map (BitVec.ofNat 32)) := by
  intro w1
  have hsum : Summed i (s.wg t) w1 := by
    refine Summed.over _ (fun w p hp => ?_) _
    obtain ⟨l, -, rfl⟩ := List.mem_map.1 hp
    exact Summed.sumUp w (fun h => absurd (hf.symm.trans h) (by decide)) (fun h => hsat h l) fun h => hnan h l
  obtain ⟨s', hs, hp, hfl, hsums, hlatch, hh⟩ := laneIssue_words h hw (fun l => by rw [List.length_map, hk]) hsum
    (hb.trans (wideResult_eq s t g r es nw d out))
  exact ⟨s', hs, hp, hfl, hsums, hlatch hl _ rfl, hh⟩

/-! ### R136: SMXMERGE -/

theorem length_smxMerge {a b : List Nat} {n : Nat} (ha : a.length = n + 1) (hb : b.length = n + 1) : (smxMerge a b).1.length = n + 1 := by
  unfold smxMerge
  dsimp only
  split
  · rw [List.length_map, ha]
  · rw [List.length_cons, List.length_map, List.length_map, List.length_zip, List.length_drop, List.length_drop, ha, hb]
    omega

/-- The state of a lane that SMXMERGE reads from register `q` up. -/
def smxState (s : State) (t : Nat) (g : Gang) (r : ClauseRun) (es : List ApprEntry) (n l : Nat) (q : Sel) (i : Nat) : List Nat :=
  ((opEnv s t g r es).regs l q (n + 2) 0 i).map BitVec.toNat

theorem length_smxState (s : State) (t : Nat) (g : Gang) (r : ClauseRun) (es : List ApprEntry) (n l : Nat) (q : Sel) (i : Nat) :
    (smxState s t g r es n l q i).length = n + 2 := by
  unfold smxState Env.regs
  rw [if_neg (by omega), List.length_map, List.length_map, List.length_range]

/-- What SMXMERGE gives in lane `l`. -/
def smxOut (s : State) (t : Nat) (g : Gang) (r : ClauseRun) (es : List ApprEntry) (n : Nat) (a b : Sel) (l : Nat) :
    List Nat × FFlags × Nat × Nat :=
  let x := smxMerge (smxState s t g r es n l a 0) (smxState s t g r es n l b 32)
  (x.1, x.2.1, 0, x.2.2)

theorem smxmerge_performed {s : State} {t : Nat} {g : Gang} {r : ClauseRun} {es : List ApprEntry} {nw : Bool} {n : Nat} {d a b : Sel}
    (h : Ready s t g r (.smxmerge nw n d a b) es) :
    let w1 := overList ((execLanes g r).map fun l => (l, smxOut s t g r es n a b l)) (s.wg t) fun w r =>
      w.sumUp r.2.2.1 r.2.2.2.1 r.2.2.2.2
    ∃ s', Machine.exec (.smxmerge nw n d a b) s = .next s' ∧ Performed s s' t g r (.smxmerge nw n d a b) ∧ FlagsKept s s' t ∧
      ((s'.wg t).flags = w1.flags ∧ (s'.wg t).satcnt = w1.satcnt ∧ (s'.wg t).nanscore = w1.nanscore) ∧
      LatchLeft s' t g r (fun l => BitVec.ofNat 64 (packElems 32 ((smxOut s t g r es n a b l).1.take 2))) ∧
      (nw = false → HoldsWords (s.wg t) (s'.wg t) (execLanes g r) d (n + 2)
        fun l => (smxOut s t g r es n a b l).1.map (BitVec.ofNat 32)) :=
  wideResult_performed h rfl rfl rfl (fun _ => length_smxMerge (n := n + 1) (length_smxState ..) (length_smxState ..)) (fun _ _ => rfl) nofun rfl

/-! ### Every instruction that computes -/

theorem ComputesInto.performed {i : Instr} {ops : List Opd} {d : Dest} {f : LaneIn → LaneOut} (hi : ComputesInto i ops d f)
    {s : State} {t : Nat} {g : Gang} {r : ClauseRun} {es : List ApprEntry} (h : Ready s t g r i es) :
    ∃ s', Machine.exec i s = .next s' ∧ Performed s s' t g r i := by
  obtain ⟨s', he, hc⟩ := hi.computed h
  exact ⟨s', he, hc.performed⟩

/-- Settles O1: each instruction computes lane by lane, but for special registers, cross-lane instructions, reductions and SMXMERGE. -/
theorem computePerformed : Obligations.ComputePerformed := by
  unfold Obligations.ComputePerformed
  intro s t g r es i hi h
  cases i with
  | mov o => exact (givesResult_mov o).performed h
  | movi ty nw d c => exact (givesResult_movi ty nw d c).performed h
  | movs nw d q =>
    obtain ⟨s', hs, hp, -⟩ := laneIssue_writes h (declared_dst rfl (.inl rfl)) rfl _ (movsBody_eq s t g r es q (dst nw d 1))
    exact ⟨s', hs, hp⟩
  | movsWide nw d =>
    obtain ⟨s', hs, hp, -⟩ := laneIssue_writes h (declared_dst rfl (.inr rfl)) rfl _ (movsBody_eq s t g r es .cycle (dst nw d 2))
    exact ⟨s', hs, hp⟩
  | iadd o => exact (computesA_iadd o).computesInto.performed h
  | iaddc o => exact (computesA_iaddc o).computesInto.performed h
  | isub o => exact (computesA_isub o).computesInto.performed h
  | isubb o => exact (computesA_isubb o).computesInto.performed h
  | idiv o => exact (computesA_idiv o).computesInto.performed h
  | irem o => exact (computesA_irem o).computesInto.performed h
  | shl o => exact (computesA_shl o).computesInto.performed h
  | shr o => exact (computesA_shr o).computesInto.performed h
  | sar o => exact (computesA_sar o).computesInto.performed h
  | rot o => exact (computesA_rot o).computesInto.performed h
  | imul o => exact (givesResult_imul o).performed h
  | imulh o => exact (givesResult_imulh o).performed h
  | imad o => exact (givesResult_imad o).performed h
  | imadw o => exact (givesResult_imadw o).performed h
  | imin o => exact (givesResult_imin o).performed h
  | imax o => exact (givesResult_imax o).performed h
  | iabs o => exact (givesResult_iabs o).performed h
  | ineg o => exact (givesResult_ineg o).performed h
  | popc o => exact (givesResult_popc o).performed h
  | clz o => exact (givesResult_clz o).performed h
  | ctz o => exact (givesResult_ctz o).performed h
  | brev o => exact (givesResult_brev o).performed h
  | and o => exact (givesResult_and o).performed h
  | or o => exact (givesResult_or o).performed h
  | xor o => exact (givesResult_xor o).performed h
  | andn o => exact (givesResult_andn o).performed h
  | bfx ty nw d a c => exact (givesResult_bfx ty nw d a c).performed h
  | bfi ty nw f =>
    cases f with
    | imm d a c => exact (givesResult_bfi_imm ty nw d a c).performed h
    | reg d a b c => exact (givesResult_bfi_reg ty nw d a b c).performed h
  | perm nw f =>
    cases f with
    | imm d a c => exact (givesResult_perm_imm nw d a c).performed h
    | reg d a b c => exact (givesResult_perm_reg nw d a b c).performed h
  | icmp c ty pd a b => exact (computesInto_icmp c ty pd a b).performed h
  | sel ty nw p d a b => exact (givesResult_sel ty nw p d a b).performed h
  | plop op d a b => exact (computesInto_plop op d a b).performed h
  | vote m nw d a =>
    obtain ⟨s', hs, hp, -⟩ := laneIssue_writes h (declared_dst rfl (.inl rfl)) rfl _
      ((voteBody_eq s t g r es m a (dst nw d 1)).trans (crossBody_eq s t g r es (dst nw d 1) _))
    exact ⟨s', hs, hp⟩
  | shfl m nw d a b =>
    obtain ⟨s', hs, hp, -⟩ := laneIssue_writes h (declared_dst rfl (.inl rfl)) rfl _
      ((shflBody_eq s t g r es m a b (dst nw d 1)).trans (crossBody_eq s t g r es (dst nw d 1) _))
    exact ⟨s', hs, hp⟩
  | fadd o => exact (computesInto_fadd o).performed h
  | fsub o => exact (computesInto_fsub o).performed h
  | fmul o => exact (computesInto_fmul o).performed h
  | fmin o => exact (computesInto_fmin o).performed h
  | fmax o => exact (computesInto_fmax o).performed h
  | fcopys o => exact (computesInto_fcopys o).performed h
  | fclass o => exact (computesInto_fclass o).performed h
  | fdiv o => exact (computesInto_fdiv o).performed h
  | fsqrt o => exact (computesInto_fsqrt o).performed h
  | frcp o => exact (computesInto_frcp o).performed h
  | frsq o => exact (computesInto_frsq o).performed h
  | fexp2 o => exact (computesInto_fexp2 o).performed h
  | flog2 o => exact (computesInto_flog2 o).performed h
  | fsin o => exact (computesInto_fsin o).performed h
  | fcos o => exact (computesInto_fcos o).performed h
  | fscale o => exact (computesInto_fscale o).performed h
  | ffma ty nw rc d a b c => exact (computesInto_ffma ty nw rc d a b c).performed h
  | fcmp c ty pd a b => exact (computesInto_fcmp c ty pd a b).performed h
  | frnd o m => exact (computesInto_frnd o m).performed h
  | cvt ty nw rc d a t sat => exact (computesInto_cvt ty nw rc d a t sat).performed h
  | cvti ty nw rc d a t => exact (computesInto_cvti ty nw rc d a t).performed h
  | cvtf ty nw rc d a t => exact (computesInto_cvtf ty nw rc d a t).performed h
  | split3 nw d a => exact (computesInto_split3 nw d a).performed h
  | smxmerge nw n d a b =>
    obtain ⟨s', hs, hp, -⟩ := smxmerge_performed h
    exact ⟨s', hs, hp⟩
  | freda o | fredm o =>
    obtain ⟨s', -, hs, hp, -⟩ := reduce_performed h rfl rfl
    exact ⟨s', hs, hp⟩
  | _ => nomatch hi

end Sys2Proof.Machine
end


section
/-! SUPPORT. The words that the spec works out (spec/03), and what reset leaves (spec/19 R450): the statements about them. -/

namespace Sys2Proof.Machine

open Sys2Proof Sys2Proof.Safety

-- One proof at a time: side by side they need more threads than a check's memory holds.
set_option Elab.async false

/-- Settles O56: the decoder evaluates to the listed instruction on each listing's words. -/
theorem decodesSpecWords : Obligations.DecodesSpecWords :=
  ⟨rfl, rfl, rfl, rfl, rfl, rfl, rfl, rfl, rfl, rfl, rfl, rfl, rfl, rfl, rfl, rfl, rfl⟩

/-- What a sparse map reads is the default or one of its listed values. -/
theorem SMap.get_default_or_listed {β : Type} [Inhabited β] (m : SMap β) (k : Nat) : m.get k = default ∨ ∃ p ∈ m, m.get k = p.2 := by
  induction m with
  | nil => exact .inl rfl
  | cons p t ih =>
    obtain ⟨a, b⟩ := p
    by_cases h : a = k
    · exact .inr ⟨(a, b), by simp, by simp [SMap.get, h]⟩
    · rcases ih with ih | ⟨q, hq, ih⟩
      · exact .inl (by simpa [SMap.get, h] using ih)
      · exact .inr ⟨q, List.mem_cons_of_mem _ hq, by simpa [SMap.get, h] using ih⟩

theorem islands_reset (k : Nat) : (State.reset.islands.get k).stopped = false ∧ (State.reset.islands.get k).cycle = 0 := by
  rcases State.reset.islands.get_default_or_listed k with h | ⟨p, hp, h⟩
  · rw [h]
    exact ⟨rfl, rfl⟩
  · rw [h]
    obtain ⟨i, -, rfl⟩ := List.mem_map.1 hp
    exact ⟨rfl, rfl⟩

/-- Settles O59: every map of the reset state lists nothing, the islands apart, and reads as its default. -/
theorem resetState : Obligations.ResetState := by
  refine ⟨rfl, fun _ => rfl, fun g => ?_, fun _ => rfl, rfl, rfl, rfl, rfl, rfl, rfl, rfl, islands_reset⟩
  rw [show State.reset.pch g = default from rfl]
  exact ⟨rfl, rfl, by decide, fun _ => rfl, fun _ => BitVec.zero_eq (n := 256), fun _ => BitVec.zero_eq (n := 512),
    fun _ => rfl, fun _ => rfl⟩

end Sys2Proof.Machine
end

section
/-! SUPPORT. The codes of the fields of an encoding (spec/03 R59-R66): each code gives back what it stands for, and fits its field. -/

namespace Sys2Proof

-- One proof at a time: side by side they need more threads than a check's memory holds.
set_option Elab.async false

/-! ### Codes of selectors -/

@[simp] theorem Sel.of7_code7 {r : Sel} (h : r.ok7 = true) : Sel.of7 r.code7 = r := by
  cases r <;> simp [Sel.ok7] at h <;> simp (disch := omega) [Sel.of7, Sel.code7, if_pos, if_neg]

@[simp] theorem Sel.of8_code8 {r : Sel} (h : r.ok8 = true) : Sel.of8 r.code8 = some r := by
  cases r <;> simp [Sel.ok8] at h <;> simp (disch := omega) [Sel.of8, Sel.code8, if_pos, if_neg]

@[simp] theorem Sel.code7_lt {r : Sel} (h : r.ok7 = true) : r.code7 < 128 := by
  cases r <;> simp [Sel.ok7] at h <;> simp [Sel.code7] <;> omega

@[simp] theorem Sel.code8_lt {r : Sel} (h : r.ok8 = true) : r.code8 < 256 := by
  cases r <;> simp [Sel.ok8] at h <;> simp [Sel.code8] <;> omega

/-! ### Codes of the other fields -/

@[simp] theorem IType.of_code (x : IType) : IType.of x.code = some x := by
  cases x <;> rfl

@[simp] theorem IType.code_lt (x : IType) : x.code < 8 := by
  cases x <;> decide

@[simp] theorem FType.of_code (x : FType) : FType.of x.code = some x := by
  cases x <;> rfl

@[simp] theorem FType.code_lt (x : FType) : x.code < 8 := by
  cases x <;> decide

@[simp] theorem Width.of_code (x : Width) : Width.of x.code = some x := by
  cases x <;> rfl

@[simp] theorem Width.code_lt (x : Width) : x.code < 8 := by
  cases x <;> decide

@[simp] theorem Order.of_code (x : Order) : Order.of x.code = some x := by
  cases x <;> rfl

@[simp] theorem Order.code_lt (x : Order) : x.code < 8 := by
  cases x <;> decide

@[simp] theorem Scope.of_code (x : Scope) : Scope.of x.code = some x := by
  cases x <;> rfl

@[simp] theorem Scope.code_lt (x : Scope) : x.code < 8 := by
  cases x <;> decide

@[simp] theorem RoundCtl.of_code (x : RoundCtl) : RoundCtl.of x.code = some x := by
  rcases x with ⟨⟨⟩⟩ | ⟨⟩ <;> rfl

@[simp] theorem RoundCtl.code_lt (x : RoundCtl) : x.code < 64 := by
  rcases x with ⟨⟨⟩⟩ | ⟨⟩ <;> decide

@[simp] theorem ICond.of_code (x : ICond) : ICond.of x.code = some x := by
  cases x <;> rfl

@[simp] theorem ICond.code_lt (x : ICond) : x.code < 64 := by
  cases x <;> decide

@[simp] theorem FCond.of_code (x : FCond) : FCond.of x.code = some x := by
  cases x <;> rfl

@[simp] theorem FCond.code_lt (x : FCond) : x.code < 64 := by
  cases x <;> decide

@[simp] theorem PredOp.of_code (x : PredOp) : PredOp.of x.code = some x := by
  cases x <;> rfl

@[simp] theorem PredOp.code_lt (x : PredOp) : x.code < 8 := by
  cases x <;> decide

@[simp] theorem VoteMode.of_code (x : VoteMode) : VoteMode.of x.code = some x := by
  cases x <;> rfl

@[simp] theorem VoteMode.code_lt (x : VoteMode) : x.code < 8 := by
  cases x <;> decide

@[simp] theorem ShflMode.of_code (x : ShflMode) : ShflMode.of x.code = some x := by
  cases x <;> rfl

@[simp] theorem ShflMode.code_lt (x : ShflMode) : x.code < 8 := by
  cases x <;> decide

@[simp] theorem CvtTarget.of_code (x : CvtTarget) : CvtTarget.of x.code = some x := by
  cases x <;> rfl

@[simp] theorem CvtTarget.code_lt (x : CvtTarget) : x.code < 8 := by
  cases x <;> decide

@[simp] theorem RndMode.of_code (x : RndMode) : RndMode.of x.code = some x := by
  rcases x with ⟨⟨⟩⟩ | ⟨⟩ <;> rfl

@[simp] theorem RndMode.code_lt (x : RndMode) : x.code < 128 := by
  rcases x with ⟨⟨⟩⟩ | ⟨⟩ <;> decide

@[simp] theorem AccFmt.of_code (x : AccFmt) : AccFmt.of x.code = some x := by
  cases x <;> rfl

@[simp] theorem AccFmt.code_lt (x : AccFmt) : x.code < 4 := by
  cases x <;> decide

@[simp] theorem TransWidth.of_code (x : TransWidth) : TransWidth.of x.code = some x := by
  cases x <;> rfl

@[simp] theorem TransWidth.code_lt (x : TransWidth) : x.code < 64 := by
  cases x <;> decide

@[simp] theorem Path.of_code (x : Path) : Path.of x.code = some x := by
  cases x <;> rfl

@[simp] theorem Path.code_lt (x : Path) : x.code < 8 := by
  cases x <;> decide

@[simp] theorem AtomOp.of_code (x : AtomOp) : AtomOp.of x.code = some x := by
  cases x <;> rfl

@[simp] theorem AtomOp.code_lt (x : AtomOp) : x.code < 16 := by
  cases x <;> decide

@[simp] theorem Space.of_code (x : Space) : Space.of x.code = x := by
  cases x <;> rfl

@[simp] theorem Space.code_lt (x : Space) : x.code < 2 := by
  cases x <;> decide

@[simp] theorem Chain.of_code (x : Chain) : Chain.of x.code = x := by
  cases x <;> rfl

@[simp] theorem Chain.code_lt (x : Chain) : x.code < 2 := by
  cases x <;> decide

@[simp] theorem b2n_false : b2n false = 0 := rfl

@[simp] theorem b2n_true : b2n true = 1 := rfl

@[simp] theorem bit1_zero : bit1 0 = false := rfl

@[simp] theorem bit1_one : bit1 1 = true := rfl

@[simp] theorem Sel.of8_zero : Sel.of8 0 = some (.v 0) := rfl

@[simp] theorem bit1_b2n (b : Bool) : bit1 (b2n b) = b := by
  cases b <;> rfl

@[simp] theorem b2n_lt (b : Bool) : b2n b < 2 := by
  cases b <;> decide

@[simp] theorem b2n_le_one (b : Bool) : b2n b ≤ 1 := Nat.le_of_lt_succ (b2n_lt b)

@[simp] theorem b2n_eq_one (b : Bool) : b2n b = 1 ↔ b = true := by
  cases b <;> decide

@[simp] theorem b2n_eq_zero (b : Bool) : b2n b = 0 ↔ b = false := by
  cases b <;> decide

@[simp] theorem SReg.of_code {x : SReg} (h : x.ok = true) : SReg.of x.code = some x := by
  cases x with
  | q n =>
    have hn : n ≤ 7 := by simpa [SReg.ok] using h
    interval_cases n <;> rfl
  | _ => rfl

@[simp] theorem SReg.code_lt {x : SReg} (h : x.ok = true) : x.code < 32 := by
  cases x with
  | q n =>
    have hn : n ≤ 7 := by simpa [SReg.ok] using h
    simp only [SReg.code]
    omega
  | _ => decide

@[simp] theorem PredRef.of_code {x : PredRef} (h : x.ok = true) : PredRef.of x.code = x := by
  obtain ⟨p, neg⟩ := x
  have hp : p ≤ 7 := by simpa [PredRef.ok] using h
  cases neg <;> interval_cases p <;> rfl

@[simp] theorem PredRef.code_lt {x : PredRef} (h : x.ok = true) : x.code < 16 := by
  obtain ⟨p, neg⟩ := x
  have hp : p ≤ 7 := by simpa [PredRef.ok] using h
  cases neg <;> simp [PredRef.code] <;> omega

@[simp] theorem MOperand.of_code {x : MOperand} (h : x.ok = true) : MOperand.of x.bit x.code = some x := by
  cases x with
  | reg n =>
    have hn : n < 96 := by simp [MOperand.ok] at h; omega
    simp [MOperand.of, MOperand.bit, MOperand.code, hn]
  | spad n =>
    have hn : 112 + n ≤ 118 := by simp [MOperand.ok] at h; omega
    simp [MOperand.of, MOperand.bit, MOperand.code, hn]

@[simp] theorem MOperand.code_lt {x : MOperand} (h : x.ok = true) : x.code < 128 := by
  cases x <;> simp [MOperand.ok] at h <;> simp [MOperand.code] <;> omega

@[simp] theorem MOperand.bit_lt (x : MOperand) : x.bit < 2 := by
  cases x <;> simp [MOperand.bit]

@[simp] theorem RecRef.of_code {x : RecRef} (h : x.ok = true) : RecRef.of x.bit x.code = some x := by
  cases x with
  | imm n => rfl
  | reg r =>
    have hr : r.ok8 = true := by simp [RecRef.ok, Sel.srcI, Sel.ok] at h; exact h.1
    simp [RecRef.of, RecRef.bit, RecRef.code, Sel.of8_code8 hr]

@[simp] theorem RecRef.code_lt {x : RecRef} (h : x.ok = true) : x.code < 256 := by
  cases x with
  | imm n => simpa [RecRef.ok, RecRef.code] using h
  | reg r =>
    have hr : r.ok8 = true := by simp [RecRef.ok, Sel.srcI, Sel.ok] at h; exact h.1
    exact Sel.code8_lt hr

@[simp] theorem RecRef.bit_lt (x : RecRef) : x.bit < 2 := by
  cases x <;> simp [RecRef.bit]

@[simp] theorem MOperand.code_reg (n : Nat) : (MOperand.reg n).code = n := rfl

@[simp] theorem MOperand.bit_reg (n : Nat) : (MOperand.reg n).bit = 0 := rfl

/-- The status selector under its ST bit. -/
@[simp] theorem stOf_stCode {x : Option Sel} (h : stOk x = true) : stOf (b2n x.isSome) (stCode x) = some x := by
  cases x with
  | none => rfl
  | some r =>
    have hr : r.ok8 = true := by simp [stOk, Sel.dst, Sel.ok] at h; exact h.1
    simp [stOf, stCode, b2n, Sel.of8_code8 hr]

@[simp] theorem stCode_lt {x : Option Sel} (h : stOk x = true) : stCode x < 256 := by
  cases x with
  | none => decide
  | some r =>
    have hr : r.ok8 = true := by simp [stOk, Sel.dst, Sel.ok] at h; exact h.1
    exact Sel.code8_lt hr

@[simp] theorem optCode_none : optCode none = 0 := rfl

@[simp] theorem optCode_some (r : Sel) : optCode (some r) = r.code8 := rfl

@[simp] theorem stCode_none : stCode none = 0 := rfl

@[simp] theorem stOk_none : stOk none = true := rfl

@[simp] theorem domOk_none : domOk none = true := rfl

theorem domOk_some {r : Sel} : domOk (some r) = true ↔ r.ok8 = true ∧ r ≠ .half := by
  simp [domOk, Sel.srcI, Sel.ok]

@[simp] theorem FCond.code_mod (x : FCond) : x.code % 8 = x.code := by
  cases x <;> rfl

@[simp] theorem FCond.code_lt_eight (x : FCond) : x.code < 8 := by
  cases x <;> decide

@[simp] theorem RoundCtl.code_mod (x : RoundCtl) : x.code % 8 = x.code := by
  rcases x with ⟨⟨⟩⟩ | ⟨⟩ <;> rfl

@[simp] theorem RoundCtl.code_lt_eight (x : RoundCtl) : x.code < 8 := by
  rcases x with ⟨⟨⟩⟩ | ⟨⟩ <;> decide

theorem predDst_lt {n : Nat} (h : predDst n = true) : n < 8 := by
  simp [predDst] at h
  omega

@[simp] theorem predDst_lt_sel7 {n : Nat} (h : predDst n = true) : n < 128 := by
  have := predDst_lt h
  omega

@[simp] theorem predDst_lt_sel8 {n : Nat} (h : predDst n = true) : n < 256 := by
  have := predDst_lt h
  omega

@[simp] theorem PredRef.code_lt_sub {x : PredRef} (h : x.ok = true) : x.code < 64 := by
  have := PredRef.code_lt h
  omega

@[simp] theorem PredRef.code_lt_sel7 {x : PredRef} (h : x.ok = true) : x.code < 128 := by
  have := PredRef.code_lt h
  omega

theorem predDst_ok {r : PredRef} (h : predDst r.p = true) : r.ok = true := by
  have := predDst_lt h
  simp only [PredRef.ok, decide_eq_true_eq]
  omega

/-- The slot, chain and format of a slot operation (R155) are read back from its B field. -/
theorem slotField {c : Nat} (hc : c < 16) (ch : Chain) (f : AccFmt) :
    (c + 16 * ch.code + 32 * f.code) % 16 = c ∧ (c + 16 * ch.code + 32 * f.code) / 16 % 2 = ch.code ∧
      (c + 16 * ch.code + 32 * f.code) / 32 = f.code ∧ c + 16 * ch.code + 32 * f.code < 128 := by
  have := ch.code_lt
  have := f.code_lt
  omega

end Sys2Proof
end

section
/-! SUPPORT. Raw fields and words (spec/03 R53-R58): fields that fit are read back from the words that hold them. -/

namespace Sys2Proof

-- One proof at a time: side by side they need more threads than a check's memory holds.
set_option Elab.async false

/-- Fields that fit, under an opcode of the format. -/
def Raw.Fits : Raw → Prop
  | .a r => opFmt r.op = some .a ∧ r.ty < 8 ∧ r.nw < 2 ∧ r.d < 128 ∧ r.a < 128 ∧ r.b < 128
  | .b r =>
    opFmt r.op = some .b ∧ r.ty < 8 ∧ r.nw < 2 ∧ r.xw < 2 ∧ r.sub < 64 ∧ r.d < 128 ∧ r.a < 128 ∧ r.imm < 2 ^ 32
  | .m1 r =>
    opFmt r.op = some .m1 ∧ r.ty < 8 ∧ r.nw < 2 ∧ r.ri < 2 ∧ r.data < 128 ∧ r.off < 128 ∧ r.rsv < 64 ∧ r.recd < 256 ∧
      r.ord < 8 ∧ r.scope < 8 ∧ r.sw < 2 ∧ r.st < 2 ∧ r.stsel < 256 ∧ r.sub < 256
  | .m2 r =>
    opFmt r.op = some .m2 ∧ r.ty < 8 ∧ r.nw < 2 ∧ r.data < 128 ∧ r.c0 < 128 ∧ r.c1 < 128 ∧ r.c2 < 128 ∧ r.c3 < 128 ∧
      r.c4 < 128 ∧ r.c5 < 128 ∧ r.n < 8 ∧ r.st < 2 ∧ r.c6 < 128 ∧ r.stsel < 128 ∧ r.recd < 256 ∧ r.shape < 64 ∧ r.sw < 2 ∧ r.rsv < 8
  | .x r =>
    opFmt r.op = some .x ∧ r.acc < 16 ∧ r.a < 128 ∧ r.b < 128 ∧ r.fmt < 128 ∧ r.as_ < 2 ∧ r.bs < 2 ∧ r.x1 < 256 ∧
      r.x2 < 256 ∧ r.recd < 256 ∧ r.rsv < 64
  | .c r => opFmt r.op = some .c ∧ r.fn < 8 ∧ r.pn < 2 ∧ r.p < 8 ∧ r.off < 2 ^ 18

theorem opFmt_lt {op : Nat} {f : Fmt} (h : opFmt op = some f) : op < 126 := by
  have hA : ∀ n ∈ opsA, n < 126 := by decide
  have hB : ∀ n ∈ opsB, n < 126 := by decide
  have hM : ∀ n ∈ opsM1, n < 126 := by decide
  unfold opFmt at h
  split at h
  · exact hA _ ‹_›
  · split at h
    · exact hB _ ‹_›
    · split at h
      · exact hM _ ‹_›
      · by_contra hop
        simp (disch := omega) only [if_neg] at h
        cases h

theorem packRaw_lt {r : Raw} (h : r.Fits) : ∀ w ∈ packRaw r, w < 2 ^ 32 := by
  cases r <;> obtain ⟨hop, h⟩ := h <;> have := opFmt_lt hop <;> simp [packRaw] <;> omega

/-- Words of raw fields (R50). -/
def Raw.len : Raw → Nat
  | .a _ => 1
  | .b _ => 2
  | .m1 _ => 2
  | .m2 _ => 3
  | .x _ => 2
  | .c _ => 1

theorem length_packRaw (r : Raw) : (packRaw r).length = r.len := by
  cases r <;> rfl

/-- Reading a first word by the format of its opcode. -/
theorem readRaw_cons {w op : Nat} {f : Fmt} (t : List Nat) (hop : fld w 31 25 = op) (hf : opFmt op = some f) :
    readRaw (w :: t) = match f with
      | .a => .ok (.a (unpackA w), 1)
      | .c => .ok (.c (unpackC w), 1)
      | .b => (match t with | w1 :: _ => .ok (.b (unpackB w w1), 2) | _ => .error .framing)
      | .m1 => (match t with | w1 :: _ => .ok (.m1 (unpackM1 w w1), 2) | _ => .error .framing)
      | .x => (match t with | w1 :: _ => .ok (.x (unpackX w w1), 2) | _ => .error .framing)
      | .m2 => (match t with | w1 :: w2 :: _ => .ok (.m2 (unpackM2 w w1 w2), 3) | _ => .error .framing) := by
  have hlt : ¬ 0x7E ≤ op := by have := opFmt_lt hf; omega
  simp only [readRaw, hop, if_neg hlt, hf]
  cases f <;> rfl

/-- Fields that fit are read back from the words that hold them, whatever words follow. -/
theorem readRaw_packRaw {r : Raw} (h : r.Fits) (rest : List Nat) : readRaw (packRaw r ++ rest) = .ok (r, r.len) := by
  cases r with
  | a r =>
    obtain ⟨op, ty, nw, d, a, b⟩ := r
    obtain ⟨hop, hlt⟩ := h
    have hlt126 := opFmt_lt hop
    simp only at hlt hlt126
    rw [packRaw, List.cons_append, readRaw_cons (op := op) _ (by simp only [fld]; omega) hop]
    simp only [unpackA, fld, Raw.len, Except.ok.injEq, Prod.mk.injEq, Raw.a.injEq, RawA.mk.injEq, and_true]
    omega
  | b r =>
    obtain ⟨op, ty, nw, xw, sub, d, a, imm⟩ := r
    obtain ⟨hop, hlt⟩ := h
    have hlt126 := opFmt_lt hop
    simp only at hlt hlt126
    rw [packRaw, List.cons_append, readRaw_cons (op := op) _ (by simp only [fld]; omega) hop]
    simp only [unpackB, fld, List.cons_append, Raw.len, Except.ok.injEq, Prod.mk.injEq, Raw.b.injEq, RawB.mk.injEq, and_true]
    omega
  | m1 r =>
    obtain ⟨op, ty, nw, ri, data, off, rsv, recd, ord, scope, sw, st, stsel, sub⟩ := r
    obtain ⟨hop, hlt⟩ := h
    have hlt126 := opFmt_lt hop
    simp only at hlt hlt126
    rw [packRaw, List.cons_append, readRaw_cons (op := op) _ (by simp only [fld]; omega) hop]
    simp only [unpackM1, fld, List.cons_append, Raw.len, Except.ok.injEq, Prod.mk.injEq, Raw.m1.injEq, RawM1.mk.injEq, and_true]
    omega
  | m2 r =>
    obtain ⟨op, ty, nw, data, c0, c1, c2, c3, c4, c5, n, st, c6, stsel, recd, shape, sw, rsv⟩ := r
    obtain ⟨hop, hlt⟩ := h
    have hlt126 := opFmt_lt hop
    simp only at hlt hlt126
    rw [packRaw, List.cons_append, readRaw_cons (op := op) _ (by simp only [fld]; omega) hop]
    simp only [unpackM2, fld, List.cons_append, Raw.len, Except.ok.injEq, Prod.mk.injEq, Raw.m2.injEq, RawM2.mk.injEq, and_true]
    omega
  | x r =>
    obtain ⟨op, acc, a, b, fmt, as_, bs, x1, x2, recd, rsv⟩ := r
    obtain ⟨hop, hlt⟩ := h
    have hlt126 := opFmt_lt hop
    simp only at hlt hlt126
    rw [packRaw, List.cons_append, readRaw_cons (op := op) _ (by simp only [fld]; omega) hop]
    simp only [unpackX, fld, List.cons_append, Raw.len, Except.ok.injEq, Prod.mk.injEq, Raw.x.injEq, RawX.mk.injEq, and_true]
    omega
  | c r =>
    obtain ⟨op, fn, pn, p, off⟩ := r
    obtain ⟨hop, hlt⟩ := h
    have hlt126 := opFmt_lt hop
    simp only at hlt hlt126
    rw [packRaw, List.cons_append, readRaw_cons (op := op) _ (by simp only [fld]; omega) hop]
    simp only [unpackC, fld, Raw.len, Except.ok.injEq, Prod.mk.injEq, Raw.c.injEq, RawC.mk.injEq, and_true]
    omega

end Sys2Proof
end

section
/-! SUPPORT. The instructions and their raw fields (spec/03 R66-R69): every well-formed instruction's fields fit, and read back as the
instruction. -/

namespace Sys2Proof

-- One proof at a time: side by side they need more threads than a check's memory holds.
set_option Elab.async false

/-- The instruction has raw fields, which fit, and read back as the instruction. -/
def Instr.Coded (i : Instr) : Prop := ∃ r, toRaw i = some r ∧ r.Fits ∧ ofRaw r = (false, some i)

/-- The fields of a format-B instruction with selectors (XW = 1). -/
structure RawB.Sels (r : RawB) (op ty : Nat) (nw : Bool) (sub xd xa xb xc : Nat) : Prop where
  op : r.op = op
  ty : r.ty = ty
  nw : r.nw = b2n nw
  xw : r.xw = 1
  sub : r.sub = sub
  d : r.d = 0
  a : r.a = 0
  xd : r.xd = xd
  xa : r.xa = xa
  xb : r.xb = xb
  xc : r.xc = xc

theorem Instr.Coded.formatA {i : Instr} {op ty d a b : Nat} {nw : Bool} (ht : toRaw i = some (rawA op ty nw d a b))
    (hop : opFmt op = some .a) (hfit : ty < 8 ∧ d < 128 ∧ a < 128 ∧ b < 128)
    (hr : ofA { op := op, ty := ty, nw := b2n nw, d := d, a := a, b := b } = (false, some i)) : i.Coded := by
  obtain ⟨hty, hd, ha, hb⟩ := hfit
  exact ⟨_, ht, ⟨hop, hty, b2n_lt nw, hd, ha, hb⟩, hr⟩

theorem Instr.Coded.sels {i : Instr} {op ty sub xd xa xb xc : Nat} {nw : Bool} (ht : toRaw i = some (rawS op ty nw sub xd xa xb xc))
    (hop : opFmt op = some .b) (hfit : ty < 8 ∧ sub < 64 ∧ xd < 256 ∧ xa < 256 ∧ xb < 256 ∧ xc < 256)
    (hr : ∀ r : RawB, r.Sels op ty nw sub xd xa xb xc → ofBBody r = (false, some i)) : i.Coded := by
  obtain ⟨hty, hsub, hd, ha, hb, hc⟩ := hfit
  refine ⟨_, ht, ⟨hop, hty, b2n_lt nw, Nat.one_lt_two, hsub, Nat.zero_lt_succ _, Nat.zero_lt_succ _, by dsimp only; omega⟩, ?_⟩
  have hbody := hr ⟨op, ty, b2n nw, 1, sub, 0, 0, xd * 2 ^ 24 + xa * 2 ^ 16 + xb * 2 ^ 8 + xc⟩ (by
    constructor <;> simp only [RawB.xd, RawB.xa, RawB.xb, RawB.xc, fld] <;> omega)
  simp only [rawS, ofRaw, ofB, rsvB, hbody]
  simp

theorem Instr.Coded.imm {i : Instr} {op ty sub d a imm : Nat} {nw : Bool} (ht : toRaw i = some (rawI op ty nw sub d a imm))
    (hop : opFmt op = some .b) (hfit : ty < 8 ∧ sub < 64 ∧ d < 128 ∧ a < 128 ∧ imm < 2 ^ 32)
    (hda : op ∈ opsDA ∨ d = 0 ∧ a = 0)
    (hr : ofBBody { op := op, ty := ty, nw := b2n nw, xw := 0, sub := sub, d := d, a := a, imm := imm } = (false, some i)) :
    i.Coded := by
  obtain ⟨hty, hsub, hd, ha, himm⟩ := hfit
  refine ⟨_, ht, ⟨hop, hty, b2n_lt nw, Nat.zero_lt_two, hsub, hd, ha, himm⟩, ?_⟩
  simp only [rawI, ofRaw, ofB, rsvB, hr]
  rcases hda with h | ⟨rfl, rfl⟩
  · simp [h]
  · simp

theorem Instr.Coded.m1 {i : Instr} {op ty data off ord scope sub : Nat} {nw sw : Bool} {rr : RecRef} {sr : Option Sel}
    (ht : toRaw i = some (rawM1 op ty nw sw rr data off ord scope sr sub)) (hop : opFmt op = some .m1)
    (hfit : ty < 8 ∧ data < 128 ∧ off < 128 ∧ ord < 8 ∧ scope < 8 ∧ sub < 256) (hrr : rr.ok = true) (hsr : stOk sr = true)
    (hos : ord = 0 → scope = 0)
    (hr : ofM1Body ⟨op, ty, b2n nw, rr.bit, data, off, 0, rr.code, ord, scope, b2n sw, b2n sr.isSome, stCode sr, sub⟩ =
      (false, some i)) : i.Coded := by
  obtain ⟨hty, hdata, hoff, hord, hscope, hsub⟩ := hfit
  refine ⟨_, ht, ⟨hop, hty, b2n_lt nw, rr.bit_lt, hdata, hoff, Nat.zero_lt_succ _, RecRef.code_lt hrr, hord, hscope, b2n_lt sw,
    b2n_lt _, stCode_lt hsr, hsub⟩, ?_⟩
  have hst : (b2n sr.isSome == 0 && stCode sr != 0) = false := by
    cases sr <;> simp [stCode]
  have hosb : (ord == 0 && scope != 0) = false := by
    simpa using hos
  simp only [rawM1, ofRaw, ofM1, rsvM1, hr, hst, hosb]
  simp

theorem Instr.Coded.x {i : Instr} {op acc fmt x1 x2 recd : Nat} {a b : MOperand} (ht : toRaw i = some (rawX op acc a b fmt x1 x2 recd))
    (hop : opFmt op = some .x) (hfit : acc < 16 ∧ fmt < 128 ∧ x1 < 256 ∧ x2 < 256 ∧ recd < 256) (ha : a.ok = true) (hb : b.ok = true)
    (hr : ofX ⟨op, acc, a.code, b.code, fmt, a.bit, b.bit, x1, x2, recd, 0⟩ = (false, some i)) : i.Coded := by
  obtain ⟨hacc, hfmt, hx1, hx2, hrec⟩ := hfit
  exact ⟨_, ht, ⟨hop, hacc, MOperand.code_lt ha, MOperand.code_lt hb, hfmt, a.bit_lt, b.bit_lt, hx1, hx2, hrec, Nat.zero_lt_succ _⟩, hr⟩

theorem Instr.Coded.c {i : Instr} {fn p off : Nat} {pn : Bool} (ht : toRaw i = some (rawC fn p pn off))
    (hfit : fn < 8 ∧ p < 8 ∧ off < 2 ^ 18)
    (hr : ofC { op := 0x78, fn := fn, pn := b2n pn, p := p, off := off } = (false, some i)) : i.Coded := by
  obtain ⟨hfn, hp, hoff⟩ := hfit
  exact ⟨_, ht, ⟨rfl, hfn, b2n_lt pn, hp, hoff⟩, hr⟩

end Sys2Proof
end

section
/-! SUPPORT. The instructions whose fields take more than one form (spec/03 R54-R66): their raw fields fit, and read back. -/

namespace Sys2Proof.Instr

-- One proof at a time: side by side they need more threads than a check's memory holds.
set_option Elab.async false

theorem coded_movi {ty : IType} {nw : Bool} {d : Sel} {src : Src} (h : (Instr.movi ty nw d src).wf = true) : (Instr.movi ty nw d src).Coded := by
  cases src with
  | imm w =>
    simp [wf, Sel.dst, Sel.ok] at h
    exact .imm rfl rfl (by simp [h, w.isLt]) (by simp [opsDA]) (by simp [ofBBody, ofIntB, dstOf, rx, h])
  | reg r =>
    simp [wf, Sel.dst, Sel.srcI, Sel.ok] at h
    exact .sels rfl rfl (by simp [h]) (by rintro r ⟨⟩; simp [ofBBody, ofIntB, dstOf, rx, *])

theorem coded_movs {nw : Bool} {d : Sel} {r : SReg} (h : (Instr.movs nw d r).wf = true) : (Instr.movs nw d r).Coded := by
  simp [wf, Sel.dst, Sel.ok] at h
  have hr : r.code < 1024 := by have := SReg.code_lt h.2; omega
  exact .imm rfl rfl (by simp [h]; omega) (by simp [opsDA]) (by
    simp [ofBBody, ofIntB, h, Nat.div_eq_of_lt hr, Nat.mod_eq_of_lt hr, SReg.of_code])

theorem coded_movsWide {nw : Bool} {d : Sel} (h : (Instr.movsWide nw d).wf = true) : (Instr.movsWide nw d).Coded := by
  simp [wf, Sel.isV] at h
  exact .imm rfl rfl (by simp [h]) (by simp [opsDA]) (by simp [ofBBody, ofIntB, h, SReg.of])

theorem coded_movsw {r : SReg} {a : Sel} (h : (Instr.movsw r a).wf = true) : (Instr.movsw r a).Coded := by
  simp [wf, Sel.srcI, Sel.ok] at h
  cases r <;> simp [SReg.writable] at h <;>
  exact .imm rfl rfl (by simp [h, SReg.code]) (by simp [opsDA]) (by simp [ofBBody, ofIntB, h, SReg.code, SReg.of])

theorem coded_bfx {ty : IType} {nw : Bool} {d a : Sel} {ctl : Src} (h : (Instr.bfx ty nw d a ctl).wf = true) : (Instr.bfx ty nw d a ctl).Coded := by
  cases ctl with
  | imm w =>
    simp [wf, Src.wide, Sel.dst, Sel.srcI, Sel.ok] at h
    exact .imm rfl rfl (by simp [h, w.isLt]) (by simp [opsDA]) (by simp [ofBBody, ofIntB, dstOf, srcAOf, srcOf, rx, h])
  | reg r =>
    simp [wf, Src.wide, Sel.dst, Sel.srcI, Sel.ok] at h
    exact .sels rfl rfl (by simp [h]) (by rintro r ⟨⟩; simp [ofBBody, ofIntB, dstOf, srcAOf, srcOf, rx, *])

theorem coded_bfi {ty : IType} {nw : Bool} {f : BfiForm} (h : (Instr.bfi ty nw f).wf = true) : (Instr.bfi ty nw f).Coded := by
  cases f with
  | imm d a c =>
    simp [wf, Sel.dst, Sel.srcI, Sel.ok] at h
    exact .imm rfl rfl (by simp [h, c.isLt]) (by simp [opsDA]) (by simp [ofBBody, ofIntB, h])
  | reg d a b c =>
    simp [wf, Sel.dst, Sel.srcI, Sel.ok] at h
    exact .sels rfl rfl (by simp [h]) (by rintro r ⟨⟩; simp [ofBBody, ofIntB, four, *])

theorem coded_perm {nw : Bool} {f : PermForm} (h : (Instr.perm nw f).wf = true) : (Instr.perm nw f).Coded := by
  cases f with
  | imm d a c =>
    simp [wf, Sel.dst, Sel.srcI, Sel.ok] at h
    exact .imm rfl rfl (by simp [h, c.isLt]) (by simp [opsDA]) (by simp [ofBBody, ofIntB, h])
  | reg d a b c =>
    simp [wf, Sel.dst, Sel.srcI, Sel.ok] at h
    exact .sels rfl rfl (by simp [h]) (by rintro r ⟨⟩; simp [ofBBody, ofIntB, four, *])

theorem coded_icmp {c : ICond} {ty : IType} {pd : Nat} {a : Sel} {src : Src} (h : (Instr.icmp c ty pd a src).wf = true) : (Instr.icmp c ty pd a src).Coded := by
  cases src with
  | imm w =>
    simp [wf, Src.wide, Src.okI, Sel.srcI, Sel.ok] at h
    exact .imm rfl rfl (by simp [h, w.isLt]) (by simp [opsDA]) (by simp [ofBBody, ofIntB, srcAOf, srcOf, rx, h])
  | reg r =>
    simp [wf, Src.wide, Src.okI, Sel.srcI, Sel.ok] at h
    exact .sels rfl rfl (by simp [h]) (by rintro r ⟨⟩; simp [ofBBody, ofIntB, srcAOf, srcOf, rx, *])

theorem coded_sel {ty : IType} {nw : Bool} {p : PredRef} {d a : Sel} {src : Src} (h : (Instr.sel ty nw p d a src).wf = true) : (Instr.sel ty nw p d a src).Coded := by
  cases src with
  | imm w =>
    simp [wf, Src.wide, Src.okI, Sel.dst, Sel.srcI, Sel.ok] at h
    exact .imm rfl rfl (by simp [h, w.isLt]) (by simp [opsDA]) (by simp [ofBBody, ofIntB, dstOf, srcAOf, srcOf, rx, PredRef.of_code, PredRef.code_lt, h])
  | reg r =>
    simp [wf, Src.wide, Src.okI, Sel.dst, Sel.srcI, Sel.ok] at h
    exact .sels rfl rfl (by simp [h]) (by rintro r ⟨⟩; simp [ofBBody, ofIntB, dstOf, srcAOf, srcOf, rx, PredRef.of_code, PredRef.code_lt, *])

theorem coded_plop {op : PredOp} {d a b : PredRef} (h : (Instr.plop op d a b).wf = true) : (Instr.plop op d a b).Coded := by
  simp [wf] at h
  have hd := predDst_ok h.1.1
  exact .formatA rfl rfl (by simp [h, hd]) (by simp [ofA, Nat.div_eq_of_lt, h, hd])

theorem coded_fcmp {c : FCond} {ty : FType} {pd : Nat} {a : Sel} {src : Src} (h : (Instr.fcmp c ty pd a src).wf = true) : (Instr.fcmp c ty pd a src).Coded := by
  cases src with
  | imm w =>
    simp [wf, Src.wide, Sel.srcF, Sel.ok] at h
    exact .imm rfl rfl (by simp [h, w.isLt]) (by simp [opsDA]) (by simp [ofBBody, ofFltB, srcAOf, srcOf, rx, h])
  | reg r =>
    simp [wf, Src.wide, Sel.srcF, Sel.ok] at h
    exact .sels rfl rfl (by simp [h]) (by rintro r ⟨⟩; simp [ofBBody, ofFltB, srcAOf, srcOf, rx, *])

end Sys2Proof.Instr
end

section
namespace Sys2Proof.Instr

-- One proof at a time: side by side they need more threads than a check's memory holds.
set_option Elab.async false

theorem coded_cvt {ty : FType} {nw : Bool} {rc : RoundCtl} {d a : Sel} {t : CvtTarget} {sat : Bool} (h : (Instr.cvt ty nw rc d a t sat).wf = true) : (Instr.cvt ty nw rc d a t sat).Coded := by
  simp [wf, cvtDst, Sel.srcF, Sel.ok] at h
  have hd : d.ok7 = true := by
    by_cases hn : ty.count * t.bits ≤ 32 <;> simp [hn, Sel.dst, Sel.ok] at h <;> simp [h]
  cases sat <;> cases t <;> simp at h <;>
  exact .imm rfl rfl (by simp [h, hd, CvtTarget.code]) (by simp [opsDA]) (by
    simp [ofBBody, ofFltB, h, hd, CvtTarget.code, CvtTarget.of])

theorem coded_cvti {ty : FType} {nw : Bool} {rc : RoundCtl} {d a : Sel} {t : IType} (h : (Instr.cvti ty nw rc d a t).wf = true) : (Instr.cvti ty nw rc d a t).Coded := by
  simp [wf, cvtDst, Sel.srcF, Sel.ok] at h
  have hd : d.ok7 = true := by
    by_cases hn : ty.count * t.bits ≤ 32 <;> simp [hn, Sel.dst, Sel.ok] at h <;> simp [h]
  cases t <;>
  exact .imm rfl rfl (by simp [h, hd, IType.code]) (by simp [opsDA]) (by
    simp [ofBBody, ofFltB, h, hd, IType.code, IType.of])

theorem coded_cvtf {ty : FType} {nw : Bool} {rc : RoundCtl} {d a : Sel} {t : IType} (h : (Instr.cvtf ty nw rc d a t).wf = true) : (Instr.cvtf ty nw rc d a t).Coded := by
  simp [wf, cvtDst, Sel.srcI, Sel.ok] at h
  have hd : d.ok7 = true := by
    by_cases hn : t.count * ty.bits ≤ 32 <;> simp [hn, Sel.dst, Sel.ok] at h <;> simp [h]
  cases t <;>
  exact .imm rfl rfl (by simp [h, hd, IType.code]) (by simp [opsDA]) (by
    simp [ofBBody, ofFltB, h, hd, IType.code, IType.of])

theorem coded_smxmerge {nw : Bool} {n : Nat} {d a b : Sel} (h : (Instr.smxmerge nw n d a b).wf = true) : (Instr.smxmerge nw n d a b).Coded := by
  simp [wf] at h
  obtain ⟨k, rfl⟩ : ∃ k, n = k + 1 := ⟨n - 1, by omega⟩
  exact .sels rfl rfl (by simp [h]; omega) (by
    rintro r ⟨⟩
    have hk : k < 16 := by omega
    simp [ofBBody, ofFltB, four, rx, *])

theorem coded_maccrd {f : AccFmt} {c d : Nat} {ch : Chain} (h : (Instr.maccrd f c ch d).wf = true) :
    (Instr.maccrd f c ch d).Coded := by
  simp [wf] at h
  obtain ⟨hslot, hch, hf, hlt⟩ := slotField h.1.1 ch f
  exact .formatA rfl rfl ⟨by decide, by omega, by decide, hlt⟩ (by
    simp [ofA, ofSlotOp, hslot, hch, hf, show d < 96 by omega])

theorem coded_maccwr {f : AccFmt} {c : Nat} {ch : Chain} {a : Option Nat} (h : (Instr.maccwr f c ch a).wf = true) :
    (Instr.maccwr f c ch a).Coded := by
  cases a with
  | none =>
    simp [wf] at h
    obtain ⟨hslot, hch, hf, hlt⟩ := slotField h ch f
    exact .formatA rfl rfl ⟨by decide, by decide, by decide, hlt⟩ (by simp [ofA, ofSlotOp, hslot, hch, hf])
  | some n =>
    simp [wf] at h
    obtain ⟨hslot, hch, hf, hlt⟩ := slotField h.1 ch f
    exact .formatA rfl rfl ⟨by decide, by decide, by omega, hlt⟩ (by
      simp [ofA, ofSlotOp, hslot, hch, hf, show n < 96 by omega, show n ≠ 120 by omega])

theorem coded_mxwait {c : Option Nat} (h : (Instr.mxwait c).wf = true) : (Instr.mxwait c).Coded := by
  cases c with
  | none => exact .formatA rfl rfl (by decide) rfl
  | some n =>
    simp [wf] at h
    exact .formatA rfl rfl ⟨by decide, by decide, by decide, by omega⟩ (by
      simp [ofA, ofSlotOp, Nat.mod_eq_of_lt h, Nat.div_eq_of_lt h, Nat.div_eq_of_lt (show n < 32 by omega)])

/-- The scratchpad accesses (R172). -/
theorem coded_spadAcc {load cl : Bool} {k : SpadAcc → Instr} {op : Nat} {o : SpadAcc} (h : o.wf load cl = true)
    (ht : toRaw (k o) = some (rawSrc op o.w.code false (o.ord.code + 8 * o.scope.code) o.d o.addr o.off))
    (hop : opFmt op = some .b ∧ op ∈ opsDA) (hr : ∀ r : RawB, r.op = op → ofBBody r = ofSpadAcc r k) : (k o).Coded := by
  obtain ⟨w, ord, scope, d, addr, off⟩ := o
  have hos : ord.code = 0 → scope.code = 0 := by
    cases ord <;> cases scope <;> simp [SpadAcc.wf, ordScope, Order.code, Scope.code] at h ⊢
  have hmod : (ord.code + 8 * scope.code) % 8 = ord.code := by have := ord.code_lt; omega
  have hdiv : (ord.code + 8 * scope.code) / 8 = scope.code := by have := ord.code_lt; omega
  have hlt : ord.code + 8 * scope.code < 64 := by have := ord.code_lt; have := scope.code_lt; omega
  have hd : d.ok off.wide = true := by cases load <;> simp [SpadAcc.wf, Sel.dataLd, Sel.dataSt] at h <;> simp [h]
  cases off with
  | imm w =>
    simp [SpadAcc.wf, Src.wide, Sel.srcI, Sel.ok] at h hd
    exact .imm ht hop.1 (by simp [h, hd, hlt, w.isLt]) (.inl hop.2) (by
      rw [hr _ rfl]
      simpa [ofSpadAcc, dstOf, srcAOf, srcOf, rx, h, hd, hmod, hdiv] using hos)
  | reg s =>
    simp [SpadAcc.wf, Src.okI, Src.wide, Sel.srcI, Sel.ok] at h hd
    exact .sels ht hop.1 (by simp [h, hd, hlt]) (by
      rintro r ⟨⟩
      rw [hr _ (by assumption)]
      simpa [ofSpadAcc, dstOf, srcAOf, srcOf, rx, *] using hos)

theorem coded_ldlk {w : Width} {sp : Space} {pt : Nat} {d a : Sel} {off : Src} (h : (Instr.ldlk w sp pt d a off).wf = true) :
    (Instr.ldlk w sp pt d a off).Coded := by
  have hpt : pt < 8 := by
    simp [wf] at h
    exact predDst_lt h.1.1.1.2
  have hsp := sp.code_lt
  have hmod : (sp.code + 2 * pt) % 2 = sp.code := by omega
  have hpd : (sp.code + 2 * pt) / 2 % 8 = pt := by omega
  have hlt : sp.code + 2 * pt < 16 := by omega
  cases off with
  | imm v =>
    simp [wf, Src.wide, Sel.srcI, Sel.dataLd, Sel.ok] at h
    exact .imm rfl rfl (by simp [h, v.isLt]; omega) (by simp [opsDA]) (by
      simp [ofBBody, ofMemB, dstOf, srcAOf, srcOf, rx, h, hmod, hpd, Nat.div_eq_of_lt hlt])
  | reg r =>
    simp [wf, Src.wide, Src.okI, Sel.srcI, Sel.dataLd, Sel.ok] at h
    exact .sels rfl rfl (by simp [h]; omega) (by
      rintro r ⟨⟩
      simp [ofBBody, ofMemB, dstOf, srcAOf, srcOf, rx, Nat.div_eq_of_lt hlt, *])

theorem coded_stul {w : Width} {sp : Space} {d a : Sel} {off : Src} (h : (Instr.stul w sp d a off).wf = true) :
    (Instr.stul w sp d a off).Coded := by
  have hsp := sp.code_lt
  have hmod : sp.code % 2 = sp.code := by omega
  cases off with
  | imm v =>
    simp [wf, Src.wide, Sel.srcI, Sel.dataSt, Sel.ok] at h
    exact .imm rfl rfl (by simp [h, v.isLt]; omega) (by simp [opsDA]) (by
      simp [ofBBody, ofMemB, dstOf, srcAOf, srcOf, rx, h, hmod, Nat.div_eq_of_lt hsp])
  | reg r =>
    simp [wf, Src.wide, Src.okI, Sel.srcI, Sel.dataSt, Sel.ok] at h
    exact .sels rfl rfl (by simp [h]; omega) (by
      rintro r ⟨⟩
      simp [ofBBody, ofMemB, dstOf, srcAOf, srcOf, rx, Nat.div_eq_of_lt hsp, *])

end Sys2Proof.Instr
end

section
/-! SUPPORT. Memory instructions (spec/03 R55, R56): their raw fields fit, and read back. -/

namespace Sys2Proof.Instr

-- One proof at a time: side by side they need more threads than a check's memory holds.
set_option Elab.async false

theorem coded_atoms {op : AtomOp} {w : Width} {sp : Space} {d c : Option Sel} {a b : Sel} (h : (Instr.atoms op w sp d a b c).wf = true) :
    (Instr.atoms op w sp d a b c).Coded := by
  have hop := op.code_lt
  have hsp := sp.code_lt
  have hmod : (op.code + 16 * sp.code) % 16 = op.code := by omega
  have hdiv : (op.code + 16 * sp.code) / 16 % 2 = sp.code := by omega
  have hlt : op.code + 16 * sp.code < 32 := by omega
  have hb : b.ok8 = true := by
    by_cases hw : w = .b64 <;> simp [wf, atomSel, hw, Sel.srcI, Sel.ok] at h <;> simp [h]
  have hc : ∀ r, c = some r → op = .cas ∧ r.ok8 = true := by
    rintro r rfl
    by_cases hw : w = .b64 <;> simp [wf, atomSel, hw, Sel.srcI, Sel.ok] at h <;> simp [h]
  have hn : c = none → op ≠ .cas := by
    rintro rfl
    simp [wf] at h
    exact h.2
  have ha : a.ok8 = true := by
    simp [wf, Sel.srcI, Sel.ok] at h
    exact h.1.1.2.1
  have hd : ∀ r, d = some r → r.ok8 = true := by
    rintro r rfl
    simp [wf] at h
    exact h.1.1.1.2.1
  have hten : (AtomOp.cas.code != 10) = false := rfl
  cases d with
  | none =>
    cases c with
    | none =>
      exact .sels rfl rfl (by simp [ha, hb]; omega) (by
        rintro r ⟨⟩
        simp [ofBBody, ofMemB, four, Nat.div_eq_of_lt hlt, *])
    | some x =>
      obtain ⟨rfl, hx⟩ := hc x rfl
      exact .sels rfl rfl (by simp [ha, hb, hx]; omega) (by
        rintro r ⟨⟩
        simp [ofBBody, ofMemB, four, Nat.div_eq_of_lt hlt, *])
  | some y =>
    have hy := hd y rfl
    cases c with
    | none =>
      exact .sels rfl rfl (by simp [ha, hb, hy]; omega) (by
        rintro r ⟨⟩
        simp [ofBBody, ofMemB, four, Nat.div_eq_of_lt hlt, *])
    | some x =>
      obtain ⟨rfl, hx⟩ := hc x rfl
      exact .sels rfl rfl (by simp [ha, hb, hx, hy]; omega) (by
        rintro r ⟨⟩
        simp [ofBBody, ofMemB, four, Nat.div_eq_of_lt hlt, *])

/-- The fields of ORD and SCOPE under R65. -/
theorem scope_zero_of_order_zero {o : Order} {s : Scope} (h : ordScope o s = true) : o.code = 0 → s.code = 0 := by
  cases o <;> cases s <;> simp [ordScope, Order.code, Scope.code] at h ⊢

theorem dataLd_ok7 {w : Width} {r : Sel} (h : r.dataLd false w = true) : r.ok7 = true := by
  simp [Sel.dataLd, Sel.ok] at h
  exact h.1

theorem dataSt_ok7 {w : Width} {r : Sel} (h : r.dataSt false w = true) : r.ok7 = true := by
  simp [Sel.dataSt, Sel.ok] at h
  exact h.1

theorem srcI_ok7 {r : Sel} (h : r.srcI false = true) : r.ok7 = true := by
  simp [Sel.srcI, Sel.ok] at h
  exact h.1

theorem coded_ld {w : Width} {o : Order} {s : Scope} {nw sw : Bool} {addr : MemAddr} {data : Sel} {sr : Option Sel}
    (h : (Instr.ld w o s nw sw addr data sr).wf = true) : (Instr.ld w o s nw sw addr data sr).Coded := by
  simp [wf] at h
  obtain ⟨⟨⟨⟨⟨-, hos⟩, -⟩, haddr⟩, hdata⟩, hsr⟩ := h
  have hos := scope_zero_of_order_zero hos
  have hdata := dataLd_ok7 hdata
  cases addr with
  | off rr x =>
    simp [MemAddr.ok] at haddr
    have hx := srcI_ok7 haddr.2
    exact .m1 rfl rfl (by simp [hx, hdata]) haddr.1 hsr hos (by
      simp [ofM1Body, RecRef.of_code haddr.1, stOf_stCode hsr, hx, hdata])
  | ptr x =>
    simp [MemAddr.ok] at haddr
    exact .m1 rfl rfl (by simp [haddr, hdata]) rfl hsr hos (by
      simp [ofM1Body, RecRef.of, RecRef.code, RecRef.bit, stOf_stCode hsr, haddr, hdata])

theorem coded_st {w : Width} {o : Order} {s : Scope} {addr : MemAddr} {data : Sel} {sr : Option Sel}
    (h : (Instr.st w o s addr data sr).wf = true) : (Instr.st w o s addr data sr).Coded := by
  simp [wf] at h
  obtain ⟨⟨⟨⟨-, hos⟩, haddr⟩, hdata⟩, hsr⟩ := h
  have hos := scope_zero_of_order_zero hos
  have hdata := dataSt_ok7 hdata
  cases addr with
  | off rr x =>
    simp [MemAddr.ok] at haddr
    have hx := srcI_ok7 haddr.2
    exact .m1 rfl rfl (by simp [hx, hdata]) haddr.1 hsr hos (by
      simp [ofM1Body, RecRef.of_code haddr.1, stOf_stCode hsr, hx, hdata])
  | ptr x =>
    simp [MemAddr.ok] at haddr
    exact .m1 rfl rfl (by simp [haddr, hdata]) rfl hsr hos (by
      simp [ofM1Body, RecRef.of, RecRef.code, RecRef.bit, stOf_stCode hsr, haddr, hdata])

theorem atomData_ok7 {op : AtomOp} {w : Width} {r : Sel} (h : atomData op w r = true) : r.ok7 = true := by
  simp [atomData] at h
  exact h.1

theorem coded_atom {o : RecAtom} (h : (Instr.atom o).wf = true) : (Instr.atom o).Coded := by
  simp [wf] at h
  obtain ⟨⟨⟨⟨⟨-, hos⟩, hrr⟩, hoff⟩, hdata⟩, hsr⟩ := h
  have hdata := atomData_ok7 hdata
  have hoff := srcI_ok7 hoff
  have hop := o.op.code_lt
  exact .m1 rfl rfl (by simp [hdata, hoff]; omega) hrr hsr (scope_zero_of_order_zero hos) (by
    simp [ofM1Body, ofRecAtom, RecRef.of_code hrr, stOf_stCode hsr, hdata, hoff, Nat.mod_eq_of_lt hop, Nat.div_eq_of_lt hop])

theorem coded_red {o : RecAtom} (h : (Instr.red o).wf = true) : (Instr.red o).Coded := by
  simp [wf] at h
  obtain ⟨⟨⟨⟨⟨⟨-, hos⟩, hnw⟩, hrr⟩, hoff⟩, hdata⟩, hsr⟩ := h
  obtain ⟨op, w, ord, scope, nw, sw, rcd, off, data, st⟩ := o
  dsimp only at *
  subst hnw
  have hdata := dataSt_ok7 hdata
  have hoff := srcI_ok7 hoff
  have hop := op.code_lt
  exact .m1 rfl rfl (by simp [hdata, hoff]; omega) hrr hsr (scope_zero_of_order_zero hos) (by
    simp [ofM1Body, ofRecAtom, RecRef.of_code hrr, stOf_stCode hsr, hdata, hoff, Nat.mod_eq_of_lt hop, Nat.div_eq_of_lt hop])

theorem coded_monitor {w : Width} {acq nw sw : Bool} {s : Scope} {rr : RecRef} {o d : Sel} {sr : Option Sel}
    (h : (Instr.monitor w acq s nw sw rr o d sr).wf = true) : (Instr.monitor w acq s nw sw rr o d sr).Coded := by
  simp [wf] at h
  obtain ⟨⟨⟨⟨⟨⟨-, hos⟩, -⟩, hrr⟩, ho⟩, hd⟩, hsr⟩ := h
  have hd := dataLd_ok7 hd
  have ho := srcI_ok7 ho
  exact .m1 rfl rfl (by simp [hd, ho, Nat.lt_of_le_of_lt (b2n_le_one _)]) hrr hsr (by rcases hos with rfl | rfl <;> simp [Scope.code]) (by
    simp [ofM1Body, RecRef.of_code hrr, stOf_stCode hsr, hd, ho])

theorem coded_pin {sw : Bool} {rr : RecRef} {o sr : Sel} (h : (Instr.pin sw rr o sr).wf = true) : (Instr.pin sw rr o sr).Coded := by
  simp [wf] at h
  obtain ⟨⟨hrr, ho⟩, hsr⟩ := h
  have ho := srcI_ok7 ho
  have hok : sr.ok8 = true := by
    simp [Sel.dst, Sel.ok] at hsr
    exact hsr.1
  exact .m1 rfl rfl (by simp [ho]) hrr hsr (by simp) (by simp [ofM1Body, RecRef.of_code hrr, stCode, hok, ho])

theorem coded_resq {nw sw : Bool} {rr : RecRef} {o d : Sel} {sr : Option Sel} (h : (Instr.resq nw sw rr o d sr).wf = true) :
    (Instr.resq nw sw rr o d sr).Coded := by
  simp [wf, Sel.dstVO, Sel.ok] at h
  obtain ⟨⟨⟨⟨rfl, hrr⟩, ho⟩, hd⟩, hsr⟩ := h
  have ho := srcI_ok7 ho
  exact .m1 rfl rfl (by simp [ho, hd]) hrr hsr (by simp) (by
    simp [ofM1Body, RecRef.of_code hrr, stOf_stCode hsr, ho, hd])

theorem coded_resqFetch {nw sw : Bool} {rr : RecRef} {o d : Sel} {sr : Option Sel} (h : (Instr.resqFetch nw sw rr o d sr).wf = true) :
    (Instr.resqFetch nw sw rr o d sr).Coded := by
  simp [wf, Sel.dstVO, Sel.ok] at h
  obtain ⟨⟨⟨⟨rfl, hrr⟩, ho⟩, hd⟩, hsr⟩ := h
  have ho := srcI_ok7 ho
  exact .m1 rfl rfl (by simp [ho, hd]) hrr hsr (by simp) (by
    simp [ofM1Body, RecRef.of_code hrr, stOf_stCode hsr, ho, hd])

/-- The coordinates of a tensor access are read back from their fields, and the fields beyond them are zero (R56). -/
theorem coords_read {l : List Sel} (hok : l.all (Sel.srcI false) = true) (hlen : l.length ≤ 7) :
    (([coordAt l 0, coordAt l 1, coordAt l 2, coordAt l 3, coordAt l 4, coordAt l 5, coordAt l 6].take l.length).map Sel.of7 = l ∧
      ([coordAt l 0, coordAt l 1, coordAt l 2, coordAt l 3, coordAt l 4, coordAt l 5, coordAt l 6].drop l.length).any (· != 0) = false) := by
  have hall : ∀ r ∈ l, r.ok7 = true := fun r hr => srcI_ok7 (List.all_eq_true.1 hok r hr)
  rcases l with _ | ⟨a, _ | ⟨b, _ | ⟨c, _ | ⟨d, _ | ⟨e, _ | ⟨f, _ | ⟨g, _ | ⟨x, t⟩⟩⟩⟩⟩⟩⟩⟩
  case cons.cons.cons.cons.cons.cons.cons.cons => simp at hlen; omega
  all_goals simp [coordAt] at hall ⊢ <;> simp [hall]

theorem coordAt_lt {l : List Sel} (hok : l.all (Sel.srcI false) = true) (n : Nat) : coordAt l n < 128 := by
  unfold coordAt
  split
  · next r hr => exact Sel.code7_lt (srcI_ok7 (List.all_eq_true.1 hok r (List.mem_of_getElem? hr)))
  · decide

/-- LDT and STT (R56). -/
theorem coded_tensor {load : Bool} {k : TensorAcc → Instr} {op : Nat} {o : TensorAcc} (h : o.wf load = true)
    (ht : toRaw (k o) = some (rawTensor op o)) (hop : opFmt op = some .m2) (hk : ∀ x, (if op = 0x62 then Instr.ldt x else .stt x) = k x) :
    (k o).Coded := by
  obtain ⟨w, nw, sw, data, coords, rcd, shape, st⟩ := o
  have hdata : data.ok7 = true := by
    cases load <;> simp [TensorAcc.wf, Sel.dataLd, Sel.dataSt, Sel.ok] at h <;> simp [h]
  simp only [TensorAcc.wf, Bool.and_eq_true, decide_eq_true_eq] at h
  obtain ⟨⟨⟨⟨⟨⟨-, hlen1⟩, hlen⟩, hcs⟩, hrcd⟩, hshape⟩, hst⟩ := h
  obtain ⟨htake, hdrop⟩ := coords_read hcs hlen
  have hlt := coordAt_lt hcs
  have hne : coords.length ≠ 0 := by omega
  refine ⟨_, ht, ?_⟩
  cases st with
  | none =>
    refine ⟨⟨hop, by simp [hdata, hlt, hrcd, hshape]; omega⟩, ?_⟩
    simp only [rawTensor, ofRaw, ofM2, RawM2.coords, htake, hdrop, Width.of_code, hne]
    simp [hk, hdata]
  | some r =>
    have hr : r.ok7 = true := by
      simp [Sel.dst, Sel.ok] at hst
      exact hst.1
    refine ⟨⟨hop, by simp [hdata, hr, hlt, hrcd, hshape]; omega⟩, ?_⟩
    simp only [rawTensor, ofRaw, ofM2, RawM2.coords, htake, hdrop, Width.of_code, hne]
    simp [hk, hdata, hr]

end Sys2Proof.Instr
end

section
/-! SUPPORT. Barrier, posting, sweep, service, domain and inference instructions (spec/03 R54): their raw fields fit, and read back; then
every instruction's. -/

namespace Sys2Proof.Instr

-- One proof at a time: side by side they need more threads than a check's memory holds.
set_option Elab.async false

theorem srcI_ok8 {r : Sel} (h : r.srcI true = true) : r.ok8 = true := by
  simp [Sel.srcI, Sel.ok] at h
  exact h.1

theorem dst_ok8 {r : Sel} (h : r.dst true = true) : r.ok8 = true := by
  simp [Sel.dst, Sel.ok] at h
  exact h.1

/-- Two Booleans above a field of four bits (R287). -/
theorem flagField {k : Nat} (hk : k < 16) (a b : Bool) :
    (k + 16 * b2n a + 32 * b2n b) % 16 = k ∧ (k + 16 * b2n a + 32 * b2n b) / 16 % 2 = b2n a ∧
      (k + 16 * b2n a + 32 * b2n b) / 16 / 2 = b2n b ∧ k + 16 * b2n a + 32 * b2n b < 64 := by
  have := b2n_lt a
  have := b2n_lt b
  omega

theorem coded_binit {k : Nat} {ab cr : Bool} {a b : Sel} (h : (Instr.binit k ab cr a b).wf = true) : (Instr.binit k ab cr a b).Coded := by
  simp [wf] at h
  obtain ⟨⟨hk, ha⟩, hb⟩ := h
  have ha := srcI_ok8 ha
  have hb := srcI_ok8 hb
  obtain ⟨hslot, hab, hcr, hlt⟩ := flagField hk ab cr
  have hcr' : (k + 16 * b2n ab + 32 * b2n cr) / 32 = b2n cr := by omega
  exact .sels rfl rfl (by simp [ha, hb, hlt]) (by
    rintro r ⟨⟩
    simp [ofBBody, ofBarrier, four, rx, *])

theorem coded_bexpect {k : Nat} {w : Word} (h : (Instr.bexpect k w).wf = true) : (Instr.bexpect k w).Coded := by
  simp [wf] at h
  exact .imm rfl rfl (by simp [w.isLt]; omega) (.inr ⟨rfl, rfl⟩) (by
    simp [ofBBody, ofBarrier, rx, Nat.mod_eq_of_lt h, h])

theorem coded_bexpectReg {k : Nat} {a : Sel} (h : (Instr.bexpectReg k a).wf = true) : (Instr.bexpectReg k a).Coded := by
  simp [wf] at h
  have ha := srcI_ok8 h.2
  exact .sels rfl rfl (by simp [ha]; omega) (by
    rintro r ⟨⟩
    simp [ofBBody, ofBarrier, rx, Nat.mod_eq_of_lt h.1, *])

theorem coded_barrive {k : Nat} {sib : Option Sel} {b : Sel} (h : (Instr.barrive k sib b).wf = true) : (Instr.barrive k sib b).Coded := by
  simp [wf] at h
  obtain ⟨⟨hk, hsib⟩, hb⟩ := h
  have hb := srcI_ok8 hb
  have hk1 : (k + 16) % 16 = k := by omega
  have hu1 : (k + 16) / 16 = 1 := by omega
  cases sib with
  | none =>
    exact .sels rfl rfl (by simp [hb]; omega) (by
      rintro r ⟨⟩
      simp [ofBBody, ofBarrier, four, rx, Nat.mod_eq_of_lt hk, Nat.div_eq_of_lt hk, *])
  | some a =>
    have ha := (domOk_some.1 hsib).1
    exact .sels rfl rfl (by simp [ha, hb]; omega) (by
      rintro r ⟨⟩
      simp [ofBBody, ofBarrier, four, rx, *])

theorem coded_bwait {k : Nat} {ph : Option Sel} (h : (Instr.bwait k ph).wf = true) : (Instr.bwait k ph).Coded := by
  simp [wf] at h
  obtain ⟨hk, hph⟩ := h
  have hk1 : (k + 16) % 16 = k := by omega
  have hu1 : (k + 16) / 16 = 1 := by omega
  cases ph with
  | none =>
    exact .sels rfl rfl (by simp; omega) (by
      rintro r ⟨⟩
      simp [ofBBody, ofBarrier, rx, Nat.mod_eq_of_lt hk, Nat.div_eq_of_lt hk, *])
  | some a =>
    have ha := (domOk_some.1 hph).1
    exact .sels rfl rfl (by simp [ha]; omega) (by
      rintro r ⟨⟩
      simp [ofBBody, ofBarrier, rx, *])

theorem coded_btest {k w : Nat} {d : Sel} (h : (Instr.btest k w d).wf = true) : (Instr.btest k w d).Coded := by
  simp [wf] at h
  have hd := dst_ok8 h.2
  have hk : (k + 16 * w) % 16 = k := by omega
  have hw : (k + 16 * w) / 16 = w := by omega
  exact .sels rfl rfl (by simp [hd]; omega) (by
    rintro r ⟨⟩
    simp [ofBBody, ofBarrier, rx, *])

theorem coded_eseq {d q : Sel} {t : Option Sel} (h : (Instr.eseq d q t).wf = true) : (Instr.eseq d q t).Coded := by
  simp [wf] at h
  obtain ⟨⟨hd, hq⟩, ht⟩ := h
  have hd := dst_ok8 hd
  have hq := srcI_ok8 hq
  cases t with
  | none => exact .sels rfl rfl (by simp [hd, hq]) (by rintro r ⟨⟩; simp [ofBBody, ofPost, four, rx, *])
  | some x =>
    have hx := (domOk_some.1 ht).1
    exact .sels rfl rfl (by simp [hd, hq, hx]) (by rintro r ⟨⟩; simp [ofBBody, ofPost, four, rx, *])

theorem coded_copy {tgt str : Bool} {d q : Sel} {g : Nat} (h : (Instr.copy tgt str d q g).wf = true) : (Instr.copy tgt str d q g).Coded := by
  simp [wf] at h
  obtain ⟨⟨⟨hd, hq⟩, hg⟩, -⟩ := h
  have hd := dst_ok8 hd
  have hq := srcI_ok8 hq
  have hlo : (b2n tgt + 2 * b2n str) % 2 = b2n tgt := by have := b2n_lt tgt; omega
  have hhi : (b2n tgt + 2 * b2n str) / 2 % 2 = b2n str := by have := b2n_lt tgt; have := b2n_lt str; omega
  have hlt : b2n tgt + 2 * b2n str < 4 := by have := b2n_lt tgt; have := b2n_lt str; omega
  have hg8 : Sel.of8 g = some (.v g) := Sel.of8_code8 (r := .v g) (by simp [Sel.ok8]; omega)
  exact .sels rfl rfl (by simp [hd, hq]; omega) (by
    rintro r ⟨⟩
    simp [ofBBody, ofPost, four, rx, show g < 192 by omega, *])

theorem coded_swreg {d r : Sel} {i : Nat} (h : (Instr.swreg d r i).wf = true) : (Instr.swreg d r i).Coded := by
  simp [wf] at h
  obtain ⟨⟨hd, hr⟩, hi⟩ := h
  have hd := dst_ok8 hd
  have hr := srcI_ok8 hr
  have hi8 : Sel.of8 i = some (.v i) := Sel.of8_code8 (r := .v i) (by simp [Sel.ok8]; omega)
  exact .sels rfl rfl (by simp [hd, hr]; omega) (by
    rintro r ⟨⟩
    simp [ofBBody, ofSweep, four, rx, show i < 192 by omega, *])

theorem coded_swwait {r : Sel} {e : Option Sel} (h : (Instr.swwait r e).wf = true) : (Instr.swwait r e).Coded := by
  simp [wf] at h
  have hr := srcI_ok8 h.1
  cases e with
  | none => exact .sels rfl rfl (by simp [hr]) (by rintro r ⟨⟩; simp [ofBBody, ofSweep, four, rx, *])
  | some x =>
    have hx := (domOk_some.1 h.2).1
    exact .sels rfl rfl (by simp [hr, hx]) (by rintro r ⟨⟩; simp [ofBBody, ofSweep, four, rx, *])

theorem coded_icfetch {s : SegRef} (h : (Instr.icfetch s).wf = true) : (Instr.icfetch s).Coded := by
  cases s with
  | imm n =>
    simp [wf, SegRef.ok] at h
    exact .imm rfl rfl (by simp; omega) (.inr ⟨rfl, rfl⟩) (by
      simp [ofBBody, ofService, rx, Nat.mod_eq_of_lt h, Nat.div_eq_of_lt h])
  | reg r =>
    have hr := srcI_ok8 (r := r) (by simpa [wf, SegRef.ok] using h)
    exact .sels rfl rfl (by simp [hr]) (by rintro r ⟨⟩; simp [ofBBody, ofService, four, rx, *])

theorem coded_icfetchDrop {s : SegRef} (h : (Instr.icfetchDrop s).wf = true) : (Instr.icfetchDrop s).Coded := by
  cases s with
  | imm n =>
    simp [wf, SegRef.ok] at h
    exact .imm rfl rfl (by simp; omega) (.inr ⟨rfl, rfl⟩) (by
      simp [ofBBody, ofService, rx, Nat.mod_eq_of_lt h, Nat.div_eq_of_lt h])
  | reg r =>
    have hr := srcI_ok8 (r := r) (by simpa [wf, SegRef.ok] using h)
    exact .sels rfl rfl (by simp [hr]) (by rintro r ⟨⟩; simp [ofBBody, ofService, four, rx, *])

theorem coded_gcall {n : Nat} (h : (Instr.gcall n).wf = true) : (Instr.gcall n).Coded := by
  simp [wf] at h
  exact .imm rfl rfl (by simp; omega) (.inr ⟨rfl, rfl⟩) (by
    simp [ofBBody, ofDomain, rx, Nat.mod_eq_of_lt h, Nat.div_eq_of_lt h])

theorem coded_xlinvPage {a : Nat} {d : Option Sel} (h : (Instr.xlinvPage a d).wf = true) : (Instr.xlinvPage a d).Coded := by
  simp [wf] at h
  obtain ⟨⟨ha, -⟩, hd⟩ := h
  cases d with
  | none => exact .sels rfl rfl (by simp; omega) (by rintro r ⟨⟩; simp [ofBBody, ofDomain, rx, *])
  | some x =>
    have hx := (domOk_some.1 hd).1
    exact .sels rfl rfl (by simp [hx]; omega) (by rintro r ⟨⟩; simp [ofBBody, ofDomain, rx, *])

theorem coded_xlinvResidency {a : Nat} {d : Option Sel} (h : (Instr.xlinvResidency a d).wf = true) : (Instr.xlinvResidency a d).Coded := by
  simp [wf] at h
  obtain ⟨⟨ha, -⟩, hd⟩ := h
  cases d with
  | none => exact .sels rfl rfl (by simp; omega) (by rintro r ⟨⟩; simp [ofBBody, ofDomain, rx, *])
  | some x =>
    have hx := (domOk_some.1 hd).1
    exact .sels rfl rfl (by simp [hx]; omega) (by rintro r ⟨⟩; simp [ofBBody, ofDomain, rx, *])

theorem coded_xlprobe {d a : Nat} {o : Option Sel} (h : (Instr.xlprobe d a o).wf = true) : (Instr.xlprobe d a o).Coded := by
  simp [wf] at h
  obtain ⟨⟨⟨⟨hd, -⟩, ha⟩, -⟩, ho⟩ := h
  cases o with
  | none => exact .sels rfl rfl (by simp; omega) (by rintro r ⟨⟩; simp [ofBBody, ofDomain, rx, *])
  | some x =>
    have hx := (domOk_some.1 ho).1
    exact .sels rfl rfl (by simp [hx]; omega) (by rintro r ⟨⟩; simp [ofBBody, ofDomain, rx, *])

theorem coded_apush {n : Nat} {a : Sel} (h : (Instr.apush n a).wf = true) : (Instr.apush n a).Coded := by
  simp [wf] at h
  have ha := srcI_ok8 h.2
  exact .sels rfl rfl (by simp [ha]; omega) (by
    rintro r ⟨⟩
    simp [ofBBody, ofInference, four, rx, Nat.div_eq_of_lt h.1, Nat.mod_eq_of_lt h.1, show n < 16 by omega, *])

theorem coded_apushVec {n : Nat} {a b : Sel} (h : (Instr.apushVec n a b).wf = true) : (Instr.apushVec n a b).Coded := by
  simp [wf] at h
  have ha := srcI_ok8 h.1.2
  have hb := srcI_ok8 h.2
  have hkind : (n / 4 + 1) % 4 = 1 := by omega
  have hq : (n + 4) % 4 = n := by omega
  exact .sels rfl rfl (by simp [ha, hb]; omega) (by
    rintro r ⟨⟩
    simp [ofBBody, ofInference, four, rx, show n + 4 < 16 by omega, *])

theorem coded_apushBcld {n : Nat} {a b : Sel} (h : (Instr.apushBcld n a b).wf = true) : (Instr.apushBcld n a b).Coded := by
  simp [wf] at h
  have ha := srcI_ok8 h.1.2
  have hb := srcI_ok8 h.2
  have hkind : (n + 8) / 4 % 4 = 2 := by omega
  have hq : (n + 8) % 4 = n := by omega
  exact .sels rfl rfl (by simp [ha, hb]; omega) (by
    rintro r ⟨⟩
    simp [ofBBody, ofInference, four, rx, show n + 8 < 16 by omega, *])

theorem coded_vgwait {n : Option Nat} (h : (Instr.vgwait n).wf = true) : (Instr.vgwait n).Coded := by
  cases n with
  | none => exact .sels rfl rfl (by decide) (by rintro r ⟨⟩; simp [ofBBody, ofInference, rx, *])
  | some k =>
    simp [wf] at h
    exact .sels rfl rfl (by simp; omega) (by
      rintro r ⟨⟩
      simp [ofBBody, ofInference, rx, Nat.div_eq_of_lt h, Nat.mod_eq_of_lt h, show k < 16 by omega, *])

theorem coded_jmpf {p sg w : Nat} {pn : Bool} (h : (Instr.jmpf p pn sg w).wf = true) : (Instr.jmpf p pn sg w).Coded := by
  simp [wf] at h
  have hseg : (sg * 1024 + w) / 1024 % 64 = sg := by omega
  have hword : (sg * 1024 + w) % 1024 = w := by omega
  exact .c rfl ⟨by decide, by omega, by omega⟩ (by simp [ofC, hseg, hword, show sg * 1024 + w < 65536 by omega])

end Sys2Proof.Instr
end

section
/-! SUPPORT. Every instruction's fields (spec/03 R66-R69). -/

namespace Sys2Proof.Instr

-- One proof at a time: side by side they need more threads than a check's memory holds.
set_option Elab.async false

/-- Every well-formed instruction has raw fields that fit and read back as it. -/
theorem coded_of_wf {i : Instr} (h : i.wf = true) : i.Coded := by
  cases i
  case iadd | iaddc | isub | isubb | imul | imulh | idiv | irem | imin | imax | shl | shr | sar | rot =>
    simp [Instr.wf, IntA.wf, Sel.dst, Sel.srcI, Sel.ok] at h
    exact .formatA rfl rfl (by simp [h]) (by simp [ofA, mkIntA, h])
  case mov | ineg | iabs | popc | clz | ctz | brev =>
    simp [Instr.wf, IntU.wf, Sel.dst, Sel.srcI, Sel.ok] at h
    exact .formatA rfl rfl (by simp [h]) (by simp [ofA, ofUnary, mkIntU, h])
  case and | or | xor | andn =>
    simp [Instr.wf, LogicA.wf, Sel.dst, Sel.srcI, Sel.ok] at h
    exact .formatA rfl rfl (by simp [h]) (by simp [ofA, ofLogic, h])
  case fadd | fsub | fmul | fmin | fmax | fcopys | fdiv | fscale =>
    simp [Instr.wf, FltA.wf, Sel.dstF, Sel.srcF, Sel.srcI, Sel.ok] at h
    exact .formatA rfl rfl (by simp [h]) (by simp [ofA, mkFltA, h])
  case fclass | fsqrt | frcp | frsq | fexp2 | flog2 | fsin | fcos | frnd | freda | fredm =>
    simp [Instr.wf, FltU.wf, Sel.dstF, Sel.srcF, Sel.dst, Sel.ok] at h
    exact .formatA rfl rfl (by simp [h]) (by simp [ofA, ofTrans, mkFltU, h])
  case vote | shfl | split3 =>
    simp [Instr.wf, Sel.dst, Sel.dstVO, Sel.srcF, Sel.srcI, Sel.ok] at h
    exact .formatA rfl rfl (by simp [h]) (by simp [ofA, h])
  case imad | imadw =>
    simp [Instr.wf, Sel.dst, Sel.srcI, Sel.ok] at h
    exact .sels rfl rfl (by simp [h]) (by rintro r ⟨⟩; simp [ofBBody, ofIntB, four, *])
  case waitc | qrd | qpushClaim | qpushCommit | qfree =>
    simp [Instr.wf, Sel.dst, Sel.srcI, Sel.ok] at h
    exact .formatA rfl rfl (by simp [h]) (by simp [ofA, ofStream, h])
  case monwait | fence | publish =>
    simp [Instr.wf, Sel.srcI, Sel.ok] at h
    exact .formatA rfl rfl (by simp [h, Nat.lt_of_lt_of_le (Scope.code_lt _)]) (by simp [ofA, ofMemA, h])
  case bri | ret | nop | tret | tretAbort | excrd =>
    simp [Instr.wf, Sel.dst, Sel.srcI, Sel.ok] at h
    exact .formatA rfl rfl (by simp [h]) (by simp [ofA, ofControl, h])
  case join | leave | regang | yield | exit =>
    simp [Instr.wf, Sel.dstVO, Sel.srcI, Sel.ok] at h
    exact .formatA rfl rfl (by simp [h]) (by simp [ofA, ofExec, h])
  case mma | mmas | mmaz =>
    simp [Instr.wf, Sel.srcI, Sel.ok] at h
    exact .x rfl rfl (by simp [h]) (by simp [h]) (by simp [h]) (by simp [ofX, h])
  case mmax =>
    simp [Instr.wf, Sel.srcI, Sel.srcF, Sel.ok] at h
    exact .x rfl rfl (by simp [h]) (by simp [h]) (by simp [h]) (by simp [ofX, h])
  case mmam =>
    simp [Instr.wf, Sel.srcI, Sel.ok] at h
    exact .x rfl rfl (by simp [h]) (by simp [h]) rfl (by simp [ofX, h])
  case ffma =>
    simp [Instr.wf, Sel.dstF, Sel.srcF, Sel.ok] at h
    exact .sels rfl rfl (by simp [h]) (by rintro r ⟨⟩; simp [ofBBody, ofFltB, four, Nat.div_eq_of_lt, *])
  case qnt | dqnt =>
    simp [Instr.wf, Sel.dst, Sel.srcI, Sel.srcF, Sel.ok] at h
    exact .sels rfl rfl (by simp [h]) (by rintro r ⟨⟩; simp [ofBBody, ofFltB, four, *])
  case unpkd | unpkz | unpkr =>
    simp [Instr.wf, Sel.dst, Sel.srcI, Sel.ok] at h
    exact .sels rfl rfl (by simp [h]) (by rintro r ⟨⟩; simp [ofBBody, ofFltB, four, rx, Nat.div_eq_of_lt, *])
  case mmafin c =>
    simp [Instr.wf] at h
    exact .formatA rfl rfl (by simp; omega) (by
      simp [ofA, ofSlotOp, Nat.mod_eq_of_lt h, Nat.div_eq_of_lt h, Nat.div_eq_of_lt (show c < 32 by omega)])
  case mtrans w nw d a =>
    simp [Instr.wf] at h
    obtain ⟨⟨rfl, hd⟩, ha⟩ := h
    exact .sels rfl rfl (by simp; omega) (by rintro r ⟨⟩; simp [ofBBody, ofFltB, rx, *])
  case lds o => exact coded_spadAcc h rfl (by decide) (fun r hr => by simp [ofBBody, ofMemB, hr])
  case sts o => exact coded_spadAcc h rfl (by decide) (fun r hr => by simp [ofBBody, ofMemB, hr])
  case ldsc o => exact coded_spadAcc h rfl (by decide) (fun r hr => by simp [ofBBody, ofMemB, hr])
  case stsc o => exact coded_spadAcc h rfl (by decide) (fun r hr => by simp [ofBBody, ofMemB, hr])
  case qinit n a b =>
    simp [Instr.wf, Sel.srcI, Sel.ok] at h
    exact .sels rfl rfl (by simp [h]; omega) (by
      rintro r ⟨⟩
      simp [ofBBody, ofMemB, four, rx, Nat.mod_eq_of_lt h.1.1, Nat.div_eq_of_lt h.1.1, *])
  case ldt o => exact coded_tensor h rfl rfl fun x => by simp
  case stt o => exact coded_tensor h rfl rfl fun x => by simp
  case prefL1 | prefL2 | prefPagein | unpin =>
    simp [Instr.wf, Sel.srcI, Sel.ok] at h
    exact .m1 rfl rfl (by simp [h]) h.1 rfl (by simp) (by simp [ofM1Body, RecRef.of_code h.1, h])
  case recset a g =>
    simp [Instr.wf, Sel.srcI, Sel.ok] at h
    exact .sels rfl rfl (by simp [h]; omega) (by rintro r ⟨⟩; simp [ofBBody, ofMemB, rx, *])
  case recsetReload | recsetShape =>
    simp [Instr.wf, Sel.srcI, Sel.ok] at h
    exact .sels rfl rfl (by simp [h]) (by rintro r ⟨⟩; simp [ofBBody, ofMemB, rx, *])
  case epost =>
    simp [Instr.wf, Sel.dst, Sel.srcI, Sel.ok] at h
    exact .sels rfl rfl (by simp [h]) (by rintro r ⟨⟩; simp [ofBBody, ofPost, four, rx, *])
  case swdereg | swpos | swforce =>
    simp [Instr.wf, Sel.dst, Sel.srcI, Sel.ok] at h
    exact .sels rfl rfl (by simp [h]) (by rintro r ⟨⟩; simp [ofBBody, ofSweep, four, rx, *])
  case bra p pn off =>
    exact .c rfl ⟨by decide, by simpa [Instr.wf] using h, off.isLt⟩ (by simp [ofC])
  case call p pn off =>
    exact .c rfl ⟨by decide, by simpa [Instr.wf] using h, off.isLt⟩ (by simp [ofC])
  case trap n =>
    simp [Instr.wf] at h
    exact .formatA rfl rfl (by simp; omega) (by simp [ofA, ofControl, Nat.mod_eq_of_lt h, Nat.div_eq_of_lt h])
  case mcall =>
    simp [Instr.wf] at h
    exact .sels rfl rfl (by simp [h]) (by rintro r ⟨⟩; simp [ofBBody, ofService, four, *])
  case icfetchSpad | icfetchGate =>
    simp [Instr.wf, Sel.srcI, Sel.ok] at h
    exact .sels rfl rfl (by simp [h]) (by rintro r ⟨⟩; simp [ofBBody, ofService, four, rx, *])
  case nodepost d a =>
    simp [Instr.wf, Sel.dst, Sel.ok] at h
    exact .sels rfl rfl (by simp [h]; omega) (by rintro r ⟨⟩; simp [ofBBody, ofService, rx, *])
  case gcallReg | xlinvDomain =>
    simp [Instr.wf, Sel.srcI, Sel.ok] at h
    exact .sels rfl rfl (by simp [h]) (by rintro r ⟨⟩; simp [ofBBody, ofDomain, rx, *])
  case gret => exact .imm rfl rfl (by decide) (.inr ⟨rfl, rfl⟩) rfl
  case xlinvAll => exact .sels rfl rfl (by decide) (by rintro r ⟨⟩; simp [ofBBody, ofDomain, rx, *])
  case astart | astartStop =>
    simp [Instr.wf, Sel.dst, Sel.srcI, Sel.ok] at h
    exact .sels rfl rfl (by simp [h]) (by rintro r ⟨⟩; simp [ofBBody, ofInference, four, rx, *])
  case vgmv n a b c =>
    simp [Instr.wf, Sel.srcI, Sel.ok] at h
    obtain ⟨⟨⟨⟨hn, ha⟩, hb⟩, hc⟩, -⟩ := h
    exact .sels rfl rfl (by simp [ha, hb, hc]; omega) (by
      rintro r ⟨⟩
      simp [ofBBody, ofInference, four, rx, Nat.mod_eq_of_lt hn, Nat.div_eq_of_lt hn, *])
  case vgrd n d =>
    simp [Instr.wf, Sel.dst, Sel.ok] at h
    exact .sels rfl rfl (by simp [h]; omega) (by
      rintro r ⟨⟩
      simp [ofBBody, ofInference, rx, Nat.mod_eq_of_lt h.1, Nat.div_eq_of_lt h.1, *])
  case movi => exact coded_movi h
  case movs => exact coded_movs h
  case movsWide => exact coded_movsWide h
  case movsw => exact coded_movsw h
  case bfx => exact coded_bfx h
  case bfi => exact coded_bfi h
  case perm => exact coded_perm h
  case icmp => exact coded_icmp h
  case sel => exact coded_sel h
  case plop => exact coded_plop h
  case fcmp => exact coded_fcmp h
  case cvt => exact coded_cvt h
  case cvti => exact coded_cvti h
  case cvtf => exact coded_cvtf h
  case smxmerge => exact coded_smxmerge h
  case maccrd => exact coded_maccrd h
  case maccwr => exact coded_maccwr h
  case mxwait => exact coded_mxwait h
  case ldlk => exact coded_ldlk h
  case stul => exact coded_stul h
  case atoms => exact coded_atoms h
  case ld => exact coded_ld h
  case st => exact coded_st h
  case atom => exact coded_atom h
  case red => exact coded_red h
  case monitor => exact coded_monitor h
  case pin => exact coded_pin h
  case resq => exact coded_resq h
  case resqFetch => exact coded_resqFetch h
  case binit => exact coded_binit h
  case bexpect => exact coded_bexpect h
  case bexpectReg => exact coded_bexpectReg h
  case barrive => exact coded_barrive h
  case bwait => exact coded_bwait h
  case btest => exact coded_btest h
  case eseq => exact coded_eseq h
  case copy => exact coded_copy h
  case swreg => exact coded_swreg h
  case swwait => exact coded_swwait h
  case icfetch => exact coded_icfetch h
  case icfetchDrop => exact coded_icfetchDrop h
  case gcall => exact coded_gcall h
  case xlinvPage => exact coded_xlinvPage h
  case xlinvResidency => exact coded_xlinvResidency h
  case xlprobe => exact coded_xlprobe h
  case apush => exact coded_apush h
  case apushVec => exact coded_apushVec h
  case apushBcld => exact coded_apushBcld h
  case vgwait => exact coded_vgwait h
  case jmpf => exact coded_jmpf h
  all_goals simp [Instr.wf] at h

end Sys2Proof.Instr
end

section
/-! SUPPORT. The lengths of decoded instructions (spec/03 R50), and the statement about decoding and encoding. -/

namespace Sys2Proof

-- One proof at a time: side by side they need more threads than a check's memory holds.
set_option Elab.async false

theorem Instr.len_of_toRaw {i : Instr} {r : Raw} (h : toRaw i = some r) : i.len = r.len := by
  have hl : (match encode i with | some l => l.length | none => 1) = r.len := by
    rw [encode, h]
    exact length_packRaw r
  cases i
  case apprenticeLd => cases h
  all_goals exact hl

/-- The instruction is of n words. -/
def HasLen (n : Nat) (i : Instr) : Prop := i.len = n

/-- Where there is an instruction, it is of n words. -/
def Decodes (n : Nat) (o : Option Instr) : Prop := ∀ i, o = some i → HasLen n i

@[simp] theorem decodes_none (n : Nat) : Decodes n none := fun _ h => nomatch h

@[simp] theorem decodes_some {n : Nat} {i : Instr} : Decodes n (some i) ↔ HasLen n i := by
  simp [Decodes]

@[simp] theorem decodes_bind {α : Type} {n : Nat} {o : Option α} {f : α → Option Instr} :
    Decodes n (o.bind f) ↔ ∀ a, o = some a → Decodes n (f a) := by
  cases o <;> simp

@[simp] theorem decodes_map {α : Type} {n : Nat} {o : Option α} {f : α → Instr} :
    Decodes n (o.map f) ↔ ∀ a, o = some a → HasLen n (f a) := by
  cases o <;> simp

@[simp] theorem decodes_ite {n : Nat} {c : Prop} [Decidable c] {a b : Option Instr} :
    Decodes n (if c then a else b) ↔ (c → Decodes n a) ∧ (¬ c → Decodes n b) := by
  split <;> simp [*]

@[simp] theorem hasLen_ite {n : Nat} {c : Prop} [Decidable c] {a b : Instr} :
    HasLen n (if c then a else b) ↔ (c → HasLen n a) ∧ (¬ c → HasLen n b) := by
  split <;> simp [*]

/-! Instructions of two forms have the length of either. -/

@[simp] theorem hasLen_bfx (ty : IType) (nw : Bool) (d a : Sel) (s : Src) : HasLen 2 (.bfx ty nw d a s) := by
  cases s <;> rfl

@[simp] theorem hasLen_icmp (c : ICond) (ty : IType) (pd : Nat) (a : Sel) (s : Src) : HasLen 2 (.icmp c ty pd a s) := by
  cases s <;> rfl

@[simp] theorem hasLen_sel (ty : IType) (nw : Bool) (p : PredRef) (d a : Sel) (s : Src) : HasLen 2 (.sel ty nw p d a s) := by
  cases s <;> rfl

@[simp] theorem hasLen_fcmp (c : FCond) (ty : FType) (pd : Nat) (a : Sel) (s : Src) : HasLen 2 (.fcmp c ty pd a s) := by
  cases s <;> rfl

@[simp] theorem hasLen_ldlk (w : Width) (sp : Space) (pt : Nat) (d a : Sel) (s : Src) : HasLen 2 (.ldlk w sp pt d a s) := by
  cases s <;> rfl

@[simp] theorem hasLen_stul (w : Width) (sp : Space) (d a : Sel) (s : Src) : HasLen 2 (.stul w sp d a s) := by
  cases s <;> rfl

@[simp] theorem hasLen_lds (o : SpadAcc) : HasLen 2 (.lds o) := by
  obtain ⟨w, ord, scope, d, addr, off⟩ := o
  cases off <;> rfl

@[simp] theorem hasLen_sts (o : SpadAcc) : HasLen 2 (.sts o) := by
  obtain ⟨w, ord, scope, d, addr, off⟩ := o
  cases off <;> rfl

@[simp] theorem hasLen_ldsc (o : SpadAcc) : HasLen 2 (.ldsc o) := by
  obtain ⟨w, ord, scope, d, addr, off⟩ := o
  cases off <;> rfl

@[simp] theorem hasLen_stsc (o : SpadAcc) : HasLen 2 (.stsc o) := by
  obtain ⟨w, ord, scope, d, addr, off⟩ := o
  cases off <;> rfl

@[simp] theorem hasLen_ld (w : Width) (o : Order) (s : Scope) (nw sw : Bool) (addr : MemAddr) (data : Sel) (sr : Option Sel) :
    HasLen 2 (.ld w o s nw sw addr data sr) := by
  cases addr <;> rfl

@[simp] theorem hasLen_st (w : Width) (o : Order) (s : Scope) (addr : MemAddr) (data : Sel) (sr : Option Sel) :
    HasLen 2 (.st w o s addr data sr) := by
  cases addr <;> rfl

@[simp] theorem hasLen_mxwait (c : Option Nat) : HasLen 1 (.mxwait c) := by
  cases c <;> rfl

@[simp] theorem hasLen_vgwait (c : Option Nat) : HasLen 2 (.vgwait c) := by
  cases c <;> rfl

theorem decodes_ofUnary (r : RawA) : Decodes 1 (ofUnary r) := by
  unfold ofUnary
  split <;> simp [mkIntU]
  all_goals repeat' first | intro _ | apply And.intro | rfl

theorem decodes_ofLogic (r : RawA) : Decodes 1 (ofLogic r) := by
  unfold ofLogic
  split <;> simp
  all_goals repeat' first | intro _ | apply And.intro | rfl

theorem decodes_ofTrans (r : RawA) : Decodes 1 (ofTrans r) := by
  unfold ofTrans
  split <;> simp [mkFltU]
  all_goals repeat' first | intro _ | apply And.intro | rfl

theorem decodes_ofControl (r : RawA) : Decodes 1 (ofControl r).2 := by
  unfold ofControl
  split <;> simp
  all_goals repeat' first | intro _ | apply And.intro | rfl

theorem decodes_ofExec (r : RawA) : Decodes 1 (ofExec r).2 := by
  unfold ofExec
  split <;> simp
  all_goals repeat' first | intro _ | apply And.intro | rfl

theorem decodes_ofSlotOp (r : RawA) : Decodes 1 (ofSlotOp r).2 := by
  unfold ofSlotOp
  dsimp only
  split_ifs <;> simp
  all_goals repeat' first | intro _ | apply And.intro | rfl

theorem decodes_ofStream (r : RawA) : Decodes 1 (ofStream r).2 := by
  unfold ofStream
  split_ifs <;> (try split) <;> simp
  all_goals repeat' first | intro _ | apply And.intro | rfl

theorem decodes_ofMemA (r : RawA) : Decodes 1 (ofMemA r).2 := by
  unfold ofMemA
  split_ifs <;> simp
  all_goals repeat' first | intro _ | apply And.intro | rfl

theorem decodes_ofA (r : RawA) : Decodes 1 (ofA r).2 := by
  unfold ofA
  split <;> simp [mkIntU, mkIntA, mkFltU, mkFltA, decodes_ofUnary, decodes_ofLogic, decodes_ofTrans,
    decodes_ofSlotOp, decodes_ofStream, decodes_ofMemA, decodes_ofControl, decodes_ofExec]
  all_goals repeat' first | intro _ | apply And.intro | rfl

theorem decodes_ofIntB (r : RawB) : Decodes 2 (ofIntB r).2 := by
  unfold ofIntB
  split <;> simp
  all_goals repeat' first | intro _ | apply And.intro | rfl

theorem decodes_ofFltB (r : RawB) : Decodes 2 (ofFltB r).2 := by
  unfold ofFltB
  split <;> simp
  all_goals repeat' first | intro _ | apply And.intro | rfl

theorem decodes_ofMemB (r : RawB) : Decodes 2 (ofMemB r).2 := by
  unfold ofMemB
  split <;> simp [ofSpadAcc]
  all_goals repeat' first | (split <;> try simp) | intro _ | apply And.intro | rfl

theorem decodes_ofBarrier (r : RawB) : Decodes 2 (ofBarrier r).2 := by
  unfold ofBarrier
  split <;> simp
  all_goals repeat' first | intro _ | apply And.intro | rfl

theorem decodes_ofPost (r : RawB) : Decodes 2 (ofPost r).2 := by
  unfold ofPost
  split <;> simp
  all_goals repeat' first | intro _ | apply And.intro | rfl

theorem decodes_ofSweep (r : RawB) : Decodes 2 (ofSweep r).2 := by
  unfold ofSweep
  split <;> simp
  all_goals repeat' first | intro _ | apply And.intro | rfl

theorem decodes_ofService (r : RawB) : Decodes 2 (ofService r).2 := by
  unfold ofService
  split <;> simp
  all_goals repeat' first | (split <;> try simp) | intro _ | apply And.intro | rfl

theorem decodes_ofDomain (r : RawB) : Decodes 2 (ofDomain r).2 := by
  unfold ofDomain
  split <;> simp
  all_goals repeat' first | (split <;> try simp) | intro _ | apply And.intro | rfl

theorem decodes_ofInference (r : RawB) : Decodes 2 (ofInference r).2 := by
  unfold ofInference
  split <;> simp
  all_goals repeat' first | (split <;> try simp) | intro _ | apply And.intro | rfl

theorem decodes_ofBBody (r : RawB) : Decodes 2 (ofBBody r).2 := by
  unfold ofBBody
  split_ifs <;> simp [decodes_ofIntB, decodes_ofFltB, decodes_ofMemB, decodes_ofBarrier, decodes_ofPost, decodes_ofSweep,
    decodes_ofService, decodes_ofDomain, decodes_ofInference]

theorem decodes_ofM1Body (r : RawM1) : Decodes 2 (ofM1Body r).2 := by
  unfold ofM1Body
  split <;> simp [ofRecAtom]
  all_goals repeat' first | (split <;> try simp) | intro _ | apply And.intro | rfl

theorem decodes_ofX (r : RawX) : Decodes 2 (ofX r).2 := by
  unfold ofX
  split <;> simp
  all_goals repeat' first | intro _ | apply And.intro | rfl

theorem decodes_ofC (r : RawC) : Decodes 1 (ofC r).2 := by
  unfold ofC
  split <;> simp
  all_goals repeat' first | intro _ | apply And.intro | rfl

theorem decodes_ofM2 (r : RawM2) : Decodes 3 (ofM2 r).2 := by
  unfold ofM2
  by_cases hop : r.op = 0x62 <;> simp [hop] <;> intros <;> rfl

theorem decodes_ofRaw (r : Raw) : Decodes r.len (ofRaw r).2 := by
  cases r with
  | a r => exact decodes_ofA r
  | b r => exact decodes_ofBBody r
  | m1 r => exact decodes_ofM1Body r
  | m2 r => exact decodes_ofM2 r
  | x r => exact decodes_ofX r
  | c r => exact decodes_ofC r

/-- Reading takes as many words as the format has, and no more than there are. -/
theorem readRaw_len {ws : List Nat} {r : Raw} {n : Nat} (h : readRaw ws = .ok (r, n)) : n = r.len ∧ n ≤ ws.length := by
  unfold readRaw at h
  split at h
  · cases h
  · split at h
    · cases h
    · split at h
      · cases h
      · cases h
        simp [Raw.len]
      · cases h
        simp [Raw.len]
      all_goals
        split at h <;> cases h
        simp [Raw.len]

/-- An instruction that decodes is well-formed, and of as many words as were read. -/
theorem decodeWords_ok {ws : List Nat} {i : Instr} {n : Nat} (h : decodeWords ws = .ok (i, n)) :
    i.wf = true ∧ n = i.len ∧ n ≤ ws.length := by
  unfold decodeWords at h
  split at h
  · cases h
  · next r m hread =>
    obtain ⟨hm, hle⟩ := readRaw_len hread
    unfold decodeRaw at h
    split at h
    · cases h
    · next j hj =>
      cases h
      split at hj
      · cases hj
      · split at hj
        · cases hj
        · next hraw =>
          split at hj <;> cases hj
          exact ⟨‹_›, hm.trans (decodes_ofRaw r i hraw).symm, hle⟩

/-- The words of an instruction that has raw fields decode to it, whatever words follow them. -/
theorem Instr.Coded.decode_encode {i : Instr} (h : i.Coded) (hwf : i.wf = true) :
    ∃ ws, encode i = some ws ∧ ws.length = i.len ∧ (∀ w ∈ ws, w < 2 ^ 32) ∧ ∀ rest, decodeWords (ws ++ rest) = .ok (i, ws.length) := by
  obtain ⟨r, hraw, hfits, hread⟩ := h
  refine ⟨packRaw r, by rw [encode, hraw]; rfl, ?_, packRaw_lt hfits, fun rest => ?_⟩
  · rw [length_packRaw, Instr.len_of_toRaw hraw]
  · simp [decodeWords, readRaw_packRaw hfits, decodeRaw, hread, hwf, length_packRaw]

namespace Machine

/-- Settles O57: a well-formed instruction has raw fields that fit, which the words give back; what decodes is well-formed and of the
length of its format. -/
theorem decodeEncodeAgree : Obligations.DecodeEncodeAgree :=
  ⟨fun _ hwf => (Instr.coded_of_wf hwf).decode_encode hwf, fun _ _ _ h => decodeWords_ok h⟩

end Machine
end Sys2Proof
end

section
/-! SUPPORT. Operations that leave memory alone. -/

namespace Sys2Proof.Machine

open Sys2Proof Sys2Proof.Safety

-- One proof at a time: side by side they need more threads than a check's memory holds.
set_option Elab.async false

/-- The state that a result leaves. -/
def Res.state : Res → State
  | .ok s _ => s
  | .jump s _ => s
  | .trap s _ => s
  | .park s _ _ => s
  | .gone s => s
  | .stay s => s

@[simp] theorem Res.state_ok (s : State) (l : List (Nat × Dword)) : (Res.ok s l).state = s := rfl

@[simp] theorem Res.state_jump (s : State) (l : List (Nat × Nat)) : (Res.jump s l).state = s := rfl

@[simp] theorem Res.state_trap (s : State) (q : TrapReq) : (Res.trap s q).state = s := rfl

@[simp] theorem Res.state_park (s : State) (p : Park) (pd : Pend) : (Res.park s p pd).state = s := rfl

@[simp] theorem Res.state_gone (s : State) : (Res.gone s).state = s := rfl

@[simp] theorem Res.state_stay (s : State) : (Res.stay s).state = s := rfl

@[simp] theorem Env.trap_state (e : Env) (cause : Nat) (ls : List Nat) (d : List Word) : (e.trap cause ls d).state = e.s := rfl

theorem overList_mem {α : Type} {f : State → α → State} (h : ∀ s x, (f s x).mem = s.mem) (l : List α) (s : State) :
    (overList l s f).mem = s.mem := by
  induction l generalizing s with
  | nil => rfl
  | cons x l ih => exact (ih (f s x)).trans (h s x)

theorem overList_fst_mem {α β : Type} {f : State × β → α → State × β} (h : ∀ r x, (f r x).1.mem = r.1.mem) (l : List α) (r : State × β) :
    (overList l r f).1.mem = r.1.mem := by
  induction l generalizing r with
  | nil => rfl
  | cons x l ih => exact (ih (f r x)).trans (h r x)

@[simp] theorem State.l1Drop_mem (s : State) (t : Nat) :
    (State.l1Drop s t).mem = s.mem := rfl

@[simp] theorem State.gateReturn_mem (s : State) (t : Nat) (c : Nat) (forced : Option Nat) :
    (State.gateReturn s t c forced).mem = s.mem := rfl

@[simp] theorem State.setRace_mem (s : State) (h : RHome) (r : RaceHome) :
    (State.setRace s h r).mem = s.mem := by
  unfold State.setRace
  split <;> simp

@[simp] theorem State.evictEntries_mem (s : State) (k : Nat) (line : Nat) :
    (State.evictEntries s k line).mem = s.mem := rfl

@[simp] theorem State.dropRaces_mem (s : State) (lines : List Nat) :
    (State.dropRaces s lines).mem = s.mem := by
  unfold State.dropRaces
  exact overList_mem (fun _ _ => by dsimp only; split <;> simp) _ _

@[simp] theorem State.invalidateRows_mem (s : State) (g : Nat) :
    (State.invalidateRows s g).mem = s.mem := by
  unfold State.invalidateRows
  dsimp only
  split <;> simp

@[simp] theorem State.restoreRows_mem (s : State) (g : Nat) (banks : List Nat) :
    (State.restoreRows s g banks).mem = s.mem := rfl

@[simp] theorem State.forceExit_mem (s : State) (g : Nat) (reason : Nat) (lost : Bool) :
    (State.forceExit s g reason lost).mem = s.mem := by
  simp [State.forceExit]

@[simp] theorem State.endOwnership_mem (s : State) (t : Nat) (crew : Option Nat) (reason : Nat) :
    (State.endOwnership s t crew reason).mem = s.mem := by
  unfold State.endOwnership
  exact overList_mem (fun _ _ => by simp) _ _

@[simp] theorem State.freeAppr_mem (s : State) (t : Nat) (c : Nat) :
    (State.freeAppr s t c).mem = s.mem := by
  unfold State.freeAppr
  dsimp only
  repeat' split
  all_goals simp

@[simp] theorem State.terminate_mem (s : State) (t : Nat) (cause : Nat) (fpc : Nat) (dom : Nat) (fva : Nat) :
    (State.terminate s t cause fpc dom fva).mem = s.mem := by
  unfold State.terminate
  simp [overList_mem]

@[simp] theorem State.descLoad_mem (s : State) (core : Nat) (d : Nat) :
    (State.descLoad s core d).mem = s.mem := by
  unfold State.descLoad
  split <;> simp

@[simp] theorem State.descNeed_mem (s : State) (core : Nat) (d : Nat) :
    (State.descNeed s core d).mem = s.mem := by
  unfold State.descNeed
  split <;> simp

@[simp] theorem State.logMc_mem (s : State) (cause : Nat) (unit : Nat) (pa : Nat) :
    (State.logMc s cause unit pa).mem = s.mem := rfl

@[simp] theorem State.tvtLog_mem (s : State) (core : Nat) (d : Nat) (cause : Nat) :
    (State.tvtLog s core d cause).mem = s.mem := by
  unfold State.tvtLog
  split <;> simp

@[simp] theorem State.nextCrew_mem (t id n : Nat) (s : State) : (State.nextCrew t id n s).mem = s.mem := by
  induction n generalizing id s with
  | zero => rfl
  | succ n ih =>
    unfold State.nextCrew
    dsimp only
    repeat' split
    all_goals simp [overList_mem, ih]

@[simp] theorem State.startTrap_mem (s : State) (t : Nat) (hset : Nat) (issue : BitVec 32) (resume : List Resume) (q : TrapReq) :
    (State.startTrap s t hset issue resume q).mem = s.mem := by
  simp [State.startTrap]

@[simp] theorem State.takeTrap_mem (s : State) (t : Nat) (gid : Nat) (q : TrapReq) :
    (State.takeTrap s t gid q).mem = s.mem := by
  unfold State.takeTrap
  dsimp only
  split <;> simp

@[simp] theorem State.fallTrap_mem (s : State) (t : Nat) (gid : Nat) (last : Nat) :
    (State.fallTrap s t gid last).mem = s.mem := by
  unfold State.fallTrap
  split <;> simp

@[simp] theorem State.endClause_mem (s : State) (t : Nat) (gid : Nat) (r : ClauseRun) :
    (State.endClause s t gid r).mem = s.mem := by
  unfold State.endClause
  dsimp only
  split <;> simp

@[simp] theorem State.advance_mem (s : State) (t : Nat) (gid : Nat) (i : Instr) (r : ClauseRun) (vals : List (Nat × Dword)) :
    (State.advance s t gid i r vals).mem = s.mem := by
  unfold State.advance
  dsimp only
  repeat' split
  all_goals simp

@[simp] theorem State.takePops_mem (s : State) (e : Env) (i : Instr) :
    (State.takePops s e i).mem = s.mem := by
  unfold State.takePops
  dsimp only
  repeat' split
  all_goals simp

@[simp] theorem State.countLocks_mem (s : State) (e : Env) :
    (State.countLocks s e).mem = s.mem := rfl

@[simp] theorem State.transfer_mem (s : State) (t : Nat) (gid : Nat) (r : ClauseRun) (goto : List (Nat × Nat)) :
    (State.transfer s t gid r goto).mem = s.mem := by
  unfold State.transfer
  dsimp only
  split
  · rfl
  · split
    · simp
    · simp
    · exact (overList_mem (fun _ _ => by split <;> simp) _ _).trans rfl

@[simp] theorem State.settleRes_mem (e : Env) (i : Instr) (r : Res) : (State.settleRes e i r).mem = r.state.mem := by
  unfold State.settleRes
  dsimp only
  repeat' split
  all_goals simp [Res.state]

@[simp] theorem Env.s_mem (self : Env) :
    (Env.s self).mem = self.s.mem := rfl

@[simp] theorem State.l1Fill_mem (s : State) (t : Nat) (line : Nat) :
    (State.l1Fill s t line).mem = s.mem := by
  unfold State.l1Fill
  dsimp only
  split <;> simp

@[simp] theorem State.l1Read_mem (s : State) (t a n : Nat) : (s.l1Read t a n).1.mem = s.mem := overList_mem (fun _ _ => by simp) _ _

@[simp] theorem State.hostHold_mem (s : State) (a : Nat) (n : Nat) :
    (State.hostHold s a n).mem = s.mem := by
  unfold State.hostHold
  split <;> simp

@[simp] theorem State.l1Forget_mem (s : State) (t : Nat) (a : Nat) (n : Nat) :
    (State.l1Forget s t a n).mem = s.mem := by
  unfold State.l1Forget
  split <;> simp

@[simp] theorem State.laneBytes_mem (s : State) (t : Nat) (l1 : Bool) (spans : List Span) : (s.laneBytes t l1 spans).1.mem = s.mem := by
  unfold State.laneBytes
  refine overList_fst_mem (fun _ _ => ?_) _ _
  repeat' split
  all_goals simp

@[simp] theorem State.loadLane_mem (s : State) (t : Nat) (x : LoadLane) : (s.loadLane t x).1.mem = s.mem := by
  unfold State.loadLane
  split
  · simp
  · exact overList_fst_mem (fun _ _ => by simp) _ _

@[simp] theorem State.performLoad_mem (s : State) (t : Nat) (i : FlightItem) (w : Width) (d : Option Sel) (lanes : List LoadLane) :
    (State.performLoad s t i w d lanes).mem = s.mem := by
  unfold State.performLoad
  exact overList_mem (fun _ _ => by dsimp only; split <;> simp) _ _

@[simp] theorem State.regStore_mem (s : State) (who : RegWriter) (off : Nat) (v : Dword) :
    (State.regStore s who off v).mem = s.mem := by
  unfold State.regStore
  dsimp only
  repeat' split
  all_goals simp

@[simp] theorem State.mcLater_mem (s : State) (t : Nat) (c : Nat) (m : Nat × Nat × Nat) :
    (State.mcLater s t c m).mem = s.mem := rfl

@[simp] theorem State.arrive_mem (s : State) (t : Nat) (k : Nat) (a : Nat) (b : Nat) :
    (State.arrive s t k a b).mem = s.mem := by
  unfold State.arrive
  dsimp only
  repeat' split
  all_goals simp

@[simp] theorem State.passItems_mem (s : State) (l : List (Nat × Nat)) (sc : Scope) (mates : Nat → List Nat) :
    (State.passItems s l sc mates).mem = s.mem := by
  unfold State.passItems
  exact overList_mem (fun _ _ => by simp) _ _

@[simp] theorem State.passOver_mem (s : State) (t : Nat) (i : FlightItem) :
    (State.passOver s t i).mem = s.mem := by
  unfold State.passOver
  split <;> simp

@[simp] theorem State.descTake_mem (s : State) (core : Nat) (d : Nat) (xs : List Span) :
    (State.descTake s core d xs).mem = s.mem := by
  unfold State.descTake
  split <;> simp

theorem State.mcTrap_mem {s : State} {fpc : Nat} {xs : List (Nat × List Span)} {q : State × TrapReq} (h : s.mcTrap fpc xs = some q) : q.1.mem = s.mem := by
  unfold State.mcTrap at h
  dsimp only at h
  split at h <;> cases h
  simp

@[simp] theorem State.walkKeep_mem (s : State) (core : Nat) (d : Nat) (r : Walk × List TlbEntry) :
    (State.walkKeep s core d r).mem = s.mem := by
  unfold State.walkKeep
  split <;> simp

@[simp] theorem State.keepCaches_mem (s : State) (core : Nat) (as : List LaneAcc) :
    (State.keepCaches s core as).mem = s.mem := by
  unfold State.keepCaches
  exact overList_mem (fun _ _ => by simp) _ _

theorem State.raceRecordOne_mem {s : State} {t : Nat} {wr : Bool} {a : RaceAcc} {q : State × Bool} (h : s.raceRecordOne t wr a = some q) : q.1.mem = s.mem := by
  unfold State.raceRecordOne at h
  dsimp only at h
  repeat' split at h
  all_goals cases h
  all_goals simp

@[simp] theorem State.uncheck_mem (s : State) (t : Nat) (a : RaceAcc) :
    (State.uncheck s t a).mem = s.mem := by
  simp [State.uncheck]

@[simp] theorem State.raceKeep_mem (s : State) (t : Nat) (wr pass : Bool) (l : List RaceAcc) : (s.raceKeep t wr pass l).1.mem = s.mem := by
  induction l generalizing s pass with
  | nil => rfl
  | cons a l ih =>
    unfold State.raceKeep
    split
    · next hr =>
      rw [ih, ← State.raceRecordOne_mem hr]
      split <;> simp
    · split <;> simp [ih]

@[simp] theorem State.launch_mem (s : State) (t : Nat) (ls : List Nat) (path : Option Path) (ord : Order) (scope : Scope) (dev : Bool) (checked : Bool) (op : FlightOp) (stat : Option (Sel × List (Nat × Nat))) (used : Used) (again : Option Reissue) :
    (State.launch s t ls path ord scope dev checked op stat used again).mem = s.mem := rfl

@[simp] theorem State.winBits_mem (s : State) (bs : List (Nat × Nat)) :
    (State.winBits s bs).mem = s.mem := by
  unfold State.winBits
  exact overList_mem (fun _ _ => by simp) _ _

@[simp] theorem State.closeE_mem (s : State) (e : Env) :
    (State.closeE s e).mem = s.mem := rfl

@[simp] theorem State.endE_mem (s : State) (e : Env) :
    (State.endE s e).mem = s.mem := rfl

@[simp] theorem State.acquired_mem (s : State) (t : Nat) (ord : Order) (scope : Scope) :
    (State.acquired s t ord scope).mem = s.mem := by
  unfold State.acquired
  split <;> simp

@[simp] theorem State.ordered_mem (s : State) (e : Env) (ord : Order) :
    (State.ordered s e ord).mem = s.mem := by
  unfold State.ordered
  split <;> simp

@[simp] theorem State.enterMode_mem (s : State) (g : Nat) (who : Nat × Nat) (mask : Nat) (job : Option BankJob) :
    (State.enterMode s g who mask job).mem = s.mem := rfl

@[simp] theorem State.exitMode_mem (s : State) (g : Nat) :
    (State.exitMode s g).mem = s.mem := by
  simp [State.exitMode]

@[simp] theorem State.actRun_mem (s : State) (g : Nat) (row : Nat) :
    (State.actRun s g row).mem = s.mem := rfl

@[simp] theorem State.preRun_mem (s : State) (g : Nat) :
    (State.preRun s g).mem = s.mem := rfl

@[simp] theorem State.macrRun_mem (s : State) (g : Nat) (a : MacrArgs) (banks : List Nat) :
    (State.macrRun s g a banks).mem = s.mem := by
  unfold State.macrRun
  exact overList_mem (fun _ _ => by simp) _ _

@[simp] theorem State.afterAccess_mem (s : State) (e : Env) (o : Order) (tys : List Nat) :
    (State.afterAccess s e o tys).mem = s.mem := by
  unfold State.afterAccess
  dsimp only
  repeat' split
  all_goals simp

@[simp] theorem State.recKeep_mem (s : State) (core : Nat) (r : Option RecEntry) :
    (State.recKeep s core r).mem = s.mem := by
  unfold State.recKeep
  split <;> simp

@[simp] theorem State.beginClause_mem (s : State) (t : Nat) (g : Gang) (h : Nat) (ws : List Nat) :
    (State.beginClause s t g h ws).mem = s.mem := by
  unfold State.beginClause
  dsimp only
  split <;> simp

@[simp] theorem State.startClause_mem (s : State) (t : Nat) (g : Gang) :
    (State.startClause s t g).mem = s.mem := by
  unfold State.startClause
  dsimp only
  repeat' split
  all_goals simp

@[simp] theorem State.closeWindow_mem (s : State) (t : Nat) (h : Nat) (p : Nat) :
    (State.closeWindow s t h p).mem = s.mem := by
  unfold State.closeWindow
  dsimp only
  repeat' split
  all_goals simp

@[simp] theorem State.dropMacros_mem (s : State) (t : Nat) :
    (State.dropMacros s t).mem = s.mem := rfl

@[simp] theorem State.unmapSeg_mem (s : State) (t : Nat) (seg : Nat) :
    (State.unmapSeg s t seg).mem = s.mem := by
  unfold State.unmapSeg
  dsimp only
  split <;> simp

@[simp] theorem State.reclaim_mem (s : State) (t : Nat) :
    (State.reclaim s t).mem = s.mem := by
  unfold State.reclaim
  dsimp only
  rw [State.setWg_mem, overList_mem (fun _ _ => by simp)]
  simp [overList_mem]

@[simp] theorem State.updNode_mem (s : State) (id : Nat) (f : Node → Node) :
    (State.updNode s id f).mem = s.mem := rfl

@[simp] theorem State.settleForced_mem (s : State) (t : Nat) (c : Nat) :
    (State.settleForced s t c).mem = s.mem := by
  unfold State.settleForced
  dsimp only
  repeat' split
  all_goals simp [overList_mem]

theorem State.matStart_mem {s r : State} {core quad q : Nat} (h : s.matStart core quad q = some r) : r.mem = s.mem := by
  unfold State.matStart at h
  dsimp only at h
  repeat' split at h
  all_goals cases h
  simp

@[simp] theorem State.slotCheck_mem (s : State) (t : Nat) (ls : List Nat) :
    (State.slotCheck s t ls).mem = s.mem := by
  unfold State.slotCheck
  exact overList_mem (fun _ _ => by simp) _ _

@[simp] theorem State.settleCrews_mem (s : State) (t : Nat) :
    (State.settleCrews s t).mem = s.mem := by
  unfold State.settleCrews
  exact overList_mem (fun _ _ => by simp) _ _

theorem State.matComplete_mem {s r : State} {t h q : Nat} (hr : s.matComplete t h q = some r) : r.mem = s.mem := by
  unfold State.matComplete at hr
  split at hr
  · split at hr
    · obtain rfl := Option.some.inj hr
      rw [State.settleCrews_mem]
      split
      · rw [State.updWg_mem, State.slotCheck_mem]
      · rfl
    · cases hr
  · cases hr

@[simp] theorem State.tookTurn_mem (s : State) (w : Workgroup) (g : Gang) :
    (State.tookTurn s w g).mem = s.mem := by
  unfold State.tookTurn
  split <;> simp

@[simp] theorem State.passWide_mem (s : State) (t : Nat) :
    (State.passWide s t).mem = s.mem := by
  simp [State.passWide]

@[simp] theorem State.finishItems_mem (s : State) (core : Nat) (p : FlightItem → Bool) :
    (State.finishItems s core p).mem = s.mem := rfl

@[simp] theorem State.endFetch_mem (s : State) (core : Nat) (k : Nat) :
    (State.endFetch s core k).mem = s.mem := by
  unfold State.endFetch
  split <;> simp

@[simp] theorem State.mapSeg_mem (s : State) (t : Nat) (seg : Nat) (k : Nat) :
    (State.mapSeg s t seg k).mem = s.mem := rfl

@[simp] theorem State.restoreSegs_mem (s : State) (t : Nat) (core : Nat) (slots : List Nat) :
    (State.restoreSegs s t core slots).mem = s.mem := by
  unfold State.restoreSegs
  exact overList_mem (fun _ _ => by dsimp only; split <;> simp) _ _

@[simp] theorem State.loadMacros_mem (s : State) (t : Nat) (core : Nat) (node : Nat) (ms : List (List (Word × Word))) :
    (State.loadMacros s t core node ms).mem = s.mem := by
  unfold State.loadMacros
  dsimp only
  split <;> simp

@[simp] theorem State.loadRecords_mem (s : State) (core : Nat) (id : Nat) (d : NodeDesc) :
    (State.loadRecords s core id d).mem = s.mem := rfl

@[simp] theorem State.bindAppr_mem (s : State) (t : Nat) (c : Nat) (u : Nat) (start : Nat) (w0 : Word) (pops : SMap Nat) (discard : SMap Nat) :
    (State.bindAppr s t c u start w0 pops discard).mem = s.mem := rfl

@[simp] theorem State.reissue_mem (s : State) (t : Nat) (i : FlightItem) :
    (State.reissue s t i).mem = s.mem := by
  unfold State.reissue
  split <;> simp

@[simp] theorem State.reissueAll_mem (s : State) (t : Nat) :
    (State.reissueAll s t).mem = s.mem := by
  unfold State.reissueAll
  exact overList_mem (fun _ _ => by simp) _ _

@[simp] theorem State.restoreOne_mem (s : State) (t : Nat) (core : Nat) (r : Room) :
    (State.restoreOne s t core r).mem = s.mem := by
  unfold State.restoreOne
  dsimp only
  rw [overList_mem (fun _ _ => by simp), State.reissueAll_mem, overList_mem (fun _ _ => by split <;> simp)]
  repeat' split
  all_goals simp

@[simp] theorem State.serve_mem (s : State) (prio : Nat) (dom : Nat) :
    (State.serve s prio dom).mem = s.mem := rfl

@[simp] theorem State.mapLanded_mem (s : State) (t : Nat) (d : NodeDesc) :
    (State.mapLanded s t d).mem = s.mem := by
  unfold State.mapLanded
  exact overList_mem (fun _ _ => by split <;> simp) _ _

@[simp] theorem State.beginFetch_mem (s : State) (core : Nat) (k : Nat) (dom : Nat) (va : Nat) (spad : Bool) (source : List Span) :
    (State.beginFetch s core k dom va spad source).mem = s.mem := by
  simp [State.beginFetch]

@[simp] theorem State.mapEntry_mem (s : State) (t : Nat) (slot : Nat) (d : NodeDesc) (src : List Span) :
    (State.mapEntry s t slot d src).mem = s.mem := by
  unfold State.mapEntry
  dsimp only
  repeat' split
  all_goals simp

@[simp] theorem State.updQueue_mem (s : State) (hdr : Nat) (f : Queue → Queue) :
    (State.updQueue s hdr f).mem = s.mem := rfl

@[simp] theorem State.updStream_mem (s : State) (t : Nat) (c : Nat) (n : Nat) (f : Stream → Stream) :
    (State.updStream s t c n f).mem = s.mem := rfl

@[simp] theorem State.signal_mem (s : State) (p : Packet) :
    (State.signal s p).mem = s.mem := by
  unfold State.signal
  dsimp only
  split
  · rfl
  · split
    · repeat' split
      all_goals simp
    · split
      · exact overList_mem (fun _ _ => by split <;> simp) _ _
      · simp

@[simp] theorem State.mergeSummary_mem (s : State) (p : Packet) :
    (State.mergeSummary s p).mem = s.mem := by
  unfold State.mergeSummary
  split <;> simp

@[simp] theorem State.updPacket_mem (s : State) (hdr : Nat) (seq : Nat) (f : Packet → Packet) :
    (State.updPacket s hdr seq f).mem = s.mem := rfl

@[simp] theorem State.endPacket_mem (s : State) (hdr : Nat) (seq : Nat) (status : Nat) :
    (State.endPacket s hdr seq status).mem = s.mem := rfl

@[simp] theorem State.asCrew_mem (s : State) (t : Nat) (c : Nat) :
    (State.asCrew s t c).mem = s.mem := rfl

@[simp] theorem State.updAppr_mem (s : State) (core : Nat) (u : Nat) (f : Apprentice → Apprentice) :
    (State.updAppr s core u f).mem = s.mem := rfl

@[simp] theorem State.capturePacket_mem (s : State) (g : Nat) (row : Nat) (q : Queue) (p : Packet) :
    (State.capturePacket s g row q p).mem = s.mem := by
  unfold State.capturePacket
  dsimp only
  split <;> simp

@[simp] theorem State.captureRow_mem (s : State) (g : Nat) (row : Nat) :
    (State.captureRow s g row).mem = s.mem := by
  unfold State.captureRow
  exact overList_mem (fun _ _ => by simp) _ _

@[simp] theorem State.overGangs_mem (s : State) (f : Gang → Gang) :
    (State.overGangs s f).mem = s.mem := rfl

@[simp] theorem State.logCorrected_mem (s : State) (unit : Nat) (pa : Nat) :
    (State.logCorrected s unit pa).mem = s.mem := rfl

@[simp] theorem State.heatStop_mem (s : State) (t : Nat) :
    (State.heatStop s t).mem = s.mem := by
  simp [State.heatStop]

@[simp] theorem State.boot_mem (s : State) (f : Firmware) :
    (State.boot s f).mem = s.mem := by
  unfold State.boot
  split <;> simp

@[simp] theorem State.putAll_mem (s : State) (e : Env) (d : Sel) (v : Nat) :
    (State.putAll s e d v).mem = s.mem := rfl

@[simp] theorem State.recUse_mem (s : State) (w : Workgroup) (c : Nat) (i : Nat) :
    (State.recUse s w c i).mem = s.mem := by
  unfold State.recUse
  split <;> simp

@[simp] theorem State.cacheRec_mem (s : State) (core : Nat) (r : RecEntry) (change : List Word → List Word) :
    (State.cacheRec s core r change).mem = s.mem := rfl

@[simp] theorem Env.countPost_mem (e : Env) (s : State) :
    (Env.countPost e s).mem = s.mem := by
  unfold Env.countPost
  split <;> simp

@[simp] theorem Env.publishAt_mem (e : Env) (s : State) (low : Nat) (pa : Nat) (n : Nat) (ws : List Nat) (used : List TlbEntry) :
    (Env.publishAt e s low pa n ws used).mem = s.mem := by
  unfold Env.publishAt
  split <;> simp

@[simp] theorem State.freeEntry_mem (s : State) (g : Nat) (i : Nat) :
    (State.freeEntry s g i).mem = s.mem := rfl

@[simp] theorem State.apprEnd_mem (s : State) (core : Nat) (u : Nat) (cause : Nat) :
    (State.apprEnd s core u cause).mem = s.mem := rfl

@[simp] theorem State.abortHandler_mem (s : State) (t : Nat) (ti : TrapIssue) :
    (State.abortHandler s t ti).mem = s.mem := by
  unfold State.abortHandler
  dsimp only
  repeat' split
  all_goals simp

@[simp] theorem State.endHandler_mem (s : State) (t : Nat) (ti : TrapIssue) :
    (State.endHandler s t ti).mem = s.mem := by
  unfold State.endHandler
  split <;> simp

@[simp] theorem Env.splitBy_mem (e : Env) (key : Nat → Option Nat) :
    (Env.splitBy e key).mem = e.s.mem := rfl

@[simp] theorem State.calleeTables_mem (s : State) (core : Nat) (d : Nat) :
    (State.calleeTables s core d).mem = s.mem := by
  unfold State.calleeTables
  split <;> simp

@[simp] theorem State.crewStall_mem (s : State) (t : Nat) :
    (State.crewStall s t).mem = s.mem := by
  unfold State.crewStall
  dsimp only
  repeat' split
  all_goals simp [overList_mem]

@[simp] theorem State.endEmptyHandlers_mem (s : State) (t : Nat) :
    (State.endEmptyHandlers s t).mem = s.mem := by
  unfold State.endEmptyHandlers
  exact overList_mem (fun _ _ => by repeat' split
                                    all_goals simp) _ _

@[simp] theorem State.passOthers_mem (s : State) (t : Nat) (gs : List Gathered) :
    (State.passOthers s t gs).mem = s.mem := by
  unfold State.passOthers
  exact overList_mem (fun _ _ => by simp) _ _

@[simp] theorem State.freeDead_mem (s : State) (dead : Nat → Bool) :
    (State.freeDead s dead).mem = s.mem := by
  unfold State.freeDead
  exact overList_mem (fun _ _ => by simp) _ _

@[simp] theorem State.push_mem (s : State) (core : Nat) (u : Nat) (n : Nat) (x : ApprEntry) :
    (State.push s core u n x).mem = s.mem := rfl

@[simp] theorem State.resumeTraps_mem (s : State) (t : Nat) :
    (State.resumeTraps s t).mem = s.mem := by
  unfold State.resumeTraps
  split <;> simp [overList_mem]

end Sys2Proof.Machine
end

section
/-! SUPPORT. Operations that write memory keep its canonical form: writes at home, items in flight, accesses and their waits. -/

namespace Sys2Proof.Machine

open Sys2Proof Sys2Proof.Safety

-- One proof at a time: side by side they need more threads than a check's memory holds.
set_option Elab.async false

/-! ### Folds -/

theorem overList_wf {α : Type} {f : State → α → State} (hf : ∀ s x, Memory.wf s.mem = true → Memory.wf (f s x).mem = true)
    (l : List α) {s : State} (h : Memory.wf s.mem = true) : Memory.wf (overList l s f).mem = true := by
  induction l generalizing s with
  | nil => exact h
  | cons x l ih => exact ih (hf s x h)

theorem overList_fst_wf {α β : Type} {f : State × β → α → State × β}
    (hf : ∀ r x, Memory.wf r.1.mem = true → Memory.wf (f r x).1.mem = true) (l : List α) {r : State × β}
    (h : Memory.wf r.1.mem = true) : Memory.wf (overList l r f).1.mem = true := by
  induction l generalizing r with
  | nil => exact h
  | cons x l ih => exact ih (hf r x h)

theorem wf_of_fst_eq {α : Type} {p : State × α} {s : State} {a : α} (heq : p = (s, a)) (h : Memory.wf p.1.mem = true) :
    Memory.wf s.mem = true := by
  subst heq
  exact h

/-! ### Writes at home -/

@[simp] theorem State.physWrite_wf {s : State} (core : Option Nat) (a : Nat) (bs : List Byte) (h : Memory.wf s.mem = true) :
    Memory.wf (s.physWrite core a bs).mem = true := by
  unfold State.physWrite
  split
  · exact h
  · exact Memory.wf_write _ _ _ h

@[simp] theorem State.homeStore_wf {s : State} (t c a : Nat) (bs : List Byte) (h : Memory.wf s.mem = true) :
    Memory.wf (s.homeStore t c a bs).mem = true := by
  unfold State.homeStore
  dsimp only
  split
  · simp [h]
  · split <;> simp [h]
  · split <;> simp [h]

@[simp] theorem State.putSpans_wf {s : State} (l : List Span) (bs : List Byte) (h : Memory.wf s.mem = true) :
    Memory.wf (s.putSpans l bs).mem = true :=
  overList_fst_wf (fun _ _ h => by split <;> simp [h]) _ h

@[simp] theorem State.imagePut_wf {s : State} (t o : Nat) (bs : List Byte) (h : Memory.wf s.mem = true) :
    Memory.wf (s.imagePut t o bs).mem = true := State.putSpans_wf _ _ h

@[simp] theorem State.wrLoc_wf {s : State} (core : Option Nat) (x : Loc) (bs : List Byte) (h : Memory.wf s.mem = true) :
    Memory.wf (s.wrLoc core x bs).mem = true := by
  unfold State.wrLoc
  split <;> simp [h]

@[simp] theorem State.locStore_wf {s : State} (t c : Nat) (x : Loc) (bs : List Byte) (h : Memory.wf s.mem = true) :
    Memory.wf (s.locStore t c x bs).mem = true := by
  unfold State.locStore
  split
  · simp [h]
  · split <;> simp [h]

@[simp] theorem State.zeroPhys_wf {s : State} (a n : Nat) (h : Memory.wf s.mem = true) : Memory.wf (s.zeroPhys a n).mem = true :=
  SMap.wf_filter _ _ h

/-! ### Items in flight -/

@[simp] theorem State.atomLane_wf {s : State} (t c : Nat) (op : AtomOp) (w : Width) (x : AtomLane) (h : Memory.wf s.mem = true) :
    Memory.wf (s.atomLane t c op w x).1.mem = true := by
  simp [State.atomLane, h]

@[simp] theorem State.performOp_wf {s : State} (t c : Nat) (i : FlightItem) (h : Memory.wf s.mem = true) :
    Memory.wf (s.performOp t c i).mem = true := by
  unfold State.performOp
  split
  · simp [h]
  · exact overList_wf (fun _ _ h => overList_wf (fun _ _ h => by simp [h]) _ h) _ h
  · exact overList_wf (fun _ _ h => by dsimp only; split <;> simp [h]) _ h
  · simp [h]
  · exact overList_wf (fun _ _ h => by dsimp only; split <;> simp [h]) _ h
  · exact overList_wf (fun _ _ h => by simp [h]) _ h
  · simp [h]
  all_goals exact h

@[simp] theorem State.performHere_wf {s : State} (t c : Nat) (i : FlightItem) (h : Memory.wf s.mem = true) :
    Memory.wf (s.performHere t c i).mem = true := by
  unfold State.performHere
  dsimp only
  split <;> simp [h]

@[simp] theorem State.sendHome_wf {s : State} (l : List (Nat × Nat × FlightItem)) (h : Memory.wf s.mem = true) :
    Memory.wf (s.sendHome l).mem = true :=
  overList_wf (fun _ _ h => by split <;> simp [h]) _ h

@[simp] theorem State.perform_wf {s : State} (t c : Nat) (i : FlightItem) (h : Memory.wf s.mem = true) :
    Memory.wf (s.perform t c i).mem = true := by
  simp [State.perform, h]

@[simp] theorem State.settleFor_wf {s : State} (t : Nat) (x : FlightItem) (h : Memory.wf s.mem = true) :
    Memory.wf (s.settleFor t x).1.mem = true := by
  unfold State.settleFor
  dsimp only
  have hr := fun stays : FlightItem → Bool => overList_fst_wf (r := (s, (none : Option (Nat × Nat))))
    (f := fun acc j => match acc.2 with
      | some p => (acc.1, some p)
      | none => if acc.1.mayPerform t j.2 then (acc.1.perform t j.1 j.2, none) else (acc.1, some (j.1, j.2.id)))
    (fun r x hr => by
      split
      · exact hr
      · split
        · exact State.perform_wf _ _ _ hr
        · exact hr) ((s.wg t).needOf x stays) h
  split
  · exact hr _
  · rw [State.passOver_mem]
    exact State.sendHome_wf _ (hr _)

@[simp] theorem State.walkSettle_wf {s : State} (t : Nat) (ls : List Nat) (reads : State → Nat → List Span) (n : Nat)
    (h : Memory.wf s.mem = true) : Memory.wf (s.walkSettle t ls reads n).1.mem = true := by
  induction n generalizing s with
  | zero => exact h
  | succ n ih =>
    unfold State.walkSettle
    split
    · exact h
    · dsimp only
      split
      · exact h
      · split
        · next heq => exact wf_of_fst_eq heq (State.settleFor_wf _ _ h)
        · next heq => exact ih (wf_of_fst_eq heq (State.settleFor_wf _ _ h))

@[simp] theorem State.translated_wf {s : State} (t : Nat) (ls : List Nat) (reads : State → Nat → List Span)
    (h : Memory.wf s.mem = true) : Memory.wf (s.translated t ls reads).1.mem = true := by
  unfold State.translated
  split
  · next heq => exact wf_of_fst_eq heq (State.walkSettle_wf _ _ _ _ h)
  · next heq =>
    have hw := wf_of_fst_eq heq (State.walkSettle_wf _ _ _ _ h)
    dsimp only
    split
    · exact hw
    · exact overList_wf (fun _ _ h => by simp [h]) _ hw

/-! ### Requests -/

@[simp] theorem State.publishDue_wf {s : State} (h : Memory.wf s.mem = true) : Memory.wf s.publishDue.mem = true :=
  overList_wf (fun _ _ h => by
    split
    · exact State.physWrite_wf _ _ _ h
    · exact h) _ h

@[simp] theorem State.request_wf {s : State} (core d i t va pa e : Nat) (h : Memory.wf s.mem = true) :
    Memory.wf (s.request core d i t va pa e).mem = true := by
  unfold State.request
  split
  · exact h
  · exact State.publishDue_wf (State.physWrite_wf _ _ _ (State.physWrite_wf _ _ _ (State.physWrite_wf _ _ _ h)))

@[simp] theorem State.requests_wf {s : State} (core : Nat) (as : List LaneAcc) (h : Memory.wf s.mem = true) :
    Memory.wf (s.requests core as).mem = true :=
  overList_wf (fun _ _ h => by split <;> simp [h]) _ h

/-! ### Accesses -/

/-- The state that an access leaves. -/
def AccOut.state : AccOut → State
  | .trap s _ => s
  | .park s _ _ => s
  | .ok s _ => s

@[simp] theorem AccOut.state_trap (s : State) (q : TrapReq) : (AccOut.trap s q).state = s := rfl

@[simp] theorem AccOut.state_park (s : State) (p : Park) (pd : Pend) : (AccOut.park s p pd).state = s := rfl

@[simp] theorem AccOut.state_ok (s : State) (l : List LaneAcc) : (AccOut.ok s l).state = s := rfl

@[simp] theorem State.access_wf {s : State} (t fpc : Nat) (pend : Pend) (sp : AccSpec) (stat plain : Bool) (reqs : List LaneReq)
    (pre : List LaneFault) (h : Memory.wf s.mem = true) : Memory.wf (s.access t fpc pend sp stat plain reqs pre).state.mem = true := by
  unfold State.access
  split
  · next heq => exact wf_of_fst_eq heq (State.translated_wf _ _ _ h)
  · next s1 heq =>
    have ht := wf_of_fst_eq heq (State.translated_wf _ _ _ h)
    dsimp only
    split
    · exact ht
    · split
      · next hq =>
        simp only [AccOut.state, State.mcTrap_mem hq]
        exact ht
      · split
        · exact ht
        · exact ht
        · split
          · simp [ht]
          · split <;> next heq => exact wf_of_fst_eq heq (by simp [ht])

theorem State.wf_of_access_trap {s s1 : State} {t fpc : Nat} {pend : Pend} {sp : AccSpec} {stat plain : Bool} {reqs : List LaneReq}
    {pre : List LaneFault} {q : TrapReq} (heq : s.access t fpc pend sp stat plain reqs pre = .trap s1 q) (h : Memory.wf s.mem = true) :
    Memory.wf s1.mem = true := by
  simpa [heq] using State.access_wf t fpc pend sp stat plain reqs pre h

theorem State.wf_of_access_park {s s1 : State} {t fpc : Nat} {pend pd : Pend} {sp : AccSpec} {stat plain : Bool} {reqs : List LaneReq}
    {pre : List LaneFault} {p : Park} (heq : s.access t fpc pend sp stat plain reqs pre = .park s1 p pd) (h : Memory.wf s.mem = true) :
    Memory.wf s1.mem = true := by
  simpa [heq] using State.access_wf t fpc pend sp stat plain reqs pre h

theorem State.wf_of_access_ok {s s1 : State} {t fpc : Nat} {pend : Pend} {sp : AccSpec} {stat plain : Bool} {reqs : List LaneReq}
    {pre : List LaneFault} {as : List LaneAcc} (heq : s.access t fpc pend sp stat plain reqs pre = .ok s1 as)
    (h : Memory.wf s.mem = true) : Memory.wf s1.mem = true := by
  simpa [heq] using State.access_wf t fpc pend sp stat plain reqs pre h

end Sys2Proof.Machine
end

section
/-! SUPPORT. Issues keep memory canonical: pops, the issue of a body, and the outcome of an instruction. -/

namespace Sys2Proof.Machine

open Sys2Proof Sys2Proof.Safety

-- One proof at a time: side by side they need more threads than a check's memory holds.
set_option Elab.async false

/-- A wait for a pop leaves memory canonical. -/
@[simp] def PopOut.Wf : PopOut → Prop
  | .wait s _ _ => Memory.wf s.mem = true
  | _ => True

theorem Env.reload_wf {e : Env} (unit : Nat) (q : Option (Nat × Nat)) (ld : ApprLoad) (h : Memory.wf e.s.mem = true) :
    (e.reload unit q ld).Wf := by
  unfold Env.reload
  dsimp only
  split
  · trivial
  · next heq => exact State.wf_of_access_park heq h
  · next heq =>
    have hs := State.wf_of_access_ok heq h
    split
    · exact hs
    · simp only [PopOut.Wf]
      split <;> simpa using hs

theorem Env.popAll_wf {e : Env} (c unit : Nat) (qs seen : List Nat) (acc : List ApprEntry) (h : Memory.wf e.s.mem = true) :
    (e.popAll c unit qs seen acc).Wf := by
  induction qs generalizing seen acc with
  | nil => trivial
  | cons q qs ih =>
    unfold Env.popAll
    dsimp only
    repeat' split
    all_goals first | exact h | trivial | exact ih _ _ | exact Env.reload_wf _ _ _ h

theorem Env.popsOf_wf {e : Env} (i : Instr) (h : Memory.wf e.s.mem = true) : (e.popsOf i).Wf := by
  unfold Env.popsOf
  dsimp only
  repeat' split
  all_goals first | trivial | exact Env.popAll_wf _ _ _ _ _ h

theorem Env.regCheck_wf {e : Env} {i : Instr} {r : Res} (hr : e.regCheck i = some r) (h : Memory.wf e.s.mem = true) :
    Memory.wf r.state.mem = true := by
  unfold Env.regCheck at hr
  dsimp only at hr
  split at hr <;> cases hr
  simpa using h

/-- The issue of a body that keeps memory canonical keeps it so. -/
theorem State.issue_wf {s : State} (t : Nat) (g : Gang) (r : ClauseRun) (i : Instr) {body : Env → Res}
    (hb : ∀ e, Memory.wf e.s.mem = true → Memory.wf (body e).state.mem = true) (h : Memory.wf s.mem = true) :
    Memory.wf (s.issue t g r i body).mem = true := by
  have he : Memory.wf (s.env t g r).s.mem = true := h
  unfold State.issue
  dsimp only
  split
  · simpa using h
  · split
    · simpa using h
    · split
      · simpa using h
      · split
        · simpa using he
        · split
          · simpa using he
          · split
            · next hr => simpa using Env.regCheck_wf hr he
            · have hp := Env.popsOf_wf i he
              split
              · simpa using he
              · simpa using h
              · next heq =>
                rw [heq] at hp
                simpa using hp
              · rw [State.settleRes_mem]
                exact hb _ he

/-- An outcome leaves memory canonical. -/
def OutWf (o : Host.Outcome State Fault Refusal) : Prop := ∀ s', o = .next s' → Memory.wf s'.mem = true

@[simp] theorem outWf_next {s : State} : OutWf (.next s) ↔ Memory.wf s.mem = true := by
  simp [OutWf]

@[simp] theorem outWf_fault (f : Fault) : OutWf (.fault f) := fun _ h => nomatch h

@[simp] theorem outWf_refused (r : Refusal) : OutWf (.refused r) := fun _ h => nomatch h

theorem laneIssue_wf {s : State} (i : Instr) {body : Env → Res}
    (hb : ∀ e, Memory.wf e.s.mem = true → Memory.wf (body e).state.mem = true) (h : Memory.wf s.mem = true) :
    OutWf (laneIssue i body s) := by
  unfold laneIssue
  split
  · dsimp only
    split
    · split
      · simpa using State.issue_wf _ _ _ _ hb (by exact h)
      · simp
    · simp
  · simp

/-- The state that an Apprentice's instruction leaves. -/
def ApprRes.state : ApprRes → State
  | .ok s _ => s
  | .jump s _ => s
  | .wait s => s

@[simp] theorem ApprRes.state_ok (s : State) (l : Option Dword) : (ApprRes.ok s l).state = s := rfl

@[simp] theorem ApprRes.state_jump (s : State) (pc : Nat) : (ApprRes.jump s pc).state = s := rfl

@[simp] theorem ApprRes.state_wait (s : State) : (ApprRes.wait s).state = s := rfl

theorem apprIssue_wf {s : State} (i : Instr) {body : State → Nat → Nat → Apprentice → ClauseRun → ApprRes}
    (hb : ∀ s core u a r, Memory.wf s.mem = true → Memory.wf (body s core u a r).state.mem = true) (core u : Nat)
    (h : Memory.wf s.mem = true) : OutWf (apprIssue i body s core u) := by
  unfold apprIssue
  dsimp only
  split
  · next r _ _ _ =>
    have hs := hb s core u ((s.core core).apprs.get u) r h
    split <;> next heq => simpa [heq] using hs
  · simp

theorem bothIssue_wf {s : State} (i : Instr) {body : Env → Res} {abody : State → Nat → Nat → Apprentice → ClauseRun → ApprRes}
    (hb : ∀ e, Memory.wf e.s.mem = true → Memory.wf (body e).state.mem = true)
    (ha : ∀ s core u a r, Memory.wf s.mem = true → Memory.wf (abody s core u a r).state.mem = true) (h : Memory.wf s.mem = true) :
    OutWf (bothIssue i body abody s) := by
  unfold bothIssue
  split
  · exact apprIssue_wf i ha _ _ h
  · exact laneIssue_wf i hb h

theorem apprOnly_wf {s : State} (i : Instr) {body : State → Nat → Nat → Apprentice → ClauseRun → ApprRes}
    (hb : ∀ s core u a r, Memory.wf s.mem = true → Memory.wf (body s core u a r).state.mem = true) (h : Memory.wf s.mem = true) :
    OutWf (apprOnly i body s) := by
  unfold apprOnly
  split
  · exact apprIssue_wf i hb _ _ h
  · simp

@[simp] theorem aluBody_wf (ops : List Opd) (d : Dest) (f : LaneIn → LaneOut) {e : Env} (h : Memory.wf e.s.mem = true) :
    Memory.wf (aluBody ops d f e).state.mem = true := by
  simpa [aluBody, Res.state] using h

theorem aluAppr_wf (ops : List Opd) (d : Dest) (f : LaneIn → LaneOut) (s : State) (core u : Nat) (a : Apprentice) (r : ClauseRun)
    (h : Memory.wf s.mem = true) : Memory.wf (aluAppr ops d f s core u a r).state.mem = true := by
  unfold aluAppr
  split <;> simpa [ApprRes.state] using h

theorem alu_wf {s : State} (i : Instr) (ops : List Opd) (d : Dest) (f : LaneIn → LaneOut) (h : Memory.wf s.mem = true) :
    OutWf (alu i ops d f s) :=
  bothIssue_wf i (fun _ => aluBody_wf ops d f) (aluAppr_wf ops d f) h

end Sys2Proof.Machine
end

section
/-! SUPPORT. Banks keep memory canonical: passes, windows, and the steps of a sweep (spec/13). -/

namespace Sys2Proof.Machine

open Sys2Proof Sys2Proof.Safety

-- One proof at a time: side by side they need more threads than a check's memory holds.
set_option Elab.async false

theorem State.seenBy_wf {s s1 : State} {bs : List Agent} {xs : List Span} (hs : s.seenBy bs xs = some s1)
    (h : Memory.wf s.mem = true) : Memory.wf s1.mem = true := by
  unfold State.seenBy at hs
  dsimp only at hs
  split at hs <;> cases hs
  exact State.sendHome_wf _ h

theorem State.rowsSeen_wf {s s1 : State} {g : Nat} (hs : s.rowsSeen g = some s1) (h : Memory.wf s.mem = true) :
    Memory.wf s1.mem = true := State.seenBy_wf hs h

@[simp] theorem State.bankPass_wf {s : State} (g w first len : Nat) (p : PassSpec) (b : Nat) (h : Memory.wf s.mem = true) :
    Memory.wf (s.bankPass g w first len p b).mem = true := by
  unfold State.bankPass
  rw [State.updPch_mem]
  dsimp only
  exact Memory.wf_write _ _ _ h

@[simp] theorem State.cmdRun_wf {s : State} (g : Nat) (c : BankCmd) (h : Memory.wf s.mem = true) : Memory.wf (s.cmdRun g c).mem = true := by
  unfold State.cmdRun
  dsimp only
  split
  · simpa using h
  · simpa using h
  · split
    · exact overList_wf (fun _ _ h => State.bankPass_wf _ _ _ _ _ _ h) _ h
    · exact h
  · exact overList_wf (fun _ _ h => by simp [h]) _ h
  · simpa using h

/-- A store to a window that is taken leaves memory canonical. -/
theorem State.winStore_wf {s s1 : State} {g : Nat} {who : Nat × Nat} {off z v : Nat} (hs : s.winStore g who off z v = .ok s1)
    (h : Memory.wf s.mem = true) : Memory.wf s1.mem = true := by
  unfold State.winStore at hs
  dsimp only at hs
  repeat' split at hs
  all_goals cases hs
  · next hs => simpa using State.rowsSeen_wf hs h
  · simpa using h
  · simpa using State.cmdRun_wf _ _ h
  · simpa using h

/-- The accesses of one instruction to windows leave memory canonical. -/
def WinOut.Wf : WinOut → Prop
  | .trap s _ _ _ _ => Memory.wf s.mem = true
  | .wait _ => True
  | .ok s _ => Memory.wf s.mem = true

theorem State.winAccess_wf {s0 s : State} (l : List WinAcc) (vals : List (Nat × Nat)) (h0 : Memory.wf s0.mem = true)
    (h : Memory.wf s.mem = true) : (State.winAccess s0 l s vals).Wf := by
  induction l generalizing s vals with
  | nil => exact h
  | cons a l ih =>
    unfold State.winAccess
    dsimp only
    split
    · simpa [WinOut.Wf] using h0
    · exact h0
    · split
      · split
        · exact ih _ h
        · exact h0
      · split
        · exact h0
        · trivial
        · next hs => exact ih _ (State.winStore_wf hs h)

@[simp] theorem State.applyEntry_wf {s : State} (g b row i : Nat) (h : Memory.wf s.mem = true) :
    Memory.wf (s.applyEntry g b row i).mem = true := by
  simp [State.applyEntry, h]

@[simp] theorem State.restoreRow_wf {s : State} (g b row : Nat) (step : Option Dword) (h : Memory.wf s.mem = true) :
    Memory.wf (s.restoreRow g b row step).mem = true := by
  unfold State.restoreRow
  dsimp only
  have ho := fun due : State → Nat → Bool => overList_wf (s := s) (f := fun s i => if due s i then s.applyEntry g b row i else s)
    (fun s i h => by
      split
      · exact State.applyEntry_wf _ _ _ _ h
      · exact h) (List.range 32) h
  split
  · rw [State.dropRaces_mem]
    exact ho _
  · exact ho _

@[simp] theorem State.sweepStep_wf {s : State} (g : Nat) (h : Memory.wf s.mem = true) : Memory.wf (s.sweepStep g).mem = true := by
  unfold State.sweepStep
  rw [State.updPch_mem]
  exact overList_wf (fun _ _ h => by simp [h]) _ h

@[simp] theorem State.sweepOn_wf {s : State} (g : Nat) (h : Memory.wf s.mem = true) : Memory.wf (s.sweepOn g).mem = true := by
  simp [State.sweepOn, h]

theorem State.sweepNow_wf {s : State} (g : Nat) {k : State → State} (hk : ∀ s, Memory.wf s.mem = true → Memory.wf (k s).mem = true)
    (h : Memory.wf s.mem = true) : OutWf (s.sweepNow g k) := by
  unfold State.sweepNow
  split
  · next hs => simpa using hk _ (State.rowsSeen_wf hs h)
  · simp

end Sys2Proof.Machine
end

section
/-! SUPPORT. Nodes, placement, preemption and packets of the pool keep memory canonical (spec/15, spec/16). -/

namespace Sys2Proof.Machine

open Sys2Proof Sys2Proof.Safety

-- One proof at a time: side by side they need more threads than a check's memory holds.
set_option Elab.async false

@[simp] theorem State.complWrite_wf {s : State} (dom status : Nat) (n : Node) (h : Memory.wf s.mem = true) :
    Memory.wf (s.complWrite dom status n).mem = true := by
  unfold State.complWrite
  split <;> simp [h]

@[simp] theorem State.endNode_wf {s : State} (id status : Nat) (h : Memory.wf s.mem = true) :
    Memory.wf (s.endNode id status).mem = true := by
  unfold State.endNode
  dsimp only
  split <;> simp [h]

@[simp] theorem State.mergeInto_wf {s : State} (id : Nat) (w : Workgroup) (h : Memory.wf s.mem = true) :
    Memory.wf (s.mergeInto id w).mem = true := by
  unfold State.mergeInto
  dsimp only
  split
  · simpa using h
  · split <;> simp [h]

@[simp] theorem State.failNode_wf {s : State} (id fcause finst fva : Nat) (h : Memory.wf s.mem = true) :
    Memory.wf (s.failNode id fcause finst fva).mem = true := by
  simp [State.failNode, h]

@[simp] theorem State.doneNode_wf {s : State} (id : Nat) (h : Memory.wf s.mem = true) : Memory.wf (s.doneNode id).mem = true := by
  simp [State.doneNode, h]

@[simp] theorem State.jobFail_wf {s : State} (g reason : Nat) (n : Node) (j : BankJob) (cause fva : Nat) (h : Memory.wf s.mem = true) :
    Memory.wf (s.jobFail g reason n j cause fva).mem = true := by
  simp [State.jobFail, h]

/-- Where there is a state, its memory is canonical. -/
def OptWf (o : Option State) : Prop := ∀ s, o = some s → Memory.wf s.mem = true

@[simp] theorem optWf_none : OptWf none := fun _ h => nomatch h

@[simp] theorem optWf_some {s : State} : OptWf (some s) ↔ Memory.wf s.mem = true := by
  simp [OptWf]

theorem State.jobStep_wf {s s1 : State} {g : Nat} {n : Node} {j : BankJob} (hs : s.jobStep g n j = some s1)
    (h : Memory.wf s.mem = true) : Memory.wf s1.mem = true := by
  unfold State.jobStep at hs
  dsimp only at hs
  split at hs
  · cases hs
  · split at hs <;> cases hs
    simp [h]
  · split at hs <;> cases hs
    simp [h]
  · split at hs <;> cases hs
    simp [h]
  · split at hs
    · split at hs <;> cases hs
      simp [h]
    · cases hs
    · next hw =>
      cases hs
      simpa using State.winStore_wf hw h

@[simp] theorem State.packetBroken_wf {s : State} (n : Node) (m : Nat × Nat × Nat) (va : Nat) (h : Memory.wf s.mem = true) :
    Memory.wf (s.packetBroken n m va).mem = true := by
  simp [State.packetBroken, h]

theorem State.packetClaim_wf {s : State} (n : Node) (h : Memory.wf s.mem = true) : OptWf (s.packetClaim n) := by
  rw [State.packetClaim]
  repeat' split
  all_goals try extract_lets hd
  all_goals try split
  all_goals simp [h]

theorem State.packetPublish_wf {s : State} (n : Node) (pa seq : Nat) (h : Memory.wf s.mem = true) : OptWf (s.packetPublish n pa seq) := by
  rw [State.packetPublish]
  split
  · simp
  extract_lets hd va
  repeat' split
  all_goals simp [h]

theorem State.packetEnd_wf {s : State} (n : Node) (pa seq sp : Nat) (h : Memory.wf s.mem = true) : OptWf (s.packetEnd n pa seq sp) := by
  unfold State.packetEnd
  dsimp only
  repeat' split
  all_goals simp [h]

@[simp] theorem State.writeRecord0_wf {s : State} (d : NodeDesc) (h : Memory.wf s.mem = true) :
    Memory.wf (s.writeRecord0 d).mem = true := by
  unfold State.writeRecord0
  split <;> simp [h]

@[simp] theorem State.placeOne_wf {s : State} (n : Node) (inst t core : Nat) (sibs : List (Option Nat)) (r : Room)
    (h : Memory.wf s.mem = true) : Memory.wf (s.placeOne n inst t core sibs r).mem = true := by
  unfold State.placeOne
  dsimp only
  split <;> simp [h]

@[simp] theorem State.zeroVirt_wf {s : State} (dom va n : Nat) (h : Memory.wf s.mem = true) :
    Memory.wf (s.zeroVirt dom va n).mem = true :=
  overList_wf (fun _ _ h => by split <;> simp [h]) _ h

@[simp] theorem State.saveOne_wf {s : State} (t : Nat) (h : Memory.wf s.mem = true) : Memory.wf (s.saveOne t).mem = true := by
  unfold State.saveOne
  dsimp only
  rw [State.updWg_mem, overList_mem (fun _ _ => by split <;> simp), State.dropMacros_mem, overList_mem (fun _ _ => by simp)]
  simp [h]

@[simp] theorem State.writeImage_wf {s : State} (t : Nat) (h : Memory.wf s.mem = true) : Memory.wf (s.writeImage t).mem = true := by
  unfold State.writeImage
  split
  · exact h
  · split
    · exact h
    · dsimp only
      exact overList_wf (fun _ _ h => State.imagePut_wf _ _ _ h) _ h

@[simp] theorem State.accept_wf {s : State} (dom : Nat) (ws : List Word) (h : Memory.wf s.mem = true) :
    Memory.wf (s.accept dom ws).1.mem = true := by
  unfold State.accept
  dsimp only
  split
  · exact h
  · split
    · split <;> simp [h]
    · exact h

@[simp] theorem State.takeLaunches_wf {s : State} (k : Nat) (h : Memory.wf s.mem = true) :
    Memory.wf (State.takeLaunches k s).mem = true := by
  induction k generalizing s with
  | zero => exact h
  | succ k ih =>
    unfold State.takeLaunches
    dsimp only
    split
    · exact h
    · split
      · exact h
      · split
        · exact ih h
        · split
          · exact ih h
          · split
            · exact h
            · split
              · exact h
              · exact ih (State.accept_wf _ _ h)

@[simp] theorem State.extPerform_wf {s : State} (x : ExtAccess) (h : Memory.wf s.mem = true) : Memory.wf (s.extPerform x).mem = true := by
  unfold State.extPerform
  split <;> simp [h]

theorem State.extAccess_wf {s : State} (aps : List Nat) (x : ExtAccess) (h : Memory.wf s.mem = true) : OutWf (s.extAccess aps x) := by
  unfold State.extAccess
  dsimp only
  split
  · simp
  · split
    · split <;> simp [h]
    · simp

@[simp] theorem State.wipe_wf {s : State} (h : Memory.wf s.mem = true) : Memory.wf s.wipe.mem = true := SMap.wf_filter _ _ h

@[simp] theorem State.cold_wf {s : State} (h : Memory.wf s.mem = true) : Memory.wf s.cold.mem = true := State.wipe_wf h

end Sys2Proof.Machine
end

section
/-! SUPPORT. The engines' packets keep memory canonical (spec/12, spec/17, spec/24). -/

namespace Sys2Proof.Machine

open Sys2Proof Sys2Proof.Safety

-- One proof at a time: side by side they need more threads than a check's memory holds.
set_option Elab.async false

/-- Memory is canonical where an access of an engine leaves a state. -/
def EngRes.Wf {α : Type} : EngRes α → Prop
  | .ok _ s => Memory.wf s.mem = true
  | .wait => True
  | .stop _ s => Memory.wf s.mem = true

@[simp] theorem EngRes.wf_ok {α : Type} (a : α) (s : State) : (EngRes.ok a s).Wf ↔ Memory.wf s.mem = true := Iff.rfl

@[simp] theorem EngRes.wf_wait {α : Type} : (EngRes.wait : EngRes α).Wf := trivial

@[simp] theorem EngRes.wf_stop {α : Type} (c : Nat) (s : State) : (EngRes.stop c s : EngRes α).Wf ↔ Memory.wf s.mem = true := Iff.rfl

theorem EngRes.andThen_wf {α β : Type} {r : EngRes α} {k : α → State → EngRes β} (hr : r.Wf)
    (hk : ∀ a s, Memory.wf s.mem = true → (k a s).Wf) : (r.andThen k).Wf := by
  cases r with
  | ok a s => exact hk a s hr
  | wait => trivial
  | stop c s => exact hr

/-! ### Single accesses -/

@[simp] theorem State.setStatus_wf {s : State} (hdr v : Nat) (h : Memory.wf s.mem = true) :
    Memory.wf (s.setStatus hdr v).mem = true := State.physWrite_wf _ _ _ h

@[simp] theorem State.recordError_wf {s : State} (hdr seq status : Nat) (h : Memory.wf s.mem = true) :
    Memory.wf (s.recordError hdr seq status).mem = true := by
  unfold State.recordError
  extract_lets hd
  split <;> simp [h]

@[simp] theorem State.haltQueue_wf {s : State} (q : Queue) (h : Memory.wf s.mem = true) :
    Memory.wf (s.haltQueue q).mem = true := by
  simp [State.haltQueue, h]

theorem State.engAt_wf {s : State} (dom : Nat) (wr : Bool) (va n : Nat) (h : Memory.wf s.mem = true) :
    (s.engAt dom wr va n).Wf := by
  unfold State.engAt
  repeat' split
  all_goals simp [h]

theorem State.engPad_wf {s : State} (l : Loc) (n : Nat) (h : Memory.wf s.mem = true) : (s.engPad l n).Wf := by
  unfold State.engPad
  split <;> simp [h]

@[simp] theorem State.engPut_wf {s : State} (pa : Nat) (bs : List Byte) (h : Memory.wf s.mem = true) :
    Memory.wf (s.engPut pa bs).mem = true := by
  unfold State.engPut
  split
  · exact overList_wf (fun _ _ h => by simp [h]) _ h
  · simp [h]

theorem State.engSee_wf {s : State} (p : Packet) (xs : List Span) (h : Memory.wf s.mem = true) : (s.engSee p xs).Wf := by
  unfold State.engSee
  split
  next s1 hs => exact State.seenBy_wf hs h
  next => trivial

theorem State.engReadAll_wf (dom : Nat) (l : List (Nat × Nat)) (acc : List Byte) {s : State} (h : Memory.wf s.mem = true) :
    (s.engReadAll dom l acc).Wf := by
  induction l generalizing acc s with
  | nil => exact h
  | cons g rest ih => exact EngRes.andThen_wf (State.engAt_wf _ _ _ _ h) fun _ _ h => ih _ (by simp [h])

theorem State.engWriteAll_wf (dom : Nat) (l : List (Nat × Nat)) (bs : List Byte) {s : State} (h : Memory.wf s.mem = true) :
    (s.engWriteAll dom l bs).Wf := by
  induction l generalizing bs s with
  | nil => exact h
  | cons g rest ih => exact EngRes.andThen_wf (State.engAt_wf _ _ _ _ h) fun _ _ h => ih _ (by simp [h])

theorem State.engRead_wf {s : State} (p : Packet) (dom a d n : Nat) (h : Memory.wf s.mem = true) : (s.engRead p dom a d n).Wf := by
  refine EngRes.andThen_wf (State.engSee_wf _ _ h) fun _ s h => ?_
  split
  · exact State.engReadAll_wf _ _ _ h
  · split
    · exact h
    split
    · exact EngRes.andThen_wf (State.engPad_wf _ _ h) fun _ _ h => h
    · exact h
  · exact h

theorem State.engWrite_wf {s : State} (p : Packet) (dom a d : Nat) (bs : List Byte) (h : Memory.wf s.mem = true) :
    (s.engWrite p dom a d bs).Wf := by
  refine EngRes.andThen_wf (State.engSee_wf _ _ h) fun _ s h => ?_
  split
  · exact State.engWriteAll_wf _ _ _ h
  · split
    · exact h
    split
    · exact EngRes.andThen_wf (State.engPad_wf _ _ h) fun _ _ h => State.wrLoc_wf _ _ _ h
    · exact h
  · exact h

theorem State.engWrites_wf (p : Packet) (dom : Nat) (l : List (Nat × Nat × List Byte)) {s : State} (h : Memory.wf s.mem = true) :
    (State.engWrites p dom l s).Wf := by
  induction l generalizing s with
  | nil => exact h
  | cons x rest ih => exact EngRes.andThen_wf (State.engWrite_wf _ _ _ _ _ h) fun _ _ h => ih h

/-! ### The start and the units of packets -/

theorem State.ckptBlocks_wf (p : Packet) (dom : Nat) (l : List Nat) (acc : List (Nat × Nat × Nat × Nat)) {s : State}
    (h : Memory.wf s.mem = true) : (State.ckptBlocks p dom l acc s).Wf := by
  induction l generalizing acc s with
  | nil => exact h
  | cons i rest ih =>
    refine EngRes.andThen_wf (State.engRead_wf _ _ _ _ _ h) fun b s h => ?_
    split
    · exact h
    · exact ih _ h

theorem State.startPacket_wf {s : State} (q : Queue) (p : Packet) (h : Memory.wf s.mem = true) : (s.startPacket q p).Wf := by
  unfold State.startPacket
  split
  · split
    · exact EngRes.andThen_wf (State.ckptBlocks_wf _ _ _ _ h) fun _ _ h => h
    all_goals exact h
  · exact h

theorem State.copyUnit_wf {s : State} (q : Queue) (p : Packet) (h : Memory.wf s.mem = true) : (s.copyUnit q p).Wf := by
  rw [State.copyUnit]
  split
  · exact EngRes.andThen_wf (State.engRead_wf _ _ _ _ _ h) fun _ _ h => h
  extract_lets d len bs p1 ws
  split
  · split
    · trivial
    split
    · exact h
    split
    · exact EngRes.andThen_wf (State.engSee_wf _ _ h) fun _ _ h =>
        EngRes.andThen_wf (State.engPad_wf _ _ h) fun _ _ h => State.wrLoc_wf _ _ _ h
    · exact h
  · exact EngRes.andThen_wf (State.engWrites_wf _ _ _ h) fun _ _ h => h

theorem State.gatherCheck_wf (q : Queue) (p : Packet) (rb : Nat) (l : List Nat) {s : State} (h : Memory.wf s.mem = true) :
    (State.gatherCheck q p rb l s).Wf := by
  induction l generalizing s with
  | nil => exact h
  | cons i rest ih =>
    refine EngRes.andThen_wf (State.engRead_wf _ _ _ _ _ h) fun b s h => ?_
    extract_lets x
    split
    · exact h
    · exact ih h

theorem State.gatherUnit_wf {s : State} (q : Queue) (p : Packet) (h : Memory.wf s.mem = true) : (s.gatherUnit q p).Wf := by
  unfold State.gatherUnit
  extract_lets rb i check
  have hc : check.Wf := by
    unfold check
    split
    · exact State.gatherCheck_wf _ _ _ _ h
    · exact h
  refine EngRes.andThen_wf hc fun _ s h => EngRes.andThen_wf (State.engRead_wf _ _ _ _ _ h) fun b s h => ?_
  extract_lets x clip row
  have hr : row.Wf := by
    unfold row
    split
    · exact h
    · exact State.engRead_wf _ _ _ _ _ h
  exact EngRes.andThen_wf hr fun _ _ h => EngRes.andThen_wf (State.engWrite_wf _ _ _ _ _ h) fun _ _ h => h

theorem State.quantRows_wf (q : Queue) (p : Packet) (pitch es : Nat) (l : List Nat) (acc : List (List Byte)) {s : State}
    (h : Memory.wf s.mem = true) : (State.quantRows q p pitch es l acc s).Wf := by
  induction l generalizing acc s with
  | nil => exact h
  | cons i rest ih => exact EngRes.andThen_wf (State.engRead_wf _ _ _ _ _ h) fun _ _ h => ih _ h

theorem State.quant2Unit_wf {s : State} (q : Queue) (p : Packet) (h : Memory.wf s.mem = true) : (s.quant2Unit q p).Wf :=
  EngRes.andThen_wf (State.quantRows_wf _ _ _ _ _ _ h) fun _ _ h =>
    EngRes.andThen_wf (State.engWrites_wf _ _ _ (by simp [h])) fun _ _ h => h

theorem State.contribution_wf {s : State} (q : Queue) (p : Packet) (outer : List (Nat × List Byte)) (i n : Nat)
    (h : Memory.wf s.mem = true) : (s.contribution q p outer i n).Wf := by
  have near (d : Nat) : ((s.engRead p q.domain (p.dbl 4) d n).andThen fun b s => .ok (some b) s).Wf :=
    EngRes.andThen_wf (State.engRead_wf _ _ _ _ _ h) fun _ _ h => h
  unfold State.contribution
  extract_lets e own far nr
  split
  · split
    · exact near _
    · exact h
  · split
    · exact near _
    · exact h
  · exact EngRes.andThen_wf (State.engSee_wf _ _ h) fun _ _ h => EngRes.andThen_wf (State.engPad_wf _ _ h) fun _ _ h => h

theorem State.contributions_wf (q : Queue) (p : Packet) (outer : List (Nat × List Byte)) (n : Nat) (l : List Nat)
    (acc : List (Option (List Byte))) {s : State} (h : Memory.wf s.mem = true) : (s.contributions q p outer n l acc).Wf := by
  induction l generalizing acc s with
  | nil => exact h
  | cons i rest ih => exact EngRes.andThen_wf (State.contribution_wf _ _ _ _ _ h) fun _ _ h => ih _ h

theorem State.collUnit_wf {s : State} (outer : List (Nat × List Byte)) (q : Queue) (p : Packet) (h : Memory.wf s.mem = true) :
    (s.collUnit outer q p).Wf := by
  unfold State.collUnit
  extract_lets w es n own nb bad root who
  split
  · exact h
  refine EngRes.andThen_wf (State.contributions_wf _ _ _ _ _ _ h) fun cs s h => ?_
  split
  · extract_lets junk s1
    have h1 : Memory.wf s1.mem = true := by
      unfold s1
      split <;> simp [h]
    exact EngRes.andThen_wf (State.engWrite_wf _ _ _ _ _ h1) fun _ _ h => h
  · extract_lets data r
    exact EngRes.andThen_wf (State.engWrite_wf _ _ _ _ _ (by simp [h])) fun _ _ h => h

theorem State.ckptBlock_wf (p : Packet) (dom : Nat) (l : List (Nat × Nat)) (acc : List Byte) {s : State} (h : Memory.wf s.mem = true) :
    (State.ckptBlock p dom l acc s).Wf := by
  induction l generalizing acc s with
  | nil => exact h
  | cons g rest ih =>
    unfold State.ckptBlock
    split
    · exact h
    split
    · exact ih _ h
    · exact EngRes.andThen_wf (State.engAt_wf _ _ _ _ h) fun _ _ h =>
        EngRes.andThen_wf (State.engSee_wf _ _ h) fun _ _ h => ih _ h

theorem State.ckptHash_wf (q : Queue) (p : Packet) (l : List ((Nat × Nat × Nat × Nat) × Nat))
    (acc : List (Nat × Nat × List Byte × List Byte × Bool)) {s : State} (h : Memory.wf s.mem = true) :
    (State.ckptHash q p l acc s).Wf := by
  induction l generalizing acc s with
  | nil => exact h
  | cons b rest ih =>
    unfold State.ckptHash
    refine EngRes.andThen_wf (State.ckptBlock_wf _ _ _ _ h) fun bytes s h => ?_
    extract_lets dig old
    have ho : old.Wf := by
      unfold old
      split
      · exact h
      · exact State.engRead_wf _ _ _ _ _ h
    exact EngRes.andThen_wf ho fun _ _ h => ih _ h

theorem State.ckptUnit_wf {s : State} (q : Queue) (p : Packet) (h : Memory.wf s.mem = true) : (s.ckptUnit q p).Wf := by
  unfold State.ckptUnit
  split
  · trivial
  refine EngRes.andThen_wf (State.ckptHash_wf _ _ _ _ h) fun bs s h => ?_
  extract_lets ch m
  split
  · exact h
  · exact EngRes.andThen_wf (State.engWrites_wf _ _ _ h) fun _ _ h => h

theorem State.assaySwap_wf (p : Packet) (dom map : Nat) (l : List Nat) (n : Nat) {s : State} (h : Memory.wf s.mem = true) :
    (State.assaySwap p dom map l n s).Wf := by
  induction l generalizing n s with
  | nil => exact h
  | cons t rest ih =>
    exact EngRes.andThen_wf (State.engRead_wf _ _ _ _ _ h) fun _ _ h =>
      EngRes.andThen_wf (State.engWrite_wf _ _ _ _ _ h) fun _ _ h => ih _ h

@[simp] theorem State.assayBlur_wf {s : State} (p : Packet) (dom : Nat) (as : List AssayArray) (h : Memory.wf s.mem = true) :
    Memory.wf (s.assayBlur p dom as).mem = true := by
  refine overList_wf (fun s1 x h => ?_) _ h
  extract_lets b
  split
  · split <;> simp [h]
  · simp [h]

theorem State.assayUnit_wf {s : State} (q : Queue) (p : Packet) (h : Memory.wf s.mem = true) : (s.assayUnit q p).Wf := by
  unfold State.assayUnit
  extract_lets dom npos w7 mark tpos tiles
  refine EngRes.andThen_wf (State.engRead_wf _ _ _ _ _ h) fun tb s h => ?_
  extract_lets a nb uses forms
  split
  · exact h
  split
  · exact h
  split
  · exact h
  split
  · exact h
  refine EngRes.andThen_wf (State.engRead_wf _ _ _ _ _ h) fun conf s h => EngRes.andThen_wf (State.engRead_wf _ _ _ _ _ h) fun cand s h =>
    EngRes.andThen_wf (State.engRead_wf _ _ _ _ _ h) fun mb s h => ?_
  extract_lets mask cv r dirty newmask toks fl
  refine EngRes.andThen_wf (State.engWrites_wf _ _ _ (by simp [h])) fun _ s h =>
    EngRes.andThen_wf (State.assaySwap_wf _ _ _ _ _ (by simp [h])) fun cas s h => ?_
  extract_lets res
  exact EngRes.andThen_wf (State.engWrite_wf _ _ _ _ _ h) fun _ _ h => State.assayBlur_wf _ _ _ h

end Sys2Proof.Machine
end

section
/-! SUPPORT. Bodies of instructions that leave memory as it stands at their issue. -/

namespace Sys2Proof.Machine

open Sys2Proof Sys2Proof.Safety

-- One proof at a time: side by side they need more threads than a check's memory holds.
set_option Elab.async false

theorem Env.padCheck_mem {e : Env} {xs : List SpadLoc} {n : Nat} {r : Res} (h : e.padCheck xs n = some r) : r.state.mem = e.s.mem := by
  obtain ⟨q, hq, rfl⟩ := Option.map_eq_some_iff.mp h
  exact State.mcTrap_mem hq

theorem Env.race_error_mem {e : Env} {wr : Bool} {ra : List RaceAcc} {r : Res} (h : e.race wr ra = .error r) : r.state.mem = e.s.mem := by
  unfold Env.race at h
  split at h
  · cases h
    rfl
  · split at h
    next heq =>
      cases h
      simpa [heq] using State.raceKeep_mem e.s e.t wr e.run.pend.stallOf.2 ra
    next => cases h

theorem Env.race_ok_mem {e : Env} {wr : Bool} {ra : List RaceAcc} {s : State} (h : e.race wr ra = .ok s) : s.mem = e.s.mem := by
  unfold Env.race at h
  split at h
  · cases h
  · split at h
    next => cases h
    next heq =>
      cases h
      simpa [heq] using State.raceKeep_mem e.s e.t wr e.run.pend.stallOf.2 ra

@[simp] theorem spadAccess_mem (cluster : Bool) (o : SpadAcc) (wr : Bool) (op : List SpadLoc → FlightOp) (e : Env) :
    (spadAccess cluster o wr op e).state.mem = e.s.mem := by
  unfold spadAccess
  split
  · rfl
  split
  · rfl
  split
  · rfl
  split
  next heq =>
    split at heq
    · cases heq
    · exact Env.padCheck_mem heq
  extract_lets ra
  split
  · rfl
  · rfl
  split
  next heq => exact Env.race_error_mem heq
  next heq => simpa using Env.race_ok_mem heq

@[simp] theorem spadLoadBody_mem (cluster : Bool) (o : SpadAcc) (e : Env) : (spadLoadBody cluster o e).state.mem = e.s.mem := by
  simp [spadLoadBody]

@[simp] theorem spadStoreBody_mem (cluster : Bool) (o : SpadAcc) (e : Env) : (spadStoreBody cluster o e).state.mem = e.s.mem := by
  simp [spadStoreBody]

theorem Env.matRange_mem {e : Env} {rs : List QueueReq} {r : Res} (h : e.matRange rs = some r) : r.state.mem = e.s.mem := by
  unfold Env.matRange at h
  dsimp only at h
  split at h <;> cases h
  rfl

theorem Env.matVote_mem {e : Env} {scaled : Bool} {c : Nat} {words : List (Nat × Nat)} {refuse : Slot → Nat → Bool} {r : Res}
    (h : e.matVote scaled c words refuse = some r) : r.state.mem = e.s.mem := by
  unfold Env.matVote at h
  dsimp only at h
  repeat' split at h
  all_goals cases h
  all_goals rfl

@[simp] theorem Env.matIssue_mem (e : Env) (kind : MatKind) (c : Nat) (rs : List QueueReq) (tys : List Nat) (chk : Bool) (devRaces : List RaceAcc) (as : List LaneAcc) :
    (Env.matIssue e kind c rs tys chk devRaces as).state.mem = e.s.mem := by
  unfold Env.matIssue
  split
  next heq => exact Env.matRange_mem heq
  split
  · rfl
  extract_lets lanesBy lanesDm first src reads launch
  split
  · rfl
  split
  next heq => exact Env.race_error_mem heq
  next heq =>
    have h0 := Env.race_ok_mem heq
    extract_lets s1 cols s2
    have hl (s : State) (p : Path) (ls tys : List Nat) (r : List MatRead) : (launch s p ls tys r).mem = s.mem := by
      unfold launch
      split <;> simp
    have h2 : s2.mem = e.s.mem := by
      unfold s2
      simp [hl, s1, h0]
    split <;> simp [h2]

@[simp] theorem matBody_mem (kind : MatKind) (c : Nat) (a : MOperand) (b : MOperand) (fmt : Sel) (scales : List Sel) (e : Env) :
    (matBody kind c a b fmt scales e).state.mem = e.s.mem := by
  unfold matBody
  split
  · rfl
  dsimp only
  split
  next heq => exact Env.matVote_mem heq
  split
  · rfl
  · simp

@[simp] theorem unpkWrite_mem (e : Env) (s : State) (nw : Bool) (d : Sel) (a : Sel) (cur : Nat) (rs : List (Nat × Nat)) (fl : FFlags) :
    (unpkWrite e s nw d a cur rs fl).state.mem = s.mem := by
  simp [unpkWrite]

@[simp] theorem movsBody_mem (r : SReg) (d : Dest) (e : Env) : (movsBody r d e).state.mem = e.s.mem := by
  simp [movsBody]

@[simp] theorem movswBody_mem (r : SReg) (a : Sel) (e : Env) : (movswBody r a e).state.mem = e.s.mem := by
  simp [movswBody]

@[simp] theorem crossBody_mem (d : Dest) (rs : List (Nat × Dword)) (e : Env) : (crossBody d rs e).state.mem = e.s.mem := by
  simp [crossBody]

@[simp] theorem voteBody_mem (m : VoteMode) (a : Sel) (d : Dest) (e : Env) : (voteBody m a d e).state.mem = e.s.mem := by
  simp [voteBody]

@[simp] theorem shflBody_mem (m : ShflMode) (a : Sel) (b : Sel) (d : Dest) (e : Env) :
    (shflBody m a b d e).state.mem = e.s.mem := by
  simp [shflBody]

@[simp] theorem wideResult_mem (e : Env) (nw : Bool) (d : Sel) (rs : List (Nat × List Nat × FFlags × Nat × Nat)) :
    (wideResult e nw d rs).state.mem = e.s.mem := by
  simp [wideResult]

@[simp] theorem qntBody_mem (nw : Bool) (d : Sel) (a : Sel) (b : Sel) (c : Sel) (e : Env) :
    (qntBody nw d a b c e).state.mem = e.s.mem := by
  unfold qntBody
  dsimp only
  repeat' split
  all_goals simp

@[simp] theorem dqntBody_mem (nw : Bool) (d : Sel) (a : Sel) (b : Sel) (c : Sel) (e : Env) :
    (dqntBody nw d a b c e).state.mem = e.s.mem := by
  unfold dqntBody
  dsimp only
  repeat' split
  all_goals simp

@[simp] theorem smxBody_mem (nw : Bool) (n : Nat) (d : Sel) (a : Sel) (b : Sel) (e : Env) :
    (smxBody nw n d a b e).state.mem = e.s.mem := by
  simp [smxBody]

@[simp] theorem reduceBody_mem (t : FType) (a : Sel) (d : Dest) (comb : Rounding → Nat → Nat → FRes) (e : Env) :
    (reduceBody t a d comb e).state.mem = e.s.mem := by
  unfold reduceBody
  split <;> simp

@[simp] theorem mmafinBody_mem (c : Nat) (e : Env) : (mmafinBody c e).state.mem = e.s.mem := by
  unfold mmafinBody
  split <;> simp

@[simp] theorem maccrdBody_mem (f : AccFmt) (c : Nat) (ch : Chain) (d : Nat) (e : Env) :
    (maccrdBody f c ch d e).state.mem = e.s.mem := by
  unfold maccrdBody
  dsimp only
  repeat' split
  all_goals simp

@[simp] theorem maccwrBody_mem (f : AccFmt) (c : Nat) (ch : Chain) (a : Option Nat) (e : Env) :
    (maccwrBody f c ch a e).state.mem = e.s.mem := by
  unfold maccwrBody
  dsimp only
  repeat' split
  all_goals simp

@[simp] theorem mxwaitBody_mem (slot : Option Nat) (e : Env) : (mxwaitBody slot e).state.mem = e.s.mem := by
  unfold mxwaitBody
  dsimp only
  repeat' split
  all_goals simp

@[simp] theorem mtransBody_mem (tw : TransWidth) (d : Nat) (a : Nat) (e : Env) : (mtransBody tw d a e).state.mem = e.s.mem := by
  simp [mtransBody]

@[simp] theorem waitcBody_mem (p : Path) (a : Sel) (e : Env) : (waitcBody p a e).state.mem = e.s.mem := by
  unfold waitcBody
  dsimp only
  repeat' split
  all_goals simp

@[simp] theorem crewBody_mem {k : Nat → Nat → Res} {e : Env} (hk : ∀ c l, (k c l).state.mem = e.s.mem) :
    (crewBody k e).state.mem = e.s.mem := by
  unfold crewBody
  repeat' split
  all_goals simp [hk]

@[simp] theorem claimBody_mem (n : Nat) (d : Sel) (e : Env) : (claimBody n d e).state.mem = e.s.mem := by
  refine crewBody_mem fun c l => ?_
  dsimp only
  repeat' split
  all_goals simp

@[simp] theorem qfreeBody_mem (n : Nat) (a : Sel) (e : Env) : (qfreeBody n a e).state.mem = e.s.mem := by
  refine crewBody_mem fun c l => ?_
  dsimp only
  repeat' split
  all_goals simp

@[simp] theorem qinitBody_mem (n : Nat) (a : Sel) (b : Sel) (e : Env) : (qinitBody n a b e).state.mem = e.s.mem := by
  refine crewBody_mem fun c l => ?_
  dsimp only
  repeat' split
  all_goals simp

@[simp] theorem monwaitBody_mem (e : Env) : (monwaitBody e).state.mem = e.s.mem := by
  unfold monwaitBody
  dsimp only
  repeat' split
  all_goals simp

@[simp] theorem fenceBody_mem (ord : Order) (sc : Scope) (e : Env) : (fenceBody ord sc e).state.mem = e.s.mem := by
  unfold fenceBody
  repeat' split
  all_goals simp

@[simp] theorem Env.recTrap_mem (e : Env) (cause : Nat) (idx : Nat) : (Env.recTrap e cause idx).state.mem = e.s.mem := by
  simp [Env.recTrap]

@[simp] theorem recsetWith_wf {a : Sel} {f : Nat → Nat → Env → Res} {e : Env} (hf : ∀ c i, Memory.wf (f c i e).state.mem = true)
    (h : Memory.wf e.s.mem = true) : Memory.wf (recsetWith a f e).state.mem = true := by
  unfold recsetWith
  repeat' split
  all_goals simp [hf, h]

@[simp] theorem binitBody_mem (k : Nat) (absorb : Bool) (crew : Bool) (a : Sel) (b : Sel) (e : Env) :
    (binitBody k absorb crew a b e).state.mem = e.s.mem := by
  refine crewBody_mem fun c l => ?_
  dsimp only
  repeat' split
  all_goals simp

@[simp] theorem bexpectBy_mem (k : Nat) (bytes : Nat → Nat) (e : Env) : (bexpectBy k bytes e).state.mem = e.s.mem := by
  refine crewBody_mem fun c l => ?_
  repeat' split
  all_goals simp

@[simp] theorem bexpectBody_mem (k : Nat) (imm : Word) (e : Env) : (bexpectBody k imm e).state.mem = e.s.mem := by
  simp [bexpectBody]

@[simp] theorem bexpectRegBody_mem (k : Nat) (a : Sel) (e : Env) : (bexpectRegBody k a e).state.mem = e.s.mem := by
  simp [bexpectRegBody]

@[simp] theorem barriveBody_mem (k : Nat) (sib : Option Sel) (b : Sel) (e : Env) :
    (barriveBody k sib b e).state.mem = e.s.mem := by
  refine crewBody_mem fun c l => ?_
  dsimp only
  repeat' split
  all_goals simp

@[simp] theorem bwaitBody_mem (k : Nat) (phase : Option Sel) (e : Env) : (bwaitBody k phase e).state.mem = e.s.mem := by
  refine crewBody_mem fun c l => ?_
  dsimp only
  repeat' split
  all_goals simp

@[simp] theorem btestBody_mem (k : Nat) (word : Nat) (d : Sel) (e : Env) : (btestBody k word d e).state.mem = e.s.mem := by
  exact crewBody_mem fun c l => by simp

@[simp] theorem branchBody_mem (link : Bool) (p : Nat) (pn : Bool) (off : BitVec 18) (e : Env) :
    (branchBody link p pn off e).state.mem = e.s.mem := by
  unfold branchBody
  repeat' split
  all_goals simp

@[simp] theorem jmpfBody_mem (p : Nat) (pn : Bool) (seg : Nat) (word : Nat) (e : Env) :
    (jmpfBody p pn seg word e).state.mem = e.s.mem := by
  unfold jmpfBody
  dsimp only
  repeat' split
  all_goals simp

@[simp] theorem indirectBody_mem (r : Sel) (e : Env) : (indirectBody r e).state.mem = e.s.mem := by
  unfold indirectBody
  dsimp only
  repeat' split
  all_goals simp

@[simp] theorem trapBody_mem (n : Nat) (e : Env) : (trapBody n e).state.mem = e.s.mem := by
  unfold trapBody
  split <;> simp

@[simp] theorem excrdBody_mem (d : Sel) (a : Sel) (e : Env) : (excrdBody d a e).state.mem = e.s.mem := by
  simp [excrdBody]

@[simp] theorem mcallBody_mem (m : Nat) (sels : List Sel) (e : Env) : (mcallBody m sels e).state.mem = e.s.mem := by
  unfold mcallBody
  repeat' split
  all_goals simp

@[simp] theorem crewBody_wf {k : Nat → Nat → Res} {e : Env} (hk : ∀ c l, Memory.wf (k c l).state.mem = true)
    (h : Memory.wf e.s.mem = true) : Memory.wf (crewBody k e).state.mem = true := by
  unfold crewBody
  repeat' split
  all_goals simp [hk, h]

@[simp] theorem icfetchCommon_wf {seg : Env → Nat → Nat} {drop : Bool} {k : Nat → Nat → Nat → Env → Res} {e : Env}
    (hk : ∀ c l sg, Memory.wf (k c l sg e).state.mem = true) (h : Memory.wf e.s.mem = true) :
    Memory.wf (icfetchCommon seg drop k e).state.mem = true := by
  refine crewBody_wf (fun c l => ?_) h
  dsimp only
  repeat' split
  all_goals simp [hk, h]

theorem Env.imageSource_error_mem {e : Env} {tables : State} {c dom va : Nat} {r : Res} (h : e.imageSource tables c dom va = .error r) :
    r.state.mem = e.s.mem := by
  unfold Env.imageSource at h
  dsimp only at h
  split at h <;> cases h
  rfl

theorem Env.imageSource_ok_mem {e : Env} {tables : State} {c dom va : Nat} {p : State × List Span}
    (h : e.imageSource tables c dom va = .ok p) : p.1.mem = e.s.mem := by
  unfold Env.imageSource at h
  dsimp only at h
  split at h <;> cases h
  simp

@[simp] theorem Env.fetchInto_mem (e : Env) (seg dom va : Nat) (spad : Bool) {src : Except Res (State × List Span)}
    (he : ∀ r, src = .error r → r.state.mem = e.s.mem) (hs : ∀ p, src = .ok p → p.1.mem = e.s.mem) :
    (e.fetchInto seg dom va spad src).state.mem = e.s.mem := by
  unfold Env.fetchInto
  extract_lets s0 core done count
  have hd (s : State) : (done s).state.mem = s.mem := by
    unfold done
    simp
  have hc (s : State) (k : Nat) : (count s k).mem = s.mem := by
    unfold count
    dsimp only
    split <;> simp
  repeat' split
  all_goals try simp only [hd, hc, s0]
  all_goals simp_all

@[simp] theorem icfetchSpadBody_wf (a b : Sel) {e : Env} (h : Memory.wf e.s.mem = true) :
    Memory.wf (icfetchSpadBody a b e).state.mem = true := by
  refine icfetchCommon_wf (fun c l sg => ?_) h
  dsimp only
  split
  · simpa using h
  split
  · simpa using h
  · rw [Env.fetchInto_mem _ _ _ _ _ (fun _ hr => by cases hr) (fun _ hr => by cases hr; rfl)]
    exact h

@[simp] theorem icfetchDropBody_wf (r : SegRef) {e : Env} (h : Memory.wf e.s.mem = true) :
    Memory.wf (icfetchDropBody r e).state.mem = true := by
  refine icfetchCommon_wf (fun c l sg => ?_) h
  simpa using h

@[simp] theorem joinBody_mem (nw : Bool) (d : Sel) (a : Sel) (b : Sel) (e : Env) : (joinBody nw d a b e).state.mem = e.s.mem := by
  unfold joinBody
  dsimp only
  repeat' split
  all_goals simp

@[simp] theorem leaveBody_mem (e : Env) : (leaveBody e).state.mem = e.s.mem := by
  unfold leaveBody
  split <;> simp

@[simp] theorem regangBody_mem (e : Env) : (regangBody e).state.mem = e.s.mem := by
  unfold regangBody
  dsimp only
  repeat' split
  all_goals simp

@[simp] theorem yieldBody_mem (e : Env) : (yieldBody e).state.mem = e.s.mem := by
  simp [yieldBody]

@[simp] theorem exitBody_mem (e : Env) : (exitBody e).state.mem = e.s.mem := by
  unfold exitBody
  split <;> simp

@[simp] theorem Env.gatherTrap_mem (e : Env) (c : Nat) (gs : List Gathered) (cause : Nat) (detail : List Word) :
    (Env.gatherTrap e c gs cause detail).state.mem = e.s.mem := by
  unfold Env.gatherTrap
  repeat' split
  all_goals simp

theorem Env.gateCrew_error_mem {e : Env} {r : Res} (h : e.gateCrew = .error r) : r.state.mem = e.s.mem := by
  unfold Env.gateCrew at h
  repeat' split at h
  all_goals cases h
  all_goals rfl

@[simp] theorem gateBody_wf {k : Nat → List Gathered → Env → Res} {e : Env} (hk : ∀ c gs, Memory.wf (k c gs e).state.mem = true)
    (h : Memory.wf e.s.mem = true) : Memory.wf (gateBody k e).state.mem = true := by
  unfold gateBody
  split
  next heq => simpa [Env.gateCrew_error_mem heq] using h
  · exact h
  split
  · exact h
  split
  · simpa using h
  · exact hk _ _

@[simp] theorem astartBody_mem (d : Sel) (a : Sel) (b : Sel) (e : Env) : (astartBody d a b e).state.mem = e.s.mem := by
  refine crewBody_mem fun c l => ?_
  dsimp only
  repeat' split
  all_goals simp

@[simp] theorem astartStopBody_mem (d : Sel) (e : Env) : (astartStopBody d e).state.mem = e.s.mem := by
  refine crewBody_mem fun c l => ?_
  repeat' split
  all_goals simp

@[simp] theorem apushLanes_mem (e : Env) : (apushLanes e).state.mem = e.s.mem := by
  unfold apushLanes
  split <;> simp

@[simp] theorem vgrdBody_mem (n : Nat) (d : Sel) (e : Env) : (vgrdBody n d e).state.mem = e.s.mem := by
  exact crewBody_mem fun c l => by simp

@[simp] theorem vgwaitBody_mem (n : Option Nat) (e : Env) : (vgwaitBody n e).state.mem = e.s.mem := by
  refine crewBody_mem fun c l => ?_
  dsimp only
  repeat' split
  all_goals simp

end Sys2Proof.Machine
end

section
/-! SUPPORT. Bodies of instructions that wait for items, access scratchpad, streams or memory keep memory canonical. -/

namespace Sys2Proof.Machine

open Sys2Proof Sys2Proof.Safety

-- One proof at a time: side by side they need more threads than a check's memory holds.
set_option Elab.async false

/-! ### Waits -/

/-- Memory is canonical where an instruction goes on, or in its result. -/
def ReadyWf : Except Res State → Prop
  | .error r => Memory.wf r.state.mem = true
  | .ok s => Memory.wf s.mem = true

theorem ReadyWf.error {x : Except Res State} {r : Res} (h : ReadyWf x) (heq : x = .error r) : Memory.wf r.state.mem = true := by
  subst heq
  exact h

theorem ReadyWf.ok {x : Except Res State} {s : State} (h : ReadyWf x) (heq : x = .ok s) : Memory.wf s.mem = true := by
  subst heq
  exact h

theorem Env.settled_wf {e : Env} (ord : Order) (scope : Scope) (dev : Bool) (op : FlightOp) (h : Memory.wf e.s.mem = true) :
    ReadyWf (e.settled ord scope dev op) := by
  unfold Env.settled
  dsimp only
  split <;> simp [ReadyWf, h]

theorem Env.race_wf {e : Env} (wr : Bool) (ra : List RaceAcc) (h : Memory.wf e.s.mem = true) : ReadyWf (e.race wr ra) := by
  cases heq : e.race wr ra with
  | error r => simpa [ReadyWf, Env.race_error_mem heq] using h
  | ok s => simpa [ReadyWf, Env.race_ok_mem heq] using h

theorem Env.walked_wf {e : Env} {reads : State → Nat → List Span} {k : Env → Res}
    (hk : ∀ e, Memory.wf e.s.mem = true → Memory.wf (k e).state.mem = true) (h : Memory.wf e.s.mem = true) :
    Memory.wf (e.walked reads k).state.mem = true := by
  have ht := State.translated_wf e.t e.ls reads h
  unfold Env.walked
  split
  next heq => exact wf_of_fst_eq heq ht
  next heq => exact hk _ (wf_of_fst_eq heq ht)

theorem Env.slotReady_wf {e : Env} (ord : Order) (sc : Scope) (ps : List Piece) (h : Memory.wf e.s.mem = true) :
    ReadyWf (e.slotReady ord sc ps) := by
  have hs := Env.settled_wf ord sc false (slotTouch e.ls ps) h
  unfold Env.slotReady
  split
  next heq => exact hs.error heq
  next heq =>
    have h1 := hs.ok heq
    split
    · simpa [ReadyWf] using h1
    · exact h1

theorem Env.spadSettle_wf {e : Env} (lane : Nat) (rs : List SpadRun) (h : Memory.wf e.s.mem = true) :
    ReadyWf (e.spadSettle lane rs) := by
  unfold Env.spadSettle
  split
  · exact h
  dsimp only
  split <;> simp [ReadyWf, h]

theorem Env.spadReads_wf {e : Env} (lane : Nat) (rs : List SpadRun) (h : Memory.wf e.s.mem = true) :
    ReadyWf (e.spadReads lane rs) := by
  have hs := Env.spadSettle_wf lane rs h
  unfold Env.spadReads
  split
  next heq => exact hs.error heq
  next heq =>
    have h1 := hs.ok heq
    dsimp only
    split
    next heq => simpa [ReadyWf, Env.padCheck_mem heq] using h1
    next => exact Env.race_wf _ _ h1

/-! ### Scratchpad and streams -/

@[simp] theorem ldlkBody_wf (w : Width) (sp : Space) (pt : Nat) (d addr : Sel) (off : Src) {e : Env} (h : Memory.wf e.s.mem = true) :
    Memory.wf (ldlkBody w sp pt d addr off e).state.mem = true := by
  unfold ldlkBody
  split
  · exact h
  split
  · exact h
  split
  · exact h
  next xs _ =>
    have hs := Env.settled_wf .acquire (spaceScope sp) false (spadTouch w xs) h
    split
    next heq => simpa [Env.padCheck_mem heq] using h
    next heq => exact hs.error heq
    next heq =>
      have h1 := hs.ok heq
      dsimp only
      split
      · exact h1
      · simpa using h1

@[simp] theorem atomsApply_wf (t : Nat) (crew : Nat → Nat) (op : AtomOp) (w : Width) (bc : List (Nat × Dword × Dword)) {s : State}
    (xs : List SpadLoc) (h : Memory.wf s.mem = true) : Memory.wf (atomsApply t crew op w bc s xs).1.mem = true :=
  overList_fst_wf (fun _ _ h => by simp [h]) _ h

@[simp] theorem atomsBody_wf (op : AtomOp) (w : Width) (sp : Space) (d : Option Sel) (a b : Sel) (c : Option Sel) {e : Env}
    (h : Memory.wf e.s.mem = true) : Memory.wf (atomsBody op w sp d a b c e).state.mem = true := by
  unfold atomsBody
  split
  · exact h
  split
  · exact h
  dsimp only
  split
  · exact h
  next xs _ =>
    have hs := Env.settled_wf .acqRel (spaceScope sp) false (spadTouch w xs) h
    split
    next heq => exact hs.error heq
    next heq =>
      have h1 := hs.ok heq
      split
      · exact h1
      · simp [h1]

@[simp] theorem stulBody_wf (w : Width) (sp : Space) (d addr : Sel) (off : Src) {e : Env} (h : Memory.wf e.s.mem = true) :
    Memory.wf (stulBody w sp d addr off e).state.mem = true := by
  unfold stulBody
  split
  · exact h
  split
  · exact h
  split
  · exact h
  split
  · exact h
  dsimp only
  split
  · simp [h]
  · simp only [Res.state_ok, State.closeE_mem, State.endE_mem, State.updWg_mem]
    exact overList_wf (fun _ _ h => by simp [h]) _ (by simp [h])

@[simp] theorem qrdBody_wf (n : Nat) (d : Sel) {e : Env} (h : Memory.wf e.s.mem = true) : Memory.wf (qrdBody n d e).state.mem = true := by
  refine crewBody_wf (fun c l => ?_) h
  dsimp only
  split
  · exact h
  split
  · exact h
  have hs := Env.settled_wf .acquire (e.s.stream e.t c n).scope false .nop h
  split
  next heq => exact hs.error heq
  next heq => simpa using hs.ok heq

@[simp] theorem commitBody_wf (n : Nat) (a : Sel) {e : Env} (h : Memory.wf e.s.mem = true) : Memory.wf (commitBody n a e).state.mem = true := by
  refine crewBody_wf (fun c l => ?_) h
  dsimp only
  split
  · exact h
  have hs := Env.settled_wf .release (e.s.stream e.t c n).scope false .nop h
  split
  next heq => exact hs.error heq
  next heq => simpa using hs.ok heq

@[simp] theorem unpkdBody_wf (ty : FType) (nw : Bool) (d a b c : Sel) {e : Env} (h : Memory.wf e.s.mem = true) :
    Memory.wf (unpkdBody ty nw d a b c e).state.mem = true := by
  unfold unpkdBody
  split
  · exact h
  dsimp only
  split
  next heq => exact (Env.spadSettle_wf _ _ h).error heq
  next heq =>
    have h0 := (Env.spadSettle_wf _ _ h).ok heq
    split
    next heq => exact (Env.spadReads_wf _ _ h0).error heq
    next heq => simpa using (Env.spadReads_wf _ _ h0).ok heq

@[simp] theorem unpkzBody_wf (ty : FType) (nw : Bool) (d a : Sel) {e : Env} (h : Memory.wf e.s.mem = true) :
    Memory.wf (unpkzBody ty nw d a e).state.mem = true := by
  unfold unpkzBody
  split
  · exact h
  dsimp only
  split
  next heq => exact (Env.spadSettle_wf _ _ h).error heq
  next heq =>
    have h0 := (Env.spadSettle_wf _ _ h).ok heq
    split
    next heq => exact (Env.spadReads_wf _ _ h0).error heq
    next heq => simpa using (Env.spadReads_wf _ _ h0).ok heq

@[simp] theorem unpkrBody_wf (ty : FType) (nw : Bool) (rc : RoundCtl) (d a b c : Sel) {e : Env} (h : Memory.wf e.s.mem = true) :
    Memory.wf (unpkrBody ty nw rc d a b c e).state.mem = true := by
  unfold unpkrBody
  split
  · exact h
  dsimp only
  split
  next heq => exact (Env.spadReads_wf _ _ h).error heq
  next heq => simpa using (Env.spadReads_wf _ _ h).ok heq

/-! ### Device memory -/

/-- Memory is canonical after an instruction's accesses to windows. -/
def WinRunWf : Except Res (State × List (Nat × Nat)) → Prop
  | .error r => Memory.wf r.state.mem = true
  | .ok p => Memory.wf p.1.mem = true

theorem Env.winRun_wf {e : Env} {s : State} (ord : Order) (sc : Scope) (as : List LaneAcc) (ws : List WinAcc)
    (h : Memory.wf s.mem = true) : WinRunWf (e.winRun s ord sc as ws) := by
  unfold Env.winRun
  split
  · exact h
  extract_lets r
  have hr : Memory.wf r.1.mem = true := State.settleFor_wf _ _ h
  split
  · exact hr
  · have hw := State.winAccess_wf ws [] hr hr
    split <;> next heq => simpa [heq, WinOut.Wf, WinRunWf, hr] using hw

theorem Env.dmAccess_wf {e : Env} (sp : AccSpec) (ord : Order) (sc : Scope) (st : Option Sel) (plain : Bool) (reqs : List LaneReq)
    (pre : List LaneFault) (val : Nat → Option Nat) (wd : Option (Sel × Nat)) (op : State → List LaneAcc → FlightOp) (swept : Bool)
    (h : Memory.wf e.s.mem = true) : Memory.wf (e.dmAccess sp ord sc st plain reqs pre val wd op swept).state.mem = true := by
  unfold Env.dmAccess
  split
  · exact h
  split
  next heq => exact State.wf_of_access_trap heq h
  next heq => exact State.wf_of_access_park heq h
  next s as heq =>
    have h1 := State.wf_of_access_ok heq h
    split
    · exact h
    dsimp only
    split
    next heq => exact (heq ▸ Env.winRun_wf _ _ _ _ h : WinRunWf (.error _))
    next heq _ => exact (heq ▸ Env.winRun_wf _ _ _ _ h1 : WinRunWf (.error _))
    next s1 vals heq _ =>
      have h2 : Memory.wf s1.mem = true := (heq ▸ Env.winRun_wf _ _ _ _ h1 : WinRunWf (.ok (s1, vals)))
      split <;> simpa using h2

@[simp] theorem ldBody_wf (w : Width) (ord : Order) (sc : Scope) (nw swept : Bool) (addr : MemAddr) (data : Sel) (st : Option Sel) {e : Env}
    (h : Memory.wf e.s.mem = true) : Memory.wf (ldBody w ord sc nw swept addr data st e).state.mem = true :=
  Env.dmAccess_wf _ _ _ _ _ _ _ _ _ _ _ h

@[simp] theorem stBody_wf (w : Width) (ord : Order) (sc : Scope) (addr : MemAddr) (data : Sel) (st : Option Sel) {e : Env}
    (h : Memory.wf e.s.mem = true) : Memory.wf (stBody w ord sc addr data st e).state.mem = true := by
  unfold stBody
  exact Env.dmAccess_wf _ _ _ _ _ _ _ _ _ _ _ h

theorem Env.tensor_wf {e : Env} (o : TensorAcc) (sp : AccSpec) (wd : Option (Sel × Nat)) (op : State → List LaneAcc → FlightOp)
    (swept : Bool) (h : Memory.wf e.s.mem = true) : Memory.wf (e.tensor o sp wd op swept).state.mem = true := by
  unfold Env.tensor
  refine Env.walked_wf (fun e h => ?_) h
  extract_lets rs bad reqs keep
  have hd := Env.dmAccess_wf sp .relaxed .crew o.st true reqs bad (fun _ => none) wd op swept h
  split
  next heq =>
    rw [heq] at hd
    exact overList_wf (fun _ _ h => by simp [h]) _ hd
  next => exact hd

@[simp] theorem ldtBody_wf (o : TensorAcc) {e : Env} (h : Memory.wf e.s.mem = true) : Memory.wf (ldtBody o e).state.mem = true :=
  Env.tensor_wf _ _ _ _ _ h

@[simp] theorem sttBody_wf (o : TensorAcc) {e : Env} (h : Memory.wf e.s.mem = true) : Memory.wf (sttBody o e).state.mem = true :=
  Env.tensor_wf _ _ _ _ _ h

theorem Env.atomic_wf (o : RecAtom) (d : Option Sel) (n : Nat) {e : Env} (h : Memory.wf e.s.mem = true) :
    Memory.wf (Env.atomic o d n e).state.mem = true := by
  rw [Env.atomic]
  have hd := Env.dmAccess_wf (e := e) { z := wbytes o.w, write := true, strict := true, noSenc := true } o.ord o.scope o.st false
    (e.ls.map (e.offReq o.rcd o.off)) [] (fun _ => none) none
    (atomItem o d fun l => e.regs l o.data n (popsIn ((o.off, 1) :: o.rcd.sels)) 8) false h
  split
  next heq =>
    rw [heq] at hd
    simpa using hd
  next => exact hd

@[simp] theorem atomBody_wf (o : RecAtom) {e : Env} (h : Memory.wf e.s.mem = true) : Memory.wf (atomBody o e).state.mem = true :=
  Env.atomic_wf _ _ _ h

@[simp] theorem redBody_wf (o : RecAtom) {e : Env} (h : Memory.wf e.s.mem = true) : Memory.wf (redBody o e).state.mem = true :=
  Env.atomic_wf _ _ _ h

@[simp] theorem mmamBody_wf (c : Nat) (a : MOperand) (fmt x1 : Sel) (rcd : Nat) {e : Env} (h : Memory.wf e.s.mem = true) :
    Memory.wf (mmamBody c a fmt x1 rcd e).state.mem = true := by
  unfold mmamBody
  split
  · exact h
  dsimp only
  split
  next heq => simpa [Env.matVote_mem heq] using h
  split
  · exact h
  split
  next heq => exact State.wf_of_access_trap heq h
  next heq => exact State.wf_of_access_park heq h
  next heq => simpa using State.wf_of_access_ok heq h

/-! ### Prefetches and monitors -/

theorem Env.prefWalked_wf {e : Env} (rcd : RecRef) (off : Sel) {k : Env → Res}
    (hk : ∀ e, Memory.wf e.s.mem = true → Memory.wf (k e).state.mem = true) (h : Memory.wf e.s.mem = true) :
    Memory.wf (e.prefWalked rcd off k).state.mem = true := Env.walked_wf hk h

@[simp] theorem prefL1Body_wf (rcd : RecRef) (off : Sel) {e : Env} (h : Memory.wf e.s.mem = true) :
    Memory.wf (prefL1Body rcd off e).state.mem = true := by
  refine Env.prefWalked_wf _ _ (fun e h => overList_wf (fun s ln h => ?_) _ (by simpa using h)) h
  split
  · exact h
  split
  next heq => simpa using State.seenBy_wf heq h
  next => exact h

@[simp] theorem prefL2Body_wf (rcd : RecRef) (off : Sel) {e : Env} (h : Memory.wf e.s.mem = true) :
    Memory.wf (prefL2Body rcd off e).state.mem = true := Env.prefWalked_wf _ _ (fun e h => by simpa using h) h

@[simp] theorem prefPageinBody_wf (rcd : RecRef) (off : Sel) {e : Env} (h : Memory.wf e.s.mem = true) :
    Memory.wf (prefPageinBody rcd off e).state.mem = true := by
  refine Env.prefWalked_wf _ _ (fun e h => ?_) h
  dsimp only
  split <;> simp [h]

@[simp] theorem monitorBody_wf (w : Width) (acq : Bool) (sc : Scope) (nw : Bool) (rcd : RecRef) (off data : Sel) (st : Option Sel) {e : Env}
    (h : Memory.wf e.s.mem = true) : Memory.wf (monitorBody w acq sc nw rcd off data st e).state.mem = true := by
  unfold monitorBody
  split
  · exact h
  split
  next heq => exact State.wf_of_access_trap heq h
  next heq => exact State.wf_of_access_park heq h
  next s as heq =>
    have h1 := State.wf_of_access_ok heq h
    extract_lets ord waits pend r
    have hr : Memory.wf r.1.mem = true := State.settleFor_wf _ _ h1
    split
    · exact h1
    split
    · exact hr
    · exact hr
    · simp only [Res.state_ok, State.closeE_mem, State.endE_mem, State.acquired_mem]
      exact overList_fst_wf (fun _ _ h => by simp [h]) _ hr

/-! ### Records and tiles -/

theorem Env.withRec_wf {e : Env} (c i : Nat) (more : State → Nat → List Span) {k : Env → Res}
    (hk : ∀ e, Memory.wf e.s.mem = true → Memory.wf (k e).state.mem = true) (h : Memory.wf e.s.mem = true) :
    Memory.wf (e.withRec c i more k).state.mem = true := Env.walked_wf (fun _ h => hk _ (by simpa using h)) h

@[simp] theorem Env.putSlot_wf (e : Env) {s : State} (ps : List Piece) (bs : List Byte) (h : Memory.wf s.mem = true) :
    Memory.wf (e.putSlot s ps bs).mem = true :=
  overList_wf (fun _ _ h => by split <;> simp [h]) _ h

@[simp] theorem Env.putRec_wf (e : Env) {s : State} (c idx : Nat) (ws : List Word) (ps : List Piece) (h : Memory.wf s.mem = true) :
    Memory.wf (e.putRec s c idx ws ps).mem = true := by
  simp [Env.putRec, h]

@[simp] theorem publishBody_wf (a : Sel) {e : Env} (h : Memory.wf e.s.mem = true) : Memory.wf (publishBody a e).state.mem = true := by
  unfold publishBody
  split
  · exact h
  split
  · exact h
  refine Env.withRec_wf _ _ _ (fun e h => ?_) h
  split
  · split <;> simpa using h
  dsimp only
  split
  · simpa using h
  split
  · simpa using h
  split
  · exact h
  have hr := fun ps => Env.slotReady_wf .release .device ps h
  split
  next heq => exact (hr _).error heq
  next heq => simp [(hr _).ok heq]

theorem recsetNew_wf (g c idx : Nat) {e : Env} (h : Memory.wf e.s.mem = true) : Memory.wf (recsetNew g c idx e).state.mem = true := by
  refine Env.withRec_wf _ _ _ (fun e h => ?_) h
  dsimp only
  split
  · simpa using h
  split
  · simpa using h
  split
  · simpa using h
  split
  · exact h
  have hr := fun ps => Env.slotReady_wf .relaxed .device ps h
  split
  next heq => exact (hr _).error heq
  next heq => simp [(hr _).ok heq]

@[simp] theorem recsetBody_wf (a : Sel) (g : Nat) {e : Env} (h : Memory.wf e.s.mem = true) : Memory.wf (recsetBody a g e).state.mem = true :=
  recsetWith_wf (fun _ _ => recsetNew_wf _ _ _ h) h

theorem recsetLoad_wf (shape : Bool) (c idx : Nat) {e : Env} (h : Memory.wf e.s.mem = true) :
    Memory.wf (recsetLoad shape c idx e).state.mem = true := by
  have hk (k : Env → Res) (hk : ∀ e, Memory.wf e.s.mem = true → Memory.wf (k e).state.mem = true) :
      Memory.wf ((if shape then e.walked (e.slotWalk c (idx % 64) shape) else e.withRec c idx (e.slotWalk c idx shape)) k).state.mem = true := by
    split
    · exact Env.walked_wf hk h
    · exact Env.withRec_wf _ _ _ hk h
  refine hk _ fun e h => ?_
  extract_lets tb i
  split
  · simpa using h
  split
  · simpa using h
  split
  · exact h
  have hr := fun ps => Env.slotReady_wf .relaxed .device ps h
  split
  next heq => exact (hr _).error heq
  next heq =>
    have h1 := (hr _).ok heq
    split
    · simpa using h1
    dsimp only
    split
    · simpa using h
    · simp [h1]

@[simp] theorem recsetReloadBody_wf (a : Sel) {e : Env} (h : Memory.wf e.s.mem = true) : Memory.wf (recsetReloadBody a e).state.mem = true :=
  recsetWith_wf (fun _ _ => recsetLoad_wf _ _ _ h) h

@[simp] theorem recsetShapeBody_wf (a : Sel) {e : Env} (h : Memory.wf e.s.mem = true) : Memory.wf (recsetShapeBody a e).state.mem = true :=
  recsetWith_wf (fun _ _ => recsetLoad_wf _ _ _ h) h

theorem tileWith_wf (wr : Bool) (rcd : RecRef) (off : Sel) {f : State → List TileAcc → Res} {e : Env}
    (hf : ∀ s as, Memory.wf s.mem = true → Memory.wf (f s as).state.mem = true) (h : Memory.wf e.s.mem = true) :
    Memory.wf (tileWith wr rcd off f e).state.mem = true := by
  unfold tileWith
  split
  · exact h
  refine Env.walked_wf (fun e h => ?_) h
  extract_lets rs fs as
  split
  · exact h
  have hs := Env.settled_wf .relaxed .device false (tileTouch as) h
  split
  next heq => exact hs.error heq
  next heq =>
    have h1 := hs.ok heq
    split
    · exact h1
    split
    next hq => simpa [State.mcTrap_mem hq] using h1
    next => exact hf _ _ h1

@[simp] theorem State.pinLanes_wf {s : State} (core : Nat) (pin : Bool) (as : List TileAcc) (h : Memory.wf s.mem = true) :
    Memory.wf (s.pinLanes core pin as).1.mem = true := by
  refine overList_fst_wf (fun r a h => ?_) _ h
  split
  · exact h
  · dsimp only
    split <;> simp [h]

theorem pinRun_wf (pin : Bool) (st : Option Sel) (e : Env) {s : State} (as : List TileAcc) (h : Memory.wf s.mem = true) :
    Memory.wf (pinRun pin st e s as).state.mem = true := by
  unfold pinRun
  dsimp only
  split
  · exact h
  split
  · exact h
  · split <;> simp [h]

@[simp] theorem pinBody_wf (rcd : RecRef) (off st : Sel) {e : Env} (h : Memory.wf e.s.mem = true) :
    Memory.wf (pinBody rcd off st e).state.mem = true := tileWith_wf _ _ _ (fun _ _ => pinRun_wf _ _ _ _) h

@[simp] theorem unpinBody_wf (rcd : RecRef) (off : Sel) {e : Env} (h : Memory.wf e.s.mem = true) :
    Memory.wf (unpinBody rcd off e).state.mem = true := tileWith_wf _ _ _ (fun _ _ => pinRun_wf _ _ _ _) h

theorem resqRun_wf (fetch : Bool) (d : Sel) (st : Option Sel) (e : Env) {s : State} (as : List TileAcc) (h : Memory.wf s.mem = true) :
    Memory.wf (resqRun fetch d st e s as).state.mem = true := by
  unfold resqRun
  dsimp only
  split
  · exact h
  · split <;> simp [h]

@[simp] theorem resqBody_wf (fetch : Bool) (rcd : RecRef) (off d : Sel) (st : Option Sel) {e : Env} (h : Memory.wf e.s.mem = true) :
    Memory.wf (resqBody fetch rcd off d st e).state.mem = true := tileWith_wf _ _ _ (fun _ _ => resqRun_wf _ _ _ _ _) h

end Sys2Proof.Machine
end

section
/-! SUPPORT. Bodies of posts, sweeps, gates, traps, fetches and translations, and those of Apprentices and the Sorter, keep memory
canonical. -/

namespace Sys2Proof.Machine

open Sys2Proof Sys2Proof.Safety

-- One proof at a time: side by side they need more threads than a check's memory holds.
set_option Elab.async false

/-! ### Posts and watermarks -/

theorem Env.hdrTrap_mem {e : Env} {s : State} {pa : Nat} {r : State × TrapReq} (h : e.hdrTrap s pa = some r) : r.1.mem = s.mem :=
  State.mcTrap_mem h

/-- A result leaves memory canonical. -/
def Res.Wf (r : Res) : Prop := Memory.wf r.state.mem = true

theorem Env.afterClaim_wf (e : Env) {s : State} (c low : Nat) (q : QueueRef) (n : Nat) (d : Sel) (ws : List Nat)
    (h : Memory.wf s.mem = true) : (e.afterClaim s c low q n d ws).Wf := by
  have ht (va : Nat) := State.translated_wf e.t e.ls (e.walkAt (e.w.crew c).domain fun _ => [va]) h
  fun_cases Env.afterClaim
  case case1 pend wait _ => simpa [Res.Wf, wait] using h
  case case2 pend stop _ q hr => simpa [Res.Wf, stop, Env.hdrTrap_mem hr] using h
  case case3 pend wait _ _ hd _ => simpa [Res.Wf, wait] using h
  case case4 pend wait _ _ hd _ s1 p hs => simpa [Res.Wf, wait] using wf_of_fst_eq hs (ht _)
  case case5 pend stop _ _ hd _ s1 hs r _ => simpa [Res.Wf, stop] using wf_of_fst_eq hs (ht _)
  case case6 hs _ _ _ => simpa [Res.Wf] using wf_of_fst_eq hs (ht _)

/-- Where a packet image cannot be read, its result leaves memory as it stands. -/
def SourceKeeps (src : PacketSource) : Prop := ∀ low e r, src low e = .error r → r.state.mem = e.s.mem

theorem epostImage_keeps (i : Sel) (j : Nat) : SourceKeeps (epostImage i j) := by
  intro low e r h
  unfold epostImage at h
  dsimp only at h
  split at h
  · cases h
    rfl
  split at h
  · cases h
    rfl
  split at h <;> cases h
  next heq => exact Env.padCheck_mem heq

theorem copyImage_keeps (tgt stream : Bool) (g j : Nat) : SourceKeeps (copyImage tgt stream g j) := fun _ _ _ h => nomatch h

theorem Env.claimPost_wf {e : Env} (c low idx : Nat) (d : Sel) {src : PacketSource} (hs : SourceKeeps src) (h : Memory.wf e.s.mem = true) :
    Memory.wf (e.claimPost c low idx d src).state.mem = true := by
  unfold Env.claimPost
  split
  · exact h
  next ref _ =>
    split
    next heq => simpa [hs _ _ _ heq] using h
    next locs heq =>
      have hr := Env.settled_wf .relaxed .device false (lineTouch low (.phys ref.pa :: locs)) h
      split
      next heq => exact hr.error heq
      next heq =>
        have h1 := hr.ok heq
        split
        · exact h1
        dsimp only
        split
        next heq => simpa [Env.hdrTrap_mem heq] using h1
        next heq => simpa [hs _ _ _ heq] using h1
        split
        · exact h1
        split
        · exact h1
        split
        · exact h1
        · exact Env.afterClaim_wf _ _ _ _ _ _ _ (by simp [h1])

@[simp] theorem postBody_wf (d q : Sel) {src : PacketSource} (hs : SourceKeeps src) {e : Env} (h : Memory.wf e.s.mem = true) :
    Memory.wf (postBody d q src e).state.mem = true := by
  refine crewBody_wf (fun c l => ?_) h
  split
  · split
    · exact h
    · exact Env.afterClaim_wf _ _ _ _ _ _ _ h
  · exact Env.withRec_wf _ _ _ (fun _ h => Env.claimPost_wf _ _ _ _ hs h) h

@[simp] theorem epostBody_wf (d q i : Sel) {e : Env} (h : Memory.wf e.s.mem = true) : Memory.wf (epostBody d q i e).state.mem = true :=
  postBody_wf _ _ (epostImage_keeps _ _) h

@[simp] theorem copyBody_wf (tgt stream : Bool) (d q : Sel) (g : Nat) {e : Env} (h : Memory.wf e.s.mem = true) :
    Memory.wf (copyBody tgt stream d q g e).state.mem = true := postBody_wf _ _ (copyImage_keeps _ _ _ _) h

@[simp] theorem eseqBody_wf (d q : Sel) (thr : Option Sel) {e : Env} (h : Memory.wf e.s.mem = true) :
    Memory.wf (eseqBody d q thr e).state.mem = true := by
  refine crewBody_wf (fun c low => Env.withRec_wf _ _ _ (fun e h => ?_) h) h
  split
  · exact h
  next ref _ =>
    have hr := Env.settled_wf .acquire .device false (lineTouch low [.phys ref.pa]) h
    split
    next heq => exact hr.error heq
    next heq =>
      have h1 := hr.ok heq
      split
      · exact h1
      split
      next heq => simpa [Env.hdrTrap_mem heq] using h1
      dsimp only
      split
      · exact h
      split
      · simpa using h1
      · split
        · simpa using h1
        · exact h1

/-! ### Sweeps -/

@[simp] theorem sweepBody_wf (r : Sel) (waiting : Bool) {f : Nat → Nat → Nat → Env → Res} {e : Env}
    (hf : ∀ c low g e, Memory.wf e.s.mem = true → Memory.wf (f c low g e).state.mem = true) (h : Memory.wf e.s.mem = true) :
    Memory.wf (sweepBody r waiting f e).state.mem = true := by
  refine crewBody_wf (fun c low => Env.withRec_wf _ _ _ (fun e h => ?_) h) h
  dsimp only
  split
  · split <;> exact h
  split
  · exact h
  split
  · exact h
  split
  · exact h
  · exact hf _ _ _ _ h

@[simp] theorem swregBody_wf (d r : Sel) (i : Nat) {e : Env} (h : Memory.wf e.s.mem = true) : Memory.wf (swregBody d r i e).state.mem = true := by
  refine sweepBody_wf _ _ (fun c low g e h => ?_) h
  extract_lets img dom p x
  split
  · exact h
  split
  · exact h
  split
  · exact h
  have hr := Env.settled_wf .release .device false .fence h
  split
  next heq => exact hr.error heq
  next heq => simpa using hr.ok heq

@[simp] theorem swderegBody_wf (r x : Sel) {e : Env} (h : Memory.wf e.s.mem = true) : Memory.wf (swderegBody r x e).state.mem = true := by
  refine sweepBody_wf _ _ (fun c low g e h => ?_) h
  dsimp only
  split
  · exact h
  have hr := Env.settled_wf .release .device false .fence h
  split
  next heq => exact hr.error heq
  next heq => simpa using hr.ok heq

@[simp] theorem swwaitBody_wf (r : Sel) (x : Option Sel) {e : Env} (h : Memory.wf e.s.mem = true) :
    Memory.wf (swwaitBody r x e).state.mem = true := by
  refine sweepBody_wf _ _ (fun c low g e h => ?_) h
  extract_lets p dom start now
  cases now with
  | none => exact h
  | some es => dsimp only; split <;> simpa using h

@[simp] theorem swposBody_wf (d r : Sel) {e : Env} (h : Memory.wf e.s.mem = true) : Memory.wf (swposBody d r e).state.mem = true :=
  sweepBody_wf _ _ (fun _ _ _ _ h => by simpa using h) h

@[simp] theorem swforceBody_wf (r x : Sel) {e : Env} (h : Memory.wf e.s.mem = true) : Memory.wf (swforceBody r x e).state.mem = true := by
  refine sweepBody_wf _ _ (fun c low g e h => ?_) h
  dsimp only
  split
  · exact h
  split
  · exact h
  have hr := Env.settled_wf .release .device false .fence h
  split
  next heq => exact hr.error heq
  next heq =>
    have h1 := hr.ok heq
    split <;> simpa using h1

/-! ### Handlers and gates -/

theorem Env.tret_wf {e : Env} (abort : Bool) (ti : TrapIssue) (h : Memory.wf e.s.mem = true) :
    Memory.wf (e.tret abort ti).state.mem = true := by
  unfold Env.tret
  extract_lets tc hl others wait drained
  have hw (s : State) (h : Memory.wf s.mem = true) : Memory.wf (wait s).state.mem = true := h
  split
  · exact hw _ h
  split
  · exact h
  split
  · exact hw _ h
  have hs := State.settleFor_wf e.t (e.s.asItem e.t hl .acqRel .device false .fence) h
  split
  next heq => exact hw _ (wf_of_fst_eq heq hs)
  next heq =>
    have h1 := wf_of_fst_eq heq hs
    dsimp only
    split <;> simpa using h1

@[simp] theorem tretBody_wf (abort : Bool) {e : Env} (h : Memory.wf e.s.mem = true) : Memory.wf (tretBody abort e).state.mem = true := by
  unfold tretBody
  extract_lets key
  split
  · exact h
  split
  · split
    · exact Env.tret_wf _ _ h
    · exact h
  · exact h
  · exact h
  · exact h

theorem Env.gateDrain_wf {e : Env} (c : Nat) (matrix : Bool) (h : Memory.wf e.s.mem = true) : ReadyWf (e.gateDrain c matrix) := by
  unfold Env.gateDrain
  split
  · exact h
  have hs := State.settleFor_wf e.t (e.s.asItem e.t (e.w.members c) .acqRel .device false .fence) h
  split
  next heq => exact (wf_of_fst_eq heq hs : Memory.wf _ = true)
  next heq => simpa [ReadyWf] using wf_of_fst_eq heq hs

@[simp] theorem gcallBody_wf (a : Option Sel) (idx : Nat) {e : Env} (h : Memory.wf e.s.mem = true) :
    Memory.wf (gcallBody a idx e).state.mem = true := by
  unfold gcallBody
  split
  · exact h
  refine gateBody_wf (fun c gs => ?_) h
  refine Env.walked_wf (fun e h => ?_) h
  dsimp only
  split
  · simpa using h
  split
  next heq => exact (Env.gateDrain_wf _ _ h).error heq
  next heq => simpa using (Env.gateDrain_wf _ _ h).ok heq

@[simp] theorem gretBody_wf {e : Env} (h : Memory.wf e.s.mem = true) : Memory.wf (gretBody e).state.mem = true := by
  refine gateBody_wf (fun c gs => ?_) h
  split
  · simpa using h
  split
  next heq => exact (Env.gateDrain_wf _ _ h).error heq
  next heq => exact overList_wf (fun _ _ h => by simpa using h) _ (by simpa using (Env.gateDrain_wf _ _ h).ok heq)

/-! ### Fetches, nodes, translations -/

theorem Env.fetchInto_wf {e : Env} (seg dom va : Nat) (spad : Bool) {tables : State} {c dom' va' : Nat} (h : Memory.wf e.s.mem = true) :
    Memory.wf (e.fetchInto seg dom va spad (e.imageSource tables c dom' va')).state.mem = true := by
  rw [Env.fetchInto_mem _ _ _ _ _ (fun _ => Env.imageSource_error_mem) (fun _ => Env.imageSource_ok_mem)]
  exact h

@[simp] theorem icfetchBody_wf (r : SegRef) {e : Env} (h : Memory.wf e.s.mem = true) : Memory.wf (icfetchBody r e).state.mem = true := by
  refine icfetchCommon_wf (fun c l sg => ?_) h
  exact Env.walked_wf (fun _ h => Env.fetchInto_wf _ _ _ _ h) h

@[simp] theorem icfetchGateBody_wf (a x : Sel) {e : Env} (h : Memory.wf e.s.mem = true) :
    Memory.wf (icfetchGateBody a x e).state.mem = true := by
  refine icfetchCommon_wf (fun c l sg => Env.walked_wf (fun e h => ?_) h) h
  dsimp only
  split
  · exact h
  split
  · exact h
  · exact Env.walked_wf (fun _ h => Env.fetchInto_wf _ _ _ _ h) h

theorem nodepostAt_wf (d : Sel) (va dom : Nat) (handler : Bool) {e : Env} (h : Memory.wf e.s.mem = true) :
    Memory.wf (nodepostAt d va dom handler e).state.mem = true := by
  unfold nodepostAt
  extract_lets s x spans ws n super s2 r
  split
  · exact h
  split
  · exact h
  next heq => simpa [State.mcTrap_mem heq] using h
  split
  · exact h
  split
  · exact h
  · simp [r, s2, s, h]

@[simp] theorem nodepostBody_wf (d : Sel) (a : Nat) {e : Env} (h : Memory.wf e.s.mem = true) :
    Memory.wf (nodepostBody d a e).state.mem = true := by
  refine crewBody_wf (fun c low => ?_) h
  dsimp only
  split
  · exact h
  have hr := Env.settled_wf .release .device false .fence h
  split
  next heq => exact hr.error heq
  next heq => exact Env.walked_wf (fun _ h => nodepostAt_wf _ _ _ _ h) (hr.ok heq)

@[simp] theorem xlinvBody_wf (fn : Nat) (a : Option Nat) (dom : Option Sel) {e : Env} (h : Memory.wf e.s.mem = true) :
    Memory.wf (xlinvBody fn a dom e).state.mem = true := by
  refine crewBody_wf (fun c low => ?_) h
  extract_lets pair own d asks dead
  refine Env.walked_wf (fun e h => ?_) h
  extract_lets super reread finish
  have hf (s : State) (h : Memory.wf s.mem = true) : Memory.wf (finish s).state.mem = true := by
    unfold finish
    split
    · exact h
    · simp only [Res.state_ok, State.closeE_mem, State.endE_mem, State.acquired_mem, State.freeDead_mem]
      unfold reread
      split <;> simpa using h
  split
  · exact h
  split
  · split
    · exact h
    · exact hf _ h
  have hr := Env.settled_wf .release .device false .fence h
  split
  next heq => exact hr.error heq
  next heq =>
    have h1 := hr.ok heq
    dsimp only
    split
    · exact hf _ h1
    · exact h1

@[simp] theorem xlprobeBody_wf (d a : Nat) (dom : Option Sel) {e : Env} (h : Memory.wf e.s.mem = true) :
    Memory.wf (xlprobeBody d a dom e).state.mem = true := by
  unfold xlprobeBody
  split
  · exact h
  extract_lets own
  refine Env.walked_wf (fun e h => ?_) h
  extract_lets super named va
  split
  · exact h
  refine Env.walked_wf (fun e h => ?_) h
  simp only [Res.state_ok, State.updWg_mem]
  exact overList_wf (fun _ _ h => by simpa using h) _ h

/-! ### Apprentices and the Sorter -/

@[simp] theorem State.crewSees_wf {s : State} (t c : Nat) (xs : List Span) (h : Memory.wf s.mem = true) :
    Memory.wf (s.crewSees t c xs).mem = true := State.sendHome_wf _ h

@[simp] theorem State.crewReady_wf {s : State} (t c : Nat) (xs : List Span) (h : Memory.wf s.mem = true) :
    Memory.wf (s.crewReady t c xs).mem = true := by
  simp [State.crewReady, h]

@[simp] theorem State.specIssue_wf {s : State} (t c : Nat) (l : ApprLoad) (h : Memory.wf s.mem = true) :
    Memory.wf (s.specIssue t c l).1.mem = true := by
  unfold State.specIssue
  dsimp only
  split <;> simp [h]

theorem apushLoad_wf (vec : Bool) (x b : Sel) {s : State} (a : Apprentice) (r : ClauseRun) (h : Memory.wf s.mem = true) :
    Memory.wf (apushLoad vec x b s a r).1.mem = true := State.specIssue_wf _ _ _ h

theorem apushAppr_wf (n : Nat) (held : State → Apprentice → ClauseRun → Bool) {mk : State → Apprentice → ClauseRun → State × ApprEntry}
    (hm : ∀ s a r, Memory.wf s.mem = true → Memory.wf (mk s a r).1.mem = true) (s : State) (core u : Nat) (a : Apprentice)
    (r : ClauseRun) (h : Memory.wf s.mem = true) : Memory.wf (apushAppr n held mk s core u a r).state.mem = true := by
  unfold apushAppr
  dsimp only
  repeat' split
  all_goals simp [h, hm]

theorem ldAppr_wf (d : Sel) (rcd : RecRef) (off : Sel) (s : State) (core u : Nat) (a : Apprentice) (r : ClauseRun)
    (h : Memory.wf s.mem = true) : Memory.wf (ldAppr d rcd off s core u a r).state.mem = true := by
  unfold ldAppr
  extract_lets idx l q reg
  split
  · exact h
  split
  · exact h
  · simp [q, h]

theorem exitAppr_wf (s : State) (core u : Nat) (a : Apprentice) (r : ClauseRun) (h : Memory.wf s.mem = true) :
    Memory.wf (exitAppr s core u a r).state.mem = true := by
  unfold exitAppr
  split <;> simpa using h

@[simp] theorem State.readLanes_wf {s : State} (t c : Nat) (ls : List LoadLane) (h : Memory.wf s.mem = true) :
    Memory.wf (s.readLanes t c ls).1.mem = true :=
  overList_fst_wf (fun _ _ h => by simpa using h) _ (by simp [h])

@[simp] theorem vgmvBody_wf (n : Nat) (a b c : Sel) {e : Env} (h : Memory.wf e.s.mem = true) : Memory.wf (vgmvBody n a b c e).state.mem = true := by
  refine crewBody_wf (fun cr low => ?_) h
  extract_lets j j2 pair act idx wcol dom det row res
  split
  · exact h
  refine Env.withRec_wf _ _ _ (fun e h => ?_) h
  split
  · exact h
  extract_lets rdet x super loc id
  split
  · exact h
  split
  · exact h
  split
  split
  · exact h
  split
  · exact h
  split
  · exact h
  split
  · exact h
  split
  · exact h
  split
  · exact h
  split
  · exact h
  · simpa using h

end Sys2Proof.Machine
end

section
/-! SUPPORT. Events keep memory canonical. -/

namespace Sys2Proof.Machine

open Sys2Proof Sys2Proof.Safety

-- One proof at a time: side by side they need more threads than a check's memory holds.
set_option Elab.async false

@[simp] theorem State.rowHalf_wf {s : State} (x : SorterEntry) (off : Nat) (h : Memory.wf s.mem = true) :
    Memory.wf (s.rowHalf x off).1.mem = true := by
  unfold State.rowHalf
  extract_lets xs s1
  have h1 : Memory.wf s1.mem = true := State.crewReady_wf _ _ _ h
  split
  · exact h
  split
  · exact h1
  split
  · exact h1
  split
  · exact h1
  split
  · exact h1
  · simp [h1]

theorem State.wf_of_rowHalf {s s1 : State} {x : SorterEntry} {off : Nat} {v : Half} (heq : s.rowHalf x off = (s1, v))
    (h : Memory.wf s.mem = true) : Memory.wf s1.mem = true := wf_of_fst_eq heq (State.rowHalf_wf _ _ h)

theorem rowGroups_wf (x : SorterEntry) (npos fuel : Nat) (inGroup : Bool) (r : RowState) (h : Memory.wf r.s.mem = true) :
    Memory.wf (rowGroups x npos fuel inGroup r).1.mem = true := by
  induction fuel generalizing inGroup r with
  | zero => exact h
  | succ fuel ih =>
    unfold rowGroups
    split
    · split
      · exact h
      split
      next heq => exact State.wf_of_rowHalf heq h
      next heq => exact State.wf_of_rowHalf heq h
      next heq => exact ih _ _ (State.wf_of_rowHalf heq h)
    · split
      next heq => exact State.wf_of_rowHalf heq h
      next heq => exact State.wf_of_rowHalf heq h
      next heq => exact ih _ _ (State.wf_of_rowHalf heq h)
      next heq =>
        dsimp only
        split
        · exact State.wf_of_rowHalf heq h
        · exact ih _ _ (State.wf_of_rowHalf heq h)

@[simp] theorem State.sortRow_wf {s : State} (x : SorterEntry) (h : Memory.wf s.mem = true) : Memory.wf (s.sortRow x).1.mem = true := by
  unfold State.sortRow
  split
  next heq => exact State.wf_of_rowHalf heq h
  next heq => exact State.wf_of_rowHalf heq h
  next heq =>
  have h1 := State.wf_of_rowHalf heq h
  split
  · exact h1
  split
  next heq => exact State.wf_of_rowHalf heq h1
  next heq => exact State.wf_of_rowHalf heq h1
  next heq =>
  have h2 := State.wf_of_rowHalf heq h1
  split
  · exact h2
  split
  next heq => exact State.wf_of_rowHalf heq h2
  next heq => exact State.wf_of_rowHalf heq h2
  next heq =>
  have h3 := State.wf_of_rowHalf heq h2
  split
  next heq => exact State.wf_of_rowHalf heq h3
  next heq => exact State.wf_of_rowHalf heq h3
  next heq => exact rowGroups_wf _ _ _ _ _ (State.wf_of_rowHalf heq h3)

theorem accessExec_wf {i : Instr} {s : State} {o : Host.Outcome State Fault Refusal} (ho : accessExec i s = some o)
    (h : Memory.wf s.mem = true) : OutWf o := by
  unfold accessExec at ho
  split at ho <;> cases ho
  · exact laneIssue_wf _ (fun _ => ldlkBody_wf _ _ _ _ _ _) h
  · exact laneIssue_wf _ (fun _ => atomsBody_wf _ _ _ _ _ _ _) h
  · exact laneIssue_wf _ (fun _ h => by simpa using h) h
  · exact laneIssue_wf _ (fun _ h => by simpa using h) h
  · exact laneIssue_wf _ (fun _ h => by simpa using h) h
  · exact laneIssue_wf _ (fun _ h => by simpa using h) h
  · exact laneIssue_wf _ (fun _ => ldBody_wf _ _ _ _ _ _ _ _) h
  · exact laneIssue_wf _ (fun _ => stBody_wf _ _ _ _ _ _) h
  · exact laneIssue_wf _ (fun _ => ldtBody_wf _) h
  · exact laneIssue_wf _ (fun _ => sttBody_wf _) h
  · exact laneIssue_wf _ (fun _ h => by simpa using h) h
  · exact laneIssue_wf _ (fun _ h => by simpa using h) h
  · exact laneIssue_wf _ (fun _ => mmamBody_wf _ _ _ _ _) h
  · exact laneIssue_wf _ (fun _ h => by simpa using h) h
  · exact laneIssue_wf _ (fun _ h => by simpa using h) h
  · exact laneIssue_wf _ (fun _ => unpkdBody_wf _ _ _ _ _ _) h
  · exact laneIssue_wf _ (fun _ => unpkzBody_wf _ _ _ _) h
  · exact laneIssue_wf _ (fun _ => unpkrBody_wf _ _ _ _ _ _ _) h

theorem State.again_wf {s : State} (t : Nat) (g : Gang) (p : Park) (f : Pend → Pend) (moves : Bool) (h : Memory.wf s.mem = true) :
    OptWf (s.again t g p f moves) := by
  unfold State.again
  split
  · simp
  next r _ =>
    extract_lets s1
    have h1 : Memory.wf s1.mem = true := by simpa [s1] using h
    split
    · simp
    next i _ =>
      split
      next heq =>
        have hs := accessExec_wf heq h1
        rw [outWf_next] at hs
        split
        · split <;> simp [hs]
        · simp [hs]
      next => simp
      next =>
        have hp := Env.popsOf_wf (e := { s1.env t { g with park := none } { r with pend := f r.pend } with s := s1 }) i h1
        split
        next heq =>
          rw [heq] at hp
          split
          · simp
          · simpa using hp
        next => simpa using h1

theorem State.raceAgain_wf {s : State} (t gid : Nat) (pass : Bool) (h : Memory.wf s.mem = true) : OutWf (s.raceAgain t gid pass) := by
  have ha (g : Gang) := State.again_wf t g .race (fun p => .stall p.stallOf.1 pass) pass h
  unfold State.raceAgain
  split
  · simp
  next g _ =>
    extract_lets n
    split
    · simp
    split
    next heq => simpa using ha g _ heq
    next => simp

theorem execBankJob_wf {s : State} (g : ℕ) (h : Memory.wf s.mem = true) : OutWf (execBankJob g s) := by
  unfold execBankJob
  dsimp only
  split
  · split
    · split
      next heq => simpa using State.jobStep_wf heq h
      · simp
    · simp
  · simp
  · split
    · simp
    · exact State.sweepNow_wf _ (fun _ h => by simpa using h) h

theorem execClauseIssue_wf {s : State} (wg : ℕ) (gang : ℕ) (h : Memory.wf s.mem = true) : OutWf (execClauseIssue wg gang s) := by
  unfold execClauseIssue
  repeat' split
  all_goals simp [h]

theorem execGangUnpark_wf {s : State} (wg : ℕ) (gang : ℕ) (h : Memory.wf s.mem = true) : OutWf (execGangUnpark wg gang s) := by
  unfold execGangUnpark
  repeat' split
  all_goals simp [h]

theorem execRegangWindowClose_wf {s : State} (wg : ℕ) (hset : ℕ) (pc : ℕ) (h : Memory.wf s.mem = true) : OutWf (execRegangWindowClose wg hset pc s) := by
  unfold execRegangWindowClose
  dsimp only
  repeat' split
  all_goals simp [h]

theorem execYieldHoldExpire_wf {s : State} (wg : ℕ) (gang : ℕ) (h : Memory.wf s.mem = true) : OutWf (execYieldHoldExpire wg gang s) := by
  unfold execYieldHoldExpire
  repeat' split
  all_goals simp [h]

theorem execCrossLaneGather_wf {s : State} (wg : ℕ) (hset : ℕ) (pc : ℕ) (h : Memory.wf s.mem = true) : OutWf (execCrossLaneGather wg hset pc s) := by
  unfold execCrossLaneGather
  dsimp only
  split <;> simp [h]

theorem execCrewDissolve_wf {s : State} (wg : ℕ) (crew : ℕ) (h : Memory.wf s.mem = true) : OutWf (execCrewDissolve wg crew s) := by
  unfold execCrewDissolve
  split <;> simp [h]

theorem execWorkgroupComplete_wf {s : State} (wg : ℕ) (h : Memory.wf s.mem = true) : OutWf (execWorkgroupComplete wg s) := by
  unfold execWorkgroupComplete
  dsimp only
  repeat' split
  all_goals simp [h]

theorem execInFlightComplete_wf {s : State} (wg : ℕ) (crew : ℕ) (item : ℕ) (h : Memory.wf s.mem = true) : OutWf (execInFlightComplete wg crew item s) := by
  unfold execInFlightComplete
  split
  · simp
  split
  · simp
  split
  · split
    · split <;> simp [h]
    · simp
  · simp only [outWf_next, State.spent_mem]
    exact overList_wf (fun _ _ h => by simpa using h) _ (by simp [h])

theorem execMatrixOpStart_wf {s : State} (core : ℕ) (quad : ℕ) (q : ℕ) (h : Memory.wf s.mem = true) : OutWf (execMatrixOpStart core quad q s) := by
  unfold execMatrixOpStart
  split
  next heq => simpa [State.matStart_mem heq] using h
  · simp

theorem execMatrixOpComplete_wf {s : State} (wg : ℕ) (hset : ℕ) (q : ℕ) (h : Memory.wf s.mem = true) : OutWf (execMatrixOpComplete wg hset q s) := by
  unfold execMatrixOpComplete
  split
  next heq => simpa [State.matComplete_mem heq] using h
  · simp

theorem execLockRetry_wf {s : State} (wg : ℕ) (gang : ℕ) (h : Memory.wf s.mem = true) : OutWf (execLockRetry wg gang s) := by
  unfold execLockRetry
  split
  · simp
  split
  · simp
  split
  next heq => simpa using State.again_wf _ _ _ _ _ h _ heq
  · simp

theorem execLockHold_wf {s : State} (wg : ℕ) (gang : ℕ) (h : Memory.wf s.mem = true) : OutWf (execLockHold wg gang s) := by
  unfold execLockHold
  dsimp only
  repeat' split
  all_goals simp [h]

theorem execRaceStallRelease_wf {s : State} (wg : ℕ) (gang : ℕ) (h : Memory.wf s.mem = true) : OutWf (execRaceStallRelease wg gang s) := State.raceAgain_wf _ _ _ h

theorem execRaceStallTimeout_wf {s : State} (wg : ℕ) (gang : ℕ) (h : Memory.wf s.mem = true) : OutWf (execRaceStallTimeout wg gang s) := State.raceAgain_wf _ _ _ h

theorem execL2EvictSpill_wf {s : State} (line : ℕ) (h : Memory.wf s.mem = true) : OutWf (execL2EvictSpill line s) := by
  unfold execL2EvictSpill
  dsimp only
  split <;> simp [h]

theorem execShootdownAck_wf {s : State} (core : ℕ) (h : Memory.wf s.mem = true) : OutWf (execShootdownAck core s) := by
  unfold execShootdownAck
  split <;> simp [h]

theorem execPreempt_wf {s : State} (wg : ℕ) (h : Memory.wf s.mem = true) : OutWf (execPreempt wg s) := by
  unfold execPreempt
  split
  · simp
  · exact outWf_next.mpr (overList_wf (fun _ _ h => by simpa using h) _ h)

theorem execPreemptSave_wf {s : State} (wg : ℕ) (h : Memory.wf s.mem = true) : OutWf (execPreemptSave wg s) := by
  unfold execPreemptSave
  split
  · simp
  · simp only [outWf_next, State.spent_mem]
    exact overList_wf (fun _ _ h => by simp [h]) _ h

theorem execRestore_wf {s : State} (wg : ℕ) (core : ℕ) (h : Memory.wf s.mem = true) : OutWf (execRestore wg core s) := by
  unfold execRestore
  extract_lets w prio x held
  split
  · simp
  · simp only [outWf_next, State.spent_mem, State.serve_mem]
    refine overList_wf (fun s p h => ?_) _ h
    split
    · exact h
    · split <;> simpa using h

theorem execNodeReady_wf {s : State} (node : ℕ) (h : Memory.wf s.mem = true) : OutWf (execNodeReady node s) := by
  unfold execNodeReady
  split
  · simp
  extract_lets d s1 s2
  have h1 : Memory.wf s1.mem = true := overList_wf (fun _ _ h => by simp [h]) _ h
  split
  · simp
  split
  · split <;> simp [h]
  · rw [outWf_next]
    split <;> simpa [s2] using h1

theorem execWorkgroupPlace_wf {s : State} (node : ℕ) (core : ℕ) (h : Memory.wf s.mem = true) : OutWf (execWorkgroupPlace node core s) := by
  unfold execWorkgroupPlace
  split
  · simp
  dsimp only
  split
  · simp
  · simp only [outWf_next, State.spent_mem, State.serve_mem, State.updNode_mem]
    refine overList_wf (fun s p h => ?_) _ h
    split <;> simp [h]

theorem execPacketNode_wf {s : State} (node : ℕ) (h : Memory.wf s.mem = true) : OutWf (execPacketNode node s) := by
  unfold execPacketNode
  split
  · simp
  next n _ =>
    split
    · simp
    extract_lets r
    have hr : OptWf r := by
      unfold r
      split
      · exact State.packetClaim_wf _ h
      · exact State.packetPublish_wf _ _ _ h
      · exact State.packetEnd_wf _ _ _ _ h
    clear_value r
    cases r with
    | none => simp
    | some s1 => simpa using hr

theorem execSegmentLanded_wf {s : State} (core : ℕ) (slot : ℕ) (h : Memory.wf s.mem = true) : OutWf (execSegmentLanded core slot s) := by
  unfold execSegmentLanded
  dsimp only
  split
  · simp
  · simp only [outWf_next, State.spent_mem, State.endIssues_mem]
    refine overList_wf (fun s p h => ?_) _ (by simpa using h)
    split <;> simpa using h

theorem execQueueEnable_wf {s : State} (hdr : ℕ) (h : Memory.wf s.mem = true) : OutWf (execQueueEnable hdr s) := by
  unfold execQueueEnable
  dsimp only
  repeat' split
  all_goals simp [h]

theorem execQueueDisable_wf {s : State} (hdr : ℕ) (h : Memory.wf s.mem = true) : OutWf (execQueueDisable hdr s) := by
  unfold execQueueDisable
  dsimp only
  repeat' split
  all_goals simp [h]

theorem execPacketStart_wf {s : State} (hdr : ℕ) (h : Memory.wf s.mem = true) : OutWf (execPacketStart hdr s) := by
  have start {s s0 : State} {q : Queue} {p e : Packet} {u : Unit} {xs : List Span} (hs : s.engSee e xs = .ok u s0)
      (h : Memory.wf s.mem = true) : (s0.startPacket q p).Wf :=
    State.startPacket_wf q p (hs ▸ State.engSee_wf e xs h : (EngRes.ok u s0).Wf)
  fun_cases execPacketStart
  case case3 | case4 | case6 => simp [h]
  case case9 s0 hs _ p p1 s1 hp =>
    have h1 : (EngRes.ok p1 s1).Wf := hp ▸ start hs h
    simpa +zetaDelta using h1
  case case10 s0 hs _ p c s1 hp =>
    have h1 : (EngRes.stop c s1 : EngRes Packet).Wf := hp ▸ start hs h
    simpa +zetaDelta using h1
  all_goals simp

theorem execPacketComplete_wf {s : State} (hdr : ℕ) (seq : ℕ) (h : Memory.wf s.mem = true) : OutWf (execPacketComplete hdr seq s) := by
  fun_cases execPacketComplete
  case case4 s1 s2 r s3 s4 =>
    have h2 : Memory.wf s2.mem = true := by
      unfold s2
      split <;> simp [s1, h]
    have h3 : Memory.wf s3.mem = true := by
      unfold s3
      split <;> simp [h2]
    simpa [s4] using h3
  all_goals simp

theorem execEngineSlotClaim_wf {s : State} (hdr : ℕ) (seq : ℕ) (h : Memory.wf s.mem = true) : OutWf (execEngineSlotClaim hdr seq s) := by
  unfold execEngineSlotClaim
  dsimp only
  repeat' split
  all_goals simp [h]

theorem unitStep_wf (hdr seq : Nat) {r : EngRes Packet} (h : r.Wf) : OutWf (unitStep hdr seq r) := by
  cases r with
  | ok p s => simpa [unitStep] using h
  | wait => simp [unitStep]
  | stop c s => simpa [unitStep] using h

theorem State.packetWork_wf {s : State} (hdr seq op : Nat) {f : Queue → Packet → EngRes Packet} (hf : ∀ q p, (f q p).Wf) :
    OutWf (s.packetWork hdr seq op f) := by
  unfold State.packetWork
  split
  · simp
  · exact unitStep_wf _ _ (hf _ _)

theorem execCopyPacket_wf {s : State} (hdr : ℕ) (seq : ℕ) (h : Memory.wf s.mem = true) : OutWf (execCopyPacket hdr seq s) := State.packetWork_wf _ _ _ fun _ _ => State.copyUnit_wf _ _ h

theorem execGather_wf {s : State} (hdr : ℕ) (seq : ℕ) (h : Memory.wf s.mem = true) : OutWf (execGather hdr seq s) := State.packetWork_wf _ _ _ fun _ _ => State.gatherUnit_wf _ _ h

theorem execQuant2_wf {s : State} (hdr : ℕ) (seq : ℕ) (h : Memory.wf s.mem = true) : OutWf (execQuant2 hdr seq s) := State.packetWork_wf _ _ _ fun _ _ => State.quant2Unit_wf _ _ h

theorem execColl_wf {s : State} (hdr : ℕ) (seq : ℕ) (contrib : List (ℕ × List Byte)) (h : Memory.wf s.mem = true) : OutWf (execColl hdr seq contrib s) := State.packetWork_wf _ _ _ fun _ _ => State.collUnit_wf _ _ _ h

theorem execCkpt_wf {s : State} (hdr : ℕ) (seq : ℕ) (h : Memory.wf s.mem = true) : OutWf (execCkpt hdr seq s) := State.packetWork_wf _ _ _ fun _ _ => State.ckptUnit_wf _ _ h

theorem execAssay_wf {s : State} (hdr : ℕ) (seq : ℕ) (h : Memory.wf s.mem = true) : OutWf (execAssay hdr seq s) := State.packetWork_wf _ _ _ fun _ _ => State.assayUnit_wf _ _ h

theorem execLink_wf {s : State} (hdr : ℕ) (seq : ℕ) (h : Memory.wf s.mem = true) : OutWf (execLink hdr seq s) := by
  unfold execLink
  split <;> simp [h]

theorem execSorterEntry_wf {s : State} (core : ℕ) (q : ℕ) (h : Memory.wf s.mem = true) : OutWf (execSorterEntry core q s) := by
  unfold execSorterEntry
  split
  · simp
  split
  · simp
  have hr := fun x => State.sortRow_wf x h
  dsimp only
  split
  · simp
  · simp [hr]

theorem execApprenticeLoadComplete_wf {s : State} (core : ℕ) (unit : ℕ) (h : Memory.wf s.mem = true) : OutWf (execApprenticeLoadComplete core unit s) := by
  unfold execApprenticeLoadComplete
  dsimp only
  split <;> simp [h]

theorem execSweepStep_wf {s : State} (g : ℕ) (h : Memory.wf s.mem = true) : OutWf (execSweepStep g s) := by
  unfold execSweepStep
  split
  · simp
  split
  · simpa using h
  · exact State.sweepNow_wf _ (fun _ h => by simp [h]) h

theorem execForcedRowApply_wf {s : State} (g : ℕ) (h : Memory.wf s.mem = true) : OutWf (execForcedRowApply g s) := by
  unfold execForcedRowApply
  dsimp only
  split
  · simp
  split
  · simp
  · exact State.sweepNow_wf _ (fun _ h => by simp [h]) h

theorem execCatchupStep_wf {s : State} (g : ℕ) (h : Memory.wf s.mem = true) : OutWf (execCatchupStep g s) := by
  unfold execCatchupStep
  dsimp only
  split
  · simp
  · exact State.sweepNow_wf _ (fun _ h => by simp [h]) h

theorem State.waitingEntry_wf {s : State} (g wg crew mask : Nat) (h : Memory.wf s.mem = true) : OptWf (s.waitingEntry g wg crew mask) := by
  intro s1 hs
  obtain ⟨x, _, hx⟩ := List.exists_of_findSome?_eq_some hs
  have ha := State.again_wf wg x (.bank g) id false h
  extract_lets mine at hx
  split at hx
  · cases hx
  split at hx
  · cases hx
  next s2 heq =>
    extract_lets p at hx
    split at hx
    · exact Option.some.inj hx ▸ ha _ heq
    · cases hx

theorem execAllbankEnter_wf {s : State} (g : ℕ) (wg : ℕ) (crew : ℕ) (mask : ℕ) (h : Memory.wf s.mem = true) : OutWf (execAllbankEnter g wg crew mask s) := by
  unfold execAllbankEnter
  dsimp only
  split
  · simp
  split
  · split
    · simp
    · split
      · exact execBankJob_wf _ h
      · simp
  split
  next heq => simpa using State.waitingEntry_wf _ _ _ _ h _ heq
  · simp

theorem execAllbankExit_wf {s : State} (g : ℕ) (h : Memory.wf s.mem = true) : OutWf (execAllbankExit g s) := by
  unfold execAllbankExit
  split
  · split
    · exact execBankJob_wf _ h
    · simp
  · simp

theorem execAllbankTimeout_wf {s : State} (g : ℕ) (h : Memory.wf s.mem = true) : OutWf (execAllbankTimeout g s) := by
  unfold execAllbankTimeout
  repeat' split
  all_goals simp [h]

theorem State.jobCommand_wf {s : State} (g : Nat) (c : BankCmd) (h : Memory.wf s.mem = true) : OutWf (s.jobCommand g c) := by
  unfold State.jobCommand
  split
  · exact execBankJob_wf _ h
  · simp

theorem execAct_wf {s : State} (g : ℕ) (row : ℕ) (h : Memory.wf s.mem = true) : OutWf (execAct g row s) := State.jobCommand_wf _ _ h

theorem execPre_wf {s : State} (g : ℕ) (h : Memory.wf s.mem = true) : OutWf (execPre g s) := State.jobCommand_wf _ _ h

theorem execPass_wf {s : State} (g : ℕ) (args : PassArgs) (h : Memory.wf s.mem = true) : OutWf (execPass g args s) := State.jobCommand_wf _ _ h

theorem execKpass_wf {s : State} (g : ℕ) (args : KpassArgs) (h : Memory.wf s.mem = true) : OutWf (execKpass g args s) := State.jobCommand_wf _ _ h

theorem execMacr_wf {s : State} (g : ℕ) (args : MacrArgs) (h : Memory.wf s.mem = true) : OutWf (execMacr g args s) := State.jobCommand_wf _ _ h

theorem execCtlWindowWrite_wf {s : State} (g : ℕ) (off : ℕ) (wide : Bool) (val : Dword) (h : Memory.wf s.mem = true) : OutWf (execCtlWindowWrite g off wide val s) := by
  unfold execCtlWindowWrite
  split
  · extract_lets taken
    split
    · exact execBankJob_wf _ h
    · simp
  · simp

theorem execDoorbell_wf {s : State} (domain : ℕ) (h : Memory.wf s.mem = true) : OutWf (execDoorbell domain s) := by
  unfold execDoorbell
  split <;> simp [h]

theorem execDoorbellPageStore_wf {s : State} (wg : ℕ) (crew : ℕ) (h : Memory.wf s.mem = true) : OutWf (execDoorbellPageStore wg crew s) := by
  unfold execDoorbellPageStore
  repeat' split
  all_goals simp [h]

theorem execLrtailWrite_wf {s : State} (val : Dword) (h : Memory.wf s.mem = true) : OutWf (execLrtailWrite val s) := by
  unfold execLrtailWrite
  split <;> simp [h]

theorem execModuleRegisterWrite_wf {s : State} (who : RegWriter) (off : ℕ) (val : Dword) (h : Memory.wf s.mem = true) : OutWf (execModuleRegisterWrite who off val s) := by
  unfold execModuleRegisterWrite
  split <;> simp [h]

theorem execHostAccess_wf {s : State} (acc : ExtAccess) (h : Memory.wf s.mem = true) : OutWf (execHostAccess acc s) := by
  unfold execHostAccess
  split
  · simp
  · exact State.extAccess_wf _ _ h

theorem execRemoteAccess_wf {s : State} (acc : ExtAccess) (h : Memory.wf s.mem = true) : OutWf (execRemoteAccess acc s) := State.extAccess_wf _ _ h

theorem execBackInvalidate_wf {s : State} (line : ℕ) (bytes : List Byte) (h : Memory.wf s.mem = true) : OutWf (execBackInvalidate line bytes s) := by
  unfold execBackInvalidate
  repeat' split
  all_goals simp [h]

theorem execLinkCrcReplay_wf {s : State} (port : ℕ) (h : Memory.wf s.mem = true) : OutWf (execLinkCrcReplay port s) := by
  unfold execLinkCrcReplay
  split <;> simp [h]

theorem execDramCorrectableError_wf {s : State} (g : ℕ) (bank : ℕ) (row : ℕ) (h : Memory.wf s.mem = true) : OutWf (execDramCorrectableError g bank row s) := by
  unfold execDramCorrectableError
  split <;> simp [h]

theorem execSramCorrectableError_wf {s : State} (core : ℕ) (bank : ℕ) (row : ℕ) (h : Memory.wf s.mem = true) : OutWf (execSramCorrectableError core bank row s) := by
  unfold execSramCorrectableError
  split <;> simp [h]

theorem execClockChange_wf {s : State} (island : ℕ) (mhz : ℕ) (h : Memory.wf s.mem = true) : OutWf (execClockChange island mhz s) := by
  unfold execClockChange
  split <;> simp [h]

theorem execRefreshRateChange_wf {s : State} (stack : ℕ) (hot : Bool) (h : Memory.wf s.mem = true) : OutWf (execRefreshRateChange stack hot s) := by
  unfold execRefreshRateChange
  split <;> simp [h]

theorem execThermalShutdown_wf {s : State} (h : Memory.wf s.mem = true) : OutWf (execThermalShutdown s) := by
  unfold execThermalShutdown
  split
  · simp
  · simp only [outWf_next]
    exact (overList_wf (fun _ _ h => by simpa using h) _ h : Memory.wf (overList _ s State.heatStop).mem = true)

theorem execThermalRecovery_wf {s : State} (h : Memory.wf s.mem = true) : OutWf (execThermalRecovery s) := by
  unfold execThermalRecovery
  split <;> simp [h]

theorem execModuleReset_wf {s : State} (img : Firmware) (h : Memory.wf s.mem = true) : OutWf (execModuleReset img s) := by
  unfold execModuleReset
  split <;> simp [h]

theorem execRecoveryImage_wf {s : State} (img : Firmware) (h : Memory.wf s.mem = true) : OutWf (execRecoveryImage img s) := by
  unfold execRecoveryImage
  split <;> simp [h]

theorem execLifecycleChange_wf {s : State} (st : ℕ) (h : Memory.wf s.mem = true) : OutWf (execLifecycleChange st s) := by
  unfold execLifecycleChange
  split <;> simp [h]

theorem execAttestationRequest_wf {s : State} (nonce : List Byte) (h : Memory.wf s.mem = true) : OutWf (execAttestationRequest nonce s) := by
  unfold execAttestationRequest
  split <;> simp [h]

theorem execHostSnoop_wf {s : State} (line : ℕ) (h : Memory.wf s.mem = true) : OutWf (execHostSnoop line s) := by
  unfold execHostSnoop
  split <;> simp [h]

theorem execApprenticeClauseFetch_wf {s : State} (core : ℕ) (unit : ℕ) (h : Memory.wf s.mem = true) : OutWf (execApprenticeClauseFetch core unit s) := by
  unfold execApprenticeClauseFetch
  dsimp only
  repeat' split
  all_goals simp [h]

theorem execIslandClockStop_wf {s : State} (island : ℕ) (h : Memory.wf s.mem = true) : OutWf (execIslandClockStop island s) := by
  unfold execIslandClockStop
  split <;> simp [h]

theorem execLinkTraining_wf {s : State} (port : ℕ) (features : List ℕ) (h : Memory.wf s.mem = true) : OutWf (execLinkTraining port features s) := by
  unfold execLinkTraining
  split <;> simp [h]

end Sys2Proof.Machine
end

section
/-! SUPPORT. Every instruction and every event keeps memory canonical. -/

namespace Sys2Proof.Machine

open Sys2Proof Sys2Proof.Safety

-- One proof at a time: side by side they need more threads than a check's memory holds.
set_option Elab.async false

theorem braAppr_wf (p : Nat) (pn : Bool) (off : BitVec 18) (s : State) (core u : Nat) (a : Apprentice) (r : ClauseRun)
    (h : Memory.wf s.mem = true) : Memory.wf (braAppr p pn off s core u a r).state.mem = true := by
  unfold braAppr
  repeat' split
  all_goals simpa using h

theorem exec_wf (i : Instr) {s : State} (h : Memory.wf s.mem = true) : OutWf (exec i s) :=
  match i with
  | .mov _ | .movi _ _ _ _ | .iadd _ | .iaddc _ | .isub _ | .isubb _ | .imul _ | .imulh _ | .imad _ | .imadw _ | .idiv _ | .irem _
   | .imin _ | .imax _ | .iabs _ | .ineg _ | .popc _ | .clz _ | .ctz _ | .brev _ | .and _ | .or _ | .xor _ | .andn _ | .shl _
   | .shr _ | .sar _ | .rot _ | .bfx _ _ _ _ _ | .icmp _ _ _ _ _ | .sel _ _ _ _ _ _ | .plop _ _ _ _ => alu_wf _ _ _ _ h
  | .bfi _ _ (.imm ..) | .bfi _ _ (.reg ..) | .perm _ (.imm ..) | .perm _ (.reg ..) => alu_wf _ _ _ _ h
  | .movs _ _ _ | .movsWide _ _ | .movsw _ _ | .vote _ _ _ _ | .shfl _ _ _ _ _ | .fadd _ | .fsub _ | .fmul _ | .ffma _ _ _ _ _ _ _
   | .fmin _ | .fmax _ | .fcopys _ | .fcmp _ _ _ _ _ | .fclass _ | .fdiv _ | .fsqrt _ | .frcp _ | .frsq _ | .fexp2 _ | .flog2 _
   | .fsin _ | .fcos _ | .fscale _ | .frnd _ _ | .cvt _ _ _ _ _ _ _ | .cvti _ _ _ _ _ _ | .cvtf _ _ _ _ _ _ | .split3 _ _ _
   | .qnt _ _ _ _ _ | .dqnt _ _ _ _ _ | .smxmerge _ _ _ _ _ | .freda _ | .fredm _ | .unpkd _ _ _ _ _ _ | .unpkz _ _ _ _
   | .unpkr _ _ _ _ _ _ _ | .mma _ _ _ _ | .mmas _ _ _ _ | .mmam _ _ _ _ _ | .mmax _ _ _ _ _ _ | .mmaz _ _ _ _ | .mmafin _
   | .maccrd _ _ _ _ | .maccwr _ _ _ _ | .mxwait _ | .mtrans _ _ _ _ | .lds _ | .sts _ | .ldsc _ | .stsc _ | .ldlk _ _ _ _ _ _
   | .stul _ _ _ _ _ | .atoms _ _ _ _ _ _ _ | .waitc _ _ | .qrd _ _ | .qpushClaim _ _ | .qpushCommit _ _ | .qfree _ _
   | .qinit _ _ _ | .ld _ _ _ _ _ _ _ _ | .st _ _ _ _ _ _ | .ldt _ | .stt _ | .atom _ | .red _ | .prefL1 _ _ _ | .prefL2 _ _ _
   | .prefPagein _ _ _ | .monitor _ _ _ _ _ _ _ _ _ | .monwait | .fence _ _ | .publish _ | .pin _ _ _ _ | .unpin _ _ _
   | .resq _ _ _ _ _ _ | .resqFetch _ _ _ _ _ _ | .recset _ _ | .recsetReload _ | .recsetShape _ | .binit _ _ _ _ _ | .bexpect _ _
   | .bexpectReg _ _ | .barrive _ _ _ | .bwait _ _ | .btest _ _ _ | .epost _ _ _ | .eseq _ _ _ | .copy _ _ _ _ _ | .swreg _ _ _
   | .swdereg _ _ | .swwait _ _ | .swpos _ _ | .swforce _ _ | .call _ _ _ | .jmpf _ _ _ _ | .bri _ | .ret | .trap _ | .tret
   | .tretAbort | .excrd _ _ | .mcall _ _ _ _ _ | .icfetch _ | .icfetchSpad _ _ | .icfetchDrop _ | .icfetchGate _ _
   | .nodepost _ _ | .join _ _ _ _ | .leave | .regang | .yield | .exit | .gcall _ | .gcallReg _ | .gret | .xlinvPage _ _
   | .xlinvDomain _ | .xlinvResidency _ _ | .xlinvAll | .xlprobe _ _ _ | .astart _ _ _ | .astartStop _ | .vgmv _ _ _ _ | .vgrd _ _
   | .vgwait _ =>
    laneIssue_wf _ (fun _ h => by simp [h]) h
  | .bra .. => bothIssue_wf _ (fun _ h => by simp [h]) (braAppr_wf _ _ _) h
  | .nop => bothIssue_wf _ (fun _ h => h) (fun _ _ _ _ _ h => h) h
  | .apush .. => bothIssue_wf _ (fun _ h => by simp [h]) (apushAppr_wf _ _ fun _ _ _ h => h) h
  | .apushVec .. | .apushBcld .. => bothIssue_wf _ (fun _ h => by simp [h]) (apushAppr_wf _ _ fun _ => apushLoad_wf _ _ _) h
  | .apprenticeExit => apprOnly_wf _ exitAppr_wf h
  | .apprenticeLd .. => apprOnly_wf _ (ldAppr_wf _ _ _) h
  | .clauseIssue _ _ => execClauseIssue_wf _ _ h
  | .gangUnpark _ _ => execGangUnpark_wf _ _ h
  | .regangWindowClose _ _ _ => execRegangWindowClose_wf _ _ _ h
  | .yieldHoldExpire _ _ => execYieldHoldExpire_wf _ _ h
  | .crossLaneGather _ _ _ => execCrossLaneGather_wf _ _ _ h
  | .crewDissolve _ _ => execCrewDissolve_wf _ _ h
  | .workgroupComplete _ => execWorkgroupComplete_wf _ h
  | .inFlightComplete _ _ _ => execInFlightComplete_wf _ _ _ h
  | .matrixOpStart _ _ _ => execMatrixOpStart_wf _ _ _ h
  | .matrixOpComplete _ _ _ => execMatrixOpComplete_wf _ _ _ h
  | .lockRetry _ _ => execLockRetry_wf _ _ h
  | .lockHold _ _ => execLockHold_wf _ _ h
  | .raceStallRelease _ _ => execRaceStallRelease_wf _ _ h
  | .raceStallTimeout _ _ => execRaceStallTimeout_wf _ _ h
  | .l2EvictSpill _ => execL2EvictSpill_wf _ h
  | .shootdownAck _ => execShootdownAck_wf _ h
  | .preempt _ => execPreempt_wf _ h
  | .preemptSave _ => execPreemptSave_wf _ h
  | .restore _ _ => execRestore_wf _ _ h
  | .nodeReady _ => execNodeReady_wf _ h
  | .workgroupPlace _ _ => execWorkgroupPlace_wf _ _ h
  | .bankJob _ => execBankJob_wf _ h
  | .packetNode _ => execPacketNode_wf _ h
  | .segmentLanded _ _ => execSegmentLanded_wf _ _ h
  | .queueEnable _ => execQueueEnable_wf _ h
  | .queueDisable _ => execQueueDisable_wf _ h
  | .packetStart _ => execPacketStart_wf _ h
  | .packetComplete _ _ => execPacketComplete_wf _ _ h
  | .engineSlotClaim _ _ => execEngineSlotClaim_wf _ _ h
  | .copyPacket _ _ => execCopyPacket_wf _ _ h
  | .gather _ _ => execGather_wf _ _ h
  | .quant2 _ _ => execQuant2_wf _ _ h
  | .coll _ _ _ => execColl_wf _ _ _ h
  | .ckpt _ _ => execCkpt_wf _ _ h
  | .assay _ _ => execAssay_wf _ _ h
  | .link _ _ => execLink_wf _ _ h
  | .sorterEntry _ _ => execSorterEntry_wf _ _ h
  | .apprenticeLoadComplete _ _ => execApprenticeLoadComplete_wf _ _ h
  | .sweepStep _ => execSweepStep_wf _ h
  | .forcedRowApply _ => execForcedRowApply_wf _ h
  | .catchupStep _ => execCatchupStep_wf _ h
  | .allbankEnter _ _ _ _ => execAllbankEnter_wf _ _ _ _ h
  | .allbankExit _ => execAllbankExit_wf _ h
  | .allbankTimeout _ => execAllbankTimeout_wf _ h
  | .act _ _ => execAct_wf _ _ h
  | .pre _ => execPre_wf _ h
  | .pass _ _ => execPass_wf _ _ h
  | .kpass _ _ => execKpass_wf _ _ h
  | .macr _ _ => execMacr_wf _ _ h
  | .ctlWindowWrite _ _ _ _ => execCtlWindowWrite_wf _ _ _ _ h
  | .doorbell _ => execDoorbell_wf _ h
  | .doorbellPageStore _ _ => execDoorbellPageStore_wf _ _ h
  | .lrtailWrite _ => execLrtailWrite_wf _ h
  | .moduleRegisterWrite _ _ _ => execModuleRegisterWrite_wf _ _ _ h
  | .hostAccess _ => execHostAccess_wf _ h
  | .remoteAccess _ => execRemoteAccess_wf _ h
  | .backInvalidate _ _ => execBackInvalidate_wf _ _ h
  | .linkCrcReplay _ => execLinkCrcReplay_wf _ h
  | .dramCorrectableError _ _ _ => execDramCorrectableError_wf _ _ _ h
  | .sramCorrectableError _ _ _ => execSramCorrectableError_wf _ _ _ h
  | .clockChange _ _ => execClockChange_wf _ _ h
  | .refreshRateChange _ _ => execRefreshRateChange_wf _ _ h
  | .thermalShutdown => execThermalShutdown_wf h
  | .thermalRecovery => execThermalRecovery_wf h
  | .moduleReset _ => execModuleReset_wf _ h
  | .recoveryImage _ => execRecoveryImage_wf _ h
  | .lifecycleChange _ => execLifecycleChange_wf _ h
  | .attestationRequest _ => execAttestationRequest_wf _ h
  | .hostSnoop _ => execHostSnoop_wf _ h
  | .apprenticeClauseFetch _ _ => execApprenticeClauseFetch_wf _ _ h
  | .islandClockStop _ => execIslandClockStop_wf _ h
  | .linkTraining _ _ => execLinkTraining_wf _ _ h

end Sys2Proof.Machine
end

section
/-! Proofs about every step (O60). -/

namespace Sys2Proof.Machine

open Sys2Proof Sys2Proof.Safety

-- One proof at a time: side by side they need more threads than a check's memory holds.
set_option Elab.async false

@[simp] theorem State.imageBarrier_wf {s : State} (t k : Nat) (h : Memory.wf s.mem = true) :
    Memory.wf (s.imageBarrier t k).mem = true := State.imagePut_wf _ _ _ h

@[simp] theorem State.mergeSaved_wf {s : State} (h : Memory.wf s.mem = true) : Memory.wf s.mergeSaved.mem = true := by
  refine overList_wf (fun s p h => ?_) _ h
  dsimp only
  split
  · exact h
  · exact overList_wf (fun _ _ h => by simp [h]) _ (by simpa using h)

theorem State.tick_wf {s : State} (island : Nat) (h : Memory.wf s.mem = true) : Memory.wf (s.tick island).mem = true := by
  unfold State.tick
  extract_lets one s1 s2 s3
  have h2 : Memory.wf s2.mem = true := by
    refine State.publishDue_wf ?_
    exact overList_wf (fun _ _ h => by simpa using h) _ (by exact h : Memory.wf s1.mem = true)
  have h3 : Memory.wf s3.mem = true := overList_wf (fun _ _ h => by simpa using h) _ h2
  split
  · exact State.mergeSaved_wf h3
  · exact h3

theorem State.runTurn_wf {s : State} (u : Turn) (rest : List Turn) (h : Memory.wf s.mem = true) : OutWf (s.runTurn u rest) := by
  unfold State.runTurn
  split
  · exact exec_wf _ (by exact h)
  · exact outWf_next.mpr (State.tick_wf _ (by exact h))
  · repeat' split
    · exact exec_wf _ h
    all_goals simp
  · repeat' split
    · exact exec_wf _ h
    all_goals simp

theorem step_wf {s : State} (h : Memory.wf s.mem = true) : OutWf (step s) := by
  unfold step
  split
  · exact State.runTurn_wf _ _ h
  · dsimp only
    split
    · simpa using h
    · simp

/-- Settles O60: an instruction, an engine, a bank, the host and the PMC change memory through `Memory.write` and `SMap.filter`
alone, which keep the canonical form. -/
theorem stepKeepsMemory : Obligations.StepKeepsMemory := by
  unfold Obligations.StepKeepsMemory
  intro s s' h hs
  exact step_wf h s' hs

end Sys2Proof.Machine
end

section
/-! SUPPORT. EXCRD (spec/15 R373): the word it reads at an index, and the statement about it. -/

namespace Sys2Proof.Machine

open Sys2Proof Sys2Proof.Safety

-- One proof at a time: side by side they need more threads than a check's memory holds.
set_option Elab.async false

/-- The index that a lane gives EXCRD. -/
theorem toNat_int32_operand (s : State) (t : Nat) (g : Gang) (r : ClauseRun) (es : List ApprEntry) (a : Sel) (l : Nat) :
    ((opEnv s t g r es).int32 l a 0 0).toNat = operand s t g r es [.int .u32 a] l 0 := by
  have h := operand_lt_of_int s t g r es l (ops := [.int .u32 a]) (k := 0) rfl
  unfold Env.int32
  rw [BitVec.toNat_setWidth]
  exact Nat.mod_eq_of_lt h

/-- The word at an index, of the frame of the lane's crew. -/
theorem Workgroup.excWord_eq (w : Workgroup) (l i : Nat) (fr : TrapFrame) (h : w.frames.get ((w.lane l).crew.getD 64) = fr) :
    w.excWord l i = if i = 0 then w.flags.setWidth 32 else if i = 1 then w.satcnt else if i = 2 then w.nanscore
      else if 16 ≤ i ∧ i ≤ 31 then fr.hdr.get (i - 16)
      else if 64 ≤ i ∧ i ≤ 575 then ((fr.recs.getD ((i - 64) / 8) 0) >>> (32 * ((i - 64) % 8))).setWidth 32
      else 0 := by
  subst h
  unfold Workgroup.excWord
  cases (w.lane l).crew <;> rfl

/-- EXCRD gives each lane the word at its index. -/
theorem excrdBody_eq (s : State) (t : Nat) (g : Gang) (r : ClauseRun) (es : List ApprEntry) (d a : Sel) :
    excrdBody d a (opEnv s t g r es) = .ok ((taken s).updWg t fun w => w.putDest s.free (some (d, 1)) ((execLanes g r).map fun l =>
        (l, ((s.wg t).excWord l (operand s t g r es [.int .u32 a] l 0)).setWidth 64)))
      ((execLanes g r).map fun l => (l, ((s.wg t).excWord l (operand s t g r es [.int .u32 a] l 0)).setWidth 64)) := by
  unfold excrdBody Workgroup.putDest
  simp only [List.map_map, toNat_int32_operand, Function.comp_def, splitWords, if_pos,
    BitVec.setWidth_setWidth_of_le _ (show 32 ≤ 64 by decide), BitVec.setWidth_eq]
  rfl

/-- Settles O36: each range of indices is a branch of the word that EXCRD reads. -/
theorem exceptionStateRead : Obligations.ExceptionStateRead := by
  unfold Obligations.ExceptionStateRead
  intro s t g r es d a h w x fr
  have hd : Safety.Declared (.excrd d a) (some (d, 1)) := fun q n hq => by
    cases hq
    exact ⟨List.mem_singleton.2 rfl, .inl rfl⟩
  obtain ⟨s', hs, hp, hf, hsum, hl, hh⟩ := laneIssue_writes h hd rfl _ (excrdBody_eq s t g r es d a)
  refine ⟨s', _, hs, hp, hf, hsum, hh, hl, fun l _ => ?_⟩
  rw [BitVec.toNat_setWidth_of_le (by decide)]
  change (x l = 0 → ((s.wg t).excWord l (x l)).toNat = _) ∧ (x l = 1 → ((s.wg t).excWord l (x l)).toNat = _) ∧
    (x l = 2 → ((s.wg t).excWord l (x l)).toNat = _) ∧ (16 ≤ x l → x l ≤ 31 → ((s.wg t).excWord l (x l)).toNat = _) ∧
    (64 ≤ x l → x l ≤ 575 → ((s.wg t).excWord l (x l)).toNat = _) ∧ (_ → ((s.wg t).excWord l (x l)).toNat = _)
  rw [Workgroup.excWord_eq _ _ _ (fr l) rfl]
  generalize x l = k
  refine ⟨fun hk => ?_, fun hk => ?_, fun hk => ?_, fun h1 h2 => ?_, fun h1 h2 => ?_, fun hk => ?_⟩
  · rw [if_pos hk, BitVec.toNat_setWidth_of_le (by decide)]
  · rw [if_neg (by omega), if_pos hk]
  · rw [if_neg (by omega), if_neg (by omega), if_pos hk]
  · rw [if_neg (by omega), if_neg (by omega), if_neg (by omega), if_pos ⟨h1, h2⟩]
  · rw [if_neg (by omega), if_neg (by omega), if_neg (by omega), if_neg (by omega), if_pos ⟨h1, h2⟩, BitVec.toNat_setWidth,
      BitVec.toNat_ushiftRight, Nat.shiftRight_eq_div_pow]
  · rw [if_neg (by omega), if_neg (by omega), if_neg (by omega), if_neg (by omega), if_neg (by omega)]
    rfl

end Sys2Proof.Machine
end

section
/-! SUPPORT. Control transfers (spec/04 R93, R94): where the lanes of a gang go on, what a transfer leaves alone, and the statement
about BRA, CALL, JMPF, BRI, RET and NOP. -/

namespace Sys2Proof.Machine

open Sys2Proof Sys2Proof.Safety

-- One proof at a time: side by side they need more threads than a check's memory holds.
set_option Elab.async false

/-! ### Gangs that move -/

/-- Of a state, only the gangs of workgroup `t` have moved. -/
structure GangsMoved (s s' : State) (t : Nat) : Prop where
  rest : s' = { s with wgs := s'.wgs }
  others : ∀ u, u ≠ t → s'.wg u = s.wg u
  wg : s'.wg t = { s.wg t with gangs := (s'.wg t).gangs, nextGang := (s'.wg t).nextGang }

theorem GangsMoved.refl (s : State) (t : Nat) : GangsMoved s s t := ⟨rfl, fun _ _ => rfl, rfl⟩

theorem GangsMoved.trans {a b c : State} {t : Nat} (h : GangsMoved a b t) (k : GangsMoved b c t) : GangsMoved a c t where
  rest := by rw [k.rest, h.rest]
  others u hu := (k.others u hu).trans (h.others u hu)
  wg := by rw [k.wg, h.wg]

theorem GangsMoved.of_updWg (s : State) (t : Nat) {f : Workgroup → Workgroup}
    (hf : f (s.wg t) = { s.wg t with gangs := (f (s.wg t)).gangs, nextGang := (f (s.wg t)).nextGang }) :
    GangsMoved s (s.updWg t f) t where
  rest := rfl
  others _ hu := State.wg_updWg_ne _ _ hu
  wg := by
    rw [State.wg_updWg_self]
    exact hf

theorem GangsMoved.updGang (s : State) (t g : Nat) (f : Gang → Gang) : GangsMoved s (s.updGang t g f) t := .of_updWg s t rfl

theorem GangsMoved.dropGang (s : State) (t g : Nat) : GangsMoved s (s.setWg t ((s.wg t).dropGang g)) t where
  rest := rfl
  others _ hu := State.wg_setWg_ne _ _ hu
  wg := by
    rw [State.wg_setWg_self]
    rfl

theorem GangsMoved.over {α : Type} {t : Nat} {f : State → α → State} (l : List α) (h : ∀ s, ∀ x ∈ l, GangsMoved s (f s x) t) (s : State) :
    GangsMoved s (overList l s f) t := by
  induction l generalizing s with
  | nil => exact .refl s t
  | cons a l ih => exact (h s a (by simp)).trans (ih (fun s x hx => h s x (List.mem_cons_of_mem _ hx)) (f s a))

/-- The gangs after the paths of a gang have been added, each with the lanes that take it. -/
theorem gangs_over_addGang {α : Type} {t : Nat} (mk : α → Gang) (l : List α) (s : State) :
    (∀ x ∈ (s.wg t).gangs, x ∈ ((overList l s fun s k => s.updWg t fun w => w.addGang (mk k)).wg t).gangs) ∧
    ∀ k ∈ l, ∃ n, { mk k with id := n, moved := true } ∈ ((overList l s fun s k => s.updWg t fun w => w.addGang (mk k)).wg t).gangs := by
  induction l generalizing s with
  | nil => exact ⟨fun x hx => hx, fun k hk => nomatch hk⟩
  | cons a l ih =>
    obtain ⟨hkeep, hnew⟩ := ih (s.updWg t fun w => w.addGang (mk a))
    have hgangs : ((s.updWg t fun w => w.addGang (mk a)).wg t).gangs =
        (s.wg t).gangs ++ [{ mk a with id := (s.wg t).nextGang, moved := true }] := by
      rw [State.wg_updWg_self]
      rfl
    refine ⟨fun x hx => hkeep x (by rw [hgangs]; simp [hx]), fun k hk => ?_⟩
    obtain rfl | hk := List.mem_cons.1 hk
    · exact ⟨(s.wg t).nextGang, hkeep _ (by rw [hgangs]; exact List.mem_append_right _ (List.mem_singleton.2 rfl))⟩
    · exact hnew k hk

/-- A gang of a workgroup, changed in place. -/
theorem Workgroup.mem_updGang {w : Workgroup} {g : Nat} {x : Gang} (h : w.gang? g = some x) (f : Gang → Gang) :
    f x ∈ (w.updGang g f).gangs := by
  obtain ⟨hid, hmem⟩ : x.id = g ∧ x ∈ w.gangs := ⟨by simpa using List.find?_some h, List.mem_of_find?_eq_some h⟩
  exact List.mem_map.2 ⟨x, hmem, if_pos hid⟩

/-- A gang replaced by one of its number is found under it. -/
theorem Workgroup.gang_updGang_const {w : Workgroup} {k : Nat} {x y : Gang} (h : w.gang? k = some x) (hy : y.id = k) :
    (w.updGang k fun _ => y).gang? k = some y := by
  have key : ∀ gs : List Gang, gs.find? (fun z => z.id == k) = some x →
      (gs.map fun z => if z.id = k then y else z).find? (fun z => z.id == k) = some y := by
    intro gs
    induction gs with
    | nil => exact fun h => nomatch h
    | cons z gs ih =>
      intro h
      by_cases hz : z.id = k
      · simp [hz, hy]
      · simpa [hz] using ih (by simpa [hz] using h)
  exact key w.gangs h

/-- The lanes of a mask are those of the home set at its positions. -/
theorem mem_lanesOf {h : Nat} {m : BitVec 32} {l : Nat} : l ∈ lanesOf h m ↔ homeOf l = h ∧ m.getLsbD (posOf l) = true :=
  mem_execLanes (g := { (default : Gang) with hset := h }) (r := { (default : ClauseRun) with exec := m })

/-- The bit of a lane in a mask of lanes of one home set. -/
theorem getLsbD_maskOfLanes {ls : List Nat} {l : Nat} (hl : l ∈ ls) : (maskOfLanes ls).getLsbD (posOf l) = true := by
  unfold maskOfLanes
  exact (getLsbD_maskOf _ (k := posOf l) (Nat.mod_lt _ (by decide))).2 (List.mem_map_of_mem hl)

/-! ### Transfers -/

/-- Where lane `l` goes on after a clause that transfers the lanes of `goto`. -/
def goesOnAt (r : ClauseRun) (goto : List (Nat × Nat)) (l : Nat) : Nat :=
  match goto.find? fun p => p.1 == l with
  | some p => p.2
  | none => r.next

/-- A lane that is not transferred goes on at the next clause. -/
theorem goesOnAt_of_not_any {r : ClauseRun} {goto : List (Nat × Nat)} {l : Nat} (h : (goto.any fun p => p.1 == l) = false) :
    goesOnAt r goto l = r.next := by
  unfold goesOnAt
  rw [List.find?_eq_none.2 fun p hp => by simpa using List.any_eq_false.1 h p hp]

/-- A transfer of lanes given with their targets. -/
theorem goesOnAt_map (r : ClauseRun) (ts : List Nat) (f : Nat → Nat) (l : Nat) :
    goesOnAt r (ts.map fun l => (l, f l)) l = if l ∈ ts then f l else r.next := by
  unfold goesOnAt
  rw [find_lane]
  split_ifs <;> rfl

/-- Whether a clause transfers lane `l`, and where the lane goes on. -/
def pathOf (r : ClauseRun) (goto : List (Nat × Nat)) (l : Nat) : Bool × Nat := (goto.any fun p => p.1 == l, goesOnAt r goto l)

/-- The gang of the lanes that take one path after a clause. -/
def Gang.onPath (g : Gang) (r : ClauseRun) (goto : List (Nat × Nat)) (k : Bool × Nat) : Gang :=
  { g with
    mask := maskOfLanes ((lanesOf g.hset g.mask).filter fun l => (pathOf r goto l).1 == k.1 && (pathOf r goto l).2 == k.2)
    clause := none
    park := none
    pc := if k.1 = false ∧ k.2 % 4096 = 0 then k.2 - 4 else k.2 }

/-- The paths of a clause that does not end on the last word of its segment fall through at no segment's end. -/
theorem path_within {r : ClauseRun} (hn : r.next % 4096 ≠ 0) (goto : List (Nat × Nat)) (l : Nat) :
    ¬ ((pathOf r goto l).1 = false ∧ (pathOf r goto l).2 % 4096 = 0) := by
  rintro ⟨h1, h2⟩
  rw [show (pathOf r goto l).2 = goesOnAt r goto l from rfl, goesOnAt_of_not_any h1] at h2
  exact hn h2

theorem overList_congr {α β : Type} {f g : β → α → β} (l : List α) (h : ∀ b, ∀ x ∈ l, f b x = g b x) (b : β) :
    overList l b f = overList l b g := by
  induction l generalizing b with
  | nil => rfl
  | cons a l ih =>
    show overList l (f b a) f = overList l (g b a) g
    rw [h b a (by simp), ih fun b x hx => h b x (List.mem_cons_of_mem _ hx)]

/-- A clause that ends before the last word of its segment takes its gang to the next one. -/
theorem State.endClause_next {s : State} {t k : Nat} {g : Gang} {r : ClauseRun} (hg : (s.wg t).gang? k = some g)
    (hn : r.next % 4096 ≠ 0) :
    (∃ x ∈ ((s.endClause t k r).wg t).gangs, x.hset = g.hset ∧ x.mask = g.mask ∧ x.clause = none ∧ x.park = none ∧ x.pc = r.next) ∧
      GangsMoved s (s.endClause t k r) t := by
  have hz : (r.next % 4096 == 0) = false := by simpa using hn
  unfold State.endClause
  dsimp only
  rw [hz, if_neg (by decide)]
  refine ⟨?_, .updGang ..⟩
  rw [State.updGang, State.wg_updWg_self]
  refine ⟨_, Workgroup.mem_updGang hg _, ?_⟩
  split <;> exact ⟨rfl, rfl, rfl, rfl, rfl⟩

/-- After a clause that does not end on the last word of its segment, the lanes of its gang go on where they are transferred to, and
the others at the next clause; gangs alone move. -/
theorem State.transfer_spread {s : State} {t : Nat} {g : Gang} {r : ClauseRun} (hg : (s.wg t).gang? g.id = some g)
    (hn : r.next % 4096 ≠ 0) (goto : List (Nat × Nat)) :
    Spread (s.transfer t g.id r goto) t g (goesOnAt r goto) ∧ GangsMoved s (s.transfer t g.id r goto) t := by
  set g1 := if hYield r.hdr.toNat then g.yielded (s.wg t).yhold.toNat else g with hg1
  have hset : g1.hset = g.hset := by rw [hg1]; split <;> rfl
  have hmask : g1.mask = g.mask := by rw [hg1]; split <;> rfl
  set ls := lanesOf g1.hset g1.mask with hls
  have hpath : ∀ l ∈ lanesOf g.hset g.mask, pathOf r goto l ∈ dedup (ls.map (pathOf r goto)) := fun l hl => by
    rw [mem_dedup, hls, hset, hmask]
    exact List.mem_map_of_mem hl
  have hall : s.transfer t g.id r goto = match dedup (ls.map (pathOf r goto)) with
      | [(true, pc)] => s.updGang t g.id fun _ => { g1 with clause := none, park := none, moved := true, pc := pc }
      | [(false, _)] => (s.updGang t g.id fun _ => g1).endClause t g.id r
      | ks => overList ks (s.setWg t ((s.wg t).dropGang g.id)) fun s k =>
          let s2 := s.updWg t fun w => w.addGang (g1.onPath r goto k)
          if k.1 = false ∧ k.2 % 4096 = 0 then s2.fallTrap t (s.wg t).nextGang (k.2 - 4) else s2 := by
    unfold State.transfer
    simp only [hg]
    rfl
  have hbit : ∀ l ∈ lanesOf g.hset g.mask, g.mask.getLsbD (posOf l) = true := fun l hl => (mem_lanesOf.1 hl).2
  rw [hall]
  split
  · next pc hone =>
    refine ⟨fun l hl => ?_, .updGang ..⟩
    have hl2 : pathOf r goto l = (true, pc) := List.mem_singleton.1 (hone ▸ hpath l hl)
    rw [State.updGang, State.wg_updWg_self]
    exact ⟨_, Workgroup.mem_updGang hg _, hset, (congrArg (fun m => m.getLsbD (posOf l)) hmask).trans (hbit l hl), rfl, rfl,
      (congrArg Prod.snd hl2).symm⟩
  · next pc hone =>
    have hx : ((s.updGang t g.id fun _ => g1).wg t).gang? g.id = some g1 := by
      rw [State.updGang, State.wg_updWg_self]
      exact Workgroup.gang_updGang_const hg (by rw [hg1]; split <;> rfl)
    obtain ⟨⟨x, hx, h1, h2, h3, h4, h5⟩, hmoved⟩ := State.endClause_next hx hn
    refine ⟨fun l hl => ?_, (GangsMoved.updGang ..).trans hmoved⟩
    have hl2 : pathOf r goto l = (false, pc) := List.mem_singleton.1 (hone ▸ hpath l hl)
    exact ⟨x, hx, h1.trans hset, (congrArg (fun m => m.getLsbD (posOf l)) (h2.trans hmask)).trans (hbit l hl), h3, h4,
      h5.trans (goesOnAt_of_not_any (congrArg Prod.fst hl2)).symm⟩
  · next ks hk1 hk2 =>
    have hplain : ∀ (s : State), ∀ k ∈ dedup (ls.map (pathOf r goto)), (
        let s2 := s.updWg t fun w => w.addGang (g1.onPath r goto k)
        if k.1 = false ∧ k.2 % 4096 = 0 then s2.fallTrap t (s.wg t).nextGang (k.2 - 4) else s2) =
          s.updWg t fun w => w.addGang (g1.onPath r goto k) := by
      intro s k hk
      obtain ⟨l, -, rfl⟩ := List.mem_map.1 (mem_dedup.1 hk)
      exact if_neg (path_within hn goto l)
    rw [overList_congr _ hplain]
    refine ⟨fun l hl => ?_, (GangsMoved.dropGang ..).trans (.over _ (fun _ _ _ => .of_updWg _ _ rfl) _)⟩
    obtain ⟨n, hmem⟩ := (gangs_over_addGang (t := t) (g1.onPath r goto) _ (s.setWg t ((s.wg t).dropGang g.id))).2 _ (hpath l hl)
    refine ⟨_, hmem, hset, ?_, rfl, rfl, if_neg (path_within hn goto l)⟩
    refine getLsbD_maskOfLanes (List.mem_filter.2 ⟨?_, by simp⟩)
    rw [hset, hmask]
    exact hl

/-- A clause that a transfer ends, from what its body has left: the lanes go on as the transfer says, and beyond the body only gangs,
open regions and Apprentice bindings have moved. -/
theorem laneIssue_transferred {s : State} {t : Nat} {g : Gang} {r : ClauseRun} {i : Instr} {es : List ApprEntry}
    (h : Ready s t g r i es) (hn : r.next % 4096 ≠ 0) {body : Env → Res} {s1 : State} {goto : List (Nat × Nat)}
    {ds : List (Sel × Nat)} (hb : body (opEnv s t g r es) = .jump s1 goto) (ha : BodyActed s s1 t ds) :
    ∃ s', laneIssue i body s = .next s' ∧ Transferred s s' t g (goesOnAt r goto) ds ∧
      (∀ l n, ((s'.wg t).lane l).reg n = ((s1.wg t).lane l).reg n) ∧ ∀ c, ((s'.wg t).crew c).s = ((s1.wg t).crew c).s := by
  have hlk : (opEnv s t g r es).holders = [] := Env.holders_nil (e := opEnv s t g r es) h.unlocked
  obtain ⟨hrest, hothers, hwg, -, hlane, hcrew, -⟩ := State.takePops_kept (s1.updWg t fun w => w) (opEnv s t g r es) i
  have hset : State.settleRes (opEnv s t g r es) i (.jump s1 goto) =
      (State.takePops (s1.updWg t fun w => w) (opEnv s t g r es) i).transfer t g.id r goto := by
    unfold State.settleRes State.countLocks
    simp only [hlk, overList, List.foldl_nil]
    rfl
  rw [laneIssue_ready h body, ← opEnv, hb, hset]
  generalize State.takePops (s1.updWg t fun w => w) (opEnv s t g r es) i = s2 at hrest hothers hwg hlane hcrew ⊢
  change ∀ u, u ≠ t → _ at hothers
  change s2.wg t = { (s1.updWg t fun w => w).wg t with lanes := (s2.wg t).lanes, crews := (s2.wg t).crews } at hwg
  change ∀ l, (s2.wg t).lane l = { ((s1.updWg t fun w => w).wg t).lane l with opened := ((s2.wg t).lane l).opened } at hlane
  change ∀ c, (s2.wg t).crew c = { ((s1.updWg t fun w => w).wg t).crew c with appr := ((s2.wg t).crew c).appr } at hcrew
  simp only [State.wg_updWg_self] at hwg hlane hcrew
  have hg : (s2.wg t).gang? g.id = some g := by
    rw [hwg]
    unfold Workgroup.gang?
    rw [ha.gangs]
    exact h.gang
  obtain ⟨hspread, hmoved⟩ := State.transfer_spread hg hn goto
  generalize s2.transfer t g.id r goto = s3 at hspread hmoved ⊢
  have hl3 : ∀ l, (s3.wg t).lane l = { (s1.wg t).lane l with opened := ((s3.wg t).lane l).opened } := fun l => by
    rw [show (s3.wg t).lane l = (s2.wg t).lane l by rw [hmoved.wg]; rfl]
    exact hlane l
  have hc3 : ∀ c, (s3.wg t).crew c = { (s1.wg t).crew c with appr := ((s3.wg t).crew c).appr } := fun c => by
    rw [show (s3.wg t).crew c = (s2.wg t).crew c by rw [hmoved.wg]; rfl]
    exact hcrew c
  have hreg3 : ∀ l n, ((s3.wg t).lane l).reg n = ((s1.wg t).lane l).reg n := fun l n => by
    rw [hl3]
    rfl
  have hu3 : ∀ c, ((s3.wg t).crew c).s = ((s1.wg t).crew c).s := fun c => by rw [hc3]
  have hother : ∀ u, u ≠ t → s3.wg u = s.wg u := fun u hu => by
    rw [hmoved.others u hu, hothers u hu, State.wg_updWg_ne _ _ hu, ha.others u hu]
  refine ⟨_, rfl, ⟨hspread, ⟨?_, hother⟩, ⟨fun l n hd => ?_, fun l => ?_, fun c n hd => ?_⟩, fun u a => ?_⟩, hreg3, hu3⟩
  · rw [hmoved.rest, hrest, ha.rest]
    rfl
  · exact (hreg3 l n).trans (ha.regs.regs l n hd)
  · show ((s3.wg t).lane l).p = _ ∧ ((s3.wg t).lane l).cf = _ ∧ ((s3.wg t).lane l).fpmode = _
    rw [hl3]
    exact ha.regs.flags l
  · show ((s3.wg t).crew c).s.get n = _
    rw [hu3]
    exact ha.regs.uniform c n hd
  · show (s3.wg u).win.get a = _
    by_cases hu : u = t
    · subst hu
      rw [hmoved.wg, hwg]
      exact congrArg (fun m => SMap.get m a) ha.win
    · rw [hother u hu]

end Sys2Proof.Machine
end

section
/-! SUPPORT. BRA, CALL, JMPF, BRI, RET and NOP (spec/04 R93, R94): what each transfers, and the statement about them. -/

namespace Sys2Proof.Machine

open Sys2Proof Sys2Proof.Safety

-- One proof at a time: side by side they need more threads than a check's memory holds.
set_option Elab.async false

/-- A body that leaves its state. -/
theorem BodyActed.refl (s : State) (t : Nat) (ds : List (Sel × Nat)) : BodyActed s (taken s) t ds :=
  ⟨rfl, fun _ _ => rfl, rfl, rfl, fun _ _ _ => rfl, fun _ => ⟨rfl, rfl, rfl⟩, fun _ _ _ => rfl⟩

section
variable {s : State} {t : Nat} {g : Gang} {r : ClauseRun} {es : List ApprEntry} {i : Instr} {body : Env → Res}

/-- A clause whose last instruction transfers the lanes `ts`, and changes nothing else. -/
theorem laneIssue_goes (h : Ready s t g r i es) (hn : r.next % 4096 ≠ 0) {ts : List Nat} {f : Nat → Nat}
    (hb : body (opEnv s t g r es) = .jump (taken s) (ts.map fun l => (l, f l))) :
    ∃ s', laneIssue i body s = .next s' ∧ Transferred s s' t g (fun l => if l ∈ ts then f l else r.next) [] := by
  obtain ⟨s', hs, htr, -⟩ := laneIssue_transferred h hn hb (BodyActed.refl s t [])
  rw [funext (goesOnAt_map r ts f)] at htr
  exact ⟨s', hs, htr⟩

/-- The lanes that a branch transfers. -/
theorem taken_opEnv (p : Nat) (pn : Bool) :
    (opEnv s t g r es).taken p pn = (execLanes g r).filter fun l => predOf s t l p != pn := rfl

/-- A branch that transfers no lane. -/
theorem branchBody_none {p : Nat} {pn : Bool} {off : BitVec 18} (hts : (opEnv s t g r es).taken p pn = []) (link : Bool) :
    branchBody link p pn off (opEnv s t g r es) = .jump (taken s) [] := by
  unfold branchBody
  rw [hts]
  rfl

/-- A branch within its segment transfers its lanes; CALL has written their o7. -/
theorem branchBody_near {p : Nat} {pn : Bool} {off : BitVec 18} (hts : (opEnv s t g r es).taken p pn ≠ [])
    (hnear : sameSegment (envOf s t g r).fpc off = true) (link : Bool) :
    branchBody link p pn off (opEnv s t g r es) = .jump
      (if link then (taken s).updWg t fun w => w.writeSel s.free (.o 7)
        (((opEnv s t g r es).taken p pn).map fun l => (l, [BitVec.ofNat 32 ((envOf s t g r).fpc + 4)])) else taken s)
      (((opEnv s t g r es).taken p pn).map fun l => (l, branchTarget (envOf s t g r).fpc off)) := by
  have hfpc : (opEnv s t g r es).fpc = (envOf s t g r).fpc := rfl
  unfold branchBody
  split
  · next h => exact absurd h hts
  · rw [hfpc, hnear, if_neg (by decide)]
    rfl

/-- A branch out of its segment traps in the lanes it transfers. -/
theorem branchBody_far {p : Nat} {pn : Bool} {off : BitVec 18} (hts : (opEnv s t g r es).taken p pn ≠ [])
    (hfar : sameSegment (envOf s t g r).fpc off = false) (link : Bool) :
    branchBody link p pn off (opEnv s t g r es) = (opEnv s t g r es).trap 0x01 ((opEnv s t g r es).taken p pn) := by
  have hfpc : (opEnv s t g r es).fpc = (envOf s t g r).fpc := rfl
  unfold branchBody
  split
  · next h => exact absurd h hts
  · rw [hfpc, hfar, if_pos rfl]

/-- A branch that reaches its target, or transfers no lane, goes on there. -/
theorem bra_goes (h : Ready s t g r i es) (hn : r.next % 4096 ≠ 0) {p : Nat} {pn : Bool} {off : BitVec 18}
    (hnear : (opEnv s t g r es).taken p pn = [] ∨ sameSegment (envOf s t g r).fpc off = true) :
    ∃ s', laneIssue i (branchBody false p pn off) s = .next s' ∧
      Transferred s s' t g (fun l => if l ∈ (opEnv s t g r es).taken p pn then branchTarget (envOf s t g r).fpc off else r.next) [] := by
  refine laneIssue_goes h hn ?_
  by_cases hts : (opEnv s t g r es).taken p pn = []
  · rw [branchBody_none hts, hts]
    rfl
  · exact branchBody_near hts (hnear.resolve_left hts) false

/-- CALL writes the return address to o7 of the lanes it transfers. -/
theorem call_goes (h : Ready s t g r i es) (hn : r.next % 4096 ≠ 0) {p : Nat} {pn : Bool} {off : BitVec 18}
    (hnear : (opEnv s t g r es).taken p pn = [] ∨ sameSegment (envOf s t g r).fpc off = true) :
    ∃ s', laneIssue i (branchBody true p pn off) s = .next s' ∧
      Transferred s s' t g (fun l => if l ∈ (opEnv s t g r es).taken p pn then branchTarget (envOf s t g r).fpc off else r.next)
        [(.o 7, 1)] ∧
      Holds (s.wg t) (s'.wg t) ((opEnv s t g r es).taken p pn) (some (.o 7, 1)) (fun _ => BitVec.ofNat 64 ((envOf s t g r).fpc + 4)) ∧
      ∀ l, l ∉ (opEnv s t g r es).taken p pn → ((s'.wg t).lane l).reg 263 = ((s.wg t).lane l).reg 263 := by
  set ts := (opEnv s t g r es).taken p pn with hdef
  by_cases hts : ts = []
  · obtain ⟨s', hs, htr, hreg, -⟩ := laneIssue_transferred h hn (branchBody_none (off := off) (hdef ▸ hts) true) (BodyActed.refl s t [(.o 7, 1)])
    rw [show goesOnAt r [] = fun l => if l ∈ ts then branchTarget (envOf s t g r).fpc off else r.next from
      funext fun l => by simp [hts, goesOnAt]] at htr
    refine ⟨s', hs, htr, ?_, fun l _ => hreg l 263⟩
    rw [hts]
    exact fun c _ l hl => nomatch hl
  · set vals := ts.map fun l => (l, [BitVec.ofNat 32 ((envOf s t g r).fpc + 4)]) with hvals
    have hsplit : vals = ts.map fun l => (l, splitWords 1 (BitVec.ofNat 64 ((envOf s t g r).fpc + 4))) := by
      simp [hvals, splitWords, BitVec.setWidth_ofNat_of_le (show 32 ≤ 64 by decide)]
    obtain ⟨s', hs, htr, hreg, huni⟩ := laneIssue_transferred h hn (branchBody_near (off := off) hts (hnear.resolve_left hts) true)
      (BodyActed.of_writeSel (k := 1) (vals := vals) fun p hp => by
        obtain ⟨l, -, rfl⟩ := List.mem_map.1 hp
        rfl)
    rw [funext (goesOnAt_map r ts _)] at htr
    rw [if_pos rfl] at hreg huni
    rw [State.wg_updWg_self] at hreg huni
    refine ⟨s', hs, htr, ?_, fun l hl => ?_⟩
    · have hold := Workgroup.writeSel_holds (s.wg t) s.free (.o 7) 1 (.inl rfl) ts ((lanesOf_nodup g.hset r.exec).filter _)
        fun _ => BitVec.ofNat 64 ((envOf s t g r).fpc + 4)
      refine Safety.Holds.congr hold (fun _ => rfl) rfl (fun l c => ?_) fun c => ?_
      · rw [hreg, ← hsplit]
        rfl
      · rw [huni, ← hsplit]
        rfl
    · have ht := Touch.writeSel (ls := ts) (k := 1) (s.wg t) s.free (.o 7) vals fun p hp => by
        obtain ⟨l, hl, rfl⟩ := List.mem_map.1 hp
        exact ⟨hl, rfl⟩
      exact (hreg l 263).trans (congrArg (fun x => x.reg 263) (ht.outside l hl))

/-- BRI and RET transfer every lane of E where all their targets pass, and trap with the cause of the lowest lane whose target
does not. -/
theorem indirect_settles (h : Ready s t g r i es) (hn : r.next % 4096 ≠ 0) (q : Sel) :
    let x := fun l => ((opEnv s t g r es).int32 l q 0 0).toNat
    let bad := fun l => (opEnv s t g r es).targetCause l (x l)
    ((∀ l ∈ execLanes g r, bad l = none) → ∃ s', laneIssue i (indirectBody q) s = .next s' ∧
      Transferred s s' t g (fun l => if l ∈ execLanes g r then x l else r.next) []) ∧
    ∀ l lower upper cause, execLanes g r = lower ++ l :: upper → (∀ k ∈ lower, bad k = none) → bad l = some cause →
      keepsPops i = false →
      laneIssue i (indirectBody q) s = .next (((taken s).takeTrap t g.id
        { cause := cause, faulters := (execLanes g r).filter fun k => x k == x l, fpc := x l }).spent s.free) := by
  intro x bad
  have hfind : ∀ ls : List Nat, (ls.map fun l => (l, x l)).findSome? (fun p => ((opEnv s t g r es).targetCause p.1 p.2).map fun c => (p.2, c)) =
      ls.findSome? fun l => (bad l).map fun c => (x l, c) := fun ls => by
    rw [List.findSome?_map]
    rfl
  have hbody : indirectBody q (opEnv s t g r es) = match (execLanes g r).findSome? fun l => (bad l).map fun c => (x l, c) with
      | none => .jump (taken s) ((execLanes g r).map fun l => (l, x l))
      | some (y, c) => .trap (taken s) { cause := c, faulters := (execLanes g r).filter fun k => x k == y, fpc := y } := by
    rw [← hfind]
    have hflt : ∀ y, (((execLanes g r).map fun l => (l, x l)).filter fun p => p.2 == y).map (·.1) =
        (execLanes g r).filter fun k => x k == y := fun y => by
      rw [List.filter_map, List.map_map]
      exact List.map_id _
    simp only [← hflt]
    rfl
  refine ⟨fun hall => laneIssue_goes h hn ?_, fun l lower upper cause hls hlow hbad hk => ?_⟩
  · rw [hbody, List.findSome?_eq_none_iff.2 fun l hl => by rw [hall l hl]; rfl]
  · have hsome : (execLanes g r).findSome? (fun l => (bad l).map fun c => (x l, c)) = some (x l, cause) := by
      rw [hls, List.findSome?_append, List.findSome?_eq_none_iff.2 fun k hk => by rw [hlow k hk]; rfl]
      simp [hbad]
    rw [laneIssue_ready h, ← opEnv, hbody, hsome]
    simp only [State.settleRes, hk, Bool.false_and, Bool.false_eq_true, if_false]
    rfl

/-- An instruction that pops nothing, and whose body leaves its state, leaves the lanes. -/
theorem lanes_of_pure (h : Ready s t g r i es) (hp : popless i = true) {s' : State} {vals : List (Nat × Dword)}
    (hs : laneIssue i (fun e => .ok e.s vals) s = .next s') : (s'.wg t).lanes = (s.wg t).lanes := by
  have hlk : (opEnv s t g r es).holders = [] := Env.holders_nil (e := opEnv s t g r es) h.unlocked
  rw [laneIssue_ready h, ← opEnv, State.settle_ok hlk hp] at hs
  obtain ⟨f, -, hadv⟩ := State.advance_frame (s := (taken s).updWg t fun w => w) (t := t) (g := g) (i := i) h.plain h.within vals
  change Host.Outcome.next (((((taken s).updWg t fun w => w).advance t g.id i r vals)).spent s.free) = _ at hs
  rw [hadv] at hs
  cases hs
  rw [State.wg_spent, State.updGang, State.wg_updWg_self, Workgroup.updGang, State.wg_updWg_self]
  rfl

end

/-- Settles O32: a branch's target lies in its segment just where its segment bits agree; the rest is which lanes are transferred. -/
theorem controlTransfers : Obligations.ControlTransfers := by
  unfold Obligations.ControlTransfers
  intro s t g r es ls fpc goes hn
  refine ⟨fun p pn off => ?_, fun p pn seg word h => ?_, fun i q hi h => ?_, fun h => ?_⟩
  · intro ts target near
    have hsame : sameSegment fpc off = true ↔ near := by
      unfold sameSegment
      rw [beq_iff_eq]
      rfl
    refine ⟨fun h => ⟨fun hnear => ?_, fun hts hfar => ?_⟩, fun h => ⟨fun hnear => ?_, fun hts hfar => ?_⟩⟩
    · obtain ⟨s', hs, htr⟩ := bra_goes h hn (p := p) (pn := pn) (off := off) (hnear.imp_right hsame.2)
      exact ⟨s', (bothIssue_ready h _ _).trans hs, htr⟩
    · exact (bothIssue_ready h _ _).trans (laneIssue_trapped h rfl (branchBody_far hts (Bool.eq_false_iff.2 (mt hsame.1 hfar)) false))
    · exact call_goes h hn (hnear.imp_right hsame.2)
    · exact laneIssue_trapped h rfl (branchBody_far hts (Bool.eq_false_iff.2 (mt hsame.1 hfar)) true)
  · intro ts bad
    have hall : (ts.all fun l => (taken s).segLanded (s.wg t) ((s.wg t).domOf l) seg) = true ↔ bad = [] := by
      simp [bad, List.filter_eq_nil_iff]
    have hbody : jmpfBody p pn seg word (opEnv s t g r es) =
        if (ts.all fun l => (taken s).segLanded (s.wg t) ((s.wg t).domOf l) seg) = true
        then .jump (taken s) (ts.map fun l => (l, 4096 * seg + 4 * word)) else (opEnv s t g r es).trap 0xA0 ts := rfl
    refine ⟨fun hb => laneIssue_goes h hn ?_, fun hb => laneIssue_trapped h rfl ?_⟩
    · rw [hbody, if_pos (hall.2 hb)]
    · rw [hbody, if_neg (mt hall.1 hb)]
  · obtain ⟨hexec, hk⟩ : exec i s = laneIssue i (indirectBody q) s ∧ keepsPops i = false := by
      rcases hi with rfl | ⟨rfl, rfl⟩ <;> exact ⟨rfl, rfl⟩
    obtain ⟨hgo, htrap⟩ := indirect_settles h hn q
    rw [hexec]
    exact ⟨hgo, fun l lower upper cause hls hlow hbad => htrap l lower upper cause hls hlow hbad hk⟩
  · obtain ⟨s', hs, hact, hcl⟩ := laneIssue_acted h (body := fun e => .ok e.s []) (s1 := taken s) rfl (BodyActed.refl s t [])
    exact ⟨s', (bothIssue_ready h _ _).trans hs, hact, lanes_of_pure h rfl hs⟩

end Sys2Proof.Machine
end

section
/-! SUPPORT. What operations on lanes and crews do: the end of intervals (spec/10 R249), the release of locks, posts that are
dropped. -/

namespace Sys2Proof.Machine

open Sys2Proof Sys2Proof.Safety

-- One proof at a time: side by side they need more threads than a check's memory holds.
set_option Elab.async false

/-! ### Crews of lanes -/

/-- Lanes of one crew have that crew alone. -/
theorem Workgroup.crewsOf_eq_singleton {w : Workgroup} {ls : List Nat} {c : Nat} (hne : ls ≠ []) (h : ∀ l ∈ ls, (w.lane l).crew = some c) :
    w.crewsOf ls = [c] := by
  have hmem : ∀ x, x ∈ w.crewsOf ls ↔ x = c := fun x => by
    rw [Workgroup.mem_crewsOf]
    obtain ⟨l, hl⟩ := List.exists_mem_of_ne_nil ls hne
    exact ⟨fun ⟨l, hl, hx⟩ => Option.some.inj (hx.symm.trans (h l hl)), fun hx => ⟨l, hl, hx ▸ h l hl⟩⟩
  have hlen : (w.crewsOf ls).length ≤ 1 := by
    unfold Workgroup.crewsOf
    rw [length_sortNat]
    refine length_dedup_le_one fun x hx y hy => ?_
    obtain ⟨l, hl, hxl⟩ := List.mem_filterMap.1 hx
    obtain ⟨m, hm, hym⟩ := List.mem_filterMap.1 hy
    exact Option.some.inj ((hxl.symm.trans (h l hl)).trans ((h m hm).symm.trans hym))
  obtain hnil | ⟨x, hx⟩ : w.crewsOf ls = [] ∨ ∃ x, w.crewsOf ls = [x] := by
    cases hc : w.crewsOf ls with
    | nil => exact .inl rfl
    | cons x xs =>
      rw [hc] at hlen
      cases xs with
      | nil => exact .inr ⟨x, rfl⟩
      | cons y ys => simp at hlen
  · exact absurd ((hmem c).2 rfl) (by simp [hnil])
  · rw [hx, (hmem x).1 (by simp [hx])]

/-! ### Operations on lanes -/

theorem Workgroup.lane_releaseLocks (w : Workgroup) (ls : List Nat) (l : Nat) :
    (w.releaseLocks ls).lane l = if l ∈ ls then { w.lane l with lock := none } else w.lane l := by
  unfold Workgroup.releaseLocks
  induction ls generalizing w with
  | nil => rfl
  | cons a t ih =>
    show (overList t (w.updLane a fun x => { x with lock := none }) _).lane l = _
    rw [ih, Workgroup.lane_updLane]
    by_cases h : l = a
    · subst h; by_cases h2 : l ∈ t <;> simp [h2]
    · by_cases h2 : l ∈ t <;> simp [h, h2]

theorem Workgroup.releaseLocks_rest (w : Workgroup) (ls : List Nat) : w.releaseLocks ls = { w with lanes := (w.releaseLocks ls).lanes } :=
  Workgroup.overUpd_rest ls (fun l => l) (fun _ x => { x with lock := none }) w

theorem Workgroup.crew_dropPosts (w : Workgroup) (p : FlightItem → Bool) (c : Nat) :
    (w.dropPosts p).crew c = { w.crew c with flight := countOff ((w.crew c).flight.filter fun i => !p i) } :=
  SMap.get_map w.crews (fun c => { c with flight := countOff (c.flight.filter fun i => !p i) }) c rfl

/-- A function applied at each of a list of keys, at one of them or none. -/
theorem Workgroup.lane_overLanes (ls : List Nat) (hn : ls.Nodup) (f : Lane → Lane) (w : Workgroup) (l : Nat) :
    (overList ls w fun w l => w.updLane l f).lane l = if l ∈ ls then f (w.lane l) else w.lane l := by
  induction ls generalizing w with
  | nil => rfl
  | cons a t ih =>
    obtain ⟨ha, hn⟩ := List.nodup_cons.1 hn
    show (overList t (w.updLane a f) _).lane l = _
    rw [ih hn, Workgroup.lane_updLane]
    by_cases h : l = a
    · simp [h, ha]
    · simp [h]

/-! ### The end of intervals -/

/-- Marks on crews leave everything else of a workgroup. -/
theorem Workgroup.overCrews_rest (cs : List Nat) (f : Crew → Crew) (w : Workgroup) :
    (overList cs w fun w c => w.updCrew c f) = { w with crews := (overList cs w fun w c => w.updCrew c f).crews } := by
  induction cs generalizing w with
  | nil => rfl
  | cons a t ih => exact ih (w.updCrew a f)

/-- The end of intervals changes lanes and crews alone. -/
theorem Workgroup.endInterval_rest (w : Workgroup) (ls : List Nat) :
    w.endInterval ls = { w with lanes := (w.endInterval ls).lanes, crews := (w.endInterval ls).crews } := by
  unfold Workgroup.endInterval
  rw [Workgroup.overCrews_rest, Workgroup.overUpd_rest ls (fun l => l) (fun _ x => { x with interval := x.interval + 1 }) w]

theorem Workgroup.lane_endInterval (w : Workgroup) {ls : List Nat} (hn : ls.Nodup) (l : Nat) :
    (w.endInterval ls).lane l = if l ∈ ls then { w.lane l with interval := (w.lane l).interval + 1 } else w.lane l := by
  unfold Workgroup.endInterval
  rw [Workgroup.overCrews_rest]
  exact Workgroup.lane_overLanes ls hn (fun x => { x with interval := x.interval + 1 }) w l

/-- Of a lane, the end of intervals changes the interval alone. -/
theorem Workgroup.lane_endInterval_rest (w : Workgroup) (ls : List Nat) (l : Nat) :
    (w.endInterval ls).lane l = { w.lane l with interval := ((w.endInterval ls).lane l).interval } := by
  unfold Workgroup.endInterval
  rw [Workgroup.overCrews_rest]
  show (overList ls w fun w l => w.updLane l fun x => { x with interval := x.interval + 1 }).lane l =
    { w.lane l with interval := ((overList ls w fun w l => w.updLane l fun x => { x with interval := x.interval + 1 }).lane l).interval }
  induction ls generalizing w with
  | nil => rfl
  | cons a t ih =>
    refine (ih (w.updLane a fun x => { x with interval := x.interval + 1 })).trans ?_
    rw [Workgroup.lane_updLane]
    split
    · next h =>
      rw [h]
      rfl
    · rfl

/-- Of a crew, the end of intervals changes SYNC alone. -/
theorem Workgroup.crew_endInterval (w : Workgroup) (ls : List Nat) (c : Nat) :
    (w.endInterval ls).crew c = { w.crew c with syncDue := ((w.endInterval ls).crew c).syncDue } := by
  unfold Workgroup.endInterval
  have key : ∀ (cs : List Nat) (v : Workgroup), (overList cs v fun w c => w.updCrew c fun x => { x with syncDue := true }).crew c =
      { v.crew c with
        syncDue := ((overList cs v fun w c => w.updCrew c fun x => { x with syncDue := true }).crew c).syncDue } := by
    intro cs
    induction cs with
    | nil => exact fun _ => rfl
    | cons a t ih =>
      intro v
      refine (ih (v.updCrew a fun x => { x with syncDue := true })).trans ?_
      rw [Workgroup.crew_updCrew]
      split
      · next h =>
        rw [h]
        rfl
      · rfl
  refine (key _ _).trans ?_
  rw [Workgroup.overUpd_rest ls (fun l => l) (fun _ x => { x with interval := x.interval + 1 }) w]
  rfl

/-! ### What stores and banks leave of a workgroup -/

/-- Of a workgroup, only the carve-out's copies and the monitors have changed. -/
structure Calm (w w' : Workgroup) : Prop where
  rest : w' = { w with l1 := w'.l1, crews := w'.crews }
  crew : ∀ c, w'.crew c = { w.crew c with monitor := (w'.crew c).monitor }

theorem Calm.refl (w : Workgroup) : Calm w w := ⟨rfl, fun _ => rfl⟩

theorem Calm.of_eq {w w' : Workgroup} (h : w' = w) : Calm w w' := h ▸ .refl w

theorem Calm.trans {a b c : Workgroup} (h : Calm a b) (k : Calm b c) : Calm a c where
  rest := by rw [k.rest, h.rest]
  crew n := by rw [k.crew, h.crew]

theorem Calm.over {α : Type} {f : State → α → State} (t : Nat) (h : ∀ s x, Calm (s.wg t) ((f s x).wg t)) (l : List α) (s : State) :
    Calm (s.wg t) ((overList l s f).wg t) := by
  induction l generalizing s with
  | nil => exact .refl _
  | cons a l ih => exact (h s a).trans (ih (f s a))

/-- The monitors of a crew on some lines fire. -/
def Crew.firedOn (lines : List Nat) (c : Crew) : Crew :=
  match c.monitor with
  | some m => if lines.contains m.line then { c with monitor := some { m with fired := true } } else c
  | none => c

theorem Crew.firedOn_rest (lines : List Nat) (c : Crew) : c.firedOn lines = { c with monitor := (c.firedOn lines).monitor } := by
  unfold Crew.firedOn
  split
  · split <;> rfl
  · rfl

theorem get_fireMonitors (lines : List Nat) (wgs : SMap Workgroup) (t : Nat) : (fireMonitors lines wgs).get t =
    { wgs.get t with crews := (wgs.get t).crews.map fun c => (c.1, c.2.firedOn lines) } :=
  SMap.get_map wgs (fun w => { w with crews := w.crews.map fun c => (c.1, c.2.firedOn lines) }) t rfl

theorem Calm.fireMonitors (lines : List Nat) (wgs : SMap Workgroup) (t : Nat) : Calm (wgs.get t) ((fireMonitors lines wgs).get t) := by
  rw [get_fireMonitors]
  refine ⟨rfl, fun c => ?_⟩
  have hc : ({ wgs.get t with crews := (wgs.get t).crews.map fun c => (c.1, c.2.firedOn lines) } : Workgroup).crew c =
      ((wgs.get t).crew c).firedOn lines := SMap.get_map (wgs.get t).crews (Crew.firedOn lines) c rfl
  rw [hc]
  exact Crew.firedOn_rest lines _

theorem State.wg_dropRaces (s : State) (lines : List Nat) (t : Nat) : (s.dropRaces lines).wg t = s.wg t := by
  unfold State.dropRaces
  induction lines generalizing s with
  | nil => rfl
  | cons a l ih =>
    refine (ih _).trans ?_
    dsimp only
    split <;> rfl

theorem Calm.invalidateRows (s : State) (g t : Nat) : Calm (s.wg t) ((s.invalidateRows g).wg t) := by
  unfold State.invalidateRows
  dsimp only
  split
  · exact .refl _
  · set lines := (s.pch g).opened.flatMap fun k => linesOf (rowAddr g (k / 65536) (k % 65536)) 1024
    have hget : SMap.get (((s.dropRaces lines).updPch g fun p => { p with opened := [] }).wgs.map fun p =>
        (p.1, { p.2 with l1 := p.2.l1.filter fun x => !lines.contains (x.1 / 64) })) t =
          { s.wg t with l1 := (s.wg t).l1.filter fun x => !lines.contains (x.1 / 64) } := by
      refine (SMap.get_map _ (fun w : Workgroup => { w with l1 := w.l1.filter fun x => !lines.contains (x.1 / 64) }) t rfl).trans ?_
      rw [← State.wg_dropRaces s lines t]
      rfl
    have hcalm : Calm (s.wg t) { s.wg t with l1 := (s.wg t).l1.filter fun x => !lines.contains (x.1 / 64) } := ⟨rfl, fun _ => rfl⟩
    rw [← hget] at hcalm
    exact hcalm

theorem Calm.restoreRows (s : State) (g : Nat) (banks : List Nat) (t : Nat) : Calm (s.wg t) ((s.restoreRows g banks).wg t) :=
  Calm.fireMonitors _ s.wgs t

theorem Calm.forceExit (s : State) (g reason : Nat) (lost : Bool) (t : Nat) : Calm (s.wg t) ((s.forceExit g reason lost).wg t) :=
  (Calm.restoreRows s g _ t).trans (Calm.invalidateRows _ g t)

theorem Calm.endOwnership (s : State) (u : Nat) (crew : Option Nat) (reason t : Nat) :
    Calm (s.wg t) ((s.endOwnership u crew reason).wg t) :=
  Calm.over t (fun s _ => .forceExit s _ _ _ t) _ s

theorem Calm.physWrite (s : State) (core : Option Nat) (a : Nat) (bs : List Byte) (t : Nat) :
    Calm (s.wg t) ((s.physWrite core a bs).wg t) := by
  unfold State.physWrite
  split
  · exact .refl _
  · have hget : ∀ m : SMap Workgroup, Calm (m.get t) (SMap.get (m.map fun p =>
        if core == some p.2.core then (p.1, { p.2 with l1 := l1Update p.2.l1 a bs }) else p) t) := by
      intro m
      have hmap : (m.map fun p => if core == some p.2.core then (p.1, { p.2 with l1 := l1Update p.2.l1 a bs }) else p) =
          m.map fun p => (p.1, if core == some p.2.core then { p.2 with l1 := l1Update p.2.l1 a bs } else p.2) :=
        List.map_congr_left fun p _ => by split <;> rfl
      rw [hmap]
      refine Calm.trans ?_ (.of_eq (SMap.get_map m (fun w : Workgroup =>
        if core == some w.core then { w with l1 := l1Update w.l1 a bs } else w) t (by split <;> rfl)))
      split
      · exact ⟨rfl, fun _ => rfl⟩
      · exact .refl _
    exact (Calm.fireMonitors _ s.wgs t).trans (hget _)

end Sys2Proof.Machine
end

section
/-! SUPPORT. Traps of lanes of one crew (spec/15 R359-R371): how the trap is set up, what the crew does with it where it runs its
handler already, and the statement about TRAP. -/

namespace Sys2Proof.Machine

open Sys2Proof Sys2Proof.Safety

-- One proof at a time: side by side they need more threads than a check's memory holds.
set_option Elab.async false

/-! ### The set-up of a trap -/

/-- A workgroup whose gang `gid` stops in a trap, its lanes' locks released and its posts that wait dropped. -/
def Workgroup.stopGang (w : Workgroup) (gid : Nat) (ls : List Nat) : Workgroup :=
  ((w.dropGang gid).releaseLocks ls).dropPosts fun i => i.isPost gid

theorem Workgroup.lane_stopGang (w : Workgroup) (gid : Nat) (ls : List Nat) (l : Nat) :
    (w.stopGang gid ls).lane l = { w.lane l with lock := ((w.stopGang gid ls).lane l).lock } :=
  by
    rw [show (w.stopGang gid ls).lane l = ((w.dropGang gid).releaseLocks ls).lane l from rfl, Workgroup.lane_releaseLocks]
    split <;> rfl

theorem Workgroup.crew_stopGang (w : Workgroup) (gid : Nat) (ls : List Nat) (c : Nat) :
    (w.stopGang gid ls).crew c = (w.dropPosts fun i => i.isPost gid).crew c := by
  unfold Workgroup.stopGang
  rw [Workgroup.crew_dropPosts, Workgroup.crew_dropPosts, Workgroup.releaseLocks_rest]
  rfl

theorem Workgroup.stopGang_rest (w : Workgroup) (gid : Nat) (ls : List Nat) : w.stopGang gid ls =
    { w with lanes := (w.stopGang gid ls).lanes, crews := (w.stopGang gid ls).crews, gangs := (w.stopGang gid ls).gangs } := by
  unfold Workgroup.stopGang Workgroup.dropPosts
  rw [Workgroup.releaseLocks_rest]
  rfl

/-- The trap that faulters of crew `c` take. -/
def TrapReq.issueOf (q : TrapReq) (c id hset : Nat) (issue : BitVec 32) (resume : List Resume) : TrapIssue where
  id := id
  hset := hset
  issue := issue
  fpc := q.fpc
  cause := q.cause
  resume := resume
  todo := [{ crew := some c, faulters := maskOfLanes q.faulters, detail := q.detail (q.faulters.headD 0), recs := (q.recs q.faulters).take 64 }]
  cur := none

/-- The workgroup in which a trap stands that no crew has taken yet: the faulters' intervals have ended. -/
def Workgroup.withTrap (w : Workgroup) (ti : TrapIssue) (ls : List Nat) : Workgroup :=
  { w.endInterval ls with traps := w.traps ++ [ti], nextTrap := w.nextTrap + 1 }

/-- The state in which a trap of gang `g`, standing in clause `r`, waits for crew `c` to take it. -/
def State.trapStarted (s : State) (t : Nat) (g : Gang) (r : ClauseRun) (q : TrapReq) (c : Nat) : State :=
  let w := (s.wg t).stopGang g.id (issueLanes g r)
  let q1 := { q with afterClaim := q.afterClaim || r.pend.claimed.isSome }
  (s.setWg t w).setWg t (w.withTrap (q.issueOf c w.nextTrap g.hset r.issue
    ((issueLanes g r).map fun l => resumeOf g q1 l ((s.wg t).lane l))) q.faulters)

/-- The part of a trap that crew `c` takes, if it holds faulters. -/
def Workgroup.trapPart (w : Workgroup) (q : TrapReq) (c : Option Nat) : Option TrapCrew :=
  match q.faulters.filter fun l => (w.lane l).crew == c with
  | [] => none
  | low :: ls => some { crew := c, faulters := maskOfLanes (low :: ls), detail := q.detail low, recs := (q.recs (low :: ls)).take 64 }

theorem State.startTrap_eq (s : State) (t hset : Nat) (issue : BitVec 32) (resume : List Resume) (q : TrapReq) :
    s.startTrap t hset issue resume q = (State.nextCrew t (s.wg t).nextTrap 66 (s.setWg t
      { (s.wg t).endInterval q.faulters with
        traps := ((s.wg t).endInterval q.faulters).traps ++ [{
          id := (s.wg t).nextTrap, hset := hset, issue := issue, fpc := q.fpc, cause := q.cause, resume := resume, cur := none
          todo := (((s.wg t).crewsOf q.faulters).map some ++ [none]).filterMap ((s.wg t).trapPart q) }]
        nextTrap := ((s.wg t).endInterval q.faulters).nextTrap + 1 })).updWg t Workgroup.parkHeld := by
  have hpart : (s.wg t).trapPart q = fun c => match q.faulters.filter fun l => ((s.wg t).lane l).crew == c with
      | [] => none
      | low :: _ => some { crew := c, faulters := maskOfLanes (q.faulters.filter fun l => ((s.wg t).lane l).crew == c),
                           detail := q.detail low, recs := (q.recs (q.faulters.filter fun l => ((s.wg t).lane l).crew == c)).take 64 } := by
    funext c
    unfold Workgroup.trapPart
    split
    · next h => simp
    · next h => simp [h]
  rw [hpart]
  rfl

/-- A trap of lanes of one crew is taken by that crew alone. -/
theorem State.takeTrap_inCrew {s : State} {t c : Nat} {g : Gang} {r : ClauseRun} {q : TrapReq} (hg : (s.wg t).gang? g.id = some g)
    (hr : g.clause = some r) (hne : q.faulters ≠ []) (hc : ∀ l ∈ q.faulters, ((s.wg t).lane l).crew = some c) :
    s.takeTrap t g.id q = (State.nextCrew t (s.wg t).nextTrap 66 (s.trapStarted t g r q c)).updWg t Workgroup.parkHeld := by
  set w := (s.wg t).stopGang g.id (issueLanes g r) with hw
  have hcw : ∀ l ∈ q.faulters, (w.lane l).crew = some c := fun l hl => by
    rw [hw, Workgroup.lane_stopGang]
    exact hc l hl
  have hid : w.nextTrap = (s.wg t).nextTrap := by rw [hw, Workgroup.stopGang_rest]
  have htraps : (w.endInterval q.faulters).traps = w.traps ∧ (w.endInterval q.faulters).nextTrap = w.nextTrap := by
    rw [Workgroup.endInterval_rest]
    exact ⟨rfl, rfl⟩
  have hfaulters : (q.faulters.filter fun l => (w.lane l).crew == some c) = q.faulters :=
    List.filter_eq_self.2 fun l hl => by simp [hcw l hl]
  have hcrewless : (q.faulters.filter fun l => (w.lane l).crew == none) = [] :=
    List.filter_eq_nil_iff.2 fun l hl => by simp [hcw l hl]
  have htodo : ((w.crewsOf q.faulters).map some ++ [none]).filterMap (w.trapPart q) =
      (q.issueOf c w.nextTrap g.hset r.issue []).todo := by
    obtain ⟨low, ls, hls⟩ := List.exists_cons_of_ne_nil hne
    rw [Workgroup.crewsOf_eq_singleton hne hcw]
    rw [hls] at hfaulters hcrewless
    simp only [List.map_cons, List.map_nil, List.singleton_append, List.filterMap_cons, List.filterMap_nil, Workgroup.trapPart,
      hfaulters, hcrewless, TrapReq.issueOf, hls, List.headD_cons]
  unfold State.takeTrap
  simp only [hg, hr, Option.any_some]
  rw [State.startTrap_eq]
  simp only [State.wg_setWg_self]
  change (State.nextCrew t w.nextTrap 66 ((s.setWg t w).setWg t
    { w.endInterval q.faulters with
      traps := (w.endInterval q.faulters).traps ++ [{ q.issueOf c w.nextTrap g.hset r.issue _ with
        todo := ((w.crewsOf q.faulters).map some ++ [none]).filterMap (w.trapPart q) }]
      nextTrap := (w.endInterval q.faulters).nextTrap + 1 })).updWg t _ = _
  rw [htodo, htraps.1, htraps.2, hid]
  rw [State.trapStarted, ← hw, Workgroup.withTrap, hid]
  rfl

section
variable {s : State} {t c : Nat} {g : Gang} {r : ClauseRun} {q : TrapReq}

/-- The trap of gang `g`, as it waits for crew `c`. -/
def State.trapOf (s : State) (t : Nat) (g : Gang) (r : ClauseRun) (q : TrapReq) (c : Nat) : TrapIssue :=
  q.issueOf c (s.wg t).nextTrap g.hset r.issue
    ((issueLanes g r).map fun l => resumeOf g { q with afterClaim := q.afterClaim || r.pend.claimed.isSome } l ((s.wg t).lane l))

theorem State.wg_trapStarted : (s.trapStarted t g r q c).wg t =
    ((s.wg t).stopGang g.id (issueLanes g r)).withTrap (s.trapOf t g r q c) q.faulters := by
  unfold State.trapStarted State.trapOf
  dsimp only
  rw [State.wg_setWg_self, Workgroup.stopGang_rest]

/-- Under a new number, the trap is found. -/
theorem State.find_trapStarted (hfresh : ∀ x ∈ (s.wg t).traps, x.id ≠ (s.wg t).nextTrap) :
    ((s.trapStarted t g r q c).wg t).traps.find? (fun x => x.id == (s.trapOf t g r q c).id) = some (s.trapOf t g r q c) := by
  have htraps : ((s.trapStarted t g r q c).wg t).traps = (s.wg t).traps ++ [s.trapOf t g r q c] := by
    rw [State.wg_trapStarted, Workgroup.withTrap, Workgroup.stopGang_rest]
  have hnone : (s.wg t).traps.find? (fun x => x.id == (s.trapOf t g r q c).id) = none :=
    List.find?_eq_none.2 fun x hx => fun he => hfresh x hx (beq_iff_eq.1 he)
  rw [htraps, List.find?_append, hnone]
  simp

/-- Of a crew, the set-up of a trap changes SYNC, and the posts that wait. -/
theorem State.crew_trapStarted (k : Nat) : ((s.trapStarted t g r q c).wg t).crew k =
    { ((s.wg t).dropPosts fun i => i.isPost g.id).crew k with syncDue := (((s.trapStarted t g r q c).wg t).crew k).syncDue } := by
  rw [← Workgroup.crew_stopGang _ _ (issueLanes g r), State.wg_trapStarted]
  exact Workgroup.crew_endInterval _ _ k

end

/-- The state in which the next crew of a trap takes it, with its frame written. -/
def State.crewTakes (s : State) (t : Nat) (ti : TrapIssue) (tc : TrapCrew) (rest : List TrapCrew) : State :=
  s.updWg t fun w => ({ w with traps := w.traps.map fun (x : TrapIssue) =>
    if x.id = ti.id then { ti with todo := rest, cur := some tc } else x } : Workgroup).writeFrame { ti with todo := rest, cur := some tc } tc

section
variable {s : State} {t n c : Nat} {ti : TrapIssue} {tc : TrapCrew} {rest : List TrapCrew}

/-- A crew that takes a trap keeps its state until its handler is entered. -/
theorem State.crew_crewTakes (k : Nat) : ((s.crewTakes t ti tc rest).wg t).crew k = (s.wg t).crew k := by
  unfold State.crewTakes
  rw [State.wg_updWg_self]
  rfl

/-- A trap in a crew that runs its handler outside a gate call terminates the workgroup. -/
theorem State.nextCrew_terminates (hfind : (s.wg t).traps.find? (fun x => x.id == ti.id) = some ti) (htodo : ti.todo = tc :: rest)
    (hc : tc.crew = some c) (hh : ((s.wg t).crew c).handler = true) (hd : ((s.wg t).crew c).depth = 0) :
    State.nextCrew t ti.id (n + 1) s =
      (s.crewTakes t ti tc rest).terminate t ti.cause ti.fpc ((s.wg t).crew c).domain (firstVa tc.recs) := by
  have hcrew : ∀ k, ((s.crewTakes t ti tc rest).wg t).crew k = (s.wg t).crew k := fun k => State.crew_crewTakes k
  unfold State.nextCrew
  simp only [hfind, htodo, hc]
  rw [← State.crewTakes]
  simp only [hcrew, hh, hd, if_true, Nat.lt_irrefl, gt_iff_lt, if_false]

/-- A trap in a crew that runs its handler inside a gate call waits for the crew's counters. -/
theorem State.nextCrew_forces (hfind : (s.wg t).traps.find? (fun x => x.id == ti.id) = some ti) (htodo : ti.todo = tc :: rest)
    (hc : tc.crew = some c) (hh : ((s.wg t).crew c).handler = true) (hd : ((s.wg t).crew c).depth > 0)
    (hq : ((s.wg t).crew c).drained = false) :
    State.nextCrew t ti.id (n + 1) s =
      ((s.crewTakes t ti tc rest).updWg t fun w => w.releaseLocks (w.members c)).updWg t fun w =>
        w.updCrew c fun x => { x with forced := some (ti.cause, false) } := by
  have hcrew : ∀ k, ((s.crewTakes t ti tc rest).wg t).crew k = (s.wg t).crew k := fun k => State.crew_crewTakes k
  have hquiet : ((s.crewTakes t ti tc rest).wg t).quiet c = false := by
    unfold Workgroup.quiet
    rw [hcrew, hq]
    rfl
  unfold State.nextCrew
  simp only [hfind, htodo, hc]
  rw [← State.crewTakes]
  simp only [hcrew, hh, hd, hquiet, if_true, Bool.false_eq_true, if_false, Option.getD_some]

end

/-! ### Termination -/

theorem State.wg_freeAppr (s : State) (t c : Nat) : (s.freeAppr t c).wg t = { s.wg t with crews := ((s.freeAppr t c).wg t).crews } := by
  unfold State.freeAppr
  split
  · split <;> rw [State.wg_updWg_self] <;> rfl
  · rfl

theorem State.wg_over_freeAppr (cs : List Nat) (s : State) (t : Nat) : (overList cs s fun s c => s.freeAppr t c).wg t =
    { s.wg t with crews := ((overList cs s fun s c => s.freeAppr t c).wg t).crews } := by
  induction cs generalizing s with
  | nil => rfl
  | cons a l ih =>
    refine (ih (s.freeAppr t a)).trans ?_
    rw [State.wg_freeAppr]
    rfl

/-- A termination leaves no live lane and no gang, and its cause where no other stands. -/
theorem State.terminated_terminate (s : State) (t cause fpc dom va : Nat) :
    (∀ l, (((s.terminate t cause fpc dom va).wg t).lane l).live = false) ∧ ((s.terminate t cause fpc dom va).wg t).gangs = [] ∧
      ((s.wg t).term = none → ((s.terminate t cause fpc dom va).wg t).term = some (cause, fpc, dom, va)) := by
  have hterm : (((s.endOwnership t none 2).updWg t fun w => w.dropPosts FlightItem.posts).wg t).term = (s.wg t).term := by
    rw [State.wg_updWg_self, show ∀ w : Workgroup, (w.dropPosts FlightItem.posts).term = w.term from fun _ => rfl]
    rw [(Calm.endOwnership s t none 2 t).rest]
  unfold State.terminate
  rw [State.wg_over_freeAppr, State.wg_updWg_self]
  refine ⟨fun l => ?_, rfl, fun h => ?_⟩
  · exact congrArg Lane.live (SMap.get_map _
      (fun x : Lane => { x with live := false, crew := none, joining := none, lock := none }) l rfl)
  · rw [hterm, h]

/-- A workgroup without gangs has none to park. -/
theorem Workgroup.gangs_parkHeld_nil {w : Workgroup} (h : w.gangs = []) : w.parkHeld.gangs = [] := by
  simp [Workgroup.parkHeld, h]

@[simp] theorem Workgroup.lane_parkHeld (w : Workgroup) (l : Nat) : w.parkHeld.lane l = w.lane l := rfl
@[simp] theorem Workgroup.crew_parkHeld (w : Workgroup) (c : Nat) : w.parkHeld.crew c = w.crew c := rfl
@[simp] theorem Workgroup.term_parkHeld (w : Workgroup) : w.parkHeld.term = w.term := rfl

/-- A crew is drained by what is in flight for it. -/
theorem Crew.drained_congr {a b : Crew} (h : a.flight = b.flight) : a.drained = b.drained := by
  unfold Crew.drained
  rw [h]

/-- A workgroup whose trap ends in a termination. -/
theorem State.terminated_parked {s s1 : State} {t cause fpc dom va n : Nat} (h : (s1.wg t).term = (s.wg t).term) :
    Terminated s (((s1.terminate t cause fpc dom va).updWg t Workgroup.parkHeld).spent n) t cause fpc dom := by
  obtain ⟨hlive, hgangs, hterm⟩ := State.terminated_terminate s1 t cause fpc dom va
  unfold Terminated
  rw [State.wg_spent, State.wg_updWg_self]
  simp only [Workgroup.lane_parkHeld, Workgroup.term_parkHeld]
  exact ⟨hlive, Workgroup.gangs_parkHeld_nil hgangs, fun h0 => ⟨_, hterm (h.trans h0)⟩⟩

theorem State.term_crewTakes {s : State} {t : Nat} {ti : TrapIssue} {tc : TrapCrew} {rest : List TrapCrew} :
    ((s.crewTakes t ti tc rest).wg t).term = (s.wg t).term := by
  unfold State.crewTakes
  rw [State.wg_updWg_self]
  rfl

/-- A forced return that is noted stands when the gangs that are held up have parked. -/
theorem State.forced_parked {s : State} {t c n : Nat} {f : Option (Nat × Bool)} :
    ((((((s.updWg t fun w => w.updCrew c fun x => { x with forced := f }).updWg t Workgroup.parkHeld).spent n).wg t).crew c).forced) = f := by
  rw [State.wg_spent, State.wg_updWg_self, State.wg_updWg_self]
  rw [Workgroup.crew_parkHeld, Workgroup.crew_updCrew, if_pos rfl]

/-! ### R371: TRAP -/

/-- TRAP with lanes of E is a trap that no check precedes. -/
theorem trapBody_lanes {s : State} {t : Nat} {g : Gang} {r : ClauseRun} {es : List ApprEntry} {n : Nat} (hls : execLanes g r ≠ []) :
    trapBody n (opEnv s t g r es) = .trap (taken s)
      { cause := 0xF0 + n % 16, faulters := execLanes g r, fpc := (envOf s t g r).fpc, software := true } := by
  unfold trapBody
  split
  · next h => exact absurd h hls
  · rfl

/-- Settles O33: the crew of the lanes takes the trap, and runs its handler already. -/
theorem softwareTrapRaised : Obligations.SoftwareTrapRaised := by
  unfold Obligations.SoftwareTrapRaised
  intro s t g r es n h ls fpc
  have hexec : ls ≠ [] → exec (.trap n) s = .next (((taken s).takeTrap t g.id
      { cause := 0xF0 + n % 16, faulters := ls, fpc := fpc, software := true }).spent s.free) := fun hls => by
    show laneIssue (.trap n) (trapBody n) s = _
    rw [laneIssue_ready h, ← opEnv, trapBody_lanes hls]
    rfl
  refine ⟨fun hls hn => ?_, hexec, fun c hc hfresh hh => ?_⟩
  · obtain ⟨s', hs, htr⟩ := laneIssue_goes (body := trapBody n) h hn (ts := []) (f := fun _ => 0) (by
      unfold trapBody
      rw [show (opEnv s t g r es).ls = [] from hls]
      rfl)
    exact ⟨s', hs, by simpa using htr⟩
  · set q : TrapReq := { cause := 0xF0 + n % 16, faulters := ls, fpc := fpc, software := true }
    have hid : (s.wg t).nextTrap = ((taken s).trapOf t g r q c).id := rfl
    have htake : (taken s).takeTrap t g.id q =
        (State.nextCrew t ((taken s).trapOf t g r q c).id 66 ((taken s).trapStarted t g r q c)).updWg t Workgroup.parkHeld :=
      State.takeTrap_inCrew h.gang h.clause hc.1 hc.2
    have hcrew : ∀ k, (((taken s).trapStarted t g r q c).wg t).crew k =
        { ((s.wg t).dropPosts fun i => i.isPost g.id).crew k with
          syncDue := ((((taken s).trapStarted t g r q c).wg t).crew k).syncDue } := fun k => State.crew_trapStarted k
    have hkeep : ((((taken s).trapStarted t g r q c).wg t).crew c).handler = ((s.wg t).crew c).handler ∧
        ((((taken s).trapStarted t g r q c).wg t).crew c).depth = ((s.wg t).crew c).depth ∧
        ((((taken s).trapStarted t g r q c).wg t).crew c).domain = ((s.wg t).crew c).domain := by
      rw [hcrew, Workgroup.crew_dropPosts]
      exact ⟨rfl, rfl, rfl⟩
    have hfind := State.find_trapStarted (s := taken s) (t := t) (g := g) (r := r) (q := q) (c := c) hfresh
    rw [hexec hc.1, htake]
    refine ⟨fun hd => ⟨_, rfl, ?_⟩, fun hd hdr => ⟨_, rfl, ?_⟩⟩
    · have hterm : (((taken s).trapStarted t g r q c).wg t).term = (s.wg t).term := by
        rw [State.wg_trapStarted, Workgroup.withTrap, Workgroup.endInterval_rest, Workgroup.stopGang_rest]
        rfl
      rw [State.nextCrew_terminates hfind rfl rfl (hkeep.1.trans hh) (hkeep.2.1.trans hd), hkeep.2.2]
      exact State.terminated_parked (State.term_crewTakes.trans hterm)
    · have hdrained : ((((taken s).trapStarted t g r q c).wg t).crew c).drained = false := by
        rw [← hdr]
        exact Crew.drained_congr (by rw [hcrew])
      have hdepth : ((((taken s).trapStarted t g r q c).wg t).crew c).depth > 0 := by
        rw [hkeep.2.1]
        exact hd
      rw [State.nextCrew_forces hfind rfl rfl (hkeep.1.trans hh) hdepth hdrained]
      exact State.forced_parked

end Sys2Proof.Machine
end

section
/-! SUPPORT. The read of a trap's TVT word (spec/15 R361), what a core's walks depend on (spec/14 R335), and the statement about the
entry of a handler. -/

namespace Sys2Proof.Machine

open Sys2Proof Sys2Proof.Safety

-- One proof at a time: side by side they need more threads than a check's memory holds.
set_option Elab.async false

/-! ### What a walk depends on -/

/-- What a core's walks of domain `d`, and its segments, are read from stands. -/
structure SameWalks (s s' : State) (core d : Nat) : Prop where
  mem : s'.mem = s.mem
  regs : s'.regs = s.regs
  free : s'.free = s.free
  damage : s'.damage = s.damage
  pchs : s'.pchs = s.pchs
  tlb : (s'.core core).tlb = (s.core core).tlb
  istore : (s'.core core).istore = (s.core core).istore
  desc : s'.descUse core d = s.descUse core d

section
variable {s s' : State} {core d : Nat}

theorem SameWalks.rdBytes (h : SameWalks s s' core d) (a n : Nat) : s'.rdBytes a n = s.rdBytes a n := by
  unfold State.rdBytes
  rw [h.mem]

theorem SameWalks.heldPhys (h : SameWalks s s' core d) (a n : Nat) : s'.held ⟨.phys a, n⟩ = s.held ⟨.phys a, n⟩ := by
  unfold State.held State.pch
  rw [h.pchs]

theorem SameWalks.mcPhys (h : SameWalks s s' core d) (a n : Nat) : s'.mcOf ⟨.phys a, n⟩ = s.mcOf ⟨.phys a, n⟩ := by
  unfold State.mcOf State.peerAbsent State.peerEntry
  rw [h.regs, h.damage]

theorem SameWalks.pteUse (h : SameWalks s s' core d) (e lv va a k : Nat) : s'.pteUse core e lv va a k = s.pteUse core e lv va a k := by
  have htlb : s'.tlbAt core e lv va = s.tlbAt core e lv va := by
    unfold State.tlbAt
    rw [h.tlb]
  unfold State.pteUse State.rdNat
  rw [htlb, h.rdBytes, h.heldPhys, h.free]

theorem SameWalks.walkFrom (h : SameWalks s s' core d) (e : Nat) (super wr handler : Bool) (va k lv table : Nat) :
    s'.walkFrom core e super wr handler va k lv table = s.walkFrom core e super wr handler va k lv table := by
  induction lv generalizing table with
  | zero => rfl
  | succ lv ih =>
    unfold State.walkFrom
    simp only [h.pteUse, ih]

theorem SameWalks.walk (h : SameWalks s s' core d) (wr handler : Bool) (va k : Nat) :
    s'.walk core d wr handler va k = s.walk core d wr handler va k := by
  unfold State.walk
  simp only [h.desc, h.walkFrom]

theorem SameWalks.handlerLoad (h : SameWalks s s' core d) (va : Nat) : s'.handlerLoad core d va = s.handlerLoad core d va := by
  unfold State.handlerLoad
  simp only [h.walk, h.mcPhys, h.rdBytes]

theorem SameWalks.tvtWord (h : SameWalks s s' core d) (cause : Nat) : s'.tvtWord core d cause = s.tvtWord core d cause := by
  unfold State.tvtWord
  simp only [h.desc, h.handlerLoad]

/-- The handler's address depends on what the walks depend on, and on the segments of the workgroup. -/
theorem SameWalks.handlerOf {w w' : Workgroup} (h : SameWalks s s' w.core d) (hcore : w'.core = w.core) (hsegs : w'.segs = w.segs)
    (cause : Nat) : s'.handlerOf w' d cause = s.handlerOf w d cause := by
  unfold State.handlerOf State.segLanded Workgroup.slotOf
  rw [hcore, hsegs]
  simp only [h.tvtWord, h.istore]

theorem SameWalks.trans {s'' : State} (h : SameWalks s s' core d) (k : SameWalks s' s'' core d) : SameWalks s s'' core d :=
  ⟨k.mem.trans h.mem, k.regs.trans h.regs, k.free.trans h.free, k.damage.trans h.damage, k.pchs.trans h.pchs, k.tlb.trans h.tlb,
    k.istore.trans h.istore, k.desc.trans h.desc⟩

/-- Workgroups do not matter to walks. -/
theorem SameWalks.of_wgs (h : s' = { s with wgs := s'.wgs }) : SameWalks s s' core d := by
  rw [h]
  exact ⟨rfl, rfl, rfl, rfl, rfl, rfl, rfl, rfl⟩

/-- Walks of a core that takes the descriptor from memory use the same one. -/
theorem SameWalks.descNeed (s : State) (core d : Nat) : SameWalks s (s.descNeed core d) core d := by
  unfold State.descNeed
  split
  · exact .of_wgs rfl
  · next hnone =>
    unfold State.descLoad
    split
    · next hv =>
      have hcore : ∀ f : Core → Core, (s.updCore core f).core core = f (s.core core) := fun f => SMap.get_upd_self ..
      refine ⟨rfl, rfl, rfl, rfl, rfl, by rw [hcore], by rw [hcore], ?_⟩
      have hheld : (s.updCore core fun c => { c with
          descs := ⟨d, s.descMem d⟩ :: c.descs.filter fun e => e.domain != d }).descHeld core d = some (s.descMem d) := by
        unfold State.descHeld
        rw [hcore]
        simp
      unfold State.descUse
      rw [hheld, hnone, hv]
      rfl
    · exact .of_wgs rfl

/-- What a walk reads lies in physical memory. -/
theorem State.descReads_phys {x : Span} (hx : x ∈ s.descReads core d) : ∃ a, x.loc = .phys a := by
  unfold State.descReads at hx
  split at hx
  · cases hx
  · exact ⟨_, by rw [List.mem_singleton.1 hx]⟩

theorem State.walkReads_phys {va k : Nat} {x : Span} (hx : x ∈ s.walkReads core d va k) : ∃ a, x.loc = .phys a := by
  unfold State.walkReads at hx
  split at hx
  · cases hx
  · obtain hx | hx := List.mem_append.1 hx
    · exact State.descReads_phys hx
    · split at hx
      · cases hx
      · obtain ⟨p, -, rfl⟩ := List.mem_map.1 hx
        exact ⟨_, rfl⟩

theorem State.tvtReads_phys {cause : Nat} {x : Span} (hx : x ∈ s.tvtReads core d cause) : ∃ a, x.loc = .phys a := by
  unfold State.tvtReads at hx
  obtain hx | hx := List.mem_append.1 hx
  · obtain hx | hx := List.mem_append.1 hx
    · exact State.descReads_phys hx
    · split at hx
      · cases hx
      · obtain ⟨g, -, hx⟩ := List.mem_flatMap.1 hx
        exact State.walkReads_phys hx
  · unfold State.tvtSpans at hx
    split at hx
    · cases hx
    · obtain ⟨g, -, hx⟩ := List.mem_filterMap.1 hx
      split at hx
      · cases hx
        exact ⟨_, rfl⟩
      · cases hx

/-- What the read of a TVT word reads, where workgroups alone have changed. -/
theorem State.tvtReads_wgs (h : s' = { s with wgs := s'.wgs }) (cause : Nat) : s'.tvtReads core d cause = s.tvtReads core d cause := by
  have hw : SameWalks s s' core d := .of_wgs h
  have hheld : s'.descHeld core d = s.descHeld core d := by
    rw [h]
    rfl
  have htlb : ∀ lv va, s'.tlbAt core d lv va = s.tlbAt core d lv va := fun lv va => by
    rw [h]
    rfl
  unfold State.tvtReads State.tvtSpans State.walkReads State.descReads
  simp only [hheld, htlb, hw.regs, hw.desc, hw.walk]

/-- All-bank mode holds the read of a TVT word where it held it, whatever has become of workgroups. -/
theorem State.tvtReads_held_wgs (h : s' = { s with wgs := s'.wgs }) (cause : Nat) (hn : ∀ x ∈ s.tvtReads core d cause, s.held x = false) :
    (s'.tvtReads core d cause).any s'.held = false := by
  rw [State.tvtReads_wgs h, List.any_eq_false]
  intro x hx
  obtain ⟨a, ha⟩ := State.tvtReads_phys hx
  have : s'.held x = s.held x := by
    obtain ⟨loc, n⟩ := x
    cases ha
    exact (SameWalks.of_wgs (core := core) (d := d) h).heldPhys a n
  rw [this, hn x hx]
  decide

end

/-! ### The entry of a handler -/

/-- The mask of the lanes of a mask. -/
theorem maskOfLanes_lanesOf (h : Nat) (m : BitVec 32) : maskOfLanes (lanesOf h m) = m := by
  refine BitVec.eq_of_getLsbD_eq fun k hk => ?_
  have hmem : k ∈ (lanesOf h m).map posOf ↔ m.getLsbD k = true := by
    rw [List.mem_map]
    constructor
    · rintro ⟨l, hl, rfl⟩
      exact (mem_lanesOf.1 hl).2
    · intro hb
      have hpos : posOf (32 * h + k) = k := by unfold posOf; omega
      exact ⟨32 * h + k, mem_lanesOf.2 ⟨by unfold homeOf; omega, by rw [hpos]; exact hb⟩, hpos⟩
  rw [Bool.eq_iff_iff, maskOfLanes, getLsbD_maskOf _ hk, hmem]

/-- A crew that runs no handler, and whose trap neither its gate's policy nor all-bank mode holds up, enters the handler. -/
theorem State.nextCrew_enters {s : State} {t n c pc : Nat} {ti : TrapIssue} {tc : TrapCrew} {rest : List TrapCrew}
    (hfind : (s.wg t).traps.find? (fun x => x.id == ti.id) = some ti) (htodo : ti.todo = tc :: rest)
    (hc : tc.crew = some c) (hh : ((s.wg t).crew c).handler = false)
    (hgate : ((s.wg t).crew c).depth > 0 → gateFld ((s.wg t).gates.get (frameKey c (((s.wg t).crew c).depth - 1))).entry 13 13 = 0)
    (hheld : (s.tvtReads (s.wg t).core ((s.wg t).crew c).domain ti.cause).any s.held = false)
    (hpc : s.handlerOf (s.wg t) ((s.wg t).crew c).domain ti.cause = some pc) :
    State.nextCrew t ti.id (n + 1) s =
      ((s.crewTakes t ti tc rest).descNeed (s.wg t).core ((s.wg t).crew c).domain).updWg t fun w =>
        w.enterHandler { ti with todo := rest, cur := some tc } tc pc := by
  have hcrew : ∀ k, ((s.crewTakes t ti tc rest).wg t).crew k = (s.wg t).crew k := fun k => State.crew_crewTakes k
  have hw : ((s.crewTakes t ti tc rest).wg t).core = (s.wg t).core ∧ ((s.crewTakes t ti tc rest).wg t).segs = (s.wg t).segs ∧
      ((s.crewTakes t ti tc rest).wg t).gates = (s.wg t).gates := by
    unfold State.crewTakes
    rw [State.wg_updWg_self]
    exact ⟨rfl, rfl, rfl⟩
  have hsame : SameWalks s ((s.crewTakes t ti tc rest).descNeed (s.wg t).core ((s.wg t).crew c).domain) (s.wg t).core
      ((s.wg t).crew c).domain := (SameWalks.of_wgs rfl).trans (.descNeed ..)
  have hpc' := (hsame.handlerOf hw.1 hw.2.1 ti.cause).trans hpc
  have hpolicy : ¬ (((s.wg t).crew c).depth > 0 ∧
      gateFld ((s.wg t).gates.get (frameKey c (((s.wg t).crew c).depth - 1))).entry 13 13 = 1) := fun ⟨h1, h2⟩ => by
    rw [hgate h1] at h2
    cases h2
  unfold State.nextCrew
  simp only [hfind, htodo, hc]
  rw [← State.crewTakes]
  simp only [hcrew, hh, hw.1, hw.2.2, Option.getD_some, hpolicy, hheld, hpc', Bool.false_eq_true, if_false]

theorem Workgroup.layEdge_rest (w : Workgroup) (ls : List Nat) : w.layEdge ls = { w with edges := (w.layEdge ls).edges } := rfl

/-- What the entry of a handler does to a workgroup: its lanes, its crew, its gang, and no more of what follows. -/
theorem Workgroup.enterHandler_does (w : Workgroup) (ti : TrapIssue) {tc : TrapCrew} {c : Nat} (hc : tc.crew = some c) (pc : Nat) :
    (∀ l, (w.enterHandler ti tc pc).lane l =
      if l ∈ lanesOf ti.hset tc.faulters then handlerLane ti.cause tc.recs.length (w.lane l) else w.lane l) ∧
    (∀ k, (w.enterHandler ti tc pc).crew k = if k = c then { w.crew k with handler := true } else w.crew k) ∧
    (w.enterHandler ti tc pc).win = w.win ∧ (w.enterHandler ti tc pc).frames = w.frames ∧
    { (default : Gang) with hset := ti.hset, pc := pc, mask := tc.faulters, ages := List.replicate 8 0, id := w.nextGang, moved := true } ∈
      (w.enterHandler ti tc pc).gangs := by
  have hover : ∀ ls : List Nat, (overList ls w fun w l => w.updLane l (handlerLane ti.cause tc.recs.length)) =
      { w with lanes := (overList ls w fun w l => w.updLane l (handlerLane ti.cause tc.recs.length)).lanes } := fun ls =>
    Workgroup.overUpd_rest ls (fun l => l) (fun _ => handlerLane ti.cause tc.recs.length) w
  have hlane := fun l => Workgroup.lane_overLanes (lanesOf ti.hset tc.faulters) (lanesOf_nodup ..)
    (handlerLane ti.cause tc.recs.length) w l
  specialize hover (lanesOf ti.hset tc.faulters)
  unfold Workgroup.enterHandler
  dsimp only
  generalize (overList (lanesOf ti.hset tc.faulters) w fun w l => w.updLane l (handlerLane ti.cause tc.recs.length)) = w1 at hlane hover ⊢
  have hcrew : ∀ k, w1.crew k = w.crew k := fun k => by
    rw [hover]
    rfl
  have hrest : w1.win = w.win ∧ w1.frames = w.frames ∧ w1.nextGang = w.nextGang := by
    rw [hover]
    exact ⟨rfl, rfl, rfl⟩
  rw [hc]
  refine ⟨hlane, fun k => ?_, hrest.1, hrest.2.1, ?_⟩
  · change (w1.updCrew c fun x => { x with handler := true }).crew k = _
    rw [Workgroup.crew_updCrew, hcrew, hcrew]
    split
    · next h => rw [h]
    · rfl
  · rw [← hrest.2.2]
    exact List.mem_append_right _ (List.mem_singleton.2 rfl)

/-- A list as a sparse table, read at a position. -/
theorem SMap.get_ofList {β : Type} [Inhabited β] [DecidableEq β] (l : List β) (k : Nat) : (SMap.ofList l).get k = l.getD k default := by
  have key : ∀ (l : List β) (n : Nat) (m : SMap β), SMap.get ((l.zipIdx n).foldl (fun m p => SMap.set m p.2 p.1) m) k =
      if n ≤ k ∧ k < n + l.length then l.getD (k - n) default else SMap.get m k := by
    intro l
    induction l with
    | nil =>
      intro n m
      simp only [List.length_nil]
      rw [if_neg (by omega)]
      rfl
    | cons a l ih =>
      intro n m
      rw [List.zipIdx_cons, List.foldl_cons, ih, SMap.get_set, List.length_cons]
      by_cases h1 : n + 1 ≤ k ∧ k < n + 1 + l.length
      · rw [if_pos h1, if_pos (by omega), show k - n = k - (n + 1) + 1 by omega, List.getD_cons_succ]
      · rw [if_neg h1]
        by_cases h2 : k = n
        · subst h2
          rw [if_pos rfl, if_pos (by omega), Nat.sub_self, List.getD_cons_zero]
        · rw [if_neg h2, if_neg (by omega)]
  refine (key l 0 []).trans ?_
  split
  · rw [Nat.sub_zero]
  · next h => rw [List.getD_eq_default _ _ (by omega)]; rfl

/-- The words of a frame's header. -/
theorem get_frameHeader (q : TrapReq) (nrec : Nat) (x : Resume) (rcnt : Word) (faulters issue : BitVec 32) (crew depth hset : Nat) :
    let f := fun k => ((SMap.ofList (frameHeader q nrec x rcnt faulters issue crew depth hset [])).get k).toNat
    f 0 = (q.cause + nrec * 256 + x.kind * 65536) % 2 ^ 32 ∧ f 1 = q.fpc % 2 ^ 18 ∧ f 2 = x.pc % 2 ^ 18 ∧ f 3 = rcnt.toNat ∧
      f 4 = faulters.toNat ∧ f 5 = issue.toNat ∧ f 6 = (crew + depth * 64 + hset * 512) % 2 ^ 32 ∧ ∀ k, 7 ≤ k → k < 16 → f k = 0 := by
  intro f
  have hget : ∀ k, (SMap.ofList (frameHeader q nrec x rcnt faulters issue crew depth hset [])).get k =
      (frameHeader q nrec x rcnt faulters issue crew depth hset []).getD k 0 := fun k =>
    SMap.get_ofList _ k
  have hw : ∀ k, f k = ((frameHeader q nrec x rcnt faulters issue crew depth hset []).getD k 0).toNat := fun k =>
    congrArg BitVec.toNat (hget k)
  have hlt : ∀ y : Nat, y % 2 ^ 18 < 2 ^ 32 := fun y => by omega
  simp only [hw]
  unfold frameHeader
  refine ⟨?_, ?_, ?_, rfl, rfl, rfl, ?_, fun k h1 h2 => ?_⟩
  · exact BitVec.toNat_ofNat ..
  · exact (BitVec.toNat_ofNat ..).trans (Nat.mod_eq_of_lt (hlt _))
  · exact (BitVec.toNat_ofNat ..).trans (Nat.mod_eq_of_lt (hlt _))
  · exact BitVec.toNat_ofNat ..
  · interval_cases k <;> rfl

theorem State.wg_descNeed (s : State) (core d t : Nat) : (s.descNeed core d).wg t = s.wg t := by
  unfold State.descNeed State.descLoad
  split
  · rfl
  · split <;> rfl

/-- A crew that takes a trap keeps lanes, the window and gangs; its frame has the header of its part. -/
theorem State.wg_crewTakes (s : State) (t : Nat) {ti : TrapIssue} {tc : TrapCrew} {c : Nat} (hc : tc.crew = some c) (rest : List TrapCrew) :
    let low := (lanesOf ti.hset tc.faulters).headD 0
    (∀ l, ((s.crewTakes t ti tc rest).wg t).lane l = (s.wg t).lane l) ∧ ((s.crewTakes t ti tc rest).wg t).win = (s.wg t).win ∧
    ((s.crewTakes t ti tc rest).wg t).frames.get c =
      { hdr := SMap.ofList (frameHeader { cause := ti.cause, faulters := [], fpc := ti.fpc } tc.recs.length
          ((ti.resume.find? fun r => r.lane == low).getD default) ((s.wg t).lane low).rcnt tc.faulters ti.issue c
          ((s.wg t).crew c).depth ti.hset tc.detail)
        recs := tc.recs } := by
  intro low
  unfold State.crewTakes
  rw [State.wg_updWg_self]
  refine ⟨fun _ => rfl, rfl, ?_⟩
  unfold Workgroup.writeFrame
  dsimp only
  rw [hc, Option.getD_some, SMap.get_set_self]
  rfl

section
variable {s : State} {t c : Nat} {g : Gang} {r : ClauseRun} {q : TrapReq}

theorem Workgroup.lane_withTrap (w : Workgroup) (ti : TrapIssue) (ls : List Nat) (l : Nat) :
    (w.withTrap ti ls).lane l = (w.endInterval ls).lane l := rfl

/-- What stands of the lanes and the window where a trap waits for its crew. -/
theorem State.lane_trapStarted {l : Nat} (hn : q.faulters.Nodup) : ((s.trapStarted t g r q c).wg t).lane l =
    { (s.wg t).lane l with
      lock := (((s.trapStarted t g r q c).wg t).lane l).lock
      interval := if l ∈ q.faulters then ((s.wg t).lane l).interval + 1 else ((s.wg t).lane l).interval } := by
  rw [State.wg_trapStarted]
  rw [Workgroup.lane_withTrap, Workgroup.lane_endInterval _ hn, Workgroup.lane_stopGang]
  split <;> rfl

theorem State.trapStarted_kept : ((s.trapStarted t g r q c).wg t).win = (s.wg t).win ∧
    ((s.trapStarted t g r q c).wg t).gates = (s.wg t).gates ∧ ((s.trapStarted t g r q c).wg t).core = (s.wg t).core ∧
    ((s.trapStarted t g r q c).wg t).segs = (s.wg t).segs := by
  rw [State.wg_trapStarted, Workgroup.withTrap, Workgroup.endInterval_rest, Workgroup.stopGang_rest]
  exact ⟨rfl, rfl, rfl, rfl⟩

theorem State.trapStarted_rest : s.trapStarted t g r q c = { s with wgs := (s.trapStarted t g r q c).wgs } := rfl

theorem State.trapStarted_others {u : Nat} (hu : u ≠ t) : (s.trapStarted t g r q c).wg u = s.wg u := by
  unfold State.trapStarted
  dsimp only
  rw [State.wg_setWg_ne _ _ hu, State.wg_setWg_ne _ _ hu]

end

/-- The frame's header of a TRAP (R364), from the faulters' mask on. -/
theorem resume_low {g : Gang} {r : ClauseRun} {q : TrapReq} {w : Workgroup} (hr : g.clause = some r) (hq : q.software = true) {low : Nat}
    (hlow : low ∈ issueLanes g r) :
    (((issueLanes g r).map fun l => resumeOf g q l (w.lane l)).find? fun x => x.lane == low).getD default =
      { lane := low, kind := 2, pc := r.next, run := none } := by
  have hres : ∀ l, resumeOf g q l (w.lane l) = { lane := l, kind := 2, pc := r.next, run := none } := fun l => by
    unfold resumeOf
    simp only [hq, hr, if_true]
    rfl
  simp only [hres]
  generalize issueLanes g r = ls at hlow
  induction ls with
  | nil => cases hlow
  | cons a ls ih =>
    rw [List.map_cons, List.find?_cons]
    by_cases ha : a = low
    · subst ha
      simp
    · obtain rfl | hlow := List.mem_cons.1 hlow
      · exact absurd rfl ha
      · rw [show (({ lane := a, kind := 2, pc := r.next, run := none } : Resume).lane == low) = false from beq_false_of_ne ha]
        exact ih hlow

@[simp] theorem Workgroup.win_parkHeld (w : Workgroup) : w.parkHeld.win = w.win := rfl
@[simp] theorem Workgroup.frames_parkHeld (w : Workgroup) : w.parkHeld.frames = w.frames := rfl

/-- A gang at a clause boundary is not held up in the middle of a clause. -/
theorem Workgroup.mem_parkHeld {w : Workgroup} {x : Gang} (h : x ∈ w.gangs) (hx : x.clause = none) : x ∈ w.parkHeld.gangs :=
  List.mem_map.2 ⟨x, h, if_neg (by simp [hx])⟩

/-- What the entry of the handler of crew `c`, at `pc`, makes of the state in which a trap of faulters `q` waits for the crew. -/
structure HandlerRuns (s s' : State) (t : Nat) (g : Gang) (r : ClauseRun) (q : TrapReq) (c pc : Nat) : Prop where
  mem : s'.mem = s.mem
  others : ∀ u, u ≠ t → s'.wg u = s.wg u
  win : (s'.wg t).win = (s.wg t).win
  lane : ∀ l, (s'.wg t).lane l = if l ∈ q.faulters then handlerLane q.cause 0 (((s.trapStarted t g r q c).wg t).lane l)
    else ((s.trapStarted t g r q c).wg t).lane l
  crew : ∀ k, (s'.wg t).crew k = if k = c then { ((s.trapStarted t g r q c).wg t).crew k with handler := true }
    else ((s.trapStarted t g r q c).wg t).crew k
  gang : ∃ h ∈ (s'.wg t).gangs, h.pc = pc ∧ h.mask = maskOfLanes q.faulters ∧ h.hset = g.hset ∧ h.clause = none
  header : ((s'.wg t).frames.get c).hdr = SMap.ofList (frameHeader { cause := q.cause, faulters := [], fpc := q.fpc } 0
    (((s.trapOf t g r q c).resume.find? fun x => x.lane == q.faulters.headD 0).getD default)
    (((s.trapStarted t g r q c).wg t).lane (q.faulters.headD 0)).rcnt (maskOfLanes q.faulters) r.issue c
    (((s.trapStarted t g r q c).wg t).crew c).depth g.hset [])

/-- Of a crew, the set-up of a trap keeps what its handler's entry looks at. -/
theorem State.crew_trapStarted_kept {s : State} {t c : Nat} {g : Gang} {r : ClauseRun} {q : TrapReq} (k : Nat) :
    (((s.trapStarted t g r q c).wg t).crew k).handler = ((s.wg t).crew k).handler ∧
    (((s.trapStarted t g r q c).wg t).crew k).depth = ((s.wg t).crew k).depth ∧
    (((s.trapStarted t g r q c).wg t).crew k).domain = ((s.wg t).crew k).domain ∧
    (((s.trapStarted t g r q c).wg t).crew k).s = ((s.wg t).crew k).s := by
  rw [State.crew_trapStarted, Workgroup.crew_dropPosts]
  exact ⟨rfl, rfl, rfl, rfl⟩

/-- A trap without details and records, of faulters of one home set in one crew that runs no handler, enters the handler. -/
theorem State.takeTrap_handlerRuns {s : State} {t c pc : Nat} {g : Gang} {r : ClauseRun} {q : TrapReq}
    (hg : (s.wg t).gang? g.id = some g) (hr : g.clause = some r) (hne : q.faulters ≠ [])
    (hc : ∀ l ∈ q.faulters, ((s.wg t).lane l).crew = some c) (hfresh : ∀ x ∈ (s.wg t).traps, x.id ≠ (s.wg t).nextTrap)
    (hlanes : lanesOf g.hset (maskOfLanes q.faulters) = q.faulters) (hdet : q.detail (q.faulters.headD 0) = [])
    (hrecs : (q.recs q.faulters).take 64 = []) (hh : ((s.wg t).crew c).handler = false)
    (hgate : ((s.wg t).crew c).depth > 0 → gateFld ((s.wg t).gates.get (frameKey c (((s.wg t).crew c).depth - 1))).entry 13 13 = 0)
    (hheld : ∀ x ∈ s.tvtReads (s.wg t).core ((s.wg t).crew c).domain q.cause, s.held x = false)
    (hpc : s.handlerOf (s.wg t) ((s.wg t).crew c).domain q.cause = some pc) :
    HandlerRuns s (s.takeTrap t g.id q) t g r q c pc := by
  set ti := s.trapOf t g r q c with hti
  set tc : TrapCrew := { crew := some c, faulters := maskOfLanes q.faulters, detail := [], recs := [] } with htc
  have htodo : ti.todo = [tc] := by
    rw [htc, ← hdet, ← hrecs]
    rfl
  set S1 := s.trapStarted t g r q c with hS1
  obtain ⟨hwin1, hgates1, hcore1, hsegs1⟩ := State.trapStarted_kept (s := s) (t := t) (g := g) (r := r) (q := q) (c := c)
  obtain ⟨hh1, hd1, hdom1, -⟩ := State.crew_trapStarted_kept (s := s) (t := t) (g := g) (r := r) (q := q) (c := c) c
  have hrest : S1 = { s with wgs := S1.wgs } := State.trapStarted_rest
  have henter := State.nextCrew_enters (s := S1) (n := 65) (pc := pc) (State.find_trapStarted hfresh) htodo rfl (hh1.trans hh)
    (by rw [hd1, hgates1]; exact hgate)
    (by rw [hcore1, hdom1]; exact State.tvtReads_held_wgs hrest _ hheld)
    (by
      rw [hdom1]
      exact ((SameWalks.of_wgs hrest).handlerOf hcore1 hsegs1 _).trans hpc)
  set S2 := S1.crewTakes t ti tc [] with hS2
  obtain ⟨hlane2, hwin2, hframe2⟩ := State.wg_crewTakes S1 t (ti := ti) (tc := tc) (c := c) rfl []
  rw [← hS2] at hlane2 hwin2 hframe2
  obtain ⟨hlane3, hcrew3, hwin3, hframes3, hgang3⟩ :=
    Workgroup.enterHandler_does (S2.wg t) { ti with todo := [], cur := some tc } (tc := tc) (c := c) rfl pc
  generalize hw3 : (S2.wg t).enterHandler { ti with todo := [], cur := some tc } tc pc = w3 at hlane3 hcrew3 hwin3 hframes3 hgang3
  have htake : s.takeTrap t g.id q = (State.nextCrew t ti.id 66 S1).updWg t Workgroup.parkHeld := State.takeTrap_inCrew hg hr hne hc
  have hwg : (s.takeTrap t g.id q).wg t = w3.parkHeld := by
    rw [htake, State.wg_updWg_self, henter, State.wg_updWg_self, State.wg_descNeed, hw3]
  have hlow : lanesOf ti.hset tc.faulters = q.faulters := hlanes
  refine ⟨State.takeTrap_mem .., fun u hu => ?_, ?_, fun l => ?_, fun k => ?_, ?_, ?_⟩
  · rw [htake, State.wg_updWg_ne _ _ hu, henter, State.wg_updWg_ne _ _ hu, State.wg_descNeed, hS2, State.crewTakes,
      State.wg_updWg_ne _ _ hu]
    exact State.trapStarted_others hu
  · rw [hwg, Workgroup.win_parkHeld, hwin3, hwin2, hwin1]
  · rw [hwg, Workgroup.lane_parkHeld, hlane3, hlane2]
    exact if_congr (by rw [← hlow]) rfl rfl
  · rw [hwg, Workgroup.crew_parkHeld, hcrew3, State.crew_crewTakes]
  · rw [hwg]
    exact ⟨_, Workgroup.mem_parkHeld hgang3 rfl, rfl, rfl, rfl, rfl⟩
  · rw [hwg, Workgroup.frames_parkHeld, hframes3, hframe2, hlow]
    rfl

/-- The registers with which a lane enters its handler (R362). -/
theorem handlerLane_reg (cause : Nat) (x : Lane) : (handlerLane cause 0 x).reg 256 = BitVec.ofNat 32 cause ∧
    ∀ k, 1 ≤ k → k < 8 → (handlerLane cause 0 x).reg (256 + k) = 0 := by
  have hsmall : ∀ k, (handlerLane cause 0 x).reg (256 + k) =
      (SMap.set (SMap.set [] 0 (BitVec.ofNat 32 cause)) 1 (BitVec.ofNat 32 0)).get k := fun k => by
    unfold Lane.reg
    rw [if_neg (by omega), Nat.add_sub_cancel_left]
    rfl
  refine ⟨?_, fun k h1 h2 => ?_⟩
  · refine (hsmall 0).trans ?_
    rw [SMap.get_set_ne _ _ (by decide), SMap.get_set_self]
  · rw [hsmall k, SMap.get_set]
    split
    · rfl
    · rw [SMap.get_set_ne _ _ (by omega)]
      rfl

/-- Settles O34: the crew of the lanes runs no handler, and enters the one that its domain's TVT names. -/
theorem handlerEntered : Obligations.HandlerEntered := by
  unfold Obligations.HandlerEntered
  intro s t g r es n c pc h w ls cr fpc hc hiss hfresh hh hgate hheld hpc
  set q : TrapReq := { cause := 0xF0 + n % 16, faulters := ls, fpc := fpc, software := true } with hq
  have hnodup : ls.Nodup := lanesOf_nodup ..
  have hruns : HandlerRuns (taken s) ((taken s).takeTrap t g.id q) t g r q c pc :=
    State.takeTrap_handlerRuns h.gang h.clause hc.1 hc.2 hfresh (congrArg (lanesOf g.hset) (maskOfLanes_lanesOf g.hset r.exec)) rfl rfl hh
      hgate hheld hpc
  have hexec : exec (.trap n) s = .next (((taken s).takeTrap t g.id q).spent s.free) := by
    show laneIssue (.trap n) (trapBody n) s = _
    rw [laneIssue_ready h, ← opEnv, trapBody_lanes hc.1]
    rfl
  have hlane : ∀ l, ∃ k, (((taken s).trapStarted t g r q c).wg t).lane l = { w.lane l with
      lock := k, interval := if l ∈ ls then (w.lane l).interval + 1 else (w.lane l).interval } := fun l =>
    ⟨_, State.lane_trapStarted hnodup⟩
  generalize (taken s).takeTrap t g.id q = s1 at hruns hexec
  refine ⟨s1.spent s.free, hexec, fun a => ?_, fun u a => ?_, hruns.others, fun l hl => ?_, fun l hl => ?_, ?_, fun k => ?_, hruns.gang, ?_⟩
  · exact congrArg (fun m => SMap.get m a) hruns.mem
  · rw [State.wg_spent]
    by_cases hu : u = t
    · rw [hu, hruns.win]
      rfl
    · rw [hruns.others u hu]
      rfl
  · intro x y
    obtain ⟨k, hk⟩ := hlane l
    have hy : y = handlerLane (0xF0 + n % 16) 0 { x with lock := k, interval := x.interval + 1 } := by
      refine (hruns.lane l).trans ?_
      rw [if_pos hl, hk, if_pos hl]
    rw [hy]
    exact ⟨rfl, rfl, rfl, rfl, rfl, (handlerLane_reg _ _).1, (handlerLane_reg _ _).2, rfl, rfl, rfl⟩
  · obtain ⟨k, hk⟩ := hlane l
    rw [State.wg_spent, hruns.lane, if_neg hl, hk, if_neg hl]
  · rw [State.wg_spent, hruns.crew, if_pos rfl]
  · have hs := (State.crew_trapStarted_kept (s := taken s) (t := t) (g := g) (r := r) (q := q) (c := c) k).2.2.2
    rw [State.wg_spent, hruns.crew]
    split <;> exact hs
  · intro f
    have hmem : ls.headD 0 ∈ ls := by
      obtain ⟨a, l, hl⟩ := List.exists_cons_of_ne_nil hc.1
      rw [show ls = a :: l from hl]
      exact List.mem_cons_self ..
    have hresume := resume_low (q := { q with afterClaim := q.afterClaim || r.pend.claimed.isSome }) (w := w) h.clause rfl (hiss _ hmem)
    obtain ⟨k, hk⟩ := hlane (ls.headD 0)
    have hrcnt : ((((taken s).trapStarted t g r q c).wg t).lane (ls.headD 0)).rcnt = (w.lane (ls.headD 0)).rcnt := by
      rw [hk]
    have hd := (State.crew_trapStarted_kept (s := taken s) (t := t) (g := g) (r := r) (q := q) (c := c) c).2.1
    have hhdr := hruns.header
    rw [hd, hrcnt] at hhdr
    have hf : ∀ k, f k = ((SMap.ofList (frameHeader { cause := q.cause, faulters := [], fpc := fpc } 0
        { lane := ls.headD 0, kind := 2, pc := r.next, run := none } (w.lane (ls.headD 0)).rcnt (maskOfLanes ls) r.issue c
        cr.depth g.hset [])).get k).toNat := fun k => by
      refine (congrArg (fun m : SMap Word => (m.get k).toNat) hhdr).trans ?_
      rw [← hresume]
      rfl
    obtain ⟨h0, h1, h2, h3, h4, h5, h6, h7⟩ := get_frameHeader { cause := q.cause, faulters := [], fpc := fpc } 0
      { lane := ls.headD 0, kind := 2, pc := r.next, run := none } (w.lane (ls.headD 0)).rcnt (maskOfLanes ls) r.issue c cr.depth g.hset
    refine ⟨(hf 0).trans (h0.trans ?_), (hf 1).trans h1, (hf 2).trans h2, (hf 3).trans h3, (hf 4).trans h4, (hf 5).trans h5,
      (hf 6).trans h6, fun k hk1 hk2 => (hf k).trans (h7 k hk1 hk2)⟩
    show (0xF0 + n % 16 + 0 * 256 + 2 * 65536) % 2 ^ 32 = _
    omega

end Sys2Proof.Machine
end

section
/-! SUPPORT. The end of a cycle of an island (spec/04 R80), in a state whose table of crews lists one identifier twice, and the
statement about the instruction that a step runs. -/

namespace Sys2Proof.Machine

open Sys2Proof Sys2Proof.Safety

-- One proof at a time: side by side they need more threads than a check's memory holds.
set_option Elab.async false

/-! ### A cycle ends with a forced return that a read of the crew does not show -/

/-- A trap whose first crew runs its handler; crew 1 is still to take it. -/
def listedTrap : TrapIssue where
  id := 0
  hset := 0
  issue := 0
  fpc := 0
  cause := 0
  resume := []
  todo := [{ crew := some 1, faulters := 0, detail := [], recs := [] }]
  cur := some { crew := some 0, faulters := 0, detail := [], recs := [] }

/-- A workgroup on core 256 that lists crew 0 twice: a read finds the entry without a forced return, and the end of the cycle leaves
the other. Crew 1 runs its handler. -/
def twiceListed : Workgroup :=
  { (default : Workgroup) with
    life := .resident
    core := 256
    crews := [(0, default), (0, { (default : Crew) with forced := some (0, false) }), (1, { (default : Crew) with handler := true })]
    traps := [listedTrap] }

/-- The workgroup holds pseudo-channel 0 in all-bank mode, and island 1 ends its cycle. -/
def tickState : State :=
  { (default : State) with
    wgs := [(0, twiceListed)]
    pchs := [(0, { (default : Pch) with held := true })]
    agenda := [.tick 1] }

theorem twiceListed_forced (c : Nat) : (twiceListed.crew c).forced = none := by
  unfold Workgroup.crew twiceListed
  simp only [SMap.get]
  split
  · rfl
  · split <;> rfl

theorem tickState_nothingDue : NothingDue tickState := by
  intro p hp
  obtain rfl : p = (0, twiceListed) := List.mem_singleton.1 hp
  exact ⟨twiceListed_forced, fun x hx => .inl (by rw [List.mem_singleton.1 hx]; rfl)⟩

theorem overLog_pchs (l : List (Nat × Nat)) (s : State) : (overList l s fun s e => s.logCorrected e.1 e.2).pchs = s.pchs := by
  induction l generalizing s with
  | nil => rfl
  | cons a l ih => exact ih (s.logCorrected a.1 a.2)

/-- At the end of the cycle the forced return takes place, crew 1 takes the trap, the workgroup is terminated, and with it its
all-bank mode ends. -/
theorem tick_released : (((taken tickState).tick 1).pchs.get 0).held = false := by
  unfold State.tick
  rw [if_neg (by decide), overLog_pchs]
  decide +kernel

/-- Refutes O58: at the end of a cycle a crew's forced return takes place though no read of the crew shows it, since the list of crews
holds the crew twice; the workgroup is terminated, and its pseudo-channel does not stand. -/
theorem not_stepRunsDecoded : ¬ Obligations.StepRunsDecoded := by
  unfold Obligations.StepRunsDecoded
  rintro ⟨-, -, -, -, htick, -, -⟩
  obtain ⟨s', hs, -, -, -, hdue⟩ := htick tickState 1 rfl
  obtain ⟨-, -, -, hpchs, -⟩ := hdue tickState_nothingDue
  have hs' : s' = (taken tickState).tick 1 := Host.Outcome.next.inj (hs.symm.trans rfl)
  have hheld : (s'.pchs.get 0).held = false := by
    rw [hs']
    exact tick_released
  rw [hpchs] at hheld
  exact absurd hheld (by decide)

end Sys2Proof.Machine
end

section
/-! SUPPORT. Pops (spec/04 R63, spec/17 R408): the entries that an instruction takes, what its close makes of the queues, and the
statement about the instructions that compute. -/

namespace Sys2Proof.Machine

open Sys2Proof Sys2Proof.Safety

-- One proof at a time: side by side they need more threads than a check's memory holds.
set_option Elab.async false

/-! ### Bodies that leave queues and bindings alone -/

/-- A body that ends its instruction, and leaves the cores and the crews' Apprentice bindings alone. -/
def BodyQuiet (body : Env → Res) : Prop := ∀ e, ∃ s1 vals, body e = .ok s1 vals ∧ s1.cores = e.s.cores ∧
  ∀ c, ((s1.wg e.t).crew c).appr = ((e.s.wg e.t).crew c).appr

/-- A change of a workgroup that leaves the crews' bindings alone. -/
theorem BodyQuiet.of_updWg {e : Env} {f : Workgroup → Workgroup} (vals : List (Nat × Dword))
    (hf : ∀ w c, ((f w).crew c).appr = (w.crew c).appr) : ∃ s1 vs, Res.ok (e.s.updWg e.t f) vals = .ok s1 vs ∧ s1.cores = e.s.cores ∧
      ∀ c, ((s1.wg e.t).crew c).appr = ((e.s.wg e.t).crew c).appr :=
  ⟨_, _, rfl, rfl, fun c => by rw [State.wg_updWg_self, hf]⟩

theorem Workgroup.appr_writeReg (w : Workgroup) (free l c : Nat) (v : Word) (m : Nat) :
    ((w.writeReg free l c v).crew m).appr = (w.crew m).appr := by
  unfold Workgroup.writeReg
  dsimp only
  split
  · split <;> rfl
  · refine (congrArg Crew.appr (SMap.get_map _ (fun c : Crew => { c with flight := c.flight.map _ }) m rfl)).trans ?_
    split <;> rfl

/-- Writing a result leaves the crews' bindings. -/
theorem Workgroup.appr_writeSel (w : Workgroup) (free : Nat) (d : Sel) (vals : List (Nat × List Word)) (m : Nat) :
    ((w.writeSel free d vals).crew m).appr = (w.crew m).appr := by
  unfold Workgroup.writeSel
  split
  case h_1 n =>
    split
    · rfl
    · split
      · rw [Workgroup.crew_updCrew]
        split
        · next hm => rw [hm]
        · rfl
      · rfl
  case h_2 =>
    split
    · rfl
    · unfold overList
      refine List.foldlRecOn (motive := fun x : Workgroup => (x.crew m).appr = (w.crew m).appr) _ _ rfl fun x hx p _ => ?_
      refine List.foldlRecOn (motive := fun y : Workgroup => (y.crew m).appr = (w.crew m).appr) _ _ hx fun y hy q _ => ?_
      rw [Workgroup.appr_writeReg, hy]

theorem Workgroup.appr_effects (w : Workgroup) (rs : List (Nat × LaneOut)) (m : Nat) :
    ((w.effects rs).crew m).appr = (w.crew m).appr := by
  unfold Workgroup.crew
  rw [(Workgroup.effects_kept w rs).1]

theorem BodyQuiet.alu (ops : List Opd) (d : Dest) (f : LaneIn → LaneOut) : BodyQuiet (aluBody ops d f) := fun e => by
  refine BodyQuiet.of_updWg _ fun w c => ?_
  dsimp only
  split
  · rw [Workgroup.appr_writeSel, Workgroup.appr_effects]
  · rw [Workgroup.appr_effects]

/-- What a result over the lanes of E comes to. -/
theorem BodyQuiet.cross (d : Dest) (rs : List (Nat × Dword)) {e : Env} : ∃ s1 vals, crossBody d rs e = .ok s1 vals ∧
    s1.cores = e.s.cores ∧ ∀ c, ((s1.wg e.t).crew c).appr = ((e.s.wg e.t).crew c).appr := by
  refine BodyQuiet.of_updWg _ fun w c => ?_
  split
  · rw [Workgroup.appr_writeSel]
  · rfl

theorem BodyQuiet.movs (q : SReg) (d : Dest) : BodyQuiet (movsBody q d) := fun e => by
  refine BodyQuiet.of_updWg _ fun w c => ?_
  split
  · rw [Workgroup.appr_writeSel]
  · rfl

theorem BodyQuiet.reduce (t : FType) (a : Sel) (d : Dest) (comb : Rounding → Nat → Nat → FRes) : BodyQuiet (reduceBody t a d comb) :=
  fun e => by
  unfold reduceBody
  split
  · exact ⟨_, _, rfl, rfl, fun _ => rfl⟩
  · refine BodyQuiet.of_updWg _ fun w c => ?_
    dsimp only
    split
    · rw [Workgroup.appr_writeSel]
      rfl
    · rfl

theorem Workgroup.appr_overSum {α : Type} (rs : List α) (f : α → FFlags × Nat × Nat) (w : Workgroup) (m : Nat) :
    ((overList rs w fun w r => w.sumUp (f r).1 (f r).2.1 (f r).2.2).crew m).appr = (w.crew m).appr := by
  induction rs generalizing w with
  | nil => rfl
  | cons a rs ih => exact ih (w.sumUp (f a).1 (f a).2.1 (f a).2.2)

theorem BodyQuiet.wide (e : Env) (nw : Bool) (d : Sel) (rs : List (Nat × List Nat × FFlags × Nat × Nat)) :
    ∃ s1 vals, wideResult e nw d rs = .ok s1 vals ∧ s1.cores = e.s.cores ∧
      ∀ c, ((s1.wg e.t).crew c).appr = ((e.s.wg e.t).crew c).appr := by
  refine BodyQuiet.of_updWg _ fun w c => ?_
  dsimp only
  split
  · exact Workgroup.appr_overSum rs (fun r => r.2.2) w c
  · rw [Workgroup.appr_writeSel]
    exact Workgroup.appr_overSum rs (fun r => r.2.2) w c

/-- Instruction `i` is issued by a gang with a body that ends it and leaves queues and bindings alone. -/
def OnlyComputes (i : Instr) : Prop :=
  ∃ body, (∀ s t g, s.agenda = .gang t g :: s.agenda.tail → exec i s = laneIssue i body s) ∧ BodyQuiet body

theorem ComputesInto.onlyComputes {i : Instr} {ops : List Opd} {d : Dest} {f : LaneIn → LaneOut} (hi : ComputesInto i ops d f) :
    OnlyComputes i := ⟨_, hi.issues, .alu ops d f⟩

/-- Each instruction that computes from registers does no more. -/
theorem onlyComputes_of_computes {i : Instr} (hi : computes i = true) : OnlyComputes i := by
  cases i with
  | mov o => exact (givesResult_mov o).toComputesInto.onlyComputes
  | movi ty nw d c => exact (givesResult_movi ty nw d c).toComputesInto.onlyComputes
  | movs nw d q => exact ⟨_, fun _ _ _ _ => rfl, .movs q _⟩
  | movsWide nw d => exact ⟨_, fun _ _ _ _ => rfl, .movs .cycle _⟩
  | iadd o => exact (computesA_iadd o).computesInto.onlyComputes
  | iaddc o => exact (computesA_iaddc o).computesInto.onlyComputes
  | isub o => exact (computesA_isub o).computesInto.onlyComputes
  | isubb o => exact (computesA_isubb o).computesInto.onlyComputes
  | idiv o => exact (computesA_idiv o).computesInto.onlyComputes
  | irem o => exact (computesA_irem o).computesInto.onlyComputes
  | shl o => exact (computesA_shl o).computesInto.onlyComputes
  | shr o => exact (computesA_shr o).computesInto.onlyComputes
  | sar o => exact (computesA_sar o).computesInto.onlyComputes
  | rot o => exact (computesA_rot o).computesInto.onlyComputes
  | imul o => exact (givesResult_imul o).toComputesInto.onlyComputes
  | imulh o => exact (givesResult_imulh o).toComputesInto.onlyComputes
  | imad o => exact (givesResult_imad o).toComputesInto.onlyComputes
  | imadw o => exact (givesResult_imadw o).toComputesInto.onlyComputes
  | imin o => exact (givesResult_imin o).toComputesInto.onlyComputes
  | imax o => exact (givesResult_imax o).toComputesInto.onlyComputes
  | iabs o => exact (givesResult_iabs o).toComputesInto.onlyComputes
  | ineg o => exact (givesResult_ineg o).toComputesInto.onlyComputes
  | popc o => exact (givesResult_popc o).toComputesInto.onlyComputes
  | clz o => exact (givesResult_clz o).toComputesInto.onlyComputes
  | ctz o => exact (givesResult_ctz o).toComputesInto.onlyComputes
  | brev o => exact (givesResult_brev o).toComputesInto.onlyComputes
  | and o => exact (givesResult_and o).toComputesInto.onlyComputes
  | or o => exact (givesResult_or o).toComputesInto.onlyComputes
  | xor o => exact (givesResult_xor o).toComputesInto.onlyComputes
  | andn o => exact (givesResult_andn o).toComputesInto.onlyComputes
  | bfx ty nw d a c => exact (givesResult_bfx ty nw d a c).toComputesInto.onlyComputes
  | bfi ty nw f =>
    cases f with
    | imm d a c => exact (givesResult_bfi_imm ty nw d a c).toComputesInto.onlyComputes
    | reg d a b c => exact (givesResult_bfi_reg ty nw d a b c).toComputesInto.onlyComputes
  | perm nw f =>
    cases f with
    | imm d a c => exact (givesResult_perm_imm nw d a c).toComputesInto.onlyComputes
    | reg d a b c => exact (givesResult_perm_reg nw d a b c).toComputesInto.onlyComputes
  | icmp c ty pd a b => exact (computesInto_icmp c ty pd a b).onlyComputes
  | sel ty nw p d a b => exact (givesResult_sel ty nw p d a b).toComputesInto.onlyComputes
  | plop op d a b => exact (computesInto_plop op d a b).onlyComputes
  | vote m nw d a => exact ⟨_, fun _ _ _ _ => rfl, fun _ => BodyQuiet.cross _ _⟩
  | shfl m nw d a b => exact ⟨_, fun _ _ _ _ => rfl, fun _ => BodyQuiet.cross _ _⟩
  | fadd o => exact (computesInto_fadd o).onlyComputes
  | fsub o => exact (computesInto_fsub o).onlyComputes
  | fmul o => exact (computesInto_fmul o).onlyComputes
  | fmin o => exact (computesInto_fmin o).onlyComputes
  | fmax o => exact (computesInto_fmax o).onlyComputes
  | fcopys o => exact (computesInto_fcopys o).onlyComputes
  | fclass o => exact (computesInto_fclass o).onlyComputes
  | fdiv o => exact (computesInto_fdiv o).onlyComputes
  | fsqrt o => exact (computesInto_fsqrt o).onlyComputes
  | frcp o => exact (computesInto_frcp o).onlyComputes
  | frsq o => exact (computesInto_frsq o).onlyComputes
  | fexp2 o => exact (computesInto_fexp2 o).onlyComputes
  | flog2 o => exact (computesInto_flog2 o).onlyComputes
  | fsin o => exact (computesInto_fsin o).onlyComputes
  | fcos o => exact (computesInto_fcos o).onlyComputes
  | fscale o => exact (computesInto_fscale o).onlyComputes
  | ffma ty nw rc d a b c => exact (computesInto_ffma ty nw rc d a b c).onlyComputes
  | fcmp c ty pd a b => exact (computesInto_fcmp c ty pd a b).onlyComputes
  | frnd o m => exact (computesInto_frnd o m).onlyComputes
  | cvt ty nw rc d a t sat => exact (computesInto_cvt ty nw rc d a t sat).onlyComputes
  | cvti ty nw rc d a t => exact (computesInto_cvti ty nw rc d a t).onlyComputes
  | cvtf ty nw rc d a t => exact (computesInto_cvtf ty nw rc d a t).onlyComputes
  | split3 nw d a => exact (computesInto_split3 nw d a).onlyComputes
  | smxmerge nw n d a b => exact ⟨_, fun _ _ _ _ => rfl, fun _ => BodyQuiet.wide ..⟩
  | freda o | fredm o => exact ⟨_, fun _ _ _ _ => rfl, .reduce _ _ _ _⟩
  | _ => nomatch hi

/-! ### Pops -/

/-- Each selector that names a queue is given one entry. -/
theorem Env.popAll_length {e : Env} {c u : Nat} {qs seen : List Nat} {acc es : List ApprEntry}
    (h : e.popAll c u qs seen acc = .ready es) : es.length = acc.length + qs.length := by
  have hreload : ∀ q ld es, e.reload u q ld ≠ .ready es := fun q ld es hr => by
    unfold Env.reload at hr
    cases ha : e.s.access e.t e.fpc e.run.pend { z := 4 } false true
        (e.ls.map fun l => { lane := l, idx := ld.recd, off := ld.off + (if ld.vec then 4 * (l % 32) else 0) : LaneReq }) with
    | trap _ _ | park _ _ _ =>
      simp only [ha] at hr
      cases hr
    | ok s as =>
      simp only [ha] at hr
      split at hr <;> cases hr
  induction qs generalizing seen acc with
  | nil =>
    cases h
    rfl
  | cons q rest ih =>
    have hnext : ∀ x : ApprEntry, e.popAll c u rest (q :: seen) (acc ++ [x]) = .ready es → es.length = acc.length + (q :: rest).length :=
      fun x hx => by
        rw [ih hx, List.length_append, List.length_cons, List.length_cons, List.length_nil]
        omega
    unfold Env.popAll at h
    dsimp only at h
    repeat' split at h
    all_goals first | exact hnext _ h | exact absurd h (hreload _ _ _) | cases h

/-- Taking an entry off each queue of a list takes as many off a queue as the list names it. -/
theorem get_overDrop (qs : List Nat) (m : SMap (List ApprEntry)) (q : Nat) :
    (overList qs m fun m q => m.set q ((m.get q).drop 1)).get q = (m.get q).drop (qs.filter (· == q)).length := by
  induction qs generalizing m with
  | nil => exact (List.drop_zero ..).symm
  | cons a qs ih =>
    refine (ih (m.set a ((m.get a).drop 1))).trans ?_
    rw [SMap.get_set]
    by_cases h : q = a
    · subst h
      simp [Nat.add_comm]
    · simp [h, Ne.symm h]

/-- Lanes of one crew act for it. -/
theorem Env.crew_inCrew {s : State} {t c : Nat} {g : Gang} {r : ClauseRun} (h : InCrew s t g r c) (es : List ApprEntry) :
    (opEnv s t g r es).crew? = some c := by
  obtain ⟨a, l, hl⟩ := List.exists_cons_of_ne_nil h.1
  unfold Env.crew?
  rw [show (opEnv s t g r es).ls = a :: l from hl]
  exact h.2 a (by simp [hl])

/-- The pops of lanes of one crew are those of its Apprentice's queues. -/
theorem popsOf_bound {s : State} {t c u : Nat} {g : Gang} {r : ClauseRun} {b : ApprBinding} (hc : InCrew s t g r c)
    (hb : ((s.wg t).crew c).appr = some b) (hu : b.unit = some u) {i : Instr} (hq : popQueues i.reads ≠ []) :
    (envOf s t g r).popsOf i = (envOf s t g r).popAll c u (popQueues i.reads) [] [] := by
  have hcrew : (envOf s t g r).crew? = some c := Env.crew_inCrew hc []
  have hless : (envOf s t g r).crewless = [] := Env.crewless_eq_nil (e := envOf s t g r) hc.2
  have hmixed : (envOf s t g r).mixed = false := Env.mixed_eq_false (e := envOf s t g r) hc.2
  have happr : ((envOf s t g r).w.crew c).appr = some b := hb
  have hls : (envOf s t g r).ls ≠ [] := hc.1
  obtain ⟨x, y, z⟩ := b
  cases hu
  unfold Env.popsOf
  simp only [hless, hmixed, hcrew, happr, Option.getD_some, List.isEmpty_iff, hq, hls, or_self, ne_eq, not_true_eq_false,
    Bool.false_eq_true, if_false]

/-- A gang whose pops wait is parked, and nothing else has changed. -/
theorem laneIssue_waits {s : State} {t : Nat} {g : Gang} {r : ClauseRun} {i : Instr} {body : Env → Res} {p : Park} {pd : Pend}
    (h : Stands s t g r) (hlock : ∀ l ∈ issueLanes g r, ((s.wg t).lane l).lock = none)
    (hmc : ∀ l ∈ issueLanes g r, ∀ k, ((s.wg t).lane l).crew = some k → ((s.wg t).crew k).mcheck = none) (hd : s.damage = [])
    (hcrews : CrewsFit (s.wg t) i (execLanes g r)) (hgates : GateLets (s.wg t) i (execLanes g r))
    (hpop : (envOf s t g r).popsOf i = .wait (taken s) p pd) :
    laneIssue i body s = .next (((taken s).updGang t g.id fun g =>
      { g with park := some p, moved := true, clause := some { r with pend := pd } }).spent s.free) := by
  have hl : (envOf s t g r).holders = [] := Env.holders_nil hlock
  have e1 : (envOf s t g r).mcheck = none := Env.mcheck_none hmc
  have e2 : (envOf s t g r).overHeld = [] := Env.overHeld_nil hl
  have e3 : (envOf s t g r).crewTrap i = none := Env.crewTrap_none hcrews
  have e4 : (envOf s t g r).gateTrap i = [] := Env.gateTrap_nil hgates
  have e6 : (envOf s t g r).regCheck i = none := Env.regCheck_none hd
  rw [laneIssue_stands h]
  unfold State.issue
  unfold envOf at *
  simp only [e1, e2, e3, e4, hpop, e6, hl, ne_eq, not_true_eq_false, false_and, if_false, State.settleRes]
  rfl

/-- Settles O44: the close of an instruction takes the entries that its check of the pops has found. -/
theorem popsTakeEntries : Obligations.PopsTakeEntries := by
  unfold Obligations.PopsTakeEntries
  intro s t g r i ls w qs
  refine ⟨fun es hi h => ?_, fun c b u q rest hi h hlock hmc hd hcrews hgates hc hq hb hu hother hempty hrun => ?_⟩
  · obtain ⟨body, hexec, hquiet⟩ := onlyComputes_of_computes hi
    obtain ⟨s1, vals, hbody, hcores, happr⟩ := hquiet (opEnv s t g r es)
    have hlk : (opEnv s t g r es).holders = [] := Env.holders_nil (e := opEnv s t g r es) h.unlocked
    obtain ⟨f, -, hadv⟩ := State.advance_frame (s := (s1.updWg t fun w => w).takePops (opEnv s t g r es) i) (t := t) (g := g) (i := i)
      h.plain h.within vals
    have hs : exec i s = .next ((((s1.updWg t fun w => w).takePops (opEnv s t g r es) i).updGang t g.id f).spent s.free) := by
      rw [hexec s t g.id h.turn, laneIssue_ready h, ← opEnv, hbody, State.settle_ok' hlk, ← hadv]
      rfl
    refine ⟨_, hs, fun hnil => ?_, fun c b u hc hqs hb hu => ?_⟩
    · have htake : (s1.updWg t fun w => w).takePops (opEnv s t g r es) i = s1.updWg t fun w => w := by
        unfold State.takePops
        exact if_pos (.inr (by rw [show (opEnv s t g r es).ls = [] from hnil]; rfl))
      rw [htake]
      exact hcores
    · have hlen := Env.popAll_length ((popsOf_bound hc hb hu hqs).symm.trans h.pops)
      refine ⟨by simpa using hlen, fun q => ?_⟩
      have hcrew : (opEnv s t g r es).crew? = some c := Env.crew_inCrew hc es
      have happr1 : (((s1.updWg t fun w => w).wg t).crew c).appr = some b := by
        rw [State.wg_updWg_self]
        exact (happr c).trans hb
      have hqueue : ((((s1.updWg t fun w => w).takePops (opEnv s t g r es) i).core w.core).apprs.get u).queues =
          overList qs ((s1.core w.core).apprs.get u).queues fun m q => m.set q ((m.get q).drop 1) := by
        unfold State.takePops
        have hno : ¬ ((popQueues i.reads).isEmpty = true ∨ (opEnv s t g r es).ls.isEmpty = true) := by
          rw [List.isEmpty_iff, List.isEmpty_iff]
          exact not_or.2 ⟨hqs, hc.1⟩
        dsimp only
        rw [if_neg hno, hcrew, Option.getD_some, show (opEnv s t g r es).t = t from rfl, happr1]
        dsimp only
        rw [hu]
        show ((((s1.updWg t fun w => w).updCore w.core fun k => { k with apprs := k.apprs.upd u fun a =>
          { a with queues := overList qs a.queues fun m q => m.set q ((m.get q).drop 1) } }).core w.core).apprs.get u).queues = _
        rw [State.core_updCore_self, SMap.get_upd_self]
        rfl
      show (((((s1.updWg t fun w => w).takePops (opEnv s t g r es) i).core w.core).apprs.get u).queues).get q = _
      rw [hqueue, get_overDrop]
      unfold State.core
      rw [hcores]
      rfl
  · obtain ⟨body, hexec, -⟩ := onlyComputes_of_computes hi
    have hpop : (envOf s t g r).popsOf i = .wait (taken s) (.pop c q) r.pend.unstalled := by
      rw [popsOf_bound hc hb hu (by rw [show popQueues i.reads = qs from rfl, hq]; simp), show popQueues i.reads = q :: rest from hq]
      have hother' : (envOf s t g r).otherReload c (some q) = none := hother
      have hqueue : ((((envOf s t g r).s.core (envOf s t g r).w.core).apprs.get u).queues.get q)[(([] : List Nat).filter (· == q)).length]? =
          none := by
        rw [show (((envOf s t g r).s.core (envOf s t g r).w.core).apprs.get u).queues.get q = [] from hempty]
        rfl
      have hst : ((((envOf s t g r).s.core (envOf s t g r).w.core).apprs.get u).st) = .running := hrun
      unfold Env.popAll
      simp only [hother', hqueue, hst]
      rfl
    rw [hexec s t g.id h.turn, laneIssue_waits h hlock hmc hd hcrews hgates hpop]
    refine ⟨_, rfl, ?_, fun _ => rfl, rfl⟩
    have hfind := State.gang_updGang (taken s) (t := t) (g := g.id)
      (fun g => { g with park := some (.pop c q), moved := true, clause := some { r with pend := r.pend.unstalled } }) fun _ => rfl
    rw [Safety.taken_wg, h.gang] at hfind
    exact ⟨_, _, hfind, rfl, rfl, rfl, rfl⟩


end Sys2Proof.Machine
end

section
/-! SUPPORT. Instructions whose body changes cores or crews beside its workgroup's registers: what their issue leaves, said once; and
the statement about ASTART (spec/17 R402, R403, R412). -/

namespace Sys2Proof.Machine

open Sys2Proof Sys2Proof.Safety

-- One proof at a time: side by side they need more threads than a check's memory holds.
set_option Elab.async false

/-! ### Registers that stand -/

/-- Of a workgroup, registers other than the destinations `ds`, predicates, CF, rounding modes and uniform registers stand. -/
structure RegsStand (w w' : Workgroup) (ds : List (Sel × Nat)) : Prop where
  regs : ∀ l n, (∀ d ∈ ds, n ∉ codesOf d) → (w'.lane l).reg n = (w.lane l).reg n
  flags : ∀ l, (w'.lane l).p = (w.lane l).p ∧ (w'.lane l).cf = (w.lane l).cf ∧ (w'.lane l).fpmode = (w.lane l).fpmode
  uniform : ∀ c n, (∀ d ∈ ds, n ∉ uniformOf d) → (w'.crew c).s.get n = (w.crew c).s.get n

/-- Nothing that RegsStand speaks of has changed. -/
structure SameRegs (w w' : Workgroup) : Prop where
  lane : ∀ l, (w'.lane l).v = (w.lane l).v ∧ (w'.lane l).o = (w.lane l).o ∧ (w'.lane l).p = (w.lane l).p ∧
    (w'.lane l).cf = (w.lane l).cf ∧ (w'.lane l).fpmode = (w.lane l).fpmode
  crew : ∀ c, (w'.crew c).s = (w.crew c).s

theorem Lane.reg_congr {x y : Lane} (hv : x.v = y.v) (ho : x.o = y.o) (n : Nat) : x.reg n = y.reg n := by
  unfold Lane.reg
  rw [hv, ho]

theorem SameRegs.reg {w w' : Workgroup} (h : SameRegs w w') (l n : Nat) : (w'.lane l).reg n = (w.lane l).reg n :=
  Lane.reg_congr (h.lane l).1 (h.lane l).2.1 n

theorem SameRegs.stand {w w' : Workgroup} (h : SameRegs w w') (ds : List (Sel × Nat)) : RegsStand w w' ds where
  regs l n _ := h.reg l n
  flags l := (h.lane l).2.2
  uniform c n _ := by rw [h.crew]

theorem SameRegs.refl (w : Workgroup) : SameRegs w w := ⟨fun _ => ⟨rfl, rfl, rfl, rfl, rfl⟩, fun _ => rfl⟩

theorem SameRegs.trans {a b c : Workgroup} (h : SameRegs a b) (k : SameRegs b c) : SameRegs a c where
  lane l := by
    obtain ⟨h1, h2, h3, h4, h5⟩ := h.lane l
    obtain ⟨k1, k2, k3, k4, k5⟩ := k.lane l
    exact ⟨k1.trans h1, k2.trans h2, k3.trans h3, k4.trans h4, k5.trans h5⟩
  crew x := (k.crew x).trans (h.crew x)

/-- Lanes and crews that are as they were. -/
theorem SameRegs.of_eq {w w' : Workgroup} (hl : w'.lanes = w.lanes) (hc : w'.crews = w.crews) : SameRegs w w' where
  lane l := by
    unfold Workgroup.lane
    rw [hl]
    exact ⟨rfl, rfl, rfl, rfl, rfl⟩
  crew c := by
    unfold Workgroup.crew
    rw [hc]

theorem SameRegs.closeRegion (w : Workgroup) (ls : List Nat) : SameRegs w (w.closeRegion ls) where
  lane l := by
    rw [Workgroup.lane_closeRegion]
    split <;> exact ⟨rfl, rfl, rfl, rfl, rfl⟩
  crew c := by rw [Workgroup.crew_closeRegion]

theorem SameRegs.endInterval (w : Workgroup) (ls : List Nat) : SameRegs w (w.endInterval ls) where
  lane l := by
    rw [Workgroup.lane_endInterval_rest]
    exact ⟨rfl, rfl, rfl, rfl, rfl⟩
  crew c := by rw [Workgroup.crew_endInterval]

theorem SameRegs.updCrew (w : Workgroup) (c : Nat) {f : Crew → Crew} (hf : ∀ x, (f x).s = x.s) : SameRegs w (w.updCrew c f) where
  lane _ := ⟨rfl, rfl, rfl, rfl, rfl⟩
  crew d := by
    rw [Workgroup.crew_updCrew]
    split
    · next h => rw [hf, h]
    · rfl

theorem RegsStand.trans {a b c : Workgroup} {ds : List (Sel × Nat)} (h : RegsStand a b ds) (k : RegsStand b c ds) : RegsStand a c ds where
  regs l n hn := (k.regs l n hn).trans (h.regs l n hn)
  flags l := ⟨(k.flags l).1.trans (h.flags l).1, (k.flags l).2.1.trans (h.flags l).2.1, (k.flags l).2.2.trans (h.flags l).2.2⟩
  uniform x n hn := (k.uniform x n hn).trans (h.uniform x n hn)

/-- A result of `k` registers in the lanes given with it. -/
theorem RegsStand.writeSel (w : Workgroup) (free : Nat) (d : Sel) {k : Nat} {vals : List (Nat × List Word)}
    (hk : ∀ p ∈ vals, p.2.length = k) : RegsStand w (w.writeSel free d vals) [(d, k)] := by
  have ht := Touch.writeSel (ls := vals.map (·.1)) (k := k) w free d vals fun p hp => ⟨List.mem_map_of_mem hp, hk p hp⟩
  refine ⟨fun l n hn => ht.regs l n (hn _ (List.mem_singleton.2 rfl)), fun l => ?_,
    fun c n hn => ht.uniform c n (hn _ (List.mem_singleton.2 rfl))⟩
  exact ⟨Workgroup.writeSel_p .., Workgroup.writeSel_cf .., by rw [ht.lane l]⟩

/-! ### Bodies that change more than their workgroup -/

/-- A body has changed its workgroup, cores, stacks and what the model numbers; of its workgroup neither gangs nor the window nor
registers other than the destinations `ds`. -/
structure BodyMoved (s s1 : State) (t : Nat) (ds : List (Sel × Nat)) : Prop where
  rest : s1 = { taken s with
    wgs := s1.wgs, cores := s1.cores, stks := s1.stks, nextRing := s1.nextRing, nextPass := s1.nextPass }
  others : ∀ u, u ≠ t → s1.wg u = s.wg u
  gangs : (s1.wg t).gangs = (s.wg t).gangs
  win : (s1.wg t).win = (s.wg t).win
  regs : RegsStand (s.wg t) (s1.wg t) ds

section
variable {s : State} {t : Nat} {g : Gang} {r : ClauseRun} {i : Instr} {es : List ApprEntry}

/-- An instruction whose body acts so acts, and the close of the instruction adds to it open regions and what it pops. -/
theorem laneIssue_moved (h : Ready s t g r i es) {body : Env → Res} {s1 : State} {vals : List (Nat × Dword)} {ds : List (Sel × Nat)}
    (hb : body (opEnv s t g r es) = .ok s1 vals) (ha : BodyMoved s s1 t ds) :
    ∃ s', laneIssue i body s = .next s' ∧ Acted s s' t g r i ds ∧ Closed (s1.wg t) (s'.wg t) := by
  have hg : (s1.wg t).gang? g.id = some g := by
    unfold Workgroup.gang?
    rw [ha.gangs]
    exact h.gang
  obtain ⟨s', hs, hwent, hcl, hrest, hothers⟩ := laneIssue_closed h hb hg
  have hother : ∀ u, u ≠ t → s'.wg u = s.wg u := fun u hu => (hothers u hu).trans (ha.others u hu)
  refine ⟨s', hs, ⟨hwent, ⟨?_, hother⟩, ⟨fun l n hn => ?_, fun l => ?_, fun c n hn => ?_⟩, fun u a => ?_⟩, hcl⟩
  · rw [hrest, ha.rest]
    rfl
  · rw [hcl.reg, ha.regs.regs l n hn]
  · rw [hcl.lane]
    exact ha.regs.flags l
  · rw [hcl.crew]
    exact ha.regs.uniform c n hn
  · by_cases hu : u = t
    · subst hu
      rw [hcl.rest]
      exact congrArg (fun m => SMap.get m a) ha.win
    · rw [hother u hu]

/-- An instruction that pops nothing leaves lanes, crews and cores as its body does. -/
theorem laneIssue_popless (h : Ready s t g r i es) (hp : popless i = true) {body : Env → Res} {s1 s' : State}
    {vals : List (Nat × Dword)} (hb : body (opEnv s t g r es) = .ok s1 vals) (hs : laneIssue i body s = .next s') :
    (s'.wg t).crews = (s1.wg t).crews ∧ (s'.wg t).lanes = (s1.wg t).lanes ∧ s'.cores = s1.cores := by
  have hlk : (opEnv s t g r es).holders = [] := Env.holders_nil (e := opEnv s t g r es) h.unlocked
  rw [laneIssue_ready h, ← opEnv, hb, State.settle_ok hlk hp] at hs
  obtain ⟨f, -, hadv⟩ := State.advance_frame (s := s1.updWg t fun w => w) (t := t) (g := g) (i := i) h.plain h.within vals
  change Host.Outcome.next ((((s1.updWg t fun w => w).advance t g.id i r vals)).spent s.free) = _ at hs
  rw [hadv] at hs
  cases hs
  rw [State.wg_spent, State.updGang, State.wg_updWg_self, State.wg_updWg_self]
  exact ⟨rfl, rfl, rfl⟩

/-- With an empty execute mask an instruction that acts for its crew does nothing but go on. -/
theorem crewBody_idle (h : Ready s t g r i es) (hls : execLanes g r = []) {body : Env → Res} {k : Nat → Nat → Res}
    (hk : body (opEnv s t g r es) = crewBody k (opEnv s t g r es)) (ds : List (Sel × Nat)) :
    ∃ s', laneIssue i body s = .next s' ∧ Acted s s' t g r i ds := by
  have hb : body (opEnv s t g r es) = .ok (taken s) [] := by
    rw [hk, crewBody, show (opEnv s t g r es).ls = [] from hls]
    rfl
  obtain ⟨s', hs, hact, -⟩ := laneIssue_acted h hb (BodyActed.refl s t ds)
  exact ⟨s', hs, hact⟩

/-- An instruction that stands ready in lanes of a crew without an Apprentice pops nothing. -/
theorem popless_of_unbound (h : Ready s t g r i es) {c : Nat} (hc : InCrew s t g r c) (hu : ((s.wg t).crew c).appr = none) :
    popless i = true := by
  by_contra hp
  have hq : popQueues i.reads ≠ [] := by
    rw [Bool.not_eq_true, popless, List.isEmpty_eq_false_iff] at hp
    exact hp
  have hcrew : (envOf s t g r).crew? = some c := Env.crew_inCrew hc []
  have hless : (envOf s t g r).crewless = [] := Env.crewless_eq_nil (e := envOf s t g r) hc.2
  have hmixed : (envOf s t g r).mixed = false := Env.mixed_eq_false (e := envOf s t g r) hc.2
  have happr : ((envOf s t g r).w.crew c).appr = none := hu
  have hls : (envOf s t g r).ls ≠ [] := hc.1
  have hpops := h.pops
  unfold Env.popsOf at hpops
  simp [hless, hmixed, hcrew, happr, List.isEmpty_iff, hq, hls] at hpops

end

/-! ### Registers that wait for a load -/

/-- Where a register waits for no load in `w`, it waits for none in `w'`. -/
def SettledIn (w w' : Workgroup) : Prop := ∀ l n, Settled w l n → Settled w' l n

theorem SMap.mem_upd {β : Type} [Inhabited β] [DecidableEq β] {m : SMap β} {k : Nat} {f : β → β} {p : Nat × β} (h : p ∈ m.upd k f) :
    p = (k, f (m.get k)) ∨ p ∈ m := by
  unfold SMap.upd SMap.set at h
  split at h
  · exact .inr (SMap.mem_drop h).1
  · exact (SMap.mem_insert h).imp_right fun h => (SMap.mem_drop h).1

/-- A crew whose flight keeps its destinations, or loses items. -/
theorem SettledIn.updCrew (w : Workgroup) (c : Nat) {f : Crew → Crew}
    (hf : ∀ x, ∀ i ∈ (f x).flight, ∃ j ∈ x.flight, j.dest = i.dest) (hd : (f default).flight = []) : SettledIn w (w.updCrew c f) := by
  intro l n h
  unfold Settled Workgroup.pendingItems at *
  rw [List.flatMap_eq_nil_iff] at h ⊢
  intro p hp
  obtain rfl | hp := SMap.mem_upd (show p ∈ w.crews.upd c f from hp)
  · rw [List.filter_eq_nil_iff]
    intro i hi
    obtain hdef | ⟨q, hq, hqc⟩ := SMap.get_default_or_listed w.crews c
    · have hi : i ∈ (f (w.crews.get c)).flight := hi
      rw [hdef, hd] at hi
      exact absurd hi (by simp)
    · obtain ⟨j, hj, hdest⟩ := hf _ i hi
      rw [hqc] at hj
      have := List.filter_eq_nil_iff.1 (h q hq) j hj
      unfold FlightItem.destOf at this ⊢
      rwa [← hdest]
  · exact h p hp

/-- A result that was written after changes that leave registers settled. -/
theorem Holds.of_settledIn {w v w' v' : Workgroup} {ls : List Nat} {d : Dest} {val : Nat → Dword} (h : Holds v w' ls d val)
    (hset : SettledIn w v) (hl : ∀ l, (v.lane l).crew = (w.lane l).crew) (hr : ∀ l c, (v'.lane l).reg c = (w'.lane l).reg c)
    (hs : ∀ c, (v'.crew c).s = (w'.crew c).s) : Holds w v' ls d val := by
  unfold Holds at *
  split
  · trivial
  · simp only at h
    intro l c hlast hc j hj
    rw [hs]
    exact h l c hlast ((hl l).trans hc) j hj
  · next q k hq =>
    simp only at h
    intro c hcode l hmem j hj hset'
    rw [hr]
    exact h c hcode l hmem j hj (hset l _ hset')

/-! ### R412: ASTART -/

section
variable {s : State} {t : Nat} {g : Gang} {r : ClauseRun} {i : Instr} {es : List ApprEntry}

/-- A value that an instruction answers to its lanes, after a change of cores and of crews' flights and bindings. -/
theorem laneIssue_answered (h : Ready s t g r i es) {body : Env → Res} {s1 : State} {x : Nat} {d : Sel}
    (hb : body (opEnv s t g r es) = .ok ((s1.putAll (opEnv s t g r es) d x).closeE (opEnv s t g r es)) [])
    (hs1 : s1 = { taken s with wgs := s1.wgs, cores := s1.cores }) (hothers : ∀ u, u ≠ t → s1.wg u = s.wg u)
    (hrest : s1.wg t = { s.wg t with crews := (s1.wg t).crews }) (huni : ∀ c, ((s1.wg t).crew c).s = ((s.wg t).crew c).s)
    (hset : SettledIn (s.wg t) (s1.wg t)) (hp : popless i = true) :
    ∃ s', laneIssue i body s = .next s' ∧ Acted s s' t g r i [(d, 1)] ∧
      Holds (s.wg t) (s'.wg t) (execLanes g r) (some (d, 1)) (fun _ => BitVec.ofNat 64 x) ∧
      s'.cores = s1.cores ∧ ∀ k, ((s'.wg t).crew k).appr = ((s1.wg t).crew k).appr := by
  let vals := (execLanes g r).map fun l => (l, splitWords 1 (BitVec.ofNat 64 x))
  have hlen : ∀ p ∈ vals, p.2.length = 1 := fun p hp => by
    obtain ⟨l, -, rfl⟩ := List.mem_map.1 hp
    exact splitWords_length (.inl rfl) _
  have hfree : s1.free = s.free := by rw [hs1]; rfl
  have hs2 : (s1.putAll (opEnv s t g r es) d x).closeE (opEnv s t g r es) =
      (s1.updWg t fun w => w.writeSel s.free d vals).updWg t fun w => w.closeRegion (execLanes g r) := by
    have hx : splitWords 1 (BitVec.ofNat 64 x) = [BitVec.ofNat 32 x] := by simp [splitWords, BitVec.setWidth_ofNat_of_le]
    unfold State.putAll State.closeE
    rw [hfree]
    simp only [vals, hx]
    rfl
  rw [hs2] at hb
  set s2 := (s1.updWg t fun w => w.writeSel s.free d vals).updWg t fun w => w.closeRegion (execLanes g r) with hdef
  have hwg2 : s2.wg t = ((s1.wg t).writeSel s.free d vals).closeRegion (execLanes g r) := by
    rw [hdef, State.wg_updWg_self, State.wg_updWg_self]
  have hlane : ∀ l, (s1.wg t).lane l = (s.wg t).lane l := fun l => by
    rw [hrest]
    rfl
  generalize hw1 : s1.wg t = w1 at hrest huni hset hwg2 hlane ⊢
  have htouch := Touch.writeSel (ls := vals.map (·.1)) (k := 1) w1 s.free d vals fun p hp => ⟨List.mem_map_of_mem hp, hlen p hp⟩
  have hsame : SameRegs (s.wg t) w1 := ⟨fun l => by rw [hlane]; exact ⟨rfl, rfl, rfl, rfl, rfl⟩, huni⟩
  have hclose := SameRegs.closeRegion (w1.writeSel s.free d vals) (execLanes g r)
  have hmoved : BodyMoved s s2 t [(d, 1)] := by
    refine ⟨?_, fun u hu => ?_, ?_, ?_, ?_⟩
    · rw [hdef, hs1]
      rfl
    · rw [hdef, State.wg_updWg_ne _ _ hu, State.wg_updWg_ne _ _ hu, hothers u hu]
    · rw [hwg2, Workgroup.closeRegion_rest, htouch.rest, hrest]
    · rw [hwg2, Workgroup.closeRegion_rest, htouch.rest, hrest]
    · rw [hwg2]
      exact ((hsame.stand _).trans (.writeSel w1 s.free d hlen)).trans (hclose.stand _)
  clear_value s2
  obtain ⟨s', hs, hact, hcl⟩ := laneIssue_moved h hb hmoved
  obtain ⟨hcrews, -, hcores⟩ := laneIssue_popless h hp hb hs
  refine ⟨s', hs, hact, ?_, hcores.trans ?_, fun k => ?_⟩
  · have hhold := Workgroup.writeSel_holds w1 s.free d 1 (.inl rfl) (execLanes g r) (lanesOf_nodup ..) fun _ => BitVec.ofNat 64 x
    refine Holds.of_settledIn hhold hset (fun l => by rw [hlane]) (fun l n => ?_) fun m => ?_
    · rw [hcl.reg, hwg2, hclose.reg]
    · rw [hcl.crew, hwg2]
      exact hclose.crew m
  · rw [hdef]
    rfl
  · unfold Workgroup.crew
    rw [hcrews, hwg2, Workgroup.closeRegion_rest]
    exact Workgroup.appr_writeSel w1 s.free d vals k

/-- The core at which a crew's Apprentice stands. -/
theorem State.core_of_cores {s s' : State} (h : s'.cores = s.cores) (c : Nat) : s'.core c = s.core c := by
  unfold State.core
  rw [h]

/-- What binding a unit leaves. -/
theorem State.bindAppr_does (s : State) (t c u start : Nat) (w0 : Word) :
    let s1 := s.bindAppr t c u start w0 [] []
    (s1.core (s.wg t).core).apprs.get u = { (default : Apprentice) with
      wg := t, crew := c, st := .running, w := SMap.set [] 0 w0, pc := start, discard := [] } ∧
    (∀ v, v ≠ u → (s1.core (s.wg t).core).apprs.get v = (s.core (s.wg t).core).apprs.get v) ∧
    ((s1.wg t).crew c).appr = some { unit := some u, start := start, w0 := w0, pops := [] } := by
  unfold State.bindAppr
  refine ⟨?_, fun v hv => ?_, ?_⟩
  · rw [State.core_updWg, State.core_updCore_self, SMap.get_set_self]
  · rw [State.core_updWg, State.core_updCore_self, SMap.get_set_ne _ _ hv]
  · rw [State.wg_updWg_self, Workgroup.crew_updCrew_self]

/-- What freeing the unit of a bound crew leaves. -/
theorem State.freeAppr_does {s : State} {t c : Nat} {b : ApprBinding} (hb : ((s.wg t).crew c).appr = some b) :
    ((s.freeAppr t c).wg t = (s.wg t).updCrew c fun x => { x with
      appr := none
      flight := x.flight.map fun (i : FlightItem) => match i.op with | .reload .. => { i with op := .nop } | _ => i }) ∧
    (∀ u, u ≠ t → (s.freeAppr t c).wg u = s.wg u) ∧ s.freeAppr t c = { s with wgs := (s.freeAppr t c).wgs, cores := (s.freeAppr t c).cores } ∧
    ∀ u, b.unit = some u → ((s.freeAppr t c).core (s.wg t).core).apprs.get u = default := by
  unfold State.freeAppr
  rw [hb]
  dsimp only
  cases hu : b.unit with
  | none => exact ⟨State.wg_updWg_self .., fun u hu => State.wg_updWg_ne _ _ hu, rfl, fun u h => nomatch h⟩
  | some u =>
    refine ⟨State.wg_updWg_self .., fun u hu => State.wg_updWg_ne _ _ hu, rfl, fun u' h => ?_⟩
    cases h
    rw [State.core_updWg, State.core_updCore_self, SMap.get_set_self]

/-- ASTART of lanes of one crew. -/
theorem astartBody_inCrew {c : Nat} {d a b : Sel} (hc : InCrew s t g r c) : astartBody d a b (opEnv s t g r es) =
    let x := operand s t g r es [.int .u32 a, .int .u32 b] ((execLanes g r).headD 0) 0
    let w0 := (((opEnv s t g r es).opds ((execLanes g r).headD 0) [.int .u32 a, .int .u32 b] 0 0).getD 1 0).setWidth 32
    if ((s.wg t).crew c).appr.isSome then (opEnv s t g r es).trap 0x65 (execLanes g r)
    else if x ≥ 2 ^ 18 ∨ x % 4 ≠ 0 then (opEnv s t g r es).trap 0x01 (execLanes g r)
    else match (s.core (s.wg t).core).freeUnit with
      | none => .ok (((taken s).putAll (opEnv s t g r es) d 1).closeE (opEnv s t g r es)) []
      | some u => .ok ((((taken s).bindAppr t c u x w0 [] []).putAll (opEnv s t g r es) d 0).closeE (opEnv s t g r es)) [] :=
  crewBody_inCrew hc es _

/-- A stop of lanes of one crew. -/
theorem astartStopBody_inCrew {c : Nat} {d : Sel} (hc : InCrew s t g r c) : astartStopBody d (opEnv s t g r es) =
    if ((s.wg t).crew c).appr.isNone then (opEnv s t g r es).trap 0x65 (execLanes g r)
    else .ok ((((taken s).freeAppr t c).putAll (opEnv s t g r es) d 0).closeE (opEnv s t g r es)) [] :=
  crewBody_inCrew hc es _

theorem State.wg_bindAppr (s : State) (t c u start : Nat) (w0 : Word) : (s.bindAppr t c u start w0 [] []).wg t =
    (s.wg t).updCrew c fun x => { x with appr := some { unit := some u, start := start, w0 := w0, pops := [] } } := by
  unfold State.bindAppr
  rw [State.wg_updWg_self, State.wg_updCore]

/-- The words of an Apprentice that starts with one word. -/
theorem get_startWord (v : Word) (k : Nat) : (SMap.get (SMap.set [] 0 v) k).toNat = if k = 0 then v.toNat else 0 := by
  rw [SMap.get_set]
  split <;> rfl

/-- ASTART binds unit `u`, and answers 0. -/
theorem astart_binds {c u x : Nat} {w0 : Word} {d a b : Sel} (h : Ready s t g r (.astart d a b) es) (hp : popless (.astart d a b) = true)
    (hb : astartBody d a b (opEnv s t g r es) =
      .ok ((((taken s).bindAppr t c u x w0 [] []).putAll (opEnv s t g r es) d 0).closeE (opEnv s t g r es)) []) :
    ∃ s', laneIssue (.astart d a b) (astartBody d a b) s = .next s' ∧ Acted s s' t g r (.astart d a b) [(d, 1)] ∧
      Holds (s.wg t) (s'.wg t) (execLanes g r) (some (d, 1)) (fun _ => BitVec.ofNat 64 0) ∧
      (s'.core (s.wg t).core).apprs.get u = { (default : Apprentice) with
        wg := t, crew := c, st := .running, w := SMap.set [] 0 w0, pc := x, discard := [] } ∧
      (∀ v, v ≠ u → (s'.core (s.wg t).core).apprs.get v = (s.core (s.wg t).core).apprs.get v) ∧
      ((s'.wg t).crew c).appr = some { unit := some u, start := x, w0 := w0, pops := [] } := by
  obtain ⟨hunit, hunits, hbound⟩ := State.bindAppr_does (taken s) t c u x w0
  have hwg : ((taken s).bindAppr t c u x w0 [] []).wg t = _ := State.wg_bindAppr (taken s) t c u x w0
  obtain ⟨s', hs, hact, hhold, hcores, happr⟩ := laneIssue_answered h hb rfl (fun v hv => State.wg_updWg_ne _ _ hv) (by rw [hwg]; rfl)
    (fun k => by rw [hwg]; refine SameRegs.crew ?_ k; exact .updCrew (s.wg t) c fun _ => rfl)
    (by rw [hwg]; exact .updCrew _ c (fun _ j hj => ⟨j, hj, rfl⟩) rfl) hp
  refine ⟨s', hs, hact, hhold, ?_, fun v hv => ?_, (happr c).trans hbound⟩
  · rw [State.core_of_cores hcores]
    exact hunit
  · rw [State.core_of_cores hcores]
    exact hunits v hv

/-- A stop frees the unit of its crew, and answers 0. -/
theorem astartStop_frees {c : Nat} {b : ApprBinding} {d : Sel} (h : Ready s t g r (.astartStop d) es)
    (happr : ((s.wg t).crew c).appr = some b) (hb : astartStopBody d (opEnv s t g r es) =
      .ok ((((taken s).freeAppr t c).putAll (opEnv s t g r es) d 0).closeE (opEnv s t g r es)) []) :
    ∃ s', laneIssue (.astartStop d) (astartStopBody d) s = .next s' ∧ Acted s s' t g r (.astartStop d) [(d, 1)] ∧
      Holds (s.wg t) (s'.wg t) (execLanes g r) (some (d, 1)) (fun _ => BitVec.ofNat 64 0) ∧ ((s'.wg t).crew c).appr = none ∧
      ∀ u, b.unit = some u → (s'.core (s.wg t).core).apprs.get u = default := by
  obtain ⟨hwg, hothers, hrest, hunit⟩ := State.freeAppr_does (s := taken s) (t := t) (c := c) happr
  obtain ⟨s', hs, hact, hhold, hcores, happr'⟩ := laneIssue_answered h hb hrest hothers (by rw [hwg]; rfl)
    (fun k => by rw [hwg]; refine SameRegs.crew ?_ k; exact .updCrew (s.wg t) c fun _ => rfl)
    (by
      rw [hwg]
      refine .updCrew _ c (fun x i hi => ?_) rfl
      obtain ⟨j, hj, rfl⟩ := List.mem_map.1 hi
      exact ⟨j, hj, by split <;> rfl⟩) rfl
  refine ⟨s', hs, hact, hhold, ?_, fun u hu => ?_⟩
  · rw [happr', hwg, Workgroup.crew_updCrew_self]
  · rw [State.core_of_cores hcores]
    exact hunit u hu

end

/-- Settles O42: ASTART answers what the binding of its crew and the core's free units make of it, and a stop frees the unit. -/
theorem apprenticesBound : Obligations.ApprenticesBound := by
  unfold Obligations.ApprenticesBound
  intro s t g r es c d w ls idle put
  refine ⟨fun a b => ⟨fun h hls => ?_, fun h hc => ⟨fun happr => ?_, fun happr hbad => ?_, fun happr hlt hal => ⟨fun hnone => ?_, fun u hu => ?_⟩⟩⟩,
    fun h hls => ?_, fun h hc => ⟨fun happr => ?_, fun b happr => ?_⟩⟩
  · exact crewBody_idle (body := astartBody d a b) h hls rfl []
  · exact laneIssue_trapped h rfl (by rw [astartBody_inCrew hc]; exact if_pos (Option.isSome_iff_ne_none.2 happr))
  · refine laneIssue_trapped h rfl ?_
    rw [astartBody_inCrew hc]
    dsimp only
    rw [happr, if_neg (by decide), if_pos hbad]
  · have hbody : astartBody d a b (opEnv s t g r es) =
        .ok (((taken s).putAll (opEnv s t g r es) d 1).closeE (opEnv s t g r es)) [] := by
      rw [astartBody_inCrew hc]
      dsimp only
      rw [happr, if_neg (by decide), if_neg (not_or.2 ⟨not_le.2 hlt, not_not.2 hal⟩), hnone]
    obtain ⟨s', hs, hact, hhold, -, -⟩ := laneIssue_answered h hbody rfl (fun _ _ => rfl) rfl (fun _ => rfl)
      (fun _ _ h => h) (popless_of_unbound h hc happr)
    exact ⟨s', hs, hact, hhold⟩
  · have hbody := astartBody_inCrew (es := es) (d := d) (a := a) (b := b) hc
    dsimp only at hbody
    rw [happr, if_neg (by decide), if_neg (not_or.2 ⟨not_le.2 hlt, not_not.2 hal⟩), hu] at hbody
    obtain ⟨s', hs, hact, hhold, hunit, hunits, hbound⟩ := astart_binds h (popless_of_unbound h hc happr) hbody
    refine ⟨s', hs, hact, hhold, ?_, hunits, _, hbound, rfl⟩
    intro a'
    have ha : a' = _ := hunit
    rw [ha]
    refine ⟨rfl, rfl, rfl, rfl, rfl, rfl, rfl, fun k => (get_startWord _ k).trans ?_, fun q => rfl⟩
    rw [BitVec.toNat_setWidth]
    rfl
  · exact crewBody_idle (body := astartStopBody d) h hls rfl []
  · exact laneIssue_trapped h rfl (by rw [astartStopBody_inCrew hc]; exact if_pos (by simpa using happr))
  · refine astartStop_frees h happr ?_
    rw [astartStopBody_inCrew hc, happr, if_neg (by simp)]

end Sys2Proof.Machine
end

section
/-! SUPPORT. Lanes that leave their crews or end, and gangs that wait or yield (spec/02 R38-R41): what leaving leaves, and the statement
about LEAVE, EXIT, REGANG and YIELD. -/

namespace Sys2Proof.Machine

open Sys2Proof Sys2Proof.Safety

-- One proof at a time: side by side they need more threads than a check's memory holds.
set_option Elab.async false

/-! ### Leaving a crew -/

/-- Steps that change barriers alone. -/
theorem Workgroup.overBarriers_rest {α : Type} {f : Workgroup → α → Workgroup}
    (h : ∀ w x, f w x = { w with barriers := (f w x).barriers }) (xs : List α) (w : Workgroup) :
    overList xs w f = { w with barriers := (overList xs w f).barriers } := by
  induction xs generalizing w with
  | nil => rfl
  | cons x xs ih =>
    change overList xs (f w x) f = { w with barriers := (overList xs (f w x) f).barriers }
    have hx := h w x
    generalize f w x = w1 at hx ⊢
    rw [ih w1, hx]

theorem Workgroup.departures_rest (w : Workgroup) (c : Nat) (ls : List Nat) :
    w.departures c ls = { w with barriers := (w.departures c ls).barriers } := by
  unfold Workgroup.departures
  refine Workgroup.overBarriers_rest (fun w k => ?_) _ _
  dsimp only
  split <;> rfl

theorem Workgroup.overDepartures_rest (cs : List Nat) (f : Workgroup → Nat → List Nat) (w : Workgroup) :
    overList cs w (fun w c => w.departures c (f w c)) =
      { w with barriers := (overList cs w fun w c => w.departures c (f w c)).barriers } :=
  Workgroup.overBarriers_rest (fun _ _ => Workgroup.departures_rest ..) _ _

theorem Workgroup.departTraps_rest {w : Workgroup} (ht : w.traps = []) (ls : List Nat) :
    w.departTraps ls = { w with lanes := (w.departTraps ls).lanes } := by
  unfold Workgroup.departTraps
  rw [Workgroup.overUpd_rest ls (fun l => l) (fun _ x => { x with saved := none }) w]
  dsimp only
  rw [ht]
  rfl

theorem Workgroup.lane_departTraps (w : Workgroup) {ls : List Nat} (hn : ls.Nodup) (l : Nat) :
    (w.departTraps ls).lane l = if l ∈ ls then { w.lane l with saved := none } else w.lane l :=
  Workgroup.lane_overLanes ls hn (fun x => { x with saved := none }) w l

/-- Of a lane, leaving its crew ends its interval and what its handler had saved. -/
theorem Workgroup.lane_leaveCrews (w : Workgroup) {ls : List Nat} (hn : ls.Nodup) (l : Nat) :
    (w.leaveCrews ls).lane l =
      if l ∈ ls then { w.lane l with interval := (w.lane l).interval + 1, saved := none, crew := none } else w.lane l := by
  unfold Workgroup.leaveCrews
  dsimp only
  rw [Workgroup.lane_overLanes ls hn fun x => { x with crew := none }, Workgroup.lane_departTraps _ hn, Workgroup.overDepartures_rest]
  rw [show ∀ b, ({ w.endInterval ls with barriers := b } : Workgroup).lane l = (w.endInterval ls).lane l from fun _ => rfl,
    Workgroup.lane_endInterval w hn]
  split <;> rfl

/-- Leaving changes lanes, barriers and what crews keep of the end of their intervals. -/
theorem Workgroup.leaveCrews_rest {w : Workgroup} (ht : w.traps = []) (ls : List Nat) : w.leaveCrews ls =
    { w with lanes := (w.leaveCrews ls).lanes, crews := (w.endInterval ls).crews, barriers := (w.leaveCrews ls).barriers } := by
  unfold Workgroup.leaveCrews
  dsimp only
  generalize hw1 : overList (w.crewsOf ls) (w.endInterval ls) (fun w c => w.departures c _) = w1
  have h1 : w1 = { w with lanes := w1.lanes, crews := (w.endInterval ls).crews, barriers := w1.barriers } := by
    rw [← hw1, Workgroup.overDepartures_rest, Workgroup.endInterval_rest]
  have ht1 : w1.traps = [] := by
    rw [h1]
    exact ht
  rw [Workgroup.overUpd_rest ls (fun l => l) (fun _ x => { x with crew := none }), Workgroup.departTraps_rest ht1, h1]

theorem SameRegs.leaveCrews {w : Workgroup} (ht : w.traps = []) {ls : List Nat} (hn : ls.Nodup) : SameRegs w (w.leaveCrews ls) where
  lane l := by
    rw [Workgroup.lane_leaveCrews w hn]
    split <;> exact ⟨rfl, rfl, rfl, rfl, rfl⟩
  crew c := by
    rw [Workgroup.leaveCrews_rest ht]
    show ((w.endInterval ls).crew c).s = _
    rw [Workgroup.crew_endInterval]

/-! ### Instructions that see to their gang -/

section
variable {s : State} {t : Nat} {g : Gang} {r : ClauseRun} {i : Instr} {es : List ApprEntry}

/-- An instruction that pops nothing, and whose body has seen to its gang, leaves what its body leaves. -/
theorem laneIssue_gone (h : Ready s t g r i es) (hp : popless i = true) {body : Env → Res} {s1 : State}
    (hb : body (opEnv s t g r es) = .gone s1) : laneIssue i body s = .next (s1.spent s.free) := by
  have htake : s1.takePops (opEnv s t g r es) i = s1 := (State.takePops_kept s1 (opEnv s t g r es) i).2.2.2.2.2.2 hp
  rw [laneIssue_ready h, ← opEnv, hb]
  unfold State.settleRes
  dsimp only
  rw [htake]

/-- An instruction that pops nothing, and whose body ends its clause: the gang is transferred from what the body has left. -/
theorem laneIssue_jumps (h : Ready s t g r i es) (hp : popless i = true) {body : Env → Res} {s1 : State} {goto : List (Nat × Nat)}
    (hb : body (opEnv s t g r es) = .jump s1 goto) :
    laneIssue i body s = .next (((s1.updWg t fun w => w).transfer t g.id r goto).spent s.free) := by
  have hlk : (opEnv s t g r es).holders = [] := Env.holders_nil (e := opEnv s t g r es) h.unlocked
  have htake : (s1.updWg t fun w => w).takePops (opEnv s t g r es) i = s1.updWg t fun w => w :=
    (State.takePops_kept _ (opEnv s t g r es) i).2.2.2.2.2.2 hp
  rw [laneIssue_ready h, ← opEnv, hb]
  unfold State.settleRes State.countLocks
  simp only [hlk, overList, List.foldl_nil]
  rw [show (opEnv s t g r es).t = t from rfl, htake]
  rfl

/-- The gangs of a state alone have moved since `s1`, and what `s1` leaves of registers and window is what stood. -/
theorem GangsMoved.kept {s1 s2 : State} (hm : GangsMoved s1 s2 t) (hrest : s1 = { taken s with wgs := s1.wgs, free := s1.free })
    (hothers : ∀ u, u ≠ t → s1.wg u = s.wg u) (hwin : (s1.wg t).win = (s.wg t).win) (hregs : SameRegs (s.wg t) (s1.wg t)) :
    OnlyGroup s s2 t ∧ RegsKept s s2 t [] ∧ WinKept s s2 := by
  have hwg2 := hm.wg
  have hsame : SameRegs (s.wg t) (s2.wg t) := hregs.trans (.of_eq (by rw [hwg2]) (by rw [hwg2]))
  obtain ⟨h1, h2, h3⟩ := hsame.stand []
  refine ⟨⟨?_, fun u hu => (hm.others u hu).trans (hothers u hu)⟩, ⟨h1, h2, h3⟩, fun u a => ?_⟩
  · rw [hm.rest, hrest]
    rfl
  · by_cases hu : u = t
    · subst hu
      rw [hwg2]
      exact congrArg (fun m => SMap.get m a) hwin
    · rw [hm.others u hu, hothers u hu]

/-- The gang as its clause leaves it, which may be one that yields (spec/02 R41). -/
def Gang.afterHeader (g : Gang) (r : ClauseRun) (yhold : Nat) : Gang := if hYield r.hdr.toNat then g.yielded yhold else g

theorem Gang.afterHeader_same (g : Gang) (r : ClauseRun) (n : Nat) : (g.afterHeader r n).id = g.id ∧
    (g.afterHeader r n).hset = g.hset ∧ (g.afterHeader r n).mask = g.mask ∧ (g.afterHeader r n).regang = g.regang := by
  unfold Gang.afterHeader
  split <;> exact ⟨rfl, rfl, rfl, rfl⟩

/-- A transfer, path by path. -/
theorem State.transfer_eq (hg : (s.wg t).gang? g.id = some g) (r : ClauseRun) (goto : List (Nat × Nat)) :
    s.transfer t g.id r goto =
      let g1 := g.afterHeader r (s.wg t).yhold.toNat
      match dedup ((lanesOf g1.hset g1.mask).map (pathOf r goto)) with
      | [(true, pc)] => s.updGang t g.id fun _ => { g1 with clause := none, park := none, moved := true, pc := pc }
      | [(false, _)] => (s.updGang t g.id fun _ => g1).endClause t g.id r
      | ks => overList ks (s.setWg t ((s.wg t).dropGang g.id)) fun s k =>
          let s2 := s.updWg t fun w => w.addGang (g1.onPath r goto k)
          if k.1 = false ∧ k.2 % 4096 = 0 then s2.fallTrap t (s.wg t).nextGang (k.2 - 4) else s2 := by
  unfold State.transfer
  simp only [hg]
  rfl

/-- A gang changed in place: every other one stands. -/
theorem Workgroup.of_mem_updGang {w : Workgroup} {n : Nat} {f : Gang → Gang} {x : Gang} (h : x ∈ (w.updGang n f).gangs) :
    x ∈ w.gangs ∨ ∃ y ∈ w.gangs, y.id = n ∧ x = f y := by
  obtain ⟨y, hy, rfl⟩ := List.mem_map.1 h
  split
  · next hid => exact .inr ⟨y, hy, hid, rfl⟩
  · exact .inl hy

/-- A mask that is not empty has lanes. -/
theorem lanesOf_ne_nil (h : Nat) {m : BitVec 32} (hm : m ≠ 0) : lanesOf h m ≠ [] := by
  intro hnil
  refine hm (BitVec.eq_of_getLsbD_eq fun k hk => ?_)
  change m.getLsbD k = (0#32).getLsbD k
  rw [BitVec.getLsbD_zero, ← Bool.not_eq_true]
  intro hb
  have hmem : 32 * h + k ∈ lanesOf h m := mem_lanesOf.2 ⟨by unfold homeOf; omega, by
    rw [show posOf (32 * h + k) = k by unfold posOf; omega]
    exact hb⟩
  rw [hnil] at hmem
  exact absurd hmem (by simp)

/-- What is left of a list of one value. -/
theorem dedup_const {α β : Type} [DecidableEq β] {f : α → β} {b : β} {l : List α} (hl : l ≠ []) (hf : ∀ x, f x = b) :
    dedup (l.map f) = [b] := by
  have hall : ∀ x ∈ l.map f, x = b := fun x hx => by
    obtain ⟨y, -, rfl⟩ := List.mem_map.1 hx
    exact hf y
  have hone := length_dedup_le_one fun x hx y hy => (hall x hx).trans (hall y hy).symm
  match hd : dedup (l.map f) with
  | [] =>
    obtain ⟨a, rest, rfl⟩ := List.exists_cons_of_ne_nil hl
    have : f a ∈ dedup ((a :: rest).map f) := mem_dedup.2 (by simp)
    rw [hd] at this
    exact absurd this (by simp)
  | [x] => rw [hall x (mem_dedup.1 (by rw [hd]; simp))]
  | x :: y :: rest =>
    rw [hd] at hone
    simp at hone

/-- Where every lane goes on at the next clause, a gang with lanes stays one gang. -/
theorem State.transfer_nil (hg : (s.wg t).gang? g.id = some g) (hn : r.next % 4096 ≠ 0) (hm : g.mask ≠ 0) :
    ((s.transfer t g.id r []).wg t).gang? g.id = some
      { (g.afterHeader r (s.wg t).yhold.toNat).afterHeader r (s.wg t).yhold.toNat with
        clause := none, park := none, moved := true, pc := r.next } ∧
    ∀ x ∈ ((s.transfer t g.id r []).wg t).gangs, ∃ y ∈ (s.wg t).gangs, x.hset = y.hset ∧ x.mask = y.mask := by
  obtain ⟨hid, hset, hmask, -⟩ := g.afterHeader_same r (s.wg t).yhold.toNat
  have hz : (r.next % 4096 == 0) = false := by simpa using hn
  have hone : dedup ((lanesOf g.hset g.mask).map (pathOf r [])) = [(false, r.next)] :=
    dedup_const (f := pathOf r []) (lanesOf_ne_nil _ hm) fun l => rfl
  set g1 := g.afterHeader r (s.wg t).yhold.toNat with hg1
  have heq : s.transfer t g.id r [] = (s.updGang t g.id fun _ => g1).endClause t g.id r := by
    rw [State.transfer_eq hg]
    dsimp only
    rw [← hg1, hset, hmask, hone]
  rw [heq]
  unfold State.endClause
  dsimp only
  rw [hz, if_neg (by decide)]
  have hy : (((s.updGang t g.id fun _ => g1).wg t).yhold) = (s.wg t).yhold := by
    rw [State.updGang, State.wg_updWg_self]
    rfl
  refine ⟨?_, fun x hx => ?_⟩
  · rw [State.gang_updGang _ _ fun x => by split <;> rfl, State.updGang, State.wg_updWg_self, Workgroup.gang_updGang_const hg hid]
    rfl
  · rw [State.updGang, State.wg_updWg_self, State.updGang, State.wg_updWg_self] at hx
    have key : ∀ z ∈ ((s.wg t).updGang g.id fun _ => g1).gangs, ∃ y ∈ (s.wg t).gangs, z.hset = y.hset ∧ z.mask = y.mask := by
      intro z hz
      obtain hz | ⟨y, hy, -, rfl⟩ := Workgroup.of_mem_updGang hz
      · exact ⟨z, hz, rfl, rfl⟩
      · exact ⟨g, List.mem_of_find?_eq_some hg, hset, hmask⟩
    obtain hx | ⟨y, hy, -, rfl⟩ := Workgroup.of_mem_updGang hx
    · exact key x hx
    · obtain ⟨z, hz, h1, h2⟩ := key y hy
      refine ⟨z, hz, ?_, ?_⟩
      · rw [← h1]
        split <;> rfl
      · rw [← h2]
        split <;> rfl

/-- An instruction whose body ends its clause where every lane goes on, and has changed its workgroup alone: what it leaves. -/
theorem laneIssue_endsClause (h : Ready s t g r i es) (hn : r.next % 4096 ≠ 0) (hp : popless i = true) {body : Env → Res} {s1 : State}
    (hb : body (opEnv s t g r es) = .jump s1 []) (hrest : s1 = { taken s with wgs := s1.wgs })
    (hothers : ∀ u, u ≠ t → s1.wg u = s.wg u) {g1 : Gang} (hg : (s1.wg t).gang? g1.id = some g1) (hid : g1.id = g.id)
    (hset : g1.hset = g.hset) (hmask : g1.mask = g.mask) (hwin : (s1.wg t).win = (s.wg t).win)
    (hregs : SameRegs (s.wg t) (s1.wg t)) :
    ∃ s', laneIssue i body s = .next s' ∧ Transferred s s' t g (fun _ => r.next) [] ∧
      (s'.wg t = { s1.wg t with gangs := (s'.wg t).gangs, nextGang := (s'.wg t).nextGang }) ∧
      (g.mask ≠ 0 → (s'.wg t).gang? g.id = some
        { (g1.afterHeader r (s1.wg t).yhold.toNat).afterHeader r (s1.wg t).yhold.toNat with
          clause := none, park := none, moved := true, pc := r.next }) := by
  have hs0 : (s1.updWg t fun w => w) = { s1 with wgs := (s1.updWg t fun w => w).wgs } := rfl
  have hoth0 : ∀ u, u ≠ t → (s1.updWg t fun w => w).wg u = s.wg u := fun u hu => (State.wg_updWg_ne _ _ hu).trans (hothers u hu)
  have hwg0 : (s1.updWg t fun w => w).wg t = s1.wg t := State.wg_updWg_self ..
  have hissue := laneIssue_jumps h hp hb
  generalize (s1.updWg t fun w => w) = s0 at hs0 hoth0 hwg0 hissue
  rw [← hwg0] at hg hwin hregs ⊢
  obtain ⟨hspread, hmoved⟩ := State.transfer_spread hg hn []
  have hgang := fun hm => (State.transfer_nil hg hn hm).1
  rw [hid] at hspread hmoved hgang
  generalize s0.transfer t g.id r [] = s2 at hspread hmoved hgang hissue
  obtain ⟨honly, hr, hwins⟩ := hmoved.kept (s := s) (by rw [hs0, hrest]) hoth0 hwin hregs
  refine ⟨_, hissue, ⟨fun l hl => ?_, ⟨?_, honly.others⟩, ⟨hr.regs, hr.flags, hr.uniform⟩, hwins⟩, hmoved.wg,
    fun hm => hgang (by rw [hmask]; exact hm)⟩
  · obtain ⟨x, hx⟩ := hspread l (by rw [hset, hmask]; exact hl)
    rw [hset] at hx
    exact ⟨x, hx⟩
  · rw [honly.rest]
    rfl

/-! ### LEAVE -/

theorem Env.inGate_eq_nil {e : Env} (h : ∀ l ∈ e.ls, e.w.gateOf l = none) : e.inGate = [] :=
  List.filter_eq_nil_iff.2 fun l hl => by simp [h l hl]

theorem Env.crewless_of_crewed (hc : Crewed s t g r) (es : List ApprEntry) : (opEnv s t g r es).crewless = [] :=
  List.filter_eq_nil_iff.2 fun l hl => by
    rw [Option.isNone_iff_eq_none]
    exact hc l hl

/-- Where no trap has a handler to end, none ends. -/
theorem State.endEmptyHandlers_of_nil (ht : (s.wg t).traps = []) : s.endEmptyHandlers t = s := by
  unfold State.endEmptyHandlers
  rw [ht]
  rfl

/-- LEAVE takes the lanes of E from their crews. -/
theorem leaveBody_leaves (ht : (s.wg t).traps = []) (hc : Crewed s t g r) (hgate : ∀ l ∈ execLanes g r, (s.wg t).gateOf l = none)
    (es : List ApprEntry) : leaveBody (opEnv s t g r es) =
      .jump ((taken s).setWg t (((s.wg t).closeRegion (execLanes g r)).leaveCrews (execLanes g r))) [] := by
  have hgate' : (opEnv s t g r es).inGate = [] := Env.inGate_eq_nil (e := opEnv s t g r es) hgate
  have htc : ((s.wg t).closeRegion (execLanes g r)).traps = [] := by
    rw [Workgroup.closeRegion_rest]
    exact ht
  unfold leaveBody
  simp only [Env.crewless_of_crewed hc es, hgate']
  refine congrArg (Res.jump · []) (State.endEmptyHandlers_of_nil ?_)
  refine (congrArg Workgroup.traps (State.wg_setWg_self ..)).trans ?_
  change (((s.wg t).closeRegion (execLanes g r)).leaveCrews (execLanes g r)).traps = []
  rw [Workgroup.leaveCrews_rest htc]
  exact htc

/-- What LEAVE leaves of its workgroup. -/
theorem leave_leaves (h : Ready s t g r .leave es) (hn : r.next % 4096 ≠ 0) (ht : (s.wg t).traps = []) (hc : Crewed s t g r)
    (hgate : ∀ l ∈ execLanes g r, (s.wg t).gateOf l = none) : ∃ s', laneIssue .leave leaveBody s = .next s' ∧
      Transferred s s' t g (fun _ => r.next) [] ∧ IntervalsEnded s s' t g r ∧
      (∀ l ∈ execLanes g r, ((s'.wg t).lane l).crew = none) ∧ ∀ l, l ∉ execLanes g r → (s'.wg t).lane l = (s.wg t).lane l := by
  have hnd : (execLanes g r).Nodup := lanesOf_nodup ..
  have htc : ((s.wg t).closeRegion (execLanes g r)).traps = [] := by
    rw [Workgroup.closeRegion_rest]
    exact ht
  have hrest := Workgroup.leaveCrews_rest htc (execLanes g r)
  have hcl := Workgroup.closeRegion_rest (s.wg t) (execLanes g r)
  obtain ⟨s', hs, htrans, hwg, -⟩ := laneIssue_endsClause h hn rfl (leaveBody_leaves ht hc hgate es) rfl
    (fun u hu => State.wg_setWg_ne _ _ hu) (g1 := g) (by rw [State.wg_setWg_self, hrest, hcl]; exact h.gang) rfl rfl rfl
    (by rw [State.wg_setWg_self, hrest, hcl])
    (by rw [State.wg_setWg_self]; exact (SameRegs.closeRegion ..).trans (.leaveCrews htc hnd))
  have hlane : ∀ l, (s'.wg t).lane l = if l ∈ execLanes g r then
      { (s.wg t).lane l with opened := false, interval := ((s.wg t).lane l).interval + 1, saved := none, crew := none }
      else (s.wg t).lane l := fun l => by
    rw [hwg, State.wg_setWg_self]
    refine (Workgroup.lane_leaveCrews _ hnd l).trans ?_
    rw [Workgroup.lane_closeRegion]
    split <;> rfl
  refine ⟨s', hs, htrans, fun l hl => ?_, fun l hl => ?_, fun l hl => ?_⟩
  · rw [hlane, if_pos hl]
  · rw [hlane, if_pos hl]
  · rw [hlane, if_neg hl]

/-! ### EXIT -/

/-- The bits that are left of a mask once lanes of its home set have been taken out. -/
theorem getLsbD_dropped {m : BitVec 32} {ls : List Nat} {h l : Nat} (hl : homeOf l = h) :
    (m &&& ~~~ (maskOfLanes (ls.filter fun l => homeOf l = h))).getLsbD (posOf l) = true ↔ m.getLsbD (posOf l) = true ∧ l ∉ ls := by
  have hpos : posOf l < 32 := Nat.mod_lt _ (by decide)
  have hmem : (maskOfLanes (ls.filter fun l => homeOf l = h)).getLsbD (posOf l) = true ↔ l ∈ ls := by
    unfold maskOfLanes
    rw [getLsbD_maskOf _ hpos]
    refine ⟨fun hx => ?_, fun hx => List.mem_map_of_mem (List.mem_filter.2 ⟨hx, by simpa using hl⟩)⟩
    obtain ⟨k, hk, hp⟩ := List.mem_map.1 hx
    obtain ⟨hk, hhome⟩ := List.mem_filter.1 hk
    have : k = l := by
      have hhome : homeOf k = h := by simpa using hhome
      unfold homeOf posOf at *
      omega
    exact this ▸ hk
  rw [BitVec.getLsbD_and, BitVec.getLsbD_not, Bool.and_eq_true, ← hmem]
  simp [hpos]

/-- The gang that is left once lanes have been taken out of all gangs. -/
def Gang.without (g : Gang) (ls : List Nat) : Gang :=
  let m := g.mask &&& ~~~ (maskOfLanes (ls.filter fun l => homeOf l = g.hset))
  { g with mask := m, clause := g.clause.map fun r => { r with issue := r.issue &&& m, exec := r.exec &&& m } }

theorem Workgroup.dropLanes_gangs (w : Workgroup) (ls : List Nat) : (w.dropLanes ls).gangs =
    w.gangs.filterMap fun g => if (g.without ls).mask = 0 then none else some (g.without ls) := rfl

theorem Workgroup.gang_dropLanes {w : Workgroup} {n : Nat} (hg : w.gang? n = some g) (ls : List Nat) (hm : (g.without ls).mask ≠ 0) :
    (w.dropLanes ls).gang? n = some (g.without ls) := by
  unfold Workgroup.gang? at *
  rw [Workgroup.dropLanes_gangs]
  generalize w.gangs = gs at hg
  induction gs with
  | nil => exact absurd hg (by simp)
  | cons x xs ih =>
    by_cases hx : x.id = n
    · obtain rfl : x = g := by simpa [hx] using hg
      rw [List.filterMap_cons, if_neg hm]
      exact List.find?_cons_of_pos (by simpa [Gang.without] using hx)
    · have ih := ih (by simpa [hx] using hg)
      rw [List.filterMap_cons]
      split
      · exact ih
      · next y hy =>
        split at hy
        · exact nomatch hy
        · cases hy
          rw [List.find?_cons_of_neg (by simpa [Gang.without] using hx)]
          exact ih

/-- Where some lane waits in no JOIN, or none is live, no crew stalls. -/
theorem State.crewStall_of_none (hj : ∀ l, ((s.wg t).lane l).joining = none) : s.crewStall t = s := by
  have hst : (s.wg t).stalledInJoin = false := by
    unfold Workgroup.stalledInJoin
    cases hl : (s.wg t).liveLanes with
    | nil => rfl
    | cons a l => simp [hj]
  unfold State.crewStall
  dsimp only
  rw [if_pos hst]

/-- The state in which EXIT has taken its lanes out of crews and gangs. -/
def State.exitLeaves (s : State) (t : Nat) (ls : List Nat) : State := (taken s).setWg t (((s.wg t).leaveCrews ls).dropLanes ls)

/-- Lanes that end. -/
def State.endLanes (s : State) (t : Nat) (ls : List Nat) : State :=
  s.updWg t fun w => overList ls w fun w l => w.updLane l fun x => { x with live := false }

theorem State.wg_exitLeaves (ls : List Nat) : (s.exitLeaves t ls).wg t = ((s.wg t).leaveCrews ls).dropLanes ls := State.wg_setWg_self ..

/-- What a transfer to the next clause leaves of the gangs that EXIT has left. -/
theorem State.exit_transfer (hg : (s.wg t).gang? g.id = some g) (hn : r.next % 4096 ≠ 0) (ht : (s.wg t).traps = []) (ls : List Nat) :
    let s1 := s.exitLeaves t ls
    let s2 := s1.transfer t g.id r []
    GangsMoved s1 s2 t ∧
      (∀ l ∈ ls, ∀ h ∈ (s2.wg t).gangs, h.hset = g.hset → homeOf l = g.hset → h.mask.getLsbD (posOf l) = false) ∧
      ∀ l ∈ lanesOf g.hset g.mask, l ∉ ls → ∃ h ∈ (s2.wg t).gangs, h.hset = g.hset ∧ h.mask.getLsbD (posOf l) = true ∧
        h.clause = none ∧ h.park = none ∧ h.pc = r.next := by
  intro s1 s2
  have hwg : s1.wg t = ((s.wg t).leaveCrews ls).dropLanes ls := State.wg_exitLeaves ls
  have hgangs : (s1.wg t).gangs = (s.wg t).gangs.filterMap fun g => if (g.without ls).mask = 0 then none else some (g.without ls) := by
    rw [hwg, Workgroup.dropLanes_gangs, Workgroup.leaveCrews_rest ht]
  have hdropped : ∀ x ∈ (s1.wg t).gangs, ∃ y : Gang, x = y.without ls ∧ x.mask ≠ 0 := fun x hx => by
    rw [hgangs] at hx
    obtain ⟨y, -, hy⟩ := List.mem_filterMap.1 hx
    split at hy
    · exact nomatch hy
    · next hm =>
      cases hy
      exact ⟨y, rfl, hm⟩
  have hbit : ∀ l ∈ ls, ∀ x ∈ (s1.wg t).gangs, homeOf l = x.hset → x.mask.getLsbD (posOf l) = false := fun l hl x hx hh => by
    obtain ⟨y, rfl, -⟩ := hdropped x hx
    rw [← Bool.not_eq_true]
    exact fun h => ((getLsbD_dropped hh).1 h).2 hl
  have hstay : ∀ l ∈ lanesOf g.hset g.mask, l ∉ ls → (s1.wg t).gang? g.id = some (g.without ls) ∧ l ∈ lanesOf g.hset (g.without ls).mask := by
    intro l hl hnl
    obtain ⟨hh, hb⟩ := mem_lanesOf.1 hl
    have hm : (g.without ls).mask.getLsbD (posOf l) = true := (getLsbD_dropped hh).2 ⟨hb, hnl⟩
    refine ⟨?_, mem_lanesOf.2 ⟨hh, hm⟩⟩
    rw [hwg]
    refine Workgroup.gang_dropLanes ?_ ls fun h0 => ?_
    · rw [Workgroup.leaveCrews_rest ht]
      exact hg
    · rw [h0] at hm
      exact absurd hm (by simp)
  cases hfind : (s1.wg t).gang? g.id with
  | none =>
    have heq : s2 = s1 := by
      show s1.transfer t g.id r [] = s1
      unfold State.transfer
      simp only [hfind]
    rw [heq]
    refine ⟨.refl s1 t, fun l hl x hx hset hh => hbit l hl x hx (hh.trans hset.symm), fun l hl hnl => ?_⟩
    rw [(hstay l hl hnl).1] at hfind
    exact nomatch hfind
  | some g1 =>
    have hid : g1.id = g.id := by simpa using List.find?_some hfind
    obtain ⟨y, hy, hm⟩ := hdropped g1 (List.mem_of_find?_eq_some hfind)
    have hfind1 : (s1.wg t).gang? g1.id = some g1 := hid ▸ hfind
    have hs2 : s2 = s1.transfer t g1.id r [] := by rw [hid]
    obtain ⟨hspread, hmoved⟩ := State.transfer_spread hfind1 hn []
    obtain ⟨-, hmasks⟩ := State.transfer_nil hfind1 hn hm
    rw [hs2]
    refine ⟨hmoved, fun l hl x hx hset hh => ?_, fun l hl hnl => ?_⟩
    · obtain ⟨z, hz, h1, h2⟩ := hmasks x hx
      rw [h2]
      exact hbit l hl z hz (hh.trans (hset.symm.trans h1))
    · obtain ⟨hg1, hl1⟩ := hstay l hl hnl
      obtain rfl : g1 = g.without ls := Option.some.inj (hfind.symm.trans hg1)
      exact hspread l hl1

/-- Lanes that end change nothing but themselves. -/
theorem Workgroup.endLanes_rest (w : Workgroup) (ls : List Nat) :
    overList ls w (fun w l => w.updLane l fun x => { x with live := false }) =
      { w with lanes := (overList ls w fun w l => w.updLane l fun x => { x with live := false }).lanes } :=
  Workgroup.overUpd_rest ls (fun l => l) (fun _ x => { x with live := false }) w

/-- EXIT takes the lanes of E out of crews and gangs, and ends them. -/
theorem exitBody_leaves (hgate : ∀ l ∈ execLanes g r, (s.wg t).gateOf l = none) (hj : ∀ l, ((s.wg t).lane l).joining = none)
    (hg : (s.wg t).gang? g.id = some g) (hn : r.next % 4096 ≠ 0) (ht : (s.wg t).traps = []) (es : List ApprEntry) :
    exitBody (opEnv s t g r es) = .gone
      (((s.exitLeaves t (execLanes g r)).transfer t g.id r []).endLanes t (execLanes g r)) := by
  have hgate' : (opEnv s t g r es).inGate = [] := Env.inGate_eq_nil (e := opEnv s t g r es) hgate
  have hnd : (execLanes g r).Nodup := lanesOf_nodup ..
  obtain ⟨hmoved, -⟩ := State.exit_transfer hg hn ht (execLanes g r)
  unfold exitBody
  simp only [hgate']
  refine congrArg Res.gone ?_
  change (((((s.exitLeaves t (execLanes g r)).transfer t g.id r []).endLanes t (execLanes g r)).endEmptyHandlers t).crewStall t) = _
  have hwg : ((((s.exitLeaves t (execLanes g r)).transfer t g.id r []).endLanes t (execLanes g r)).wg t).traps = [] := by
    unfold State.endLanes
    rw [State.wg_updWg_self, Workgroup.endLanes_rest, hmoved.wg, State.wg_exitLeaves]
    change ((s.wg t).leaveCrews _).traps = []
    rw [Workgroup.leaveCrews_rest ht]
    exact ht
  rw [State.endEmptyHandlers_of_nil hwg]
  refine State.crewStall_of_none fun l => ?_
  unfold State.endLanes
  rw [State.wg_updWg_self, Workgroup.lane_overLanes _ hnd fun x => { x with live := false }, hmoved.wg, State.wg_exitLeaves]
  have hlane : (((s.wg t).leaveCrews (execLanes g r)).lane l).joining = none := by
    rw [Workgroup.lane_leaveCrews _ hnd]
    split <;> exact hj l
  split <;> exact hlane

/-- What EXIT leaves of its workgroup. -/
theorem exit_leaves (h : Ready s t g r .exit es) (hn : r.next % 4096 ≠ 0) (ht : (s.wg t).traps = [])
    (hgate : ∀ l ∈ execLanes g r, (s.wg t).gateOf l = none) (hj : ∀ l, ((s.wg t).lane l).joining = none) :
    ∃ s', laneIssue .exit exitBody s = .next s' ∧
      OnlyGroup s s' t ∧ RegsKept s s' t [] ∧ WinKept s s' ∧
      (∀ l ∈ execLanes g r, ((s'.wg t).lane l).live = false ∧ ((s'.wg t).lane l).crew = none) ∧
      (∀ l, l ∉ execLanes g r → (s'.wg t).lane l = (s.wg t).lane l) ∧
      (∀ l ∈ execLanes g r, ∀ h ∈ (s'.wg t).gangs, h.hset = g.hset → h.mask.getLsbD (posOf l) = false) ∧
      ∀ l ∈ lanesOf g.hset g.mask, l ∉ execLanes g r → ∃ h ∈ (s'.wg t).gangs, h.hset = g.hset ∧ h.mask.getLsbD (posOf l) = true ∧
        h.clause = none ∧ h.park = none ∧ h.pc = r.next := by
  have hissue := laneIssue_gone h rfl (exitBody_leaves hgate hj h.gang hn ht es)
  obtain ⟨hmoved, hout, hstay⟩ := State.exit_transfer h.gang hn ht (execLanes g r)
  have hnd : (execLanes g r).Nodup := lanesOf_nodup ..
  have hhome : ∀ l ∈ execLanes g r, homeOf l = g.hset := fun l hl => (mem_execLanes.1 hl).1
  generalize execLanes g r = ls at *
  have hwg1 := s.wg_exitLeaves (t := t) ls
  have hrest1 := Workgroup.leaveCrews_rest ht ls
  have hsame1 : SameRegs (s.wg t) ((s.exitLeaves t ls).wg t) := by
    rw [hwg1]
    exact (SameRegs.leaveCrews ht hnd).trans (.of_eq rfl rfl)
  obtain ⟨honly, hregs, hwins⟩ := hmoved.kept (s := s) rfl (fun u hu => State.wg_setWg_ne _ _ hu)
    (by rw [hwg1]; change ((s.wg t).leaveCrews ls).win = _; rw [hrest1]) hsame1
  have hlane1 : ∀ l, ((s.exitLeaves t ls).wg t).lane l = if l ∈ ls then
      { (s.wg t).lane l with interval := ((s.wg t).lane l).interval + 1, saved := none, crew := none } else (s.wg t).lane l :=
    fun l => (congrArg (fun w : Workgroup => w.lane l) hwg1).trans (Workgroup.lane_leaveCrews (s.wg t) hnd l)
  generalize s.exitLeaves t ls = s1 at *
  generalize s1.transfer t g.id r [] = s2 at *
  have hlane2 : ∀ l, (s2.wg t).lane l = (s1.wg t).lane l := fun l => by
    rw [hmoved.wg]
    rfl
  have hwg3 : (s2.endLanes t ls).wg t = overList ls (s2.wg t) fun w l => w.updLane l fun x => { x with live := false } :=
    State.wg_updWg_self ..
  have hend := Workgroup.endLanes_rest (s2.wg t) ls
  have hlane3 : ∀ l, ((s2.endLanes t ls).wg t).lane l =
      if l ∈ ls then { (s2.wg t).lane l with live := false } else (s2.wg t).lane l := fun l => by
    rw [hwg3]
    exact Workgroup.lane_overLanes ls hnd (fun x => { x with live := false }) _ l
  have hsame3 : SameRegs (s2.wg t) ((s2.endLanes t ls).wg t) := by
    refine ⟨fun l => ?_, fun c => ?_⟩
    · rw [hlane3]
      split <;> exact ⟨rfl, rfl, rfl, rfl, rfl⟩
    · rw [hwg3, hend]
      rfl
  have hgangs3 : ((s2.endLanes t ls).wg t).gangs = (s2.wg t).gangs := by rw [hwg3, hend]
  have hwin3 : ((s2.endLanes t ls).wg t).win = (s2.wg t).win := by rw [hwg3, hend]
  have hoth3 : ∀ u, u ≠ t → (s2.endLanes t ls).wg u = s2.wg u := fun u hu => State.wg_updWg_ne _ _ hu
  refine ⟨_, hissue, ⟨?_, fun u hu => (hoth3 u hu).trans (honly.others u hu)⟩, ?_, fun u a => ?_, fun l hl => ?_, fun l hl => ?_,
    fun l hl x hx hset => ?_, fun l hl hnl => ?_⟩
  · unfold State.endLanes
    rw [honly.rest]
    rfl
  · obtain ⟨k1, k2, k3⟩ := RegsStand.trans (ds := []) ⟨hregs.regs, hregs.flags, hregs.uniform⟩ (hsame3.stand [])
    exact ⟨k1, k2, k3⟩
  · rw [← hwins u a, State.wg_spent]
    by_cases hu : u = t
    · rw [hu, hwin3]
    · rw [hoth3 u hu]
  · rw [State.wg_spent, hlane3, if_pos hl, hlane2, hlane1, if_pos hl]
    exact ⟨rfl, rfl⟩
  · rw [State.wg_spent, hlane3, if_neg hl, hlane2, hlane1, if_neg hl]
  · rw [State.wg_spent, hgangs3] at hx
    exact hout l hl x hx hset (hhome l hl)
  · rw [State.wg_spent, hgangs3]
    exact hstay l hl hnl

/-! ### REGANG and YIELD -/

/-- The gang as REGANG leaves it to wait. -/
def Gang.waitsAt (g : Gang) (r : ClauseRun) (yhold : Nat) : Gang :=
  { g.afterHeader r yhold with clause := none, park := none, pc := r.next, regang := true, moved := true }

/-- The workgroup as a REGANG that waits leaves it: in the window that is open there, or in one it opens. -/
def Workgroup.regangs (w : Workgroup) (g : Gang) (r : ClauseRun) (p : Nat) : Workgroup :=
  let w1 := w.updGang g.id fun x => x.waitsAt r w.yhold.toNat
  if w.windows.any fun x => x.hset == g.hset && x.pc == p then w1
  else { w1 with windows := w1.windows ++ [{ hset := g.hset, pc := p, left := w.rgwin.toNat }] }

theorem Workgroup.regangs_rest (w : Workgroup) (g : Gang) (r : ClauseRun) (p : Nat) : w.regangs g r p =
    { w with
      gangs := (w.updGang g.id fun x => x.waitsAt r w.yhold.toNat).gangs
      windows := if w.windows.any fun x => x.hset == g.hset && x.pc == p then w.windows
        else w.windows ++ [{ hset := g.hset, pc := p, left := w.rgwin.toNat }] } := by
  unfold Workgroup.regangs
  split <;> rfl

/-- A REGANG with a window to wait in. -/
theorem regang_waits (h : Ready s t g r .regang es)
    (hroom : ((s.wg t).windows.any fun x => x.hset == g.hset && x.pc == (envOf s t g r).fpc) = true ∨
      ((s.wg t).windows.filter fun x => x.hset == g.hset).length < 8) :
    ∃ s' h, laneIssue .regang regangBody s = .next s' ∧ Transferred s s' t g (fun _ => r.next) [] ∧
      (s'.wg t).gang? g.id = some h ∧ h.regang = true ∧ (s'.wg t).windows =
        if (s.wg t).windows.any fun x => x.hset == g.hset && x.pc == (envOf s t g r).fpc then (s.wg t).windows
        else (s.wg t).windows ++ [{ hset := g.hset, pc := (envOf s t g r).fpc, left := (s.wg t).rgwin.toNat }] := by
  have hno : ¬ (((s.wg t).windows.any fun x => x.hset == g.hset && x.pc == (envOf s t g r).fpc) = false ∧
      ((s.wg t).windows.filter fun x => x.hset == g.hset).length ≥ 8) := by
    rintro ⟨h1, h2⟩
    rcases hroom with h3 | h3
    · rw [h3] at h1
      exact nomatch h1
    · omega
  have hbody : regangBody (opEnv s t g r es) = .gone ((taken s).setWg t ((s.wg t).regangs g r (envOf s t g r).fpc)) :=
    (if_neg hno).trans rfl
  have hissue := laneIssue_gone h rfl hbody
  obtain ⟨hid, hset, hmask, -⟩ := g.afterHeader_same r (s.wg t).yhold.toNat
  have hw := Workgroup.regangs_rest (s.wg t) g r (envOf s t g r).fpc
  have hwg : (((taken s).setWg t ((s.wg t).regangs g r (envOf s t g r).fpc)).wg t) = _ := (State.wg_setWg_self ..).trans hw
  have hoth : ∀ u, u ≠ t → ((taken s).setWg t ((s.wg t).regangs g r (envOf s t g r).fpc)).wg u = s.wg u :=
    fun u hu => State.wg_setWg_ne _ _ hu
  have hrest : (taken s).setWg t ((s.wg t).regangs g r (envOf s t g r).fpc) =
      { taken s with wgs := ((taken s).setWg t ((s.wg t).regangs g r (envOf s t g r).fpc)).wgs } := rfl
  generalize (taken s).setWg t ((s.wg t).regangs g r (envOf s t g r).fpc) = s1 at *
  obtain ⟨h1, h2, h3⟩ := (SameRegs.of_eq (w := s.wg t) (w' := s1.wg t) (by rw [hwg]) (by rw [hwg])).stand []
  refine ⟨_, g.waitsAt r (s.wg t).yhold.toNat, hissue,
    ⟨fun l hl => ⟨g.waitsAt r (s.wg t).yhold.toNat, ?_, hset, ?_, rfl, rfl, rfl⟩, ⟨?_, hoth⟩, ⟨h1, h2, h3⟩, fun u a => ?_⟩, ?_, rfl, ?_⟩
  · rw [State.wg_spent, hwg]
    exact Workgroup.mem_updGang h.gang fun x => x.waitsAt r (s.wg t).yhold.toNat
  · exact (congrArg (fun m => m.getLsbD (posOf l)) hmask).trans (mem_lanesOf.1 hl).2
  · rw [hrest]
    rfl
  · rw [State.wg_spent]
    by_cases hu : u = t
    · rw [hu, hwg]
    · rw [hoth u hu]
  · rw [State.wg_spent, hwg]
    refine (Workgroup.gang_updGang_self (s.wg t) g.id (fun x => x.waitsAt r (s.wg t).yhold.toNat) fun x => ?_).trans ?_
    · exact (x.afterHeader_same r (s.wg t).yhold.toNat).1
    · rw [h.gang]
      rfl
  · rw [State.wg_spent, hwg]

/-- A REGANG whose home set has eight windows open elsewhere passes. -/
theorem regang_passes (h : Ready s t g r .regang es) (hn : r.next % 4096 ≠ 0) (hm : g.mask ≠ 0)
    (hmine : ((s.wg t).windows.any fun x => x.hset == g.hset && x.pc == (envOf s t g r).fpc) = false)
    (hfull : ((s.wg t).windows.filter fun x => x.hset == g.hset).length ≥ 8) :
    ∃ s' h, laneIssue .regang regangBody s = .next s' ∧ Transferred s s' t g (fun _ => r.next) [] ∧
      (s'.wg t).gang? g.id = some h ∧ h.regang = g.regang ∧ (s'.wg t).windows = (s.wg t).windows := by
  have hbody : regangBody (opEnv s t g r es) = .gone ((taken s).transfer t g.id r []) := (if_pos ⟨hmine, hfull⟩).trans rfl
  have hissue := laneIssue_gone h rfl hbody
  have hg : ((taken s).wg t).gang? g.id = some g := h.gang
  obtain ⟨hspread, hmoved⟩ := State.transfer_spread hg hn []
  obtain ⟨hgang, -⟩ := State.transfer_nil hg hn hm
  obtain ⟨honly, hregs, hwins⟩ := hmoved.kept (s := s) rfl (fun _ _ => rfl) rfl (.refl _)
  generalize (taken s).transfer t g.id r [] = s2 at *
  refine ⟨_, _, hissue, ⟨hspread, ⟨?_, honly.others⟩, ⟨hregs.regs, hregs.flags, hregs.uniform⟩, hwins⟩, hgang, ?_, ?_⟩
  · rw [honly.rest]
    rfl
  · exact ((g.afterHeader r _).afterHeader_same r _).2.2.2.trans (g.afterHeader_same r _).2.2.2
  · rw [State.wg_spent, hmoved.wg]
    rfl

/-- A gang that yields does so once. -/
theorem Gang.hold_yielded_afterHeader (g : Gang) (r : ClauseRun) (n : Nat) :
    (((g.yielded n).afterHeader r n).afterHeader r n).hold = yieldHold n ∧
      ∀ a ∈ (((g.yielded n).afterHeader r n).afterHeader r n).ages, a = 0 := by
  unfold Gang.afterHeader
  split <;> simp [Gang.yielded]

theorem yield_yields (h : Ready s t g r .yield es) (hn : r.next % 4096 ≠ 0) (hm : g.mask ≠ 0) :
    ∃ s' h, laneIssue .yield yieldBody s = .next s' ∧ Transferred s s' t g (fun _ => r.next) [] ∧
      (s'.wg t).gang? g.id = some h ∧ (∀ a ∈ h.ages, a = 0) ∧ h.hold = if (s.wg t).yhold = 0 then 0 else (s.wg t).yhold.toNat + 2 := by
  have hbody : yieldBody (opEnv s t g r es) = .jump ((taken s).updGang t g.id fun g => g.yielded (s.wg t).yhold.toNat) [] := rfl
  have hwg : ((taken s).updGang t g.id fun g => g.yielded (s.wg t).yhold.toNat).wg t =
      (s.wg t).updGang g.id fun g => g.yielded (s.wg t).yhold.toNat := State.wg_updWg_self ..
  obtain ⟨s', hs, htrans, -, hgang⟩ := laneIssue_endsClause h hn rfl hbody rfl (fun u hu => State.wg_updWg_ne _ _ hu)
    (g1 := g.yielded (s.wg t).yhold.toNat) (by
      rw [hwg]
      refine (Workgroup.gang_updGang_self (s.wg t) g.id (fun g => g.yielded (s.wg t).yhold.toNat) fun _ => rfl).trans ?_
      rw [h.gang]
      rfl) rfl rfl rfl (by rw [hwg]; rfl) (by rw [hwg]; exact .of_eq rfl rfl)
  rw [hwg] at hgang
  obtain ⟨hhold, hages⟩ := g.hold_yielded_afterHeader r (s.wg t).yhold.toNat
  refine ⟨s', _, hs, htrans, hgang hm, hages, hhold.trans ?_⟩
  unfold yieldHold
  by_cases hy : (s.wg t).yhold = 0
  · rw [hy]
    rfl
  · have hz : (s.wg t).yhold.toNat ≠ 0 := fun h0 => hy (BitVec.eq_of_toNat_eq h0)
    rw [if_neg hy, if_neg hz]

end

/-- Settles O38: what each of LEAVE, EXIT, REGANG and YIELD leaves of gangs and lanes. -/
theorem lanesLeaveAndGangsMove : Obligations.LanesLeaveAndGangsMove := by
  unfold Obligations.LanesLeaveAndGangsMove
  intro s t g r es w ls hn ht
  refine ⟨fun h hc hgate => leave_leaves h hn ht hc hgate, fun h hc => ?_, fun h hgate hj => exit_leaves h hn ht hgate hj,
    fun h hm => ?_, fun h hm => yield_yields h hn hm⟩
  · refine laneIssue_trapped h rfl ?_
    have hne : (opEnv s t g r es).crewless ≠ [] := fun hnil => hc fun l hl hnone =>
      List.filter_eq_nil_iff.1 hnil l hl (Option.isNone_iff_eq_none.2 hnone)
    obtain ⟨a, rest, hcons⟩ := List.exists_cons_of_ne_nil hne
    unfold leaveBody
    simp only [hcons]
    rw [← hcons]
    rfl
  · intro p mine
    by_cases hroom : mine = true ∨ (w.windows.filter fun x => x.hset == g.hset).length < 8
    · simp only [if_pos hroom]
      exact regang_waits h hroom
    · simp only [if_neg hroom]
      obtain ⟨h1, h2⟩ := not_or.1 hroom
      exact regang_passes h hn hm (Bool.eq_false_iff.2 h1) (not_lt.1 h2)

end Sys2Proof.Machine
end

section
/-! SUPPORT. Bodies made of steps on their workgroup, and the stream instructions (spec/08 R188-R192): what each move leaves, and the
statement about them. -/

namespace Sys2Proof.Machine

open Sys2Proof Sys2Proof.Safety

-- One proof at a time: side by side they need more threads than a check's memory holds.
set_option Elab.async false

/-! ### Steps of a body -/

/-- A step of a body on its workgroup keeps gangs and window, and registers other than the destinations `ds`. -/
structure Steps (w w' : Workgroup) (ds : List (Sel × Nat)) : Prop where
  gangs : w'.gangs = w.gangs
  win : w'.win = w.win
  regs : RegsStand w w' ds

theorem Steps.trans {a b c : Workgroup} {ds : List (Sel × Nat)} (h : Steps a b ds) (k : Steps b c ds) : Steps a c ds :=
  ⟨k.gangs.trans h.gangs, k.win.trans h.win, h.regs.trans k.regs⟩

theorem Steps.of_same {w w' : Workgroup} (hg : w'.gangs = w.gangs) (hw : w'.win = w.win) (h : SameRegs w w') (ds : List (Sel × Nat)) :
    Steps w w' ds := ⟨hg, hw, h.stand ds⟩

theorem Steps.closeRegion (w : Workgroup) (ls : List Nat) (ds : List (Sel × Nat)) : Steps w (w.closeRegion ls) ds :=
  .of_same (by rw [Workgroup.closeRegion_rest]) (by rw [Workgroup.closeRegion_rest]) (.closeRegion w ls) ds

theorem Steps.endInterval (w : Workgroup) (ls : List Nat) (ds : List (Sel × Nat)) : Steps w (w.endInterval ls) ds :=
  .of_same (by rw [Workgroup.endInterval_rest]) (by rw [Workgroup.endInterval_rest]) (.endInterval w ls) ds

theorem Steps.updCrew (w : Workgroup) (c : Nat) {f : Crew → Crew} (hf : ∀ x, (f x).s = x.s) (ds : List (Sel × Nat)) :
    Steps w (w.updCrew c f) ds := ⟨rfl, rfl, (SameRegs.updCrew w c hf).stand ds⟩

theorem Steps.writeSel (w : Workgroup) (free : Nat) (d : Sel) {k : Nat} {vals : List (Nat × List Word)}
    (hk : ∀ p ∈ vals, p.2.length = k) : Steps w (w.writeSel free d vals) [(d, k)] := by
  have ht := Touch.writeSel (ls := vals.map (·.1)) (k := k) w free d vals fun p hp => ⟨List.mem_map_of_mem hp, hk p hp⟩
  exact ⟨ht.gangs, by rw [ht.rest], .writeSel w free d hk⟩

theorem BodyMoved.start (s : State) (t : Nat) (ds : List (Sel × Nat)) : BodyMoved s (taken s) t ds :=
  ⟨rfl, fun _ _ => rfl, rfl, rfl, (SameRegs.refl _).stand ds⟩

theorem BodyMoved.step {s s1 : State} {t : Nat} {ds : List (Sel × Nat)} (h : BodyMoved s s1 t ds) {f : Workgroup → Workgroup}
    (hf : Steps (s1.wg t) (f (s1.wg t)) ds) : BodyMoved s (s1.updWg t f) t ds where
  rest := by
    rw [h.rest]
    rfl
  others u hu := (State.wg_updWg_ne _ _ hu).trans (h.others u hu)
  gangs := by rw [State.wg_updWg_self, hf.gangs, h.gangs]
  win := by rw [State.wg_updWg_self, hf.win, h.win]
  regs := by
    rw [State.wg_updWg_self]
    exact h.regs.trans hf.regs

/-- An acquire drops the carve-out's copies, or nothing. -/
theorem State.acquired_updWg (s : State) (t : Nat) (ord : Order) (scope : Scope) :
    s.acquired t ord scope = s ∨ s.acquired t ord scope = s.updWg t fun w => { w with l1 := [] } := by
  unfold State.acquired
  split
  · exact .inr rfl
  · exact .inl rfl

theorem State.wg_acquired (s : State) (t : Nat) (ord : Order) (scope : Scope) :
    (s.acquired t ord scope).wg t = { s.wg t with l1 := ((s.acquired t ord scope).wg t).l1 } := by
  rcases s.acquired_updWg t ord scope with h | h
  · rw [h]
  · rw [h, State.wg_updWg_self]

theorem BodyMoved.acquired {s s1 : State} {t : Nat} {ds : List (Sel × Nat)} (h : BodyMoved s s1 t ds) (ord : Order) (scope : Scope) :
    BodyMoved s (s1.acquired t ord scope) t ds := by
  rcases s1.acquired_updWg t ord scope with hs | hs
  · rw [hs]
    exact h
  · rw [hs]
    refine h.step ⟨rfl, rfl, SameRegs.stand ?_ ds⟩
    exact .of_eq rfl rfl

/-! ### Moves of a slot -/

section
variable {s : State} {t : Nat} {g : Gang} {r : ClauseRun} {i : Instr} {es : List ApprEntry}

theorem BodyMoved.updStream {s1 : State} {ds : List (Sel × Nat)} (h : BodyMoved s s1 t ds) (c n : Nat) (f : Stream → Stream) :
    BodyMoved s (s1.updStream t c n f) t ds := by
  refine h.step (.updCrew _ c ?_ ds)
  exact fun _ => rfl

/-- The stream registers of a workgroup's crews. -/
def Workgroup.stream (w : Workgroup) (c n : Nat) : Stream := (w.crew c).streams.get n

theorem State.stream_eq (s : State) (t c n : Nat) : s.stream t c n = (s.wg t).stream c n := rfl

/-- A stream register that has changed, and all others. -/
theorem State.stream_updStream (s : State) (t c n : Nat) (f : Stream → Stream) (k m : Nat) :
    ((s.updStream t c n f).wg t).stream k m = if k = c ∧ m = n then f (s.stream t c n) else s.stream t k m := by
  unfold State.updStream
  rw [State.wg_updWg_self]
  unfold Workgroup.stream State.stream
  rw [Workgroup.crew_updCrew]
  by_cases hk : k = c
  · subst hk
    by_cases hm : m = n
    · subst hm
      simp
    · rw [if_pos rfl, if_neg fun h => hm h.2]
      exact SMap.get_upd_ne _ _ hm
  · rw [if_neg hk, if_neg fun h => hk h.1]

/-- What a change of the crews' other parts leaves of streams. -/
theorem Workgroup.stream_congr {w w' : Workgroup} (h : ∀ c, (w'.crew c).streams = (w.crew c).streams) (k m : Nat) :
    w'.stream k m = w.stream k m := by
  unfold Workgroup.stream
  rw [h]

theorem Workgroup.streams_closeRegion (w : Workgroup) (ls : List Nat) (c : Nat) :
    ((w.closeRegion ls).crew c).streams = (w.crew c).streams := by rw [Workgroup.crew_closeRegion]

theorem Workgroup.streams_endInterval (w : Workgroup) (ls : List Nat) (c : Nat) :
    ((w.endInterval ls).crew c).streams = (w.crew c).streams := by rw [Workgroup.crew_endInterval]

theorem Workgroup.streams_writeSel (w : Workgroup) (free : Nat) (d : Sel) {k : Nat} {vals : List (Nat × List Word)}
    (hk : ∀ p ∈ vals, p.2.length = k) (c : Nat) : ((w.writeSel free d vals).crew c).streams = (w.crew c).streams := by
  have ht := Touch.writeSel (ls := vals.map (·.1)) (k := k) w free d vals fun p hp => ⟨List.mem_map_of_mem hp, hk p hp⟩
  rw [ht.crew]

theorem Closed.streams {w w' : Workgroup} (h : Closed w w') (c : Nat) : (w'.crew c).streams = (w.crew c).streams := by
  rw [h.crew]

/-- A word to every lane of E. -/
theorem State.putAll_eq {s1 : State} (hfree : s1.free = s.free) (d : Sel) (x : Nat) : s1.putAll (opEnv s t g r es) d x =
    s1.updWg t fun w => w.writeSel s.free d ((execLanes g r).map fun l => (l, splitWords 1 (BitVec.ofNat 64 (x % 2 ^ 32)))) := by
  have hx : splitWords 1 (BitVec.ofNat 64 (x % 2 ^ 32)) = [BitVec.ofNat 32 x] := by
    refine congrArg (fun v => [v]) (BitVec.eq_of_toNat_eq ?_)
    rw [BitVec.toNat_setWidth, BitVec.toNat_ofNat, BitVec.toNat_ofNat]
    omega
  unfold State.putAll
  rw [hfree]
  simp only [hx]
  rfl

theorem lengths_of_words (ls : List Nat) (x : Dword) : ∀ p ∈ ls.map fun l => (l, splitWords 1 x), p.2.length = 1 := fun p hp => by
  obtain ⟨l, -, rfl⟩ := List.mem_map.1 hp
  exact splitWords_length (.inl rfl) _

/-- What remains of a stream instruction once its slot has moved: the lanes' intervals end where it synchronises, and their regions
close. -/
theorem stream_closes (h : Ready s t g r i es) {body : Env → Res} {s1 s2 : State} {c n : Nat} {f : Stream → Stream}
    {ds : List (Sel × Nat)} (hb : body (opEnv s t g r es) = .ok s2 []) (hm : BodyMoved s s2 t ds)
    (hstreams : ∀ k m, (s2.wg t).stream k m = ((s1.updStream t c n f).wg t).stream k m) (hs1 : s1 = taken s) :
    ∃ s', laneIssue i body s = .next s' ∧ Acted s s' t g r i ds ∧ (∀ k m, (k ≠ c ∨ m ≠ n) → s'.stream t k m = s.stream t k m) ∧
      s'.stream t c n = f (s.stream t c n) ∧ Closed (s2.wg t) (s'.wg t) := by
  subst hs1
  obtain ⟨s', hs, hact, hcl⟩ := laneIssue_moved h hb hm
  have key : ∀ k m, s'.stream t k m = if k = c ∧ m = n then f (s.stream t c n) else s.stream t k m := fun k m => by
    rw [State.stream_eq, Workgroup.stream_congr hcl.streams, hstreams, State.stream_updStream]
    rfl
  refine ⟨s', hs, hact, fun k m hkm => ?_, ?_, hcl⟩
  · rw [key, if_neg (by tauto)]
  · rw [key, if_pos ⟨rfl, rfl⟩]

/-- The end of the intervals of the lanes of E, seen behind the close of the instruction. -/
theorem Closed.intervals {w x w' : Workgroup} {ls : List Nat} (h : Closed ((x.endInterval ls).closeRegion ls) w') (hn : ls.Nodup)
    (hx : ∀ l, (x.lane l).interval = (w.lane l).interval) : ∀ l ∈ ls, (w'.lane l).interval = (w.lane l).interval + 1 := fun l hl => by
  rw [h.lane]
  change (((x.endInterval ls).closeRegion ls).lane l).interval = _
  rw [Workgroup.lane_closeRegion, if_pos hl]
  change ((x.endInterval ls).lane l).interval = _
  rw [Workgroup.lane_endInterval x hn, if_pos hl, ← hx]

theorem Workgroup.interval_writeSel (w : Workgroup) (free : Nat) (d : Sel) {k : Nat} {vals : List (Nat × List Word)}
    (hk : ∀ p ∈ vals, p.2.length = k) (l : Nat) : ((w.writeSel free d vals).lane l).interval = (w.lane l).interval := by
  have ht := Touch.writeSel (ls := vals.map (·.1)) (k := k) w free d vals fun p hp => ⟨List.mem_map_of_mem hp, hk p hp⟩
  rw [ht.lane]

theorem SettledIn.updStream (s1 : State) (t c n : Nat) (f : Stream → Stream) : SettledIn (s1.wg t) ((s1.updStream t c n f).wg t) := by
  unfold State.updStream
  rw [State.wg_updWg_self]
  exact .updCrew _ c (fun _ j hj => ⟨j, hj, rfl⟩) rfl

/-- The address of a slot, which all lanes of E hold after their slot has moved. -/
theorem holds_slot {c n x : Nat} {f : Stream → Stream} {d : Sel} {w2 w' : Workgroup}
    (hw2 : SameRegs ((((taken s).updStream t c n f).wg t).writeSel s.free d
      ((execLanes g r).map fun l => (l, splitWords 1 (BitVec.ofNat 64 (x % 2 ^ 32))))) w2) (hcl : Closed w2 w') :
    Holds (s.wg t) w' (execLanes g r) (some (d, 1)) (fun _ => BitVec.ofNat 64 (x % 2 ^ 32)) := by
  have hhold := Workgroup.writeSel_holds (((taken s).updStream t c n f).wg t) s.free d 1 (.inl rfl) (execLanes g r) (lanesOf_nodup ..)
    fun _ => BitVec.ofNat 64 (x % 2 ^ 32)
  refine Holds.of_settledIn hhold (.updStream (taken s) t c n f) (fun l => ?_) (fun l n => ?_) fun m => ?_
  · unfold State.updStream
    rw [State.wg_updWg_self]
    rfl
  · rw [hcl.reg, hw2.reg]
  · rw [hcl.crew]
    exact hw2.crew m

variable {c n j : Nat} {rest : List Nat} {d a : Sel}

/-- QRD of a slot that is full, with nothing to wait for. -/
theorem qrd_takes (h : Ready s t g r (.qrd n d) es) (hc : InCrew s t g r c) (hbound : (s.stream t c n).bound = true)
    (hfull : (s.stream t c n).canTake = j :: rest)
    (hset : (opEnv s t g r es).settled .acquire (s.stream t c n).scope false .nop = .ok (taken s)) :
    ∃ s', laneIssue (.qrd n d) (qrdBody n d) s = .next s' ∧
        Acted s s' t g r (.qrd n d) [(d, 1)] ∧ (∀ k m, (k ≠ c ∨ m ≠ n) → s'.stream t k m = s.stream t k m) ∧ IntervalsEnded s s' t g r ∧
        Holds (s.wg t) (s'.wg t) (execLanes g r) (some (d, 1)) (fun _ => BitVec.ofNat 64 ((s.stream t c n).addr j % 2 ^ 32)) ∧
        s'.stream t c n = (s.stream t c n).take j := by
  set q := s.stream t c n with hq
  have hbody : qrdBody n d (opEnv s t g r es) = .ok ((((((taken s).updStream t c n fun x => x.take j).putAll (opEnv s t g r es) d
      (q.addr j)).acquired t .acquire q.scope).endE (opEnv s t g r es)).closeE (opEnv s t g r es)) [] := by
    refine (crewBody_inCrew hc es _).trans ?_
    have hstream : (opEnv s t g r es).s.stream (opEnv s t g r es).t c n = q := rfl
    dsimp only
    rw [hstream, hbound, if_neg (by decide), hfull]
    dsimp only
    rw [hset]
    rfl
  have hlen := lengths_of_words (execLanes g r) (BitVec.ofNat 64 (q.addr j % 2 ^ 32))
  have hput := State.putAll_eq (s := s) (g := g) (r := r) (t := t) (es := es) (s1 := (taken s).updStream t c n fun x => x.take j) rfl d (q.addr j)
  rw [hput] at hbody
  set s1 := ((taken s).updStream t c n fun x => x.take j).updWg t fun w => w.writeSel s.free d
    ((execLanes g r).map fun l => (l, splitWords 1 (BitVec.ofNat 64 (q.addr j % 2 ^ 32)))) with hs1
  have hwg1 : s1.wg t = _ := State.wg_updWg_self ..
  have hacq := State.wg_acquired s1 t .acquire q.scope
  have hm1 : BodyMoved s s1 t [(d, 1)] := (BodyMoved.updStream (.start s t _) c n _).step (.writeSel _ s.free d hlen)
  have hm2 := hm1.acquired .acquire q.scope
  generalize s1.acquired t .acquire q.scope = s2 at hacq hm2 hbody
  have hm3 : BodyMoved s ((s2.endE (opEnv s t g r es)).closeE (opEnv s t g r es)) t [(d, 1)] :=
    (hm2.step (.endInterval _ (execLanes g r) _)).step (.closeRegion _ (execLanes g r) _)
  have hwg3 : ((s2.endE (opEnv s t g r es)).closeE (opEnv s t g r es)).wg t =
      ((s2.wg t).endInterval (execLanes g r)).closeRegion (execLanes g r) :=
    (State.wg_updWg_self ..).trans (congrArg (fun w : Workgroup => w.closeRegion (execLanes g r)) (State.wg_updWg_self ..))
  obtain ⟨s', hs, hact, hothers, hmoved, hcl⟩ := stream_closes (f := fun x => x.take j) h hbody hm3 (fun k m => by
    rw [hwg3, Workgroup.stream_congr fun _ => Workgroup.streams_closeRegion .., Workgroup.stream_congr fun _ => Workgroup.streams_endInterval ..,
      hacq]
    change (s1.wg t).stream k m = _
    rw [hwg1]
    exact Workgroup.stream_congr (fun _ => Workgroup.streams_writeSel _ _ _ hlen _) k m) rfl
  rw [hwg3] at hcl
  refine ⟨s', hs, hact, hothers, hcl.intervals (lanesOf_nodup ..) fun l => ?_, holds_slot (c := c) (n := n) (f := fun x => x.take j) ?_ hcl, hmoved⟩
  · rw [hacq]
    change ((s1.wg t).lane l).interval = _
    rw [hwg1]
    refine (Workgroup.interval_writeSel _ _ _ hlen l).trans ?_
    unfold State.updStream
    rw [State.wg_updWg_self]
    rfl
  · refine SameRegs.trans ?_ ((SameRegs.endInterval ..).trans (.closeRegion ..))
    rw [hacq, ← hwg1]
    exact .of_eq rfl rfl

/-- A claim of a slot that is free. -/
theorem claim_claims (h : Ready s t g r (.qpushClaim n d) es) (hc : InCrew s t g r c) (hbound : (s.stream t c n).bound = true)
    (hfree : (s.stream t c n).canClaim = j :: rest) :
    ∃ s', laneIssue (.qpushClaim n d) (claimBody n d) s = .next s' ∧
        Acted s s' t g r (.qpushClaim n d) [(d, 1)] ∧ (∀ k m, (k ≠ c ∨ m ≠ n) → s'.stream t k m = s.stream t k m) ∧
        Holds (s.wg t) (s'.wg t) (execLanes g r) (some (d, 1)) (fun _ => BitVec.ofNat 64 ((s.stream t c n).addr j % 2 ^ 32)) ∧
        s'.stream t c n = (s.stream t c n).claim j := by
  set q := s.stream t c n with hq
  have hbody : claimBody n d (opEnv s t g r es) = .ok ((((taken s).updStream t c n fun x => x.claim j).putAll (opEnv s t g r es) d
      (q.addr j)).closeE (opEnv s t g r es)) [] := by
    refine (crewBody_inCrew hc es _).trans ?_
    have hstream : (opEnv s t g r es).s.stream (opEnv s t g r es).t c n = q := rfl
    dsimp only
    rw [hstream, hbound, if_neg (by decide), hfree]
    rfl
  have hlen := lengths_of_words (execLanes g r) (BitVec.ofNat 64 (q.addr j % 2 ^ 32))
  have hput := State.putAll_eq (s := s) (g := g) (r := r) (t := t) (es := es) (s1 := (taken s).updStream t c n fun x => x.claim j) rfl d (q.addr j)
  rw [hput] at hbody
  set s1 := ((taken s).updStream t c n fun x => x.claim j).updWg t fun w => w.writeSel s.free d
    ((execLanes g r).map fun l => (l, splitWords 1 (BitVec.ofNat 64 (q.addr j % 2 ^ 32)))) with hs1
  have hwg1 : s1.wg t = _ := State.wg_updWg_self ..
  have hm1 : BodyMoved s s1 t [(d, 1)] := (BodyMoved.updStream (.start s t _) c n _).step (.writeSel _ s.free d hlen)
  have hm2 : BodyMoved s (s1.closeE (opEnv s t g r es)) t [(d, 1)] := hm1.step (.closeRegion _ (execLanes g r) _)
  have hwg2 : (s1.closeE (opEnv s t g r es)).wg t = (s1.wg t).closeRegion (execLanes g r) := State.wg_updWg_self ..
  obtain ⟨s', hs, hact, hothers, hmoved, hcl⟩ := stream_closes (f := fun x => x.claim j) h hbody hm2 (fun k m => by
    rw [hwg2, Workgroup.stream_congr fun _ => Workgroup.streams_closeRegion .., hwg1]
    exact Workgroup.stream_congr (fun _ => Workgroup.streams_writeSel _ _ _ hlen _) k m) rfl
  rw [hwg2] at hcl
  refine ⟨s', hs, hact, hothers, holds_slot (c := c) (n := n) (f := fun x => x.claim j) ?_ hcl, hmoved⟩
  rw [← hwg1]
  exact .closeRegion ..

/-- An instruction that moves a slot and ends its lanes' intervals, and writes no register. -/
theorem slot_moves (h : Ready s t g r i es) {body : Env → Res} {f : Stream → Stream}
    (hb : body (opEnv s t g r es) =
      .ok ((((taken s).updStream t c n f).endE (opEnv s t g r es)).closeE (opEnv s t g r es)) []) :
    ∃ s', laneIssue i body s = .next s' ∧ Acted s s' t g r i [] ∧ (∀ k m, (k ≠ c ∨ m ≠ n) → s'.stream t k m = s.stream t k m) ∧
      IntervalsEnded s s' t g r ∧ s'.stream t c n = f (s.stream t c n) := by
  have hm : BodyMoved s ((((taken s).updStream t c n f).endE (opEnv s t g r es)).closeE (opEnv s t g r es)) t [] :=
    ((BodyMoved.updStream (.start s t _) c n f).step (.endInterval _ (execLanes g r) _)).step (.closeRegion _ (execLanes g r) _)
  have hwg : ((((taken s).updStream t c n f).endE (opEnv s t g r es)).closeE (opEnv s t g r es)).wg t =
      ((((taken s).updStream t c n f).wg t).endInterval (execLanes g r)).closeRegion (execLanes g r) :=
    (State.wg_updWg_self ..).trans (congrArg (fun w : Workgroup => w.closeRegion (execLanes g r)) (State.wg_updWg_self ..))
  obtain ⟨s', hs, hact, hothers, hmoved, hcl⟩ := stream_closes h hb hm (fun k m => by
    rw [hwg, Workgroup.stream_congr fun _ => Workgroup.streams_closeRegion .., Workgroup.stream_congr fun _ => Workgroup.streams_endInterval ..])
    rfl
  rw [hwg] at hcl
  refine ⟨s', hs, hact, hothers, hcl.intervals (lanesOf_nodup ..) fun l => ?_, hmoved⟩
  unfold State.updStream
  rw [State.wg_updWg_self]
  rfl

/-- A commit of a claimed slot, with nothing to wait for. -/
theorem commitBody_inCrew (hc : InCrew s t g r c) (hfind : (s.stream t c n).canCommit.find? (fun i => (s.stream t c n).addr i % 2 ^ 25 ==
      operand s t g r es [.int .u32 a] ((execLanes g r).headD 0) 0 % 2 ^ 25) = some j)
    (hset : (opEnv s t g r es).settled .release (s.stream t c n).scope false .nop = .ok (taken s)) :
    commitBody n a (opEnv s t g r es) =
      .ok ((((taken s).updStream t c n fun x => x.commit j).endE (opEnv s t g r es)).closeE (opEnv s t g r es)) [] := by
  refine (crewBody_inCrew hc es _).trans ?_
  have hstream : (opEnv s t g r es).s.stream (opEnv s t g r es).t c n = s.stream t c n := rfl
  dsimp only
  rw [hstream, int32_toNat_operand]
  unfold Stream.find
  rw [hfind]
  dsimp only
  rw [hset]
  rfl

/-- QFREE of a taken slot. -/
theorem qfreeBody_inCrew (hc : InCrew s t g r c) (hfind : (s.stream t c n).canGive.find? (fun i => (s.stream t c n).addr i % 2 ^ 25 ==
      operand s t g r es [.int .u32 a] ((execLanes g r).headD 0) 0 % 2 ^ 25) = some j) :
    qfreeBody n a (opEnv s t g r es) =
      .ok ((((taken s).updStream t c n fun x => x.give j).endE (opEnv s t g r es)).closeE (opEnv s t g r es)) [] := by
  refine (crewBody_inCrew hc es _).trans ?_
  have hstream : (opEnv s t g r es).s.stream (opEnv s t g r es).t c n = s.stream t c n := rfl
  dsimp only
  rw [hstream, int32_toNat_operand]
  unfold Stream.find
  rw [hfind]
  rfl

/-- The slots of a stream after a cycle that binds no ring to it. -/
theorem Stream.mem_cycleEnd (q : Stream) (hr : q.newRing = none) (i : Nat) :
    (i ∈ q.cycleEnd.free ↔ i ∈ q.free ∧ i ∉ q.newClaimed ∨ i ∈ q.newFree) ∧
      (i ∈ q.cycleEnd.claimed ↔ (i ∈ q.claimed ∨ i ∈ q.newClaimed) ∧ i ∉ q.newFull) ∧
      (i ∈ q.cycleEnd.full ↔ i ∈ q.full ∧ i ∉ q.newTaken ∨ i ∈ q.newFull) ∧
      (i ∈ q.cycleEnd.taken ↔ (i ∈ q.taken ∨ i ∈ q.newTaken) ∧ i ∉ q.newFree) ∧ q.cycleEnd.ring = q.ring := by
  unfold Stream.cycleEnd
  rw [hr]
  simp [or_and_right]

/-- A ring that is bound in a cycle stands afresh at its end. -/
theorem Stream.fresh_cycleEnd (q : Stream) (ring : Ring) :
    let x := { q with newRing := some ring }
    (∀ i, i ∈ x.cycleEnd.free ↔ i < ring.nslot) ∧ x.cycleEnd.full = [] ∧ x.cycleEnd.claimed = [] ∧ x.cycleEnd.taken = [] ∧
      x.cycleEnd.ring = ring := by
  refine ⟨fun i => ?_, rfl, rfl, rfl, rfl⟩
  exact List.mem_range

/-- QINIT of a ring that its checks admit. -/
theorem qinit_binds {b : Sel} {ring : Ring} (h : Ready s t g r (.qinit n a b) es)
    (hb : qinitBody n a b (opEnv s t g r es) = .ok (({ taken s with nextRing := s.nextRing + 1 }.updStream t c n fun x =>
      { x with newRing := some ring }).closeE (opEnv s t g r es)) []) :
    ∃ s', laneIssue (.qinit n a b) (qinitBody n a b) s = .next s' ∧ Acted s s' t g r (.qinit n a b) [] ∧
      (∀ k m, (k ≠ c ∨ m ≠ n) → s'.stream t k m = s.stream t k m) ∧ s'.stream t c n = { s.stream t c n with newRing := some ring } := by
  have hstart : BodyMoved s { taken s with nextRing := s.nextRing + 1 } t [] :=
    ⟨rfl, fun _ _ => rfl, rfl, rfl, (SameRegs.refl _).stand []⟩
  have hm := (hstart.updStream c n fun x => { x with newRing := some ring }).step
    (f := fun w => w.closeRegion (execLanes g r)) (.closeRegion _ (execLanes g r) _)
  have hwg : ((({ taken s with nextRing := s.nextRing + 1 } : State).updStream t c n fun x =>
      { x with newRing := some ring }).closeE (opEnv s t g r es)).wg t = _ := State.wg_updWg_self ..
  obtain ⟨s', hs, hact, hcl⟩ := laneIssue_moved h hb hm
  have key : ∀ k m, s'.stream t k m = if k = c ∧ m = n then { s.stream t c n with newRing := some ring } else s.stream t k m :=
    fun k m => by
      rw [State.stream_eq, Workgroup.stream_congr hcl.streams]
      refine Eq.trans (congrArg (fun w : Workgroup => w.stream k m) hwg) ?_
      exact (Workgroup.stream_congr (fun _ => Workgroup.streams_closeRegion ..) k m).trans
        (State.stream_updStream { taken s with nextRing := s.nextRing + 1 } t c n (fun x => { x with newRing := some ring }) k m)
  exact ⟨s', hs, hact, fun k m hkm => by rw [key, if_neg (by tauto)], by rw [key, if_pos ⟨rfl, rfl⟩]⟩

/-- QINIT's checks, and the ring it binds. -/
theorem qinitBody_inCrew {b : Sel} (hc : InCrew s t g r c)
    (x : Nat → Nat) (hx : ∀ j, operand s t g r es [.int .u32 a, .int .u32 b] ((execLanes g r).headD 0) j = x j)
    (hal : x 0 % 64 = 0) (hlo : 1 ≤ x 1 % 128) (hhi : x 1 % 128 ≤ 64) (hsize : x 1 / 256 % 4096 ≠ 0)
    (hspad : s.spadAt t ((execLanes g r).headD 0) ((x 0).testBit 24) (x 0 % 2 ^ 24) (x 1 % 128 * (x 1 / 256 % 4096) * 64) ≠ none)
    (hcl : (s.stream t c n).claimed = []) (htk : (s.stream t c n).taken = []) :
    qinitBody n a b (opEnv s t g r es) = .ok (({ taken s with nextRing := s.nextRing + 1 }.updStream t c n fun y => { y with
      newRing := some { base := x 0 % 2 ^ 24, cluster := (x 0).testBit 24, nslot := x 1 % 128, slotsz := x 1 / 256 % 4096
                        num := s.nextRing + 1 } }).closeE (opEnv s t g r es)) [] := by
  refine (crewBody_inCrew hc es _).trans ?_
  have h0 : (((opEnv s t g r es).opds ((execLanes g r).headD 0) [.int .u32 a, .int .u32 b] 0 0).getD 0 0).toNat = x 0 := hx 0
  have h1 : (((opEnv s t g r es).opds ((execLanes g r).headD 0) [.int .u32 a, .int .u32 b] 0 0).getD 1 0).toNat = x 1 := hx 1
  have hb1 : bits (x 0) 0 6 = x 0 % 64 := by simp [bits]
  have hb2 : bits (x 1) 0 7 = x 1 % 128 := by simp [bits]
  have hb3 : bits (x 1) 8 12 = x 1 / 256 % 4096 := by simp [bits]
  have hb4 : bits (x 0) 0 24 = x 0 % 2 ^ 24 := by simp [bits]
  have hb5 : bitAt (x 0) 24 = (x 0).testBit 24 := Nat.testBit_eq_decide_div_mod_eq.symm
  have hpad : (opEnv s t g r es).s.spadAt (opEnv s t g r es).t ((execLanes g r).headD 0) ((x 0).testBit 24) (x 0 % 2 ^ 24)
      (x 1 % 128 * (x 1 / 256 % 4096) * 64) = s.spadAt t ((execLanes g r).headD 0) ((x 0).testBit 24) (x 0 % 2 ^ 24)
      (x 1 % 128 * (x 1 / 256 % 4096) * 64) := rfl
  have hstream : (opEnv s t g r es).s.stream (opEnv s t g r es).t c n = s.stream t c n := rfl
  dsimp only
  rw [h0, h1, hb1, hb2, hb3, hb4, hb5, hstream, hpad]
  refine (if_neg ?_).trans rfl
  rw [Option.isNone_iff_eq_none]
  rintro (h | h | h | h | h | h | h)
  · exact h hal
  · omega
  · omega
  · exact hsize h
  · exact hspad h
  · exact h hcl
  · exact h htk

end

/-- Settles O20: each move of a slot changes one stream, and the end of the cycle makes it seen. -/
theorem streamsMoveSlots : Obligations.StreamsMoveSlots := by
  unfold Obligations.StreamsMoveSlots
  intro s t g r es c n e ls q others at' hc
  refine ⟨?_, ?_, ?_, ?_, fun i hr => q.mem_cycleEnd hr i, ?_⟩
  · rintro d i rest s1 h hbound hfull hset rfl
    exact qrd_takes h hc hbound hfull hset
  · intro d i rest h hbound hfree
    exact claim_claims h hc hbound hfree
  · rintro a i s1 h hfind hset rfl
    exact slot_moves (f := fun x => x.commit i) h (commitBody_inCrew hc hfind hset)
  · intro a i h hfind
    exact slot_moves (f := fun x => x.give i) h (qfreeBody_inCrew hc hfind)
  · intro a b h base geo size hal hlo hhi hsize hspad hcl htk
    obtain ⟨s', hs, hact, hothers, hring⟩ := qinit_binds h (qinitBody_inCrew hc
      (fun j => operand s t g r es [.int .u32 a, .int .u32 b] (ls.headD 0) j) (fun _ => rfl) hal hlo hhi hsize hspad hcl htk)
    refine ⟨s', hs, hact, hothers, ?_⟩
    intro x
    have hx : x = _ := hring
    rw [hx]
    obtain ⟨h1, h2, h3, h4, h5⟩ := q.fresh_cycleEnd { base := base % 2 ^ 24, cluster := base.testBit 24, nslot := geo % 128, slotsz := size, num := s.nextRing + 1 }
    refine ⟨rfl, h1, h2, h3, h4, ?_, ?_, ?_, ?_⟩ <;> rfl

end Sys2Proof.Machine
end

section
/-! SUPPORT. BINIT (spec/12 R284, R290): what it makes of its barrier register and of the lanes' parities, and the statement about it. -/

namespace Sys2Proof.Machine

open Sys2Proof Sys2Proof.Safety

-- One proof at a time: side by side they need more threads than a check's memory holds.
set_option Elab.async false

/-- A bit that has been set reads as it was set, where the word has it. -/
theorem getLsbD_setBit_self {n : Nat} (x : BitVec n) (k : Nat) (b : Bool) : (setBit x k b).getLsbD k = (decide (k < n) && b) := by
  have hone : (BitVec.ofNat n (2 ^ k)).getLsbD k = decide (k < n) := by
    rw [BitVec.getLsbD_ofNat, Nat.testBit_two_pow_self, Bool.and_true]
  by_cases hk : k < n
  · cases b with
    | true => rw [setBit, if_pos rfl, BitVec.getLsbD_or, hone]; simp [hk]
    | false => rw [setBit, if_neg (by decide), BitVec.getLsbD_and, BitVec.getLsbD_not, hone]; simp [hk]
  · rw [BitVec.getLsbD_of_ge _ _ (not_lt.1 hk)]
    simp [hk]

/-- A change of each lane of a list that leaves its registers. -/
theorem SameRegs.overLanes (ls : List Nat) {f : Lane → Lane}
    (hf : ∀ x, (f x).v = x.v ∧ (f x).o = x.o ∧ (f x).p = x.p ∧ (f x).cf = x.cf ∧ (f x).fpmode = x.fpmode) (w : Workgroup) :
    SameRegs w (overList ls w fun w l => w.updLane l f) := by
  induction ls generalizing w with
  | nil => exact .refl w
  | cons a ls ih =>
    have hone : SameRegs w (w.updLane a f) := ⟨fun l => ?_, fun c => rfl⟩
    · exact hone.trans (ih (w.updLane a f))
    rw [Workgroup.lane_updLane]
    split
    · next h =>
      rw [h]
      exact hf _
    · exact ⟨rfl, rfl, rfl, rfl, rfl⟩

/-- What holds of a changed lane, and stays so, holds of every lane that has been changed. -/
theorem Workgroup.overLanes_holds {ls : List Nat} {f : Lane → Lane} {P : Lane → Prop} (hf : ∀ x, P (f x)) {l : Nat} (w : Workgroup)
    (h : l ∈ ls ∨ P (w.lane l)) : P ((overList ls w fun w l => w.updLane l f).lane l) := by
  induction ls generalizing w with
  | nil => exact h.resolve_left (by simp)
  | cons a ls ih =>
    refine ih (w.updLane a f) ?_
    by_cases ha : l = a
    · refine .inr ?_
      rw [ha, Workgroup.lane_updLane_self]
      exact hf _
    · rw [Workgroup.lane_updLane_ne _ _ ha]
      refine h.imp_left fun h => ?_
      simpa [ha] using h

/-- What BINIT does to a lane: its parity takes the phase's lowest bit, and what it has arrived at is forgotten. -/
def Lane.initBarrier (x : Lane) (k : Nat) (ph : Bool) : Lane := { x with wpar := setBit x.wpar k ph, arrived := x.arrived.set k 0 }

section
variable {s : State} {t : Nat} {g : Gang} {r : ClauseRun} {es : List ApprEntry} {k exp c : Nat} {bytes : Word} {bound : Option Nat}

theorem Workgroup.binit_rest (w : Workgroup) (k exp : Nat) (bytes : Word) (bound : Option Nat) :
    let b := w.barriers.get k
    w.binit k exp bytes bound = { w with
      lanes := (overList (w.lanes.map (·.1)) w fun w l => w.updLane l fun x => x.initBarrier k (b.phase.getLsbD 0)).lanes
      barriers := w.barriers.set k ((b.initAs exp bytes bound).add (if b.early then b.pendarr.toNat else 0)
        (if b.early then b.earlyBytes else 0) 0) } := by
  unfold Workgroup.binit
  dsimp only
  rw [Workgroup.overUpd_rest (w.lanes.map (·.1)) (fun l => l)
    (fun _ x => { x with wpar := setBit x.wpar k ((w.barriers.get k).phase.getLsbD 0), arrived := x.arrived.set k 0 }) w]
  rfl

theorem Steps.binit (w : Workgroup) (k exp : Nat) (bytes : Word) (bound : Option Nat) : Steps w (w.binit k exp bytes bound) [] := by
  have hrest := w.binit_rest k exp bytes bound
  dsimp only at hrest
  have hsame := SameRegs.overLanes (w.lanes.map (·.1)) (f := fun x => x.initBarrier k ((w.barriers.get k).phase.getLsbD 0))
    (fun _ => ⟨rfl, rfl, rfl, rfl, rfl⟩) w
  have hb : SameRegs w (w.binit k exp bytes bound) := by
    rw [hrest]
    exact ⟨hsame.lane, fun _ => rfl⟩
  exact ⟨by rw [hrest], by rw [hrest], hb.stand []⟩

theorem Workgroup.parity_binit (w : Workgroup) {l : Nat} (hl : l ∈ w.lanes.map (·.1)) :
    ((w.binit k exp bytes bound).lane l).wpar.getLsbD k = (decide (k < 16) && (w.barriers.get k).phase.getLsbD 0) := by
  rw [Workgroup.binit_rest]
  exact Workgroup.overLanes_holds (P := fun x => x.wpar.getLsbD k = (decide (k < 16) && (w.barriers.get k).phase.getLsbD 0))
    (f := fun x => x.initBarrier k ((w.barriers.get k).phase.getLsbD 0)) (fun _ => getLsbD_setBit_self ..) w (.inl hl)

/-- BINIT of lanes of one crew. -/
theorem binitBody_inCrew {absorb crew : Bool} {a b : Sel} (hc : InCrew s t g r c) : binitBody k absorb crew a b (opEnv s t g r es) =
    let x := fun j => operand s t g r es [.int .u32 a, .int .u32 b] ((execLanes g r).headD 0) j
    let old := (s.wg t).barriers.get k
    if crew = false ∧ x 0 > 4095 then (opEnv s t g r es).trap 0x61 (execLanes g r)
    else if old.early ∧ absorb = false then (opEnv s t g r es).trap 0x60 (execLanes g r)
      [old.pendarr.setWidth 32, BitVec.ofInt 32 old.earlyBytes, BitVec.ofNat 32 k]
    else .ok (((taken s).updWg t fun w => w.binit k (if crew then ((s.wg t).members c).length else x 0)
        ((((opEnv s t g r es).opds ((execLanes g r).headD 0) [.int .u32 a, .int .u32 b] 0 0).getD 1 0).setWidth 32)
        (if crew then some c else none)).closeE (opEnv s t g r es)) [] :=
  crewBody_inCrew hc es _

/-- What the register holds once BINIT has set it. -/
theorem Barrier.initAs_add (old : Barrier) (exp : Nat) (bytes : Word) (crew : Bool) (c a : Nat) (b : Int) :
    let new := (old.initAs exp bytes (if crew then some c else none)).add a b 0
    new.init = true ∧ new.early = false ∧ new.overflow = false ∧ new.phase = old.phase ∧ new.bound = crew ∧
      (new.bcrew = if crew then BitVec.ofNat 6 c else old.bcrew) ∧ new.exparr.toNat = exp % 4096 ∧ new.pendarr.toNat = exp % 4096 ∧
      new.expbytes = bytes ∧ new.pendbytes = bytes ∧ new.due = true ∧ new.cyExp = old.cyExp ∧
      new.cyArr = old.cyArr - old.cyDep + a ∧ new.cyDep = 0 ∧ new.cyBytes = old.cyBytes + b := by
  refine ⟨rfl, rfl, rfl, rfl, ?_, ?_, ?_, ?_, rfl, rfl, rfl, rfl, rfl, rfl, rfl⟩
  · cases crew <;> rfl
  · cases crew <;> rfl
  · exact BitVec.toNat_ofNat ..
  · exact BitVec.toNat_ofNat ..

/-- BINIT where its checks pass. -/
theorem binit_inits {absorb crew : Bool} {a b : Sel} (h : Ready s t g r (.binit k absorb crew a b) es)
    (hb : binitBody k absorb crew a b (opEnv s t g r es) =
      .ok (((taken s).updWg t fun w => w.binit k exp bytes bound).closeE (opEnv s t g r es)) []) :
    ∃ s', laneIssue (.binit k absorb crew a b) (binitBody k absorb crew a b) s = .next s' ∧
      Acted s s' t g r (.binit k absorb crew a b) [] ∧
      ((s'.wg t).barriers = (s.wg t).barriers.set k ((((s.wg t).barriers.get k).initAs exp bytes bound).add
        (if ((s.wg t).barriers.get k).early then ((s.wg t).barriers.get k).pendarr.toNat else 0)
        (if ((s.wg t).barriers.get k).early then ((s.wg t).barriers.get k).earlyBytes else 0) 0)) ∧
      ∀ l ∈ (s.wg t).lanes.map (·.1), ((s'.wg t).lane l).wpar.getLsbD k =
        (decide (k < 16) && ((s.wg t).barriers.get k).phase.getLsbD 0) := by
  have hm : BodyMoved s (((taken s).updWg t fun w => w.binit k exp bytes bound).closeE (opEnv s t g r es)) t [] :=
    ((BodyMoved.start s t []).step (.binit _ k exp bytes bound)).step (.closeRegion _ (execLanes g r) _)
  have hwg : (((taken s).updWg t fun w => w.binit k exp bytes bound).closeE (opEnv s t g r es)).wg t =
      ((s.wg t).binit k exp bytes bound).closeRegion (execLanes g r) :=
    (State.wg_updWg_self ..).trans (congrArg (fun w : Workgroup => w.closeRegion (execLanes g r)) (State.wg_updWg_self ..))
  obtain ⟨s', hs, hact, hcl⟩ := laneIssue_moved h hb hm
  rw [hwg] at hcl
  refine ⟨s', hs, hact, ?_, fun l hl => ?_⟩
  · rw [hcl.rest, Workgroup.closeRegion_rest, Workgroup.binit_rest]
  · rw [hcl.lane]
    change ((((s.wg t).binit k exp bytes bound).closeRegion (execLanes g r)).lane l).wpar.getLsbD k = _
    rw [Workgroup.lane_closeRegion, ← Workgroup.parity_binit (s.wg t) hl (exp := exp) (bytes := bytes) (bound := bound)]
    split <;> rfl

end

/-- Settles O26: BINIT sets its register from its operands and from what had come early, and every lane's parity with it. -/
theorem barrierInitialised : Obligations.BarrierInitialised := by
  unfold Obligations.BarrierInitialised
  intro s t g r es k absorb crew a b c ls x i old exp h
  have hbody := fun hc : InCrew s t g r c => binitBody_inCrew (k := k) (absorb := absorb) (crew := crew) (a := a) (b := b) (es := es) hc
  dsimp only at hbody
  refine ⟨fun hls => crewBody_idle (body := binitBody k absorb crew a b) h hls rfl [], fun hc hcount hearly => ?_, fun hc hcount hearly hab => ?_,
    fun hc hcrew hcount => ?_⟩
  · have hno : ¬ (crew = false ∧ x 0 > 4095) := by
      rintro ⟨h1, h2⟩
      rcases hcount with h3 | h3
      · rw [h3] at h1
        exact nomatch h1
      · omega
    have hno2 : ¬ (old.early = true ∧ absorb = false) := by
      rintro ⟨h1, h2⟩
      rcases hearly with h3 | h3
      · rw [h3] at h1
        exact nomatch h1
      · rw [h3] at h2
        exact nomatch h2
    obtain ⟨s', hs, hact, hbar, hpar⟩ := binit_inits h ((hbody hc).trans ((if_neg hno).trans (if_neg hno2)))
    refine ⟨s', hs, hact, fun j hj => by rw [hbar, SMap.get_set_ne _ _ hj], ?_, hpar⟩
    intro new
    have hnew : new = _ := (congrArg (fun m => SMap.get m k) hbar).trans (SMap.get_set_self ..)
    rw [hnew]
    have hbytes : (((((opEnv s t g r es).opds (ls.headD 0) [.int .u32 a, .int .u32 b] 0 0).getD 1 0).setWidth 32).toNat) = x 1 % 2 ^ 32 :=
      BitVec.toNat_setWidth ..
    obtain ⟨h1, h2, h3, h4, h5, h6, h7, h8, h9, h10, h11, h12, h13, h14, h15⟩ := old.initAs_add exp
      ((((opEnv s t g r es).opds (ls.headD 0) [.int .u32 a, .int .u32 b] 0 0).getD 1 0).setWidth 32) crew c
      (if old.early then old.pendarr.toNat else 0) (if old.early then old.earlyBytes else 0)
    refine ⟨h1, h2, h3, h4, h5, h6, h7, h8, ?_, ?_, h11, h12, h13, h14, h15⟩
    · exact (congrArg BitVec.toNat h9).trans hbytes
    · exact (congrArg BitVec.toNat h10).trans hbytes
  · have hno : ¬ (crew = false ∧ x 0 > 4095) := by
      rintro ⟨h1, h2⟩
      rcases hcount with h3 | h3
      · rw [h3] at h1
        exact nomatch h1
      · omega
    have hb := (hbody hc).trans ((if_neg hno).trans (if_pos ⟨hearly, hab⟩))
    intro dt
    change laneIssue i (binitBody k absorb crew a b) s = _
    rw [laneIssue_ready h, ← opEnv, hb]
    rfl
  · refine laneIssue_trapped h rfl ?_
    rw [hbody hc, if_pos ⟨hcrew, hcount⟩]

end Sys2Proof.Machine
end

section
/-! SUPPORT. Instructions that go into flight (spec/08 R176): what counting one leaves; and BARRIVE, BWAIT and the merge of a cycle's
contributions (spec/12 R284, R292, R293) with the statement about them. -/

namespace Sys2Proof.Machine

open Sys2Proof Sys2Proof.Safety

-- One proof at a time: side by side they need more threads than a check's memory holds.
set_option Elab.async false

/-! ### Lists without repeats -/

theorem nodup_dedup {α : Type} [DecidableEq α] (l : List α) : (dedup l).Nodup := by
  induction l with
  | nil => exact List.nodup_nil
  | cons a l ih => exact List.nodup_cons.2 ⟨by simp, ih.filter _⟩

theorem insertSorted_perm (a : Nat) (l : List Nat) : (insertSorted a l).Perm (a :: l) := by
  induction l with
  | nil => exact .refl _
  | cons b l ih =>
    unfold insertSorted
    split
    · exact .refl _
    · exact (ih.cons b).trans (.swap ..)

theorem sortNat_perm (l : List Nat) : (sortNat l).Perm l := by
  induction l with
  | nil => exact .refl _
  | cons a l ih => exact (insertSorted_perm a _).trans (ih.cons a)

theorem Workgroup.nodup_crewsOf (w : Workgroup) (ls : List Nat) : (w.crewsOf ls).Nodup :=
  (sortNat_perm _).nodup_iff.2 (nodup_dedup _)

/-! ### Counting -/

/-- Each crew of a list changed by its own function: crews outside stand. -/
theorem Workgroup.crew_overCrews {cs : List Nat} (hn : cs.Nodup) (F : Nat → Crew → Crew) (w : Workgroup) (c : Nat) :
    (overList cs w fun w c => w.updCrew c (F c)).crew c = if c ∈ cs then F c (w.crew c) else w.crew c := by
  induction cs generalizing w with
  | nil => rfl
  | cons a cs ih =>
    obtain ⟨ha, hn⟩ := List.nodup_cons.1 hn
    change (overList cs (w.updCrew a (F a)) fun w c => w.updCrew c (F c)).crew c = _
    rw [ih hn, Workgroup.crew_updCrew]
    by_cases h : c = a
    · subst h
      simp [ha]
    · simp [h]

/-- Changes of crews leave everything else of a workgroup. -/
theorem Workgroup.overCrewsBy_rest (cs : List Nat) (F : Nat → Crew → Crew) (w : Workgroup) :
    overList cs w (fun w c => w.updCrew c (F c)) = { w with crews := (overList cs w fun w c => w.updCrew c (F c)).crews } := by
  induction cs generalizing w with
  | nil => rfl
  | cons a cs ih => exact ih (w.updCrew a (F a))

/-- Loops whose steps agree wherever what they keep holds. -/
theorem overList_congr_keeping {α β : Type} {f g : β → α → β} (P : β → Prop) (l : List α) (hkeep : ∀ b x, P b → P (g b x))
    (h : ∀ b x, P b → f b x = g b x) {b : β} (hb : P b) : overList l b f = overList l b g := by
  induction l generalizing b with
  | nil => rfl
  | cons a l ih =>
    change overList l (f b a) f = overList l (g b a) g
    rw [h b a hb]
    exact ih (hkeep b a hb)

/-- What an instruction leaves in flight of its first crew. -/
structure LaunchArgs where
  path : Option Path
  ord : Order
  scope : Scope
  dev : Bool
  checked : Bool
  op : FlightOp
  stat : Option (Sel × List (Nat × Nat))
  used : Used
  again : Option Reissue

/-- The item that crew `c` counts of an instruction of lanes `ls`: the first crew holds what is to be done. -/
def Workgroup.launchItem (w : Workgroup) (ls : List Nat) (a : LaunchArgs) (c : Nat) : FlightItem :=
  let iv (l : Nat) : Nat × Word := (l, (w.lane l).interval)
  let dest (ls : List Nat) : List (Nat × Nat) := ls.flatMap fun l => (a.op.dests a.stat l).map fun k => (l, k)
  let base : FlightItem := { (default : FlightItem) with
    id := w.nextItem, path := a.path, ord := a.ord, scope := a.scope, dev := a.dev, checked := a.checked, op := a.op, stat := a.stat
    lanes := ls.map iv, used := a.used, again := a.again }
  let mine := ls.filter fun l => (w.lane l).crew == some c
  if (w.crewsOf ls).head? = some c then { base with dest := dest mine } else { base with
    op := .nop, stat := none, ord := .relaxed, dev := false, lanes := mine.map iv, dest := dest mine, used := {}, again := none }

/-- A workgroup that has counted an instruction. -/
def Workgroup.launched (w : Workgroup) (ls : List Nat) (a : LaunchArgs) : Workgroup :=
  { overList (w.crewsOf ls) w fun v c => v.updCrew c fun x => { x with flight := x.flight ++ [w.launchItem ls a c] } with
    nextItem := w.nextItem + 1 }

theorem State.launch_eq (s : State) (t : Nat) (ls : List Nat) (a : LaunchArgs) :
    s.launch t ls a.path a.ord a.scope a.dev a.checked a.op a.stat a.used a.again = s.setWg t ((s.wg t).launched ls a) := by
  unfold State.launch Workgroup.launched
  refine congrArg (fun w : Workgroup => s.setWg t { w with nextItem := (s.wg t).nextItem + 1 }) ?_
  refine overList_congr_keeping (fun v : Workgroup => v.lanes = (s.wg t).lanes) _ ?_ (fun v c hv => ?_) rfl
  · exact fun v c hv => hv
  have hlane : ∀ l, v.lane l = (s.wg t).lane l := fun l => by
    unfold Workgroup.lane
    rw [hv]
  dsimp only
  simp only [hlane]
  rfl

section
variable {w : Workgroup} {ls : List Nat} {a : LaunchArgs}

theorem Workgroup.launched_rest : w.launched ls a =
    { w with crews := (w.launched ls a).crews, nextItem := w.nextItem + 1 } := by
  unfold Workgroup.launched
  rw [Workgroup.overCrewsBy_rest (w.crewsOf ls) (fun c x => { x with flight := x.flight ++ [w.launchItem ls a c] }) w]

theorem Workgroup.crew_launched (c : Nat) : (w.launched ls a).crew c =
    if c ∈ w.crewsOf ls then { w.crew c with flight := (w.crew c).flight ++ [w.launchItem ls a c] } else w.crew c :=
  Workgroup.crew_overCrews (w.nodup_crewsOf ls) (fun c x => { x with flight := x.flight ++ [w.launchItem ls a c] }) w c

theorem Steps.launched (ds : List (Sel × Nat)) : Steps w (w.launched ls a) ds := by
  have hsame : SameRegs w (w.launched ls a) := by
    refine ⟨fun l => ?_, fun c => ?_⟩
    · rw [Workgroup.launched_rest]
      exact ⟨rfl, rfl, rfl, rfl, rfl⟩
    · rw [Workgroup.crew_launched]
      split <;> rfl
  exact ⟨by rw [Workgroup.launched_rest], by rw [Workgroup.launched_rest], hsame.stand ds⟩

theorem Workgroup.launchItem_fields (c : Nat) : (w.launchItem ls a c).id = w.nextItem ∧ (w.launchItem ls a c).path = a.path ∧
    (w.launchItem ls a c).done = false := by
  unfold Workgroup.launchItem
  dsimp only
  split <;> exact ⟨rfl, rfl, rfl⟩

/-- The first crew's item. -/
theorem Workgroup.launchItem_first {c : Nat} (hc : (w.crewsOf ls).head? = some c) : (w.launchItem ls a c).ord = a.ord ∧
    (w.launchItem ls a c).scope = a.scope ∧ (w.launchItem ls a c).op = a.op ∧ (w.launchItem ls a c).dev = a.dev ∧
    (w.launchItem ls a c).lanes = ls.map fun l => (l, (w.lane l).interval) := by
  unfold Workgroup.launchItem
  dsimp only
  rw [if_pos hc]
  exact ⟨rfl, rfl, rfl, rfl, rfl⟩

end

/-- An instruction has gone into flight in every state whose crews hold the flights that counting it left. -/
theorem flew_of_launched {s s' : State} {t : Nat} {ls : List Nat} {a : LaunchArgs} {p : Path} {c : Nat} (hp : a.path = some p)
    (hc : ((s.wg t).crewsOf ls).head? = some c)
    (hfl : ∀ k, ((s'.wg t).crew k).flight = (((s.wg t).launched ls a).crew k).flight) :
    Flew s s' t ls p ((s.wg t).launchItem ls a c) := by
  have hkeep : ∀ k ∈ (s.wg t).crewsOf ls, ((s'.wg t).crew k).flight =
      ((s.wg t).crew k).flight ++ [(s.wg t).launchItem ls a k] := fun k hk => by
    rw [hfl, Workgroup.crew_launched, if_pos hk]
  obtain ⟨hid, hpath, hdone⟩ := Workgroup.launchItem_fields (w := s.wg t) (ls := ls) (a := a) c
  refine ⟨⟨hid, hpath.trans hp, hdone⟩, fun k hk => ?_, fun k hk => ?_⟩
  · obtain rfl : c = k := Option.some.inj (hc.symm.trans hk)
    exact ⟨_, hkeep c (List.mem_of_mem_head? hc), rfl⟩
  · unfold Crew.count
    rw [hkeep k hk, List.filter_append, List.length_append]
    have hone : ((s.wg t).launchItem ls a k).path = some p := (Workgroup.launchItem_fields k).2.1.trans hp
    simp [hone]

/-! ### Gangs that wait -/

/-- A gang whose instruction waits where it stands: nothing but its gang changes. -/
theorem laneIssue_waitsFor {s b : State} {t : Nat} {g : Gang} {r : ClauseRun} {i : Instr} {es : List ApprEntry}
    (h : Ready s t g r i es) {body : Env → Res} {k : Park} {pd : Pend} (hb : body (opEnv s t g r es) = .park b k pd)
    (hg : (b.wg t).gang? g.id = some g) :
    ∃ s', laneIssue i body s = .next s' ∧ Parked s' t g r k ∧ s' = { b with wgs := s'.wgs, free := s'.free } ∧
      (∀ u, u ≠ t → s'.wg u = b.wg u) ∧ s'.wg t = { b.wg t with gangs := (s'.wg t).gangs } := by
  have hlk : (opEnv s t g r es).holders = [] := Env.holders_nil (e := opEnv s t g r es) h.unlocked
  have hset : State.settleRes (opEnv s t g r es) i (.park b k pd) =
      b.updGang t g.id fun g => { g with park := some k, moved := true, clause := some { r with pend := pd } } := by
    simp only [State.settleRes, hlk]
    rfl
  have hfind := State.gang_updGang b (t := t) (g := g.id)
    (fun g => { g with park := some k, moved := true, clause := some { r with pend := pd } }) fun _ => rfl
  rw [hg] at hfind
  rw [laneIssue_ready h body, ← opEnv, hb, hset]
  refine ⟨_, rfl, ⟨_, _, hfind, rfl, rfl, rfl, rfl⟩, rfl, fun u hu => ?_, ?_⟩
  · rw [State.wg_spent]
    exact State.wg_updWg_ne _ _ hu
  · rw [State.wg_spent, State.updGang, State.wg_updWg_self]
    rfl

/-! ### R292, R293: BARRIVE and BWAIT -/

section
variable {s : State} {t : Nat} {g : Gang} {r : ClauseRun} {i : Instr} {es : List ApprEntry} {c k : Nat}

/-- A path with room in every crew. -/
theorem Env.full_none {p : Path} (h : Safety.Room s t g r p) : (opEnv s t g r es).full p = none := by
  have hnil : ((opEnv s t g r es).w.crewsOf (opEnv s t g r es).ls).filter
      (fun c => decide (((opEnv s t g r es).w.crew c).count p ≥ 63)) = [] :=
    List.filter_eq_nil_iff.2 fun c hc => by
      rw [decide_eq_true_iff]
      exact not_le.2 (h c hc)
  unfold Env.full
  rw [hnil]

/-- An instruction of lanes of one crew that goes into flight with the end of their intervals. -/
theorem laneIssue_flies (h : Ready s t g r i es) (hc : InCrew s t g r c) {body : Env → Res} {a : LaunchArgs} {p : Path}
    (hp : a.path = some p) (hb : body (opEnv s t g r es) = .ok
      ((((taken s).launch t (execLanes g r) a.path a.ord a.scope a.dev a.checked a.op a.stat a.used a.again).endE
        (opEnv s t g r es)).closeE (opEnv s t g r es)) []) :
    ∃ s', laneIssue i body s = .next s' ∧ Acted s s' t g r i [] ∧ IntervalsEnded s s' t g r ∧
      Flew s s' t (execLanes g r) p ((s.wg t).launchItem (execLanes g r) a c) ∧ (s'.wg t).barriers = (s.wg t).barriers := by
  set ls := execLanes g r with hls
  have hlaunch : (taken s).launch t ls a.path a.ord a.scope a.dev a.checked a.op a.stat a.used a.again =
      (taken s).updWg t fun w => w.launched ls a := State.launch_eq (taken s) t ls a
  rw [hlaunch] at hb
  have hm : BodyMoved s ((((taken s).updWg t fun w => w.launched ls a).endE (opEnv s t g r es)).closeE (opEnv s t g r es)) t [] :=
    (((BodyMoved.start s t []).step (f := fun w => w.launched ls a) (.launched [])).step (.endInterval _ ls [])).step (.closeRegion _ ls [])
  have hwg : ((((taken s).updWg t fun w => w.launched ls a).endE (opEnv s t g r es)).closeE (opEnv s t g r es)).wg t =
      (((s.wg t).launched ls a).endInterval ls).closeRegion ls := by
    refine (State.wg_updWg_self ..).trans (congrArg (fun w : Workgroup => w.closeRegion ls) ((State.wg_updWg_self ..).trans ?_))
    exact congrArg (fun w : Workgroup => w.endInterval ls) (State.wg_updWg_self ..)
  obtain ⟨s', hs, hact, hcl⟩ := laneIssue_moved h hb hm
  rw [hwg] at hcl
  have hcrews := Workgroup.crewsOf_eq_singleton (w := s.wg t) hc.1 hc.2
  refine ⟨s', hs, hact, hcl.intervals (lanesOf_nodup ..) fun l => ?_, flew_of_launched hp (by rw [hcrews]; rfl) fun m => ?_, ?_⟩
  · rw [Workgroup.launched_rest]
    rfl
  · rw [hcl.crew]
    change ((((s.wg t).launched ls a).endInterval ls).closeRegion ls |>.crew m).flight = _
    rw [Workgroup.crew_closeRegion, Workgroup.crew_endInterval]
  · rw [hcl.rest, Workgroup.closeRegion_rest, Workgroup.endInterval_rest, Workgroup.launched_rest]

/-- The operands of BARRIVE. -/
def barriveOps (sib : Option Sel) (b : Sel) : List Opd := (match sib with | some q => [Opd.int .u32 q] | none => []) ++ [Opd.int .u32 b]

/-- The workgroup whose barrier BARRIVE names: a sibling by its position, or its own. -/
def State.arriveAt (s : State) (t : Nat) (sib : Option Sel) (x : Nat) : Option Nat :=
  match sib with
  | some _ => s.sibling t (x % 4)
  | none => some t

/-- BARRIVE of lanes of one crew. -/
theorem barriveBody_inCrew (hc : InCrew s t g r c) (sib : Option Sel) (b : Sel) : barriveBody k sib b (opEnv s t g r es) =
    let x := fun j => operand s t g r es (barriveOps sib b) ((execLanes g r).headD 0) j
    match (taken s).arriveAt t sib (x 0) with
    | none => (opEnv s t g r es).trap 0x61 (execLanes g r)
    | some u =>
      match (opEnv s t g r es).full .cl with
      | some p => .park (taken s) p r.pend
      | none => .ok ((((taken s).launch t (execLanes g r) (some .cl) .release .cluster false false
          (.arrive u k (execLanes g r).length (x ((barriveOps sib b).length - 1)) (execLanes g r))).endE
            (opEnv s t g r es)).closeE (opEnv s t g r es)) [] := by
  refine (crewBody_inCrew hc es _).trans ?_
  cases sib <;> rfl

/-- BWAIT of lanes of one crew. -/
theorem bwaitBody_inCrew (hc : InCrew s t g r c) (phase : Option Sel) : bwaitBody k phase (opEnv s t g r es) =
    let want := (execLanes g r).map fun l => (l, phase.map fun q => operand s t g r es [.int .u32 q] l 0 % 65536)
    if ((s.wg t).barriers.get k).init = false then (opEnv s t g r es).trap 0x61 (execLanes g r)
    else if (s.wg t).passed k want then
      .ok (((match phase with | none => (taken s).updWg t fun w => w.setParity k (execLanes g r) | some _ => taken s).acquired t .acquire
        .cluster).endE (opEnv s t g r es)) []
    else .park (taken s) (.barrier k want) r.pend := by
  have hwant : ((execLanes g r).map fun l => (l, phase.map fun q => ((opEnv s t g r es).int32 l q 0 0).toNat % 65536)) =
      (execLanes g r).map fun l => (l, phase.map fun q => operand s t g r es [.int .u32 q] l 0 % 65536) :=
    List.map_congr_left fun l _ => by cases phase <;> simp [int32_toNat_operand]
  refine (crewBody_inCrew hc es _).trans ?_
  dsimp only
  rw [← hwant]
  rfl

theorem Workgroup.setParity_rest (w : Workgroup) (k : Nat) (ls : List Nat) : w.setParity k ls = { w with lanes := (w.setParity k ls).lanes } :=
  Workgroup.overUpd_rest ls (fun l => l) (fun _ x => { x with wpar := setBit x.wpar k ((w.barriers.get k).phase.getLsbD 0) }) w

theorem Workgroup.lane_setParity (w : Workgroup) (k : Nat) {ls : List Nat} (hn : ls.Nodup) (l : Nat) : (w.setParity k ls).lane l =
    if l ∈ ls then { w.lane l with wpar := setBit (w.lane l).wpar k ((w.barriers.get k).phase.getLsbD 0) } else w.lane l :=
  Workgroup.lane_overLanes ls hn (fun x => { x with wpar := setBit x.wpar k ((w.barriers.get k).phase.getLsbD 0) }) w l

theorem Steps.setParity (w : Workgroup) (k : Nat) {ls : List Nat} (hn : ls.Nodup) : Steps w (w.setParity k ls) [] := by
  have hsame : SameRegs w (w.setParity k ls) := by
    refine ⟨fun l => ?_, fun c => by rw [Workgroup.setParity_rest]; rfl⟩
    rw [Workgroup.lane_setParity _ _ hn]
    split <;> exact ⟨rfl, rfl, rfl, rfl, rfl⟩
  exact ⟨by rw [Workgroup.setParity_rest], by rw [Workgroup.setParity_rest], hsame.stand []⟩

/-- What a wait that passes leaves before its intervals end: in the implicit form the lanes take the barrier's phase. -/
def State.paritySet (s : State) (t k : Nat) (ls : List Nat) (phase : Option Sel) : State :=
  match phase with
  | none => (taken s).updWg t fun w => w.setParity k ls
  | some _ => taken s

theorem State.paritySet_moved (s : State) (t k : Nat) {ls : List Nat} (hn : ls.Nodup) (phase : Option Sel) :
    BodyMoved s (s.paritySet t k ls phase) t [] ∧ ((s.paritySet t k ls phase).wg t).barriers = (s.wg t).barriers ∧
      (∀ l, (((s.paritySet t k ls phase).wg t).lane l).interval = ((s.wg t).lane l).interval) ∧
      ∀ l ∈ ls, phase = none → k < 16 →
        (((s.paritySet t k ls phase).wg t).lane l).wpar.getLsbD k = ((s.wg t).barriers.get k).phase.getLsbD 0 := by
  cases phase with
  | some q => exact ⟨.start s t [], rfl, fun _ => rfl, fun _ _ h => nomatch h⟩
  | none =>
    have hwg : (s.paritySet t k ls none).wg t = (s.wg t).setParity k ls := State.wg_updWg_self ..
    refine ⟨(BodyMoved.start s t []).step (f := fun w => w.setParity k ls) (.setParity _ k hn), ?_, fun l => ?_, fun l hl _ hk => ?_⟩
    · rw [hwg, Workgroup.setParity_rest]
    · rw [hwg, Workgroup.lane_setParity _ _ hn]
      split <;> rfl
    · rw [hwg, Workgroup.lane_setParity _ _ hn, if_pos hl]
      exact (getLsbD_setBit_self ..).trans (by simp [hk])

/-- A wait that every lane of E passes. -/
theorem bwait_passes {phase : Option Sel} (h : Ready s t g r (.bwait k phase) es)
    (hb : bwaitBody k phase (opEnv s t g r es) =
      .ok (((s.paritySet t k (execLanes g r) phase).acquired t .acquire .cluster).endE (opEnv s t g r es)) []) :
    ∃ s', laneIssue (.bwait k phase) (bwaitBody k phase) s = .next s' ∧ Acted s s' t g r (.bwait k phase) [] ∧ IntervalsEnded s s' t g r ∧
      (s'.wg t).barriers = (s.wg t).barriers ∧ ∀ l ∈ execLanes g r, phase = none → k < 16 →
        ((s'.wg t).lane l).wpar.getLsbD k = ((s.wg t).barriers.get k).phase.getLsbD 0 := by
  have hnd : (execLanes g r).Nodup := lanesOf_nodup ..
  obtain ⟨hm1, hbar1, hint1, hpar1⟩ := s.paritySet_moved t k hnd phase
  generalize s.paritySet t k (execLanes g r) phase = s1 at *
  have hacq := s1.wg_acquired t .acquire .cluster
  have hm2 := hm1.acquired .acquire .cluster
  generalize s1.acquired t .acquire .cluster = s2 at *
  have hm3 : BodyMoved s (s2.endE (opEnv s t g r es)) t [] := hm2.step (.endInterval _ (execLanes g r) [])
  have hwg : (s2.endE (opEnv s t g r es)).wg t = (s2.wg t).endInterval (execLanes g r) := State.wg_updWg_self ..
  obtain ⟨s', hs, hact, hcl⟩ := laneIssue_moved h hb hm3
  rw [hwg] at hcl
  have hlane : ∀ l, (s2.wg t).lane l = (s1.wg t).lane l := fun l => by
    rw [hacq]
    rfl
  refine ⟨s', hs, hact, fun l hl => ?_, ?_, fun l hl hp hk => ?_⟩
  · rw [hcl.lane]
    change (((s2.wg t).endInterval (execLanes g r)).lane l).interval = _
    rw [Workgroup.lane_endInterval _ hnd, if_pos hl, hlane, ← hint1]
  · rw [hcl.rest, Workgroup.endInterval_rest, hacq]
    exact hbar1
  · rw [hcl.lane]
    change (((s2.wg t).endInterval (execLanes g r)).lane l).wpar.getLsbD k = _
    rw [Workgroup.lane_endInterval_rest, hlane]
    exact hpar1 l hl hp hk

end

/-- The merge of a cycle's contributions: what stands, and the three things that it may come to. -/
theorem Barrier.merge_spec (b : Barrier) (arr : Nat) (bytes : Int) (exp : Nat) :
    let pb : Int := signedOf 32 b.pendbytes.toNat - bytes + (exp : Int)
    let pa := b.pendarr.toNat - arr
    let m := b.merge arr bytes exp
    m.init = b.init ∧ m.exparr = b.exparr ∧ m.expbytes = b.expbytes ∧ m.bound = b.bound ∧ m.bcrew = b.bcrew ∧
      (b.init = false → m.early = true ∧ m.phase = b.phase ∧ m.pendarr.toNat = min (b.pendarr.toNat + arr) 4095 ∧
        m.pendbytes = BitVec.ofInt 32 pb) ∧
      (b.init = true → pa = 0 → pb ≤ 0 → m.phase = b.phase + 1 ∧ m.pendarr = b.exparr ∧ m.pendbytes = b.expbytes ∧
        m.overflow = (b.overflow || decide (b.pendarr.toNat < arr) || decide (pb < 0))) ∧
      (b.init = true → ¬ (pa = 0 ∧ pb ≤ 0) → m.phase = b.phase ∧ m.pendarr.toNat = pa ∧ m.pendbytes = BitVec.ofInt 32 pb ∧
        m.overflow = (b.overflow || decide (b.pendarr.toNat < arr))) := by
  intro pb pa m
  have hlt := b.pendarr.isLt
  by_cases hi : b.init = true
  · have hf : ∀ {P : Prop}, b.init = false → P := fun h => absurd (hi.symm.trans h) (by decide)
    by_cases hp : pa = 0 ∧ pb ≤ 0
    · have hm : m = { b with
          overflow := b.overflow || decide (b.pendarr.toNat < arr) || decide (pb < 0), phase := b.phase + 1, pendarr := b.exparr
          pendbytes := b.expbytes } := (if_neg (by simp [hi])).trans (if_pos hp)
      rw [hm]
      exact ⟨rfl, rfl, rfl, rfl, rfl, hf, fun _ _ _ => ⟨rfl, rfl, rfl, rfl⟩, fun _ h => absurd hp h⟩
    · have hm : m = { b with
          overflow := b.overflow || decide (b.pendarr.toNat < arr), pendarr := BitVec.ofNat 12 pa, pendbytes := BitVec.ofInt 32 pb } :=
        (if_neg (by simp [hi])).trans (if_neg hp)
      rw [hm]
      refine ⟨rfl, rfl, rfl, rfl, rfl, hf, fun _ h1 h2 => absurd ⟨h1, h2⟩ hp, fun _ _ => ⟨rfl, ?_, rfl, rfl⟩⟩
      exact (BitVec.toNat_ofNat ..).trans (Nat.mod_eq_of_lt (by omega))
  · have hm : m = { b with early := true, pendarr := BitVec.ofNat 12 (min (b.pendarr.toNat + arr) 4095), pendbytes := BitVec.ofInt 32 pb } :=
      if_pos (Bool.eq_false_iff.2 hi)
    rw [hm]
    refine ⟨rfl, rfl, rfl, rfl, rfl, fun _ => ⟨rfl, rfl, ?_, rfl⟩, fun h => absurd h hi, fun h => absurd h hi⟩
    exact (BitVec.toNat_ofNat ..).trans (Nat.mod_eq_of_lt (by omega))

/-- Settles O27: arrivals go into flight, waits pass or park, and the end of a cycle merges its contributions once. -/
theorem barrierArrivesMergesAndWaits : Obligations.BarrierArrivesMergesAndWaits := by
  unfold Obligations.BarrierArrivesMergesAndWaits
  refine ⟨fun s t g r es k c => ⟨fun sib b => ?_, fun phase => ?_⟩, fun b arr bytes exp => ?_⟩
  · set ls := execLanes g r with hls
    intro i ops x target
    have hbody := fun hc : InCrew s t g r c => barriveBody_inCrew (k := k) (es := es) hc sib b
    refine ⟨fun h hls => crewBody_idle (body := barriveBody k sib b) h hls rfl [], fun h hc => ⟨fun u hu hroom => ?_, fun hu => ?_⟩⟩
    · have hb := hbody hc
      have htarget : (taken s).arriveAt t sib (operand s t g r es (barriveOps sib b) ((execLanes g r).headD 0) 0) = some u := hu
      dsimp only at hb
      rw [htarget, Env.full_none hroom] at hb
      obtain ⟨s', hs, hact, hint, hfl, hbar⟩ := laneIssue_flies h hc (a := {
        path := some .cl, ord := .release, scope := .cluster, dev := false, checked := false
        op := .arrive u k ls.length (x (ops.length - 1)) ls, stat := none, used := {}, again := none }) rfl hb
      have hcrews := Workgroup.crewsOf_eq_singleton (w := s.wg t) hc.1 hc.2
      obtain ⟨h1, h2, h3, -, -⟩ := Workgroup.launchItem_first (w := s.wg t) (ls := ls) (a := {
        path := some .cl, ord := .release, scope := .cluster, dev := false, checked := false
        op := .arrive u k ls.length (x (ops.length - 1)) ls, stat := none, used := {}, again := none }) (c := c) (by rw [hcrews]; rfl)
      exact ⟨s', _, hs, hact, hint, hfl, h1, h2, h3, hbar⟩
    · have hb := hbody hc
      have htarget : (taken s).arriveAt t sib (operand s t g r es (barriveOps sib b) ((execLanes g r).headD 0) 0) = none := hu
      dsimp only at hb
      rw [htarget] at hb
      exact laneIssue_trapped (body := barriveBody k sib b) h rfl hb
  · set ls := execLanes g r with hls
    intro i bar passes
    have hbody := fun hc : InCrew s t g r c => bwaitBody_inCrew (k := k) (es := es) hc phase
    have hpassed : (s.wg t).passed k (ls.map fun l => (l, phase.map fun q => operand s t g r es [.int .u32 q] l 0 % 65536)) = true ↔
        ∀ l ∈ ls, passes l := by
      unfold Workgroup.passed
      rw [List.all_map, List.all_eq_true]
      refine forall₂_congr fun l _ => ?_
      cases phase <;> exact bne_iff_ne
    refine ⟨fun h hls => crewBody_idle (body := bwaitBody k phase) h hls rfl [], fun h hc => ⟨fun hi hpass => ?_, fun hi hpass => ?_, fun hi => ?_⟩⟩
    · have hno : ¬ ((s.wg t).barriers.get k).init = false := by
        change bar.init = true at hi
        change ¬ bar.init = false
        rw [hi]
        decide
      refine bwait_passes h ((hbody hc).trans ((if_neg hno).trans ((if_pos (hpassed.2 hpass)).trans ?_)))
      cases phase <;> rfl
    · have hno : ¬ ((s.wg t).barriers.get k).init = false := by
        change bar.init = true at hi
        change ¬ bar.init = false
        rw [hi]
        decide
      obtain ⟨s', hs, hpark, hrest, hothers, hwg⟩ := laneIssue_waitsFor (body := bwaitBody k phase) h
        ((hbody hc).trans ((if_neg hno).trans (if_neg (mt hpassed.1 hpass)))) h.gang
      refine ⟨s', _, hs, hpark, fun a => by rw [hrest]; rfl, fun u a => ?_, fun l => by rw [hwg]; rfl⟩
      by_cases hu : u = t
      · rw [hu, hwg]
        rfl
      · rw [hothers u hu]
        rfl
    · exact laneIssue_trapped (body := bwaitBody k phase) h rfl ((hbody hc).trans (if_pos hi))
  · intro pb pa m
    refine ⟨?_, fun hd => ?_, b.merge_spec arr bytes exp⟩
    · rintro hd rfl rfl rfl
      exact if_pos hd
    · exact if_neg (by simp [hd])

end Sys2Proof.Machine
end

section
/-! SUPPORT. Rows of accumulator chains and tiles in registers (spec/07 R144, R162, R163): MACCRD and MTRANS. -/

namespace Sys2Proof.Machine

open Sys2Proof Sys2Proof.Safety

-- One proof at a time: side by side they need more threads than a check's memory holds.
set_option Elab.async false

/-! ### Fields of numbers -/

/-- A field of a field. -/
theorem bits_bits (x lo m r n : Nat) (h : r + n ≤ m) : bits (bits x lo m) r n = bits x (lo + r) n := by
  unfold bits
  apply Nat.eq_of_testBit_eq
  intro i
  simp only [Nat.testBit_mod_two_pow, Nat.testBit_div_two_pow]
  by_cases hi : i < n
  · have h1 : i + r < m := by omega
    have h2 : i + r + lo = i + (lo + r) := by omega
    simp [hi, h1, h2]
  · simp [hi]

/-- An element of packed elements. -/
theorem elemAt_packElems_of_lt {w : Nat} {l : List Nat} {k : Nat} (h : l.getD k 0 < 2 ^ w) : elemAt w (packElems w l) k = l.getD k 0 := by
  rw [elemAt_packElems, Nat.mod_eq_of_lt h]

/-- An element of `b` bits lies in one word where `b` divides 32. -/
theorem elemAt_word {b m : Nat} (hb : b * m = 32) (x k : Nat) : elemAt b (bits x (32 * (k * b / 32)) 32) (k % m) = elemAt b x k := by
  have hm : 0 < m := Nat.pos_of_ne_zero fun h => by simp [h] at hb
  have hb0 : 0 < b := Nat.pos_of_ne_zero fun h => by simp [h] at hb
  have hq : k * b / 32 = k / m := by
    rw [← hb, Nat.mul_comm b m]
    exact Nat.mul_div_mul_right _ _ hb0
  have hlt := Nat.mod_lt k hm
  have hfit : b * (k % m) + b ≤ 32 := by
    calc b * (k % m) + b = b * (k % m + 1) := by ring
      _ ≤ b * m := Nat.mul_le_mul_left b hlt
      _ = 32 := hb
  unfold elemAt
  rw [bits_bits _ _ _ _ _ hfit, hq]
  congr 1
  calc 32 * (k / m) + b * (k % m) = b * (m * (k / m) + k % m) := by rw [← hb]; ring
    _ = b * k := by rw [Nat.div_add_mod]

/-! ### MACCRD -/

theorem rowWords_length (f : AccFmt) (m : SMap Dword) (i : Nat) : (rowWords f m i).length = accSpan f := by
  cases f <;> rfl

/-- The registers of a row: one or two for each element. -/
theorem rowWords_getD (f : AccFmt) (m : SMap Dword) (i n : Nat) (hn : n < 8) :
    let v := m.get (8 * i + n)
    if f = .fp64 then (rowWords f m i).getD (2 * n) 0 = v.setWidth 32 ∧ (rowWords f m i).getD (2 * n + 1) 0 = (v >>> 32).setWidth 32
    else (rowWords f m i).getD n 0 = v.setWidth 32 := by
  have hn' : n = 0 ∨ n = 1 ∨ n = 2 ∨ n = 3 ∨ n = 4 ∨ n = 5 ∨ n = 6 ∨ n = 7 := by omega
  cases f
  case fp64 => rcases hn' with rfl | rfl | rfl | rfl | rfl | rfl | rfl | rfl <;> exact ⟨rfl, rfl⟩
  all_goals rcases hn' with rfl | rfl | rfl | rfl | rfl | rfl | rfl | rfl <;> rfl

section
variable {s : State} {t : Nat} {g : Gang} {r : ClauseRun} {i : Instr} {es : List ApprEntry} {f : AccFmt} {c : Nat} {ch : Chain}

/-- The accumulator slot of a lane's quarter. -/
def slotOf (w : Workgroup) (g : Gang) (c l : Nat) : Slot := w.slots.get (slotKey g.hset (l % 32 / 8) c)

/-- Each quarter of E has lanes of E, which lie in it. -/
theorem Env.mem_quarters {p : Nat × List Nat} : p ∈ (opEnv s t g r es).quarters ↔
    p.1 < 4 ∧ p.2 = (execLanes g r).filter (fun l => posOf l / 8 == p.1) ∧ p.2 ≠ [] := by
  unfold Env.quarters
  rw [List.mem_filter, List.mem_map]
  constructor
  · rintro ⟨⟨q, hq, rfl⟩, hne⟩
    exact ⟨List.mem_range.1 hq, rfl, by simpa using hne⟩
  · rintro ⟨h1, h2, h3⟩
    exact ⟨⟨p.1, List.mem_range.2 h1, by rw [show (opEnv s t g r es).ls = execLanes g r from rfl, ← h2]⟩, by simpa using h3⟩

/-- What holds of the slots of all lanes of E holds of those of all quarters. -/
theorem Env.quarters_of_lanes {P : Nat → Prop} (h : ∀ l ∈ execLanes g r, P (l % 32 / 8)) : ∀ p ∈ (opEnv s t g r es).quarters, P p.1 := by
  intro p hp
  obtain ⟨-, h2, h3⟩ := Env.mem_quarters.1 hp
  obtain ⟨l, hl⟩ := List.exists_mem_of_ne_nil _ h3
  rw [h2, List.mem_filter] at hl
  have hq : l % 32 / 8 = p.1 := by simpa [posOf] using hl.2
  exact hq ▸ h l hl.1

/-- The words that MACCRD reads for a lane: free ones where the slot is owned or spoiled. -/
def State.maccrdWords (s : State) (t : Nat) (g : Gang) (f : AccFmt) (c : Nat) (ch : Chain) (l : Nat) : List Word :=
  let x := slotOf (s.wg t) g c l
  if x.owned || x.poison then (List.range (accSpan f)).map fun k => (Config.freeWord (s.free + 16 * l + k)).setWidth 32
  else rowWords f (x.chain ch) (l % 32 % 8)

theorem State.maccrdWords_length (l : Nat) : (s.maccrdWords t g f c ch l).length = accSpan f := by
  unfold State.maccrdWords
  dsimp only
  split
  · simp
  · exact rowWords_length ..

/-- MACCRD where every slot has the format that it names. -/
theorem maccrdBody_reads (h : Ready s t g r i es) (hf : ∀ l ∈ execLanes g r, (slotOf (s.wg t) g c l).accf = f) (d : Nat) :
    maccrdBody f c ch d (opEnv s t g r es) = .ok ((taken s).updWg t fun _ =>
      if false then s.wg t else (s.wg t).writeSel s.free (.v d) ((execLanes g r).map fun l => (l, s.maccrdWords t g f c ch l))) [] := by
  have hq : (opEnv s t g r es).quarters.filter (fun p => ((opEnv s t g r es).w.slots.get (slotKey (opEnv s t g r es).g.hset p.1 c)).accf != f) = [] :=
    List.filter_eq_nil_iff.2 fun p hp => by
      have := Env.quarters_of_lanes (s := s) (t := t) (es := es) (P := fun q => ((s.wg t).slots.get (slotKey g.hset q c)).accf = f) hf p hp
      rw [bne_iff_ne, not_not]
      exact this
  have hd : (opEnv s t g r es).quarters.filter (fun p =>
      (opEnv s t g r es).s.damage.contains (.slot (opEnv s t g r es).t (slotKey (opEnv s t g r es).g.hset p.1 c))) = [] :=
    List.filter_eq_nil_iff.2 fun p _ => by
      rw [show (opEnv s t g r es).s.damage = [] from h.intact]
      simp
  unfold maccrdBody
  simp only [hq, hd]
  rfl

/-- What MACCRD leaves in the registers of a lane whose slot is free. -/
theorem maccrd_reads (d : Nat) (h : Ready s t g r (.maccrd f c ch d) es) (hf : ∀ l ∈ execLanes g r, (slotOf (s.wg t) g c l).accf = f) :
    ∃ s', laneIssue (.maccrd f c ch d) (maccrdBody f c ch d) s = .next s' ∧ Performed s s' t g r (.maccrd f c ch d) ∧
      FlagsKept s s' t ∧ ∀ l ∈ execLanes g r, (slotOf (s.wg t) g c l).owned = false → (slotOf (s.wg t) g c l).poison = false →
        ∀ n, n < 8 →
          let v := ((slotOf (s.wg t) g c l).chain ch).get (8 * (l % 8) + n)
          if f = .fp64 then
            (Settled (s.wg t) l (d + 2 * n) → ((s'.wg t).lane l).reg (d + 2 * n) = v.setWidth 32) ∧
            (Settled (s.wg t) l (d + 2 * n + 1) → ((s'.wg t).lane l).reg (d + 2 * n + 1) = (v >>> 32).setWidth 32)
          else Settled (s.wg t) l (d + n) → ((s'.wg t).lane l).reg (d + n) = v.setWidth 32 := by
  obtain ⟨s', hs, hp, hfl, -, -, hh⟩ := laneIssue_words (nw := false) (d := .v d) (k := accSpan f) h rfl (fun l => s.maccrdWords_length l)
    (Summed.refl _ _) (maccrdBody_reads h hf d)
  refine ⟨s', hs, hp, hfl, fun l hl hown hpoi n hn => ?_⟩
  have hread := (hh rfl).2 (fun m e => nomatch e) d rfl l hl
  have hwords : s.maccrdWords t g f c ch l = rowWords f ((slotOf (s.wg t) g c l).chain ch) (l % 8) := by
    unfold State.maccrdWords
    dsimp only
    rw [hown, hpoi, show l % 32 % 8 = l % 8 by omega]
    rfl
  dsimp only at hread
  rw [hwords] at hread
  have hrow := rowWords_getD f ((slotOf (s.wg t) g c l).chain ch) (l % 8) n hn
  intro v
  by_cases hfp : f = .fp64
  · rw [if_pos hfp]
    dsimp only at hrow
    rw [if_pos hfp] at hrow
    have hspan : accSpan f = 16 := if_pos hfp
    exact ⟨fun hs => (hread (2 * n) (by omega) hs).trans hrow.1, fun hs => (hread (2 * n + 1) (by omega) hs).trans hrow.2⟩
  · rw [if_neg hfp]
    dsimp only at hrow
    rw [if_neg hfp] at hrow
    have hspan : accSpan f = 8 := if_neg hfp
    exact fun hs => (hread n (by omega) hs).trans hrow

/-! ### MTRANS -/

/-- The source registers of a lane, packed. -/
def Env.tileRow (e : Env) (tw : TransWidth) (a l : Nat) : Nat := packElems 32 ((e.regs l (.v a) (transSpan tw) 0 0).map BitVec.toNat)

/-- The transposed row of a lane, packed. -/
def Env.transposed (e : Env) (tw : TransWidth) (a l : Nat) : Nat :=
  packElems (transBits tw) ((List.range 8).map fun j =>
    let k := 32 * e.g.hset + 8 * (posOf l / 8) + j
    if e.ls.contains k then elemAt (transBits tw) (e.tileRow tw a k) (posOf l % 8) else 0)

/-- The words of the transposed row. -/
def Env.transWords (e : Env) (tw : TransWidth) (a l : Nat) : List Word :=
  (List.range (transSpan tw)).map fun k => BitVec.ofNat 32 (bits (e.transposed tw a l) (32 * k) 32)

theorem mtransBody_eq (tw : TransWidth) (d a : Nat) (e : Env) : mtransBody tw d a e =
    .ok (e.s.updWg e.t fun w => w.writeSel e.s.free (.v d) (e.ls.map fun l => (l, e.transWords tw a l))) [] := rfl

/-- A word of a row. -/
theorem Env.bits_tileRow (e : Env) (tw : TransWidth) (a l k : Nat) (hk : k < transSpan tw) :
    bits (e.tileRow tw a l) (32 * k) 32 = (e.word32 l (.v a) k 0 0).toNat := by
  have hspan : transSpan tw ≠ 1 := by cases tw <;> decide
  have hregs : e.regs l (.v a) (transSpan tw) 0 0 = (List.range (transSpan tw)).map fun k => e.word32 l (.v a) k 0 0 := if_neg hspan
  have hget : ((e.regs l (.v a) (transSpan tw) 0 0).map BitVec.toNat).getD k 0 = (e.word32 l (.v a) k 0 0).toNat := by
    rw [hregs]
    simp [List.getD_eq_getElem?_getD, List.getElem?_range hk]
  have hlt : ((e.regs l (.v a) (transSpan tw) 0 0).map BitVec.toNat).getD k 0 < 2 ^ 32 := by
    rw [hget]
    exact BitVec.isLt _
  exact (elemAt_packElems_of_lt hlt).trans hget

/-- An element of a transposed row is one of the mate's. -/
theorem Env.elemAt_transposed (e : Env) (tw : TransWidth) (a l j : Nat) (hj : j < 8) :
    elemAt (transBits tw) (e.transposed tw a l) j = if (32 * e.g.hset + 8 * (posOf l / 8) + j) ∈ e.ls then
      elemAt (transBits tw) (e.tileRow tw a (32 * e.g.hset + 8 * (posOf l / 8) + j)) (posOf l % 8) else 0 := by
  have hget : ((List.range 8).map fun j =>
      let k := 32 * e.g.hset + 8 * (posOf l / 8) + j
      if e.ls.contains k then elemAt (transBits tw) (e.tileRow tw a k) (posOf l % 8) else 0).getD j 0 =
      if (32 * e.g.hset + 8 * (posOf l / 8) + j) ∈ e.ls then
        elemAt (transBits tw) (e.tileRow tw a (32 * e.g.hset + 8 * (posOf l / 8) + j)) (posOf l % 8) else 0 := by
    simp [List.getD_eq_getElem?_getD, List.getElem?_range hj]
  unfold Env.transposed
  rw [elemAt_packElems_of_lt, hget]
  rw [hget]
  split
  · exact bits_lt ..
  · exact Nat.two_pow_pos _

theorem Env.transWords_getD (e : Env) (tw : TransWidth) (a l k : Nat) (hk : k < transSpan tw) :
    ((e.transWords tw a l).getD k 0).toNat = bits (e.transposed tw a l) (32 * k) 32 := by
  unfold Env.transWords
  simp only [List.getD_eq_getElem?_getD, List.getElem?_map, List.getElem?_range hk, Option.map_some, Option.getD_some]
  rw [BitVec.toNat_ofNat]
  exact Nat.mod_eq_of_lt (bits_lt ..)

/-- Element by element, a transposed row of elements within words. -/
theorem Env.transWords_elem (e : Env) {tw : TransWidth} (htw : tw ≠ .b64) (a l j : Nat) (hj : j < 8) :
    let b := transBits tw
    let mate := 32 * e.g.hset + 8 * (l % 32 / 8) + j
    elemAt b ((e.transWords tw a l).getD (j * b / 32) 0).toNat (j % (32 / b)) =
      if mate ∈ e.ls then elemAt b (e.word32 mate (.v a) (l % 8 * b / 32) 0 0).toNat (l % 8 % (32 / b)) else 0 := by
  intro b mate
  have hb : transBits tw * (32 / transBits tw) = 32 := by
    cases tw with
    | b64 => exact absurd rfl htw
    | b8 => decide
    | b16 => decide
    | b32 => decide
  have hspan : ∀ k, k < 8 → k * b / 32 < transSpan tw := by
    intro k hk
    cases tw with
    | b64 => exact absurd rfl htw
    | b8 => change k * 8 / 32 < 2; omega
    | b16 => change k * 16 / 32 < 4; omega
    | b32 => change k * 32 / 32 < 8; omega
  have hpos : posOf l % 8 = l % 8 := by unfold posOf; omega
  rw [Env.transWords_getD _ _ _ _ _ (hspan j hj), elemAt_word hb, Env.elemAt_transposed _ _ _ _ _ hj, hpos]
  refine if_congr Iff.rfl ?_ rfl
  rw [← Env.bits_tileRow _ _ _ _ _ (hspan (l % 8) (Nat.mod_lt _ (by decide))), elemAt_word hb]
  rfl

/-- Word by word, a transposed row of elements of two words. -/
theorem Env.transWords_pair (e : Env) (a l j h : Nat) (hj : j < 8) (hh : h < 2) :
    let mate := 32 * e.g.hset + 8 * (l % 32 / 8) + j
    (e.transWords .b64 a l).getD (2 * j + h) 0 = if mate ∈ e.ls then e.word32 mate (.v a) (2 * (l % 8) + h) 0 0 else 0 := by
  intro mate
  have hpos : posOf l % 8 = l % 8 := by unfold posOf; omega
  have helem := Env.elemAt_transposed e .b64 a l j hj
  rw [hpos] at helem
  have hword : bits (e.transposed .b64 a l) (32 * (2 * j + h)) 32 = bits (elemAt 64 (e.transposed .b64 a l) j) (32 * h) 32 := by
    unfold elemAt
    rw [bits_bits _ _ _ _ _ (by omega)]
    congr 1
    omega
  apply BitVec.eq_of_toNat_eq
  rw [Env.transWords_getD _ _ _ _ _ (by change 2 * j + h < 16; omega), hword]
  change bits (elemAt (transBits .b64) (e.transposed .b64 a l) j) (32 * h) 32 = _
  rw [helem]
  change bits (if mate ∈ e.ls then elemAt 64 (e.tileRow .b64 a mate) (l % 8) else 0) (32 * h) 32 = _
  split
  · rw [← Env.bits_tileRow e .b64 a mate (2 * (l % 8) + h) (by change 2 * (l % 8) + h < 16; omega)]
    unfold elemAt
    rw [bits_bits _ _ _ _ _ (by omega)]
    congr 1
    omega
  · simp [bits]

/-- What MTRANS leaves in the registers of a lane. -/
theorem mtrans_transposes (tw : TransWidth) (nw : Bool) (d a : Nat) (h : Ready s t g r (.mtrans tw nw d a) es) :
    ∃ s', laneIssue (.mtrans tw nw d a) (mtransBody tw d a) s = .next s' ∧ Performed s s' t g r (.mtrans tw nw d a) ∧ FlagsKept s s' t ∧
      SummaryKept s s' t ∧ ∀ l ∈ execLanes g r, ∀ k, k < transSpan tw → Settled (s.wg t) l (d + k) →
        ((s'.wg t).lane l).reg (d + k) = ((opEnv s t g r es).transWords tw a l).getD k 0 := by
  have hb : mtransBody tw d a (opEnv s t g r es) = .ok ((taken s).updWg t fun _ => if false then s.wg t else
      (s.wg t).writeSel s.free (.v d) ((execLanes g r).map fun l => (l, (opEnv s t g r es).transWords tw a l))) [] := mtransBody_eq ..
  obtain ⟨s', hs, hp, hfl, hsum, -, hh⟩ := laneIssue_words (nw := false) (d := .v d) (k := transSpan tw) h rfl
    (fun l => by simp [Env.transWords]) (Summed.refl _ _) hb
  exact ⟨s', hs, hp, hfl, hsum, fun l hl k hk hset => (hh rfl).2 (fun m e => nomatch e) d rfl l hl k hk hset⟩

end

end Sys2Proof.Machine
end

section
/-! SUPPORT. Accumulator slots that are written and freed (spec/07 R154, R161, R162): MACCWR and MXWAIT, and the statement about the
instructions that move accumulators. -/

namespace Sys2Proof.Machine

open Sys2Proof Sys2Proof.Safety

-- One proof at a time: side by side they need more threads than a check's memory holds.
set_option Elab.async false

/-! ### Rows of a chain -/

/-- The element that a row of registers gives a chain. -/
def rowElem (f : AccFmt) (ws : List Word) (n : Nat) : Dword :=
  if f = .fp64 then (ws.getD (2 * n + 1) 0) ++ (ws.getD (2 * n) 0) else (ws.getD n 0).setWidth 64

/-- A chain after one of its rows has been written. -/
theorem get_writeRow (m : SMap Dword) (i : Nat) (F : Nat → Dword) (k : Nat) :
    (overList (List.range 8) m fun m n => m.set (8 * i + n) (F n)).get k = if k / 8 = i then F (k % 8) else m.get k := by
  have key : ∀ (ns : List Nat) (m : SMap Dword), (overList ns m fun m n => m.set (8 * i + n) (F n)).get k =
      if ∃ n ∈ ns, k = 8 * i + n then F (k - 8 * i) else m.get k := by
    intro ns
    induction ns with
    | nil => simp [overList]
    | cons a ns ih =>
      intro m
      change (overList ns (m.set (8 * i + a) (F a)) fun m n => m.set (8 * i + n) (F n)).get k = _
      rw [ih]
      by_cases hk : k = 8 * i + a
      · subst hk
        simp
      · rw [SMap.get_set_ne _ _ hk]
        simp [hk]
  rw [key]
  by_cases hk : k / 8 = i
  · rw [if_pos hk, if_pos ⟨k % 8, List.mem_range.2 (Nat.mod_lt _ (by decide)), by omega⟩]
    congr 1
    omega
  · rw [if_neg hk, if_neg]
    rintro ⟨n, hn, rfl⟩
    have := List.mem_range.1 hn
    omega

/-- A chain after rows of distinct positions have been written. -/
theorem get_writeRows (f : AccFmt) (rows : List (Nat × List Word)) (hn : (rows.map (·.1)).Nodup) (m : SMap Dword) {r : Nat × List Word}
    (hr : r ∈ rows) {n : Nat} (h8 : n < 8) : (writeRows f m rows).get (8 * r.1 + n) = rowElem f r.2 n := by
  have hd : (8 * r.1 + n) / 8 = r.1 ∧ (8 * r.1 + n) % 8 = n := by omega
  unfold writeRows
  induction rows generalizing m with
  | nil => exact absurd hr (by simp)
  | cons a rows ih =>
    rw [List.map_cons, List.nodup_cons] at hn
    obtain rfl | hr := List.mem_cons.1 hr
    · have hkeep : ∀ (rows : List (Nat × List Word)) (m : SMap Dword), r.1 ∉ rows.map (·.1) →
          (overList rows m fun m r => overList (List.range 8) m fun m n => m.set (8 * r.1 + n)
            (if f = .fp64 then (r.2.getD (2 * n + 1) 0) ++ (r.2.getD (2 * n) 0) else (r.2.getD n 0).setWidth 64)).get (8 * r.1 + n) =
          m.get (8 * r.1 + n) := by
        intro rows
        induction rows with
        | nil => exact fun _ _ => rfl
        | cons b rows ih =>
          intro m hb
          rw [List.map_cons, List.mem_cons, not_or] at hb
          refine (ih _ hb.2).trans ((get_writeRow m b.1 (rowElem f b.2) _).trans (if_neg ?_))
          rw [hd.1]
          exact hb.1
      refine (hkeep rows _ hn.1).trans ((get_writeRow m r.1 (rowElem f r.2) _).trans ?_)
      rw [hd.1, hd.2, if_pos rfl]
    · exact ih hn.2 _ hr

/-- A free slot after MACCWR: its format is the instruction's, and the rows stand in the chain. -/
theorem Slot.written_does (x : Slot) (f : AccFmt) (ch : Chain) (rows : List (Nat × List Word)) (hn : (rows.map (·.1)).Nodup) :
    (x.written f ch rows).accf = f ∧ (x.written f ch rows).k = 0 ∧
      ∀ r ∈ rows, ∀ n, n < 8 → ((x.written f ch rows).chain ch).get (8 * r.1 + n) = rowElem f r.2 n := by
  refine ⟨by cases ch <;> rfl, by cases ch <;> rfl, fun r hr n h8 => ?_⟩
  cases ch <;> exact get_writeRows f rows hn _ hr h8

/-! ### MACCWR -/

section
variable {s : State} {t : Nat} {g : Gang} {r : ClauseRun} {i : Instr} {es : List ApprEntry} {f : AccFmt} {c : Nat} {ch : Chain}

theorem slotKey_injective {h q q' c : Nat} (e : slotKey h q c = slotKey h q' c) : q = q' := by
  unfold slotKey hqOf at e
  omega

/-- The quarters of E are distinct. -/
theorem Env.nodup_quarters (e : Env) : (e.quarters.map (·.1)).Nodup := by
  unfold Env.quarters
  have hsub := (List.filter_sublist (p := fun p : Nat × List Nat => p.2 != [])
    (l := (List.range 4).map fun q => (q, e.ls.filter fun l => posOf l / 8 == q))).map (·.1)
  refine hsub.nodup ?_
  rw [List.map_map]
  change ((List.range 4).map fun q => q).Nodup
  rw [List.map_id']
  exact List.nodup_range

/-- What MACCWR makes of the slot of one quarter: a slot that is owned is spoiled, and so are the operations that are to write it. -/
def Workgroup.writeQuarter (w : Workgroup) (h c free : Nat) (f : AccFmt) (ch : Chain) (row : Nat → Nat × List Word) (p : Nat × List Nat) :
    Workgroup :=
  let sl := w.slots.get (slotKey h p.1 c)
  if sl.owned then
    { w with
      slots := w.slots.set (slotKey h p.1 c) (sl.spoil f (free + 256 * p.1))
      mqueues := w.mqueues.upd (hqOf h p.1) fun l => l.map fun o => if o.slot = c then { o with spoiled := true } else o }
  else { w with slots := w.slots.set (slotKey h p.1 c) (sl.written f ch (p.2.map row)) }

variable {h : Nat} {free : Nat} {row : Nat → Nat × List Word}

theorem Workgroup.writeQuarter_rest (w : Workgroup) (p : Nat × List Nat) : w.writeQuarter h c free f ch row p =
    { w with slots := (w.writeQuarter h c free f ch row p).slots, mqueues := (w.writeQuarter h c free f ch row p).mqueues } := by
  unfold Workgroup.writeQuarter
  dsimp only
  split <;> rfl

theorem Workgroup.writeQuarters_rest (ps : List (Nat × List Nat)) (w : Workgroup) :
    overList ps w (fun w p => w.writeQuarter h c free f ch row p) =
      { w with
        slots := (overList ps w fun w p => w.writeQuarter h c free f ch row p).slots
        mqueues := (overList ps w fun w p => w.writeQuarter h c free f ch row p).mqueues } := by
  induction ps generalizing w with
  | nil => rfl
  | cons p ps ih =>
    have hone := w.writeQuarter_rest (h := h) (c := c) (free := free) (f := f) (ch := ch) (row := row) p
    have hrest := ih (w.writeQuarter h c free f ch row p)
    change overList ps (w.writeQuarter h c free f ch row p) _ = _ at hrest
    change overList ps (w.writeQuarter h c free f ch row p) _ =
      { w with
        slots := (overList ps (w.writeQuarter h c free f ch row p) fun w p => w.writeQuarter h c free f ch row p).slots
        mqueues := (overList ps (w.writeQuarter h c free f ch row p) fun w p => w.writeQuarter h c free f ch row p).mqueues }
    generalize w.writeQuarter h c free f ch row p = w1 at *
    rw [hrest, hone]

/-- The slot of a quarter that is not written stands. -/
theorem Workgroup.slot_writeQuarter_ne (w : Workgroup) {p : Nat × List Nat} {q : Nat} (hq : q ≠ p.1) :
    (w.writeQuarter h c free f ch row p).slots.get (slotKey h q c) = w.slots.get (slotKey h q c) := by
  have hk : slotKey h q c ≠ slotKey h p.1 c := fun e => hq (slotKey_injective e)
  unfold Workgroup.writeQuarter
  dsimp only
  split <;> exact SMap.get_set_ne _ _ hk

/-- A free slot of one of the quarters. -/
theorem Workgroup.slot_writeQuarters {ps : List (Nat × List Nat)} (hn : (ps.map (·.1)).Nodup) {p : Nat × List Nat} (hp : p ∈ ps)
    (w : Workgroup) (hfree : (w.slots.get (slotKey h p.1 c)).owned = false) :
    (overList ps w fun w p => w.writeQuarter h c free f ch row p).slots.get (slotKey h p.1 c) =
      (w.slots.get (slotKey h p.1 c)).written f ch (p.2.map row) := by
  induction ps generalizing w with
  | nil => exact absurd hp (by simp)
  | cons a ps ih =>
    rw [List.map_cons, List.nodup_cons] at hn
    change (overList ps (w.writeQuarter h c free f ch row a) _).slots.get _ = _
    obtain rfl | hp := List.mem_cons.1 hp
    · have hkeep : ∀ (ps : List (Nat × List Nat)) (w : Workgroup), p.1 ∉ ps.map (·.1) →
          (overList ps w fun w p => w.writeQuarter h c free f ch row p).slots.get (slotKey h p.1 c) = w.slots.get (slotKey h p.1 c) := by
        intro ps
        induction ps with
        | nil => exact fun _ _ => rfl
        | cons b ps ih =>
          intro w hb
          rw [List.map_cons, List.mem_cons, not_or] at hb
          exact (ih _ hb.2).trans (Workgroup.slot_writeQuarter_ne w hb.1)
      refine (hkeep ps _ hn.1).trans ?_
      unfold Workgroup.writeQuarter
      dsimp only
      rw [hfree, if_neg (by decide)]
      exact SMap.get_set_self ..
    · have hne : p.1 ≠ a.1 := fun e => hn.1 (e ▸ List.mem_map_of_mem hp)
      have hstand := w.slot_writeQuarter_ne (h := h) (c := c) (free := free) (f := f) (ch := ch) (row := row) hne
      rw [ih hn.2 hp _ (by rw [hstand]; exact hfree), hstand]

/-- The row that MACCWR gives a lane. -/
def Env.maccRow (e : Env) (f : AccFmt) (a : Option Nat) (l : Nat) : Nat × List Word :=
  (posOf l % 8, match a with | some n => e.regs l (.v n) (accSpan f) 0 0 | none => List.replicate 16 0)

/-- MACCWR where no slot has had the beginning of an operation counted. -/
theorem maccwrBody_writes (hr : Ready s t g r i es) (a : Option Nat) (hb : ∀ l ∈ execLanes g r, (slotOf (s.wg t) g c l).bposIss = 0) :
    maccwrBody f c ch a (opEnv s t g r es) =
      .ok (((taken s).updWg t fun w => overList (opEnv s t g r es).quarters w fun w p =>
        w.writeQuarter g.hset c s.free f ch ((opEnv s t g r es).maccRow f a) p).closeE (opEnv s t g r es)) [] := by
  have hq : (opEnv s t g r es).quarters.filter
      (fun p => ((opEnv s t g r es).w.slots.get (slotKey (opEnv s t g r es).g.hset p.1 c)).bposIss != 0) = [] :=
    List.filter_eq_nil_iff.2 fun p hp => by
      have := Env.quarters_of_lanes (s := s) (t := t) (es := es) (P := fun q => ((s.wg t).slots.get (slotKey g.hset q c)).bposIss = 0) hb p hp
      rw [bne_iff_ne, not_not]
      exact this
  have hd : (opEnv s t g r es).quarters.filter (fun p =>
      (opEnv s t g r es).s.damage.contains (.slot (opEnv s t g r es).t (slotKey (opEnv s t g r es).g.hset p.1 c))) = [] :=
    List.filter_eq_nil_iff.2 fun p _ => by
      rw [show (opEnv s t g r es).s.damage = [] from hr.intact]
      simp
  have hall : ∀ ps : List (Nat × List Nat), ps.filter (fun p => !([] : List (Nat × List Nat)).contains p) = ps := fun ps =>
    List.filter_eq_self.2 fun p _ => rfl
  unfold maccwrBody
  simp only [hq, hd, hall]
  rfl

theorem Steps.writeQuarters (ps : List (Nat × List Nat)) (w : Workgroup) (ds : List (Sel × Nat)) :
    Steps w (overList ps w fun w p => w.writeQuarter h c free f ch row p) ds := by
  have hrest := Workgroup.writeQuarters_rest (h := h) (c := c) (free := free) (f := f) (ch := ch) (row := row) ps w
  exact .of_same (by rw [hrest]) (by rw [hrest]) (.of_eq (by rw [hrest]) (by rw [hrest])) ds

/-- Lanes of one quarter of one home set have distinct positions in it. -/
theorem nodup_positions (q : Nat) : (((execLanes g r).filter fun l => posOf l / 8 == q).map fun l => posOf l % 8).Nodup := by
  refine List.Nodup.map_on (fun x hx y hy e => ?_) ((lanesOf_nodup g.hset r.exec).filter _)
  obtain ⟨hx, hxq⟩ := List.mem_filter.1 hx
  obtain ⟨hy, hyq⟩ := List.mem_filter.1 hy
  have h1 := (mem_execLanes.1 hx).1
  have h2 := (mem_execLanes.1 hy).1
  rw [beq_iff_eq] at hxq hyq
  unfold homeOf posOf at *
  omega

/-- What MACCWR leaves in the slots of quarters that were free. -/
theorem maccwr_writes (a : Option Nat) (hr : Ready s t g r (.maccwr f c ch a) es)
    (hb : ∀ l ∈ execLanes g r, (slotOf (s.wg t) g c l).bposIss = 0) :
    ∃ s', laneIssue (.maccwr f c ch a) (maccwrBody f c ch a) s = .next s' ∧ Acted s s' t g r (.maccwr f c ch a) [] ∧
      ∀ l ∈ execLanes g r, (slotOf (s.wg t) g c l).owned = false → (slotOf (s'.wg t) g c l).accf = f ∧ (slotOf (s'.wg t) g c l).k = 0 ∧
        ∀ j, j < 8 → ((slotOf (s'.wg t) g c l).chain ch).get (8 * (l % 8) + j) = rowElem f ((opEnv s t g r es).maccRow f a l).2 j := by
  have hbody := maccwrBody_writes (f := f) (ch := ch) hr a hb
  have hm : BodyMoved s (((taken s).updWg t fun w => overList (opEnv s t g r es).quarters w fun w p =>
      w.writeQuarter g.hset c s.free f ch ((opEnv s t g r es).maccRow f a) p).closeE (opEnv s t g r es)) t [] :=
    ((BodyMoved.start s t []).step (.writeQuarters _ _ [])).step (.closeRegion _ (execLanes g r) [])
  have hwg : (((taken s).updWg t fun w => overList (opEnv s t g r es).quarters w fun w p =>
      w.writeQuarter g.hset c s.free f ch ((opEnv s t g r es).maccRow f a) p).closeE (opEnv s t g r es)).wg t =
      (overList (opEnv s t g r es).quarters (s.wg t) fun w p =>
        w.writeQuarter g.hset c s.free f ch ((opEnv s t g r es).maccRow f a) p).closeRegion (execLanes g r) :=
    (State.wg_updWg_self ..).trans (congrArg (fun w : Workgroup => w.closeRegion (execLanes g r)) (State.wg_updWg_self ..))
  obtain ⟨s', hs, hact, hcl⟩ := laneIssue_moved hr hbody hm
  rw [hwg] at hcl
  have hslots : (s'.wg t).slots = (overList (opEnv s t g r es).quarters (s.wg t) fun w p =>
      w.writeQuarter g.hset c s.free f ch ((opEnv s t g r es).maccRow f a) p).slots := by
    rw [hcl.rest, Workgroup.closeRegion_rest]
  refine ⟨s', hs, hact, fun l hl hown => ?_⟩
  have hmine : l ∈ (execLanes g r).filter fun k => posOf k / 8 == l % 32 / 8 := List.mem_filter.2 ⟨hl, by simp [posOf]⟩
  have hp : (l % 32 / 8, (execLanes g r).filter fun k => posOf k / 8 == l % 32 / 8) ∈ (opEnv s t g r es).quarters :=
    Env.mem_quarters.2 ⟨by dsimp only; omega, rfl, List.ne_nil_of_mem hmine⟩
  have hslot : slotOf (s'.wg t) g c l = (slotOf (s.wg t) g c l).written f ch
      (((execLanes g r).filter fun k => posOf k / 8 == l % 32 / 8).map ((opEnv s t g r es).maccRow f a)) := by
    unfold slotOf
    rw [hslots]
    exact Workgroup.slot_writeQuarters (Env.nodup_quarters _) hp (s.wg t) hown
  have hnd : ((((execLanes g r).filter fun k => posOf k / 8 == l % 32 / 8).map ((opEnv s t g r es).maccRow f a)).map (·.1)).Nodup := by
    rw [List.map_map]
    exact nodup_positions _
  obtain ⟨h1, h2, h3⟩ := (slotOf (s.wg t) g c l).written_does f ch _ hnd
  rw [hslot]
  refine ⟨h1, h2, fun j hj => ?_⟩
  have := h3 _ (List.mem_map_of_mem hmine) j hj
  rwa [show ((opEnv s t g r es).maccRow f a l).1 = l % 8 by change posOf l % 8 = _; unfold posOf; omega] at this

/-! ### MXWAIT -/

/-- Slots that are freed. -/
def Workgroup.freeSlots (w : Workgroup) (keys : List Nat) : Workgroup :=
  overList keys w fun w x => { w with slots := w.slots.upd x fun y => { y with owned := false } }

theorem Workgroup.freeSlots_rest (w : Workgroup) (keys : List Nat) : w.freeSlots keys = { w with slots := (w.freeSlots keys).slots } := by
  unfold Workgroup.freeSlots
  induction keys generalizing w with
  | nil => rfl
  | cons a keys ih => exact ih { w with slots := w.slots.upd a fun y => { y with owned := false } }

theorem Workgroup.slot_freeSlots (w : Workgroup) (keys : List Nat) (x : Nat) :
    (w.freeSlots keys).slots.get x = if x ∈ keys then { w.slots.get x with owned := false } else w.slots.get x := by
  unfold Workgroup.freeSlots
  induction keys generalizing w with
  | nil => rfl
  | cons a keys ih =>
    refine (ih { w with slots := w.slots.upd a fun y => { y with owned := false } }).trans ?_
    by_cases h : x = a
    · subst h
      simp
    · have hget : (w.slots.upd a fun y => { y with owned := false }).get x = w.slots.get x := SMap.get_upd_ne _ _ h
      rw [show ({ w with slots := w.slots.upd a fun y => { y with owned := false } } : Workgroup).slots.get x = w.slots.get x from hget]
      simp [h]

/-- Loops within a loop are one. -/
theorem overList_overList {α β γ : Type} (l : List α) (k : α → List β) (f : γ → β → γ) (b : γ) :
    overList l b (fun b x => overList (k x) b f) = overList (l.flatMap k) b f := by
  induction l generalizing b with
  | nil => rfl
  | cons a l ih =>
    rw [List.flatMap_cons]
    unfold overList
    rw [List.foldl_append]
    exact ih _

theorem overList_map {α β γ : Type} (l : List α) (k : α → β) (f : γ → β → γ) (b : γ) :
    overList (l.map k) b f = overList l b fun b x => f b (k x) := List.foldl_map

/-- The keys of slots `cs` of the quarters of E. -/
def Env.slotKeys (e : Env) (cs : List Nat) : List Nat := e.quarters.flatMap fun p => cs.map fun c => slotKey e.g.hset p.1 c

/-- MXWAIT where no operation that it waits for is queued. -/
theorem mxwaitBody_frees (sl : Option Nat) (hpend : r.pend = .none)
    (hnone : ∀ p ∈ (opEnv s t g r es).quarters, ∀ o ∈ (s.wg t).mqueues.get (hqOf g.hset p.1), o.slot ∉ waitSlots sl) :
    mxwaitBody sl (opEnv s t g r es) =
      .ok ((taken s).updWg t fun w => w.freeSlots ((opEnv s t g r es).slotKeys (waitSlots sl))) [] := by
  have hout : (opEnv s t g r es).outstanding (waitSlots sl) = [] := by
    unfold Env.outstanding
    refine List.flatMap_eq_nil_iff.2 fun p hp => ?_
    rw [List.map_eq_nil_iff, List.filter_eq_nil_iff]
    intro o ho
    have := hnone p hp o ho
    simpa using this
  have hloop : ∀ w : Workgroup, overList (opEnv s t g r es).quarters w (fun w p => overList (waitSlots sl) w fun w c =>
      { w with slots := w.slots.upd (slotKey (opEnv s t g r es).g.hset p.1 c) fun x => { x with owned := false } }) =
        w.freeSlots ((opEnv s t g r es).slotKeys (waitSlots sl)) := fun w => by
    unfold Workgroup.freeSlots Env.slotKeys
    rw [← overList_overList]
    refine overList_congr _ (fun b p _ => ?_) w
    rw [overList_map]
  unfold mxwaitBody
  rw [show (opEnv s t g r es).run.pend = .none from hpend]
  dsimp only
  rw [hout]
  simp only [hloop]
  rfl

/-- MXWAIT frees the slots that it names in the quarters of E. -/
theorem mxwait_frees (sl : Option Nat) (hr : Ready s t g r (.mxwait sl) es) (hpend : r.pend = .none)
    (hnone : ∀ p ∈ (opEnv s t g r es).quarters, ∀ o ∈ (s.wg t).mqueues.get (hqOf g.hset p.1), o.slot ∉ waitSlots sl) :
    ∃ s', laneIssue (.mxwait sl) (mxwaitBody sl) s = .next s' ∧ Acted s s' t g r (.mxwait sl) [] ∧
      ∀ l ∈ execLanes g r, ∀ k ∈ waitSlots sl, slotOf (s'.wg t) g k l = { slotOf (s.wg t) g k l with owned := false } := by
  have hsteps : Steps (s.wg t) ((s.wg t).freeSlots ((opEnv s t g r es).slotKeys (waitSlots sl))) [] := by
    have hrest := (s.wg t).freeSlots_rest ((opEnv s t g r es).slotKeys (waitSlots sl))
    exact .of_same (by rw [hrest]) (by rw [hrest]) (.of_eq (by rw [hrest]) (by rw [hrest])) []
  obtain ⟨s', hs, hact, hcl⟩ := laneIssue_moved hr (mxwaitBody_frees sl hpend hnone) ((BodyMoved.start s t []).step hsteps)
  rw [State.wg_updWg_self] at hcl
  refine ⟨s', hs, hact, fun l hl k hk => ?_⟩
  have hslots : (s'.wg t).slots = ((s.wg t).freeSlots ((opEnv s t g r es).slotKeys (waitSlots sl))).slots := by
    rw [hcl.rest]
    rfl
  have hmine : l ∈ (execLanes g r).filter fun k => posOf k / 8 == l % 32 / 8 := List.mem_filter.2 ⟨hl, by simp [posOf]⟩
  have hp : (l % 32 / 8, (execLanes g r).filter fun k => posOf k / 8 == l % 32 / 8) ∈ (opEnv s t g r es).quarters :=
    Env.mem_quarters.2 ⟨by dsimp only; omega, rfl, List.ne_nil_of_mem hmine⟩
  have hkey : slotKey g.hset (l % 32 / 8) k ∈ (opEnv s t g r es).slotKeys (waitSlots sl) :=
    List.mem_flatMap.2 ⟨_, hp, List.mem_map.2 ⟨k, hk, rfl⟩⟩
  unfold slotOf
  rw [hslots, Workgroup.slot_freeSlots, if_pos hkey]

end

/-- Settles O14: rows move between registers and the chains of free slots, MXWAIT frees slots, and MTRANS moves elements between the
lanes of a quarter. -/
theorem accumulatorsMove : Obligations.AccumulatorsMove := by
  unfold Obligations.AccumulatorsMove
  intro s t g r es f c ch e w ls slot
  refine ⟨fun d h hf => maccrd_reads d h hf, fun n h hb => ?_, fun h hb => ?_, fun sl h hpend hnone => mxwait_frees sl h hpend hnone,
    fun tw nw d a h => ?_⟩
  · obtain ⟨s', hs, hact, hslots⟩ := maccwr_writes (some n) h hb
    refine ⟨s', hs, hact, fun l hl hown => ?_⟩
    obtain ⟨h1, h2, h3⟩ := hslots l hl hown
    refine ⟨h1, h2, fun j hj => (h3 j hj).trans ?_⟩
    have hspan : accSpan f ≠ 1 := by cases f <;> decide
    have hregs : (e.maccRow f (some n) l).2 = (List.range (accSpan f)).map fun k => e.word32 l (.v n) k 0 0 := if_neg hspan
    have hget : ∀ k, k < accSpan f → (e.maccRow f (some n) l).2.getD k 0 = e.word32 l (.v n) k 0 0 := fun k hk => by
      rw [hregs]
      simp [List.getD_eq_getElem?_getD, List.getElem?_range hk]
    unfold rowElem
    by_cases hf : f = .fp64
    · have h16 : accSpan f = 16 := if_pos hf
      rw [if_pos hf, if_pos hf, hget _ (by omega), hget _ (by omega)]
    · have h8 : accSpan f = 8 := if_neg hf
      rw [if_neg hf, if_neg hf, hget _ (by omega)]
  · obtain ⟨s', hs, hact, hslots⟩ := maccwr_writes none h hb
    refine ⟨s', hs, hact, fun l hl hown j hj => ((hslots l hl hown).2.2 j hj).trans ?_⟩
    have hz : ∀ k, (List.replicate 16 (0 : Word)).getD k 0 = 0 := fun k => by
      rw [List.getD_eq_getElem?_getD, List.getElem?_replicate]
      split <;> rfl
    change rowElem f (List.replicate 16 0) j = 0
    unfold rowElem
    rw [hz, hz, hz]
    split <;> rfl
  · obtain ⟨s', hs, hp, hfl, hsum, hregs⟩ := mtrans_transposes tw nw d a h
    refine ⟨s', hs, hp, hfl, hsum, ?_⟩
    intro b l hl j hj mate
    refine ⟨fun htw hset => ?_, fun htw k hk hset => ?_⟩
    · have hspan : j * b / 32 < transSpan tw := by
        cases tw with
        | b64 => exact absurd rfl htw
        | b8 => change j * 8 / 32 < 2; omega
        | b16 => change j * 16 / 32 < 4; omega
        | b32 => change j * 32 / 32 < 8; omega
      rw [hregs l hl _ hspan hset]
      exact e.transWords_elem htw a l j hj
    · subst htw
      rw [Nat.add_assoc, hregs l hl (2 * j + k) (by change 2 * j + k < 16; omega) (by rw [← Nat.add_assoc]; exact hset)]
      exact e.transWords_pair a l j k hj hk

end Sys2Proof.Machine
end

section
/-! SUPPORT. Events of the module (spec/19 R446-R453): errors, clocks, heat, wipe, boot, life cycle and attestation, and the statement
about them. -/

namespace Sys2Proof.Machine

open Sys2Proof Sys2Proof.Safety

-- One proof at a time: side by side they need more threads than a check's memory holds.
set_option Elab.async false

/-! ### What a termination leaves of the module and of other workgroups -/

/-- The module's registers and its controller stand. -/
def EdgesStand (s s' : State) : Prop := s'.regs = s.regs ∧ s'.pmc = s.pmc ∧ s'.islands = s.islands

theorem EdgesStand.refl (s : State) : EdgesStand s s := ⟨rfl, rfl, rfl⟩

theorem EdgesStand.trans {a b c : State} (h : EdgesStand a b) (k : EdgesStand b c) : EdgesStand a c :=
  ⟨k.1.trans h.1, k.2.1.trans h.2.1, k.2.2.trans h.2.2⟩

theorem EdgesStand.over {α : Type} {f : State → α → State} (h : ∀ s x, EdgesStand s (f s x)) (l : List α) (s : State) :
    EdgesStand s (overList l s f) := by
  induction l generalizing s with
  | nil => exact .refl s
  | cons a l ih => exact (h s a).trans (ih _)

theorem EdgesStand.dropRaces (s : State) (lines : List Nat) : EdgesStand s (s.dropRaces lines) :=
  .over (fun _ _ => by dsimp only; split <;> exact ⟨rfl, rfl, rfl⟩) _ _

theorem EdgesStand.invalidateRows (s : State) (g : Nat) : EdgesStand s (s.invalidateRows g) := by
  unfold State.invalidateRows
  dsimp only
  split
  · exact .refl s
  · exact EdgesStand.trans (.dropRaces s _) ⟨rfl, rfl, rfl⟩

theorem EdgesStand.restoreRows (s : State) (g : Nat) (banks : List Nat) : EdgesStand s (s.restoreRows g banks) := ⟨rfl, rfl, rfl⟩

theorem EdgesStand.updPch (s : State) (g : Nat) (f : Pch → Pch) : EdgesStand s (s.updPch g f) := ⟨rfl, rfl, rfl⟩

theorem EdgesStand.forceExit (s : State) (g reason : Nat) (lost : Bool) : EdgesStand s (s.forceExit g reason lost) :=
  ((EdgesStand.restoreRows s g _).trans (.invalidateRows _ g)).trans (.updPch _ g _)

theorem EdgesStand.freeAppr (s : State) (t c : Nat) : EdgesStand s (s.freeAppr t c) := by
  unfold State.freeAppr
  split
  · split <;> exact ⟨rfl, rfl, rfl⟩
  · exact .refl s

theorem EdgesStand.terminate (s : State) (t cause fpc dom va : Nat) : EdgesStand s (s.terminate t cause fpc dom va) := by
  have hown : EdgesStand s (s.endOwnership t none 2) := .over (fun s _ => .forceExit s _ _ _) _ _
  have hfree : ∀ s1 : State, EdgesStand s1 (overList (List.range 64) s1 fun s c => s.freeAppr t c) := fun s1 =>
    .over (f := fun s c => s.freeAppr t c) (fun s c => .freeAppr s t c) _ _
  unfold State.terminate
  generalize List.range 64 = l at hfree ⊢
  refine hown.trans (.trans ?_ (hfree _))
  exact ⟨rfl, rfl, rfl⟩

/-- A termination leaves another workgroup alone, but for copies of a carve-out and monitors. -/
theorem Calm.terminate (s : State) {t u : Nat} (h : u ≠ t) (cause fpc dom va : Nat) :
    Calm (s.wg u) ((s.terminate t cause fpc dom va).wg u) := by
  have hfree : ∀ (s : State) c, (s.freeAppr t c).wg u = s.wg u := by
    intro s c
    unfold State.freeAppr
    split
    · split <;> exact State.wg_updWg_ne _ _ h
    · rfl
  refine .trans (b := (s.endOwnership t none 2).wg u) (.endOwnership s t none 2 u) ?_
  unfold State.terminate
  refine .trans (.of_eq ?_) (.over u (fun s c => .of_eq (hfree s c)) _ _)
  rw [State.wg_updWg_ne _ _ h, State.wg_updWg_ne _ _ h]

/-! ### Thermal shutdown -/

theorem overList_cons {α β : Type} (f : β → α → β) (a : α) (l : List α) (b : β) : overList (a :: l) b f = overList l (f b a) f := rfl

/-- A workgroup that thermal shutdown has terminated: frame 64 names the cause and the unit. -/
structure HeatStopped (w0 w : Workgroup) : Prop where
  gangs : w.gangs = []
  dead : ∀ l, (w.lane l).live = false
  term : w0.term = none → ∃ pc d va, w.term = some (0xB1, pc, d, va)
  cause : (((w.frames.get 64).hdr.get 0).toNat = 0xB1)
  unit : (((w.frames.get 64).hdr.get 8).toNat = 9)

/-- A workgroup whose termination, if there is one, is that of the heat. -/
def TermByHeat (w0 w : Workgroup) : Prop := w0.term = none → w.term = none ∨ ∃ pc d va, w.term = some (0xB1, pc, d, va)

theorem HeatStopped.calm {w0 w w' : Workgroup} (h : HeatStopped w0 w) (k : Calm w w') : HeatStopped w0 w' := by
  obtain ⟨hg, hd, ht, hc, hu⟩ := h
  constructor
  all_goals rw [k.rest]
  all_goals assumption

/-- The frame that thermal shutdown leaves. -/
def Workgroup.heatFrame (w : Workgroup) : Workgroup :=
  { w with frames := w.frames.set 64 { (w.frames.get 64) with hdr := SMap.set (SMap.set [] 0 0xB1) 8 9 } }

theorem Workgroup.heatFrame_rest (w : Workgroup) : w.heatFrame = { w with frames := w.heatFrame.frames } := rfl

theorem Workgroup.heatFrame_hdr (w : Workgroup) : (w.heatFrame.frames.get 64).hdr = SMap.set (SMap.set [] 0 0xB1) 8 9 := by
  unfold Workgroup.heatFrame
  dsimp only
  rw [SMap.get_set_self]

theorem State.heatStop_eq (s : State) (t : Nat) : ∃ pc d, s.heatStop t = (s.terminate t 0xB1 pc d 0).updWg t Workgroup.heatFrame :=
  ⟨_, _, rfl⟩

theorem State.heatStop_ne (s : State) {t u : Nat} (h : u ≠ t) : Calm (s.wg u) ((s.heatStop t).wg u) := by
  obtain ⟨pc, d, he⟩ := s.heatStop_eq t
  rw [he, State.wg_updWg_ne _ _ h]
  exact Calm.terminate s h _ _ _ _

theorem State.term_terminate_of_some {s : State} {t cause fpc dom va : Nat} {x : Nat × Nat × Nat × Nat} (h : (s.wg t).term = some x) :
    ((s.terminate t cause fpc dom va).wg t).term = some x := by
  unfold State.terminate
  rw [State.wg_over_freeAppr, State.wg_updWg_self]
  have hterm : (((s.endOwnership t none 2).updWg t fun w => w.dropPosts FlightItem.posts).wg t).term = (s.wg t).term := by
    rw [State.wg_updWg_self, show ∀ w : Workgroup, (w.dropPosts FlightItem.posts).term = w.term from fun _ => rfl]
    rw [(Calm.endOwnership s t none 2 t).rest]
  dsimp only
  rw [hterm, h]

theorem State.heatStopped_heatStop (s : State) (t : Nat) {w0 : Workgroup} (h : TermByHeat w0 (s.wg t)) :
    HeatStopped w0 ((s.heatStop t).wg t) := by
  obtain ⟨pc, d, he⟩ := s.heatStop_eq t
  obtain ⟨hlive, hgangs, hterm⟩ := State.terminated_terminate s t 0xB1 pc d 0
  have hkept := fun x => State.term_terminate_of_some (s := s) (t := t) (cause := 0xB1) (fpc := pc) (dom := d) (va := 0) (x := x)
  rw [he, State.wg_updWg_self]
  generalize (s.terminate t 0xB1 pc d 0).wg t = w at hlive hgangs hterm hkept ⊢
  refine ⟨hgangs, hlive, fun h0 => ?_, ?_, ?_⟩
  · rcases h h0 with h1 | ⟨pc, d, va, h1⟩
    · exact ⟨_, _, _, hterm h1⟩
    · exact ⟨_, _, _, hkept _ h1⟩
  all_goals
    rw [Workgroup.heatFrame_hdr]
    decide

theorem HeatStopped.termByHeat {w0 w : Workgroup} (h : HeatStopped w0 w) : TermByHeat w0 w := fun h0 => .inr (h.term h0)

theorem HeatStopped.over (t : Nat) {w0 : Workgroup} (ts : List Nat) {s : State} (h : HeatStopped w0 (s.wg t)) :
    HeatStopped w0 ((overList ts s State.heatStop).wg t) := by
  induction ts generalizing s with
  | nil => exact h
  | cons a l ih =>
    rw [overList_cons]
    refine ih ?_
    by_cases ha : t = a
    · subst ha
      exact s.heatStopped_heatStop t h.termByHeat
    · exact h.calm (s.heatStop_ne ha)

/-- Every workgroup of the list is terminated. -/
theorem heatStopped_over {t : Nat} {ts : List Nat} (ht : t ∈ ts) {s : State} {w0 : Workgroup} (h : TermByHeat w0 (s.wg t)) :
    HeatStopped w0 ((overList ts s State.heatStop).wg t) := by
  induction ts generalizing s with
  | nil => cases ht
  | cons a l ih =>
    rw [overList_cons]
    by_cases ha : t = a
    · subst ha
      exact HeatStopped.over t l (s.heatStopped_heatStop t h)
    · have hcalm := s.heatStop_ne ha
      refine ih ((List.mem_cons.mp ht).resolve_left ha) fun h0 => ?_
      rw [hcalm.rest]
      exact h h0

/-- A workgroup that is here is listed. -/
theorem State.mem_here {s : State} {t : Nat} (h : (s.wg t).life.here = true) : t ∈ (s.wgs.filter fun p => p.2.life.here).map (·.1) := by
  have key : ∀ m : SMap Workgroup, (m.get t).life.here = true → t ∈ (m.filter fun p => p.2.life.here).map (·.1) := by
    intro m
    induction m with
    | nil => exact fun h => by cases h
    | cons p m ih =>
      intro h
      by_cases hp : p.1 = t
      · have hh : p.2.life.here = true := by simpa [SMap.get, hp] using h
        simp [hh, hp]
      · have := ih (by simpa [SMap.get, hp] using h)
        rw [List.filter_cons]
        split
        · exact List.mem_cons_of_mem _ this
        · exact this
  exact key s.wgs h

/-! ### The wipe -/

/-- Every value listed in a map that is built anew from another. -/
theorem SMap.mem_rebuilt {β : Type} [Inhabited β] [DecidableEq β] {P : β → Prop} {f : β → β} (l : SMap β) (h : ∀ p ∈ l, P (f p.2)) :
    ∀ p ∈ overList l ([] : SMap β) fun m p => SMap.set m p.1 (f p.2), P p.2 := by
  have key : ∀ (l m : SMap β), (∀ p ∈ l, P (f p.2)) → (∀ p ∈ m, P p.2) →
      ∀ p ∈ overList l m fun m p => SMap.set m p.1 (f p.2), P p.2 := by
    intro l
    induction l with
    | nil => exact fun m _ hm => hm
    | cons q l ih =>
      intro m hl hm
      refine ih _ (fun p hp => hl p (List.mem_cons_of_mem _ hp)) fun p hp => ?_
      dsimp only [SMap.set] at hp
      split at hp
      · exact hm p (SMap.mem_drop hp).1
      · rcases SMap.mem_insert hp with rfl | hp
        · exact hl q List.mem_cons_self
        · exact hm p (SMap.mem_drop hp).1
  exact key l [] h (fun p hp => by cases hp)

/-- What holds of the default and of every value that is put in holds of every value of a map that is built anew. -/
theorem SMap.get_rebuilt {β : Type} [Inhabited β] [DecidableEq β] {P : β → Prop} {f : β → β} {l : SMap β} (h : ∀ p ∈ l, P (f p.2))
    (h0 : P default) (k : Nat) : P (SMap.get (overList l ([] : SMap β) fun m p => SMap.set m p.1 (f p.2)) k) := by
  rcases SMap.get_default_or_listed (overList l ([] : SMap β) fun m p => SMap.set m p.1 (f p.2)) k with he | ⟨p, hp, he⟩
  · exact he ▸ h0
  · exact he ▸ SMap.mem_rebuilt l h p hp

theorem SMap.get_filter_key {β : Type} [Inhabited β] (m : SMap β) (f : Nat → Bool) (k : Nat) :
    SMap.get (m.filter fun p => f p.1) k = if f k = true then m.get k else default := by
  induction m with
  | nil => simp [SMap.get]
  | cons p m ih =>
    obtain ⟨a, b⟩ := p
    rw [List.filter_cons]
    by_cases ha : a = k
    · subst ha
      by_cases hf : f a = true <;> simp [hf, SMap.get, ih]
    · by_cases hf : f a = true <;> simp [hf, SMap.get, ih, ha]

/-- What a pseudo-channel is after a wipe, but for its sweep counter, spares and log. -/
def Pch.Clear (p : Pch) : Prop := p.held = false ∧ p.table = [] ∧ p.jobs = [] ∧ p.rows = []

/-- What a core is after a wipe, but for its spares. -/
def Core.Clear (c : Core) : Prop := c.istore = [] ∧ c.apprs = [] ∧ c.tlb = [] ∧ c.recs = []

/-- Device memory reads zero and nothing that the module held of work is left. -/
structure Wiped (s s' : State) : Prop where
  mem : ∀ a, s'.mem.get a = if aperture a = some 0 then 0 else s.mem.get a
  wgs : s'.wgs = []
  queues : s'.queues = []
  nodes : s'.pool.nodes = []
  lines : s'.hostLines = []
  shoots : s'.shootdowns = []
  cores : ∀ c, (s'.core c).Clear
  pchs : ∀ g, (s'.pch g).Clear

theorem State.wiped_wipe (s : State) : Wiped s s.wipe where
  mem a := by
    refine (SMap.get_filter_key s.mem (fun a => aperture a != some 0) a).trans ?_
    by_cases h : aperture a = some 0
    · rw [if_pos h, if_neg (by simp [h])]
      rfl
    · rw [if_neg h, if_pos (by simp [h])]
  wgs := rfl
  queues := rfl
  nodes := rfl
  lines := rfl
  shoots := rfl
  cores c := SMap.get_rebuilt (P := Core.Clear) (f := Core.wiped) (fun _ _ => ⟨rfl, rfl, rfl, rfl⟩) ⟨rfl, rfl, rfl, rfl⟩ c
  pchs g := SMap.get_rebuilt (P := Pch.Clear) (f := Pch.wiped) (fun _ _ => ⟨rfl, rfl, rfl, rfl⟩) ⟨rfl, rfl, rfl, rfl⟩ g

theorem State.wiped_cold (s : State) : Wiped s s.cold where
  mem := s.wiped_wipe.mem
  wgs := rfl
  queues := rfl
  nodes := rfl
  lines := rfl
  shoots := rfl
  cores := s.wiped_wipe.cores
  pchs g := by
    refine SMap.get_rebuilt (P := Pch.Clear) (f := fun p => { p with n := 0 }) (fun p hp => ?_) ⟨rfl, rfl, rfl, rfl⟩ g
    exact SMap.mem_rebuilt (P := Pch.Clear) (f := Pch.wiped) s.pchs (fun _ _ => ⟨rfl, rfl, rfl, rfl⟩) p hp

theorem State.pch_cold_n (s : State) (g : Nat) : (s.cold.pch g).n = 0 :=
  SMap.get_rebuilt (P := fun p : Pch => p.n = 0) (f := fun p => { p with n := 0 }) (fun _ _ => rfl) rfl g

/-- A boot leaves what a wipe has cleared. -/
theorem Wiped.boot {s s' : State} (h : Wiped s s') (f : Firmware) : Wiped s (s'.boot f) := by
  obtain ⟨hmem, hwgs, hqueues, hnodes, hlines, hshoots, hcores, hpchs⟩ := h
  unfold State.boot
  split <;> exact ⟨hmem, hwgs, hqueues, hnodes, hlines, hshoots, hcores, hpchs⟩

/-- What a boot with image `f` of state `s` leaves. -/
def Boots (s s' : State) (f : Firmware) : Prop :=
  if s.accepts f = true then
    s'.pmc.booted = true ∧ s'.pmc.recovery = false ∧ s'.pmc.version = f.version ∧ s'.pool.opened = true ∧ s'.pmc.measure = measurements f
  else s'.pmc.booted = false ∧ s'.pmc.recovery = true ∧ s'.pool.opened = false

theorem State.boots_boot (s : State) (f : Firmware) : Boots s (s.boot f) f := by
  unfold Boots State.boot
  split
  · exact ⟨rfl, rfl, rfl, rfl, rfl⟩
  · exact ⟨rfl, rfl, rfl⟩

theorem State.accepts_cold (s : State) (f : Firmware) : s.cold.accepts f = s.accepts f := rfl

/-! ### Errors, clocks and heat -/

/-- The window and the count that stand for a row after one more error. -/
theorem countError_eq (w : Nat) (e : Nat × Nat) : countError w e = (w, if e.1 = w then e.2 + 1 else 1) := by
  unfold countError
  split <;> rfl

/-- One more error of row `k`, in the current window of the sweep (R446). -/
def Pch.noteError (p : Pch) (k : Nat) : Pch :=
  let e := countError (p.n.toNat / 2 ^ 22) (p.errs.get k)
  { p with
    errs := p.errs.set k e
    lasting := if e.2 ≥ 4 ∧ p.lasting.contains k = false then p.lasting ++ [k] else p.lasting }

/-- One more error of SRAM row `k` of bank `b` in window `w` (R447). -/
def Core.noteError (c : Core) (w b k : Nat) : Core :=
  let e := countError w (c.sramErr.get k)
  if e.2 ≥ 4 ∧ c.sramSpares.get b < 8 then
    { c with sramErr := c.sramErr.drop k, sramSpares := c.sramSpares.set b (c.sramSpares.get b + 1) }
  else { c with sramErr := c.sramErr.set k e }

theorem Pch.errs_noteError (p : Pch) (k : Nat) : (p.noteError k).errs.get k = countError (p.n.toNat / 2 ^ 22) (p.errs.get k) :=
  SMap.get_set_self ..

theorem Pch.mem_lasting_noteError (p : Pch) (k : Nat) :
    k ∈ (p.noteError k).lasting ↔ k ∈ p.lasting ∨ 4 ≤ (countError (p.n.toNat / 2 ^ 22) (p.errs.get k)).2 := by
  unfold Pch.noteError
  dsimp only
  split
  next h => exact ⟨fun _ => .inr h.1, fun _ => List.mem_append_right _ List.mem_cons_self⟩
  next h =>
    refine ⟨.inl, ?_⟩
    rintro (h1 | h1)
    · exact h1
    · by_contra h2
      exact h ⟨h1, by simpa using h2⟩

theorem EdgesStand.heatStop (s : State) (t : Nat) : EdgesStand s (s.heatStop t) := by
  obtain ⟨pc, d, he⟩ := s.heatStop_eq t
  have hstand := EdgesStand.terminate s t 0xB1 pc d 0
  rw [he]
  generalize s.terminate t 0xB1 pc d 0 = s1 at hstand ⊢
  exact hstand.trans ⟨rfl, rfl, rfl⟩

section
variable {s : State} (hp : s.pmc.heldReset = false)
include hp

theorem State.powered_of_notReset : s.powered = true := by
  unfold State.powered
  rw [hp]
  rfl

theorem exec_dramCorrectableError {g b row : Nat} (hg : g < 1024) (hb : b < 16) (hrow : row < 65536) :
    exec (.dramCorrectableError g b row) s = .next (s.updPch g fun p => p.noteError (rowId b row)) := by
  refine if_neg ?_
  rw [State.powered_of_notReset hp, show numPchs = 1024 from rfl]
  rintro (h | h | h | h)
  · cases h
  all_goals omega

theorem exec_sramCorrectableError {c b row : Nat} (hc : c < 4096) (hb : b < 32) (hrow : row < 128) :
    exec (.sramCorrectableError c b row) s =
      .next (s.updCore c fun x => x.noteError ((s.cycleOf c).toNat / 2 ^ 32) b (b * 128 + row)) := by
  refine if_neg ?_
  rw [State.powered_of_notReset hp, show numCores = 4096 from rfl]
  rintro (h | h | h | h)
  · cases h
  all_goals omega

theorem dramError_counted {g b row : Nat} (hg : g < 1024) (hb : b < 16) (hrow : row < 65536) :
    ∃ s', exec (.dramCorrectableError g b row) s = .next s' ∧ MemKept s s' ∧ (∀ m, m ≠ g → s'.pch m = s.pch m) ∧
      let p := s.pch g
      let k := rowId b row
      let e := p.errs.get k
      let w := p.n.toNat / 2 ^ 22
      let n := if e.1 = w then e.2 + 1 else 1
      (s'.pch g).errs.get k = (w, n) ∧ (k ∈ (s'.pch g).lasting ↔ k ∈ p.lasting ∨ 4 ≤ n) ∧ (s'.pch g).n = p.n := by
  refine ⟨_, exec_dramCorrectableError hp hg hb hrow, fun _ => rfl, fun m hm => State.pch_updPch_ne _ _ hm, ?_⟩
  intro p k e w n
  rw [State.pch_updPch_self, Pch.errs_noteError, Pch.mem_lasting_noteError, countError_eq]
  exact ⟨rfl, Iff.rfl, rfl⟩

theorem sramError_counted {c b row : Nat} (hc : c < 4096) (hb : b < 32) (hrow : row < 128) :
    ∃ s', exec (.sramCorrectableError c b row) s = .next s' ∧ OnlyCoreHere s s' c ∧
      let k := b * 128 + row
      let e := (s.core c).sramErr.get k
      let w := (s.cycleOf c).toNat / 2 ^ 32
      let n := if e.1 = w then e.2 + 1 else 1
      let x := (s.core c).sramSpares.get b
      if 4 ≤ n ∧ x < 8 then (s'.core c).sramSpares.get b = x + 1 ∧ (s'.core c).sramErr.get k = default
      else (s'.core c).sramSpares.get b = x ∧ (s'.core c).sramErr.get k = (w, n) := by
  refine ⟨_, exec_sramCorrectableError hp hc hb hrow, ⟨rfl, fun m hm => State.core_updCore_ne _ _ hm⟩, ?_⟩
  intro k e w n x
  rw [State.core_updCore_self]
  unfold Core.noteError
  rw [countError_eq]
  dsimp only
  split
  · exact ⟨by rw [SMap.get_set_self], by rw [SMap.get_drop, if_pos rfl]⟩
  · exact ⟨rfl, by rw [SMap.get_set_self]⟩

theorem clock_changed {i mhz : Nat} (hi : i < 16) (hlo : 800 ≤ mhz) (hhi : mhz ≤ 2200) (hstep : mhz % 25 = 0) :
    ∃ s', exec (.clockChange i mhz) s = .next s' ∧
      s' = { s with islands := s'.islands } ∧ s'.islands.get i = { s.islands.get i with mhz := mhz, stopped := false } ∧
      ∀ k, k ≠ i → s'.islands.get k = s.islands.get k := by
  refine ⟨_, if_neg ?_, rfl, by rw [SMap.get_upd_self], fun k hk => by rw [SMap.get_upd_ne _ _ hk]⟩
  rw [State.powered_of_notReset hp]
  rintro (h | h | h | h | h)
  · cases h
  all_goals omega

theorem clock_stopped {i : Nat} (hi : i < 16) (hfree : ∀ p ∈ s.wgs, p.2.life.here = true → islandOf p.2.core ≠ i) :
    ∃ s', exec (.islandClockStop i) s = .next s' ∧
      s' = { s with islands := s'.islands } ∧ s'.islands.get i = { s.islands.get i with stopped := true } ∧
      ∀ k, k ≠ i → s'.islands.get k = s.islands.get k := by
  refine ⟨_, if_neg ?_, rfl, by rw [SMap.get_upd_self], fun k hk => by rw [SMap.get_upd_ne _ _ hk]⟩
  rw [State.powered_of_notReset hp]
  rintro (h | h | h)
  · cases h
  · omega
  · obtain ⟨p, hmem, h⟩ := List.any_eq_true.mp h
    simp only [Bool.and_eq_true, beq_iff_eq] at h
    exact hfree p hmem h.1 h.2

theorem refresh_changed {k : Nat} {hot : Bool} (hk : k < 16) (hne : (s.stks.get k).hot ≠ hot) :
    ∃ s', exec (.refreshRateChange k hot) s = .next s' ∧ s' = { s with stks := s'.stks } ∧
      s'.stks.get k = { s.stks.get k with hot := hot } ∧ ∀ j, j ≠ k → s'.stks.get j = s.stks.get j := by
  refine ⟨_, if_neg ?_, rfl, by rw [SMap.get_upd_self], fun j hj => by rw [SMap.get_upd_ne _ _ hj]⟩
  rw [State.powered_of_notReset hp]
  rintro (h | h | h)
  · cases h
  · omega
  · exact hne h

theorem heat_shutsDown :
    ∃ s', exec .thermalShutdown s = .next s' ∧ MemKept s s' ∧ s'.pmc.heldReset = true ∧ (∀ p ∈ s'.islands, p.2.stopped = true) ∧
      s'.regs.mccount = s.regs.mccount + 1 ∧ ∀ t, (s.wg t).life.here = true → HeatStopped (s.wg t) (s'.wg t) := by
  have hedges := EdgesStand.over EdgesStand.heatStop ((s.wgs.filter fun p => p.2.life.here).map (·.1)) s
  have hmem := overList_mem State.heatStop_mem ((s.wgs.filter fun p => p.2.life.here).map (·.1)) s
  have hwgs : ∀ t, (s.wg t).life.here = true →
      HeatStopped (s.wg t) ((overList ((s.wgs.filter fun p => p.2.life.here).map (·.1)) s State.heatStop).wg t) := fun t h =>
    heatStopped_over (State.mem_here h) fun h0 => .inl h0
  refine ⟨_, if_neg (by simp [State.powered_of_notReset hp]), ?_⟩
  generalize overList ((s.wgs.filter fun p => p.2.life.here).map (·.1)) s State.heatStop = s1 at hedges hmem hwgs ⊢
  refine ⟨fun a => congrArg (SMap.get · a) hmem, rfl, ?_, ?_, hwgs⟩
  · rintro p hmem
    obtain ⟨q, -, rfl⟩ := List.mem_map.mp hmem
    rfl
  · exact congrArg (fun r : ModRegs => r.mccount + 1) hedges.1

theorem recovered {f : Firmware} (hr : s.pmc.recovery = true) :
    ∃ s', exec (.recoveryImage f) s = .next s' ∧ Boots s s' f ∧ MemKept s s' ∧ s'.wgs = s.wgs ∧ s'.regs = s.regs := by
  refine ⟨s.boot f, if_neg ?_, s.boots_boot f, ?_⟩
  · simp [State.powered_of_notReset hp, hr]
  · unfold State.boot
    split <;> exact ⟨fun _ => rfl, rfl, rfl⟩

theorem lifecycle_changed {a b : Nat} (ha : s.regs.lcstate.toNat = a)
    (hab : (a = 0 ∧ b = 1) ∨ (a = 1 ∧ b = 2) ∨ (a = 2 ∧ b = 1) ∨ (a ≠ 3 ∧ b = 3)) :
    ∃ s', exec (.lifecycleChange b) s = .next s' ∧ Wiped s s' ∧ s'.regs.lcstate.toNat = b ∧
      s'.regs = { s.regs with lcstate := s'.regs.lcstate } ∧ (b = 3 → s'.pool.opened = false ∧ s'.pmc.booted = false) := by
  have hstep : lifecycleStep s.regs.lcstate.toNat b = true := by
    subst ha
    rcases hab with ⟨h1, rfl⟩ | ⟨h1, rfl⟩ | ⟨h1, rfl⟩ | ⟨h1, rfl⟩ <;> simp [lifecycleStep, h1]
  have hb : b < 4 := by omega
  obtain ⟨hmem, hwgs, hqueues, hnodes, hlines, hshoots, hcores, hpchs⟩ := s.wiped_wipe
  refine ⟨_, if_neg ?_, ⟨hmem, hwgs, hqueues, hnodes, hlines, hshoots, hcores, hpchs⟩, ?_, rfl, ?_⟩
  · simp [State.powered_of_notReset hp, hstep]
  · change (BitVec.ofNat 2 b).toNat = b
    simp
    omega
  · rintro rfl
    exact ⟨Bool.and_false _, Bool.and_false _⟩

end

/-- Settles O55: each event's guard holds, and its effect is read off the model; the terminations of thermal shutdown are taken one by
one, and each leaves those before it. -/
theorem moduleEventsHappen : Obligations.ModuleEventsHappen := by
  unfold Obligations.ModuleEventsHappen
  intro s wiped cold boots
  have hwiped : ∀ {s'}, Wiped s s' → wiped s' := fun h => ⟨h.mem, h.wgs, h.queues, h.nodes, h.lines, h.shoots, h.cores, h.pchs⟩
  have hcold : cold s.cold := ⟨hwiped s.wiped_cold, s.pch_cold_n, rfl, rfl, rfl, rfl⟩
  have hboot : ∀ f, cold (s.cold.boot f) := fun f => by
    refine ⟨hwiped (s.wiped_cold.boot f), ?_⟩
    unfold State.boot
    split <;> exact ⟨s.pch_cold_n, rfl, rfl, rfl, rfl⟩
  refine ⟨fun hheld => ⟨s.cold, if_neg (by simp [State.powered, hheld]), hcold, rfl, rfl⟩, fun hp => ⟨?_, ?_, ?_, ?_, ?_, ?_, ?_, ?_, ?_, ?_⟩⟩
  · exact fun g b row hg hb hrow => dramError_counted hp hg hb hrow
  · exact fun c b row hc hb hrow => sramError_counted hp hc hb hrow
  · exact fun i mhz hi hlo hhi hstep => clock_changed hp hi hlo hhi hstep
  · exact fun i hi hfree => clock_stopped hp hi hfree
  · exact fun k hot hk hne => refresh_changed hp hk hne
  · obtain ⟨s', he, hmem, hheld, hstopped, hcount, hwgs⟩ := heat_shutsDown hp
    exact ⟨s', he, hmem, hheld, hstopped, hcount, fun t h =>
      ⟨(hwgs t h).gangs, (hwgs t h).dead, (hwgs t h).term, (hwgs t h).cause, (hwgs t h).unit⟩⟩
  · exact fun f => ⟨s.cold.boot f, if_neg (by simp [State.powered_of_notReset hp]), hboot f, s.cold.boots_boot f⟩
  · exact fun f hr => recovered hp hr
  · intro a b ha hab
    obtain ⟨s', he, hw, hlc, hregs, hlast⟩ := lifecycle_changed hp ha hab
    exact ⟨s', he, hwiped hw, hlc, hregs, hlast⟩
  · intro nonce hlen
    exact ⟨_, _, if_neg (by simp [State.powered_of_notReset hp, hlen]), rfl, rfl⟩

end Sys2Proof.Machine
end

section
/-! SUPPORT. Performing what is in flight (spec/08 R176): what the performing of any item leaves of uncorrectable errors and of
forced returns. -/

namespace Sys2Proof.Machine

open Sys2Proof Sys2Proof.Safety

-- One proof at a time: side by side they need more threads than a check's memory holds.
set_option Elab.async false

/-- Only what performing touches has changed: memory, workgroups, cores, the module's registers and the host's lines; no crew's forced
return has come or gone. -/
structure Steady (s s' : State) : Prop where
  rest : s' = { s with
    mem := s'.mem, cores := s'.cores, wgs := s'.wgs, regs := s'.regs, msix := s'.msix, hostLines := s'.hostLines, nextPass := s'.nextPass
    free := s'.free }
  forced : ∀ t c, ((s'.wg t).crew c).forced = ((s.wg t).crew c).forced

theorem Steady.refl (s : State) : Steady s s := ⟨rfl, fun _ _ => rfl⟩

theorem Steady.trans {a b c : State} (h : Steady a b) (k : Steady b c) : Steady a c :=
  ⟨by rw [k.rest, h.rest], fun t n => (k.forced t n).trans (h.forced t n)⟩

theorem Steady.damage {s s' : State} (h : Steady s s') : s'.damage = s.damage := by rw [h.rest]

theorem Steady.pch {s s' : State} (h : Steady s s') (g : Nat) : s'.pch g = s.pch g := by rw [State.pch, State.pch, h.rest]

theorem Steady.pool {s s' : State} (h : Steady s s') : s'.pool = s.pool := by rw [h.rest]

theorem Steady.queues {s s' : State} (h : Steady s s') : s'.queues = s.queues := by rw [h.rest]

theorem Steady.over {α : Type} {f : State → α → State} (h : ∀ s x, Steady s (f s x)) (l : List α) (s : State) : Steady s (overList l s f) := by
  induction l generalizing s with
  | nil => exact .refl s
  | cons a l ih => exact (h s a).trans (ih _)

theorem Steady.over_fst {α β : Type} {f : State × β → α → State × β} (h : ∀ r x, Steady r.1 (f r x).1) (l : List α) (r : State × β) :
    Steady r.1 (overList l r f).1 := by
  induction l generalizing r with
  | nil => exact .refl _
  | cons a l ih => exact (h r a).trans (ih _)

/-- Parts of the state besides the workgroups. -/
theorem Steady.of_wgs {s s' : State} (hd : s' = { s with
    mem := s'.mem, cores := s'.cores, wgs := s'.wgs, regs := s'.regs, msix := s'.msix, hostLines := s'.hostLines, nextPass := s'.nextPass
    free := s'.free }) (hw : s'.wgs = s.wgs) : Steady s s' :=
  ⟨hd, fun t c => by rw [State.wg, State.wg, hw]⟩

/-- The crews of a workgroup keep their forced returns. -/
def KeepsForced (f : Workgroup → Workgroup) : Prop := ∀ w c, ((f w).crew c).forced = (w.crew c).forced

theorem Steady.updWg (s : State) (t : Nat) {f : Workgroup → Workgroup} (h : KeepsForced f) : Steady s (s.updWg t f) := by
  refine ⟨rfl, fun u c => ?_⟩
  by_cases hu : u = t
  · subst hu
    rw [State.wg_updWg_self]
    exact h _ c
  · rw [State.wg_updWg_ne _ _ hu]

theorem KeepsForced.of_crews {f : Workgroup → Workgroup} (h : ∀ w, (f w).crews = w.crews) : KeepsForced f := fun w c => by
  rw [Workgroup.crew, Workgroup.crew, h]

theorem KeepsForced.over {α : Type} {f : Workgroup → α → Workgroup} (h : ∀ x, KeepsForced fun w => f w x) (l : List α) :
    KeepsForced fun w => overList l w f := by
  intro w c
  induction l generalizing w with
  | nil => rfl
  | cons a l ih => exact (ih (f w a)).trans (h a w c)

theorem KeepsForced.updCrew (c : Nat) {f : Crew → Crew} (h : ∀ x, (f x).forced = x.forced) : KeepsForced fun w => w.updCrew c f := by
  intro w k
  rw [Workgroup.crew_updCrew]
  split
  · next hk => rw [h, hk]
  · rfl

theorem KeepsForced.mapCrews {f : Crew → Crew} (h : ∀ x, (f x).forced = x.forced) (h0 : f default = default) :
    KeepsForced fun w => { w with crews := w.crews.map fun c => (c.1, f c.2) } := by
  intro w k
  refine (congrArg Crew.forced (SMap.get_map w.crews f k h0)).trans (h _)

theorem KeepsForced.updItem (id : Nat) (f : FlightItem → FlightItem) : KeepsForced fun w => w.updItem id f :=
  .mapCrews (f := fun c => { c with flight := c.flight.map fun i => if i.id = id then f i else i }) (fun _ => rfl) rfl

theorem KeepsForced.finishItem (id : Nat) : KeepsForced fun w => w.finishItem id := by
  intro w c
  refine (KeepsForced.mapCrews (f := fun c => { c with flight := countOff c.flight }) (fun _ => rfl) rfl _ c).trans ?_
  exact KeepsForced.updItem id _ w c

theorem KeepsForced.landReg (id l code : Nat) (v : Word) : KeepsForced fun w => w.landReg id l code v := by
  intro w c
  refine (KeepsForced.updItem id (fun i => { i with olds := (l, code, (w.lane l).reg code) :: i.olds }) _ c).trans ?_
  rfl

theorem KeepsForced.landLane (i : FlightItem) (d : Sel) (l : Nat) (ws : List Word) : KeepsForced fun w => w.landLane i d l ws := by
  intro w c
  unfold Workgroup.landLane
  split
  · rfl
  · refine KeepsForced.over (fun p w c => ?_) _ w c
    dsimp only
    split
    · rfl
    · exact KeepsForced.landReg i.id l _ p.1 w c

theorem KeepsForced.landStat (i : FlightItem) : KeepsForced fun w => w.landStat i := by
  intro w c
  unfold Workgroup.landStat
  split
  · rfl
  · split
    · dsimp only
      split
      · refine KeepsForced.updCrew _ ?_ w c
        exact fun _ => rfl
      · rfl
    · rfl
  · exact KeepsForced.over (fun p => KeepsForced.landLane i _ _ _) _ w c

theorem Steady.physWrite (s : State) (core : Option Nat) (a : Nat) (bs : List Byte) : Steady s (s.physWrite core a bs) := by
  refine ⟨?_, fun t c => ?_⟩
  · unfold State.physWrite
    split <;> rfl
  · rw [(Calm.physWrite s core a bs t).crew]

theorem Steady.regStore (s : State) (who : RegWriter) (off : Nat) (v : Dword) : Steady s (s.regStore who off v) := by
  refine .of_wgs ?_ ?_
  all_goals
    unfold State.regStore
    dsimp only
    repeat' split
    all_goals rfl

theorem Steady.descNeed (s : State) (core d : Nat) : Steady s (s.descNeed core d) := by
  refine .of_wgs ?_ ?_
  all_goals
    unfold State.descNeed State.descLoad
    repeat' split
    all_goals rfl

theorem Steady.hostHold (s : State) (a n : Nat) : Steady s (s.hostHold a n) := by
  unfold State.hostHold
  split <;> exact .of_wgs rfl rfl

theorem Steady.mcLater (s : State) (t c : Nat) (m : Nat × Nat × Nat) : Steady s (s.mcLater t c m) :=
  Steady.trans (b := s.logMc m.1 m.2.1 m.2.2) (.of_wgs rfl rfl) (.updWg _ t (.updCrew c fun _ => rfl))

theorem Steady.homeStore (s : State) (t c a : Nat) (bs : List Byte) : Steady s (s.homeStore t c a bs) := by
  unfold State.homeStore
  split
  · exact .regStore ..
  · split
    · exact (Steady.descNeed s _ _).trans (.of_wgs rfl rfl)
    · exact .refl s
  · split
    · exact .mcLater ..
    · exact (Steady.physWrite ..).trans (.hostHold ..)

theorem Steady.putSpans (s : State) (l : List Span) (bs : List Byte) : Steady s (s.putSpans l bs) := by
  unfold State.putSpans
  refine .over_fst (r := (s, bs)) (fun r x => ?_) l
  split
  · exact .physWrite ..
  · exact .refl _

theorem Steady.locStore (s : State) (t c : Nat) (x : Loc) (bs : List Byte) : Steady s (s.locStore t c x bs) := by
  unfold State.locStore
  split
  · exact .homeStore ..
  · split
    · exact .mcLater ..
    · next u o _ _ =>
      have hwin := Steady.updWg s u (f := fun w => { w with win := Memory.write w.win o bs }) (.of_crews fun _ => rfl)
      exact hwin.trans (.putSpans ..)

theorem Steady.l1Fill (s : State) (t line : Nat) : Steady s (s.l1Fill t line) := by
  unfold State.l1Fill
  dsimp only
  split
  · exact .refl s
  · have hset : ∀ m, Steady s { s.setWg t { s.wg t with l1 := m } with free := s.free + 1 } := fun m =>
      Steady.trans (.updWg s t (f := fun w => { w with l1 := m }) (.of_crews fun _ => rfl)) (.of_wgs rfl rfl)
    exact hset _

theorem Steady.l1Read (s : State) (t a n : Nat) : Steady s (s.l1Read t a n).1 := .over (fun s ln => .l1Fill s t ln) _ _

theorem Steady.l1Forget (s : State) (t a n : Nat) : Steady s (s.l1Forget t a n) := by
  unfold State.l1Forget
  split
  · exact .refl s
  · exact .updWg s t (.of_crews fun _ => rfl)

theorem Steady.laneBytes (s : State) (t : Nat) (l1 : Bool) (xs : List Span) : Steady s (s.laneBytes t l1 xs).1 := by
  unfold State.laneBytes
  refine .over_fst (r := (s, [])) (fun r x => ?_) xs
  split
  · split
    · exact (Steady.l1Read ..).trans (.hostHold ..)
    · exact (Steady.l1Forget ..).trans (.hostHold ..)
  · exact .refl _

theorem Steady.loadLane (s : State) (t : Nat) (x : LoadLane) : Steady s (s.loadLane t x).1 := by
  unfold State.loadLane
  split
  · exact .laneBytes ..
  · refine .over_fst (r := (s, _)) (fun r e => ?_) _
    exact (Steady.laneBytes ..).trans (.laneBytes ..)

theorem Steady.performLoad (s : State) (t : Nat) (i : FlightItem) (w : Width) (d : Option Sel) (lanes : List LoadLane) :
    Steady s (s.performLoad t i w d lanes) := by
  refine .over (fun s x => ?_) lanes s
  have hsum : Steady s ((s.loadLane t x).1.updWg t fun g => g.sumUp (s.loadLane t x).2.2 0 0) :=
    (Steady.loadLane s t x).trans (.updWg _ t (.of_crews fun _ => rfl))
  dsimp only
  split
  · exact hsum.trans (.updWg _ t fun _ _ => KeepsForced.landLane ..)
  · exact hsum

theorem Steady.atomLane (s : State) (t c : Nat) (op : AtomOp) (w : Width) (x : AtomLane) : Steady s (s.atomLane t c op w x).1 :=
  (Steady.locStore ..).trans (.updWg _ t (.of_crews fun _ => rfl))

theorem Steady.arrive (s : State) (t k a b : Nat) : Steady s (s.arrive t k a b) := by
  unfold State.arrive
  dsimp only
  split
  · exact .refl s
  · have hbar := Steady.updWg s t (f := fun w => { w with barriers := w.barriers.upd k fun x => x.add a b 0 }) (.of_crews fun _ => rfl)
    split
    · exact hbar
    · exact hbar.trans (.of_wgs rfl rfl)

theorem Steady.performOp (s : State) (t c : Nat) (i : FlightItem) : Steady s (s.performOp t c i) := by
  unfold State.performOp
  split
  case h_1 => exact .performLoad ..
  case h_2 => exact .over (fun s x => .over (fun s r => .locStore ..) _ s) _ s
  case h_3 w d lanes _ =>
    refine .over (fun s x => ?_) lanes s
    dsimp only
    split
    · exact (Steady.atomLane ..).trans (.updWg _ t fun _ _ => KeepsForced.landLane ..)
    · exact .atomLane ..
  case h_4 target k n b lanes _ =>
    dsimp only
    refine Steady.trans (.updWg s t (f := fun w => overList lanes w fun w l => w.updLane l fun x => { x with
      wpar := setBit x.wpar k (((s.wg target).barriers.get k).phase.getLsbD 0)
      arrived := if target = t then x.arrived.set k (((s.wg target).barriers.get k).phase.toNat + 1) else x.arrived }) ?_) (.arrive ..)
    exact .over (f := fun w l => w.updLane l fun x => { x with
      wpar := setBit x.wpar k (((s.wg target).barriers.get k).phase.getLsbD 0)
      arrived := if target = t then x.arrived.set k (((s.wg target).barriers.get k).phase.toNat + 1) else x.arrived })
      (fun _ => .of_crews fun _ => rfl) lanes
  case h_5 rs _ =>
    refine .over (fun s r => ?_) rs s
    dsimp only
    refine Steady.trans (Steady.trans ?_ (.laneBytes ..)) (.updWg _ t (.of_crews fun _ => rfl))
    split
    · exact .mcLater ..
    · exact .refl s
  case h_6 =>
    refine .over (fun s x => ?_) _ s
    exact Steady.trans ((Steady.loadLane s t x).trans (.updWg _ t (f := fun g => g.sumUp (s.loadLane t x).2.2 0 0) (.of_crews fun _ => rfl)))
      (.of_wgs rfl rfl)
  case h_7 => exact .of_wgs rfl rfl
  all_goals exact .refl s

theorem Steady.l1Drop (s : State) (t : Nat) : Steady s (s.l1Drop t) := .updWg s t (.of_crews fun _ => rfl)

theorem Steady.performHere (s : State) (t c : Nat) (i : FlightItem) : Steady s (s.performHere t c i) := by
  have hdrop : ∀ s : State, Steady s (if i.ord.isAcq && decide (scopeNum i.scope ≥ 2) then s.l1Drop t else s) := by
    intro s
    split
    · exact .l1Drop s t
    · exact .refl s
  refine Steady.trans ?_ (.updWg _ t (.finishItem i.id))
  exact ((hdrop s).trans ((Steady.performOp ..).trans (.updWg _ t (.landStat i)))).trans (hdrop _)

theorem Steady.sendHome (s : State) (l : List (Nat × Nat × FlightItem)) : Steady s (s.sendHome l) := by
  refine .over (fun s p => ?_) l s
  split
  · exact .performHere ..
  · exact .refl s

theorem Steady.passItems (s : State) (l : List (Nat × Nat)) (sc : Scope) (mates : Nat → List Nat) : Steady s (s.passItems l sc mates) := by
  refine .over (fun s p => ?_) l s
  have hitem := Steady.updWg s p.1 (f := fun w => w.updItem p.2 fun j => j.passAt sc (mates p.1) s.nextPass) (KeepsForced.updItem _ _)
  exact hitem.trans (.of_wgs rfl rfl)

theorem Steady.passOver (s : State) (t : Nat) (i : FlightItem) : Steady s (s.passOver t i) := by
  unfold State.passOver
  split
  · exact .refl s
  · exact (Steady.passItems ..).trans (.passItems ..)

theorem Steady.perform (s : State) (t c : Nat) (i : FlightItem) : Steady s (s.perform t c i) :=
  ((Steady.sendHome ..).trans (.passOver ..)).trans (.performHere ..)

theorem Steady.settleFor (s : State) (t : Nat) (x : FlightItem) : Steady s (s.settleFor t x).1 := by
  unfold State.settleFor
  dsimp only
  have hr := fun xs => Steady.over_fst (r := (s, (none : Option (Nat × Nat))))
    (f := fun acc (j : Nat × FlightItem) => match acc.2 with
      | some p => (acc.1, some p)
      | none => if acc.1.mayPerform t j.2 then (acc.1.perform t j.1 j.2, none) else (acc.1, some (j.1, j.2.id)))
    (fun r j => by
      split
      · exact .refl _
      · split
        · exact .perform ..
        · exact .refl _) xs
  split
  · exact hr _
  · exact (hr _).trans ((Steady.sendHome ..).trans (.passOver ..))

end Sys2Proof.Machine
end

section
/-! SUPPORT. Performing an item of known operation: what its bytes and registers are then, and the statement about IN_FLIGHT_COMPLETE. -/

namespace Sys2Proof.Machine

open Sys2Proof Sys2Proof.Safety

-- One proof at a time: side by side they need more threads than a check's memory holds.
set_option Elab.async false

/-! ### What stands around an operation -/

/-- Only items in flight, copies of carve-outs and the count of passes have changed. -/
structure FliesOn (s s' : State) : Prop where
  rest : s' = { s with wgs := s'.wgs, nextPass := s'.nextPass }
  wg : ∀ u, s'.wg u = { s.wg u with l1 := (s'.wg u).l1, crews := (s'.wg u).crews }
  crew : ∀ u c, (s'.wg u).crew c = { (s.wg u).crew c with flight := ((s'.wg u).crew c).flight }

theorem FliesOn.refl (s : State) : FliesOn s s := ⟨rfl, fun _ => rfl, fun _ _ => rfl⟩

theorem FliesOn.trans {a b c : State} (h : FliesOn a b) (k : FliesOn b c) : FliesOn a c where
  rest := by rw [k.rest, h.rest]
  wg u := by rw [k.wg, h.wg]
  crew u n := by rw [k.crew, h.crew]

theorem FliesOn.over {α : Type} {f : State → α → State} (h : ∀ s x, FliesOn s (f s x)) (l : List α) (s : State) : FliesOn s (overList l s f) := by
  induction l generalizing s with
  | nil => exact .refl s
  | cons a l ih => exact (h s a).trans (ih _)

/-- A change of a workgroup that touches only what flies and copies of its carve-out. -/
structure Workgroup.FliesOn (w w' : Workgroup) : Prop where
  rest : w' = { w with l1 := w'.l1, crews := w'.crews }
  crew : ∀ c, w'.crew c = { w.crew c with flight := (w'.crew c).flight }

theorem FliesOn.updWg (s : State) (t : Nat) {f : Workgroup → Workgroup} (h : ∀ w : Workgroup, w.FliesOn (f w)) : FliesOn s (s.updWg t f) := by
  refine ⟨rfl, fun u => ?_, fun u c => ?_⟩ <;> by_cases hu : u = t
  · subst hu
    rw [State.wg_updWg_self]
    exact (h _).rest
  · rw [State.wg_updWg_ne _ _ hu]
  · subst hu
    rw [State.wg_updWg_self]
    exact (h _).crew c
  · rw [State.wg_updWg_ne _ _ hu]

theorem Workgroup.FliesOn.flights (w : Workgroup) (f : List FlightItem → List FlightItem) (h : f [] = []) :
    w.FliesOn { w with crews := w.crews.map fun c => (c.1, { c.2 with flight := f c.2.flight }) } := by
  refine ⟨rfl, fun c => ?_⟩
  have hget : ∀ c, ({ w with crews := w.crews.map fun c => (c.1, { c.2 with flight := f c.2.flight }) } : Workgroup).crew c =
      { w.crew c with flight := f (w.crew c).flight } := fun c =>
    SMap.get_map w.crews (fun x => { x with flight := f x.flight }) c (by rw [show (default : Crew).flight = [] from rfl, h]; rfl)
  rw [hget]

theorem Workgroup.FliesOn.updItem (w : Workgroup) (id : Nat) (f : FlightItem → FlightItem) : w.FliesOn (w.updItem id f) :=
  .flights w (List.map fun i => if i.id = id then f i else i) rfl

theorem Workgroup.FliesOn.finishItem (w : Workgroup) (id : Nat) : w.FliesOn (w.finishItem id) := by
  have h := Workgroup.FliesOn.updItem w id fun i => { i with done := true }
  have k := Workgroup.FliesOn.flights (w.updItem id fun i => { i with done := true }) countOff rfl
  refine ⟨?_, fun c => ?_⟩
  · exact k.rest.trans (by rw [h.rest]; rfl)
  · refine (k.crew c).trans ?_
    rw [h.crew c]
    rfl

theorem FliesOn.l1Drop (s : State) (t : Nat) : FliesOn s (s.l1Drop t) := .updWg s t fun _ => ⟨rfl, fun _ => rfl⟩

theorem FliesOn.passItems (s : State) (l : List (Nat × Nat)) (sc : Scope) (mates : Nat → List Nat) : FliesOn s (s.passItems l sc mates) := by
  refine .over (fun s p => ?_) l s
  have hitem := FliesOn.updWg s p.1 (f := fun w => w.updItem p.2 fun j => j.passAt sc (mates p.1) s.nextPass) fun w => .updItem w _ _
  exact ⟨rfl, hitem.wg, hitem.crew⟩

theorem FliesOn.passOver (s : State) (t : Nat) (i : FlightItem) : FliesOn s (s.passOver t i) := by
  unfold State.passOver
  split
  · exact .refl s
  · exact (FliesOn.passItems ..).trans (.passItems ..)

/-- Performing an item without statuses is its operation, before and after which only what flies changes; the item is done then. -/
theorem State.performed_around (s : State) (t c : Nat) {i : FlightItem} (hstat : i.stat = none) :
    ∃ s2 s3, FliesOn (s.sendHome (s.needsHome t i)) s2 ∧ s3 = s2.performOp t c i ∧ FliesOn s3 (s.perform t c i) := by
  have hdrop : ∀ s : State, FliesOn s (if i.ord.isAcq && decide (scopeNum i.scope ≥ 2) then s.l1Drop t else s) := by
    intro s
    split
    · exact .l1Drop s t
    · exact .refl s
  have hland : ∀ s : State, (s.updWg t fun w => w.landStat i) = s.updWg t fun w => w := by
    intro s
    congr 1
    funext w
    unfold Workgroup.landStat
    rw [hstat]
  refine ⟨_, _, (FliesOn.passOver _ t i).trans (hdrop _), rfl, ?_⟩
  unfold State.perform State.performHere
  dsimp only
  rw [hland]
  refine FliesOn.trans (FliesOn.trans ?_ (hdrop _)) (.updWg _ t fun w => .finishItem w i.id)
  exact .updWg _ t fun w => ⟨rfl, fun _ => rfl⟩

theorem countOff_subset {l : List FlightItem} {j : FlightItem} (h : j ∈ countOff l) : j ∈ l := (List.mem_filter.mp h).1

/-- An item that is finished is done wherever it stands. -/
theorem Workgroup.done_finishItem (w : Workgroup) (id k : Nat) : ∀ j ∈ ((w.finishItem id).crew k).flight, j.id = id → j.done = true := by
  intro j hj hid
  have hget : ((w.finishItem id).crew k).flight = countOff ((w.crew k).flight.map fun i => if i.id = id then { i with done := true } else i) := by
    have h1 := SMap.get_map (w.updItem id fun i => { i with done := true }).crews (fun c => { c with flight := countOff c.flight }) k rfl
    have h2 := SMap.get_map w.crews (fun c => { c with flight := c.flight.map fun i => if i.id = id then { i with done := true } else i }) k rfl
    refine (congrArg Crew.flight h1).trans ?_
    exact congrArg countOff (congrArg Crew.flight h2)
  rw [hget] at hj
  obtain ⟨x, -, rfl⟩ := List.mem_map.mp (countOff_subset hj)
  split
  · rfl
  · next hne =>
    rw [if_neg hne] at hid
    exact absurd hid hne

theorem State.settleForced_of_none {s : State} {t c : Nat} (h : ((s.wg t).crew c).forced = none) : s.settleForced t c = s := by
  unfold State.settleForced
  dsimp only
  rw [h]

theorem overList_settleForced {s : State} {t : Nat} (h : NoneForced s t) (cs : List Nat) :
    overList cs s (fun s c => s.settleForced t c) = s := by
  induction cs with
  | nil => rfl
  | cons a l ih =>
    rw [overList_cons, State.settleForced_of_none (h a)]
    exact ih

/-- An item that may be performed is performed. -/
theorem exec_inFlightComplete {s : State} {t c : Nat} {i : FlightItem} (hi : (s.wg t).item? c i.id = some i) (hlife : (s.wg t).life ≠ .saved)
    (hmay : s.mayPerform t i = true) (hforced : NoneForced s t) :
    exec (.inFlightComplete t c i.id) s = .next ((s.perform t c i).spent s.free) := by
  have hnone : NoneForced (s.perform t c i) t := fun k => ((Steady.perform s t c i).forced t k).trans (hforced k)
  change execInFlightComplete t c i.id s = _
  unfold execInFlightComplete
  rw [hi]
  dsimp only
  rw [if_neg hlife, if_neg (by simp [hmay]), overList_settleForced hnone]

/-! ### Data that reaches registers -/

theorem Workgroup.reg_landReg (w : Workgroup) (id l code : Nat) (v : Word) (m k : Nat) :
    ((w.landReg id l code v).lane m).reg k = if m = l ∧ k = code then v else (w.lane m).reg k := by
  have hlane : (w.landReg id l code v).lane m = (w.updLane l fun x => x.setReg code v).lane m := rfl
  rw [hlane]
  by_cases hm : m = l
  · subst hm
    rw [Workgroup.lane_updLane_self, Lane.reg_setReg]
    simp
  · rw [Workgroup.lane_updLane_ne _ _ hm, if_neg (fun h => hm h.1)]

/-- One register of those that data reaches: as `landLane` takes them, with their numbers. -/
def Workgroup.landAt (i : FlightItem) (l c : Nat) (w : Workgroup) (p : Word × Nat) : Workgroup :=
  if i.skip.contains (l, c + p.2) then w else w.landReg i.id l (c + p.2) p.1

theorem Workgroup.reg_landAt (w : Workgroup) (i : FlightItem) (l c : Nat) (p : Word × Nat) (m k : Nat) :
    ((w.landAt i l c p).lane m).reg k = if m = l ∧ k = c + p.2 ∧ (l, k) ∉ i.skip then p.1 else (w.lane m).reg k := by
  unfold Workgroup.landAt
  split
  next h =>
    rw [if_neg]
    rintro ⟨-, rfl, hskip⟩
    exact hskip (by simpa using h)
  next h =>
    rw [Workgroup.reg_landReg]
    refine if_congr ?_ rfl rfl
    constructor
    · rintro ⟨hm, rfl⟩
      exact ⟨hm, rfl, by simpa using h⟩
    · exact fun h => ⟨h.1, h.2.1⟩

theorem Workgroup.reg_landAll (i : FlightItem) (l c : Nat) (ws : List Word) (o : Nat) (w : Workgroup) (m k : Nat) :
    ((overList (ws.zipIdx o) w (Workgroup.landAt i l c)).lane m).reg k =
      if m = l ∧ (c + o ≤ k ∧ k < c + o + ws.length) ∧ (l, k) ∉ i.skip then ws.getD (k - (c + o)) 0 else (w.lane m).reg k := by
  induction ws generalizing o w with
  | nil =>
    rw [if_neg (by rintro ⟨-, ⟨h1, h2⟩, -⟩; rw [List.length_nil] at h2; omega)]
    rfl
  | cons x l' ih =>
    rw [List.zipIdx_cons, overList_cons, ih, Workgroup.reg_landAt]
    dsimp only
    by_cases hk : k = c + o
    · subst hk
      rw [if_neg (by omega)]
      refine if_congr (by simp) (by simp) rfl
    · by_cases hr : m = l ∧ (c + (o + 1) ≤ k ∧ k < c + (o + 1) + l'.length) ∧ (l, k) ∉ i.skip
      · obtain ⟨hm, ⟨h1, h2⟩, hs⟩ := hr
        rw [if_pos ⟨hm, ⟨h1, h2⟩, hs⟩, if_pos ⟨hm, ⟨by omega, by simp; omega⟩, hs⟩, show k - (c + o) = k - (c + (o + 1)) + 1 by omega,
          List.getD_cons_succ]
      · rw [if_neg hr, if_neg (by tauto), if_neg]
        rintro ⟨hm, ⟨h1, h2⟩, hs⟩
        rw [List.length_cons] at h2
        exact hr ⟨hm, ⟨by omega, by omega⟩, hs⟩

/-- Data of a load or an atomic has reached the destination of a lane, but for registers that a later write keeps; every other
register stands. -/
def Landed (w w' : Workgroup) (i : FlightItem) (l : Nat) (d : Option Sel) (n : Nat) (ws : List Word) : Prop :=
  (∀ m k, (∀ q, d = some q → m = l → k ∉ codesOf (q, n)) → (w'.lane m).reg k = (w.lane m).reg k) ∧
    ∀ q b, d = some q → regCode q = some b → ∀ j, j < n → (l, b + j) ∉ i.skip → (w'.lane l).reg (b + j) = ws.getD j 0

theorem Landed.landLane (w : Workgroup) (i : FlightItem) (l : Nat) (q : Sel) (ws : List Word) :
    Landed w (w.landLane i q l ws) i l (some q) ws.length ws := by
  unfold Workgroup.landLane
  split
  next hq => exact ⟨fun _ _ _ => rfl, fun q' b he hb => by cases he; rw [hq] at hb; cases hb⟩
  next c hq =>
    have hreg := Workgroup.reg_landAll i l c ws 0 w
    refine ⟨fun m k hk => ?_, fun q' b he hb j hj hskip => ?_⟩
    · refine (hreg m k).trans (if_neg ?_)
      rintro ⟨hm, ⟨h1, h2⟩, -⟩
      refine hk q rfl hm ?_
      simp only [codesOf, hq, List.mem_map, List.mem_range]
      exact ⟨k - c, by omega, by omega⟩
    · cases he
      cases hq.symm.trans hb
      refine (hreg l (c + j)).trans ((if_pos ⟨rfl, ⟨by omega, by omega⟩, hskip⟩).trans ?_)
      rw [show c + j - (c + 0) = j by omega]

theorem Landed.none (w : Workgroup) (i : FlightItem) (l n : Nat) (ws : List Word) : Landed w w i l none n ws :=
  ⟨fun _ _ _ => rfl, fun _ _ he => by cases he⟩

/-- Lanes as they are in other workgroups before and after. -/
theorem Landed.congr {w w' v v' : Workgroup} {i : FlightItem} {l n : Nat} {d : Option Sel} {ws : List Word} (h : Landed w w' i l d n ws)
    (hb : v.lanes = w.lanes) (ha : v'.lanes = w'.lanes) : Landed v v' i l d n ws := by
  have hl : ∀ m, v.lane m = w.lane m := fun m => congrArg (SMap.get · m) hb
  have hl' : ∀ m, v'.lane m = w'.lane m := fun m => congrArg (SMap.get · m) ha
  exact ⟨fun m k hk => by rw [hl, hl']; exact h.1 m k hk, fun q b he hb j hj hs => by rw [hl']; exact h.2 q b he hb j hj hs⟩

/-! ### Operations on device memory -/

theorem State.homeLoad_dram {a : Nat} (ha : aperture a = some 0) (s : State) (n : Nat) : s.homeLoad a n = s.rdBytes a n := by
  unfold State.homeLoad
  rw [ha]
  rfl

theorem State.mcOf_dram {a : Nat} (ha : aperture a = some 0) {s : State} (hd : s.damage = []) (n : Nat) : s.mcOf ⟨.phys a, n⟩ = none := by
  unfold State.mcOf State.peerAbsent
  dsimp only
  rw [ha, hd]
  rfl

theorem State.hostHold_dram {a : Nat} (ha : aperture a = some 0) (s : State) (n : Nat) : s.hostHold a n = s := by
  unfold State.hostHold
  rw [ha]
  rfl

theorem State.homeStore_dram {a : Nat} (ha : aperture a = some 0) {s : State} (hd : s.damage = []) (t c : Nat) (bs : List Byte) :
    s.homeStore t c a bs = s.physWrite (some (s.wg t).core) a bs := by
  unfold State.homeStore
  rw [ha]
  dsimp only
  rw [State.mcOf_dram ha hd]
  exact State.hostHold_dram ha _ _

theorem State.mem_physWrite (s : State) (core : Option Nat) (a : Nat) (bs : List Byte) :
    (s.physWrite core a bs).mem = Memory.write s.mem a bs := by
  unfold State.physWrite
  split
  next h =>
    rw [List.isEmpty_iff.mp h]
    rfl
  · rfl

theorem stored_physWrite (s : State) (core : Option Nat) (a : Nat) (bs : List Byte) : Stored s (s.physWrite core a bs) a bs := by
  intro x
  rw [State.mem_physWrite]
  exact Memory.get_write ..

theorem State.lanes_physWrite (s : State) (core : Option Nat) (a : Nat) (bs : List Byte) (u : Nat) :
    ((s.physWrite core a bs).wg u).lanes = (s.wg u).lanes := by
  rw [(Calm.physWrite s core a bs u).rest]

theorem State.lanes_l1Forget (s : State) (t a n u : Nat) : ((s.l1Forget t a n).wg u).lanes = (s.wg u).lanes := by
  unfold State.l1Forget
  split
  · rfl
  · by_cases hu : u = t
    · subst hu
      rw [State.wg_updWg_self]
    · rw [State.wg_updWg_ne _ _ hu]

theorem length_regWords (n : Nat) (bs : List Byte) : (regWords n bs).length = n := by
  simp [regWords]

/-- Data for the destination of a lane, where there is one. -/
def State.landIn (s : State) (t : Nat) (i : FlightItem) (l : Nat) (d : Option Sel) (ws : List Word) : State :=
  match d with
  | some q => s.updWg t fun g => g.landLane i q l ws
  | none => s

theorem State.mem_landIn (s : State) (t : Nat) (i : FlightItem) (l : Nat) (d : Option Sel) (ws : List Word) :
    (s.landIn t i l d ws).mem = s.mem := by
  cases d <;> rfl

theorem Landed.landIn (s : State) (t : Nat) (i : FlightItem) (l : Nat) (d : Option Sel) {n : Nat} {ws : List Word} (h : ws.length = n) :
    Landed (s.wg t) ((s.landIn t i l d ws).wg t) i l d n ws := by
  cases d with
  | none => exact .none ..
  | some q =>
    rw [State.landIn, State.wg_updWg_self, ← h]
    exact .landLane ..

theorem State.performOp_load {s : State} {t c : Nat} {i : FlightItem} {a l n : Nat} {z : Width} {d : Option Sel}
    {sw : List (Nat × Nat × Nat × Nat)} (ha : aperture a = some 0) (hop : i.op = .load z d [⟨l, [⟨.phys a, n⟩], false, [], [], {}⟩] sw) :
    s.performOp t c i = ((s.l1Forget t a n).updWg t fun g => g.sumUp 0 0 0).landIn t i l d (regWords (wspan z) (s.rdBytes a n)) := by
  have hlane : s.loadLane t ⟨l, [⟨.phys a, n⟩], false, [], [], {}⟩ = (s.l1Forget t a n, s.rdBytes a n, 0) := by
    change (((s.l1Forget t a n).hostHold a n, [] ++ s.homeLoad a n).1, ((s.l1Forget t a n).hostHold a n, [] ++ s.homeLoad a n).2, (0 : FFlags)) = _
    rw [State.hostHold_dram ha, State.homeLoad_dram ha]
    rfl
  unfold State.performOp
  rw [hop]
  dsimp only [State.performLoad, overList, List.foldl]
  rw [hlane]
  cases d <;> rfl

theorem State.performOp_store {s : State} {t c : Nat} {i : FlightItem} {a l : Nat} {bs : List Byte} (ha : aperture a = some 0)
    (hd : s.damage = []) (hop : i.op = .store [⟨l, [(.phys a, bs)]⟩]) :
    s.performOp t c i = s.physWrite (some (s.wg t).core) a bs := by
  unfold State.performOp
  rw [hop]
  dsimp only [overList, List.foldl]
  exact State.homeStore_dram ha hd t _ bs

theorem State.performOp_atomic {s : State} {t c : Nat} {i : FlightItem} {a l : Nat} {op : AtomOp} {z : Width} {d : Option Sel} {b x : Dword}
    (ha : aperture a = some 0) (hd : s.damage = []) (hop : i.op = .atomic op z d [⟨l, .phys a, b, x⟩]) :
    let n := wspan z * 4
    let old := natOfBytes (s.rdBytes a n)
    let r := atomNew op (8 * n) old (b.toNat % 2 ^ (8 * n)) (x.toNat % 2 ^ (8 * n))
    s.performOp t c i = (((s.physWrite (some (s.wg t).core) a (bytesOfNat n r.1)).updWg t fun g => g.sumUp r.2 0 0)).landIn t i l d
      (regWords (wspan z) (bytesOfNat 16 old)) := by
  intro n old r
  have hold : s.atomOld l n (.phys a) = old := by
    unfold State.atomOld State.locLoad
    rw [State.mcOf_dram ha hd]
    exact congrArg natOfBytes (State.homeLoad_dram ha s n)
  have hlane : s.atomLane t (((s.wg t).lane l).crew.getD c) op z ⟨l, .phys a, b, x⟩ =
      ((s.physWrite (some (s.wg t).core) a (bytesOfNat n r.1)).updWg t fun g => g.sumUp r.2 0 0, old) := by
    unfold State.atomLane
    dsimp only
    rw [hold]
    exact congrArg (fun u : State => (u.updWg t fun g => g.sumUp r.2 0 0, old)) (State.homeStore_dram ha hd t _ _)
  unfold State.performOp
  rw [hop]
  dsimp only [overList, List.foldl]
  rw [hlane]
  cases d <;> rfl

/-! ### Arrivals -/

theorem State.arrive_present {s : State} {t : Nat} (h : (s.wg t).life ≠ .absent) (k a b : Nat) :
    (s.arrive t k a b).mem = s.mem ∧ (∀ u, ((s.arrive t k a b).wg u).lanes = (s.wg u).lanes) ∧
      ((s.arrive t k a b).wg t).barriers = (s.wg t).barriers.upd k (fun x => x.add a b 0) ∧
      ((s.wg t).life ≠ .saved → ((s.arrive t k a b).core (s.wg t).core).late = true) := by
  have hlanes : ∀ u, ((s.updWg t fun w => { w with barriers := w.barriers.upd k fun x => x.add a b 0 }).wg u).lanes = (s.wg u).lanes := by
    intro u
    by_cases hu : u = t
    · subst hu
      rw [State.wg_updWg_self]
    · rw [State.wg_updWg_ne _ _ hu]
  have hbars : ((s.updWg t fun w => { w with barriers := w.barriers.upd k fun x => x.add a b 0 }).wg t).barriers =
      (s.wg t).barriers.upd k (fun x => x.add a b 0) := by
    rw [State.wg_updWg_self]
  unfold State.arrive
  dsimp only
  rw [if_neg h]
  split
  next hs => exact ⟨rfl, hlanes, hbars, fun hne => absurd hs hne⟩
  next => exact ⟨rfl, hlanes, hbars, fun _ => by rw [State.endIssues, State.core_updCore_self]⟩

/-- The lanes that arrive take the phase as their parity. -/
def Workgroup.arriving (ls : List Nat) (k : Nat) (ph own : Bool) (now : Nat) (w : Workgroup) : Workgroup :=
  overList ls w fun w l => w.updLane l fun x => { x with
    wpar := setBit x.wpar k ph
    arrived := if own then x.arrived.set k now else x.arrived }

theorem Workgroup.arriving_rest (ls : List Nat) (k : Nat) (ph own : Bool) (now : Nat) (w : Workgroup) :
    w.arriving ls k ph own now = { w with lanes := (w.arriving ls k ph own now).lanes } := by
  induction ls generalizing w with
  | nil => rfl
  | cons a l ih => exact (ih _).trans rfl

theorem Workgroup.reg_arriving (ls : List Nat) (k : Nat) (ph own : Bool) (now : Nat) (w : Workgroup) (l c : Nat) :
    ((w.arriving ls k ph own now).lane l).reg c = (w.lane l).reg c := by
  induction ls generalizing w with
  | nil => rfl
  | cons a ls ih =>
    refine (ih _).trans ?_
    rw [Workgroup.lane_updLane]
    split
    next h => rw [h]; rfl
    next => rfl

theorem State.performOp_arrive {s : State} {t c u k n b : Nat} {ls : List Nat} {i : FlightItem} (hop : i.op = .arrive u k n b ls) :
    s.performOp t c i = (s.updWg t (Workgroup.arriving ls k (((s.wg u).barriers.get k).phase.getLsbD 0) (decide (u = t))
      (((s.wg u).barriers.get k).phase.toNat + 1))).arrive u k n b := by
  unfold State.performOp
  rw [hop]
  by_cases hu : u = t
  · simp only [hu, if_true, decide_true]
    rfl
  · simp only [hu, if_false, decide_false]
    rfl

/-! ### The statement -/

section
variable {s s' : State} (h : FliesOn s s')
include h

theorem FliesOn.mem : s'.mem = s.mem := by rw [h.rest]

theorem FliesOn.damage : s'.damage = s.damage := by rw [h.rest]

theorem FliesOn.core (c : Nat) : s'.core c = s.core c := by rw [State.core, State.core, h.rest]

theorem FliesOn.lanes (u : Nat) : (s'.wg u).lanes = (s.wg u).lanes := by rw [h.wg]

theorem FliesOn.wgCore (u : Nat) : (s'.wg u).core = (s.wg u).core := by rw [h.wg]

theorem FliesOn.life (u : Nat) : (s'.wg u).life = (s.wg u).life := by rw [h.wg]

theorem FliesOn.barriers (u : Nat) : (s'.wg u).barriers = (s.wg u).barriers := by rw [h.wg]

theorem FliesOn.rdBytes (a n : Nat) : s'.rdBytes a n = s.rdBytes a n := by rw [State.rdBytes, State.rdBytes, h.mem]

theorem FliesOn.lane (u l : Nat) : (s'.wg u).lane l = (s.wg u).lane l := congrArg (SMap.get · l) (h.lanes u)

end

/-- Bytes that have been stored, seen from before and after what only moves flights. -/
theorem stored_around {s1 s2 s3 s4 : State} {a : Nat} {bs : List Byte} (h12 : FliesOn s1 s2) (h : Stored s2 s3 a bs) (h34 : FliesOn s3 s4) :
    Stored s1 s4 a bs := by
  intro x
  rw [h34.mem, h x, h12.mem]

section
variable {s : State} {t c : Nat} {i : FlightItem} (hstat : i.stat = none)
include hstat

theorem performed_load {a l n : Nat} {z : Width} {d : Option Sel} (ha : aperture a = some 0)
    (hop : i.op = .load z d [⟨l, [⟨.phys a, n⟩], false, [], [], {}⟩] []) :
    let s1 := s.sendHome (s.needsHome t i)
    MemKept s1 (s.perform t c i) ∧
      Landed (s1.wg t) ((s.perform t c i).wg t) i l d (wspan z) (regWords (wspan z) (s1.rdBytes a n)) := by
  intro s1
  obtain ⟨s2, s3, h12, h23, h34⟩ := s.performed_around t c hstat
  rw [State.performOp_load ha hop] at h23
  have hland := Landed.landIn ((s2.l1Forget t a n).updWg t fun g => g.sumUp 0 0 0) t i l d (length_regWords (wspan z) (s2.rdBytes a n))
  have hmem : s3.mem = s2.mem := by
    rw [h23, State.mem_landIn]
    exact State.l1Forget_mem ..
  refine ⟨fun x => by rw [h34.mem, hmem, h12.mem], ?_⟩
  rw [← h12.rdBytes]
  refine hland.congr ?_ ?_
  · rw [State.wg_updWg_self]
    exact (h12.lanes t).symm.trans (State.lanes_l1Forget s2 t a n t).symm
  · rw [h34.lanes, h23]

theorem performed_store {a l : Nat} {bs : List Byte} (ha : aperture a = some 0) (hd : s.damage = [])
    (hop : i.op = .store [⟨l, [(.phys a, bs)]⟩]) :
    let s1 := s.sendHome (s.needsHome t i)
    Stored s1 (s.perform t c i) a bs ∧ LaneRegsKept s1 (s.perform t c i) t := by
  intro s1
  obtain ⟨s2, s3, h12, h23, h34⟩ := s.performed_around t c hstat
  have hd2 : s2.damage = [] := h12.damage.trans ((Steady.sendHome ..).damage.trans hd)
  rw [State.performOp_store ha hd2 hop] at h23
  subst h23
  refine ⟨stored_around h12 (stored_physWrite _ _ _ _) h34, fun m k => ?_⟩
  rw [h34.lane, ← h12.lane]
  exact congrArg (fun m' : SMap Lane => (m'.get m).reg k) (State.lanes_physWrite ..)

theorem performed_atomic {a l : Nat} {op : AtomOp} {z : Width} {d : Option Sel} {b x : Dword} (ha : aperture a = some 0)
    (hd : s.damage = []) (hop : i.op = .atomic op z d [⟨l, .phys a, b, x⟩]) :
    let s1 := s.sendHome (s.needsHome t i)
    let n := wspan z * 4
    let old := natOfBytes (s1.rdBytes a n)
    Stored s1 (s.perform t c i) a (bytesOfNat n (atomNew op (8 * n) old (b.toNat % 2 ^ (8 * n)) (x.toNat % 2 ^ (8 * n))).1) ∧
      Landed (s1.wg t) ((s.perform t c i).wg t) i l d (wspan z) (regWords (wspan z) (bytesOfNat 16 old)) := by
  intro s1 n old
  obtain ⟨s2, s3, h12, h23, h34⟩ := s.performed_around t c hstat
  have hd2 : s2.damage = [] := h12.damage.trans ((Steady.sendHome ..).damage.trans hd)
  rw [State.performOp_atomic ha hd2 hop] at h23
  rw [h12.rdBytes] at h23
  generalize atomNew op (8 * (wspan z * 4)) (natOfBytes (State.rdBytes (s.sendHome (s.needsHome t i)) a (wspan z * 4)))
    (b.toNat % 2 ^ (8 * (wspan z * 4))) (x.toNat % 2 ^ (8 * (wspan z * 4))) = r at h23 ⊢
  have hput : Stored s2 s3 a (bytesOfNat n r.1) := by
    rw [h23]
    intro y
    rw [State.mem_landIn]
    exact stored_physWrite s2 _ a _ y
  refine ⟨stored_around h12 hput h34, ?_⟩
  have hland := Landed.landIn ((s2.physWrite (some (s2.wg t).core) a (bytesOfNat n r.1)).updWg t fun g => g.sumUp r.2 0 0) t i l d
    (length_regWords (wspan z) (bytesOfNat 16 old))
  refine hland.congr ?_ ?_
  · rw [State.wg_updWg_self]
    exact (h12.lanes t).symm.trans (State.lanes_physWrite ..).symm
  · rw [h34.lanes, h23]

theorem performed_arrival {u k n b : Nat} {ls : List Nat} (hop : i.op = .arrive u k n b ls) :
    let s1 := s.sendHome (s.needsHome t i)
    (s1.wg u).life ≠ .absent → MemKept s1 (s.perform t c i) ∧ LaneRegsKept s1 (s.perform t c i) t ∧
      (((s.perform t c i).wg u).barriers = (s1.wg u).barriers.upd k fun x => x.add n b 0) ∧
      ((s1.wg u).life ≠ .saved → ((s.perform t c i).core (s1.wg u).core).late = true) := by
  intro s1 hlife
  obtain ⟨s2, s3, h12, h23, h34⟩ := s.performed_around t c hstat
  rw [State.performOp_arrive hop] at h23
  generalize ((s2.wg u).barriers.get k).phase.getLsbD 0 = ph at h23
  generalize ((s2.wg u).barriers.get k).phase.toNat + 1 = now at h23
  generalize hs : s2.updWg t (Workgroup.arriving ls k ph (decide (u = t)) now) = sa at h23
  have hmem : sa.mem = s2.mem := by rw [← hs]; rfl
  have hwg : ∀ v, sa.wg v = { s2.wg v with lanes := (sa.wg v).lanes } := by
    intro v
    rw [← hs]
    by_cases hv : v = t
    · subst hv
      rw [State.wg_updWg_self]
      exact Workgroup.arriving_rest ..
    · rw [State.wg_updWg_ne _ _ hv]
  have hreg : ∀ l m, ((sa.wg t).lane l).reg m = ((s2.wg t).lane l).reg m := by
    intro l m
    rw [← hs, State.wg_updWg_self]
    exact Workgroup.reg_arriving ..
  have hlife' : (sa.wg u).life = (s1.wg u).life := by rw [hwg]; exact h12.life u
  have hbars : (sa.wg u).barriers = (s1.wg u).barriers := by rw [hwg]; exact h12.barriers u
  have hcore : (sa.wg u).core = (s1.wg u).core := by rw [hwg]; exact h12.wgCore u
  obtain ⟨am, alanes, abars, alate⟩ := State.arrive_present (s := sa) (t := u) (by rw [hlife']; exact hlife) k n b
  rw [← h23] at am alanes abars alate
  refine ⟨fun x => by rw [h34.mem, am, hmem, h12.mem], fun l m => ?_, ?_, fun hsaved => ?_⟩
  · rw [h34.lane, ← h12.lane, ← hreg]
    exact congrArg (fun m' : SMap Lane => (m'.get l).reg m) (alanes t)
  · rw [h34.barriers, abars, hbars]
  · rw [h34.core, ← hcore]
    exact alate (by rw [hlife']; exact hsaved)

end

/-- Settles O47: performing is the operation between changes of what flies only; each operation is read off, and no forced return is
there to be settled. -/
theorem itemsInFlightComplete : Obligations.ItemsInFlightComplete := by
  unfold Obligations.ItemsInFlightComplete
  intro s t c i w hi hlife hmay hforced s1
  refine ⟨_, exec_inFlightComplete hi hlife hmay hforced, fun k j hj hid => ?_, fun hstat l a ha => ⟨?_, ?_, ?_⟩, ?_⟩
  · rw [State.wg_spent, State.perform, State.performHere, State.wg_updWg_self] at hj
    exact Workgroup.done_finishItem _ _ k j hj hid
  · exact fun z d n hop => performed_load hstat ha hop
  · exact fun bs hop hd => performed_store hstat ha hd hop
  · exact fun op z d b x hop hd => performed_atomic hstat ha hd hop
  · intro u k n b ls hop hlive hstat
    obtain ⟨hmem, hregs, hbars, hlate⟩ := performed_arrival (c := c) hstat hop hlive
    refine ⟨hmem, hregs, ?_, fun j hj => ?_, hlate⟩
    · exact (congrArg (SMap.get · k) hbars).trans (SMap.get_upd_self ..)
    · exact (congrArg (SMap.get · j) hbars).trans (SMap.get_upd_ne _ _ hj)

end Sys2Proof.Machine
end

section
/-! SUPPORT. Events of the host and the links (spec/19 R440-R443, spec/11 R259-R261): doorbells, module registers, the launch ring and
accesses from outside, and the statement about them. -/

namespace Sys2Proof.Machine

open Sys2Proof Sys2Proof.Safety

-- One proof at a time: side by side they need more threads than a check's memory holds.
set_option Elab.async false

/-! ### The membership table -/

/-- The bits of a ring entry's low half that a store takes (R443). -/
theorem low_mask (j : Nat) (hj : j < 64) : (0x3FFFFF000F : Dword).getLsbD j = (decide (j < 4) || decide (16 ≤ j ∧ j < 38)) := by
  have h : ∀ j < 64, (0x3FFFFF000F : Dword).getLsbD j = (decide (j < 4) || decide (16 ≤ j ∧ j < 38)) := by decide
  exact h j hj

theorem high_mask (j : Nat) (hj : j < 64) : (0xFFFFFFFFFFFFFF : Dword).getLsbD j = decide (j < 56) := by
  have h : ∀ j < 64, (0xFFFFFFFFFFFFFF : Dword).getLsbD j = decide (j < 56) := by decide
  exact h j hj

theorem testBit_low (x j : Nat) : (bits x 0 4 + bits x 16 22 * 2 ^ 16).testBit j =
    ((decide (j < 4) || decide (16 ≤ j ∧ j < 38)) && x.testBit j) := by
  have hlt : bits x 0 4 < 2 ^ 16 := lt_of_lt_of_le (bits_lt x 0 4) (by norm_num)
  rw [Nat.add_comm, Nat.mul_comm, Nat.testBit_two_pow_mul_add _ hlt, testBit_bits, testBit_bits]
  split
  next h => simp [show ¬ 16 ≤ j by omega]
  next h =>
    rw [show 16 + (j - 16) = j by omega]
    congr 1
    have h4 : ¬ j < 4 := by omega
    simp only [h4, decide_false, Bool.false_or, decide_eq_decide]
    omega

/-- A store to the low half of a ring entry takes the fields of the low half. -/
theorem ring_low (old : BitVec 128) (v : Dword) :
    BitVec.ofNat 128 (putBits old.toNat 0 64 (bits v.toNat 0 4 + bits v.toNat 16 22 * 2 ^ 16)) =
      (old >>> 64 <<< 64) ||| (v &&& 0x3FFFFF000F).setWidth 128 := by
  refine BitVec.eq_of_getLsbD_eq fun j hj => ?_
  rw [BitVec.getLsbD_ofNat, testBit_putBits, BitVec.testBit_toNat]
  simp only [BitVec.getLsbD_or, BitVec.getLsbD_shiftLeft, BitVec.getLsbD_ushiftRight, BitVec.getLsbD_setWidth, BitVec.getLsbD_and]
  by_cases h : j < 64
  · rw [if_pos ⟨by omega, by omega⟩, Nat.sub_zero, testBit_low, low_mask j h, BitVec.testBit_toNat]
    simp [h, hj, Bool.and_comm]
  · rw [if_neg (by omega), BitVec.getLsbD_of_ge v j (by omega)]
    simp [h, hj, show 64 + (j - 64) = j by omega]

theorem wide_mask (j : Nat) (hj : j < 128) : (0xFFFFFFFFFFFFFFFF : BitVec 128).getLsbD j = decide (j < 64) := by
  have hall : (0xFFFFFFFFFFFFFFFF : BitVec 128) = BitVec.ofNat 128 (2 ^ 64 - 1) := rfl
  rw [hall, BitVec.getLsbD_ofNat, Nat.testBit_two_pow_sub_one]
  simp [hj]

/-- A store to the high half of a ring entry takes its 56 bits; `m` masks the low half. -/
theorem ring_high (old : BitVec 128) (v : Dword) {m : BitVec 128} (hm : ∀ j, j < 128 → m.getLsbD j = decide (j < 64)) :
    BitVec.ofNat 128 (putBits old.toNat 64 64 (bits v.toNat 0 56)) = (old &&& m) ||| ((v &&& 0xFFFFFFFFFFFFFF).setWidth 128 <<< 64) := by
  refine BitVec.eq_of_getLsbD_eq fun j hj => ?_
  rw [BitVec.getLsbD_ofNat, testBit_putBits, BitVec.testBit_toNat]
  simp only [BitVec.getLsbD_or, BitVec.getLsbD_shiftLeft, BitVec.getLsbD_setWidth, BitVec.getLsbD_and, hm j hj]
  by_cases h : j < 64
  · rw [if_neg (by omega)]
    simp [h, hj]
  · rw [if_pos ⟨by omega, by omega⟩, testBit_bits, high_mask (j - 64) (by omega), Nat.zero_add, BitVec.testBit_toNat]
    simp [h, hj, Bool.and_comm, show j - 64 < 128 by omega]

/-! ### Module registers -/

/-- What a store of the host or the controller leaves of the registers: each takes what its row says of the writer (R440). -/
def RegsTook (who : RegWriter) (off : Nat) (v : Dword) (r r' : ModRegs) : Prop :=
  r' = { r with
    domtab := if off = 0x10 ∧ who = .pmc then v.toNat % 2 ^ 52 / 128 * 128 else r.domtab
    ringpos := if off = 0x18 ∧ who = .pmc then v.setWidth 6 else r.ringpos
    lrbase := if off = 0x20 then v.toNat % 2 ^ 52 / 64 * 64 else r.lrbase
    lrlog := if off = 0x28 then v.setWidth 5 else r.lrlog
    ring := r'.ring } ∧
  ∀ k, r'.ring.get k = if 0x400 ≤ off ∧ off < 0x800 ∧ k = (off - 0x400) / 16 then
    (if off / 8 % 2 = 0 then (r.ring.get k >>> 64 <<< 64) ||| (v &&& 0x3FFFFF000F).setWidth 128
      else (r.ring.get k &&& 0xFFFFFFFFFFFFFFFF) ||| ((v &&& 0xFFFFFFFFFFFFFF).setWidth 128 <<< 64)) else r.ring.get k

/-- A store to no register that the host or the controller writes leaves them all. -/
theorem RegsTook.none {who : RegWriter} {off : Nat} {v : Dword} (r : ModRegs) (h10 : off = 0x10 → who ≠ .pmc) (h18 : off = 0x18 → who ≠ .pmc)
    (h20 : off ≠ 0x20) (h28 : off ≠ 0x28) (hring : ¬ (0x400 ≤ off ∧ off < 0x800)) : RegsTook who off v r r := by
  refine ⟨?_, fun k => (if_neg fun h => hring ⟨h.1, h.2.1⟩).symm⟩
  rw [if_neg (fun h => h10 h.1 h.2), if_neg (fun h => h18 h.1 h.2), if_neg h20, if_neg h28]

/-- A store to an entry of the membership table. -/
theorem RegsTook.ring {who : RegWriter} {off : Nat} (v : Dword) (r : ModRegs) (h : 0x400 ≤ off ∧ off < 0x800) :
    RegsTook who off v r { r with ring := r.ring.set ((off - 0x400) / 16) (BitVec.ofNat 128
      (putBits (r.ring.get ((off - 0x400) / 16)).toNat (64 * (off / 8 % 2)) 64
        (if off / 8 % 2 = 0 then bits v.toNat 0 4 + bits v.toNat 16 22 * 2 ^ 16 else bits v.toNat 0 56))) } := by
  have h10 : ¬ (off = 0x10 ∧ who = .pmc) := by omega
  have h18 : ¬ (off = 0x18 ∧ who = .pmc) := by omega
  have h20 : off ≠ 0x20 := by omega
  have h28 : off ≠ 0x28 := by omega
  refine ⟨by rw [if_neg h10, if_neg h18, if_neg h20, if_neg h28], fun k => ?_⟩
  by_cases hk : k = (off - 0x400) / 16
  · have hsel : 0x400 ≤ off ∧ off < 0x800 ∧ k = (off - 0x400) / 16 := ⟨h.1, h.2, hk⟩
    rw [if_pos hsel, ← hk, SMap.get_set_self]
    rcases Nat.mod_two_eq_zero_or_one (off / 8) with he | he
    · rw [he]
      exact ring_low ..
    · rw [he]
      exact ring_high _ _ wide_mask
  · have hsel : ¬ (0x400 ≤ off ∧ off < 0x800 ∧ k = (off - 0x400) / 16) := fun h => hk h.2.2
    rw [if_neg hsel, SMap.get_set_ne _ _ hk]

theorem State.regStore_took (s : State) {who : RegWriter} {off : Nat} (v : Dword) (hwho : who ≠ .lane) (h0 : off ≠ 0) (h30 : off ≠ 0x30) :
    s.regStore who off v = { s with regs := (s.regStore who off v).regs } ∧ RegsTook who off v s.regs (s.regStore who off v).regs := by
  have hhp : (who == .host || who == .pmc) = true := by cases who <;> first | rfl | exact absurd rfl hwho
  unfold State.regStore
  dsimp only
  rw [hhp]
  split
  · exact absurd rfl h0
  · split
    next hp => exact ⟨rfl, by rw [if_pos ⟨rfl, hp⟩]; rfl, fun k => rfl⟩
    next hp => exact ⟨rfl, .none _ (fun _ => hp) (by omega) (by omega) (by omega) (by omega)⟩
  · split
    next hp => exact ⟨rfl, by rw [if_neg (fun h => absurd h.1 (by decide)), if_pos ⟨rfl, hp⟩]; rfl, fun k => rfl⟩
    next hp => exact ⟨rfl, .none _ (by omega) (fun _ => hp) (by omega) (by omega) (by omega)⟩
  · exact ⟨rfl, rfl, fun k => rfl⟩
  · exact ⟨rfl, rfl, fun k => rfl⟩
  · exact absurd rfl h30
  next _ h10 h18 h20 h28 _ =>
    split
    next h => exact ⟨rfl, .ring v s.regs ⟨h.1, h.2.1⟩⟩
    next h => exact ⟨rfl, .none _ (fun e => absurd e h10) (fun e => absurd e h18) h20 h28 fun k => h ⟨k.1, k.2, rfl⟩⟩

/-! ### The launch ring -/

/-- A counter differs from its successor. -/
theorem ne_add_one (x : Dword) : x ≠ x + 1 := by
  intro h
  have hx := congrArg BitVec.toNat h
  rw [BitVec.toNat_add] at hx
  have := x.isLt
  simp at hx
  omega

theorem State.takeLaunches_done {s : State} (h : s.regs.lrhead = s.regs.lrtail ∨ s.pool.opened = false) (k : Nat) :
    s.takeLaunches k = s := by
  cases k with
  | zero => rfl
  | succ k => exact if_pos h

/-- The ring's entry that is taken next: its address, and its number. -/
def State.launchAt (s : State) : Nat := s.regs.lrbase + 16 * (s.regs.lrhead.toNat % 2 ^ s.regs.lrlog.toNat)

def State.launchEntry (s : State) : Nat := natOfBytes (s.homeLoad s.launchAt 16)

/-- The next entry has been taken. -/
def State.launched (s : State) (n : Dword) : State := { s with regs := { s.regs with lrhead := n } }

section
variable {s : State} (hopen : s.pool.opened = true) (hne : s.regs.lrhead ≠ s.regs.lrtail) (hheld : s.held ⟨.phys s.launchAt, 16⟩ = false)
  (hvirt : s.virtHeld (bits s.launchEntry 68 12) false (bits s.launchEntry 0 56) 128 = false)
include hopen hne hheld hvirt

theorem State.takeLaunches_misaligned (h : bits s.launchEntry 0 56 % 128 ≠ 0) (k : Nat) :
    s.takeLaunches (k + 1) = (s.launched (s.regs.lrhead + 1)).takeLaunches k := by
  refine (if_neg (by rintro (h | h); exact hne h; rw [hopen] at h; cases h)).trans ?_
  refine (if_neg ?_).trans ((if_pos h).trans rfl)
  rintro (h | h)
  · exact absurd (hheld.symm.trans h) (by decide)
  · exact absurd (hvirt.symm.trans h) (by decide)

theorem State.takeLaunches_accepted {b : List Byte} {dom va : Nat} (hdom : bits s.launchEntry 68 12 = dom) (hva : bits s.launchEntry 0 56 = va)
    (h : va % 128 = 0) (hb : s.rdVirt dom va 128 = .ok b) (hacc : s.acceptHeld dom (wordsLE b) = false)
    (hroom : (s.accept dom (wordsLE b)).2 ≠ 1) (k : Nat) :
    s.takeLaunches (k + 1) = ((s.accept dom (wordsLE b)).1.launched (s.regs.lrhead + 1)).takeLaunches k := by
  subst hdom hva
  refine (if_neg (by rintro (h | h); exact hne h; rw [hopen] at h; cases h)).trans ?_
  refine (if_neg ?_).trans ((if_neg (not_not.mpr h)).trans ?_)
  · rintro (h | h)
    · exact absurd (hheld.symm.trans h) (by decide)
    · exact absurd (hvirt.symm.trans h) (by decide)
  · unfold State.launchEntry State.launchAt at hb hacc hroom ⊢
    rw [hb]
    exact (if_neg (by rw [hacc]; decide)).trans (if_neg hroom)

end

theorem State.physWrite_regs (s : State) (core : Option Nat) (a : Nat) (bs : List Byte) : (s.physWrite core a bs).regs = s.regs := by
  unfold State.physWrite
  split <;> rfl

theorem State.accept_regs (s : State) (dom : Nat) (ws : List Word) : (s.accept dom ws).1.regs = s.regs := by
  unfold State.accept
  dsimp only
  generalize 65536 = n
  split
  · rfl
  · split
    · split
      · rfl
      · exact State.physWrite_regs ..
    · rfl

/-! ### Doorbells -/

theorem State.homeStore_doorbell {a : Nat} (ha : aperture a = some 3) (h0 : a % 4096 = 0) (s : State) (t c : Nat) (bs : List Byte) :
    s.homeStore t c a bs = { s.descNeed (s.wg t).core ((s.wg t).crew c).domain with
      msix := s.msix ++ [s.coreHostvec (s.wg t).core ((s.wg t).crew c).domain] } := by
  unfold State.homeStore
  rw [ha]
  exact if_pos h0

theorem State.performOp_doorbell {s : State} {t c : Nat} {i : FlightItem} {a l : Nat} {bs : List Byte} (ha : aperture a = some 3)
    (h0 : a % 4096 = 0) (hop : i.op = .store [⟨l, [(.phys a, bs)]⟩]) :
    let core := (s.wg t).core
    let dom := ((s.wg t).crew (((s.wg t).lane l).crew.getD c)).domain
    s.performOp t c i = { s.descNeed core dom with msix := s.msix ++ [s.coreHostvec core dom] } := by
  unfold State.performOp
  rw [hop]
  dsimp only [overList, List.foldl]
  exact State.homeStore_doorbell ha h0 s t _ bs

theorem FliesOn.coreHostvec {s s' : State} (h : FliesOn s s') (core d : Nat) : s'.coreHostvec core d = s.coreHostvec core d := by
  rw [h.rest]
  rfl

theorem performed_doorbell {s : State} {t c : Nat} {i : FlightItem} {a l : Nat} {bs : List Byte} (hstat : i.stat = none)
    (ha : aperture a = some 3) (h0 : a % 4096 = 0) (hop : i.op = .store [⟨l, [(.phys a, bs)]⟩]) :
    let s1 := s.sendHome (s.needsHome t i)
    let w := s1.wg t
    MemKept s1 (s.perform t c i) ∧ LaneRegsKept s1 (s.perform t c i) t ∧
      (s.perform t c i).msix = s1.msix ++ [s1.coreHostvec w.core (w.crew ((w.lane l).crew.getD c)).domain] := by
  intro s1 w
  obtain ⟨s2, s3, h12, h23, h34⟩ := s.performed_around t c hstat
  rw [State.performOp_doorbell ha h0 hop] at h23
  have hcrew : ((s2.wg t).crew (((s2.wg t).lane l).crew.getD c)).domain = (w.crew ((w.lane l).crew.getD c)).domain := by
    rw [h12.lane, h12.crew]
  have hmem : s3.mem = s2.mem := by
    rw [h23]
    exact State.descNeed_mem ..
  have hlanes : (s3.wg t).lanes = (s2.wg t).lanes := by
    rw [h23]
    exact congrArg Workgroup.lanes (State.wg_descNeed ..)
  have hmsix : s3.msix = s2.msix ++ [s2.coreHostvec (s2.wg t).core ((s2.wg t).crew (((s2.wg t).lane l).crew.getD c)).domain] := by rw [h23]
  refine ⟨fun x => by rw [h34.mem, hmem, h12.mem], fun m k => ?_, ?_⟩
  · rw [h34.lane, ← h12.lane]
    exact congrArg (fun m' : SMap Lane => (m'.get m).reg k) hlanes
  · have h4 : (s.perform t c i).msix = s3.msix := by rw [h34.rest]
    have h2 : s2.msix = s1.msix := by rw [h12.rest]
    rw [h4, hmsix, hcrew, h12.wgCore, h12.coreHostvec, h2]

/-! ### Accesses from outside -/

/-- What an access from outside leaves: its bytes and nothing else of memory, windows and lanes. -/
theorem State.ext_performed (s : State) (x : ExtAccess) :
    WinKept s (s.extPerform x) ∧ (∀ u, ((s.extPerform x).wg u).lanes = (s.wg u).lanes) ∧ (s.extPerform x).regs = s.regs ∧
      match x with
      | .read .. => s.extPerform x = s
      | .write a bs => Stored s (s.extPerform x) a bs
      | .atomic op wide a b c =>
        let n := if wide then 8 else 4
        Stored s (s.extPerform x) a (bytesOfNat n (atomNew op (8 * n) (s.rdNat a n) (b.toNat % 2 ^ (8 * n)) (c.toNat % 2 ^ (8 * n))).1) := by
  have hwrite : ∀ a bs, WinKept s (s.physWrite none a bs) ∧ (∀ u, ((s.physWrite none a bs).wg u).lanes = (s.wg u).lanes) ∧
      (s.physWrite none a bs).regs = s.regs ∧ Stored s (s.physWrite none a bs) a bs := by
    intro a bs
    refine ⟨fun u x => by rw [(Calm.physWrite s none a bs u).rest], fun u => State.lanes_physWrite .., ?_, stored_physWrite _ _ _ _⟩
    exact State.physWrite_regs ..
  cases x with
  | read => exact ⟨fun _ _ => rfl, fun _ => rfl, rfl, rfl⟩
  | write a bs => exact hwrite a bs
  | atomic op wide a b c => exact hwrite a _

theorem State.extAccess_admitted {s : State} {x : ExtAccess} {aps : List Nat} {n : Nat} (hp : s.powered = true) (hline : x.inLine = true)
    (hheld : s.held ⟨.phys x.range.1, x.range.2⟩ = false) (ha : aperture x.range.1 = some n) (hn : aps.contains n = true) :
    s.extAccess aps x = .next (s.extPerform x) := by
  unfold State.extAccess
  dsimp only
  rw [if_neg (by simp [hp, hline, hheld]), ha]
  exact if_pos hn

/-! ### The statement -/

section
variable {s : State} (hp : s.pmc.heldReset = false)
include hp

theorem exec_doorbell {d : Nat} (hd : d < 4096) : exec (.doorbell d) s = .next { s with msix := s.msix ++ [s.hostvec d] } := by
  have hnum : (BitVec.ofNat 64 d).toNat % 4096 = d := by
    rw [BitVec.toNat_ofNat]
    omega
  refine (if_neg ?_).trans ?_
  · rw [State.powered_of_notReset hp]
    rintro (h | h)
    · cases h
    · omega
  · change Host.Outcome.next { s with msix := s.msix ++ [s.hostvec ((BitVec.ofNat 64 d).toNat % 4096)] } = _
    rw [hnum]

theorem exec_doorbellPageStore {t c : Nat} {i : FlightItem}
    (hi : ((s.wg t).crew c).flight.find? (fun i => i.rings && s.mayPerform t i) = some i) (hlife : (s.wg t).life = .resident) :
    exec (.doorbellPageStore t c) s = .next (s.perform t c i) := by
  change execDoorbellPageStore t c s = _
  unfold execDoorbellPageStore
  rw [hi]
  exact if_pos ⟨State.powered_of_notReset hp, hlife⟩

theorem exec_moduleRegisterWrite {who : RegWriter} {off : Nat} (v : Dword) (hwho : who ≠ .lane) (h0 : off ≠ 0) (h30 : off ≠ 0x30)
    (h8 : off % 8 = 0) (hoff : off < 4096) : exec (.moduleRegisterWrite who off v) s = .next (s.regStore who off v) := by
  refine if_neg ?_
  rw [State.powered_of_notReset hp]
  rintro (h | h | h | h | h | h)
  · cases h
  · exact hwho h
  · exact h0 h
  · exact h30 h
  · exact h h8
  · omega

theorem exec_lrtailWrite (v : Dword) :
    exec (.lrtailWrite v) s = .next (State.takeLaunches 65536 { s with regs := { s.regs with lrtail := v } }) := by
  refine if_neg ?_
  rw [State.powered_of_notReset hp]
  decide

/-- Where the ring has one entry more, the pool takes it, or drops it where it is not aligned (R441, log 56). -/
theorem launch_taken {v : Dword} (hv : v = s.regs.lrhead + 1) (hopen : s.pool.opened = true) :
    let s1 : State := { s with regs := { s.regs with lrtail := v } }
    let a := s.regs.lrbase + 16 * (s.regs.lrhead.toNat % 2 ^ s.regs.lrlog.toNat)
    let e := natOfBytes (s1.homeLoad a 16)
    let va := bits e 0 56
    let dom := bits e 68 12
    s.held ⟨.phys a, 16⟩ = false → s1.virtHeld dom false va 128 = false →
      (va % 128 ≠ 0 → exec (.lrtailWrite v) s = .next { s1 with regs := { s1.regs with lrhead := v } }) ∧
      ∀ b, va % 128 = 0 → s1.rdVirt dom va 128 = .ok b → s1.acceptHeld dom (wordsLE b) = false →
        (s1.accept dom (wordsLE b)).2 ≠ 1 → ∃ s', exec (.lrtailWrite v) s = .next s' ∧ s'.regs = { s1.regs with lrhead := v } ∧
          s'.pool = (s1.accept dom (wordsLE b)).1.pool ∧ s'.mem = (s1.accept dom (wordsLE b)).1.mem := by
  intro s1 a e va dom hheld hvirt
  have hne : s1.regs.lrhead ≠ s1.regs.lrtail := fun h => ne_add_one s.regs.lrhead (h.trans hv)
  have hexec := exec_lrtailWrite hp v
  rw [show (65536 : Nat) = 65535 + 1 from rfl] at hexec
  rw [hexec]
  refine ⟨fun hva => ?_, fun b hva hb hacc hroom => ?_⟩
  · rw [State.takeLaunches_misaligned (s := s1) hopen hne hheld hvirt hva, State.takeLaunches_done (.inl hv.symm)]
    exact congrArg (fun x => Host.Outcome.next (s1.launched x)) hv.symm
  · have htake : s1.takeLaunches (65535 + 1) = ((s1.accept dom (wordsLE b)).1.launched (s1.regs.lrhead + 1)).takeLaunches 65535 :=
      State.takeLaunches_accepted (s := s1) hopen hne hheld hvirt rfl rfl hva hb hacc hroom 65535
    rw [htake]
    have hregs : (s1.accept dom (wordsLE b)).1.regs = s1.regs := State.accept_regs ..
    generalize (s1.accept dom (wordsLE b)).1 = s2 at hregs
    have hdone : (s2.launched (s1.regs.lrhead + 1)).regs.lrhead = (s2.launched (s1.regs.lrhead + 1)).regs.lrtail := by
      change s.regs.lrhead + 1 = s2.regs.lrtail
      rw [hregs]
      exact hv.symm
    rw [State.takeLaunches_done (.inl hdone)]
    refine ⟨_, rfl, ?_, rfl, rfl⟩
    change { s2.regs with lrhead := s.regs.lrhead + 1 } = _
    rw [hregs, ← hv]

theorem exec_external {x : ExtAccess} {ev : Instr}
    (hev : (ev = .hostAccess x ∧ aperture x.range.1 ∈ [some 0, some 5, some 6] ∧ (x.isRead = true ∨ lineOf x.range.1 ∉ s.hostLines)) ∨
      (ev = .remoteAccess x ∧ aperture x.range.1 ∈ [some 0, some 4])) (hline : x.inLine = true)
    (hheld : s.held ⟨.phys x.range.1, x.range.2⟩ = false) : exec ev s = .next (s.extPerform x) := by
  have hpow := State.powered_of_notReset hp
  rcases hev with ⟨rfl, ha, hsnoop⟩ | ⟨rfl, ha⟩
  · refine (if_neg ?_).trans ?_
    · rintro ⟨h1, h2⟩
      rcases hsnoop with h | h
      · rw [h] at h1
        cases h1
      · exact h (by simpa using h2)
    · simp only [List.mem_cons, List.not_mem_nil, or_false] at ha
      rcases ha with ha | ha | ha <;> exact State.extAccess_admitted hpow hline hheld ha rfl
  · simp only [List.mem_cons, List.not_mem_nil, or_false] at ha
    rcases ha with ha | ha <;> exact State.extAccess_admitted hpow hline hheld ha rfl

theorem exec_backInvalidate_tier {line : Nat} {bs : List Byte} (ha : aperture (64 * line) = some 6) (hbs : bs.length = 64) :
    exec (.backInvalidate line bs) s = .next (s.physWrite none (64 * line) bs) := by
  refine (if_neg (by simp [State.powered_of_notReset hp])).trans ?_
  rw [ha]
  exact if_pos hbs

theorem exec_backInvalidate_own {line : Nat} (ha : aperture (64 * line) = some 0) : exec (.backInvalidate line []) s = .next s := by
  refine (if_neg (by simp [State.powered_of_notReset hp])).trans ?_
  rw [ha]
  rfl

theorem link_trained {port : Nat} (fs : List Nat) (hport : port < 2) :
    ∃ s', exec (.linkTraining port fs) s = .next s' ∧ s' = { s with pmc := { s.pmc with linked := s'.pmc.linked } } ∧
      (∀ f, f ∈ s'.pmc.linked.get port ↔ f ∈ fs ∧ f ≤ 12) ∧ ∀ k, k ≠ port → s'.pmc.linked.get k = s.pmc.linked.get k := by
  refine ⟨_, if_neg ?_, rfl, fun f => ?_, fun k hk => by rw [SMap.get_set_ne _ _ hk]⟩
  · rw [State.powered_of_notReset hp]
    rintro (h | h)
    · cases h
    · omega
  · rw [SMap.get_set_self]
    simp [cxlListed]

theorem link_replayed {port : Nat} (hport : port < 64) :
    ∃ s', exec (.linkCrcReplay port) s = .next s' ∧
      s' = { s with pmc := { s.pmc with linkErrs := s'.pmc.linkErrs, corrected := s'.pmc.corrected, errLog := s.pmc.errLog ++ [(5, 0)] } } ∧
      (∀ k, s'.pmc.corrected.get k = s.pmc.corrected.get k + if k = 5 then 1 else 0) ∧
      s'.pmc.linkErrs.get port = s.pmc.linkErrs.get port + 1 ∧ ∀ k, k ≠ port → s'.pmc.linkErrs.get k = s.pmc.linkErrs.get k := by
  refine ⟨_, if_neg ?_, rfl, fun k => ?_, ?_, fun k hk => ?_⟩
  · rw [State.powered_of_notReset hp]
    rintro (h | h)
    · cases h
    · omega
  · change (s.pmc.corrected.upd 5 (· + 1)).get k = _
    split
    next h => rw [h, SMap.get_upd_self]
    next h => exact SMap.get_upd_ne _ _ h
  · exact SMap.get_upd_self s.pmc.linkErrs port (· + 1)
  · exact SMap.get_upd_ne s.pmc.linkErrs (· + 1) hk

end

/-- Settles O54: every event's guard holds, and its effect is read off; the pool takes one entry of the launch ring and is done. -/
theorem hostAndLinkEventsHappen : Obligations.HostAndLinkEventsHappen := by
  unfold Obligations.HostAndLinkEventsHappen
  intro s hp r
  refine ⟨fun d hd => ⟨_, exec_doorbell hp hd, rfl⟩, ?_, ?_, ?_, ?_, ?_, ?_, ?_, ?_, ?_⟩
  · intro t c i l a bs hi hlife hop ha h0 hstat s1 w
    obtain ⟨hmem, hregs, hmsix⟩ := performed_doorbell (c := c) hstat ha h0 hop
    refine ⟨_, _, exec_doorbellPageStore hp hi hlife, hmem, hregs, rfl, hmsix, fun k j hj hid => ?_⟩
    rw [State.perform, State.performHere, State.wg_updWg_self] at hj
    exact Workgroup.done_finishItem _ _ k j hj hid
  · intro who off v hwho h0 h30 h8 hoff
    obtain ⟨hrest, hregs, hring⟩ := s.regStore_took v hwho h0 h30
    exact ⟨_, exec_moduleRegisterWrite hp v hwho h0 h30 h8 hoff, hrest, hregs, hring⟩
  · intro v s1 a e va dom
    refine ⟨fun h => ?_, fun hv hopen hheld hvirt => launch_taken hp hv hopen hheld hvirt⟩
    rw [exec_lrtailWrite hp v, State.takeLaunches_done]
    exact h.imp (fun h => h.symm) id
  · intro x ev hev hline hheld
    exact ⟨_, exec_external hp hev hline hheld, s.ext_performed x⟩
  · exact fun line bs ha hbs => ⟨_, exec_backInvalidate_tier hp ha hbs, stored_physWrite _ _ _ _⟩
  · exact fun line ha => exec_backInvalidate_own hp ha
  · intro line hline
    refine ⟨_, if_pos (by simpa using hline), rfl, fun k => ?_⟩
    simp [List.mem_filter]
  · exact fun port fs hport => link_trained hp fs hport
  · exact fun port hport => link_replayed hp hport

end Sys2Proof.Machine
end

section
/-! SUPPORT. Commands of bank jobs (spec/13 R302, R307-R309, R326, R327, spec/16 R392): the words that a pass writes, and the statement
about them. -/

namespace Sys2Proof.Machine

open Sys2Proof Sys2Proof.Safety

-- One proof at a time: side by side they need more threads than a check's memory holds.
set_option Elab.async false

/-! ### Numbers as bytes -/

theorem length_bytesOfNat (n x : Nat) : (bytesOfNat n x).length = n := by
  induction n generalizing x with
  | zero => rfl
  | succ n ih => simp [bytesOfNat, ih]

theorem natOfBytes_bytesOfNat (n x : Nat) : natOfBytes (bytesOfNat n x) = x % 256 ^ n := by
  induction n generalizing x with
  | zero => simp [bytesOfNat, natOfBytes, Nat.mod_one]
  | succ n ih =>
    rw [bytesOfNat, natOfBytes, ih, BitVec.toNat_ofNat, show (2 : Nat) ^ 8 = 256 from rfl, Nat.pow_succ', Nat.mod_mul]

theorem natOfBytes_lt (l : List Byte) : natOfBytes l < 256 ^ l.length := by
  induction l with
  | nil => exact Nat.one_pos
  | cons b l ih =>
    rw [natOfBytes, List.length_cons, Nat.pow_succ]
    have hb := b.isLt
    omega

/-! ### Blocks of a list -/

theorem getD_flatMap_block {α β : Type} {f : α → List β} {m : Nat} (hf : ∀ x, (f x).length = m) (d : β) {l : List α} {k : Nat} {x : α}
    (hk : l[k]? = some x) {j : Nat} (hj : j < m) : (l.flatMap f).getD (k * m + j) d = (f x).getD j d := by
  induction l generalizing k with
  | nil => simp at hk
  | cons y l ih =>
    rw [List.flatMap_cons, List.getD_eq_getElem?_getD]
    cases k with
    | zero =>
      cases hk
      rw [Nat.zero_mul, Nat.zero_add, List.getElem?_append_left (by rw [hf]; exact hj), List.getD_eq_getElem?_getD]
    | succ k =>
      have hge : (f y).length ≤ (k + 1) * m + j := by rw [hf, Nat.succ_mul]; omega
      rw [List.getElem?_append_right hge, hf, show (k + 1) * m + j - m = k * m + j by rw [Nat.succ_mul]; omega, ← List.getD_eq_getElem?_getD]
      exact ih hk

theorem getElem?_chunks {α : Type} (m : Nat) (n : Nat) (l : List α) {k : Nat} (hk : k < n) :
    (chunks m n l)[k]? = some ((l.drop (k * m)).take m) := by
  induction n generalizing l k with
  | zero => omega
  | succ n ih =>
    cases k with
    | zero => simp [chunks]
    | succ k =>
      rw [chunks, List.getElem?_cons_succ, ih _ (by omega), List.drop_drop, Nat.succ_mul, Nat.add_comm m]

/-! ### Bytes of memory -/

theorem State.length_rdBytes (s : State) (a n : Nat) : (s.rdBytes a n).length = n := by simp [State.rdBytes]

theorem State.rdBytes_part (s : State) (a n o m : Nat) (h : o + m ≤ n) : ((s.rdBytes a n).drop o).take m = s.rdBytes (a + o) m := by
  refine List.ext_getElem (by simp [State.rdBytes]; omega) fun k h1 h2 => ?_
  simp [State.rdBytes, Nat.add_assoc]

theorem State.getD_rdBytes (s : State) (a n : Nat) {k : Nat} (h : k < n) (d : Byte) : (s.rdBytes a n).getD k d = s.mem.get (a + k) := by
  simp [State.rdBytes, List.getD_eq_getElem?_getD, h]

theorem State.rdBytes_congr {s s' : State} {a n : Nat} (h : ∀ x, a ≤ x → x < a + n → s'.mem.get x = s.mem.get x) :
    s'.rdBytes a n = s.rdBytes a n := by
  refine List.map_congr_left fun k hk => h _ (by omega) ?_
  have := List.mem_range.mp hk
  omega

/-- Bytes that lie as one run in memory are read back. -/
theorem State.rdBytes_of_get {s : State} {a : Nat} {bs : List Byte} (h : ∀ k, k < bs.length → s.mem.get (a + k) = bs.getD k 0) :
    s.rdBytes a bs.length = bs := by
  refine List.ext_getElem (by simp [State.rdBytes]) fun k h1 h2 => ?_
  have hk : k < bs.length := h2
  simp only [State.rdBytes, List.getElem_map, List.getElem_range]
  rw [h k hk, List.getD_eq_getElem?_getD, List.getElem?_eq_getElem hk, Option.getD_some]

/-! ### One pass over one bank -/

/-- The words of a bank's window before a pass, each with its tag. -/
def passIn (mem : State) (a w first len : Nat) (tags : List Nat) : TaggedWords :=
  (wordsOf w (mem.rdBytes a len)).zipIdx.map fun x => (x.1, tags.contains (first + x.2 * (w / 8)))

/-- The bytes that a pass leaves in a bank's window. -/
def passOut (s : State) (a w first len : Nat) (p : PassSpec) (tags : List Nat) : List Byte :=
  ((passIn s a w first len tags).map (passWord w p)).flatMap fun x => bytesOfNat (w / 8) x.1.1

theorem length_wordsOf (s : State) (a w len : Nat) : (wordsOf w (s.rdBytes a len)).length = len / (w / 8) := by
  rw [wordsOf, List.length_map, Tests.length_chunks, State.length_rdBytes]

theorem length_passOut (s : State) (a w first len : Nat) (p : PassSpec) (tags : List Nat) :
    (passOut s a w first len p tags).length = len / (w / 8) * (w / 8) := by
  rw [passOut, Tests.length_flatMap_const _ (w / 8) _ fun _ _ => length_bytesOfNat _ _, List.length_map, passIn, List.length_map, List.length_zipIdx,
    length_wordsOf]

theorem getElem?_passIn (s : State) {a w first len : Nat} (tags : List Nat) {k : Nat} (hk : k < len / (w / 8)) :
    (passIn s a w first len tags)[k]? = some (s.rdNat (a + k * (w / 8)) (w / 8), tags.contains (first + k * (w / 8))) := by
  have hpart : k * (w / 8) + w / 8 ≤ len := by
    calc k * (w / 8) + w / 8 = (k + 1) * (w / 8) := by rw [Nat.succ_mul]
      _ ≤ len / (w / 8) * (w / 8) := Nat.mul_le_mul_right _ hk
      _ ≤ len := Nat.div_mul_le_self ..
  have hword : (wordsOf w (s.rdBytes a len))[k]? = some (s.rdNat (a + k * (w / 8)) (w / 8)) := by
    rw [wordsOf, List.getElem?_map, State.length_rdBytes, getElem?_chunks _ _ _ hk, State.rdBytes_part _ _ _ _ _ hpart]
    rfl
  rw [passIn, List.getElem?_map, List.getElem?_zipIdx, hword]
  simp

/-- A word of the window after a pass. -/
theorem passOut_word (s : State) {a w first len : Nat} (p : PassSpec) (tags : List Nat) {k : Nat} (hk : k < len / (w / 8)) {j : Nat}
    (hj : j < w / 8) : (passOut s a w first len p tags).getD (k * (w / 8) + j) 0 =
      (bytesOfNat (w / 8) (passWord w p (s.rdNat (a + k * (w / 8)) (w / 8), tags.contains (first + k * (w / 8)))).1.1).getD j 0 := by
  have hx : ((passIn s a w first len tags).map (passWord w p))[k]? =
      some (passWord w p (s.rdNat (a + k * (w / 8)) (w / 8), tags.contains (first + k * (w / 8)))) := by
    rw [List.getElem?_map, getElem?_passIn s tags hk]
    rfl
  exact getD_flatMap_block (f := fun x : (Nat × Bool) × Bool => bytesOfNat (w / 8) x.1.1) (fun _ => length_bytesOfNat _ _) 0 hx hj

/-! ### What a pass makes of a word (R309) -/

theorem mod_two_pow_eq_zero_iff (n w : Nat) : n % 2 ^ w = 0 ↔ ∀ i, i < w → n.testBit i = false := by
  constructor
  · intro h i hi
    have := Nat.testBit_mod_two_pow n w i
    rw [h, Nat.zero_testBit] at this
    simpa [hi] using this.symm
  · intro h
    refine Nat.eq_of_testBit_eq fun i => ?_
    rw [Nat.testBit_mod_two_pow, Nat.zero_testBit]
    by_cases hi : i < w
    · simp [h i hi]
    · simp [hi]

/-- A pass hits a word with its tag. -/
def PassHits (w : Nat) (p : PassSpec) (x : Nat) (t : Bool) : Prop :=
  (∀ i, i < w → p.cmask.testBit i = true → x.testBit i = p.key.testBit i) ∧ (p.tcond = 0 ∨ (t = true ↔ p.tcond = 1))

theorem passHits_iff (w : Nat) (p : PassSpec) (x : Nat) (t : Bool) :
    (decide (andNat (xorNat x p.key) p.cmask % 2 ^ w = 0) && (p.tcond == 0 || t == (p.tcond == 1))) = true ↔ PassHits w p x t := by
  have hkey : andNat (xorNat x p.key) p.cmask % 2 ^ w = 0 ↔ ∀ i, i < w → p.cmask.testBit i = true → x.testBit i = p.key.testBit i := by
    rw [mod_two_pow_eq_zero_iff]
    refine forall_congr' fun i => forall_congr' fun _ => ?_
    rw [andNat, xorNat, Nat.testBit_and, Nat.testBit_xor]
    cases x.testBit i <;> cases p.key.testBit i <;> cases p.cmask.testBit i <;> decide
  have htag : (p.tcond == 0 || t == (p.tcond == 1)) = true ↔ p.tcond = 0 ∨ (t = true ↔ p.tcond = 1) := by
    rw [Bool.or_eq_true, beq_iff_eq, beq_iff_eq]
    cases t <;> simp
  rw [Bool.and_eq_true, decide_eq_true_iff, hkey, htag]
  rfl

theorem passWord_of_hit {w : Nat} {p : PassSpec} {x : Nat} {t : Bool} (h : PassHits w p x t) {i : Nat} (hi : i < w) :
    (passWord w p (x, t)).1.1.testBit i = if p.wr = true ∧ p.wmask.testBit i = true then p.pat.testBit i else x.testBit i := by
  have hm := (passHits_iff w p x t).mpr h
  unfold passWord
  dsimp only
  rw [hm]
  cases hw : p.wr
  · simp
  · rw [Bool.and_true, if_pos rfl, andNat, andNat, orNat, xorNat, Nat.testBit_or, Nat.testBit_and, Nat.testBit_and, Nat.testBit_xor,
      Nat.testBit_mod_two_pow, Nat.testBit_mod_two_pow, Nat.testBit_two_pow_sub_one]
    cases p.wmask.testBit i <;> simp [hi]

theorem passWord_of_miss {w : Nat} {p : PassSpec} {x : Nat} {t : Bool} (h : ¬ PassHits w p x t) : (passWord w p (x, t)).1.1 = x := by
  have hm := Bool.eq_false_iff.mpr (fun e => h ((passHits_iff w p x t).mp e))
  unfold passWord
  dsimp only
  rw [hm, Bool.and_false]
  rfl

/-! ### One bank after another -/

/-- A pass over the banks of a list: each with its own pass; a KPASS clears a bank's tags first. -/
def State.passRun (s : State) (g w first len : Nat) (clear : Bool) (ps : Nat → PassSpec) (b : Nat) : State :=
  (if clear then s.updPch g fun q => { q with tags := q.tags.set b [] } else s).bankPass g w first len (ps b) b

/-- Where the window of a bank's open row begins. -/
def Pch.winStart (p : Pch) (g first b : Nat) : Nat := rowAddr g b (p.rows.get b - 1) + first

/-- Of a pseudo-channel only tags and marks of written lines have changed. -/
def Pch.Tagged (p q : Pch) : Prop := q = { p with tags := q.tags, dirty := q.dirty }

theorem Pch.Tagged.trans {p q r : Pch} (h : p.Tagged q) (k : q.Tagged r) : p.Tagged r := by
  unfold Pch.Tagged at *
  rw [k, h]

/-- What a pass over one bank leaves: its window has the pass's bytes, other memory, other banks' tags and all rows stand. -/
structure BankPassed (g w first len : Nat) (clear : Bool) (p : PassSpec) (b : Nat) (s s' : State) : Prop where
  rest : s' = { s with mem := s'.mem, pchs := s'.pchs }
  others : ∀ m, m ≠ g → s'.pch m = s.pch m
  pch : (s.pch g).Tagged (s'.pch g)
  tags : ∀ c, c ≠ b → (s'.pch g).tags.get c = (s.pch g).tags.get c
  mem : s'.mem = Memory.write s.mem ((s.pch g).winStart g first b)
    (passOut s ((s.pch g).winStart g first b) w first len p (if clear then [] else (s.pch g).tags.get b))

theorem State.bankPassed_bankPass (s : State) (g w first len : Nat) (p : PassSpec) (b : Nat) :
    BankPassed g w first len false p b s (s.bankPass g w first len p b) where
  rest := rfl
  others m hm := State.pch_updPch_ne _ _ hm
  pch := by
    unfold State.bankPass
    rw [State.pch_updPch_self]
    rfl
  tags c hc := by
    unfold State.bankPass
    rw [State.pch_updPch_self]
    exact SMap.get_set_ne _ _ hc
  mem := rfl

theorem State.bankPassed_passRun (s : State) (g w first len : Nat) (clear : Bool) (ps : Nat → PassSpec) (b : Nat) :
    BankPassed g w first len clear (ps b) b s (s.passRun g w first len clear ps b) := by
  unfold State.passRun
  cases clear with
  | false => exact s.bankPassed_bankPass g w first len (ps b) b
  | true =>
    rw [if_pos rfl]
    obtain ⟨hrest, hothers, hpch, htags, hmem⟩ :=
      (s.updPch g fun q => { q with tags := q.tags.set b [] }).bankPassed_bankPass g w first len (ps b) b
    generalize (s.updPch g fun q => { q with tags := q.tags.set b [] }).bankPass g w first len (ps b) b = s' at *
    rw [State.pch_updPch_self] at hpch htags hmem
    refine ⟨hrest.trans rfl, fun m hm => (hothers m hm).trans (State.pch_updPch_ne _ _ hm), ?_, fun c hc => ?_, ?_⟩
    · have hclear : (s.pch g).Tagged { s.pch g with tags := (s.pch g).tags.set b [] } := rfl
      exact hclear.trans hpch
    · exact (htags c hc).trans (by rw [SMap.get_set_ne _ _ hc])
    · dsimp only at hmem
      rw [SMap.get_set_self] at hmem
      exact hmem

section
variable {g w first len : Nat} {clear : Bool}

theorem BankPassed.winStart {p : PassSpec} {b : Nat} {s s' : State} (h : BankPassed g w first len clear p b s s') (c : Nat) :
    (s'.pch g).winStart g first c = (s.pch g).winStart g first c := by
  unfold Pch.winStart
  rw [h.pch]

/-- A byte outside a bank's window is left alone. -/
theorem BankPassed.mem_outside {p : PassSpec} {b : Nat} {s s' : State} (h : BankPassed g w first len clear p b s s') {a : Nat}
    (ha : a < (s.pch g).winStart g first b ∨ (s.pch g).winStart g first b + len ≤ a) : s'.mem.get a = s.mem.get a := by
  rw [h.mem, Memory.get_write, length_passOut]
  refine if_neg ?_
  have := Nat.div_mul_le_self len (w / 8)
  omega

/-- The passes over the banks of a list. -/
structure BanksPassed (g w first len : Nat) (bs : List Nat) (s s' : State) : Prop where
  rest : s' = { s with mem := s'.mem, pchs := s'.pchs }
  others : ∀ m, m ≠ g → s'.pch m = s.pch m
  pch : (s.pch g).Tagged (s'.pch g)
  tags : ∀ c, c ∉ bs → (s'.pch g).tags.get c = (s.pch g).tags.get c
  mem : ∀ a, (∀ b ∈ bs, a < (s.pch g).winStart g first b ∨ (s.pch g).winStart g first b + len ≤ a) → s'.mem.get a = s.mem.get a

theorem State.banksPassed (s : State) (ps : Nat → PassSpec) (bs : List Nat) :
    BanksPassed g w first len bs s (overList bs s fun s b => s.passRun g w first len clear ps b) := by
  induction bs generalizing s with
  | nil => exact ⟨rfl, fun _ _ => rfl, rfl, fun _ _ => rfl, fun _ _ => rfl⟩
  | cons b bs ih =>
    rw [overList_cons]
    have h1 := s.bankPassed_passRun g w first len clear ps b
    obtain ⟨krest, kothers, kpch, ktags, kmem⟩ := ih (s.passRun g w first len clear ps b)
    generalize s.passRun g w first len clear ps b = s1 at *
    refine ⟨krest.trans (by rw [h1.rest]), fun m hm => (kothers m hm).trans (h1.others m hm), h1.pch.trans kpch, fun c hc => ?_, fun a ha => ?_⟩
    · rw [List.mem_cons, not_or] at hc
      exact (ktags c hc.2).trans (h1.tags c hc.1)
    · refine (kmem a fun c hc => ?_).trans (h1.mem_outside (ha b List.mem_cons_self))
      rw [h1.winStart]
      exact ha c (List.mem_cons_of_mem _ hc)

/-- Where the windows of the banks lie apart, a pass writes each word of a bank's window as it stood before. -/
theorem State.word_after_passes (s : State) (ps : Nat → PassSpec) {bs : List Nat} (hnd : bs.Nodup)
    (hapart : ∀ b ∈ bs, ∀ c ∈ bs, b ≠ c → (s.pch g).winStart g first b + len ≤ (s.pch g).winStart g first c ∨
      (s.pch g).winStart g first c + len ≤ (s.pch g).winStart g first b) {b : Nat} (hb : b ∈ bs) {k : Nat} (hk : k < len / (w / 8)) :
    let a := (s.pch g).winStart g first b + k * (w / 8)
    (overList bs s fun s b => s.passRun g w first len clear ps b).rdNat a (w / 8) =
      (passWord w (ps b) (s.rdNat a (w / 8), (if clear then [] else (s.pch g).tags.get b).contains (first + k * (w / 8)))).1.1 % 256 ^ (w / 8) := by
  intro a
  obtain ⟨l1, l2, rfl⟩ := List.append_of_mem hb
  obtain ⟨hnd1, hnd2, hdisj⟩ := List.nodup_append.mp hnd
  have hnot1 : b ∉ l1 := fun h => hdisj b h b List.mem_cons_self rfl
  have hnot2 : b ∉ l2 := (List.nodup_cons.mp hnd2).1
  have hsplit : overList (l1 ++ b :: l2) s (fun s b => s.passRun g w first len clear ps b) =
      overList l2 ((overList l1 s fun s b => s.passRun g w first len clear ps b).passRun g w first len clear ps b)
        fun s b => s.passRun g w first len clear ps b := List.foldl_append
  rw [hsplit]
  have h1 := s.banksPassed (g := g) (w := w) (first := first) (len := len) (clear := clear) ps l1
  generalize overList l1 s (fun s b => s.passRun g w first len clear ps b) = s1 at h1 ⊢
  have h2 := s1.bankPassed_passRun g w first len clear ps b
  generalize s1.passRun g w first len clear ps b = s2 at h2 ⊢
  have h3 := s2.banksPassed (g := g) (w := w) (first := first) (len := len) (clear := clear) ps l2
  generalize overList l2 s2 (fun s b => s.passRun g w first len clear ps b) = s3 at h3 ⊢
  have hstart1 : ∀ c, (s1.pch g).winStart g first c = (s.pch g).winStart g first c := by
    intro c
    unfold Pch.winStart
    rw [h1.pch]
  have hmine : ∀ x, (s.pch g).winStart g first b ≤ x → x < (s.pch g).winStart g first b + len →
      s1.mem.get x = s.mem.get x ∧ s3.mem.get x = s2.mem.get x := by
    intro x hx1 hx2
    refine ⟨h1.mem x fun c hc => ?_, h3.mem x fun c hc => ?_⟩
    · rcases hapart b (by simp) c (by simp [hc]) (fun e => hnot1 (e ▸ hc)) with h | h
      · exact .inl (by omega)
      · exact .inr (by omega)
    · rw [h2.winStart, hstart1]
      rcases hapart b (by simp) c (by simp [hc]) (fun e => hnot2 (e ▸ hc)) with h | h
      · exact .inl (by omega)
      · exact .inr (by omega)
  have htop : (k + 1) * (w / 8) ≤ len / (w / 8) * (w / 8) := Nat.mul_le_mul_right _ hk
  have hle := Nat.div_mul_le_self len (w / 8)
  have hin : k * (w / 8) + w / 8 ≤ len := by rw [Nat.succ_mul] at htop; omega
  have hold : s1.rdNat a (w / 8) = s.rdNat a (w / 8) := by
    refine congrArg natOfBytes (State.rdBytes_congr fun x hx1 hx2 => (hmine x ?_ ?_).1) <;> omega
  have htags : (s1.pch g).tags.get b = (s.pch g).tags.get b := h1.tags b hnot1
  have hbytes : s3.rdBytes a (w / 8) = bytesOfNat (w / 8)
      (passWord w (ps b) (s.rdNat a (w / 8), (if clear then [] else (s.pch g).tags.get b).contains (first + k * (w / 8)))).1.1 := by
    rw [← hold, ← htags]
    conv_lhs => rw [← length_bytesOfNat (w / 8) (passWord w (ps b) (s1.rdNat a (w / 8),
      (if clear then [] else (s1.pch g).tags.get b).contains (first + k * (w / 8)))).1.1]
    refine State.rdBytes_of_get fun j hj => ?_
    rw [length_bytesOfNat] at hj
    rw [(hmine (a + j) (by omega) (by omega)).2, h2.mem, Memory.get_write, hstart1, length_passOut,
      if_pos ⟨by omega, by rw [Nat.succ_mul] at htop; omega⟩, show a + j - (s.pch g).winStart g first b = k * (w / 8) + j by omega]
    exact passOut_word s1 (ps b) _ hk hj
  rw [State.rdNat, hbytes, natOfBytes_bytesOfNat]

end

/-! ### A bank job's entry -/

/-- The job goes on to its next entry. -/
def State.jobOn (s : State) (g : Nat) (j : BankJob) : State := s.updPch g fun p => { p with job := some { j with next := j.next + 1 } }

section
variable {s : State} {g : Nat} {n : Node} {j : BankJob} (hjob : (s.pch g).job = some j) (hnode : s.node? j.node = some n)
include hjob hnode

theorem State.jobNode_eq : s.jobNode g = some (n, j) := by
  unfold State.jobNode
  rw [hjob]
  dsimp only
  rw [hnode]
  rfl

theorem exec_bankJob_entry {off v : Nat} {s1 : State} (hat : s.jobAt n j = .entry off v) (hst : s.winStore g jobOwner off 8 v = .ok s1) :
    execBankJob g s = .next (s1.jobOn g j) := by
  have hstep : s.jobStep g n j = some (s1.jobOn g j) := by
    unfold State.jobStep
    rw [hat]
    dsimp only
    rw [hst]
    rfl
  unfold execBankJob
  dsimp only
  rw [hjob]
  dsimp only
  rw [State.jobNode_eq hjob hnode]
  dsimp only
  rw [hstep]

theorem jobCommand_entry {v : Nat} {c : BankCmd} {s1 : State} (hat : s.jobAt n j = .entry 0x10 v) (hc : (s.pch g).cmdCause v = none)
    (hcmd : bankCmd v = some c) (hst : s.winStore g jobOwner 0x10 8 v = .ok s1) : s.jobCommand g c = .next (s1.jobOn g j) := by
  have hjc : s.jobCmd g = some c := by
    unfold State.jobCmd
    rw [State.jobNode_eq hjob hnode]
    dsimp only
    rw [hat]
    exact (if_pos hc).trans hcmd
  exact (if_pos hjc).trans (exec_bankJob_entry hjob hnode hat hst)

theorem exec_ctlWindowWrite {off : Nat} {v : Dword} {s1 : State} (hoff : off ≠ 0x10) (hat : s.jobAt n j = .entry off v.toNat)
    (hst : s.winStore g jobOwner off 8 v.toNat = .ok s1) : exec (.ctlWindowWrite g off true v) s = .next (s1.jobOn g j) := by
  change execCtlWindowWrite g off true v s = _
  unfold execCtlWindowWrite
  rw [State.jobNode_eq hjob hnode]
  dsimp only
  rw [hst]
  exact (if_pos ⟨rfl, hoff, hat, rfl⟩).trans (exec_bankJob_entry hjob hnode hat hst)

end

/-- A COMMAND store of the owner that passes its checks runs the command. -/
theorem State.winStore_command {s : State} {g v : Nat} {c : BankCmd} (hown : (s.pch g).ownedBy jobOwner = true)
    (hc : (s.pch g).cmdCause v = none) (hcmd : bankCmd v = some c) : s.winStore g jobOwner 0x10 8 v = .ok (s.cmdRun g c) := by
  unfold State.winStore
  dsimp only
  rw [if_neg (by decide), if_neg (by decide), if_pos (by decide), if_neg (by decide), hown, if_neg (by decide), hc]
  dsimp only
  rw [hcmd]

theorem Pch.cmdOk_of_cause {p : Pch} {v : Nat} {c : BankCmd} (hc : p.cmdCause v = none) (hcmd : bankCmd v = some c) : p.cmdOk c = true := by
  unfold Pch.cmdCause at hc
  rw [hcmd] at hc
  by_contra h
  rw [Bool.not_eq_true] at h
  dsimp only at hc
  rw [if_pos h] at hc
  cases hc

/-- A store to a register without behaviour of its own. -/
theorem State.winStore_put {s : State} {g off v : Nat} {q : Pch} (hown : (s.pch g).ownedBy jobOwner = true) (h18 : 0x18 ≤ off)
    (hput : (s.pch g).winPut off 8 v = some q) : s.winStore g jobOwner off 8 v = .ok (s.updPch g fun _ => q) := by
  unfold State.winStore
  dsimp only
  rw [if_neg (by omega), if_neg (by omega), if_neg (by omega), hown, if_neg (by simp), hput]

theorem State.pch_jobOn (s : State) (g : Nat) (j : BankJob) :
    (s.jobOn g j).pch g = { s.pch g with job := some { j with next := j.next + 1 } } := by
  rw [State.jobOn, State.pch_updPch_self]

theorem State.pch_jobOn_ne (s : State) {g m : Nat} (j : BankJob) (h : m ≠ g) : (s.jobOn g j).pch m = s.pch m := State.pch_updPch_ne _ _ h

theorem Pch.nodup_banks (p : Pch) : p.banks.Nodup := List.nodup_range.filter _

theorem wsize_pow (k : Nat) : 256 ^ (wsizeBits k / 8) = 2 ^ wsizeBits k := by
  have h : wsizeBits k / 8 * 8 = wsizeBits k := by
    unfold wsizeBits
    rw [Nat.mul_div_cancel_left _ (by decide), Nat.mul_comm]
  rw [show (256 : Nat) = 2 ^ 8 from rfl, ← pow_mul, Nat.mul_comm, h]

/-- Windows of open rows of different banks lie apart. -/
theorem Pch.winStart_apart {p : Pch} {g first len b c : Nat} (hlen : first + len ≤ 1024) (hrows : ∀ b, p.rows.get b ≤ 65536) (h : b ≠ c) :
    p.winStart g first b + len ≤ p.winStart g first c ∨ p.winStart g first c + len ≤ p.winStart g first b := by
  have hb := hrows b
  have hc := hrows c
  unfold Pch.winStart rowAddr
  rcases Nat.lt_or_gt_of_ne h with h | h
  · exact .inl (by omega)
  · exact .inr (by omega)

/-- What a pass does to the windows of the banks of the mask. -/
def PassesDo (s : State) (g w first len : Nat) (ps : PassSpec) (tagged : Nat → Nat → Bool) (s' : State) : Prop :=
  let p := s.pch g
  let start := fun b : Nat => rowAddr g b (p.rows.get b - 1)
  (∀ a, (∀ b ∈ p.banks, a < start b + first ∨ start b + first + len ≤ a) → s'.mem.get a = s.mem.get a) ∧
  ((∀ b, p.rows.get b ≤ 65536) → ∀ b ∈ p.banks, ∀ k, k < len / (w / 8) →
    let a := start b + first + k * (w / 8)
    let x := s.rdNat a (w / 8)
    let hit := (∀ i, i < w → ps.cmask.testBit i = true → x.testBit i = ps.key.testBit i) ∧
      (ps.tcond = 0 ∨ (tagged b (first + k * (w / 8)) = true ↔ ps.tcond = 1))
    (hit → ∀ i, i < w → (s'.rdNat a (w / 8)).testBit i = if ps.wr = true ∧ ps.wmask.testBit i = true then ps.pat.testBit i else x.testBit i) ∧
    (¬ hit → s'.rdNat a (w / 8) = x))

theorem State.passesDo (s : State) {g size first len : Nat} {clear : Bool} {psOf : Nat → PassSpec} {ps : PassSpec}
    {tagged : Nat → Nat → Bool} (hlen : first + len ≤ 1024) (hps : ∀ b ∈ (s.pch g).banks, psOf b = ps)
    (htag : ∀ b o, tagged b o = (if clear then [] else (s.pch g).tags.get b).contains o) :
    PassesDo s g (wsizeBits size) first len ps tagged
      (overList (s.pch g).banks s fun s b => s.passRun g (wsizeBits size) first len clear psOf b) := by
  refine ⟨(s.banksPassed psOf _).mem, fun hrows b hb k hk => ?_⟩
  intro a x hit
  have hword := s.word_after_passes (g := g) (first := first) (len := len) (clear := clear) psOf (s.pch g).nodup_banks
    (fun b _ c _ h => Pch.winStart_apart hlen hrows h) hb hk
  dsimp only at hword
  rw [hps b hb, ← htag, wsize_pow] at hword
  have hx : x < 2 ^ wsizeBits size := by
    have := natOfBytes_lt (s.rdBytes a (wsizeBits size / 8))
    rwa [State.length_rdBytes, wsize_pow] at this
  generalize overList (s.pch g).banks s (fun s b => s.passRun g (wsizeBits size) first len clear psOf b) = s' at hword ⊢
  change s'.rdNat a (wsizeBits size / 8) =
    (passWord (wsizeBits size) ps (x, tagged b (first + k * (wsizeBits size / 8)))).1.1 % 2 ^ wsizeBits size at hword
  rw [hword]
  refine ⟨fun h i hi => ?_, fun h => ?_⟩
  · rw [Nat.testBit_mod_two_pow, passWord_of_hit h hi]
    simp [hi]
  · rw [passWord_of_miss h, Nat.mod_eq_of_lt hx]

/-! ### ACT and PRE -/

theorem SMap.get_setAll {β : Type} [Inhabited β] [DecidableEq β] (bs : List Nat) (m : SMap β) (v : β) (k : Nat) :
    SMap.get (bs.foldl (fun m b => m.set b v) m) k = if k ∈ bs then v else m.get k := by
  induction bs generalizing m with
  | nil => simp
  | cons b bs ih =>
    rw [List.foldl_cons, ih, SMap.get_set]
    by_cases h1 : k ∈ bs
    · simp [h1]
    · by_cases h2 : k = b <;> simp [h1, h2]

theorem State.pch_restoreRows (s : State) (g : Nat) (bs : List Nat) : (s.restoreRows g bs).pch g = { s.pch g with
    rows := bs.foldl (fun m b => m.set b 0) (s.pch g).rows
    tags := bs.foldl (fun m b => m.set b []) (s.pch g).tags
    dirty := bs.foldl (fun m b => m.set b []) (s.pch g).dirty } := by
  unfold State.restoreRows
  dsimp only
  rw [State.pch_updPch_self]
  rfl

theorem State.pch_restoreRows_ne (s : State) {g m : Nat} (bs : List Nat) (h : m ≠ g) : (s.restoreRows g bs).pch m = s.pch m :=
  State.pch_updPch_ne _ _ h

/-! ### MACR (R327) -/

theorem get_macrBank (bf : Bool) (row vec : List Byte) (n len voff acc0 : Nat) (acc : SMap Word) {k : Nat} (hk : k < acc0 ∨ acc0 + n ≤ k) :
    (macrBank bf row vec n len voff acc0 acc).1.get k = acc.get k := by
  unfold macrBank
  dsimp only
  have key : ∀ (l : List Nat) (f : SMap Word × FFlags → Nat → SMap Word × FFlags) (r : SMap Word × FFlags),
      (∀ j ∈ l, j < n) → (∀ r j, ∃ v, (f r j).1 = r.1.set (acc0 + j) v) → (overList l r f).1.get k = r.1.get k := by
    intro l f
    induction l with
    | nil => exact fun _ _ _ => rfl
    | cons j l ih =>
      intro r hl hf
      rw [overList_cons, ih _ (fun i hi => hl i (List.mem_cons_of_mem _ hi)) hf]
      obtain ⟨v, hv⟩ := hf r j
      have := hl j List.mem_cons_self
      rw [hv, SMap.get_set_ne _ _ (by omega)]
  exact key _ _ _ (fun j hj => List.mem_range.mp hj) fun r j => ⟨_, rfl⟩

/-- What MACR leaves: its accumulators and the flags that it raises, and nothing else. -/
structure MacrDone (g : Nat) (a : MacrArgs) (bs : List Nat) (s s' : State) : Prop where
  mem : s'.mem = s.mem
  others : ∀ m, m ≠ g → s'.pch m = s.pch m
  pch : s'.pch g = { s.pch g with acc := (s'.pch g).acc, flags := (s'.pch g).flags }
  acc : ∀ k, (∀ b ∈ bs, k < 64 * b + a.acc ∨ 64 * b + a.acc + a.nacc ≤ k) → (s'.pch g).acc.get k = (s.pch g).acc.get k
  flags : ∀ i, (s.pch g).flags.getLsbD i = true → (s'.pch g).flags.getLsbD i = true

theorem State.macrDone (s : State) (g : Nat) (a : MacrArgs) (bs : List Nat) : MacrDone g a bs s (s.macrRun g a bs) := by
  unfold State.macrRun
  induction bs generalizing s with
  | nil => exact ⟨rfl, fun _ _ => rfl, rfl, fun _ _ => rfl, fun _ h => h⟩
  | cons b bs ih =>
    rw [overList_cons]
    dsimp only
    have hacc := fun k hk => get_macrBank a.bf (s.rdBytes (rowAddr g b ((s.pch g).rows.get b - 1)) 1024)
      ((List.range 512).map fun t => (s.pch g).vec.get (512 * b + t)) a.nacc a.len a.voff (64 * b + a.acc) (s.pch g).acc (k := k) hk
    generalize macrBank a.bf (s.rdBytes (rowAddr g b ((s.pch g).rows.get b - 1)) 1024)
      ((List.range 512).map fun t => (s.pch g).vec.get (512 * b + t)) a.nacc a.len a.voff (64 * b + a.acc) (s.pch g).acc = r at hacc ⊢
    obtain ⟨hmem, hothers, hpch, hkeep, hflags⟩ := ih (s.updPch g fun p => { p with acc := r.1, flags := p.flags ||| r.2 })
    generalize overList bs (s.updPch g fun p => { p with acc := r.1, flags := p.flags ||| r.2 }) _ = s' at hmem hothers hpch hkeep hflags ⊢
    rw [State.pch_updPch_self] at hpch hkeep hflags
    refine ⟨hmem, fun m hm => (hothers m hm).trans (State.pch_updPch_ne _ _ hm), hpch.trans (by rfl), fun k hk => ?_, fun i hi => hflags i ?_⟩
    · exact (hkeep k fun c hc => hk c (List.mem_cons_of_mem _ hc)).trans (hacc k (hk b List.mem_cons_self))
    · simp [hi]

/-! ### The statement -/

/-- A bank job's entry has been performed: the job goes on, and the state is as `P` says. -/
def JobRan (s : State) (g : Nat) (j : BankJob) (ev : Instr) (P : State → Prop) : Prop :=
  ∃ s', exec ev s = .next s' ∧ exec (.bankJob g) s = .next s' ∧ (s'.pch g).job = some { j with next := j.next + 1 } ∧
    (∀ m, m ≠ g → s'.pch m = s.pch m) ∧ P s'

section
variable {s : State} {g : Nat} {n : Node} {j : BankJob} (hjob : (s.pch g).job = some j) (hnode : s.node? j.node = some n)
  (hown : (s.pch g).ownedBy jobOwner = true)
include hjob hnode hown

theorem jobRan_command {ev : Instr} {v : Nat} {c : BankCmd} {P : State → Prop} (hev : exec ev s = s.jobCommand g c)
    (hat : s.jobAt n j = .entry 0x10 v) (hc : (s.pch g).cmdCause v = none) (hcmd : bankCmd v = some c)
    (hothers : ∀ m, m ≠ g → (s.cmdRun g c).pch m = s.pch m) (hP : P ((s.cmdRun g c).jobOn g j)) : JobRan s g j ev P := by
  have hst := State.winStore_command hown hc hcmd
  refine ⟨_, hev.trans (jobCommand_entry hjob hnode hat hc hcmd hst), exec_bankJob_entry hjob hnode hat hst, ?_, fun m hm => ?_, hP⟩
  · rw [State.pch_jobOn]
  · rw [State.pch_jobOn_ne _ _ hm, hothers m hm]

theorem jobRan_put {off : Nat} {v : Dword} {q : Pch} {P : State → Prop} (h18 : 0x18 ≤ off) (hat : s.jobAt n j = .entry off v.toNat)
    (hput : (s.pch g).winPut off 8 v.toNat = some q) (hP : P ((s.updPch g fun _ => q).jobOn g j)) :
    JobRan s g j (.ctlWindowWrite g off true v) P := by
  have hst := State.winStore_put hown h18 hput
  refine ⟨_, exec_ctlWindowWrite hjob hnode (by omega) hat hst, exec_bankJob_entry hjob hnode hat hst, ?_, fun m hm => ?_, hP⟩
  · rw [State.pch_jobOn]
  · rw [State.pch_jobOn_ne _ _ hm, State.pch_updPch_ne _ _ hm]

theorem act_runs {row v : Nat} (hat : s.jobAt n j = .entry 0x10 v) (hc : (s.pch g).cmdCause v = none) (hcmd : bankCmd v = some (.act row)) :
    JobRan s g j (.act g row) fun s' => MemKept s s' ∧
      (∀ b ∈ (s.pch g).banks, (s'.pch g).rows.get b = row + 1 ∧ (s'.pch g).tags.get b = []) ∧
      ∀ b, b ∉ (s.pch g).banks → (s'.pch g).rows.get b = (s.pch g).rows.get b ∧ (s'.pch g).tags.get b = (s.pch g).tags.get b := by
  refine jobRan_command hjob hnode hown rfl hat hc hcmd (fun m hm => ?_) ?_
  · exact (State.pch_updPch_ne _ _ hm).trans (State.pch_restoreRows_ne _ _ hm)
  · have hp : (s.actRun g row).pch g = { (s.restoreRows g (s.pch g).banks).pch g with
        rows := (s.pch g).banks.foldl (fun m b => m.set b (row + 1)) ((s.restoreRows g (s.pch g).banks).pch g).rows
        opened := ((s.actRun g row).pch g).opened } := by
      unfold State.actRun
      dsimp only
      rw [State.pch_updPch_self]
      rfl
    rw [State.pch_jobOn]
    change MemKept s (s.actRun g row) ∧ (∀ b ∈ (s.pch g).banks, ((s.actRun g row).pch g).rows.get b = row + 1 ∧
      ((s.actRun g row).pch g).tags.get b = []) ∧ ∀ b, b ∉ (s.pch g).banks →
        ((s.actRun g row).pch g).rows.get b = (s.pch g).rows.get b ∧ ((s.actRun g row).pch g).tags.get b = (s.pch g).tags.get b
    rw [hp, State.pch_restoreRows]
    dsimp only
    simp only [SMap.get_setAll]
    exact ⟨fun _ => rfl, fun b hb => by simp [hb], fun b hb => by simp [hb]⟩

theorem pre_runs {v : Nat} (hat : s.jobAt n j = .entry 0x10 v) (hc : (s.pch g).cmdCause v = none) (hcmd : bankCmd v = some .pre) :
    JobRan s g j (.pre g) fun s' => MemKept s s' ∧ (∀ b ∈ (s.pch g).banks, (s'.pch g).rows.get b = 0) ∧
      ∀ b, b ∉ (s.pch g).banks → (s'.pch g).rows.get b = (s.pch g).rows.get b := by
  refine jobRan_command hjob hnode hown rfl hat hc hcmd (fun m hm => State.pch_restoreRows_ne _ _ hm) ?_
  rw [State.pch_jobOn]
  change MemKept s (s.preRun g) ∧ (∀ b ∈ (s.pch g).banks, ((s.preRun g).pch g).rows.get b = 0) ∧
    ∀ b, b ∉ (s.pch g).banks → ((s.preRun g).pch g).rows.get b = (s.pch g).rows.get b
  unfold State.preRun
  rw [State.pch_restoreRows]
  dsimp only
  simp only [SMap.get_setAll]
  exact ⟨fun _ => rfl, fun b hb => by simp [hb], fun b hb => by simp [hb]⟩

theorem pass_runs {a : PassArgs} {ps : PassSpec} {v : Nat} (hps : passOfSlot ((s.pch g).passStore.get a.slot).toNat = some ps)
    (hat : s.jobAt n j = .entry 0x10 v) (hc : (s.pch g).cmdCause v = none) (hcmd : bankCmd v = some (.pass a)) :
    JobRan s g j (.pass g a) fun s' =>
      PassesDo s g (wsizeBits a.wsize) a.colFirst a.colLen ps (fun b o => ((s.pch g).tags.get b).contains o) s' ∧
        (s'.pch g).rows = (s.pch g).rows := by
  have hrun : s.cmdRun g (.pass a) = overList (s.pch g).banks s fun s b =>
      s.passRun g (wsizeBits a.wsize) a.colFirst a.colLen false (fun _ => ps) b := by
    unfold State.cmdRun
    dsimp only
    rw [hps]
    rfl
  have hok := Pch.cmdOk_of_cause hc hcmd
  have hlen : a.colFirst + a.colLen ≤ 1024 := by
    simp only [Pch.cmdOk, windowOk, Bool.and_eq_true, decide_eq_true_iff] at hok
    exact hok.1.2
  have hdone := s.banksPassed (g := g) (w := wsizeBits a.wsize) (first := a.colFirst) (len := a.colLen) (clear := false) (fun _ => ps)
    (s.pch g).banks
  have hdo := s.passesDo (g := g) (size := a.wsize) (clear := false) (psOf := fun _ => ps) (ps := ps)
    (tagged := fun b o => ((s.pch g).tags.get b).contains o) hlen (fun _ _ => rfl) (fun _ _ => rfl)
  rw [← hrun] at hdone hdo
  refine jobRan_command hjob hnode hown rfl hat hc hcmd hdone.others ⟨hdo, ?_⟩
  rw [State.pch_jobOn, hdone.pch]

theorem kpass_runs {a : KpassArgs} {v : Nat} (hat : s.jobAt n j = .entry 0x10 v) (hc : (s.pch g).cmdCause v = none)
    (hcmd : bankCmd v = some (.kpass a)) :
    JobRan s g j (.kpass g a) fun s' => (s'.pch g).rows = (s.pch g).rows ∧
      ∀ ps, (∀ b ∈ (s.pch g).banks, passOfRegs ((s.pch g).passRegs.get b).toNat a.tcond a.top a.wr = ps) →
        PassesDo s g (wsizeBits a.wsize) a.colFirst a.colLen ps (fun _ _ => false) s' := by
  have hrun : s.cmdRun g (.kpass a) = overList (s.pch g).banks s fun s' b => s'.passRun g (wsizeBits a.wsize) a.colFirst a.colLen true
      (fun b => passOfRegs ((s.pch g).passRegs.get b).toNat a.tcond a.top a.wr) b := rfl
  have hok := Pch.cmdOk_of_cause hc hcmd
  have hlen : a.colFirst + a.colLen ≤ 1024 := by
    simp only [Pch.cmdOk, windowOk, Bool.and_eq_true, decide_eq_true_iff] at hok
    exact hok.1.2
  have hdone := s.banksPassed (g := g) (w := wsizeBits a.wsize) (first := a.colFirst) (len := a.colLen) (clear := true)
    (fun b => passOfRegs ((s.pch g).passRegs.get b).toNat a.tcond a.top a.wr) (s.pch g).banks
  rw [← hrun] at hdone
  refine jobRan_command hjob hnode hown rfl hat hc hcmd hdone.others ⟨?_, fun ps hps => ?_⟩
  · rw [State.pch_jobOn, hdone.pch]
  · have hdo := s.passesDo (g := g) (size := a.wsize) (clear := true) (ps := ps) (tagged := fun _ _ => false) hlen hps (fun _ _ => rfl)
    rw [← hrun] at hdo
    exact hdo

theorem macr_runs {a : MacrArgs} {v : Nat} (hat : s.jobAt n j = .entry 0x10 v) (hc : (s.pch g).cmdCause v = none)
    (hcmd : bankCmd v = some (.macr a)) :
    let p := s.pch g
    JobRan s g j (.macr g a) fun s' => MemKept s s' ∧ (s'.pch g).rows = p.rows ∧ (s'.pch g).tags = p.tags ∧
      (∀ k, (∀ b ∈ p.banks, k < 64 * b + a.acc ∨ 64 * b + a.acc + a.nacc ≤ k) → (s'.pch g).acc.get k = p.acc.get k) ∧
      (∀ i, p.flags.getLsbD i = true → (s'.pch g).flags.getLsbD i = true) ∧
      ∀ b, p.banks = [b] → a.acc + a.nacc ≤ 64 → ∀ k, k < a.nacc → (s'.pch g).acc.get (64 * b + a.acc + k) =
        ((macrBank a.bf (s.rdBytes (rowAddr g b (p.rows.get b - 1)) 1024) ((List.range 512).map fun t => p.vec.get (512 * b + t)) a.nacc a.len
          a.voff (64 * b + a.acc) p.acc).1).get (64 * b + a.acc + k) := by
  intro p
  have hdone := s.macrDone g a (s.pch g).banks
  refine jobRan_command hjob hnode hown rfl hat hc hcmd hdone.others ?_
  rw [State.pch_jobOn]
  refine ⟨fun x => congrArg (SMap.get · x) hdone.mem, ?_, ?_, hdone.acc, hdone.flags, fun b hb _ k _ => ?_⟩
  · change ((s.macrRun g a p.banks).pch g).rows = p.rows
    rw [hdone.pch]
  · change ((s.macrRun g a p.banks).pch g).tags = p.tags
    rw [hdone.pch]
  · change ((s.macrRun g a p.banks).pch g).acc.get _ = _
    rw [hb]
    unfold State.macrRun
    dsimp only [overList, List.foldl]
    rw [State.pch_updPch_self]

end

/-- The entries of a job that are stores lie at multiples of eight. -/
theorem State.aligned_of_jobAt {s : State} {n : Node} {j : BankJob} {off v : Nat} (h : s.jobAt n j = .entry off v) : off % 8 = 0 := by
  unfold State.jobAt at h
  dsimp only at h
  split at h
  · cases h
  split at h
  · cases h
  split at h
  · cases h
  split at h
  · cases h
  split at h
  next => cases h
  next hb =>
    cases h
    rw [not_or] at hb
    exact not_not.mp hb.1

/-- The eight bytes that a register of `w` bits takes. -/
theorem bits_put {w lo : Nat} (old : BitVec w) (v : Dword) (h : lo + 64 ≤ w) :
    bits (BitVec.ofNat w (putBits old.toNat lo 64 v.toNat)).toNat lo 64 = v.toNat := by
  refine Nat.eq_of_testBit_eq fun i => ?_
  rw [testBit_bits, BitVec.toNat_ofNat, Nat.testBit_mod_two_pow, testBit_putBits]
  by_cases hi : i < 64
  · rw [if_pos ⟨by omega, by omega⟩, show lo + i - lo = i by omega]
    simp [hi, show lo + i < w by omega]
  · have hv : v.toNat.testBit i = false :=
      Nat.testBit_lt_two_pow (lt_of_lt_of_le v.isLt (Nat.pow_le_pow_right (by decide) (by omega)))
    simp [hi, hv]

/-- Settles O53: a command's entry runs the command and the job goes on; a pass writes each bank's window alone, so that the words of
every bank are made of what stood there before. -/
theorem bankCommandsRun : Obligations.BankCommandsRun := by
  unfold Obligations.BankCommandsRun
  intro s g n j p hjob hnode hown runs cmd start passes
  refine ⟨?_, ?_, ?_, ?_, ?_, ?_⟩
  · exact fun row v hat hc hcmd => act_runs hjob hnode hown hat hc hcmd
  · exact fun v hat hc hcmd => pre_runs hjob hnode hown hat hc hcmd
  · exact fun a ps hps v hat hc hcmd => pass_runs hjob hnode hown hps hat hc hcmd
  · exact fun a v hat hc hcmd => kpass_runs hjob hnode hown hat hc hcmd
  · exact fun a v hat hc hcmd => macr_runs hjob hnode hown hat hc hcmd
  · intro off v hat
    have h8 := State.aligned_of_jobAt hat
    refine ⟨fun h => ?_, fun h => ?_, fun h => ?_⟩
    · refine jobRan_put hjob hnode hown (by omega) hat (if_pos h) ⟨fun _ => rfl, ?_, fun k hk => ?_⟩
      · rw [State.pch_jobOn, State.pch_updPch_self]
        dsimp only
        rw [SMap.get_set_self]
        exact bits_put _ v (by omega)
      · rw [State.pch_jobOn, State.pch_updPch_self]
        dsimp only
        rw [SMap.get_set_ne _ _ hk]
    · refine jobRan_put hjob hnode hown (by omega) hat ((if_neg (by omega)).trans (if_pos h)) ⟨fun _ => rfl, ?_, fun k hk => ?_⟩
      · rw [State.pch_jobOn, State.pch_updPch_self]
        dsimp only
        rw [SMap.get_set_self]
        exact bits_put _ v (by omega)
      · rw [State.pch_jobOn, State.pch_updPch_self]
        dsimp only
        rw [SMap.get_set_ne _ _ hk]
    · refine jobRan_put hjob hnode hown (by omega) hat ((if_neg (by omega)).trans ((if_neg (by omega)).trans (if_pos h))) ⟨fun _ => rfl, fun a => ?_⟩
      rw [State.pch_jobOn, State.pch_updPch_self]
      refine (Memory.get_write p.vec _ _ a).trans ?_
      rw [length_bytesOfNat]

end Sys2Proof.Machine
end

section
/-! SUPPORT. Events of the banks (spec/13 R300, R311, R314, R320, R323, R324, R328, R329, spec/16 R392, R393): what the restoring of rows
leaves, how bank jobs and packet nodes end, and the statement about them. -/

namespace Sys2Proof.Machine

open Sys2Proof Sys2Proof.Safety

-- One proof at a time: side by side they need more threads than a check's memory holds.
set_option Elab.async false

/-! ### Functions applied to rows (R311-R314) -/

/-- An entry after applications to rows: its image stands; it may have been done, and rows are noted. -/
structure SweepEntry.Kept (e e' : SweepEntry) : Prop where
  image : e'.img0 = e.img0 ∧ e'.img1 = e.img1 ∧ e'.img2 = e.img2 ∧ e'.ackn = e.ackn
  idle : e.state ≠ 1 → e'.state ≠ 1
  again : e.repeats = true → e'.state = e.state
  noted : ∀ k ∈ e.applied, k ∈ e'.applied

theorem SweepEntry.Kept.refl (e : SweepEntry) : e.Kept e := ⟨⟨rfl, rfl, rfl, rfl⟩, id, fun _ => rfl, fun _ => id⟩

section
variable {e e' : SweepEntry} (h : e.Kept e')
include h

theorem SweepEntry.Kept.colFirst : e'.colFirst = e.colFirst := congrArg (fun x : Word => bits x.toNat 0 10) h.image.2.2.1

theorem SweepEntry.Kept.colLen : e'.colLen = e.colLen := congrArg (fun x : Word => bits x.toNat 10 11) h.image.2.2.1

theorem SweepEntry.Kept.repeats : e'.repeats = e.repeats := congrArg (fun x : Word => bitAt x.toNat 16) h.image.1

theorem SweepEntry.Kept.covers (b row : Nat) : e'.covers b row = e.covers b row := by
  have hmask : e'.mask = e.mask := congrArg (fun x : Word => bits x.toNat 0 16) h.image.1
  have hfirst : e'.rowFirst = e.rowFirst := congrArg (fun x : Word => bits x.toNat 0 16) h.image.2.1
  have hlast : e'.rowLast = e.rowLast := congrArg (fun x : Word => bits x.toNat 16 16) h.image.2.1
  rw [SweepEntry.covers, SweepEntry.covers, hmask, hfirst, hlast]

theorem SweepEntry.Kept.trans {e'' : SweepEntry} (k : e'.Kept e'') : e.Kept e'' where
  image := by
    obtain ⟨h0, h1, h2, h3⟩ := h.image
    obtain ⟨k0, k1, k2, k3⟩ := k.image
    exact ⟨k0.trans h0, k1.trans h1, k2.trans h2, k3.trans h3⟩
  idle hs := k.idle (h.idle hs)
  again hr := (k.again (h.repeats.trans hr)).trans (h.again hr)
  noted x hx := k.noted x (h.noted x hx)

end

theorem SweepEntry.kept_afterRow (e : SweepEntry) (key : Nat) : e.Kept (e.afterRow key) := by
  unfold SweepEntry.afterRow
  dsimp only
  have hnoted : ∀ k ∈ e.applied, k ∈ if e.applied.contains key then e.applied else e.applied ++ [key] := by
    intro k hk
    split
    · exact hk
    · exact List.mem_append_left _ hk
  generalize (if e.applied.contains key then e.applied else e.applied ++ [key]) = l at hnoted ⊢
  split
  next h =>
    refine ⟨⟨rfl, rfl, rfl, rfl⟩, fun _ => show 2 ≠ 1 by decide, fun hr => ?_, hnoted⟩
    simp [hr] at h
  next => exact ⟨⟨rfl, rfl, rfl, rfl⟩, id, fun _ => rfl, hnoted⟩

theorem SweepEntry.mem_applied_afterRow (e : SweepEntry) (key : Nat) : key ∈ (e.afterRow key).applied := by
  have h : key ∈ if e.applied.contains key then e.applied else e.applied ++ [key] := by
    split
    next h => simpa using h
    next => exact List.mem_append_right _ List.mem_cons_self
  unfold SweepEntry.afterRow
  dsimp only
  generalize (if e.applied.contains key then e.applied else e.applied ++ [key]) = l at h ⊢
  split <;> exact h

/-- What the restoring of row `row` in some banks leaves: functions of active entries have written within their windows; images, the sweep's
counter, forcings and other pseudo-channels stand. -/
structure RowsRestored (g row : Nat) (banks : Nat → Prop) (s s' : State) : Prop where
  others : ∀ m, m ≠ g → s'.pch m = s.pch m
  pch : s'.pch g = { s.pch g with
    table := (s'.pch g).table, errs := (s'.pch g).errs, lasting := (s'.pch g).lasting, spares := (s'.pch g).spares
    logged := (s'.pch g).logged }
  entries : ∀ i, ((s.pch g).table.get i).Kept ((s'.pch g).table.get i)
  mem : ∀ a, (∀ i, i < 32 → ((s.pch g).table.get i).state = 1 → ∀ b, banks b →
    a < rowAddr g b row + ((s.pch g).table.get i).colFirst ∨
      rowAddr g b row + ((s.pch g).table.get i).colFirst + ((s.pch g).table.get i).colLen ≤ a) → s'.mem.get a = s.mem.get a

section
variable {g row : Nat} {banks : Nat → Prop}

theorem RowsRestored.refl (s : State) : RowsRestored g row banks s s := ⟨fun _ _ => rfl, rfl, fun _ => .refl _, fun _ _ => rfl⟩

theorem RowsRestored.trans {a b c : State} (h : RowsRestored g row banks a b) (k : RowsRestored g row banks b c) :
    RowsRestored g row banks a c where
  others m hm := (k.others m hm).trans (h.others m hm)
  pch := by rw [k.pch, h.pch]
  entries i := (h.entries i).trans (k.entries i)
  mem x hx := by
    refine (k.mem x fun i hi hs b hb => ?_).trans (h.mem x hx)
    rw [(h.entries i).colFirst, (h.entries i).colLen]
    refine hx i hi ?_ b hb
    by_contra hne
    exact (h.entries i).idle hne hs

theorem RowsRestored.over {α : Type} {f : State → α → State} (l : List α) (s : State)
    (h : ∀ x ∈ l, ∀ s, RowsRestored g row banks s (f s x)) : RowsRestored g row banks s (overList l s f) := by
  induction l generalizing s with
  | nil => exact .refl s
  | cons a l ih => exact (h a List.mem_cons_self s).trans (ih _ fun x hx => h x (List.mem_cons_of_mem _ hx))

end

theorem length_applyFunction (p : Pch) (e : SweepEntry) (ws : List Nat) : (applyFunction p e ws).length = ws.length := by
  unfold applyFunction
  dsimp only
  split
  · exact List.length_map _
  · rw [List.length_map]
    have key : ∀ (ps : List PassSpec) (l : TaggedWords),
        (overList ps l fun l q => l.map fun x => (passWord e.wsize q x).1).length = l.length := by
      intro ps
      induction ps with
      | nil => exact fun _ => rfl
      | cons q ps ih => exact fun l => (ih _).trans (List.length_map _)
    exact (key _ _).trans (List.length_map _)

theorem State.pch_applyEntry (s : State) (g b row i m : Nat) : (s.applyEntry g b row i).pch m =
    if m = g then { s.pch g with table := (s.pch g).table.upd i fun x => x.afterRow (rowId b row) } else s.pch m := by
  have hp : ∀ (s : State) (core : Option Nat) (a : Nat) (bs : List Byte) m, (s.physWrite core a bs).pch m = s.pch m := by
    intro s core a bs m
    unfold State.physWrite
    split <;> rfl
  have hgangs : ∀ (s : State) f m, (s.overGangs f).pch m = s.pch m := fun _ _ _ => rfl
  unfold State.applyEntry
  dsimp only
  rw [hgangs]
  split
  next h =>
    subst h
    rw [State.pch_updPch_self, hp]
  next h => rw [State.pch_updPch_ne _ _ h, hp]

theorem State.rowsRestored_applyEntry {s : State} {g b row i : Nat} {banks : Nat → Prop} (hb : banks b) (hi : i < 32)
    (hstate : ((s.pch g).table.get i).state = 1) : RowsRestored g row banks s (s.applyEntry g b row i) where
  others m hm := by rw [State.pch_applyEntry, if_neg hm]
  pch := by rw [State.pch_applyEntry, if_pos rfl]
  entries k := by
    rw [State.pch_applyEntry, if_pos rfl]
    dsimp only
    by_cases hk : k = i
    · subst hk
      rw [SMap.get_upd_self]
      exact SweepEntry.kept_afterRow _ _
    · rw [SMap.get_upd_ne _ _ hk]
      exact .refl _
  mem a ha := by
    have hout := ha i hi hstate b hb
    unfold State.applyEntry
    dsimp only
    change (State.physWrite s none _ _).mem.get a = _
    rw [State.mem_physWrite, Memory.get_write]
    refine if_neg ?_
    rw [Tests.length_flatMap_const _ (((s.pch g).table.get i).wsize / 8) _ fun _ _ => length_bytesOfNat _ _, length_applyFunction,
      length_wordsOf]
    have := Nat.div_mul_le_self ((s.pch g).table.get i).colLen (((s.pch g).table.get i).wsize / 8)
    omega

/-! ### Rows, steps and forcings -/

/-- Entry `i` is due at a row, in the step given (R314). -/
def State.due (s : State) (g b row : Nat) (step : Option Dword) (i : Nat) : Bool :=
  ((s.pch g).table.get i).applicable b row && decide (step ≠ some ((s.pch g).table.get i).ackn)

/-- Entry `i`'s turn in the restoring of a row. -/
def State.applyDue (s : State) (g b row : Nat) (step : Option Dword) (i : Nat) : State :=
  if s.due g b row step i then s.applyEntry g b row i else s

theorem State.restoreRow_eq (s : State) (g b row : Nat) (step : Option Dword) :
    s.restoreRow g b row step = if (List.range 32).any (s.due g b row step) then
      (overList (List.range 32) s fun s i => s.applyDue g b row step i).dropRaces (linesOf (rowAddr g b row) 1024)
    else overList (List.range 32) s fun s i => s.applyDue g b row step i := rfl

theorem State.pch_dropRaces (s : State) (lines : List Nat) (m : Nat) : (s.dropRaces lines).pch m = s.pch m := by
  unfold State.dropRaces
  induction lines generalizing s with
  | nil => rfl
  | cons a l ih =>
    refine (ih _).trans ?_
    dsimp only
    split <;> rfl

section
variable {g row : Nat} {banks : Nat → Prop}

theorem RowsRestored.dropRaces (s : State) (lines : List Nat) : RowsRestored g row banks s (s.dropRaces lines) where
  others m _ := s.pch_dropRaces lines m
  pch := by rw [State.pch_dropRaces]
  entries i := by rw [State.pch_dropRaces]; exact .refl _
  mem a _ := by rw [State.dropRaces_mem]

theorem State.rowsRestored_applyDue {s : State} {b i : Nat} (hb : banks b) (hi : i < 32) (step : Option Dword) :
    RowsRestored g row banks s (s.applyDue g b row step i) := by
  unfold State.applyDue
  split
  next h =>
    refine State.rowsRestored_applyEntry hb hi ?_
    simp only [State.due, SweepEntry.applicable, Bool.and_eq_true, beq_iff_eq] at h
    exact h.1.1.1
  next => exact .refl s

theorem State.rowsRestored_entries (s : State) {b : Nat} (hb : banks b) (step : Option Dword) {l : List Nat} (hl : ∀ i ∈ l, i < 32) :
    RowsRestored g row banks s (overList l s fun s i => s.applyDue g b row step i) :=
  .over l s fun i hi _ => State.rowsRestored_applyDue hb (hl i hi) step

theorem State.rowsRestored_restoreRow (s : State) {b : Nat} (hb : banks b) (step : Option Dword) :
    RowsRestored g row banks s (s.restoreRow g b row step) := by
  have hrows := s.rowsRestored_entries (g := g) (row := row) hb step (l := List.range 32) fun i hi => List.mem_range.mp hi
  rw [State.restoreRow_eq]
  split
  · exact hrows.trans (.dropRaces _ _)
  · exact hrows

theorem State.rowsRestored_spare (s : State) (b : Nat) : RowsRestored g row banks s (s.updPch g fun p => p.spareRow b row) := by
  have hspare : (s.pch g).spareRow b row = { s.pch g with
      errs := ((s.pch g).spareRow b row).errs, lasting := ((s.pch g).spareRow b row).lasting, spares := ((s.pch g).spareRow b row).spares
      logged := ((s.pch g).spareRow b row).logged } := by
    unfold Pch.spareRow
    dsimp only
    split
    · split <;> rfl
    · rfl
  refine ⟨fun m hm => State.pch_updPch_ne _ _ hm, ?_, fun i => ?_, fun _ _ => rfl⟩
  · rw [State.pch_updPch_self, hspare]
  · rw [State.pch_updPch_self, hspare]
    exact .refl _

end

/-- One bank's turn in a step of the sweep. -/
def State.sweepBank (s : State) (g row : Nat) (step : Option Dword) (b : Nat) : State :=
  (s.restoreRow g b row step).updPch g fun p => p.spareRow b row

theorem State.rowsRestored_sweepBank (s : State) {g row b : Nat} {banks : Nat → Prop} (hb : banks b) (step : Option Dword) :
    RowsRestored g row banks s (s.sweepBank g row step b) :=
  (s.rowsRestored_restoreRow hb step).trans (State.rowsRestored_spare _ b)

/-- A repeating entry that is due at a row of a bank has been applied to it when the bank is restored. -/
theorem State.applied_restoreRow (s : State) {g b row i : Nat} {step : Option Dword} (hi : i < 32)
    (hstate : ((s.pch g).table.get i).state = 1) (hrep : ((s.pch g).table.get i).repeats = true)
    (hstep : step ≠ some ((s.pch g).table.get i).ackn) (hcov : ((s.pch g).table.get i).covers b row = true) :
    rowId b row ∈ (((s.restoreRow g b row step).pch g).table.get i).applied := by
  obtain ⟨l1, l2, hl⟩ := List.append_of_mem (List.mem_range.mpr hi)
  have hin : ∀ j ∈ l1 ++ i :: l2, j < 32 := fun j hj => List.mem_range.mp (hl ▸ hj)
  have h1 := s.rowsRestored_entries (g := g) (row := row) (banks := fun _ => True) (b := b) trivial step (l := l1)
    fun j hj => hin j (List.mem_append_left _ hj)
  have hsplit : overList (List.range 32) s (fun s i => s.applyDue g b row step i) =
      overList l2 ((overList l1 s fun s i => s.applyDue g b row step i).applyDue g b row step i) fun s i => s.applyDue g b row step i := by
    rw [hl]
    exact List.foldl_append
  have hdone : rowId b row ∈ (((overList (List.range 32) s fun s i => s.applyDue g b row step i).pch g).table.get i).applied := by
    rw [hsplit]
    generalize overList l1 s (fun s i => s.applyDue g b row step i) = s1 at h1 ⊢
    have hdue : s1.due g b row step i = true := by
      unfold State.due SweepEntry.applicable
      rw [(h1.entries i).covers, (h1.entries i).repeats, (h1.entries i).again hrep, (h1.entries i).image.2.2.2, hstate, hrep, hcov]
      simp [hstep]
    have h2 : rowId b row ∈ (((s1.applyDue g b row step i).pch g).table.get i).applied := by
      unfold State.applyDue
      rw [if_pos hdue, State.pch_applyEntry, if_pos rfl]
      dsimp only
      rw [SMap.get_upd_self]
      exact SweepEntry.mem_applied_afterRow _ _
    have h3 := (s1.applyDue g b row step i).rowsRestored_entries (g := g) (row := row) (banks := fun _ => True) (b := b) trivial step (l := l2)
      fun j hj => hin j (List.mem_append_right _ (List.mem_cons_of_mem _ hj))
    exact (h3.entries i).noted _ h2
  rw [State.restoreRow_eq]
  split
  · rw [State.pch_dropRaces]
    exact hdone
  · exact hdone

/-- A step of the sweep: the banks in order, then the counter. -/
theorem State.sweepStep_eq (s : State) (g : Nat) : s.sweepStep g =
    (overList (List.range 16) s fun s' b => s'.sweepBank g ((s.pch g).n.toNat % 65536) (some (s.pch g).n) b).updPch g
      fun p => { p with n := p.n + 1 } := rfl

/-- What a step of the sweep leaves. -/
theorem State.swept (s : State) (g : Nat) :
    let n := (s.pch g).n
    let row := n.toNat % 65536
    ∃ s1, RowsRestored g row (fun b => b < 16) s s1 ∧ s.sweepStep g = (s1.updPch g fun p => { p with n := p.n + 1 }) ∧
      ∀ i b, i < 32 → b < 16 → ((s.pch g).table.get i).state = 1 → ((s.pch g).table.get i).repeats = true →
        ((s.pch g).table.get i).ackn ≠ n → ((s.pch g).table.get i).covers b row = true → rowId b row ∈ ((s1.pch g).table.get i).applied := by
  intro n row
  have hrest : ∀ (s : State) (l : List Nat), (∀ b ∈ l, b < 16) →
      RowsRestored g row (fun b => b < 16) s (overList l s fun s' b => s'.sweepBank g row (some n) b) :=
    fun s l hl => .over l s fun b hb s => s.rowsRestored_sweepBank (banks := fun b => b < 16) (hl b hb) _
  refine ⟨_, hrest s (List.range 16) fun b hb => List.mem_range.mp hb, s.sweepStep_eq g, fun i b hi hb hstate hrep hack hcov => ?_⟩
  obtain ⟨l1, l2, hl⟩ := List.append_of_mem (List.mem_range.mpr hb)
  have hin : ∀ j ∈ l1 ++ b :: l2, j < 16 := fun j hj => List.mem_range.mp (hl ▸ hj)
  have hsplit : overList (List.range 16) s (fun s' b => s'.sweepBank g row (some n) b) =
      overList l2 ((overList l1 s fun s' b => s'.sweepBank g row (some n) b).sweepBank g row (some n) b)
        fun s' b => s'.sweepBank g row (some n) b := by
    rw [hl]
    exact List.foldl_append
  rw [hsplit]
  have h1 := hrest s l1 fun j hj => hin j (List.mem_append_left _ hj)
  generalize overList l1 s (fun s' b => s'.sweepBank g row (some n) b) = s1 at h1 ⊢
  have h2 : rowId b row ∈ (((s1.restoreRow g b row (some n)).pch g).table.get i).applied := by
    refine s1.applied_restoreRow hi ?_ ?_ ?_ ?_
    · exact ((h1.entries i).again hrep).trans hstate
    · exact (h1.entries i).repeats.trans hrep
    · rw [(h1.entries i).image.2.2.2]
      exact fun h => hack (Option.some.inj h).symm
    · exact ((h1.entries i).covers b row).trans hcov
  have h3 := (s1.restoreRow g b row (some n)).rowsRestored_spare (g := g) (row := row) (banks := fun b => b < 16) b
  have h4 := hrest (s1.sweepBank g row (some n) b) l2 fun j hj => hin j (List.mem_append_right _ (List.mem_cons_of_mem _ hj))
  exact (h4.entries i).noted _ ((h3.entries i).noted _ h2)

/-! ### Sweep events -/

theorem State.pch_captureRow (s : State) (g row m : Nat) : (s.captureRow g row).pch m = s.pch m := by
  have key : ∀ (l : List (Queue × Packet)) (s : State),
      (overList l s fun s x => s.capturePacket g row x.1 x.2).pch m = s.pch m := by
    intro l
    induction l with
    | nil => exact fun _ => rfl
    | cons x l ih =>
      intro s
      refine (ih _).trans ?_
      unfold State.capturePacket
      dsimp only
      split <;> rfl
  exact key _ s

theorem State.sweepNow_eq {s s1 : State} {g : Nat} (h : s.rowsSeen g = some s1) (k : State → State) : s.sweepNow g k = .next (k s1) := by
  unfold State.sweepNow
  rw [h]

theorem Steady.rowsSeen {s s1 : State} {g : Nat} (h : s.rowsSeen g = some s1) : Steady s s1 := by
  unfold State.rowsSeen State.seenBy at h
  dsimp only at h
  split at h
  · cases h
    exact .sendHome ..
  · cases h

/-- What a step of the sweep, or of the catch-up, leaves (R300, R311). -/
def Swept (s1 s' : State) (g k : Nat) : Prop :=
  let p := s1.pch g
  (s'.pch g).n = p.n + 1 ∧ (s'.pch g).postponed = p.postponed - k ∧
    (∀ m, m ≠ g → s'.pch m = s1.pch m) ∧ ((∀ i, i < 32 → (p.table.get i).state ≠ 1) → MemKept s1 s') ∧
    ((∀ i, i < 32 → (p.table.get i).colFirst + (p.table.get i).colLen ≤ 1024) → ∀ a,
      (∀ b, b < 16 → a < rowAddr g b (p.n.toNat % 65536) ∨ rowAddr g b (p.n.toNat % 65536) + 1024 ≤ a) → s'.mem.get a = s1.mem.get a) ∧
    ∀ i b, i < 32 → b < 16 → (p.table.get i).state = 1 → (p.table.get i).repeats = true → (p.table.get i).ackn ≠ p.n →
      (p.table.get i).covers b (p.n.toNat % 65536) = true → rowId b (p.n.toNat % 65536) ∈ ((s'.pch g).table.get i).applied

theorem State.swept_sweepOn (s1 : State) (g : Nat) : Swept s1 (s1.sweepOn g) g 0 := by
  obtain ⟨s2, hrows, hstep, happ⟩ := s1.swept g
  have hp : ∀ m, (s1.sweepOn g).pch m = (s2.updPch g fun p => { p with n := p.n + 1 }).pch m := fun m => by
    rw [State.sweepOn, State.pch_captureRow, hstep]
  have hm : (s1.sweepOn g).mem = s2.mem := by
    rw [State.sweepOn, State.captureRow_mem, hstep]
    rfl
  have hn : (s2.pch g).n = (s1.pch g).n := by rw [hrows.pch]
  have hpost : (s2.pch g).postponed = (s1.pch g).postponed := by rw [hrows.pch]
  refine ⟨?_, ?_, fun m hm => ?_, fun hidle a => ?_, fun hcols a ha => ?_, fun i b hi hb hs hr hk hc => ?_⟩
  · rw [hp, State.pch_updPch_self, hn]
  · rw [hp, State.pch_updPch_self, hpost]
    rfl
  · rw [hp, State.pch_updPch_ne _ _ hm, hrows.others m hm]
  · rw [hm]
    exact hrows.mem a fun i hi hs => absurd hs (hidle i hi)
  · rw [hm]
    refine hrows.mem a fun i hi _ b hb => ?_
    have h1 := hcols i hi
    have h2 := ha b hb
    omega
  · rw [hp, State.pch_updPch_self]
    exact happ i b hi hb hs hr hk hc

theorem Swept.counted {s1 s' : State} {g : Nat} (h : Swept s1 s' g 0) :
    Swept s1 (s'.updPch g fun p => { p with postponed := p.postponed - 1 }) g 1 := by
  obtain ⟨hn, hpost, hothers, hidle, hcols, happ⟩ := h
  refine ⟨?_, ?_, fun m hm => ?_, hidle, hcols, ?_⟩
  · rw [State.pch_updPch_self]
    exact hn
  · rw [State.pch_updPch_self, hpost]
    rfl
  · rw [State.pch_updPch_ne _ _ hm, hothers m hm]
  · rw [State.pch_updPch_self]
    exact happ

theorem exec_sweepStep {s : State} {g : Nat} (hg : g < 1024) (hheld : (s.pch g).held = false) (hpost : (s.pch g).postponed = 0) :
    ∀ s1, s.rowsSeen g = some s1 → ∃ s', exec (.sweepStep g) s = .next s' ∧ Swept s1 s' g 0 := by
  intro s1 hs
  refine ⟨_, (if_neg ?_).trans ((if_neg ?_).trans (State.sweepNow_eq hs _)), s1.swept_sweepOn g⟩
  · rw [show numPchs = 1024 from rfl]
    omega
  · rw [hheld, hpost]
    decide

theorem exec_catchupStep {s : State} {g : Nat} (hheld : (s.pch g).held = false) (hpost : 0 < (s.pch g).postponed) :
    ∀ s1, s.rowsSeen g = some s1 → ∃ s', exec (.catchupStep g) s = .next s' ∧ Swept s1 s' g 1 := by
  intro s1 hs
  refine ⟨_, (if_neg ?_).trans (State.sweepNow_eq hs _), (s1.swept_sweepOn g).counted⟩
  rw [hheld]
  rintro (h | h)
  · cases h
  · omega

theorem sweep_postponed {s : State} {g : Nat} (hg : g < 1024) (h : (s.pch g).held = true ∨ 0 < (s.pch g).postponed) :
    ∃ s', exec (.sweepStep g) s = .next s' ∧ MemKept s s' ∧
      s'.pch g = { s.pch g with postponed := (s.pch g).postponed + 1 } ∧ ∀ m, m ≠ g → s'.pch m = s.pch m := by
  refine ⟨_, (if_neg ?_).trans (if_pos h), fun _ => rfl, State.pch_updPch_self .., fun m hm => State.pch_updPch_ne _ _ hm⟩
  rw [show numPchs = 1024 from rfl]
  omega

theorem State.pch_spent (s : State) (n g : Nat) : (s.spent n).pch g = s.pch g := rfl

/-- The forcings that are left once row `key` of forcing `f` has been taken. -/
def Pch.forcingsLeft (f : Forcing) (key : Nat) (q : Pch) : List Forcing :=
  (q.forcings.map fun x => if x = f then { x with rows := (q.forcedRows x).filter (· != key) } else x).filter fun x => !(q.forcedRows x).isEmpty

theorem Pch.mem_forcingsLeft {f : Forcing} {key : Nat} {q : Pch} {x : Forcing} (h : x ∈ q.forcingsLeft f key) :
    x ∈ q.forcings ∨ (x.entry = f.entry ∧ x.num = f.num ∧ key ∉ x.rows) := by
  obtain ⟨y, hy, rfl⟩ := List.mem_map.mp (List.mem_filter.mp h).1
  split
  next he =>
    subst he
    exact .inr ⟨rfl, rfl, by simp⟩
  next => exact .inl hy

theorem row_forced {s s1 : State} {g : Nat} (hheld : (s.pch g).held = false) (hnext : (s.pch g).forcedNext ≠ []) (hs : s.rowsSeen g = some s1) :
    ∃ s' f key, exec (.forcedRowApply g) s = .next s' ∧ (f, key) ∈ (s.pch g).forcedNext ∧
      s'.mem = (s1.restoreRow g (key / 65536) (key % 65536) none).mem ∧ (s'.pch g).n = (s1.pch g).n ∧
      ∀ x ∈ (s'.pch g).forcings, x ∈ (s1.pch g).forcings ∨ (x.entry = f.entry ∧ x.num = f.num ∧ key ∉ x.rows) := by
  have hlen : 0 < (s.pch g).forcedNext.length := List.length_pos_iff.mpr hnext
  have hpick : Config.choice s.free % max 1 (s.pch g).forcedNext.length < (s.pch g).forcedNext.length := by
    rw [Nat.max_eq_right hlen]
    exact Nat.mod_lt _ hlen
  obtain ⟨⟨f, key⟩, hx⟩ : ∃ x, (s.pch g).forcedNext[Config.choice s.free % max 1 (s.pch g).forcedNext.length]? = some x :=
    ⟨_, List.getElem?_eq_getElem hpick⟩
  have hexec : exec (.forcedRowApply g) s = .next (((s1.restoreRow g (key / 65536) (key % 65536) none).updPch g
      fun q => { q with forcings := q.forcingsLeft f key }).spent s.free) := by
    change execForcedRowApply g s = _
    unfold execForcedRowApply
    dsimp only
    rw [hheld, hx]
    exact State.sweepNow_eq hs _
  have hrows := s1.rowsRestored_restoreRow (g := g) (row := key % 65536) (banks := fun _ => True) (b := key / 65536) trivial none
  generalize hs2 : s1.restoreRow g (key / 65536) (key % 65536) none = s2 at hexec hrows
  refine ⟨_, f, key, hexec, List.mem_of_getElem? hx, ?_, ?_, fun x hx => ?_⟩
  · rw [hs2]
    rfl
  · rw [State.pch_spent, State.pch_updPch_self, hrows.pch]
  · have hf : (s2.pch g).forcings = (s1.pch g).forcings := by rw [hrows.pch]
    rw [State.pch_spent, State.pch_updPch_self] at hx
    rw [← hf]
    exact Pch.mem_forcingsLeft hx

/-! ### All-bank mode and the ends of jobs -/

/-- The mode is free: every row is closed. -/
def Pch.Left (p : Pch) (reason : Option Nat) : Prop :=
  p.held = false ∧ p.job = none ∧ (∀ b, b < 16 → p.rows.get b = 0) ∧ p.reason = reason

theorem State.pch_invalidateRows (s : State) (g : Nat) : (s.invalidateRows g).pch g = { s.pch g with opened := ((s.invalidateRows g).pch g).opened } := by
  have hdrop : ∀ lines, ((s.dropRaces lines).updPch g fun p => { p with opened := [] }).pch g = { s.pch g with opened := [] } := fun lines => by
    rw [State.pch_updPch_self, State.pch_dropRaces]
  obtain ⟨o, ho⟩ : ∃ o, (s.invalidateRows g).pch g = { s.pch g with opened := o } := by
    unfold State.invalidateRows
    dsimp only
    split
    · exact ⟨_, rfl⟩
    · exact ⟨[], hdrop _⟩
  rw [ho]

theorem State.rows_closed (s : State) (g b : Nat) (hb : b < 16) : (((s.restoreRows g (List.range 16)).invalidateRows g).pch g).rows.get b = 0 := by
  rw [State.pch_invalidateRows, State.pch_restoreRows]
  dsimp only
  rw [SMap.get_setAll, if_pos (List.mem_range.mpr hb)]

theorem State.left_exitMode (s : State) (g : Nat) : ((s.exitMode g).pch g).Left (s.pch g).reason := by
  unfold State.exitMode
  rw [State.pch_updPch_self]
  refine ⟨rfl, rfl, s.rows_closed g, ?_⟩
  dsimp only
  rw [State.pch_invalidateRows, State.pch_restoreRows]

theorem State.left_forceExit (s : State) (g reason : Nat) (lost : Bool) : ((s.forceExit g reason lost).pch g).Left (some reason) := by
  unfold State.forceExit
  rw [State.pch_updPch_self]
  exact ⟨rfl, rfl, s.rows_closed g, rfl⟩

theorem State.lost_forceExit (s : State) (g reason : Nat) : ((s.forceExit g reason true).pch g).lost =
    (s.pch g).lost ++ [((s.pch g).owner.toNat, (s.pch g).ocrew.toNat, reason)] := by
  unfold State.forceExit
  rw [State.pch_updPch_self]
  dsimp only
  rw [if_pos rfl, State.pch_invalidateRows, State.pch_restoreRows]

theorem State.pch_physWrite (s : State) (core : Option Nat) (a : Nat) (bs : List Byte) (g : Nat) : (s.physWrite core a bs).pch g = s.pch g := by
  unfold State.physWrite
  split <;> rfl

theorem State.pch_complWrite (s : State) (dom status : Nat) (n : Node) (g : Nat) : (s.complWrite dom status n).pch g = s.pch g := by
  unfold State.complWrite
  generalize bytesOfNat 64 (complRecord status n) = bs
  split
  · exact State.pch_physWrite ..
  · rfl

/-- What the end of a node does once what the pool sees is at its home: the record, and the pool without the node. -/
theorem State.endNode_eq (s : State) (id status : Nat) : let s1 := s.sendHome (s.passed [.module])
    s.endNode id status = match s1.node? id with
      | none => s1
      | some n =>
        let s2 := s1.complWrite n.desc.domain status (if status = 3 then { (default : Node) with desc := n.desc } else n)
        { s2 with pool := { s2.pool with nodes := (s2.pool.nodes.filter fun m => m.id != id).map fun m => if m.deps.contains id then
          { m with deps := m.deps.filter (· != id), depBad := m.depBad || status != 1 } else m } } := rfl

theorem State.pch_endNode (s : State) (id status g : Nat) : (s.endNode id status).pch g = s.pch g := by
  rw [State.endNode_eq]
  dsimp only
  have hsend := (Steady.sendHome s (s.passed [.module])).pch g
  generalize s.sendHome (s.passed [.module]) = s1 at hsend ⊢
  rw [← hsend]
  split
  · rfl
  next n _ =>
    have hw := s1.pch_complWrite n.desc.domain status (if status = 3 then { (default : Node) with desc := n.desc } else n) g
    generalize s1.complWrite n.desc.domain status (if status = 3 then { (default : Node) with desc := n.desc } else n) = s2 at hw ⊢
    exact hw

/-- A node that has ended is in the pool no more. -/
theorem State.node?_endNode (s : State) (id status : Nat) : (s.endNode id status).node? id = none := by
  rw [State.endNode_eq]
  dsimp only
  generalize s.sendHome (s.passed [.module]) = s1
  split
  next h => exact h
  next n h =>
    generalize s1.complWrite n.desc.domain status (if status = 3 then { (default : Node) with desc := n.desc } else n) = s2
    unfold State.node?
    refine List.find?_eq_none.mpr fun m hm => ?_
    obtain ⟨k, hk, rfl⟩ := List.mem_map.mp hm
    have hid : k.id ≠ id := by simpa using (List.mem_filter.mp hk).2
    split <;> simpa using hid

theorem State.node?_id {s : State} {id : Nat} {n : Node} (h : s.node? id = some n) : n.id = id := by
  have := List.find?_some h
  simpa using this

/-- A bank job has ended: the mode is free and its node is over. -/
def JobEnded (s' : State) (g id : Nat) (reason : Option Nat) : Prop :=
  (s'.pch g).held = false ∧ (s'.pch g).job = none ∧ (∀ b, b < 16 → (s'.pch g).rows.get b = 0) ∧ (s'.pch g).reason = reason ∧ s'.node? id = none

theorem State.jobEnded_doneNode (s : State) (g id : Nat) : JobEnded ((s.exitMode g).doneNode id) g id (s.pch g).reason := by
  obtain ⟨hheld, hjob, hrows, hreason⟩ := s.left_exitMode g
  generalize s.exitMode g = s1 at *
  unfold State.doneNode JobEnded
  rw [State.pch_endNode]
  exact ⟨hheld, hjob, hrows, hreason, State.node?_endNode ..⟩

theorem State.jobEnded_jobFail (s : State) (g reason : Nat) (n : Node) (j : BankJob) (cause fva : Nat) :
    JobEnded (s.jobFail g reason n j cause fva) g n.id (some reason) := by
  obtain ⟨hheld, hjob, hrows, hreason⟩ := s.left_forceExit g reason false
  unfold State.jobFail
  generalize s.forceExit g reason false = s1 at *
  unfold State.failNode JobEnded
  rw [State.pch_endNode]
  exact ⟨hheld, hjob, hrows, hreason, State.node?_endNode ..⟩

section
variable {s : State} {g : Nat} {n : Node} {j : BankJob} (hjob : (s.pch g).job = some j) (hnode : s.node? j.node = some n)
include hjob hnode

theorem exec_bankJob_step {s1 : State} (h : s.jobStep g n j = some s1) : exec (.bankJob g) s = .next s1 := by
  change execBankJob g s = _
  unfold execBankJob
  dsimp only
  rw [hjob]
  dsimp only
  rw [State.jobNode_eq hjob hnode]
  dsimp only
  rw [h]

theorem job_finished (hat : s.jobAt n j = .finished) (hend : s.jobMayEnd g n = true) :
    exec (.bankJob g) s = .next ((s.exitMode g).doneNode n.id) ∧ exec (.allbankExit g) s = .next ((s.exitMode g).doneNode n.id) := by
  have hstep : s.jobStep g n j = some ((s.exitMode g).doneNode n.id) := by
    unfold State.jobStep
    rw [hat]
    exact if_pos hend
  refine ⟨exec_bankJob_step hjob hnode hstep, ?_⟩
  change execAllbankExit g s = _
  unfold execAllbankExit
  rw [State.jobNode_eq hjob hnode]
  exact (if_pos hat).trans (exec_bankJob_step hjob hnode hstep)

theorem job_bad {c va : Nat} (hat : s.jobAt n j = .bad c va) (hend : s.jobMayEnd g n = true) :
    exec (.bankJob g) s = .next (s.jobFail g 2 n j c va) := by
  refine exec_bankJob_step hjob hnode ?_
  unfold State.jobStep
  rw [hat]
  exact if_pos hend

theorem job_broken {m : Nat × Nat × Nat} (hat : s.jobAt n j = .broken m) (hend : s.jobMayEnd g n = true) :
    exec (.bankJob g) s = .next ((s.logMc m.1 m.2.1 m.2.2).jobFail g 2 n j 0xB0 0) := by
  refine exec_bankJob_step hjob hnode ?_
  unfold State.jobStep
  rw [hat]
  exact if_pos hend

theorem job_timedOut (hheld : (s.pch g).held = true) (hend : s.jobMayEnd g n = true) :
    exec (.allbankTimeout g) s = .next (s.jobFail g 0 n j 0x91 0) := by
  refine (if_neg (by rw [hheld]; decide)).trans ?_
  rw [State.jobNode_eq hjob hnode]
  exact if_pos hend

end

theorem crew_timedOut {s : State} {g : Nat} (hheld : (s.pch g).held = true) (hjob : (s.pch g).job = none) :
    exec (.allbankTimeout g) s = .next (s.forceExit g 0 true) := by
  have hnone : s.jobNode g = none := by
    unfold State.jobNode
    rw [hjob]
  refine (if_neg (by rw [hheld]; decide)).trans ?_
  rw [hnone]

/-- A job enters the mode once it is free. -/
theorem job_enters {s s1 : State} {g id : Nat} {rest : List Nat} {n : Node} (hheld : (s.pch g).held = false) (hpost : (s.pch g).postponed = 0)
    (hjob : (s.pch g).job = none) (hjobs : (s.pch g).jobs = id :: rest) (hnode : s.node? id = some n) (hs : s.rowsSeen g = some s1) :
    ∃ s', exec (.allbankEnter g 0x1FFFFF 0 (n.desc.param 2)) s = .next s' ∧ exec (.bankJob g) s = .next s' ∧ MemKept s1 s' ∧
      (let q := s'.pch g;
        q.held = true ∧ q.owner.toNat = 0x1FFFFF ∧ q.ocrew = 0 ∧ q.bankmask.toNat = n.desc.param 2 % 65536 ∧ q.flags = 0 ∧ q.acc = [] ∧
        q.vec = [] ∧ q.opened = [] ∧ q.jobs = rest ∧ q.job = some { node := id, next := 0, entered := true } ∧ ∀ b, b < 16 → q.rows.get b = 0) := by
  have hfree : ¬ ((s.pch g).held = true ∨ (s.pch g).postponed > 0) := by
    rw [hheld, hpost]
    decide
  have hexec : execBankJob g s = .next ((s1.enterMode g jobOwner (n.desc.param 2) (some { node := id, next := 0, entered := true })).updPch g
      fun q => { q with jobs := rest }) := by
    unfold execBankJob
    dsimp only
    rw [hjob, hjobs]
    dsimp only
    rw [if_neg hfree, hnode]
    exact State.sweepNow_eq hs _
  refine ⟨_, ?_, hexec, fun _ => rfl, ?_⟩
  · refine (if_neg hfree).trans ((if_pos rfl).trans ?_)
    rw [hjobs]
    exact (if_pos (by rw [hnode]; rfl)).trans hexec
  · rw [State.pch_updPch_self, State.enterMode, State.pch_updPch_self]
    refine ⟨rfl, rfl, rfl, ?_, rfl, rfl, rfl, rfl, rfl, rfl, fun b hb => ?_⟩
    · simp
    · dsimp only
      rw [State.pch_restoreRows]
      dsimp only
      rw [SMap.get_setAll, if_pos (List.mem_range.mpr hb)]

end Sys2Proof.Machine
end

section
/-! SUPPORT. Proofs, part Y7. -/
namespace Sys2Proof.Machine
open Sys2Proof Sys2Proof.Safety
-- One proof at a time: side by side they need more threads than a check's memory holds.
set_option Elab.async false

/-- A store that waits for the mode is performed at the controller, in the turn of its gang. -/
theorem store_enters {s s2 : State} {g t : Nat} {x : Gang} {r : ClauseRun} {i : Instr} {c mask : Nat} (hgangs : (s.wg t).gangs = [x])
    (hclause : x.clause = some r) (hinstr : r.instr = some i) (hi : ∃ w o sc a d st, i = .st w o sc a d st)
    (hlane : ∃ l ∈ lanesOf x.hset x.mask, ((s.wg t).lane l).crew = some c) (hpark : x.park = some (.bank g))
    (hgang : (s.wg t).gangHeld x = false) (hquad : s.quadBusy (s.wg t).core (quadOf x.hset) (t, x.id) = false)
    (hheld : (s.pch g).held = false) (hpost : (s.pch g).postponed = 0) (howner : (t, c) ≠ jobOwner)
    (hexec : exec i { (s.updGang t x.id fun y => { y with park := none, ages := List.replicate 8 0, clause := some { r with pend := r.pend } })
      with agenda := .gang t x.id :: s.agenda } = .next s2)
    (hleft : ∀ y, (s2.wg t).gang? x.id = some y → y.park ≠ some (.bank g)) (hown : (s2.pch g).ownedBy (t, c) = true)
    (hmask : (s2.pch g).bankmask.toNat = mask) : exec (.allbankEnter g t c mask) s = .next s2 := by
  have hfree : ¬ ((s.pch g).held = true ∨ (s.pch g).postponed > 0) := by
    rw [hheld, hpost]
    decide
  have hagain : s.again t x (.bank g) id = some s2 := by
    obtain ⟨w, o, sc, a, d, st, rfl⟩ := hi
    have haccess : accessExec (.st w o sc a d st) { (s.updGang t x.id fun y => { y with park := none, ages := freshAges, clause := some { r with pend := id r.pend } })
        with agenda := .gang t x.id :: s.agenda } = some (.next s2) := congrArg some hexec
    unfold State.again
    rw [hclause]
    dsimp only
    rw [hinstr]
    dsimp only
    rw [haccess]
    dsimp only
    split
    next y hy => exact if_neg fun h => hleft y hy h.1
    · rfl
  have hmine : ((match r.instr with | some (.st ..) => true | _ => false) && x.lanes.any fun l => ((s.wg t).lane l).crew == some c) = true := by
    obtain ⟨w, o, sc, a, d, st, rfl⟩ := hi
    obtain ⟨l, hl, hcrew⟩ := hlane
    rw [hinstr]
    exact List.any_eq_true.mpr ⟨l, hl, by rw [hcrew]; exact beq_self_eq_true _⟩
  have hentry : s.waitingEntry g t c mask = some s2 := by
    unfold State.waitingEntry
    rw [hgangs]
    refine (List.findSome?_singleton ..).trans ?_
    dsimp only
    rw [hclause]
    dsimp only
    refine (if_neg ?_).trans ?_
    · rw [hgang, hquad]
      rintro (h | h | h | h)
      · exact Bool.noConfusion (hmine.symm.trans h)
      · exact h hpark
      · cases h
      · cases h
    · rw [hagain]
      exact if_pos ⟨hown, hmask⟩
  refine (if_neg hfree).trans ((if_neg howner).trans ?_)
  rw [hentry]

section
variable {s : State} {id : Nat} {n : Node}

theorem State.node?_updNode (hnode : s.node? id = some n) (f : Node → Node) (hf : (f n).id = n.id) :
    (s.updNode id f).node? id = some (f n) := by
  unfold State.node? State.updNode at *
  dsimp only
  generalize s.pool.nodes = ns at hnode
  induction ns with
  | nil => cases hnode
  | cons m ms ih =>
    rw [List.map_cons]
    by_cases hm : m.id = id
    · rw [List.find?_cons_of_pos (by simpa using hm)] at hnode
      obtain rfl := Option.some.inj hnode
      rw [if_pos hm, List.find?_cons_of_pos]
      rw [hf]
      simpa using hm
    · rw [List.find?_cons_of_neg (by simpa using hm)] at hnode
      rw [if_neg hm, List.find?_cons_of_neg (by simpa using hm)]
      exact ih hnode

theorem State.node?_physWrite (s : State) (core : Option Nat) (a : Nat) (bs : List Byte) (id : Nat) :
    (s.physWrite core a bs).node? id = s.node? id := by
  unfold State.node?
  rw [(Steady.physWrite s core a bs).pool]

theorem stored_sameMem {s s1 s2 : State} {a : Nat} {bs : List Byte} (h : Stored s s1 a bs) (hm : s2.mem = s1.mem) : Stored s s2 a bs := by
  intro x
  rw [hm]
  exact h x

variable (hnode : s.node? id = some n) (hready : n.ready = true) (hkind : n.desc.kind = 2)
include hnode hready hkind

theorem exec_packetNode_claim {s1 : State} (hposted : n.posted = none) (h : s.packetClaim n = some s1) :
    exec (.packetNode id) s = .next s1 := by
  change execPacketNode id s = _
  unfold execPacketNode
  rw [hnode]
  dsimp only
  rw [if_neg (by rw [hready, hkind]; decide), hposted]
  dsimp only
  rw [h]

theorem exec_packetNode_publish {s1 : State} {pa seq : Nat} (hposted : n.posted = some (pa, seq, none)) (h : s.packetPublish n pa seq = some s1) :
    exec (.packetNode id) s = .next s1 := by
  change execPacketNode id s = _
  unfold execPacketNode
  rw [hnode]
  dsimp only
  rw [if_neg (by rw [hready, hkind]; decide), hposted]
  dsimp only
  rw [h]

theorem exec_packetNode_end {s1 : State} {pa seq sp : Nat} (hposted : n.posted = some (pa, seq, some sp))
    (h : s.packetEnd n pa seq sp = some s1) : exec (.packetNode id) s = .next s1 := by
  change execPacketNode id s = _
  unfold execPacketNode
  rw [hnode]
  dsimp only
  rw [if_neg (by rw [hready, hkind]; decide), hposted]
  dsimp only
  rw [h]

theorem packet_claimed {img : List Byte} {pa : Nat} (hposted : n.posted = none) (hcode : s.virtHeld n.desc.domain false n.desc.code 64 = false)
    (hqueue : s.virtHeld n.desc.domain true n.desc.queueVa 64 = false) (hend : s.endBlocked n [] = false)
    (himg : s.rdVirt n.desc.domain n.desc.code 64 = .ok img) (hmc : s.virtMc n.desc.domain n.desc.code 64 = none)
    (hal : n.desc.queueVa % 64 = 0) (hline : s.poolLine n.desc.domain n.desc.queueVa = .ok pa) (hmc2 : s.mcOf ⟨.phys pa, 64⟩ = none)
    (hok : queueOk (s.hdrBits pa) n.desc.domain = true) :
    let seq := (qWridx (s.hdrBits pa) + 1) % 2 ^ 32
    ∃ s', exec (.packetNode id) s = .next s' ∧ Stored s s' pa (bytesOfNat 4 seq) ∧ s'.node? id = some { n with posted := some (pa, seq, none) } := by
  obtain rfl := State.node?_id hnode
  dsimp only
  generalize hseq : (qWridx (s.hdrBits pa) + 1) % 2 ^ 32 = seq
  have hclaim : s.packetClaim n =
      some ((s.physWrite none pa (bytesOfNat 4 seq)).updNode n.id fun m => { m with posted := some (pa, seq, none) }) := by
    refine (if_neg ?_).trans ?_
    · rw [hcode, hqueue, hend]
      decide
    rw [himg, hmc]
    refine (if_neg (by omega)).trans ?_
    rw [hline]
    dsimp only
    rw [hmc2, hok, hseq]
    exact if_neg (by decide)
  refine ⟨_, exec_packetNode_claim hnode hready hkind hposted hclaim, ?_, ?_⟩
  · exact stored_sameMem (stored_physWrite s none pa _) (State.updNode_mem ..)
  exact State.node?_updNode ((State.node?_physWrite ..).trans hnode) _ (by rfl)

theorem packet_published {img : List Byte} {pa seq sp : Nat} (hposted : n.posted = some (pa, seq, none)) (hheld : s.held ⟨.phys pa, 64⟩ = false)
    (hfree : seqGe (qWm (s.hdrBits pa)) (slotFree (s.hdrBits pa) seq) = true)
    (hslot : s.virtHeld n.desc.domain true (slotVa (s.hdrBits pa) seq) 64 = false) (hcode : s.virtHeld n.desc.domain false n.desc.code 64 = false)
    (hend : s.endBlocked n [] = false) (hline : s.poolLine n.desc.domain (slotVa (s.hdrBits pa) seq) = .ok sp)
    (himg : s.rdVirt n.desc.domain n.desc.code 64 = .ok img) (hmc : s.mcOf ⟨.phys sp, 64⟩ = none)
    (hmc2 : s.virtMc n.desc.domain n.desc.code 64 = none) :
    ∃ s', exec (.packetNode id) s = .next s' ∧ s'.node? id = some { n with posted := some (pa, seq, some sp) } ∧
      Stored s s' sp (bytesOfNat 64 (seq + bits (natOfBytes img) 32 24 * 2 ^ 32 + natOfBytes img / 2 ^ 64 * 2 ^ 64)) := by
  obtain rfl := State.node?_id hnode
  generalize hbs : bytesOfNat 64 (seq + bits (natOfBytes img) 32 24 * 2 ^ 32 + natOfBytes img / 2 ^ 64 * 2 ^ 64) = bs
  have hpub : s.packetPublish n pa seq =
      some ((s.physWrite none sp bs).updNode n.id fun m => { m with posted := some (pa, seq, some sp) }) := by
    refine (if_neg (by rw [hheld]; decide)).trans ((if_neg ?_).trans ?_)
    · rw [hfree, hslot, hcode, hend]
      decide
    rw [hline, himg]
    dsimp only
    rw [hmc, hmc2]
    dsimp only
    rw [hbs]
  refine ⟨_, exec_packetNode_publish hnode hready hkind hposted hpub, ?_, ?_⟩
  · exact State.node?_updNode ((State.node?_physWrite ..).trans hnode) _ (by rfl)
  · exact stored_sameMem (stored_physWrite s none sp _) (State.updNode_mem ..)

omit hready hkind in
/-- The end of a node writes its record where its address is mapped, after the stores that the pool sees as performed. -/
theorem State.recorded_endNode {status : Nat} (hst : status ≠ 3) : let s1 := s.sendHome (s.passed [.module])
    ∀ a, s1.complAt n.desc.domain n.desc.compl = some a → Stored s1 (s.endNode id status) a (bytesOfNat 64 (complRecord status n)) := by
  intro s1 a ha
  have hn : s1.node? id = some n := by
    refine Eq.trans ?_ hnode
    unfold State.node?
    rw [(Steady.sendHome s (s.passed [.module])).pool]
  rw [State.endNode_eq]
  dsimp only
  rw [hn]
  dsimp only
  rw [if_neg hst, State.complWrite, ha]
  generalize bytesOfNat 64 (complRecord status n) = bs
  exact stored_sameMem (stored_physWrite s1 none a bs) rfl

omit hready hkind in
/-- A node that is changed and then ended is gone, and its record is that of the changed node. -/
theorem State.ended_updNode {f : Node → Node} {status : Nat} (hf : (f n).id = n.id) (hdesc : (f n).desc = n.desc) (hst : status ≠ 3) :
    ((s.updNode id f).endNode id status).node? id = none ∧
    ∀ a, ((s.updNode id f).sendHome ((s.updNode id f).passed [.module])).complAt n.desc.domain n.desc.compl = some a →
      Stored ((s.updNode id f).sendHome ((s.updNode id f).passed [.module])) ((s.updNode id f).endNode id status) a
        (bytesOfNat 64 (complRecord status (f n))) := by
  refine ⟨State.node?_endNode .., ?_⟩
  rw [← hdesc]
  exact State.recorded_endNode (State.node?_updNode hnode f hf) hst

/-- The record says how the packet has ended. -/
theorem packet_ended {pa seq sp : Nat} (hposted : n.posted = some (pa, seq, some sp)) (hheld : s.held ⟨.phys pa, 64⟩ = false)
    (hheld2 : s.held ⟨.phys sp, 64⟩ = false) (hend : s.endBlocked n [] = false) (hwm : seqGe (qWm (s.hdrBits pa)) seq = true) :
    let st := s.rdNat (sp + 7) 1
    let u := s.updNode id fun m => if st = 0 ∨ st = 8 then { m with progress := 1 } else { m with term := 1, fcause := 0, finst := st, fva := 0 }
    let s1 := u.sendHome (u.passed [.module])
    ∃ s', exec (.packetNode id) s = .next s' ∧ s'.node? id = none ∧
      ∀ a, s1.complAt n.desc.domain n.desc.compl = some a →
        ∃ m, Stored s1 s' a (bytesOfNat 64 (complRecord (if st = 0 ∨ st = 8 then 1 else 2) m)) ∧
          m.desc = n.desc ∧ m.term = (if st = 0 ∨ st = 8 then n.term else 1) ∧ m.progress = (if st = 0 ∨ st = 8 then 1 else n.progress) ∧
          m.finst = (if st = 0 ∨ st = 8 then n.finst else st) := by
  have hpe : s.packetEnd n pa seq sp = some (let st := s.rdNat (sp + 7) 1
      if st = 0 ∨ st = 8 then s.doneNode n.id else s.failNode n.id 0 st 0) := by
    unfold State.packetEnd
    rw [hheld, hheld2, hend, hwm]
    exact (if_neg (by simp)).trans (if_neg (by simp))
  have hexec := exec_packetNode_end hnode hready hkind hposted hpe
  rw [State.node?_id hnode] at hexec
  dsimp only at hexec ⊢
  generalize s.rdNat (sp + 7) 1 = st at hexec ⊢
  by_cases hst : st = 0 ∨ st = 8
  · simp only [if_pos hst] at hexec ⊢
    obtain ⟨hgone, hrec⟩ := State.ended_updNode (f := fun m => { m with progress := 1 }) hnode rfl rfl (status := 1) (by decide)
    exact ⟨_, hexec, hgone, fun a ha => ⟨_, hrec a ha, rfl, rfl, rfl, rfl⟩⟩
  · simp only [if_neg hst] at hexec ⊢
    obtain ⟨hgone, hrec⟩ := State.ended_updNode (f := fun m => { m with term := 1, fcause := 0, finst := st, fva := 0 }) hnode rfl rfl
      (status := 2) (by decide)
    exact ⟨_, hexec, hgone, fun a ha => ⟨_, hrec a ha, rfl, rfl, rfl, rfl⟩⟩

end

/-- Settles O52: the sweep, forced rows, the mode's doors, bank jobs and packet nodes. -/
theorem bankEventsHappen : Obligations.BankEventsHappen := by
  intro s g
  refine ⟨fun hg hheld hpost => exec_sweepStep hg hheld hpost, sweep_postponed, exec_catchupStep, fun s1 => row_forced, ?_, ?_, ?_, ?_, ?_⟩
  · intro t x r i s2 c mask
    exact store_enters
  · intro id rest n s1
    exact job_enters
  · intro n j hjob hnode hend
    refine ⟨fun hat => ?_, fun c va hat => ?_, fun m hat => ?_, fun hheld => ?_⟩
    · obtain ⟨hstep, hexit⟩ := job_finished hjob hnode hat hend
      exact ⟨⟨_, hexit, s.jobEnded_doneNode g n.id⟩, ⟨_, hstep, s.jobEnded_doneNode g n.id⟩⟩
    · exact ⟨_, job_bad hjob hnode hat hend, s.jobEnded_jobFail ..⟩
    · exact ⟨_, job_broken hjob hnode hat hend, State.jobEnded_jobFail ..⟩
    · exact ⟨_, job_timedOut hjob hnode hheld hend, s.jobEnded_jobFail ..⟩
  · intro hheld hjob
    obtain ⟨hfree, -, hrows, hreason⟩ := s.left_forceExit g 0 true
    exact ⟨_, crew_timedOut hheld hjob, fun _ => by rw [State.forceExit_mem], hfree, hreason, s.lost_forceExit g 0, hrows⟩
  · intro id n hnode hready hkind
    exact ⟨fun img pa hposted => packet_claimed hnode hready hkind hposted,
      fun pa seq sp img hposted => packet_published hnode hready hkind hposted,
      fun pa seq sp hposted => packet_ended hnode hready hkind hposted⟩

end Sys2Proof.Machine
end

section
/-! SUPPORT. Events of the units (spec/17 R406): the load of an Apprentice beside a reload in flight, and the refutation that it
gives. -/

namespace Sys2Proof.Machine

open Sys2Proof Sys2Proof.Safety

-- One proof at a time: side by side they need more threads than a check's memory holds.
set_option Elab.async false

theorem State.appr_updAppr_self (s : State) (core u n : Nat) (f : Apprentice → Apprentice) :
    ((((s.updAppr core u f).spent n).core core).apprs.get u) = f ((s.core core).apprs.get u) := by
  unfold State.updAppr
  rw [show ∀ s' : State, (s'.spent n).core core = s'.core core from fun _ => rfl, State.core_updCore_self]
  exact SMap.get_upd_self ..

/-- An Apprentice's only load in flight is its LD: the register that it names is filled. -/
theorem exec_apprenticeLoadComplete_ld {s : State} {core u : Nat} (h : s.apprLoads ((s.core core).apprs.get u) = [none]) :
    exec (.apprenticeLoadComplete core u) s =
      let a := (s.core core).apprs.get u
      let r := s.readLanes a.wg a.crew a.ldLanes
      .next ((r.1.updAppr core u fun x => { x with
        w := (match x.ld with | some (d, _) => x.w.set d (r.2.get 0) | none => x.w)
        ld := none, ldLanes := [] }).spent s.free) := by
  change execApprenticeLoadComplete core u s = _
  unfold execApprenticeLoadComplete
  dsimp only
  rw [h, List.length_singleton, Nat.mod_one]
  rfl

/-- Where the load reads. -/
def reloadedSpan : LoadLane := { lane := 0, spans := [⟨.phys 0, 4⟩], l1 := false, conv := [] }

/-- The reload of an entry of queue 3 as an item in flight that a release counts as performed, seen by lane 0. -/
def reloadPassed : FlightItem := { (default : FlightItem) with
  id := 1, op := .reload 0 (some (3, 0)) 7 [reloadedSpan], lanes := [(0, 0)], past := some { (default : Past) with mates := [0] } }

/-- An Apprentice whose LD reads the same bytes, with one entry in queue 3 that has no load. -/
def apprBesideReload : Apprentice := { (default : Apprentice) with
  st := .running, ld := some (0, default), ldLanes := [reloadedSpan], queues := [(3, [{ (default : ApprEntry) with sync := 5 }])] }

/-- Their core and workgroup, and nothing else. -/
def stateWithReload : State := { (default : State) with
  cores := [(0, { (default : Core) with apprs := [(0, apprBesideReload)] })]
  wgs := [(0, { (default : Workgroup) with crews := [(0, { (default : Crew) with flight := [reloadPassed] })] })] }

theorem stateWithReload_appr : (stateWithReload.core 0).apprs.get 0 = apprBesideReload := by decide +kernel

/-- The load sees the reload performed first, which writes the entry. -/
theorem reloaded_beside_load : (((((stateWithReload.readLanes 0 0 [reloadedSpan]).1.core 0).apprs.get 0).queues.get 3)[0]?).map (·.vec) =
    some true := by
  decide +kernel

/-- Refutes O48: the completion of an Apprentice's LD first performs the stores in flight that it sees, and State lets an item that counts as
performed be the reload of an entry of the same Apprentice; the entry changes, and the queues do not stand. -/
theorem not_unitEventsHappen : ¬ Obligations.UnitEventsHappen := by
  unfold Obligations.UnitEventsHappen
  intro h
  obtain ⟨-, -, -, -, happr, -⟩ := h stateWithReload 0
  have hloads : stateWithReload.apprLoads ((stateWithReload.core 0).apprs.get 0) = [none] := by decide +kernel
  obtain ⟨s', p, hp, hexec, hdone⟩ := (happr 0).1 (by rw [hloads]; exact List.cons_ne_nil _ _) (by decide +kernel)
  rw [hloads] at hp
  obtain rfl := List.mem_singleton.mp hp
  obtain ⟨-, -, hqueues, -⟩ := hdone
  rw [exec_apprenticeLoadComplete_ld hloads] at hexec
  obtain rfl := Host.Outcome.next.inj hexec
  have hvec := reloaded_beside_load
  dsimp only at hqueues
  rw [State.appr_updAppr_self, stateWithReload_appr] at hqueues
  have hqueues : ((((stateWithReload.readLanes 0 0 [reloadedSpan]).1.core 0).apprs.get 0).queues.get 3) = apprBesideReload.queues.get 3 :=
    congrArg (fun q : SMap (List ApprEntry) => q.get 3) hqueues
  have hvec := reloaded_beside_load
  rw [hqueues] at hvec
  exact absurd hvec (by decide)

end Sys2Proof.Machine
end

section
/-! SUPPORT. Apprentices' pushes (spec/17 R405): a push beside a reload in flight, and the refutation that it gives. -/

namespace Sys2Proof.Machine

open Sys2Proof Sys2Proof.Safety Tests

-- One proof at a time: side by side they need more threads than a check's memory holds.
set_option Elab.async false

/-- The reload of the entry of queue 1 of unit 3, in flight in crew 0, that a release counts as performed, seen by lane 0. -/
def reloadOfQueue1 : FlightItem := { (default : FlightItem) with
  id := 1, op := .reload 3 (some (1, 0)) 7 [reloadedSpan], lanes := [(0, 0)], past := some { (default : Past) with mates := [0] } }

/-- Unit 3 stands at an APUSH, as in the model's own witness, while the reload is in flight. -/
def sPushBesideReload : State := (sAppr 1).updWg 0 fun w => w.updCrew 0 fun c => { c with flight := [reloadOfQueue1] }

/-- Whether the first entry of queue 1 holds a vector. -/
def vecOfQueue1 (o : Host.Outcome State Fault Refusal) : Option Bool :=
  match o with
  | .next s => ((((s.core 0).apprs.get 3).queues.get 1)[0]?).map (·.vec)
  | _ => none

theorem sPushBesideReload_stands : ApprStands sPushBesideReload 0 3 (appr 1) (apprRun 1) := ⟨rfl, rfl, rfl, rfl, rfl, rfl⟩

/-- The translation of the push sees the reload performed first, which writes the entry. -/
theorem reloaded_beside_push : vecOfQueue1 (exec (.apushBcld 1 .zero (.v 1)) sPushBesideReload) = some true := by decide +kernel

/-- Refutes O43: an APUSH of a load first performs the stores in flight that its translation sees, and State lets an item that counts
as performed be the reload of an entry of the same Apprentice; the entry changes, and the queue is not the old one with one more. -/
theorem not_apprenticesPushAndLoad : ¬ Obligations.ApprenticesPushAndLoad := by
  unfold Obligations.ApprenticesPushAndLoad
  rintro ⟨h, -⟩
  obtain ⟨-, hload, -⟩ := h sPushBesideReload 0 3 (appr 1) (apprRun 1) sPushBesideReload_stands
  obtain ⟨-, -, hpush, -⟩ := hload (by decide) false 1 .zero (.v 1)
  obtain ⟨s', x, hexec, -, -, -, hq, -⟩ := hpush (by decide) (by decide) (by decide) (by decide +kernel)
  have hvec := reloaded_beside_push
  rw [show exec (.apushBcld 1 .zero (.v 1)) sPushBesideReload = .next s' from hexec] at hvec
  unfold vecOfQueue1 at hvec
  dsimp only at hvec hq
  rw [hq, show ((appr 1).queues.get 1 ++ [x])[0]? = some default from rfl] at hvec
  exact absurd hvec (by decide)

end Sys2Proof.Machine
end

section
/-! SUPPORT. JOIN (spec/02 R36) in a workgroup whose list of lanes names a lane twice, and the refutation that it gives. -/

namespace Sys2Proof.Machine

open Sys2Proof Sys2Proof.Safety Tests

-- One proof at a time: side by side they need more threads than a check's memory holds.
set_option Elab.async false

/-- Lanes 0 and 1 stand at a JOIN for two; behind lane 2 the list of lanes names it again, as a lane that waits in crew 1. -/
def sJoinTwice : State := (sJoin 3).updWg 0 fun w => { w with
  lanes := w.lanes ++ [(2, { (default : Lane) with live := true, joining := some { (default : Joining) with crew := 1 } })] }

/-- Whether lane 1 of the workgroup is in a crew. -/
def crewOfLane1 (o : Host.Outcome State Fault Refusal) : Option (Option Nat) :=
  match o with
  | .next s => some ((s.wg 0).lane 1).crew
  | _ => none

/-- Its lanes. -/
def twiceJoining : SMap Lane :=
  let f : Lane := { lane with v := [(1, 9), (2, 2), (3, 3), (4, 513), (5, 1)] }
  [(0, f), (1, f), (2, lane), (3, lane), (2, { (default : Lane) with live := true, joining := some { (default : Joining) with crew := 1 } })]

theorem sJoinTwice_joining (l : Nat) : ((sJoinTwice.wg 0).lane l).joining = none := by
  change (SMap.get (sJoinTwice.wg 0).lanes l).joining = none
  rw [show (sJoinTwice.wg 0).lanes = twiceJoining from by decide +kernel]
  simp only [twiceJoining, SMap.get]
  repeat' split
  all_goals rfl

/-- Crew 1 is sealed by lane 0 and the second entry of lane 2. -/
theorem lane1_left_over : crewOfLane1 (exec (.join false (.v 9) (.v 1) (.v 2)) sJoinTwice) = some none := by decide +kernel

/-- Refutes O37: a list of lanes that names lane 2 twice counts it among those that wait for crew 1, though no read of a lane shows it so;
the crew is sealed without lane 1. -/
theorem not_crewsForm : ¬ Obligations.CrewsForm := by
  unfold Obligations.CrewsForm
  intro h
  obtain ⟨hfill, -⟩ := h sJoinTwice 0 (gang 3) (run 3) [] false (.v 9) (.v 1) (.v 2) 9 2 1 (ready_of (by decide +kernel) (by decide) rfl)
    (by decide) (by decide) (by decide +kernel) (by decide +kernel) sJoinTwice_joining
  obtain ⟨hfull, -⟩ := hfill (by decide +kernel) (by decide) (by decide +kernel) (by decide +kernel)
  obtain ⟨s', hexec, -, -, -, -, -, -, hcrew, -⟩ := hfull (by decide)
  have hleft := lane1_left_over
  rw [hexec] at hleft
  have hnone : ((s'.wg 0).lane 1).crew = none := Option.some.inj hleft
  rw [(hcrew 1 (by decide)).1] at hnone
  cases hnone

end Sys2Proof.Machine
end

section
/-! SUPPORT. Proofs, part Z2. -/
namespace Sys2Proof.Machine
open Sys2Proof Sys2Proof.Safety
-- One proof at a time: side by side they need more threads than a check's memory holds.
set_option Elab.async false

/-! ### Events of one gang -/

/-- What a change of gang `g` to `g'` leaves. -/
def GangOnly (s : State) (t : Nat) (g : Gang) (s' : State) (g' : Gang) : Prop :=
  OnlyWg s s' t ∧ s'.wg t = { s.wg t with gangs := (s'.wg t).gangs } ∧
    (s'.wg t).gang? g.id = some g' ∧ ∀ h, h ≠ g.id → (s'.wg t).gang? h = (s.wg t).gang? h

section
variable {s : State} {t : Nat} {g : Gang}

theorem updGang_gangOnly {f : Gang → Gang} (hf : ∀ x, (f x).id = x.id) (hg : (s.wg t).gang? g.id = some g) :
    GangOnly s t g (s.updGang t g.id f) (f g) := by
  have hwg : (s.updGang t g.id f).wg t = (s.wg t).updGang g.id f := State.wg_updWg_self ..
  refine ⟨⟨rfl, fun u hu => State.wg_updWg_ne _ _ hu⟩, ?_, ?_, fun h hh => ?_⟩
  · rw [hwg]
    rfl
  · rw [hwg, Workgroup.gang_updGang_self _ _ _ hf, hg]
    rfl
  · rw [hwg, Workgroup.gang_updGang_ne _ _ hf hh]

theorem exec_gangUnpark (hg : (s.wg t).gang? g.id = some g) {p : Park} (hp : g.park = some p) (hlock : p ≠ .lock) (hrace : p ≠ .race)
    (hsel : s.maySelect t g = true) :
    exec (.gangUnpark t g.id) s = .next (s.updGang t g.id fun x => { x with park := none, ages := freshAges }) := by
  have hret : g.park.all Park.retried = false := by
    rw [hp]
    cases p <;> first | rfl | exact absurd rfl hlock | exact absurd rfl hrace
  show execGangUnpark t g.id s = _
  unfold execGangUnpark
  rw [hg]
  refine if_neg ?_
  rw [hret, hsel]
  decide

theorem exec_yieldHoldExpire (hg : (s.wg t).gang? g.id = some g) (hh : g.hold = 1) :
    exec (.yieldHoldExpire t g.id) s = .next (s.updGang t g.id fun x => { x with hold := 0 }) := by
  show execYieldHoldExpire t g.id s = _
  unfold execYieldHoldExpire
  rw [hg]
  exact if_pos hh

/-! ### Locks held too long -/

/-- A lane that has issued 16 times with its lock. -/
def Lane.lockOver (x : Lane) : Bool := match x.lock with
  | some k => decide (16 ≤ k.issues)
  | none => false

/-- Lanes of an issue that have held their locks too long. -/
theorem Env.overHeld_eq (r : ClauseRun) : (s.env t g r).overHeld = (issueLanes g r).filter fun l => ((s.wg t).lane l).lockOver := by
  have hlock : ∀ x : Lane, x.lockOver = true → x.lock.isSome = true := by
    intro x hx
    unfold Lane.lockOver at hx
    split at hx
    · next h => rw [h]; rfl
    · cases hx
  show (((issueLanes g r).filter fun l => ((s.wg t).lane l).lock.isSome).filter fun l => ((s.wg t).lane l).lockOver) = _
  rw [List.filter_filter]
  refine List.filter_congr fun l _ => ?_
  cases h : ((s.wg t).lane l).lockOver
  · rfl
  · rw [hlock _ h]
    rfl

theorem exec_lockHold (hg : (s.wg t).gang? g.id = some g) {r : ClauseRun} (hr : g.clause = some r) (hp : g.park = none)
    (hheld : (s.wg t).gangHeld g = false) (hls : ((issueLanes g r).filter fun l => ((s.wg t).lane l).lockOver) ≠ []) :
    exec (.lockHold t g.id) s = .next (s.takeTrap t g.id
      { cause := 0x62, faulters := (issueLanes g r).filter (fun l => ((s.wg t).lane l).lockOver), fpc := (s.env t g r).fpc, detail := (s.env t g r).lockDetail }) := by
  show execLockHold t g.id s = _
  unfold execLockHold
  rw [hg]
  dsimp only
  rw [hr, hp]
  dsimp only
  rw [Env.overHeld_eq]
  generalize (issueLanes g r).filter (fun l => ((s.wg t).lane l).lockOver) = ls at hls ⊢
  cases ls with
  | nil => exact absurd rfl hls
  | cons l ls => exact if_neg (by rw [hheld]; decide)

/-! ### Attempts that are made again -/

theorem accessExec_eq {i : Instr} (h : (accessExec i s).isSome = true) (u : State) : accessExec i u = some (exec i u) := by
  cases i <;> first | rfl | cases h

/-- An attempt that is made again, of an instruction with an access of its own. -/
theorem again_eq {r : ClauseRun} {i : Instr} (hr : g.clause = some r) (hi : r.instr = some i) (ha : (accessExec i s).isSome = true)
    (p : Park) (f : Pend → Pend) (moves : Bool) (s2 : State) : s.again t g p f moves = some s2 ↔
    exec i { (s.updGang t g.id fun x => { x with park := none, ages := List.replicate 8 0, clause := some { r with pend := f r.pend } }) with
      agenda := .gang t g.id :: s.agenda } = .next s2 ∧
    ∀ x, (s2.wg t).gang? g.id = some x → ¬ (x.park = some p ∧ moves = false) := by
  have haccess := accessExec_eq ha { (s.updGang t g.id fun x => { x with park := none, ages := freshAges, clause := some { r with pend := f r.pend } }) with
      agenda := .gang t g.id :: s.agenda }
  unfold State.again
  rw [hr]
  dsimp only
  rw [hi]
  dsimp only
  rw [haccess]
  show _ ↔ exec i { (s.updGang t g.id fun x => { x with park := none, ages := freshAges, clause := some { r with pend := f r.pend } }) with
      agenda := .gang t g.id :: s.agenda } = .next s2 ∧ _
  generalize exec i _ = o
  cases o with
  | next u =>
    dsimp only
    split
    next x hx =>
      constructor
      · intro h
        split at h
        · cases h
        · next hn =>
          cases h
          exact ⟨rfl, fun y hy => by rw [hx] at hy; cases hy; exact hn⟩
      · rintro ⟨hu, hn⟩
        cases hu
        exact if_neg (hn x hx)
    next hx =>
      constructor
      · intro h
        cases h
        exact ⟨rfl, fun y hy => by rw [hx] at hy; cases hy⟩
      · rintro ⟨hu, -⟩
        cases hu
        rfl
  | fault => exact ⟨nofun, fun h => nomatch h.1⟩
  | refused => exact ⟨nofun, fun h => nomatch h.1⟩

end

end Sys2Proof.Machine
end

section
/-! SUPPORT. Proofs, part Z3. -/
namespace Sys2Proof.Machine
open Sys2Proof Sys2Proof.Safety
-- One proof at a time: side by side they need more threads than a check's memory holds.
set_option Elab.async false

/-! ### Gangs that merge -/

theorem getLsbD_foldl_mask (gs : List Gang) (m : BitVec 32) (k : Nat) :
    (gs.foldl (fun m x => m ||| x.mask) m).getLsbD k = (m.getLsbD k || gs.any fun y => y.mask.getLsbD k) := by
  induction gs generalizing m with
  | nil => exact (Bool.or_false _).symm
  | cons g gs ih =>
    rw [List.foldl_cons, ih, BitVec.getLsbD_or, List.any_cons, Bool.or_assoc]

/-- Every live lane of a home set stands in a gang of a list. -/
theorem wholeHome_of {w : Workgroup} {h : Nat} {gs : List Gang}
    (hall : ∀ l ∈ w.liveLanes, homeOf l = h → ∃ g ∈ gs, g.mask.getLsbD (posOf l) = true) :
    w.wholeHome h (gs.foldl (fun m g => m ||| g.mask) 0) = true := by
  refine List.all_eq_true.mpr fun l hl => ?_
  by_cases hh : homeOf l = h
  · rw [getLsbD_foldl_mask, List.any_eq_true.mpr (hall l hl hh), Bool.or_true, Bool.or_true]
  · rw [bne_iff_ne.mpr hh]
    rfl

/-- The gang that a list of gangs merges into. -/
def Gang.merged (g : Gang) (gs : List Gang) : Gang :=
  { g with mask := gs.foldl (fun m x => m ||| x.mask) 0, ages := List.replicate 8 0, hold := 0, regang := false, cross := false }

theorem getLsbD_merged (g : Gang) (gs : List Gang) (k : Nat) : (g.merged gs).mask.getLsbD k = gs.any fun y => y.mask.getLsbD k :=
  (getLsbD_foldl_mask gs 0 k).trans (by rw [show (0 : BitVec 32).getLsbD k = false from BitVec.getLsbD_zero, Bool.false_or])

section
variable {w : Workgroup} {gs : List Gang} {hset pc : Nat}

theorem mergeGangs_cons (g : Gang) : w.mergeGangs (g :: gs) =
    { w with gangs := (w.gangs.filter fun x => !((g :: gs).any fun y => y.id == x.id)) ++ [g.merged (g :: gs)] } := rfl

theorem mergeGangs_rest (w : Workgroup) (gs : List Gang) : w.mergeGangs gs = { w with gangs := (w.mergeGangs gs).gangs } := by
  cases gs with
  | nil => rfl
  | cons g gs => rfl

/-- A gang of another number stands when gangs merge. -/
theorem mem_mergeGangs {x : Gang} (hx : x ∈ w.gangs) (hn : ∀ y ∈ gs, y.id ≠ x.id) : x ∈ (w.mergeGangs gs).gangs := by
  cases gs with
  | nil => exact hx
  | cons g gs =>
    rw [mergeGangs_cons]
    refine List.mem_append_left _ (List.mem_filter.mpr ⟨hx, ?_⟩)
    rw [Bool.not_eq_true', List.any_eq_false]
    exact fun y hy he => hn y hy (beq_iff_eq.mp he)

theorem joined_mergeGangs (hgs : ∀ y ∈ gs, y.hset = hset ∧ y.pc = pc) : Safety.Joined w (w.mergeGangs gs) gs hset pc := by
  refine ⟨fun x hx hn => mem_mergeGangs hx hn, fun hne => ?_⟩
  cases gs with
  | nil => exact absurd rfl hne
  | cons g gs =>
    obtain ⟨hh, hp⟩ := hgs g List.mem_cons_self
    refine ⟨g.merged (g :: gs), List.mem_append_right _ List.mem_cons_self, hh, hp, rfl, rfl, rfl, fun a ha => List.eq_of_mem_replicate ha,
      fun k => getLsbD_merged g (g :: gs) k⟩

/-- The merged gang is set back to where its paths waited. -/
theorem joined_setBack {g : Gang} (hh : g.hset = hset) :
    Safety.Joined w ((w.mergeGangs (g :: gs)).updGang g.id fun x => { x with pc := pc }) (g :: gs) hset pc := by
  refine ⟨fun x hx hn => ?_, fun _ => ?_⟩
  · refine List.mem_map.mpr ⟨x, mem_mergeGangs hx hn, if_neg ?_⟩
    exact fun h => hn g List.mem_cons_self h.symm
  · refine ⟨{ g.merged (g :: gs) with pc := pc }, ?_, hh, rfl, rfl, rfl, rfl, fun a ha => List.eq_of_mem_replicate ha,
      fun k => getLsbD_merged g (g :: gs) k⟩
    exact List.mem_map.mpr ⟨g.merged (g :: gs), List.mem_append_right _ List.mem_cons_self, if_pos rfl⟩

theorem joined_of_gangs {w' w'' : Workgroup} (h : Safety.Joined w w' gs hset pc) (he : w''.gangs = w'.gangs) : Safety.Joined w w'' gs hset pc := by
  unfold Safety.Joined
  rw [he]
  exact h

end

/-! ### The end of a REGANG window -/

/-- The window of a home set and an address is gone, and the paths that waited there are one gang. -/
def Workgroup.windowClosed (w : Workgroup) (h p : Nat) : Workgroup :=
  let w1 := w.mergeGangs (w.atRegang h p)
  { w1 with windows := w1.windows.filter fun x => !(x.hset == h && x.pc == p) }

section
variable {w : Workgroup} {h p : Nat}

theorem mem_atRegang {y : Gang} (hy : y ∈ w.atRegang h p) : y.hset = h ∧ y.pc = p + 4 := by
  obtain ⟨-, hc⟩ := List.mem_filter.mp hy
  rw [Bool.and_eq_true, Bool.and_eq_true, beq_iff_eq, beq_iff_eq] at hc
  exact ⟨hc.1.2, hc.2⟩

theorem windowClosed_rest : w.windowClosed h p =
    { w with gangs := (w.windowClosed h p).gangs, windows := w.windows.filter fun x => !(x.hset == h && x.pc == p) } := by
  unfold Workgroup.windowClosed
  rw [mergeGangs_rest]

theorem joined_windowClosed : Safety.Joined w (w.windowClosed h p) (w.atRegang h p) h (p + 4) :=
  joined_of_gangs (joined_mergeGangs fun _ hy => mem_atRegang hy) rfl

end

section
variable {s : State} {t : Nat} {h p : Nat}

theorem updWg_congr {f k : Workgroup → Workgroup} (hf : f (s.wg t) = k (s.wg t)) : s.updWg t f = s.updWg t k := by
  unfold State.updWg SMap.upd
  exact congrArg (fun w => { s with wgs := s.wgs.set t w }) hf

/-- Away from the end of a segment, the merged gang goes on behind the REGANG. -/
theorem closeWindow_next (hp : (p + 4) % 4096 ≠ 0) : s.closeWindow t h p = s.updWg t fun w => w.windowClosed h p := by
  have hcongr : (s.updWg t fun w => { w.mergeGangs ((s.wg t).atRegang h p) with
      windows := (w.mergeGangs ((s.wg t).atRegang h p)).windows.filter fun x => !(x.hset == h && x.pc == p) }) =
      s.updWg t fun w => w.windowClosed h p := updWg_congr rfl
  rw [← hcongr]
  unfold State.closeWindow
  dsimp only
  split
  · exact if_neg hp
  · rfl

/-- At the end of a segment, the merged gang stands at the REGANG and falls past the segment. -/
theorem closeWindow_falls {g : Gang} {gs : List Gang} (hp : (p + 4) % 4096 = 0) (hgs : (s.wg t).atRegang h p = g :: gs) :
    s.closeWindow t h p = ((s.updWg t fun w => w.windowClosed h p).updGang t g.id fun x => { x with pc := p }).fallTrap t g.id p := by
  have hcongr : (s.updWg t fun w => { w.mergeGangs ((s.wg t).atRegang h p) with
      windows := (w.mergeGangs ((s.wg t).atRegang h p)).windows.filter fun x => !(x.hset == h && x.pc == p) }) =
      s.updWg t fun w => w.windowClosed h p := updWg_congr rfl
  rw [← hcongr]
  unfold State.closeWindow
  rw [hgs]
  exact if_pos hp

theorem exec_regangWindowClose {x : Window} (hfind : (s.wg t).windows.find? (fun y => y.hset == h && y.pc == p) = some x)
    (hover : x.left = 0 ∨ ∀ l ∈ (s.wg t).liveLanes, homeOf l = h → ∃ g ∈ (s.wg t).atRegang h p, g.mask.getLsbD (posOf l) = true) :
    exec (.regangWindowClose t h p) s = .next ((s.closeWindow t h p).endIssues (s.wg t).core) := by
  show execRegangWindowClose t h p s = _
  unfold execRegangWindowClose
  dsimp only
  rw [hfind]
  exact if_pos (hover.imp_right wholeHome_of)

/-- REGANG_WINDOW_CLOSE, as its statement asks. -/
theorem regangWindowCloses {x : Window} (hfind : (s.wg t).windows.find? (fun y => y.hset == h && y.pc == p) = some x)
    (hover : x.left = 0 ∨ ∀ l ∈ (s.wg t).liveLanes, homeOf l = h → ∃ g ∈ (s.wg t).atRegang h p, g.mask.getLsbD (posOf l) = true) :
    ∃ s1, OnlyWg s s1 t ∧
      s1.wg t = { s.wg t with gangs := (s1.wg t).gangs, windows := (s.wg t).windows.filter fun y => !(y.hset == h && y.pc == p) } ∧
      ((p + 4) % 4096 ≠ 0 → exec (.regangWindowClose t h p) s = .next (s1.endIssues (s.wg t).core) ∧
        Safety.Joined (s.wg t) (s1.wg t) ((s.wg t).atRegang h p) h (p + 4)) ∧
      ∀ y, (p + 4) % 4096 = 0 → ((s.wg t).atRegang h p).head? = some y →
        Safety.Joined (s.wg t) (s1.wg t) ((s.wg t).atRegang h p) h p ∧
        exec (.regangWindowClose t h p) s = .next ((s1.fallTrap t y.id p).endIssues (s.wg t).core) := by
  rw [exec_regangWindowClose hfind hover]
  have hclosed : (s.updWg t fun w => w.windowClosed h p).wg t = (s.wg t).windowClosed h p := State.wg_updWg_self ..
  have hone : OnlyWg s (s.updWg t fun w => w.windowClosed h p) t := ⟨rfl, fun u hu => State.wg_updWg_ne _ _ hu⟩
  by_cases hp : (p + 4) % 4096 = 0 ∧ (s.wg t).atRegang h p ≠ []
  · obtain ⟨hp, hne⟩ := hp
    obtain ⟨g, gs, hgs⟩ := List.exists_cons_of_ne_nil hne
    have hwg : ((s.updWg t fun w => w.windowClosed h p).updGang t g.id fun x => { x with pc := p }).wg t =
        ((s.wg t).windowClosed h p).updGang g.id fun x => { x with pc := p } := (State.wg_updWg_self ..).trans (by rw [hclosed])
    refine ⟨(s.updWg t fun w => w.windowClosed h p).updGang t g.id fun x => { x with pc := p }, ?_, ?_, fun h => absurd hp h, ?_⟩
    · exact ⟨rfl, fun u hu => (State.wg_updWg_ne _ _ hu).trans (hone.2 u hu)⟩
    · rw [hwg, windowClosed_rest]
      rfl
    · intro y _ hy
      rw [closeWindow_falls hp hgs]
      rw [hgs] at hy ⊢
      cases hy
      refine ⟨joined_of_gangs (joined_setBack (mem_atRegang (hgs ▸ List.mem_cons_self)).1) ?_, rfl⟩
      rw [hwg, Workgroup.windowClosed, hgs]
      rfl
  · refine ⟨s.updWg t fun w => w.windowClosed h p, hone, ?_, fun hn => ⟨by rw [closeWindow_next hn], ?_⟩, fun y he hy => ?_⟩
    · rw [hclosed]
      exact windowClosed_rest
    · rw [hclosed]
      exact joined_windowClosed
    · refine absurd ⟨he, ?_⟩ hp
      rintro hnil
      rw [hnil] at hy
      cases hy

/-! ### Paths that gather -/

theorem crossLaneGathers {gs : List Gang} (hgs : gs = (s.wg t).gangs.filter fun g => g.cross && g.hset == h && g.pc == p) (hne : gs ≠ [])
    (hall : ∀ l ∈ (s.wg t).liveLanes, homeOf l = h → ∃ g ∈ gs, g.mask.getLsbD (posOf l) = true) :
    ∃ s', exec (.crossLaneGather t h p) s = .next s' ∧ OnlyWg s s' t ∧ s'.wg t = { s.wg t with gangs := (s'.wg t).gangs } ∧
      Safety.Joined (s.wg t) (s'.wg t) gs h p := by
  have hwg : (s.setWg t ((s.wg t).mergeGangs gs)).wg t = (s.wg t).mergeGangs gs := SMap.get_set_self ..
  refine ⟨s.setWg t ((s.wg t).mergeGangs gs), ?_, ⟨rfl, fun u hu => SMap.get_set_ne _ _ hu⟩, ?_, ?_⟩
  · show execCrossLaneGather t h p s = _
    unfold execCrossLaneGather
    dsimp only
    rw [← hgs]
    refine if_neg ?_
    rw [wholeHome_of hall, List.isEmpty_eq_false_iff.mpr hne]
    decide
  · rw [hwg]
    exact mergeGangs_rest ..
  · rw [hwg]
    refine joined_mergeGangs fun y hy => ?_
    rw [hgs] at hy
    obtain ⟨-, hc⟩ := List.mem_filter.mp hy
    rw [Bool.and_eq_true, Bool.and_eq_true, beq_iff_eq, beq_iff_eq] at hc
    exact ⟨hc.1.2, hc.2⟩

end

end Sys2Proof.Machine
end

section
/-! SUPPORT. Proofs, part Z4. -/
namespace Sys2Proof.Machine
open Sys2Proof Sys2Proof.Safety
-- One proof at a time: side by side they need more threads than a check's memory holds.
set_option Elab.async false

/-! ### Changes of one workgroup -/

section
variable {s s1 s2 : State} {t : Nat}

theorem onlyWg_refl (s : State) (t : Nat) : OnlyWg s s t := ⟨rfl, fun _ _ => rfl⟩

theorem onlyWg_updWg (s : State) (t : Nat) (f : Workgroup → Workgroup) : OnlyWg s (s.updWg t f) t :=
  ⟨rfl, fun _ hu => State.wg_updWg_ne _ _ hu⟩

theorem onlyWg_trans (h : OnlyWg s s1 t) (k : OnlyWg s1 s2 t) : OnlyWg s s2 t := by
  obtain ⟨h, ho⟩ := h
  obtain ⟨k, ko⟩ := k
  refine ⟨?_, fun u hu => (ko u hu).trans (ho u hu)⟩
  rw [k, h]

theorem onlyWg_spent (h : OnlyWg s s1 t) (n : Nat) : OnlyWg s (s1.spent n) t := by
  obtain ⟨h, ho⟩ := h
  refine ⟨?_, ho⟩
  rw [h]
  rfl

theorem onlyWg_mem (h : OnlyWg s s1 t) : s1.mem = s.mem := by rw [h.1]

end

/-! ### Clauses that start -/

/-- The lanes of a filtered mask. -/
theorem mem_lanesOf_filter {h : Nat} {m : BitVec 32} {f : Nat → Bool} {l : Nat} :
    l ∈ lanesOf h (maskOfLanes ((lanesOf h m).filter f)) ↔ l ∈ lanesOf h m ∧ f l = true := by
  have hpos : posOf l < 32 := Nat.mod_lt _ (by decide)
  constructor
  · intro hl
    obtain ⟨hh, hb⟩ := mem_lanesOf.mp hl
    obtain ⟨k, hk, hp⟩ := List.mem_map.mp ((getLsbD_maskOf _ hpos).mp hb)
    obtain ⟨hk, hf⟩ := List.mem_filter.mp hk
    have hkl : k = l := by
      have hkh : k / 32 = h := (mem_lanesOf.mp hk).1
      have hlh : l / 32 = h := hh
      have hkp : k % 32 = l % 32 := hp
      omega
    exact hkl ▸ ⟨hk, hf⟩
  · rintro ⟨hl, hf⟩
    exact mem_lanesOf.mpr ⟨(mem_lanesOf.mp hl).1, getLsbD_maskOfLanes (List.mem_filter.mpr ⟨hl, hf⟩)⟩

/-- A lane's region opens at an address. -/
def Lane.openedAt (x : Lane) (pc : Nat) : Lane := { x with opened := true, repc := BitVec.ofNat 18 pc, rcnt := x.rcnt + 1 }

/-- Lanes open their regions at a REGION header. -/
def Workgroup.regionsOpen (w : Workgroup) (ls : List Nat) (pc h : Nat) : Workgroup :=
  if hRegion h then overList ls w fun w l => w.updLane l fun x => x.openedAt pc else w

/-- Intervals end at a header that waits. -/
def Workgroup.headerSyncs (w : Workgroup) (ls : List Nat) (h : Nat) : Workgroup :=
  if hBw h ∨ hDrains h ≠ [] then w.endInterval ls else w

/-- Lanes take the barrier's parity at a BW header. -/
def Workgroup.takesParity (w : Workgroup) (ls : List Nat) (h : Nat) : Workgroup := if hBw h then w.setParity (hK h) ls else w

/-- A workgroup whose lanes `ls` have started a clause, but for their gang. -/
def Workgroup.begun (w : Workgroup) (ls : List Nat) (pc h : Nat) : Workgroup := ((w.regionsOpen ls pc h).headerSyncs ls h).takesParity ls h

section
variable {w : Workgroup} {ls : List Nat} {pc h : Nat}

theorem Steps.regionsOpen : Steps w (w.regionsOpen ls pc h) [] := by
  unfold Workgroup.regionsOpen
  split
  · have hrest := Workgroup.overUpd_rest ls (fun l => l) (fun _ x => x.openedAt pc) w
    exact .of_same (by rw [hrest]) (by rw [hrest]) (SameRegs.overLanes ls (f := fun x => x.openedAt pc) (fun _ => ⟨rfl, rfl, rfl, rfl, rfl⟩) w) []
  · exact .of_same rfl rfl (.refl w) []

theorem Steps.headerSyncs : Steps w (w.headerSyncs ls h) [] := by
  unfold Workgroup.headerSyncs
  split
  · exact .endInterval w ls []
  · exact .of_same rfl rfl (.refl w) []

theorem Steps.takesParity (hn : ls.Nodup) : Steps w (w.takesParity ls h) [] := by
  unfold Workgroup.takesParity
  split
  · exact .setParity w (hK h) hn
  · exact .of_same rfl rfl (.refl w) []

theorem Steps.begun (hn : ls.Nodup) : Steps w (w.begun ls pc h) [] := (Steps.regionsOpen.trans .headerSyncs).trans (.takesParity hn)

theorem lane_regionsOpen (hn : ls.Nodup) {l : Nat} (hl : l ∈ ls) :
    (w.regionsOpen ls pc h).lane l = if hRegion h then (w.lane l).openedAt pc else w.lane l := by
  unfold Workgroup.regionsOpen
  split
  · rw [Workgroup.lane_overLanes _ hn, if_pos hl]
  · rfl

theorem lane_headerSyncs (hn : ls.Nodup) {l : Nat} (hl : l ∈ ls) : (w.headerSyncs ls h).lane l =
    { w.lane l with interval := (w.lane l).interval + (if hBw h = true ∨ hDrains h ≠ [] then 1 else 0) } := by
  unfold Workgroup.headerSyncs
  split
  · rw [Workgroup.lane_endInterval _ hn, if_pos hl]
  · exact congrArg (fun i => { w.lane l with interval := i }) (BitVec.add_zero _).symm

theorem lane_takesParity (hn : ls.Nodup) (l : Nat) :
    (w.takesParity ls h).lane l = { w.lane l with wpar := ((w.takesParity ls h).lane l).wpar } := by
  unfold Workgroup.takesParity
  split
  · rw [Workgroup.lane_setParity _ _ hn]
    split <;> rfl
  · rfl

/-- What a lane of the clause carries away from its start. -/
theorem lane_begun (hn : ls.Nodup) {l : Nat} (hl : l ∈ ls) :
    let x := w.lane l
    let y := (w.begun ls pc h).lane l
    (hRegion h = true → y.opened = true ∧ y.repc.toNat = pc % 2 ^ 18 ∧ y.rcnt = x.rcnt + 1) ∧
      (hRegion h = false → y.opened = x.opened ∧ y.repc = x.repc ∧ y.rcnt = x.rcnt) ∧
      y.interval = x.interval + (if hBw h = true ∨ hDrains h ≠ [] then 1 else 0) := by
  dsimp only
  unfold Workgroup.begun
  rw [lane_takesParity hn, lane_headerSyncs hn hl, lane_regionsOpen hn hl]
  cases hRegion h
  · exact ⟨nofun, fun _ => ⟨rfl, rfl, rfl⟩, rfl⟩
  · exact ⟨fun _ => ⟨rfl, BitVec.toNat_ofNat .., rfl⟩, nofun, rfl⟩

end

/-- A gang starts a clause. -/
def Gang.starts (x : Gang) (r : ClauseRun) : Gang := { x with ages := freshAges, clause := some r }

/-- The clause that a gang starts. -/
def Workgroup.clauseRun (w : Workgroup) (g : Gang) (h : Nat) (ws : List Nat) : ClauseRun :=
  { (default : ClauseRun) with
    base := g.pc, hdr := BitVec.ofNat 32 h, words := ws.map fun k => BitVec.ofNat 32 k, issue := g.mask
    exec := maskOfLanes (g.lanes.filter fun l => (w.lane l).pred (hPred h) != hNeg h) }

section
variable {s : State} {t : Nat} {g : Gang} {h off : Nat} {ws : List Nat}

/-- The clause of a selected gang starts. -/
theorem exec_clauseIssue {is : List (Nat × Instr)} (hg : (s.wg t).gang? g.id = some g) (hc : g.clause = none)
    (hsel : s.maySelect t g = true) (hfetch : s.fetchClause (s.wg t) g = some (h, off, ws))
    (hdec : clauseDecode (s.wg t).vregs h off ws = .ok is) (hcross : crossLane is = true → (s.wg t).wholeHome g.hset g.mask = true)
    (hbw : hBw h = true → (s.wg t).calleeLanes g = [] ∧ ((s.wg t).barriers.get (hK h)).init = true)
    (hcode : s.codeBroken (s.wg t).core (((s.wg t).slotOf (g.pc / 4096)).getD 0) = false) :
    exec (.clauseIssue t g.id) s = .next ((s.beginClause t g h ws).spent s.free) := by
  have hstart : s.startClause t g = s.beginClause t g h ws := by
    unfold State.startClause
    dsimp only
    rw [hfetch]
    dsimp only
    rw [if_neg (ne_true_of_eq_false hcode), hdec]
    dsimp only
    rw [if_neg (fun hx => by rw [hcross hx.1] at hx; cases hx.2), if_neg (fun hx => hx.2 (hbw hx.1).1),
      if_neg (fun hx => by rw [(hbw hx.1).2] at hx; cases hx.2)]
  show execClauseIssue t g.id s = _
  unfold execClauseIssue
  rw [hg]
  dsimp only
  rw [hstart, hc, hsel]
  rfl

theorem beginClause_eq : s.beginClause t g h ws = (if hBw h then (s.updWg t fun w => w.begun g.lanes g.pc h).acquired t .acquire .cluster
      else s.updWg t fun w => w.begun g.lanes g.pc h).updGang t g.id fun x => x.starts ((s.wg t).clauseRun g h ws) := rfl

/-- A clause that starts changes its workgroup alone. -/
theorem begun_onlyWg : OnlyWg s ((s.beginClause t g h ws).spent s.free) t := by
  have hacq : ∀ u : State, OnlyWg u (u.acquired t .acquire .cluster) t := by
    intro u
    unfold State.acquired
    split
    · exact onlyWg_updWg u t _
    · exact onlyWg_refl u t
  have hif : ∀ u : State, OnlyWg u (if hBw h then u.acquired t .acquire .cluster else u) t := by
    intro u
    split
    · exact hacq u
    · exact onlyWg_refl u t
  exact onlyWg_spent (onlyWg_trans (onlyWg_trans (onlyWg_updWg s t _) (hif _)) (onlyWg_updWg _ t _)) s.free

/-- The workgroup of a started clause, but for what its first level of cache holds. -/
theorem begun_wg : ∃ l1, ((s.beginClause t g h ws).spent s.free).wg t =
    { ((s.wg t).begun g.lanes g.pc h) with l1 := l1 }.updGang g.id fun x => x.starts ((s.wg t).clauseRun g h ws) := by
  have hopen : (s.updWg t fun w => w.begun g.lanes g.pc h).wg t = (s.wg t).begun g.lanes g.pc h := State.wg_updWg_self ..
  have hacq : ∃ l1, ((s.updWg t fun w => w.begun g.lanes g.pc h).acquired t .acquire .cluster).wg t =
      { ((s.wg t).begun g.lanes g.pc h) with l1 := l1 } := by
    unfold State.acquired
    split
    · exact ⟨[], (State.wg_updWg_self ..).trans (by rw [hopen])⟩
    · exact ⟨_, hopen⟩
  have hif : ∃ l1, (if hBw h then (s.updWg t fun w => w.begun g.lanes g.pc h).acquired t .acquire .cluster
      else s.updWg t fun w => w.begun g.lanes g.pc h).wg t = { ((s.wg t).begun g.lanes g.pc h) with l1 := l1 } := by
    split
    · exact hacq
    · exact ⟨_, hopen⟩
  obtain ⟨l1, hl1⟩ := hif
  refine ⟨l1, ?_⟩
  rw [State.wg_spent, beginClause_eq, State.updGang, State.wg_updWg_self, hl1]

/-- CLAUSE_ISSUE, as its statement asks. -/
theorem clauseIssues {is : List (Nat × Instr)} (hg : (s.wg t).gang? g.id = some g) (hc : g.clause = none)
    (hsel : s.maySelect t g = true) (hfetch : s.fetchClause (s.wg t) g = some (h, off, ws))
    (hdec : clauseDecode (s.wg t).vregs h off ws = .ok is) (hcross : crossLane is = true → (s.wg t).wholeHome g.hset g.mask = true)
    (hbw : hBw h = true → (s.wg t).calleeLanes g = [] ∧ ((s.wg t).barriers.get (hK h)).init = true)
    (hcode : s.codeBroken (s.wg t).core (((s.wg t).slotOf (g.pc / 4096)).getD 0) = false) :
    let mine := lanesOf g.hset g.mask
    ∃ s' g' r, exec (.clauseIssue t g.id) s = .next s' ∧ MemKept s s' ∧ RegsKept s s' t [] ∧ WinKept s s' ∧
      (hBw h = false → OnlyWg s s' t) ∧ (s'.wg t).gang? g.id = some g' ∧ g'.pc = g.pc ∧ g'.mask = g.mask ∧ g'.hset = g.hset ∧
      (∀ a ∈ g'.ages, a = 0) ∧ g'.clause = some r ∧ r.base = g.pc ∧ r.hdr.toNat = h % 2 ^ 32 ∧
      r.words.map BitVec.toNat = ws.map (· % 2 ^ 32) ∧ r.pos = 0 ∧ r.latches = [] ∧ r.mac = none ∧ r.issue = g.mask ∧
      (∀ l ∈ mine, l ∈ execLanes g r ↔ predOf s t l (hPred h) ≠ hNeg h) ∧ (∀ l ∈ execLanes g r, l ∈ mine) ∧
      ∀ l ∈ mine,
        let x := (s.wg t).lane l
        let y := (s'.wg t).lane l
        (hRegion h = true → y.opened = true ∧ y.repc.toNat = g.pc % 2 ^ 18 ∧ y.rcnt = x.rcnt + 1) ∧
        (hRegion h = false → y.opened = x.opened ∧ y.repc = x.repc ∧ y.rcnt = x.rcnt) ∧
        y.interval = x.interval + (if hBw h = true ∨ hDrains h ≠ [] then 1 else 0) := by
  intro mine
  have honly := begun_onlyWg (s := s) (t := t) (g := g) (h := h) (ws := ws)
  obtain ⟨l1, hwg⟩ := begun_wg (s := s) (t := t) (g := g) (h := h) (ws := ws)
  have hexec := exec_clauseIssue hg hc hsel hfetch hdec hcross hbw hcode
  generalize (s.beginClause t g h ws).spent s.free = s' at honly hwg hexec
  have hnd : mine.Nodup := lanesOf_nodup ..
  obtain ⟨hgangs, hwin, hregs⟩ := Steps.begun (w := s.wg t) (ls := g.lanes) (pc := g.pc) (h := h) hnd
  have hgang : (s'.wg t).gang? g.id = some (g.starts ((s.wg t).clauseRun g h ws)) := by
    rw [hwg, Workgroup.gang_updGang_self _ _ (fun x => x.starts ((s.wg t).clauseRun g h ws)) fun _ => rfl]
    rw [show Workgroup.gang? { ((s.wg t).begun g.lanes g.pc h) with l1 := l1 } g.id = (s.wg t).gang? g.id by
      unfold Workgroup.gang?
      rw [← hgangs], hg]
    rfl
  refine ⟨s', g.starts ((s.wg t).clauseRun g h ws), (s.wg t).clauseRun g h ws, hexec, fun a => by rw [onlyWg_mem honly], ⟨?_, ?_, ?_⟩, fun u a => ?_, fun _ => honly,
    hgang, rfl, rfl, rfl, fun a ha => List.eq_of_mem_replicate ha, rfl, rfl, BitVec.toNat_ofNat .., ?_, rfl, rfl, rfl, rfl, fun l hl => ?_,
    fun l hl => (mem_lanesOf_filter.mp hl).1, fun l hl => ?_⟩
  · rw [hwg]
    exact hregs.regs
  · rw [hwg]
    exact hregs.flags
  · rw [hwg]
    exact hregs.uniform
  · by_cases hu : u = t
    · rw [hu, hwg]
      exact congrArg (fun m : SMap Byte => m.get a) hwin
    · rw [honly.2 u hu]
  · show (ws.map fun k => BitVec.ofNat 32 k).map BitVec.toNat = _
    rw [List.map_map]
    exact List.map_congr_left fun k _ => BitVec.toNat_ofNat ..
  · refine Iff.trans mem_lanesOf_filter ⟨fun hx => bne_iff_ne.mp hx.2, fun hx => ⟨hl, bne_iff_ne.mpr hx⟩⟩
  · rw [hwg]
    exact lane_begun hnd hl

end

end Sys2Proof.Machine
end

section
/-! SUPPORT. Proofs, part Z5. -/
namespace Sys2Proof.Machine
open Sys2Proof Sys2Proof.Safety
-- One proof at a time: side by side they need more threads than a check's memory holds.
set_option Elab.async false

/-! ### Crews that dissolve -/

/-- Uniform registers and the mark that a crew is held stand, and the numbers of what it has in flight. -/
structure CrewStands (x y : Crew) : Prop where
  s : y.s = x.s
  held : y.held = x.held
  items : y.flight.map (·.id) = x.flight.map (·.id)

section
variable (s : State) (t c : Nat)

/-- Numbers stand when the items of a crew change otherwise. -/
theorem map_id_map {f : FlightItem → FlightItem} (hf : ∀ i, (f i).id = i.id) (l : List FlightItem) : (l.map f).map (·.id) = l.map (·.id) := by
  rw [List.map_map]
  exact List.map_congr_left fun i _ => hf i

/-- What reads an Apprentice's entry reads nothing once the Apprentice is free. -/
def FlightItem.unloads (i : FlightItem) : FlightItem := match i.op with
  | .reload .. => { i with op := .nop }
  | _ => i

/-- A crew without its Apprentice. -/
def Crew.unbound (x : Crew) : Crew := { x with appr := none, flight := x.flight.map FlightItem.unloads }

theorem Crew.unbound_stands (x : Crew) : CrewStands x x.unbound := by
  refine ⟨rfl, rfl, map_id_map (fun i => ?_) x.flight⟩
  unfold FlightItem.unloads
  split <;> rfl

theorem State.freeAppr_crew (k : Nat) : CrewStands ((s.wg t).crew k) (((s.freeAppr t c).wg t).crew k) := by
  have hupd : ∀ s1 : State, s1.wg t = s.wg t →
      CrewStands ((s.wg t).crew k) (((s1.updWg t fun w => w.updCrew c fun x => x.unbound).wg t).crew k) := by
    intro s1 h1
    rw [State.wg_updWg_self, Workgroup.crew_updCrew, h1]
    split
    · next h =>
      rw [h]
      exact Crew.unbound_stands _
    · exact ⟨rfl, rfl, rfl⟩
  unfold State.freeAppr
  split
  · split
    · exact hupd _ rfl
    · exact hupd _ rfl
  · exact ⟨rfl, rfl, rfl⟩

/-- A crew's Apprentice and its all-bank modes are given back. -/
def State.givesBack : State := (s.freeAppr t c).endOwnership t (some c) 2

theorem State.givesBack_mem : (s.givesBack t c).mem = s.mem := by
  unfold State.givesBack
  rw [State.endOwnership_mem, State.freeAppr_mem]

theorem State.givesBack_calm (u : Nat) : Calm ((s.freeAppr t c).wg u) ((s.givesBack t c).wg u) := Calm.endOwnership ..

theorem State.givesBack_crew (k : Nat) : CrewStands ((s.wg t).crew k) (((s.givesBack t c).wg t).crew k) := by
  rw [(State.givesBack_calm s t c t).crew k]
  obtain ⟨hs, hh, hi⟩ := State.freeAppr_crew s t c k
  exact ⟨hs, hh, hi⟩

theorem State.freeAppr_wg_ne {u : Nat} (hu : u ≠ t) : (s.freeAppr t c).wg u = s.wg u := by
  unfold State.freeAppr
  split
  · split <;> exact State.wg_updWg_ne _ _ hu
  · rfl

theorem State.givesBack_win (u : Nat) : ((s.givesBack t c).wg u).win = (s.wg u).win := by
  rw [(State.givesBack_calm s t c u).rest]
  by_cases hu : u = t
  · rw [hu, State.wg_freeAppr]
  · rw [State.freeAppr_wg_ne _ _ _ hu]

theorem State.givesBack_rest : let w := (s.givesBack t c).wg t
    w.lanes = (s.wg t).lanes ∧ w.gangs = (s.wg t).gangs ∧ w.barriers = (s.wg t).barriers := by
  dsimp only
  rw [(State.givesBack_calm s t c t).rest, State.wg_freeAppr]
  exact ⟨rfl, rfl, rfl⟩

/-- A barrier that was bound to a crew is bound no longer. -/
def Barrier.unbound (b : Barrier) (c : Nat) : Barrier := if b.bound && b.bcrew.toNat == c then { b with bound := false } else b

/-- A crew's identifier is free from the next cycle on, and no barrier is bound to it. -/
def Workgroup.dissolved (w : Workgroup) (c : Nat) : Workgroup :=
  { w with
    crews := w.crews.set c { (default : Crew) with held := true, gone := true, flight := (w.crew c).flight }
    barriers := w.barriers.map fun p => (p.1, p.2.unbound c) }

theorem Workgroup.crew_dissolved (w : Workgroup) (k : Nat) : (w.dissolved c).crew k =
    if k = c then { (default : Crew) with held := true, gone := true, flight := (w.crew c).flight } else w.crew k :=
  SMap.get_set w.crews c k { (default : Crew) with held := true, gone := true, flight := (w.crew c).flight }

theorem Workgroup.barrier_dissolved (w : Workgroup) (k : Nat) : (w.dissolved c).barriers.get k =
    if (w.barriers.get k).bound = true ∧ (w.barriers.get k).bcrew.toNat = c then { w.barriers.get k with bound := false }
    else w.barriers.get k := by
  have hget : (w.dissolved c).barriers.get k = (w.barriers.get k).unbound c := SMap.get_map w.barriers (fun b => b.unbound c) k rfl
  rw [hget]
  unfold Barrier.unbound
  simp only [Bool.and_eq_true, beq_iff_eq]

/-- CREW_DISSOLVE, as its statement asks. -/
theorem crewDissolves (hheld : ((s.wg t).crew c).held = true) (hgone : ((s.wg t).crew c).gone = false)
    (hforming : ((s.wg t).crew c).forming = none) (hmem : (s.wg t).members c = []) (hdrained : ((s.wg t).crew c).drained = true) :
    ∃ s', exec (.crewDissolve t c) s = .next s' ∧ MemKept s s' ∧ WinKept s s' ∧
      (s'.wg t).crew c = { (default : Crew) with held := true, gone := true, flight := ((s'.wg t).crew c).flight } ∧
      ((s'.wg t).crew c).flight.map (·.id) = ((s.wg t).crew c).flight.map (·.id) ∧
      (∀ k, k ≠ c → ((s'.wg t).crew k).s = ((s.wg t).crew k).s ∧ ((s'.wg t).crew k).held = ((s.wg t).crew k).held) ∧
      (s'.wg t).lanes = (s.wg t).lanes ∧ (s'.wg t).gangs = (s.wg t).gangs ∧
      ∀ k, let b := (s.wg t).barriers.get k
        (s'.wg t).barriers.get k = if b.bound = true ∧ b.bcrew.toNat = c then { b with bound := false } else b := by
  have hover : (s.wg t).crewOver c = true := by
    unfold Workgroup.crewOver
    rw [hheld, hgone, hforming, hmem, hdrained]
    rfl
  have hexec : exec (.crewDissolve t c) s = .next ((s.givesBack t c).updWg t fun w => w.dissolved c) := by
    refine (if_neg ?_).trans rfl
    rw [hover]
    decide
  have hwg : ((s.givesBack t c).updWg t fun w => w.dissolved c).wg t = ((s.givesBack t c).wg t).dissolved c := State.wg_updWg_self ..
  obtain ⟨hlanes, hgangs, hbars⟩ := State.givesBack_rest s t c
  have hself : (((s.givesBack t c).wg t).dissolved c).crew c =
      { (default : Crew) with held := true, gone := true, flight := (((s.givesBack t c).wg t).crew c).flight } :=
    (Workgroup.crew_dissolved ..).trans (if_pos rfl)
  refine ⟨_, hexec, fun a => ?_, fun u a => ?_, ?_, ?_, fun k hk => ?_, ?_, ?_, fun k => ?_⟩
  · exact congrArg (fun m : SMap Byte => m.get a) (State.givesBack_mem s t c)
  · by_cases hu : u = t
    · rw [hu, hwg]
      exact congrArg (fun m : SMap Byte => m.get a) (State.givesBack_win s t c t)
    · rw [State.wg_updWg_ne _ _ hu, State.givesBack_win]
  · rw [hwg, hself]
  · rw [hwg, hself]
    exact (State.givesBack_crew s t c c).items
  · have hne : (((s.givesBack t c).wg t).dissolved c).crew k = ((s.givesBack t c).wg t).crew k :=
      (Workgroup.crew_dissolved ..).trans (if_neg hk)
    rw [hwg, hne]
    exact ⟨(State.givesBack_crew s t c k).s, (State.givesBack_crew s t c k).held⟩
  · rw [hwg]
    exact hlanes
  · rw [hwg]
    exact hgangs
  · rw [hwg, Workgroup.barrier_dissolved, hbars]

end

/-! ### The statement -/

section
variable {s : State} {t : Nat} {g : Gang} {r : ClauseRun} {i : Instr}

/-- What a ready gang waits for is over. -/
theorem parkOver_of_ready {p : Park} (hready : s.ready t g = true) (hr : g.clause = some r) (hp : g.park = some p) : s.parkOver t g p = true := by
  unfold State.ready at hready
  rw [hr, hp] at hready
  exact (Bool.and_eq_true _ _ ▸ hready).2

/-- A gang as it stands in its instruction again, its turn on the agenda. -/
def State.woken (s : State) (t : Nat) (g : Gang) (r : ClauseRun) (f : Pend → Pend) : State :=
  { (s.updGang t g.id fun x => { x with park := none, ages := List.replicate 8 0, clause := some { r with pend := f r.pend } }) with
    agenda := .gang t g.id :: s.agenda }

/-- LOCK_RETRY of a lock attempt that succeeds. -/
theorem lockRetries (hg : (s.wg t).gang? g.id = some g) (hsel : s.maySelect t g = true) (hready : s.ready t g = true)
    (hr : g.clause = some r) (hi : r.instr = some i) (hpark : g.park = some .lock) (ha : (accessExec i s).isSome = true) :
    ∃ s2, exec i (s.woken t g r id) = .next s2 ∧ (∀ x, (s2.wg t).gang? g.id = some x → x.park ≠ some .lock) ∧
      exec (.lockRetry t g.id) s = .next (s2.tookAttempt (s.wg t) g) := by
  have hover : (s.again t g .lock id).isSome = true :=
    (Bool.and_eq_true _ _ ▸ show (!s.outranked t g && (s.again t g .lock id).isSome) = true from parkOver_of_ready hready hr hpark).2
  obtain ⟨s2, hagain⟩ := Option.isSome_iff_exists.mp hover
  obtain ⟨hexec, hleft⟩ := (again_eq hr hi ha .lock id false s2).mp hagain
  refine ⟨s2, hexec, fun x hx hp => hleft x hx ⟨hp, rfl⟩, ?_⟩
  show execLockRetry t g.id s = _
  unfold execLockRetry
  rw [hg]
  dsimp only
  rw [hagain, if_neg ?_]
  rw [hsel, hpark]
  rintro (h | h)
  · exact h rfl
  · cases h

theorem raceAgain_eq (hg : (s.wg t).gang? g.id = some g) (hsel : s.maySelect t g = true) (hr : g.clause = some r)
    (hpark : g.park = some .race) {pass : Bool} (hn : ¬ (pass = true ∧ r.pend.stallOf.1 ≤ 256)) {s2 : State}
    (hagain : s.again t g .race (fun p => .stall p.stallOf.1 pass) pass = some s2) :
    s.raceAgain t g.id pass = .next (s2.tookTurn (s.wg t) g) := by
  unfold State.raceAgain
  rw [hg]
  dsimp only
  rw [hagain, hr, if_neg ?_]
  rw [hsel, hpark]
  rintro (h | h | h)
  · exact h rfl
  · exact hn h
  · cases h

/-- RACE_STALL_RELEASE of an access whose entry is free. -/
theorem raceReleases (hg : (s.wg t).gang? g.id = some g) (hsel : s.maySelect t g = true) (hready : s.ready t g = true)
    (hr : g.clause = some r) (hi : r.instr = some i) (hpark : g.park = some .race) (ha : (accessExec i s).isSome = true)
    (hn : r.pend.stallOf.1 ≤ 256) :
    ∃ s2, exec i (s.woken t g r fun p => .stall p.stallOf.1 false) = .next s2 ∧
      (∀ x, (s2.wg t).gang? g.id = some x → x.park ≠ some .race) ∧
      exec (.raceStallRelease t g.id) s = .next (s2.tookTurn (s.wg t) g) := by
  have hover : (decide (r.pend.stallOf.1 > 256) || (s.again t g .race fun p => .stall p.stallOf.1 false).isSome) = true := by
    have h := parkOver_of_ready hready hr hpark
    unfold State.parkOver at h
    rw [hr] at h
    exact h
  rw [decide_eq_false (not_lt.mpr hn), Bool.false_or] at hover
  obtain ⟨s2, hagain⟩ := Option.isSome_iff_exists.mp hover
  obtain ⟨hexec, hleft⟩ := (again_eq hr hi ha .race _ false s2).mp hagain
  exact ⟨s2, hexec, fun x hx hp => hleft x hx ⟨hp, rfl⟩, raceAgain_eq (pass := false) hg hsel hr hpark (fun h => Bool.noConfusion h.1) hagain⟩

/-- RACE_STALL_TIMEOUT of an access that has stalled for more than 256 cycles. -/
theorem raceTimesOut (hg : (s.wg t).gang? g.id = some g) (hsel : s.maySelect t g = true)
    (hr : g.clause = some r) (hi : r.instr = some i) (hpark : g.park = some .race) (ha : (accessExec i s).isSome = true)
    (hn : 256 < r.pend.stallOf.1) {s2 : State} (hexec : exec i (s.woken t g r fun p => .stall p.stallOf.1 true) = .next s2) :
    exec (.raceStallTimeout t g.id) s = .next (s2.tookTurn (s.wg t) g) :=
  raceAgain_eq hg hsel hr hpark (fun h => absurd h.2 (not_le.mpr hn)) ((again_eq hr hi ha .race _ true s2).mpr ⟨hexec, fun _ _ h => nomatch h.2⟩)

end

/-- Settles O46: each event changes its gang, its workgroup's gangs or its crew alone; an attempt is made again by `State.again`. -/
theorem gangEventsHappen : Obligations.GangEventsHappen := by
  unfold Obligations.GangEventsHappen
  intro s t w
  refine ⟨fun g hg => ?_, fun x hfind hover => regangWindowCloses hfind hover, fun hset pc hne hall => crossLaneGathers rfl hne hall,
    fun c hheld hgone hforming hmem hdrained => crewDissolves s t c hheld hgone hforming hmem hdrained⟩
  refine ⟨fun h off ws is hc hsel hfetch hdec hcross hbw hcode => clauseIssues hg hc hsel hfetch hdec hcross hbw hcode,
    fun hp hlock hrace hsel => ?_, fun hh => ?_, fun r hr hp hheld hls => exec_lockHold hg hr hp hheld hls, fun hsel hready r i hr hi => ?_⟩
  · obtain ⟨p, hpark⟩ := Option.ne_none_iff_exists'.mp hp
    exact ⟨_, exec_gangUnpark hg hpark (fun h => hlock (h ▸ hpark)) (fun h => hrace (h ▸ hpark)) hsel, updGang_gangOnly (fun _ => rfl) hg⟩
  · exact ⟨_, exec_yieldHoldExpire hg hh, updGang_gangOnly (fun _ => rfl) hg⟩
  · exact ⟨fun hpark ha => lockRetries hg hsel hready hr hi hpark ha, fun hpark ha hn => raceReleases hg hsel hready hr hi hpark ha hn,
      fun s2 hpark hn ha hexec => raceTimesOut hg hsel hr hi hpark ha hn hexec⟩

end Sys2Proof.Machine
end

section
/-! SUPPORT. Proofs, part Z6. -/
namespace Sys2Proof.Machine
open Sys2Proof Sys2Proof.Safety
-- One proof at a time: side by side they need more threads than a check's memory holds.
set_option Elab.async false

/-! ### Lanes that resume from a trap -/

/-- Where a lane of a trap resumes: at a boundary or in the middle of a clause, after its region has closed or before. -/
def Resume.key (x : Resume) : Bool × Nat × Option ClauseRun := (x.kind == 2, x.pc, x.run)

/-- The gang that lanes of a mask resume in. -/
def resumedGang (hset : Nat) (k : Bool × Nat × Option ClauseRun) (m : BitVec 32) : Gang :=
  { (default : Gang) with
    hset := hset, mask := m, ages := List.replicate 8 0
    pc := (match k.2.2 with | some r => r.base | none => k.2.1)
    clause := k.2.2.map fun r => { r with issue := r.issue &&& m, exec := r.exec &&& m }
    park := k.2.2.map fun _ => .resumed }

/-- The lanes of a list of resume points that resume at one of them. -/
def resumeMask (live : List Resume) (k : Bool × Nat × Option ClauseRun) : BitVec 32 :=
  maskOfLanes ((live.filter fun r => decide (r.key = k)).map (·.lane))

/-- The lanes of one resume point form a gang. -/
def Workgroup.resumesAt (w : Workgroup) (hset : Nat) (live : List Resume) (k : Bool × Nat × Option ClauseRun) : Workgroup :=
  let m := resumeMask live k
  (if k.1 then w.closeRegion (lanesOf hset m) else w).addGang (resumedGang hset k m)

theorem resumeLanes_eq (w : Workgroup) (hset : Nat) (rs : List Resume) :
    let live := rs.filter fun r => (w.lane r.lane).live
    w.resumeLanes hset rs = overList (dedup (live.map Resume.key)) w fun w k => w.resumesAt hset live k := rfl

/-- Nothing but gangs and regions has changed. -/
structure RegionsOnly (w w' : Workgroup) : Prop where
  rest : w' = { w with lanes := w'.lanes, gangs := w'.gangs, nextGang := w'.nextGang }
  lane : ∀ l, w'.lane l = { w.lane l with opened := (w'.lane l).opened, repc := (w'.lane l).repc, rcnt := (w'.lane l).rcnt }
  gangs : ∀ g ∈ w.gangs, g ∈ w'.gangs

theorem RegionsOnly.refl (w : Workgroup) : RegionsOnly w w := ⟨rfl, fun _ => rfl, fun _ h => h⟩

theorem RegionsOnly.trans {a b c : Workgroup} (h : RegionsOnly a b) (k : RegionsOnly b c) : RegionsOnly a c where
  rest := by rw [k.rest, h.rest]
  lane l := by rw [k.lane, h.lane]
  gangs g hg := k.gangs g (h.gangs g hg)

theorem RegionsOnly.crew {a b : Workgroup} (h : RegionsOnly a b) (c : Nat) : b.crew c = a.crew c := by
  rw [h.rest]
  rfl

theorem RegionsOnly.traps {a b : Workgroup} (h : RegionsOnly a b) : b.traps = a.traps := by rw [h.rest]

theorem RegionsOnly.closeRegion (w : Workgroup) (ls : List Nat) : RegionsOnly w (w.closeRegion ls) where
  rest := by rw [Workgroup.closeRegion_rest]
  lane l := by
    rw [Workgroup.lane_closeRegion]
    split <;> rfl
  gangs g hg := by
    rw [Workgroup.closeRegion_rest]
    exact hg

theorem RegionsOnly.addGang (w : Workgroup) (g : Gang) : RegionsOnly w (w.addGang g) :=
  ⟨rfl, fun _ => rfl, fun _ h => List.mem_append_left _ h⟩

theorem RegionsOnly.resumesAt (w : Workgroup) (hset : Nat) (live : List Resume) (k : Bool × Nat × Option ClauseRun) :
    RegionsOnly w (w.resumesAt hset live k) := by
  unfold Workgroup.resumesAt
  split
  · exact (RegionsOnly.closeRegion w _).trans (.addGang _ _)
  · exact .addGang w _

section
variable {hset : Nat} {live : List Resume}

theorem RegionsOnly.over (ks : List (Bool × Nat × Option ClauseRun)) (w : Workgroup) :
    RegionsOnly w (overList ks w fun w k => w.resumesAt hset live k) := by
  induction ks generalizing w with
  | nil => exact .refl w
  | cons k ks ih => exact (RegionsOnly.resumesAt w hset live k).trans (ih _)

/-- The gang of a resume point, whatever its number. -/
theorem mem_resumesAt (w : Workgroup) (k : Bool × Nat × Option ClauseRun) :
    ∃ n, { resumedGang hset k (resumeMask live k) with id := n, moved := true } ∈ (w.resumesAt hset live k).gangs :=
  ⟨_, List.mem_append_right _ List.mem_cons_self⟩

theorem mem_resumed {ks : List (Bool × Nat × Option ClauseRun)} {k : Bool × Nat × Option ClauseRun} (hk : k ∈ ks) (w : Workgroup) :
    ∃ n, { resumedGang hset k (resumeMask live k) with id := n, moved := true } ∈ (overList ks w fun w k => w.resumesAt hset live k).gangs := by
  induction ks generalizing w with
  | nil => cases hk
  | cons j ks ih =>
    rcases List.mem_cons.mp hk with rfl | hk
    · obtain ⟨n, hn⟩ := mem_resumesAt (hset := hset) (live := live) w k
      exact ⟨n, (RegionsOnly.over ks _).gangs _ hn⟩
    · exact ih hk _

end

theorem RegionsOnly.resumeLanes (w : Workgroup) (hset : Nat) (rs : List Resume) : RegionsOnly w (w.resumeLanes hset rs) := .over _ w

/-- Every live lane of a trap stands in a gang at its resume point. -/
theorem resumeLanes_gang {w : Workgroup} {hset : Nat} {rs : List Resume} {x : Resume} (hx : x ∈ rs) (hlive : (w.lane x.lane).live = true) :
    ∃ h ∈ (w.resumeLanes hset rs).gangs, h.hset = hset ∧ h.mask.getLsbD (posOf x.lane) = true ∧ h.park = x.run.map (fun _ => .resumed) ∧
      match x.run with
      | some q => ∃ q', h.clause = some q' ∧ q'.base = q.base ∧ q'.pos = q.pos ∧ q'.words = q.words
      | none => h.clause = none ∧ h.pc = x.pc := by
  rw [resumeLanes_eq]
  have hmem : x ∈ rs.filter fun r => (w.lane r.lane).live := List.mem_filter.mpr ⟨hx, hlive⟩
  generalize rs.filter (fun r => (w.lane r.lane).live) = live at hmem
  obtain ⟨n, hn⟩ := mem_resumed (hset := hset) (live := live) (mem_dedup.mpr (List.mem_map_of_mem hmem)) w
  refine ⟨_, hn, rfl, ?_, rfl, ?_⟩
  · exact getLsbD_maskOfLanes (List.mem_map_of_mem (List.mem_filter.mpr ⟨hmem, decide_eq_true rfl⟩))
  · cases hrun : x.run with
    | none =>
      have hkey : x.key.2.2 = none := hrun
      refine ⟨?_, ?_⟩ <;> unfold resumedGang <;> rw [hkey] <;> rfl
    | some q =>
      have hkey : x.key.2.2 = some q := hrun
      refine ⟨{ q with issue := q.issue &&& resumeMask live x.key, exec := q.exec &&& resumeMask live x.key }, ?_, rfl, rfl, rfl⟩
      unfold resumedGang
      rw [hkey]
      rfl

/-! ### Returns from a handler -/

/-- The lanes of a handler get their registers back, and the crew runs it no longer. -/
def Workgroup.handlerLeft (w : Workgroup) (ls : List Nat) (c : Nat) : Workgroup :=
  let w1 := overList ls w fun w l => w.updLane l unhandleLane
  ((w1.updCrew c fun x => { x with
    handler := false, monitor := x.monitor.map fun (m : Monitor) => { m with fired := true } }).layEdge (w1.members c)).dropLanes ls

section
variable {w : Workgroup} {ls : List Nat} {c : Nat}

theorem handlerLeft_rest : w.handlerLeft ls c = { w with
    lanes := (w.handlerLeft ls c).lanes, crews := (w.handlerLeft ls c).crews, edges := (w.handlerLeft ls c).edges
    gangs := (w.handlerLeft ls c).gangs } := by
  unfold Workgroup.handlerLeft Workgroup.dropLanes Workgroup.layEdge Workgroup.updCrew
  dsimp only
  rw [Workgroup.overUpd_rest ls (fun l => l) (fun _ => unhandleLane) w]

theorem lane_handlerLeft (hn : ls.Nodup) (l : Nat) : (w.handlerLeft ls c).lane l = if l ∈ ls then unhandleLane (w.lane l) else w.lane l :=
  Workgroup.lane_overLanes ls hn unhandleLane w l

theorem crew_handlerLeft : ((w.handlerLeft ls c).crew c).handler = false := by
  have hcrew : (w.handlerLeft ls c).crew c = ((overList ls w fun w l => w.updLane l unhandleLane).updCrew c fun x => { x with
    handler := false, monitor := x.monitor.map fun (m : Monitor) => { m with fired := true } }).crew c := rfl
  rw [hcrew, Workgroup.crew_updCrew, if_pos rfl]

theorem unhandleLane_saved {x : Lane} {v : LaneSave} (h : x.saved = some v) :
    unhandleLane x = { x with o := v.o, p := v.p, cf := v.cf, fpmode := v.fpmode, saved := none } := by
  unfold unhandleLane
  rw [h]

theorem unhandleLane_live (x : Lane) : (unhandleLane x).live = x.live := by
  unfold unhandleLane
  split <;> rfl

theorem live_handlerLeft (hn : ls.Nodup) (l : Nat) : ((w.handlerLeft ls c).lane l).live = (w.lane l).live := by
  rw [lane_handlerLeft hn]
  split
  · exact unhandleLane_live _
  · rfl

end

section
variable {s : State} {t c : Nat} {ti : TrapIssue} {tc : TrapCrew}

/-- A trap is over. -/
def Workgroup.trapGone (w : Workgroup) (id : Nat) : Workgroup := { w with traps := w.traps.filter fun x => x.id != id }

theorem crew_trapGone (w : Workgroup) (id c : Nat) : (w.trapGone id).crew c = w.crew c := rfl
theorem lane_trapGone (w : Workgroup) (id l : Nat) : (w.trapGone id).lane l = w.lane l := rfl

/-- The workgroup once the last crew of a trap has returned from its handler. -/
def Workgroup.trapOver (w : Workgroup) (ti : TrapIssue) (ls : List Nat) (c : Nat) : Workgroup :=
  ((w.handlerLeft ls c).trapGone ti.id).resumeLanes ti.hset ti.resume

/-- The last crew of a trap returns. -/
theorem endHandler_last (hcur : ti.cur = some tc) (hc : tc.crew = some c) (htodo : ti.todo = [])
    (hfind : (s.wg t).traps.find? (fun x => x.id == ti.id) = some ti) : s.endHandler t ti =
    (s.updWg t fun w => w.handlerLeft (lanesOf ti.hset tc.faulters) c).updWg t fun w =>
      (w.trapGone ti.id).resumeLanes ti.hset ti.resume := by
  have hleft : (s.updWg t fun w => w.handlerLeft (lanesOf ti.hset tc.faulters) c).wg t = (s.wg t).handlerLeft (lanesOf ti.hset tc.faulters) c :=
    State.wg_updWg_self ..
  have hend : s.endHandler t ti = State.nextCrew t ti.id 66 (s.updWg t fun w => w.handlerLeft (lanesOf ti.hset tc.faulters) c) := by
    unfold State.endHandler
    rw [hcur]
    dsimp only
    rw [hc]
    rfl
  rw [hend]
  generalize (s.updWg t fun w => w.handlerLeft (lanesOf ti.hset tc.faulters) c) = s1 at hleft ⊢
  unfold State.nextCrew
  dsimp only
  rw [hleft, handlerLeft_rest, hfind]
  dsimp only
  rw [htodo]
  rfl

theorem wg_endHandler (hcur : ti.cur = some tc) (hc : tc.crew = some c) (htodo : ti.todo = [])
    (hfind : (s.wg t).traps.find? (fun x => x.id == ti.id) = some ti) :
    (s.endHandler t ti).wg t = (s.wg t).trapOver ti (lanesOf ti.hset tc.faulters) c := by
  rw [endHandler_last hcur hc htodo hfind, State.wg_updWg_self, State.wg_updWg_self]
  rfl

theorem mem_endHandler (hcur : ti.cur = some tc) (hc : tc.crew = some c) (htodo : ti.todo = [])
    (hfind : (s.wg t).traps.find? (fun x => x.id == ti.id) = some ti) : (s.endHandler t ti).mem = s.mem := by
  rw [endHandler_last hcur hc htodo hfind]
  rfl

end

section
variable {w : Workgroup} {ti : TrapIssue} {ls : List Nat} {c : Nat}

/-- A handler's lane has its registers back, and its vector registers as they stood. -/
theorem lane_trapOver (hn : ls.Nodup) {l : Nat} (hl : l ∈ ls) {v : LaneSave} (hv : (w.lane l).saved = some v) :
    let y := (w.trapOver ti ls c).lane l
    y.o = v.o ∧ y.p = v.p ∧ y.cf = v.cf ∧ y.fpmode = v.fpmode ∧ y.saved = none ∧ y.v = (w.lane l).v := by
  have hlane : ((w.handlerLeft ls c).trapGone ti.id).lane l = { w.lane l with o := v.o, p := v.p, cf := v.cf, fpmode := v.fpmode, saved := none } :=
    by rw [lane_trapGone, lane_handlerLeft hn, if_pos hl, unhandleLane_saved hv]
  dsimp only
  rw [Workgroup.trapOver, (RegionsOnly.resumeLanes _ _ _).lane, hlane]
  exact ⟨rfl, rfl, rfl, rfl, rfl, rfl⟩

theorem crew_trapOver : ((w.trapOver ti ls c).crew c).handler = false := by
  rw [Workgroup.trapOver, (RegionsOnly.resumeLanes _ _ _).crew, crew_trapGone, crew_handlerLeft]

theorem traps_trapOver {x : TrapIssue} (hx : x ∈ (w.trapOver ti ls c).traps) : x.id ≠ ti.id := by
  rw [Workgroup.trapOver, (RegionsOnly.resumeLanes _ _ _).traps] at hx
  exact bne_iff_ne.mp (List.mem_filter.mp hx).2

theorem gang_trapOver (hn : ls.Nodup) {x : Resume} (hx : x ∈ ti.resume) (hlive : (w.lane x.lane).live = true) :
    ∃ h ∈ (w.trapOver ti ls c).gangs, h.hset = ti.hset ∧ h.mask.getLsbD (posOf x.lane) = true ∧ h.park = x.run.map (fun _ => .resumed) ∧
      match x.run with
      | some q => ∃ q', h.clause = some q' ∧ q'.base = q.base ∧ q'.pos = q.pos ∧ q'.words = q.words
      | none => h.clause = none ∧ h.pc = x.pc :=
  resumeLanes_gang (w := (w.handlerLeft ls c).trapGone ti.id) hx (by rw [lane_trapGone, live_handlerLeft hn, hlive])

end

end Sys2Proof.Machine
end

section
/-! SUPPORT. Proofs, part Z7. -/
namespace Sys2Proof.Machine
open Sys2Proof Sys2Proof.Safety
-- One proof at a time: side by side they need more threads than a check's memory holds.
set_option Elab.async false

/-! ### R372: TRET and TRET.ABORT -/

/-- A list of one value, without repeats. -/
theorem dedup_single {α : Type} [DecidableEq α] {b : α} {l : List α} (hne : l ≠ []) (hall : ∀ x ∈ l, x = b) : dedup l = [b] := by
  have hlen := length_dedup_le_one fun x hx y hy => (hall x hx).trans (hall y hy).symm
  obtain ⟨a, l, rfl⟩ := List.exists_cons_of_ne_nil hne
  have hmem : b ∈ dedup (a :: l) := mem_dedup.mpr (hall a List.mem_cons_self ▸ List.mem_cons_self)
  match h : dedup (a :: l), hlen, hmem with
  | [x], _, hm => rw [List.mem_singleton.mp hm]

section
variable {e : Env} {abort : Bool} {ti : TrapIssue}

theorem tretBody_traps {l : Nat} {ls : List Nat} (h : (e.ls.filter fun l => (e.w.handlerTrap l).isNone) = l :: ls) :
    tretBody abort e = e.trap 0x67 (l :: ls) := by
  have hmap : (e.ls.filter fun l => ((e.w.handlerTrap l).map (·.id)).isNone) = l :: ls :=
    (List.filter_congr fun x _ => Option.isNone_map ..).trans h
  unfold tretBody
  dsimp only
  rw [hmap]

/-- Lanes of one handler return together. -/
theorem tretBody_one (hall : ∀ l ∈ e.iss, e.w.handlerTrap l = some ti) (hne : e.iss ≠ []) (hsub : ∀ l ∈ e.ls, l ∈ e.iss)
    (hfind : e.w.traps.find? (fun x => x.id == ti.id) = some ti) : tretBody abort e = e.tret abort ti := by
  have hnone : (e.ls.filter fun l => ((e.w.handlerTrap l).map (·.id)).isNone) = [] := by
    refine List.filter_eq_nil_iff.mpr fun l hl => ?_
    rw [hall l (hsub l hl)]
    exact Bool.false_ne_true
  have hone : dedup (e.iss.map fun l => (e.w.handlerTrap l).map (·.id)) = [some ti.id] := by
    refine dedup_single (mt List.map_eq_nil_iff.mp hne) fun x hx => ?_
    obtain ⟨l, hl, rfl⟩ := List.mem_map.mp hx
    rw [hall l hl]
    rfl
  unfold tretBody
  dsimp only
  rw [hnone, hone]
  dsimp only
  rw [hfind]

/-- Once every handler lane is there, the crew is drained and nothing is left to wait for, the crew returns or escalates. -/
theorem tret_goes {tc : TrapCrew} {c : Nat} {s1 : State} (hcur : ti.cur = some tc) (hc : tc.crew = some c)
    (hothers : e.otherGangs ((lanesOf ti.hset tc.faulters).filter fun l => (e.w.lane l).live) = []) (hdrained : (e.w.crew c).drained = true)
    (hsettle : e.s.settleFor e.t (e.s.asItem e.t ((lanesOf ti.hset tc.faulters).filter fun l => (e.w.lane l).live) .acqRel .device false .fence) =
      (s1, none)) :
    let s2 := (s1.acquired e.t .acqRel .device).updWg e.t fun w => w.endInterval ((lanesOf ti.hset tc.faulters).filter fun l => (e.w.lane l).live)
    e.tret abort ti = .gone (if abort then s2.abortHandler e.t ti else s2.endHandler e.t ti) := by
  unfold Env.tret
  dsimp only
  rw [hcur, Option.getD_some, hothers]
  refine (if_neg Bool.false_ne_true).trans ((if_neg Bool.false_ne_true).trans ((if_neg ?_).trans ?_))
  · rw [hc]
    show ¬ (e.w.crew c).drained = false
    rw [hdrained]
    decide
  · rw [hsettle]

end

/-- TRET.ABORT outside a gate call terminates the workgroup. -/
theorem abortHandler_terminates {s : State} {t c : Nat} {ti : TrapIssue} {tc : TrapCrew} (hcur : ti.cur = some tc) (hc : tc.crew = some c)
    (hdepth : ((s.wg t).crew c).depth = 0) :
    s.abortHandler t ti = s.terminate t ti.cause ti.fpc ((s.wg t).crew c).domain (firstVa tc.recs) := by
  unfold State.abortHandler
  dsimp only
  rw [hcur]
  dsimp only
  rw [hc]
  exact if_neg (by rw [hdepth]; decide)

theorem terminated_spent {s s1 : State} {t cause fpc dom va n : Nat} (h : (s1.wg t).term = (s.wg t).term) :
    Terminated s ((s1.terminate t cause fpc dom va).spent n) t cause fpc dom := by
  obtain ⟨hlive, hgangs, hterm⟩ := State.terminated_terminate s1 t cause fpc dom va
  unfold Terminated
  rw [State.wg_spent]
  exact ⟨hlive, hgangs, fun h0 => ⟨_, hterm (h.trans h0)⟩⟩

section
variable {s s1 : State} {t c : Nat} {ls : List Nat}

/-- The lanes of a handler have settled what they leave: their carve-out is dropped and their intervals end. -/
def State.returnSettled (s : State) (t : Nat) (ls : List Nat) : State := (s.acquired t .acqRel .device).updWg t fun w => w.endInterval ls

theorem wg_returnSettled : (s.returnSettled t ls).wg t = ({ s.wg t with l1 := [] } : Workgroup).endInterval ls := by
  have hdrop : (s.acquired t .acqRel .device).wg t = { s.wg t with l1 := [] } := State.wg_updWg_self ..
  rw [State.returnSettled, State.wg_updWg_self, hdrop]

theorem lane_returnSettled (l : Nat) : ∃ i, ((s.returnSettled t ls).wg t).lane l = { (s.wg t).lane l with interval := i } := by
  rw [wg_returnSettled]
  exact ⟨_, Workgroup.lane_endInterval_rest ..⟩

theorem crew_returnSettled : ∃ b, ((s.returnSettled t ls).wg t).crew c = { (s.wg t).crew c with syncDue := b } := by
  rw [wg_returnSettled]
  exact ⟨_, Workgroup.crew_endInterval ..⟩

end

/-- Settles O35: lanes of one trap return together, in `Env.tret`; the last crew resumes every lane, in `Workgroup.resumeLanes`. -/
theorem handlerReturns : Obligations.HandlerReturns := by
  unfold Obligations.HandlerReturns
  intro s t g r es i hi h w ls e
  have hrun : ∃ abort, exec i s = laneIssue i (tretBody abort) s ∧ popless i = true ∧ keepsPops i = false ∧ (i = .tret → abort = false) ∧
      (i = .tretAbort → abort = true) := by
    rcases hi with rfl | rfl
    · exact ⟨false, rfl, rfl, rfl, fun _ => rfl, nofun⟩
    · exact ⟨true, rfl, rfl, rfl, nofun, fun _ => rfl⟩
  obtain ⟨abort, hexec, hpop, hkeep, hret, habort⟩ := hrun
  constructor
  · intro hne
    obtain ⟨l, ls', hls⟩ := List.exists_cons_of_ne_nil hne
    rw [hexec, hls]
    exact laneIssue_trapped h hkeep (tretBody_traps hls)
  intro ti tc c s1 hall hne hsub hfind hcur hc hdrained hl hothers hsettle
  have hgone : exec i s = .next ((if abort then (s1.returnSettled t hl).abortHandler t ti else (s1.returnSettled t hl).endHandler t ti).spent s.free) :=
    hexec.trans (laneIssue_gone h hpop ((tretBody_one hall hne hsub hfind).trans (tret_goes hcur hc hothers hdrained hsettle)))
  obtain ⟨b, hcrew2⟩ := crew_returnSettled (s := s1) (t := t) (ls := hl) (c := c)
  refine ⟨fun hi htodo hfind1 => ?_, fun hi hdepth hcrew hterm => ?_⟩
  · rw [hret hi, if_neg Bool.false_ne_true] at hgone
    have hnd : (lanesOf ti.hset tc.faulters).Nodup := lanesOf_nodup ..
    have hfind2 : ((s1.returnSettled t hl).wg t).traps.find? (fun x => x.id == ti.id) = some ti := by
      rw [wg_returnSettled, Workgroup.endInterval_rest]
      exact hfind1
    have hwg := wg_endHandler hcur hc htodo hfind2
    refine ⟨_, hgone, fun a => ?_, fun l hl1 v hv => ?_, ?_, fun x hx => ?_, fun x hx hlive _ => ?_⟩
    · exact congrArg (fun m : SMap Byte => m.get a) (mem_endHandler hcur hc htodo hfind2)
    · obtain ⟨n, hlane⟩ := lane_returnSettled (s := s1) (t := t) (ls := hl) l
      have hsaved : (((s1.returnSettled t hl).wg t).lane l).saved = some v := by rw [hlane, hv]
      have hover := lane_trapOver (ti := ti) (c := c) hnd hl1 hsaved
      rw [← hwg, hlane] at hover
      exact hover
    · have hover := crew_trapOver (w := (s1.returnSettled t hl).wg t) (ti := ti) (ls := lanesOf ti.hset tc.faulters) (c := c)
      rw [← hwg] at hover
      exact hover
    · refine traps_trapOver (ls := lanesOf ti.hset tc.faulters) (c := c) (w := (s1.returnSettled t hl).wg t) ?_
      rw [← hwg]
      exact hx
    · obtain ⟨n, hlane⟩ := lane_returnSettled (s := s1) (t := t) (ls := hl) x.lane
      have hover := gang_trapOver (c := c) (w := (s1.returnSettled t hl).wg t) hnd hx (by rw [hlane, hlive])
      rw [← hwg] at hover
      exact hover
  · rw [habort hi, if_pos rfl] at hgone
    have hdepth2 : (((s1.returnSettled t hl).wg t).crew c).depth = 0 := by rw [hcrew2, hcrew, hdepth]
    have hterm2 : ((s1.returnSettled t hl).wg t).term = (s.wg t).term := by
      rw [wg_returnSettled, Workgroup.endInterval_rest]
      exact hterm
    have habrt := abortHandler_terminates hcur hc hdepth2
    refine ⟨_, hgone, ?_⟩
    rw [habrt, hcrew2, hcrew]
    exact terminated_spent hterm2

end Sys2Proof.Machine
end

section
/-! SUPPORT. The Sorter's postings (spec/17 R421): a posting whose record's walk brings a count down, and the refutation that it gives. -/

namespace Sys2Proof.Machine

open Sys2Proof Sys2Proof.Safety Tests

-- One proof at a time: side by side they need more threads than a check's memory holds.
set_option Elab.async false

/-- A store of lane 0 at the descriptor of domain 0, counted on a path, that a release counts as performed, seen by lane 0. -/
def passedStore (p : Path) (x : Byte) : FlightItem := { (default : FlightItem) with
  id := 1, op := .store [⟨0, [(.phys 0, [x])]⟩], path := some p, lanes := [(0, 0)], past := some { (default : Past) with mates := [0] } }

/-- An item that is done, and counted on a path until what stands before it is. -/
def countedItem (p : Path) (n : Nat) : FlightItem := { (default : FlightItem) with id := n, path := some p, done := true }

/-- Counters full of one store on its way, and of 62 items that are done behind it. -/
def fullFlight (p : Path) (x : Byte) : List FlightItem := passedStore p x :: (List.range 62).map fun n => countedItem p (n + 2)

/-- The model's own witness of VGMV, in a gate call: DM is full, and the record is the callee's. -/
def sVgFull : State := { ((sVg.updWg 0 fun w => { w.updCrew 0 fun c => { c with depth := 1, flight := fullFlight .dm 0 } with
    gates := [(0, { (default : GateFrame) with entry := [0, 0, 0, 0, 0, 8] })] }).updCore 0 fun c => { c with
      recs := c.recs.map fun x => { x with key := .domain 0 } }) with mem := [] }

/-- The posting of lanes 0 and 1. -/
def vgmvFull : Instr := .vgmv 0 (.v 2) (.v 3) (.v 4)

theorem sVgFull_ready : Ready sVgFull 0 (gang 3) (run 3) vgmvFull [] :=
  ready_gated rfl rfl rfl (by decide) (by decide) rfl rfl rfl

theorem sVgFull_inCrew : InCrew sVgFull 0 (gang 3) (run 3) 0 := ⟨by decide, by decide⟩

/-- How many entries queue 0 of the Sorter of core 0 holds. -/
def sorterCount (o : Host.Outcome State Fault Refusal) : Option Nat := match o with
  | .next s => some (s.sorterQ 0 0).length
  | _ => none

/-- The gang waits for a counter, and posts nothing. -/
theorem vgmvFull_waits : sorterCount (exec vgmvFull sVgFull) = some 0 := by decide +kernel

/-- The operands of the posting: the pair and a lane's result address. -/
def vgmvPair : Nat := ((opEnv sVgFull 0 (gang 3) (run 3) []).opd 0 (.pair (.v 4)) (popsIn [(.v 2, 1), (.v 3, 1)]) 8).toNat
def vgmvRow (l : Nat) : Nat := ((opEnv sVgFull 0 (gang 3) (run 3) []).int32 l (.v 2) 0 0).toNat
def vgmvRes (l : Nat) : Nat := ((opEnv sVgFull 0 (gang 3) (run 3) []).int32 l (.v 3) (popsIn [(.v 2, 1)]) 4).toNat

theorem vgmvPair_fits : bits vgmvPair 40 16 ≠ 0 ∧ bits vgmvPair 40 16 ≤ 65534 ∧ bits vgmvPair 56 8 = 0 ∧ bits vgmvPair 32 8 = 5 ∧ vgmvPair % 4 = 0 := by
  decide +kernel

/-- The state that the walk of the record leaves admits the posting: it has performed the store, and the counter of DM has fallen. -/
def admitsVgmv (b : State) : Bool :=
  okB (b.recGet (b.wg 0) 0 5 6) (fun x =>
    recCheck { z := 2, noSenc := true } (match b.descUse 0 0 with | some y => descSuper y | none => false) 0 5 (recBits x.1) == none &&
      decide (rKind (recBits x.1) ≤ 1)) &&
    ((b.wg 0).core == 0 && (b.spadAt 0 0 (bitAt vgmvPair 24) (vgmvPair % 2 ^ 24) (4 * bits vgmvPair 40 16) == some (0, 64) &&
      ((execLanes (gang 3) (run 3)).all (fun l => vgmvRow l % 2 == 0 && vgmvRes l % 8 == 0 &&
          (b.spadAt 0 l (bitAt (vgmvRes l) 24) (vgmvRes l % 2 ^ 24) 8).isSome) &&
        (((b.wg 0).crewsOf (execLanes (gang 3) (run 3))).all (fun c => decide (((b.wg 0).crew c).count .dm < 63)) && b.sorterQ 0 0 == []))))

theorem sVgFull_found : foundB (opEnv sVgFull 0 (gang 3) (run 3) []) 0 5 (fun _ _ => []) admitsVgmv = true := by decide +kernel

/-- Refutes O45: VGMV counts what is in flight before its record's walk. The walk performs a store that a release has passed, whose counter
falls with it; the state that the walk leaves has room on DM, and the gang waits for room all the same. -/
theorem not_sorterPostsAndWaits : ¬ Obligations.SorterPostsAndWaits := by
  unfold Obligations.SorterPostsAndWaits
  intro h
  obtain ⟨hmv, -⟩ := h sVgFull 0 (gang 3) (run 3) [] 0
  obtain ⟨-, -, hpost⟩ := hmv 0 (.v 2) (.v 3) (.v 4)
  obtain ⟨b, hfound, hb⟩ := foundB_elim sVgFull_found
  unfold admitsVgmv at hb
  simp only [Bool.and_eq_true, beq_iff_eq, List.all_eq_true, decide_eq_true_eq] at hb
  obtain ⟨hrec, hcore, hact, hlanes, hroom, hqueue⟩ := hb
  obtain ⟨⟨ws, k⟩, hget, hcheck⟩ := okB_elim hrec
  simp only [Bool.and_eq_true, beq_iff_eq, decide_eq_true_eq] at hcheck
  obtain ⟨hnz, hle, hresv, hidx, halign⟩ := vgmvPair_fits
  have hidx5 : bits ((opEnv sVgFull 0 (gang 3) (run 3) []).opd ((execLanes (gang 3) (run 3)).headD 0) (.pair (.v 4))
      (popsIn [(.v 2, 1), (.v 3, 1)]) 8).toNat 32 8 = 5 := hidx
  obtain ⟨s', it, xs, hexec, -, -, -, -, hq, hxs, -⟩ := hpost b ws k 0 64 sVgFull_ready sVgFull_inCrew hnz hle hresv
    (by rw [hidx5]; exact hfound) hcore (by rw [hidx5]; exact hget)
    (by rw [hidx5]; exact hcheck.1) hcheck.2 halign hact
    (fun l hl => ⟨(hlanes l hl).1.1, (hlanes l hl).1.2, Option.isSome_iff_ne_none.mp (hlanes l hl).2⟩) hroom
    ((congrArg (fun q : List SorterEntry => q.length + 2) hqueue).trans_le (by decide))
  have hcount := vgmvFull_waits
  rw [show exec vgmvFull sVgFull = .next s' from hexec] at hcount
  have hlen : xs.length = 2 := by
    have hmap := congrArg List.length hxs
    rw [List.length_map, List.length_map] at hmap
    exact hmap.trans (by decide)
  have hall : (s'.sorterQ 0 0).length = 2 := by
    rw [show s'.sorterQ 0 0 = b.sorterQ (sVgFull.wg 0).core 0 ++ xs from hq, List.length_append, hlen,
      show b.sorterQ (sVgFull.wg 0).core 0 = [] from hqueue]
    rfl
  rw [sorterCount, hall] at hcount
  cases hcount

/-! ### Fetches of code segments (spec/16 R397) -/

/-- The model's own witness of ICFETCH, with IC full; the store leaves the descriptor as it stands. -/
def sSegFull : State := (sSeg 0).updWg 0 fun w => w.updCrew 0 fun c => { c with flight := fullFlight .ic ((sSeg 0).mem.get 0) }

theorem sSegFull_ready : Ready sSegFull 0 (gang 1) (run 1) (.icfetch (.imm 3)) [] := ready_gated rfl rfl rfl (by decide) (by decide) rfl rfl rfl

/-- The slot that segment 3 of workgroup 0 is mapped to, and 1. -/
def segmentThree (o : Host.Outcome State Fault Refusal) : Option Nat := match o with
  | .next s => some ((s.wg 0).segs.get 3)
  | _ => none

/-- The gang waits for a counter, and maps nothing. -/
theorem icfetchFull_waits : segmentThree (exec (.icfetch (.imm 3)) sSegFull) = some 0 := by decide +kernel

/-- The state that the walk of the segment's address leaves admits the fetch: it has performed the store, and the counter of IC has
fallen. -/
def admitsFetch (b : State) : Bool :=
  (b.wg 0).gang? 0 == some (gang 1) && (((b.unmapSeg 0 3).core (b.wg 0).core).freeSlot == some 1 &&
    ((((b.unmapSeg 0 3).core (b.wg 0).core).slotOf 0 (0x8000 + 4096 * 3) .landed).isNone &&
    ((((b.unmapSeg 0 3).core (b.wg 0).core).slotOf 0 (0x8000 + 4096 * 3) .fetching).isNone &&
    (((b.wg 0).crewsOf (execLanes (gang 1) (run 1))).all (fun c => decide (((b.wg 0).crew c).count .ic < 63)) &&
    okB (({ opEnv sSegFull 0 (gang 1) (run 1) [] with s := b } : Env).imageSource b 0 0 (0x8000 + 4096 * 3)) fun _ => true))))

theorem sSegFull_walked : walkedB (opEnv sSegFull 0 (gang 1) (run 1) [])
    ((opEnv sSegFull 0 (gang 1) (run 1) []).walkAt 0 fun _ => [0x8000 + 4096 * 3]) admitsFetch = true := by decide +kernel

/-- Refutes O41: ICFETCH counts what is in flight before the walk of its segment's address. The walk performs a store that a release has
passed, whose counter falls with it; the state that the walk leaves has room on IC, and the gang waits for room all the same. -/
theorem not_macrosSegmentsAndNodes : ¬ Obligations.MacrosSegmentsAndNodes := by
  unfold Obligations.MacrosSegmentsAndNodes
  rintro ⟨-, h, -⟩
  obtain ⟨hfetch, -⟩ := h sSegFull 0 (gang 1) (run 1) [] 0
  obtain ⟨-, hfetch⟩ := hfetch (.imm 3)
  obtain ⟨-, hfetch⟩ := hfetch sSegFull_ready ⟨by decide, by decide⟩
  obtain ⟨b, hwalk, hb⟩ := walkedB_elim sSegFull_walked
  unfold admitsFetch at hb
  simp only [Bool.and_eq_true, beq_iff_eq, List.all_eq_true, decide_eq_true_eq, Option.isNone_iff_eq_none] at hb
  obtain ⟨hgang, hfree, hlanded, hfetching, hroom, hsrc⟩ := hb
  obtain ⟨⟨s1, spans⟩, hsrc, -⟩ := okB_elim hsrc
  obtain ⟨-, hgoes⟩ := hfetch b hwalk (by decide) (by decide) hgang
  obtain ⟨s', hexec, -, -, ⟨hmap, -⟩, -⟩ := hgoes 1 spans s1 (.inr ⟨hlanded, hfetching⟩) hroom nofun hfree hsrc
  have hseg := icfetchFull_waits
  rw [show exec (.icfetch (.imm 3)) sSegFull = .next s' from hexec, segmentThree, show (s'.wg 0).segs.get 3 = 2 from hmap] at hseg
  cases hseg

end Sys2Proof.Machine
end

section
/-! SUPPORT. Tiles that are queried (spec/09 R229): a result and a status in one register, and the refutation that it gives. -/

namespace Sys2Proof.Machine

open Sys2Proof Sys2Proof.Safety Tests

-- One proof at a time: side by side they need more threads than a check's memory holds.
set_option Elab.async false

/-- RESQ of record 6 with its result in main register 256, which is small register 0, and its status in small register 0. -/
def resqInto : Instr := .resq false false (.imm 6) (.v 1) (.v 256) (some (.o 0))

/-- Small register 0 of lane 0. -/
def smallZero (o : Host.Outcome State Fault Refusal) : Option Nat := match o with
  | .next s => some ((((s.wg 0).lane 0).reg 256).toNat)
  | _ => none

/-- The status of the tile stays there. -/
theorem resqInto_status : smallZero (exec resqInto sMem) = some 0 := by decide +kernel

/-- The tile's entry reads 2, and no load in flight writes the register. -/
def entryTwo (s1 : State) (as : List TileAcc) : Bool :=
  as.all fun a => match a.entry with
    | some (va, pa) => s1.mapUse 0 a.dom va pa % 65536 == 2 && (((s1.wg 0).pendingItems 0 256).isEmpty && a.lane == 0)
    | none => false

theorem tileB_entryTwo : tileB sMem false entryTwo = true := by decide +kernel

/-- A tile that has been found, as the statement speaks of it. -/
theorem tileB_elim {wr : Bool} {p : State → List TileAcc → Bool} (h : tileB sMem wr p = true) :
    let e := opEnv sMem 0 (gang 1) (run 1) []
    ∃ b a s1, Walked e (fun x l => x.tableReads 0 { z := 1 } true (e.offReq (.imm 6) (.v 1) l)) b ∧
      b.tileOf 0 wr (e.offReq (.imm 6) (.v 1) 0) = .inr a ∧ ({ e with s := b } : Env).settled .relaxed .device false (tileTouch [a]) = .ok s1 ∧
      (s1.wg 0).gang? 0 = some (gang 1) ∧ (∀ q, a.entry = some q → s1.held ⟨.phys q.2, 8⟩ = false ∧ s1.mcOf ⟨.phys q.2, 8⟩ = none) ∧ p s1 [a] = true := by
  unfold tileB at h
  obtain ⟨b, hb, hp⟩ := walkedB_elim h
  cases ht : b.tileOf 0 wr ((opEnv sMem 0 (gang 1) (run 1) []).offReq (.imm 6) (.v 1) 0) with
  | inl f =>
    rw [ht] at hp
    cases hp
  | inr a =>
    rw [ht] at hp
    obtain ⟨s1, hs1, hp⟩ := okB_elim hp
    simp only [Bool.and_eq_true, beq_iff_eq] at hp
    obtain ⟨⟨⟨hg, -⟩, hentry⟩, hp⟩ := hp
    refine ⟨b, a, s1, hb, ht, hs1, hg, fun q hq => ?_, hp⟩
    rw [hq] at hentry
    simp only [Bool.and_eq_true, beq_iff_eq, Bool.not_eq_true'] at hentry
    exact hentry

/-- Refutes O24: RESQ writes its result and then its status, and two selectors can name one register: small register 0 is main register 256
by its code. The register holds the status, where the statement has the entry. -/
theorem not_tilesPinnedAndQueried : ¬ Obligations.TilesPinnedAndQueried := by
  unfold Obligations.TilesPinnedAndQueried
  intro h
  obtain ⟨-, -, hresq⟩ := h sMem 0 (gang 1) (run 1) [] false (.imm 6) (.v 1)
  obtain ⟨⟨-, hresq⟩, -⟩ := hresq false (.v 256) (some (.o 0))
  obtain ⟨b, a, s1, hwalk, htile, hsettled, hgang, hentry, htwo⟩ := tileB_elim tileB_entryTwo
  have hlanes : execLanes (gang 1) (run 1) = [0] := by decide
  obtain ⟨s', hexec, -, -, hholds⟩ := hresq (readyMem _ rfl) [a] s1 ⟨by decide, b, hwalk, by rw [hlanes]; exact congrArg (· :: []) htile, hsettled, hgang,
    fun x hx q hq => by rw [List.mem_singleton.mp hx] at hq; exact hentry q hq⟩
  rw [entryTwo, List.all_cons, List.all_nil, Bool.and_true] at htwo
  cases hq : a.entry with
  | none =>
    rw [hq] at htwo
    cases htwo
  | some q =>
    obtain ⟨va, pa⟩ := q
    rw [hq] at htwo
    simp only [Bool.and_eq_true, beq_iff_eq, List.isEmpty_iff] at htwo
    obtain ⟨hmap, hpend, -⟩ := htwo
    have hreg := hholds a va pa rfl hq (by decide) 256 rfl 0 (by rw [hlanes]; exact List.mem_cons_self) 0 Nat.one_pos hpend
    have hstatus := resqInto_status
    rw [show exec resqInto sMem = .next s' from hexec, smallZero, hreg,
      show s1.mapUse (sMem.wg 0).core a.dom va pa % 65536 = 2 from hmap] at hstatus
    exact absurd hstatus (by decide)

end Sys2Proof.Machine
end

section
/-! SUPPORT. Stream decode (spec/06 R138): data and cursor in one register, and the refutation that it gives. -/

namespace Sys2Proof.Machine

open Sys2Proof Sys2Proof.Safety Tests

-- One proof at a time: side by side they need more threads than a check's memory holds.
set_option Elab.async false

theorem sUnpk_quiet : NothingFlies sUnpk := by
  unfold NothingFlies
  decide

/-- The cursor in small register 0 of the first participant, and the mask that stands in the stream there. -/
def unpkCursor : Nat := operand sUnpk 0 (gang 3) (run 3) [] [.int .u32 (.o 0)] 0 0
def unpkMask : Nat := streamBits unpkCursor ((taken sUnpk).runBytes 0 0 (cursorRun unpkCursor 32)) 0 32

theorem unpk_clear : RunsClear (opEnv sUnpk 0 (gang 3) (run 3) []) 0 [cursorRun unpkCursor (32 + popCount 32 unpkMask * FType.bf16.bits)] := by
  have ok : okB ((opEnv sUnpk 0 (gang 3) (run 3) []).race false ((opEnv sUnpk 0 (gang 3) (run 3) []).s.spadRaces
      ((opEnv sUnpk 0 (gang 3) (run 3) []).s.runAccs 0 0 [cursorRun unpkCursor (32 + popCount 32 unpkMask * FType.bf16.bits)]) 1)) (fun _ => true) = true := by
    decide +kernel
  obtain ⟨s1, hs1, -⟩ := okB_elim ok
  exact ⟨by decide +kernel, s1, hs1⟩

/-- Refutes O12: data and cursor are written to destinations that differ as selectors, and two selectors can name one register: small
register 0 is main register 256 by its code. The register cannot hold the cursor, which is 32, and the data, which is 0. -/
theorem not_unpackWritesDataAndCursor : ¬ Obligations.UnpackWritesDataAndCursor := by
  unfold Obligations.UnpackWritesDataAndCursor
  intro h
  obtain ⟨-, -, -, -, hclear⟩ := h sUnpk 0 (gang 3) (run 3) [] false (.v 256) (.o 0) (.v 11) (.v 12)
  obtain ⟨-, hunpkz, -⟩ := hclear sUnpk_quiet
  have hlanes : execLanes (gang 3) (run 3) = [0, 1] := by decide
  obtain ⟨s', -, -, -, -, -, -, -, hcursor, hdata⟩ := hunpkz .bf16 0 [1] (ready_of (by decide) (by decide) rfl) hlanes unpk_clear
  have hmem : 0 ∈ execLanes (gang 3) (run 3) := by rw [hlanes]; exact List.mem_cons_self
  have hreg := hcursor 256 rfl 0 hmem 0 Nat.one_pos rfl
  have hreg2 := hdata (by decide) 256 rfl 0 hmem 0 Nat.one_pos rfl
  rw [hreg] at hreg2
  have hcur : operand sUnpk 0 (gang 3) (run 3) [] [.int .u32 (.o 0)] 0 0 = 0 := by decide +kernel
  rw [hcur] at hreg2
  have hm : streamBits 0 ((taken sUnpk).runBytes 0 0 (cursorRun 0 32)) 0 32 = 0 := by decide +kernel
  rw [hm] at hreg2
  exact absurd hreg2 (by decide +kernel)

end Sys2Proof.Machine
end

section
/-! SUPPORT. Scratchpad accesses (spec/08 R172-R176): what race detection and the checks of an access leave, and the statement about
LDS, LDSC, STS and STSC. -/

namespace Sys2Proof.Machine

open Sys2Proof Sys2Proof.Safety

-- One proof at a time: side by side they need more threads than a check's memory holds.
set_option Elab.async false

/-! ### Race detection -/

/-- What race detection leaves: race entries of cores and stacks move, and of workgroup `t` the marks that it keeps. -/
structure RaceNoted (s s1 : State) (t : Nat) : Prop where
  rest : s1 = { s with wgs := s1.wgs, cores := s1.cores, stks := s1.stks }
  others : ∀ u, u ≠ t → s1.wg u = s.wg u
  wg : s1.wg t = { s.wg t with spill := (s1.wg t).spill, unchk := (s1.wg t).unchk }

section
variable {s s1 : State} {t : Nat} {wr : Bool}

theorem RaceNoted.refl (s : State) (t : Nat) : RaceNoted s s t := ⟨rfl, fun _ _ => rfl, rfl⟩

theorem RaceNoted.trans {a b c : State} {t : Nat} (h : RaceNoted a b t) (k : RaceNoted b c t) : RaceNoted a c t where
  rest := by rw [k.rest, h.rest]
  others u hu := (k.others u hu).trans (h.others u hu)
  wg := by rw [k.wg, h.wg]

theorem RaceNoted.setRace (s : State) (t : Nat) (h : RHome) (r : RaceHome) : RaceNoted s (s.setRace h r) t := by
  cases h <;> exact ⟨rfl, fun _ _ => rfl, rfl⟩

theorem RaceNoted.updWg (s : State) (t : Nat) {f : Workgroup → Workgroup}
    (hf : ∀ w, f w = { w with spill := (f w).spill, unchk := (f w).unchk }) : RaceNoted s (s.updWg t f) t := by
  refine ⟨rfl, fun _ hu => State.wg_updWg_ne _ _ hu, ?_⟩
  rw [State.wg_updWg_self]
  exact hf _

theorem RaceNoted.recordOne {a : RaceAcc} {sp : Bool} (h : s.raceRecordOne t wr a = some (s1, sp)) : RaceNoted s s1 t := by
  unfold State.raceRecordOne at h
  dsimp only at h
  split_ifs at h
  · cases h
    exact .refl s t
  all_goals
    cases h
    exact .setRace ..

theorem RaceNoted.uncheck (s : State) (t : Nat) (a : RaceAcc) : RaceNoted s (s.uncheck t a) t :=
  (RaceNoted.setRace s t a.home _).trans (.updWg _ t fun _ => rfl)

theorem RaceNoted.raceKeep (t : Nat) (wr : Bool) (as : List RaceAcc) (s : State) (pass : Bool) :
    RaceNoted s (s.raceKeep t wr pass as).1 t := by
  induction as generalizing s pass with
  | nil => exact .refl s t
  | cons a as ih =>
    rw [State.raceKeep]
    split
    · next s1 sp h =>
      have h1 := RaceNoted.recordOne h
      cases sp
      · exact h1.trans (ih s1 pass)
      · exact (h1.trans (.updWg s1 t fun _ => rfl)).trans (ih _ pass)
    · cases pass
      · exact .refl s t
      · exact (RaceNoted.uncheck s t a).trans (ih _ false)

/-- An access that race detection admits raises no trap, and its entries are noted. -/
theorem Env.race_ok {e : Env} {as : List RaceAcc} (h : e.race wr as = .ok s1) :
    e.s.raceTrap e.t e.fpc wr as = none ∧ RaceNoted e.s s1 e.t := by
  have hn := RaceNoted.raceKeep e.t wr as e.s e.run.pend.stallOf.2
  unfold Env.race at h
  split at h
  · cases h
  · next ht =>
    split at h
    · cases h
    · next s2 hk =>
      cases h
      rw [hk] at hn
      exact ⟨ht, hn⟩

/-- Race detection as a part of a body. -/
theorem RaceNoted.moved (h : RaceNoted (taken s) s1 t) (ds : List (Sel × Nat)) : BodyMoved s s1 t ds where
  rest := by rw [h.rest]
  others := h.others
  gangs := by
    rw [h.wg]
    rfl
  win := by
    rw [h.wg]
    rfl
  regs := (SameRegs.of_eq (w := s.wg t) (w' := s1.wg t) (by rw [h.wg]; rfl) (by rw [h.wg]; rfl)).stand ds

end

/-! ### The checks of an access -/

/-- Without damage no window is a machine check's. -/
theorem State.mcOf_win {s : State} (hd : s.damage = []) (u o n : Nat) : s.mcOf ⟨.win u o, n⟩ = none := by
  change s.damage.findSome? _ = none
  rw [hd]
  rfl

theorem Env.padCheck_intact {e : Env} (hd : e.s.damage = []) (xs : List SpadLoc) (n : Nat) : e.padCheck xs n = none := by
  have hhits : (xs.map fun x : SpadLoc => (x.lane, [(⟨.win x.owner x.off, n⟩ : Span)])).filterMap
      (fun p => (p.2.findSome? e.s.mcOf).map fun m => (p.1, m)) = [] := by
    rw [List.filterMap_map, List.filterMap_eq_nil_iff]
    intro x _
    simp [State.mcOf_win hd]
  unfold Env.padCheck State.mcTrap
  rw [hhits]
  rfl

/-- Aligned addresses within their spaces pass the checks of R173. -/
theorem State.spadResolve_fits {s : State} {t fpc n : Nat} {cluster : Bool} {ls : List Nat} {ea : Nat → Nat}
    (h : ∀ l ∈ ls, ea l % n = 0 ∧ s.spadAt t l cluster (ea l) n ≠ none) :
    s.spadResolve t fpc cluster n (ls.map fun l => (l, ea l)) =
      .ok (ls.filterMap fun l => (s.spadAt t l cluster (ea l) n).map fun q => (⟨l, q.1, q.2⟩ : SpadLoc)) := by
  have halign : (ls.map fun l => (l, ea l)).filter (fun p => p.2 % n != 0) = [] := by
    rw [List.filter_map, List.map_eq_nil_iff, List.filter_eq_nil_iff]
    intro l hl
    simp [(h l hl).1]
  have hrange : (ls.map fun l => (l, ea l)).filter (fun p => (s.spadAt t p.1 cluster p.2 n).isNone) = [] := by
    rw [List.filter_map, List.map_eq_nil_iff, List.filter_eq_nil_iff]
    intro l hl
    simp [(h l hl).2]
  unfold State.spadResolve
  rw [halign, hrange]
  exact congrArg Except.ok (List.filterMap_map ..)

/-- Lanes of crews are of some crew. -/
theorem Workgroup.crewsOf_ne_nil {w : Workgroup} {ls : List Nat} (hne : ls ≠ []) (h : ∀ l ∈ ls, (w.lane l).crew ≠ none) :
    w.crewsOf ls ≠ [] := by
  obtain ⟨l, hl⟩ := List.exists_mem_of_ne_nil ls hne
  obtain ⟨c, hc⟩ := Option.ne_none_iff_exists'.1 (h l hl)
  exact List.ne_nil_of_mem (Workgroup.mem_crewsOf.2 ⟨l, hl, hc⟩)

/-! ### LDS, LDSC, STS and STSC -/

section
variable {s s1 : State} {t : Nat} {g : Gang} {r : ClauseRun} {i : Instr} {es : List ApprEntry} {cluster wr : Bool} {o : SpadAcc}
  {op : List SpadLoc → FlightOp}

/-- What a scratchpad access leaves in flight. -/
def spadArgs (cluster : Bool) (o : SpadAcc) (op : FlightOp) : LaunchArgs where
  path := some (spadPath cluster)
  ord := o.ord
  scope := o.scope
  dev := false
  checked := o.ord == .relaxed
  op := op
  stat := none
  used := {}
  again := none

/-- A scratchpad access that its checks admit. -/
theorem spadAccess_flies {e : Env} {xs : List SpadLoc} (hls : e.ls ≠ []) (hc : e.crewless = []) (hd : e.s.damage = [])
    (hx : e.s.spadResolve e.t e.fpc cluster (wbytes o.w) (e.eas o.addr o.off) = .ok xs) (hroom : e.full (spadPath cluster) = none)
    (hrace : e.race wr (if o.ord = .relaxed then e.s.spadRaces xs (wbytes o.w) else []) = .ok s1) :
    spadAccess cluster o wr op e =
      .ok ((s1.updWg e.t fun w => w.launched e.ls (spadArgs cluster o (op xs))).ordered e o.ord) [] := by
  obtain ⟨l, ls, hcons⟩ := List.exists_cons_of_ne_nil hls
  have hpad : (if wr = true then none else e.padCheck xs (wbytes o.w)) = none := by
    rw [Env.padCheck_intact hd, ite_self]
  have hlaunch := State.launch_eq s1 e.t e.ls (spadArgs cluster o (op xs))
  unfold spadAccess
  rw [hcons, hc]
  dsimp only
  rw [hx]
  dsimp only
  rw [hpad]
  dsimp only
  rw [(Env.race_ok hrace).1, hroom]
  dsimp only
  rw [hrace, ← hcons]
  exact congrArg (fun b : State => Res.ok (b.ordered e o.ord) []) hlaunch

/-- An order other than relaxed ends the intervals of the lanes of E, and changes nothing else that a body may. -/
theorem BodyMoved.ordered {ds : List (Sel × Nat)} (h : BodyMoved s s1 t ds) (ord : Order) :
    BodyMoved s (s1.ordered (opEnv s t g r es) ord) t ds := by
  unfold State.ordered
  split
  · exact h
  · exact (h.step (.endInterval _ (execLanes g r) ds)).step (.closeRegion _ (execLanes g r) ds)

theorem State.wg_ordered (b : State) (ord : Order) : (b.ordered (opEnv s t g r es) ord).wg t =
    if ord = .relaxed then b.wg t else ((b.wg t).endInterval (execLanes g r)).closeRegion (execLanes g r) := by
  unfold State.ordered
  split
  · rfl
  · exact (State.wg_updWg_self ..).trans (congrArg (fun w : Workgroup => w.closeRegion (execLanes g r)) (State.wg_updWg_self ..))

theorem Workgroup.flight_ordered (w : Workgroup) (ls : List Nat) (ord : Order) (k : Nat) :
    ((if ord = .relaxed then w else (w.endInterval ls).closeRegion ls).crew k).flight = (w.crew k).flight := by
  split
  · rfl
  · rw [Workgroup.crew_closeRegion, Workgroup.crew_endInterval]

end

/-- Settles O15: an access that its checks admit goes into flight as one item of its lanes. -/
theorem scratchpadAccessesGoIntoFlight : Obligations.ScratchpadAccessesGoIntoFlight := by
  unfold Obligations.ScratchpadAccessesGoIntoFlight
  intro s t g r es o
  set ls := execLanes g r with hlsdef
  intro e ls' ea n flies data
  have key : ∀ (i : Instr) (cluster wr : Bool) (op : List SpadLoc → FlightOp) (body : Env → Res), exec i s = laneIssue i body s →
      body e = spadAccess cluster o wr op e → flies i cluster wr (spadPath cluster) op := by
    intro i cluster wr op body hexec hbody h
    rw [hexec]
    set xs := ls.filterMap fun l => (s.spadAt t l cluster (ea l) n).map fun q => (⟨l, q.1, q.2⟩ : SpadLoc)
    refine ⟨fun hnil => ?_, fun hne hcrewed hfits hroom hrace => ?_⟩
    · have hb : body e = .ok (taken s) [] := by
        rw [hbody]
        unfold spadAccess
        rw [show e.ls = [] from hnil]
        rfl
      obtain ⟨s', hs, hact, hcl⟩ := laneIssue_moved h hb (.start s t [])
      exact ⟨s', hs, hact, fun c => by rw [hcl.crew]; rfl⟩
    · obtain ⟨s1, hrace⟩ := hrace
      have hb := hbody.trans <| spadAccess_flies (op := op) (e := e) (xs := xs) hne (Env.crewless_of_crewed hcrewed es) h.intact
        (State.spadResolve_fits (s := taken s) hfits) (Env.full_none hroom) hrace
      have hnoted : RaceNoted (taken s) s1 t := (Env.race_ok hrace).2
      have hm := ((hnoted.moved []).step (f := fun w => w.launched ls (spadArgs cluster o (op xs))) (.launched [])).ordered
        (g := g) (r := r) (es := es) o.ord
      obtain ⟨s', hs, hact, hcl⟩ := laneIssue_moved h hb hm
      have hwg := State.wg_ordered (s := s) (t := t) (g := g) (r := r) (es := es)
        (s1.updWg t fun w => w.launched ls (spadArgs cluster o (op xs))) o.ord
      rw [State.wg_updWg_self] at hwg
      change Closed (((s1.updWg t fun w => w.launched ls (spadArgs cluster o (op xs))).ordered (opEnv s t g r es) o.ord).wg t) (s'.wg t) at hcl
      rw [hwg] at hcl
      have hcrews : (s1.wg t).crewsOf ls = (s.wg t).crewsOf ls := by
        rw [hnoted.wg]
        rfl
      obtain ⟨c, cs, hcons⟩ := List.exists_cons_of_ne_nil (Workgroup.crewsOf_ne_nil (w := s1.wg t) hne fun l hl => by
        rw [hnoted.wg]
        exact hcrewed l hl)
      have hhead : ((s1.wg t).crewsOf ls).head? = some c := by
        rw [hcons]
        rfl
      have hfly : ∀ k, ((s'.wg t).crew k).flight = (((s1.wg t).launched ls (spadArgs cluster o (op xs))).crew k).flight := fun k => by
        rw [hcl.crew]
        exact Workgroup.flight_ordered ..
      have hflew := flew_of_launched (s := s1) (p := spadPath cluster) rfl hhead hfly
      obtain ⟨hord, hscope, hop, -, -⟩ := Workgroup.launchItem_first (a := spadArgs cluster o (op xs)) hhead
      have hkeep : ∀ k, (s1.wg t).crew k = (s.wg t).crew k := fun k => by
        rw [hnoted.wg]
        rfl
      have hint : ∀ l, (((s1.wg t).launched ls (spadArgs cluster o (op xs))).lane l).interval = ((s.wg t).lane l).interval := fun l => by
        rw [Workgroup.launched_rest, hnoted.wg]
        rfl
      refine ⟨s', _, hs, hact, hflew.item.1.trans ?_, hop, hflew.item.2.1, hord, hscope, hflew.item.2.2, fun k hk => ?_, fun k hk => ?_,
        fun hne => ?_, fun heq l => ?_⟩
      · rw [hnoted.wg]
        rfl
      · have hk1 := hcrews ▸ hk
        obtain rfl : c = k := Option.some.inj (hhead.symm.trans hk1)
        rw [hfly, Workgroup.crew_launched, if_pos (List.mem_of_mem_head? hhead), hkeep]
      · rw [hflew.counted k (hcrews ▸ hk), hkeep]
      · rw [if_neg hne] at hcl
        exact hcl.intervals (lanesOf_nodup ..) hint
      · rw [hcl.lane, if_pos heq]
        exact hint l
  exact ⟨key (.lds o) false false (spadLoad o) (spadLoadBody false o) rfl rfl,
    key (.ldsc o) true false (spadLoad o) (spadLoadBody true o) rfl rfl,
    key (.sts o) false true (spadStore o data) (spadStoreBody false o) rfl rfl,
    key (.stsc o) true true (spadStore o data) (spadStoreBody true o) rfl rfl⟩

end Sys2Proof.Machine
end

section
/-! SUPPORT. LDLK (spec/08 R184, R185): the end of an instruction that synchronises its lanes, locks that an attempt takes, and the
statement about the instruction. -/

namespace Sys2Proof.Machine

open Sys2Proof Sys2Proof.Safety

-- One proof at a time: side by side they need more threads than a check's memory holds.
set_option Elab.async false

/-! ### Instructions that end their lanes' intervals -/

/-- From `w` on, the intervals of lanes `ls` have ended and regions may have closed; lanes and the window are otherwise as they were. -/
structure Ended (w w' : Workgroup) (ls : List Nat) : Prop where
  lane : ∀ l, w'.lane l = { w.lane l with interval := (w'.lane l).interval, opened := (w'.lane l).opened }
  interval : ∀ l ∈ ls, (w'.lane l).interval = (w.lane l).interval + 1
  win : w'.win = w.win
  uniform : ∀ c, (w'.crew c).s = (w.crew c).s

theorem Ended.of_closed {w x w' : Workgroup} {ls : List Nat} (hx : x = { w with l1 := x.l1 }) (hn : ls.Nodup)
    (h : Closed ((x.endInterval ls).closeRegion ls) w') : Ended w w' ls := by
  have hlane : ∀ l, x.lane l = w.lane l := fun l => by
    rw [hx]
    rfl
  refine ⟨fun l => ?_, h.intervals hn fun l => congrArg Lane.interval (hlane l), ?_, fun c => ?_⟩
  · rw [h.lane, ← hlane]
    have hclose : ((x.endInterval ls).closeRegion ls).lane l =
        { (x.endInterval ls).lane l with opened := (((x.endInterval ls).closeRegion ls).lane l).opened } := by
      rw [Workgroup.lane_closeRegion]
      split <;> rfl
    rw [hclose, Workgroup.lane_endInterval_rest]
  · rw [h.rest, Workgroup.closeRegion_rest, Workgroup.endInterval_rest, hx]
  · rw [h.crew]
    change (((x.endInterval ls).closeRegion ls).crew c).s = _
    rw [Workgroup.crew_closeRegion, Workgroup.crew_endInterval, hx]
    rfl

theorem Ended.reg {w w' : Workgroup} {ls : List Nat} (h : Ended w w' ls) (l n : Nat) : (w'.lane l).reg n = (w.lane l).reg n := by
  rw [h.lane]
  rfl

section
variable {s : State} {t : Nat} {g : Gang} {r : ClauseRun} {i : Instr} {es : List ApprEntry}

theorem State.acquired_frame (s : State) (t : Nat) (ord : Order) (scope : Scope) :
    (s.acquired t ord scope).mem = s.mem ∧ ∀ u, u ≠ t → (s.acquired t ord scope).wg u = s.wg u := by
  rcases s.acquired_updWg t ord scope with h | h
  · rw [h]
    exact ⟨rfl, fun _ _ => rfl⟩
  · rw [h]
    exact ⟨rfl, fun _ hu => State.wg_updWg_ne _ _ hu⟩

/-- An instruction whose body ends with an acquire, or none, and the end of its intervals. -/
theorem laneIssue_ended (h : Ready s t g r i es) {body : Env → Res} {s2 : State} {ord : Order} {scope : Scope}
    (hb : body (opEnv s t g r es) = .ok (((s2.acquired t ord scope).endE (opEnv s t g r es)).closeE (opEnv s t g r es)) [])
    (hg : (s2.wg t).gang? g.id = some g) :
    ∃ s', laneIssue i body s = .next s' ∧ WentOn s' t g r i.len ∧ Ended (s2.wg t) (s'.wg t) (execLanes g r) ∧ s'.mem = s2.mem ∧
      ∀ u, u ≠ t → s'.wg u = s2.wg u := by
  have hx : (s2.acquired t ord scope).wg t = { s2.wg t with l1 := ((s2.acquired t ord scope).wg t).l1 } := State.wg_acquired ..
  obtain ⟨hmem, hothers⟩ := s2.acquired_frame t ord scope
  generalize s2.acquired t ord scope = b at hb hx hmem hothers
  have hwg : ((b.endE (opEnv s t g r es)).closeE (opEnv s t g r es)).wg t =
      ((b.wg t).endInterval (execLanes g r)).closeRegion (execLanes g r) :=
    (State.wg_updWg_self ..).trans (congrArg (fun w : Workgroup => w.closeRegion (execLanes g r)) (State.wg_updWg_self ..))
  have hg2 : (((b.endE (opEnv s t g r es)).closeE (opEnv s t g r es)).wg t).gang? g.id = some g := by
    rw [hwg, Workgroup.closeRegion_rest, Workgroup.endInterval_rest, hx]
    exact hg
  obtain ⟨s', hs, hwent, hcl, hrest, hother⟩ := laneIssue_closed h hb hg2
  rw [hwg] at hcl
  refine ⟨s', hs, hwent, .of_closed hx (lanesOf_nodup ..) hcl, ?_, fun u hu => ?_⟩
  · rw [hrest]
    exact hmem
  · rw [hother u hu, ← hothers u hu]
    exact (State.wg_updWg_ne _ _ hu).trans (State.wg_updWg_ne _ _ hu)

end

/-! ### Lists whose elements name different lanes -/

/-- What elements with different keys carry is a function of the key. -/
theorem exists_ofKey {α β : Type} {k : α → Nat} (f : α → β) {P : β → Prop} (hP : ∀ x, P (f x)) {b : β} (hb : P b) {l : List α}
    (hn : (l.map k).Nodup) : ∃ v : Nat → β, (∀ x ∈ l, v (k x) = f x) ∧ ∀ n, P (v n) := by
  refine ⟨fun n => ((l.find? fun x => k x == n).map f).getD b, fun x hx => ?_, fun n => ?_⟩
  · obtain ⟨y, hy⟩ : ∃ y, l.find? (fun y => k y == k x) = some y := by
      rw [← Option.isSome_iff_exists, List.find?_isSome]
      exact ⟨x, hx, by simp⟩
    have hkey : k y = k x := by simpa using List.find?_some hy
    have hyx : y = x := List.inj_on_of_nodup_map hn (List.mem_of_find?_eq_some hy) hx hkey
    exact (congrArg (fun o : Option α => (o.map f).getD b) hy).trans (congrArg f hyx)
  · dsimp only
    cases l.find? fun x => k x == n with
    | none => exact hb
    | some x => exact hP x

/-! ### Locks taken -/

/-- The lock that a winner takes. -/
def State.lockOn (s : State) (run : ClauseRun) (x : SpadLoc) : Lock where
  owner := x.owner
  off := x.off / 64 * 64
  core := (s.lockOf x).1
  bit := (s.lockOf x).2
  phys := s.spadPhys x.owner x.off / 64 * 64
  issues := 0
  atRun := run

/-- A workgroup whose winners hold their locks. -/
def Workgroup.takeLocks (w : Workgroup) (s : State) (run : ClauseRun) (win : List SpadLoc) : Workgroup :=
  overList win w fun w x => w.takeLock s run x

section
variable {w : Workgroup} {s : State} {run : ClauseRun} {win : List SpadLoc}

theorem Workgroup.takeLocks_rest : w.takeLocks s run win = { w with lanes := (w.takeLocks s run win).lanes } :=
  Workgroup.overUpd_rest win SpadLoc.lane (fun x l => { l with lock := some (s.lockOn run x) }) w

theorem Workgroup.lane_takeLocks (hn : (win.map SpadLoc.lane).Nodup) (l : Nat) :
    (w.takeLocks s run win).lane l = { w.lane l with lock := ((w.takeLocks s run win).lane l).lock } ∧
      ∀ x ∈ win, x.lane = l → ((w.takeLocks s run win).lane l).lock = some (s.lockOn run x) := by
  obtain ⟨v, hv, -⟩ := exists_ofKey (k := SpadLoc.lane) (s.lockOn run) (P := fun _ => True) (fun _ => trivial) (b := default) trivial hn
  have heq : w.takeLocks s run win =
      overList ((win.map SpadLoc.lane).map fun l => (l, v l)) w fun w p => w.updLane p.1 fun l => { l with lock := some p.2 } := by
    have hmap : (win.map SpadLoc.lane).map (fun l => (l, v l)) = win.map fun x => (x.lane, s.lockOn run x) := by
      rw [List.map_map]
      exact List.map_congr_left fun x hx => by simp [hv x hx]
    rw [hmap, overList_map]
    rfl
  have hlane := Workgroup.lane_overUpd (win.map SpadLoc.lane) hn v (fun (k : Lock) (x : Lane) => { x with lock := some k }) w l
  rw [heq, hlane]
  refine ⟨by split <;> rfl, ?_⟩
  rintro x hx rfl
  rw [if_pos (List.mem_map_of_mem hx), hv x hx]

end

/-! ### LDLK -/

/-- An attempt's winners note their bits on cores alone. -/
theorem State.winBits_rest (s : State) (bs : List (Nat × Nat)) : s.winBits bs = { s with cores := (s.winBits bs).cores } := by
  unfold State.winBits
  induction bs generalizing s with
  | nil => rfl
  | cons b bs ih => exact ih (s.updCore b.1 fun k => { k with lockWon := k.lockWon ++ [b.2] })

theorem lockWinners_sublist (f : SpadLoc → Nat × Nat) (xs : List SpadLoc) (bs : List (Nat × Nat)) : (lockWinners f xs bs).Sublist xs := by
  induction xs generalizing bs with
  | nil => exact .slnil
  | cons x xs ih =>
    unfold lockWinners
    split
    · exact (ih bs).cons x
    · exact (ih _).cons_cons x

/-- Addresses that pass the checks of R173, each with the window byte it names. -/
theorem State.spadResolve_ok {s : State} {t fpc n : Nat} {cluster : Bool} {reqs : List (Nat × Nat)} {xs : List SpadLoc}
    (h : s.spadResolve t fpc cluster n reqs = .ok xs) : (∀ p ∈ reqs, s.spadAt t p.1 cluster p.2 n ≠ none) ∧
      xs = reqs.filterMap fun p => (s.spadAt t p.1 cluster p.2 n).map fun q => ⟨p.1, q.1, q.2⟩ := by
  unfold State.spadResolve at h
  split at h
  · cases h
  · split at h
    · cases h
    · next hrange =>
      cases h
      exact ⟨fun p hp hnone => List.filter_eq_nil_iff.1 hrange p hp (Option.isNone_iff_eq_none.2 hnone), rfl⟩

/-- They belong to the lanes that they were asked for. -/
theorem State.lanes_spadResolve {s : State} {t fpc n : Nat} {cluster : Bool} {reqs : List (Nat × Nat)} {xs : List SpadLoc}
    (h : s.spadResolve t fpc cluster n reqs = .ok xs) : xs.map SpadLoc.lane = reqs.map (·.1) := by
  obtain ⟨hsome, rfl⟩ := State.spadResolve_ok h
  clear h
  induction reqs with
  | nil => rfl
  | cons p ps ih =>
    obtain ⟨q, hq⟩ := Option.ne_none_iff_exists'.1 (hsome p (by simp))
    simp [hq, ih fun p hp => hsome p (List.mem_cons_of_mem _ hp)]

theorem Env.lanes_eas (e : Env) (a : Sel) (off : Src) : (e.eas a off).map (·.1) = e.ls := by
  rw [Env.eas, List.map_map]
  exact List.map_id _

section
variable {s : State} {t : Nat} {g : Gang} {r : ClauseRun} {es : List ApprEntry} {w : Width} {sp : Space} {pt : Nat} {d a : Sel} {off : Src}

/-- What an attempt leaves in its workgroup before the intervals end: the locks of the winners, what they read, and the predicate. -/
def Workgroup.attempted (v : Workgroup) (s1 : State) (run : ClauseRun) (ls : List Nat) (pt : Nat) (d : Sel) (win : List SpadLoc)
    (vals : List (Nat × List Word)) : Workgroup :=
  overList ls ((v.takeLocks s1 run win).writeSel s1.free d vals) fun v l => v.updLane l fun x => x.setPred pt (win.any fun y => y.lane == l)

/-- LDLK whose winners find their bits free. -/
theorem ldlkBody_wins {e : Env} {xs : List SpadLoc} {s1 : State} (hls : e.ls ≠ []) (hc : e.crewless = []) (hd : e.s.damage = [])
    (hx : e.s.spadResolve e.t e.fpc (Space.isCluster sp) (wbytes w) (e.eas a off) = .ok xs)
    (hs : e.settled .acquire (spaceScope sp) false (spadTouch w xs) = .ok s1)
    (hfree : ∀ x ∈ lockWinners s1.lockOf xs [], s1.lockHeld (s1.lockOf x) = false) :
    ldlkBody w sp pt d a off e =
      let win := lockWinners s1.lockOf xs []
      let vals := win.map fun x => (x.lane, regWords (wspan w) (s1.rdSpan ⟨.win x.owner x.off, wbytes w⟩))
      .ok (((((s1.winBits (win.map s1.lockOf)).updWg e.t fun v => v.attempted s1 { e.run with pend := .none } e.ls pt d win vals).acquired
        e.t .acquire (spaceScope sp)).endE e).closeE e) [] := by
  obtain ⟨l, ls, hcons⟩ := List.exists_cons_of_ne_nil hls
  have hany : (lockWinners s1.lockOf xs []).any (fun x => s1.lockHeld (s1.lockOf x)) = false := by
    rw [List.any_eq_false]
    exact fun x hx => by simp [hfree x hx]
  unfold ldlkBody
  rw [hcons, hc]
  dsimp only
  rw [hx]
  dsimp only
  rw [Env.padCheck_intact hd, hs]
  dsimp only
  rw [hany, ← hcons]
  rfl

/-- What an attempt leaves of a workgroup `v`: the winners hold their locks and what they read, the predicate tells who has won, and the
rest stands. -/
structure Attempted (v v' : Workgroup) (s1 : State) (run : ClauseRun) (ls : List Nat) (pt : Nat) (d : Sel) (k : Nat) (win : List SpadLoc)
    (f : SpadLoc → List Word) : Prop where
  gangs : v'.gangs = v.gangs
  window : v'.win = v.win
  interval : ∀ l, (v'.lane l).interval = (v.lane l).interval
  locks : ∀ x ∈ win, (v'.lane x.lane).lock = some (s1.lockOn run x)
  preds : pt ≠ 0 → pt < 8 → ∀ l ∈ ls, (v'.lane l).pred pt = win.any fun x => x.lane == l
  reads : ∀ x ∈ win, ∀ c, regCode d = some c → ∀ j, j < k → Settled v x.lane (c + j) → (v'.lane x.lane).reg (c + j) = (f x).getD j 0
  others : ∀ l n, n ∉ codesOf (d, k) → (v'.lane l).reg n = (v.lane l).reg n

theorem Workgroup.attempted_does (v : Workgroup) (s1 : State) (run : ClauseRun) {ls : List Nat} (hls : ls.Nodup) (pt : Nat) (d : Sel)
    {win : List SpadLoc} (hn : (win.map SpadLoc.lane).Nodup) {k : Nat} {f : SpadLoc → List Word} (hf : ∀ x, (f x).length = k) :
    Attempted v (v.attempted s1 run ls pt d win (win.map fun x => (x.lane, f x))) s1 run ls pt d k win f := by
  obtain ⟨u, hu, hlen⟩ := exists_ofKey (k := SpadLoc.lane) f (P := fun ws => ws.length = k) hf (b := List.replicate k 0)
    List.length_replicate hn
  have hvals : (win.map fun x => (x.lane, f x)) = (win.map SpadLoc.lane).map fun l => (l, u l) := by
    rw [List.map_map]
    exact List.map_congr_left fun x hx => by simp [hu x hx]
  have hlocks := fun l => Workgroup.lane_takeLocks (w := v) (s := s1) (run := run) hn l
  have hrest := Workgroup.takeLocks_rest (w := v) (s := s1) (run := run) (win := win)
  unfold Workgroup.attempted
  rw [hvals]
  generalize v.takeLocks s1 run win = v1 at hlocks hrest
  have htouch := Touch.writeSel (ls := win.map SpadLoc.lane) (k := k) v1 s1.free d ((win.map SpadLoc.lane).map fun l => (l, u l))
    fun p hp => by
      obtain ⟨l, hl, rfl⟩ := List.mem_map.1 hp
      exact ⟨hl, hlen l⟩
  have hholds := Workgroup.writeSel_holdsWords v1 s1.free d k hn u hlen
  generalize v1.writeSel s1.free d ((win.map SpadLoc.lane).map fun l => (l, u l)) = v2 at htouch hholds
  have hset := Workgroup.lane_overUpd ls hls (fun l => win.any fun y => y.lane == l) (fun b x => x.setPred pt b) v2
  rw [overList_map] at hset
  have hsetRest := Workgroup.overUpd_rest ls (fun l => l) (fun l x => x.setPred pt (win.any fun y => y.lane == l)) v2
  generalize (overList ls v2 fun v l => v.updLane l fun x => x.setPred pt (win.any fun y => y.lane == l)) = v3 at hset hsetRest ⊢
  have hlane : ∀ l, v3.lane l = { v2.lane l with p := (v3.lane l).p } := fun l => by
    rw [hset]
    split
    · unfold Lane.setPred
      split <;> rfl
    · rfl
  have hreg : ∀ l n, (v3.lane l).reg n = (v2.lane l).reg n := fun l n => by
    rw [hlane]
    rfl
  refine ⟨?_, ?_, fun l => ?_, fun x hx => ?_, fun h0 h8 l hl => ?_, fun x hx c hc j hj hs => ?_, fun l n hnot => ?_⟩
  · rw [hsetRest, htouch.rest, hrest]
  · rw [hsetRest, htouch.rest, hrest]
  · rw [hlane, htouch.lane, (hlocks l).1]
  · rw [hlane, htouch.lane]
    exact (hlocks x.lane).2 x hx rfl
  · rw [hset, if_pos hl]
    exact Lane.pred_setPred_self _ h0 h8 _
  · have hd : ∀ n, d ≠ .s n := by
      rintro n rfl
      cases hc
    rw [hreg, hholds.2 hd c hc x.lane (List.mem_map_of_mem hx) j hj ?_, hu x hx]
    rw [hrest]
    exact hs
  · rw [hreg, htouch.regs l n hnot, (hlocks l).1]
    rfl

/-- Settles O17: the winners of an attempt whose bits are free take their locks and read. -/
theorem lockAcquire : Obligations.LockAcquire := by
  unfold Obligations.LockAcquire
  intro s t g r es w sp pt d a off
  set ls := execLanes g r with hlsdef
  intro e ls' i h
  change (ls = [] → ∃ s', laneIssue i (ldlkBody w sp pt d a off) s = .next s' ∧ _) ∧ _
  refine ⟨fun hnil => ?_, fun xs s1 hne hcrewed hxs hs1 hg hfree => ?_⟩
  · have hb : ldlkBody w sp pt d a off (opEnv s t g r es) = .ok (taken s) [] := by
      unfold ldlkBody
      rw [show (opEnv s t g r es).ls = [] from hnil]
      rfl
    obtain ⟨s', hs, hact, -⟩ := laneIssue_moved h hb (.start s t [])
    exact ⟨s', hs, hact⟩
  · set win := lockWinners s1.lockOf xs [] with hwin
    have hb := ldlkBody_wins (pt := pt) (d := d) hne (Env.crewless_of_crewed hcrewed es) h.intact hxs hs1 hfree
    have hn : (win.map SpadLoc.lane).Nodup := by
      have hlanes : xs.map SpadLoc.lane = ls := (State.lanes_spadResolve hxs).trans (Env.lanes_eas ..)
      exact ((lockWinners_sublist s1.lockOf xs []).map _).nodup (hlanes ▸ lanesOf_nodup ..)
    let F : Workgroup → Workgroup := fun v => v.attempted s1 { r with pend := .none } ls pt d win
      (win.map fun x => (x.lane, regWords (wspan w) (s1.rdSpan ⟨.win x.owner x.off, wbytes w⟩)))
    have hatt : Attempted (s1.wg t) (F (s1.wg t)) s1 { r with pend := .none } ls pt d (wspan w) win
        (fun x => regWords (wspan w) (s1.rdSpan ⟨.win x.owner x.off, wbytes w⟩)) :=
      Workgroup.attempted_does (s1.wg t) s1 { r with pend := .none } (lanesOf_nodup g.hset r.exec) pt d hn fun x => length_regWords _ _
    have hcores := s1.winBits_rest (win.map s1.lockOf)
    dsimp only at hb
    generalize s1.winBits (win.map s1.lockOf) = b at hb hcores
    have hwg : ∀ u, b.wg u = s1.wg u := fun u => by
      rw [hcores]
      rfl
    have hself : (b.updWg t F).wg t = F (s1.wg t) := (State.wg_updWg_self ..).trans (congrArg F (hwg t))
    have hg2 : ((b.updWg t F).wg t).gang? g.id = some g := by
      rw [hself]
      unfold Workgroup.gang?
      rw [hatt.gangs]
      exact hg
    obtain ⟨s', hs, hwent, hend, hmem, hothers⟩ := laneIssue_ended (s2 := b.updWg t F) h hb hg2
    rw [hself] at hend
    have hother : ∀ u, u ≠ t → s'.wg u = s1.wg u := fun u hu =>
      (hothers u hu).trans ((State.wg_updWg_ne _ _ hu).trans (hwg u))
    refine ⟨s', hs, hwent, fun x => ?_, fun u x => ?_, hother, fun x hx => ?_, fun h0 h8 l hl => ?_, fun x hx c hc j hj hset => ?_,
      fun l n hnot => ?_, fun l hl => ?_⟩
    · rw [hmem]
      change b.mem.get x = _
      rw [hcores]
    · by_cases hu : u = t
      · rw [hu, hend.win, hatt.window]
      · rw [hother u hu]
    · refine ⟨s1.lockOn { r with pend := .none } x, ?_, rfl, rfl, rfl, rfl⟩
      rw [hend.lane]
      exact hatt.locks x hx
    · unfold predOf
      rw [hend.lane]
      exact hatt.preds h0 h8 l hl
    · rw [hend.reg]
      exact hatt.reads x hx c hc j hj hset
    · rw [hend.reg]
      exact hatt.others l n hnot
    · rw [hend.interval l hl, hatt.interval]

end

end Sys2Proof.Machine
end

section
/-! SUPPORT. Stores to windows (spec/08 R172, spec/15 R377): what one leaves, of its owner's window, of memory where the owner's image
lies, and of everything else. -/

namespace Sys2Proof.Machine

open Sys2Proof Sys2Proof.Safety

-- One proof at a time: side by side they need more threads than a check's memory holds.
set_option Elab.async false

/-! ### Pieces of an image -/

/-- Pieces cut out of a run lie within its spans. -/
theorem mem_spanCut {l : List Span} {o n a k : Nat} (h : ⟨.phys a, k⟩ ∈ spanCut l o n) :
    ∃ b m, ⟨.phys b, m⟩ ∈ l ∧ b ≤ a ∧ a + k ≤ b + m := by
  induction l generalizing o n with
  | nil => cases h
  | cons x l ih =>
    have htail : ∀ {o n}, ⟨.phys a, k⟩ ∈ spanCut l o n → ∃ b m, ⟨.phys b, m⟩ ∈ x :: l ∧ b ≤ a ∧ a + k ≤ b + m := fun h => by
      obtain ⟨b, m, hmem, hb⟩ := ih h
      exact ⟨b, m, List.mem_cons_of_mem _ hmem, hb⟩
    unfold spanCut at h
    split at h
    · cases h
    · split at h
      · exact htail h
      · dsimp only at h
        rcases List.mem_cons.1 h with hhead | h
        · obtain ⟨loc, len⟩ := x
          cases loc with
          | win u b => cases hhead
          | phys b =>
            cases hhead
            refine ⟨b, len, by simp, by omega, ?_⟩
            dsimp only at *
            omega
        · exact htail h

/-- Bytes put in pieces change memory within the pieces alone. -/
theorem State.mem_putSpans {l : List Span} {x : Nat} (h : ∀ b k, ⟨.phys b, k⟩ ∈ l → ¬ (b ≤ x ∧ x < b + k)) (s : State) (bs : List Byte) :
    (s.putSpans l bs).mem.get x = s.mem.get x := by
  unfold State.putSpans
  induction l generalizing s bs with
  | nil => rfl
  | cons y l ih =>
    refine (ih (fun b k hb => h b k (List.mem_cons_of_mem _ hb)) _ _).trans ?_
    obtain ⟨loc, len⟩ := y
    cases loc with
    | win u b => rfl
    | phys b =>
      dsimp only
      rw [State.mem_physWrite]
      refine (Memory.get_write ..).trans (if_neg ?_)
      have := h b len (by simp)
      have := List.length_take_le len bs
      omega

theorem Calm.putSpans (l : List Span) (s : State) (bs : List Byte) (t : Nat) : Calm (s.wg t) ((s.putSpans l bs).wg t) := by
  unfold State.putSpans
  induction l generalizing s bs with
  | nil => exact .refl _
  | cons x l ih =>
    refine Calm.trans ?_ (ih _ _)
    split
    · exact .physWrite ..
    · exact .refl _

/-! ### Flights -/

/-- What flies of a workgroup, crew by crew. -/
def Workgroup.flights (w : Workgroup) : List (List FlightItem) := w.crews.map fun c => c.2.flight

theorem Workgroup.pendingItems_flights (w : Workgroup) (l code : Nat) :
    w.pendingItems l code = w.flights.flatMap fun f => f.filter fun i => (i.destOf l).contains code := by
  unfold Workgroup.pendingItems Workgroup.flights
  rw [List.flatMap_map]

theorem SettledIn.of_flights {w w' : Workgroup} (h : w'.flights = w.flights) : SettledIn w w' := fun l n hs => by
  unfold Settled at *
  rwa [Workgroup.pendingItems_flights, h, ← Workgroup.pendingItems_flights]

theorem State.flights_physWrite (s : State) (core : Option Nat) (a : Nat) (bs : List Byte) (t : Nat) :
    ((s.physWrite core a bs).wg t).flights = (s.wg t).flights := by
  unfold State.physWrite
  split
  · rfl
  · have hmap : ∀ m : SMap Workgroup, (m.map fun p => if core == some p.2.core then (p.1, { p.2 with l1 := l1Update p.2.l1 a bs }) else p) =
        m.map fun p => (p.1, if core == some p.2.core then { p.2 with l1 := l1Update p.2.l1 a bs } else p.2) :=
      fun m => List.map_congr_left fun p _ => by split <;> rfl
    have hget := SMap.get_map (fireMonitors (linesOf a bs.length) s.wgs) (fun w : Workgroup =>
      if core == some w.core then { w with l1 := l1Update w.l1 a bs } else w) t (by split <;> rfl)
    change Workgroup.flights (SMap.get (List.map _ _) t) = _
    rw [hmap, hget, get_fireMonitors]
    have hfired : (({ s.wgs.get t with
        crews := (s.wgs.get t).crews.map fun c => (c.1, c.2.firedOn (linesOf a bs.length)) } : Workgroup)).flights = (s.wg t).flights := by
      unfold Workgroup.flights
      dsimp only
      rw [List.map_map]
      refine List.map_congr_left fun c _ => ?_
      dsimp only [Function.comp]
      rw [Crew.firedOn_rest]
    rw [← hfired]
    split <;> rfl

theorem State.flights_putSpans (l : List Span) (s : State) (bs : List Byte) (t : Nat) :
    ((s.putSpans l bs).wg t).flights = (s.wg t).flights := by
  unfold State.putSpans
  induction l generalizing s bs with
  | nil => rfl
  | cons x l ih =>
    refine (ih _ _).trans ?_
    split
    · exact State.flights_physWrite ..
    · rfl

/-! ### Stores to windows -/

/-- Window bytes have been stored: `n` from each of the places `xs` on, and with them the images of their owners; monitors and the
carve-out's copies apart, nothing else of a workgroup changes. -/
structure PadStored (s s' : State) (xs : List SpadLoc) (n : Nat) : Prop where
  steady : Steady s s'
  wg : ∀ u, Calm { s.wg u with win := (s'.wg u).win } (s'.wg u)
  mem : ∀ a, (∀ x ∈ xs, ¬ InImage s x.owner a) → s'.mem.get a = s.mem.get a
  win : ∀ u y, (∀ x ∈ xs, ¬ (u = x.owner ∧ x.off ≤ y ∧ y < x.off + n)) → ((s'.wg u).win).get y = ((s.wg u).win).get y
  flights : ∀ u, (s'.wg u).flights = (s.wg u).flights

section
variable {s s' : State} {xs : List SpadLoc} {n : Nat}

theorem PadStored.nil (s : State) (n : Nat) : PadStored s s [] n := 
  ⟨.refl s, fun _ => .refl _, fun _ _ => rfl, fun _ _ _ => rfl, fun _ => rfl⟩

theorem PadStored.image (h : PadStored s s' xs n) (u a : Nat) : InImage s' u a ↔ InImage s u a := by
  unfold InImage
  rw [(h.wg u).rest]

theorem PadStored.cons {s2 : State} {x : SpadLoc} (h : PadStored s s' [x] n) (k : PadStored s' s2 xs n) : PadStored s s2 (x :: xs) n where
  steady := h.steady.trans k.steady
  wg u := by
    have h1 := h.wg u
    have h2 := k.wg u
    refine ⟨by rw [h2.rest, h1.rest], fun c => ?_⟩
    have hc : (s2.wg u).crew c = { (s'.wg u).crew c with monitor := ((s2.wg u).crew c).monitor } := h2.crew c
    rw [hc, h1.crew]
    rfl
  mem a ha := (k.mem a fun y hy hin => ha y (List.mem_cons_of_mem _ hy) ((h.image _ _).1 hin)).trans
    (h.mem a fun y hy => ha y (List.mem_cons.2 (.inl (List.mem_singleton.1 hy))))
  win u y hy := (k.win u y fun x hx => hy x (List.mem_cons_of_mem _ hx)).trans
    (h.win u y fun z hz => hy z (List.mem_cons.2 (.inl (List.mem_singleton.1 hz))))
  flights u := (k.flights u).trans (h.flights u)

/-- A store to a window that meets no damage. -/
theorem State.locStore_win (hd : s.damage = []) (t c : Nat) (x : SpadLoc) {bs : List Byte} (hn : bs.length ≤ n) :
    PadStored s (s.locStore t c (.win x.owner x.off) bs) [x] n ∧
      ∀ j, j < bs.length → (((s.locStore t c (.win x.owner x.off) bs).wg x.owner).win).get (x.off + j) = bs.getD j 0 := by
  have hstore : s.locStore t c (.win x.owner x.off) bs =
      ((s.updWg x.owner fun w => { w with win := Memory.write w.win x.off bs }).imagePut x.owner ((s.wg x.owner).imagePart 6 + x.off) bs) := by
    unfold State.locStore
    dsimp only
    rw [State.mcOf_win hd]
    rfl
  have hsteady := Steady.locStore s t c (.win x.owner x.off) bs
  rw [hstore] at hsteady ⊢
  set w1 := { s.wg x.owner with win := Memory.write (s.wg x.owner).win x.off bs } with hw1
  set s1 := s.updWg x.owner fun w => { w with win := Memory.write w.win x.off bs } with hs1
  have hself : s1.wg x.owner = w1 := State.wg_updWg_self ..
  have hcalm : ∀ u, Calm (s1.wg u) ((s1.imagePut x.owner ((s.wg x.owner).imagePart 6 + x.off) bs).wg u) := fun u => Calm.putSpans ..
  have hmem : ∀ a, ¬ InImage s x.owner a → (s1.imagePut x.owner ((s.wg x.owner).imagePart 6 + x.off) bs).mem.get a = s.mem.get a := by
    intro a ha
    refine (State.mem_putSpans (fun b k hb hin => ha ?_) s1 bs).trans rfl
    rw [hself] at hb
    obtain ⟨b', m, hb', hle, hge⟩ := mem_spanCut hb
    exact ⟨b', m, hb', by omega, by omega⟩
  have hfly : ∀ u, ((s1.imagePut x.owner ((s.wg x.owner).imagePart 6 + x.off) bs).wg u).flights = (s1.wg u).flights :=
    fun u => State.flights_putSpans ..
  generalize s1.imagePut x.owner ((s.wg x.owner).imagePart 6 + x.off) bs = s2 at *
  have hwin : ∀ u, (s2.wg u).win = (s1.wg u).win := fun u => by rw [(hcalm u).rest]
  refine ⟨⟨hsteady, fun u => ?_, fun a ha => hmem a (ha x (by simp)), fun u y hy => ?_, fun u => (hfly u).trans ?_⟩, fun j hj => ?_⟩
  · rw [hwin]
    by_cases hu : u = x.owner
    · subst hu
      have := hcalm x.owner
      rwa [hself] at this ⊢
    · have := hcalm u
      rwa [hs1, State.wg_updWg_ne _ _ hu] at this ⊢
  · rw [hwin]
    by_cases hu : u = x.owner
    · have := hy x (by simp)
      subst hu
      rw [hself]
      exact (Memory.get_write ..).trans (if_neg (by omega))
    · rw [hs1, State.wg_updWg_ne _ _ hu]
  · by_cases hu : u = x.owner
    · rw [hu, hself]
      rfl
    · rw [hs1, State.wg_updWg_ne _ _ hu]
  · rw [hwin, hself]
    refine (Memory.get_write ..).trans ((if_pos (by omega)).trans ?_)
    rw [Nat.add_sub_cancel_left]

end

end Sys2Proof.Machine
end

section
/-! SUPPORT. ATOMS and WAITC (spec/08 R179, R186, R187), and the statement about them. -/

namespace Sys2Proof.Machine

open Sys2Proof Sys2Proof.Safety

-- One proof at a time: side by side they need more threads than a check's memory holds.
set_option Elab.async false

theorem getD_bytesOfNat {n j : Nat} (hj : j < n) (x : Nat) : (bytesOfNat n x).getD j 0 = BitVec.ofNat 8 (x / 2 ^ (8 * j)) := by
  induction n generalizing j x with
  | zero => exact absurd hj (by omega)
  | succ n ih =>
    cases j with
    | zero => simp [bytesOfNat]
    | succ j =>
      have hpow : 2 ^ (8 * (j + 1)) = 256 * 2 ^ (8 * j) := by
        rw [Nat.mul_add, Nat.pow_add, Nat.mul_comm]
      rw [hpow, ← Nat.div_div_eq_div_mul, ← ih (by omega : j < n)]
      simp [bytesOfNat]

/-! ### The lanes of an atomic, one after another -/

section
variable {t : Nat} {crew : Nat → Nat} {op : AtomOp} {w : Width} {bc : List (Nat × Dword × Dword)}

/-- The new value that a lane of an atomic stores over the old one, and the flags. -/
def atomResult (op : AtomOp) (w : Width) (bc : List (Nat × Dword × Dword)) (lane old : Nat) : Nat × FFlags :=
  let v := ((bc.find? fun p => p.1 == lane).map (·.2)).getD (0, 0)
  atomNew op (8 * wbytes w) old (v.1.toNat % 2 ^ (8 * wbytes w)) (v.2.toNat % 2 ^ (8 * wbytes w))

/-- One lane of an atomic, after those before it. -/
def atomsStep (t : Nat) (crew : Nat → Nat) (op : AtomOp) (w : Width) (bc : List (Nat × Dword × Dword))
    (acc : State × List (Nat × Nat) × FFlags) (x : SpadLoc) : State × List (Nat × Nat) × FFlags :=
  let old := acc.1.atomOld x.lane (wbytes w) (.win x.owner x.off)
  (acc.1.locStore t (crew x.lane) (.win x.owner x.off) (bytesOfNat (wbytes w) (atomResult op w bc x.lane old).1),
    acc.2.1 ++ [(x.lane, old)], acc.2.2 ||| (atomResult op w bc x.lane old).2)

theorem atomsApply_eq (s : State) (xs : List SpadLoc) :
    atomsApply t crew op w bc s xs = overList xs (s, [], 0) (atomsStep t crew op w bc) := rfl

theorem atomsApply_does {s : State} (hd : s.damage = []) (xs : List SpadLoc) :
    PadStored s (atomsApply t crew op w bc s xs).1 xs (wbytes w) := by
  rw [atomsApply_eq]
  generalize ([] : List (Nat × Nat)) = olds
  generalize (0 : FFlags) = fl
  induction xs generalizing s olds fl with
  | nil => exact .nil s _
  | cons x xs ih =>
    have hone := (State.locStore_win hd t (crew x.lane) x
      (length_bytesOfNat (wbytes w) (atomResult op w bc x.lane (s.atomOld x.lane (wbytes w) (.win x.owner x.off))).1).le).1
    exact hone.cons (ih (hone.steady.damage.trans hd) _ _)

/-- The old value of a window's bytes where they meet no damage. -/
theorem State.atomOld_win {s : State} (hd : s.damage = []) (l n u o : Nat) :
    s.atomOld l n (.win u o) = natOfBytes (s.rdSpan ⟨.win u o, n⟩) := by
  unfold State.atomOld
  rw [State.mcOf_win hd]
  rfl

end

/-! ### ATOMS -/

/-- What ATOMS leaves in its workgroup before the intervals end: the flags, and the old values in the destination. -/
def Workgroup.atomsDone (v : Workgroup) (free : Nat) (w : Width) (d : Option Sel) (olds : List (Nat × Nat)) (fl : FFlags) : Workgroup :=
  match d with
  | some q => (v.sumUp fl 0 0).writeSel free q (olds.map fun p => (p.1, splitWords (wspan w) (BitVec.ofNat 64 p.2)))
  | none => v.sumUp fl 0 0

section
variable {s : State} {t : Nat} {g : Gang} {r : ClauseRun} {es : List ApprEntry} {op : AtomOp} {w : Width} {sp : Space} {d : Option Sel}
  {a b : Sel} {c : Option Sel}

/-- The operands of ATOMS. -/
def atomsOps (w : Width) (a b : Sel) (c : Option Sel) : List Opd :=
  .int .u32 a :: atomOpd w b :: (match c with | some q => [atomOpd w q] | none => [])

/-- The two values that each lane of ATOMS brings. -/
def Env.atomsVals (e : Env) (w : Width) (a b : Sel) (c : Option Sel) : List (Nat × Dword × Dword) :=
  e.ls.map fun l => (l, (e.opds l (atomsOps w a b c) 0 0).getD 1 0, (e.opds l (atomsOps w a b c) 0 0).getD 2 0)

/-- ATOMS that its checks admit. -/
theorem atomsBody_does {e : Env} {xs : List SpadLoc} {s1 : State} (hls : e.ls ≠ []) (hc : e.crewless = [])
    (hx : e.s.spadResolve e.t e.fpc (Space.isCluster sp) (wbytes w)
      (e.ls.map fun l => (l, ((e.opds l (atomsOps w a b c) 0 0).getD 0 0).toNat)) = .ok xs)
    (hs : e.settled .acqRel (spaceScope sp) false (spadTouch w xs) = .ok s1)
    (hfree : ∀ x ∈ xs, s1.lockHeld (s1.lockOf x) = false) :
    atomsBody op w sp d a b c e =
      let r := atomsApply e.t (fun l => (e.crewOf l).getD 0) op w (e.atomsVals w a b c) s1 xs
      .ok (((((r.1.winBits (xs.map s1.lockOf)).updWg e.t fun v => v.atomsDone s1.free w d r.2.1 r.2.2).acquired e.t .acqRel
        (spaceScope sp)).endE e).closeE e) [] := by
  obtain ⟨l, ls, hcons⟩ := List.exists_cons_of_ne_nil hls
  have hany : xs.any (fun x => s1.lockHeld (s1.lockOf x)) = false := by
    rw [List.any_eq_false]
    exact fun x hx => by simp [hfree x hx]
  have hvals : (e.ls.map fun l => (l, e.opds l (atomsOps w a b c) 0 0)).map (fun p => (p.1, (p.2.getD 0 0).toNat)) =
      e.ls.map fun l => (l, ((e.opds l (atomsOps w a b c) 0 0).getD 0 0).toNat) := List.map_map
  have hbc : (e.ls.map fun l => (l, e.opds l (atomsOps w a b c) 0 0)).map (fun p => (p.1, p.2.getD 1 0, p.2.getD 2 0)) =
      e.atomsVals w a b c := List.map_map
  rw [← hvals] at hx
  rw [← hbc]
  unfold atomsBody
  split
  · next h => exact absurd h hls
  · rw [hc]
    dsimp only
    split
    · next q hq => cases hq.symm.trans hx
    · next ys hy =>
      cases hy.symm.trans hx
      rw [hs]
      dsimp only
      rw [hany]
      rfl

/-- The registers that a value of 64 bits takes are those of the destination. -/
theorem codesOf_splitWords {w : Width} {q : Sel} {n : Nat} (h : n ∉ codesOf (q, wspan w)) (x : Dword) :
    n ∉ codesOf (q, (splitWords (wspan w) x).length) := by
  have hle : (splitWords (wspan w) x).length ≤ wspan w := by cases w <;> exact Nat.le_of_ble_eq_true rfl
  unfold codesOf at *
  dsimp only at *
  split
  · next c hc =>
    rw [hc] at h
    simp only [List.mem_map, List.mem_range, not_exists, not_and] at h ⊢
    exact fun j hj => h j (by omega)
  · simp

theorem length_splitWords (n : Nat) (x : Dword) : (splitWords n x).length = if n = 1 then 1 else 2 := by
  unfold splitWords
  split <;> rfl

/-- Of the workgroup, ATOMS leaves gangs, the window and intervals, and registers outside its destination. -/
theorem Workgroup.atomsDone_does (v : Workgroup) (free : Nat) (w : Width) (d : Option Sel) (olds : List (Nat × Nat)) (fl : FFlags) :
    (v.atomsDone free w d olds fl).gangs = v.gangs ∧ (v.atomsDone free w d olds fl).win = v.win ∧
      (∀ l, ((v.atomsDone free w d olds fl).lane l).interval = (v.lane l).interval) ∧
      ∀ l n, (∀ q, d = some q → n ∉ codesOf (q, wspan w)) → ((v.atomsDone free w d olds fl).lane l).reg n = (v.lane l).reg n := by
  cases d with
  | none => exact ⟨rfl, rfl, fun _ => rfl, fun _ _ _ => rfl⟩
  | some q =>
    have hlen : ∀ p ∈ olds.map fun p => (p.1, splitWords (wspan w) (BitVec.ofNat 64 p.2)), p.2.length =
        (splitWords (wspan w) 0).length := by
      intro p hp
      obtain ⟨y, -, rfl⟩ := List.mem_map.1 hp
      rw [length_splitWords, length_splitWords]
    have hsteps := Steps.writeSel (v.sumUp fl 0 0) free q hlen
    exact ⟨hsteps.gangs, hsteps.win, Workgroup.interval_writeSel _ _ _ hlen,
      fun l n hn => hsteps.regs.regs l n fun d hd => by
        rw [List.mem_singleton] at hd
        rw [hd]
        exact codesOf_splitWords (hn q rfl) 0⟩

/-- A single lane's old value is held in the destination. -/
theorem Workgroup.atomsDone_holds (v : Workgroup) (free : Nat) {w : Width} (hw : w = .b32 ∨ w = .b64) (q : Sel) (l old : Nat) (fl : FFlags) :
    Holds v (v.atomsDone free w (some q) [(l, old)] fl) [l] (some (q, wspan w)) fun _ => BitVec.ofNat 64 old := by
  have hk : wspan w = 1 ∨ wspan w = 2 := by
    rcases hw with rfl | rfl
    · exact .inl rfl
    · exact .inr rfl
  have hholds := Workgroup.writeSel_holds (v.sumUp fl 0 0) free q (wspan w) hk [l] (List.nodup_singleton l) fun _ => BitVec.ofNat 64 old
  exact Safety.Holds.congr hholds (fun _ => rfl) rfl (fun _ _ => rfl) fun _ => rfl

/-- The lane of an atomic of one lane, and the values that it brings. -/
theorem find_atomsVals {e : Env} {l : Nat} (hl : l ∈ e.ls) : ((e.atomsVals w a b c).find? fun p => p.1 == l) =
    some (l, (e.opds l (atomsOps w a b c) 0 0).getD 1 0, (e.opds l (atomsOps w a b c) 0 0).getD 2 0) :=
  (find_lane e.ls _ l).trans (if_pos hl)

/-- What an instruction waits for at its issue moves memory, workgroups and cores alone. -/
theorem Env.settled_steady {e : Env} {ord : Order} {scope : Scope} {dev : Bool} {f : FlightOp} {s1 : State}
    (h : e.settled ord scope dev f = .ok s1) : Steady e.s s1 := by
  unfold Env.settled at h
  dsimp only at h
  split at h
  · cases h
  · cases h
    exact .settleFor ..

end

/-- ATOMS goes on with its lanes' values stored and handed back. -/
theorem atoms_performed (s : State) (t : Nat) (g : Gang) (r : ClauseRun) (es : List ApprEntry) (op : AtomOp) (w : Width) (sp : Space)
    (d : Option Sel) (a b : Sel) (c : Option Sel) (h : Ready s t g r (.atoms op w sp d a b c) es) :
    let e := opEnv s t g r es
    let ls := execLanes g r
    let v := fun l k => operand s t g r es (atomsOps w a b c) l k
    let bits := 8 * wbytes w
    (ls = [] → ∃ s', exec (.atoms op w sp d a b c) s = .next s' ∧ Acted s s' t g r (.atoms op w sp d a b c) []) ∧
    ∀ xs s1, ls ≠ [] → Crewed s t g r →
      (taken s).spadResolve t e.fpc (Space.isCluster sp) (wbytes w) (ls.map fun l => (l, v l 0)) = .ok xs →
      e.settled .acqRel (spaceScope sp) false (spadTouch w xs) = .ok s1 → (s1.wg t).gang? g.id = some g →
      (∀ x ∈ xs, s1.lockHeld (s1.lockOf x) = false) →
      ∃ s', exec (.atoms op w sp d a b c) s = .next s' ∧ WentOn s' t g r (Instr.atoms op w sp d a b c).len ∧
        (∀ y, (∀ x ∈ xs, ¬ InImage s1 x.owner y) → s'.mem.get y = s1.mem.get y) ∧
        (∀ l ∈ ls, ((s'.wg t).lane l).interval = ((s1.wg t).lane l).interval + 1) ∧
        (∀ l n, (∀ q, d = some q → n ∉ codesOf (q, wspan w)) → ((s'.wg t).lane l).reg n = ((s1.wg t).lane l).reg n) ∧
        (∀ u y, (∀ x ∈ xs, ¬ (u = x.owner ∧ x.off ≤ y ∧ y < x.off + wbytes w)) → ((s'.wg u).win).get y = ((s1.wg u).win).get y) ∧
        ∀ x, xs = [x] → w = .b32 ∨ w = .b64 →
          let old := natOfBytes (s1.rdSpan ⟨.win x.owner x.off, wbytes w⟩)
          let new := (atomNew op bits old (v x.lane 1 % 2 ^ bits) (v x.lane 2 % 2 ^ bits)).1
          (∀ j, j < wbytes w → ((s'.wg x.owner).win).get (x.off + j) = BitVec.ofNat 8 (new / 2 ^ (8 * j))) ∧
          ∀ q, d = some q → Holds (s1.wg t) (s'.wg t) [x.lane] (some (q, wspan w)) (fun _ => BitVec.ofNat 64 old) := by
  intro e ls v bits
  change (ls = [] → ∃ s', laneIssue _ (atomsBody op w sp d a b c) s = .next s' ∧ _) ∧ _
  refine ⟨fun hnil => ?_, fun xs s1 hls hcrewed hxs hs1 hg hfree => ?_⟩
  · have hb : atomsBody op w sp d a b c e = .ok (taken s) [] := by
      unfold atomsBody
      rw [show e.ls = [] from hnil]
      rfl
    obtain ⟨s', hs, hact, -⟩ := laneIssue_moved h hb (.start s t [])
    exact ⟨s', hs, hact⟩
  · have hb := atomsBody_does (op := op) (d := d) (e := e) hls (Env.crewless_of_crewed hcrewed es) hxs hs1 hfree
    have hd : s1.damage = [] := (Env.settled_steady hs1).damage.trans h.intact
    have hstored := atomsApply_does (t := t) (crew := fun l => (e.crewOf l).getD 0) (op := op) (w := w) (bc := e.atomsVals w a b c) hd xs
    set R := atomsApply t (fun l => (e.crewOf l).getD 0) op w (e.atomsVals w a b c) s1 xs with hR
    have hcores := R.1.winBits_rest (xs.map s1.lockOf)
    set k := R.1.winBits (xs.map s1.lockOf) with hk
    have hwg : ∀ u, k.wg u = R.1.wg u := fun u => by
      rw [hcores]
      rfl
    set F : Workgroup → Workgroup := fun v => v.atomsDone s1.free w d R.2.1 R.2.2 with hF
    have hself : (k.updWg t F).wg t = F (R.1.wg t) := (State.wg_updWg_self ..).trans (congrArg F (hwg t))
    obtain ⟨hgangs, hwin, hint, hreg⟩ := Workgroup.atomsDone_does (R.1.wg t) s1.free w d R.2.1 R.2.2
    have hcalm := hstored.wg t
    have hg2 : ((k.updWg t F).wg t).gang? g.id = some g := by
      rw [hself]
      unfold Workgroup.gang?
      rw [hF]
      dsimp only
      rw [hgangs, hcalm.rest]
      exact hg
    obtain ⟨s', hs, hwent, hend, hmem, hothers⟩ := laneIssue_ended (s2 := k.updWg t F) h hb hg2
    rw [hself] at hend
    have hlane : ∀ l, (R.1.wg t).lane l = (s1.wg t).lane l := fun l => by
      rw [hcalm.rest]
      rfl
    have hwins : ∀ u, (s'.wg u).win = (R.1.wg u).win := fun u => by
      by_cases hu : u = t
      · rw [hu, hend.win, hF]
        exact hwin
      · rw [hothers u hu, State.wg_updWg_ne _ _ hu, hwg]
    refine ⟨s', hs, hwent, fun y hy => ?_, fun l hl => ?_, fun l n hn => ?_, fun u y hy => ?_, ?_⟩
    · rw [hmem]
      change k.mem.get y = _
      rw [hcores]
      exact hstored.mem y hy
    · rw [hend.interval l hl, ← hlane]
      exact congrArg (· + 1) (hint l)
    · rw [hend.reg, ← hlane]
      exact hreg l n hn
    · rw [hwins]
      exact hstored.win u y hy
    · rintro x rfl hw old new
      have hx : x.lane ∈ e.ls := by
        have hlanes : [x.lane] = (ls.map fun l => (l, v l 0)).map (·.1) := State.lanes_spadResolve hxs
        rw [List.map_map, show ls.map (Prod.fst ∘ fun l => (l, v l 0)) = ls from List.map_id _] at hlanes
        change x.lane ∈ ls
        rw [← hlanes]
        exact List.mem_singleton_self _
      have hres : (atomResult op w (e.atomsVals w a b c) x.lane (s1.atomOld x.lane (wbytes w) (.win x.owner x.off))).1 = new := by
        unfold atomResult
        rw [State.atomOld_win hd, find_atomsVals hx]
        rfl
      refine ⟨fun j hj => ?_, ?_⟩
      · rw [hwins, ← getD_bytesOfNat hj, ← hres]
        exact (State.locStore_win hd t ((e.crewOf x.lane).getD 0) x (length_bytesOfNat ..).le).2 j (by rwa [length_bytesOfNat])
      · rintro q rfl
        have hholds := Workgroup.atomsDone_holds (R.1.wg t) s1.free hw q x.lane old R.2.2
        refine Holds.of_settledIn hholds (.of_flights (hstored.flights t)) (fun l => congrArg Lane.crew (hlane l))
          (fun l n => ?_) fun n => ?_
        · rw [hend.reg]
          exact congrArg (fun y => (((R.1.wg t).atomsDone s1.free w (some q) [(x.lane, y)] R.2.2).lane l).reg n) (State.atomOld_win hd ..)
        · rw [hend.uniform]
          exact congrArg (fun y => (((R.1.wg t).atomsDone s1.free w (some q) [(x.lane, y)] R.2.2).crew n).s) (State.atomOld_win hd ..)

/-! ### WAITC -/

/-- WAITC whose crews' counters are at their thresholds. -/
theorem waitcBody_passes {e : Env} {p : Path} {a : Sel} (hc : e.crewless = [])
    (h : ∀ l ∈ e.ls, ∀ k, e.crewOf l = some k → (e.w.crew k).count p ≤ min 63 (e.int32 l a 0 0).toNat) :
    waitcBody p a e = .ok (e.s.endE e) [] := by
  have hth : (e.thresholds a).filter (fun x => decide ((e.w.crew x.1).count p > x.2)) = [] := by
    rw [List.filter_eq_nil_iff]
    intro x hx
    obtain ⟨k, hk, rfl⟩ := List.mem_map.1 hx
    obtain ⟨l, hl, hlk⟩ := Workgroup.mem_crewsOf.1 hk
    have hmin : ∀ (ms : List Nat) (m0 : Nat), (e.w.crew k).count p ≤ m0 → (∀ l ∈ ms, (e.w.crew k).count p ≤ (e.int32 l a 0 0).toNat) →
        (e.w.crew k).count p ≤ ms.foldl (fun m l => min m (e.int32 l a 0 0).toNat) m0 := by
      intro ms
      induction ms with
      | nil => exact fun _ h0 _ => h0
      | cons l ms ih =>
        exact fun m0 h0 hall => ih _ (le_min h0 (hall l (by simp))) fun l hl => hall l (List.mem_cons_of_mem _ hl)
    have hle := hmin (e.ls.filter fun l => e.crewOf l == some k) 63 ((h l hl k hlk).trans (min_le_left ..)) fun m hm => by
      obtain ⟨hm, hmk⟩ := List.mem_filter.1 hm
      exact (h m hm k (by simpa using hmk)).trans (min_le_right ..)
    simpa using hle
  unfold waitcBody
  rw [hc]
  dsimp only
  rw [hth]

/-- Settles O19: an atomic stores and hands back lane by lane; a wait at its thresholds goes on. -/
theorem scratchpadAtomicsAndWaits : Obligations.ScratchpadAtomicsAndWaits := by
  unfold Obligations.ScratchpadAtomicsAndWaits
  intro s t g r es e ls
  refine ⟨fun op w sp d a b c h => atoms_performed s t g r es op w sp d a b c h, fun p a h hcrewed hcount => ?_⟩
  have hb : waitcBody p a e = .ok (e.s.endE e) [] := waitcBody_passes (Env.crewless_of_crewed hcrewed es) fun l hl k hk => by
    rw [int32_toNat_operand]
    exact hcount l hl k hk
  have hm : BodyMoved s (e.s.endE e) t [] := (BodyMoved.start s t []).step (.endInterval _ ls [])
  have hwg : (e.s.endE e).wg t = (s.wg t).endInterval ls := State.wg_updWg_self ..
  obtain ⟨s', hs, hact, hcl⟩ := laneIssue_moved (body := waitcBody p a) h hb hm
  rw [hwg] at hcl
  refine ⟨s', hs, hact, fun l hl => ?_, fun k => ?_⟩
  · rw [hcl.lane]
    change (((s.wg t).endInterval ls).lane l).interval = _
    rw [Workgroup.lane_endInterval (s.wg t) (ls := ls) (lanesOf_nodup ..), if_pos hl]
  · rw [hcl.crew]
    change (((s.wg t).endInterval ls).crew k).flight = _
    rw [Workgroup.crew_endInterval]

end Sys2Proof.Machine
end

section
/-! SUPPORT. Locks held across issues (spec/08 R181, R182, R185): the traps of an instruction that a lock bars or that comes too late,
STUL, and the statement about them. -/

namespace Sys2Proof.Machine

open Sys2Proof Sys2Proof.Safety

-- One proof at a time: side by side they need more threads than a check's memory holds.
set_option Elab.async false

/-! ### Traps of locks -/

section
variable {s : State} {t : Nat} {g : Gang} {r : ClauseRun} {i : Instr} {es : List ApprEntry}

/-- No machine check is to be delivered to the lanes of the issue mask. -/
def MchecksNone (s : State) (t : Nat) (g : Gang) (r : ClauseRun) : Prop :=
  ∀ l ∈ issueLanes g r, ∀ c, ((s.wg t).lane l).crew = some c → ((s.wg t).crew c).mcheck = none

/-- No lock of the issue mask has been held for 16 issues. -/
def LocksEarly (s : State) (t : Nat) (g : Gang) (r : ClauseRun) : Prop :=
  ∀ l ∈ issueLanes g r, ∀ k, ((s.wg t).lane l).lock = some k → k.issues < 16

theorem LocksEarly.overHeld (h : LocksEarly s t g r) : (envOf s t g r).overHeld = [] := by
  unfold envOf
  rw [Env.overHeld_eq, List.filter_eq_nil_iff]
  intro l hl
  unfold Lane.lockOver
  split
  · next k hk =>
    have := h l hl k hk
    simp only [decide_eq_true_eq]
    omega
  · simp

/-- An instruction that a lock bars. -/
theorem laneIssue_lockState (h : Stands s t g r) (hm : MchecksNone s t g r) (he : LocksEarly s t g r)
    (hh : (envOf s t g r).holders ≠ []) (hf : lockFree i = false) (body : Env → Res) :
    laneIssue i body s = .next (((taken s).takeTrap t g.id {
      cause := 0x63, faulters := (envOf s t g r).holders, fpc := (envOf s t g r).fpc, detail := (envOf s t g r).lockDetail }).spent s.free) := by
  rw [laneIssue_stands h]
  unfold State.issue
  dsimp only
  rw [show ((taken s).env t g r).mcheck = none from Env.mcheck_none hm, show ((taken s).env t g r).overHeld = [] from he.overHeld]
  dsimp only
  rw [if_pos ⟨hh, hf⟩]
  rfl

/-- An instruction that comes too late under a lock. -/
theorem laneIssue_lockHold (h : Stands s t g r) (hm : MchecksNone s t g r) (hh : (envOf s t g r).overHeld ≠ []) (body : Env → Res) :
    laneIssue i body s = .next (((taken s).takeTrap t g.id {
      cause := 0x62, faulters := (envOf s t g r).overHeld, fpc := (envOf s t g r).fpc, detail := (envOf s t g r).lockDetail }).spent s.free) := by
  obtain ⟨l, ls, hcons⟩ := List.exists_cons_of_ne_nil hh
  rw [laneIssue_stands h]
  unfold State.issue
  dsimp only
  rw [show ((taken s).env t g r).mcheck = none from Env.mcheck_none hm, hcons,
    show ((taken s).env t g r).overHeld = l :: ls from hcons]
  rfl

/-! ### Instructions that may be issued under a lock -/

/-- A gang that may perform an instruction that locks do not bar performs its body. -/
theorem laneIssue_able (h : Able s t g r i es) (he : LocksEarly s t g r) (hf : lockFree i = true) (body : Env → Res) :
    laneIssue i body s = .next ((State.settleRes (opEnv s t g r es) i (body (opEnv s t g r es))).spent s.free) := by
  rw [laneIssue_stands h.toStands]
  unfold State.issue
  dsimp only
  rw [show ((taken s).env t g r).mcheck = none from Env.mcheck_none h.unchecked, show ((taken s).env t g r).overHeld = [] from he.overHeld]
  dsimp only
  rw [if_neg (by simp [hf]), show ((taken s).env t g r).crewTrap i = none from Env.crewTrap_none h.crews]
  dsimp only
  rw [show ((taken s).env t g r).gateTrap i = [] from Env.gateTrap_nil h.gates]
  dsimp only
  rw [show ((taken s).env t g r).regCheck i = none from Env.regCheck_none h.intact]
  dsimp only
  rw [show ((taken s).env t g r).popsOf i = .ready es from h.pops]
  rfl

/-- Its close: the issue is counted for the locks that are still held, and the gang goes on. -/
theorem laneIssue_ableCloses (h : Able s t g r i es) (he : LocksEarly s t g r) (hf : lockFree i = true) {body : Env → Res} {s1 s2 : State}
    {vals : List (Nat × Dword)} (hb : body (opEnv s t g r es) = .ok s1 vals) (hs2 : s1.countLocks (opEnv s t g r es) = s2)
    (hg : (s2.wg t).gang? g.id = some g) :
    ∃ s', laneIssue i body s = .next s' ∧ WentOn s' t g r i.len ∧ Closed (s2.wg t) (s'.wg t) ∧
      s' = { s2 with wgs := s'.wgs, cores := s'.cores, free := s'.free } ∧ ∀ u, u ≠ t → s'.wg u = s2.wg u := by
  rw [laneIssue_able h he hf, hb]
  change ∃ s', Host.Outcome.next
    (((State.takePops (s1.countLocks (opEnv s t g r es)) (opEnv s t g r es) i).advance t g.id i r vals).spent s.free) = .next s' ∧ _
  rw [hs2]
  obtain ⟨hrest, hothers, hwg, -, hlane, hcrew, -⟩ := State.takePops_kept s2 (opEnv s t g r es) i
  change ∀ u, u ≠ t → _ at hothers
  generalize State.takePops s2 (opEnv s t g r es) i = s3 at hrest hothers hwg hlane hcrew ⊢
  change s3.wg t = { s2.wg t with lanes := (s3.wg t).lanes, crews := (s3.wg t).crews } at hwg
  change ∀ l, (s3.wg t).lane l = { (s2.wg t).lane l with opened := ((s3.wg t).lane l).opened } at hlane
  change ∀ c, (s3.wg t).crew c = { (s2.wg t).crew c with appr := ((s3.wg t).crew c).appr } at hcrew
  have hg3 : (s3.wg t).gang? g.id = some g := by
    rw [hwg]
    exact hg
  have hwent := State.advance_wentOn (i := i) ⟨g, hg3, rfl, rfl, rfl, rfl, h.clause⟩ h.plain h.within vals
  obtain ⟨f, -, hadv⟩ := State.advance_frame (s := s3) (t := t) (g := g) (i := i) h.plain h.within vals
  rw [hadv] at hwent ⊢
  refine ⟨_, rfl, hwent, ?_, ?_, fun u hu => ?_⟩
  · rw [State.wg_spent, State.updGang, State.wg_updWg_self]
    refine ⟨?_, hlane, hcrew⟩
    rw [hwg]
    rfl
  · rw [hrest]
    rfl
  · rw [State.wg_spent, State.updGang, State.wg_updWg_ne _ _ hu, hothers u hu]

end

/-! ### Locks counted and released -/

/-- Of a workgroup, only locks of lanes have changed, and no lane has one that had none. -/
structure LocksMoved (w w' : Workgroup) : Prop where
  rest : w' = { w with lanes := w'.lanes }
  lane : ∀ l, w'.lane l = { w.lane l with lock := (w'.lane l).lock }
  free : ∀ l, (w.lane l).lock = none → (w'.lane l).lock = none

theorem LocksMoved.win {w w' : Workgroup} (h : LocksMoved w w') : w'.win = w.win := by rw [h.rest]

theorem LocksMoved.gangs {w w' : Workgroup} (h : LocksMoved w w') : w'.gangs = w.gangs := by rw [h.rest]

theorem LocksMoved.refl (w : Workgroup) : LocksMoved w w := ⟨rfl, fun _ => rfl, fun _ h => h⟩

theorem LocksMoved.trans {a b c : Workgroup} (h : LocksMoved a b) (k : LocksMoved b c) : LocksMoved a c where
  rest := by rw [k.rest, h.rest]
  lane l := by rw [k.lane, h.lane]
  free l hl := k.free l (h.free l hl)

theorem LocksMoved.over {α : Type} {f : Workgroup → α → Workgroup} (hf : ∀ w x, LocksMoved w (f w x)) (l : List α) (w : Workgroup) :
    LocksMoved w (overList l w f) := by
  induction l generalizing w with
  | nil => exact .refl w
  | cons a l ih => exact (hf w a).trans (ih (f w a))

theorem LocksMoved.updLane (w : Workgroup) (l : Nat) {f : Lane → Lane} (hf : f (w.lane l) = { w.lane l with lock := (f (w.lane l)).lock })
    (hn : (w.lane l).lock = none → (f (w.lane l)).lock = none) : LocksMoved w (w.updLane l f) where
  rest := rfl
  lane m := by
    rw [Workgroup.lane_updLane]
    split
    · next h =>
      rw [h]
      exact hf
    · rfl
  free m hm := by
    rw [Workgroup.lane_updLane]
    split
    · next h => exact hn (h ▸ hm)
    · exact hm

theorem LocksMoved.releaseLocks (w : Workgroup) (ls : List Nat) : LocksMoved w (w.releaseLocks ls) :=
  .over (fun w l => .updLane w l rfl fun _ => rfl) ls w

/-- The count of an issue changes locks alone. -/
theorem State.countLocks_eq (s : State) (e : Env) : ∃ f : Workgroup → Workgroup, s.countLocks e = s.updWg e.t f ∧ ∀ w, LocksMoved w (f w) := by
  refine ⟨_, rfl, fun w => .over (fun w l => ?_) e.holders w⟩
  split
  · next k hk =>
    refine .updLane w l rfl fun hn => ?_
    rw [hk] at hn
    cases hn
  · exact .refl w

/-! ### STUL -/

theorem length_bytesLE (ws : List Word) : (bytesLE ws).length = 4 * ws.length := by
  induction ws with
  | nil => rfl
  | cons w ws ih =>
    change (bytesOfNat 4 w.toNat ++ bytesLE ws).length = _
    rw [List.length_append, length_bytesOfNat, ih, List.length_cons]
    omega

theorem Env.length_regs (e : Env) (l : Nat) (q : Sel) (n j i : Nat) : (e.regs l q n j i).length = n := by
  unfold Env.regs
  split
  · next h => rw [h]; rfl
  · rw [List.length_map, List.length_range]

/-- The bytes that a lane of a store brings. -/
def storeBytes (w : Width) (data : List (Nat × List Word)) (x : SpadLoc) : List Byte :=
  (bytesLE (((data.find? fun p => p.1 == x.lane).map (·.2)).getD [])).take (wbytes w)

section
variable {s : State} {t : Nat} {g : Gang} {r : ClauseRun} {es : List ApprEntry} {w : Width} {sp : Space} {d a : Sel} {off : Src}

/-- A store of a lane of E brings its registers' bytes. -/
theorem storeBytes_storeWords {e : Env} {x : SpadLoc} (hx : x.lane ∈ e.ls) (j i : Nat) :
    (storeBytes w (e.storeWords d (wspan w) j i) x).length = wbytes w ∧ ∀ k, k < wbytes w →
      (storeBytes w (e.storeWords d (wspan w) j i) x).getD k 0 = (bytesLE (e.regs x.lane d (wspan w) j i)).getD k 0 := by
  have hfind : (e.storeWords d (wspan w) j i).find? (fun p => p.1 == x.lane) = some (x.lane, e.regs x.lane d (wspan w) j i) :=
    (find_lane e.ls _ x.lane).trans (if_pos hx)
  have hlen : wbytes w ≤ (bytesLE (e.regs x.lane d (wspan w) j i)).length := by
    rw [length_bytesLE, Env.length_regs]
    cases w <;> decide
  unfold storeBytes
  rw [hfind]
  refine ⟨List.length_take_of_le hlen, fun k hk => ?_⟩
  simp [List.getD_eq_getElem?_getD, List.getElem?_take_of_lt hk]

/-- The stores of STUL, one lane after another. -/
def State.stulStores (s : State) (t : Nat) (crew : Nat → Nat) (w : Width) (data : List (Nat × List Word)) (xs : List SpadLoc) : State :=
  overList xs s fun s x => s.locStore t (crew x.lane) (.win x.owner x.off) (storeBytes w data x)

theorem PadStored.stulStores {s : State} (hd : s.damage = []) (t : Nat) (crew : Nat → Nat) (w : Width) (data : List (Nat × List Word))
    (xs : List SpadLoc) : PadStored s (s.stulStores t crew w data xs) xs (wbytes w) := by
  unfold State.stulStores
  induction xs generalizing s with
  | nil => exact .nil s _
  | cons x xs ih =>
    have hone := (State.locStore_win hd t (crew x.lane) x (bs := storeBytes w data x) (List.length_take_le ..)).1
    exact hone.cons (ih (hone.steady.damage.trans hd))

/-- STUL of lanes that hold their granules. -/
theorem stulBody_does {e : Env} {xs : List SpadLoc} {s1 : State} (hls : e.ls ≠ []) (hc : e.crewless = [])
    (hx : e.s.spadResolve e.t e.fpc (Space.isCluster sp) (wbytes w) (e.eas a off) = .ok xs)
    (hk : ∀ x ∈ xs, ∃ k, (e.w.lane x.lane).lock = some k ∧ k.owner = x.owner ∧ k.off = x.off / 64 * 64)
    (hs : e.s.settleFor e.t (e.s.asItem e.t e.ls .release (spaceScope sp) false (spadTouch w xs)) = (s1, none)) :
    stulBody w sp d a off e = .ok (((((s1.stulStores e.t (fun l => (e.crewOf l).getD 0) w
      (e.storeWords d (wspan w) (popsIn ((a, 1) :: off.sels)) 8) xs).updWg e.t fun v => v.releaseLocks e.ls).endE e).closeE e)) [] := by
  have hcover : xs.filter (fun x => !lockCovers (e.w.lane x.lane).lock x) = [] := by
    rw [List.filter_eq_nil_iff]
    intro x hx
    obtain ⟨k, hlock, hown, hoff⟩ := hk x hx
    simp [lockCovers, hlock, hown, hoff]
  unfold stulBody
  split
  · next h => exact absurd h hls
  · rw [hc]
    dsimp only
    split
    · next q hq => cases hq.symm.trans hx
    · next ys hy =>
      cases hy.symm.trans hx
      rw [hcover]
      dsimp only
      rw [hs]
      rfl

/-- From `v` on, locks have been released and counted and the intervals of lanes `ls` have ended. -/
theorem Ended.of_locks {v w4 w' : Workgroup} {ls : List Nat} (hn : ls.Nodup)
    (h : LocksMoved (((v.releaseLocks ls).endInterval ls).closeRegion ls) w4) (hcl : Closed w4 w') :
    (∀ l ∈ ls, (w'.lane l).lock = none) ∧ (∀ l n, (w'.lane l).reg n = (v.lane l).reg n) ∧
      (∀ l ∈ ls, (w'.lane l).interval = (v.lane l).interval + 1) ∧ w'.win = v.win := by
  set x := (v.releaseLocks ls).endInterval ls with hx
  have hclose : ∀ l, (x.closeRegion ls).lane l = { x.lane l with opened := ((x.closeRegion ls).lane l).opened } := fun l => by
    rw [Workgroup.lane_closeRegion]
    split <;> rfl
  have hinterval : ∀ l, x.lane l = { (v.releaseLocks ls).lane l with interval := (x.lane l).interval } :=
    fun l => Workgroup.lane_endInterval_rest ..
  refine ⟨fun l hl => ?_, fun l n => ?_, fun l hl => ?_, ?_⟩
  · rw [hcl.lane]
    refine h.free l ?_
    rw [hclose, hinterval, Workgroup.lane_releaseLocks, if_pos hl]
  · rw [hcl.reg, h.lane, hclose, hinterval, (LocksMoved.releaseLocks v ls).lane]
    rfl
  · rw [hcl.lane, h.lane, hclose]
    change (x.lane l).interval = _
    rw [hx, Workgroup.lane_endInterval _ hn, if_pos hl, (LocksMoved.releaseLocks v ls).lane]
  · have hclosed : w'.win = w4.win := by rw [hcl.rest]
    rw [hclosed, h.win, (Steps.closeRegion x ls []).win, (Steps.endInterval (v.releaseLocks ls) ls []).win, (LocksMoved.releaseLocks v ls).win]

end

/-- STUL of lanes that hold their granules stores, releases and ends the intervals. -/
theorem stul_released (s : State) (t : Nat) (g : Gang) (r : ClauseRun) (es : List ApprEntry) (w : Width) (sp : Space) (d a : Sel)
    (off : Src) (xs : List SpadLoc) (s1 : State) :
    let e := opEnv s t g r es
    let ls := execLanes g r
    let i := Instr.stul w sp d a off
    Able s t g r i es → LocksEarly s t g r → ls ≠ [] → Crewed s t g r →
    (taken s).spadResolve t e.fpc (Space.isCluster sp) (wbytes w) (e.eas a off) = .ok xs →
    (∀ x ∈ xs, ∃ k, ((s.wg t).lane x.lane).lock = some k ∧ k.owner = x.owner ∧ k.off = x.off / 64 * 64) →
    (taken s).settleFor t ((taken s).asItem t ls .release (spaceScope sp) false (spadTouch w xs)) = (s1, none) →
    (s1.wg t).gang? g.id = some g →
    ∃ s', exec i s = .next s' ∧ WentOn s' t g r i.len ∧
      (∀ a, (∀ x ∈ xs, ¬ InImage s1 x.owner a) → s'.mem.get a = s1.mem.get a) ∧ (∀ l ∈ ls, ((s'.wg t).lane l).lock = none) ∧
      (∀ l n, ((s'.wg t).lane l).reg n = ((s1.wg t).lane l).reg n) ∧
      (∀ l ∈ ls, ((s'.wg t).lane l).interval = ((s1.wg t).lane l).interval + 1) ∧
      (∀ u b, (∀ x ∈ xs, ¬ (u = x.owner ∧ x.off ≤ b ∧ b < x.off + wbytes w)) → ((s'.wg u).win).get b = ((s1.wg u).win).get b) ∧
      ∀ x, xs = [x] → ∀ j, j < wbytes w → ((s'.wg x.owner).win).get (x.off + j) =
        (bytesLE (e.regs x.lane d (wspan w) (popsIn ((a, 1) :: off.sels)) 8)).getD j 0 := by
  intro e ls i h he hls hcrewed hxs hk hs1 hg
  change ∃ s', laneIssue i (stulBody w sp d a off) s = .next s' ∧ _
  have hb := stulBody_does (d := d) (e := e) hls (Env.crewless_of_crewed hcrewed es) hxs hk hs1
  have hd : s1.damage = [] := by
    have hsteady := Steady.settleFor (taken s) t ((taken s).asItem t ls .release (spaceScope sp) false (spadTouch w xs))
    rw [hs1] at hsteady
    exact hsteady.damage.trans h.intact
  set data := e.storeWords d (wspan w) (popsIn ((a, 1) :: off.sels)) 8 with hdata
  have hstored := PadStored.stulStores hd t (fun l => (e.crewOf l).getD 0) w data xs
  set s2 := s1.stulStores t (fun l => (e.crewOf l).getD 0) w data xs with hs2
  set s3 := (((s2.updWg t fun v => v.releaseLocks ls).endE e).closeE e) with hs3
  have hwg3 : s3.wg t = (((s2.wg t).releaseLocks ls).endInterval ls).closeRegion ls := by
    refine (State.wg_updWg_self ..).trans (congrArg (fun v : Workgroup => v.closeRegion ls) ((State.wg_updWg_self ..).trans ?_))
    exact congrArg (fun v : Workgroup => v.endInterval ls) (State.wg_updWg_self ..)
  have hwg3' : ∀ u, u ≠ t → s3.wg u = s2.wg u := fun u hu =>
    (State.wg_updWg_ne _ _ hu).trans ((State.wg_updWg_ne _ _ hu).trans (State.wg_updWg_ne _ _ hu))
  obtain ⟨f, hcount, hf⟩ := s3.countLocks_eq e
  have hmoved : LocksMoved (s3.wg t) (f (s3.wg t)) := hf _
  have hwg4 : (s3.updWg t f).wg t = f (s3.wg t) := State.wg_updWg_self ..
  have hcalm := hstored.wg t
  have hg4 : ((s3.updWg t f).wg t).gang? g.id = some g := by
    have hgangs : (s2.wg t).gangs = (s1.wg t).gangs := by rw [hcalm.rest]
    unfold Workgroup.gang?
    rw [hwg4, hmoved.gangs, hwg3, (Steps.closeRegion _ ls []).gangs, (Steps.endInterval _ ls []).gangs,
      (LocksMoved.releaseLocks (s2.wg t) ls).gangs, hgangs]
    exact hg
  obtain ⟨s', hs, hwent, hcl, hrest, hothers⟩ := laneIssue_ableCloses (s2 := s3.updWg t f) h he rfl hb hcount hg4
  rw [hwg4] at hcl
  rw [hwg3] at hmoved hcl
  obtain ⟨hlocks, hregs, hints, hwin⟩ := Ended.of_locks (lanesOf_nodup ..) hmoved hcl
  have hlane : ∀ l, (s2.wg t).lane l = (s1.wg t).lane l := fun l => by
    rw [hcalm.rest]
    rfl
  have hwins : ∀ u, (s'.wg u).win = (s2.wg u).win := fun u => by
    by_cases hu : u = t
    · rw [hu, hwin]
    · rw [hothers u hu, State.wg_updWg_ne _ _ hu, hwg3' u hu]
  refine ⟨s', hs, hwent, fun y hy => ?_, hlocks, fun l n => ?_, fun l hl => ?_, fun u b hb => ?_, ?_⟩
  · rw [hrest]
    exact hstored.mem y hy
  · rw [hregs, hlane]
  · rw [hints l hl, hlane]
  · rw [hwins]
    exact hstored.win u b hb
  · rintro x rfl j hj
    have hx : x.lane ∈ e.ls := by
      have hlanes : [x.lane] = e.ls := (State.lanes_spadResolve hxs).trans (Env.lanes_eas ..)
      rw [← hlanes]
      exact List.mem_singleton_self _
    obtain ⟨hlen, hbytes⟩ := storeBytes_storeWords (w := w) (d := d) hx (popsIn ((a, 1) :: off.sels)) 8
    rw [hwins, ← hbytes j hj]
    exact (State.locStore_win hd t ((e.crewOf x.lane).getD 0) x hlen.le).2 j (by rwa [hlen])

/-- Settles O18: STUL stores and releases; a lock bars instructions, and traps what comes too late. -/
theorem lockHeldAndReleased : Obligations.LockHeldAndReleased := by
  unfold Obligations.LockHeldAndReleased
  intro s t g r es e ls holders early
  refine ⟨fun w sp d a off xs s1 => stul_released s t g r es w sp d a off xs s1, fun w sp d a off h hnil => ?_,
    fun i h hm he hh hf hbody => ?_, fun i h hm he hbody => ?_⟩
  · have hb : stulBody w sp d a off e = .ok (taken s) [] := by
      unfold stulBody
      rw [show e.ls = [] from hnil]
      rfl
    obtain ⟨s', hs, hact, -⟩ := laneIssue_moved (body := stulBody w sp d a off) h hb (.start s t [])
    exact ⟨s', hs, hact⟩
  · obtain ⟨body, hexec⟩ := hbody
    rw [hexec]
    exact laneIssue_lockState h hm he hh hf body
  · obtain ⟨body, hexec⟩ := hbody
    rw [hexec]
    refine (laneIssue_lockHold h hm (fun hnil => he ?_) body).trans ?_
    · intro l hl k hk
      by_contra hlt
      have hmem : l ∈ (envOf s t g r).overHeld := by
        unfold envOf
        rw [Env.overHeld_eq, List.mem_filter]
        refine ⟨hl, ?_⟩
        change ((s.wg t).lane l).lockOver = true
        unfold Lane.lockOver
        rw [hk]
        exact decide_eq_true (by omega)
      rw [hnil] at hmem
      cases hmem
    · rfl

end Sys2Proof.Machine
end

section
/-! SUPPORT. QNT and DQNT (spec/06 R133, R134): results whose lanes write different numbers of words, and the statement about the two
instructions. -/

namespace Sys2Proof.Machine

open Sys2Proof Sys2Proof.Safety

-- One proof at a time: side by side they need more threads than a check's memory holds.
set_option Elab.async false

/-! ### Results whose lanes write different numbers of words -/

theorem codesOf_mono {q : Sel} {j k : Nat} (h : j ≤ k) {n : Nat} (hn : n ∈ codesOf (q, j)) : n ∈ codesOf (q, k) := by
  unfold codesOf at *
  dsimp only at *
  split at hn
  · simp only [List.mem_map, List.mem_range] at hn ⊢
    obtain ⟨i, hi, rfl⟩ := hn
    exact ⟨i, by omega, rfl⟩
  · cases hn

theorem uniformOf_mono {q : Sel} {j k : Nat} (h : j ≤ k) {n : Nat} (hn : n ∈ uniformOf (q, j)) : n ∈ uniformOf (q, k) := by
  unfold uniformOf at *
  dsimp only at *
  split at hn
  · simp only [List.mem_map, List.mem_range] at hn ⊢
    obtain ⟨i, hi, rfl⟩ := hn
    exact ⟨i, by omega, rfl⟩
  · cases hn

theorem Workgroup.writeSel_main (w : Workgroup) (free : Nat) {d : Sel} (hd : ∀ n, d ≠ .s n) {c : Nat} (hc : regCode d = some c)
    (vals : List (Nat × List Word)) : w.writeSel free d vals = overList vals w fun w p =>
      overList p.2.zipIdx w fun w q => w.writeReg free p.1 (c + q.2) q.1 := by
  unfold Workgroup.writeSel
  split
  · next n => exact absurd rfl (hd n)
  · simp [hc]

/-- Lanes that write up to `k` words each touch the `k` registers of the destination. -/
theorem Touch.writeSel_upTo {ls : List Nat} {k : Nat} (w : Workgroup) (free : Nat) (d : Sel) (vals : List (Nat × List Word))
    (hl : ∀ p ∈ vals, p.1 ∈ ls ∧ p.2.length ≤ k) :
    Touch ls (· ∈ codesOf (d, k)) (· ∈ uniformOf (d, k)) w (w.writeSel free d vals) := by
  have hone : ∀ (w : Workgroup), ∀ p ∈ vals, Touch ls (· ∈ codesOf (d, k)) (· ∈ uniformOf (d, k)) w (w.writeSel free d [p]) := by
    intro w p hp
    obtain ⟨hmem, hle⟩ := hl p hp
    refine Touch.mono (Touch.writeSel (ls := ls) (k := p.2.length) w free d [p] fun q hq => ?_) (fun n => codesOf_mono hle)
      fun n => uniformOf_mono hle
    rw [List.mem_singleton.1 hq]
    exact ⟨hmem, rfl⟩
  by_cases hs : ∃ n, d = .s n
  · obtain ⟨n, rfl⟩ := hs
    cases hlast : vals.getLast? with
    | none =>
      have : w.writeSel free (.s n) vals = w := by
        unfold Workgroup.writeSel
        simp only [hlast]
      rw [this]
      exact .refl ..
    | some p =>
      have : w.writeSel free (.s n) vals = w.writeSel free (.s n) [p] := by
        unfold Workgroup.writeSel
        simp only [hlast]
        rfl
      rw [this]
      exact hone w p (List.mem_of_getLast? hlast)
  · have hd : ∀ n, d ≠ .s n := fun n h => hs ⟨n, h⟩
    cases hc : regCode d with
    | none =>
      have : w.writeSel free d vals = w := by
        unfold Workgroup.writeSel
        split
        · next n => exact absurd rfl (hd n)
        · simp [hc]
      rw [this]
      exact .refl ..
    | some c =>
      rw [Workgroup.writeSel_main w free hd hc]
      refine Touch.over vals (fun w p hp => ?_) w
      have := hone w p hp
      rwa [Workgroup.writeSel_main w free hd hc] at this

/-- What each lane then holds of its own words. -/
theorem Workgroup.reg_writeSel (w : Workgroup) (free : Nat) {d : Sel} {c : Nat} (hc : regCode d = some c) {ls : List Nat} (hn : ls.Nodup)
    (words : Nat → List Word) {l j : Nat} (hl : l ∈ ls) (hj : j < (words l).length) (hs : Settled w l (c + j)) :
    ((w.writeSel free d (ls.map fun l => (l, words l))).lane l).reg (c + j) = (words l).getD j 0 := by
  have hd : ∀ n, d ≠ .s n := by
    rintro n rfl
    cases hc
  rw [Workgroup.writeSel_main w free hd hc, reg_overLanes _ _ _ _ (by rw [List.map_map]; simpa [Function.comp_def] using hn) _ _ hs,
    find_lane, if_pos hl]
  dsimp only
  rw [if_pos (by omega), Nat.add_sub_cancel_left]

/-! ### Values in a latch -/

theorem packElems_mod_lt {w n : Nat} {l : List Nat} (h : w * l.length ≤ n) : packElems w l % 2 ^ n = packElems w l :=
  Nat.mod_eq_of_lt ((packElems_lt w l).trans_le (Nat.pow_le_pow_right (by decide) h))

/-- The elements of a result of at most 64 bits. -/
theorem elemAt_packRes {w : Nat} {rs : List FRes} (h : w * rs.length ≤ 64) (k : Nat) :
    elemAt w (packRes w rs).res.toNat k = ((rs.map (·.bits)).getD k 0) % 2 ^ w := by
  have hlt : (packRes w rs).res.toNat = packElems w (rs.map (·.bits)) := by
    change (BitVec.ofNat 64 (packElems w (rs.map (·.bits)))).toNat = _
    rw [BitVec.toNat_ofNat, packElems_mod_lt (by rwa [List.length_map])]
  rw [hlt, elemAt_packElems]

theorem getD_map_range {n k : Nat} (hk : k < n) (f : Nat → Nat) : ((List.range n).map f).getD k 0 = f k := by
  rw [List.getD_eq_getElem?_getD, List.getElem?_map, List.getElem?_range hk]
  rfl

/-! ### QNT -/

section
variable {s : State} {t : Nat} {g : Gang} {r : ClauseRun} {es : List ApprEntry} {nw : Bool} {d a b c : Sel}

/-- The word and the summary of a lane of QNT, of its six operands. -/
def qntOut (v : List Dword) : List Nat × FFlags × Nat × Nat :=
  let val (k : Nat) : Nat := (v.getD k 0).toNat
  let r := packRes 8 ((List.range 4).map fun k => qntByte (val 5) (val k) (val 4))
  ([r.res.toNat], r.flags, r.sat, 0)

/-- Lanes of E whose operands fail a check, of a list that pairs each lane with its operands. -/
theorem filter_pairs (ls : List Nat) (f : Nat → List Dword) (p : List Dword → Bool) :
    (ls.map fun l => (l, f l)).filter (fun x => p x.2) = (ls.filter fun l => p (f l)).map fun l => (l, f l) := by
  rw [List.filter_map]
  rfl

theorem map_fst_pairs (ls : List Nat) (f : Nat → List Dword) : (ls.map fun l => (l, f l)).map (·.1) = ls := by
  rw [List.map_map]
  exact List.map_id _

theorem qntBody_passes {e : Env} (h : e.ls.filter (fun l => !qntFmt (((e.opds l (quadSrc a ++ [.flt .f32 b, .int .u32 c]) 0 0).getD 5 0).toNat)) = []) :
    qntBody nw d a b c e = wideResult e nw d (e.ls.map fun l => (l, qntOut (e.opds l (quadSrc a ++ [.flt .f32 b, .int .u32 c]) 0 0))) := by
  have hvs := filter_pairs e.ls (fun l => e.opds l (quadSrc a ++ [.flt .f32 b, .int .u32 c]) 0 0) fun v => !qntFmt ((v.getD 5 0).toNat)
  rw [h] at hvs
  unfold qntBody
  dsimp only
  rw [hvs]
  refine congrArg (wideResult e nw d) ?_
  rw [List.map_map]
  rfl

theorem qntBody_fails {e : Env} {bad : List Nat}
    (h : e.ls.filter (fun l => !qntFmt (((e.opds l (quadSrc a ++ [.flt .f32 b, .int .u32 c]) 0 0).getD 5 0).toNat)) = bad) (hne : bad ≠ []) :
    qntBody nw d a b c e = e.trap 0x50 bad := by
  have hvs := filter_pairs e.ls (fun l => e.opds l (quadSrc a ++ [.flt .f32 b, .int .u32 c]) 0 0) fun v => !qntFmt ((v.getD 5 0).toNat)
  rw [h] at hvs
  obtain ⟨l, ls, rfl⟩ := List.exists_cons_of_ne_nil hne
  unfold qntBody
  dsimp only
  rw [hvs]
  exact congrArg (e.trap 0x50) (map_fst_pairs (l :: ls) _)

/-- The latch of QNT, which is its one word. -/
theorem latch_qntOut (v : List Dword) : BitVec.ofNat 64 (packElems 32 ((qntOut v).1.take 2)) =
    (packRes 8 ((List.range 4).map fun k => qntByte ((v.getD 5 0).toNat) ((v.getD k 0).toNat) ((v.getD 4 0).toNat))).res := by
  set q := packRes 8 ((List.range 4).map fun k => qntByte ((v.getD 5 0).toNat) ((v.getD k 0).toNat) ((v.getD 4 0).toNat)) with hq
  have hlt : q.res.toNat < 2 ^ 32 := by
    rw [hq]
    change (BitVec.ofNat 64 (packElems 8 _)).toNat < _
    rw [BitVec.toNat_ofNat]
    exact (Nat.mod_le _ _).trans_lt (packElems_lt 8 _)
  change BitVec.ofNat 64 (q.res.toNat % 2 ^ 32 + 2 ^ 32 * 0) = q.res
  rw [Nat.mod_eq_of_lt hlt, Nat.mul_zero, Nat.add_zero, BitVec.ofNat_toNat, BitVec.setWidth_eq]

/-- QNT whose format words pass. -/
theorem qnt_performed {m : Nat} (h : Ready s t g r (.qnt nw d (.v m) b c) es) :
    let x := fun l => operand s t g r es (quadSrc (.v m) ++ [.flt .f32 b, .int .u32 c]) l
    (execLanes g r).filter (fun l => !qntFmt (x l 5)) = [] →
    ∃ s' val, exec (.qnt nw d (.v m) b c) s = .next s' ∧ Performed s s' t g r (.qnt nw d (.v m) b c) ∧ FlagsKept s s' t ∧ LatchLeft s' t g r val ∧
      Holds (s.wg t) (s'.wg t) (execLanes g r) (dst nw d 1) val ∧
      ∀ l ∈ execLanes g r, ∀ k, k < 4 →
        let y := (scaledVal (fp32.decode (x l k)) (fp32.decode (x l 4))).1
        elemAt 8 (val l).toNat k = (if fmtB (x l 5) = 4 then toE4m3 (fmtRound (x l 5)) (fmtSat (x l 5)) y
          else quantInt8 (fmtRound (x l 5)) y).bits % 2 ^ 8 := by
  intro x hbad
  have hb := qntBody_passes (nw := nw) (d := d) (e := opEnv s t g r es) hbad
  obtain ⟨s', hs, hp, hfl, -, hlatch, hh⟩ := wideResult_performed h (body := qntBody nw d (.v m) b c) (k := 1) rfl rfl rfl
    (fun l => rfl) nofun (fun _ _ => rfl) hb
  simp only [latch_qntOut] at hlatch
  refine ⟨s', _, hs, hp, hfl, hlatch, ?_, fun l _ k hk => ?_⟩
  · cases nw with
    | true => trivial
    | false =>
      refine (hh rfl).holds (.inl rfl) fun l => ?_
      rw [← latch_qntOut]
      change [BitVec.ofNat 32 _] = [(BitVec.ofNat 64 (_ % 2 ^ 32 + 2 ^ 32 * 0)).setWidth 32]
      refine congrArg (fun z : Word => [z]) (BitVec.eq_of_toNat_eq ?_)
      simp only [BitVec.toNat_setWidth, BitVec.toNat_ofNat]
      omega
  · rw [elemAt_packRes (by simp)]
    rw [List.map_map, getD_map_range hk]
    change (qntByte (x l 5) (x l k) (x l 4)).bits % 2 ^ 8 = _
    unfold qntByte
    rfl

/-! ### DQNT -/

/-- The elements of a lane of DQNT, of its three operands. -/
def dqntRes (v : List Dword) : List FRes :=
  (List.range 4).map fun k => dqntElem ((v.getD 2 0).toNat) (bits ((v.getD 0 0).toNat) (8 * k) 8) ((v.getD 1 0).toNat)

/-- The words and the summary of a lane of DQNT. -/
def dqntOut (v : List Dword) : List Nat × FFlags × Nat × Nat :=
  (dqntWords ((v.getD 2 0).toNat) (dqntRes v), (packRes 32 (dqntRes v)).flags, 0, 0)

/-- The operands of DQNT. -/
def dqntOps (a b c : Sel) : List Opd := [.int .u32 a, .flt .f32 b, .int .u32 c]

theorem dqntBody_fails {e : Env} {bad : List Nat}
    (h : e.ls.filter (fun l => !dqntFmt (((e.opds l (dqntOps a b c) 0 0).getD 2 0).toNat)) = bad) (hne : bad ≠ []) :
    dqntBody nw d a b c e = e.trap 0x50 bad := by
  have hvs := filter_pairs e.ls (fun l => e.opds l (dqntOps a b c) 0 0) fun v => !dqntFmt ((v.getD 2 0).toNat)
  rw [h] at hvs
  obtain ⟨l, ls, rfl⟩ := List.exists_cons_of_ne_nil hne
  unfold dqntOps at hvs
  unfold dqntBody
  dsimp only
  rw [hvs]
  exact congrArg (e.trap 0x50) (map_fst_pairs (l :: ls) _)

section
variable {e : Env} {wide : List Nat} (hbad : e.ls.filter (fun l => !dqntFmt (((e.opds l (dqntOps a b c) 0 0).getD 2 0).toNat)) = [])
  (hwide : e.ls.filter (fun l => fmtB (((e.opds l (dqntOps a b c) 0 0).getD 2 0).toNat) == 0) = wide)
include hbad hwide

theorem dqntBody_misfits {cause : Nat} (hd : dqntDest e.w.vregs d = some cause) (hne : wide ≠ []) :
    dqntBody nw d a b c e = e.trap cause wide := by
  have hvs := filter_pairs e.ls (fun l => e.opds l (dqntOps a b c) 0 0) fun v => !dqntFmt ((v.getD 2 0).toNat)
  have hws := filter_pairs e.ls (fun l => e.opds l (dqntOps a b c) 0 0) fun v => fmtB ((v.getD 2 0).toNat) == 0
  rw [hbad] at hvs
  rw [hwide] at hws
  obtain ⟨l, ls, rfl⟩ := List.exists_cons_of_ne_nil hne
  unfold dqntOps at hvs hws
  unfold dqntBody
  dsimp only
  rw [hvs, hws, hd]
  exact congrArg (e.trap cause) (map_fst_pairs (l :: ls) _)

theorem dqntBody_passes (hd : dqntDest e.w.vregs d = none ∨ wide = []) :
    dqntBody nw d a b c e = wideResult e nw d (e.ls.map fun l => (l, dqntOut (e.opds l (dqntOps a b c) 0 0))) := by
  have hvs := filter_pairs e.ls (fun l => e.opds l (dqntOps a b c) 0 0) fun v => !dqntFmt ((v.getD 2 0).toNat)
  have hws := filter_pairs e.ls (fun l => e.opds l (dqntOps a b c) 0 0) fun v => fmtB ((v.getD 2 0).toNat) == 0
  rw [hbad] at hvs
  rw [hwide] at hws
  have hout : (e.ls.map fun l => (l, e.opds l (dqntOps a b c) 0 0)).map (fun p => (p.1, dqntOut p.2)) =
      e.ls.map fun l => (l, dqntOut (e.opds l (dqntOps a b c) 0 0)) := List.map_map
  rw [← hout]
  unfold dqntOps at hvs hws ⊢
  unfold dqntBody
  dsimp only
  rw [hvs, hws]
  rcases hd with hd | rfl
  · rw [hd]
    rfl
  · cases dqntDest e.w.vregs d <;> rfl

end

theorem length_dqntRes (v : List Dword) : (dqntRes v).length = 4 := rfl

/-- A lane of DQNT writes four words of FP32, or two words of two halves each. -/
theorem dqntOut_words (v : List Dword) (k : Nat) (hk : k < 4) :
    let f := (v.getD 2 0).toNat
    let res := (dqntElem f (elemAt 8 ((v.getD 0 0).toNat) k) ((v.getD 1 0).toNat)).bits
    (fmtB f = 0 → (dqntOut v).1.length = 4 ∧ (dqntOut v).1.getD k 0 = res) ∧
      (fmtB f ≠ 0 → (dqntOut v).1.length = 2 ∧ (dqntOut v).1.getD (k / 2) 0 < 2 ^ 32 ∧
        elemAt 16 ((dqntOut v).1.getD (k / 2) 0) (k % 2) = res % 2 ^ 16) := by
  intro f res
  have hcase : k = 0 ∨ k = 1 ∨ k = 2 ∨ k = 3 := by omega
  refine ⟨fun h => ?_, fun h => ?_⟩
  · have hw : (dqntOut v).1 = (dqntRes v).map (·.bits) := if_pos h
    rw [hw, List.length_map]
    refine ⟨rfl, ?_⟩
    obtain rfl | rfl | rfl | rfl := hcase <;> rfl
  · have hw : (dqntOut v).1 = (chunks 2 2 (dqntRes v)).map fun c => packElems 16 (c.map (·.bits)) := if_neg h
    rw [hw]
    refine ⟨rfl, ?_, ?_⟩
    · obtain rfl | rfl | rfl | rfl := hcase <;> exact packElems_lt 16 _
    · obtain rfl | rfl | rfl | rfl := hcase <;> exact elemAt_packElems 16 _ _

/-- The words of a latch of two. -/
theorem elemAt_latch (ws : List Nat) {k : Nat} (hk : k < 2) :
    elemAt 32 (BitVec.ofNat 64 (packElems 32 (ws.take 2))).toNat k = ws.getD k 0 % 2 ^ 32 := by
  have hlen : 32 * (ws.take 2).length ≤ 64 := by
    have := List.length_take_le 2 ws
    omega
  rw [BitVec.toNat_ofNat, packElems_mod_lt hlen, elemAt_packElems, List.getD_eq_getElem?_getD, List.getD_eq_getElem?_getD,
    List.getElem?_take_of_lt hk]

/-- The halves of the words of a latch of two. -/
theorem elemAt_latch_half {ws : List Nat} {k : Nat} (hk : k < 4) (hlt : ws.getD (k / 2) 0 < 2 ^ 32) :
    elemAt 16 (BitVec.ofNat 64 (packElems 32 (ws.take 2))).toNat k = elemAt 16 (ws.getD (k / 2) 0) (k % 2) := by
  rw [← elemAt_word (b := 16) (m := 2) (by decide), show k * 16 / 32 = k / 2 by omega]
  have h := elemAt_latch ws (k := k / 2) (by omega)
  rw [Nat.mod_eq_of_lt hlt] at h
  exact congrArg (fun x => elemAt 16 x (k % 2)) h

/-- The workgroup that several-word results leave. -/
def Workgroup.wideDone (w : Workgroup) (free : Nat) (nw : Bool) (d : Sel) (ls : List Nat) (out : Nat → List Nat × FFlags × Nat × Nat) : Workgroup :=
  let w1 := overList (ls.map fun l => (l, out l)) w fun w r => w.sumUp r.2.2.1 r.2.2.2.1 r.2.2.2.2
  if nw then w1 else w1.writeSel free d (ls.map fun l => (l, (out l).1.map (BitVec.ofNat 32)))

section
variable {w : Workgroup} {free : Nat} {ls : List Nat} {out : Nat → List Nat × FFlags × Nat × Nat} {k : Nat}

theorem Workgroup.sums_rest (w : Workgroup) (l : List (Nat × List Nat × FFlags × Nat × Nat)) :
    overList l w (fun w r => w.sumUp r.2.2.1 r.2.2.2.1 r.2.2.2.2) = { w with
      flags := (overList l w fun w r => w.sumUp r.2.2.1 r.2.2.2.1 r.2.2.2.2).flags
      satcnt := (overList l w fun w r => w.sumUp r.2.2.1 r.2.2.2.1 r.2.2.2.2).satcnt
      nanscore := (overList l w fun w r => w.sumUp r.2.2.1 r.2.2.2.1 r.2.2.2.2).nanscore } := by
  induction l generalizing w with
  | nil => rfl
  | cons a l ih => exact ih (w.sumUp a.2.2.1 a.2.2.2.1 a.2.2.2.2)

/-- It keeps all but the summary and the destination. -/
theorem Steps.wideDone (w : Workgroup) (free : Nat) (nw : Bool) (d : Sel) (hk : ∀ l ∈ ls, (out l).1.length ≤ k) :
    Steps w (w.wideDone free nw d ls out) (nwDst nw d k) := by
  have hsum := w.sums_rest (ls.map fun l => (l, out l))
  unfold Workgroup.wideDone
  dsimp only
  generalize (overList (ls.map fun l => (l, out l)) w fun w r => w.sumUp r.2.2.1 r.2.2.2.1 r.2.2.2.2) = w1 at hsum
  have hstart : Steps w w1 (nwDst nw d k) :=
    .of_same (by rw [hsum]) (by rw [hsum]) (.of_eq (by rw [hsum]) (by rw [hsum])) _
  cases nw with
  | true => exact hstart
  | false =>
    refine hstart.trans ?_
    have ht := Touch.writeSel_upTo (ls := ls) (k := k) w1 free d (ls.map fun l => (l, (out l).1.map (BitVec.ofNat 32))) fun p hp => by
      obtain ⟨l, hl, rfl⟩ := List.mem_map.1 hp
      exact ⟨hl, by rw [List.length_map]; exact hk l hl⟩
    refine ⟨ht.gangs, by rw [if_neg Bool.false_ne_true, ht.rest], fun l n hn => ht.regs l n (hn _ (List.mem_singleton.2 rfl)), fun l => ?_,
      fun c n hn => ht.uniform c n (hn _ (List.mem_singleton.2 rfl))⟩
    exact ⟨Workgroup.writeSel_p .., Workgroup.writeSel_cf .., by rw [if_neg Bool.false_ne_true, ht.lane l]⟩

/-- Each lane holds its own words. -/
theorem Workgroup.reg_wideDone (hn : ls.Nodup) {code l j : Nat} (hc : regCode d = some code) (hl : l ∈ ls) (hj : j < (out l).1.length)
    (hs : Settled w l (code + j)) : ((w.wideDone free false d ls out).lane l).reg (code + j) = BitVec.ofNat 32 ((out l).1.getD j 0) := by
  have hsum := w.sums_rest (ls.map fun l => (l, out l))
  unfold Workgroup.wideDone
  dsimp only
  generalize (overList (ls.map fun l => (l, out l)) w fun w r => w.sumUp r.2.2.1 r.2.2.2.1 r.2.2.2.2) = w1 at hsum
  rw [if_neg Bool.false_ne_true, Workgroup.reg_writeSel w1 free hc hn _ hl (by rwa [List.length_map]) (by rw [hsum]; exact hs)]
  rw [List.getD_eq_getElem?_getD, List.getD_eq_getElem?_getD, List.getElem?_map, List.getElem?_eq_getElem hj]
  rfl

end

/-- DQNT that its checks admit. -/
theorem dqnt_performed (h : Ready s t g r (.dqnt nw d a b c) es) :
    let i : Instr := .dqnt nw d a b c
    let x := fun l => operand s t g r es [.int .u32 a, .flt .f32 b, .int .u32 c] l
    let wide := (execLanes g r).filter fun l => fmtB (x l 2) == 0
    let fits := wide = [] ∨ ∃ n, d = .v n ∧ n % 4 = 0 ∧ n + 4 ≤ (s.wg t).vregs
    let res := fun l k => (dqntElem (x l 2) (elemAt 8 (x l 0) k) (x l 1)).bits
    (execLanes g r).filter (fun l => !dqntFmt (x l 2)) = [] → fits → ∃ s' val, exec i s = .next s' ∧
      Acted s s' t g r i (nwDst nw d (if wide = [] then 2 else 4)) ∧ LatchLeft s' t g r val ∧
      ∀ l ∈ execLanes g r,
        (∀ k, k < (if fmtB (x l 2) = 0 then 2 else 4) →
          elemAt (if fmtB (x l 2) = 0 then 32 else 16) (val l).toNat k = res l k % 2 ^ (if fmtB (x l 2) = 0 then 32 else 16)) ∧
        ∀ code, regCode d = some code → nw = false → ∀ k, k < 4 →
          if fmtB (x l 2) = 0 then
            Settled (s.wg t) l (code + k) → ((s'.wg t).lane l).reg (code + k) = BitVec.ofNat 32 (res l k)
          else
            Settled (s.wg t) l (code + k / 2) →
              elemAt 16 (((s'.wg t).lane l).reg (code + k / 2)).toNat (k % 2) = res l k % 2 ^ 16 := by
  intro i x wide fits res hbad hfits
  have hdest : dqntDest (opEnv s t g r es).w.vregs d = none ∨ wide = [] := by
    rcases hfits with hw | ⟨n, rfl, h4, hle⟩
    · exact .inr hw
    · refine .inl ?_
      unfold dqntDest
      dsimp only
      rw [if_neg (by omega)]
      exact if_neg (not_lt.2 hle)
  set out := fun l => dqntOut ((opEnv s t g r es).opds l (dqntOps a b c) 0 0) with hout
  have hb := (dqntBody_passes (nw := nw) (e := opEnv s t g r es) hbad rfl hdest).trans (wideResult_eq s t g r es nw d out)
  have hwords := fun l k hk => dqntOut_words ((opEnv s t g r es).opds l (dqntOps a b c) 0 0) k hk
  change ∀ l k, k < 4 → (fmtB (x l 2) = 0 → (out l).1.length = 4 ∧ (out l).1.getD k 0 = res l k) ∧ (fmtB (x l 2) ≠ 0 →
    (out l).1.length = 2 ∧ (out l).1.getD (k / 2) 0 < 2 ^ 32 ∧ elemAt 16 ((out l).1.getD (k / 2) 0) (k % 2) = res l k % 2 ^ 16) at hwords
  have hlen : ∀ l ∈ execLanes g r, (out l).1.length ≤ if wide = [] then 2 else 4 := by
    intro l hl
    by_cases hf : fmtB (x l 2) = 0
    · have hne : wide ≠ [] := List.ne_nil_of_mem (List.mem_filter.2 ⟨hl, by simp [hf]⟩)
      rw [if_neg hne, ((hwords l 0 (by decide)).1 hf).1]
    · rw [((hwords l 0 (by decide)).2 hf).1]
      split <;> decide
  set w2 := (s.wg t).wideDone s.free nw d (execLanes g r) out with hw2
  have hsteps : Steps (s.wg t) w2 (nwDst nw d (if wide = [] then 2 else 4)) := .wideDone _ s.free nw d hlen
  change dqntBody nw d a b c (opEnv s t g r es) = .ok ((taken s).updWg t fun _ => w2)
    ((execLanes g r).map fun l => (l, BitVec.ofNat 64 (packElems 32 ((out l).1.take 2)))) at hb
  have hself : ((taken s).updWg t fun _ => w2).wg t = w2 := State.wg_updWg_self ..
  have hg : (((taken s).updWg t fun _ => w2).wg t).gang? g.id = some g := by
    rw [hself]
    unfold Workgroup.gang?
    rw [hsteps.gangs]
    exact h.gang
  obtain ⟨s', hs, hact, hcl⟩ := laneIssue_moved h hb ((BodyMoved.start s t _).step (f := fun _ => w2) hsteps)
  rw [hself] at hcl
  refine ⟨s', fun l => BitVec.ofNat 64 (packElems 32 ((out l).1.take 2)), hs, hact, fun hwd g' r' hg' hr' l hh => ?_, fun l hl => ⟨fun k hk => ?_,
    fun code hcode hnw k hk => ?_⟩⟩
  · rw [laneIssue_latches h rfl hb hg hs hg' hr']
    exact latchRead_append_mkLatch hwd _ hh
  · by_cases hf : fmtB (x l 2) = 0
    · rw [if_pos hf] at hk ⊢
      dsimp only
      rw [elemAt_latch _ hk, ((hwords l k (by omega)).1 hf).2]
    · rw [if_neg hf] at hk ⊢
      obtain ⟨-, hlt, helem⟩ := (hwords l k hk).2 hf
      dsimp only
      rw [elemAt_latch_half hk hlt, helem]
  · subst hnw
    split
    · next hf =>
      obtain ⟨hlen4, hval⟩ := (hwords l k hk).1 hf
      intro hset
      rw [hcl.reg, hw2, Workgroup.reg_wideDone (ls := execLanes g r) (lanesOf_nodup ..) hcode hl (by rwa [hlen4]) hset, hval]
    · next hf =>
      obtain ⟨hlen2, hlt, helem⟩ := (hwords l k hk).2 hf
      intro hset
      rw [hcl.reg, hw2, Workgroup.reg_wideDone (ls := execLanes g r) (lanesOf_nodup ..) hcode hl (by rw [hlen2]; omega) hset, BitVec.toNat_ofNat,
        Nat.mod_eq_of_lt hlt, helem]

end

/-- Settles O11: format words that pass give the rounded products; others, and destinations that do not fit, trap. -/
theorem quantizeAndDequantize : Obligations.QuantizeAndDequantize := by
  unfold Obligations.QuantizeAndDequantize
  intro s t g r es nw d b c
  refine ⟨?_, ?_⟩
  · intro m i x bad h
    exact ⟨qnt_performed h, fun hne =>
      laneIssue_trapped (body := qntBody nw d (.v m) b c) h rfl (qntBody_fails (e := opEnv s t g r es) rfl hne)⟩
  intro a i x bad wide fits res h
  refine ⟨dqnt_performed h, fun hne => ?_, fun hbad hfits => ?_⟩
  · exact laneIssue_trapped (body := dqntBody nw d a b c) h rfl (dqntBody_fails (e := opEnv s t g r es) rfl hne)
  · have hne : wide ≠ [] := fun hw => hfits (.inl hw)
    refine laneIssue_trapped (body := dqntBody nw d a b c) h rfl (dqntBody_misfits (e := opEnv s t g r es) hbad rfl ?_ hne)
    unfold dqntDest
    split
    · next n =>
      by_cases h4 : n % 4 = 0
      · have hgt : n + 4 > (s.wg t).vregs := by
          by_contra hle
          exact hfits (.inr ⟨n, rfl, h4, by omega⟩)
        rw [if_neg (by omega), if_pos h4]
        exact if_pos hgt
      · rw [if_pos h4, if_neg h4]
    · rfl

end Sys2Proof.Machine
end

section
/-! SUPPORT. The collective matrix instructions (spec/07 R146, R151-R160): what queueing an operation in each quarter leaves, and the
statement about them. -/

namespace Sys2Proof.Machine

open Sys2Proof Sys2Proof.Safety

-- One proof at a time: side by side they need more threads than a check's memory holds.
set_option Elab.async false

/-! ### Operations put into queues -/

/-- Operations, each into the queue and the slot that it names, and made from what the slot held. -/
structure QueuedOps {α : Type} (w w' : Workgroup) (l : List α) (hq key : α → Nat) (o : α → Slot → MatOp) : Prop where
  rest : w' = { w with slots := w'.slots, mqueues := w'.mqueues }
  queue : ∀ p ∈ l, ∃ f, w'.mqueues.get (hq p) = w.mqueues.get (hq p) ++ [{ o p (w.slots.get (key p)) with spoiled := f }]
  slot : ∀ p ∈ l, w'.slots.get (key p) =
    (w.slots.get (key p)).issued (o p (w.slots.get (key p))).kind (o p (w.slots.get (key p))).fmt
  queueNe : ∀ n, (∀ p ∈ l, hq p ≠ n) → w'.mqueues.get n = w.mqueues.get n
  slotNe : ∀ k, (∀ p ∈ l, key p ≠ k) → w'.slots.get k = w.slots.get k

theorem Workgroup.mqueues_queueOp (w : Workgroup) (hq key : Nat) (o : MatOp) : (w.queueOp hq key o).mqueues =
    w.mqueues.upd hq fun l => l ++ [{ o with spoiled := o.kind != .mmaz && (w.slots.get key).poison }] := rfl

theorem Workgroup.slots_queueOp (w : Workgroup) (hq key : Nat) (o : MatOp) : (w.queueOp hq key o).slots =
    w.slots.upd key fun s => s.issued o.kind o.fmt := rfl

theorem QueuedOps.over {α : Type} {hq key : α → Nat} (o : α → Slot → MatOp) (l : List α) (hqn : (l.map hq).Nodup) (hkn : (l.map key).Nodup)
    (w : Workgroup) :
    QueuedOps w (overList l w fun w p => w.queueOp (hq p) (key p) (o p (w.slots.get (key p)))) l hq key o := by
  induction l generalizing w with
  | nil => exact ⟨rfl, nofun, nofun, fun _ _ => rfl, fun _ _ => rfl⟩
  | cons a l ih =>
    obtain ⟨ha, hqn⟩ := List.nodup_cons.1 hqn
    obtain ⟨hb, hkn⟩ := List.nodup_cons.1 hkn
    set w1 := w.queueOp (hq a) (key a) (o a (w.slots.get (key a))) with hw1
    have h := ih hqn hkn w1
    change QueuedOps w (overList l w1 fun w p => w.queueOp (hq p) (key p) (o p (w.slots.get (key p)))) (a :: l) hq key o
    generalize (overList l w1 fun w p => w.queueOp (hq p) (key p) (o p (w.slots.get (key p)))) = w' at h
    have hqne : ∀ p ∈ l, hq p ≠ hq a := fun p hp he => ha (he ▸ List.mem_map_of_mem hp)
    have hkne : ∀ p ∈ l, key p ≠ key a := fun p hp he => hb (he ▸ List.mem_map_of_mem hp)
    have hqget : ∀ n, n ≠ hq a → w1.mqueues.get n = w.mqueues.get n := fun n hn => by
      rw [hw1, Workgroup.mqueues_queueOp, SMap.get_upd_ne _ _ hn]
    have hkget : ∀ n, n ≠ key a → w1.slots.get n = w.slots.get n := fun n hn => by
      rw [hw1, Workgroup.slots_queueOp, SMap.get_upd_ne _ _ hn]
    refine ⟨by rw [h.rest]; rfl, fun p hp => ?_, fun p hp => ?_, fun n hn => ?_, fun k hk => ?_⟩
    · rcases List.mem_cons.1 hp with rfl | hp
      · exact ⟨_, (h.queueNe _ hqne).trans (by rw [hw1, Workgroup.mqueues_queueOp, SMap.get_upd_self])⟩
      · obtain ⟨f, hf⟩ := h.queue p hp
        exact ⟨f, hf.trans (by rw [hqget _ (hqne p hp), hkget _ (hkne p hp)])⟩
    · rcases List.mem_cons.1 hp with rfl | hp
      · exact (h.slotNe _ hkne).trans (by rw [hw1, Workgroup.slots_queueOp, SMap.get_upd_self])
      · exact (h.slot p hp).trans (by rw [hkget _ (hkne p hp)])
    · exact (h.queueNe n fun p hp => hn p (List.mem_cons_of_mem _ hp)).trans (hqget n (hn a (by simp)).symm)
    · exact (h.slotNe k fun p hp => hk p (List.mem_cons_of_mem _ hp)).trans (hkget k (hk a (by simp)).symm)

/-! ### What stands beside the queues -/

/-- Gangs, the window, registers, queues, slots and regions stand. -/
structure Beside (w w' : Workgroup) : Prop where
  steps : Steps w w' []
  queues : w'.mqueues = w.mqueues
  slots : w'.slots = w.slots
  opened : ∀ l, (w'.lane l).opened = (w.lane l).opened

theorem Beside.refl (w : Workgroup) : Beside w w := ⟨.of_same rfl rfl (.refl w) [], rfl, rfl, fun _ => rfl⟩

theorem Beside.trans {a b c : Workgroup} (h : Beside a b) (k : Beside b c) : Beside a c :=
  ⟨h.steps.trans k.steps, k.queues.trans h.queues, k.slots.trans h.slots, fun l => (k.opened l).trans (h.opened l)⟩

theorem Beside.launched (w : Workgroup) (ls : List Nat) (a : LaunchArgs) : Beside w (w.launched ls a) := by
  refine ⟨.launched [], ?_, ?_, fun l => ?_⟩ <;> rw [Workgroup.launched_rest]
  rfl

theorem Beside.endInterval (w : Workgroup) (ls : List Nat) : Beside w (w.endInterval ls) := by
  refine ⟨.endInterval w ls [], ?_, ?_, fun l => ?_⟩
  · rw [Workgroup.endInterval_rest]
  · rw [Workgroup.endInterval_rest]
  · rw [Workgroup.lane_endInterval_rest]

/-- Of a state, workgroup `t` alone has changed, and that beside its queues. -/
structure BesideAt (s s' : State) (t : Nat) : Prop where
  rest : s' = { s with wgs := s'.wgs }
  others : ∀ u, u ≠ t → s'.wg u = s.wg u
  beside : Beside (s.wg t) (s'.wg t)

theorem BesideAt.refl (s : State) (t : Nat) : BesideAt s s t := ⟨rfl, fun _ _ => rfl, .refl _⟩

theorem BesideAt.trans {a b c : State} {t : Nat} (h : BesideAt a b t) (k : BesideAt b c t) : BesideAt a c t :=
  ⟨by rw [k.rest, h.rest], fun u hu => (k.others u hu).trans (h.others u hu), h.beside.trans k.beside⟩

theorem BesideAt.updWg (s : State) (t : Nat) {f : Workgroup → Workgroup} (h : ∀ w, Beside w (f w)) : BesideAt s (s.updWg t f) t :=
  ⟨rfl, fun _ hu => State.wg_updWg_ne _ _ hu, by rw [State.wg_updWg_self]; exact h _⟩

/-! ### A collective instruction past its checks -/

/-- The operation that quarter `p.1`, the `p.2`-th of an instruction, queues. -/
def matOpOf (kind : MatKind) (c first : Nat) (p : QueueReq × Nat) : MatOp := { (default : MatOp) with
  id := first + p.2, kind := kind, slot := c, fmt := matFmt p.1.x.fmt, a := p.1.a.lines, b := p.1.b.lines
  aLeft := p.1.a.left, bLeft := p.1.b.left + p.1.columns.length, aCol := p.1.a.col, bCol := p.1.b.col, live := p.1.x.ms.map fun l => posOf l % 8
  sa := p.1.sa, sb := p.1.sb }

/-- A workgroup that has queued the operations of an instruction. -/
def Workgroup.queueAll (w : Workgroup) (kind : MatKind) (c first : Nat) (rs : List QueueReq) : Workgroup :=
  overList rs.zipIdx { w with nextOp := first + rs.length } fun w p => w.queueOp p.1.x.hq p.1.x.key (matOpOf kind c first p)

/-- The reads of operands on one path go into flight, where there are any. -/
def Env.launchReads (e : Env) (chk : Bool) (as : List LaneAcc) (s : State) (p : Path) (ls : List Nat) (tys : List Nat) (r : List MatRead) : State :=
  if ls = [] ∨ r = [] then s else
  s.launch e.t ls (some p) (effective .relaxed .crew tys).1 (effective .relaxed .crew tys).2 (tys.contains 2) (if p = .dm then chk else true)
    (.matread r) none (if p = .dm then usedOf as else {})

theorem BesideAt.launchReads (e : Env) (chk : Bool) (as : List LaneAcc) (s : State) (p : Path) (ls : List Nat) (tys : List Nat)
    (r : List MatRead) : BesideAt s (e.launchReads chk as s p ls tys r) e.t := by
  unfold Env.launchReads
  split
  · exact .refl ..
  · have h := State.launch_eq s e.t ls {
      path := some p, ord := (effective .relaxed .crew tys).1, scope := (effective .relaxed .crew tys).2, dev := tys.contains 2
      checked := if p = .dm then chk else true, op := .matread r, stat := none, used := if p = .dm then usedOf as else {}, again := none }
    dsimp only at h
    rw [h]
    exact .updWg s e.t (f := fun w => w.launched ls _) fun w => .launched w ls _

theorem matIssue_queues {e : Env} {kind : MatKind} {c : Nat} {rs : List QueueReq} {tys : List Nat} {chk : Bool} {dev : List RaceAcc}
    {as : List LaneAcc} {s0 : State} (hr : e.matRange rs = none) (hf : e.fullQueues = []) (hc : e.fullCounters rs = [])
    (hrace : e.race false (e.s.spadRaces (e.operandAccs rs) 4 ++ dev) = .ok s0) :
    ∃ b, e.matIssue kind c rs tys chk dev as = .ok (b.closeE e) [] ∧
      BesideAt (s0.updWg e.t fun w => w.queueAll kind c e.w.nextOp rs) b e.t := by
  have hlaunch : ∀ r1 r2 r3, BesideAt (s0.updWg e.t fun w => w.queueAll kind c e.w.nextOp rs)
      (e.launchReads chk as (e.launchReads chk as (e.launchReads chk as (s0.updWg e.t fun w => w.queueAll kind c e.w.nextOp rs) .sp
        (operandLanes rs false) [] r1) .cl (operandLanes rs true) [] r2) .dm (e.columnLanes rs) tys r3) e.t := fun r1 r2 r3 =>
    ((BesideAt.launchReads ..).trans (.launchReads ..)).trans (.launchReads ..)
  unfold Env.matIssue
  rw [hr, hf, hc]
  dsimp only
  rw [hrace]
  refine ⟨_, rfl, ?_⟩
  split
  · exact (hlaunch _ _ _).trans (.updWg _ e.t fun w => .endInterval w e.ls)
  · exact hlaunch _ _ _

/-! ### What an instruction has queued -/

theorem Slot.owned_issued (x : Slot) (kind : MatKind) (f : MatFmt) : (x.issued kind f).owned = true := by
  cases kind <;> rfl

/-- The mode that an operation gives its slot. -/
def MatKind.slotMode : MatKind → SlotMode
  | .mmax => .scaled
  | .mmafin => .none
  | _ => .unscaled

theorem Slot.mode_issued (x : Slot) (kind : MatKind) (f : MatFmt) : (x.issued kind f).mode = kind.slotMode := by
  cases kind <;> rfl

/-- From `w` on, each of the quarters `qs` has queued an operation of a kind on slot `c`, and owns it. -/
structure QuartersQueue (w w' : Workgroup) (kind : MatKind) (c : Nat) (qs : List QuarterIssue) : Prop where
  queueNe : ∀ n, (∀ x ∈ qs, x.hq ≠ n) → w'.mqueues.get n = w.mqueues.get n
  slotNe : ∀ k, (∀ x ∈ qs, x.key ≠ k) → w'.slots.get k = w.slots.get k
  queue : ∀ x ∈ qs, ∃ o, w'.mqueues.get x.hq = w.mqueues.get x.hq ++ [o] ∧ o.kind = kind ∧ o.slot = c ∧ o.started = false ∧
    (kind ≠ .mmafin → o.fmt = matFmt x.fmt)
  slot : ∀ x ∈ qs, ∃ f, w'.slots.get x.key = (w.slots.get x.key).issued kind f

theorem QuartersQueue.of_ops {α : Type} {w w' : Workgroup} {l : List α} {kind : MatKind} {c : Nat} {x : α → QuarterIssue}
    {o : α → Slot → MatOp} (h : QueuedOps w w' l (fun p => (x p).hq) (fun p => (x p).key) o)
    (ho : ∀ p sl, (o p sl).kind = kind ∧ (o p sl).slot = c ∧ (o p sl).started = false ∧ (kind ≠ .mmafin → (o p sl).fmt = matFmt (x p).fmt)) :
    QuartersQueue w w' kind c (l.map x) where
  queueNe n hn := h.queueNe n fun p hp => hn _ (List.mem_map_of_mem hp)
  slotNe k hk := h.slotNe k fun p hp => hk _ (List.mem_map_of_mem hp)
  queue y hy := by
    obtain ⟨p, hp, rfl⟩ := List.mem_map.1 hy
    obtain ⟨f, hf⟩ := h.queue p hp
    obtain ⟨h1, h2, h3, h4⟩ := ho p (w.slots.get (x p).key)
    exact ⟨_, hf, h1, h2, h3, h4⟩
  slot y hy := by
    obtain ⟨p, hp, rfl⟩ := List.mem_map.1 hy
    exact ⟨_, (h.slot p hp).trans (by rw [(ho p (w.slots.get (x p).key)).1])⟩

theorem QuartersQueue.congr {w w1 w' w1' : Workgroup} {kind : MatKind} {c : Nat} {qs : List QuarterIssue}
    (h : QuartersQueue w w' kind c qs) (hq : w1.mqueues = w.mqueues) (hs : w1.slots = w.slots) (hq' : w1'.mqueues = w'.mqueues)
    (hs' : w1'.slots = w'.slots) : QuartersQueue w1 w1' kind c qs :=
  ⟨by rw [hq, hq']; exact h.queueNe, by rw [hs, hs']; exact h.slotNe, by rw [hq, hq']; exact h.queue, by rw [hs, hs']; exact h.slot⟩

/-- What the body of a collective instruction leaves, but for the regions that it closes. -/
structure QueuesAt (s b : State) (t : Nat) (kind : MatKind) (c : Nat) (qs : List QuarterIssue) : Prop where
  agenda : b.agenda = s.agenda.tail
  others : ∀ u, u ≠ t → b.wg u = s.wg u
  steps : Steps (s.wg t) (b.wg t) []
  opened : ∀ l, ((b.wg t).lane l).opened = ((s.wg t).lane l).opened
  quarters : QuartersQueue (s.wg t) (b.wg t) kind c qs

section
variable {s : State} {t : Nat} {g : Gang} {r : ClauseRun} {i : Instr} {es : List ApprEntry} {kind : MatKind} {c : Nat}

/-- Closed regions stay closed where an instruction takes what it pops, and regions of other lanes stand. -/
theorem State.opened_takePops (s : State) (e : Env) (i : Instr) {l : Nat} (h : ((s.wg e.t).lane l).opened = false) :
    (((s.takePops e i).wg e.t).lane l).opened = false := by
  by_cases hl : l ∈ e.ls
  · unfold State.takePops
    dsimp only
    split
    · exact h
    · split
      · rw [State.wg_updWg_self, Workgroup.lane_closeRegion, if_pos hl]
      · exact h
  · obtain ⟨-, -, -, hout, -⟩ := State.takePops_kept s e i
    rw [hout l hl]
    exact h

/-- The regions that an instruction leaves closed are closed, and those of lanes outside E stand. -/
theorem laneIssue_regions (h : Ready s t g r i es) {body : Env → Res} {s1 s' : State} {vals : List (Nat × Dword)}
    (hb : body (opEnv s t g r es) = .ok s1 vals) (hs : laneIssue i body s = .next s') (l : Nat) :
    (((s1.wg t).lane l).opened = false → ((s'.wg t).lane l).opened = false) ∧
      (l ∉ execLanes g r → ((s'.wg t).lane l).opened = ((s1.wg t).lane l).opened) := by
  have hlk : (opEnv s t g r es).holders = [] := Env.holders_nil (e := opEnv s t g r es) h.unlocked
  rw [laneIssue_ready h, ← opEnv, hb, State.settle_ok' hlk] at hs
  set s2 := s1.updWg t fun w => w with hs2
  have hwg : s2.wg t = s1.wg t := State.wg_updWg_self ..
  obtain ⟨f, -, hadv⟩ := State.advance_frame (s := s2.takePops (opEnv s t g r es) i) (t := t) (g := g) (i := i) h.plain h.within vals
  change Host.Outcome.next (((s2.takePops (opEnv s t g r es) i).advance t g.id i r vals).spent s.free) = _ at hs
  rw [hadv] at hs
  cases hs
  rw [State.wg_spent, State.updGang, State.wg_updWg_self]
  change (_ → (((s2.takePops (opEnv s t g r es) i).wg t).lane l).opened = false) ∧
    (_ → (((s2.takePops (opEnv s t g r es) i).wg t).lane l).opened = _)
  rw [← hwg]
  obtain ⟨-, -, -, hout, -⟩ := State.takePops_kept s2 (opEnv s t g r es) i
  exact ⟨fun hc => s2.opened_takePops (opEnv s t g r es) i hc, fun hl => congrArg Lane.opened (hout l hl)⟩

/-- An instruction that queues operations goes on. -/
theorem laneIssue_queues (h : Ready s t g r i es) {body : Env → Res} {b : State} {qs : List QuarterIssue}
    (hb : body (opEnv s t g r es) = .ok (b.closeE (opEnv s t g r es)) []) (hq : QueuesAt s b t kind c qs) :
    ∃ s', laneIssue i body s = .next s' ∧ s'.mem = b.mem ∧ WentOn s' t g r i.len ∧ RegsKept s s' t [] ∧ WinKept s s' ∧
      s'.agenda = s.agenda.tail ∧
      (∀ l, l ∉ execLanes g r → ((s'.wg t).lane l).opened = ((s.wg t).lane l).opened) ∧
      (∀ l ∈ execLanes g r, ((s'.wg t).lane l).opened = false) ∧ (∀ u, u ≠ t → s'.wg u = s.wg u) ∧
      (∀ hq, (∀ x ∈ qs, x.hq ≠ hq) → (s'.wg t).mqueues.get hq = (s.wg t).mqueues.get hq) ∧
      (∀ k, (∀ x ∈ qs, x.key ≠ k) → (s'.wg t).slots.get k = (s.wg t).slots.get k) ∧
      ∀ x ∈ qs, (∃ o, (s'.wg t).mqueues.get x.hq = (s.wg t).mqueues.get x.hq ++ [o] ∧ o.kind = kind ∧ o.slot = c ∧
        o.started = false ∧ (kind ≠ .mmafin → o.fmt = matFmt x.fmt)) ∧
        ((s'.wg t).slots.get x.key).owned = true ∧
        ((s'.wg t).slots.get x.key).mode = kind.slotMode := by
  set b1 := b.closeE (opEnv s t g r es) with hb1
  have hwg1 : b1.wg t = (b.wg t).closeRegion (execLanes g r) := State.wg_updWg_self ..
  have hsteps : Steps (s.wg t) (b1.wg t) [] := hwg1 ▸ hq.steps.trans (.closeRegion _ _ [])
  have hg : (b1.wg t).gang? g.id = some g := by
    unfold Workgroup.gang?
    rw [hsteps.gangs]
    exact h.gang
  obtain ⟨s', hs, hwent, hcl, hrest, hothers⟩ := laneIssue_closed h hb hg
  have hregions := laneIssue_regions h hb hs
  have hother : ∀ u, u ≠ t → s'.wg u = s.wg u := fun u hu =>
    (hothers u hu).trans ((State.wg_updWg_ne _ _ hu).trans (hq.others u hu))
  have hquarters : QuartersQueue (s.wg t) (s'.wg t) kind c qs := by
    refine hq.quarters.congr rfl rfl ?_ ?_ <;> rw [hcl.rest, hwg1, Workgroup.closeRegion_rest]
  refine ⟨s', hs, by rw [hrest]; rfl, hwent, ⟨fun l n hn => ?_, fun l => ?_, fun k n hn => ?_⟩, fun u y => ?_, by rw [hrest]; exact hq.agenda,
    fun l hl => ?_, fun l hl => ?_, hother, hquarters.queueNe, hquarters.slotNe, fun x hx => ⟨hquarters.queue x hx, ?_, ?_⟩⟩
  · rw [hcl.reg, hsteps.regs.regs l n hn]
  · rw [hcl.lane]
    exact hsteps.regs.flags l
  · rw [hcl.crew]
    exact hsteps.regs.uniform k n hn
  · by_cases hu : u = t
    · subst hu
      rw [hcl.rest]
      exact congrArg (fun m => SMap.get m y) hsteps.win
    · rw [hother u hu]
  · rw [(hregions l).2 hl, hwg1, Workgroup.lane_closeRegion, if_neg hl, hq.opened]
  · refine (hregions l).1 ?_
    rw [hwg1, Workgroup.lane_closeRegion, if_pos hl]
  · obtain ⟨f, hf⟩ := hquarters.slot x hx
    rw [hf, Slot.owned_issued]
  · obtain ⟨f, hf⟩ := hquarters.slot x hx
    rw [hf, Slot.mode_issued]

/-! ### MMA, MMAS, MMAZ, MMAX, MMAM and MMAFIN -/

theorem Env.nodup_matQuarters (e : Env) (c : Nat) (words : List (Nat × Nat)) :
    ((e.matQuarters c words).map (·.hq)).Nodup ∧ ((e.matQuarters c words).map (·.key)).Nodup := by
  have hq : (e.matQuarters c words).map (·.hq) = (e.quarters.map (·.1)).map (hqOf e.g.hset) := by
    unfold Env.matQuarters
    rw [List.map_map, List.map_map]
    rfl
  have hk : (e.matQuarters c words).map (·.key) = (e.quarters.map (·.1)).map fun q => slotKey e.g.hset q c := by
    unfold Env.matQuarters
    rw [List.map_map, List.map_map]
    rfl
  rw [hq, hk]
  refine ⟨e.nodup_quarters.map fun a b hab => ?_, e.nodup_quarters.map fun a b hab => slotKey_injective hab⟩
  unfold hqOf at hab
  omega

theorem map_zipIdx_fst {α β : Type} (l : List α) (f : α → β) : l.zipIdx.map (fun p => f p.1) = l.map f := by
  have h := List.map_map (f := Prod.fst) (g := f) (l := l.zipIdx)
  rw [List.zipIdx_map_fst] at h
  exact h.symm

/-- The operations of an instruction past its checks, which have left state `s1`, are queued. -/
theorem queuesAt_matIssue {s1 s0 b : State} {rs : List QueueReq} {first : Nat} (hagenda : s1.agenda = s.agenda.tail)
    (hwg : ∀ u, s1.wg u = s.wg u) (hrace : RaceNoted s1 s0 t)
    (hn : ((rs.map (·.x)).map (·.hq)).Nodup ∧ ((rs.map (·.x)).map (·.key)).Nodup)
    (hb : BesideAt (s0.updWg t fun w => w.queueAll kind c first rs) b t) :
    b.mem = s1.mem ∧ QueuesAt s b t kind c (rs.map (·.x)) := by
  obtain ⟨hnq, hnk⟩ := hn
  rw [List.map_map] at hnq hnk
  have hself : (s0.updWg t fun w => w.queueAll kind c first rs).wg t = (s0.wg t).queueAll kind c first rs := State.wg_updWg_self ..
  have hops := QueuedOps.over (hq := fun p : QueueReq × Nat => p.1.x.hq) (key := fun p => p.1.x.key) (fun p _ => matOpOf kind c first p)
    rs.zipIdx (by rw [map_zipIdx_fst rs fun q => q.x.hq]; exact hnq) (by rw [map_zipIdx_fst rs fun q => q.x.key]; exact hnk)
    { s0.wg t with nextOp := first + rs.length }
  change QueuedOps _ ((s0.wg t).queueAll kind c first rs) _ _ _ _ at hops
  have hquarters := QuartersQueue.of_ops (x := fun p : QueueReq × Nat => p.1.x) (kind := kind) (c := c) hops fun p _ => ⟨rfl, rfl, rfl, fun _ => rfl⟩
  rw [map_zipIdx_fst rs fun q => q.x] at hquarters
  have hmid : Steps (s.wg t) ((s0.wg t).queueAll kind c first rs) [] := by
    refine .of_same ?_ ?_ (.of_eq ?_ ?_) [] <;> rw [hops.rest] <;> dsimp only <;> rw [hrace.wg, hwg]
  have hbeside := hb.beside
  rw [hself] at hbeside
  refine ⟨?_, ?_, fun u hu => ?_, hmid.trans hbeside.steps, fun l => ?_, ?_⟩
  · rw [hb.rest]
    change s0.mem = _
    rw [hrace.rest]
  · rw [hb.rest]
    change s0.agenda = _
    rw [hrace.rest]
    exact hagenda
  · rw [hb.others u hu, State.wg_updWg_ne _ _ hu, hrace.others u hu, hwg]
  · rw [hbeside.opened, hops.rest]
    change ((s0.wg t).lane l).opened = _
    rw [hrace.wg, hwg]
    rfl
  · refine hquarters.congr ?_ ?_ hbeside.queues hbeside.slots
    · change _ = (s0.wg t).mqueues
      rw [hrace.wg, hwg]
    · change _ = (s0.wg t).slots
      rw [hrace.wg, hwg]

theorem matBody_issues {e : Env} {a b : MOperand} {fmt : Sel} {scales : List Sel} (hls : e.ls ≠ [])
    (hv : e.matVote (kind == .mmax) c (e.fmtWords fmt) (refuseOf kind) = none)
    (hbad : ∀ x ∈ e.matQuarters c (e.fmtWords fmt), e.matBad a x = false ∧ e.matBad b x = false) :
    matBody kind c a b fmt scales e =
      e.matIssue kind c (e.queueReqs a b fmt scales (e.matQuarters c (e.fmtWords fmt))) [] false [] := by
  have hnone : (e.matQuarters c (e.fmtWords fmt)).filter (fun x => e.matBad a x || e.matBad b x) = [] :=
    List.filter_eq_nil_iff.2 fun x hx => by simp [hbad x hx]
  unfold matBody
  split
  · next h => exact absurd h hls
  · dsimp only
    rw [hv, hnone]

theorem mmamBody_issues {e : Env} {a : MOperand} {fmt x1 : Sel} {rcd : Nat} {s1 : State} {as : List LaneAcc} (hls : e.ls ≠ [])
    (hv : e.matVote false c (e.fmtWords fmt) refuseMma = none)
    (hbad : ∀ x ∈ e.matQuarters c (e.fmtWords fmt), e.matBad a x = false)
    (hacc : e.s.access e.t e.fpc e.run.pend colSpec true false (e.ls.flatMap fun l =>
      columnReqs rcd l (((e.opds l [.int .u32 fmt, .int .u32 x1] 0 0).getD 1 0).toNat)) = .ok s1 as) :
    mmamBody c a fmt x1 rcd e = ({ e with s := s1 } : Env).matIssue .mmam c
      (({ e with s := s1 } : Env).columnReqsOf a (e.matQuarters c (e.fmtWords fmt)) as) (typesOf as)
      (as.any fun k => !(raceAccs k).isEmpty) (as.flatMap raceAccs) as := by
  have hnone : (e.matQuarters c (e.fmtWords fmt)).filter (fun x => e.matBad a x) = [] :=
    List.filter_eq_nil_iff.2 fun x hx => by simp [hbad x hx]
  unfold mmamBody
  split
  · next h => exact absurd h hls
  · dsimp only
    rw [hv, hnone]
    dsimp only
    rw [hacc]

/-- The format words of the lanes of E. -/
theorem fmtWords_opEnv (fmt : Sel) : (opEnv s t g r es).fmtWords fmt =
    (execLanes g r).map fun l => (l, operand s t g r es [.int .u32 fmt] l 0) := by
  unfold Env.fmtWords
  exact List.map_congr_left fun l _ => by rw [int32_toNat_operand]

/-- The workgroup that MMAFIN leaves, but for the regions that it closes. -/
def Workgroup.finishSlots (w : Workgroup) (h c first : Nat) (ps : List (Nat × List Nat)) : Workgroup :=
  overList ps.zipIdx { w with nextOp := first + ps.length } fun w p =>
    w.queueOp (hqOf h p.1.1) (slotKey h p.1.1 c) { (default : MatOp) with
      id := first + p.2, kind := .mmafin, slot := c
      fmt := { (default : MatFmt) with
        acc := (w.slots.get (slotKey h p.1.1 c)).accf, round := (w.slots.get (slotKey h p.1.1 c)).round.getD .rne } }

theorem mmafinBody_queues {e : Env} (h : e.fullQueues = []) :
    mmafinBody c e = .ok ((e.s.updWg e.t fun w => w.finishSlots e.g.hset c e.w.nextOp e.quarters).closeE e) [] := by
  unfold mmafinBody
  rw [h]
  rfl

theorem queuesAt_mmafin : QueuesAt s ((taken s).updWg t fun w => w.finishSlots g.hset c (s.wg t).nextOp (opEnv s t g r es).quarters) t
    .mmafin c ((opEnv s t g r es).matQuarters c []) := by
  set ps := (opEnv s t g r es).quarters with hps
  set w1 := (s.wg t).finishSlots g.hset c (s.wg t).nextOp ps with hw1
  have hself : ((taken s).updWg t fun w => w.finishSlots g.hset c (s.wg t).nextOp ps).wg t = w1 := State.wg_updWg_self ..
  obtain ⟨hnq, hnk⟩ := (opEnv s t g r es).nodup_matQuarters c []
  unfold Env.matQuarters at hnq hnk
  rw [List.map_map] at hnq hnk
  have hops := QueuedOps.over (hq := fun p : (Nat × List Nat) × Nat => hqOf g.hset p.1.1) (key := fun p => slotKey g.hset p.1.1 c)
    (fun p sl => { (default : MatOp) with
      id := (s.wg t).nextOp + p.2, kind := .mmafin, slot := c
      fmt := { (default : MatFmt) with acc := sl.accf, round := sl.round.getD .rne } }) ps.zipIdx
    (by rw [map_zipIdx_fst ps fun q => hqOf g.hset q.1]; exact hnq) (by rw [map_zipIdx_fst ps fun q => slotKey g.hset q.1 c]; exact hnk)
    { s.wg t with nextOp := (s.wg t).nextOp + ps.length }
  change QueuedOps _ w1 _ _ _ _ at hops
  have hquarters := QuartersQueue.of_ops (kind := .mmafin) (c := c) (x := fun p : (Nat × List Nat) × Nat =>
    { q := p.1.1, ms := p.1.2, fmt := 0, key := slotKey g.hset p.1.1 c, hq := hqOf g.hset p.1.1 }) hops
    fun p _ => ⟨rfl, rfl, rfl, fun h => absurd rfl h⟩
  rw [map_zipIdx_fst ps fun q => ({ q := q.1, ms := q.2, fmt := 0, key := slotKey g.hset q.1 c, hq := hqOf g.hset q.1 } : QuarterIssue)] at hquarters
  refine ⟨rfl, fun u hu => State.wg_updWg_ne _ _ hu, ?_, fun l => ?_, ?_⟩ <;> rw [hself]
  · refine .of_same ?_ ?_ (.of_eq ?_ ?_) [] <;> rw [hops.rest]
  · rw [hops.rest]
    rfl
  · exact hquarters.congr rfl rfl rfl rfl

end

/-- MMA, MMAS, MMAZ and MMAX, whichever of the four. -/
theorem register_queues (s : State) (t : Nat) (g : Gang) (r : ClauseRun) (es : List ApprEntry) (c : Nat) (a b : MOperand) (fmt : Sel)
    (kind : MatKind) (i : Instr) (scales : List Sel) :
    let e := opEnv s t g r es
    let ls := execLanes g r
    let words := ls.map fun l => (l, operand s t g r es [.int .u32 fmt] l 0)
    let qs := e.matQuarters c words
    Ready s t g r i es → ls ≠ [] → e.matVote (kind == .mmax) c words (refuseOf kind) = none →
    (∀ x ∈ qs, e.matBad a x = false ∧ e.matBad b x = false) →
    e.matRange (e.queueReqs a b fmt scales qs) = none → e.fullQueues = [] → e.fullCounters (e.queueReqs a b fmt scales qs) = [] →
    (∃ s0, e.race false (e.s.spadRaces (e.operandAccs (e.queueReqs a b fmt scales qs)) 4) = .ok s0) →
    ∃ k, matBody kind c a b fmt scales e = .ok (k.closeE e) [] ∧ k.mem = s.mem ∧ QueuesAt s k t kind c qs := by
  intro e ls words qs h hls hv hbad hrange hfull hcount hrace
  obtain ⟨s0, hrace⟩ := hrace
  have hwords : e.fmtWords fmt = words := fmtWords_opEnv fmt
  have hb := matBody_issues (kind := kind) (c := c) (a := a) (b := b) (scales := scales) hls (hwords ▸ hv) (hwords ▸ hbad)
  rw [hwords] at hb
  rw [← List.append_nil (e.s.spadRaces _ 4)] at hrace
  obtain ⟨k, hk, hbeside⟩ := matIssue_queues (kind := kind) (c := c) (tys := []) (chk := false) (as := []) hrange hfull hcount hrace
  have hxs : (e.queueReqs a b fmt scales qs).map (·.x) = qs := by
    unfold Env.queueReqs
    rw [List.map_map]
    exact List.map_id _
  have hq := queuesAt_matIssue (s := s) (s1 := taken s) (kind := kind) (c := c) rfl (fun _ => rfl) (Env.race_ok hrace).2
    (by rw [hxs]; exact e.nodup_matQuarters c words) hbeside
  rw [hxs] at hq
  exact ⟨k, hb.trans hk, hq⟩

/-- Settles O13: past its checks a collective instruction queues an operation in each quarter with lanes of E. -/
theorem matrixOperationsQueue : Obligations.MatrixOperationsQueue := by
  unfold Obligations.MatrixOperationsQueue
  intro s t g r es c a b fmt
  set ls := execLanes g r with hlsdef
  intro e ls' words qs queued register
  have hregister : ∀ (kind : MatKind) (i : Instr) (scales : List Sel), exec i s = laneIssue i (matBody kind c a b fmt scales) s →
      register kind i scales := by
    intro kind i scales hexec h hls hv hbad hrange hfull hcount hrace
    obtain ⟨k, hb, hmem, hq⟩ := register_queues s t g r es c a b fmt kind i scales h hls hv hbad hrange hfull hcount hrace
    obtain ⟨s', hs, hmem', hrest⟩ := laneIssue_queues h hb hq
    refine ⟨⟨s', hexec.trans hs, ?_⟩, fun s'' hs'' y => ?_⟩
    · cases kind <;> exact hrest
    · cases hs''.symm.trans (hexec.trans hs)
      rw [hmem', hmem]
  refine ⟨hregister .mma (.mma c a b fmt) [] rfl, hregister .mmas (.mmas c a b fmt) [] rfl, hregister .mmaz (.mmaz c a b fmt) [] rfl,
    fun x1 x2 => hregister .mmax (.mmax c a b fmt x1 x2) [x1, x2] rfl, ?_, fun h hfull => ?_⟩
  · intro x1 rcd s1 as h hls hv hbad hacc hwg1 e1 hrange hfull hcount hrace hwg hagenda
    obtain ⟨s0, hrace⟩ := hrace
    have hwords : e.fmtWords fmt = words := fmtWords_opEnv fmt
    have hb := mmamBody_issues (c := c) (a := a) (e := e) hls (hwords ▸ hv) (hwords ▸ hbad) hacc
    rw [hwords] at hb
    obtain ⟨k, hk, hbeside⟩ := matIssue_queues (kind := .mmam) (c := c) (tys := typesOf as) (chk := as.any fun k => !(raceAccs k).isEmpty)
      (as := as) hrange hfull hcount hrace
    have hxs : (e1.columnReqsOf a qs as).map (·.x) = qs := by
      unfold Env.columnReqsOf
      rw [List.map_map]
      exact List.map_id _
    have hq := queuesAt_matIssue (s := s) (s1 := s1) (kind := .mmam) (c := c) hagenda hwg (Env.race_ok hrace).2
      (by rw [hxs]; exact e.nodup_matQuarters c words) hbeside
    rw [hxs] at hq
    obtain ⟨s', hs, -, hrest⟩ := laneIssue_queues h (hb.trans hk) hq.2
    exact ⟨s', hs, hrest⟩
  · obtain ⟨s', hs, hmem, hrest⟩ := laneIssue_queues (body := mmafinBody c) h (mmafinBody_queues hfull) queuesAt_mmafin
    refine ⟨⟨s', hs, hrest⟩, fun s'' hs'' y => ?_⟩
    cases hs''.symm.trans hs
    rw [hmem]
    rfl

end Sys2Proof.Machine
end

section
/-! SUPPORT. GRET where the list of a workgroup's lanes names a lane twice, and the refutation that it gives (spec/14 R352). -/

namespace Sys2Proof.Machine

open Sys2Proof Sys2Proof.Safety Tests

-- One proof at a time: side by side they need more threads than a check's memory holds.
set_option Elab.async false

/-- The model's own witness of GRET, with lane 1 listed once more, in front: there it is in the crew but not live, and its CF is set. -/
def sTwice : State := (sGate 1).updWg 0 fun w => { w with
  lanes := (1, { (w.lane 1) with live := false, cf := true }) :: w.lanes }

theorem sTwice_ready : Ready sTwice 0 (gang 15) (run 15) .gret [] :=
  ready_gated rfl rfl rfl (by decide) (by decide) rfl rfl rfl

/-- The members, as the list names them. -/
theorem sTwice_members : (sTwice.wg 0).members 0 = [0, 1, 2, 3] := by decide

/-- The gangs that GRET gathers: the issuing one, with every lane that the list names as a member. -/
def twiceGathered : List Gathered := [⟨0, 0, [0, 1, 2, 3], run 15⟩]

theorem sTwice_gathers : (opEnv sTwice 0 (gang 15) (run 15) []).gather 0 = some twiceGathered := by rfl

/-- The state after the wait of GRET: members and gangs stand, lane 1 reads as its first entry, and nothing of its frame is saved. -/
def drainedTwice (s1 : State) : Bool :=
  (s1.wg 0).members 0 == [0, 1, 2, 3] && (decide (0 < (s1.wg 0).nextGang) && (((s1.wg 0).trapsOf 0).isEmpty &&
    ((((s1.wg 0).gates.get (frameKey 0 (((s1.wg 0).crew 0).depth - 1))).lanes.get 1).cf == false)))

theorem sTwice_drained : okB ((opEnv sTwice 0 (gang 15) (run 15) []).gateDrain 0 true) drainedTwice = true := by decide

/-- CF of lane 1 of workgroup 0 in the state that an instruction leaves. -/
def carryOfOne (o : Host.Outcome State Fault Refusal) : Option Bool := match o with
  | .next s => some ((s.wg 0).lane 1).cf
  | _ => none

/-- Lane 1 keeps its CF: once its first entry has been written it is no member, and GRET restores members only. -/
theorem gretTwice_keeps : carryOfOne (exec .gret sTwice) = some true := by decide +kernel

/-- Refutes O39: the statement is about every state, also one whose list of lanes names a lane twice. Lane 1 is a member by its second
entry and reads as its first, which is not live; the end of the intervals rewrites the list with the first alone, so that lane 1 is no
member when GRET restores the members' CF. -/
theorem not_gatesCallAndReturn : ¬ Obligations.GatesCallAndReturn := by
  unfold Obligations.GatesCallAndReturn
  intro h
  obtain ⟨s1, hdrain, hs1⟩ := okB_elim sTwice_drained
  unfold drainedTwice at hs1
  simp only [Bool.and_eq_true, beq_iff_eq, decide_eq_true_eq, List.isEmpty_iff] at hs1
  obtain ⟨hmem, hnext, htraps, hsaved⟩ := hs1
  obtain ⟨-, -, -, hret⟩ := h sTwice 0 (gang 15) (run 15) [] 0 twiceGathered s1 rfl sTwice_gathers (by decide)
    (by simpa [twiceGathered] using hnext) (by decide) (by decide) (hmem.trans sTwice_members.symm) (by rw [sTwice_members]; decide)
  obtain ⟨s', hexec, -, -, -, -, hlanes, -⟩ := hret sTwice_ready (by decide) hdrain htraps
  obtain ⟨-, hcf, -⟩ := hlanes 1 (by rw [sTwice_members]; decide)
  have hkeeps := gretTwice_keeps
  rw [hexec, carryOfOne, hcf, hsaved] at hkeeps
  cases hkeeps

end Sys2Proof.Machine
end

section
/-! SUPPORT. The save of a workgroup behind a store to the descriptor of its domain, and the refutation that it gives (spec/15 R376). -/

namespace Sys2Proof.Machine

open Sys2Proof Sys2Proof.Safety Tests

-- One proof at a time: side by side they need more threads than a check's memory holds.
set_option Elab.async false

/-- A store that a release at device scope has passed: it clears VALID of the descriptor of domain 0. -/
def clearsDomain : FlightItem := { passedStore .dm 0 with past := some { (default : Past) with scope := .device } }

/-- The model's own witness of PREEMPT_SAVE, beside a workgroup whose store the lanes to be saved see as performed. -/
def sSaves : State := atNodes [node 1 0 1 false true false]
  [(0, (group 0).updCrew 0 fun c => { c with flight := [clearsDomain] }),
   (5, { group 0 with life := .stopping, node := 1, gangs := [], vregs := 8, spad := 0 })]

/-- The pieces of the save area, as the tables stand before the store is performed. -/
def savesArea (s : State) : Except (Nat × Nat) (List Span) :=
  s.virtSpans true 0 ((node 1 0 1 false true false).desc.save + (s.wg 5).inst * (node 1 0 1 false true false).desc.imageSize)
    (node 1 0 1 false true false).desc.imageSize

/-- The area can be written, in pieces that do not meet. -/
theorem sSaves_area : okB (savesArea sSaves) (fun l => decide (l.Pairwise fun x y => x.meets y = false) && !l.isEmpty) = true := by decide +kernel

/-- Pieces of the image of workgroup 5 in the state that an event leaves. -/
def imagePieces (o : Host.Outcome State Fault Refusal) : Option (List Span) := match o with
  | .next s => some (s.wg 5).image
  | _ => none

/-- The store is performed first, and the save area is mapped no longer: no image is written. -/
theorem preemptSave_unmapped : imagePieces (exec (.preemptSave 5) sSaves) = some [] := by decide +kernel

/-- Refutes O49: a save sends the stores home that the workgroup's lanes see as performed, and translates its save area then. A store
among them that clears VALID of the node's domain leaves no area to write the image to, where the tables gave one before. -/
theorem not_placementEventsHappen : ¬ Obligations.PlacementEventsHappen := by
  unfold Obligations.PlacementEventsHappen
  intro h
  obtain ⟨-, -, -, -, hsave⟩ := h sSaves
  obtain ⟨-, hsave, -⟩ := hsave 5
  obtain ⟨l, harea, hl⟩ := okB_elim sSaves_area
  simp only [Bool.and_eq_true, decide_eq_true_eq, Bool.not_eq_true'] at hl
  obtain ⟨hapart, hsome⟩ := hl
  obtain ⟨s', hexec, -, -, -, -, -, himage⟩ := hsave (sSaves.sendHome (sSaves.passed (sSaves.agents 5))) (.inr ⟨rfl, rfl⟩)
    (by decide +kernel) (by decide +kernel) (by decide +kernel)
  obtain ⟨himage, -⟩ := himage (node 1 0 1 false true false) l rfl rfl (by decide +kernel) harea hapart
  have hpieces := preemptSave_unmapped
  rw [hexec, imagePieces, himage] at hpieces
  rw [Option.some.inj hpieces] at hsome
  cases hsome

end Sys2Proof.Machine
end

section
/-! SUPPORT. The accesses of engines (spec/12 R276) and the packets of their queues (R274): what an access leaves alone, and what the
record of a packet's work changes. -/

namespace Sys2Proof.Machine

open Sys2Proof Sys2Proof.Safety

-- One proof at a time: side by side they need more threads than a check's memory holds.
set_option Elab.async false

/-! ### Results of accesses -/

@[simp] theorem EngRes.andThen_of_ok {α β : Type} (a : α) (s : State) (k : α → State → EngRes β) : (EngRes.ok a s).andThen k = k a s := rfl

theorem EngRes.andThen_ok {α β : Type} {r : EngRes α} {k : α → State → EngRes β} {b : β} {s2 : State} (h : r.andThen k = .ok b s2) :
    ∃ a s1, r = .ok a s1 ∧ k a s1 = .ok b s2 := by
  cases r with
  | ok a s1 => exact ⟨a, s1, rfl, h⟩
  | wait => cases h
  | stop c s1 => cases h

/-- What an access leaves steady, where its result is there. -/
structure EngRes.Keeps {α : Type} (s : State) (r : EngRes α) : Prop where
  steady : ∀ {a s1}, r = .ok a s1 → Steady s s1

theorem EngRes.Keeps.ok {α : Type} {s s1 : State} (h : Steady s s1) (a : α) : EngRes.Keeps s (.ok a s1) := ⟨fun hr => by
  cases hr
  exact h⟩

theorem EngRes.Keeps.stop {α : Type} {s s1 : State} {c : Nat} : EngRes.Keeps s (.stop c s1 : EngRes α) := ⟨nofun⟩

theorem EngRes.Keeps.wait {α : Type} {s : State} : EngRes.Keeps s (.wait : EngRes α) := ⟨nofun⟩

theorem EngRes.Keeps.andThen {α β : Type} {s : State} {r : EngRes α} {k : α → State → EngRes β} (hr : r.Keeps s)
    (hk : ∀ a s1, (k a s1).Keeps s1) : (r.andThen k).Keeps s := ⟨fun h => by
  obtain ⟨a, s1, h1, h2⟩ := EngRes.andThen_ok h
  exact (hr.steady h1).trans ((hk a s1).steady h2)⟩

/-! ### What accesses leave steady -/

theorem Steady.seenBy {s s1 : State} {bs : List Agent} {xs : List Span} (h : s.seenBy bs xs = some s1) : Steady s s1 := by
  unfold State.seenBy at h
  dsimp only at h
  split at h
  · cases h
    exact .sendHome ..
  · cases h

theorem State.engSee_keeps (s : State) (p : Packet) (xs : List Span) : (s.engSee p xs).Keeps s := by
  unfold State.engSee
  split
  next h => exact .ok (.seenBy h) ()
  · exact .wait

theorem State.engAt_keeps (s : State) (dom : Nat) (wr : Bool) (va n : Nat) : (s.engAt dom wr va n).Keeps s := by
  unfold State.engAt
  split
  · exact .stop
  · split
    · exact .wait
    · split
      · exact .stop
      · exact .stop
      · split
        · exact .stop
        · exact .ok (.refl s) _
      · split
        · exact .stop
        · exact .ok (.refl s) _
      · exact .ok (.refl s) _

theorem State.engPad_keeps (s : State) (l : Loc) (n : Nat) : (s.engPad l n).Keeps s := by
  unfold State.engPad
  split
  · exact .stop
  · exact .ok (.refl s) ()

theorem Steady.engPut (s : State) (pa : Nat) (bs : List Byte) : Steady s (s.engPut pa bs) := by
  unfold State.engPut
  split
  · exact .over (fun s k => .regStore s _ _ _) _ s
  · exact (Steady.physWrite ..).trans (.hostHold ..)

theorem Steady.wrWin (s : State) (core : Option Nat) (u o : Nat) (bs : List Byte) : Steady s (s.wrLoc core (.win u o) bs) :=
  (Steady.updWg s u (f := fun w => { w with win := Memory.write w.win o bs }) (.of_crews fun _ => rfl)).trans (.putSpans ..)

theorem Steady.wrLoc (s : State) (core : Option Nat) (x : Loc) (bs : List Byte) : Steady s (s.wrLoc core x bs) := by
  cases x with
  | phys a => exact .physWrite ..
  | win u o => exact .wrWin ..

theorem State.engReadAll_keeps (dom : Nat) (gs : List (Nat × Nat)) (acc : List Byte) (s : State) : (s.engReadAll dom gs acc).Keeps s := by
  induction gs generalizing acc s with
  | nil => exact .ok (.refl s) acc
  | cons g gs ih => exact EngRes.Keeps.andThen (s.engAt_keeps ..) fun pa s1 => ⟨fun h => (Steady.hostHold s1 pa g.2).trans ((ih _ _).steady h)⟩

theorem State.engWriteAll_keeps (dom : Nat) (gs : List (Nat × Nat)) (bs : List Byte) (s : State) : (s.engWriteAll dom gs bs).Keeps s := by
  induction gs generalizing bs s with
  | nil => exact .ok (.refl s) ()
  | cons g gs ih => exact EngRes.Keeps.andThen (s.engAt_keeps ..) fun pa s1 => ⟨fun h => (Steady.engPut s1 pa _).trans ((ih _ _).steady h)⟩

theorem State.engRead_keeps (s : State) (p : Packet) (dom a d n : Nat) : (s.engRead p dom a d n).Keeps s := by
  refine EngRes.Keeps.andThen (s.engSee_keeps ..) fun _ s1 => ?_
  split
  · exact s1.engReadAll_keeps ..
  · split
    · exact .stop
    · split
      · exact EngRes.Keeps.andThen (s1.engPad_keeps ..) fun _ s2 => .ok (.refl s2) _
      · exact .stop
  · exact .stop

theorem State.engWrite_keeps (s : State) (p : Packet) (dom a d : Nat) (bs : List Byte) : (s.engWrite p dom a d bs).Keeps s := by
  refine EngRes.Keeps.andThen (s.engSee_keeps ..) fun _ s1 => ?_
  split
  · exact s1.engWriteAll_keeps ..
  · split
    · exact .stop
    · split
      · exact EngRes.Keeps.andThen (s1.engPad_keeps ..) fun _ s2 => .ok (.wrLoc ..) ()
      · exact .stop
  · exact .stop

theorem State.engWrites_keeps (p : Packet) (dom : Nat) (ws : List (Nat × Nat × List Byte)) (s : State) : (s.engWrites p dom ws).Keeps s := by
  induction ws generalizing s with
  | nil => exact .ok (.refl s) ()
  | cons w ws ih => exact EngRes.Keeps.andThen (s.engWrite_keeps ..) fun _ s1 => ih s1

/-- Several writes, of which there is one. -/
theorem State.engWrites_single (s : State) (p : Packet) (dom a d : Nat) (bs : List Byte) :
    s.engWrites p dom [(a, d, bs)] = s.engWrite p dom a d bs := by
  rw [State.engWrites]
  dsimp only
  cases s.engWrite p dom a d bs <;> rfl

theorem State.ckptBlocks_keeps (p : Packet) (dom : Nat) (is : List Nat) (acc : List (Nat × Nat × Nat × Nat)) (s : State) :
    (State.ckptBlocks p dom is acc s).Keeps s := by
  induction is generalizing acc s with
  | nil => exact .ok (.refl s) acc
  | cons i is ih =>
    refine EngRes.Keeps.andThen (s.engRead_keeps ..) fun b s1 => ?_
    split
    · exact .stop
    · exact ih _ s1

/-! ### Queues and their packets -/

theorem Steady.queue? {s s' : State} (h : Steady s s') (hdr : Nat) : s'.queue? hdr = s.queue? hdr := by
  rw [State.queue?, State.queue?, h.queues]

theorem State.hdr_of_queue? {s : State} {hdr : Nat} {q : Queue} (h : s.queue? hdr = some q) : q.hdr = hdr := by
  simpa using List.find?_some h

theorem Queue.seq_of_packet? {q : Queue} {seq : Nat} {p : Packet} (h : q.packet? seq = some p) : p.seq = seq := by
  simpa using List.find?_some h

/-- The first element of a key, in a list where the elements of that key have been changed. -/
theorem find?_map_key {α : Type} {key : α → Nat} {k : Nat} {f : α → α} {a : α} {l : List α} (h : l.find? (fun x => key x == k) = some a)
    (hf : key (f a) = k) : (l.map fun x => if key x = k then f x else x).find? (fun x => key x == k) = some (f a) := by
  induction l with
  | nil => cases h
  | cons x l ih =>
    rw [List.find?_cons] at h
    rw [List.map_cons, List.find?_cons]
    by_cases hx : key x = k
    · rw [show (key x == k) = true from beq_iff_eq.2 hx] at h
      cases h
      rw [if_pos hx, beq_iff_eq.2 hf]
    · rw [show (key x == k) = false from beq_eq_false_iff_ne.2 hx] at h
      rw [if_neg hx, beq_eq_false_iff_ne.2 hx]
      exact ih h

theorem State.queue?_updQueue {s : State} {hdr : Nat} {q : Queue} (h : s.queue? hdr = some q) {f : Queue → Queue} (hf : (f q).hdr = hdr) :
    (s.updQueue hdr f).queue? hdr = some (f q) := find?_map_key h hf

theorem Queue.packet?_map {q : Queue} {seq : Nat} {p : Packet} (h : q.packet? seq = some p) {f : Packet → Packet} (hf : (f p).seq = seq) :
    ({ q with running := q.running.map fun x => if x.seq = seq then f x else x } : Queue).packet? seq = some (f p) := find?_map_key h hf

/-- Packet `seq` runs in the queue with header `hdr`. -/
def Runs (s : State) (hdr seq : Nat) : Prop := ∃ q p, s.queue? hdr = some q ∧ q.packet? seq = some p

theorem Runs.steady {s s' : State} {hdr seq : Nat} (h : Runs s hdr seq) (k : Steady s s') : Runs s' hdr seq := by
  obtain ⟨q, p, hq, hp⟩ := h
  exact ⟨q, p, (k.queue? hdr).trans hq, hp⟩

theorem State.queue?_updPacket {s : State} {hdr : Nat} {q : Queue} (h : s.queue? hdr = some q) (seq : Nat) (f : Packet → Packet) :
    (s.updPacket hdr seq f).queue? hdr = some { q with running := q.running.map fun p => if p.seq = seq then f p else p } :=
  State.queue?_updQueue (f := fun q => { q with running := q.running.map fun p => if p.seq = seq then f p else p }) h
    (show q.hdr = hdr from State.hdr_of_queue? h)

theorem Runs.updPacket {s : State} {hdr seq : Nat} (h : Runs s hdr seq) {f : Packet → Packet} (hf : ∀ x, (f x).seq = x.seq) :
    Runs (s.updPacket hdr seq f) hdr seq := by
  obtain ⟨q, p, hq, hp⟩ := h
  exact ⟨_, _, State.queue?_updPacket hq seq f, Queue.packet?_map hp ((hf p).trans (Queue.seq_of_packet? hp))⟩

theorem State.workOf_some {s : State} {hdr seq op : Nat} {q : Queue} {p : Packet} (h : s.workOf hdr seq op = some (q, p)) :
    s.queue? hdr = some q ∧ q.packet? seq = some p ∧ p.finished = false ∧ p.op = op := by
  unfold State.workOf at h
  split at h
  · cases h
  next q' hq =>
    split at h
    · cases h
    next p' hp =>
      split at h
      · cases h
      next hwork =>
        cases h
        obtain ⟨hfin, hop⟩ := not_or.1 hwork
        exact ⟨hq, hp, by simpa using hfin, not_not.1 hop⟩

theorem Runs.of_work {s : State} {hdr seq op : Nat} {q : Queue} {p : Packet} (h : s.workOf hdr seq op = some (q, p)) : Runs s hdr seq :=
  let ⟨hq, hp, _⟩ := State.workOf_some h
  ⟨q, p, hq, hp⟩

/-- The state in which packet `seq` of a queue has been changed. -/
theorem packetDid_of_updPacket {s2 : State} {hdr seq : Nat} {q : Queue} {p : Packet} (hq : s2.queue? hdr = some q) (hp : q.packet? seq = some p)
    {f : Packet → Packet} (hf : (f p).seq = seq) {P : Packet → Prop} (hP : P (f p)) :
    PacketDid (.next (s2.updPacket hdr seq f)) s2 hdr seq P :=
  ⟨_, _, _, rfl, rfl, State.queue?_updPacket hq seq f, Queue.packet?_map hp hf, hP⟩

/-- A unit of a packet's work that is done. -/
theorem packetDid_of_unit {s s2 : State} {hdr seq op : Nat} {q : Queue} {p p1 : Packet} {f : Queue → Packet → EngRes Packet}
    (hwork : s.workOf hdr seq op = some (q, p)) (hunit : f q p = .ok p1 s2) (hruns : Runs s2 hdr seq) (hseq : p1.seq = seq)
    {P : Packet → Prop} (hP : P p1) : PacketDid (s.packetWork hdr seq op f) s2 hdr seq P := by
  obtain ⟨q2, p2, hq, hp⟩ := hruns
  unfold State.packetWork
  rw [hwork]
  dsimp only
  rw [hunit]
  exact packetDid_of_updPacket hq hp (f := fun _ => p1) hseq hP

end Sys2Proof.Machine
end

section
/-! SUPPORT. The units of work of packets (spec/12 R276-R281, spec/17 R414-R417, spec/24 R458), and the statement about them. -/

namespace Sys2Proof.Machine

open Sys2Proof Sys2Proof.Safety

-- One proof at a time: side by side they need more threads than a check's memory holds.
set_option Elab.async false

theorem EngRes.andThen_eq {α β : Type} {r : EngRes α} {k : α → State → EngRes β} {a : α} {s1 : State} {x : EngRes β} (hr : r = .ok a s1)
    (hk : k a s1 = x) : r.andThen k = x := by
  rw [hr, EngRes.andThen_of_ok, hk]

theorem Steady.freed (s : State) (n : Nat) : Steady s { s with free := n } := .of_wgs rfl rfl

/-! ### Writes (spec/12 R276) -/

theorem State.engAt_dram {s : State} {dom va n pa ty : Nat} {wr w su : Bool} {lv sz : Nat} {gl : Dword}
    (hwalk : s.walkMem dom wr va = .ok pa ty w su lv sz gl) (hheld : s.held ⟨.phys pa, n⟩ = false) (hmc : s.mcOf ⟨.phys pa, n⟩ = none)
    (hap : aperture pa = some 0) : s.engAt dom wr va n = .ok pa s := by
  unfold State.engAt
  rw [hwalk]
  dsimp only
  rw [hheld, hmc, hap]
  rfl

/-- A write to one granule of device memory. -/
theorem State.engWrite_dram {s s1 : State} {p : Packet} {dom a d pa ty : Nat} {bs : List Byte} {w su : Bool} {lv sz : Nat} {gl : Dword}
    (hform : addrForm a = 0) (hkind : addrKind a = 0) (hgran : granules (a + d) bs.length = [(a + d, bs.length)])
    (hsee : s.engSee p (s.engLocs p dom a d bs.length) = .ok () s1) (hwalk : s1.walkMem dom true (a + d) = .ok pa ty w su lv sz gl)
    (hheld : s1.held ⟨.phys pa, bs.length⟩ = false) (hmc : s1.mcOf ⟨.phys pa, bs.length⟩ = none) (hap : aperture pa = some 0) :
    s.engWrite p dom a d bs = .ok () (s1.physWrite none pa bs) := by
  have hput : s1.engPut pa bs = s1.physWrite none pa bs := by
    unfold State.engPut
    rw [hap]
    exact State.hostHold_dram hap _ _
  unfold State.engWrite
  rw [hsee, EngRes.andThen_of_ok, hform, hkind, hgran, State.engWriteAll, State.engAt_dram hwalk hheld hmc hap, EngRes.andThen_of_ok, List.take_length, hput, State.engWriteAll]
  rfl

/-- What a write to a window leaves: memory outside the image of its workgroup, and every window's other bytes. -/
theorem State.wrWin_stores (s : State) (core : Option Nat) (u o : Nat) (bs : List Byte) :
    (∀ y, ¬ InImage s u y → (s.wrLoc core (.win u o) bs).mem.get y = s.mem.get y) ∧
      ∀ v x, (((s.wrLoc core (.win u o) bs).wg v).win).get x =
        if v = u ∧ o ≤ x ∧ x < o + bs.length then bs.getD (x - o) 0 else ((s.wg v).win).get x := by
  let s1 := s.updWg u fun w => { w with win := Memory.write w.win o bs }
  have hself : s1.wg u = { s.wg u with win := Memory.write (s.wg u).win o bs } := State.wg_updWg_self ..
  refine ⟨fun y hy => ?_, fun v x => ?_⟩
  · refine (State.mem_putSpans (l := spanCut (s1.wg u).image ((s.wg u).imagePart 6 + o) bs.length) (fun b k hb hin => hy ?_) s1 bs).trans rfl
    rw [hself] at hb
    obtain ⟨b', m, hb', hle, hge⟩ := mem_spanCut hb
    exact ⟨b', m, hb', by omega, by omega⟩
  · have hcalm : Calm (s1.wg v) ((s.wrLoc core (.win u o) bs).wg v) := Calm.putSpans ..
    rw [show ((s.wrLoc core (.win u o) bs).wg v).win = (s1.wg v).win by rw [hcalm.rest]]
    by_cases hv : v = u
    · subst hv
      rw [hself]
      refine (Memory.get_write ..).trans (if_congr ?_ rfl rfl)
      simp
    · rw [if_neg fun h => hv h.1, State.wg_updWg_ne _ _ hv]

/-- A write to a window that holds it. -/
theorem State.engWrite_pad {s s1 : State} {p : Packet} {dom a d u o : Nat} {bs : List Byte}
    (hform : addrForm a = 0) (hkind : addrKind a = 1) (hsee : s.engSee p (s.engLocs p dom a d bs.length) = .ok () s1)
    (hgone : s1.targetGone p = false) (hpad : s1.padAt p.tgtWg a (d + bs.length) = some (u, o))
    (hmc : s1.mcOf ⟨.win u (o + d), bs.length⟩ = none) :
    s.engWrite p dom a d bs = .ok () (s1.wrLoc none (.win u (o + d)) bs) := by
  unfold State.engWrite State.engPad
  rw [hsee, EngRes.andThen_of_ok, hform, hkind, hgone, hpad]
  dsimp only
  rw [hmc]
  rfl

/-! ### COPY (R277) -/

/-- Chunks of 64 bytes that a COPY reads, and writes. -/
def Packet.copyChunks (p : Packet) : Nat := (p.word 8 + 63) / 64

/-- Where the next chunk to be written begins, its bytes' number, and the bytes. -/
def Packet.chunkAt (p : Packet) : Nat := 64 * (p.units - p.copyChunks)
def Packet.chunkLen (p : Packet) : Nat := min 64 (p.word 8 - p.chunkAt)
def Packet.chunkBytes (p : Packet) : List Byte := (List.range p.chunkLen).map fun k => p.captured.get (p.chunkAt + k)

/-- A COPY that has read a chunk, in a state then. -/
def Packet.chunkRead (p : Packet) (s1 : State) (b : List Byte) : Packet :=
  { (if p.units + 1 = p.copyChunks then s1.readDone p else p) with captured := Memory.write p.captured (64 * p.units) b, units := p.units + 1 }

/-- A COPY that has written a chunk. -/
def Packet.chunkWritten (p : Packet) : Packet := { p with units := p.units + 1, finished := decide (p.units + 1 ≥ 2 * p.copyChunks) }

section
variable {s : State} {hdr seq : Nat} {q : Queue} {p : Packet}

theorem Packet.chunkRead_rest (p : Packet) (s1 : State) (b : List Byte) :
    (p.chunkRead s1 b).seq = p.seq ∧ (p.chunkRead s1 b).finished = p.finished := by
  unfold Packet.chunkRead
  split <;> exact ⟨rfl, rfl⟩

theorem State.copyUnit_reads {b : List Byte} {s1 : State} (hunits : p.units < p.copyChunks)
    (hread : s.engRead p q.domain (p.dbl 4) (64 * p.units) (min 64 (p.word 8 - 64 * p.units)) = .ok b s1) :
    s.copyUnit q p = .ok (p.chunkRead s1 b) s1 := by
  refine (if_pos hunits).trans ?_
  rw [hread]
  rfl

theorem State.copyUnit_writes {s2 : State} (hunits : p.copyChunks ≤ p.units) (hstream : p.stream = false) (hmask : p.mask = 0)
    (hblur : s.copyBlur p q.domain (p.dbl 6) p.chunkAt p.chunkBytes = p.chunkBytes)
    (hwrite : ({ s with free := s.free + 64 } : State).engWrite p q.domain (p.dbl 6) p.chunkAt p.chunkBytes = .ok () s2) :
    s.copyUnit q p = .ok p.chunkWritten s2 := by
  have hunit : s.copyUnit q p = (({ s with free := s.free + 64 } : State).engWrites p q.domain
      (p.copyDests.map fun a => (a, p.chunkAt, s.copyBlur p q.domain a p.chunkAt p.chunkBytes))).andThen fun _ s => .ok p.chunkWritten s :=
    (if_neg (Nat.not_lt.2 hunits)).trans (if_neg (ne_true_of_eq_false hstream))
  rw [hunit, Packet.copyDests, if_pos hmask, List.map_cons, List.map_nil, hblur, State.engWrites_single, hwrite]
  rfl

theorem State.copyUnit_streams {i u o : Nat} {s1 : State} (hunits : p.copyChunks ≤ p.units) (hstream : p.stream = true) (hclaimed : p.claimed = some i)
    (hthere : s.targetThere p = true) (hslot : s.slotLoc p i p.chunkAt p.chunkLen = some (.win u o))
    (hsee : s.engSee p [⟨.win u o, p.chunkLen⟩] = .ok () s1) (hmc : s1.mcOf ⟨.win u o, p.chunkLen⟩ = none) :
    s.copyUnit q p = .ok p.chunkWritten (s1.wrLoc none (.win u o) p.chunkBytes) := by
  have hunit : s.copyUnit q p = match p.claimed with
      | none => .wait
      | some i =>
        if s.targetThere p = false then .stop 3 s
        else match s.slotLoc p i p.chunkAt p.chunkLen with
          | some l => (s.engSee p [⟨l, p.chunkLen⟩]).andThen fun _ s => (s.engPad l p.chunkLen).andThen fun _ s =>
              .ok p.chunkWritten (s.wrLoc none l p.chunkBytes)
          | none => .stop 2 s :=
    (if_neg (Nat.not_lt.2 hunits)).trans (if_pos hstream)
  rw [hunit, hclaimed]
  dsimp only
  rw [hthere, if_neg Bool.noConfusion, hslot]
  dsimp only
  rw [hsee, EngRes.andThen_of_ok, State.engPad, hmc]
  rfl

theorem copyPacket_reads {b : List Byte} {s1 : State} (hwork : s.workOf hdr seq 1 = some (q, p)) (hunits : p.units < p.copyChunks)
    (hread : s.engRead p q.domain (p.dbl 4) (64 * p.units) (min 64 (p.word 8 - 64 * p.units)) = .ok b s1) :
    PacketDid (exec (.copyPacket hdr seq) s) s1 hdr seq fun p' => p'.units = p.units + 1 ∧ p'.finished = false ∧
      ∀ a, p'.captured.get a = if 64 * p.units ≤ a ∧ a < 64 * p.units + b.length then b.getD (a - 64 * p.units) 0 else p.captured.get a := by
  obtain ⟨-, hp, hfin, -⟩ := State.workOf_some hwork
  obtain ⟨hseq, hfin'⟩ := p.chunkRead_rest s1 b
  exact packetDid_of_unit hwork (State.copyUnit_reads hunits hread) ((Runs.of_work hwork).steady ((s.engRead_keeps ..).steady hread))
    (hseq.trans (Queue.seq_of_packet? hp)) ⟨rfl, hfin'.trans hfin, fun a => Memory.get_write ..⟩

theorem copyPacket_writes {s2 : State} (hwork : s.workOf hdr seq 1 = some (q, p)) (hunit : s.copyUnit q p = .ok p.chunkWritten s2)
    (hsteady : Steady s s2) : PacketDid (exec (.copyPacket hdr seq) s) s2 hdr seq fun p' =>
      p'.units = p.units + 1 ∧ (p'.finished = true ↔ 2 * p.copyChunks ≤ p.units + 1) ∧ p'.status = p.status := by
  obtain ⟨-, hp, -, -⟩ := State.workOf_some hwork
  exact packetDid_of_unit hwork hunit ((Runs.of_work hwork).steady hsteady) (show p.seq = seq from Queue.seq_of_packet? hp)
    ⟨rfl, decide_eq_true_iff, rfl⟩

/-! ### GATHER (R278) -/

/-- A GATHER that has written a row: `clip` where the row is one of zeros. -/
def Packet.rowGathered (p : Packet) (clip : Bool) : Packet :=
  { p with units := p.units + 1, finished := decide (p.units + 1 ≥ p.word 8), status := if clip then 8 else p.status }

theorem State.gatherUnit_eq {b r : List Byte} {s0 s1 s2 s3 : State}
    (hcheck : (if p.units = 0 ∧ addrKind (p.dbl 4) = 1 then s.gatherCheck q p (bits (p.word 3) 0 24) (List.range (p.word 8)) else .ok () s) = .ok () s0)
    (hindex : s0.engRead p q.domain (p.dbl 6) (4 * p.units) 4 = .ok b s1)
    (hrow : if p.word 9 ≤ natOfBytes b then r = List.replicate (bits (p.word 3) 0 24) 0 ∧ s2 = s1
      else s1.engRead p q.domain (p.dbl 4) (natOfBytes b * bits (p.word 3) 0 24) (bits (p.word 3) 0 24) = .ok r s2)
    (hwrite : s2.engWrite p q.domain (p.dbl 10) (p.units * bits (p.word 3) 0 24) r = .ok () s3) :
    s.gatherUnit q p = .ok (p.rowGathered (decide (p.word 9 ≤ natOfBytes b))) s3 := by
  unfold State.gatherUnit
  dsimp only
  rw [hcheck, EngRes.andThen_of_ok, hindex, EngRes.andThen_of_ok]
  by_cases hclip : p.word 9 ≤ natOfBytes b
  · rw [if_pos hclip] at hrow
    obtain ⟨rfl, rfl⟩ := hrow
    rw [if_pos (decide_eq_true hclip), EngRes.andThen_of_ok, hwrite]
    rfl
  · rw [if_neg hclip] at hrow
    rw [if_neg (by simpa using hclip), hrow, EngRes.andThen_of_ok, hwrite]
    rfl

theorem State.gatherCheck_keeps (q : Queue) (p : Packet) (rb : Nat) (is : List Nat) (s : State) : (s.gatherCheck q p rb is).Keeps s := by
  induction is generalizing s with
  | nil => exact .ok (.refl s) ()
  | cons i is ih =>
    refine EngRes.Keeps.andThen (s.engRead_keeps ..) fun b s1 => ?_
    dsimp only
    split
    · exact .stop
    · exact ih s1

theorem gather_does {b r : List Byte} {s0 s1 s2 s3 : State} (hwork : s.workOf hdr seq 2 = some (q, p))
    (hcheck : (if p.units = 0 ∧ addrKind (p.dbl 4) = 1 then s.gatherCheck q p (bits (p.word 3) 0 24) (List.range (p.word 8)) else .ok () s) = .ok () s0)
    (hindex : s0.engRead p q.domain (p.dbl 6) (4 * p.units) 4 = .ok b s1)
    (hrow : if p.word 9 ≤ natOfBytes b then r = List.replicate (bits (p.word 3) 0 24) 0 ∧ s2 = s1
      else s1.engRead p q.domain (p.dbl 4) (natOfBytes b * bits (p.word 3) 0 24) (bits (p.word 3) 0 24) = .ok r s2)
    (hwrite : s2.engWrite p q.domain (p.dbl 10) (p.units * bits (p.word 3) 0 24) r = .ok () s3) :
    PacketDid (exec (.gather hdr seq) s) s3 hdr seq fun p' => p'.units = p.units + 1 ∧ (p'.finished = true ↔ p.word 8 ≤ p.units + 1) ∧
      p'.status = if p.word 9 ≤ natOfBytes b then 8 else p.status := by
  obtain ⟨-, hp, -, -⟩ := State.workOf_some hwork
  have h0 : Steady s s0 := by
    split at hcheck
    · exact (State.gatherCheck_keeps ..).steady hcheck
    · cases hcheck
      exact .refl s
  have h2 : Steady s1 s2 := by
    split at hrow
    · exact hrow.2 ▸ .refl s2
    · exact (State.engRead_keeps ..).steady hrow
  have hsteady := ((h0.trans ((State.engRead_keeps ..).steady hindex)).trans h2).trans ((State.engWrite_keeps ..).steady hwrite)
  refine packetDid_of_unit hwork (State.gatherUnit_eq hcheck hindex hrow hwrite) ((Runs.of_work hwork).steady hsteady)
    (show p.seq = seq from Queue.seq_of_packet? hp) ⟨rfl, decide_eq_true_iff, ?_⟩
  simp [Packet.rowGathered]

/-! ### QUANT2 (R279) -/

theorem State.quantRows_keeps (q : Queue) (p : Packet) (pitch es : Nat) (is : List Nat) (acc : List (List Byte)) (s : State) :
    (s.quantRows q p pitch es is acc).Keeps s := by
  induction is generalizing acc s with
  | nil => exact .ok (.refl s) acc
  | cons i is ih => exact EngRes.Keeps.andThen (s.engRead_keeps ..) fun b s1 => ih _ s1

/-- A sum as a fold counts it. -/
theorem foldl_add_eq_sum {α : Type} (f : α → Nat) (l : List α) (n : Nat) : l.foldl (fun a x => a + f x) n = n + (l.map f).sum := by
  induction l generalizing n with
  | nil => rfl
  | cons x l ih => rw [List.foldl_cons, ih, List.map_cons, List.sum_cons, Nat.add_assoc]

/-- Format of QUANT2's source by SFMT. -/
def quantFmt : Nat → FFmt
  | 0 => fp32
  | 1 => bf16
  | _ => fp16

/-- Values of the source tile that QUANT2 has read, by rows. -/
def Packet.quantVals (p : Packet) (rows : List (List Byte)) : List (List FVal) :=
  rows.map fun r => (chunks (quant2Size (p.word 3)) 128 r).map fun b => (quantFmt (bits (p.word 3) 0 2)).decode (natOfBytes b)

/-- Lines of values, quantised as QUANT2 asks. -/
def Packet.quantLines (p : Packet) (vals : List (List FVal)) : List QuantLine :=
  vals.map (quantLine (roundOf (BitVec.ofNat 2 (bits (p.word 3) 2 2))) (bitAt (p.word 3) 4))

/-- Rows and columns of the source tile, quantised. -/
def Packet.quantRow (p : Packet) (rows : List (List Byte)) : List QuantLine := p.quantLines (p.quantVals rows)
def Packet.quantCol (p : Packet) (rows : List (List Byte)) : List QuantLine := p.quantLines (columnsOf 128 (p.quantVals rows))

/-- Flags and saturations of lines. -/
def flagsOf (l : List QuantLine) : FFlags := l.foldl (fun a x => a ||| x.flags) 0
def satsOf (l : List QuantLine) : Nat := (l.map (·.sat)).sum

/-- The four arrays that QUANT2 writes. -/
def Packet.quantWrites (p : Packet) (rows : List (List Byte)) : List (Nat × Nat × List Byte) :=
  [(p.dbl 6, 0, ((p.quantRow rows).map (·.qs)).flatMap fun r => r.map (BitVec.ofNat 8)),
   (p.dbl 8, 0, (p.quantRow rows).flatMap fun x => bytesOfNat 4 x.scale),
   (p.dbl 10, 0, (columnsOf 128 ((p.quantCol rows).map (·.qs))).flatMap fun r => r.map (BitVec.ofNat 8)),
   (p.dbl 12, 0, (p.quantCol rows).flatMap fun x => bytesOfNat 4 x.scale)]

/-- A packet of a queue with flags and saturations, while its results are written. -/
def State.quantMarked (s1 : State) (q : Queue) (p : Packet) (ls : List QuantLine) : State :=
  s1.updPacket q.hdr p.seq fun x => { x with flags := flagsOf ls, satcnt := satsOf ls }

theorem State.quant2Unit_eq {rows : List (List Byte)} {s1 s2 : State}
    (hrows : s.quantRows q p (bits (p.word 3) 8 24) (quant2Size (p.word 3)) (List.range 128) [] = .ok rows s1)
    (hwrites : (s1.quantMarked q p (p.quantRow rows ++ p.quantCol rows)).engWrites p q.domain (p.quantWrites rows) = .ok () s2) :
    s.quant2Unit q p = .ok { p with
      finished := true, flags := flagsOf (p.quantRow rows ++ p.quantCol rows), satcnt := satsOf (p.quantRow rows ++ p.quantCol rows) } s2 := by
  have hsats : (p.quantRow rows ++ p.quantCol rows).foldl (fun a x => a + x.sat) 0 = satsOf (p.quantRow rows ++ p.quantCol rows) :=
    (foldl_add_eq_sum _ _ _).trans (Nat.zero_add _)
  have hmarked : (s1.updPacket q.hdr p.seq fun x => { x with
      flags := flagsOf (p.quantRow rows ++ p.quantCol rows)
      satcnt := (p.quantRow rows ++ p.quantCol rows).foldl (fun a x => a + x.sat) 0 }).engWrites p q.domain (p.quantWrites rows) = .ok () s2 := by
    rw [hsats]
    exact hwrites
  rw [← hsats]
  unfold State.quant2Unit
  exact EngRes.andThen_eq hrows (EngRes.andThen_eq hmarked rfl)

theorem quant2_does {rows : List (List Byte)} {s1 s2 : State} (hwork : s.workOf hdr seq 3 = some (q, p))
    (hrows : s.quantRows q p (bits (p.word 3) 8 24) (quant2Size (p.word 3)) (List.range 128) [] = .ok rows s1)
    (hwrites : (s1.quantMarked q p (p.quantRow rows ++ p.quantCol rows)).engWrites p q.domain (p.quantWrites rows) = .ok () s2) :
    PacketDid (exec (.quant2 hdr seq) s) s2 hdr seq fun p' => p'.finished = true ∧ p'.status = p.status ∧
      p'.flags = flagsOf (p.quantRow rows ++ p.quantCol rows) ∧ p'.satcnt = satsOf (p.quantRow rows ++ p.quantCol rows) := by
  obtain ⟨hq, hp, -, -⟩ := State.workOf_some hwork
  have hseq := Queue.seq_of_packet? hp
  have hruns1 := (Runs.of_work hwork).steady ((State.quantRows_keeps ..).steady hrows)
  have hruns : Runs (s1.quantMarked q p (p.quantRow rows ++ p.quantCol rows)) hdr seq := by
    unfold State.quantMarked
    rw [State.hdr_of_queue? hq, hseq]
    exact hruns1.updPacket fun _ => rfl
  exact packetDid_of_unit hwork (State.quant2Unit_eq hrows hwrites) (hruns.steady ((State.engWrites_keeps ..).steady hwrites))
    (show p.seq = seq from hseq) ⟨rfl, rfl, rfl, rfl⟩

/-! ### COLL (R280, spec/19 R444) -/

/-- The positions whose contributions a collective takes. -/
def Packet.collWho (p : Packet) : List Nat :=
  if bits (p.word 3) 0 4 = 3 then p.contributors.filter (· == bits (p.word 3) 7 6) else p.contributors

/-- A collective that ends with RING. -/
def Packet.collBad (p : Packet) (nb : Nat) : Packet := { p with finished := true, status := 6, bytes := nb }

/-- What a collective writes on the module at position `own`, by FUNC. -/
def Packet.collResult (p : Packet) (own : Nat) (data : List (List Byte)) : List Byte × FFlags :=
  match bits (p.word 3) 0 4 with
  | 0 => collReduce (bits (p.word 3) 4 3) (collSize (p.word 3)) (p.word 8) data
  | 2 =>
    let sl := scatterSlice (p.word 8) p.actives.length ((p.actives.takeWhile (· != own)).length)
    collReduce (bits (p.word 3) 4 3) (collSize (p.word 3)) sl.2
      (data.map fun c => (c.drop (collSize (p.word 3) * sl.1)).take (collSize (p.word 3) * sl.2))
  | _ => (data.flatMap id, 0)

theorem Packet.collResult_reduce {own : Nat} (h : bits (p.word 3) 0 4 = 0) (data : List (List Byte)) :
    p.collResult own data = collReduce (bits (p.word 3) 4 3) (collSize (p.word 3)) (p.word 8) data := by
  unfold Packet.collResult
  rw [h]
  rfl

theorem Packet.collResult_scatter {own : Nat} (h : bits (p.word 3) 0 4 = 2) (data : List (List Byte)) :
    p.collResult own data =
      (let sl := scatterSlice (p.word 8) p.actives.length ((p.actives.takeWhile (· != own)).length)
       collReduce (bits (p.word 3) 4 3) (collSize (p.word 3)) sl.2
        (data.map fun c => (c.drop (collSize (p.word 3) * sl.1)).take (collSize (p.word 3) * sl.2))) := by
  unfold Packet.collResult
  rw [h]
  rfl

theorem Packet.collResult_whole {own : Nat} (h : bits (p.word 3) 0 4 = 1 ∨ bits (p.word 3) 0 4 = 3) (data : List (List Byte)) :
    p.collResult own data = (data.flatMap id, 0) := by
  unfold Packet.collResult
  rcases h with h | h <;> rw [h] <;> rfl

theorem State.contribution_keeps (s : State) (q : Queue) (p : Packet) (outer : List (Nat × List Byte)) (i n : Nat) :
    (s.contribution q p outer i n).Keeps s := by
  have near : ∀ d, ((s.engRead p q.domain (p.dbl 4) d n).andThen fun b s => .ok (some b) s).Keeps s := fun d =>
    EngRes.Keeps.andThen (s.engRead_keeps ..) fun b s1 => .ok (.refl s1) (some b)
  unfold State.contribution
  dsimp only
  split
  · split
    · exact near 0
    · exact .ok (.refl s) _
  · split
    · exact near n
    · exact .ok (.refl s) _
  · exact EngRes.Keeps.andThen (s.engSee_keeps ..) fun _ s1 => EngRes.Keeps.andThen (s1.engPad_keeps ..) fun _ s2 => .ok (.refl s2) _

theorem State.contributions_keeps (q : Queue) (p : Packet) (outer : List (Nat × List Byte)) (n : Nat) (is : List Nat)
    (acc : List (Option (List Byte))) (s : State) : (s.contributions q p outer n is acc).Keeps s := by
  induction is generalizing acc s with
  | nil => exact .ok (.refl s) acc
  | cons i is ih => exact EngRes.Keeps.andThen (s.contribution_keeps ..) fun b s1 => ih _ s1

/-- A module that is not active in the membership table. -/
theorem coll_absent (hwork : s.workOf hdr seq 4 = some (q, p)) (outer : List (Nat × List Byte)) (hown : s.regs.ringpos.toNat ∉ p.actives) :
    PacketDid (exec (.coll hdr seq outer) s) s hdr seq fun p' =>
      p'.finished = true ∧ p'.status = 6 ∧ p'.bytes = p.collBytes s.regs.ringpos.toNat := by
  obtain ⟨-, hp, -, -⟩ := State.workOf_some hwork
  have hunit : s.collUnit outer q p = .ok (p.collBad (p.collBytes s.regs.ringpos.toNat)) s := if_pos (by simpa using hown)
  exact packetDid_of_unit hwork hunit (.of_work hwork) (show p.seq = seq from Queue.seq_of_packet? hp) ⟨rfl, rfl, rfl⟩

/-- The state in which the link of a contribution that has not come is logged. -/
def State.lostLogged (s1 : State) (p : Packet) (cs : List (Option (List Byte))) : State := match collLost p p.collWho cs with
  | some e => s1.logMc 0xB3 (linkUnit e) 0
  | none => s1

theorem State.lostLogged_steady (s1 : State) (p : Packet) (cs : List (Option (List Byte))) (n : Nat) :
    Steady s1 { s1.lostLogged p cs with free := n } := by
  unfold State.lostLogged
  split <;> exact .of_wgs rfl rfl

/-- A contribution that has not come. -/
theorem coll_lost {outer : List (Nat × List Byte)} {cs : List (Option (List Byte))} {s1 s2 : State} (hwork : s.workOf hdr seq 4 = some (q, p))
    (hown : s.regs.ringpos.toNat ∈ p.actives)
    (hcs : s.contributions q p outer (p.word 8 * collSize (p.word 3)) p.collWho [] = .ok cs s1) (hlost : none ∈ cs ∨ cs = [])
    (hwrite : ({ s1.lostLogged p cs with free := s1.free + p.collBytes s.regs.ringpos.toNat } : State).engWrite p q.domain (p.dbl 6) 0
      ((List.range (p.collBytes s.regs.ringpos.toNat)).map fun k => (Config.freeWord (s1.free + k)).setWidth 8) = .ok () s2) :
    PacketDid (exec (.coll hdr seq outer) s) s2 hdr seq fun p' =>
      p'.finished = true ∧ p'.status = 6 ∧ p'.bytes = p.collBytes s.regs.ringpos.toNat := by
  obtain ⟨-, hp, -, -⟩ := State.workOf_some hwork
  have hfree : (s1.lostLogged p cs).free = s1.free := by
    unfold State.lostLogged
    split <;> rfl
  have hunit : s.collUnit outer q p = .ok (p.collBad (p.collBytes s.regs.ringpos.toNat)) s2 := by
    refine (if_neg (by simpa using hown)).trans (EngRes.andThen_eq hcs ((if_pos (by simpa using hlost)).trans ?_))
    have hunit : ∀ x : State, x = s1.lostLogged p cs → (({ x with free := x.free + p.collBytes s.regs.ringpos.toNat } : State).engWrite p q.domain
        (p.dbl 6) 0 ((List.range (p.collBytes s.regs.ringpos.toNat)).map fun k => (Config.freeWord (s1.free + k)).setWidth 8)).andThen
        (fun _ s2 => .ok (p.collBad (p.collBytes s.regs.ringpos.toNat)) s2) = .ok (p.collBad (p.collBytes s.regs.ringpos.toNat)) s2 := fun x hx => by
      rw [hx, hfree]
      exact EngRes.andThen_eq hwrite rfl
    exact hunit _ rfl
  have hsteady := (((State.contributions_keeps ..).steady hcs).trans (s1.lostLogged_steady p cs _)).trans ((State.engWrite_keeps ..).steady hwrite)
  exact packetDid_of_unit hwork hunit ((Runs.of_work hwork).steady hsteady) (show p.seq = seq from Queue.seq_of_packet? hp) ⟨rfl, rfl, rfl⟩

/-- Every contribution has come. -/
theorem coll_does {outer : List (Nat × List Byte)} {cs : List (Option (List Byte))} {s1 s2 : State} {r : List Byte × FFlags}
    (hwork : s.workOf hdr seq 4 = some (q, p)) (hown : s.regs.ringpos.toNat ∈ p.actives)
    (hcs : s.contributions q p outer (p.word 8 * collSize (p.word 3)) p.collWho [] = .ok cs s1) (hall : none ∉ cs) (hsome : cs ≠ [])
    (hr : p.collResult s.regs.ringpos.toNat (cs.filterMap id) = r)
    (hwrite : (s1.updPacket q.hdr p.seq fun x => { x with flags := r.2 }).engWrite p q.domain (p.dbl 6) 0 r.1 = .ok () s2) :
    PacketDid (exec (.coll hdr seq outer) s) s2 hdr seq fun p' => p'.finished = true ∧ p'.status = p.status ∧ p'.flags = r.2 := by
  obtain ⟨hq, hp, -, -⟩ := State.workOf_some hwork
  have hseq := Queue.seq_of_packet? hp
  have hunit : s.collUnit outer q p = .ok { p with finished := true, bytes := p.collBytes s.regs.ringpos.toNat, flags := r.2 } s2 := by
    refine (if_neg (by simpa using hown)).trans (EngRes.andThen_eq hcs ((if_neg (by simp [hall, hsome])).trans ?_))
    have hunit : ∀ x, x = r → ((s1.updPacket q.hdr p.seq fun y => { y with flags := x.2 }).engWrite p q.domain (p.dbl 6) 0 x.1).andThen
        (fun _ s2 => .ok { p with finished := true, bytes := p.collBytes s.regs.ringpos.toNat, flags := x.2 } s2) =
        .ok { p with finished := true, bytes := p.collBytes s.regs.ringpos.toNat, flags := r.2 } s2 := fun x hx => by
      rw [hx, hwrite]
      rfl
    exact hunit _ hr
  have hruns := ((Runs.of_work hwork).steady ((State.contributions_keeps ..).steady hcs)).updPacket
    (f := fun x => { x with flags := r.2 }) fun _ => rfl
  rw [State.hdr_of_queue? hq, hseq] at hwrite
  exact packetDid_of_unit hwork hunit (hruns.steady ((State.engWrite_keeps ..).steady hwrite)) (show p.seq = seq from hseq) ⟨rfl, rfl, rfl⟩

/-! ### CKPT (R281) -/

theorem State.ckptBlock_keeps (p : Packet) (dom : Nat) (gs : List (Nat × Nat)) (acc : List Byte) (s : State) : (s.ckptBlock p dom gs acc).Keeps s := by
  induction gs generalizing acc s with
  | nil => exact .ok (.refl s) _
  | cons g gs ih =>
    unfold State.ckptBlock
    split
    · exact .stop
    · split
      · exact ih _ s
      · exact EngRes.Keeps.andThen (s.engAt_keeps ..) fun _ s1 => EngRes.Keeps.andThen (s1.engSee_keeps ..) fun _ s2 => ih _ s2

theorem State.ckptHash_keeps (q : Queue) (p : Packet) (bs : List ((Nat × Nat × Nat × Nat) × Nat))
    (acc : List (Nat × Nat × List Byte × List Byte × Bool)) (s : State) : (s.ckptHash q p bs acc).Keeps s := by
  induction bs generalizing acc s with
  | nil => exact .ok (.refl s) acc
  | cons b bs ih =>
    refine EngRes.Keeps.andThen (s.ckptBlock_keeps ..) fun bytes s1 => EngRes.Keeps.andThen ?_ fun o s2 => ih _ s2
    split
    · exact .ok (.refl s1) []
    · exact s1.engRead_keeps ..

/-- Blocks that a CKPT has hashed and found changed, and its manifest. -/
def changedBlocks (bs : List (Nat × Nat × List Byte × List Byte × Bool)) : List (Nat × Nat × List Byte × List Byte × Bool) :=
  bs.filter fun b => b.2.2.2.2
def Packet.ckptManifest (p : Packet) (bs : List (Nat × Nat × List Byte × List Byte × Bool)) : List Byte :=
  manifest (p.word 14) bs.length ((changedBlocks bs).map fun b => (b.1, b.2.1))

theorem ckpt_does {bs : List (Nat × Nat × List Byte × List Byte × Bool)} {s1 s2 : State} (hwork : s.workOf hdr seq 5 = some (q, p))
    (hseen : ∀ r ∈ s.ckptRows q.domain p, r ∈ p.seen) (hbs : s.ckptHash q p p.blocks.zipIdx [] = .ok bs s1)
    (hdigests : s1.padOutside p (p.dbl 8) (16 * bs.length) = false) (hblocks : s1.padOutside p (p.dbl 12) (65536 * (changedBlocks bs).length) = false)
    (hmanifest : s1.padOutside p (p.dbl 10) (p.ckptManifest bs).length = false)
    (hwrites : s1.engWrites p q.domain ([(p.dbl 8, 0, bs.flatMap fun b => b.2.2.2.1)] ++
      ((changedBlocks bs).zipIdx.map fun x => (p.dbl 12, 65536 * x.2, x.1.2.2.1)) ++ [(p.dbl 10, 0, p.ckptManifest bs)]) = .ok () s2) :
    PacketDid (exec (.ckpt hdr seq) s) s2 hdr seq fun p' => p'.finished = true ∧ p'.status = p.status := by
  obtain ⟨-, hp, -, -⟩ := State.workOf_some hwork
  have hunit : s.ckptUnit q p = .ok { p with finished := true, captured := [] } s2 := by
    refine (if_neg (by simpa using hseen)).trans (EngRes.andThen_eq hbs ((if_neg ?_).trans (EngRes.andThen_eq hwrites rfl)))
    rintro (h | h | h)
    · exact Bool.noConfusion (hdigests.symm.trans h)
    · exact Bool.noConfusion (hblocks.symm.trans h)
    · exact Bool.noConfusion (hmanifest.symm.trans h)
  have hsteady := ((State.ckptHash_keeps ..).steady hbs).trans ((State.engWrites_keeps ..).steady hwrites)
  exact packetDid_of_unit hwork hunit ((Runs.of_work hwork).steady hsteady) (show p.seq = seq from Queue.seq_of_packet? hp) ⟨rfl, rfl⟩

/-! ### ASSAY (spec/17 R414-R417) -/

theorem Steady.assayBlur (s : State) (p : Packet) (dom : Nat) (as : List AssayArray) : Steady s (s.assayBlur p dom as) := by
  unfold State.assayBlur
  refine Steady.trans (.over (fun s x => ?_) _ s) (.of_wgs rfl rfl)
  dsimp only
  split
  · split
    · exact .refl s
    · exact .engPut ..
  · exact .wrLoc ..

theorem State.assaySwap_keeps (p : Packet) (dom map : Nat) (ts : List Nat) (n : Nat) (s : State) : (s.assaySwap p dom map ts n).Keeps s := by
  induction ts generalizing n s with
  | nil => exact .ok (.refl s) n
  | cons t ts ih => exact EngRes.Keeps.andThen (s.engRead_keeps ..) fun b s1 => EngRes.Keeps.andThen (s1.engWrite_keeps ..) fun _ s2 => ih _ s2

/-- Entry k of an ASSAY's address table. -/
def assayAddr (tb : List Byte) (k : Nat) : Nat := natOfBytes ((tb.drop (8 * k)).take 8)

/-- Positions of an ASSAY, bytes of a bit array of them, and tiles. -/
def Packet.assayPos (p : Packet) : Nat := bits (p.word 3) 0 21
def Packet.assayBits (p : Packet) : Nat := (p.assayPos + 7) / 8
def Packet.assayTiles (p : Packet) : Nat := bits (p.word 7) 24 8 * ((p.assayPos + bits (p.word 8) 0 16 - 1) / bits (p.word 8) 0 16)

/-- The arrays of an ASSAY. -/
def Packet.assayUses (p : Packet) (tb : List Byte) : List AssayArray :=
  [⟨0, assayAddr tb 0, 4 * p.assayPos, false⟩, ⟨1, assayAddr tb 1, 4 * p.assayPos, false⟩, ⟨2, assayAddr tb 2, 4 * p.assayPos, true⟩,
    ⟨3, assayAddr tb 3, p.assayBits, false⟩, ⟨4, assayAddr tb 4, p.assayBits, true⟩, ⟨5, assayAddr tb 5, (p.assayTiles + 7) / 8, true⟩,
    ⟨7, assayAddr tb 7, 16, true⟩] ++ (if bitAt (p.word 7) 2 then [⟨6, assayAddr tb 6, 8 * p.assayTiles, true⟩] else [])

/-- What the round commits, from the confidences and the mask. -/
def Packet.assayDone (p : Packet) (conf mb : List Byte) : Round :=
  assayRound p.assayPos (bits (p.word 4) 0 16) (p.word 5) (p.word 6) (fun k => (mb.getD (k / 8) 0).getLsbD (k % 8))
    fun k => fp32.decode (natOfBytes ((conf.drop (4 * k)).take 4))

/-- Flags of a round. -/
def Round.flags (r : Round) : FFlags := if r.nan = [] then 0 else flIV

/-- The tokens, the new mask and the dirty tiles that an ASSAY writes. -/
def Packet.assayWrites (p : Packet) (tb cand : List Byte) (r : Round) : List (Nat × Nat × List Byte) :=
  ((sortNat r.commit).map fun k => (assayAddr tb 2, 4 * k, (cand.drop (4 * k)).take 4)) ++
    [(assayAddr tb 4, 0, bitBytes p.assayPos (r.masked.filter fun k => !r.commit.contains k)),
      (assayAddr tb 5, 0, bitBytes p.assayTiles (p.dirtyTiles r))]

/-- The results that an ASSAY writes. -/
def assayResults (r : Round) (cas : Nat) : List Byte :=
  bytesOfNat 4 r.commit.length ++ bytesOfNat 4 r.masked.length ++ bytesOfNat 4 r.nan.length ++ bytesOfNat 4 cas

/-- An ASSAY that is done. -/
def Packet.assayed (p : Packet) (tb : List Byte) (r : Round) : Packet :=
  { p with
    finished := true, needsWg := p.needsWg || (p.assayUses tb).any (fun x => addrKind x.addr == 1)
    flags := r.flags, nanscore := r.nan.length }

/-- A state with an ASSAY's flags and count, while its results are written. -/
def State.assayMarked (s4 : State) (q : Queue) (p : Packet) (r : Round) : State :=
  s4.updPacket q.hdr p.seq fun x => { x with flags := r.flags, nanscore := r.nan.length }

/-- The reads of an ASSAY, and the checks of its arrays. -/
structure AssayReads (s : State) (q : Queue) (p : Packet) (tb conf cand mb : List Byte) (s1 s2 s3 s4 : State) : Prop where
  table : s.engRead p q.domain (p.dbl 10) 0 64 = .ok tb s1
  uses : ∀ x ∈ p.assayUses tb, addrForm x.addr = 0 ∧ (addrKind x.addr = 1 → s1.targetGone p = false) ∧ s1.padOutside p x.addr x.len = false
  conf : s1.engRead p q.domain (assayAddr tb 0) 0 (4 * p.assayPos) = .ok conf s2
  cand : s2.engRead p q.domain (assayAddr tb 1) 0 (4 * p.assayPos) = .ok cand s3
  mask : s3.engRead p q.domain (assayAddr tb 3) 0 p.assayBits = .ok mb s4

/-- The writes of an ASSAY. -/
structure AssayWrote (s4 : State) (q : Queue) (p : Packet) (tb cand : List Byte) (r : Round) (cas : Nat) (s5 s6 s7 : State) : Prop where
  arrays : (s4.assayMarked q p r).engWrites p q.domain (p.assayWrites tb cand r) = .ok () s5
  map : State.assaySwap p q.domain (assayAddr tb 6) (if bitAt (p.word 7) 2 then p.dirtyTiles r else []) 0
    (s5.assayBlur p q.domain (p.assayUses tb)) = .ok cas s6
  results : s6.engWrite p q.domain (assayAddr tb 7) 0 (assayResults r cas) = .ok () s7

theorem State.assayUnit_eq {tb conf cand mb : List Byte} {cas : Nat} {s1 s2 s3 s4 s5 s6 s7 : State} (hr : AssayReads s q p tb conf cand mb s1 s2 s3 s4)
    (hw : AssayWrote s4 q p tb cand (p.assayDone conf mb) cas s5 s6 s7) :
    s.assayUnit q p = .ok (p.assayed tb (p.assayDone conf mb)) (s7.assayBlur p q.domain (p.assayUses tb)) := by
  have hforms : ∀ n, n ≠ 0 → ((p.assayUses tb).map fun x => addrForm x.addr).contains n = false := fun n hn => by
    simpa using fun x hx => by
      rw [(hr.uses x hx).1]
      exact Ne.symm hn
  have hgone : ¬ (((p.assayUses tb).any fun x => addrKind x.addr == 1) = true ∧ s1.targetGone p = true) := by
    rintro ⟨hany, hgone⟩
    obtain ⟨x, hx, hkind⟩ := List.any_eq_true.1 hany
    exact Bool.noConfusion (((hr.uses x hx).2.1 (beq_iff_eq.1 hkind)).symm.trans hgone)
  have hpads : ¬ ((p.assayUses tb).any fun x => s1.padOutside p x.addr x.len) = true := by
    simpa using fun x hx => (hr.uses x hx).2.2
  unfold State.assayUnit
  refine EngRes.andThen_eq hr.table ?_
  refine (if_neg (ne_true_of_eq_false (hforms 5 (by decide)))).trans ?_
  refine (if_neg (ne_true_of_eq_false (hforms 2 (by decide)))).trans ?_
  refine (if_neg hgone).trans ((if_neg hpads).trans ?_)
  exact EngRes.andThen_eq hr.conf (EngRes.andThen_eq hr.cand (EngRes.andThen_eq hr.mask
    (EngRes.andThen_eq hw.arrays (EngRes.andThen_eq hw.map (EngRes.andThen_eq hw.results rfl)))))

theorem assay_does {tb conf cand mb : List Byte} {cas : Nat} {s1 s2 s3 s4 s5 s6 s7 : State} (hwork : s.workOf hdr seq 6 = some (q, p))
    (hr : AssayReads s q p tb conf cand mb s1 s2 s3 s4) (hw : AssayWrote s4 q p tb cand (p.assayDone conf mb) cas s5 s6 s7) :
    PacketDid (exec (.assay hdr seq) s) (s7.assayBlur p q.domain (p.assayUses tb)) hdr seq fun p' =>
      p'.finished = true ∧ p'.nanscore = (p.assayDone conf mb).nan.length ∧ p'.flags = (p.assayDone conf mb).flags := by
  obtain ⟨hq, hp, -, -⟩ := State.workOf_some hwork
  have hseq := Queue.seq_of_packet? hp
  have h4 : Steady s s4 := (((State.engRead_keeps ..).steady hr.table).trans ((State.engRead_keeps ..).steady hr.conf)).trans
    (((State.engRead_keeps ..).steady hr.cand).trans ((State.engRead_keeps ..).steady hr.mask))
  have hmarked : Runs (s4.assayMarked q p (p.assayDone conf mb)) hdr seq := by
    unfold State.assayMarked
    rw [State.hdr_of_queue? hq, hseq]
    exact ((Runs.of_work hwork).steady h4).updPacket fun _ => rfl
  have h7 : Steady (s4.assayMarked q p (p.assayDone conf mb)) (s7.assayBlur p q.domain (p.assayUses tb)) :=
    ((((State.engWrites_keeps ..).steady hw.arrays).trans (.assayBlur ..)).trans ((State.assaySwap_keeps ..).steady hw.map)).trans
      (((State.engWrite_keeps ..).steady hw.results).trans (.assayBlur ..))
  exact packetDid_of_unit hwork (State.assayUnit_eq hr hw) (hmarked.steady h7) (show p.seq = seq from hseq) ⟨rfl, rfl, rfl⟩

/-! ### What a round commits (R415) -/

theorem perm_insertBy (before : Nat → Nat → Bool) (a : Nat) (l : List Nat) : (insertBy before a l).Perm (a :: l) := by
  induction l with
  | nil => exact .refl _
  | cons b l ih =>
    unfold insertBy
    split
    · exact .refl _
    · exact (ih.cons b).trans (.swap a b l)

theorem perm_foldr_insertBy (before : Nat → Nat → Bool) (l : List Nat) : (l.foldr (insertBy before) []).Perm l := by
  induction l with
  | nil => exact .refl _
  | cons a l ih => exact (perm_insertBy before a _).trans (ih.cons a)

/-- The positions among which a round commits are the masked ones that are no NaN. -/
theorem assayRound_commit {npos share mn mx : Nat} {mask : Nat → Bool} {conf : Nat → FVal} {k : Nat}
    (hk : k ∈ (assayRound npos share mn mx mask conf).commit) :
    k ∈ (assayRound npos share mn mx mask conf).masked ∧ k ∉ (assayRound npos share mn mx mask conf).nan := by
  have hmem := (perm_foldr_insertBy _ _).subset (List.mem_of_mem_take hk)
  obtain ⟨hmask, hnum⟩ := List.mem_filter.1 hmem
  refine ⟨hmask, fun hnan => ?_⟩
  have := (List.mem_filter.1 hnan).2
  rw [this] at hnum
  cases hnum

theorem assayRound_count (npos share mn mx : Nat) (mask : Nat → Bool) (conf : Nat → FVal) :
    let r := assayRound npos share mn mx mask conf
    r.commit.length = min (min (max ((share * r.masked.length + 65535) / 65536) mn) mx) (r.masked.length - r.nan.length) := by
  have hnum : ((assayRound npos share mn mx mask conf).masked.filter fun p => !(conf p).isNan).length =
      (assayRound npos share mn mx mask conf).masked.length - (assayRound npos share mn mx mask conf).nan.length := by
    have hsum := List.length_eq_length_filter_add (l := (assayRound npos share mn mx mask conf).masked) fun p => (conf p).isNan
    exact (Nat.sub_eq_of_eq_add' hsum).symm
  refine (List.length_take ..).trans ?_
  rw [(perm_foldr_insertBy _ _).length_eq]
  refine (congrArg _ hnum).trans ?_
  exact min_eq_left (min_le_right ..)

end

end Sys2Proof.Machine
end

section
/-! SUPPORT. The statement about the work of packets (spec/12 R276-R281, spec/17 R414-R417). -/

namespace Sys2Proof.Machine

open Sys2Proof Sys2Proof.Safety

-- One proof at a time: side by side they need more threads than a check's memory holds.
set_option Elab.async false

/-- Settles O51: a unit of each packet's work unfolded along its accesses, which change no queue. -/
theorem packetsDoTheirWork : Obligations.PacketsDoTheirWork := by
  unfold Obligations.PacketsDoTheirWork
  intro s hdr seq q p dom
  refine ⟨?_, ?_, ?_, ?_, ?_, ?_, ?_, ?_⟩
  · intro a d bs pa ty w su lv sz gl s1 hform hkind hgran hsee hwalk hheld hmc hap
    exact ⟨_, State.engWrite_dram hform hkind hgran hsee hwalk hheld hmc hap, stored_physWrite _ _ _ _, fun u x => by
      rw [(Calm.physWrite s1 none pa bs u).rest]⟩
  · intro a d bs u o s1 hform hkind hsee hgone hpad hmc
    exact ⟨_, State.engWrite_pad hform hkind hsee hgone hpad hmc, State.wrWin_stores ..⟩
  · intro hwork n total
    refine ⟨fun b s1 hunits hread => copyPacket_reads hwork hunits hread, fun hunits => ?_⟩
    intro d len bs gone
    refine ⟨?_, ?_⟩
    · intro s2 hstream hmask hblur hwrite
      have hunit := State.copyUnit_writes (q := q) hunits hstream hmask hblur hwrite
      exact copyPacket_writes hwork hunit
        ((Steady.freed s _).trans ((State.engWrite_keeps ..).steady hwrite))
    · intro i u o s1 hstream hclaimed hthere hslot hsee hmc
      have hunit := State.copyUnit_streams (q := q) hunits hstream hclaimed hthere hslot hsee hmc
      refine ⟨s1.wrLoc none (.win u o) p.chunkBytes, copyPacket_writes hwork hunit
        (((State.engSee_keeps ..).steady hsee).trans (.wrLoc ..)), ?_⟩
      have hlen : p.chunkBytes.length = p.chunkLen := by rw [Packet.chunkBytes, List.length_map, List.length_range]
      have hstores := State.wrWin_stores s1 none u o p.chunkBytes
      rwa [hlen] at hstores
  · intro hwork b r s0 s1 s2 s3 rb i x hcheck hindex hrow hwrite
    exact gather_does hwork hcheck hindex hrow hwrite
  · intro hwork rows s1 s2 w es f hrows vals line qr qc tile scales fl n hwrites
    exact quant2_does hwork hrows hwrites
  · intro hwork outer w own n nb who kept
    refine ⟨coll_absent hwork outer, fun cs s1 s2 hown hcs => ⟨?_, ?_, ?_, ?_⟩⟩
    · rintro hlost junk rfl s0 hwrite
      exact coll_lost hwork hown hcs hlost hwrite
    · intro hall hsome hfunc r hwrite
      exact coll_does hwork hown hcs hall hsome (Packet.collResult_reduce hfunc _) hwrite
    · intro hall hsome hfunc es sl r hwrite
      exact coll_does hwork hown hcs hall hsome (Packet.collResult_scatter hfunc _) hwrite
    · intro hall hsome hfunc hwrite
      obtain ⟨s', q', p', hexec, hrest, hq', hp', hfin, hstatus, -⟩ :=
        coll_does hwork hown hcs hall hsome (p.collResult_whole hfunc _) hwrite
      exact ⟨s', q', p', hexec, hrest, hq', hp', hfin, hstatus⟩
  · intro hwork hseen bs s1 s2 hbs ch m hdigests hblocks hmanifest hwrites
    exact ckpt_does hwork hseen hbs hdigests hblocks hmanifest hwrites
  · intro hwork tb conf cand mb cas s1 s2 s3 s4 s5 s6 s7 npos nb a tpos tiles mark uses htable huses hconf hcand hmask r fl harrays hmap hresults
    exact ⟨assay_does hwork ⟨htable, huses, hconf, hcand, hmask⟩ ⟨harrays, hmap, hresults⟩, fun k hk => assayRound_commit hk,
      assayRound_count ..⟩

end Sys2Proof.Machine
end

section
/-! SUPPORT. Queues' headers in memory (spec/12 R270-R274), and the events QUEUE_ENABLE, QUEUE_DISABLE, LINK and ENGINE_SLOT_CLAIM. -/

namespace Sys2Proof.Machine

open Sys2Proof Sys2Proof.Safety

-- One proof at a time: side by side they need more threads than a check's memory holds.
set_option Elab.async false

/-! ### Fields of numbers in memory -/

/-- Whole bytes of a number. -/
theorem bits_natOfBytes (l : List Byte) (i n : Nat) : bits (natOfBytes l) (8 * i) (8 * n) = natOfBytes ((l.drop i).take n) := by
  have hdrop : ∀ i (l : List Byte), natOfBytes l / 2 ^ (8 * i) = natOfBytes (l.drop i) := by
    intro i
    induction i with
    | zero => intro l; simp
    | succ i ih =>
      intro l
      cases l with
      | nil => simp [natOfBytes]
      | cons b l =>
        rw [List.drop_succ_cons, ← ih l, natOfBytes, Nat.mul_succ, Nat.pow_add, Nat.mul_comm (2 ^ (8 * i)), ← Nat.div_div_eq_div_mul]
        have hb := b.isLt
        rw [show (b.toNat + 256 * natOfBytes l) / 2 ^ 8 = natOfBytes l by omega]
  have htake : ∀ n (l : List Byte), natOfBytes l % 2 ^ (8 * n) = natOfBytes (l.take n) := by
    intro n
    induction n with
    | zero => intro l; simp [natOfBytes, Nat.mod_one]
    | succ n ih =>
      intro l
      cases l with
      | nil => simp [natOfBytes]
      | cons b l =>
        rw [List.take_succ_cons, natOfBytes, natOfBytes, ← ih l, Nat.mul_succ, Nat.add_comm (8 * n), Nat.pow_add]
        have hb := b.isLt
        rw [Nat.mod_mul, show (b.toNat + 256 * natOfBytes l) % 2 ^ 8 = b.toNat by omega,
          show (b.toNat + 256 * natOfBytes l) / 2 ^ 8 = natOfBytes l by omega]
  rw [bits, hdrop, htake]

/-- Whole bytes of a queue's header. -/
theorem State.bits_hdrBits (s : State) (hdr i n : Nat) (h : i + n ≤ 64) : bits (s.hdrBits hdr) (8 * i) (8 * n) = s.rdNat (hdr + i) n := by
  rw [State.hdrBits, State.rdNat, bits_natOfBytes, State.rdBytes_part _ _ _ _ _ h, State.rdNat]

/-- QSTATUS, WM and the first failure of a queue, where they stand in its header. -/
theorem State.qStatus_hdrBits (s : State) (hdr : Nat) : qStatus (s.hdrBits hdr) = bits (s.rdNat (hdr + 18) 1) 5 2 := by
  rw [← s.bits_hdrBits hdr 18 1 (by decide), bits_bits _ _ _ _ _ (by decide)]
  rfl

theorem State.qWm_hdrBits (s : State) (hdr : Nat) : qWm (s.hdrBits hdr) = s.rdNat (hdr + 4) 4 := s.bits_hdrBits hdr 4 4 (by decide)

theorem State.failure_hdrBits (s : State) (hdr : Nat) : bits (s.hdrBits hdr) 224 40 = s.rdNat (hdr + 28) 5 := s.bits_hdrBits hdr 28 5 (by decide)

theorem State.rdNat_congr {s s' : State} {a n : Nat} (h : ∀ x, a ≤ x → x < a + n → s'.mem.get x = s.mem.get x) : s'.rdNat a n = s.rdNat a n :=
  congrArg natOfBytes (State.rdBytes_congr h)

/-- A number that has been stored. -/
theorem State.rdNat_stored {s s' : State} {a n x : Nat} (h : Stored s s' a (bytesOfNat n x)) : s'.rdNat a n = x % 256 ^ n := by
  have hlen := length_bytesOfNat n x
  have hget : s'.rdBytes a n = bytesOfNat n x := by
    have hread : s'.rdBytes a (bytesOfNat n x).length = bytesOfNat n x := State.rdBytes_of_get fun k hk => by
      refine (h (a + k)).trans ((if_pos ⟨by omega, by omega⟩).trans ?_)
      rw [Nat.add_sub_cancel_left]
    rwa [hlen] at hread
  rw [State.rdNat, hget, natOfBytes_bytesOfNat]

theorem stored_outside {s s' : State} {a n x y : Nat} (h : Stored s s' a (bytesOfNat n x)) (hy : y < a ∨ a + n ≤ y) :
    s'.mem.get y = s.mem.get y := by
  refine (h y).trans (if_neg ?_)
  rw [length_bytesOfNat]
  omega

theorem rdNat_outside {s s' : State} {a n x b m : Nat} (h : Stored s s' a (bytesOfNat n x)) (hb : b + m ≤ a ∨ a + n ≤ b) :
    s'.rdNat b m = s.rdNat b m := State.rdNat_congr fun y _ _ => stored_outside h (by omega)

/-! ### QSTATUS (R271) -/

theorem State.setStatus_stored (s : State) (hdr v : Nat) :
    Stored s (s.setStatus hdr v) (hdr + 18) (bytesOfNat 1 (putBits (s.rdNat (hdr + 18) 1) 5 2 v)) := stored_physWrite _ _ _ _

theorem bits_putBits_same (x lo n f : Nat) : bits (putBits x lo n f) lo n = f % 2 ^ n := by
  apply Nat.eq_of_testBit_eq
  intro i
  rw [bits, Nat.testBit_mod_two_pow, Nat.testBit_div_two_pow, testBit_putBits, Nat.testBit_mod_two_pow]
  by_cases hi : i < n
  · rw [if_pos (by omega), Nat.add_sub_cancel]
  · simp [hi]

theorem State.qStatus_setStatus (s : State) (hdr : Nat) {v : Nat} (hv : v < 4) : qStatus ((s.setStatus hdr v).hdrBits hdr) = v := by
  rw [State.qStatus_hdrBits, State.rdNat_stored (s.setStatus_stored hdr v)]
  have hbyte : ∀ x, bits (x % 256 ^ 1) 5 2 = bits x 5 2 := fun x => by
    have hbits := bits_bits x 0 8 5 2 (by decide)
    rwa [show bits x 0 8 = x % 256 ^ 1 by simp [bits]] at hbits
  rw [hbyte, bits_putBits_same]
  exact Nat.mod_eq_of_lt hv

theorem State.mem_setStatus (s : State) (hdr v : Nat) {a : Nat} (ha : a ≠ hdr + 18) : (s.setStatus hdr v).mem.get a = s.mem.get a :=
  stored_outside (s.setStatus_stored hdr v) (by omega)

theorem State.setStatus_steady (s : State) (hdr v : Nat) : Steady s (s.setStatus hdr v) := .physWrite ..

theorem State.setStatus_queues (s : State) (hdr v : Nat) : (s.setStatus hdr v).queues = s.queues := (s.setStatus_steady hdr v).queues

/-! ### QUEUE_ENABLE and QUEUE_DISABLE (R271) -/

section
variable {s : State} {hdr : Nat}

/-- An engine sees ENABLE = 1 in the header line of a queue that it does not serve. -/
structure Enabling (s : State) (hdr : Nat) : Prop where
  free : s.held ⟨.phys hdr, 64⟩ = false
  aligned : hdr % 64 = 0
  mapped : aperture hdr ≠ none
  unbound : s.queue? hdr = none
  enabled : qEnable (s.hdrBits hdr) = true
  accepted : qStatus (s.hdrBits hdr) ≠ 2
  served : engineExists (qClass (s.hdrBits hdr)) (qInst (s.hdrBits hdr)) = true

theorem Enabling.passes (h : Enabling s hdr) : ¬ (hdr % 64 ≠ 0 ∨ aperture hdr = none ∨ (s.queue? hdr).isSome ∨ qEnable (s.hdrBits hdr) = false ∨
    qStatus (s.hdrBits hdr) = 2 ∨ engineExists (qClass (s.hdrBits hdr)) (qInst (s.hdrBits hdr)) = false ∨ s.held ⟨.phys hdr, 64⟩) := by
  obtain ⟨hfree, haligned, hmapped, hunbound, henabled, haccepted, hserved⟩ := h
  simp [hfree, haligned, hmapped, hunbound, henabled, haccepted, hserved]

theorem queueEnable_refuses (h : Enabling s hdr) (hfull : 256 ≤ s.servedBy (qClass (s.hdrBits hdr)) (qInst (s.hdrBits hdr))) :
    exec (.queueEnable hdr) s = .next (s.setStatus hdr 2) := (if_neg h.passes).trans (if_pos hfull)

/-- The queue as an engine binds it. -/
def State.boundQueue (s : State) (hdr : Nat) : Queue := { (default : Queue) with
  hdr := hdr, cls := qClass (s.hdrBits hdr), inst := qInst (s.hdrBits hdr), domain := qDomain (s.hdrBits hdr)
  ring := (qRing (s.hdrBits hdr), qLog (s.hdrBits hdr), qRingseq (s.hdrBits hdr)), next := (qWm (s.hdrBits hdr) + 1) % 2 ^ 32 }

theorem queueEnable_binds (h : Enabling s hdr) (hroom : s.servedBy (qClass (s.hdrBits hdr)) (qInst (s.hdrBits hdr)) < 256) :
    exec (.queueEnable hdr) s = .next { s.setStatus hdr 1 with queues := (s.setStatus hdr 1).queues ++ [s.boundQueue hdr] } :=
  (if_neg h.passes).trans (if_neg (Nat.not_le.2 hroom))

theorem queueDisable_unbinds {q : Queue} (hfree : s.held ⟨.phys hdr, 64⟩ = false) (hdis : qEnable (s.hdrBits hdr) = false)
    (hq : s.queue? hdr = some q) (hidle : q.running = []) :
    exec (.queueDisable hdr) s = .next { s.setStatus hdr 0 with queues := (s.setStatus hdr 0).queues.filter fun x => x.hdr != hdr } := by
  refine (if_neg (by simp [hfree, hdis])).trans ?_
  rw [hq]
  exact if_neg (not_not.2 hidle)

theorem queueDisable_clears (hfree : s.held ⟨.phys hdr, 64⟩ = false) (hdis : qEnable (s.hdrBits hdr) = false) (hq : s.queue? hdr = none)
    (hrefused : hdr % 64 = 0 ∧ qStatus (s.hdrBits hdr) = 2 ∧ engineExists (qClass (s.hdrBits hdr)) (qInst (s.hdrBits hdr)) = true) :
    exec (.queueDisable hdr) s = .next (s.setStatus hdr 0) := by
  refine (if_neg (by simp [hfree, hdis])).trans ?_
  rw [hq]
  exact if_pos hrefused

end

end Sys2Proof.Machine
end

section
/-! SUPPORT. Packets' events: LINK, ENGINE_SLOT_CLAIM, PACKET_START and PACKET_COMPLETE (spec/12 R264, R265, R272, R274, R277, R282),
and the statement about queues. -/

namespace Sys2Proof.Machine

open Sys2Proof Sys2Proof.Safety

-- One proof at a time: side by side they need more threads than a check's memory holds.
set_option Elab.async false

section
variable {s : State} {hdr seq : Nat} {q : Queue} {p : Packet}

/-! ### LINK (R272, R282) -/

/-- The ring that a LINK names. -/
def Packet.ringOf (p : Packet) (seq : Nat) : Nat × Nat × Nat := (p.dbl 4, p.word 6, (seq + 1) % 2 ^ 32)

theorem link_exec (hwork : s.workOf hdr seq 7 = some (q, p)) :
    exec (.link hdr seq) s = .next ((s.updQueue hdr fun x => { x with ring := p.ringOf seq }).endPacket hdr seq 0) := by
  show execLink hdr seq s = _
  unfold execLink Packet.ringOf
  rw [hwork]

theorem link_does (hwork : s.workOf hdr seq 7 = some (q, p)) {ring : Nat × Nat × Nat} (hring : p.ringOf seq = ring) :
    ∃ s' q', exec (.link hdr seq) s = .next s' ∧ s' = { s with queues := s'.queues } ∧
      s'.queue? hdr = some q' ∧ q'.ring = ring ∧ q'.packet? seq = some { p with finished := true, status := 0 } ∧
      q'.next = q.next ∧ q'.domain = q.domain := by
  obtain ⟨hq, hp, -, -⟩ := State.workOf_some hwork
  have hexec := link_exec hwork
  rw [hring] at hexec
  have hnamed : (s.updQueue hdr fun x => { x with ring := ring }).queue? hdr = some { q with ring := ring } :=
    State.queue?_updQueue (f := fun x => { x with ring := ring }) hq (show q.hdr = hdr from State.hdr_of_queue? hq)
  exact ⟨_, _, hexec, rfl, State.queue?_updPacket hnamed seq _, rfl,
    Queue.packet?_map (q := { q with ring := ring }) hp (f := fun p => { p with finished := true, status := 0 })
      (show p.seq = seq from Queue.seq_of_packet? hp), rfl, rfl⟩

/-! ### ENGINE_SLOT_CLAIM (R277) -/

/-- A stream COPY that has read its source and claims a slot. -/
structure Claiming (s : State) (hdr seq : Nat) (q : Queue) (p : Packet) : Prop where
  work : s.workOf hdr seq 1 = some (q, p)
  stream : p.stream = true
  unclaimed : p.claimed = none
  read : p.word 8 ≤ 64 * p.units

/-- The stream that a packet names. -/
def State.streamOf (s : State) (p : Packet) : Stream := s.stream p.tgtWg p.tgtCrew p.tgtReg

theorem Claiming.exec_eq (h : Claiming s hdr seq q p) : exec (.engineSlotClaim hdr seq) s =
    if s.targetThere p = false then .next (s.endPacket hdr seq 3)
    else if 64 * (s.streamOf p).ring.slotsz < p.word 8 then .next (s.endPacket hdr seq 7)
    else if s.behind p (fun x => x.claimed.isNone) then .fault .notEnabled
    else match (s.streamOf p).canClaim with
      | [] => .fault .notEnabled
      | i :: _ => .next ((s.updStream p.tgtWg p.tgtCrew p.tgtReg fun x => x.claim i).updPacket hdr seq fun x => { x with
          claimed := some i, bound := (s.streamOf p).ring.num, finished := p.word 8 == 0 }) := by
  obtain ⟨hwork, hstream, hunclaimed, hread⟩ := h
  show execEngineSlotClaim hdr seq s = _
  unfold execEngineSlotClaim
  rw [hwork]
  refine (if_neg ?_).trans rfl
  rintro (h | h | h)
  · exact Bool.noConfusion (hstream.symm.trans h)
  · exact h hunclaimed
  · omega

theorem packetDid_endPacket (hwork : s.workOf hdr seq 1 = some (q, p)) (status : Nat) :
    PacketDid (.next (s.endPacket hdr seq status)) s hdr seq fun p' => p'.finished = true ∧ p'.status = status := by
  obtain ⟨hq, hp, -, -⟩ := State.workOf_some hwork
  exact packetDid_of_updPacket hq hp (f := fun p => { p with finished := true, status := status })
    (show p.seq = seq from Queue.seq_of_packet? hp) ⟨rfl, rfl⟩

theorem State.stream_updStream_self (s : State) (t c n : Nat) (f : Stream → Stream) : (s.updStream t c n f).stream t c n = f (s.stream t c n) := by
  unfold State.updStream State.stream
  rw [State.wg_updWg_self, Workgroup.crew_updCrew_self]
  exact SMap.get_upd_self ..

theorem engineSlotClaim_claims {i : Nat} {rest : List Nat} (h : Claiming s hdr seq q p) (hthere : s.targetThere p = true)
    (hfits : p.word 8 ≤ 64 * (s.streamOf p).ring.slotsz) (hfirst : s.behind p (fun y => y.claimed.isNone) = false)
    (hfree : (s.streamOf p).canClaim = i :: rest) :
    ∃ s' q' p', exec (.engineSlotClaim hdr seq) s = .next s' ∧ MemKept s s' ∧ s'.queue? hdr = some q' ∧ q'.packet? seq = some p' ∧
      p'.claimed = some i ∧ p'.bound = (s.streamOf p).ring.num ∧ p'.status = p.status ∧
      s'.streamOf p = { s.streamOf p with newClaimed := (s.streamOf p).newClaimed ++ [i] } := by
  obtain ⟨hq, hp, -, -⟩ := State.workOf_some h.work
  have hexec : exec (.engineSlotClaim hdr seq) s = .next ((s.updStream p.tgtWg p.tgtCrew p.tgtReg fun x => x.claim i).updPacket hdr seq fun x => { x with
      claimed := some i, bound := (s.streamOf p).ring.num, finished := p.word 8 == 0 }) := by
    rw [h.exec_eq, if_neg (by rw [hthere]; exact Bool.noConfusion), if_neg (Nat.not_lt.2 hfits), if_neg (by rw [hfirst]; exact Bool.noConfusion),
      hfree]
  exact ⟨_, _, _, hexec, fun _ => rfl, State.queue?_updPacket (s := s.updStream p.tgtWg p.tgtCrew p.tgtReg fun x => x.claim i) hq seq _,
    Queue.packet?_map hp (f := fun x => { x with claimed := some i, bound := (s.streamOf p).ring.num, finished := p.word 8 == 0 })
      (show p.seq = seq from Queue.seq_of_packet? hp), rfl, rfl, rfl, State.stream_updStream_self s _ _ _ _⟩

/-! ### PACKET_START (R274) -/

/-- The next packet of a queue may start: its header is free, it is enabled, and WRIDX has passed it. -/
structure Starting (s : State) (hdr : Nat) (q : Queue) : Prop where
  queue : s.queue? hdr = some q
  free : s.held ⟨.phys hdr, 64⟩ = false
  going : q.halted = false
  enabled : qEnable (s.hdrBits hdr) = true
  posted : seqGe (qWridx (s.hdrBits hdr)) q.next = true
  unlinked : (q.running.any fun p => p.op == 7 && !p.finished) = false

/-- The next packet of a queue as the engine fetches it from its slot, before its words are read. -/
def Queue.entering (q : Queue) (pa : Nat) : Packet :=
  { (default : Packet) with seq := q.next, slot := pa, die := if q.cls = 0 then some q.inst else none }

/-- The packet with its words, as it enters the engine. -/
def State.entered (s0 : State) (e : Packet) : Packet :=
  s0.enterColl { { e with words := wordsLE (s0.rdBytes e.slot 64) } with
    needsWg := ({ e with words := wordsLE (s0.rdBytes e.slot 64) } : Packet).usesWg }

/-- The queue after its next packet has started. -/
def Queue.started (q : Queue) (p : Packet) : Queue := { q with next := (q.next + 1) % 2 ^ 32, running := q.running ++ [p] }

/-- The outcome of a start. -/
def startOutcome (hdr : Nat) (p : Packet) : EngRes Packet → Host.Outcome State Fault Refusal
  | .wait => .fault .notEnabled
  | .ok p1 s1 => .next (s1.updQueue hdr fun x => x.started p1)
  | .stop c s1 => .next (s1.updQueue hdr fun x => x.started { p with finished := true, status := c })

theorem Starting.passes (h : Starting s hdr q) : ¬ (q.halted = true ∨ s.held ⟨.phys hdr, 64⟩ = true ∨ qEnable (s.hdrBits hdr) = false ∨
    seqGe (qWridx (s.hdrBits hdr)) q.next = false ∨ (q.running.any fun p => p.op == 7 && !p.finished) = true) := by
  obtain ⟨-, hfree, hgoing, henabled, hposted, hunlinked⟩ := h
  rw [hfree, hgoing, henabled, hposted, hunlinked]
  decide

/-- A queue whose next slot is not mapped halts. -/
theorem packetStart_halts {c lv : Nat} {tbl : Dword} (h : Starting s hdr q) (hwalk : s.walkMem q.domain true (q.slotVa q.next) = .fail c lv tbl) :
    exec (.packetStart hdr) s = .next (s.haltQueue q) := by
  show execPacketStart hdr s = _
  unfold execPacketStart
  rw [h.queue]
  refine (if_neg h.passes).trans ?_
  rw [hwalk]

theorem packetStart_starts {pa lv sz : Nat} {w su : Bool} {gl : Dword} {s0 : State} (h : Starting s hdr q)
    (hwalk : s.walkMem q.domain true (q.slotVa q.next) = .ok pa 0 w su lv sz gl) (hheld : s.held ⟨.phys pa, 64⟩ = false)
    (hmc : s.mcOf ⟨.phys pa, 64⟩ = none) (hseq : s.rdNat pa 4 = q.next) (hsee : s.engSee (q.entering pa) [⟨.phys pa, 64⟩] = .ok () s0) :
    exec (.packetStart hdr) s = startOutcome hdr (s0.entered (q.entering pa)) (s0.startPacket q (s0.entered (q.entering pa))) := by
  show execPacketStart hdr s = _
  unfold execPacketStart
  rw [h.queue]
  refine (if_neg h.passes).trans ?_
  rw [hwalk]
  refine (if_neg (not_not.2 rfl)).trans ((if_neg (ne_true_of_eq_false hheld)).trans ?_)
  rw [hmc]
  refine (if_neg (not_not.2 hseq)).trans ?_
  unfold startOutcome State.entered Queue.started
  unfold Queue.entering at hsee ⊢
  dsimp only at hsee ⊢
  -- where the match of the definition is seen, the rewrite closes the goal
  rw [hsee] <;>
    (dsimp only
     generalize s0.startPacket q _ = r
     cases r <;> rfl)

/-- A packet that has entered stands at the end of its queue. -/
theorem packetStart_enters {pa lv sz : Nat} {w su : Bool} {gl : Dword} {s0 s1 : State} {p1 : Packet} (h : Starting s hdr q)
    (hwalk : s.walkMem q.domain true (q.slotVa q.next) = .ok pa 0 w su lv sz gl) (hheld : s.held ⟨.phys pa, 64⟩ = false)
    (hmc : s.mcOf ⟨.phys pa, 64⟩ = none) (hseq : s.rdNat pa 4 = q.next) (hsee : s.engSee (q.entering pa) [⟨.phys pa, 64⟩] = .ok () s0)
    (hsteady : Steady s0 s1) (hstart : startOutcome hdr (s0.entered (q.entering pa)) (s0.startPacket q (s0.entered (q.entering pa))) =
      .next (s1.updQueue hdr fun x => x.started p1)) :
    ∃ s', exec (.packetStart hdr) s = .next s' ∧ MemKept s1 s' ∧ s'.queue? hdr = some (q.started p1) := by
  have hq : s1.queue? hdr = some q := by
    rw [hsteady.queue?, ((State.engSee_keeps ..).steady hsee).queue?, h.queue]
  exact ⟨_, (packetStart_starts h hwalk hheld hmc hseq hsee).trans hstart, fun _ => rfl,
    State.queue?_updQueue (f := fun x => x.started p1) hq (show q.hdr = hdr from State.hdr_of_queue? hq)⟩

theorem State.startPacket_stops {s0 : State} {c : Nat} (h : s0.startStatus q.cls p = c) (hc : c ≠ 0) : s0.startPacket q p = .stop c s0 := by
  unfold State.startPacket
  split
  next h0 => exact absurd (h.symm.trans h0) hc
  next => rw [h]

theorem State.startPacket_works {s0 : State} (h : s0.startStatus q.cls p = 0) (h4 : p.op ≠ 4) (h5 : p.op ≠ 5) :
    s0.startPacket q p = .ok { (if p.op == 1 && p.stream && p.word 8 == 0 then s0.readDone p else p) with finished := p.work == 0 } s0 := by
  unfold State.startPacket
  rw [h]
  split
  · split
    next h => exact absurd h h5
    next h => exact absurd h h4
    next h => rw [h]; rfl
    next h1 => rw [show (p.op == 1) = false from beq_eq_false_iff_ne.2 h1]; rfl
  next h0 => exact absurd rfl h0

theorem State.startPacket_coll {s0 : State} (h : s0.startStatus q.cls p = 0) (h4 : p.op = 4) : s0.startPacket q p = .ok p s0 := by
  unfold State.startPacket
  rw [h, h4]
  rfl

theorem State.startPacket_ckpt {s0 s1 : State} {l : List (Nat × Nat × Nat × Nat)} (h : s0.startStatus q.cls p = 0) (h5 : p.op = 5)
    (hl : State.ckptBlocks p q.domain ((List.range (bits (p.word 3) 8 8)).map (bits (p.word 3) 0 8 + ·)) [] s0 = .ok l s1) :
    s0.startPacket q p = .ok { p with blocks := l } s1 := by
  unfold State.startPacket
  rw [h, h5]
  exact EngRes.andThen_eq hl rfl

/-- A COLL enters with the membership table as it stands, and its full byte count. -/
theorem State.enterColl_coll {s0 : State} (h4 : (s0.enterColl p).op = 4) : (s0.enterColl p).ring = (List.range 64).map s0.regs.ring.get ∧
    (s0.enterColl p).bytes = (s0.enterColl p).collBytes s0.regs.ringpos.toNat := by
  have hop : p.op = 4 := by
    unfold State.enterColl at h4
    split at h4
    · assumption
    · exact h4
  unfold State.enterColl
  rw [if_pos hop]
  exact ⟨rfl, rfl⟩

/-! ### Halting (R274) -/

theorem State.recordError_outside (s : State) (hdr seq status : Nat) {a : Nat} (ha : a < hdr + 28 ∨ hdr + 33 ≤ a) :
    (s.recordError hdr seq status).mem.get a = s.mem.get a := by
  unfold State.recordError
  dsimp only
  split
  · exact stored_outside (n := 5) (stored_physWrite _ _ _ _) (by omega)
  · rfl

theorem State.recordError_first (s : State) (hdr seq status : Nat) (h : s.rdNat (hdr + 28) 5 = 0) :
    (s.recordError hdr seq status).rdNat (hdr + 28) 5 = (seq + status * 2 ^ 32) % 2 ^ 40 := by
  unfold State.recordError
  dsimp only
  rw [State.failure_hdrBits, if_pos h]
  exact State.rdNat_stored (stored_physWrite _ _ _ _)

theorem Steady.recordError (s : State) (hdr seq status : Nat) : Steady s (s.recordError hdr seq status) := by
  unfold State.recordError
  dsimp only
  split
  · exact .physWrite ..
  · exact .refl s

theorem Calm.recordError (s : State) (hdr seq status u : Nat) : Calm (s.wg u) ((s.recordError hdr seq status).wg u) := by
  unfold State.recordError
  dsimp only
  split
  · exact .physWrite ..
  · exact .refl _

theorem State.haltQueue_halts (h : s.queue? hdr = some q) : qStatus ((s.haltQueue q).hdrBits hdr) = 3 ∧
    (s.haltQueue q).queue? hdr = some { q with halted := true } ∧ ∀ a, a < hdr + 18 ∨ hdr + 33 ≤ a → (s.haltQueue q).mem.get a = s.mem.get a := by
  have hhdr := State.hdr_of_queue? h
  have hhalt : s.haltQueue q = ((s.recordError hdr q.next 1).setStatus hdr 3).updQueue hdr fun x => { x with halted := true } := by
    unfold State.haltQueue
    rw [hhdr]
  rw [hhalt]
  refine ⟨State.qStatus_setStatus (s.recordError hdr q.next 1) hdr (by decide), ?_, fun a ha => ?_⟩
  · have hq : ((s.recordError hdr q.next 1).setStatus hdr 3).queue? hdr = some q := by
      rw [(State.setStatus_steady ..).queue?, (Steady.recordError ..).queue?, h]
    exact State.queue?_updQueue (f := fun x => { x with halted := true }) hq (show q.hdr = hdr from hhdr)
  · exact (State.mem_setStatus _ hdr 3 (by omega)).trans (s.recordError_outside hdr q.next 1 (by omega))

end

end Sys2Proof.Machine
end

section
/-! SUPPORT. PACKET_COMPLETE (spec/12 R264, R265, R274). -/

namespace Sys2Proof.Machine

open Sys2Proof Sys2Proof.Safety

-- One proof at a time: side by side they need more threads than a check's memory holds.
set_option Elab.async false

section
variable {s : State} {hdr : Nat} {q : Queue} {p : Packet}

/-- A finished packet of a queue may complete; its slot lies outside the queue's header. -/
structure Completing (s : State) (hdr : Nat) (q : Queue) (p : Packet) : Prop where
  queue : s.queue? hdr = some q
  free : s.held ⟨.phys hdr, 64⟩ = false
  packet : q.packet? p.seq = some p
  finished : p.finished = true
  first : s.behind p (fun _ => true) = false
  slotFree : s.held ⟨.phys p.slot, 64⟩ = false
  apart : p.slot + 64 ≤ hdr ∨ hdr + 64 ≤ p.slot

/-- STATUS is written to the packet's slot. -/
def State.statusPut (s : State) (p : Packet) : State := s.physWrite none (p.slot + 7) (bytesOfNat 1 (s.finalStatus p))

/-- A failure is recorded. -/
def State.failurePut (s : State) (hdr : Nat) (p : Packet) : State :=
  if s.finalStatus p = 0 ∨ s.finalStatus p = 8 then s.statusPut p else (s.statusPut p).recordError hdr p.seq (s.finalStatus p)

/-- The new watermark, and the packets that are complete above it. -/
def State.wmAfter (s : State) (hdr : Nat) (q : Queue) (p : Packet) : Nat × List Nat :=
  raiseWm (q.done.length + 1) (qWm ((s.failurePut hdr p).hdrBits hdr)) (q.done ++ [p.seq])

/-- WM is raised. -/
def State.wmPut (s : State) (hdr : Nat) (q : Queue) (p : Packet) : State :=
  if (s.wmAfter hdr q p).1 = qWm ((s.failurePut hdr p).hdrBits hdr) then s.failurePut hdr p
  else (s.failurePut hdr p).physWrite none (hdr + 4) (bytesOfNat 4 (s.wmAfter hdr q p).1)

/-- The queue after the packet has left it. -/
def Queue.without (q : Queue) (seq : Nat) (done : List Nat) : Queue := { q with running := q.running.filter fun y => y.seq != seq, done := done }

/-- The state in which the packet has left its queue. -/
def State.packetLeft (s : State) (hdr : Nat) (q : Queue) (p : Packet) : State :=
  (s.wmPut hdr q p).updQueue hdr fun x => x.without p.seq (s.wmAfter hdr q p).2

/-- The packet with the status that it completes with. -/
def State.completed (s : State) (p : Packet) : Packet := { p with status := s.finalStatus p }

theorem packetComplete_exec (h : Completing s hdr q p) : exec (.packetComplete hdr p.seq) s =
    .next (((s.packetLeft hdr q p).mergeSummary (s.completed p)).signal (s.completed p)) := by
  obtain ⟨hq, hfree, hp, hfin, hfirst, hslot, -⟩ := h
  show execPacketComplete hdr p.seq s = _
  unfold execPacketComplete
  rw [hq]
  dsimp only
  rw [hp]
  refine (if_neg ?_).trans rfl
  rw [hfin, hfirst, hfree, hslot]
  decide

/-! ### Memory -/

theorem State.statusPut_stored (s : State) (p : Packet) : Stored s (s.statusPut p) (p.slot + 7) (bytesOfNat 1 (s.finalStatus p)) :=
  stored_physWrite _ _ _ _

theorem State.mem_failurePut (s : State) (hdr : Nat) (p : Packet) {a : Nat} (ha : a < hdr + 28 ∨ hdr + 33 ≤ a) :
    (s.failurePut hdr p).mem.get a = (s.statusPut p).mem.get a := by
  unfold State.failurePut
  split
  · rfl
  · exact State.recordError_outside _ _ _ _ ha

theorem State.mem_wmPut (s : State) (hdr : Nat) (q : Queue) (p : Packet) {a : Nat} (ha : a < hdr + 4 ∨ hdr + 8 ≤ a) :
    (s.wmPut hdr q p).mem.get a = (s.failurePut hdr p).mem.get a := by
  unfold State.wmPut
  split
  · rfl
  · exact stored_outside (stored_physWrite _ _ _ _) (by omega)

theorem State.mem_wmPut_slot (happ : p.slot + 64 ≤ hdr ∨ hdr + 64 ≤ p.slot) :
    ((s.wmPut hdr q p).mem.get (p.slot + 7)).toNat = s.finalStatus p % 256 := by
  rw [State.mem_wmPut _ _ _ _ (by omega), State.mem_failurePut _ _ _ (by omega), s.statusPut_stored p]
  rw [if_pos ⟨le_rfl, by rw [length_bytesOfNat]; omega⟩, Nat.sub_self]
  simp [bytesOfNat]

theorem State.mem_wmPut_other {a : Nat} (hslot : a ≠ p.slot + 7) (hwm : a < hdr + 4 ∨ hdr + 8 ≤ a) (hfail : a < hdr + 28 ∨ hdr + 33 ≤ a) :
    (s.wmPut hdr q p).mem.get a = s.mem.get a := by
  rw [State.mem_wmPut _ _ _ _ hwm, State.mem_failurePut _ _ _ hfail]
  exact stored_outside (s.statusPut_stored p) (by omega)

/-- The header as the slot's STATUS leaves it. -/
theorem State.rdNat_statusPut (happ : p.slot + 64 ≤ hdr ∨ hdr + 64 ≤ p.slot) {i n : Nat} (hi : i + n ≤ 64) :
    (s.statusPut p).rdNat (hdr + i) n = s.rdNat (hdr + i) n := rdNat_outside (s.statusPut_stored p) (by omega)

theorem State.failure_wmPut (happ : p.slot + 64 ≤ hdr ∨ hdr + 64 ≤ p.slot) (h0 : s.finalStatus p ≠ 0) (h8 : s.finalStatus p ≠ 8)
    (hfirst : bits (s.hdrBits hdr) 224 40 = 0) :
    bits ((s.wmPut hdr q p).hdrBits hdr) 224 40 = (p.seq + s.finalStatus p * 2 ^ 32) % 2 ^ 40 := by
  rw [State.failure_hdrBits] at hfirst ⊢
  have hwm : (s.wmPut hdr q p).rdNat (hdr + 28) 5 = (s.failurePut hdr p).rdNat (hdr + 28) 5 :=
    State.rdNat_congr fun y _ _ => State.mem_wmPut _ _ _ _ (by omega)
  rw [hwm, State.failurePut, if_neg (by omega)]
  exact State.recordError_first _ _ _ _ ((State.rdNat_statusPut happ (by decide)).trans hfirst)

theorem State.qWm_failurePut (happ : p.slot + 64 ≤ hdr ∨ hdr + 64 ≤ p.slot) :
    qWm ((s.failurePut hdr p).hdrBits hdr) = qWm (s.hdrBits hdr) := by
  rw [State.qWm_hdrBits, State.qWm_hdrBits, ← State.rdNat_statusPut (s := s) happ (by decide)]
  exact State.rdNat_congr fun y _ _ => State.mem_failurePut _ _ _ (by omega)

theorem State.qWm_wmPut (hlt : (s.wmAfter hdr q p).1 < 2 ^ 32) : qWm ((s.wmPut hdr q p).hdrBits hdr) = (s.wmAfter hdr q p).1 := by
  unfold State.wmPut
  split
  next h => exact h.symm
  · rw [State.qWm_hdrBits, State.rdNat_stored (stored_physWrite _ _ _ _)]
    exact Nat.mod_eq_of_lt hlt

theorem qWm_lt (h : Nat) : qWm h < 2 ^ 32 := bits_lt ..

/-- A packet that completes in a queue where nothing is complete above WM. -/
theorem State.wmAfter_alone (happ : p.slot + 64 ≤ hdr ∨ hdr + 64 ≤ p.slot) (hdone : q.done = []) :
    (p.seq = (qWm (s.hdrBits hdr) + 1) % 2 ^ 32 → s.wmAfter hdr q p = (p.seq, [])) ∧
      (p.seq ≠ (qWm (s.hdrBits hdr) + 1) % 2 ^ 32 → s.wmAfter hdr q p = (qWm (s.hdrBits hdr), [p.seq])) := by
  unfold State.wmAfter
  rw [State.qWm_failurePut happ, hdone]
  generalize qWm (s.hdrBits hdr) = wm
  generalize hn : (wm + 1) % 2 ^ 32 = n
  have hraise : raiseWm 1 wm [p.seq] = if [p.seq].contains n then raiseWm 0 n ([p.seq].filter (· != n)) else (wm, [p.seq]) := by
    rw [← hn]
    rfl
  refine ⟨fun h => hraise.trans ?_, fun h => hraise.trans (if_neg (by simpa using Ne.symm h))⟩
  rw [if_pos (by simp [h]), h]
  simp [raiseWm]

/-! ### Workgroups and queues -/

theorem State.wmPut_steady (s : State) (hdr : Nat) (q : Queue) (p : Packet) : Steady s (s.wmPut hdr q p) := by
  have hfail : Steady s (s.failurePut hdr p) := by
    unfold State.failurePut
    split
    · exact .physWrite ..
    · exact (Steady.physWrite ..).trans (.recordError ..)
  unfold State.wmPut
  split
  · exact hfail
  · exact hfail.trans (.physWrite ..)

theorem State.wmPut_calm (s : State) (hdr : Nat) (q : Queue) (p : Packet) (u : Nat) : Calm (s.wg u) ((s.packetLeft hdr q p).wg u) := by
  have hfail : Calm (s.wg u) ((s.failurePut hdr p).wg u) := by
    unfold State.failurePut
    split
    · exact .physWrite ..
    · exact (Calm.physWrite ..).trans (.recordError ..)
  show Calm (s.wg u) ((s.wmPut hdr q p).wg u)
  unfold State.wmPut
  split
  · exact hfail
  · exact hfail.trans (.physWrite ..)

theorem State.queue?_packetLeft (h : s.queue? hdr = some q) :
    (s.packetLeft hdr q p).queue? hdr = some (q.without p.seq (s.wmAfter hdr q p).2) :=
  State.queue?_updQueue (f := fun x => x.without p.seq (s.wmAfter hdr q p).2) (((s.wmPut_steady hdr q p).queue? hdr).trans h)
    (show q.hdr = hdr from State.hdr_of_queue? h)

theorem State.mergeSummary_steady (s : State) (p : Packet) : Steady s (s.mergeSummary p) := by
  unfold State.mergeSummary
  split
  · exact .updWg _ _ (.of_crews fun _ => rfl)
  · exact .refl s

theorem State.signal_steady (s : State) (p : Packet) : Steady s (s.signal p) := by
  unfold State.signal
  dsimp only
  split
  · exact .refl s
  · split
    · split
      · split
        · next i _ _ =>
          have hstream : Steady s (s.updStream p.tgtWg p.tgtCrew p.tgtReg fun q => q.commit i) := .updWg s _ (.updCrew _ fun _ => rfl)
          exact hstream.trans (.of_wgs rfl rfl)
        · exact .refl s
      · exact .refl s
    · split
      · refine .over (fun s c => ?_) _ s
        split
        · exact .arrive ..
        · exact .refl s
      · exact .arrive ..

/-- What a packet's target is there by. -/
structure SameTarget (s s' : State) (p : Packet) : Prop where
  life : (s'.wg p.tgtWg).life = (s.wg p.tgtWg).life
  held : ((s'.wg p.tgtWg).crew p.tgtCrew).held = ((s.wg p.tgtWg).crew p.tgtCrew).held
  streams : ((s'.wg p.tgtWg).crew p.tgtCrew).streams = ((s.wg p.tgtWg).crew p.tgtCrew).streams

theorem SameTarget.stream {s' : State} (h : SameTarget s s' p) (n : Nat) : s'.stream p.tgtWg p.tgtCrew n = s.stream p.tgtWg p.tgtCrew n := by
  rw [State.stream, State.stream, h.streams]

theorem SameTarget.there {s' : State} (h : SameTarget s s' p) : s'.targetThere p = s.targetThere p := by
  unfold State.targetThere State.targetGone
  rw [h.life, h.held, h.stream]

theorem sameTarget_completed (s : State) (hdr : Nat) (q : Queue) (p x : Packet) :
    SameTarget s ((s.packetLeft hdr q p).mergeSummary x) p := by
  have hcalm := s.wmPut_calm hdr q p p.tgtWg
  have hcrew := hcalm.crew p.tgtCrew
  have hleft : SameTarget s (s.packetLeft hdr q p) p := ⟨by rw [hcalm.rest], by rw [hcrew], by rw [hcrew]⟩
  unfold State.mergeSummary
  split
  · by_cases hu : p.tgtWg = x.tgtWg
    · have hself : (((s.packetLeft hdr q p).updWg x.tgtWg fun w => w.sumUp x.flags x.satcnt x.nanscore).wg p.tgtWg) =
          ((s.packetLeft hdr q p).wg p.tgtWg).sumUp x.flags x.satcnt x.nanscore := by rw [hu, State.wg_updWg_self]
      refine ⟨?_, ?_, ?_⟩ <;> rw [hself]
      · exact hleft.life
      · exact hleft.held
      · exact hleft.streams
    · refine ⟨?_, ?_, ?_⟩ <;> rw [State.wg_updWg_ne _ _ hu]
      · exact hleft.life
      · exact hleft.held
      · exact hleft.streams
  · exact hleft

/-- Barriers as the summary's merge leaves them. -/
theorem State.barriers_completed (s : State) (hdr : Nat) (q : Queue) (p x : Packet) (u : Nat) :
    (((s.packetLeft hdr q p).mergeSummary x).wg u).barriers = (s.wg u).barriers := by
  have hcalm : ((s.packetLeft hdr q p).wg u).barriers = (s.wg u).barriers := by rw [(s.wmPut_calm hdr q p u).rest]
  unfold State.mergeSummary
  split
  · by_cases hu : u = x.tgtWg
    · subst hu
      rw [State.wg_updWg_self]
      exact hcalm
    · rw [State.wg_updWg_ne _ _ hu, hcalm]
  · exact hcalm

theorem State.finalStatus_there (h : s.targetThere p = true) : s.finalStatus p = p.status :=
  if_neg fun hc => Bool.noConfusion (h.symm.trans hc.2.2)

/-! ### The arrival and the commit (R265) -/

/-- The packet signals its target: it has one, keeps its form, and its target is there. -/
structure Signals (s : State) (p : Packet) : Prop where
  target : p.tgten = true
  form : p.tgtOk = true
  there : s.targetThere p = true
  op : p.op ≠ 7
  status : p.status ≠ 3

theorem Signals.passes (h : Signals s p) : ¬ (p.tgten = false ∨ p.op = 7 ∨ p.tgtOk = false ∨ s.targetThere p = false ∨ p.status = 3) := by
  obtain ⟨htarget, hform, hthere, hop, hstatus⟩ := h
  simp [htarget, hform, hthere, hop, hstatus]

theorem Signals.alive (h : Signals s p) : (s.wg p.tgtWg).life ≠ .absent := by
  have hthere := h.there
  unfold State.targetThere State.targetGone at hthere
  intro hlife
  rw [hlife] at hthere
  cases hthere

theorem Signals.arrives (h : Signals s p) (hstream : p.stream = false) (hone : p.op ≠ 1 ∨ p.mask = 0) :
    ((s.signal p).wg p.tgtWg).barriers.get p.tgtReg = ((s.wg p.tgtWg).barriers.get p.tgtReg).add 1 p.nominal 0 := by
  have hsignal : s.signal p = s.arrive p.tgtWg p.tgtReg 1 p.nominal :=
    (if_neg h.passes).trans ((if_neg (ne_true_of_eq_false hstream)).trans (if_neg fun hc => hone.elim (· hc.1) (hc.2 ·)))
  have hbar : ∀ s' : State, s'.wgs = (s.updWg p.tgtWg fun w => { w with barriers := w.barriers.upd p.tgtReg fun x => x.add 1 p.nominal 0 }).wgs →
      (s'.wg p.tgtWg).barriers.get p.tgtReg = ((s.wg p.tgtWg).barriers.get p.tgtReg).add 1 p.nominal 0 := fun s' hwgs => by
    have hwg : s'.wg p.tgtWg = (s.updWg p.tgtWg fun w => { w with barriers := w.barriers.upd p.tgtReg fun x => x.add 1 p.nominal 0 }).wg p.tgtWg :=
      congrArg (SMap.get · p.tgtWg) hwgs
    rw [hwg, State.wg_updWg_self]
    exact SMap.get_upd_self (s.wg p.tgtWg).barriers p.tgtReg fun x => x.add 1 p.nominal 0
  rw [hsignal]
  unfold State.arrive
  dsimp only
  rw [if_neg h.alive]
  split
  · exact hbar _ rfl
  · exact hbar _ rfl

theorem Signals.commits (h : Signals s p) {i : Nat} (hstream : p.stream = true) (hclaimed : p.claimed = some i) (h0 : p.status = 0) :
    (s.signal p).streamOf p = { s.streamOf p with newFull := (s.streamOf p).newFull ++ [i] } := by
  have hsignal : s.signal p = (s.updStream p.tgtWg p.tgtCrew p.tgtReg fun q => q.commit i).endIssues (s.wg p.tgtWg).core := by
    refine (if_neg h.passes).trans ((if_pos hstream).trans ?_)
    rw [hclaimed]
    exact if_pos h0
  rw [hsignal]
  exact State.stream_updStream_self s _ _ _ _

theorem State.signal_none (h : p.tgten = false) : s.signal p = s := if_pos (.inl h)

theorem State.mergeSummary_none (h : p.tgten = false) : s.mergeSummary p = s := if_neg fun hc => Bool.noConfusion (h.symm.trans hc.1)

/-- The packet signals its target once it has left its queue. -/
theorem Signals.of_completed (htarget : p.tgten = true) (hform : p.tgtOk = true) (hthere : s.targetThere p = true) (hop : p.op ≠ 7)
    (hstatus : p.status ≠ 3) (hdr : Nat) (q : Queue) : Signals ((s.packetLeft hdr q p).mergeSummary (s.completed p)) (s.completed p) where
  target := htarget
  form := hform
  there := ((sameTarget_completed s hdr q p (s.completed p)).there (p := p)).trans hthere
  op := hop
  status := by
    show s.finalStatus p ≠ 3
    rwa [State.finalStatus_there hthere]

/-- The state that PACKET_COMPLETE leaves. -/
def State.packetDone (s : State) (hdr : Nat) (q : Queue) (p : Packet) : State :=
  ((s.packetLeft hdr q p).mergeSummary (s.completed p)).signal (s.completed p)

theorem State.mem_packetDone (s : State) (hdr : Nat) (q : Queue) (p : Packet) : (s.packetDone hdr q p).mem = (s.wmPut hdr q p).mem := by
  rw [State.packetDone, State.signal_mem, State.mergeSummary_mem]
  rfl

theorem State.hdrBits_packetDone (s : State) (hdr : Nat) (q : Queue) (p : Packet) :
    (s.packetDone hdr q p).hdrBits hdr = (s.wmPut hdr q p).hdrBits hdr :=
  State.rdNat_congr fun y _ _ => by rw [State.mem_packetDone]

theorem State.queue?_packetDone (h : s.queue? hdr = some q) :
    (s.packetDone hdr q p).queue? hdr = some (q.without p.seq (s.wmAfter hdr q p).2) := by
  rw [State.packetDone, (State.signal_steady ..).queue?, (State.mergeSummary_steady ..).queue?, State.queue?_packetLeft h]

end

end Sys2Proof.Machine
end

section
/-! SUPPORT. The statement about queues (spec/12 R263-R265, R271-R275, R277, R282). -/

namespace Sys2Proof.Machine

open Sys2Proof Sys2Proof.Safety

-- One proof at a time: side by side they need more threads than a check's memory holds.
set_option Elab.async false

section
variable {s : State} {hdr : Nat} {q : Queue} {p : Packet}

/-- The header's STATUS reads `v`, and every other byte stands. -/
structure StatusOnly (s s' : State) (hdr v : Nat) : Prop where
  status : qStatus (s'.hdrBits hdr) = v
  rest : ∀ a, a ≠ hdr + 18 → s'.mem.get a = s.mem.get a

theorem statusOnly_setStatus (s : State) (hdr : Nat) {v : Nat} (hv : v < 4) : StatusOnly s (s.setStatus hdr v) hdr v :=
  ⟨State.qStatus_setStatus s hdr hv, fun _ => State.mem_setStatus s hdr v⟩

theorem find?_filter_ne (l : List Queue) (hdr : Nat) : (l.filter fun x => x.hdr != hdr).find? (fun x => x.hdr == hdr) = none :=
  List.find?_eq_none.2 fun x hx hc => by simp_all

/-- A bound queue whose packets have completed, or a refused header, is let go. -/
theorem queueDisable_does (hfree : s.held ⟨.phys hdr, 64⟩ = false) (hdis : qEnable (s.hdrBits hdr) = false)
    (hidle : ∀ q, s.queue? hdr = some q → q.running = []) (hknown : (∃ q, s.queue? hdr = some q) ∨
      (hdr % 64 = 0 ∧ qStatus (s.hdrBits hdr) = 2 ∧ engineExists (qClass (s.hdrBits hdr)) (qInst (s.hdrBits hdr)) = true)) :
    ∃ s', exec (.queueDisable hdr) s = .next s' ∧ StatusOnly s s' hdr 0 ∧ s'.queue? hdr = none ∧ ∀ q ∈ s.queues, q.hdr ≠ hdr → q ∈ s'.queues := by
  have hstatus := statusOnly_setStatus s hdr (v := 0) (by decide)
  have hqueues := State.setStatus_queues s hdr 0
  cases hq : s.queue? hdr with
  | some q =>
    refine ⟨_, queueDisable_unbinds hfree hdis hq (hidle q hq), ⟨hstatus.status, hstatus.rest⟩, find?_filter_ne _ hdr, fun x hx hne => ?_⟩
    exact List.mem_filter.2 ⟨hqueues ▸ hx, by simpa using hne⟩
  | none =>
    rcases hknown with ⟨q, hsome⟩ | hrefused
    · cases hq.symm.trans hsome
    · exact ⟨_, queueDisable_clears hfree hdis hq hrefused, hstatus, ((State.setStatus_steady s hdr 0).queue? hdr).trans hq,
        fun x hx _ => hqueues ▸ hx⟩

/-- The watermark, and what is complete above it, after a packet's completion. -/
theorem packetDone_wm (happ : p.slot + 64 ≤ hdr ∨ hdr + 64 ≤ p.slot) (hdone : q.done = []) {n : Nat} (hn : (qWm (s.hdrBits hdr) + 1) % 2 ^ 32 = n) :
    (p.seq = n → qWm ((s.packetDone hdr q p).hdrBits hdr) = p.seq ∧ (s.wmAfter hdr q p).2 = []) ∧
      (p.seq ≠ n → qWm ((s.packetDone hdr q p).hdrBits hdr) = qWm (s.hdrBits hdr) ∧ (s.wmAfter hdr q p).2 = [p.seq]) := by
  have hwm : (s.wmAfter hdr q p).1 < 2 ^ 32 → qWm ((s.packetDone hdr q p).hdrBits hdr) = (s.wmAfter hdr q p).1 := fun h => by
    rw [State.hdrBits_packetDone, State.qWm_wmPut h]
  obtain ⟨hnext, hother⟩ := State.wmAfter_alone (q := q) happ hdone
  rw [hn] at hnext hother
  refine ⟨fun hseq => ?_, fun hseq => ?_⟩
  · rw [hnext hseq] at hwm ⊢
    refine ⟨hwm ?_, rfl⟩
    rw [hseq, ← hn]
    exact Nat.mod_lt _ (by decide)
  · rw [hother hseq] at hwm ⊢
    exact ⟨hwm (qWm_lt _), rfl⟩

theorem packetDone_arrives {t : Nat} (ht : t = p.tgtWg) (htarget : p.tgten = true) (hform : p.tgtOk = true) (hthere : s.targetThere p = true)
    (hstream : p.stream = false) (hone : p.op ≠ 1 ∨ p.mask = 0) (hop : p.op ≠ 7) (hstatus : p.status ≠ 3) :
    ((s.packetDone hdr q p).wg t).barriers.get p.tgtReg = ((s.wg t).barriers.get p.tgtReg).add 1 p.nominal 0 := by
  subst ht
  have harr := (Signals.of_completed htarget hform hthere hop hstatus hdr q).arrives hstream hone
  rw [show (s.completed p).tgtWg = p.tgtWg from rfl, State.barriers_completed] at harr
  exact harr

theorem packetDone_commits {i : Nat} (htarget : p.tgten = true) (hform : p.tgtOk = true) (hthere : s.targetThere p = true)
    (hstream : p.stream = true) (hop : p.op ≠ 7) (hclaimed : p.claimed = some i) (hstatus : p.status = 0) :
    (s.packetDone hdr q p).streamOf p = { s.streamOf p with newFull := (s.streamOf p).newFull ++ [i] } := by
  have hcommit := (Signals.of_completed htarget hform hthere hop (by omega) hdr q).commits hstream hclaimed
    (show s.finalStatus p = 0 from (State.finalStatus_there hthere).trans hstatus)
  have hsame : ((s.packetLeft hdr q p).mergeSummary (s.completed p)).streamOf (s.completed p) = s.streamOf p :=
    (sameTarget_completed s hdr q p (s.completed p)).stream p.tgtReg
  rw [hsame] at hcommit
  exact hcommit

/-- A packet without a target leaves barriers and summaries. -/
theorem packetDone_quiet (htarget : p.tgten = false) (u : Nat) :
    ((s.packetDone hdr q p).wg u).barriers = (s.wg u).barriers ∧ ((s.packetDone hdr q p).wg u).flags = (s.wg u).flags := by
  rw [State.packetDone, State.signal_none (p := s.completed p) htarget, State.mergeSummary_none (p := s.completed p) htarget,
    (s.wmPut_calm hdr q p u).rest]
  exact ⟨rfl, rfl⟩

/-- A slot claim into a stream that is gone, and one that does not fit, end the packet. -/
theorem Claiming.fails {seq : Nat} (h : Claiming s hdr seq q p) :
    (s.targetThere p = false → PacketDid (exec (.engineSlotClaim hdr seq) s) s hdr seq fun p' => p'.finished = true ∧ p'.status = 3) ∧
      (s.targetThere p = true → 64 * (s.streamOf p).ring.slotsz < p.word 8 →
        PacketDid (exec (.engineSlotClaim hdr seq) s) s hdr seq fun p' => p'.finished = true ∧ p'.status = 7) := by
  refine ⟨fun hgone => ?_, fun hthere hsmall => ?_⟩
  · rw [h.exec_eq, if_pos hgone]
    exact packetDid_endPacket h.work 3
  · rw [h.exec_eq, if_neg (ne_false_of_eq_true hthere), if_pos hsmall]
    exact packetDid_endPacket h.work 7

end

/-- Settles O50: each event of a queue by its own lemma; no access of an engine changes a queue. -/
theorem queueEventsHappen : Obligations.QueueEventsHappen := by
  unfold Obligations.QueueEventsHappen
  intro s hdr hfree
  refine ⟨?_, ?_, ?_⟩
  · intro haligned hmapped hunbound henabled haccepted hserved
    have h : Enabling s hdr := ⟨hfree, haligned, hmapped, hunbound, henabled, haccepted, hserved⟩
    refine ⟨fun hfull => ?_, fun hroom => ?_⟩
    · obtain ⟨hstatus, hrest⟩ := statusOnly_setStatus s hdr (v := 2) (by decide)
      exact ⟨_, queueEnable_refuses h hfull, ⟨hstatus, hrest⟩, State.setStatus_queues s hdr 2⟩
    · obtain ⟨hstatus, hrest⟩ := statusOnly_setStatus s hdr (v := 1) (by decide)
      exact ⟨_, s.boundQueue hdr, queueEnable_binds h hroom, ⟨hstatus, hrest⟩, by rw [State.setStatus_queues], rfl, rfl, rfl, rfl, rfl, rfl,
        rfl, rfl, rfl⟩
  · intro hdis hidle hknown
    obtain ⟨s', hexec, ⟨hstatus, hrest⟩, hgone, hkept⟩ := queueDisable_does hfree hdis hidle hknown
    exact ⟨s', hexec, ⟨hstatus, hrest⟩, hgone, hkept⟩
  · intro q hq
    refine ⟨?_, ?_, ?_, ?_⟩
    · intro hgoing henabled hposted hunlinked
      have h : Starting s hdr q := ⟨hq, hfree, hgoing, henabled, hposted, hunlinked⟩
      refine ⟨fun c lv tbl hwalk => ⟨_, packetStart_halts h hwalk, State.haltQueue_halts hq⟩, ?_⟩
      intro pa w su lv sz gl s0 hwalk hheld hmc hseq e hsee p0 p enters
      have hstart : ∀ {s1 : State} {p1 : Packet} {P : Packet → Prop}, Steady s0 s1 → s0.startPacket q p = .ok p1 s1 → P p1 → enters s1 P := by
        intro s1 p1 P hsteady hres hp1
        obtain ⟨s', hexec, hmem, hqueue⟩ := packetStart_enters h hwalk hheld hmc hseq hsee hsteady (congrArg (startOutcome hdr p) hres)
        exact ⟨s', p1, hexec, hmem, hqueue, hp1⟩
      refine ⟨fun c hc hne => ?_, fun h0 h4 h5 => ?_, fun h0 h4 => ?_, fun l s1 h0 h5 hl => ?_⟩
      · obtain ⟨s', hexec, hmem, hqueue⟩ := packetStart_enters h hwalk hheld hmc hseq hsee (.refl s0)
          (congrArg (startOutcome hdr p) (State.startPacket_stops hc hne))
        exact ⟨s', _, hexec, hmem, hqueue, rfl⟩
      · exact hstart (.refl s0) (State.startPacket_works h0 h4 h5) rfl
      · exact hstart (.refl s0) (State.startPacket_coll h0 h4) ⟨rfl, State.enterColl_coll h4⟩
      · exact hstart ((State.ckptBlocks_keeps ..).steady hl) (State.startPacket_ckpt h0 h5 hl) rfl
    · intro p hp hfin hfirst hslot happ st wm
      have hexec := packetComplete_exec (hdr := hdr) ⟨hq, hfree, hp, hfin, hfirst, hslot, happ⟩
      refine ⟨s.packetDone hdr q p, q.without p.seq (s.wmAfter hdr q p).2, hexec, State.queue?_packetDone hq, rfl, ?_, fun a hne hw hf => ?_,
        fun h0 h8 hnone => ?_, fun hdone => packetDone_wm happ hdone rfl, fun t ht => packetDone_arrives ht,
        fun i => packetDone_commits, fun htarget => packetDone_quiet htarget⟩
      · rw [State.mem_packetDone]
        exact State.mem_wmPut_slot happ
      · rw [State.mem_packetDone]
        exact State.mem_wmPut_other hne hw hf
      · rw [State.hdrBits_packetDone]
        exact State.failure_wmPut happ h0 h8 hnone
    · intro p seq hwork
      exact link_does hwork rfl
    · intro p seq hwork hstream hclaimed hread t x
      have h : Claiming s hdr seq q p := ⟨hwork, hstream, hclaimed, hread⟩
      exact ⟨h.fails.1, h.fails.2, fun i rest hthere hfits hfirst hclaim => engineSlotClaim_claims h hthere hfits hfirst hclaim⟩

end Sys2Proof.Machine
end

section
/-! SUPPORT. Accesses to device memory (spec/09 R202-R206): what the record path answers, and what an access counted on DM leaves. -/

namespace Sys2Proof.Machine

open Sys2Proof Sys2Proof.Safety

-- One proof at a time: side by side they need more threads than a check's memory holds.
set_option Elab.async false

/-! ### Bank-direct records (R303) -/

/-- An access that goes through a bank-direct record is of an instruction that accepts them. -/
def BankOnly (sp : AccSpec) : LaneFault ⊕ LaneAcc → Prop
  | .inl _ => True
  | .inr a => rKind a.rcd = 5 → sp.bank = true

theorem bank_of_recCheck {sp : AccSpec} {super : Bool} {dom i r : Nat} (h : recCheck sp super dom i r = none) : rKind r = 5 → sp.bank = true := by
  intro h5
  unfold recCheck at h
  split_ifs at h
  next hbank _ _ => simpa [h5] using hbank

theorem State.resolve_bankOnly (s : State) (t : Nat) (sp : AccSpec) (stat : Bool) (q : LaneReq) : BankOnly sp (s.resolve t sp stat q) := by
  unfold State.resolve
  dsimp only
  split
  · trivial
  · split
    · trivial
    · split
      · trivial
      next hcheck =>
        have h5 := bank_of_recCheck hcheck
        split
        · trivial
        · split
          · exact h5
          · split
            · trivial
            · split
              next x hx =>
                -- what a paged record's map entry answers in place of an address
                split at hx
                · cases hx
                · split at hx
                  · cases hx
                    trivial
                  · split at hx
                    · cases hx
                      trivial
                    · split at hx
                      · cases hx
                        trivial
                      · split at hx
                        · cases hx
                        · split at hx
                          · cases hx
                            trivial
                          · cases hx
                            exact h5
              · split
                · split
                  · trivial
                  · trivial
                  · exact h5
                · split
                  · trivial
                  · trivial
                  · exact h5

/-- The record path answers accesses that their instruction accepts. -/
theorem State.bank_of_access {s s1 : State} {t fpc : Nat} {pend : Pend} {sp : AccSpec} {stat plain : Bool} {reqs : List LaneReq}
    {pre : List LaneFault} {as : List LaneAcc} (h : s.access t fpc pend sp stat plain reqs pre = .ok s1 as) :
    ∀ a ∈ as, rKind a.rcd = 5 → sp.bank = true := by
  unfold State.access at h
  split at h
  · cases h
  next s2 _ =>
    dsimp only at h
    split at h
    · cases h
    · split at h
      · cases h
      · split at h
        · cases h
        · cases h
        · split at h
          · cases h
          · split at h
            · cases h
            · cases h
              intro a ha
              obtain ⟨x, hx, hinr⟩ := List.mem_filterMap.1 ha
              obtain ⟨q, -, rfl⟩ := List.mem_map.1 hx
              have hbank := s2.resolve_bankOnly t sp stat q
              cases hres : s2.resolve t sp stat q with
              | inl f => simp [hres] at hinr
              | inr y =>
                rw [hres] at hinr hbank
                cases hinr
                exact hbank

/-! ### Items in flight under a write of registers -/

/-- Marks that leave what is read of an item leave it of every crew's items in flight. -/
theorem Workgroup.flight_markBy {α : Type} (f : FlightItem → α) (w : Workgroup) {mark : FlightItem → FlightItem} (hf : ∀ i, f (mark i) = f i)
    (m : Nat) : (({ w with crews := w.crews.map fun c => (c.1, { c.2 with flight := c.2.flight.map mark }) } : Workgroup).crew m).flight.map
      f = (w.crew m).flight.map f := by
  have hget := SMap.get_map w.crews (fun c => { c with flight := c.flight.map mark }) m rfl
  refine (congrArg (fun c : Crew => c.flight.map f) hget).trans ?_
  rw [List.map_map]
  exact List.map_congr_left fun i _ => hf i

section
variable {α : Type} {f : FlightItem → α} (hf : ∀ (i : FlightItem) l, f { i with skip := l } = f i)
include hf

theorem Workgroup.flight_writeRegBy (w : Workgroup) (free l c : Nat) (v : Word) (m : Nat) :
    ((w.writeReg free l c v).crew m).flight.map f = (w.crew m).flight.map f := by
  unfold Workgroup.writeReg
  dsimp only
  split
  · split <;> rfl
  · rw [Workgroup.flight_markBy f _ fun i => by split <;> simp only [hf]]
    split <;> rfl

/-- Writing a result leaves of items in flight what does not speak of the registers that they skip. -/
theorem Workgroup.flight_writeSelBy (w : Workgroup) (free : Nat) (d : Sel) (vals : List (Nat × List Word)) (m : Nat) :
    ((w.writeSel free d vals).crew m).flight.map f = (w.crew m).flight.map f := by
  unfold Workgroup.writeSel
  split
  case h_1 n =>
    split
    · rfl
    · split
      · rw [Workgroup.crew_updCrew]
        split
        · next hm => rw [hm]
        · rfl
      · rfl
  case h_2 =>
    split
    · rfl
    · unfold overList
      refine List.foldlRecOn (motive := fun x : Workgroup => (x.crew m).flight.map f = (w.crew m).flight.map f) _ _ rfl fun x hx p _ => ?_
      refine List.foldlRecOn (motive := fun y : Workgroup => (y.crew m).flight.map f = (w.crew m).flight.map f) _ _ hx fun y hy q _ => ?_
      rw [Workgroup.flight_writeRegBy hf, hy]

end

theorem Crew.count_congr {c c' : Crew} (h : c'.flight.map (·.path) = c.flight.map (·.path)) (p : Path) : c'.count p = c.count p := by
  have hcount : ∀ c : Crew, c.count p = ((c.flight.map (·.path)).filter (· == some p)).length := fun c => by
    unfold Crew.count
    rw [List.filter_map, List.length_map]
    rfl
  rw [hcount, hcount, h]

end Sys2Proof.Machine
end

section
/-! SUPPORT. An access counted on DM goes into flight (spec/09 R203-R206, R303): its body, and what the instruction leaves. -/

namespace Sys2Proof.Machine

open Sys2Proof Sys2Proof.Safety

-- One proof at a time: side by side they need more threads than a check's memory holds.
set_option Elab.async false

/-! ### The body -/

/-- Whether an access goes through a bank-direct record. -/
def bankDirect (a : LaneAcc) : Bool := rKind a.rcd == 5

/-- The words that lanes take from windows of banks: zero where an access read nothing. -/
def windowWords (as : List LaneAcc) (vals : List (Nat × Nat)) (n : Nat) : List (Nat × List Word) :=
  (as.filter bankDirect).map fun a => (a.lane, splitWords n (BitVec.ofNat 64 (((vals.find? fun v => v.1 == a.lane).map (·.2)).getD 0)))

/-- A workgroup whose lanes have taken what they read from windows of banks. -/
def Workgroup.answered (w : Workgroup) (free : Nat) (d : Dest) (as : List LaneAcc) (vals : List (Nat × Nat)) : Workgroup :=
  match d with
  | some (q, n) => w.writeSel free q (windowWords as vals n)
  | none => w

/-- The same of the state. -/
def State.answer (s : State) (t : Nat) (d : Dest) (as : List LaneAcc) (vals : List (Nat × Nat)) : State :=
  match d with
  | some (q, n) => s.updWg t fun w => w.writeSel s.free q (windowWords as vals n)
  | none => s

theorem State.wg_answer (s : State) (t : Nat) (d : Dest) (as : List LaneAcc) (vals : List (Nat × Nat)) :
    (s.answer t d as vals).wg t = (s.wg t).answered s.free d as vals := by
  cases d with
  | none => rfl
  | some q => exact State.wg_updWg_self ..

/-- What an access counted on DM counts. -/
def dmArgs (ord : Order) (sc : Scope) (st : Option Sel) (plain swept : Bool) (sp : AccSpec) (reqs : List LaneReq) (as : List LaneAcc)
    (op : FlightOp) : LaunchArgs where
  path := some .dm
  ord := (effective ord sc (typesOf as)).1
  scope := (effective ord sc (typesOf as)).2
  dev := (typesOf as).contains 2
  checked := plain && (effective ord sc (typesOf as)).1 == .relaxed && as.any fun a => !(raceAccs a).isEmpty
  op := op
  stat := statOf st as
  used := usedOf as
  again := if op.waiting then some ⟨sp, st.isSome, swept, reqs⟩ else none

/-- The state in which an access counted on DM has gone into flight. -/
def State.sent (s2 : State) (e : Env) (d : Dest) (as : List LaneAcc) (vals : List (Nat × Nat)) (a : LaunchArgs) : State :=
  ((s2.answer e.t d as vals).setWg e.t (((s2.answer e.t d as vals).wg e.t).launched e.ls a)).afterAccess e a.ord (typesOf as)

/-- The accesses that go into flight. -/
def restOf (as : List LaneAcc) : List LaneAcc := as.filter fun a => !bankDirect a

theorem Env.dmAccess_sends {e : Env} {sp : AccSpec} {ord : Order} {sc : Scope} {st : Option Sel} {plain : Bool} {reqs : List LaneReq}
    {val : Nat → Option Nat} {d : Dest} {op : State → List LaneAcc → FlightOp} {swept : Bool} {s1 s2 : State} {as : List LaneAcc}
    {vals : List (Nat × Nat)} (hreqs : reqs ≠ []) (hacc : e.s.access e.t e.fpc e.run.pend sp st.isSome plain reqs = .ok s1 as)
    (hroom : e.full .dm = none) (hno : ∀ s3 q, e.winRun e.s (effective ord sc (typesOf as)).1 (effective ord sc (typesOf as)).2 as
      (s1.winAccs e.t sp.z val as) ≠ .error (.trap s3 q))
    (hrun : e.winRun s1 (effective ord sc (typesOf as)).1 (effective ord sc (typesOf as)).2 as (s1.winAccs e.t sp.z val as) = .ok (s2, vals)) :
    e.dmAccess sp ord sc st plain reqs [] val d op swept =
      .ok (s2.sent e d as vals (dmArgs ord sc st plain swept sp reqs as (op (s2.answer e.t d as vals) (restOf as)))) [] := by
  obtain ⟨x, xs, hcons⟩ := List.exists_cons_of_ne_nil hreqs
  subst hcons
  unfold Env.dmAccess
  dsimp only
  rw [hacc]
  dsimp only
  rw [hroom]
  dsimp only
  rw [hrun]
  have hlaunch := State.launch_eq (s2.answer e.t d as vals) e.t e.ls
    (dmArgs ord sc st plain swept sp (x :: xs) as (op (s2.answer e.t d as vals) (restOf as)))
  cases htry : e.winRun e.s (effective ord sc (typesOf as)).1 (effective ord sc (typesOf as)).2 as (s1.winAccs e.t sp.z val as) with
  | error res =>
    cases res with
    | trap s3 q => exact absurd htry (hno s3 q)
    | _ => exact congrArg (fun b : State => Res.ok (b.afterAccess e _ (typesOf as)) []) hlaunch
  | ok _ => exact congrArg (fun b : State => Res.ok (b.afterAccess e _ (typesOf as)) []) hlaunch

/-! ### What it leaves -/

/-- A state whose workgroup `t` and cores alone have moved. -/
structure OnGroup (s s' : State) (t : Nat) : Prop where
  rest : s' = { s with wgs := s'.wgs, cores := s'.cores }
  others : ∀ u, u ≠ t → s'.wg u = s.wg u

theorem OnGroup.refl (s : State) (t : Nat) : OnGroup s s t := ⟨rfl, fun _ _ => rfl⟩

theorem OnGroup.setWg {s s' : State} {t : Nat} (h : OnGroup s s' t) (w : Workgroup) : OnGroup s (s'.setWg t w) t where
  rest := by
    rw [h.rest]
    rfl
  others u hu := (State.wg_setWg_ne _ _ hu).trans (h.others u hu)

theorem OnGroup.updWg {s s' : State} {t : Nat} (h : OnGroup s s' t) (f : Workgroup → Workgroup) : OnGroup s (s'.updWg t f) t where
  rest := by
    rw [h.rest]
    rfl
  others u hu := (State.wg_updWg_ne _ _ hu).trans (h.others u hu)

theorem OnGroup.updCore {s s' : State} {t : Nat} (h : OnGroup s s' t) (c : Nat) (f : Core → Core) : OnGroup s (s'.updCore c f) t where
  rest := by
    rw [h.rest]
    rfl
  others := h.others

theorem OnGroup.answer (s : State) (t : Nat) (d : Dest) (as : List LaneAcc) (vals : List (Nat × Nat)) : OnGroup s (s.answer t d as vals) t := by
  cases d with
  | none => exact .refl s t
  | some q => exact (OnGroup.refl s t).updWg _

theorem OnGroup.sent (s : State) (e : Env) (d : Dest) (as : List LaneAcc) (vals : List (Nat × Nat)) (a : LaunchArgs) :
    OnGroup s (s.sent e d as vals a) e.t := by
  have hset := (OnGroup.answer s e.t d as vals).setWg (((s.answer e.t d as vals).wg e.t).launched e.ls a)
  unfold State.sent State.afterAccess
  dsimp only
  split <;> split
  · exact hset.updWg _
  · exact (hset.updWg _).updWg _
  · exact hset
  · exact hset.updWg _

/-- The end of intervals and regions: of lanes `ls` the intervals end where `ends` says so. -/
structure Shut (ls : List Nat) (ends : Prop) (w w' : Workgroup) : Prop where
  rest : w' = { w with lanes := w'.lanes, crews := w'.crews }
  lane : ∀ l, w'.lane l = { w.lane l with interval := (w'.lane l).interval, opened := (w'.lane l).opened }
  crew : ∀ c, w'.crew c = { w.crew c with syncDue := (w'.crew c).syncDue }
  ended : ends → ∀ l ∈ ls, (w'.lane l).interval = (w.lane l).interval + 1

section
variable {ls : List Nat} {ends : Prop} {w w' : Workgroup}

theorem Shut.refl (ls : List Nat) (w : Workgroup) (h : ¬ ends) : Shut ls ends w w := ⟨rfl, fun _ => rfl, fun _ => rfl, fun he => absurd he h⟩

theorem Shut.endInterval (w : Workgroup) (hn : ls.Nodup) : Shut ls ends w (w.endInterval ls) where
  rest := Workgroup.endInterval_rest ..
  lane l := by
    rw [Workgroup.lane_endInterval _ hn]
    split <;> rfl
  crew c := Workgroup.crew_endInterval ..
  ended _ l hl := by rw [Workgroup.lane_endInterval _ hn, if_pos hl]

theorem Shut.closeRegion (h : Shut ls ends w w') : Shut ls ends w (w'.closeRegion ls) where
  rest := by rw [Workgroup.closeRegion_rest, h.rest]
  lane l := by
    rw [Workgroup.lane_closeRegion]
    split
    · rw [h.lane]
    · exact h.lane l
  crew c := by
    rw [Workgroup.crew_closeRegion]
    exact h.crew c
  ended he l hl := by
    rw [Workgroup.lane_closeRegion, if_pos hl]
    exact h.ended he l hl

end

/-- An order other than relaxed ends the intervals of E. -/
theorem State.wg_sent (s : State) (e : Env) (d : Dest) (as : List LaneAcc) (vals : List (Nat × Nat)) (a : LaunchArgs) (hn : e.ls.Nodup) :
    Shut e.ls (a.ord ≠ .relaxed) (((s.wg e.t).answered s.free d as vals).launched e.ls a) ((s.sent e d as vals a).wg e.t) := by
  unfold State.sent
  rw [State.wg_answer]
  generalize hb : (s.answer e.t d as vals).setWg e.t (((s.wg e.t).answered s.free d as vals).launched e.ls a) = b
  have hwg : b.wg e.t = ((s.wg e.t).answered s.free d as vals).launched e.ls a := hb ▸ State.wg_setWg_self ..
  have hend : (b.endE e).wg e.t = (b.wg e.t).endInterval e.ls := State.wg_updWg_self ..
  have hclose : ∀ b' : State, (b'.closeE e).wg e.t = (b'.wg e.t).closeRegion e.ls := fun b' => State.wg_updWg_self ..
  rw [← hwg]
  have hmid : Shut e.ls (a.ord ≠ .relaxed) (b.wg e.t) ((if a.ord = .relaxed then b else b.endE e).wg e.t) := by
    split
    next hord => exact .refl _ _ (not_not.2 hord)
    next => exact hend ▸ .endInterval _ hn
  unfold State.afterAccess
  dsimp only
  split
  · rw [hclose]
    exact hmid.closeRegion
  · exact hmid

/-! ### Values read from windows of banks -/

/-- What a workgroup whose lanes have taken their values has in common with the one before. -/
structure Taken (w w1 : Workgroup) (d : Dest) : Prop where
  regs : RegsStand w w1 (match d with | some x => [x] | none => [])
  gangs : w1.gangs = w.gangs
  nextItem : w1.nextItem = w.nextItem
  win : w1.win = w.win
  crew : ∀ l, (w1.lane l).crew = (w.lane l).crew
  interval : ∀ l, (w1.lane l).interval = (w.lane l).interval
  ids : ∀ c, (w1.crew c).flight.map (·.id) = (w.crew c).flight.map (·.id)
  paths : ∀ c, (w1.crew c).flight.map (·.path) = (w.crew c).flight.map (·.path)

section
variable {w : Workgroup} {free : Nat} {d : Dest} {as : List LaneAcc} {vals : List (Nat × Nat)}

/-- Where an access goes through a bank-direct record, the destination is of one register or two. -/
def BankWide (d : Dest) (as : List LaneAcc) : Prop := ∀ q n, d = some (q, n) → ∀ a ∈ as, bankDirect a = true → n = 1 ∨ n = 2

theorem windowWords_length {q : Sel} {n : Nat} (hd : BankWide d as) (hq : d = some (q, n)) : ∀ p ∈ windowWords as vals n, p.2.length = n := by
  intro p hp
  obtain ⟨a, ha, rfl⟩ := List.mem_map.1 hp
  obtain ⟨hmem, hbank⟩ := List.mem_filter.1 ha
  exact splitWords_length (hd q n hq a hmem hbank) _

theorem Workgroup.writeSel_nil (w : Workgroup) (free : Nat) (q : Sel) : w.writeSel free q [] = w := by
  unfold Workgroup.writeSel
  split
  · rfl
  · split <;> rfl

theorem Workgroup.answered_none (h : as.filter bankDirect = []) : w.answered free d as vals = w := by
  cases d with
  | none => rfl
  | some q =>
    show w.writeSel free q.1 (windowWords as vals q.2) = w
    rw [windowWords, h]
    exact Workgroup.writeSel_nil ..

theorem Workgroup.answered_taken (hd : BankWide d as) : Taken w (w.answered free d as vals) d := by
  cases hq : d with
  | none => exact ⟨(SameRegs.refl _).stand _, rfl, rfl, rfl, fun _ => rfl, fun _ => rfl, fun _ => rfl, fun _ => rfl⟩
  | some x =>
    obtain ⟨q, n⟩ := x
    have hlen := windowWords_length (vals := vals) hd hq
    have htouch := Touch.writeSel (ls := (windowWords as vals n).map (·.1)) (k := n) w free q (windowWords as vals n)
      fun p hp => ⟨List.mem_map_of_mem hp, hlen p hp⟩
    have hcrew : ∀ l, ((w.writeSel free q (windowWords as vals n)).lane l).crew = (w.lane l).crew := fun l => by rw [htouch.lane]
    have hinterval : ∀ l, ((w.writeSel free q (windowWords as vals n)).lane l).interval = (w.lane l).interval := fun l => by rw [htouch.lane]
    exact ⟨.writeSel w free q hlen, by rw [Workgroup.answered, htouch.rest], by rw [Workgroup.answered, htouch.rest],
      by rw [Workgroup.answered, htouch.rest], hcrew, hinterval, fun c => Workgroup.flight_writeSelBy (fun _ _ => rfl) ..,
      fun c => Workgroup.flight_writeSelBy (fun _ _ => rfl) ..⟩

/-- The lane of the one bank-direct access holds what it has read, or zero. -/
theorem Workgroup.holds_answered {a : LaneAcc} (hd : BankWide d as) (ha : as.filter bankDirect = [a]) :
    Holds w (w.answered free d as vals) [a.lane] d
      (fun _ => BitVec.ofNat 64 (((vals.find? fun v => v.1 == a.lane).map (·.2)).getD 0)) := by
  cases hq : d with
  | none => trivial
  | some x =>
    obtain ⟨q, n⟩ := x
    have hmem : a ∈ as.filter bankDirect := ha ▸ List.mem_singleton.2 rfl
    have hn := hd q n hq a (List.mem_filter.1 hmem).1 (List.mem_filter.1 hmem).2
    have hwords : windowWords as vals n =
        [a.lane].map fun l => (l, splitWords n (BitVec.ofNat 64 (((vals.find? fun v => v.1 == a.lane).map (·.2)).getD 0))) := by
      rw [windowWords, ha]
      rfl
    rw [Workgroup.answered, hwords]
    exact Workgroup.writeSel_holds w free q n hn [a.lane] (List.nodup_singleton _) fun _ => _

end

/-- `Holds` speaks of registers. -/
theorem Holds.of_sameRegs {w w1 w' : Workgroup} {ls : List Nat} {d : Dest} {val : Nat → Dword} (h : Holds w w1 ls d val) (hsame : SameRegs w1 w') :
    Holds w w' ls d val :=
  Holds.of_settledIn h (fun _ _ hs => hs) (fun _ => rfl) (fun l c => hsame.reg l c) fun c => hsame.crew c

/-! ### The instruction -/

section
variable {s s2 S : State} {t : Nat} {g : Gang} {r : ClauseRun} {i : Instr} {es : List ApprEntry} {a : LaunchArgs} {d : Dest}
  {as : List LaneAcc} {vals : List (Nat × Nat)}

/-- Items that a workgroup counts, by what it had before its lanes took their values. -/
theorem flew_of_taken {w1 : Workgroup} {s' : State} {ls : List Nat} {c : Nat} (htaken : Taken (s2.wg t) w1 d)
    (hpath : a.path = some .dm) (hc : (w1.crewsOf ls).head? = some c)
    (hfl : ∀ k, ((s'.wg t).crew k).flight = ((w1.launched ls a).crew k).flight) : Flew s2 s' t ls .dm (w1.launchItem ls a c) := by
  have hcrews : w1.crewsOf ls = (s2.wg t).crewsOf ls := by
    unfold Workgroup.crewsOf
    simp only [htaken.crew]
  have hwg : (s2.setWg t w1).wg t = w1 := State.wg_setWg_self ..
  obtain ⟨hitem, hfirst, hcounted⟩ := flew_of_launched (s := s2.setWg t w1) (s' := s') hpath (hwg.symm ▸ hc) (hwg.symm ▸ hfl)
  rw [hwg] at hitem hfirst hcounted
  refine ⟨⟨hitem.1.trans htaken.nextItem, hitem.2⟩, fun k hk => ?_, fun k hk => ?_⟩
  · obtain ⟨l, hl, hids⟩ := hfirst k (hcrews ▸ hk)
    exact ⟨l, hl, hids.trans (htaken.ids k)⟩
  · rw [hcounted k (hcrews ▸ hk), Crew.count_congr (htaken.paths k)]

/-- The item of an instruction of lanes without a crew, which no crew counts. -/
theorem flew_of_crewless {s' : State} {ls : List Nat} (h : (s2.wg t).crewsOf ls = []) {it : FlightItem} (hid : it.id = (s2.wg t).nextItem)
    (hpath : it.path = some .dm) (hdone : it.done = false) : Flew s2 s' t ls .dm it where
  item := ⟨hid, hpath, hdone⟩
  first c hc := by
    rw [h] at hc
    cases hc
  counted c hc := by
    rw [h] at hc
    cases hc

/-- What an instruction that has counted an access on DM leaves. -/
structure FliesOnDm (s2 s' : State) (t : Nat) (g : Gang) (r : ClauseRun) (i : Instr) (a : LaunchArgs) (d : Dest) (as : List LaneAcc)
    (vals : List (Nat × Nat)) : Prop where
  after : After s2 s' t g r i (match d with | some x => [x] | none => [])
  mem : MemKept s2 s'
  item : ∃ it, Flew s2 s' t (execLanes g r) .dm it ∧ it.ord = a.ord ∧ it.scope = a.scope ∧ it.op = a.op ∧ it.stat = a.stat
  regs : as.filter bankDirect = [] → RegsKept s2 s' t []
  value : ∀ x, as.filter bankDirect = [x] → Holds (s2.wg t) (s'.wg t) [x.lane] d
    (fun _ => BitVec.ofNat 64 (((vals.find? fun v => v.1 == x.lane).map (·.2)).getD 0))
  intervals : a.ord ≠ .relaxed → IntervalsEnded s2 s' t g r

theorem laneIssue_sent (h : Ready s t g r i es) {body : Env → Res} (hb : body (opEnv s t g r es) = .ok S []) (hS : OnGroup s2 S t)
    (hd : BankWide d as) (hpath : a.path = some .dm)
    (hW : Shut (execLanes g r) (a.ord ≠ .relaxed) (((s2.wg t).answered s2.free d as vals).launched (execLanes g r) a) (S.wg t))
    (hg : (s2.wg t).gang? g.id = some g) : ∃ s', laneIssue i body s = .next s' ∧ FliesOnDm s2 s' t g r i a d as vals := by
  have htaken := Workgroup.answered_taken (w := s2.wg t) (free := s2.free) (vals := vals) hd
  have hnone := fun hnil => Workgroup.answered_none (w := s2.wg t) (free := s2.free) (d := d) (vals := vals) (as := as) hnil
  have hhold := fun (x : LaneAcc) hx => Workgroup.holds_answered (w := s2.wg t) (free := s2.free) (vals := vals) (a := x) hd hx
  generalize (s2.wg t).answered s2.free d as vals = w1 at hW htaken hnone hhold
  have hgS : (S.wg t).gang? g.id = some g := by
    unfold Workgroup.gang? at hg ⊢
    rwa [hW.rest, Workgroup.launched_rest, htaken.gangs]
  obtain ⟨s', hs, hwent, hcl, hrest, hothers⟩ := laneIssue_closed h hb hgS
  have hmem : s'.mem = s2.mem := by rw [hrest, hS.rest]
  have hlaunched := (Steps.launched (w := w1) (ls := execLanes g r) (a := a) []).regs
  have hlane : ∀ l, (w1.launched (execLanes g r) a).lane l = w1.lane l := fun l => by
    rw [Workgroup.launched_rest]
    rfl
  have huni : ∀ c, ((w1.launched (execLanes g r) a).crew c).s = (w1.crew c).s := fun c => by
    rw [Workgroup.crew_launched]
    split <;> rfl
  have hsame : SameRegs w1 (s'.wg t) := by
    refine ⟨fun l => ?_, fun c => ?_⟩
    · rw [hcl.lane, hW.lane, hlane]
      exact ⟨rfl, rfl, rfl, rfl, rfl⟩
    · rw [hcl.crew, ← huni]
      show ((S.wg t).crew c).s = _
      rw [hW.crew]
  have hregs := fun ds => hsame.stand ds
  have hwin : (s'.wg t).win = (s2.wg t).win := by rw [hcl.rest, hW.rest, Workgroup.launched_rest, htaken.win]
  have hkept : ∀ ds, RegsStand (s2.wg t) w1 ds → RegsKept s2 s' t ds := fun ds hds =>
    ⟨(hds.trans (hregs ds)).regs, (hds.trans (hregs ds)).flags, (hds.trans (hregs ds)).uniform⟩
  have hother : ∀ u, u ≠ t → s'.wg u = s2.wg u := fun u hu => (hothers u hu).trans (hS.others u hu)
  have hfl : ∀ k, ((s'.wg t).crew k).flight = ((w1.launched (execLanes g r) a).crew k).flight := fun k => by
    rw [hcl.crew]
    show ((S.wg t).crew k).flight = _
    rw [hW.crew]
  refine ⟨s', hs, ⟨hwent, ?_, hkept _ htaken.regs, fun u x => ?_, fun u hu => by rw [hother u hu]⟩, fun x => by rw [hmem], ?_,
    fun hnil => hkept _ (hnone hnil ▸ (SameRegs.refl _).stand _), fun x hx => Holds.of_sameRegs (hhold x hx) hsame, fun hord l hl => ?_⟩
  · rw [hrest, hS.rest]
  · by_cases hu : u = t
    · subst hu
      rw [hwin]
    · rw [hother u hu]
  · cases hcrews : (w1.crewsOf (execLanes g r)).head? with
    | some c =>
      obtain ⟨hord, hscope, hop, -, -⟩ := Workgroup.launchItem_first (a := a) hcrews
      refine ⟨_, flew_of_taken htaken hpath hcrews hfl, hord, hscope, hop, ?_⟩
      unfold Workgroup.launchItem
      dsimp only
      rw [if_pos hcrews]
    | none =>
      have hnil : (s2.wg t).crewsOf (execLanes g r) = [] := by
        have hw1 : w1.crewsOf (execLanes g r) = [] := List.head?_eq_none_iff.1 hcrews
        unfold Workgroup.crewsOf at hw1 ⊢
        simpa only [htaken.crew] using hw1
      exact ⟨{ (default : FlightItem) with
        id := (s2.wg t).nextItem, path := some .dm, ord := a.ord, scope := a.scope, op := a.op, stat := a.stat },
        flew_of_crewless hnil rfl rfl rfl, rfl, rfl, rfl, rfl⟩
  · rw [hcl.lane, ← htaken.interval l, ← hlane l]
    exact hW.ended hord l hl

end

end Sys2Proof.Machine
end

section
/-! SUPPORT. The statement about LD, ST, LDT, STT, ATOM and RED (spec/09 R202-R206, R220-R223). -/

namespace Sys2Proof.Machine

open Sys2Proof Sys2Proof.Safety

-- One proof at a time: side by side they need more threads than a check's memory holds.
set_option Elab.async false

/-! ### Translations of no lane -/

theorem mustPrecede_noLane (j : FlightItem) {i : FlightItem} (h : i.lanes = []) : mustPrecede false j i = false := by
  have hshares : sharesLane j i = false := by simp [sharesLane, h]
  simp [mustPrecede, orderedBefore, heldBack, hshares, h]

theorem Workgroup.precedes_noLane (w : Workgroup) (j : FlightItem) {i : FlightItem} (h : i.lanes = []) : w.precedes j i = false := by
  have hlinked : w.linked j i = false := by simp [Workgroup.linked, h]
  rw [Workgroup.precedes, hlinked]
  exact mustPrecede_noLane j h

theorem Workgroup.needOf_noLane (w : Workgroup) {x : FlightItem} (stays : FlightItem → Bool) (h : x.lanes = []) : w.needOf x stays = [] := by
  unfold Workgroup.needOf
  refine List.foldlRecOn (motive := fun acc => acc = []) _ _ rfl fun acc hacc j _ => ?_
  simp [hacc, w.precedes_noLane j.2 h]

theorem State.passed_none (s : State) : s.passed [] = [] := by
  unfold State.passed
  simp

theorem State.walkSettle_none (s : State) (t : Nat) (reads : State → Nat → List Span) (n : Nat) : s.walkSettle t [] reads n = (s, none) := by
  cases n with
  | zero => rfl
  | succ n =>
    unfold State.walkSettle
    dsimp only
    rw [Workgroup.needOf_noLane _ _ rfl]
    have hhome : s.needsHome t (s.asItem t [] .relaxed .crew false (.load .b64 none [] [])) = [] := by
      unfold State.needsHome
      rw [show (s.asItem t [] .relaxed .crew false (.load .b64 none [] [])).lanes.map (fun l => Agent.lane t l.1) = [] from rfl,
        State.passed_none]
      rfl
    split
    · rfl
    · exact if_pos (by rw [List.map_nil, hhome]; rfl)

theorem State.translated_none (s : State) (t : Nat) (reads : State → Nat → List Span) : s.translated t [] reads = (s, none) := by
  unfold State.translated
  rw [State.walkSettle_none]
  rfl

/-! ### Going into flight on DM -/

section
variable {s : State} {t : Nat} {g : Gang} {r : ClauseRun} {i : Instr} {es : List ApprEntry}

/-- The statement of an access that is counted on DM. -/
def FliesFrom (s : State) (t : Nat) (g : Gang) (r : ClauseRun) (es : List ApprEntry) (b : State) (i : Instr) (sp : AccSpec) (ord : Order)
    (sc : Scope) (st : Option Sel) (plain : Bool) (reqs : List LaneReq) (val : Nat → Option Nat) (d : Dest)
    (op : State → List LaneAcc → FlightOp) : Prop :=
  ∀ s1 as s2 vals, execLanes g r ≠ [] → b.access t (opEnv s t g r es).fpc r.pend sp st.isSome plain reqs = .ok s1 as →
    (opEnv s t g r es).full .dm = none →
    (∀ s3 q, (opEnv s t g r es).winRun b (effective ord sc (typesOf as)).1 (effective ord sc (typesOf as)).2 as
      (s1.winAccs t sp.z val as) ≠ .error (.trap s3 q)) →
    (opEnv s t g r es).winRun s1 (effective ord sc (typesOf as)).1 (effective ord sc (typesOf as)).2 as (s1.winAccs t sp.z val as) =
      .ok (s2, vals) →
    (s2.wg t).gang? g.id = some g →
    ∃ s' it, exec i s = .next s' ∧ After s2 s' t g r i (match d with | some x => [x] | none => []) ∧ MemKept s2 s' ∧
      Flew s2 s' t (execLanes g r) .dm it ∧ it.ord = (effective ord sc (typesOf as)).1 ∧ it.scope = (effective ord sc (typesOf as)).2 ∧
      it.op = op s2 (restOf as) ∧ it.stat = statOf st as ∧
      (as.filter bankDirect = [] → RegsKept s2 s' t []) ∧
      (∀ a, as.filter bankDirect = [a] →
        (vals = [] → Holds (s2.wg t) (s'.wg t) [a.lane] d (fun _ => 0)) ∧
        (∀ x, vals = [(a.lane, x)] → Holds (s2.wg t) (s'.wg t) [a.lane] d (fun _ => BitVec.ofNat 64 x))) ∧
      ((effective ord sc (typesOf as)).1 ≠ .relaxed → IntervalsEnded s2 s' t g r)

/-- The environment in which a body goes on after its walks. -/
def envAt (s : State) (t : Nat) (g : Gang) (r : ClauseRun) (es : List ApprEntry) (b : State) : Env := { opEnv s t g r es with s := b }

/-- An access whose body goes on, from what its checks and its window accesses leave, with changes that keep its item. -/
theorem fliesFrom_of_body {b : State} {sp : AccSpec} {ord : Order} {sc : Scope} {st : Option Sel} {plain swept : Bool} {reqs : List LaneReq}
    {val : Nat → Option Nat} {d : Dest} {op : State → List LaneAcc → FlightOp} {body : Env → Res} (h : Ready s t g r i es)
    (hexec : exec i s = laneIssue i body s) (hreqs : execLanes g r ≠ [] → reqs ≠ [])
    (hwide : sp.bank = true → ∀ q n, d = some (q, n) → n = 1 ∨ n = 2)
    (hop : ∀ (s2 : State) as vals, op (s2.answer t d as vals) (restOf as) = op s2 (restOf as))
    (hbody : ∀ s2 as vals a, (envAt s t g r es b).dmAccess sp ord sc st plain reqs [] val d op swept =
        .ok (s2.sent (envAt s t g r es b) d as vals a) [] →
      ∃ S, body (opEnv s t g r es) = .ok S [] ∧ OnGroup s2 S t ∧
        Shut (execLanes g r) (a.ord ≠ .relaxed) (((s2.wg t).answered s2.free d as vals).launched (execLanes g r) a) (S.wg t)) :
    FliesFrom s t g r es b i sp ord sc st plain reqs val d op := by
  intro s1 as s2 vals hne hacc hroom hno hrun hg
  obtain ⟨S, hb, hS, hW⟩ := hbody s2 as vals _ (Env.dmAccess_sends (hreqs hne) hacc hroom hno hrun)
  have hwideBank : BankWide d as := fun q n hd a ha hbank =>
    hwide (State.bank_of_access hacc a ha (of_decide_eq_true hbank)) q n hd
  obtain ⟨s', hs, hafter, hmem, ⟨it, hflew, hord, hscope, hitop, hstat⟩, hregs, hvalue, hends⟩ := laneIssue_sent h hb hS hwideBank rfl hW hg
  refine ⟨s', it, hexec.trans hs, hafter, hmem, hflew, hord, hscope, hitop.trans (hop s2 as vals), hstat, hregs, fun a ha => ?_, hends⟩
  refine ⟨?_, ?_⟩
  · rintro rfl
    exact hvalue a ha
  · rintro x rfl
    have hheld := hvalue a ha
    simpa using hheld

/-- A body that is the access alone. -/
theorem fliesFrom_of_eq {sp : AccSpec} {ord : Order} {sc : Scope} {st : Option Sel} {plain swept : Bool} {reqs : List LaneReq}
    {val : Nat → Option Nat} {d : Dest} {op : State → List LaneAcc → FlightOp} {body : Env → Res} (h : Ready s t g r i es)
    (hexec : exec i s = laneIssue i body s) (hreqs : execLanes g r ≠ [] → reqs ≠ [])
    (hwide : sp.bank = true → ∀ q n, d = some (q, n) → n = 1 ∨ n = 2)
    (hop : ∀ (s2 : State) as vals, op (s2.answer t d as vals) (restOf as) = op s2 (restOf as))
    (hbody : body (opEnv s t g r es) = (envAt s t g r es (taken s)).dmAccess sp ord sc st plain reqs [] val d op swept) :
    FliesFrom s t g r es (taken s) i sp ord sc st plain reqs val d op :=
  fliesFrom_of_body h hexec hreqs hwide hop fun s2 as vals a hdm =>
    ⟨_, hbody.trans hdm, .sent s2 (envAt s t g r es (taken s)) d as vals a, s2.wg_sent (envAt s t g r es (taken s)) d as vals a (lanesOf_nodup ..)⟩

/-- A body that answers its state, or closes regions of it, does nothing. -/
theorem laneIssue_idle (h : Ready s t g r i es) {body : Env → Res} (hexec : exec i s = laneIssue i body s)
    (hb : body (opEnv s t g r es) = .ok (taken s) [] ∨ body (opEnv s t g r es) = .ok ((taken s).closeE (opEnv s t g r es)) []) :
    ∃ s', exec i s = .next s' ∧ Acted s s' t g r i [] := by
  have hstart := BodyMoved.start s t []
  obtain ⟨S, hS, hm⟩ : ∃ S, body (opEnv s t g r es) = .ok S [] ∧ BodyMoved s S t [] :=
    hb.elim (fun hb => ⟨_, hb, hstart⟩) fun hb => ⟨_, hb, hstart.step (.closeRegion _ (execLanes g r) [])⟩
  obtain ⟨s', hs, hact, -⟩ := laneIssue_moved h hS hm
  exact ⟨s', hexec.trans hs, hact⟩

theorem Env.dmAccess_none (e : Env) (sp : AccSpec) (ord : Order) (sc : Scope) (st : Option Sel) (plain : Bool) (val : Nat → Option Nat)
    (d : Dest) (op : State → List LaneAcc → FlightOp) (swept : Bool) : e.dmAccess sp ord sc st plain [] [] val d op swept = .ok e.s [] := rfl

/-! ### LDT and STT (R222) -/

theorem Env.tensor_none {e : Env} (h : e.ls = []) (o : TensorAcc) (sp : AccSpec) (d : Dest) (op : State → List LaneAcc → FlightOp)
    (swept : Bool) : e.tensor o sp d op swept = .ok e.s [] := by
  unfold Env.tensor Env.walked
  rw [h, State.translated_none]
  rfl

/-- The records that a core keeps leave workgroups. -/
theorem OnGroup.recKeep {s s' : State} (h : OnGroup s s' t) (core : Nat) (l : List RecEntry) :
    OnGroup s (overList l s' fun s r => s.recKeep core (some r)) t ∧ (overList l s' fun s r => s.recKeep core (some r)).wg t = s'.wg t := by
  induction l generalizing s' with
  | nil => exact ⟨h, rfl⟩
  | cons x l ih => exact ih (h.updCore core _)

/-- A tensor access whose lanes' shapes are read. -/
theorem Env.tensor_walked {o : TensorAcc} {reqs : List (LaneReq × Option RecEntry)} {b : State} (hwalked : Walked (opEnv s t g r es) (fun x l =>
      match (opEnv s t g r es).crewOf l with | some c => x.recReads (x.wg t) c o.shape (8 * l + 7) true | none => []) b)
    (hreqs : (execLanes g r).map ((envAt s t g r es b).tensorReq o) = reqs.map .ok) (sp : AccSpec) (d : Dest)
    (op : State → List LaneAcc → FlightOp) (swept : Bool) :
    (opEnv s t g r es).tensor o sp d op swept =
      match (envAt s t g r es b).dmAccess sp .relaxed .crew o.st true (reqs.map (·.1)) [] (fun _ => none) d op swept with
      | .ok s1 l => .ok (overList (reqs.filterMap (·.2)) s1 fun s1 x => s1.recKeep (envAt s t g r es b).w.core (some x)) l
      | res => res := by
  unfold Env.tensor Env.walked
  split
  next s1 p heq => cases heq.symm.trans hwalked
  next s1 heq =>
    obtain rfl : s1 = b := congrArg Prod.fst (heq.symm.trans hwalked)
    have hmap : (envAt s t g r es s1).ls.map ((envAt s t g r es s1).tensorReq o) = reqs.map .ok := hreqs
    unfold envAt at hmap
    dsimp only at hmap ⊢
    rw [hmap]
    simp only [List.filterMap_map, Function.comp_def, List.filterMap_none]
    rw [show reqs.filterMap (fun q => some q.1) = reqs.map (·.1) from congrFun List.filterMap_eq_map reqs]
    rfl

theorem fliesFrom_of_tensor {o : TensorAcc} {reqs : List (LaneReq × Option RecEntry)} {b : State} {sp : AccSpec} {d : Dest}
    {op : State → List LaneAcc → FlightOp} {swept : Bool} (h : Ready s t g r i es) (hwalked : Walked (opEnv s t g r es) (fun x l =>
      match (opEnv s t g r es).crewOf l with | some c => x.recReads (x.wg t) c o.shape (8 * l + 7) true | none => []) b)
    (hreqs : (execLanes g r).map ((envAt s t g r es b).tensorReq o) = reqs.map .ok) {body : Env → Res} (hexec : exec i s = laneIssue i body s)
    (hbody : body (opEnv s t g r es) = (opEnv s t g r es).tensor o sp d op swept) (hbank : sp.bank = false)
    (hop : ∀ (s2 : State) as vals, op (s2.answer t d as vals) (restOf as) = op s2 (restOf as)) :
    FliesFrom s t g r es b i sp .relaxed .crew o.st true (reqs.map (·.1)) (fun _ => none) d op := by
  refine fliesFrom_of_body h hexec (swept := swept) (fun hne hnil => ?_) (fun hb => Bool.noConfusion (hbank.symm.trans hb)) hop fun s2 as vals a hdm => ?_
  · rw [List.map_eq_nil_iff] at hnil
    rw [hnil] at hreqs
    exact hne (List.map_eq_nil_iff.1 hreqs)
  · obtain ⟨hon, hwg⟩ := (OnGroup.sent s2 (envAt s t g r es b) d as vals a).recKeep (t := t) (envAt s t g r es b).w.core (reqs.filterMap (·.2))
    refine ⟨_, hbody.trans ((Env.tensor_walked hwalked hreqs sp d op swept).trans ?_), hon, ?_⟩
    · rw [hdm]
    · rw [hwg]
      exact s2.wg_sent (envAt s t g r es b) d as vals a (lanesOf_nodup ..)

/-! ### ATOM and RED (R223) -/

theorem fliesFrom_of_atomic {o : RecAtom} {c : Option Sel} {n : Nat} (h : Ready s t g r i es) {body : Env → Res}
    (hexec : exec i s = laneIssue i body s) (hbody : body (opEnv s t g r es) = Env.atomic o c n (opEnv s t g r es)) :
    FliesFrom s t g r es (taken s) i { z := wbytes o.w, write := true, strict := true, noSenc := true } o.ord o.scope o.st false
      ((execLanes g r).map ((opEnv s t g r es).offReq o.rcd o.off)) (fun _ => none) none
      (atomItem o c fun l => (opEnv s t g r es).regs l o.data n (popsIn ((o.off, 1) :: o.rcd.sels)) 8) := by
  refine fliesFrom_of_body h hexec (swept := false) (fun hne hnil => hne (List.map_eq_nil_iff.1 hnil)) (fun hb => Bool.noConfusion hb)
    (fun _ _ _ => rfl) fun s2 as vals a hdm => ?_
  have hon := (OnGroup.sent s2 (envAt s t g r es (taken s)) none as vals a).updWg fun w => w.closeRegion (execLanes g r)
  refine ⟨_, hbody.trans ?_, hon, ?_⟩
  · unfold Env.atomic
    exact congrArg (fun res : Res => match res with | .ok b l => Res.ok (b.closeE (opEnv s t g r es)) l | res => res) hdm
  · exact (State.wg_updWg_self ..).symm ▸ (s2.wg_sent (envAt s t g r es (taken s)) none as vals a (lanesOf_nodup ..)).closeRegion

theorem stBody_eq (w : Width) (ord : Order) (sc : Scope) (a : MemAddr) (q : Sel) (st : Option Sel) (e : Env) : stBody w ord sc a q st e =
    e.dmAccess { z := wbytes w, write := true, noSenc := true, bank := bankWidth w } ord sc st (ord == .relaxed) (e.ls.map (e.memReq a)) []
      (fun l => some (natOfBytes (e.storeBytes q w (popsIn a.sels) 8 l))) none (storeOp (e.storeBytes q w (popsIn a.sels) 8)) := rfl

theorem atomic_none {e : Env} (h : e.ls = []) (o : RecAtom) (c : Option Sel) (n : Nat) : Env.atomic o c n e = .ok (e.s.closeE e) [] := by
  unfold Env.atomic
  rw [h]
  rfl

theorem bankWidth_wspan {w : Width} (h : bankWidth w = true) : wspan w = 1 ∨ wspan w = 2 := by
  cases w <;> simp_all [bankWidth, wspan]

theorem wspan_of_dst {nw : Bool} {q : Sel} {w : Width} (h : bankWidth w = true) {x : Sel} {n : Nat} (hd : dst nw q (wspan w) = some (x, n)) :
    n = 1 ∨ n = 2 := by
  cases nw with
  | true => cases hd
  | false =>
    cases hd
    exact bankWidth_wspan h

/-- What a load waits for in sweep tables is not in registers. -/
theorem loadOp_answer (w : Width) (d : Option Sel) (swept : Bool) (s2 : State) (t : Nat) (e : Dest) (as bs : List LaneAcc)
    (vals : List (Nat × Nat)) : loadOp w d swept (s2.answer t e as vals) bs = loadOp w d swept s2 bs := by
  cases e with
  | none => rfl
  | some q => rfl

end

/-- Settles O21: the body of each instruction is one access counted on DM, after its walks where it reads shapes. -/
theorem deviceAccessesGoIntoFlight : Obligations.DeviceAccessesGoIntoFlight := by
  unfold Obligations.DeviceAccessesGoIntoFlight
  intro s t g r es e ls flies idle
  have hmap : ∀ f : Nat → LaneReq, execLanes g r ≠ [] → (execLanes g r).map f ≠ [] := fun f hne hnil => hne (List.map_eq_nil_iff.1 hnil)
  have hidle : ∀ {i : Instr} {body : Env → Res}, exec i s = laneIssue i body s → (ls = [] → body e = .ok (taken s) [] ∨ body e = .ok ((taken s).closeE e) []) → idle i :=
    fun hexec hb h hnil => laneIssue_idle h hexec (hb hnil)
  have hnone : ∀ {sp : AccSpec} {ord : Order} {sc : Scope} {st : Option Sel} {plain : Bool} {f : Nat → LaneReq} {val : Nat → Option Nat}
      {d : Dest} {op : State → List LaneAcc → FlightOp} {swept : Bool}, ls = [] →
      e.dmAccess sp ord sc st plain (ls.map f) [] val d op swept = .ok (taken s) [] := fun hnil => by
    rw [hnil]
    exact Env.dmAccess_none ..
  refine ⟨fun w ord sc nw sw a d st => ⟨?_, fun h => ?_⟩, fun w ord sc a d st => ⟨?_, fun h => ?_⟩, fun o => ⟨?_, ?_, ?_⟩, fun o => ?_⟩
  · exact hidle (body := ldBody w ord sc nw sw a d st) rfl fun hnil => .inl (hnone hnil)
  · exact fliesFrom_of_eq (body := ldBody w ord sc nw sw a d st) h rfl (hmap _) (fun hb q n hd => wspan_of_dst hb hd)
      (fun _ _ _ => loadOp_answer ..) rfl
  · exact hidle (body := stBody w ord sc a d st) rfl fun hnil => .inl ((stBody_eq ..).trans (hnone hnil))
  · exact fliesFrom_of_eq (body := stBody w ord sc a d st) h rfl (hmap _) (fun _ _ _ hd => absurd hd (by simp)) (fun _ _ _ => rfl) (stBody_eq ..)
  · exact hidle (body := ldtBody o) rfl fun hnil => .inl (Env.tensor_none hnil ..)
  · exact hidle (body := sttBody o) rfl fun hnil => .inl (Env.tensor_none hnil ..)
  · intro reqs b hwalked hreqs
    exact ⟨fun h => fliesFrom_of_tensor h hwalked hreqs (body := ldtBody o) rfl rfl rfl fun _ _ _ => loadOp_answer ..,
      fun h => fliesFrom_of_tensor h hwalked hreqs (body := sttBody o) rfl rfl rfl fun _ _ _ => rfl⟩
  · refine ⟨hidle (body := atomBody o) rfl fun hnil => .inr (atomic_none hnil ..),
      hidle (body := redBody o) rfl fun hnil => .inr (atomic_none hnil ..),
      fun h => fliesFrom_of_atomic (body := atomBody o) h rfl rfl, fun h => fliesFrom_of_atomic (body := redBody o) h rfl rfl⟩

end Sys2Proof.Machine
end

section
/-! SUPPORT. Number formats (spec/05 R98-R103): patterns and the values that they stand for. -/

namespace Sys2Proof.Machine

open Sys2Proof Sys2Proof.Safety

-- One proof at a time: side by side they need more threads than a check's memory holds.
set_option Elab.async false

/-- What the formats of a TYPE have in common. -/
structure Binary (f : FFmt) : Prop where
  notE4m3 : f.isE4m3 = false
  fraction : 1 ≤ f.mb
  narrow : f.mb ≤ 52
  bias : 2 * f.bias + 1 = 2 ^ f.eb - 1
  exponent : 2 ≤ f.eb

theorem binary_ftFmt (t : FType) : Binary (ftFmt t) := by
  cases t <;> exact ⟨rfl, by decide, by decide, by decide, by decide⟩

theorem width_ftFmt (t : FType) : (ftFmt t).width = t.bits := by cases t <;> rfl

section
variable {f : FFmt} {x : Nat}

/-- The fields of a pattern. -/
theorem pattern_eq (f : FFmt) (x : Nat) (hx : x < 2 ^ f.width) :
    x = f.signBit (bitAt x (f.mb + f.eb)) + bits x f.mb f.eb * 2 ^ f.mb + x % 2 ^ f.mb := by
  have hsplit := Nat.div_add_mod x (2 ^ f.mb)
  have hexp := Nat.div_add_mod (x / 2 ^ f.mb) (2 ^ f.eb)
  have hdiv : x / 2 ^ f.mb / 2 ^ f.eb = x / 2 ^ (f.mb + f.eb) := by rw [Nat.div_div_eq_div_mul, pow_add]
  have hlt : x / 2 ^ (f.mb + f.eb) < 2 := by
    rw [Nat.div_lt_iff_lt_mul (Nat.two_pow_pos _), ← pow_succ']
    rwa [show f.mb + f.eb + 1 = f.width by unfold FFmt.width; omega]
  have hsign : f.signBit (bitAt x (f.mb + f.eb)) = x / 2 ^ (f.mb + f.eb) * 2 ^ (f.mb + f.eb) := by
    unfold FFmt.signBit bitAt
    generalize x / 2 ^ (f.mb + f.eb) = b at hlt ⊢
    interval_cases b <;> simp
  rw [hsign]
  unfold bits
  rw [← hdiv]
  generalize x / 2 ^ f.mb = y at *
  calc x = 2 ^ f.mb * (2 ^ f.eb * (y / 2 ^ f.eb) + y % 2 ^ f.eb) + x % 2 ^ f.mb := by rw [hexp, hsplit]
    _ = y / 2 ^ f.eb * 2 ^ (f.mb + f.eb) + y % 2 ^ f.eb * 2 ^ f.mb + x % 2 ^ f.mb := by ring

/-- What a pattern of a format with infinities stands for. -/
theorem Binary.decode_eq (hf : Binary f) (x : Nat) : f.decode x =
    if bits x f.mb f.eb = 2 ^ f.eb - 1 then
      if x % 2 ^ f.mb = 0 then .inf (bitAt x (f.mb + f.eb))
      else .nan (bitAt x (f.mb + f.eb)) (x % 2 ^ f.mb * 2 ^ (52 - f.mb)) (!bitAt (x % 2 ^ f.mb) (f.mb - 1))
    else if bits x f.mb f.eb = 0 then .fin (bitAt x (f.mb + f.eb)) (x % 2 ^ f.mb) f.emin
    else .fin (bitAt x (f.mb + f.eb)) (2 ^ f.mb + x % 2 ^ f.mb) (f.emin + (bits x f.mb f.eb : Int) - 1) := by
  unfold FFmt.decode
  dsimp only
  rw [hf.notE4m3]
  rfl

theorem Binary.isNan_decode (hf : Binary f) (x : Nat) : (f.decode x).isNan = isNaN f x := by
  rw [hf.decode_eq]
  unfold isNaN
  split_ifs with hexp hfrac
  · simp [FVal.isNan, hfrac]
  · simp [FVal.isNan, hexp, hfrac]
  · simp [FVal.isNan, hexp]
  · simp [FVal.isNan, hexp]

/-- The fraction bits of a pattern with its quiet bit set. -/
theorem or_quiet {f : FFmt} (hf : 1 ≤ f.mb) (y r : Nat) (hr : r < 2 ^ f.mb) :
    (y * 2 ^ f.mb + r) ||| 2 ^ (f.mb - 1) = y * 2 ^ f.mb + (2 ^ (f.mb - 1) ||| r) := by
  have hquiet : 2 ^ (f.mb - 1) ||| r < 2 ^ f.mb := Nat.or_lt_two_pow (Nat.pow_lt_pow_right (by decide) (by omega)) hr
  refine Nat.eq_of_testBit_eq fun j => ?_
  rw [Nat.testBit_or, Nat.mul_comm y, Nat.testBit_two_pow_mul_add _ hr, Nat.testBit_two_pow_mul_add _ hquiet, Nat.testBit_or]
  split
  · exact Bool.or_comm ..
  next hj => rw [Nat.testBit_two_pow_of_ne (by omega), Bool.or_false]

/-- A NaN that is delivered is the operand, quieted (R102). -/
theorem Binary.nanBits_decode (hf : Binary f) (hx : x < 2 ^ f.width) {n sig : Bool} {fr : Nat} (h : f.decode x = .nan n fr sig) :
    f.nanBits n fr = quieted f x := by
  rw [hf.decode_eq] at h
  split_ifs at h with hexp hfrac
  cases h
  have hpattern := pattern_eq f x hx
  rw [hexp] at hpattern
  unfold FFmt.nanBits quieted orNat
  rw [hf.notE4m3, Nat.mul_div_cancel _ (Nat.two_pow_pos _)]
  set sign := f.signBit (bitAt x (f.mb + f.eb)) with hsign
  obtain ⟨y, hy⟩ : ∃ y, sign = y * 2 ^ f.mb := by
    rw [hsign]
    unfold FFmt.signBit
    split
    · exact ⟨2 ^ f.eb, by rw [pow_add, Nat.mul_comm]⟩
    · exact ⟨0, (Nat.zero_mul _).symm⟩
  have hor := or_quiet hf.fraction (y + (2 ^ f.eb - 1)) (x % 2 ^ f.mb) (Nat.mod_lt _ (Nat.two_pow_pos _))
  rw [Nat.add_mul, ← hy, ← hpattern] at hor
  exact hor.symm

theorem Binary.infBits_decode (hf : Binary f) (hx : x < 2 ^ f.width) {n : Bool} (h : f.decode x = .inf n) : f.infBits n = x := by
  rw [hf.decode_eq] at h
  split_ifs at h with hexp hfrac
  cases h
  have hpattern := pattern_eq f x hx
  rw [hexp, hfrac] at hpattern
  exact hpattern.symm

end

end Sys2Proof.Machine
end
